-- ==== Sys2Proof/Word.lean ====
section
/-! DEFINITION. The machine word of the LF9700 and the plainest arithmetic on it: 64-bit registers,
bytes, and the packet and register-cell widths (R6, R7, R66). -/

namespace Sys2Proof

/-- A 64-bit scalar, job, eft or vector-stream register (R66). -/
abbrev Word := BitVec 64

/-- The unit of memory (R6). -/
abbrev Byte := BitVec 8

/-- One 32-bit cell of a vector register, a packet or an accumulator (R66). -/
abbrev Cell32 := BitVec 32

/-- One bit per byte of a 1,024-byte register or packet: predicates and lane masks (R66, R58). -/
abbrev Mask := BitVec 1024

/-- `pow2 n` is 2 to the power n. -/
def pow2 (n : Nat) : Nat := 2 ^ n

/-- The bits hi:lo of the number w (R5, R9). -/
def fld (w hi lo : Nat) : Nat := w / pow2 lo % pow2 (hi + 1 - lo)

/-- The number whose low n bits are read as two's complement (R122). -/
def sextNat (w n : Nat) : Int :=
  if w % pow2 n < pow2 (n - 1) then (w % pow2 n : Nat) else (w % pow2 n : Nat) - (pow2 n : Nat)

/-- The smallest whole number not below a / b, for b > 0. -/
def ceilDiv (a b : Nat) : Nat := (a + b - 1) / b

/-- The 64-bit word of an integer, modulo 2^64 (R122). -/
def wordOfInt (z : Int) : Word := BitVec.ofInt 64 z

end Sys2Proof
end

