-- ==== Sys2Proof/Syntax.lean ====
section
/-! DEFINITION. The operations and events of the LF9700: one constructor of `Instr` per row of the
table, and the small types the events' operands have. -/

namespace Sys2Proof

/-- What a response carries instead of data: poisoned bytes, or a remote error with its reason code (R138, R427). -/
inductive DataError where
  | poison
  | remote (reason : Nat)
  deriving DecidableEq, Repr

/-- The word a replay trigger was found in (R244, R448): a word of weight bank b at load row r, an A row or
a scale packet of an MMA, an accumulator row of a tile. `isParity` tells a parity error from poison. -/
inductive ReplaySite where
  | bank (b : Nat) (row : Nat)
  | packet
  | acc (tile : Nat) (row : Nat)
  deriving DecidableEq, Repr

/-- What makes the matrix engine replay a command window (R244, R326, R451). -/
structure ReplayTrigger where
  site : ReplaySite
  isParity : Bool
  deriving DecidableEq, Repr

/-- How a fabric-level arrival message is answered (R341). -/
inductive ArrivalAnswer where
  | recorded
  | notYet
  | mismatch
  | error (reason : Nat)
  deriving DecidableEq, Repr

/-- A fabric-level arrival message (R341): its tags, the sender's coordinates, and, where it is the answer
to one this package sent, the answer. -/
structure FabricArrival where
  fabid : Nat
  fpkgs : Nat
  member : Nat
  coord : Nat
  ph4 : BitVec 32
  answer : Option ArrivalAnswer
  deriving DecidableEq, Repr

/-- A request to load a code object (R362-R374): the context, CODEOBJ, the physical pages the runtime gives
it (contiguous from a base), the image, the slot values by NAMEH, and the pages of the image that hold code, which the
image itself does not tell (log 19). -/
structure LoadRequest where
  ctx : Nat
  va : Nat
  phys : Nat
  image : List (BitVec 8)
  slots : List (Nat × Nat)
  code : List Nat
  deriving DecidableEq, Repr

/-- The registers the runtime rewrites when it resumes a group (R449). -/
structure ResumeRewrite where
  regs : List (Nat × BitVec 64)
  pc : Option (BitVec 64)
  deriving DecidableEq, Repr

/-- What a request from the torus does at its home (R417). -/
inductive RemoteOp where
  | load
  | store (value : Nat)
  | atomic (op : Nat) (b : BitVec 64) (cmp : BitVec 64)
  | commit (orders : List Nat)
  deriving DecidableEq, Repr

/-- A request that arrives from the torus (R417), or a packet of any kind that passes through: the source core, by coordinates,
die and core; its place in that core's order and its class; the address at its home; the cycles it has waited for a version-buffer
entry (R301); the tag its reply carries (R425); the link, the channel and the flits it came in (R420); for an atomic the places
of the stores that a FENCE of its stream orders before it (R140, R303); the quiescence window it counts in here (R402); where it
only passes through, the package that its leg goes to, the destination after an intermediate package, and whether the leg to that
begins here (R413, R415); whether a store's bytes are poisoned (R446), and whether an atomic is an amo (0), a vupd element (1) or a
CSIG (2) (R447); the cycle in which it is at its home, 0 before it is on its way there (R418); and once it has been
performed, what its reply says. -/
structure RemoteRequest where
  src : Nat
  die : Nat
  core : Nat
  order : Nat
  cls : Nat
  addr : Nat
  size : Nat
  op : RemoteOp
  waited : Nat
  tag : Nat
  gen : Nat
  link : Nat
  chan : Nat
  flits : Nat
  fenced : List Nat := []
  window : Nat := 0
  dest : Option Nat := none
  final : Option Nat := none
  secondLeg : Bool := false
  poison : Bool := false
  quiet : Nat := 0
  due : Nat := 0
  answer : Option (Nat × Option DataError) := none
  deriving DecidableEq, Repr

/-- A flit of a torus link by its sequence number (R419). -/
structure LinkFlit where
  link : Nat
  seq : Nat
  deriving DecidableEq, Repr

/-- A unit under a targeted self-test (R452-R454, R460, R461, R490): its class, index, core (0xFF if none) and die, the
failing address and the syndrome, the severity and what has been done about the error, the cycle of its detection, and CTXMASK as it
was then. -/
structure TestUnit where
  uclass : Nat
  index : Nat
  core : Nat
  die : Nat
  addr : Nat
  synd : Nat
  sev : Nat
  action : Nat
  detected : Nat
  mask : Nat := 0
  deriving DecidableEq, Repr

/-- What the boot stages find (R468-R475): the verdicts of checks whose inputs lie outside the machine, the
configuration record, the capability tables by port, and what torus training gives. `hang` is a stage that
does not end by itself. -/
structure BootInputs where
  romOk : Bool
  image : List (BitVec 8)
  imageSigOk : Bool
  record : List (BitVec 8)
  firmware : List (BitVec 8)
  firmwareOk : Bool
  heartbeat : Bool
  chiplets : List (Nat × List (BitVec 8))
  lpddrOk : Bool
  dramOk : List Nat
  fabricOk : Bool
  coord : Nat
  size : Nat × Nat × Nat
  links : List (Option (Nat × Nat))
  entry : BitVec 64
  hang : Option Nat
  deriving DecidableEq, Repr

/-- A write of a device register by a unit outside the cores (R5): the host at a BAR0 offset of a function;
the platform controller at a package-local address; the runtime's descriptor of a context, a job's SCHEDCTL,
a role binding entry, a die's DSM carve-out, a control-die core's trap entry. -/
inductive RegWrite where
  | bar0 (fn : Nat) (offset : Nat) (size : Nat) (value : BitVec 64)
  | platform (addr : Nat) (size : Nat) (value : BitVec 64)
  | descriptor (ctx : Nat) (value : BitVec 128)
  | schedctl (core : Nat) (value : BitVec 32)
  | binding (launch : Nat) (role : Nat) (value : BitVec 16)
  | carveOut (die : Nat) (ways : Nat)
  | trapEntry (n : Nat) (value : BitVec 64)
  deriving DecidableEq, Repr

/-- What raises a security alarm (R477). -/
inductive AlarmTrigger where
  | excursion
  | temperature (die : Nat) (eighths : Int)
  | debugUnlock
  deriving DecidableEq, Repr

/-- The steps of the part: one constructor per row of the table of operations and events.
A word's constructor carries the word's fields, HINT fields included, at their widths (R48, R55, R62);
an event's carries what identifies the event. -/
inductive Instr where
  /-- ADD (R124). Writes a + b to x[D]. -/
  | add (d : BitVec 5) (a : BitVec 5) (b : BitVec 5) (h : BitVec 3)
  /-- SUB (R124). Writes a - b to x[D]. -/
  | sub (d : BitVec 5) (a : BitVec 5) (b : BitVec 5) (h : BitVec 3)
  /-- AND (R124). Writes the bitwise AND of a and b to x[D]. -/
  | and (d : BitVec 5) (a : BitVec 5) (b : BitVec 5) (h : BitVec 3)
  /-- OR (R124). Writes the bitwise OR of a and b to x[D]. -/
  | or (d : BitVec 5) (a : BitVec 5) (b : BitVec 5) (h : BitVec 3)
  /-- XOR (R124). Writes the bitwise XOR of a and b to x[D]. -/
  | xor (d : BitVec 5) (a : BitVec 5) (b : BitVec 5) (h : BitVec 3)
  /-- ANDN (R124). Writes a AND NOT b to x[D]. -/
  | andn (d : BitVec 5) (a : BitVec 5) (b : BitVec 5) (h : BitVec 3)
  /-- SLL (R124). Shifts a left by b[5:0]. -/
  | sll (d : BitVec 5) (a : BitVec 5) (b : BitVec 5) (h : BitVec 3)
  /-- SRL (R124). Shifts a right logically by b[5:0]. -/
  | srl (d : BitVec 5) (a : BitVec 5) (b : BitVec 5) (h : BitVec 3)
  /-- SRA (R124). Shifts a right arithmetically by b[5:0]. -/
  | sra (d : BitVec 5) (a : BitVec 5) (b : BitVec 5) (h : BitVec 3)
  /-- ROTR (R124). Rotates a right by b[5:0]. -/
  | rotr (d : BitVec 5) (a : BitVec 5) (b : BitVec 5) (h : BitVec 3)
  /-- SLT (R124). Writes 1 if a < b as signed integers, else 0. -/
  | slt (d : BitVec 5) (a : BitVec 5) (b : BitVec 5) (h : BitVec 3)
  /-- SLTU (R124). Writes 1 if a < b as unsigned integers, else 0. -/
  | sltu (d : BitVec 5) (a : BitVec 5) (b : BitVec 5) (h : BitVec 3)
  /-- MIN (R124). Writes the signed minimum of a and b. -/
  | min (d : BitVec 5) (a : BitVec 5) (b : BitVec 5) (h : BitVec 3)
  /-- MAX (R124). Writes the signed maximum of a and b. -/
  | max (d : BitVec 5) (a : BitVec 5) (b : BitVec 5) (h : BitVec 3)
  /-- MINU (R124). Writes the unsigned minimum of a and b. -/
  | minu (d : BitVec 5) (a : BitVec 5) (b : BitVec 5) (h : BitVec 3)
  /-- MAXU (R124). Writes the unsigned maximum of a and b. -/
  | maxu (d : BitVec 5) (a : BitVec 5) (b : BitVec 5) (h : BitVec 3)
  /-- MUL (R124). Writes the low 64 bits of a × b. -/
  | mul (d : BitVec 5) (a : BitVec 5) (b : BitVec 5) (h : BitVec 3)
  /-- MULH (R124). Writes the high 64 bits of the signed 128-bit product. -/
  | mulh (d : BitVec 5) (a : BitVec 5) (b : BitVec 5) (h : BitVec 3)
  /-- MULHU (R124). Writes the high 64 bits of the unsigned 128-bit product. -/
  | mulhu (d : BitVec 5) (a : BitVec 5) (b : BitVec 5) (h : BitVec 3)
  /-- DIV (R124). Writes the signed quotient truncated toward zero; division by zero gives all ones. -/
  | div (d : BitVec 5) (a : BitVec 5) (b : BitVec 5) (h : BitVec 3)
  /-- DIVU (R124). Writes the unsigned quotient; division by zero gives all ones. -/
  | divu (d : BitVec 5) (a : BitVec 5) (b : BitVec 5) (h : BitVec 3)
  /-- REM (R124). Writes the signed remainder, whose sign is the dividend's. -/
  | rem (d : BitVec 5) (a : BitVec 5) (b : BitVec 5) (h : BitVec 3)
  /-- REMU (R124). Writes the unsigned remainder. -/
  | remu (d : BitVec 5) (a : BitVec 5) (b : BitVec 5) (h : BitVec 3)
  /-- ADDW (R124). Writes the 32-bit sum, sign-extended. -/
  | addw (d : BitVec 5) (a : BitVec 5) (b : BitVec 5) (h : BitVec 3)
  /-- SUBW (R124). Writes the 32-bit difference, sign-extended. -/
  | subw (d : BitVec 5) (a : BitVec 5) (b : BitVec 5) (h : BitVec 3)
  /-- MULW (R124). Writes the 32-bit product, sign-extended. -/
  | mulw (d : BitVec 5) (a : BitVec 5) (b : BitVec 5) (h : BitVec 3)
  /-- SLLW (R124). Shifts the low 32 bits left and sign-extends the result. -/
  | sllw (d : BitVec 5) (a : BitVec 5) (b : BitVec 5) (h : BitVec 3)
  /-- SRLW (R124). Shifts the low 32 bits right logically and sign-extends the result. -/
  | srlw (d : BitVec 5) (a : BitVec 5) (b : BitVec 5) (h : BitVec 3)
  /-- SRAW (R124). Shifts the low 32 bits right arithmetically and sign-extends the result. -/
  | sraw (d : BitVec 5) (a : BitVec 5) (b : BitVec 5) (h : BitVec 3)
  /-- CLZ (R124). Counts the leading zero bits of a. -/
  | clz (d : BitVec 5) (a : BitVec 5) (h : BitVec 3)
  /-- CTZ (R124). Counts the trailing zero bits of a. -/
  | ctz (d : BitVec 5) (a : BitVec 5) (h : BitVec 3)
  /-- POPC (R124). Counts the one bits of a. -/
  | popc (d : BitVec 5) (a : BitVec 5) (h : BitVec 3)
  /-- BSWAP (R124). Reverses the bytes of a. -/
  | bswap (d : BitVec 5) (a : BitVec 5) (h : BitVec 3)
  /-- SEL (R124). Writes a if the old x[D] is nonzero, else b. -/
  | sel (d : BitVec 5) (a : BitVec 5) (b : BitVec 5) (h : BitVec 3)
  /-- FADD (R130). Scalar FP add, rounded by RMODE. -/
  | fadd (d : BitVec 5) (a : BitVec 5) (b : BitVec 5) (t : BitVec 1) (h : BitVec 3)
  /-- FSUB (R130). Scalar FP subtract. -/
  | fsub (d : BitVec 5) (a : BitVec 5) (b : BitVec 5) (t : BitVec 1) (h : BitVec 3)
  /-- FMUL (R130). Scalar FP multiply. -/
  | fmul (d : BitVec 5) (a : BitVec 5) (b : BitVec 5) (t : BitVec 1) (h : BitVec 3)
  /-- FDIV (R130). Scalar FP divide, with the DZ and NV special cases. -/
  | fdiv (d : BitVec 5) (a : BitVec 5) (b : BitVec 5) (t : BitVec 1) (h : BitVec 3)
  /-- FSQRT (R130). Scalar FP square root. -/
  | fsqrt (d : BitVec 5) (a : BitVec 5) (t : BitVec 1) (h : BitVec 3)
  /-- FMIN (R130). Scalar IEEE minimumNumber. -/
  | fmin (d : BitVec 5) (a : BitVec 5) (b : BitVec 5) (t : BitVec 1) (h : BitVec 3)
  /-- FMAX (R130). Scalar IEEE maximumNumber. -/
  | fmax (d : BitVec 5) (a : BitVec 5) (b : BitVec 5) (t : BitVec 1) (h : BitVec 3)
  /-- FMAC (R130). Fused multiply-add a × b + old x[D], rounded once. -/
  | fmac (d : BitVec 5) (a : BitVec 5) (b : BitVec 5) (t : BitVec 1) (h : BitVec 3)
  /-- FEQ (R130). Writes 1 if a equals b. -/
  | feq (d : BitVec 5) (a : BitVec 5) (b : BitVec 5) (t : BitVec 1) (h : BitVec 3)
  /-- FLT (R130). Writes 1 if a is less than b. -/
  | flt (d : BitVec 5) (a : BitVec 5) (b : BitVec 5) (t : BitVec 1) (h : BitVec 3)
  /-- FLE (R130). Writes 1 if a is less than or equal to b. -/
  | fle (d : BitVec 5) (a : BitVec 5) (b : BitVec 5) (t : BitVec 1) (h : BitVec 3)
  /-- FCVT (R130). Converts a from the other FP type to this type. -/
  | fcvt (d : BitVec 5) (a : BitVec 5) (t : BitVec 1) (h : BitVec 3)
  /-- FTOI (R130). Converts FP to i64, saturating. -/
  | ftoi (d : BitVec 5) (a : BitVec 5) (t : BitVec 1) (h : BitVec 3)
  /-- FTOU (R130). Converts FP to n64, saturating. -/
  | ftou (d : BitVec 5) (a : BitVec 5) (t : BitVec 1) (h : BitVec 3)
  /-- ITOF (R130). Converts i64 to FP. -/
  | itof (d : BitVec 5) (a : BitVec 5) (t : BitVec 1) (h : BitVec 3)
  /-- UTOF (R130). Converts n64 to FP. -/
  | utof (d : BitVec 5) (a : BitVec 5) (t : BitVec 1) (h : BitVec 3)
  /-- FABS (R130). Clears the sign bit of a. -/
  | fabs (d : BitVec 5) (a : BitVec 5) (t : BitVec 1) (h : BitVec 3)
  /-- FNEG (R130). Inverts the sign bit of a. -/
  | fneg (d : BitVec 5) (a : BitVec 5) (t : BitVec 1) (h : BitVec 3)
  /-- JALR (R144). Jumps indirectly to a land word, linking pc + 4. -/
  | jalr (d : BitVec 5) (a : BitVec 5) (h : BitVec 3)
  /-- JGET (R129). Copies a job register into a stream register. -/
  | jget (d : BitVec 5) (a : BitVec 5) (h : BitVec 3)
  /-- JSET (R129). Writes a stream register value into a job register. -/
  | jset (d : BitVec 5) (a : BitVec 5) (h : BitVec 3)
  /-- ADDI (R125). Adds a sign-extended immediate. -/
  | addi (d : BitVec 5) (a : BitVec 5) (imm : BitVec 16)
  /-- ANDI (R125). ANDs a zero-extended immediate. -/
  | andi (d : BitVec 5) (a : BitVec 5) (imm : BitVec 16)
  /-- ORI (R125). ORs a zero-extended immediate. -/
  | ori (d : BitVec 5) (a : BitVec 5) (imm : BitVec 16)
  /-- XORI (R125). XORs a zero-extended immediate. -/
  | xori (d : BitVec 5) (a : BitVec 5) (imm : BitVec 16)
  /-- SLTI (R125). Compares as signed with a sign-extended immediate. -/
  | slti (d : BitVec 5) (a : BitVec 5) (imm : BitVec 16)
  /-- SLTIU (R125). Compares as unsigned with a sign-extended immediate. -/
  | sltiu (d : BitVec 5) (a : BitVec 5) (imm : BitVec 16)
  /-- SLLI (R126). Shifts left by an immediate amount. -/
  | slli (d : BitVec 5) (a : BitVec 5) (n : BitVec 6)
  /-- SRLI (R126). Shifts right logically by an immediate amount. -/
  | srli (d : BitVec 5) (a : BitVec 5) (n : BitVec 6)
  /-- SRAI (R126). Shifts right arithmetically by an immediate amount. -/
  | srai (d : BitVec 5) (a : BitVec 5) (n : BitVec 6)
  /-- BFX (R127). Extracts a bit field, zero-extended. -/
  | bfx (d : BitVec 5) (a : BitVec 5) (p : BitVec 6) (l : BitVec 6)
  /-- BFX_S (R127). Extracts a bit field, sign-extended. -/
  | bfxS (d : BitVec 5) (a : BitVec 5) (p : BitVec 6) (l : BitVec 6)
  /-- BFI (R127). Inserts a bit field into x[D]. -/
  | bfi (d : BitVec 5) (a : BitVec 5) (p : BitVec 6) (l : BitVec 6)
  /-- LI (R128). Loads a sign-extended 21-bit immediate. -/
  | li (d : BitVec 5) (imm : BitVec 21)
  /-- LIH (R128). Places a 21-bit immediate at bits 63:43. -/
  | lih (d : BitVec 5) (imm : BitVec 21)
  /-- ADPC (R128). Writes a pc-relative address. -/
  | adpc (d : BitVec 5) (imm : BitVec 21)
  /-- LD (R133). Global load, sign-extending, in a routing class. -/
  | ld (d : BitVec 5) (a : BitVec 5) (sz : BitVec 2) (c : BitVec 2) (o : BitVec 12)
  /-- LDU (R133). Global load, zero-extending. -/
  | ldu (d : BitVec 5) (a : BitVec 5) (sz : BitVec 2) (c : BitVec 2) (o : BitVec 12)
  /-- ST (R133). Posts a global store in a routing class. -/
  | st (d : BitVec 5) (a : BitVec 5) (sz : BitVec 2) (c : BitVec 2) (o : BitVec 12)
  /-- LDS (R135). Scratchpad load, sign-extending. -/
  | lds (d : BitVec 5) (a : BitVec 5) (sz : BitVec 2) (o : BitVec 12)
  /-- LDSU (R135). Scratchpad load, zero-extending. -/
  | ldsu (d : BitVec 5) (a : BitVec 5) (sz : BitVec 2) (o : BitVec 12)
  /-- STS (R135). Scratchpad store. -/
  | sts (d : BitVec 5) (a : BitVec 5) (sz : BitVec 2) (o : BitVec 12)
  /-- LDQ (R136). Eft-stream global load whose bytes are appended to a stream port. -/
  | ldq (d : BitVec 5) (a : BitVec 5) (sz : BitVec 2) (c : BitVec 2) (o : BitVec 12)
  /-- AMO_ADD (R137). Atomic add at the home. -/
  | amoAdd (d : BitVec 5) (a : BitVec 5) (b : BitVec 5) (sz : BitVec 2) (c : BitVec 2)
  /-- AMO_AND (R137). Atomic AND at the home. -/
  | amoAnd (d : BitVec 5) (a : BitVec 5) (b : BitVec 5) (sz : BitVec 2) (c : BitVec 2)
  /-- AMO_OR (R137). Atomic OR at the home. -/
  | amoOr (d : BitVec 5) (a : BitVec 5) (b : BitVec 5) (sz : BitVec 2) (c : BitVec 2)
  /-- AMO_XOR (R137). Atomic XOR at the home. -/
  | amoXor (d : BitVec 5) (a : BitVec 5) (b : BitVec 5) (sz : BitVec 2) (c : BitVec 2)
  /-- AMO_MIN (R137). Atomic signed minimum. -/
  | amoMin (d : BitVec 5) (a : BitVec 5) (b : BitVec 5) (sz : BitVec 2) (c : BitVec 2)
  /-- AMO_MAX (R137). Atomic signed maximum. -/
  | amoMax (d : BitVec 5) (a : BitVec 5) (b : BitVec 5) (sz : BitVec 2) (c : BitVec 2)
  /-- AMO_SWAP (R137). Atomic swap. -/
  | amoSwap (d : BitVec 5) (a : BitVec 5) (b : BitVec 5) (sz : BitVec 2) (c : BitVec 2)
  /-- AMO_CAS (R137). Atomic compare-and-swap against the old x[D]. -/
  | amoCas (d : BitVec 5) (a : BitVec 5) (b : BitVec 5) (sz : BitVec 2) (c : BitVec 2)
  /-- AMO_FADD (R137). Atomic FP add by the near-bank rules. -/
  | amoFadd (d : BitVec 5) (a : BitVec 5) (b : BitVec 5) (sz : BitVec 2) (c : BitVec 2)
  /-- AMO_FMIN (R137). Atomic FP minimumNumber. -/
  | amoFmin (d : BitVec 5) (a : BitVec 5) (b : BitVec 5) (sz : BitVec 2) (c : BitVec 2)
  /-- AMO_FMAX (R137). Atomic FP maximumNumber. -/
  | amoFmax (d : BitVec 5) (a : BitVec 5) (b : BitVec 5) (sz : BitVec 2) (c : BitVec 2)
  /-- BEQ (R142). Branches if s[A] = s[B]. -/
  | beq (a : BitVec 5) (b : BitVec 5) (o : BitVec 13)
  /-- BNE (R142). Branches if s[A] ≠ s[B]. -/
  | bne (a : BitVec 5) (b : BitVec 5) (o : BitVec 13)
  /-- BLT (R142). Branches if s[A] < s[B] as signed integers. -/
  | blt (a : BitVec 5) (b : BitVec 5) (o : BitVec 13)
  /-- BGE (R142). Branches if s[A] ≥ s[B] as signed integers. -/
  | bge (a : BitVec 5) (b : BitVec 5) (o : BitVec 13)
  /-- BLTU (R142). Branches if s[A] < s[B] as unsigned integers. -/
  | bltu (a : BitVec 5) (b : BitVec 5) (o : BitVec 13)
  /-- BGEU (R142). Branches if s[A] ≥ s[B] as unsigned integers. -/
  | bgeu (a : BitVec 5) (b : BitVec 5) (o : BitVec 13)
  /-- J (R143). Jumps pc-relative. -/
  | j (o : BitVec 26)
  /-- JAL (R143). Jumps pc-relative and links s30. -/
  | jal (o : BitVec 26)
  /-- LAND (R145). Landing pad with no effect. -/
  | land
  /-- CWAIT_CONT (R158). Continues at the target, or yields until the channel's count is reached. -/
  | cwaitCont (n : BitVec 2) (a : BitVec 5) (o : BitVec 13)
  /-- VRUN (R150). Starts the group's vector stream on a table. -/
  | vrun (a : BitVec 5) (b : BitVec 5) (h : BitVec 3)
  /-- VWAIT (R151). Waits for the vector stream to end and returns the return word. -/
  | vwait (d : BitVec 5) (h : BitVec 3)
  /-- MRUN (R152). Starts a matrix table. -/
  | mrun (a : BitVec 5) (h : BitVec 3)
  /-- MWAIT (R154). Waits for the matrix stream to go idle and returns MFLAGS. -/
  | mwait (d : BitVec 5) (h : BitVec 3)
  /-- MSTOP (R153). Stops the running matrix table. -/
  | mstop (h : BitVec 3)
  /-- CRUN (R156). Starts a clicker program on a channel. -/
  | crun (a : BitVec 5) (b : BitVec 5) (u : BitVec 4) (h : BitVec 3)
  /-- CWAIT (R157). Waits until a channel's completion count is reached. -/
  | cwait (a : BitVec 5) (u : BitVec 4) (h : BitVec 3)
  /-- ERUN (R159). Starts the eft stream with an end address. -/
  | erun (d : BitVec 5) (a : BitVec 5) (b : BitVec 5) (h : BitVec 3)
  /-- FMTQ (R160). Pushes a format word into FQ. -/
  | fmtq (a : BitVec 5) (h : BitVec 3)
  /-- TRDL (R161). Starts a treadle run. -/
  | trdl (a : BitVec 5) (h : BitVec 3)
  /-- STITCH (R162). Waits for a treadle demand and returns its descriptor. -/
  | stitch (d : BitVec 5) (h : BitVec 3)
  /-- BIND (R165). Binds a stream port by a descriptor. -/
  | bind (a : BitVec 5) (b : BitVec 5) (h : BitVec 3)
  /-- UNBIND (R167). Releases a port once it is drained. -/
  | unbind (b : BitVec 5) (h : BitVec 3)
  /-- QDEPTH (R168). Reads a port's state. -/
  | qdepth (d : BitVec 5) (b : BitVec 5) (h : BitVec 3)
  /-- RBACQ_W (R170). Acquires register blocks, waiting until grantable. -/
  | rbacqW (d : BitVec 5) (a : BitVec 5) (h : BitVec 3)
  /-- RBACQ_T (R170). Tries to acquire register blocks, all or nothing. -/
  | rbacqT (d : BitVec 5) (a : BitVec 5) (h : BitVec 3)
  /-- RBREL (R171). Releases register blocks. -/
  | rbrel (a : BitVec 5) (h : BitVec 3)
  /-- TQPUSH (R172). Pushes one task record to a hardware task queue. -/
  | tqpush (d : BitVec 5) (a : BitVec 5) (b : BitVec 5) (h : BitVec 3)
  /-- LAUNCH (R173). Submits a dispatch packet from device code. -/
  | launch (d : BitVec 5) (a : BitVec 5) (b : BitVec 5) (h : BitVec 3)
  /-- CSRR (R182). Reads a state register. -/
  | csrr (d : BitVec 5) (num : BitVec 16)
  /-- CSRW (R182). Writes a state register and returns its old value. -/
  | csrw (d : BitVec 5) (a : BitVec 5) (num : BitVec 16)
  /-- CSRS (R182). Sets bits of a state register. -/
  | csrs (d : BitVec 5) (a : BitVec 5) (num : BitVec 16)
  /-- CSRC (R182). Clears bits of a state register. -/
  | csrc (d : BitVec 5) (a : BitVec 5) (num : BitVec 16)
  /-- PHASE (R174). Arrives at a phase boundary of a level. -/
  | phase (l : BitVec 3)
  /-- PHASE_E (R176). Arrives at an elastic phase boundary. -/
  | phaseE (l : BitVec 3)
  /-- FENCE (R177). Waits until earlier accesses of the named classes are performed. -/
  | fence (m : BitVec 3)
  /-- FLUSH (R178). Commits the stream's earlier stores and waits for acknowledgement. -/
  | flush
  /-- JOIN (R179). Ends the group. -/
  | join
  /-- YIELD (R180). Gives up the group's active position. -/
  | yield
  /-- TRAP (R184). Raises a software trap with a code. -/
  | trap (c : BitVec 8)
  /-- ERET (R185). Returns from a control-die trap. -/
  | eret
  /-- ICINV (R186). Invalidates an instruction-cache sector in a scope. -/
  | icinv (a : BitVec 5) (scope : BitVec 2)
  /-- TLBINV (R398). Invalidates translations in a scope and waits for acknowledgement. -/
  | tlbinv (a : BitVec 5) (scope : BitVec 3)
  /-- MOULT (R402). Queues a freed page in the moult queue and advances the window. -/
  | moult (a : BitVec 5)
  /-- QREAD (R187). Reads the quiescence counter of a window. -/
  | qread (d : BitVec 5) (w : BitVec 4)
  /-- RDPCC (R188). Reads the package cycle counter. -/
  | rdpcc (d : BitVec 5)
  /-- HALT (R185). Stops control-die issue until a wake event. -/
  | halt
  /-- NOP (R76). Scalar no-operation range. -/
  | nop (h : BitVec 26)
  /-- CLEV_COUNT (R248). Sets a loop level's count. -/
  | clevCount (l : BitVec 3) (v : BitVec 21)
  /-- CLEV_SS (R248). Sets a loop level's source stride. -/
  | clevSs (l : BitVec 3) (v : BitVec 21)
  /-- CLEV_DS (R248). Sets a loop level's destination stride. -/
  | clevDs (l : BitVec 3) (v : BitVec 21)
  /-- CLEV_JS (R248). Sets both strides of a level from job registers. -/
  | clevJs (l : BitVec 3) (sj : BitVec 4) (d : BitVec 4)
  /-- CBASE (R248). Loads a base from a job register plus an offset. -/
  | cbase (b : BitVec 3) (j : BitVec 4) (o : BitVec 19)
  /-- CCOPY (R250). Copies len bytes per iteration between spaces. -/
  | ccopy (src : BitVec 3) (dst : BitVec 3) (r : BitVec 4) (e : BitVec 4) (l : BitVec 10)
  /-- CCOPY_TOLNS (R251). Copies while converting linear elements to LNS. -/
  | ccopyTolns (src : BitVec 3) (dst : BitVec 3) (r : BitVec 4) (e : BitVec 4) (l : BitVec 10)
  /-- CCOPY_TOLIN (R251). Copies while converting LNS codes to linear. -/
  | ccopyTolin (src : BitVec 3) (dst : BitVec 3) (r : BitVec 4) (e : BitVec 4) (l : BitVec 10)
  /-- CFILL (R252). Fills len bytes per iteration with a job-register pattern. -/
  | cfill (dst : BitVec 3) (r : BitVec 4) (w : BitVec 2) (l : BitVec 10) (j : BitVec 4)
  /-- CSIG (R253). Makes an atomic add at a base after the copies complete. -/
  | csig (b : BitVec 3) (c : BitVec 2) (v : BitVec 16)
  /-- CEND (R253). Ends a clicker program. -/
  | cend
  /-- CNOP (R253). Clicker no-operation. -/
  | cnop
  /-- MLDW (R234). Loads a weight bank, its column scales and its format tag from scratchpad. -/
  | mldw (b : BitVec 1) (j : BitVec 4) (o : BitVec 13)
  /-- MSWAP (R235). Flips the active weight bank for later MMAs. -/
  | mswap
  /-- MMA (R237). Streams M rows of A through the active bank into accumulator tiles. -/
  | mma (t : BitVec 3) (a : BitVec 4) (sp : BitVec 4) (m : BitVec 5) (x : BitVec 1) (k : BitVec 1) (p : BitVec 1)
  /-- MSTAMP (R112). Sets the pending stamp. -/
  | mstamp (d : BitVec 24)
  /-- MDRAIN_PORT (R239). Converts a tile row by row and pushes the rows to a port. -/
  | mdrainPort (t : BitVec 3) (p : BitVec 4)
  /-- MDRAIN_SPM (R239). Converts a tile row by row and writes the rows to scratchpad. -/
  | mdrainSpm (t : BitVec 3) (j : BitVec 4) (o : BitVec 13)
  /-- MZERO (R241). Zeroes an accumulator tile. -/
  | mzero (t : BitVec 3)
  /-- MMARK (R243). Opens a command window. -/
  | mmark
  /-- MSEG (R113). Opens a segment of an exposed matrix table. -/
  | mseg (c : BitVec 20)
  /-- MTREADLE (R242). Configures a treadle run. -/
  | mtreadle (p : BitVec 1) (r : BitVec 5) (b : BitVec 8) (n : BitVec 12)
  /-- MTEND (R242). Ends a matrix table or a treadle run. -/
  | mtend
  /-- MFLAGS (R241). Clears the masked MFLAGS bits. -/
  | mflags (m : BitVec 9)
  /-- MNOP (R241). Matrix no-operation. -/
  | mnop
  /-- VADD_FP (R197). Vector FP add. -/
  | vaddFp (d : BitVec 6) (a : BitVec 6) (b : BitVec 6) (f : BitVec 2) (k : BitVec 1) (g : BitVec 4)
  /-- VSUB_FP (R197). Vector FP subtract. -/
  | vsubFp (d : BitVec 6) (a : BitVec 6) (b : BitVec 6) (f : BitVec 2) (k : BitVec 1) (g : BitVec 4)
  /-- VMUL_FP (R197). Vector FP multiply. -/
  | vmulFp (d : BitVec 6) (a : BitVec 6) (b : BitVec 6) (f : BitVec 2) (k : BitVec 1) (g : BitVec 4)
  /-- VFMA (R197). Vector fused multiply-add into d. -/
  | vfma (d : BitVec 6) (a : BitVec 6) (b : BitVec 6) (f : BitVec 2) (k : BitVec 1) (g : BitVec 4)
  /-- VFNMA (R197). Vector fused d - a × b. -/
  | vfnma (d : BitVec 6) (a : BitVec 6) (b : BitVec 6) (f : BitVec 2) (k : BitVec 1) (g : BitVec 4)
  /-- VMIN_FP (R197). Vector FP minimumNumber. -/
  | vminFp (d : BitVec 6) (a : BitVec 6) (b : BitVec 6) (f : BitVec 2) (k : BitVec 1) (g : BitVec 4)
  /-- VMAX_FP (R197). Vector FP maximumNumber. -/
  | vmaxFp (d : BitVec 6) (a : BitVec 6) (b : BitVec 6) (f : BitVec 2) (k : BitVec 1) (g : BitVec 4)
  /-- VDIV_FP (R197). Vector FP divide. -/
  | vdivFp (d : BitVec 6) (a : BitVec 6) (b : BitVec 6) (f : BitVec 2) (k : BitVec 1) (g : BitVec 4)
  /-- VSQRT (R197). Vector FP square root. -/
  | vsqrt (d : BitVec 6) (a : BitVec 6) (f : BitVec 2) (k : BitVec 1) (g : BitVec 4)
  /-- VABS (R197). Vector FP absolute value. -/
  | vabs (d : BitVec 6) (a : BitVec 6) (f : BitVec 2) (k : BitVec 1) (g : BitVec 4)
  /-- VNEG (R197). Vector FP negation. -/
  | vneg (d : BitVec 6) (a : BitVec 6) (f : BitVec 2) (k : BitVec 1) (g : BitVec 4)
  /-- VRCP (R198). Vector reciprocal by the published Table16 sequence. -/
  | vrcp (d : BitVec 6) (a : BitVec 6) (f : BitVec 2) (k : BitVec 1) (g : BitVec 4)
  /-- VRSQ (R198). Vector reciprocal square root. -/
  | vrsq (d : BitVec 6) (a : BitVec 6) (f : BitVec 2) (k : BitVec 1) (g : BitVec 4)
  /-- VEXP2 (R198). Vector base-2 exponential. -/
  | vexp2 (d : BitVec 6) (a : BitVec 6) (f : BitVec 2) (k : BitVec 1) (g : BitVec 4)
  /-- VLOG2 (R198). Vector base-2 logarithm. -/
  | vlog2 (d : BitVec 6) (a : BitVec 6) (f : BitVec 2) (k : BitVec 1) (g : BitVec 4)
  /-- VADD_INT (R199). Vector integer add. -/
  | vaddInt (d : BitVec 6) (a : BitVec 6) (b : BitVec 6) (w : BitVec 2) (k : BitVec 1) (g : BitVec 4)
  /-- VSUB_INT (R199). Vector integer subtract. -/
  | vsubInt (d : BitVec 6) (a : BitVec 6) (b : BitVec 6) (w : BitVec 2) (k : BitVec 1) (g : BitVec 4)
  /-- VMUL_INT (R199). Vector integer multiply, low half. -/
  | vmulInt (d : BitVec 6) (a : BitVec 6) (b : BitVec 6) (w : BitVec 2) (k : BitVec 1) (g : BitVec 4)
  /-- VMULH (R199). Vector signed multiply, high half. -/
  | vmulh (d : BitVec 6) (a : BitVec 6) (b : BitVec 6) (w : BitVec 2) (k : BitVec 1) (g : BitVec 4)
  /-- VMULHU (R199). Vector unsigned multiply, high half. -/
  | vmulhu (d : BitVec 6) (a : BitVec 6) (b : BitVec 6) (w : BitVec 2) (k : BitVec 1) (g : BitVec 4)
  /-- VAND (R199). Vector bitwise AND. -/
  | vand (d : BitVec 6) (a : BitVec 6) (b : BitVec 6) (w : BitVec 2) (k : BitVec 1) (g : BitVec 4)
  /-- VOR (R199). Vector bitwise OR. -/
  | vor (d : BitVec 6) (a : BitVec 6) (b : BitVec 6) (w : BitVec 2) (k : BitVec 1) (g : BitVec 4)
  /-- VXOR (R199). Vector bitwise XOR. -/
  | vxor (d : BitVec 6) (a : BitVec 6) (b : BitVec 6) (w : BitVec 2) (k : BitVec 1) (g : BitVec 4)
  /-- VSLL (R199). Vector logical left shift. -/
  | vsll (d : BitVec 6) (a : BitVec 6) (b : BitVec 6) (w : BitVec 2) (k : BitVec 1) (g : BitVec 4)
  /-- VSRL (R199). Vector logical right shift. -/
  | vsrl (d : BitVec 6) (a : BitVec 6) (b : BitVec 6) (w : BitVec 2) (k : BitVec 1) (g : BitVec 4)
  /-- VSRA (R199). Vector arithmetic right shift. -/
  | vsra (d : BitVec 6) (a : BitVec 6) (b : BitVec 6) (w : BitVec 2) (k : BitVec 1) (g : BitVec 4)
  /-- VMIN_INT (R199). Vector signed minimum. -/
  | vminInt (d : BitVec 6) (a : BitVec 6) (b : BitVec 6) (w : BitVec 2) (k : BitVec 1) (g : BitVec 4)
  /-- VMAX_INT (R199). Vector signed maximum. -/
  | vmaxInt (d : BitVec 6) (a : BitVec 6) (b : BitVec 6) (w : BitVec 2) (k : BitVec 1) (g : BitVec 4)
  /-- VMINU (R199). Vector unsigned minimum. -/
  | vminu (d : BitVec 6) (a : BitVec 6) (b : BitVec 6) (w : BitVec 2) (k : BitVec 1) (g : BitVec 4)
  /-- VMAXU (R199). Vector unsigned maximum. -/
  | vmaxu (d : BitVec 6) (a : BitVec 6) (b : BitVec 6) (w : BitVec 2) (k : BitVec 1) (g : BitVec 4)
  /-- VADDS (R199). Vector signed saturating add. -/
  | vadds (d : BitVec 6) (a : BitVec 6) (b : BitVec 6) (w : BitVec 2) (k : BitVec 1) (g : BitVec 4)
  /-- VSUBS (R199). Vector signed saturating subtract. -/
  | vsubs (d : BitVec 6) (a : BitVec 6) (b : BitVec 6) (w : BitVec 2) (k : BitVec 1) (g : BitVec 4)
  /-- VADDSU (R199). Vector unsigned saturating add. -/
  | vaddsu (d : BitVec 6) (a : BitVec 6) (b : BitVec 6) (w : BitVec 2) (k : BitVec 1) (g : BitVec 4)
  /-- VSUBSU (R199). Vector unsigned saturating subtract. -/
  | vsubsu (d : BitVec 6) (a : BitVec 6) (b : BitVec 6) (w : BitVec 2) (k : BitVec 1) (g : BitVec 4)
  /-- VDIV_INT (R199). Vector signed divide. -/
  | vdivInt (d : BitVec 6) (a : BitVec 6) (b : BitVec 6) (w : BitVec 2) (k : BitVec 1) (g : BitVec 4)
  /-- VDIVU (R199). Vector unsigned divide. -/
  | vdivu (d : BitVec 6) (a : BitVec 6) (b : BitVec 6) (w : BitVec 2) (k : BitVec 1) (g : BitVec 4)
  /-- VREM (R199). Vector signed remainder. -/
  | vrem (d : BitVec 6) (a : BitVec 6) (b : BitVec 6) (w : BitVec 2) (k : BitVec 1) (g : BitVec 4)
  /-- VREMU (R199). Vector unsigned remainder. -/
  | vremu (d : BitVec 6) (a : BitVec 6) (b : BitVec 6) (w : BitVec 2) (k : BitVec 1) (g : BitVec 4)
  /-- VADDI (R200). Vector add of an immediate on 32-bit elements. -/
  | vaddi (d : BitVec 6) (a : BitVec 6) (imm : BitVec 9) (g : BitVec 4)
  /-- VANDI (R200). Vector AND with an immediate. -/
  | vandi (d : BitVec 6) (a : BitVec 6) (imm : BitVec 9) (g : BitVec 4)
  /-- VORI (R200). Vector OR with an immediate. -/
  | vori (d : BitVec 6) (a : BitVec 6) (imm : BitVec 9) (g : BitVec 4)
  /-- VXORI (R200). Vector XOR with an immediate. -/
  | vxori (d : BitVec 6) (a : BitVec 6) (imm : BitVec 9) (g : BitVec 4)
  /-- VSLLI (R200). Vector left shift by an immediate. -/
  | vslli (d : BitVec 6) (a : BitVec 6) (n : BitVec 5) (g : BitVec 4)
  /-- VSRLI (R200). Vector logical right shift by an immediate. -/
  | vsrli (d : BitVec 6) (a : BitVec 6) (n : BitVec 5) (g : BitVec 4)
  /-- VSRAI (R200). Vector arithmetic right shift by an immediate. -/
  | vsrai (d : BitVec 6) (a : BitVec 6) (n : BitVec 5) (g : BitVec 4)
  /-- VMOVI (R200). Vector move of an immediate. -/
  | vmovi (d : BitVec 6) (imm : BitVec 9) (g : BitVec 4)
  /-- VCEQ_FP (R201). Pushes an FP equal predicate. -/
  | vceqFp (a : BitVec 6) (b : BitVec 6) (f : BitVec 2) (k : BitVec 1) (g : BitVec 4)
  /-- VCLT_FP (R201). Pushes an FP less-than predicate. -/
  | vcltFp (a : BitVec 6) (b : BitVec 6) (f : BitVec 2) (k : BitVec 1) (g : BitVec 4)
  /-- VCLE_FP (R201). Pushes an FP less-or-equal predicate. -/
  | vcleFp (a : BitVec 6) (b : BitVec 6) (f : BitVec 2) (k : BitVec 1) (g : BitVec 4)
  /-- VCNE_FP (R201). Pushes an FP not-equal predicate. -/
  | vcneFp (a : BitVec 6) (b : BitVec 6) (f : BitVec 2) (k : BitVec 1) (g : BitVec 4)
  /-- VCEQ_INT (R201). Pushes an integer equal predicate. -/
  | vceqInt (a : BitVec 6) (b : BitVec 6) (w : BitVec 2) (k : BitVec 1) (g : BitVec 4)
  /-- VCNE_INT (R201). Pushes an integer not-equal predicate. -/
  | vcneInt (a : BitVec 6) (b : BitVec 6) (w : BitVec 2) (k : BitVec 1) (g : BitVec 4)
  /-- VCLT_INT (R201). Pushes a signed less-than predicate. -/
  | vcltInt (a : BitVec 6) (b : BitVec 6) (w : BitVec 2) (k : BitVec 1) (g : BitVec 4)
  /-- VCLTU (R201). Pushes an unsigned less-than predicate. -/
  | vcltu (a : BitVec 6) (b : BitVec 6) (w : BitVec 2) (k : BitVec 1) (g : BitVec 4)
  /-- VCLE_INT (R201). Pushes a signed less-or-equal predicate. -/
  | vcleInt (a : BitVec 6) (b : BitVec 6) (w : BitVec 2) (k : BitVec 1) (g : BitVec 4)
  /-- VCLEU (R201). Pushes an unsigned less-or-equal predicate. -/
  | vcleu (a : BitVec 6) (b : BitVec 6) (w : BitVec 2) (k : BitVec 1) (g : BitVec 4)
  /-- VCEQI (R201). Pushes an equal-to-immediate predicate. -/
  | vceqi (a : BitVec 6) (imm : BitVec 9) (g : BitVec 4)
  /-- VTST (R201). Pushes the predicate (a AND b) ≠ 0. -/
  | vtst (a : BitVec 6) (b : BitVec 6) (w : BitVec 2) (k : BitVec 1) (g : BitVec 4)
  /-- VPLOG (R202). Combines two predicate entries by a truth table and pushes the result. -/
  | vplog (t : BitVec 4) (a : BitVec 3) (b : BitVec 3)
  /-- VPLOG_R (R202). Combines two predicate entries and replaces an entry. -/
  | vplogR (t : BitVec 4) (a : BitVec 3) (b : BitVec 3) (d : BitVec 3)
  /-- VPDROP (R203). Pops n predicate entries. -/
  | vpdrop (n : BitVec 3)
  /-- VPPICK (R204). Pushes a predicate from the nonzero bytes of a register. -/
  | vppick (x : BitVec 6)
  /-- VPPICK_V (R204). Writes a predicate entry into a register as bytes. -/
  | vppickV (x : BitVec 6) (p : BitVec 3)
  /-- VSEL (R205). Selects bytes of a or b by the guard. -/
  | vsel (d : BitVec 6) (a : BitVec 6) (b : BitVec 6) (k : BitVec 1) (inv : BitVec 1) (p : BitVec 2)
  /-- VMOV (R205). Moves active bytes. -/
  | vmov (d : BitVec 6) (a : BitVec 6) (k : BitVec 1) (g : BitVec 4)
  /-- VPERM (R206). Looks up a table by indices. -/
  | vperm (d : BitVec 6) (a : BitVec 6) (b : BitVec 6) (m : BitVec 2) (k : BitVec 1) (g : BitVec 4)
  /-- VSHUF (R207). Permutes elements within rows. -/
  | vshuf (d : BitVec 6) (a : BitVec 6) (b : BitVec 6) (w : BitVec 2) (k : BitVec 1) (g : BitVec 4)
  /-- VSLIDE (R208). Slides elements along tile order, filling from the old destination. -/
  | vslide (d : BitVec 6) (a : BitVec 6) (w : BitVec 2) (n : BitVec 7) (g : BitVec 4)
  /-- VROT (R208). Rotates elements along tile order. -/
  | vrot (d : BitVec 6) (a : BitVec 6) (w : BitVec 2) (n : BitVec 7) (g : BitVec 4)
  /-- VMATCH (R209). Finds keys of a in b and pushes the match predicate. -/
  | vmatch (d : BitVec 6) (a : BitVec 6) (b : BitVec 6) (f : BitVec 2) (k : BitVec 1) (g : BitVec 4)
  /-- VREDADD_FP (R210). FP pairwise-tree add reduction. -/
  | vredaddFp (d : BitVec 6) (a : BitVec 6) (f : BitVec 2) (k : BitVec 1) (g : BitVec 4)
  /-- VREDMIN (R210). FP minimum reduction. -/
  | vredmin (d : BitVec 6) (a : BitVec 6) (f : BitVec 2) (k : BitVec 1) (g : BitVec 4)
  /-- VREDMAX (R210). FP maximum reduction. -/
  | vredmax (d : BitVec 6) (a : BitVec 6) (f : BitVec 2) (k : BitVec 1) (g : BitVec 4)
  /-- VREDADD_INT (R210). Integer add reduction. -/
  | vredaddInt (d : BitVec 6) (a : BitVec 6) (w : BitVec 2) (k : BitVec 1) (g : BitVec 4)
  /-- VSCAN_FP (R211). FP prefix sum. -/
  | vscanFp (d : BitVec 6) (a : BitVec 6) (f : BitVec 2) (k : BitVec 1) (g : BitVec 4)
  /-- VSCAN_INT (R211). Integer prefix sum. -/
  | vscanInt (d : BitVec 6) (a : BitVec 6) (w : BitVec 2) (k : BitVec 1) (g : BitVec 4)
  /-- VPFIRST (R212). Writes the first set byte position of a predicate to the return word. -/
  | vpfirst (inv : BitVec 1) (p : BitVec 3)
  /-- VXS (R213). Extracts a cell into the return word or k1–k3. -/
  | vxs (a : BitVec 6) (r : BitVec 2) (w : BitVec 1) (c : BitVec 4)
  /-- VCVT_F32_F64 (R214). Converts FP64 to FP32. -/
  | vcvtF32F64 (d : BitVec 6) (a : BitVec 6) (r : BitVec 2) (k : BitVec 1) (g : BitVec 4)
  /-- VCVT_F64_F32 (R214). Converts FP32 to FP64. -/
  | vcvtF64F32 (d : BitVec 6) (a : BitVec 6) (k : BitVec 1) (g : BitVec 4)
  /-- VCVT_F16_F32 (R214). Converts FP32 to FP16. -/
  | vcvtF16F32 (d : BitVec 6) (a : BitVec 6) (r : BitVec 2) (k : BitVec 1) (g : BitVec 4)
  /-- VCVT_F32_F16 (R214). Converts FP16 to FP32. -/
  | vcvtF32F16 (d : BitVec 6) (a : BitVec 6) (k : BitVec 1) (g : BitVec 4)
  /-- VCVT_BF16_F32 (R214). Converts FP32 to BF16. -/
  | vcvtBf16F32 (d : BitVec 6) (a : BitVec 6) (r : BitVec 2) (k : BitVec 1) (g : BitVec 4)
  /-- VCVT_F32_BF16 (R214). Converts BF16 to FP32. -/
  | vcvtF32Bf16 (d : BitVec 6) (a : BitVec 6) (k : BitVec 1) (g : BitVec 4)
  /-- VCVT_I32_F32 (R214). Converts FP32 to i32. -/
  | vcvtI32F32 (d : BitVec 6) (a : BitVec 6) (r : BitVec 2) (k : BitVec 1) (g : BitVec 4)
  /-- VCVT_F32_I32 (R214). Converts i32 to FP32. -/
  | vcvtF32I32 (d : BitVec 6) (a : BitVec 6) (r : BitVec 2) (k : BitVec 1) (g : BitVec 4)
  /-- VCVT_N32_F32 (R214). Converts FP32 to n32. -/
  | vcvtN32F32 (d : BitVec 6) (a : BitVec 6) (r : BitVec 2) (k : BitVec 1) (g : BitVec 4)
  /-- VCVT_F32_N32 (R214). Converts n32 to FP32. -/
  | vcvtF32N32 (d : BitVec 6) (a : BitVec 6) (r : BitVec 2) (k : BitVec 1) (g : BitVec 4)
  /-- VCVT_I64_F64 (R214). Converts FP64 to i64. -/
  | vcvtI64F64 (d : BitVec 6) (a : BitVec 6) (r : BitVec 2) (k : BitVec 1) (g : BitVec 4)
  /-- VCVT_F64_I64 (R214). Converts i64 to FP64. -/
  | vcvtF64I64 (d : BitVec 6) (a : BitVec 6) (r : BitVec 2) (k : BitVec 1) (g : BitVec 4)
  /-- VLCVT (R215). Converts FP32 to an LNS format with a scale, flushing on underflow, and updates AMAX. -/
  | vlcvt (d : BitVec 6) (a : BitVec 6) (b : BitVec 6) (f : BitVec 2) (k : BitVec 1) (g : BitVec 4)
  /-- VLCVT_M (R215). Converts FP32 to LNS with UFMIN set. -/
  | vlcvtM (d : BitVec 6) (a : BitVec 6) (b : BitVec 6) (f : BitVec 2) (k : BitVec 1) (g : BitVec 4)
  /-- VLEXP (R216). Converts LNS codes to FP32 with a scale. -/
  | vlexp (d : BitVec 6) (a : BitVec 6) (b : BitVec 6) (f : BitVec 2) (k : BitVec 1) (g : BitVec 4)
  /-- VCVT_F64_LNS (R216). Converts LNS codes exactly to FP64. -/
  | vcvtF64Lns (d : BitVec 6) (a : BitVec 6) (f : BitVec 2) (k : BitVec 1) (g : BitVec 4)
  /-- VLMUL (R217). Multiplies LNS codes in the log domain. -/
  | vlmul (d : BitVec 6) (a : BitVec 6) (b : BitVec 6) (f : BitVec 2) (k : BitVec 1) (g : BitVec 4)
  /-- VLSCL (R217). Scales LNS codes in the log domain. -/
  | vlscl (d : BitVec 6) (a : BitVec 6) (b : BitVec 6) (f : BitVec 2) (k : BitVec 1) (g : BitVec 4)
  /-- VLD (R219). Loads a tile from global memory. -/
  | vld (d : BitVec 6) (c : BitVec 2) (n : BitVec 2) (g : BitVec 4)
  /-- VST (R219). Stores a tile to global memory. -/
  | vst (a : BitVec 6) (c : BitVec 2) (n : BitVec 2) (k : BitVec 1) (g : BitVec 4)
  /-- VLDS (R219). Loads a tile from scratchpad. -/
  | vlds (d : BitVec 6) (n : BitVec 2) (g : BitVec 4)
  /-- VSTS (R219). Stores a tile to scratchpad. -/
  | vsts (a : BitVec 6) (n : BitVec 2) (k : BitVec 1) (g : BitVec 4)
  /-- VGATH (R220). Gathers elements from global memory. -/
  | vgath (d : BitVec 6) (c : BitVec 2) (v : BitVec 4) (wd : BitVec 1) (g : BitVec 4)
  /-- VSCAT (R220). Scatters elements to global memory. -/
  | vscat (a : BitVec 6) (c : BitVec 2) (v : BitVec 4) (wd : BitVec 1) (k : BitVec 1) (g : BitVec 4)
  /-- VUPD_ADD (R221). Near-bank add of each element at its tile address. -/
  | vupdAdd (a : BitVec 6) (c : BitVec 2) (n : BitVec 2) (t : BitVec 2) (k : BitVec 1) (g : BitVec 4)
  /-- VUPD_MIN (R221). Near-bank signed or FP minimum. -/
  | vupdMin (a : BitVec 6) (c : BitVec 2) (n : BitVec 2) (t : BitVec 2) (k : BitVec 1) (g : BitVec 4)
  /-- VUPD_MAX (R221). Near-bank signed or FP maximum. -/
  | vupdMax (a : BitVec 6) (c : BitVec 2) (n : BitVec 2) (t : BitVec 2) (k : BitVec 1) (g : BitVec 4)
  /-- VUPD_AND (R221). Near-bank AND. -/
  | vupdAnd (a : BitVec 6) (c : BitVec 2) (n : BitVec 2) (t : BitVec 2) (k : BitVec 1) (g : BitVec 4)
  /-- VUPD_OR (R221). Near-bank OR. -/
  | vupdOr (a : BitVec 6) (c : BitVec 2) (n : BitVec 2) (t : BitVec 2) (k : BitVec 1) (g : BitVec 4)
  /-- VUPD_XOR (R221). Near-bank XOR. -/
  | vupdXor (a : BitVec 6) (c : BitVec 2) (n : BitVec 2) (t : BitVec 2) (k : BitVec 1) (g : BitVec 4)
  /-- VUPD_MINU (R221). Near-bank unsigned minimum. -/
  | vupdMinu (a : BitVec 6) (c : BitVec 2) (n : BitVec 2) (t : BitVec 2) (k : BitVec 1) (g : BitVec 4)
  /-- VUPD_MAXU (R221). Near-bank unsigned maximum. -/
  | vupdMaxu (a : BitVec 6) (c : BitVec 2) (n : BitVec 2) (t : BitVec 2) (k : BitVec 1) (g : BitVec 4)
  /-- VTQPUSH (R223). Pushes one task record per active lane and a predicate of acceptances. -/
  | vtqpush (a b : BitVec 6) (k : BitVec 1) (g : BitVec 4)
  /-- VAMO_ADD (R222). Per-element atomic add. -/
  | vamoAdd (d : BitVec 6) (a : BitVec 6) (c : BitVec 2) (v : BitVec 4) (t : BitVec 2) (k : BitVec 1) (g : BitVec 4)
  /-- VAMO_AND (R222). Per-element atomic AND. -/
  | vamoAnd (d : BitVec 6) (a : BitVec 6) (c : BitVec 2) (v : BitVec 4) (t : BitVec 2) (k : BitVec 1) (g : BitVec 4)
  /-- VAMO_OR (R222). Per-element atomic OR. -/
  | vamoOr (d : BitVec 6) (a : BitVec 6) (c : BitVec 2) (v : BitVec 4) (t : BitVec 2) (k : BitVec 1) (g : BitVec 4)
  /-- VAMO_XOR (R222). Per-element atomic XOR. -/
  | vamoXor (d : BitVec 6) (a : BitVec 6) (c : BitVec 2) (v : BitVec 4) (t : BitVec 2) (k : BitVec 1) (g : BitVec 4)
  /-- VAMO_MIN (R222). Per-element atomic minimum. -/
  | vamoMin (d : BitVec 6) (a : BitVec 6) (c : BitVec 2) (v : BitVec 4) (t : BitVec 2) (k : BitVec 1) (g : BitVec 4)
  /-- VAMO_MAX (R222). Per-element atomic maximum. -/
  | vamoMax (d : BitVec 6) (a : BitVec 6) (c : BitVec 2) (v : BitVec 4) (t : BitVec 2) (k : BitVec 1) (g : BitVec 4)
  /-- VAMO_SWAP (R222). Per-element atomic swap. -/
  | vamoSwap (d : BitVec 6) (a : BitVec 6) (c : BitVec 2) (v : BitVec 4) (t : BitVec 2) (k : BitVec 1) (g : BitVec 4)
  /-- VAMO_CAS (R222). Per-element atomic compare-and-swap against the old d. -/
  | vamoCas (d : BitVec 6) (a : BitVec 6) (c : BitVec 2) (v : BitVec 4) (t : BitVec 2) (k : BitVec 1) (g : BitVec 4)
  /-- VSHAPE (R226). Sets the working SHAPE from the next micro-order. -/
  | vshape (r : BitVec 4) (c : BitVec 4)
  /-- VLOOP (R226). Decrements k[N] and branches while it is nonzero. -/
  | vloop (n : BitVec 2) (o : BitVec 15)
  /-- VJMP (R226). Jumps within the vector table. -/
  | vjmp (o : BitVec 15)
  /-- VEND (R226). Ends the vector table. -/
  | vend
  /-- VSEG (R113). Opens a segment of an exposed vector table, checking the previous one. -/
  | vseg (c : BitVec 20)
  /-- VNOP (R76). Vector no-operation range. -/
  | vnop (h : BitVec 25)
  /-- FAULT_RECORD_WRITE (R388). Writes a held fault record once the fault queue has room. -/
  | faultRecordWrite (ctx : Nat)
  /-- LOAD_DATA_RETURN (R134). A load's or atomic's data returns and writes its destination. -/
  | loadDataReturn (id : Nat)
  /-- DATA_ERROR_ARRIVAL (R138). POISON or REMOTE_ERROR arrives with data and suspends the group. -/
  | dataErrorArrival (id : Nat) (err : DataError)
  /-- ACCESS_PERFORMED (R484). An access is performed at its home. -/
  | accessPerformed (id : Nat)
  /-- STORE_ACK (R293). A home acknowledges a written-through store. -/
  | storeAck (id : Nat)
  /-- STORE_ERROR_RECORD (R139). A store meets REMOTE_ERROR and is recorded against the group. -/
  | storeErrorRecord (id : Nat) (reason : Nat)
  /-- COMMIT_MESSAGE (R486). A commit message or sector write commits pending bytes at a home. -/
  | commitMessage (id : Nat)
  /-- COMMIT_ACK (R486). A commit acknowledgement reaches the core. -/
  | commitAck (id : Nat)
  /-- DIRTY_SECTOR_EVICTION (R301). L1 evicts a dirty sector into a version-buffer entry. -/
  | dirtySectorEviction (core : Nat) (sector : Nat)
  /-- FORCED_COMMIT (R301). A waiting sector is committed after 4,096 cycles without a free entry. -/
  | forcedCommit (core : Nat) (sector : Nat)
  /-- TLB_WALK_COMPLETE (R394). A page walk ends and answers its joined requests. -/
  | tlbWalkComplete (id : Nat)
  /-- LDQ_DATA_ARRIVAL (R136). An ldq's bytes arrive and are delivered in issue order. -/
  | ldqDataArrival (id : Nat)
  /-- VECTOR_BUSY_CLEAR (R103). A vector stream's busy flag clears after its last write lands and its stores are performed. -/
  | vectorBusyClear (core : Nat) (slot : Nat)
  /-- COMMAND_WINDOW_REPLAY (R244). Poison consumed in the array, or a failed segment check, replays the command window. -/
  | commandWindowReplay (core : Nat) (trigger : ReplayTrigger)
  /-- RANGE_ENTRY_RETIRE (R117). A range-checker entry retires when its last access completes. -/
  | rangeEntryRetire (core : Nat) (entry : Nat)
  /-- CLICKER_COPY_START (R488). A channel starts the next copy of its program. -/
  | clickerCopyStart (core : Nat) (ch : Nat)
  /-- CLICKER_COPY_COMPLETE (R155). A clicker copy completes. -/
  | clickerCopyComplete (core : Nat) (ch : Nat) (copy : Nat)
  /-- CSIG_RESPONSE (R253). A CSIG response returns and the next CSIG is sent. -/
  | csigResponse (core : Nat) (ch : Nat) (err : Option DataError)
  /-- CLICKER_PROGRAM_COMPLETE (R155). The completion counter advances when a program's copies and CSIGs are done. -/
  | clickerProgramComplete (core : Nat) (ch : Nat)
  /-- PACKET_DELIVERY (R121). A packet is delivered to a port. -/
  | packetDelivery (id : Nat)
  /-- PEER_BYTE_TRANSFER (R166). Bytes move from an outbound peer port into reserved inbound room. -/
  | peerByteTransfer (core : Nat) (port : Nat)
  /-- PORT_UNBIND_COMPLETE (R167). A closing port becomes unbound once drained. -/
  | portUnbindComplete (core : Nat) (port : Nat)
  /-- TREADLE_SLOT_START (R317). At a slot start a beat issues or misses and demands are raised. -/
  | treadleSlotStart (core : Nat)
  /-- DEMAND_SEND (R322). A demand leaves once a place is reserved at its stitcher core. -/
  | demandSend (core : Nat)
  /-- DEMAND_ARRIVAL (R162). A demand reaches a stitcher core and is held or taken. -/
  | demandArrival (core : Nat) (descriptor : BitVec 64)
  /-- TREADLE_RUN_END (R325). A run becomes ENDED, discards untaken demands and sends end descriptors. -/
  | treadleRunEnd (core : Nat)
  /-- JOB_START (R256). A job starts on a core with its launch-started groups. -/
  | jobStart (launch : Nat) (core : Nat)
  /-- JOB_END (R257). A job ends when its slots, engines and queues are empty. -/
  | jobEnd (core : Nat)
  /-- SWAP_TRIGGER (R263). An active group leaves for WAITING on a trigger or threshold. -/
  | swapTrigger (core : Nat) (slot : Nat)
  /-- GROUP_WAKE (R263). A waiting group's wake condition holds and it becomes READY. -/
  | groupWake (core : Nat) (slot : Nat)
  /-- ACTIVE_REFILL (R264). The ready queue's head enters an empty active position. -/
  | activeRefill (core : Nat) (pos : Nat)
  /-- ROTATION_TICK (R265). Every 16 cycles the longest-tenured group may rotate out. -/
  | rotationTick (core : Nat)
  /-- BLOCK_TRANSFER (R270). A block spill, park or refill completes on the transfer path. -/
  | blockTransfer (core : Nat)
  /-- PHASE_ARRIVAL (R174). A core's arrival at a boundary completes once its commits are acknowledged. -/
  | phaseArrival (core : Nat)
  /-- PHASE_BOUNDARY_COMPLETE (R174). A boundary completes, advancing PH registers and releasing waiting groups. -/
  | phaseBoundaryComplete (launch : Nat) (level : Nat) (domain : Nat)
  /-- FABRIC_ARRIVAL_MESSAGE (R341). A level-4 arrival message is recorded, or answered NOT_YET or MISMATCH. -/
  | fabricArrivalMessage (msg : FabricArrival)
  /-- ARRIVAL_RESEND (R341). An arrival message answered NOT_YET is resent after 2,048 cycles. -/
  | arrivalResend (launch : Nat) (member : Nat)
  /-- TASK_PUSH_ACCEPT (R487). A pushed record reaches its queue's slice and is accepted or refused. -/
  | taskPushAccept (id : Nat)
  /-- TASK_QUEUE_SPILL (R277). Ring records move to the backing area. -/
  | taskQueueSpill (die : Nat) (queue : Nat)
  /-- TASK_QUEUE_REFILL (R277). Backing records move back to the ring. -/
  | taskQueueRefill (die : Nat) (queue : Nat)
  /-- FORMER_SELECTION (R279). The group former selects records of one kind from a queue. -/
  | formerSelection (die : Nat)
  /-- FORMER_TIMEOUT (R279). The head record's timeout expires and a group starts with fewer records. -/
  | formerTimeout (die : Nat) (queue : Nat)
  /-- FORMER_GROUP_READY (R280). A started group becomes READY 32 cycles later or after its block moves. -/
  | formerGroupReady (id : Nat)
  /-- QWIDX_WRITE (R345). The host counts submitted packets in a launch queue. -/
  | qwidxWrite (queue : Nat) (fn : Nat) (value : BitVec 32)
  /-- QUEUE_ENABLE (R344). A QCTL write with ENABLE set starts service of the queue. -/
  | queueEnable (queue : Nat) (fn : Nat) (value : BitVec 32)
  /-- QUEUE_DISABLE (R344). A QCTL write with ENABLE clear stops service of the queue. -/
  | queueDisable (queue : Nat) (fn : Nat) (value : BitVec 32)
  /-- HEAD_PACKET_READ (R345). The scheduler reads and copies the head packet, advancing QRIDX. -/
  | headPacketRead (queue : Nat)
  /-- SIGNAL_REREAD (R348). The hub re-reads a head packet's wait signal. -/
  | signalReread (queue : Nat) (signal : Nat)
  /-- SELECTION_ROUND (R352). Every 16 cycles the scheduler places at most one eligible fitting packet. -/
  | selectionRound
  /-- RESERVATION_START (R355). A packet eligible 4,000,000 cycles without fitting reserves dies. -/
  | reservationStart (queue : Nat)
  /-- LAUNCH_COMPLETION (R349). A launch commits, writes status, decrements its signal and raises its interrupt. -/
  | launchCompletion (launch : Nat)
  /-- MSIX_UNMASK (R437). Unmasking a vector sends its pending message. -/
  | msixUnmask (fn : Nat) (vector : Nat)
  /-- CODE_OBJECT_LOAD (R369). The load service checks, verifies and maps a code object. -/
  | codeObjectLoad (req : LoadRequest)
  /-- DEMAND_PAGE_VERIFY (R374). A not-present object page is read, compared with its leaf and mapped or failed. -/
  | demandPageVerify (ctx : Nat) (va : Nat) (page : Nat)
  /-- CODE_INTEGRITY_TERMINATION (R375). A CODE_INTEGRITY trap terminates the whole launch. -/
  | codeIntegrityTermination (launch : Nat)
  /-- SLOT_PATCH (R371). The runtime patches a specialisation slot and recomputes signatures. -/
  | slotPatch (ctx : Nat) (va : Nat) (nameh : Nat) (value : BitVec 64)
  /-- PREEMPT (R404). A launch's jobs are stopped and saved. -/
  | preempt (launch : Nat)
  /-- RESUME_JOB (R409). A saved job is restored and continues. -/
  | resumeJob (launch : Nat) (moves : List (Nat × Nat))
  /-- RESUME_GROUP (R449). The runtime resumes a trapped group. -/
  | resumeGroup (core : Nat) (slot : Nat) (rewrite : ResumeRewrite)
  /-- KILL_GROUP (R489). The runtime kills a group and stops its tied engines. -/
  | killGroup (core : Nat) (slot : Nat)
  /-- KILL_LAUNCH (R449). The runtime terminates a launch with STATUS KILLED. -/
  | killLaunch (launch : Nat)
  /-- KILL_CONTEXT (R410). The runtime kills a context and completes its waits with KILLED. -/
  | killContext (ctx : Nat)
  /-- MOULT_RELEASE (R402). A page leaves the moult queue when its window drains. -/
  | moultRelease
  /-- REMOTE_REQUEST_ARRIVAL (R417). A request from the torus acts at its home as an access of its source core. -/
  | remoteRequestArrival (req : RemoteRequest)
  /-- REPLY_ARRIVAL (R425). A remote reply is delivered or discarded as stale. -/
  | replyArrival (tag : Nat) (gen : Nat)
  /-- REQUESTER_TIMEOUT (R426). A remote access times out with REMOTE_ERROR. -/
  | requesterTimeout (tag : Nat)
  /-- TAG_RELEASE (R425). A withheld tag returns to allocation after 2,000,000 cycles. -/
  | tagRelease (tag : Nat)
  /-- ROUTER_DISCARD (R425). A router discards a packet that waited 16,384 cycles. -/
  | routerDiscard (link : Nat)
  /-- CONGESTION_NOTICE (R424). A notice halves the destination window. -/
  | congestionNotice (dest : Nat)
  /-- WINDOW_INCREASE (R424). After 1,024 quiet cycles the destination window grows by 8. -/
  | windowIncrease (dest : Nat)
  /-- CREDIT_RETURN (R420). A credit message updates the sender's count. -/
  | creditReturn (link : Nat) (chan : Nat) (ret : BitVec 16)
  /-- AUDIT_FLIT_SEND (R421). After 4,096 flits a sender inserts an audit flit. -/
  | auditFlitSend (link : Nat)
  /-- AUDIT_FLIT_RECEIVE (R421). The receiver corrects RET and returns it with an audit mark. -/
  | auditFlitReceive (link : Nat) (sent : List (BitVec 16))
  /-- AUDIT_RETURN (R421). The sender corrects its credit count from a marked return. -/
  | auditReturn (link : Nat) (ret : List (BitVec 16))
  /-- LINK_CRC_RETRY (R419). A bad CRC makes the sender replay from its buffer. -/
  | linkCrcRetry (flit : LinkFlit)
  /-- LINK_RETRAIN (R419). A link retrains after repeated failures. -/
  | linkRetrain (link : Nat) (trained : Bool)
  /-- LINK_TRAINING (R422). A link negotiates its protocol version. -/
  | linkTraining (link : Nat) (major : Nat) (minor : Nat)
  /-- PORT_DEAD (R428). A failing port becomes dead and synthesises error replies. -/
  | portDead (link : Nat)
  /-- HOST_BAR2_READ (R433). A host read returns committed values through BAR2. -/
  | hostBar2Read (fn : Nat) (offset : Nat) (len : Nat)
  /-- HOST_BAR2_WRITE (R432). A host write through BAR2 is committed when performed. -/
  | hostBar2Write (fn : Nat) (offset : Nat) (data : List (BitVec 8))
  /-- HOST_ATOMIC_REQUEST (R430). A host atomic request completes as Unsupported Request. -/
  | hostAtomicRequest (fn : Nat) (offset : Nat)
  /-- ATS_INVALIDATION (R434). A host ATS invalidation drops a cached translation. -/
  | atsInvalidation (ctx : Nat) (page : Nat)
  /-- IDE_INTEGRITY_FAIL (R436). A failed IDE integrity check makes a stream insecure. -/
  | ideIntegrityFail (fn : Nat)
  /-- IDE_REKEY (R436). The PFC re-keys a selective stream. -/
  | ideRekey (fn : Nat)
  /-- ATTESTATION_REQUEST (R476). An MCTP request with a nonce is answered by a signed report. -/
  | attestationRequest (nonce : List (BitVec 8))
  /-- HOST_RESTART_REQUEST (R469). A restart requested over MCTP ends minimal mode. -/
  | hostRestartRequest (env : BootInputs)
  /-- REGISTER_WRITE (R5). A write to a register with no row of its own. -/
  | registerWrite (w : RegWrite)
  /-- SELF_TEST_COMPLETE (R453). A targeted self-test ends with a verdict and writes its error record. -/
  | selfTestComplete (unit : TestUnit) (passed : Bool)
  /-- SPARE_SUBSTITUTION (R457). A retired core's job moves to a spare core. -/
  | spareSubstitution (core : Nat) (spare : Nat)
  /-- CONTROL_CORE_RESET (R450). A control-die core trapping twice is reset alone. -/
  | controlCoreReset (n : Nat)
  /-- CONTROL_DIE_LOSS (R462). A lost control die is fenced and its modified lines poisoned. -/
  | controlDieLoss (modified : List Nat)
  /-- CONTROL_DIE_RESTART (R463). The PFC resets and restarts the control die. -/
  | controlDieRestart (success : Bool)
  /-- HEARTBEAT_MISS (R462). A missed 1 ms heartbeat is counted. -/
  | heartbeatMiss (die : Nat)
  /-- DIE_ISOLATION (R464). The hub isolates a compute die. -/
  | dieIsolation (die : Nat)
  /-- DIE_RECOVERY (R466). The PFC resets, tests and re-enumerates an isolated die. -/
  | dieRecovery (die : Nat) (passed : Bool) (table : List (BitVec 8))
  /-- FABRIC_DIE_LOSS (R467). A lost fabric die makes every torus port dead. -/
  | fabricDieLoss
  /-- DEVICE_RESET (R468). The PFC runs the boot stages after reset. -/
  | deviceReset (env : BootInputs)
  /-- BOOT_STAGE_TIMEOUT (R468). A boot stage exceeding 2 s fails the start. -/
  | bootStageTimeout
  /-- SECURITY_ALARM (R477). The PFC raises a level-1 or level-2 alarm on a sensor or debug trigger. -/
  | securityAlarm (trigger : AlarmTrigger)
  /-- ALARM_ESCALATION (R477). A temperature still out of range 1 s later raises level 2. -/
  | alarmEscalation
  /-- DEBUG_UNLOCK_ATTEMPT (R477). A debug-unlock attempt is counted and may raise an alarm. -/
  | debugUnlockAttempt (success : Bool)
  /-- POWER_WINDOW (R479). Each 1 ms window the power manager adjusts its cap. -/
  | powerWindow (watts : Nat) (capped : Nat)
  /-- FUNCTION_RESET (R344). A PCI Express function reset returns the function's launch-queue indices and host-function state to their reset values. -/
  | functionReset (fn : Nat)
  /-- CODE_OBJECT_UNLOAD (R374). The runtime unloads a code object, ending its load record and clearing its failed-page marks. -/
  | codeObjectUnload (ctx : Nat) (va : Nat)
  /-- VENDOR_ENROLMENT (R474). A vendor enrolment record signed with the ROM key writes new PUF helper data to the NV store. -/
  | vendorEnrolment (helper : Nat) (signedOk : Bool)
  /-- HOST_COMPLETION_ARRIVAL (R434). A completion or ATS translation completion from the host arrives for a device request through the host window. -/
  | hostCompletionArrival (id : Nat) (data : List (BitVec 8))
  /-- PAGE_REQUEST_RESPONSE (R434). The host answers a PRI page request, letting the access proceed or failing it with REMOTE_ERROR reason 0x6. -/
  | pageRequestResponse (id : Nat) (granted : Bool)
  /-- L1_LINE_REPLACEMENT (R485). The L1 replaces a valid line in any cycle, ending its lease early. -/
  | l1LineReplacement (core : Nat) (line : Nat)
  /-- HOST_LINK_TRAINING (R471). The PCI Express endpoint completes link training, after which BOOTSTAT becomes readable. -/
  | hostLinkTraining (fns : List (Nat × Bool × Bool))
  deriving DecidableEq, Repr

/-- The events of the table (its rows 286 to 394), as the state holds them: due, pending or put in from outside. -/
inductive Event where
  /-- FAULT_RECORD_WRITE (R388). -/
  | faultRecordWrite (ctx : Nat)
  /-- LOAD_DATA_RETURN (R134). -/
  | loadDataReturn (id : Nat)
  /-- DATA_ERROR_ARRIVAL (R138). -/
  | dataErrorArrival (id : Nat) (err : DataError)
  /-- ACCESS_PERFORMED (R484). -/
  | accessPerformed (id : Nat)
  /-- STORE_ACK (R293). -/
  | storeAck (id : Nat)
  /-- STORE_ERROR_RECORD (R139). -/
  | storeErrorRecord (id : Nat) (reason : Nat)
  /-- COMMIT_MESSAGE (R486). -/
  | commitMessage (id : Nat)
  /-- COMMIT_ACK (R486). -/
  | commitAck (id : Nat)
  /-- DIRTY_SECTOR_EVICTION (R301). -/
  | dirtySectorEviction (core : Nat) (sector : Nat)
  /-- FORCED_COMMIT (R301). -/
  | forcedCommit (core : Nat) (sector : Nat)
  /-- TLB_WALK_COMPLETE (R394). -/
  | tlbWalkComplete (id : Nat)
  /-- LDQ_DATA_ARRIVAL (R136). -/
  | ldqDataArrival (id : Nat)
  /-- VECTOR_BUSY_CLEAR (R103). -/
  | vectorBusyClear (core : Nat) (slot : Nat)
  /-- COMMAND_WINDOW_REPLAY (R244). -/
  | commandWindowReplay (core : Nat) (trigger : ReplayTrigger)
  /-- RANGE_ENTRY_RETIRE (R117). -/
  | rangeEntryRetire (core : Nat) (entry : Nat)
  /-- CLICKER_COPY_START (R488). -/
  | clickerCopyStart (core : Nat) (ch : Nat)
  /-- CLICKER_COPY_COMPLETE (R155). -/
  | clickerCopyComplete (core : Nat) (ch : Nat) (copy : Nat)
  /-- CSIG_RESPONSE (R253). -/
  | csigResponse (core : Nat) (ch : Nat) (err : Option DataError)
  /-- CLICKER_PROGRAM_COMPLETE (R155). -/
  | clickerProgramComplete (core : Nat) (ch : Nat)
  /-- PACKET_DELIVERY (R121). -/
  | packetDelivery (id : Nat)
  /-- PEER_BYTE_TRANSFER (R166). -/
  | peerByteTransfer (core : Nat) (port : Nat)
  /-- PORT_UNBIND_COMPLETE (R167). -/
  | portUnbindComplete (core : Nat) (port : Nat)
  /-- TREADLE_SLOT_START (R317). -/
  | treadleSlotStart (core : Nat)
  /-- DEMAND_SEND (R322). -/
  | demandSend (core : Nat)
  /-- DEMAND_ARRIVAL (R162). -/
  | demandArrival (core : Nat) (descriptor : BitVec 64)
  /-- TREADLE_RUN_END (R325). -/
  | treadleRunEnd (core : Nat)
  /-- JOB_START (R256). -/
  | jobStart (launch : Nat) (core : Nat)
  /-- JOB_END (R257). -/
  | jobEnd (core : Nat)
  /-- SWAP_TRIGGER (R263). -/
  | swapTrigger (core : Nat) (slot : Nat)
  /-- GROUP_WAKE (R263). -/
  | groupWake (core : Nat) (slot : Nat)
  /-- ACTIVE_REFILL (R264). -/
  | activeRefill (core : Nat) (pos : Nat)
  /-- ROTATION_TICK (R265). -/
  | rotationTick (core : Nat)
  /-- BLOCK_TRANSFER (R270). -/
  | blockTransfer (core : Nat)
  /-- PHASE_ARRIVAL (R174). -/
  | phaseArrival (core : Nat)
  /-- PHASE_BOUNDARY_COMPLETE (R174). -/
  | phaseBoundaryComplete (launch : Nat) (level : Nat) (domain : Nat)
  /-- FABRIC_ARRIVAL_MESSAGE (R341). -/
  | fabricArrivalMessage (msg : FabricArrival)
  /-- ARRIVAL_RESEND (R341). -/
  | arrivalResend (launch : Nat) (member : Nat)
  /-- TASK_PUSH_ACCEPT (R487). -/
  | taskPushAccept (id : Nat)
  /-- TASK_QUEUE_SPILL (R277). -/
  | taskQueueSpill (die : Nat) (queue : Nat)
  /-- TASK_QUEUE_REFILL (R277). -/
  | taskQueueRefill (die : Nat) (queue : Nat)
  /-- FORMER_SELECTION (R279). -/
  | formerSelection (die : Nat)
  /-- FORMER_TIMEOUT (R279). -/
  | formerTimeout (die : Nat) (queue : Nat)
  /-- FORMER_GROUP_READY (R280). -/
  | formerGroupReady (id : Nat)
  /-- QWIDX_WRITE (R345). -/
  | qwidxWrite (queue : Nat) (fn : Nat) (value : BitVec 32)
  /-- QUEUE_ENABLE (R344). -/
  | queueEnable (queue : Nat) (fn : Nat) (value : BitVec 32)
  /-- QUEUE_DISABLE (R344). -/
  | queueDisable (queue : Nat) (fn : Nat) (value : BitVec 32)
  /-- HEAD_PACKET_READ (R345). -/
  | headPacketRead (queue : Nat)
  /-- SIGNAL_REREAD (R348). -/
  | signalReread (queue : Nat) (signal : Nat)
  /-- SELECTION_ROUND (R352). -/
  | selectionRound
  /-- RESERVATION_START (R355). -/
  | reservationStart (queue : Nat)
  /-- LAUNCH_COMPLETION (R349). -/
  | launchCompletion (launch : Nat)
  /-- MSIX_UNMASK (R437). -/
  | msixUnmask (fn : Nat) (vector : Nat)
  /-- CODE_OBJECT_LOAD (R369). -/
  | codeObjectLoad (req : LoadRequest)
  /-- DEMAND_PAGE_VERIFY (R374). -/
  | demandPageVerify (ctx : Nat) (va : Nat) (page : Nat)
  /-- CODE_INTEGRITY_TERMINATION (R375). -/
  | codeIntegrityTermination (launch : Nat)
  /-- SLOT_PATCH (R371). -/
  | slotPatch (ctx : Nat) (va : Nat) (nameh : Nat) (value : BitVec 64)
  /-- PREEMPT (R404). -/
  | preempt (launch : Nat)
  /-- RESUME_JOB (R409). -/
  | resumeJob (launch : Nat) (moves : List (Nat × Nat))
  /-- RESUME_GROUP (R449). -/
  | resumeGroup (core : Nat) (slot : Nat) (rewrite : ResumeRewrite)
  /-- KILL_GROUP (R489). -/
  | killGroup (core : Nat) (slot : Nat)
  /-- KILL_LAUNCH (R449). -/
  | killLaunch (launch : Nat)
  /-- KILL_CONTEXT (R410). -/
  | killContext (ctx : Nat)
  /-- MOULT_RELEASE (R402). -/
  | moultRelease
  /-- REMOTE_REQUEST_ARRIVAL (R417). -/
  | remoteRequestArrival (req : RemoteRequest)
  /-- REPLY_ARRIVAL (R425). -/
  | replyArrival (tag : Nat) (gen : Nat)
  /-- REQUESTER_TIMEOUT (R426). -/
  | requesterTimeout (tag : Nat)
  /-- TAG_RELEASE (R425). -/
  | tagRelease (tag : Nat)
  /-- ROUTER_DISCARD (R425). -/
  | routerDiscard (link : Nat)
  /-- CONGESTION_NOTICE (R424). -/
  | congestionNotice (dest : Nat)
  /-- WINDOW_INCREASE (R424). -/
  | windowIncrease (dest : Nat)
  /-- CREDIT_RETURN (R420). -/
  | creditReturn (link : Nat) (chan : Nat) (ret : BitVec 16)
  /-- AUDIT_FLIT_SEND (R421). -/
  | auditFlitSend (link : Nat)
  /-- AUDIT_FLIT_RECEIVE (R421). -/
  | auditFlitReceive (link : Nat) (sent : List (BitVec 16))
  /-- AUDIT_RETURN (R421). -/
  | auditReturn (link : Nat) (ret : List (BitVec 16))
  /-- LINK_CRC_RETRY (R419). -/
  | linkCrcRetry (flit : LinkFlit)
  /-- LINK_RETRAIN (R419). -/
  | linkRetrain (link : Nat) (trained : Bool)
  /-- LINK_TRAINING (R422). -/
  | linkTraining (link : Nat) (major : Nat) (minor : Nat)
  /-- PORT_DEAD (R428). -/
  | portDead (link : Nat)
  /-- HOST_BAR2_READ (R433). -/
  | hostBar2Read (fn : Nat) (offset : Nat) (len : Nat)
  /-- HOST_BAR2_WRITE (R432). -/
  | hostBar2Write (fn : Nat) (offset : Nat) (data : List (BitVec 8))
  /-- HOST_ATOMIC_REQUEST (R430). -/
  | hostAtomicRequest (fn : Nat) (offset : Nat)
  /-- ATS_INVALIDATION (R434). -/
  | atsInvalidation (ctx : Nat) (page : Nat)
  /-- IDE_INTEGRITY_FAIL (R436). -/
  | ideIntegrityFail (fn : Nat)
  /-- IDE_REKEY (R436). -/
  | ideRekey (fn : Nat)
  /-- ATTESTATION_REQUEST (R476). -/
  | attestationRequest (nonce : List (BitVec 8))
  /-- HOST_RESTART_REQUEST (R469). -/
  | hostRestartRequest (env : BootInputs)
  /-- REGISTER_WRITE (R5). -/
  | registerWrite (w : RegWrite)
  /-- SELF_TEST_COMPLETE (R453). -/
  | selfTestComplete (unit : TestUnit) (passed : Bool)
  /-- SPARE_SUBSTITUTION (R457). -/
  | spareSubstitution (core : Nat) (spare : Nat)
  /-- CONTROL_CORE_RESET (R450). -/
  | controlCoreReset (n : Nat)
  /-- CONTROL_DIE_LOSS (R462). -/
  | controlDieLoss (modified : List Nat)
  /-- CONTROL_DIE_RESTART (R463). -/
  | controlDieRestart (success : Bool)
  /-- HEARTBEAT_MISS (R462). -/
  | heartbeatMiss (die : Nat)
  /-- DIE_ISOLATION (R464). -/
  | dieIsolation (die : Nat)
  /-- DIE_RECOVERY (R466). -/
  | dieRecovery (die : Nat) (passed : Bool) (table : List (BitVec 8))
  /-- FABRIC_DIE_LOSS (R467). -/
  | fabricDieLoss
  /-- DEVICE_RESET (R468). -/
  | deviceReset (env : BootInputs)
  /-- BOOT_STAGE_TIMEOUT (R468). -/
  | bootStageTimeout
  /-- SECURITY_ALARM (R477). -/
  | securityAlarm (trigger : AlarmTrigger)
  /-- ALARM_ESCALATION (R477). -/
  | alarmEscalation
  /-- DEBUG_UNLOCK_ATTEMPT (R477). -/
  | debugUnlockAttempt (success : Bool)
  /-- POWER_WINDOW (R479). -/
  | powerWindow (watts : Nat) (capped : Nat)
  /-- FUNCTION_RESET (R344). -/
  | functionReset (fn : Nat)
  /-- CODE_OBJECT_UNLOAD (R374). -/
  | codeObjectUnload (ctx : Nat) (va : Nat)
  /-- VENDOR_ENROLMENT (R474). -/
  | vendorEnrolment (helper : Nat) (signedOk : Bool)
  /-- HOST_COMPLETION_ARRIVAL (R434). -/
  | hostCompletionArrival (id : Nat) (data : List (BitVec 8))
  /-- PAGE_REQUEST_RESPONSE (R434). -/
  | pageRequestResponse (id : Nat) (granted : Bool)
  /-- L1_LINE_REPLACEMENT (R485). -/
  | l1LineReplacement (core : Nat) (line : Nat)
  /-- HOST_LINK_TRAINING (R471). -/
  | hostLinkTraining (fns : List (Nat × Bool × Bool))
  deriving DecidableEq, Repr

end Sys2Proof
end

