-- ==== Sys2Proof/WellFormed.lean ====
section
/-! DEFINITION. Which field values an instruction word may hold: the part of check 1 of R72 that the
fields of one constructor decide (reserved class, size, type and level codes, guards, segment counts). -/

namespace Sys2Proof

/-- CLS 0b11 is reserved (R51, R85). -/
def classOk (c : BitVec 2) : Bool := decide (c ≠ 3)

/-- A zero-extending load takes no 8-byte size (R77). -/
def narrowSize (sz : BitVec 2) : Bool := decide (sz ≠ 3)

/-- An atomic takes 4 or 8 bytes (R50). -/
def atomicSize (sz : BitVec 2) : Bool := decide (sz = 2) || decide (sz = 3)

/-- The UNIT codes of the clicker channels (R53, R81). -/
def channelUnit (u : BitVec 4) : Bool := decide (2 ≤ u.toNat) && decide (u.toNat ≤ 5)

/-- The FP types of R84. -/
def fpType (f : BitVec 2) : Bool := decide (f ≠ 3)

/-- The special types of R84. -/
def specialType (f : BitVec 2) : Bool := decide (f = 0) || decide (f = 2)

/-- The integer AMO types of R84. -/
def intAmoType (t : BitVec 2) : Bool := decide (t = 0) || decide (t = 1)

/-- With EN = 0 the other guard bits are MBZ (R60). -/
def guardOk (g : BitVec 4) : Bool := decide (8 ≤ g.toNat) || decide (g = 0)

/-- A clicker space code and its REF field (R247): codes 6 and 7 are reserved, and bit 3 of a base
reference is MBZ. -/
def spaceOk (space : BitVec 3) (ref : BitVec 4) : Bool :=
  decide (space = 5) || (decide (space.toNat ≤ 4) && decide (ref.toNat ≤ 7))

/-- No field of the word holds a value that check 1 of R72 refuses. Events have no fields to check. -/
def Instr.wf : Instr → Bool
  | .add _ _ _ _ => true
  | .sub _ _ _ _ => true
  | .and _ _ _ _ => true
  | .or _ _ _ _ => true
  | .xor _ _ _ _ => true
  | .andn _ _ _ _ => true
  | .sll _ _ _ _ => true
  | .srl _ _ _ _ => true
  | .sra _ _ _ _ => true
  | .rotr _ _ _ _ => true
  | .slt _ _ _ _ => true
  | .sltu _ _ _ _ => true
  | .min _ _ _ _ => true
  | .max _ _ _ _ => true
  | .minu _ _ _ _ => true
  | .maxu _ _ _ _ => true
  | .mul _ _ _ _ => true
  | .mulh _ _ _ _ => true
  | .mulhu _ _ _ _ => true
  | .div _ _ _ _ => true
  | .divu _ _ _ _ => true
  | .rem _ _ _ _ => true
  | .remu _ _ _ _ => true
  | .addw _ _ _ _ => true
  | .subw _ _ _ _ => true
  | .mulw _ _ _ _ => true
  | .sllw _ _ _ _ => true
  | .srlw _ _ _ _ => true
  | .sraw _ _ _ _ => true
  | .clz _ _ _ => true
  | .ctz _ _ _ => true
  | .popc _ _ _ => true
  | .bswap _ _ _ => true
  | .sel _ _ _ _ => true
  | .fadd _ _ _ _ _ => true
  | .fsub _ _ _ _ _ => true
  | .fmul _ _ _ _ _ => true
  | .fdiv _ _ _ _ _ => true
  | .fsqrt _ _ _ _ => true
  | .fmin _ _ _ _ _ => true
  | .fmax _ _ _ _ _ => true
  | .fmac _ _ _ _ _ => true
  | .feq _ _ _ _ _ => true
  | .flt _ _ _ _ _ => true
  | .fle _ _ _ _ _ => true
  | .fcvt _ _ _ _ => true
  | .ftoi _ _ _ _ => true
  | .ftou _ _ _ _ => true
  | .itof _ _ _ _ => true
  | .utof _ _ _ _ => true
  | .fabs _ _ _ _ => true
  | .fneg _ _ _ _ => true
  | .jalr _ _ _ => true
  | .jget _ _ _ => true
  | .jset _ _ _ => true
  | .addi _ _ _ => true
  | .andi _ _ _ => true
  | .ori _ _ _ => true
  | .xori _ _ _ => true
  | .slti _ _ _ => true
  | .sltiu _ _ _ => true
  | .slli _ _ _ => true
  | .srli _ _ _ => true
  | .srai _ _ _ => true
  | .bfx _ _ _ _ => true
  | .bfxS _ _ _ _ => true
  | .bfi _ _ _ _ => true
  | .li _ _ => true
  | .lih _ _ => true
  | .adpc _ _ => true
  | .ld _ _ _ c _ => classOk c
  | .ldu _ _ sz c _ => classOk c && narrowSize sz
  | .st _ _ _ c _ => classOk c
  | .lds _ _ _ _ => true
  | .ldsu _ _ sz _ => narrowSize sz
  | .sts _ _ _ _ => true
  | .ldq _ _ _ c _ => classOk c
  | .amoAdd _ _ _ sz c => classOk c && atomicSize sz
  | .amoAnd _ _ _ sz c => classOk c && atomicSize sz
  | .amoOr _ _ _ sz c => classOk c && atomicSize sz
  | .amoXor _ _ _ sz c => classOk c && atomicSize sz
  | .amoMin _ _ _ sz c => classOk c && atomicSize sz
  | .amoMax _ _ _ sz c => classOk c && atomicSize sz
  | .amoSwap _ _ _ sz c => classOk c && atomicSize sz
  | .amoCas _ _ _ sz c => classOk c && atomicSize sz
  | .amoFadd _ _ _ sz c => classOk c && atomicSize sz
  | .amoFmin _ _ _ sz c => classOk c && atomicSize sz
  | .amoFmax _ _ _ sz c => classOk c && atomicSize sz
  | .beq _ _ _ => true
  | .bne _ _ _ => true
  | .blt _ _ _ => true
  | .bge _ _ _ => true
  | .bltu _ _ _ => true
  | .bgeu _ _ _ => true
  | .j _ => true
  | .jal _ => true
  | .land => true
  | .cwaitCont _ _ _ => true
  | .vrun _ _ _ => true
  | .vwait _ _ => true
  | .mrun _ _ => true
  | .mwait _ _ => true
  | .mstop _ => true
  | .crun _ _ u _ => channelUnit u
  | .cwait _ u _ => channelUnit u
  | .erun _ _ _ _ => true
  | .fmtq _ _ => true
  | .trdl _ _ => true
  | .stitch _ _ => true
  | .bind _ _ _ => true
  | .unbind _ _ => true
  | .qdepth _ _ _ => true
  | .rbacqW _ _ _ => true
  | .rbacqT _ _ _ => true
  | .rbrel _ _ => true
  | .tqpush _ _ _ _ => true
  | .launch _ _ _ _ => true
  | .csrr _ _ => true
  | .csrw _ _ _ => true
  | .csrs _ _ _ => true
  | .csrc _ _ _ => true
  | .phase l => decide (l.toNat ≤ 4)
  | .phaseE l => (decide (l = 3) || decide (l = 4))
  | .fence m => decide (m ≠ 0)
  | .flush => true
  | .join => true
  | .yield => true
  | .trap _ => true
  | .eret => true
  | .icinv _ _ => true
  | .tlbinv _ scope => decide (scope.toNat ≤ 2)
  | .moult _ => true
  | .qread _ _ => true
  | .rdpcc _ => true
  | .halt => true
  | .nop _ => true
  | .clevCount _ _ => true
  | .clevSs _ _ => true
  | .clevDs _ _ => true
  | .clevJs _ _ _ => true
  | .cbase _ _ _ => true
  | .ccopy src dst r e _ => spaceOk src r && spaceOk dst e
  | .ccopyTolns src dst r e _ => spaceOk src r && spaceOk dst e
  | .ccopyTolin src dst r e _ => spaceOk src r && spaceOk dst e
  | .cfill dst r _ _ _ => spaceOk dst r
  | .csig _ c _ => classOk c
  | .cend => true
  | .cnop => true
  | .mldw _ _ _ => true
  | .mswap => true
  | .mma _ _ _ _ _ _ _ => true
  | .mstamp _ => true
  | .mdrainPort _ _ => true
  | .mdrainSpm _ _ _ => true
  | .mzero _ => true
  | .mmark => true
  | .mseg c => decide (c ≠ 0)
  | .mtreadle _ _ _ _ => true
  | .mtend => true
  | .mflags _ => true
  | .mnop => true
  | .vaddFp _ _ _ f _ g => fpType f && guardOk g
  | .vsubFp _ _ _ f _ g => fpType f && guardOk g
  | .vmulFp _ _ _ f _ g => fpType f && guardOk g
  | .vfma _ _ _ f _ g => fpType f && guardOk g
  | .vfnma _ _ _ f _ g => fpType f && guardOk g
  | .vminFp _ _ _ f _ g => fpType f && guardOk g
  | .vmaxFp _ _ _ f _ g => fpType f && guardOk g
  | .vdivFp _ _ _ f _ g => fpType f && guardOk g
  | .vsqrt _ _ f _ g => fpType f && guardOk g
  | .vabs _ _ f _ g => fpType f && guardOk g
  | .vneg _ _ f _ g => fpType f && guardOk g
  | .vrcp _ _ f _ g => specialType f && guardOk g
  | .vrsq _ _ f _ g => specialType f && guardOk g
  | .vexp2 _ _ f _ g => specialType f && guardOk g
  | .vlog2 _ _ f _ g => specialType f && guardOk g
  | .vaddInt _ _ _ _ _ g => guardOk g
  | .vsubInt _ _ _ _ _ g => guardOk g
  | .vmulInt _ _ _ _ _ g => guardOk g
  | .vmulh _ _ _ _ _ g => guardOk g
  | .vmulhu _ _ _ _ _ g => guardOk g
  | .vand _ _ _ _ _ g => guardOk g
  | .vor _ _ _ _ _ g => guardOk g
  | .vxor _ _ _ _ _ g => guardOk g
  | .vsll _ _ _ _ _ g => guardOk g
  | .vsrl _ _ _ _ _ g => guardOk g
  | .vsra _ _ _ _ _ g => guardOk g
  | .vminInt _ _ _ _ _ g => guardOk g
  | .vmaxInt _ _ _ _ _ g => guardOk g
  | .vminu _ _ _ _ _ g => guardOk g
  | .vmaxu _ _ _ _ _ g => guardOk g
  | .vadds _ _ _ _ _ g => guardOk g
  | .vsubs _ _ _ _ _ g => guardOk g
  | .vaddsu _ _ _ _ _ g => guardOk g
  | .vsubsu _ _ _ _ _ g => guardOk g
  | .vdivInt _ _ _ _ _ g => guardOk g
  | .vdivu _ _ _ _ _ g => guardOk g
  | .vrem _ _ _ _ _ g => guardOk g
  | .vremu _ _ _ _ _ g => guardOk g
  | .vaddi _ _ _ g => guardOk g
  | .vandi _ _ _ g => guardOk g
  | .vori _ _ _ g => guardOk g
  | .vxori _ _ _ g => guardOk g
  | .vslli _ _ _ g => guardOk g
  | .vsrli _ _ _ g => guardOk g
  | .vsrai _ _ _ g => guardOk g
  | .vmovi _ _ g => guardOk g
  | .vceqFp _ _ f _ g => fpType f && guardOk g
  | .vcltFp _ _ f _ g => fpType f && guardOk g
  | .vcleFp _ _ f _ g => fpType f && guardOk g
  | .vcneFp _ _ f _ g => fpType f && guardOk g
  | .vceqInt _ _ _ _ g => guardOk g
  | .vcneInt _ _ _ _ g => guardOk g
  | .vcltInt _ _ _ _ g => guardOk g
  | .vcltu _ _ _ _ g => guardOk g
  | .vcleInt _ _ _ _ g => guardOk g
  | .vcleu _ _ _ _ g => guardOk g
  | .vceqi _ _ g => guardOk g
  | .vtst _ _ _ _ g => guardOk g
  | .vplog _ _ _ => true
  | .vplogR _ _ _ _ => true
  | .vpdrop _ => true
  | .vppick _ => true
  | .vppickV _ _ => true
  | .vsel _ _ _ _ _ _ => true
  | .vmov _ _ _ g => guardOk g
  | .vperm _ _ _ _ _ g => guardOk g
  | .vshuf _ _ _ _ _ g => guardOk g
  | .vslide _ _ _ _ g => guardOk g
  | .vrot _ _ _ _ g => guardOk g
  | .vmatch _ _ _ _ _ g => guardOk g
  | .vredaddFp _ _ f _ g => fpType f && guardOk g
  | .vredmin _ _ f _ g => fpType f && guardOk g
  | .vredmax _ _ f _ g => fpType f && guardOk g
  | .vredaddInt _ _ _ _ g => guardOk g
  | .vscanFp _ _ f _ g => fpType f && guardOk g
  | .vscanInt _ _ _ _ g => guardOk g
  | .vpfirst _ _ => true
  | .vxs _ _ _ _ => true
  | .vcvtF32F64 _ _ _ _ g => guardOk g
  | .vcvtF64F32 _ _ _ g => guardOk g
  | .vcvtF16F32 _ _ _ _ g => guardOk g
  | .vcvtF32F16 _ _ _ g => guardOk g
  | .vcvtBf16F32 _ _ _ _ g => guardOk g
  | .vcvtF32Bf16 _ _ _ g => guardOk g
  | .vcvtI32F32 _ _ _ _ g => guardOk g
  | .vcvtF32I32 _ _ _ _ g => guardOk g
  | .vcvtN32F32 _ _ _ _ g => guardOk g
  | .vcvtF32N32 _ _ _ _ g => guardOk g
  | .vcvtI64F64 _ _ _ _ g => guardOk g
  | .vcvtF64I64 _ _ _ _ g => guardOk g
  | .vlcvt _ _ _ _ _ g => guardOk g
  | .vlcvtM _ _ _ _ _ g => guardOk g
  | .vlexp _ _ _ _ _ g => guardOk g
  | .vcvtF64Lns _ _ _ _ g => guardOk g
  | .vlmul _ _ _ f _ g => decide (f ≠ 3) && guardOk g
  | .vlscl _ _ _ f _ g => decide (f ≠ 3) && guardOk g
  | .vld _ c _ g => classOk c && guardOk g
  | .vst _ c _ _ g => classOk c && guardOk g
  | .vlds _ _ g => guardOk g
  | .vsts _ _ _ g => guardOk g
  | .vgath _ c _ _ g => classOk c && guardOk g
  | .vscat _ c _ _ _ g => classOk c && guardOk g
  | .vupdAdd _ c _ _ _ g => classOk c && guardOk g
  | .vupdMin _ c _ _ _ g => classOk c && guardOk g
  | .vupdMax _ c _ _ _ g => classOk c && guardOk g
  | .vupdAnd _ c _ t _ g => classOk c && intAmoType t && guardOk g
  | .vupdOr _ c _ t _ g => classOk c && intAmoType t && guardOk g
  | .vupdXor _ c _ t _ g => classOk c && intAmoType t && guardOk g
  | .vupdMinu _ c _ t _ g => classOk c && intAmoType t && guardOk g
  | .vupdMaxu _ c _ t _ g => classOk c && intAmoType t && guardOk g
  | .vtqpush _ _ _ g => guardOk g
  | .vamoAdd _ _ c _ _ _ g => classOk c && guardOk g
  | .vamoAnd _ _ c _ t _ g => classOk c && intAmoType t && guardOk g
  | .vamoOr _ _ c _ t _ g => classOk c && intAmoType t && guardOk g
  | .vamoXor _ _ c _ t _ g => classOk c && intAmoType t && guardOk g
  | .vamoMin _ _ c _ _ _ g => classOk c && guardOk g
  | .vamoMax _ _ c _ _ _ g => classOk c && guardOk g
  | .vamoSwap _ _ c _ t _ g => classOk c && intAmoType t && guardOk g
  | .vamoCas _ _ c _ t _ g => classOk c && intAmoType t && guardOk g
  | .vshape _ _ => true
  | .vloop _ _ => true
  | .vjmp _ => true
  | .vend => true
  | .vseg c => decide (c ≠ 0)
  | .vnop _ => true
  | .faultRecordWrite _ => true
  | .loadDataReturn _ => true
  | .dataErrorArrival _ _ => true
  | .accessPerformed _ => true
  | .storeAck _ => true
  | .storeErrorRecord _ _ => true
  | .commitMessage _ => true
  | .commitAck _ => true
  | .dirtySectorEviction _ _ => true
  | .forcedCommit _ _ => true
  | .tlbWalkComplete _ => true
  | .ldqDataArrival _ => true
  | .vectorBusyClear _ _ => true
  | .commandWindowReplay _ _ => true
  | .rangeEntryRetire _ _ => true
  | .clickerCopyStart _ _ => true
  | .clickerCopyComplete _ _ _ => true
  | .csigResponse _ _ _ => true
  | .clickerProgramComplete _ _ => true
  | .packetDelivery _ => true
  | .peerByteTransfer _ _ => true
  | .portUnbindComplete _ _ => true
  | .treadleSlotStart _ => true
  | .demandSend _ => true
  | .demandArrival _ _ => true
  | .treadleRunEnd _ => true
  | .jobStart _ _ => true
  | .jobEnd _ => true
  | .swapTrigger _ _ => true
  | .groupWake _ _ => true
  | .activeRefill _ _ => true
  | .rotationTick _ => true
  | .blockTransfer _ => true
  | .phaseArrival _ => true
  | .phaseBoundaryComplete _ _ _ => true
  | .fabricArrivalMessage _ => true
  | .arrivalResend _ _ => true
  | .taskPushAccept _ => true
  | .taskQueueSpill _ _ => true
  | .taskQueueRefill _ _ => true
  | .formerSelection _ => true
  | .formerTimeout _ _ => true
  | .formerGroupReady _ => true
  | .qwidxWrite _ _ _ => true
  | .queueEnable _ _ _ => true
  | .queueDisable _ _ _ => true
  | .headPacketRead _ => true
  | .signalReread _ _ => true
  | .selectionRound => true
  | .reservationStart _ => true
  | .launchCompletion _ => true
  | .msixUnmask _ _ => true
  | .codeObjectLoad _ => true
  | .demandPageVerify _ _ _ => true
  | .codeIntegrityTermination _ => true
  | .slotPatch _ _ _ _ => true
  | .preempt _ => true
  | .resumeJob _ _ => true
  | .resumeGroup _ _ _ => true
  | .killGroup _ _ => true
  | .killLaunch _ => true
  | .killContext _ => true
  | .moultRelease => true
  | .remoteRequestArrival _ => true
  | .replyArrival _ _ => true
  | .requesterTimeout _ => true
  | .tagRelease _ => true
  | .routerDiscard _ => true
  | .congestionNotice _ => true
  | .windowIncrease _ => true
  | .creditReturn _ _ _ => true
  | .auditFlitSend _ => true
  | .auditFlitReceive _ _ => true
  | .auditReturn _ _ => true
  | .linkCrcRetry _ => true
  | .linkRetrain _ _ => true
  | .linkTraining _ _ _ => true
  | .portDead _ => true
  | .hostBar2Read _ _ _ => true
  | .hostBar2Write _ _ _ => true
  | .hostAtomicRequest _ _ => true
  | .atsInvalidation _ _ => true
  | .ideIntegrityFail _ => true
  | .ideRekey _ => true
  | .attestationRequest _ => true
  | .hostRestartRequest _ => true
  | .registerWrite _ => true
  | .selfTestComplete _ _ => true
  | .spareSubstitution _ _ => true
  | .controlCoreReset _ => true
  | .controlDieLoss _ => true
  | .controlDieRestart _ => true
  | .heartbeatMiss _ => true
  | .dieIsolation _ => true
  | .dieRecovery _ _ _ => true
  | .fabricDieLoss => true
  | .deviceReset _ => true
  | .bootStageTimeout => true
  | .securityAlarm _ => true
  | .alarmEscalation => true
  | .debugUnlockAttempt _ => true
  | .powerWindow _ _ => true
  | .functionReset _ => true
  | .codeObjectUnload _ _ => true
  | .vendorEnrolment _ _ => true
  | .hostCompletionArrival _ _ => true
  | .pageRequestResponse _ _ => true
  | .l1LineReplacement _ _ => true
  | .hostLinkTraining _ => true

end Sys2Proof
end

