-- ==== Sys2Proof/Decode.lean ====
section
/-! DEFINITION. The decoders of the word streams (R45, R75-R89), written from the formats of R48, R55,
R62, R232 and R246, and the encoder that is their inverse. A word is a number below 2^32; its bit 0 is
the least significant bit (R5).

`noncomputable` here says only that Lean's compiler has no code for a constructor past its 245th; the
kernel evaluates these definitions as it does the others. -/

namespace Sys2Proof

/-- The kinds of instruction word, each with its own decoder (R45). The eft stream and the control-die
cores decode scalar words. -/
inductive WordKind where
  | scalar | vector | matrix | clicker
  deriving DecidableEq, Repr

/-- What a decoder answers. -/
inductive Decoded where
  /-- A word of an assigned form. -/
  | ok (i : Instr)
  /-- Check 1 of R72 fails. -/
  | illegalEncoding
  /-- An assigned UNIT code that the form does not accept (R53, R81). -/
  | illegalOperand
  deriving DecidableEq, Repr

/-- The field hi:lo of a word, at width n = hi + 1 - lo. -/
def bits (n lo w : Nat) : BitVec n := BitVec.ofNat n (w / pow2 lo % pow2 n)

/-- The scalar words of OP 0x01: ADD, SUB, AND, OR, XOR, ANDN, SLL, SRL, SRA, ROTR, SLT, SLTU, MIN, MAX, MINU, MAXU, MUL, MULH, MULHU, DIV, DIVU, REM, REMU, ADDW, SUBW, MULW, SLLW, SRLW, SRAW, CLZ, CTZ, POPC, BSWAP, SEL (R124). -/
def scalarOp01 (w : Nat) : Option Instr :=
  if fld w 10 3 = 0 then some (.add (bits 5 21 w) (bits 5 16 w) (bits 5 11 w) (bits 3 0 w))
  else if fld w 10 3 = 1 then some (.sub (bits 5 21 w) (bits 5 16 w) (bits 5 11 w) (bits 3 0 w))
  else if fld w 10 3 = 2 then some (.and (bits 5 21 w) (bits 5 16 w) (bits 5 11 w) (bits 3 0 w))
  else if fld w 10 3 = 3 then some (.or (bits 5 21 w) (bits 5 16 w) (bits 5 11 w) (bits 3 0 w))
  else if fld w 10 3 = 4 then some (.xor (bits 5 21 w) (bits 5 16 w) (bits 5 11 w) (bits 3 0 w))
  else if fld w 10 3 = 5 then some (.andn (bits 5 21 w) (bits 5 16 w) (bits 5 11 w) (bits 3 0 w))
  else if fld w 10 3 = 6 then some (.sll (bits 5 21 w) (bits 5 16 w) (bits 5 11 w) (bits 3 0 w))
  else if fld w 10 3 = 7 then some (.srl (bits 5 21 w) (bits 5 16 w) (bits 5 11 w) (bits 3 0 w))
  else if fld w 10 3 = 8 then some (.sra (bits 5 21 w) (bits 5 16 w) (bits 5 11 w) (bits 3 0 w))
  else if fld w 10 3 = 9 then some (.rotr (bits 5 21 w) (bits 5 16 w) (bits 5 11 w) (bits 3 0 w))
  else if fld w 10 3 = 10 then some (.slt (bits 5 21 w) (bits 5 16 w) (bits 5 11 w) (bits 3 0 w))
  else if fld w 10 3 = 11 then some (.sltu (bits 5 21 w) (bits 5 16 w) (bits 5 11 w) (bits 3 0 w))
  else if fld w 10 3 = 12 then some (.min (bits 5 21 w) (bits 5 16 w) (bits 5 11 w) (bits 3 0 w))
  else if fld w 10 3 = 13 then some (.max (bits 5 21 w) (bits 5 16 w) (bits 5 11 w) (bits 3 0 w))
  else if fld w 10 3 = 14 then some (.minu (bits 5 21 w) (bits 5 16 w) (bits 5 11 w) (bits 3 0 w))
  else if fld w 10 3 = 15 then some (.maxu (bits 5 21 w) (bits 5 16 w) (bits 5 11 w) (bits 3 0 w))
  else if fld w 10 3 = 16 then some (.mul (bits 5 21 w) (bits 5 16 w) (bits 5 11 w) (bits 3 0 w))
  else if fld w 10 3 = 17 then some (.mulh (bits 5 21 w) (bits 5 16 w) (bits 5 11 w) (bits 3 0 w))
  else if fld w 10 3 = 18 then some (.mulhu (bits 5 21 w) (bits 5 16 w) (bits 5 11 w) (bits 3 0 w))
  else if fld w 10 3 = 19 then some (.div (bits 5 21 w) (bits 5 16 w) (bits 5 11 w) (bits 3 0 w))
  else if fld w 10 3 = 20 then some (.divu (bits 5 21 w) (bits 5 16 w) (bits 5 11 w) (bits 3 0 w))
  else if fld w 10 3 = 21 then some (.rem (bits 5 21 w) (bits 5 16 w) (bits 5 11 w) (bits 3 0 w))
  else if fld w 10 3 = 22 then some (.remu (bits 5 21 w) (bits 5 16 w) (bits 5 11 w) (bits 3 0 w))
  else if fld w 10 3 = 24 then some (.addw (bits 5 21 w) (bits 5 16 w) (bits 5 11 w) (bits 3 0 w))
  else if fld w 10 3 = 25 then some (.subw (bits 5 21 w) (bits 5 16 w) (bits 5 11 w) (bits 3 0 w))
  else if fld w 10 3 = 26 then some (.mulw (bits 5 21 w) (bits 5 16 w) (bits 5 11 w) (bits 3 0 w))
  else if fld w 10 3 = 27 then some (.sllw (bits 5 21 w) (bits 5 16 w) (bits 5 11 w) (bits 3 0 w))
  else if fld w 10 3 = 28 then some (.srlw (bits 5 21 w) (bits 5 16 w) (bits 5 11 w) (bits 3 0 w))
  else if fld w 10 3 = 29 then some (.sraw (bits 5 21 w) (bits 5 16 w) (bits 5 11 w) (bits 3 0 w))
  else if fld w 15 3 = 32 then some (.clz (bits 5 21 w) (bits 5 16 w) (bits 3 0 w))
  else if fld w 15 3 = 33 then some (.ctz (bits 5 21 w) (bits 5 16 w) (bits 3 0 w))
  else if fld w 15 3 = 34 then some (.popc (bits 5 21 w) (bits 5 16 w) (bits 3 0 w))
  else if fld w 15 3 = 35 then some (.bswap (bits 5 21 w) (bits 5 16 w) (bits 3 0 w))
  else if fld w 10 3 = 40 then some (.sel (bits 5 21 w) (bits 5 16 w) (bits 5 11 w) (bits 3 0 w))
  else none

/-- The scalar words of OP 0x02: FADD, FSUB, FMUL, FDIV, FSQRT, FMIN, FMAX, FMAC, FEQ, FLT, FLE, FCVT, FTOI, FTOU, ITOF, UTOF, FABS, FNEG (R130). -/
def scalarOp02 (w : Nat) : Option Instr :=
  if fld w 9 3 = 0 then some (.fadd (bits 5 21 w) (bits 5 16 w) (bits 5 11 w) (bits 1 10 w) (bits 3 0 w))
  else if fld w 9 3 = 1 then some (.fsub (bits 5 21 w) (bits 5 16 w) (bits 5 11 w) (bits 1 10 w) (bits 3 0 w))
  else if fld w 9 3 = 2 then some (.fmul (bits 5 21 w) (bits 5 16 w) (bits 5 11 w) (bits 1 10 w) (bits 3 0 w))
  else if fld w 9 3 = 3 then some (.fdiv (bits 5 21 w) (bits 5 16 w) (bits 5 11 w) (bits 1 10 w) (bits 3 0 w))
  else if fld w 15 11 = 0 ∧ fld w 9 3 = 4 then some (.fsqrt (bits 5 21 w) (bits 5 16 w) (bits 1 10 w) (bits 3 0 w))
  else if fld w 9 3 = 5 then some (.fmin (bits 5 21 w) (bits 5 16 w) (bits 5 11 w) (bits 1 10 w) (bits 3 0 w))
  else if fld w 9 3 = 6 then some (.fmax (bits 5 21 w) (bits 5 16 w) (bits 5 11 w) (bits 1 10 w) (bits 3 0 w))
  else if fld w 9 3 = 7 then some (.fmac (bits 5 21 w) (bits 5 16 w) (bits 5 11 w) (bits 1 10 w) (bits 3 0 w))
  else if fld w 9 3 = 8 then some (.feq (bits 5 21 w) (bits 5 16 w) (bits 5 11 w) (bits 1 10 w) (bits 3 0 w))
  else if fld w 9 3 = 9 then some (.flt (bits 5 21 w) (bits 5 16 w) (bits 5 11 w) (bits 1 10 w) (bits 3 0 w))
  else if fld w 9 3 = 10 then some (.fle (bits 5 21 w) (bits 5 16 w) (bits 5 11 w) (bits 1 10 w) (bits 3 0 w))
  else if fld w 15 11 = 0 ∧ fld w 9 3 = 11 then some (.fcvt (bits 5 21 w) (bits 5 16 w) (bits 1 10 w) (bits 3 0 w))
  else if fld w 15 11 = 0 ∧ fld w 9 3 = 12 then some (.ftoi (bits 5 21 w) (bits 5 16 w) (bits 1 10 w) (bits 3 0 w))
  else if fld w 15 11 = 0 ∧ fld w 9 3 = 13 then some (.ftou (bits 5 21 w) (bits 5 16 w) (bits 1 10 w) (bits 3 0 w))
  else if fld w 15 11 = 0 ∧ fld w 9 3 = 14 then some (.itof (bits 5 21 w) (bits 5 16 w) (bits 1 10 w) (bits 3 0 w))
  else if fld w 15 11 = 0 ∧ fld w 9 3 = 15 then some (.utof (bits 5 21 w) (bits 5 16 w) (bits 1 10 w) (bits 3 0 w))
  else if fld w 15 11 = 0 ∧ fld w 9 3 = 16 then some (.fabs (bits 5 21 w) (bits 5 16 w) (bits 1 10 w) (bits 3 0 w))
  else if fld w 15 11 = 0 ∧ fld w 9 3 = 17 then some (.fneg (bits 5 21 w) (bits 5 16 w) (bits 1 10 w) (bits 3 0 w))
  else none

/-- The scalar words of OP 0x03: JALR (R144). -/
def scalarOp03 (w : Nat) : Option Instr :=
  if fld w 15 3 = 0 then some (.jalr (bits 5 21 w) (bits 5 16 w) (bits 3 0 w))
  else none

/-- The scalar words of OP 0x04: JGET, JSET (R129). -/
def scalarOp04 (w : Nat) : Option Instr :=
  if fld w 15 3 = 0 then some (.jget (bits 5 21 w) (bits 5 16 w) (bits 3 0 w))
  else if fld w 15 3 = 1 then some (.jset (bits 5 21 w) (bits 5 16 w) (bits 3 0 w))
  else none

/-- The scalar words of OP 0x08: ADDI (R125). -/
def scalarOp08 (w : Nat) : Option Instr :=
  some (.addi (bits 5 21 w) (bits 5 16 w) (bits 16 0 w))

/-- The scalar words of OP 0x09: ANDI (R125). -/
def scalarOp09 (w : Nat) : Option Instr :=
  some (.andi (bits 5 21 w) (bits 5 16 w) (bits 16 0 w))

/-- The scalar words of OP 0x0A: ORI (R125). -/
def scalarOp0A (w : Nat) : Option Instr :=
  some (.ori (bits 5 21 w) (bits 5 16 w) (bits 16 0 w))

/-- The scalar words of OP 0x0B: XORI (R125). -/
def scalarOp0B (w : Nat) : Option Instr :=
  some (.xori (bits 5 21 w) (bits 5 16 w) (bits 16 0 w))

/-- The scalar words of OP 0x0C: SLTI (R125). -/
def scalarOp0C (w : Nat) : Option Instr :=
  some (.slti (bits 5 21 w) (bits 5 16 w) (bits 16 0 w))

/-- The scalar words of OP 0x0D: SLTIU (R125). -/
def scalarOp0D (w : Nat) : Option Instr :=
  some (.sltiu (bits 5 21 w) (bits 5 16 w) (bits 16 0 w))

/-- The scalar words of OP 0x0E: SLLI, SRLI, SRAI (R126). -/
def scalarOp0E (w : Nat) : Option Instr :=
  if fld w 15 6 = 0 then some (.slli (bits 5 21 w) (bits 5 16 w) (bits 6 0 w))
  else if fld w 15 6 = 1 then some (.srli (bits 5 21 w) (bits 5 16 w) (bits 6 0 w))
  else if fld w 15 6 = 2 then some (.srai (bits 5 21 w) (bits 5 16 w) (bits 6 0 w))
  else none

/-- The scalar words of OP 0x0F: BFX, BFX_S (R127). -/
def scalarOp0F (w : Nat) : Option Instr :=
  if fld w 15 12 = 0 then some (.bfx (bits 5 21 w) (bits 5 16 w) (bits 6 6 w) (bits 6 0 w))
  else if fld w 15 12 = 8 then some (.bfxS (bits 5 21 w) (bits 5 16 w) (bits 6 6 w) (bits 6 0 w))
  else none

/-- The scalar words of OP 0x10: BFI (R127). -/
def scalarOp10 (w : Nat) : Option Instr :=
  if fld w 15 12 = 0 then some (.bfi (bits 5 21 w) (bits 5 16 w) (bits 6 6 w) (bits 6 0 w))
  else none

/-- The scalar words of OP 0x11: LI (R128). -/
def scalarOp11 (w : Nat) : Option Instr :=
  some (.li (bits 5 21 w) (bits 21 0 w))

/-- The scalar words of OP 0x12: LIH (R128). -/
def scalarOp12 (w : Nat) : Option Instr :=
  some (.lih (bits 5 21 w) (bits 21 0 w))

/-- The scalar words of OP 0x13: ADPC (R128). -/
def scalarOp13 (w : Nat) : Option Instr :=
  some (.adpc (bits 5 21 w) (bits 21 0 w))

/-- The scalar words of OP 0x18: LD (R133). -/
def scalarOp18 (w : Nat) : Option Instr :=
  some (.ld (bits 5 21 w) (bits 5 16 w) (bits 2 14 w) (bits 2 12 w) (bits 12 0 w))

/-- The scalar words of OP 0x19: LDU (R133). -/
def scalarOp19 (w : Nat) : Option Instr :=
  some (.ldu (bits 5 21 w) (bits 5 16 w) (bits 2 14 w) (bits 2 12 w) (bits 12 0 w))

/-- The scalar words of OP 0x1A: ST (R133). -/
def scalarOp1A (w : Nat) : Option Instr :=
  some (.st (bits 5 21 w) (bits 5 16 w) (bits 2 14 w) (bits 2 12 w) (bits 12 0 w))

/-- The scalar words of OP 0x1B: LDS (R135). -/
def scalarOp1B (w : Nat) : Option Instr :=
  if fld w 13 12 = 0 then some (.lds (bits 5 21 w) (bits 5 16 w) (bits 2 14 w) (bits 12 0 w))
  else none

/-- The scalar words of OP 0x1C: LDSU (R135). -/
def scalarOp1C (w : Nat) : Option Instr :=
  if fld w 13 12 = 0 then some (.ldsu (bits 5 21 w) (bits 5 16 w) (bits 2 14 w) (bits 12 0 w))
  else none

/-- The scalar words of OP 0x1D: STS (R135). -/
def scalarOp1D (w : Nat) : Option Instr :=
  if fld w 13 12 = 0 then some (.sts (bits 5 21 w) (bits 5 16 w) (bits 2 14 w) (bits 12 0 w))
  else none

/-- The scalar words of OP 0x1E: LDQ (R136). -/
def scalarOp1E (w : Nat) : Option Instr :=
  some (.ldq (bits 5 21 w) (bits 5 16 w) (bits 2 14 w) (bits 2 12 w) (bits 12 0 w))

/-- The scalar words of OP 0x20: AMO_ADD, AMO_AND, AMO_OR, AMO_XOR, AMO_MIN, AMO_MAX, AMO_SWAP, AMO_CAS, AMO_FADD, AMO_FMIN, AMO_FMAX (R137). -/
def scalarOp20 (w : Nat) : Option Instr :=
  if fld w 10 7 = 0 ∧ fld w 2 0 = 0 then some (.amoAdd (bits 5 21 w) (bits 5 16 w) (bits 5 11 w) (bits 2 5 w) (bits 2 3 w))
  else if fld w 10 7 = 1 ∧ fld w 2 0 = 0 then some (.amoAnd (bits 5 21 w) (bits 5 16 w) (bits 5 11 w) (bits 2 5 w) (bits 2 3 w))
  else if fld w 10 7 = 2 ∧ fld w 2 0 = 0 then some (.amoOr (bits 5 21 w) (bits 5 16 w) (bits 5 11 w) (bits 2 5 w) (bits 2 3 w))
  else if fld w 10 7 = 3 ∧ fld w 2 0 = 0 then some (.amoXor (bits 5 21 w) (bits 5 16 w) (bits 5 11 w) (bits 2 5 w) (bits 2 3 w))
  else if fld w 10 7 = 4 ∧ fld w 2 0 = 0 then some (.amoMin (bits 5 21 w) (bits 5 16 w) (bits 5 11 w) (bits 2 5 w) (bits 2 3 w))
  else if fld w 10 7 = 5 ∧ fld w 2 0 = 0 then some (.amoMax (bits 5 21 w) (bits 5 16 w) (bits 5 11 w) (bits 2 5 w) (bits 2 3 w))
  else if fld w 10 7 = 6 ∧ fld w 2 0 = 0 then some (.amoSwap (bits 5 21 w) (bits 5 16 w) (bits 5 11 w) (bits 2 5 w) (bits 2 3 w))
  else if fld w 10 7 = 7 ∧ fld w 2 0 = 0 then some (.amoCas (bits 5 21 w) (bits 5 16 w) (bits 5 11 w) (bits 2 5 w) (bits 2 3 w))
  else if fld w 10 7 = 8 ∧ fld w 2 0 = 0 then some (.amoFadd (bits 5 21 w) (bits 5 16 w) (bits 5 11 w) (bits 2 5 w) (bits 2 3 w))
  else if fld w 10 7 = 9 ∧ fld w 2 0 = 0 then some (.amoFmin (bits 5 21 w) (bits 5 16 w) (bits 5 11 w) (bits 2 5 w) (bits 2 3 w))
  else if fld w 10 7 = 10 ∧ fld w 2 0 = 0 then some (.amoFmax (bits 5 21 w) (bits 5 16 w) (bits 5 11 w) (bits 2 5 w) (bits 2 3 w))
  else none

/-- The scalar words of OP 0x24: BEQ, BNE, BLT, BGE, BLTU, BGEU (R142). -/
def scalarOp24 (w : Nat) : Option Instr :=
  if fld w 25 23 = 0 then some (.beq (bits 5 18 w) (bits 5 13 w) (bits 13 0 w))
  else if fld w 25 23 = 1 then some (.bne (bits 5 18 w) (bits 5 13 w) (bits 13 0 w))
  else if fld w 25 23 = 2 then some (.blt (bits 5 18 w) (bits 5 13 w) (bits 13 0 w))
  else if fld w 25 23 = 3 then some (.bge (bits 5 18 w) (bits 5 13 w) (bits 13 0 w))
  else if fld w 25 23 = 4 then some (.bltu (bits 5 18 w) (bits 5 13 w) (bits 13 0 w))
  else if fld w 25 23 = 5 then some (.bgeu (bits 5 18 w) (bits 5 13 w) (bits 13 0 w))
  else none

/-- The scalar words of OP 0x25: J (R143). -/
def scalarOp25 (w : Nat) : Option Instr :=
  some (.j (bits 26 0 w))

/-- The scalar words of OP 0x26: JAL (R143). -/
def scalarOp26 (w : Nat) : Option Instr :=
  some (.jal (bits 26 0 w))

/-- The scalar words of OP 0x27: LAND (R145). -/
def scalarOp27 (w : Nat) : Option Instr :=
  if fld w 25 0 = 0 then some (.land)
  else none

/-- The scalar words of OP 0x28: CWAIT_CONT (R158). -/
def scalarOp28 (w : Nat) : Option Instr :=
  if fld w 23 23 = 0 ∧ fld w 17 13 = 0 then some (.cwaitCont (bits 2 24 w) (bits 5 18 w) (bits 13 0 w))
  else none

/-- The scalar words of OP 0x2C: VRUN, VWAIT, MRUN, MWAIT, MSTOP, CRUN, CWAIT, ERUN, FMTQ, TRDL, STITCH, BIND, UNBIND, QDEPTH (R150, R151, R152, R153, R154, R156, R157, R159, R160, R161, R162, R165, R167, R168). -/
def scalarOp2C (w : Nat) : Option Instr :=
  if fld w 25 21 = 0 ∧ fld w 10 3 = 0 then some (.vrun (bits 5 16 w) (bits 5 11 w) (bits 3 0 w))
  else if fld w 20 3 = 1 then some (.vwait (bits 5 21 w) (bits 3 0 w))
  else if fld w 25 21 = 0 ∧ fld w 15 3 = 18 then some (.mrun (bits 5 16 w) (bits 3 0 w))
  else if fld w 20 3 = 19 then some (.mwait (bits 5 21 w) (bits 3 0 w))
  else if fld w 25 3 = 20 then some (.mstop (bits 3 0 w))
  else if fld w 25 21 = 0 ∧ fld w 6 3 = 5 then some (.crun (bits 5 16 w) (bits 5 11 w) (bits 4 7 w) (bits 3 0 w))
  else if fld w 25 21 = 0 ∧ fld w 15 11 = 0 ∧ fld w 6 3 = 6 then some (.cwait (bits 5 16 w) (bits 4 7 w) (bits 3 0 w))
  else if fld w 10 3 = 103 then some (.erun (bits 5 21 w) (bits 5 16 w) (bits 5 11 w) (bits 3 0 w))
  else if fld w 25 21 = 0 ∧ fld w 15 3 = 120 then some (.fmtq (bits 5 16 w) (bits 3 0 w))
  else if fld w 25 21 = 0 ∧ fld w 15 3 = 137 then some (.trdl (bits 5 16 w) (bits 3 0 w))
  else if fld w 20 3 = 138 then some (.stitch (bits 5 21 w) (bits 3 0 w))
  else if fld w 25 21 = 0 ∧ fld w 10 3 = 155 then some (.bind (bits 5 16 w) (bits 5 11 w) (bits 3 0 w))
  else if fld w 25 16 = 0 ∧ fld w 10 3 = 156 then some (.unbind (bits 5 11 w) (bits 3 0 w))
  else if fld w 20 16 = 0 ∧ fld w 10 3 = 157 then some (.qdepth (bits 5 21 w) (bits 5 11 w) (bits 3 0 w))
  else none

/-- The scalar words of OP 0x2D: RBACQ_W, RBACQ_T, RBREL, TQPUSH, LAUNCH (R170, R171, R172, R173). -/
def scalarOp2D (w : Nat) : Option Instr :=
  if fld w 15 3 = 0 then some (.rbacqW (bits 5 21 w) (bits 5 16 w) (bits 3 0 w))
  else if fld w 15 3 = 1 then some (.rbacqT (bits 5 21 w) (bits 5 16 w) (bits 3 0 w))
  else if fld w 25 21 = 0 ∧ fld w 15 3 = 2 then some (.rbrel (bits 5 16 w) (bits 3 0 w))
  else if fld w 10 3 = 163 then some (.tqpush (bits 5 21 w) (bits 5 16 w) (bits 5 11 w) (bits 3 0 w))
  else if fld w 10 3 = 180 then some (.launch (bits 5 21 w) (bits 5 16 w) (bits 5 11 w) (bits 3 0 w))
  else none

/-- The scalar words of OP 0x30: CSRR (R182). -/
def scalarOp30 (w : Nat) : Option Instr :=
  if fld w 20 16 = 0 then some (.csrr (bits 5 21 w) (bits 16 0 w))
  else none

/-- The scalar words of OP 0x31: CSRW (R182). -/
def scalarOp31 (w : Nat) : Option Instr :=
  some (.csrw (bits 5 21 w) (bits 5 16 w) (bits 16 0 w))

/-- The scalar words of OP 0x32: CSRS (R182). -/
def scalarOp32 (w : Nat) : Option Instr :=
  some (.csrs (bits 5 21 w) (bits 5 16 w) (bits 16 0 w))

/-- The scalar words of OP 0x33: CSRC (R182). -/
def scalarOp33 (w : Nat) : Option Instr :=
  some (.csrc (bits 5 21 w) (bits 5 16 w) (bits 16 0 w))

/-- The scalar words of OP 0x34: PHASE, PHASE_E, FENCE, FLUSH, JOIN, YIELD (R174, R176, R177, R178, R179, R180). -/
def scalarOp34 (w : Nat) : Option Instr :=
  if fld w 25 3 = 0 then some (.phase (bits 3 0 w))
  else if fld w 25 3 = 512 then some (.phaseE (bits 3 0 w))
  else if fld w 25 3 = 1024 then some (.fence (bits 3 0 w))
  else if fld w 25 0 = 12288 then some (.flush)
  else if fld w 25 0 = 16384 then some (.join)
  else if fld w 25 0 = 20480 then some (.yield)
  else none

/-- The scalar words of OP 0x35: TRAP, ERET, ICINV, TLBINV, MOULT, QREAD, RDPCC, HALT (R184, R185, R186, R187, R188, R398, R402). -/
def scalarOp35 (w : Nat) : Option Instr :=
  if fld w 25 8 = 0 then some (.trap (bits 8 0 w))
  else if fld w 25 0 = 4096 then some (.eret)
  else if fld w 25 21 = 0 ∧ fld w 15 2 = 2048 then some (.icinv (bits 5 16 w) (bits 2 0 w))
  else if fld w 25 21 = 0 ∧ fld w 15 3 = 1536 then some (.tlbinv (bits 5 16 w) (bits 3 0 w))
  else if fld w 25 21 = 0 ∧ fld w 15 0 = 16384 then some (.moult (bits 5 16 w))
  else if fld w 20 4 = 1280 then some (.qread (bits 5 21 w) (bits 4 0 w))
  else if fld w 20 0 = 24576 then some (.rdpcc (bits 5 21 w))
  else if fld w 25 0 = 28672 then some (.halt)
  else none

/-- The scalar words of OP 0x3E: NOP (R76). -/
def scalarOp3E (w : Nat) : Option Instr :=
  some (.nop (bits 26 0 w))

/-- The form that a scalar word names, by its opcode field (R77); none for an unassigned value or a nonzero MBZ field. -/
def scalarForm (w : Nat) : Option Instr :=
  match fld w 31 26 with
  | 0x01 => scalarOp01 w
  | 0x02 => scalarOp02 w
  | 0x03 => scalarOp03 w
  | 0x04 => scalarOp04 w
  | 0x08 => scalarOp08 w
  | 0x09 => scalarOp09 w
  | 0x0A => scalarOp0A w
  | 0x0B => scalarOp0B w
  | 0x0C => scalarOp0C w
  | 0x0D => scalarOp0D w
  | 0x0E => scalarOp0E w
  | 0x0F => scalarOp0F w
  | 0x10 => scalarOp10 w
  | 0x11 => scalarOp11 w
  | 0x12 => scalarOp12 w
  | 0x13 => scalarOp13 w
  | 0x18 => scalarOp18 w
  | 0x19 => scalarOp19 w
  | 0x1A => scalarOp1A w
  | 0x1B => scalarOp1B w
  | 0x1C => scalarOp1C w
  | 0x1D => scalarOp1D w
  | 0x1E => scalarOp1E w
  | 0x20 => scalarOp20 w
  | 0x24 => scalarOp24 w
  | 0x25 => scalarOp25 w
  | 0x26 => scalarOp26 w
  | 0x27 => scalarOp27 w
  | 0x28 => scalarOp28 w
  | 0x2C => scalarOp2C w
  | 0x2D => scalarOp2D w
  | 0x30 => scalarOp30 w
  | 0x31 => scalarOp31 w
  | 0x32 => scalarOp32 w
  | 0x33 => scalarOp33 w
  | 0x34 => scalarOp34 w
  | 0x35 => scalarOp35 w
  | 0x3E => scalarOp3E w
  | _ => none

/-- The vector words of OP7 0x01: VADD_FP (R197). -/
def vectorOp01 (w : Nat) : Option Instr :=
  some (.vaddFp (bits 6 19 w) (bits 6 13 w) (bits 6 7 w) (bits 2 5 w) (bits 1 4 w) (bits 4 0 w))

/-- The vector words of OP7 0x02: VSUB_FP (R197). -/
def vectorOp02 (w : Nat) : Option Instr :=
  some (.vsubFp (bits 6 19 w) (bits 6 13 w) (bits 6 7 w) (bits 2 5 w) (bits 1 4 w) (bits 4 0 w))

/-- The vector words of OP7 0x03: VMUL_FP (R197). -/
def vectorOp03 (w : Nat) : Option Instr :=
  some (.vmulFp (bits 6 19 w) (bits 6 13 w) (bits 6 7 w) (bits 2 5 w) (bits 1 4 w) (bits 4 0 w))

/-- The vector words of OP7 0x04: VFMA (R197). -/
def vectorOp04 (w : Nat) : Option Instr :=
  some (.vfma (bits 6 19 w) (bits 6 13 w) (bits 6 7 w) (bits 2 5 w) (bits 1 4 w) (bits 4 0 w))

/-- The vector words of OP7 0x05: VFNMA (R197). -/
def vectorOp05 (w : Nat) : Option Instr :=
  some (.vfnma (bits 6 19 w) (bits 6 13 w) (bits 6 7 w) (bits 2 5 w) (bits 1 4 w) (bits 4 0 w))

/-- The vector words of OP7 0x06: VMIN_FP (R197). -/
def vectorOp06 (w : Nat) : Option Instr :=
  some (.vminFp (bits 6 19 w) (bits 6 13 w) (bits 6 7 w) (bits 2 5 w) (bits 1 4 w) (bits 4 0 w))

/-- The vector words of OP7 0x07: VMAX_FP (R197). -/
def vectorOp07 (w : Nat) : Option Instr :=
  some (.vmaxFp (bits 6 19 w) (bits 6 13 w) (bits 6 7 w) (bits 2 5 w) (bits 1 4 w) (bits 4 0 w))

/-- The vector words of OP7 0x08: VDIV_FP (R197). -/
def vectorOp08 (w : Nat) : Option Instr :=
  some (.vdivFp (bits 6 19 w) (bits 6 13 w) (bits 6 7 w) (bits 2 5 w) (bits 1 4 w) (bits 4 0 w))

/-- The vector words of OP7 0x09: VSQRT (R197). -/
def vectorOp09 (w : Nat) : Option Instr :=
  if fld w 12 7 = 0 then some (.vsqrt (bits 6 19 w) (bits 6 13 w) (bits 2 5 w) (bits 1 4 w) (bits 4 0 w))
  else none

/-- The vector words of OP7 0x0A: VABS (R197). -/
def vectorOp0A (w : Nat) : Option Instr :=
  if fld w 12 7 = 0 then some (.vabs (bits 6 19 w) (bits 6 13 w) (bits 2 5 w) (bits 1 4 w) (bits 4 0 w))
  else none

/-- The vector words of OP7 0x0B: VNEG (R197). -/
def vectorOp0B (w : Nat) : Option Instr :=
  if fld w 12 7 = 0 then some (.vneg (bits 6 19 w) (bits 6 13 w) (bits 2 5 w) (bits 1 4 w) (bits 4 0 w))
  else none

/-- The vector words of OP7 0x0C: VRCP (R198). -/
def vectorOp0C (w : Nat) : Option Instr :=
  if fld w 12 7 = 0 then some (.vrcp (bits 6 19 w) (bits 6 13 w) (bits 2 5 w) (bits 1 4 w) (bits 4 0 w))
  else none

/-- The vector words of OP7 0x0D: VRSQ (R198). -/
def vectorOp0D (w : Nat) : Option Instr :=
  if fld w 12 7 = 0 then some (.vrsq (bits 6 19 w) (bits 6 13 w) (bits 2 5 w) (bits 1 4 w) (bits 4 0 w))
  else none

/-- The vector words of OP7 0x0E: VEXP2 (R198). -/
def vectorOp0E (w : Nat) : Option Instr :=
  if fld w 12 7 = 0 then some (.vexp2 (bits 6 19 w) (bits 6 13 w) (bits 2 5 w) (bits 1 4 w) (bits 4 0 w))
  else none

/-- The vector words of OP7 0x0F: VLOG2 (R198). -/
def vectorOp0F (w : Nat) : Option Instr :=
  if fld w 12 7 = 0 then some (.vlog2 (bits 6 19 w) (bits 6 13 w) (bits 2 5 w) (bits 1 4 w) (bits 4 0 w))
  else none

/-- The vector words of OP7 0x10: VADD_INT (R199). -/
def vectorOp10 (w : Nat) : Option Instr :=
  some (.vaddInt (bits 6 19 w) (bits 6 13 w) (bits 6 7 w) (bits 2 5 w) (bits 1 4 w) (bits 4 0 w))

/-- The vector words of OP7 0x11: VSUB_INT (R199). -/
def vectorOp11 (w : Nat) : Option Instr :=
  some (.vsubInt (bits 6 19 w) (bits 6 13 w) (bits 6 7 w) (bits 2 5 w) (bits 1 4 w) (bits 4 0 w))

/-- The vector words of OP7 0x12: VMUL_INT (R199). -/
def vectorOp12 (w : Nat) : Option Instr :=
  some (.vmulInt (bits 6 19 w) (bits 6 13 w) (bits 6 7 w) (bits 2 5 w) (bits 1 4 w) (bits 4 0 w))

/-- The vector words of OP7 0x13: VMULH (R199). -/
def vectorOp13 (w : Nat) : Option Instr :=
  some (.vmulh (bits 6 19 w) (bits 6 13 w) (bits 6 7 w) (bits 2 5 w) (bits 1 4 w) (bits 4 0 w))

/-- The vector words of OP7 0x14: VMULHU (R199). -/
def vectorOp14 (w : Nat) : Option Instr :=
  some (.vmulhu (bits 6 19 w) (bits 6 13 w) (bits 6 7 w) (bits 2 5 w) (bits 1 4 w) (bits 4 0 w))

/-- The vector words of OP7 0x15: VAND (R199). -/
def vectorOp15 (w : Nat) : Option Instr :=
  some (.vand (bits 6 19 w) (bits 6 13 w) (bits 6 7 w) (bits 2 5 w) (bits 1 4 w) (bits 4 0 w))

/-- The vector words of OP7 0x16: VOR (R199). -/
def vectorOp16 (w : Nat) : Option Instr :=
  some (.vor (bits 6 19 w) (bits 6 13 w) (bits 6 7 w) (bits 2 5 w) (bits 1 4 w) (bits 4 0 w))

/-- The vector words of OP7 0x17: VXOR (R199). -/
def vectorOp17 (w : Nat) : Option Instr :=
  some (.vxor (bits 6 19 w) (bits 6 13 w) (bits 6 7 w) (bits 2 5 w) (bits 1 4 w) (bits 4 0 w))

/-- The vector words of OP7 0x18: VSLL (R199). -/
def vectorOp18 (w : Nat) : Option Instr :=
  some (.vsll (bits 6 19 w) (bits 6 13 w) (bits 6 7 w) (bits 2 5 w) (bits 1 4 w) (bits 4 0 w))

/-- The vector words of OP7 0x19: VSRL (R199). -/
def vectorOp19 (w : Nat) : Option Instr :=
  some (.vsrl (bits 6 19 w) (bits 6 13 w) (bits 6 7 w) (bits 2 5 w) (bits 1 4 w) (bits 4 0 w))

/-- The vector words of OP7 0x1A: VSRA (R199). -/
def vectorOp1A (w : Nat) : Option Instr :=
  some (.vsra (bits 6 19 w) (bits 6 13 w) (bits 6 7 w) (bits 2 5 w) (bits 1 4 w) (bits 4 0 w))

/-- The vector words of OP7 0x1B: VMIN_INT (R199). -/
def vectorOp1B (w : Nat) : Option Instr :=
  some (.vminInt (bits 6 19 w) (bits 6 13 w) (bits 6 7 w) (bits 2 5 w) (bits 1 4 w) (bits 4 0 w))

/-- The vector words of OP7 0x1C: VMAX_INT (R199). -/
def vectorOp1C (w : Nat) : Option Instr :=
  some (.vmaxInt (bits 6 19 w) (bits 6 13 w) (bits 6 7 w) (bits 2 5 w) (bits 1 4 w) (bits 4 0 w))

/-- The vector words of OP7 0x1D: VMINU (R199). -/
def vectorOp1D (w : Nat) : Option Instr :=
  some (.vminu (bits 6 19 w) (bits 6 13 w) (bits 6 7 w) (bits 2 5 w) (bits 1 4 w) (bits 4 0 w))

/-- The vector words of OP7 0x1E: VMAXU (R199). -/
def vectorOp1E (w : Nat) : Option Instr :=
  some (.vmaxu (bits 6 19 w) (bits 6 13 w) (bits 6 7 w) (bits 2 5 w) (bits 1 4 w) (bits 4 0 w))

/-- The vector words of OP7 0x1F: VADDS (R199). -/
def vectorOp1F (w : Nat) : Option Instr :=
  some (.vadds (bits 6 19 w) (bits 6 13 w) (bits 6 7 w) (bits 2 5 w) (bits 1 4 w) (bits 4 0 w))

/-- The vector words of OP7 0x20: VSUBS (R199). -/
def vectorOp20 (w : Nat) : Option Instr :=
  some (.vsubs (bits 6 19 w) (bits 6 13 w) (bits 6 7 w) (bits 2 5 w) (bits 1 4 w) (bits 4 0 w))

/-- The vector words of OP7 0x21: VADDSU (R199). -/
def vectorOp21 (w : Nat) : Option Instr :=
  some (.vaddsu (bits 6 19 w) (bits 6 13 w) (bits 6 7 w) (bits 2 5 w) (bits 1 4 w) (bits 4 0 w))

/-- The vector words of OP7 0x22: VSUBSU (R199). -/
def vectorOp22 (w : Nat) : Option Instr :=
  some (.vsubsu (bits 6 19 w) (bits 6 13 w) (bits 6 7 w) (bits 2 5 w) (bits 1 4 w) (bits 4 0 w))

/-- The vector words of OP7 0x23: VDIV_INT (R199). -/
def vectorOp23 (w : Nat) : Option Instr :=
  some (.vdivInt (bits 6 19 w) (bits 6 13 w) (bits 6 7 w) (bits 2 5 w) (bits 1 4 w) (bits 4 0 w))

/-- The vector words of OP7 0x24: VDIVU (R199). -/
def vectorOp24 (w : Nat) : Option Instr :=
  some (.vdivu (bits 6 19 w) (bits 6 13 w) (bits 6 7 w) (bits 2 5 w) (bits 1 4 w) (bits 4 0 w))

/-- The vector words of OP7 0x25: VREM (R199). -/
def vectorOp25 (w : Nat) : Option Instr :=
  some (.vrem (bits 6 19 w) (bits 6 13 w) (bits 6 7 w) (bits 2 5 w) (bits 1 4 w) (bits 4 0 w))

/-- The vector words of OP7 0x26: VREMU (R199). -/
def vectorOp26 (w : Nat) : Option Instr :=
  some (.vremu (bits 6 19 w) (bits 6 13 w) (bits 6 7 w) (bits 2 5 w) (bits 1 4 w) (bits 4 0 w))

/-- The vector words of OP7 0x28: VADDI (R200). -/
def vectorOp28 (w : Nat) : Option Instr :=
  some (.vaddi (bits 6 19 w) (bits 6 13 w) (bits 9 4 w) (bits 4 0 w))

/-- The vector words of OP7 0x29: VANDI (R200). -/
def vectorOp29 (w : Nat) : Option Instr :=
  some (.vandi (bits 6 19 w) (bits 6 13 w) (bits 9 4 w) (bits 4 0 w))

/-- The vector words of OP7 0x2A: VORI (R200). -/
def vectorOp2A (w : Nat) : Option Instr :=
  some (.vori (bits 6 19 w) (bits 6 13 w) (bits 9 4 w) (bits 4 0 w))

/-- The vector words of OP7 0x2B: VXORI (R200). -/
def vectorOp2B (w : Nat) : Option Instr :=
  some (.vxori (bits 6 19 w) (bits 6 13 w) (bits 9 4 w) (bits 4 0 w))

/-- The vector words of OP7 0x2C: VSLLI (R200). -/
def vectorOp2C (w : Nat) : Option Instr :=
  if fld w 12 9 = 0 then some (.vslli (bits 6 19 w) (bits 6 13 w) (bits 5 4 w) (bits 4 0 w))
  else none

/-- The vector words of OP7 0x2D: VSRLI (R200). -/
def vectorOp2D (w : Nat) : Option Instr :=
  if fld w 12 9 = 0 then some (.vsrli (bits 6 19 w) (bits 6 13 w) (bits 5 4 w) (bits 4 0 w))
  else none

/-- The vector words of OP7 0x2E: VSRAI (R200). -/
def vectorOp2E (w : Nat) : Option Instr :=
  if fld w 12 9 = 0 then some (.vsrai (bits 6 19 w) (bits 6 13 w) (bits 5 4 w) (bits 4 0 w))
  else none

/-- The vector words of OP7 0x2F: VMOVI (R200). -/
def vectorOp2F (w : Nat) : Option Instr :=
  if fld w 18 13 = 0 then some (.vmovi (bits 6 19 w) (bits 9 4 w) (bits 4 0 w))
  else none

/-- The vector words of OP7 0x30: VCEQ_FP (R201). -/
def vectorOp30 (w : Nat) : Option Instr :=
  if fld w 24 19 = 0 then some (.vceqFp (bits 6 13 w) (bits 6 7 w) (bits 2 5 w) (bits 1 4 w) (bits 4 0 w))
  else none

/-- The vector words of OP7 0x31: VCLT_FP (R201). -/
def vectorOp31 (w : Nat) : Option Instr :=
  if fld w 24 19 = 0 then some (.vcltFp (bits 6 13 w) (bits 6 7 w) (bits 2 5 w) (bits 1 4 w) (bits 4 0 w))
  else none

/-- The vector words of OP7 0x32: VCLE_FP (R201). -/
def vectorOp32 (w : Nat) : Option Instr :=
  if fld w 24 19 = 0 then some (.vcleFp (bits 6 13 w) (bits 6 7 w) (bits 2 5 w) (bits 1 4 w) (bits 4 0 w))
  else none

/-- The vector words of OP7 0x33: VCNE_FP (R201). -/
def vectorOp33 (w : Nat) : Option Instr :=
  if fld w 24 19 = 0 then some (.vcneFp (bits 6 13 w) (bits 6 7 w) (bits 2 5 w) (bits 1 4 w) (bits 4 0 w))
  else none

/-- The vector words of OP7 0x34: VCEQ_INT (R201). -/
def vectorOp34 (w : Nat) : Option Instr :=
  if fld w 24 19 = 0 then some (.vceqInt (bits 6 13 w) (bits 6 7 w) (bits 2 5 w) (bits 1 4 w) (bits 4 0 w))
  else none

/-- The vector words of OP7 0x35: VCNE_INT (R201). -/
def vectorOp35 (w : Nat) : Option Instr :=
  if fld w 24 19 = 0 then some (.vcneInt (bits 6 13 w) (bits 6 7 w) (bits 2 5 w) (bits 1 4 w) (bits 4 0 w))
  else none

/-- The vector words of OP7 0x36: VCLT_INT (R201). -/
def vectorOp36 (w : Nat) : Option Instr :=
  if fld w 24 19 = 0 then some (.vcltInt (bits 6 13 w) (bits 6 7 w) (bits 2 5 w) (bits 1 4 w) (bits 4 0 w))
  else none

/-- The vector words of OP7 0x37: VCLTU (R201). -/
def vectorOp37 (w : Nat) : Option Instr :=
  if fld w 24 19 = 0 then some (.vcltu (bits 6 13 w) (bits 6 7 w) (bits 2 5 w) (bits 1 4 w) (bits 4 0 w))
  else none

/-- The vector words of OP7 0x38: VCLE_INT (R201). -/
def vectorOp38 (w : Nat) : Option Instr :=
  if fld w 24 19 = 0 then some (.vcleInt (bits 6 13 w) (bits 6 7 w) (bits 2 5 w) (bits 1 4 w) (bits 4 0 w))
  else none

/-- The vector words of OP7 0x39: VCLEU (R201). -/
def vectorOp39 (w : Nat) : Option Instr :=
  if fld w 24 19 = 0 then some (.vcleu (bits 6 13 w) (bits 6 7 w) (bits 2 5 w) (bits 1 4 w) (bits 4 0 w))
  else none

/-- The vector words of OP7 0x3A: VCEQI (R201). -/
def vectorOp3A (w : Nat) : Option Instr :=
  if fld w 24 19 = 0 then some (.vceqi (bits 6 13 w) (bits 9 4 w) (bits 4 0 w))
  else none

/-- The vector words of OP7 0x3B: VTST (R201). -/
def vectorOp3B (w : Nat) : Option Instr :=
  if fld w 24 19 = 0 then some (.vtst (bits 6 13 w) (bits 6 7 w) (bits 2 5 w) (bits 1 4 w) (bits 4 0 w))
  else none

/-- The vector words of OP7 0x3C: VPLOG, VPLOG_R (R202). -/
def vectorOp3C (w : Nat) : Option Instr :=
  if fld w 24 19 = 0 ∧ fld w 8 0 = 0 then some (.vplog (bits 4 15 w) (bits 3 12 w) (bits 3 9 w))
  else if fld w 24 19 = 0 ∧ fld w 8 8 = 1 ∧ fld w 4 0 = 0 then some (.vplogR (bits 4 15 w) (bits 3 12 w) (bits 3 9 w) (bits 3 5 w))
  else none

/-- The vector words of OP7 0x3D: VPDROP (R203). -/
def vectorOp3D (w : Nat) : Option Instr :=
  if fld w 24 7 = 0 ∧ fld w 3 0 = 0 then some (.vpdrop (bits 3 4 w))
  else none

/-- The vector words of OP7 0x3E: VPPICK, VPPICK_V (R204). -/
def vectorOp3E (w : Nat) : Option Instr :=
  if fld w 18 0 = 0 then some (.vppick (bits 6 19 w))
  else if fld w 18 7 = 2048 ∧ fld w 3 0 = 0 then some (.vppickV (bits 6 19 w) (bits 3 4 w))
  else none

/-- The vector words of OP7 0x40: VSEL (R205). -/
def vectorOp40 (w : Nat) : Option Instr :=
  if fld w 6 5 = 0 ∧ fld w 3 3 = 1 then some (.vsel (bits 6 19 w) (bits 6 13 w) (bits 6 7 w) (bits 1 4 w) (bits 1 2 w) (bits 2 0 w))
  else none

/-- The vector words of OP7 0x41: VMOV (R205). -/
def vectorOp41 (w : Nat) : Option Instr :=
  if fld w 12 5 = 0 then some (.vmov (bits 6 19 w) (bits 6 13 w) (bits 1 4 w) (bits 4 0 w))
  else none

/-- The vector words of OP7 0x42: VPERM (R206). -/
def vectorOp42 (w : Nat) : Option Instr :=
  some (.vperm (bits 6 19 w) (bits 6 13 w) (bits 6 7 w) (bits 2 5 w) (bits 1 4 w) (bits 4 0 w))

/-- The vector words of OP7 0x43: VSHUF (R207). -/
def vectorOp43 (w : Nat) : Option Instr :=
  some (.vshuf (bits 6 19 w) (bits 6 13 w) (bits 6 7 w) (bits 2 5 w) (bits 1 4 w) (bits 4 0 w))

/-- The vector words of OP7 0x44: VSLIDE (R208). -/
def vectorOp44 (w : Nat) : Option Instr :=
  some (.vslide (bits 6 19 w) (bits 6 13 w) (bits 2 11 w) (bits 7 4 w) (bits 4 0 w))

/-- The vector words of OP7 0x45: VROT (R208). -/
def vectorOp45 (w : Nat) : Option Instr :=
  some (.vrot (bits 6 19 w) (bits 6 13 w) (bits 2 11 w) (bits 7 4 w) (bits 4 0 w))

/-- The vector words of OP7 0x46: VMATCH (R209). -/
def vectorOp46 (w : Nat) : Option Instr :=
  some (.vmatch (bits 6 19 w) (bits 6 13 w) (bits 6 7 w) (bits 2 5 w) (bits 1 4 w) (bits 4 0 w))

/-- The vector words of OP7 0x48: VREDADD_FP (R210). -/
def vectorOp48 (w : Nat) : Option Instr :=
  if fld w 12 7 = 0 then some (.vredaddFp (bits 6 19 w) (bits 6 13 w) (bits 2 5 w) (bits 1 4 w) (bits 4 0 w))
  else none

/-- The vector words of OP7 0x49: VREDMIN (R210). -/
def vectorOp49 (w : Nat) : Option Instr :=
  if fld w 12 7 = 0 then some (.vredmin (bits 6 19 w) (bits 6 13 w) (bits 2 5 w) (bits 1 4 w) (bits 4 0 w))
  else none

/-- The vector words of OP7 0x4A: VREDMAX (R210). -/
def vectorOp4A (w : Nat) : Option Instr :=
  if fld w 12 7 = 0 then some (.vredmax (bits 6 19 w) (bits 6 13 w) (bits 2 5 w) (bits 1 4 w) (bits 4 0 w))
  else none

/-- The vector words of OP7 0x4B: VREDADD_INT (R210). -/
def vectorOp4B (w : Nat) : Option Instr :=
  if fld w 12 7 = 0 then some (.vredaddInt (bits 6 19 w) (bits 6 13 w) (bits 2 5 w) (bits 1 4 w) (bits 4 0 w))
  else none

/-- The vector words of OP7 0x4C: VSCAN_FP (R211). -/
def vectorOp4C (w : Nat) : Option Instr :=
  if fld w 12 7 = 0 then some (.vscanFp (bits 6 19 w) (bits 6 13 w) (bits 2 5 w) (bits 1 4 w) (bits 4 0 w))
  else none

/-- The vector words of OP7 0x4D: VSCAN_INT (R211). -/
def vectorOp4D (w : Nat) : Option Instr :=
  if fld w 12 7 = 0 then some (.vscanInt (bits 6 19 w) (bits 6 13 w) (bits 2 5 w) (bits 1 4 w) (bits 4 0 w))
  else none

/-- The vector words of OP7 0x4E: VPFIRST (R212). -/
def vectorOp4E (w : Nat) : Option Instr :=
  if fld w 24 8 = 0 ∧ fld w 3 0 = 0 then some (.vpfirst (bits 1 7 w) (bits 3 4 w))
  else none

/-- The vector words of OP7 0x4F: VXS (R213). -/
def vectorOp4F (w : Nat) : Option Instr :=
  if fld w 24 19 = 0 ∧ fld w 9 8 = 0 ∧ fld w 3 0 = 0 then some (.vxs (bits 6 13 w) (bits 2 11 w) (bits 1 10 w) (bits 4 4 w))
  else none

/-- The vector words of OP7 0x50: VCVT_F32_F64 (R214). -/
def vectorOp50 (w : Nat) : Option Instr :=
  if fld w 12 7 = 0 then some (.vcvtF32F64 (bits 6 19 w) (bits 6 13 w) (bits 2 5 w) (bits 1 4 w) (bits 4 0 w))
  else none

/-- The vector words of OP7 0x51: VCVT_F64_F32 (R214). -/
def vectorOp51 (w : Nat) : Option Instr :=
  if fld w 12 5 = 0 then some (.vcvtF64F32 (bits 6 19 w) (bits 6 13 w) (bits 1 4 w) (bits 4 0 w))
  else none

/-- The vector words of OP7 0x52: VCVT_F16_F32 (R214). -/
def vectorOp52 (w : Nat) : Option Instr :=
  if fld w 12 7 = 0 then some (.vcvtF16F32 (bits 6 19 w) (bits 6 13 w) (bits 2 5 w) (bits 1 4 w) (bits 4 0 w))
  else none

/-- The vector words of OP7 0x53: VCVT_F32_F16 (R214). -/
def vectorOp53 (w : Nat) : Option Instr :=
  if fld w 12 5 = 0 then some (.vcvtF32F16 (bits 6 19 w) (bits 6 13 w) (bits 1 4 w) (bits 4 0 w))
  else none

/-- The vector words of OP7 0x54: VCVT_BF16_F32 (R214). -/
def vectorOp54 (w : Nat) : Option Instr :=
  if fld w 12 7 = 0 then some (.vcvtBf16F32 (bits 6 19 w) (bits 6 13 w) (bits 2 5 w) (bits 1 4 w) (bits 4 0 w))
  else none

/-- The vector words of OP7 0x55: VCVT_F32_BF16 (R214). -/
noncomputable def vectorOp55 (w : Nat) : Option Instr :=
  if fld w 12 5 = 0 then some (.vcvtF32Bf16 (bits 6 19 w) (bits 6 13 w) (bits 1 4 w) (bits 4 0 w))
  else none

/-- The vector words of OP7 0x56: VCVT_I32_F32 (R214). -/
noncomputable def vectorOp56 (w : Nat) : Option Instr :=
  if fld w 12 7 = 0 then some (.vcvtI32F32 (bits 6 19 w) (bits 6 13 w) (bits 2 5 w) (bits 1 4 w) (bits 4 0 w))
  else none

/-- The vector words of OP7 0x57: VCVT_F32_I32 (R214). -/
noncomputable def vectorOp57 (w : Nat) : Option Instr :=
  if fld w 12 7 = 0 then some (.vcvtF32I32 (bits 6 19 w) (bits 6 13 w) (bits 2 5 w) (bits 1 4 w) (bits 4 0 w))
  else none

/-- The vector words of OP7 0x58: VCVT_N32_F32 (R214). -/
noncomputable def vectorOp58 (w : Nat) : Option Instr :=
  if fld w 12 7 = 0 then some (.vcvtN32F32 (bits 6 19 w) (bits 6 13 w) (bits 2 5 w) (bits 1 4 w) (bits 4 0 w))
  else none

/-- The vector words of OP7 0x59: VCVT_F32_N32 (R214). -/
noncomputable def vectorOp59 (w : Nat) : Option Instr :=
  if fld w 12 7 = 0 then some (.vcvtF32N32 (bits 6 19 w) (bits 6 13 w) (bits 2 5 w) (bits 1 4 w) (bits 4 0 w))
  else none

/-- The vector words of OP7 0x5A: VCVT_I64_F64 (R214). -/
noncomputable def vectorOp5A (w : Nat) : Option Instr :=
  if fld w 12 7 = 0 then some (.vcvtI64F64 (bits 6 19 w) (bits 6 13 w) (bits 2 5 w) (bits 1 4 w) (bits 4 0 w))
  else none

/-- The vector words of OP7 0x5B: VCVT_F64_I64 (R214). -/
noncomputable def vectorOp5B (w : Nat) : Option Instr :=
  if fld w 12 7 = 0 then some (.vcvtF64I64 (bits 6 19 w) (bits 6 13 w) (bits 2 5 w) (bits 1 4 w) (bits 4 0 w))
  else none

/-- The vector words of OP7 0x5C: VLCVT (R215). -/
noncomputable def vectorOp5C (w : Nat) : Option Instr :=
  some (.vlcvt (bits 6 19 w) (bits 6 13 w) (bits 6 7 w) (bits 2 5 w) (bits 1 4 w) (bits 4 0 w))

/-- The vector words of OP7 0x5D: VLCVT_M (R215). -/
noncomputable def vectorOp5D (w : Nat) : Option Instr :=
  some (.vlcvtM (bits 6 19 w) (bits 6 13 w) (bits 6 7 w) (bits 2 5 w) (bits 1 4 w) (bits 4 0 w))

/-- The vector words of OP7 0x5E: VLEXP (R216). -/
noncomputable def vectorOp5E (w : Nat) : Option Instr :=
  some (.vlexp (bits 6 19 w) (bits 6 13 w) (bits 6 7 w) (bits 2 5 w) (bits 1 4 w) (bits 4 0 w))

/-- The vector words of OP7 0x5F: VCVT_F64_LNS (R216). -/
noncomputable def vectorOp5F (w : Nat) : Option Instr :=
  if fld w 12 7 = 0 then some (.vcvtF64Lns (bits 6 19 w) (bits 6 13 w) (bits 2 5 w) (bits 1 4 w) (bits 4 0 w))
  else none

/-- The vector words of OP7 0x60: VLMUL (R217). -/
noncomputable def vectorOp60 (w : Nat) : Option Instr :=
  some (.vlmul (bits 6 19 w) (bits 6 13 w) (bits 6 7 w) (bits 2 5 w) (bits 1 4 w) (bits 4 0 w))

/-- The vector words of OP7 0x61: VLSCL (R217). -/
noncomputable def vectorOp61 (w : Nat) : Option Instr :=
  some (.vlscl (bits 6 19 w) (bits 6 13 w) (bits 6 7 w) (bits 2 5 w) (bits 1 4 w) (bits 4 0 w))

/-- The vector words of OP7 0x68: VLD (R219). -/
noncomputable def vectorOp68 (w : Nat) : Option Instr :=
  if fld w 18 13 = 0 ∧ fld w 10 9 = 0 ∧ fld w 6 4 = 0 then some (.vld (bits 6 19 w) (bits 2 11 w) (bits 2 7 w) (bits 4 0 w))
  else none

/-- The vector words of OP7 0x69: VST (R219). -/
noncomputable def vectorOp69 (w : Nat) : Option Instr :=
  if fld w 24 19 = 0 ∧ fld w 10 9 = 0 ∧ fld w 6 5 = 0 then some (.vst (bits 6 13 w) (bits 2 11 w) (bits 2 7 w) (bits 1 4 w) (bits 4 0 w))
  else none

/-- The vector words of OP7 0x6A: VLDS (R219). -/
noncomputable def vectorOp6A (w : Nat) : Option Instr :=
  if fld w 18 9 = 0 ∧ fld w 6 4 = 0 then some (.vlds (bits 6 19 w) (bits 2 7 w) (bits 4 0 w))
  else none

/-- The vector words of OP7 0x6B: VSTS (R219). -/
noncomputable def vectorOp6B (w : Nat) : Option Instr :=
  if fld w 24 19 = 0 ∧ fld w 12 9 = 0 ∧ fld w 6 5 = 0 then some (.vsts (bits 6 13 w) (bits 2 7 w) (bits 1 4 w) (bits 4 0 w))
  else none

/-- The vector words of OP7 0x6C: VGATH (R220). -/
noncomputable def vectorOp6C (w : Nat) : Option Instr :=
  if fld w 18 13 = 0 ∧ fld w 6 6 = 0 ∧ fld w 4 4 = 0 then some (.vgath (bits 6 19 w) (bits 2 11 w) (bits 4 7 w) (bits 1 5 w) (bits 4 0 w))
  else none

/-- The vector words of OP7 0x6D: VSCAT (R220). -/
noncomputable def vectorOp6D (w : Nat) : Option Instr :=
  if fld w 24 19 = 0 ∧ fld w 6 6 = 0 then some (.vscat (bits 6 13 w) (bits 2 11 w) (bits 4 7 w) (bits 1 5 w) (bits 1 4 w) (bits 4 0 w))
  else none

/-- The vector words of OP7 0x6E: VUPD_ADD, VUPD_MIN, VUPD_MAX, VUPD_AND, VUPD_OR, VUPD_XOR, VUPD_MINU, VUPD_MAXU (R221). -/
noncomputable def vectorOp6E (w : Nat) : Option Instr :=
  if fld w 24 19 = 0 ∧ fld w 10 9 = 0 then some (.vupdAdd (bits 6 13 w) (bits 2 11 w) (bits 2 7 w) (bits 2 5 w) (bits 1 4 w) (bits 4 0 w))
  else if fld w 24 19 = 1 ∧ fld w 10 9 = 0 then some (.vupdMin (bits 6 13 w) (bits 2 11 w) (bits 2 7 w) (bits 2 5 w) (bits 1 4 w) (bits 4 0 w))
  else if fld w 24 19 = 2 ∧ fld w 10 9 = 0 then some (.vupdMax (bits 6 13 w) (bits 2 11 w) (bits 2 7 w) (bits 2 5 w) (bits 1 4 w) (bits 4 0 w))
  else if fld w 24 19 = 3 ∧ fld w 10 9 = 0 then some (.vupdAnd (bits 6 13 w) (bits 2 11 w) (bits 2 7 w) (bits 2 5 w) (bits 1 4 w) (bits 4 0 w))
  else if fld w 24 19 = 4 ∧ fld w 10 9 = 0 then some (.vupdOr (bits 6 13 w) (bits 2 11 w) (bits 2 7 w) (bits 2 5 w) (bits 1 4 w) (bits 4 0 w))
  else if fld w 24 19 = 5 ∧ fld w 10 9 = 0 then some (.vupdXor (bits 6 13 w) (bits 2 11 w) (bits 2 7 w) (bits 2 5 w) (bits 1 4 w) (bits 4 0 w))
  else if fld w 24 19 = 6 ∧ fld w 10 9 = 0 then some (.vupdMinu (bits 6 13 w) (bits 2 11 w) (bits 2 7 w) (bits 2 5 w) (bits 1 4 w) (bits 4 0 w))
  else if fld w 24 19 = 7 ∧ fld w 10 9 = 0 then some (.vupdMaxu (bits 6 13 w) (bits 2 11 w) (bits 2 7 w) (bits 2 5 w) (bits 1 4 w) (bits 4 0 w))
  else none

/-- The vector words of OP7 0x6F: VTQPUSH (R223). -/
noncomputable def vectorOp6F (w : Nat) : Option Instr :=
  if fld w 24 19 = 0 ∧ fld w 6 5 = 0 then some (.vtqpush (bits 6 13 w) (bits 6 7 w) (bits 1 4 w) (bits 4 0 w))
  else none

/-- The vector words of OP7 0x70: VAMO_ADD (R222). -/
noncomputable def vectorOp70 (w : Nat) : Option Instr :=
  some (.vamoAdd (bits 6 19 w) (bits 6 13 w) (bits 2 11 w) (bits 4 7 w) (bits 2 5 w) (bits 1 4 w) (bits 4 0 w))

/-- The vector words of OP7 0x71: VAMO_AND (R222). -/
noncomputable def vectorOp71 (w : Nat) : Option Instr :=
  some (.vamoAnd (bits 6 19 w) (bits 6 13 w) (bits 2 11 w) (bits 4 7 w) (bits 2 5 w) (bits 1 4 w) (bits 4 0 w))

/-- The vector words of OP7 0x72: VAMO_OR (R222). -/
noncomputable def vectorOp72 (w : Nat) : Option Instr :=
  some (.vamoOr (bits 6 19 w) (bits 6 13 w) (bits 2 11 w) (bits 4 7 w) (bits 2 5 w) (bits 1 4 w) (bits 4 0 w))

/-- The vector words of OP7 0x73: VAMO_XOR (R222). -/
noncomputable def vectorOp73 (w : Nat) : Option Instr :=
  some (.vamoXor (bits 6 19 w) (bits 6 13 w) (bits 2 11 w) (bits 4 7 w) (bits 2 5 w) (bits 1 4 w) (bits 4 0 w))

/-- The vector words of OP7 0x74: VAMO_MIN (R222). -/
noncomputable def vectorOp74 (w : Nat) : Option Instr :=
  some (.vamoMin (bits 6 19 w) (bits 6 13 w) (bits 2 11 w) (bits 4 7 w) (bits 2 5 w) (bits 1 4 w) (bits 4 0 w))

/-- The vector words of OP7 0x75: VAMO_MAX (R222). -/
noncomputable def vectorOp75 (w : Nat) : Option Instr :=
  some (.vamoMax (bits 6 19 w) (bits 6 13 w) (bits 2 11 w) (bits 4 7 w) (bits 2 5 w) (bits 1 4 w) (bits 4 0 w))

/-- The vector words of OP7 0x76: VAMO_SWAP (R222). -/
noncomputable def vectorOp76 (w : Nat) : Option Instr :=
  some (.vamoSwap (bits 6 19 w) (bits 6 13 w) (bits 2 11 w) (bits 4 7 w) (bits 2 5 w) (bits 1 4 w) (bits 4 0 w))

/-- The vector words of OP7 0x77: VAMO_CAS (R222). -/
noncomputable def vectorOp77 (w : Nat) : Option Instr :=
  some (.vamoCas (bits 6 19 w) (bits 6 13 w) (bits 2 11 w) (bits 4 7 w) (bits 2 5 w) (bits 1 4 w) (bits 4 0 w))

/-- The vector words of OP7 0x78: VSHAPE (R226). -/
noncomputable def vectorOp78 (w : Nat) : Option Instr :=
  if fld w 24 12 = 0 ∧ fld w 3 0 = 0 then some (.vshape (bits 4 8 w) (bits 4 4 w))
  else none

/-- The vector words of OP7 0x79: VLOOP (R226). -/
noncomputable def vectorOp79 (w : Nat) : Option Instr :=
  if fld w 24 21 = 0 ∧ fld w 3 0 = 0 then some (.vloop (bits 2 19 w) (bits 15 4 w))
  else none

/-- The vector words of OP7 0x7A: VJMP (R226). -/
noncomputable def vectorOp7A (w : Nat) : Option Instr :=
  if fld w 24 19 = 0 ∧ fld w 3 0 = 0 then some (.vjmp (bits 15 4 w))
  else none

/-- The vector words of OP7 0x7B: VEND (R226). -/
def vectorOp7B (w : Nat) : Option Instr :=
  if fld w 24 0 = 0 then some (.vend)
  else none

/-- The vector words of OP7 0x7C: VSEG (R113). -/
noncomputable def vectorOp7C (w : Nat) : Option Instr :=
  if fld w 24 24 = 0 ∧ fld w 3 0 = 0 then some (.vseg (bits 20 4 w))
  else none

/-- The vector words of OP7 0x7E: VNOP (R76). -/
noncomputable def vectorOp7E (w : Nat) : Option Instr :=
  some (.vnop (bits 25 0 w))

/-- The form that a vector word names, by its opcode field (R83); none for an unassigned value or a nonzero MBZ field. -/
noncomputable def vectorForm (w : Nat) : Option Instr :=
  match fld w 31 25 with
  | 0x01 => vectorOp01 w
  | 0x02 => vectorOp02 w
  | 0x03 => vectorOp03 w
  | 0x04 => vectorOp04 w
  | 0x05 => vectorOp05 w
  | 0x06 => vectorOp06 w
  | 0x07 => vectorOp07 w
  | 0x08 => vectorOp08 w
  | 0x09 => vectorOp09 w
  | 0x0A => vectorOp0A w
  | 0x0B => vectorOp0B w
  | 0x0C => vectorOp0C w
  | 0x0D => vectorOp0D w
  | 0x0E => vectorOp0E w
  | 0x0F => vectorOp0F w
  | 0x10 => vectorOp10 w
  | 0x11 => vectorOp11 w
  | 0x12 => vectorOp12 w
  | 0x13 => vectorOp13 w
  | 0x14 => vectorOp14 w
  | 0x15 => vectorOp15 w
  | 0x16 => vectorOp16 w
  | 0x17 => vectorOp17 w
  | 0x18 => vectorOp18 w
  | 0x19 => vectorOp19 w
  | 0x1A => vectorOp1A w
  | 0x1B => vectorOp1B w
  | 0x1C => vectorOp1C w
  | 0x1D => vectorOp1D w
  | 0x1E => vectorOp1E w
  | 0x1F => vectorOp1F w
  | 0x20 => vectorOp20 w
  | 0x21 => vectorOp21 w
  | 0x22 => vectorOp22 w
  | 0x23 => vectorOp23 w
  | 0x24 => vectorOp24 w
  | 0x25 => vectorOp25 w
  | 0x26 => vectorOp26 w
  | 0x28 => vectorOp28 w
  | 0x29 => vectorOp29 w
  | 0x2A => vectorOp2A w
  | 0x2B => vectorOp2B w
  | 0x2C => vectorOp2C w
  | 0x2D => vectorOp2D w
  | 0x2E => vectorOp2E w
  | 0x2F => vectorOp2F w
  | 0x30 => vectorOp30 w
  | 0x31 => vectorOp31 w
  | 0x32 => vectorOp32 w
  | 0x33 => vectorOp33 w
  | 0x34 => vectorOp34 w
  | 0x35 => vectorOp35 w
  | 0x36 => vectorOp36 w
  | 0x37 => vectorOp37 w
  | 0x38 => vectorOp38 w
  | 0x39 => vectorOp39 w
  | 0x3A => vectorOp3A w
  | 0x3B => vectorOp3B w
  | 0x3C => vectorOp3C w
  | 0x3D => vectorOp3D w
  | 0x3E => vectorOp3E w
  | 0x40 => vectorOp40 w
  | 0x41 => vectorOp41 w
  | 0x42 => vectorOp42 w
  | 0x43 => vectorOp43 w
  | 0x44 => vectorOp44 w
  | 0x45 => vectorOp45 w
  | 0x46 => vectorOp46 w
  | 0x48 => vectorOp48 w
  | 0x49 => vectorOp49 w
  | 0x4A => vectorOp4A w
  | 0x4B => vectorOp4B w
  | 0x4C => vectorOp4C w
  | 0x4D => vectorOp4D w
  | 0x4E => vectorOp4E w
  | 0x4F => vectorOp4F w
  | 0x50 => vectorOp50 w
  | 0x51 => vectorOp51 w
  | 0x52 => vectorOp52 w
  | 0x53 => vectorOp53 w
  | 0x54 => vectorOp54 w
  | 0x55 => vectorOp55 w
  | 0x56 => vectorOp56 w
  | 0x57 => vectorOp57 w
  | 0x58 => vectorOp58 w
  | 0x59 => vectorOp59 w
  | 0x5A => vectorOp5A w
  | 0x5B => vectorOp5B w
  | 0x5C => vectorOp5C w
  | 0x5D => vectorOp5D w
  | 0x5E => vectorOp5E w
  | 0x5F => vectorOp5F w
  | 0x60 => vectorOp60 w
  | 0x61 => vectorOp61 w
  | 0x68 => vectorOp68 w
  | 0x69 => vectorOp69 w
  | 0x6A => vectorOp6A w
  | 0x6B => vectorOp6B w
  | 0x6C => vectorOp6C w
  | 0x6D => vectorOp6D w
  | 0x6E => vectorOp6E w
  | 0x6F => vectorOp6F w
  | 0x70 => vectorOp70 w
  | 0x71 => vectorOp71 w
  | 0x72 => vectorOp72 w
  | 0x73 => vectorOp73 w
  | 0x74 => vectorOp74 w
  | 0x75 => vectorOp75 w
  | 0x76 => vectorOp76 w
  | 0x77 => vectorOp77 w
  | 0x78 => vectorOp78 w
  | 0x79 => vectorOp79 w
  | 0x7A => vectorOp7A w
  | 0x7B => vectorOp7B w
  | 0x7C => vectorOp7C w
  | 0x7E => vectorOp7E w
  | _ => none

/-- The matrix words of OP6 0x01: MLDW (R234). -/
def matrixOp01 (w : Nat) : Option Instr :=
  if fld w 7 0 = 0 then some (.mldw (bits 1 25 w) (bits 4 21 w) (bits 13 8 w))
  else none

/-- The matrix words of OP6 0x02: MSWAP (R235). -/
def matrixOp02 (w : Nat) : Option Instr :=
  if fld w 25 0 = 0 then some (.mswap)
  else none

/-- The matrix words of OP6 0x03: MMA (R237). -/
def matrixOp03 (w : Nat) : Option Instr :=
  if fld w 6 0 = 0 then some (.mma (bits 3 23 w) (bits 4 19 w) (bits 4 15 w) (bits 5 10 w) (bits 1 9 w) (bits 1 8 w) (bits 1 7 w))
  else none

/-- The matrix words of OP6 0x04: MSTAMP (R112). -/
def matrixOp04 (w : Nat) : Option Instr :=
  if fld w 25 24 = 0 then some (.mstamp (bits 24 0 w))
  else none

/-- The matrix words of OP6 0x05: MDRAIN_PORT, MDRAIN_SPM (R239). -/
def matrixOp05 (w : Nat) : Option Instr :=
  if fld w 22 22 = 0 ∧ fld w 17 0 = 0 then some (.mdrainPort (bits 3 23 w) (bits 4 18 w))
  else if fld w 22 22 = 1 ∧ fld w 4 0 = 0 then some (.mdrainSpm (bits 3 23 w) (bits 4 18 w) (bits 13 5 w))
  else none

/-- The matrix words of OP6 0x06: MZERO (R241). -/
def matrixOp06 (w : Nat) : Option Instr :=
  if fld w 22 0 = 0 then some (.mzero (bits 3 23 w))
  else none

/-- The matrix words of OP6 0x07: MMARK (R243). -/
def matrixOp07 (w : Nat) : Option Instr :=
  if fld w 25 0 = 0 then some (.mmark)
  else none

/-- The matrix words of OP6 0x08: MSEG (R113). -/
def matrixOp08 (w : Nat) : Option Instr :=
  if fld w 25 20 = 0 then some (.mseg (bits 20 0 w))
  else none

/-- The matrix words of OP6 0x09: MTREADLE (R242). -/
def matrixOp09 (w : Nat) : Option Instr :=
  some (.mtreadle (bits 1 25 w) (bits 5 20 w) (bits 8 12 w) (bits 12 0 w))

/-- The matrix words of OP6 0x0A: MTEND (R242). -/
def matrixOp0A (w : Nat) : Option Instr :=
  if fld w 25 0 = 0 then some (.mtend)
  else none

/-- The matrix words of OP6 0x0B: MFLAGS (R241). -/
def matrixOp0B (w : Nat) : Option Instr :=
  if fld w 25 9 = 0 then some (.mflags (bits 9 0 w))
  else none

/-- The matrix words of OP6 0x0C: MNOP (R241). -/
def matrixOp0C (w : Nat) : Option Instr :=
  if fld w 25 0 = 0 then some (.mnop)
  else none

/-- The form that a matrix word names, by its opcode field (R88); none for an unassigned value or a nonzero MBZ field. -/
def matrixForm (w : Nat) : Option Instr :=
  match fld w 31 26 with
  | 0x01 => matrixOp01 w
  | 0x02 => matrixOp02 w
  | 0x03 => matrixOp03 w
  | 0x04 => matrixOp04 w
  | 0x05 => matrixOp05 w
  | 0x06 => matrixOp06 w
  | 0x07 => matrixOp07 w
  | 0x08 => matrixOp08 w
  | 0x09 => matrixOp09 w
  | 0x0A => matrixOp0A w
  | 0x0B => matrixOp0B w
  | 0x0C => matrixOp0C w
  | _ => none

/-- The clicker words of OP6 0x01: CLEV_COUNT, CLEV_SS, CLEV_DS, CLEV_JS (R248). -/
def clickerOp01 (w : Nat) : Option Instr :=
  if fld w 25 24 = 0 then some (.clevCount (bits 3 21 w) (bits 21 0 w))
  else if fld w 25 24 = 1 then some (.clevSs (bits 3 21 w) (bits 21 0 w))
  else if fld w 25 24 = 2 then some (.clevDs (bits 3 21 w) (bits 21 0 w))
  else if fld w 25 24 = 3 ∧ fld w 12 0 = 0 then some (.clevJs (bits 3 21 w) (bits 4 17 w) (bits 4 13 w))
  else none

/-- The clicker words of OP6 0x02: CBASE (R248). -/
def clickerOp02 (w : Nat) : Option Instr :=
  some (.cbase (bits 3 23 w) (bits 4 19 w) (bits 19 0 w))

/-- The clicker words of OP6 0x03: CCOPY, CCOPY_TOLNS, CCOPY_TOLIN (R250, R251). -/
def clickerOp03 (w : Nat) : Option Instr :=
  if fld w 11 10 = 0 then some (.ccopy (bits 3 23 w) (bits 3 20 w) (bits 4 16 w) (bits 4 12 w) (bits 10 0 w))
  else if fld w 11 10 = 1 then some (.ccopyTolns (bits 3 23 w) (bits 3 20 w) (bits 4 16 w) (bits 4 12 w) (bits 10 0 w))
  else if fld w 11 10 = 2 then some (.ccopyTolin (bits 3 23 w) (bits 3 20 w) (bits 4 16 w) (bits 4 12 w) (bits 10 0 w))
  else none

/-- The clicker words of OP6 0x04: CFILL (R252). -/
def clickerOp04 (w : Nat) : Option Instr :=
  if fld w 2 0 = 0 then some (.cfill (bits 3 23 w) (bits 4 19 w) (bits 2 17 w) (bits 10 7 w) (bits 4 3 w))
  else none

/-- The clicker words of OP6 0x05: CSIG (R253). -/
def clickerOp05 (w : Nat) : Option Instr :=
  if fld w 20 16 = 0 then some (.csig (bits 3 23 w) (bits 2 21 w) (bits 16 0 w))
  else none

/-- The clicker words of OP6 0x06: CEND (R253). -/
def clickerOp06 (w : Nat) : Option Instr :=
  if fld w 25 0 = 0 then some (.cend)
  else none

/-- The clicker words of OP6 0x07: CNOP (R253). -/
def clickerOp07 (w : Nat) : Option Instr :=
  if fld w 25 0 = 0 then some (.cnop)
  else none

/-- The form that a clicker word names, by its opcode field (R89); none for an unassigned value or a nonzero MBZ field. -/
def clickerForm (w : Nat) : Option Instr :=
  match fld w 31 26 with
  | 0x01 => clickerOp01 w
  | 0x02 => clickerOp02 w
  | 0x03 => clickerOp03 w
  | 0x04 => clickerOp04 w
  | 0x05 => clickerOp05 w
  | 0x06 => clickerOp06 w
  | 0x07 => clickerOp07 w
  | _ => none

/-- The UNIT that an engine form accepts, by OP and FN (R81); 0xC where FN names no form. -/
def engineUnit (op fn : Nat) : Nat :=
  if op = 0x2C then
    match fn with
    | 0x0 | 0x1 => 0x0
    | 0x2 | 0x3 | 0x4 => 0x1
    | 0x5 | 0x6 => 0x2
    | 0x7 => 0x6
    | 0x8 => 0x7
    | 0x9 | 0xA => 0x8
    | 0xB | 0xC | 0xD => 0x9
    | _ => 0xC
  else
    match fn with
    | 0x0 | 0x1 | 0x2 => 0x0
    | 0x3 => 0xA
    | 0x4 => 0xB
    | _ => 0xC

/-- The word with its UNIT field replaced by the one its form accepts. -/
def withEngineUnit (w : Nat) : Nat :=
  w - fld w 10 7 * pow2 7 + engineUnit (fld w 31 26) (fld w 6 3) * pow2 7

/-- An engine word whose form, MBZ fields and UNIT code are assigned but whose UNIT the form does not
accept is ILLEGAL_OPERAND, not ILLEGAL_ENCODING (R53, R81). -/
def wrongUnit (w : Nat) : Bool :=
  (decide (fld w 31 26 = 0x2C) || decide (fld w 31 26 = 0x2D)) && decide (fld w 10 7 < 0xC) &&
    (match scalarForm (withEngineUnit w) with
     | some i => i.wf
     | none => false)

/-- The form a word of the given kind names, before the field checks. -/
noncomputable def formOf (k : WordKind) (w : Nat) : Option Instr :=
  match k with
  | .scalar => scalarForm w
  | .vector => vectorForm w
  | .matrix => matrixForm w
  | .clicker => clickerForm w

/-- What a word of a kind answers for the form it names: the form where its fields pass check 1 of R72, or the trap
the word draws. -/
def checkForm (k : WordKind) (w : Nat) (form : Option Instr) : Decoded :=
  match form with
  | some i =>
    if i.wf then .ok i
    else if decide (k = .scalar) && wrongUnit w then .illegalOperand else .illegalEncoding
  | none => if decide (k = .scalar) && wrongUnit w then .illegalOperand else .illegalEncoding

/-- The decoder of the scalar streams. -/
def decodeScalar (w : Nat) : Decoded := checkForm .scalar w (scalarForm w)

/-- The decoder of the clicker channels. -/
def decodeClicker (w : Nat) : Decoded := checkForm .clicker w (clickerForm w)

/-- Decoding is total. The all-zero and the all-ones word are ILLEGAL_ENCODING in every stream (R46); no map
assigns them. -/
noncomputable def decode (k : WordKind) (w : Nat) : Decoded := checkForm k w (formOf k w)

/-- The instruction that a decoder's answer gives, if any. -/
def Decoded.instr : Decoded → Option Instr
  | .ok i => some i
  | _ => none

/-- The instruction a word decodes to, if any. -/
noncomputable def decodeOk (k : WordKind) (w : Nat) : Option Instr := (decode k w).instr

/-- Bytes in memory order, least significant first (R6), as one number. -/
def wordOfBytes : List Byte → Nat
  | [] => 0
  | b :: rest => b.toNat + 256 * wordOfBytes rest

/-- The n bytes of a number in memory order (R6). -/
def bytesOfNat : Nat → Nat → List Byte
  | 0, _ => []
  | n + 1, w => BitVec.ofNat 8 w :: bytesOfNat n (w / 256)

/-- The decoder on four bytes as memory holds them (R6, R45). -/
noncomputable def decodeBytes (k : WordKind) (bs : List Byte) : Decoded := decode k (wordOfBytes bs)

/-- The kind of word a constructor stands for; none for an event. -/
def Instr.kind : Instr → Option WordKind
  | .add _ _ _ _ => some .scalar
  | .sub _ _ _ _ => some .scalar
  | .and _ _ _ _ => some .scalar
  | .or _ _ _ _ => some .scalar
  | .xor _ _ _ _ => some .scalar
  | .andn _ _ _ _ => some .scalar
  | .sll _ _ _ _ => some .scalar
  | .srl _ _ _ _ => some .scalar
  | .sra _ _ _ _ => some .scalar
  | .rotr _ _ _ _ => some .scalar
  | .slt _ _ _ _ => some .scalar
  | .sltu _ _ _ _ => some .scalar
  | .min _ _ _ _ => some .scalar
  | .max _ _ _ _ => some .scalar
  | .minu _ _ _ _ => some .scalar
  | .maxu _ _ _ _ => some .scalar
  | .mul _ _ _ _ => some .scalar
  | .mulh _ _ _ _ => some .scalar
  | .mulhu _ _ _ _ => some .scalar
  | .div _ _ _ _ => some .scalar
  | .divu _ _ _ _ => some .scalar
  | .rem _ _ _ _ => some .scalar
  | .remu _ _ _ _ => some .scalar
  | .addw _ _ _ _ => some .scalar
  | .subw _ _ _ _ => some .scalar
  | .mulw _ _ _ _ => some .scalar
  | .sllw _ _ _ _ => some .scalar
  | .srlw _ _ _ _ => some .scalar
  | .sraw _ _ _ _ => some .scalar
  | .clz _ _ _ => some .scalar
  | .ctz _ _ _ => some .scalar
  | .popc _ _ _ => some .scalar
  | .bswap _ _ _ => some .scalar
  | .sel _ _ _ _ => some .scalar
  | .fadd _ _ _ _ _ => some .scalar
  | .fsub _ _ _ _ _ => some .scalar
  | .fmul _ _ _ _ _ => some .scalar
  | .fdiv _ _ _ _ _ => some .scalar
  | .fsqrt _ _ _ _ => some .scalar
  | .fmin _ _ _ _ _ => some .scalar
  | .fmax _ _ _ _ _ => some .scalar
  | .fmac _ _ _ _ _ => some .scalar
  | .feq _ _ _ _ _ => some .scalar
  | .flt _ _ _ _ _ => some .scalar
  | .fle _ _ _ _ _ => some .scalar
  | .fcvt _ _ _ _ => some .scalar
  | .ftoi _ _ _ _ => some .scalar
  | .ftou _ _ _ _ => some .scalar
  | .itof _ _ _ _ => some .scalar
  | .utof _ _ _ _ => some .scalar
  | .fabs _ _ _ _ => some .scalar
  | .fneg _ _ _ _ => some .scalar
  | .jalr _ _ _ => some .scalar
  | .jget _ _ _ => some .scalar
  | .jset _ _ _ => some .scalar
  | .addi _ _ _ => some .scalar
  | .andi _ _ _ => some .scalar
  | .ori _ _ _ => some .scalar
  | .xori _ _ _ => some .scalar
  | .slti _ _ _ => some .scalar
  | .sltiu _ _ _ => some .scalar
  | .slli _ _ _ => some .scalar
  | .srli _ _ _ => some .scalar
  | .srai _ _ _ => some .scalar
  | .bfx _ _ _ _ => some .scalar
  | .bfxS _ _ _ _ => some .scalar
  | .bfi _ _ _ _ => some .scalar
  | .li _ _ => some .scalar
  | .lih _ _ => some .scalar
  | .adpc _ _ => some .scalar
  | .ld _ _ _ _ _ => some .scalar
  | .ldu _ _ _ _ _ => some .scalar
  | .st _ _ _ _ _ => some .scalar
  | .lds _ _ _ _ => some .scalar
  | .ldsu _ _ _ _ => some .scalar
  | .sts _ _ _ _ => some .scalar
  | .ldq _ _ _ _ _ => some .scalar
  | .amoAdd _ _ _ _ _ => some .scalar
  | .amoAnd _ _ _ _ _ => some .scalar
  | .amoOr _ _ _ _ _ => some .scalar
  | .amoXor _ _ _ _ _ => some .scalar
  | .amoMin _ _ _ _ _ => some .scalar
  | .amoMax _ _ _ _ _ => some .scalar
  | .amoSwap _ _ _ _ _ => some .scalar
  | .amoCas _ _ _ _ _ => some .scalar
  | .amoFadd _ _ _ _ _ => some .scalar
  | .amoFmin _ _ _ _ _ => some .scalar
  | .amoFmax _ _ _ _ _ => some .scalar
  | .beq _ _ _ => some .scalar
  | .bne _ _ _ => some .scalar
  | .blt _ _ _ => some .scalar
  | .bge _ _ _ => some .scalar
  | .bltu _ _ _ => some .scalar
  | .bgeu _ _ _ => some .scalar
  | .j _ => some .scalar
  | .jal _ => some .scalar
  | .land => some .scalar
  | .cwaitCont _ _ _ => some .scalar
  | .vrun _ _ _ => some .scalar
  | .vwait _ _ => some .scalar
  | .mrun _ _ => some .scalar
  | .mwait _ _ => some .scalar
  | .mstop _ => some .scalar
  | .crun _ _ _ _ => some .scalar
  | .cwait _ _ _ => some .scalar
  | .erun _ _ _ _ => some .scalar
  | .fmtq _ _ => some .scalar
  | .trdl _ _ => some .scalar
  | .stitch _ _ => some .scalar
  | .bind _ _ _ => some .scalar
  | .unbind _ _ => some .scalar
  | .qdepth _ _ _ => some .scalar
  | .rbacqW _ _ _ => some .scalar
  | .rbacqT _ _ _ => some .scalar
  | .rbrel _ _ => some .scalar
  | .tqpush _ _ _ _ => some .scalar
  | .launch _ _ _ _ => some .scalar
  | .csrr _ _ => some .scalar
  | .csrw _ _ _ => some .scalar
  | .csrs _ _ _ => some .scalar
  | .csrc _ _ _ => some .scalar
  | .phase _ => some .scalar
  | .phaseE _ => some .scalar
  | .fence _ => some .scalar
  | .flush => some .scalar
  | .join => some .scalar
  | .yield => some .scalar
  | .trap _ => some .scalar
  | .eret => some .scalar
  | .icinv _ _ => some .scalar
  | .tlbinv _ _ => some .scalar
  | .moult _ => some .scalar
  | .qread _ _ => some .scalar
  | .rdpcc _ => some .scalar
  | .halt => some .scalar
  | .nop _ => some .scalar
  | .clevCount _ _ => some .clicker
  | .clevSs _ _ => some .clicker
  | .clevDs _ _ => some .clicker
  | .clevJs _ _ _ => some .clicker
  | .cbase _ _ _ => some .clicker
  | .ccopy _ _ _ _ _ => some .clicker
  | .ccopyTolns _ _ _ _ _ => some .clicker
  | .ccopyTolin _ _ _ _ _ => some .clicker
  | .cfill _ _ _ _ _ => some .clicker
  | .csig _ _ _ => some .clicker
  | .cend => some .clicker
  | .cnop => some .clicker
  | .mldw _ _ _ => some .matrix
  | .mswap => some .matrix
  | .mma _ _ _ _ _ _ _ => some .matrix
  | .mstamp _ => some .matrix
  | .mdrainPort _ _ => some .matrix
  | .mdrainSpm _ _ _ => some .matrix
  | .mzero _ => some .matrix
  | .mmark => some .matrix
  | .mseg _ => some .matrix
  | .mtreadle _ _ _ _ => some .matrix
  | .mtend => some .matrix
  | .mflags _ => some .matrix
  | .mnop => some .matrix
  | .vaddFp _ _ _ _ _ _ => some .vector
  | .vsubFp _ _ _ _ _ _ => some .vector
  | .vmulFp _ _ _ _ _ _ => some .vector
  | .vfma _ _ _ _ _ _ => some .vector
  | .vfnma _ _ _ _ _ _ => some .vector
  | .vminFp _ _ _ _ _ _ => some .vector
  | .vmaxFp _ _ _ _ _ _ => some .vector
  | .vdivFp _ _ _ _ _ _ => some .vector
  | .vsqrt _ _ _ _ _ => some .vector
  | .vabs _ _ _ _ _ => some .vector
  | .vneg _ _ _ _ _ => some .vector
  | .vrcp _ _ _ _ _ => some .vector
  | .vrsq _ _ _ _ _ => some .vector
  | .vexp2 _ _ _ _ _ => some .vector
  | .vlog2 _ _ _ _ _ => some .vector
  | .vaddInt _ _ _ _ _ _ => some .vector
  | .vsubInt _ _ _ _ _ _ => some .vector
  | .vmulInt _ _ _ _ _ _ => some .vector
  | .vmulh _ _ _ _ _ _ => some .vector
  | .vmulhu _ _ _ _ _ _ => some .vector
  | .vand _ _ _ _ _ _ => some .vector
  | .vor _ _ _ _ _ _ => some .vector
  | .vxor _ _ _ _ _ _ => some .vector
  | .vsll _ _ _ _ _ _ => some .vector
  | .vsrl _ _ _ _ _ _ => some .vector
  | .vsra _ _ _ _ _ _ => some .vector
  | .vminInt _ _ _ _ _ _ => some .vector
  | .vmaxInt _ _ _ _ _ _ => some .vector
  | .vminu _ _ _ _ _ _ => some .vector
  | .vmaxu _ _ _ _ _ _ => some .vector
  | .vadds _ _ _ _ _ _ => some .vector
  | .vsubs _ _ _ _ _ _ => some .vector
  | .vaddsu _ _ _ _ _ _ => some .vector
  | .vsubsu _ _ _ _ _ _ => some .vector
  | .vdivInt _ _ _ _ _ _ => some .vector
  | .vdivu _ _ _ _ _ _ => some .vector
  | .vrem _ _ _ _ _ _ => some .vector
  | .vremu _ _ _ _ _ _ => some .vector
  | .vaddi _ _ _ _ => some .vector
  | .vandi _ _ _ _ => some .vector
  | .vori _ _ _ _ => some .vector
  | .vxori _ _ _ _ => some .vector
  | .vslli _ _ _ _ => some .vector
  | .vsrli _ _ _ _ => some .vector
  | .vsrai _ _ _ _ => some .vector
  | .vmovi _ _ _ => some .vector
  | .vceqFp _ _ _ _ _ => some .vector
  | .vcltFp _ _ _ _ _ => some .vector
  | .vcleFp _ _ _ _ _ => some .vector
  | .vcneFp _ _ _ _ _ => some .vector
  | .vceqInt _ _ _ _ _ => some .vector
  | .vcneInt _ _ _ _ _ => some .vector
  | .vcltInt _ _ _ _ _ => some .vector
  | .vcltu _ _ _ _ _ => some .vector
  | .vcleInt _ _ _ _ _ => some .vector
  | .vcleu _ _ _ _ _ => some .vector
  | .vceqi _ _ _ => some .vector
  | .vtst _ _ _ _ _ => some .vector
  | .vplog _ _ _ => some .vector
  | .vplogR _ _ _ _ => some .vector
  | .vpdrop _ => some .vector
  | .vppick _ => some .vector
  | .vppickV _ _ => some .vector
  | .vsel _ _ _ _ _ _ => some .vector
  | .vmov _ _ _ _ => some .vector
  | .vperm _ _ _ _ _ _ => some .vector
  | .vshuf _ _ _ _ _ _ => some .vector
  | .vslide _ _ _ _ _ => some .vector
  | .vrot _ _ _ _ _ => some .vector
  | .vmatch _ _ _ _ _ _ => some .vector
  | .vredaddFp _ _ _ _ _ => some .vector
  | .vredmin _ _ _ _ _ => some .vector
  | .vredmax _ _ _ _ _ => some .vector
  | .vredaddInt _ _ _ _ _ => some .vector
  | .vscanFp _ _ _ _ _ => some .vector
  | .vscanInt _ _ _ _ _ => some .vector
  | .vpfirst _ _ => some .vector
  | .vxs _ _ _ _ => some .vector
  | .vcvtF32F64 _ _ _ _ _ => some .vector
  | .vcvtF64F32 _ _ _ _ => some .vector
  | .vcvtF16F32 _ _ _ _ _ => some .vector
  | .vcvtF32F16 _ _ _ _ => some .vector
  | .vcvtBf16F32 _ _ _ _ _ => some .vector
  | .vcvtF32Bf16 _ _ _ _ => some .vector
  | .vcvtI32F32 _ _ _ _ _ => some .vector
  | .vcvtF32I32 _ _ _ _ _ => some .vector
  | .vcvtN32F32 _ _ _ _ _ => some .vector
  | .vcvtF32N32 _ _ _ _ _ => some .vector
  | .vcvtI64F64 _ _ _ _ _ => some .vector
  | .vcvtF64I64 _ _ _ _ _ => some .vector
  | .vlcvt _ _ _ _ _ _ => some .vector
  | .vlcvtM _ _ _ _ _ _ => some .vector
  | .vlexp _ _ _ _ _ _ => some .vector
  | .vcvtF64Lns _ _ _ _ _ => some .vector
  | .vlmul _ _ _ _ _ _ => some .vector
  | .vlscl _ _ _ _ _ _ => some .vector
  | .vld _ _ _ _ => some .vector
  | .vst _ _ _ _ _ => some .vector
  | .vlds _ _ _ => some .vector
  | .vsts _ _ _ _ => some .vector
  | .vgath _ _ _ _ _ => some .vector
  | .vscat _ _ _ _ _ _ => some .vector
  | .vupdAdd _ _ _ _ _ _ => some .vector
  | .vupdMin _ _ _ _ _ _ => some .vector
  | .vupdMax _ _ _ _ _ _ => some .vector
  | .vupdAnd _ _ _ _ _ _ => some .vector
  | .vupdOr _ _ _ _ _ _ => some .vector
  | .vupdXor _ _ _ _ _ _ => some .vector
  | .vupdMinu _ _ _ _ _ _ => some .vector
  | .vupdMaxu _ _ _ _ _ _ => some .vector
  | .vtqpush _ _ _ _ => some .vector
  | .vamoAdd _ _ _ _ _ _ _ => some .vector
  | .vamoAnd _ _ _ _ _ _ _ => some .vector
  | .vamoOr _ _ _ _ _ _ _ => some .vector
  | .vamoXor _ _ _ _ _ _ _ => some .vector
  | .vamoMin _ _ _ _ _ _ _ => some .vector
  | .vamoMax _ _ _ _ _ _ _ => some .vector
  | .vamoSwap _ _ _ _ _ _ _ => some .vector
  | .vamoCas _ _ _ _ _ _ _ => some .vector
  | .vshape _ _ => some .vector
  | .vloop _ _ => some .vector
  | .vjmp _ => some .vector
  | .vend => some .vector
  | .vseg _ => some .vector
  | .vnop _ => some .vector
  | .faultRecordWrite _ => none
  | .loadDataReturn _ => none
  | .dataErrorArrival _ _ => none
  | .accessPerformed _ => none
  | .storeAck _ => none
  | .storeErrorRecord _ _ => none
  | .commitMessage _ => none
  | .commitAck _ => none
  | .dirtySectorEviction _ _ => none
  | .forcedCommit _ _ => none
  | .tlbWalkComplete _ => none
  | .ldqDataArrival _ => none
  | .vectorBusyClear _ _ => none
  | .commandWindowReplay _ _ => none
  | .rangeEntryRetire _ _ => none
  | .clickerCopyStart _ _ => none
  | .clickerCopyComplete _ _ _ => none
  | .csigResponse _ _ _ => none
  | .clickerProgramComplete _ _ => none
  | .packetDelivery _ => none
  | .peerByteTransfer _ _ => none
  | .portUnbindComplete _ _ => none
  | .treadleSlotStart _ => none
  | .demandSend _ => none
  | .demandArrival _ _ => none
  | .treadleRunEnd _ => none
  | .jobStart _ _ => none
  | .jobEnd _ => none
  | .swapTrigger _ _ => none
  | .groupWake _ _ => none
  | .activeRefill _ _ => none
  | .rotationTick _ => none
  | .blockTransfer _ => none
  | .phaseArrival _ => none
  | .phaseBoundaryComplete _ _ _ => none
  | .fabricArrivalMessage _ => none
  | .arrivalResend _ _ => none
  | .taskPushAccept _ => none
  | .taskQueueSpill _ _ => none
  | .taskQueueRefill _ _ => none
  | .formerSelection _ => none
  | .formerTimeout _ _ => none
  | .formerGroupReady _ => none
  | .qwidxWrite _ _ _ => none
  | .queueEnable _ _ _ => none
  | .queueDisable _ _ _ => none
  | .headPacketRead _ => none
  | .signalReread _ _ => none
  | .selectionRound => none
  | .reservationStart _ => none
  | .launchCompletion _ => none
  | .msixUnmask _ _ => none
  | .codeObjectLoad _ => none
  | .demandPageVerify _ _ _ => none
  | .codeIntegrityTermination _ => none
  | .slotPatch _ _ _ _ => none
  | .preempt _ => none
  | .resumeJob _ _ => none
  | .resumeGroup _ _ _ => none
  | .killGroup _ _ => none
  | .killLaunch _ => none
  | .killContext _ => none
  | .moultRelease => none
  | .remoteRequestArrival _ => none
  | .replyArrival _ _ => none
  | .requesterTimeout _ => none
  | .tagRelease _ => none
  | .routerDiscard _ => none
  | .congestionNotice _ => none
  | .windowIncrease _ => none
  | .creditReturn _ _ _ => none
  | .auditFlitSend _ => none
  | .auditFlitReceive _ _ => none
  | .auditReturn _ _ => none
  | .linkCrcRetry _ => none
  | .linkRetrain _ _ => none
  | .linkTraining _ _ _ => none
  | .portDead _ => none
  | .hostBar2Read _ _ _ => none
  | .hostBar2Write _ _ _ => none
  | .hostAtomicRequest _ _ => none
  | .atsInvalidation _ _ => none
  | .ideIntegrityFail _ => none
  | .ideRekey _ => none
  | .attestationRequest _ => none
  | .hostRestartRequest _ => none
  | .registerWrite _ => none
  | .selfTestComplete _ _ => none
  | .spareSubstitution _ _ => none
  | .controlCoreReset _ => none
  | .controlDieLoss _ => none
  | .controlDieRestart _ => none
  | .heartbeatMiss _ => none
  | .dieIsolation _ => none
  | .dieRecovery _ _ _ => none
  | .fabricDieLoss => none
  | .deviceReset _ => none
  | .bootStageTimeout => none
  | .securityAlarm _ => none
  | .alarmEscalation => none
  | .debugUnlockAttempt _ => none
  | .powerWindow _ _ => none
  | .functionReset _ => none
  | .codeObjectUnload _ _ => none
  | .vendorEnrolment _ _ => none
  | .hostCompletionArrival _ _ => none
  | .pageRequestResponse _ _ => none
  | .l1LineReplacement _ _ => none
  | .hostLinkTraining _ => none

/-- The row of the table that an event is. -/
noncomputable def Event.toInstr : Event → Instr
  | .faultRecordWrite ctx => .faultRecordWrite ctx
  | .loadDataReturn id => .loadDataReturn id
  | .dataErrorArrival id err => .dataErrorArrival id err
  | .accessPerformed id => .accessPerformed id
  | .storeAck id => .storeAck id
  | .storeErrorRecord id reason => .storeErrorRecord id reason
  | .commitMessage id => .commitMessage id
  | .commitAck id => .commitAck id
  | .dirtySectorEviction core sector => .dirtySectorEviction core sector
  | .forcedCommit core sector => .forcedCommit core sector
  | .tlbWalkComplete id => .tlbWalkComplete id
  | .ldqDataArrival id => .ldqDataArrival id
  | .vectorBusyClear core slot => .vectorBusyClear core slot
  | .commandWindowReplay core trigger => .commandWindowReplay core trigger
  | .rangeEntryRetire core entry => .rangeEntryRetire core entry
  | .clickerCopyStart core ch => .clickerCopyStart core ch
  | .clickerCopyComplete core ch copy => .clickerCopyComplete core ch copy
  | .csigResponse core ch err => .csigResponse core ch err
  | .clickerProgramComplete core ch => .clickerProgramComplete core ch
  | .packetDelivery id => .packetDelivery id
  | .peerByteTransfer core port => .peerByteTransfer core port
  | .portUnbindComplete core port => .portUnbindComplete core port
  | .treadleSlotStart core => .treadleSlotStart core
  | .demandSend core => .demandSend core
  | .demandArrival core descriptor => .demandArrival core descriptor
  | .treadleRunEnd core => .treadleRunEnd core
  | .jobStart launch core => .jobStart launch core
  | .jobEnd core => .jobEnd core
  | .swapTrigger core slot => .swapTrigger core slot
  | .groupWake core slot => .groupWake core slot
  | .activeRefill core pos => .activeRefill core pos
  | .rotationTick core => .rotationTick core
  | .blockTransfer core => .blockTransfer core
  | .phaseArrival core => .phaseArrival core
  | .phaseBoundaryComplete launch level domain => .phaseBoundaryComplete launch level domain
  | .fabricArrivalMessage msg => .fabricArrivalMessage msg
  | .arrivalResend launch member => .arrivalResend launch member
  | .taskPushAccept id => .taskPushAccept id
  | .taskQueueSpill die queue => .taskQueueSpill die queue
  | .taskQueueRefill die queue => .taskQueueRefill die queue
  | .formerSelection die => .formerSelection die
  | .formerTimeout die queue => .formerTimeout die queue
  | .formerGroupReady id => .formerGroupReady id
  | .qwidxWrite queue fn value => .qwidxWrite queue fn value
  | .queueEnable queue fn value => .queueEnable queue fn value
  | .queueDisable queue fn value => .queueDisable queue fn value
  | .headPacketRead queue => .headPacketRead queue
  | .signalReread queue signal => .signalReread queue signal
  | .selectionRound => .selectionRound
  | .reservationStart queue => .reservationStart queue
  | .launchCompletion launch => .launchCompletion launch
  | .msixUnmask fn vector => .msixUnmask fn vector
  | .codeObjectLoad req => .codeObjectLoad req
  | .demandPageVerify ctx va page => .demandPageVerify ctx va page
  | .codeIntegrityTermination launch => .codeIntegrityTermination launch
  | .slotPatch ctx va nameh value => .slotPatch ctx va nameh value
  | .preempt launch => .preempt launch
  | .resumeJob launch moves => .resumeJob launch moves
  | .resumeGroup core slot rewrite => .resumeGroup core slot rewrite
  | .killGroup core slot => .killGroup core slot
  | .killLaunch launch => .killLaunch launch
  | .killContext ctx => .killContext ctx
  | .moultRelease => .moultRelease
  | .remoteRequestArrival req => .remoteRequestArrival req
  | .replyArrival tag gen => .replyArrival tag gen
  | .requesterTimeout tag => .requesterTimeout tag
  | .tagRelease tag => .tagRelease tag
  | .routerDiscard link => .routerDiscard link
  | .congestionNotice dest => .congestionNotice dest
  | .windowIncrease dest => .windowIncrease dest
  | .creditReturn link chan ret => .creditReturn link chan ret
  | .auditFlitSend link => .auditFlitSend link
  | .auditFlitReceive link sent => .auditFlitReceive link sent
  | .auditReturn link ret => .auditReturn link ret
  | .linkCrcRetry flit => .linkCrcRetry flit
  | .linkRetrain link trained => .linkRetrain link trained
  | .linkTraining link major minor => .linkTraining link major minor
  | .portDead link => .portDead link
  | .hostBar2Read fn offset len => .hostBar2Read fn offset len
  | .hostBar2Write fn offset data => .hostBar2Write fn offset data
  | .hostAtomicRequest fn offset => .hostAtomicRequest fn offset
  | .atsInvalidation ctx page => .atsInvalidation ctx page
  | .ideIntegrityFail fn => .ideIntegrityFail fn
  | .ideRekey fn => .ideRekey fn
  | .attestationRequest nonce => .attestationRequest nonce
  | .hostRestartRequest env => .hostRestartRequest env
  | .registerWrite w => .registerWrite w
  | .selfTestComplete unit passed => .selfTestComplete unit passed
  | .spareSubstitution core spare => .spareSubstitution core spare
  | .controlCoreReset n => .controlCoreReset n
  | .controlDieLoss modified => .controlDieLoss modified
  | .controlDieRestart success => .controlDieRestart success
  | .heartbeatMiss die => .heartbeatMiss die
  | .dieIsolation die => .dieIsolation die
  | .dieRecovery die passed table => .dieRecovery die passed table
  | .fabricDieLoss => .fabricDieLoss
  | .deviceReset env => .deviceReset env
  | .bootStageTimeout => .bootStageTimeout
  | .securityAlarm trigger => .securityAlarm trigger
  | .alarmEscalation => .alarmEscalation
  | .debugUnlockAttempt success => .debugUnlockAttempt success
  | .powerWindow watts capped => .powerWindow watts capped
  | .functionReset fn => .functionReset fn
  | .codeObjectUnload ctx va => .codeObjectUnload ctx va
  | .vendorEnrolment helper signedOk => .vendorEnrolment helper signedOk
  | .hostCompletionArrival id data => .hostCompletionArrival id data
  | .pageRequestResponse id granted => .pageRequestResponse id granted
  | .l1LineReplacement core line => .l1LineReplacement core line
  | .hostLinkTraining fns => .hostLinkTraining fns

/-- The word of an instruction (R48, R55, R62); an event has none, and answers 0. -/
def encode : Instr → Nat
  | .add d a b h => 0x04000000 + d.toNat * 2097152 + a.toNat * 65536 + b.toNat * 2048 + h.toNat
  | .sub d a b h => 0x04000008 + d.toNat * 2097152 + a.toNat * 65536 + b.toNat * 2048 + h.toNat
  | .and d a b h => 0x04000010 + d.toNat * 2097152 + a.toNat * 65536 + b.toNat * 2048 + h.toNat
  | .or d a b h => 0x04000018 + d.toNat * 2097152 + a.toNat * 65536 + b.toNat * 2048 + h.toNat
  | .xor d a b h => 0x04000020 + d.toNat * 2097152 + a.toNat * 65536 + b.toNat * 2048 + h.toNat
  | .andn d a b h => 0x04000028 + d.toNat * 2097152 + a.toNat * 65536 + b.toNat * 2048 + h.toNat
  | .sll d a b h => 0x04000030 + d.toNat * 2097152 + a.toNat * 65536 + b.toNat * 2048 + h.toNat
  | .srl d a b h => 0x04000038 + d.toNat * 2097152 + a.toNat * 65536 + b.toNat * 2048 + h.toNat
  | .sra d a b h => 0x04000040 + d.toNat * 2097152 + a.toNat * 65536 + b.toNat * 2048 + h.toNat
  | .rotr d a b h => 0x04000048 + d.toNat * 2097152 + a.toNat * 65536 + b.toNat * 2048 + h.toNat
  | .slt d a b h => 0x04000050 + d.toNat * 2097152 + a.toNat * 65536 + b.toNat * 2048 + h.toNat
  | .sltu d a b h => 0x04000058 + d.toNat * 2097152 + a.toNat * 65536 + b.toNat * 2048 + h.toNat
  | .min d a b h => 0x04000060 + d.toNat * 2097152 + a.toNat * 65536 + b.toNat * 2048 + h.toNat
  | .max d a b h => 0x04000068 + d.toNat * 2097152 + a.toNat * 65536 + b.toNat * 2048 + h.toNat
  | .minu d a b h => 0x04000070 + d.toNat * 2097152 + a.toNat * 65536 + b.toNat * 2048 + h.toNat
  | .maxu d a b h => 0x04000078 + d.toNat * 2097152 + a.toNat * 65536 + b.toNat * 2048 + h.toNat
  | .mul d a b h => 0x04000080 + d.toNat * 2097152 + a.toNat * 65536 + b.toNat * 2048 + h.toNat
  | .mulh d a b h => 0x04000088 + d.toNat * 2097152 + a.toNat * 65536 + b.toNat * 2048 + h.toNat
  | .mulhu d a b h => 0x04000090 + d.toNat * 2097152 + a.toNat * 65536 + b.toNat * 2048 + h.toNat
  | .div d a b h => 0x04000098 + d.toNat * 2097152 + a.toNat * 65536 + b.toNat * 2048 + h.toNat
  | .divu d a b h => 0x040000A0 + d.toNat * 2097152 + a.toNat * 65536 + b.toNat * 2048 + h.toNat
  | .rem d a b h => 0x040000A8 + d.toNat * 2097152 + a.toNat * 65536 + b.toNat * 2048 + h.toNat
  | .remu d a b h => 0x040000B0 + d.toNat * 2097152 + a.toNat * 65536 + b.toNat * 2048 + h.toNat
  | .addw d a b h => 0x040000C0 + d.toNat * 2097152 + a.toNat * 65536 + b.toNat * 2048 + h.toNat
  | .subw d a b h => 0x040000C8 + d.toNat * 2097152 + a.toNat * 65536 + b.toNat * 2048 + h.toNat
  | .mulw d a b h => 0x040000D0 + d.toNat * 2097152 + a.toNat * 65536 + b.toNat * 2048 + h.toNat
  | .sllw d a b h => 0x040000D8 + d.toNat * 2097152 + a.toNat * 65536 + b.toNat * 2048 + h.toNat
  | .srlw d a b h => 0x040000E0 + d.toNat * 2097152 + a.toNat * 65536 + b.toNat * 2048 + h.toNat
  | .sraw d a b h => 0x040000E8 + d.toNat * 2097152 + a.toNat * 65536 + b.toNat * 2048 + h.toNat
  | .clz d a h => 0x04000100 + d.toNat * 2097152 + a.toNat * 65536 + h.toNat
  | .ctz d a h => 0x04000108 + d.toNat * 2097152 + a.toNat * 65536 + h.toNat
  | .popc d a h => 0x04000110 + d.toNat * 2097152 + a.toNat * 65536 + h.toNat
  | .bswap d a h => 0x04000118 + d.toNat * 2097152 + a.toNat * 65536 + h.toNat
  | .sel d a b h => 0x04000140 + d.toNat * 2097152 + a.toNat * 65536 + b.toNat * 2048 + h.toNat
  | .fadd d a b t h => 0x08000000 + d.toNat * 2097152 + a.toNat * 65536 + b.toNat * 2048 + t.toNat * 1024 + h.toNat
  | .fsub d a b t h => 0x08000008 + d.toNat * 2097152 + a.toNat * 65536 + b.toNat * 2048 + t.toNat * 1024 + h.toNat
  | .fmul d a b t h => 0x08000010 + d.toNat * 2097152 + a.toNat * 65536 + b.toNat * 2048 + t.toNat * 1024 + h.toNat
  | .fdiv d a b t h => 0x08000018 + d.toNat * 2097152 + a.toNat * 65536 + b.toNat * 2048 + t.toNat * 1024 + h.toNat
  | .fsqrt d a t h => 0x08000020 + d.toNat * 2097152 + a.toNat * 65536 + t.toNat * 1024 + h.toNat
  | .fmin d a b t h => 0x08000028 + d.toNat * 2097152 + a.toNat * 65536 + b.toNat * 2048 + t.toNat * 1024 + h.toNat
  | .fmax d a b t h => 0x08000030 + d.toNat * 2097152 + a.toNat * 65536 + b.toNat * 2048 + t.toNat * 1024 + h.toNat
  | .fmac d a b t h => 0x08000038 + d.toNat * 2097152 + a.toNat * 65536 + b.toNat * 2048 + t.toNat * 1024 + h.toNat
  | .feq d a b t h => 0x08000040 + d.toNat * 2097152 + a.toNat * 65536 + b.toNat * 2048 + t.toNat * 1024 + h.toNat
  | .flt d a b t h => 0x08000048 + d.toNat * 2097152 + a.toNat * 65536 + b.toNat * 2048 + t.toNat * 1024 + h.toNat
  | .fle d a b t h => 0x08000050 + d.toNat * 2097152 + a.toNat * 65536 + b.toNat * 2048 + t.toNat * 1024 + h.toNat
  | .fcvt d a t h => 0x08000058 + d.toNat * 2097152 + a.toNat * 65536 + t.toNat * 1024 + h.toNat
  | .ftoi d a t h => 0x08000060 + d.toNat * 2097152 + a.toNat * 65536 + t.toNat * 1024 + h.toNat
  | .ftou d a t h => 0x08000068 + d.toNat * 2097152 + a.toNat * 65536 + t.toNat * 1024 + h.toNat
  | .itof d a t h => 0x08000070 + d.toNat * 2097152 + a.toNat * 65536 + t.toNat * 1024 + h.toNat
  | .utof d a t h => 0x08000078 + d.toNat * 2097152 + a.toNat * 65536 + t.toNat * 1024 + h.toNat
  | .fabs d a t h => 0x08000080 + d.toNat * 2097152 + a.toNat * 65536 + t.toNat * 1024 + h.toNat
  | .fneg d a t h => 0x08000088 + d.toNat * 2097152 + a.toNat * 65536 + t.toNat * 1024 + h.toNat
  | .jalr d a h => 0x0C000000 + d.toNat * 2097152 + a.toNat * 65536 + h.toNat
  | .jget d a h => 0x10000000 + d.toNat * 2097152 + a.toNat * 65536 + h.toNat
  | .jset d a h => 0x10000008 + d.toNat * 2097152 + a.toNat * 65536 + h.toNat
  | .addi d a imm => 0x20000000 + d.toNat * 2097152 + a.toNat * 65536 + imm.toNat
  | .andi d a imm => 0x24000000 + d.toNat * 2097152 + a.toNat * 65536 + imm.toNat
  | .ori d a imm => 0x28000000 + d.toNat * 2097152 + a.toNat * 65536 + imm.toNat
  | .xori d a imm => 0x2C000000 + d.toNat * 2097152 + a.toNat * 65536 + imm.toNat
  | .slti d a imm => 0x30000000 + d.toNat * 2097152 + a.toNat * 65536 + imm.toNat
  | .sltiu d a imm => 0x34000000 + d.toNat * 2097152 + a.toNat * 65536 + imm.toNat
  | .slli d a n => 0x38000000 + d.toNat * 2097152 + a.toNat * 65536 + n.toNat
  | .srli d a n => 0x38000040 + d.toNat * 2097152 + a.toNat * 65536 + n.toNat
  | .srai d a n => 0x38000080 + d.toNat * 2097152 + a.toNat * 65536 + n.toNat
  | .bfx d a p l => 0x3C000000 + d.toNat * 2097152 + a.toNat * 65536 + p.toNat * 64 + l.toNat
  | .bfxS d a p l => 0x3C008000 + d.toNat * 2097152 + a.toNat * 65536 + p.toNat * 64 + l.toNat
  | .bfi d a p l => 0x40000000 + d.toNat * 2097152 + a.toNat * 65536 + p.toNat * 64 + l.toNat
  | .li d imm => 0x44000000 + d.toNat * 2097152 + imm.toNat
  | .lih d imm => 0x48000000 + d.toNat * 2097152 + imm.toNat
  | .adpc d imm => 0x4C000000 + d.toNat * 2097152 + imm.toNat
  | .ld d a sz c o => 0x60000000 + d.toNat * 2097152 + a.toNat * 65536 + sz.toNat * 16384 + c.toNat * 4096 + o.toNat
  | .ldu d a sz c o => 0x64000000 + d.toNat * 2097152 + a.toNat * 65536 + sz.toNat * 16384 + c.toNat * 4096 + o.toNat
  | .st d a sz c o => 0x68000000 + d.toNat * 2097152 + a.toNat * 65536 + sz.toNat * 16384 + c.toNat * 4096 + o.toNat
  | .lds d a sz o => 0x6C000000 + d.toNat * 2097152 + a.toNat * 65536 + sz.toNat * 16384 + o.toNat
  | .ldsu d a sz o => 0x70000000 + d.toNat * 2097152 + a.toNat * 65536 + sz.toNat * 16384 + o.toNat
  | .sts d a sz o => 0x74000000 + d.toNat * 2097152 + a.toNat * 65536 + sz.toNat * 16384 + o.toNat
  | .ldq d a sz c o => 0x78000000 + d.toNat * 2097152 + a.toNat * 65536 + sz.toNat * 16384 + c.toNat * 4096 + o.toNat
  | .amoAdd d a b sz c => 0x80000000 + d.toNat * 2097152 + a.toNat * 65536 + b.toNat * 2048 + sz.toNat * 32 + c.toNat * 8
  | .amoAnd d a b sz c => 0x80000080 + d.toNat * 2097152 + a.toNat * 65536 + b.toNat * 2048 + sz.toNat * 32 + c.toNat * 8
  | .amoOr d a b sz c => 0x80000100 + d.toNat * 2097152 + a.toNat * 65536 + b.toNat * 2048 + sz.toNat * 32 + c.toNat * 8
  | .amoXor d a b sz c => 0x80000180 + d.toNat * 2097152 + a.toNat * 65536 + b.toNat * 2048 + sz.toNat * 32 + c.toNat * 8
  | .amoMin d a b sz c => 0x80000200 + d.toNat * 2097152 + a.toNat * 65536 + b.toNat * 2048 + sz.toNat * 32 + c.toNat * 8
  | .amoMax d a b sz c => 0x80000280 + d.toNat * 2097152 + a.toNat * 65536 + b.toNat * 2048 + sz.toNat * 32 + c.toNat * 8
  | .amoSwap d a b sz c => 0x80000300 + d.toNat * 2097152 + a.toNat * 65536 + b.toNat * 2048 + sz.toNat * 32 + c.toNat * 8
  | .amoCas d a b sz c => 0x80000380 + d.toNat * 2097152 + a.toNat * 65536 + b.toNat * 2048 + sz.toNat * 32 + c.toNat * 8
  | .amoFadd d a b sz c => 0x80000400 + d.toNat * 2097152 + a.toNat * 65536 + b.toNat * 2048 + sz.toNat * 32 + c.toNat * 8
  | .amoFmin d a b sz c => 0x80000480 + d.toNat * 2097152 + a.toNat * 65536 + b.toNat * 2048 + sz.toNat * 32 + c.toNat * 8
  | .amoFmax d a b sz c => 0x80000500 + d.toNat * 2097152 + a.toNat * 65536 + b.toNat * 2048 + sz.toNat * 32 + c.toNat * 8
  | .beq a b o => 0x90000000 + a.toNat * 262144 + b.toNat * 8192 + o.toNat
  | .bne a b o => 0x90800000 + a.toNat * 262144 + b.toNat * 8192 + o.toNat
  | .blt a b o => 0x91000000 + a.toNat * 262144 + b.toNat * 8192 + o.toNat
  | .bge a b o => 0x91800000 + a.toNat * 262144 + b.toNat * 8192 + o.toNat
  | .bltu a b o => 0x92000000 + a.toNat * 262144 + b.toNat * 8192 + o.toNat
  | .bgeu a b o => 0x92800000 + a.toNat * 262144 + b.toNat * 8192 + o.toNat
  | .j o => 0x94000000 + o.toNat
  | .jal o => 0x98000000 + o.toNat
  | .land => 0x9C000000
  | .cwaitCont n a o => 0xA0000000 + n.toNat * 16777216 + a.toNat * 262144 + o.toNat
  | .vrun a b h => 0xB0000000 + a.toNat * 65536 + b.toNat * 2048 + h.toNat
  | .vwait d h => 0xB0000008 + d.toNat * 2097152 + h.toNat
  | .mrun a h => 0xB0000090 + a.toNat * 65536 + h.toNat
  | .mwait d h => 0xB0000098 + d.toNat * 2097152 + h.toNat
  | .mstop h => 0xB00000A0 + h.toNat
  | .crun a b u h => 0xB0000028 + a.toNat * 65536 + b.toNat * 2048 + u.toNat * 128 + h.toNat
  | .cwait a u h => 0xB0000030 + a.toNat * 65536 + u.toNat * 128 + h.toNat
  | .erun d a b h => 0xB0000338 + d.toNat * 2097152 + a.toNat * 65536 + b.toNat * 2048 + h.toNat
  | .fmtq a h => 0xB00003C0 + a.toNat * 65536 + h.toNat
  | .trdl a h => 0xB0000448 + a.toNat * 65536 + h.toNat
  | .stitch d h => 0xB0000450 + d.toNat * 2097152 + h.toNat
  | .bind a b h => 0xB00004D8 + a.toNat * 65536 + b.toNat * 2048 + h.toNat
  | .unbind b h => 0xB00004E0 + b.toNat * 2048 + h.toNat
  | .qdepth d b h => 0xB00004E8 + d.toNat * 2097152 + b.toNat * 2048 + h.toNat
  | .rbacqW d a h => 0xB4000000 + d.toNat * 2097152 + a.toNat * 65536 + h.toNat
  | .rbacqT d a h => 0xB4000008 + d.toNat * 2097152 + a.toNat * 65536 + h.toNat
  | .rbrel a h => 0xB4000010 + a.toNat * 65536 + h.toNat
  | .tqpush d a b h => 0xB4000518 + d.toNat * 2097152 + a.toNat * 65536 + b.toNat * 2048 + h.toNat
  | .launch d a b h => 0xB40005A0 + d.toNat * 2097152 + a.toNat * 65536 + b.toNat * 2048 + h.toNat
  | .csrr d num => 0xC0000000 + d.toNat * 2097152 + num.toNat
  | .csrw d a num => 0xC4000000 + d.toNat * 2097152 + a.toNat * 65536 + num.toNat
  | .csrs d a num => 0xC8000000 + d.toNat * 2097152 + a.toNat * 65536 + num.toNat
  | .csrc d a num => 0xCC000000 + d.toNat * 2097152 + a.toNat * 65536 + num.toNat
  | .phase l => 0xD0000000 + l.toNat
  | .phaseE l => 0xD0001000 + l.toNat
  | .fence m => 0xD0002000 + m.toNat
  | .flush => 0xD0003000
  | .join => 0xD0004000
  | .yield => 0xD0005000
  | .trap c => 0xD4000000 + c.toNat
  | .eret => 0xD4001000
  | .icinv a scope => 0xD4002000 + a.toNat * 65536 + scope.toNat
  | .tlbinv a scope => 0xD4003000 + a.toNat * 65536 + scope.toNat
  | .moult a => 0xD4004000 + a.toNat * 65536
  | .qread d w => 0xD4005000 + d.toNat * 2097152 + w.toNat
  | .rdpcc d => 0xD4006000 + d.toNat * 2097152
  | .halt => 0xD4007000
  | .nop h => 0xF8000000 + h.toNat
  | .clevCount l v => 0x04000000 + l.toNat * 2097152 + v.toNat
  | .clevSs l v => 0x05000000 + l.toNat * 2097152 + v.toNat
  | .clevDs l v => 0x06000000 + l.toNat * 2097152 + v.toNat
  | .clevJs l sj d => 0x07000000 + l.toNat * 2097152 + sj.toNat * 131072 + d.toNat * 8192
  | .cbase b j o => 0x08000000 + b.toNat * 8388608 + j.toNat * 524288 + o.toNat
  | .ccopy src dst r e l => 0x0C000000 + src.toNat * 8388608 + dst.toNat * 1048576 + r.toNat * 65536 + e.toNat * 4096 + l.toNat
  | .ccopyTolns src dst r e l => 0x0C000400 + src.toNat * 8388608 + dst.toNat * 1048576 + r.toNat * 65536 + e.toNat * 4096 + l.toNat
  | .ccopyTolin src dst r e l => 0x0C000800 + src.toNat * 8388608 + dst.toNat * 1048576 + r.toNat * 65536 + e.toNat * 4096 + l.toNat
  | .cfill dst r w l j => 0x10000000 + dst.toNat * 8388608 + r.toNat * 524288 + w.toNat * 131072 + l.toNat * 128 + j.toNat * 8
  | .csig b c v => 0x14000000 + b.toNat * 8388608 + c.toNat * 2097152 + v.toNat
  | .cend => 0x18000000
  | .cnop => 0x1C000000
  | .mldw b j o => 0x04000000 + b.toNat * 33554432 + j.toNat * 2097152 + o.toNat * 256
  | .mswap => 0x08000000
  | .mma t a sp m x k p => 0x0C000000 + t.toNat * 8388608 + a.toNat * 524288 + sp.toNat * 32768 + m.toNat * 1024 + x.toNat * 512 + k.toNat * 256 + p.toNat * 128
  | .mstamp d => 0x10000000 + d.toNat
  | .mdrainPort t p => 0x14000000 + t.toNat * 8388608 + p.toNat * 262144
  | .mdrainSpm t j o => 0x14400000 + t.toNat * 8388608 + j.toNat * 262144 + o.toNat * 32
  | .mzero t => 0x18000000 + t.toNat * 8388608
  | .mmark => 0x1C000000
  | .mseg c => 0x20000000 + c.toNat
  | .mtreadle p r b n => 0x24000000 + p.toNat * 33554432 + r.toNat * 1048576 + b.toNat * 4096 + n.toNat
  | .mtend => 0x28000000
  | .mflags m => 0x2C000000 + m.toNat
  | .mnop => 0x30000000
  | .vaddFp d a b f k g => 0x02000000 + d.toNat * 524288 + a.toNat * 8192 + b.toNat * 128 + f.toNat * 32 + k.toNat * 16 + g.toNat
  | .vsubFp d a b f k g => 0x04000000 + d.toNat * 524288 + a.toNat * 8192 + b.toNat * 128 + f.toNat * 32 + k.toNat * 16 + g.toNat
  | .vmulFp d a b f k g => 0x06000000 + d.toNat * 524288 + a.toNat * 8192 + b.toNat * 128 + f.toNat * 32 + k.toNat * 16 + g.toNat
  | .vfma d a b f k g => 0x08000000 + d.toNat * 524288 + a.toNat * 8192 + b.toNat * 128 + f.toNat * 32 + k.toNat * 16 + g.toNat
  | .vfnma d a b f k g => 0x0A000000 + d.toNat * 524288 + a.toNat * 8192 + b.toNat * 128 + f.toNat * 32 + k.toNat * 16 + g.toNat
  | .vminFp d a b f k g => 0x0C000000 + d.toNat * 524288 + a.toNat * 8192 + b.toNat * 128 + f.toNat * 32 + k.toNat * 16 + g.toNat
  | .vmaxFp d a b f k g => 0x0E000000 + d.toNat * 524288 + a.toNat * 8192 + b.toNat * 128 + f.toNat * 32 + k.toNat * 16 + g.toNat
  | .vdivFp d a b f k g => 0x10000000 + d.toNat * 524288 + a.toNat * 8192 + b.toNat * 128 + f.toNat * 32 + k.toNat * 16 + g.toNat
  | .vsqrt d a f k g => 0x12000000 + d.toNat * 524288 + a.toNat * 8192 + f.toNat * 32 + k.toNat * 16 + g.toNat
  | .vabs d a f k g => 0x14000000 + d.toNat * 524288 + a.toNat * 8192 + f.toNat * 32 + k.toNat * 16 + g.toNat
  | .vneg d a f k g => 0x16000000 + d.toNat * 524288 + a.toNat * 8192 + f.toNat * 32 + k.toNat * 16 + g.toNat
  | .vrcp d a f k g => 0x18000000 + d.toNat * 524288 + a.toNat * 8192 + f.toNat * 32 + k.toNat * 16 + g.toNat
  | .vrsq d a f k g => 0x1A000000 + d.toNat * 524288 + a.toNat * 8192 + f.toNat * 32 + k.toNat * 16 + g.toNat
  | .vexp2 d a f k g => 0x1C000000 + d.toNat * 524288 + a.toNat * 8192 + f.toNat * 32 + k.toNat * 16 + g.toNat
  | .vlog2 d a f k g => 0x1E000000 + d.toNat * 524288 + a.toNat * 8192 + f.toNat * 32 + k.toNat * 16 + g.toNat
  | .vaddInt d a b w k g => 0x20000000 + d.toNat * 524288 + a.toNat * 8192 + b.toNat * 128 + w.toNat * 32 + k.toNat * 16 + g.toNat
  | .vsubInt d a b w k g => 0x22000000 + d.toNat * 524288 + a.toNat * 8192 + b.toNat * 128 + w.toNat * 32 + k.toNat * 16 + g.toNat
  | .vmulInt d a b w k g => 0x24000000 + d.toNat * 524288 + a.toNat * 8192 + b.toNat * 128 + w.toNat * 32 + k.toNat * 16 + g.toNat
  | .vmulh d a b w k g => 0x26000000 + d.toNat * 524288 + a.toNat * 8192 + b.toNat * 128 + w.toNat * 32 + k.toNat * 16 + g.toNat
  | .vmulhu d a b w k g => 0x28000000 + d.toNat * 524288 + a.toNat * 8192 + b.toNat * 128 + w.toNat * 32 + k.toNat * 16 + g.toNat
  | .vand d a b w k g => 0x2A000000 + d.toNat * 524288 + a.toNat * 8192 + b.toNat * 128 + w.toNat * 32 + k.toNat * 16 + g.toNat
  | .vor d a b w k g => 0x2C000000 + d.toNat * 524288 + a.toNat * 8192 + b.toNat * 128 + w.toNat * 32 + k.toNat * 16 + g.toNat
  | .vxor d a b w k g => 0x2E000000 + d.toNat * 524288 + a.toNat * 8192 + b.toNat * 128 + w.toNat * 32 + k.toNat * 16 + g.toNat
  | .vsll d a b w k g => 0x30000000 + d.toNat * 524288 + a.toNat * 8192 + b.toNat * 128 + w.toNat * 32 + k.toNat * 16 + g.toNat
  | .vsrl d a b w k g => 0x32000000 + d.toNat * 524288 + a.toNat * 8192 + b.toNat * 128 + w.toNat * 32 + k.toNat * 16 + g.toNat
  | .vsra d a b w k g => 0x34000000 + d.toNat * 524288 + a.toNat * 8192 + b.toNat * 128 + w.toNat * 32 + k.toNat * 16 + g.toNat
  | .vminInt d a b w k g => 0x36000000 + d.toNat * 524288 + a.toNat * 8192 + b.toNat * 128 + w.toNat * 32 + k.toNat * 16 + g.toNat
  | .vmaxInt d a b w k g => 0x38000000 + d.toNat * 524288 + a.toNat * 8192 + b.toNat * 128 + w.toNat * 32 + k.toNat * 16 + g.toNat
  | .vminu d a b w k g => 0x3A000000 + d.toNat * 524288 + a.toNat * 8192 + b.toNat * 128 + w.toNat * 32 + k.toNat * 16 + g.toNat
  | .vmaxu d a b w k g => 0x3C000000 + d.toNat * 524288 + a.toNat * 8192 + b.toNat * 128 + w.toNat * 32 + k.toNat * 16 + g.toNat
  | .vadds d a b w k g => 0x3E000000 + d.toNat * 524288 + a.toNat * 8192 + b.toNat * 128 + w.toNat * 32 + k.toNat * 16 + g.toNat
  | .vsubs d a b w k g => 0x40000000 + d.toNat * 524288 + a.toNat * 8192 + b.toNat * 128 + w.toNat * 32 + k.toNat * 16 + g.toNat
  | .vaddsu d a b w k g => 0x42000000 + d.toNat * 524288 + a.toNat * 8192 + b.toNat * 128 + w.toNat * 32 + k.toNat * 16 + g.toNat
  | .vsubsu d a b w k g => 0x44000000 + d.toNat * 524288 + a.toNat * 8192 + b.toNat * 128 + w.toNat * 32 + k.toNat * 16 + g.toNat
  | .vdivInt d a b w k g => 0x46000000 + d.toNat * 524288 + a.toNat * 8192 + b.toNat * 128 + w.toNat * 32 + k.toNat * 16 + g.toNat
  | .vdivu d a b w k g => 0x48000000 + d.toNat * 524288 + a.toNat * 8192 + b.toNat * 128 + w.toNat * 32 + k.toNat * 16 + g.toNat
  | .vrem d a b w k g => 0x4A000000 + d.toNat * 524288 + a.toNat * 8192 + b.toNat * 128 + w.toNat * 32 + k.toNat * 16 + g.toNat
  | .vremu d a b w k g => 0x4C000000 + d.toNat * 524288 + a.toNat * 8192 + b.toNat * 128 + w.toNat * 32 + k.toNat * 16 + g.toNat
  | .vaddi d a imm g => 0x50000000 + d.toNat * 524288 + a.toNat * 8192 + imm.toNat * 16 + g.toNat
  | .vandi d a imm g => 0x52000000 + d.toNat * 524288 + a.toNat * 8192 + imm.toNat * 16 + g.toNat
  | .vori d a imm g => 0x54000000 + d.toNat * 524288 + a.toNat * 8192 + imm.toNat * 16 + g.toNat
  | .vxori d a imm g => 0x56000000 + d.toNat * 524288 + a.toNat * 8192 + imm.toNat * 16 + g.toNat
  | .vslli d a n g => 0x58000000 + d.toNat * 524288 + a.toNat * 8192 + n.toNat * 16 + g.toNat
  | .vsrli d a n g => 0x5A000000 + d.toNat * 524288 + a.toNat * 8192 + n.toNat * 16 + g.toNat
  | .vsrai d a n g => 0x5C000000 + d.toNat * 524288 + a.toNat * 8192 + n.toNat * 16 + g.toNat
  | .vmovi d imm g => 0x5E000000 + d.toNat * 524288 + imm.toNat * 16 + g.toNat
  | .vceqFp a b f k g => 0x60000000 + a.toNat * 8192 + b.toNat * 128 + f.toNat * 32 + k.toNat * 16 + g.toNat
  | .vcltFp a b f k g => 0x62000000 + a.toNat * 8192 + b.toNat * 128 + f.toNat * 32 + k.toNat * 16 + g.toNat
  | .vcleFp a b f k g => 0x64000000 + a.toNat * 8192 + b.toNat * 128 + f.toNat * 32 + k.toNat * 16 + g.toNat
  | .vcneFp a b f k g => 0x66000000 + a.toNat * 8192 + b.toNat * 128 + f.toNat * 32 + k.toNat * 16 + g.toNat
  | .vceqInt a b w k g => 0x68000000 + a.toNat * 8192 + b.toNat * 128 + w.toNat * 32 + k.toNat * 16 + g.toNat
  | .vcneInt a b w k g => 0x6A000000 + a.toNat * 8192 + b.toNat * 128 + w.toNat * 32 + k.toNat * 16 + g.toNat
  | .vcltInt a b w k g => 0x6C000000 + a.toNat * 8192 + b.toNat * 128 + w.toNat * 32 + k.toNat * 16 + g.toNat
  | .vcltu a b w k g => 0x6E000000 + a.toNat * 8192 + b.toNat * 128 + w.toNat * 32 + k.toNat * 16 + g.toNat
  | .vcleInt a b w k g => 0x70000000 + a.toNat * 8192 + b.toNat * 128 + w.toNat * 32 + k.toNat * 16 + g.toNat
  | .vcleu a b w k g => 0x72000000 + a.toNat * 8192 + b.toNat * 128 + w.toNat * 32 + k.toNat * 16 + g.toNat
  | .vceqi a imm g => 0x74000000 + a.toNat * 8192 + imm.toNat * 16 + g.toNat
  | .vtst a b w k g => 0x76000000 + a.toNat * 8192 + b.toNat * 128 + w.toNat * 32 + k.toNat * 16 + g.toNat
  | .vplog t a b => 0x78000000 + t.toNat * 32768 + a.toNat * 4096 + b.toNat * 512
  | .vplogR t a b d => 0x78000100 + t.toNat * 32768 + a.toNat * 4096 + b.toNat * 512 + d.toNat * 32
  | .vpdrop n => 0x7A000000 + n.toNat * 16
  | .vppick x => 0x7C000000 + x.toNat * 524288
  | .vppickV x p => 0x7C040000 + x.toNat * 524288 + p.toNat * 16
  | .vsel d a b k inv p => 0x80000008 + d.toNat * 524288 + a.toNat * 8192 + b.toNat * 128 + k.toNat * 16 + inv.toNat * 4 + p.toNat
  | .vmov d a k g => 0x82000000 + d.toNat * 524288 + a.toNat * 8192 + k.toNat * 16 + g.toNat
  | .vperm d a b m k g => 0x84000000 + d.toNat * 524288 + a.toNat * 8192 + b.toNat * 128 + m.toNat * 32 + k.toNat * 16 + g.toNat
  | .vshuf d a b w k g => 0x86000000 + d.toNat * 524288 + a.toNat * 8192 + b.toNat * 128 + w.toNat * 32 + k.toNat * 16 + g.toNat
  | .vslide d a w n g => 0x88000000 + d.toNat * 524288 + a.toNat * 8192 + w.toNat * 2048 + n.toNat * 16 + g.toNat
  | .vrot d a w n g => 0x8A000000 + d.toNat * 524288 + a.toNat * 8192 + w.toNat * 2048 + n.toNat * 16 + g.toNat
  | .vmatch d a b f k g => 0x8C000000 + d.toNat * 524288 + a.toNat * 8192 + b.toNat * 128 + f.toNat * 32 + k.toNat * 16 + g.toNat
  | .vredaddFp d a f k g => 0x90000000 + d.toNat * 524288 + a.toNat * 8192 + f.toNat * 32 + k.toNat * 16 + g.toNat
  | .vredmin d a f k g => 0x92000000 + d.toNat * 524288 + a.toNat * 8192 + f.toNat * 32 + k.toNat * 16 + g.toNat
  | .vredmax d a f k g => 0x94000000 + d.toNat * 524288 + a.toNat * 8192 + f.toNat * 32 + k.toNat * 16 + g.toNat
  | .vredaddInt d a w k g => 0x96000000 + d.toNat * 524288 + a.toNat * 8192 + w.toNat * 32 + k.toNat * 16 + g.toNat
  | .vscanFp d a f k g => 0x98000000 + d.toNat * 524288 + a.toNat * 8192 + f.toNat * 32 + k.toNat * 16 + g.toNat
  | .vscanInt d a w k g => 0x9A000000 + d.toNat * 524288 + a.toNat * 8192 + w.toNat * 32 + k.toNat * 16 + g.toNat
  | .vpfirst inv p => 0x9C000000 + inv.toNat * 128 + p.toNat * 16
  | .vxs a r w c => 0x9E000000 + a.toNat * 8192 + r.toNat * 2048 + w.toNat * 1024 + c.toNat * 16
  | .vcvtF32F64 d a r k g => 0xA0000000 + d.toNat * 524288 + a.toNat * 8192 + r.toNat * 32 + k.toNat * 16 + g.toNat
  | .vcvtF64F32 d a k g => 0xA2000000 + d.toNat * 524288 + a.toNat * 8192 + k.toNat * 16 + g.toNat
  | .vcvtF16F32 d a r k g => 0xA4000000 + d.toNat * 524288 + a.toNat * 8192 + r.toNat * 32 + k.toNat * 16 + g.toNat
  | .vcvtF32F16 d a k g => 0xA6000000 + d.toNat * 524288 + a.toNat * 8192 + k.toNat * 16 + g.toNat
  | .vcvtBf16F32 d a r k g => 0xA8000000 + d.toNat * 524288 + a.toNat * 8192 + r.toNat * 32 + k.toNat * 16 + g.toNat
  | .vcvtF32Bf16 d a k g => 0xAA000000 + d.toNat * 524288 + a.toNat * 8192 + k.toNat * 16 + g.toNat
  | .vcvtI32F32 d a r k g => 0xAC000000 + d.toNat * 524288 + a.toNat * 8192 + r.toNat * 32 + k.toNat * 16 + g.toNat
  | .vcvtF32I32 d a r k g => 0xAE000000 + d.toNat * 524288 + a.toNat * 8192 + r.toNat * 32 + k.toNat * 16 + g.toNat
  | .vcvtN32F32 d a r k g => 0xB0000000 + d.toNat * 524288 + a.toNat * 8192 + r.toNat * 32 + k.toNat * 16 + g.toNat
  | .vcvtF32N32 d a r k g => 0xB2000000 + d.toNat * 524288 + a.toNat * 8192 + r.toNat * 32 + k.toNat * 16 + g.toNat
  | .vcvtI64F64 d a r k g => 0xB4000000 + d.toNat * 524288 + a.toNat * 8192 + r.toNat * 32 + k.toNat * 16 + g.toNat
  | .vcvtF64I64 d a r k g => 0xB6000000 + d.toNat * 524288 + a.toNat * 8192 + r.toNat * 32 + k.toNat * 16 + g.toNat
  | .vlcvt d a b f k g => 0xB8000000 + d.toNat * 524288 + a.toNat * 8192 + b.toNat * 128 + f.toNat * 32 + k.toNat * 16 + g.toNat
  | .vlcvtM d a b f k g => 0xBA000000 + d.toNat * 524288 + a.toNat * 8192 + b.toNat * 128 + f.toNat * 32 + k.toNat * 16 + g.toNat
  | .vlexp d a b f k g => 0xBC000000 + d.toNat * 524288 + a.toNat * 8192 + b.toNat * 128 + f.toNat * 32 + k.toNat * 16 + g.toNat
  | .vcvtF64Lns d a f k g => 0xBE000000 + d.toNat * 524288 + a.toNat * 8192 + f.toNat * 32 + k.toNat * 16 + g.toNat
  | .vlmul d a b f k g => 0xC0000000 + d.toNat * 524288 + a.toNat * 8192 + b.toNat * 128 + f.toNat * 32 + k.toNat * 16 + g.toNat
  | .vlscl d a b f k g => 0xC2000000 + d.toNat * 524288 + a.toNat * 8192 + b.toNat * 128 + f.toNat * 32 + k.toNat * 16 + g.toNat
  | .vld d c n g => 0xD0000000 + d.toNat * 524288 + c.toNat * 2048 + n.toNat * 128 + g.toNat
  | .vst a c n k g => 0xD2000000 + a.toNat * 8192 + c.toNat * 2048 + n.toNat * 128 + k.toNat * 16 + g.toNat
  | .vlds d n g => 0xD4000000 + d.toNat * 524288 + n.toNat * 128 + g.toNat
  | .vsts a n k g => 0xD6000000 + a.toNat * 8192 + n.toNat * 128 + k.toNat * 16 + g.toNat
  | .vgath d c v wd g => 0xD8000000 + d.toNat * 524288 + c.toNat * 2048 + v.toNat * 128 + wd.toNat * 32 + g.toNat
  | .vscat a c v wd k g => 0xDA000000 + a.toNat * 8192 + c.toNat * 2048 + v.toNat * 128 + wd.toNat * 32 + k.toNat * 16 + g.toNat
  | .vupdAdd a c n t k g => 0xDC000000 + a.toNat * 8192 + c.toNat * 2048 + n.toNat * 128 + t.toNat * 32 + k.toNat * 16 + g.toNat
  | .vupdMin a c n t k g => 0xDC080000 + a.toNat * 8192 + c.toNat * 2048 + n.toNat * 128 + t.toNat * 32 + k.toNat * 16 + g.toNat
  | .vupdMax a c n t k g => 0xDC100000 + a.toNat * 8192 + c.toNat * 2048 + n.toNat * 128 + t.toNat * 32 + k.toNat * 16 + g.toNat
  | .vupdAnd a c n t k g => 0xDC180000 + a.toNat * 8192 + c.toNat * 2048 + n.toNat * 128 + t.toNat * 32 + k.toNat * 16 + g.toNat
  | .vupdOr a c n t k g => 0xDC200000 + a.toNat * 8192 + c.toNat * 2048 + n.toNat * 128 + t.toNat * 32 + k.toNat * 16 + g.toNat
  | .vupdXor a c n t k g => 0xDC280000 + a.toNat * 8192 + c.toNat * 2048 + n.toNat * 128 + t.toNat * 32 + k.toNat * 16 + g.toNat
  | .vupdMinu a c n t k g => 0xDC300000 + a.toNat * 8192 + c.toNat * 2048 + n.toNat * 128 + t.toNat * 32 + k.toNat * 16 + g.toNat
  | .vupdMaxu a c n t k g => 0xDC380000 + a.toNat * 8192 + c.toNat * 2048 + n.toNat * 128 + t.toNat * 32 + k.toNat * 16 + g.toNat
  | .vtqpush a b k g => 0xDE000000 + a.toNat * 8192 + b.toNat * 128 + k.toNat * 16 + g.toNat
  | .vamoAdd d a c v t k g => 0xE0000000 + d.toNat * 524288 + a.toNat * 8192 + c.toNat * 2048 + v.toNat * 128 + t.toNat * 32 + k.toNat * 16 + g.toNat
  | .vamoAnd d a c v t k g => 0xE2000000 + d.toNat * 524288 + a.toNat * 8192 + c.toNat * 2048 + v.toNat * 128 + t.toNat * 32 + k.toNat * 16 + g.toNat
  | .vamoOr d a c v t k g => 0xE4000000 + d.toNat * 524288 + a.toNat * 8192 + c.toNat * 2048 + v.toNat * 128 + t.toNat * 32 + k.toNat * 16 + g.toNat
  | .vamoXor d a c v t k g => 0xE6000000 + d.toNat * 524288 + a.toNat * 8192 + c.toNat * 2048 + v.toNat * 128 + t.toNat * 32 + k.toNat * 16 + g.toNat
  | .vamoMin d a c v t k g => 0xE8000000 + d.toNat * 524288 + a.toNat * 8192 + c.toNat * 2048 + v.toNat * 128 + t.toNat * 32 + k.toNat * 16 + g.toNat
  | .vamoMax d a c v t k g => 0xEA000000 + d.toNat * 524288 + a.toNat * 8192 + c.toNat * 2048 + v.toNat * 128 + t.toNat * 32 + k.toNat * 16 + g.toNat
  | .vamoSwap d a c v t k g => 0xEC000000 + d.toNat * 524288 + a.toNat * 8192 + c.toNat * 2048 + v.toNat * 128 + t.toNat * 32 + k.toNat * 16 + g.toNat
  | .vamoCas d a c v t k g => 0xEE000000 + d.toNat * 524288 + a.toNat * 8192 + c.toNat * 2048 + v.toNat * 128 + t.toNat * 32 + k.toNat * 16 + g.toNat
  | .vshape r c => 0xF0000000 + r.toNat * 256 + c.toNat * 16
  | .vloop n o => 0xF2000000 + n.toNat * 524288 + o.toNat * 16
  | .vjmp o => 0xF4000000 + o.toNat * 16
  | .vend => 0xF6000000
  | .vseg c => 0xF8000000 + c.toNat * 16
  | .vnop h => 0xFC000000 + h.toNat
  | .faultRecordWrite _ => 0
  | .loadDataReturn _ => 0
  | .dataErrorArrival _ _ => 0
  | .accessPerformed _ => 0
  | .storeAck _ => 0
  | .storeErrorRecord _ _ => 0
  | .commitMessage _ => 0
  | .commitAck _ => 0
  | .dirtySectorEviction _ _ => 0
  | .forcedCommit _ _ => 0
  | .tlbWalkComplete _ => 0
  | .ldqDataArrival _ => 0
  | .vectorBusyClear _ _ => 0
  | .commandWindowReplay _ _ => 0
  | .rangeEntryRetire _ _ => 0
  | .clickerCopyStart _ _ => 0
  | .clickerCopyComplete _ _ _ => 0
  | .csigResponse _ _ _ => 0
  | .clickerProgramComplete _ _ => 0
  | .packetDelivery _ => 0
  | .peerByteTransfer _ _ => 0
  | .portUnbindComplete _ _ => 0
  | .treadleSlotStart _ => 0
  | .demandSend _ => 0
  | .demandArrival _ _ => 0
  | .treadleRunEnd _ => 0
  | .jobStart _ _ => 0
  | .jobEnd _ => 0
  | .swapTrigger _ _ => 0
  | .groupWake _ _ => 0
  | .activeRefill _ _ => 0
  | .rotationTick _ => 0
  | .blockTransfer _ => 0
  | .phaseArrival _ => 0
  | .phaseBoundaryComplete _ _ _ => 0
  | .fabricArrivalMessage _ => 0
  | .arrivalResend _ _ => 0
  | .taskPushAccept _ => 0
  | .taskQueueSpill _ _ => 0
  | .taskQueueRefill _ _ => 0
  | .formerSelection _ => 0
  | .formerTimeout _ _ => 0
  | .formerGroupReady _ => 0
  | .qwidxWrite _ _ _ => 0
  | .queueEnable _ _ _ => 0
  | .queueDisable _ _ _ => 0
  | .headPacketRead _ => 0
  | .signalReread _ _ => 0
  | .selectionRound => 0
  | .reservationStart _ => 0
  | .launchCompletion _ => 0
  | .msixUnmask _ _ => 0
  | .codeObjectLoad _ => 0
  | .demandPageVerify _ _ _ => 0
  | .codeIntegrityTermination _ => 0
  | .slotPatch _ _ _ _ => 0
  | .preempt _ => 0
  | .resumeJob _ _ => 0
  | .resumeGroup _ _ _ => 0
  | .killGroup _ _ => 0
  | .killLaunch _ => 0
  | .killContext _ => 0
  | .moultRelease => 0
  | .remoteRequestArrival _ => 0
  | .replyArrival _ _ => 0
  | .requesterTimeout _ => 0
  | .tagRelease _ => 0
  | .routerDiscard _ => 0
  | .congestionNotice _ => 0
  | .windowIncrease _ => 0
  | .creditReturn _ _ _ => 0
  | .auditFlitSend _ => 0
  | .auditFlitReceive _ _ => 0
  | .auditReturn _ _ => 0
  | .linkCrcRetry _ => 0
  | .linkRetrain _ _ => 0
  | .linkTraining _ _ _ => 0
  | .portDead _ => 0
  | .hostBar2Read _ _ _ => 0
  | .hostBar2Write _ _ _ => 0
  | .hostAtomicRequest _ _ => 0
  | .atsInvalidation _ _ => 0
  | .ideIntegrityFail _ => 0
  | .ideRekey _ => 0
  | .attestationRequest _ => 0
  | .hostRestartRequest _ => 0
  | .registerWrite _ => 0
  | .selfTestComplete _ _ => 0
  | .spareSubstitution _ _ => 0
  | .controlCoreReset _ => 0
  | .controlDieLoss _ => 0
  | .controlDieRestart _ => 0
  | .heartbeatMiss _ => 0
  | .dieIsolation _ => 0
  | .dieRecovery _ _ _ => 0
  | .fabricDieLoss => 0
  | .deviceReset _ => 0
  | .bootStageTimeout => 0
  | .securityAlarm _ => 0
  | .alarmEscalation => 0
  | .debugUnlockAttempt _ => 0
  | .powerWindow _ _ => 0
  | .functionReset _ => 0
  | .codeObjectUnload _ _ => 0
  | .vendorEnrolment _ _ => 0
  | .hostCompletionArrival _ _ => 0
  | .pageRequestResponse _ _ => 0
  | .l1LineReplacement _ _ => 0
  | .hostLinkTraining _ => 0

/-- The instruction the decoders read from a word of the table: the words of the four kinds overlap, and
the kinds are tried in the table's order. A word is 32 bits; the bytes are laid out in memory order. -/
noncomputable def decodeTableWord (nbits w : Nat) : Option Instr :=
  if nbits ≤ 32 then
    let n := wordOfBytes (bytesOfNat 4 w)
    match decodeOk .scalar n with
    | some i => some i
    | none =>
      match decodeOk .vector n with
      | some i => some i
      | none =>
        match decodeOk .matrix n with
        | some i => some i
        | none => decodeOk .clicker n
  else none

end Sys2Proof
end

