-- ==== Sys2Proof/Config.lean ====
section
/-! DEFINITION. What is fixed for the machine: the values the spec leaves open, as constants without a
body, so that no proof can see them, and the fixed sizes of the package. -/

namespace Sys2Proof.Config

/-- Compute dies of the package (00_scope, the device at a glance). -/
def dies : Nat := 8

/-- Physical cores of a compute die, the spares included (R118). -/
def coresPerDie : Nat := 200

/-- The key of the first control-die core in a `Focus`. -/
def controlBase : Nat := 1600

/-- A free value: the cycles of a delay that a rule only bounds, or does not give (log 2, log 8, log 41). -/
opaque freeDelay : Nat → Nat

/-- A free value: whether a line that was filled still stands in its slice (R485; log 11), or the verdict of a self-test (log 29). -/
opaque freeHit : Nat → Bool

/-- A free value: which candidate is replaced, where the spec does not say (R485; log 11). -/
opaque freeVictim : Nat → Nat

/-- A free value: what a register of another package's configuration region reads as; that package's state is not
in this one's (log 18). -/
opaque freeRemote : Nat → Nat → Nat

/-- A free value: whether a Falcon-1024 signature over a digest is that of the key with an identifier (R372; log 12). -/
opaque falconOk : Nat → Nat → Nat → Bool

/-- The INDEX under which the issue logic (0) and the matrix sequencer (1) of a core, and a twin group's lanes (2), are logged: R490
gives none. -/
opaque unitIndex : Nat → Nat

/-- The cycles by which the power manager delays the start of an exposed table on a core in a cycle (R479). -/
opaque startDelay : Nat → Nat → Nat

/-- A free value: the first eight bytes of the digest of the identity public key that helper data give (R474, R476; log 12). -/
opaque identityKey : Nat → Nat

/-- A free value: the Falcon-1024 signature over a digest with the identity key that helper data give (R476; log 12). -/
opaque falconSign : Nat → Nat → Nat

/-- A free value: the page on which the runtime puts the stack area of a launch (R376; log 22). -/
opaque freeStack : Nat → Nat

/-- A free value: what a save area holds once an image is written there, as granules of 32 bytes (R407; log 21). -/
opaque freeImage : Nat → List (Nat × Nat)

/-- A free value: a field of an error record that the spec gives no value for: a test signature, an index (R460; log 25). -/
opaque freeWord : Nat → Nat

/-- A free value: the lines of which a lost control die held the only modified copy, or the contexts that have a page there
(R460, R462; log 25). -/
opaque freeSet : Nat → List Nat

end Sys2Proof.Config
end

