-- ==== Sys2Proof/Machine/Store.lean ====
section
/-! DEFINITION. Plain-data tables: lists of key and value pairs in rising key order, and the canonical
sparse store of bytes and cells whose unlisted keys read as a default. -/

namespace Sys2Proof.Machine

/-- A finite table: keys strictly rising. -/
abbrev FMap (α : Type) := List (Nat × α)

/-- The entry of a key. -/
def FMap.get {α : Type} : FMap α → Nat → Option α
  | [], _ => none
  | (k, v) :: rest, key => if key = k then some v else FMap.get rest key

/-- Sets the entry of a key, keeping the keys in order. -/
def FMap.set {α : Type} : FMap α → Nat → α → FMap α
  | [], key, v => [(key, v)]
  | (k, w) :: rest, key, v =>
    if key = k then (k, v) :: rest
    else if key < k then (key, v) :: (k, w) :: rest
    else (k, w) :: FMap.set rest key v

/-- Removes the entry of a key. -/
def FMap.del {α : Type} : FMap α → Nat → FMap α
  | [], _ => []
  | (k, w) :: rest, key => if key = k then FMap.del rest key else (k, w) :: FMap.del rest key

/-- The entry of a key, or a default. -/
def FMap.getD {α : Type} (m : FMap α) (key : Nat) (d : α) : α := (m.get key).getD d

/-- Changes the entry of a key by f, if there is one. -/
def FMap.modify {α : Type} : FMap α → Nat → (α → α) → FMap α
  | [], _, _ => []
  | (k, w) :: rest, key, f =>
    if key = k then (k, f w) :: rest else (k, w) :: FMap.modify rest key f

/-- Whether a key has an entry. -/
def FMap.has {α : Type} (m : FMap α) (key : Nat) : Bool := (m.get key).isSome

/-- Changes every entry by f. -/
def FMap.mapVal {α : Type} (m : FMap α) (f : Nat → α → α) : FMap α := m.map fun p => (p.1, f p.1 p.2)

/-- The keys strictly rise. -/
def FMap.wf {α : Type} : FMap α → Bool
  | [] => true
  | [_] => true
  | (k, _) :: (k', v') :: rest => decide (k < k') && FMap.wf ((k', v') :: rest)

/-- A sparse store of naturals: a table in which a key without an entry reads as 0, and no entry is 0. -/
abbrev Store := FMap Nat

/-- Reads a key of a store; 0 where nothing is listed. -/
def Store.read (m : Store) (key : Nat) : Nat := FMap.getD m key 0

/-- Writes a key of a store; writing 0 removes the entry, so that equal stores are equal data. -/
def Store.write (m : Store) (key v : Nat) : Store := if v = 0 then FMap.del m key else FMap.set m key v

/-- The canonical form of a store. -/
def Store.wf (m : Store) : Bool := FMap.wf m && m.all fun p => decide (p.2 ≠ 0)

/-- A byte memory: address and byte pairs, addresses strictly rising, no byte equal to 0, which is what
an unlisted address reads as (log 1). -/
abbrev Memory := List (Nat × BitVec 8)

/-- Reads one byte. -/
def Memory.read (m : Memory) (a : Nat) : Byte := FMap.getD m a 0

/-- Writes one byte, keeping the canonical form. -/
def Memory.write (m : Memory) (a : Nat) (b : Byte) : Memory := if b = 0 then FMap.del m a else FMap.set m a b

/-- The canonical form of a memory. -/
def Memory.wf (m : Memory) : Bool := FMap.wf m && m.all fun p => decide (p.2 ≠ 0)

/-- The n bytes at an address as a number, little-endian (R6, R122). -/
def Memory.readN (m : Memory) (a : Nat) : Nat → Nat
  | 0 => 0
  | n + 1 => (Memory.read m a).toNat + 256 * Memory.readN m (a + 1) n

/-- Writes the low n bytes of a number at an address, little-endian (R6). -/
def Memory.writeN (m : Memory) (a : Nat) : Nat → Nat → Memory
  | 0, _ => m
  | n + 1, v => Memory.writeN (Memory.write m a (BitVec.ofNat 8 v)) (a + 1) n (v / 256)

/-- A sorted list of numbers, used as a set. -/
abbrev NatSet := List Nat

def NatSet.has (s : NatSet) (n : Nat) : Bool := s.contains n

def NatSet.add : NatSet → Nat → NatSet
  | [], n => [n]
  | k :: rest, n => if n = k then k :: rest else if n < k then n :: k :: rest else k :: NatSet.add rest n

def NatSet.del (s : NatSet) (n : Nat) : NatSet := s.filter fun k => decide (k ≠ n)

/-- Puts an element before the first one that it does not come after. -/
def insertBy {α : Type} (le : α → α → Bool) (x : α) : List α → List α
  | [] => [x]
  | y :: rest => if le x y then x :: y :: rest else y :: insertBy le x rest

/-- A list in an order; equals keep their places. -/
def sortBy {α : Type} (le : α → α → Bool) (l : List α) : List α := l.foldr (insertBy le) []

end Sys2Proof.Machine
end

