-- ==== Sys2Proof/Machine/State.lean ====
section
/-! DEFINITION. The state of the package: everything the spec gives the machine, as plain data. -/

namespace Sys2Proof.Machine

/-- The reasons a step faults. -/
inductive Fault where
  /-- Raised by no meaning: every trap of this machine is a next state. Safe. -/
  | none
  deriving DecidableEq, Repr

/-- The reasons a step is refused. -/
inductive Refusal where
  /-- An arm of exec that has no meaning yet. Safe: the run stops. -/
  | notModelled (mnemonic : String)
  deriving DecidableEq, Repr

/-- The streams that own a program counter (R3, R45): a group's scalar and vector streams, the matrix
stream, the clicker channels, the eft stream, and a control-die core. -/
inductive Stream where
  | group | vector | matrix
  | chan (n : Nat)
  | eft | control
  deriving DecidableEq, Repr

/-- The stream whose step is taken: a compute core's key is 200 × die + physical index, a control-die
core's 1600 + its number. -/
structure Focus where
  core : Nat
  slot : Nat
  stream : Stream
  deriving DecidableEq, Repr

/-! ### The scalar streams -/

/-- One scalar register file with its arithmetic state registers (R66, R37-R40) and the registers that
hold poison (R446). A twin group has two (R282). -/
structure RegFile where
  x : Vector Word 32
  flags : BitVec 32
  rmode : BitVec 32
  lsat : BitVec 32
  amax : BitVec 64
  poison : NatSet
  deriving DecidableEq, Repr

/-- A scalar stream: program counter, registers and its scoreboard (R98, R99). `ready` gives, for a
register, the first cycle in which a dependent instruction may issue; `waits` the access that will write
it; `done` the first cycle in which every earlier instruction is past its latency; `nextIssue` the
earliest issue of the next instruction; `word` the word that was executed last, which goes on while its form waits (R149, R189). -/
structure Scalar where
  pc : Word
  rf : RegFile
  twin : Option RegFile
  shape : BitVec 32
  ready : FMap Nat
  waits : FMap Nat
  done : Nat
  nextIssue : Nat
  word : BitVec 32
  deriving DecidableEq, Repr

/-! ### Groups and their vector streams -/

/-- A packet in a port (R58, R119): its bytes, its lane mask, the cycle from which its consumer sees it, and which of its
granules of 32 bytes are poisoned (R446). -/
structure Packet where
  bytes : BitVec 8192
  mask : Mask
  seen : Nat
  poison : BitVec 32
  deriving DecidableEq, Repr

/-- What a micro-order writes when it lands (R102): bytes of a register under a mask, a predicate
operation, flags, AMAX, the return word, a k register, a packet pushed to a port, scratchpad bytes
(address, size, value). `shadow` says that the flags come from a twin group's shadow columns (R227). -/
inductive VEffect where
  | reg (r : Nat) (mask : Mask) (value : BitVec 8192)
  | pushPred (m : Mask)
  | setPred (depth : Nat) (m : Mask)
  | dropPred (n : Nat)
  | flags (shadow : Bool) (fl : Nat)
  | lsat (shadow : Bool) (fl : Nat)
  | amax (shadow : Bool) (v : BitVec 64)
  | ret (v : Word)
  | kreg (n : Nat) (v : Word)
  | push (port : Nat) (pkt : Packet)
  | spm (writes : List (Nat × Nat × Nat))
  deriving DecidableEq, Repr

/-- A write of an issued micro-order that has not landed: the cycle it lands in (R102, R103). -/
structure VWrite where
  land : Nat
  eff : VEffect
  deriving DecidableEq, Repr

/-- An open segment of an exposed table (R113, R114): its header's issue cycle, expected count, literal,
running CRC, and whether it is checked (R115). -/
structure Seg where
  t0 : Nat
  cycles : Nat
  literal : BitVec 32
  crc : BitVec 32
  checked : Bool
  deriving DecidableEq, Repr

/-- A memory micro-order in flight (R223-R225): its number, pc and issue cycle, the elements outstanding, its
destination field and the SHAPE it issued under, whether it pushes a predicate entry, the destination bytes it
writes (a twin group's shadow columns apart, R283) and their values so far, the cycle of the last answer of a vtqpush, and the lowest faulting element with its address, its error and its home's package. -/
structure VMem where
  order : Nat
  pc : Word
  since : Nat
  left : Nat
  dest : Option (BitVec 6)
  shape : BitVec 32
  pred : Bool
  mask : Mask
  smask : Mask
  value : BitVec 8192
  back : Nat
  fault : Option (Nat × Word × DataError × Nat)
  deriving DecidableEq, Repr

/-- The operand-collector latch (R61): the operand field, the latched value and its poisoned cells. -/
structure Latch where
  name : BitVec 6
  value : BitVec 8192
  poison : BitVec 256
  deriving DecidableEq, Repr

/-- A group's vector stream (R150): its table, working SHAPE and RM, latch, pending writes, the memory
micro-orders in flight, the cycle its next micro-order may issue, its open segment, whether a trap or a
kill has stopped it, whether its table has ended and only writes are outstanding, and whether it waits, resumed, for its next word's
translation (R405). -/
structure VStream where
  busy : Bool
  header : Word
  length : Nat
  exposed : Bool
  pc : Word
  wshape : BitVec 32
  wrm : Nat
  latch : Option Latch
  writes : List VWrite
  mems : List VMem
  nextIssue : Nat
  seg : Option Seg
  stopped : Bool
  ended : Bool
  frozen : Bool := false
  deriving DecidableEq, Repr

/-- Where a held register block is (R268): granted and not yet created (R270), a pool block of its own parity,
a pool block of the other parity (parked), or a place of the group store. -/
inductive Place where
  | awaited
  | pool (phys : Nat)
  | parked (phys : Nat)
  | store (idx : Nat)
  deriving DecidableEq, Repr

/-- The scalar-side state of a group (R259); `starting` is a group that the former has started and that is
not yet READY (R280). -/
inductive GStatus where
  | active | ready | waiting | trapped | joined | starting
  deriving DecidableEq, Repr

/-- What a held or waiting group waits for (R149, R263); `ending` is a form that has taken its issue slot and completes in
the first cycle in which its wait is over (R151, R154, R173, R189), `ordered` the same of FENCE, FLUSH and PHASE before
their stores are performed (R174, R177, R178); `commit` is the commit event of FLUSH and PHASE 0, `settle` that of LAUNCH, `packetWalk` the TLB miss of its packet;
`leaving` a group that ends as if by JOIN (R176); a result's register goes with the waits that deliver it on re-entry
(R263). -/
inductive Wait where
  | resource
  | load (id : Nat)
  | walk (id : Nat)
  | count (ch : Nat) (c : BitVec 32)
  | countAt (ch : Nat) (c : BitVec 32) (target : Word)
  | boundary (level : Nat)
  | blocks (mask d : Nat)
  | demand (d : Nat)
  | ending
  | ordered
  | leaving
  | push (id : Nat)
  | commit (id : Nat)
  | settle (id : Nat)
  | packet (id : Nat)
  | packetWalk (id : Nat)
  | shoot (id : Nat)
  | start
  | until (t : Nat)
  deriving DecidableEq, Repr

/-- A group held at an instruction that has issued and waits (R149): since when, for what, and the
result the wake delivers, if any (R263). -/
structure Hold where
  since : Nat
  wait : Wait
  granted : Option Word
  deriving DecidableEq, Repr

/-- A store error recorded against a group and its class (R139). -/
structure StoreErr where
  cls : Nat
  ea : Word
  reason : Nat
  deriving DecidableEq, Repr

/-- What a resumption needs of a trap (R449, R138, R184): its cause, the pc of the faulting step, the
stream it stopped, whether the step replays, the faulting address, and AUX, CIDX and ELEM of its record. -/
structure TrapInfo where
  cause : Nat
  pc : Word
  stream : Stream
  replay : Bool
  addr : Word
  aux : Word := 0
  cidx : Nat := 0
  elem : Nat := 0
  deriving DecidableEq, Repr

/-- Where a Beyllieg block goes (R380). -/
inductive Exit2 where
  | offset (n : Int)
  | address (a : Word)
  | join
  deriving DecidableEq, Repr

/-- What evaluating a Beyllieg block has gathered (R381): the values delivered to slots (4 times the operation and the
slot), those for registers, the stores in order, the exits that fired, and the flags raised. -/
structure Eval2 (w : Nat) where
  slots : FMap (BitVec w)
  regs : FMap (BitVec w)
  stores : List (Word × Nat × Word)
  exits : List Exit2
  flags : Nat
  deriving DecidableEq, Repr

/-- A Beyllieg block that a group is in (R381, R382): what its evaluation has gathered, with that of a twin group's second
register file, the operation to come, the load that it waits for with its data once they are there, and, once the block
commits, the stores made. -/
structure BlockRun where
  eval : Eval2 64
  twin : Option (Eval2 64)
  next : Nat
  load : Option Nat
  data : Option Word
  committing : Bool
  stored : Nat
  deriving DecidableEq, Repr

/-- One group (R66, R259, R281): its registers, predicate stack, blocks and their places, its state in
the scheduler, the wait it is in, its store errors and its trap, and the block that a group of class 2 code is in. -/
structure Group where
  kindId : Nat
  seq : Nat
  status : GStatus
  sc : Scalar
  k : Vector Word 4
  ret : Word
  preds : Vector Mask 8
  vregs : FMap (BitVec 8192)
  vpoison : NatSet
  v : VStream
  blocks : FMap Place
  hold : Option Hold
  arrived : Option Nat
  enteredAt : Nat
  leftAt : Nat
  readyAt : Nat
  storeErrs : List StoreErr
  traps : List TrapInfo
  block : Option BlockRun := none
  deriving DecidableEq, Repr

/-! ### Ports -/

/-- A byte place reserved in a port by an ldq, in issue order (R136): the access, its size, and the bytes
once they have arrived. -/
structure LdqSlot where
  id : Nat
  size : Nat
  data : Option Nat
  failed : Bool
  deriving DecidableEq, Repr

/-- A byte of a port with its mask bit (R58), and whether its granule is poisoned (R446). -/
structure PortByte where
  byte : Byte
  live : Bool
  bad : Bool
  deriving DecidableEq, Repr

/-- The state of a port (R272). -/
inductive PortStatus where
  | unbound | bound | closing
  deriving DecidableEq, Repr

/-- A stream port (R163-R168, R272): state, descriptor, binding group, packets, the partial packet as
bytes with their mask bits, reserved packet places, the ldq slots, bytes on their way from a peer, bytes on
their way to a peer, the peer chunks delivered so far (R121), the bytes of the oldest packet that have left for the
peer, and the cycle in which it was bound. -/
structure Port where
  status : PortStatus
  desc : Word
  owner : Nat
  packets : List Packet
  partialBytes : List PortByte
  reserved : Nat
  ldqs : List LdqSlot
  inflight : Nat
  leaving : Nat
  taken : Nat
  gone : Nat
  since : Nat
  deriving DecidableEq, Repr

/-! ### The matrix stream and the treadle controller -/

/-- A format word in FQ, with the cycle in which it is filled (R108, R160). -/
structure FqEntry where
  word : Word
  fill : Nat
  deriving DecidableEq, Repr

/-- A weight bank (R228, R234): its 2,048 bytes of codes, its column scales, its format tag, the poisoned
words, and the cycle from which an MMA may use it. -/
structure Bank where
  codes : Memory
  scales : Store
  tag : BitVec 2
  poison : NatSet
  usable : Nat
  busyTo : Nat
  deriving DecidableEq, Repr

/-- A row of an MMA (R237): its command, the cycle it is popped in from its ports (none for a replayed command's)
and the cycle it is written in, the bank, the format word, the tile, the row, T, the bytes of A, its activation
scale, whether A or the scale is poisoned, whether it is the command's last row; and, once its accumulator
elements have been read, the new elements. -/
structure MRow where
  cmd : Nat
  pop : Nat
  aport : Option Nat
  sport : Option Nat
  land : Nat
  bank : Nat
  fw : Word
  tile : Nat
  row : Nat
  t : Bool
  a : BitVec 8192
  sa : Int
  bad : Bool
  last : Bool
  result : Option (BitVec 2048)
  deriving DecidableEq, Repr

/-- A drain in progress (R239): its command, the cycle its row 0 is read in, its tile and format word, its
port or scratchpad address, the rows read and the cycles they are written in, the rows read and written so
far, and the packets that a replayed drain has pushed before (R244). -/
structure MDrain where
  cmd : Nat
  start : Nat
  tile : Nat
  fw : Word
  port : Option Nat
  ea : Nat
  rows : List (Nat × BitVec 1024)
  nread : Nat
  written : Nat
  skip : Nat
  deriving DecidableEq, Repr

/-- A weight load in progress (R234). -/
structure MLoad where
  land : Nat
  bank : Nat
  fmt : BitVec 2
  ea : Nat
  cmd : Nat
  deriving DecidableEq, Repr

/-- A tile zeroing that has not taken effect (R241). -/
structure MZeroing where
  land : Nat
  tile : Nat
  deriving DecidableEq, Repr

/-- One command of the window (R243): its number, word, pc and issue cycle, the format word it popped, its A
packets and scale packets, and the packets its drain has pushed; how many of its rows had been popped when a replay began
(R451), and the slots of its treadle run missed before it issued (R328). -/
structure WCmd where
  cmd : Nat
  word : BitVec 32
  pc : Word
  issued : Nat
  fw : Option Word
  apkts : List Packet
  spkts : List Packet
  pushed : Nat
  popped : Nat
  missed : Nat
  deriving DecidableEq, Repr

/-- The command window (R243, R451): retained commands, bytes of packets held, whether it has overflowed, whether
it has been replayed, and the tiles opened by MZERO or an overwrite-mode MMA and those written otherwise
first. -/
structure Window where
  cmds : List WCmd
  bytes : Nat
  overflow : Bool
  replayed : Bool
  opened : NatSet
  unopened : NatSet
  deriving DecidableEq, Repr

/-- A replay in progress (R244, R326): the commands still to re-issue, each no earlier than its cycle. -/
structure Replay where
  cmds : List (Nat × WCmd)
  deriving DecidableEq, Repr

/-- The matrix table that runs (R152, R161): owner slot, header, length, mode, pc, whether it is a treadle
run, the cycle its first word issues, its segment, whether it has stopped issuing or is trapped, whether its starter
has left its slot, so that its faults are the job's (R74, R489), the address that its word has read at decode (R234,
R239), and whether the word has waited for its path (R318). -/
structure MRun where
  owner : Nat
  header : Word
  length : Nat
  exposed : Bool
  treadle : Bool
  pc : Word
  first : Nat
  started : Bool
  seg : Option Seg
  ended : Bool
  trapped : Bool
  orphan : Bool := false
  ea : Option Word := none
  pathHeld : Bool := false
  resumed : Option Nat := none
  deriving DecidableEq, Repr

/-- The matrix stream (R228). Accumulator element (row, col) of tile t has key 1024 t + 32 row + col. -/
structure Matrix where
  acc : Store
  accPoison : NatSet
  banks : Vector Bank 2
  act : BitVec 1
  fq : List FqEntry
  stamp : Option Nat
  t0 : Nat
  mflags : BitVec 32
  run : Option MRun
  rows : List MRow
  drains : List MDrain
  loads : List MLoad
  zeroings : List MZeroing
  window : Option Window
  replay : Option Replay
  aFree : Nat
  wlFree : Nat
  drFree : Nat
  nextIssue : Nat
  cmds : Nat
  pendFlags : FMap Nat
  deriving DecidableEq, Repr

/-- A demand raised by a treadle run and not yet sent (R321, R322): its stitcher core and descriptor. -/
structure Demand where
  core : Nat
  descr : Word
  deriving DecidableEq, Repr

/-- The treadle controller's registers and run (R314-R325): the latched lookahead, MTREADLE's fields, the cycle of
the last slot tested, the missed slots of the run and those of them before the open segment, the demands raised and not sent, the pairs of
stitcher core and port that demands went to, the beat up to which demands are to be raised, the slot
start that an ended table awaits; the beats issued and the next beat to be demanded, as numbers of which TBEAT and TDNEXT show
32 bits (R315), and how far that beat's demands have been raised (R322). -/
structure Treadle where
  tbeat : BitVec 32
  tdla : BitVec 32
  tdnext : BitVec 32
  tmiss : BitVec 32
  tstate : BitVec 32
  look : Nat
  bp : Nat
  rpb : Nat
  nb : Nat
  strict : Bool
  slot : Nat
  missed : Nat
  segMissed : Nat
  waiting : List Demand
  sent : List (Nat × Nat)
  raiseTo : Nat
  endAt : Nat
  beats : Nat
  nextDemand : Nat
  part : Nat
  deriving DecidableEq, Repr

/-! ### Clicker channels, the eft stream and the range checker -/

/-- One loop level of a clicker program (R248). -/
structure CLevel where
  count : Nat
  ss : Int
  ds : Int
  deriving DecidableEq, Repr

/-- What each iteration of a clicker program does (R250-R252). -/
inductive COp where
  | copy (conv : Nat) (literal : BitVec 32) (len : Nat)
  | fill (bytes : Nat) (width : Nat) (len : Nat)
  deriving DecidableEq, Repr

/-- A copy started and not complete (R488): its iteration, its translated destination (virtual and physical address
and length of each piece), the accesses still outstanding for its source, the bytes read with those that are
poisoned, whether its writes have been made, and those not yet performed. -/
structure CCopy where
  iter : Nat
  dest : List (Nat × Nat × Nat)
  reading : Nat
  data : BitVec 8192
  poison : Mask
  issued : Bool
  writing : Nat
  deriving DecidableEq, Repr

/-- A clicker program that runs (R245-R249): the group slot of its CRUN, its table and words as CRUN read them, the
pc, the j registers as CRUN read them, the levels; once its copy word is reached, that word's pc, operation,
spaces and fields; the copies in all, the next to start and those in flight; whether a CSIG is out and whether CEND
has executed; when the next copy may start, the walk it waits for, the number its range entries carry,
whether a trap has stopped it, and whether its starter has left its slot (R74). -/
structure CRun where
  owner : Nat
  header : Word
  length : Nat
  words : List (BitVec 32)
  pc : Word
  j : Vector Word 16
  levels : List CLevel
  opPc : Word
  op : Option COp
  srcSpace : Nat
  dstSpace : Nat
  srcRef : Nat
  dstRef : Nat
  next : Nat
  copies : List CCopy
  sigOut : Bool
  ended : Bool
  startFree : Nat
  walk : Option Nat
  cmd : Nat
  trapped : Bool
  orphan : Bool := false
  deriving DecidableEq, Repr

/-- A clicker channel (R155, R66). -/
structure Chan where
  cc : BitVec 32
  b : Vector Word 6
  run : Option CRun
  deriving DecidableEq, Repr

/-- The eft stream (R159, R275); `orphan` when the group of its ERUN has left its slot (R74). -/
structure Eft where
  sc : Scalar
  running : Bool
  endPc : Word
  owner : Nat
  hold : Option Hold
  trapped : Bool
  retry : List Nat
  orphan : Bool
  deriving DecidableEq, Repr

/-- An entry of the range checker (R116): direction, first byte, length, the command it belongs to, and
whether its accesses have completed. Sources: 0 the matrix stream, 1 + n channel n. -/
structure RcEntry where
  order : Nat
  isWrite : Bool
  first : Nat
  length : Nat
  source : Nat
  cmd : Nat
  complete : Bool
  deriving DecidableEq, Repr

/-! ### Memory accesses of a core -/

/-- Where a pending store's bytes are (R293, R301): a dirty L1 sector, the home, or on their way. -/
inductive StorePlace where
  | dirty | versioned | inFlight
  deriving DecidableEq, Repr

/-- A store of the core that is not yet committed (R293), in the core's order. -/
structure PStore where
  order : Nat
  slot : Nat
  stream : Stream
  pa : Nat
  size : Nat
  value : Nat
  cls : Nat
  place : StorePlace
  performed : Bool
  acked : Bool
  committing : Bool
  fenced : Nat
  poison : Bool
  window : Nat
  va : Word
  ctx : Nat
  deriving DecidableEq, Repr

/-- What an access is for; `block` is the load of a Beyllieg block (R380). -/
inductive AccKind where
  | load (d : Nat) (signed : Bool)
  | block (signed : Bool)
  | amo (d : Nat) (op : Nat) (b cmp : Word)
  | store
  | ldq (port : Nat)
  | vload (order : Nat) (byteAt : Nat) (elem : Nat)
  | vstore (order : Nat) (elem : Nat)
  | vamo (order : Nat) (byteAt : Nat) (elem : Nat) (op : Nat) (b cmp : Word) (result : Bool)
  | csig (ch : Nat) (v : Int)
  | cread (ch : Nat) (iter : Nat) (byteAt : Nat)
  | cwrite (ch : Nat) (iter : Nat)
  | commit (event : Nat) (stores : List PStore)
  | packetRead (queue : Nat)
  deriving DecidableEq, Repr

/-- An access in flight (R484): who made it, its addresses, class, cycles, value, and what it has done.
`tag` is its fabric tag and generation (R425); `host` is 0 but for a request to the host (R434): 1 while it awaits a
translation, 2 a page request's answer, 3 a completion. -/
structure Access where
  core : Nat
  slot : Nat
  stream : Stream
  kind : AccKind
  pc : Word
  va : Word
  pa : Nat
  size : Nat
  cls : Nat
  issued : Nat
  performAt : Nat
  replyAt : Nat
  order : Nat
  value : Nat
  performed : Bool
  error : Option DataError
  window : Nat
  lease : Option (Nat × BitVec 32 × Nat)
  tag : Option (Nat × Nat)
  host : Nat
  deriving DecidableEq, Repr

/-- A 128-byte sector in L1 with its lease tag (R298): level, PH value, acquire epoch; its bytes and poisoned
granules; and the leaf it was translated by (virtual base plus level). -/
structure L1Sector where
  level : Nat
  ph : BitVec 32
  epoch : Nat
  data : BitVec 1024
  poison : NatSet
  vpage : Nat
  deriving DecidableEq, Repr

/-- A 128-byte sector of the instruction cache: its bytes and its poisoned granules (R446, R448). -/
structure CodeSector where
  data : BitVec 1024
  poison : NatSet
  deriving DecidableEq, Repr

/-- A cached translation (R393): context, virtual page base, leaf level, physical base, PERM. -/
structure TlbEntry where
  ctx : Nat
  va : Nat
  level : Nat
  pa : Nat
  perm : Nat
  deriving DecidableEq, Repr

/-- A request that a walk answers (R394): the stream, the address it needs, whether it is a fetch, and
the element of a vector micro-order. -/
structure WalkReq where
  focus : Focus
  va : Word
  fetch : Bool
  elem : Nat
  deriving DecidableEq, Repr

/-- Where an L1 TLB miss is (R393, R394): answered by the strip TLB, walking, queued at the die's walker, or waiting for one of
the 64 places of its strip TLB. -/
inductive WalkStage where
  | hit | walking | queued | waiting
  deriving DecidableEq, Repr

/-- A walk in flight (R394): die, context, address, the strip whose miss began it, the requests it will answer, whether a
TLBINV has dropped it (R399), its quiescence window (R401), its stage, and the cycle in which it was asked for. -/
structure Walk where
  die : Nat
  ctx : Nat
  va : Nat
  strip : Nat
  joined : List WalkReq
  dropped : Bool
  window : Nat
  stage : WalkStage
  asked : Nat
  deriving DecidableEq, Repr

/-- A block move on the transfer path (R270): group, block, and where it goes; in an exchange of two blocks also the
other group and block, and where that goes. -/
structure Move where
  slot : Nat
  block : Nat
  dest : Place
  back : Option (Nat × Nat × Place)
  deriving DecidableEq, Repr

/-- The pipes of the vector unit: the first cycle in which each is free (R100). -/
structure Pipes where
  fa : Nat
  fb : Nat
  ix : Nat
  sx : Nat
  cx : Nat
  px : Nat
  mx : Nat
  deriving DecidableEq, Repr

/-- The job's identity and parameters (R256, R68, R262, R291, R292). `twin` is the launch's twin flag and
`compat` its compatibility mode (R384); `arrival` is the level of a boundary arrival whose commits are
acknowledged, 5 where the core counts as arrived at every level (R174); `arriving` is one whose commit event
is in progress; `stopping` the cycle in which its streams were asked to stop, for pre-emption or for a kill (R404, R410), and `matrixStop` the
one in which the matrix stream has (R406); `ending` the commit event of the job's
end (R258); `rejoin` a job on a die added at an elastic boundary (R176); `blocks` that the job runs class 2 code, and whether its lane
blocks are exposed (R366, R382). -/
structure JobInfo where
  launch : Nat
  ctx : Nat
  role : BitVec 32
  jobid : BitVec 32
  slots : Nat
  launchGroups : Nat
  twin : Bool
  dmr : Vector (BitVec 32) 4
  ph : Vector (BitVec 32) 5
  schedctl : BitVec 32
  start : Nat
  seqNext : Nat
  spmSize : Nat
  storePlaces : Nat
  compat : Bool
  arrival : Option Nat
  arriving : Option (Nat × Nat)
  stopping : Option Nat
  stopReady : Bool
  matrixStop : Option Nat
  ending : Option Nat
  rejoin : Bool
  killed : Bool
  blocks : Option Bool := none
  deriving DecidableEq, Repr

/-- The memory side of a core: accesses are in the package's table; here are its pending stores, L1
sectors with their leases, acquire epoch, translations, instruction cache, and the commit events in
progress with the messages that each still lacks the acknowledgements of (R486). -/
structure CoreMem where
  pend : List PStore
  l1 : FMap L1Sector
  epoch : Nat
  tlb : List TlbEntry
  icache : FMap CodeSector
  commits : FMap (List Nat)
  omLast : FMap Nat
  order : Nat
  deriving DecidableEq, Repr

/-- The scheduler of a core (R98, R101, R262-R270): the active set by position, the search position, the ready
queue, the slot whose vector stream issued last, the move on the transfer path, the blocks (slot and
block) that wait to be brought into place, in arrival order, the positions that were empty as the cycle began and are
not taken yet (R264), and the groups that are to rotate out once the form that they have issued completes (R263, R265). -/
structure Sched where
  active : Vector (Option Nat) 8
  rr : Nat
  readyQ : List Nat
  vlast : Nat
  move : Option Move
  requests : List (Nat × Nat)
  vacant : Nat
  rotating : NatSet
  deriving DecidableEq, Repr

/-- The fences of a core's units under test (R454): the cycle until which its vector issue is held, the cycles for which the
next start of a matrix table is still to be held once the stream is idle, and the cycle until which it is. -/
structure Fences where
  vector : Nat
  table : Nat
  tableTo : Nat
  deriving DecidableEq, Repr

/-- A compute core with its job (R256-R275, R66). `spmOld` holds, for the bytes that scalar stores have
overwritten in this cycle, their old values, which a vlds of the same cycle reads (R135). -/
structure Core where
  job : JobInfo
  groups : FMap Group
  sched : Sched
  j : Vector Word 16
  jpend : List (Nat × Nat × Word)
  spm : Memory
  spmPoison : NatSet
  spmOld : List (Nat × Byte)
  ports : Vector Port 16
  pipes : Pipes
  matrix : Matrix
  treadle : Treadle
  chans : Vector Chan 4
  eft : Eft
  rc : List RcEntry
  rcOrder : Nat
  mem : CoreMem
  demands : List Word
  places : Nat
  discarded : Nat
  fences : Fences := ⟨0, 0, 0⟩
  deriving DecidableEq, Repr

/-- A control-die core (R185): its scalar stream and its exception state (saved pc, cause, whether a trap
is outstanding and whether it was a TRAP), the trap entry, whether it is halted, stopped or waiting, its store errors, its
translations (R393), and the last cycles that the orders of its accesses give (R288, R307). -/
structure Control where
  sc : Scalar
  savedPc : Word
  savedCause : Nat
  outstanding : Bool
  wasTrap : Bool
  entry : Word
  halted : Bool
  stopped : Bool
  hold : Option Hold
  storeErrs : List StoreErr
  tlb : List TlbEntry
  omLast : FMap Nat
  deriving DecidableEq, Repr

/-- A fault record (R395), before it is laid out in 64 bytes. -/
structure FaultRecord where
  pcc : Nat
  aux : Word
  addr : Word
  pc : Word
  jobid : BitVec 32
  role : BitVec 32
  core : Nat
  die : Nat
  ctx : Nat
  slot : Nat
  stream : Nat
  jobrec : Bool
  replay : Bool
  cidx : Nat
  elem : Nat
  detail : Nat
  killed : Bool
  cause : Nat
  deriving DecidableEq, Repr

/-- A context (R386, R388): its descriptor, its fault-queue indices, the records raised and not yet
written, its presence mask (R398), whether it is killed and launches of it are still to complete (R410), and the stack areas
that the runtime has mapped for its launches, as virtual base, bytes and physical base (R376). -/
structure Ctx where
  fqlog : Nat
  fqbase : Nat
  valid : Bool
  func : Nat
  root : Nat
  fqt : BitVec 32
  fqh : BitVec 32
  held : List FaultRecord
  presence : NatSet
  killed : Bool
  areas : List (Nat × Nat × Nat) := []
  deriving DecidableEq, Repr

/-- A table entry in a die's walk cache (R393): context, level of the table that holds it, the virtual
address bits it translates, and the entry. -/
structure WalkCached where
  ctx : Nat
  level : Nat
  index : Nat
  entry : Nat
  deriving DecidableEq, Repr

/-- A hardware task queue (R276, R277): the launch it serves, its QUEUE value, its backing capacity, the
records of its ring and of its backing area in push order, whether a refill is under way, and since when its head
record has been the head. -/
structure TaskQueue where
  launch : Nat
  index : Nat
  cap : Nat
  ring : List (BitVec 256)
  backing : List (BitVec 256)
  refilling : Bool
  headSince : Nat
  deriving DecidableEq, Repr

/-- The group former of a die (R279): the queue it served last and the cycle of its next selection; and the
cycle from which the die's spill and refill path is free (R277). -/
structure Former where
  rr : Nat
  nextSel : Nat
  pathFree : Nat
  deriving DecidableEq, Repr

/-- A line of bonded DRAM in a slice's L2 ways (R286, R485): its number, and the cycle from which it is there. -/
structure L2Line where
  line : Nat
  since : Nat
  deriving DecidableEq, Repr

/-- A compute die (R288, R393, R464, R276): whether it is isolated or held in reset, its usable cores as
its capability table gives them, the DSM ways of its slices, the lines in their L2 ways by set (128 × slice + set, R485),
the translations that cores without a job keep (R407), its strip TLBs and walk cache, its task queues
and group former, its forced commits, the cycle of its last missed heartbeat, retired cores and disabled slices (R456). -/
structure Die where
  isolated : Bool
  inReset : Bool
  usable : Nat
  dsmWays : Nat
  l2 : FMap (List L2Line)
  tlbs : FMap (List TlbEntry)
  stlbs : FMap (List TlbEntry)
  wcache : List WalkCached
  queues : FMap TaskQueue
  former : Former
  fcommit : Nat
  missed : Option Nat
  retired : NatSet
  noWays : NatSet
  deriving DecidableEq, Repr

/-- A push on its way to a task queue or answered (R487): the pushing stream and lane, the die queue, the
record, the cycle its packet is delivered in and the one its answer is back in, the vector micro-order it
belongs to, the answer, and the cycle in which its packet leaves. -/
structure TaskPush where
  focus : Focus
  lane : Nat
  die : Nat
  queue : Nat
  record : BitVec 256
  back : Nat
  order : Nat
  refused : Option Bool
  sent : Nat := 0
  deriving DecidableEq, Repr

/-- A group that the former has started and that is not yet READY (R280, R281). -/
structure FormerStart where
  core : Nat
  slot : Nat
  kind : Nat
  records : List (BitVec 256)
  deriving DecidableEq, Repr

/-- What the check of a packet reads for its placement (R340, R341, R364, R376): the backing sizes of its task queues,
its member packages, the kernel's entry, rejoin word and header word, and its kinds. -/
structure LaunchInfo where
  caps : List Nat
  members : List Nat
  entry : Word
  rejoin : Word
  header : BitVec 32
  kinds : FMap Word
  deriving DecidableEq, Repr

/-- The head packet of a launch queue once it is copied and has passed R342 (R345, R347): its bytes, what its placement
needs, which wait signals have been read as satisfied, and since when it is eligible. -/
structure LHead where
  packet : BitVec 1024
  info : LaunchInfo
  sig0 : Bool
  sig1 : Bool
  eligible : Option Nat
  deriving DecidableEq, Repr

/-- A launch queue (R343, R344): QBASE, the fields of QCTL and QSTAT, the indices, whether a copy of the head
has begun, and the head. -/
structure LQueue where
  base : Nat
  enable : Bool
  devfed : Bool
  ctx : Nat
  log2 : Nat
  widx : BitVec 32
  ridx : BitVec 32
  overrun : Bool
  ignwr : Bool
  copying : Bool
  head : Option LHead
  deriving DecidableEq, Repr

/-- What pre-emption saved of a launch (R404, R407): the images of its jobs by role, and the cycle in which
the stop completed. -/
structure SavedJobs where
  stoppedAt : Nat
  images : FMap Core
  deriving DecidableEq, Repr

/-- A launch in flight on the package (R352, R354, R356-R358, R376): its queue and packet, placement sequence
number, dies by ordinal (8 for one that is lost), role binding table (role to core key), what its check has read, the
base of its stack area, its die queues (64 × ordinal + QUEUE to die queue), its status, whether it is to end early, the
port bytes it has discarded, the arrivals recorded for level 4 (PH4, member), the PH4 that its own arrival has been sent
with, and its pre-emption. -/
structure Launch where
  queue : Nat
  packet : BitVec 1024
  lseq : Nat
  dies : List Nat
  binding : FMap Nat
  info : LaunchInfo
  stack : Word
  tqs : FMap Nat
  status : Nat
  ended : Bool
  invalid : Bool
  discard : Nat
  recorded : List (Nat × Nat)
  sentPh4 : Option (BitVec 32)
  stopReq : Option Nat
  saved : Option SavedJobs
  deriving DecidableEq, Repr

/-- A slot table entry of a code object (R370). -/
structure SlotEntry where
  off : Nat
  seg : Nat
  nameh : Nat
  ty : Nat
  scope : Nat
  deriving DecidableEq, Repr

/-- A loaded code object (R362-R374): context, CODEOBJ, where its pages stand, its image in the backing
store, pages verified and failed, its slots with the values that the load has given them and those that launch-scope slots
have now (R371), its ROOT, the pages that hold code, and for each class 2 kernel the blocks that it has (R379). -/
structure CodeObject where
  ctx : Nat
  va : Nat
  phys : Nat
  npage : Nat
  image : Memory
  verified : NatSet
  failed : NatSet
  slots : List SlotEntry
  values : FMap Nat
  current : FMap Nat
  root : Nat
  code : List Nat
  blocks : FMap (List Nat)
  deriving DecidableEq, Repr

/-- A TLBINV or ICINV that awaits its acknowledgements (R186, R399): the walks that must end first and the
cycle of the last acknowledgement. -/
structure Shootdown where
  walks : List Nat
  due : Nat
  deriving DecidableEq, Repr

/-- The launch scheduler's state (R343-R357, R359): the queues, the launches in flight, the last queue placed
from at each level, the reserving queue with the dies it holds, and the next placement sequence number. -/
structure Hub where
  queues : FMap LQueue
  launches : FMap Launch
  rr : Vector Nat 4
  reserve : Option (Nat × List Nat)
  lseq : Nat
  deriving DecidableEq, Repr

/-- The moult queue and its release ring (R402, R403): queued pages with their window tags, the ring's
registers. -/
structure Moult where
  pages : List (Nat × Nat)
  mrbase : Nat
  mrt : BitVec 32
  mrh : BitVec 32
  deriving DecidableEq, Repr

/-- An MSI-X table entry (R431, R437). -/
structure MsixEntry where
  addr : Word
  data : BitVec 32
  masked : Bool
  deriving DecidableEq, Repr

/-- A PCI Express function (R430-R437): WIN2, its MSI-X table and pending bits, whether its IDE stream is
insecure, whether ATS and PRI are on, and its dropped BAR2 writes and requests. -/
structure HostFn where
  winBase : Nat
  winCtx : Nat
  msix : FMap MsixEntry
  pending : NatSet
  insecure : Bool
  ats : Bool
  pri : Bool
  dropped : Nat
  deriving DecidableEq, Repr

/-- An ATS invalidation that awaits requests already translated through the dropped entry (R434). -/
structure AtsInval where
  ctx : Nat
  page : Nat
  left : List Nat
  deriving DecidableEq, Repr

/-- The host link (R430-R437): whether it is trained, the functions, HOSTBASE, the translation cache (context, page, translated page) and
the invalidations in progress. -/
structure HostLink where
  trained : Bool
  fns : FMap HostFn
  base : FMap Nat
  atc : List (Nat × Nat × Nat)
  invals : List AtsInval
  deriving DecidableEq, Repr

/-- A link of the fabric die (R419-R422, R428, R429): state, whether it is being retrained, and the negotiated version; per
request and reply channel (0 to 7) the flits sent, the last return received, the credits, and as a receiver the flits
returned; flits since the last audit flit; the sequence number of the next flit and the replay buffer, which keeps the last 256 flits
by number with their channels (R419); the flit that was retried last, its retries in a row, and retrainings in a row; the counters. -/
structure Link where
  up : Bool
  dead : Bool
  retraining : Bool
  major : Nat
  minor : Nat
  sent : Vector (BitVec 16) 8
  retLast : Vector (BitVec 16) 8
  credits : Vector Nat 8
  ret : Vector (BitVec 16) 8
  sinceAudit : Nat
  seq : BitVec 8
  kept : List (BitVec 8 × Nat)
  retried : Option (BitVec 8)
  retries : Nat
  retrains : Nat
  crcRetry : BitVec 32
  credFix : BitVec 32
  cnSent : BitVec 32
  discard : BitVec 32
  deriving DecidableEq, Repr

/-- What the package puts out: MSI-X messages, arrival messages and answers to other packages, replies and
notices to the torus, requests that only pass through, link flits, requests and completions of the host link, attestation reports. -/
inductive Output where
  | msix (fn : Nat) (vec : Nat) (addr : Word) (data : BitVec 32)
  | arrival (dest : Nat) (m : FabricArrival)
  | reply (dest : Nat) (tag : Nat) (gen : Nat) (value : Nat) (err : Option DataError)
  | notice (dest : Nat) (about : Nat)
  | forward (link : Nat) (chan : Nat) (req : RemoteRequest)
  | credit (link : Nat) (ret : List (BitVec 16)) (audit : Bool)
  | auditFlit (link : Nat) (sent : List (BitVec 16))
  | resent (link : Nat) (flits : List (BitVec 8 × Nat))
  | atsRequest (id : Nat) (fn : Nat) (pasid : Nat) (addr : Word)
  | hostRequest (id : Nat) (fn : Nat) (pasid : Nat) (addr : Word) (isTranslated : Bool) (size : Nat) (data : Option Nat)
  | hostRead (fn : Nat) (data : Option (List Byte)) (poisoned : Bool)
  | unsupported (fn : Nat)
  | pageRequest (id : Nat) (fn : Nat) (pasid : Nat) (addr : Word)
  | atsDone (ctx : Nat) (page : Nat)
  | attestation (data : List Byte)
  | attestationRefused
  | loadRefused (ctx : Nat) (va : Nat) (detail : Nat)
  deriving DecidableEq, Repr

/-- What a packet at the fabric die's router is: the request or commit message of an own access, a packet of other packages that
passes through, or a reply or a notice. -/
inductive FabItem where
  | own (id : Nat)
  | transit (q : RemoteRequest)
  | back (out : Output)
  deriving DecidableEq, Repr

/-- A packet that waits at the router for its output channel (R415, R416, R420): the package that its leg goes to, the destination
behind an intermediate package (R413), its flits, the quiescence window of an access of another package that it answers (R402), and
the cycle since which it waits there (R425). -/
structure FabPkt where
  item : FabItem
  dest : Nat
  final : Option Nat
  flits : Nat
  window : Option Nat
  since : Nat
  deriving DecidableEq, Repr

/-- A fabric tag (R425, R426): the generation it had last, the access it stands for while outstanding, the
quiescence window a timed-out access keeps counting in while the tag is withheld; and of the request that goes under it the
package, its flits and its own window (R401, R424), and its intermediate package (R413). -/
structure FabTag where
  gen : Nat
  access : Option Nat
  withheld : Option Nat
  dest : Nat := 0
  flits : Nat := 0
  window : Nat := 0
  mid : Option Nat := none
  deriving DecidableEq, Repr

/-- The congestion window toward a package (R424): its size, the request flits outstanding, and the cycle of
the last notice that halved it and of the last notice. -/
structure FabWindow where
  wd : Nat
  flits : Nat
  halvedAt : Option Nat
  noticeAt : Option Nat
  deriving DecidableEq, Repr

/-- An arrival message that has been sent and not been recorded yet (R341): the launch, the member it goes to with its
coordinates, the message, and the cycle in which it is due to be sent again once the answer was NOT_YET. -/
structure FabSent where
  launch : Nat
  member : Nat
  dest : Nat
  msg : FabricArrival
  again : Option Nat
  deriving DecidableEq, Repr

/-- The fabric die (R341, R411, R424-R429): the arrival messages that are not recorded yet, the package's torus coordinates and the torus size, FTIMEOUT, links,
the dead-package table, counters, tags, windows, accesses that wait for a tag or a window, the notices sent
(port and source to cycle), the packets that wait at the router, and whether the die is lost. -/
structure Fabric where
  arrivals : List FabSent
  coord : Nat
  sizeX : Nat
  sizeY : Nat
  sizeZ : Nat
  timeout : Nat
  links : Vector Link 6
  deadPkg : NatSet
  stalerep : BitVec 32
  timeouts : BitVec 32
  cnrecv : BitVec 32
  tags : FMap FabTag
  windows : FMap FabWindow
  waiting : List Nat
  notices : FMap Nat
  queue : List FabPkt
  lost : Bool
  deriving DecidableEq, Repr

/-- A plain store of a core of another package, pending at a home of this one (R417, R293): the writer by
coordinates, die and core, its place in that core's order, its class, the bytes, and whether they are poisoned (R446). -/
structure RemoteStore where
  src : Nat
  die : Nat
  core : Nat
  order : Nat
  cls : Nat
  pa : Nat
  size : Nat
  value : Nat
  poison : Bool
  deriving DecidableEq, Repr

/-- The platform controller (R452-R480): BOOTSTAT's fields, whether an alarm has stopped the start, whether the start is a restart out of
minimal mode, whether a level-2 alarm has been raised in it, the NV store (FAILCNT, ARB, helper data, spare maps and retired units as
(class, index, core, die)), the helper data from which stage 0 has derived the identity key, the
configuration record's fields, the measurement log (type, index, digest), the error-log ring registers and counters, the self-tests that are
outstanding in arrival order, the units that their spares stand in for during a test (R454), the transient verdicts so far (unit, cycle), the control die's state, the cycles since which dies are out of their
temperature range, and telemetry: the power, the idle cycles that the power manager has inserted, whether it caps this window. -/
structure Pfc where
  ready : Bool
  minimal : Bool
  stopped : Bool
  alarm : Nat
  reason : Nat
  stage : Nat
  restart : Bool
  startAlarm : Bool
  failcnt : Nat
  arb : Nat
  helper : Option Nat
  spareMap : List (Nat × Nat × Nat × Nat)
  retired : List (Nat × Nat × Nat × Nat)
  identity : Option Nat
  secver : Nat
  adv : Nat
  keys : List Nat
  plim : Nat
  debug : Bool
  locked : Bool
  badUnlocks : Nat
  measured : List (Nat × Nat × Nat)
  elbase : Nat
  elEnable : Bool
  elVec : Nat
  elLog2 : Nat
  elt : BitVec 32
  elh : BitVec 32
  ellost : BitVec 32
  tests : List TestUnit
  steered : List (Nat × Nat × Nat × Nat)
  transients : List (Nat × Nat × Nat × Nat × Nat)
  ctlLost : Bool
  ctlEntry : Word
  ctlFails : Nat
  ctlMissed : Option Nat
  hotSince : FMap Nat
  temps : FMap Int
  pwr : Nat
  capcyc : Nat
  capping : Bool
  irqdrop : Nat
  deriving DecidableEq, Repr

/-- A flit on a ring of a die network (R118-R120): the die, the ring (0 to 15 the welt rows, 16 + station the spines), the
lane slot that it rides in, numbered by its coordinate in cycle 0, and the cycle in which it leaves it. -/
structure Ride where
  die : Nat
  ring : Nat
  slot : Nat
  last : Nat
  deriving DecidableEq, Repr

/-- An output that a flit takes in a cycle (R120): the die, whether it is an ejection port or a turn, its row and its
station. -/
structure Claim where
  die : Nat
  eject : Bool
  row : Nat
  station : Nat
  cycle : Nat
  deriving DecidableEq, Repr

/-- Room of a packet in the reassembly buffer of a station (R121): its flits, from the arrival of the first to its
delivery. -/
structure Parcel where
  die : Nat
  row : Nat
  station : Nat
  flits : Nat
  first : Nat
  last : Nat
  deriving DecidableEq, Repr

/-- The die networks (R118-R121): the flits on the rings, the outputs taken, the reassembly buffers. -/
structure Net where
  rides : List Ride
  claims : List Claim
  parcels : List Parcel
  deriving DecidableEq, Repr

/-- Bytes of a peer binding on the welt chains (R121, R166): the outbound and the inbound core and port, the
sequence number of the chunk, the bytes with their mask bits and marks of poison, the cycle in which they left, and those in which
the two ports were bound: the bytes of a binding that has ended enter no later one. -/
structure Flight where
  srcCore : Nat
  srcPort : Nat
  core : Nat
  port : Nat
  number : Nat
  bytes : List PortByte
  left : Nat
  srcSince : Nat := 0
  since : Nat := 0
  deriving DecidableEq, Repr

/-! ### Values at the start -/

/-- A register file at group start but for s29 and s31 (R66, R37-R40). -/
def RegFile.reset : RegFile := ⟨Vector.replicate 32 0, 0, 0, 0, 0, []⟩

/-- A scalar stream before it starts; SHAPE resets to 16 × 16 (R69). -/
def Scalar.reset : Scalar := ⟨0, RegFile.reset, none, 0xFF, [], [], 0, 0, 0⟩

/-- A vector stream that is not busy. -/
def VStream.idle : VStream := ⟨false, 0, 0, false, 0, 0xFF, 0, none, [], [], 0, none, false, false, false⟩

/-- A group slot with nothing started in it. -/
def Group.empty : Group :=
  { kindId := 0xFF, seq := 0, status := .ready, sc := Scalar.reset, k := Vector.replicate 4 0, ret := 0,
    preds := Vector.replicate 8 (BitVec.allOnes 1024), vregs := [], vpoison := [], v := VStream.idle, blocks := [],
    hold := none, arrived := none, enteredAt := 0, leftAt := 0, readyAt := 0, storeErrs := [],
    traps := [] }

/-- A port at job start: unbound and empty (R66). -/
def Port.unbound : Port := ⟨.unbound, 0, 0, [], [], 0, [], 0, 0, 0, 0, 0⟩

/-- A weight bank at job start: zero codes, scale 0, tag L8 (R228). -/
def Bank.reset : Bank := ⟨[], [], 1, [], 0, 0⟩

/-- The matrix stream at job start (R228). -/
def Matrix.reset : Matrix :=
  { acc := [], accPoison := [], banks := Vector.replicate 2 Bank.reset, act := 0, fq := [], stamp := none,
    t0 := 0, mflags := 0, run := none, rows := [], drains := [], loads := [], zeroings := [], window := none,
    replay := none, aFree := 0, wlFree := 0, drFree := 0, nextIssue := 0, cmds := 0, pendFlags := [] }

/-- The treadle controller at job start (R314-R316). -/
def Treadle.reset : Treadle :=
  { tbeat := 0, tdla := 0, tdnext := 0, tmiss := 0, tstate := 0, look := 0, bp := 0, rpb := 0, nb := 0,
    strict := false, slot := 0, missed := 0, segMissed := 0, waiting := [], sent := [], raiseTo := 0, endAt := 0,
    beats := 0, nextDemand := 0, part := 0 }

/-- A clicker channel at job start (R66, R155). -/
def Chan.reset : Chan := ⟨0, Vector.replicate 6 0, none⟩

/-- The eft stream at job start (R66). -/
def Eft.reset : Eft := ⟨Scalar.reset, false, 0, 0, none, false, [], false⟩

/-- The pipes of a vector unit that has issued nothing. -/
def Pipes.idle : Pipes := ⟨0, 0, 0, 0, 0, 0, 0⟩

/-- The scheduler of a core whose job has no group. -/
def Sched.reset : Sched := ⟨Vector.replicate 8 none, 0, [], 31, none, [], 0, []⟩

/-- The memory side of a core at job start: no lease, epoch 0 (R299, R312). -/
def CoreMem.reset : CoreMem := ⟨[], [], 0, [], [], [], [], 0⟩

/-- A job of nothing. -/
def JobInfo.blank : JobInfo :=
  { launch := 0, ctx := 0, role := 0, jobid := 0, slots := 0, launchGroups := 0, twin := false,
    dmr := Vector.replicate 4 0, ph := Vector.replicate 5 0, schedctl := 0, start := 0, seqNext := 0,
    spmSize := 0, storePlaces := 0, compat := false, arrival := none, arriving := none, stopping := none,
    stopReady := false, matrixStop := none, ending := none, rejoin := false, killed := false }

/-- A core at job start, before its job is placed (R66). -/
def Core.empty : Core :=
  { job := JobInfo.blank, groups := [], sched := Sched.reset, j := Vector.replicate 16 0, jpend := [],
    spm := [], spmPoison := [], spmOld := [], ports := Vector.replicate 16 Port.unbound, pipes := Pipes.idle,
    matrix := Matrix.reset, treadle := Treadle.reset, chans := Vector.replicate 4 Chan.reset, eft := Eft.reset,
    rc := [], rcOrder := 0, mem := CoreMem.reset, demands := [], places := 0, discarded := 0 }

/-- A control-die core before its firmware starts; the spec gives its registers no reset value, and the
model's are 0 (DESIGN CHOICE, log 3; unsafe). -/
def Control.reset : Control := ⟨Scalar.reset, 0, 0, false, false, 0, false, true, none, [], [], []⟩

/-- A context descriptor at reset (R386). -/
def Ctx.reset : Ctx := ⟨0, 0, false, 0, 0, 0, 0, [], [], false, []⟩

/-- A compute die before stage 4 of start-up: held in reset (R468). -/
def Die.reset : Die :=
  { isolated := false, inReset := true, usable := 192, dsmWays := 0, l2 := [], tlbs := [], stlbs := [], wcache := [], queues := [],
    former := ⟨63, 0, 0⟩, fcommit := 0, missed := none, retired := [], noWays := [] }

/-- A link that is not trained. -/
def Link.reset : Link :=
  { up := false, dead := false, retraining := false, major := 0, minor := 0, sent := Vector.replicate 8 0,
    retLast := Vector.replicate 8 0, credits := Vector.replicate 8 64, ret := Vector.replicate 8 0, sinceAudit := 0,
    seq := 0, kept := [], retried := none, retries := 0, retrains := 0, crcRetry := 0, credFix := 0, cnSent := 0, discard := 0 }

/-- The fabric die before torus training: a torus of one package at the origin (DESIGN CHOICE, log 6). -/
def Fabric.reset : Fabric :=
  { arrivals := [], coord := 0, sizeX := 1, sizeY := 1, sizeZ := 1, timeout := 50, links := Vector.replicate 6 Link.reset,
    deadPkg := [], stalerep := 0, timeouts := 0, cnrecv := 0, tags := [], windows := [], waiting := [],
    notices := [], queue := [], lost := false }

/-- A launch queue at reset (R344, R345). -/
def LQueue.reset : LQueue := ⟨0, false, false, 0, 4, 0, 0, false, false, false, none⟩

/-- A packet that has read nothing. -/
def LaunchInfo.none : LaunchInfo := ⟨[], [], 0, 0, 0, []⟩

/-- The launch scheduler before its first round (R352). -/
def Hub.reset : Hub := ⟨[], [], Vector.replicate 4 63, none, 0⟩

/-- The moult queue at reset (R403). -/
def Moult.reset : Moult := ⟨[], 0, 0, 0⟩

/-- A function after function reset (R432, R437). -/
def HostFn.reset : HostFn := ⟨0, 0, [], [], false, false, false, 0⟩

/-- The host link before training. -/
def HostLink.reset : HostLink := ⟨false, [], [], [], []⟩

/-- The platform controller before DEVICE_RESET has run a stage: BOOTSTAT 0 (R471), a blank NV store with
helper data present (DESIGN CHOICE, log 13). -/
def Pfc.reset : Pfc :=
  { ready := false, minimal := false, stopped := false, alarm := 0, reason := 0, stage := 0, restart := false,
    startAlarm := false, failcnt := 0, arb := 0, helper := some 0,
    spareMap := [], retired := [], identity := none, secver := 0, adv := 0, keys := [], plim := 0, debug := false,
    locked := false, badUnlocks := 0, measured := [], elbase := 0, elEnable := false, elVec := 0, elLog2 := 8,
    elt := 0, elh := 0, ellost := 0, tests := [], steered := [], transients := [], ctlLost := false, ctlEntry := 0,
    ctlFails := 0, ctlMissed := none, hotSince := [], temps := [], pwr := 0, capcyc := 0, capping := false, irqdrop := 0 }

/-- The poisoned granules of memory (R446): those marked one by one, and the ranges (first granule, count) that a lost die
left poisoned as a whole (R466), but for the granules cleared since. -/
structure Poison where
  marks : NatSet
  lost : List (Nat × Nat)
  cleared : NatSet
  deriving DecidableEq, Repr

/-- What a hardware fault strikes (R445, R454, R455, R490): a word of the matrix engine, of the register pool (a cell of a register of
its block), of a scalar register file, of the scratchpad, of a sector in L1 (with its way) or in the instruction cache (with its place), of
a slice's bank, of a version buffer's entry; a codeword of DRAM; a line of the hub's directory; a PE row or column, a vector lane
pair; a lane of a UCIe port. -/
inductive StrikeSite where
  | matrix (core : Nat) (site : ReplaySite)
  | pool (core block reg cell : Nat)
  | scalar (core slot reg : Nat)
  | spm (core word : Nat)
  | l1 (core sector granule way : Nat)
  | icache (core sector granule place : Nat)
  | slice (pa bank : Nat)
  | version (pa entry : Nat)
  | memory (pa : Nat)
  | directory (pa : Nat)
  | row (core n : Nat)
  | column (core n : Nat)
  | lanes (core pair : Nat)
  | ucie (die lane : Nat)
  deriving DecidableEq, Repr

/-- An error that the hardware detects (R445): where, whether the code corrects it, whether the unit fails its test (R453), and
the syndrome. -/
structure Strike where
  site : StrikeSite
  isCorrected : Bool
  isLasting : Bool
  synd : Nat
  deriving DecidableEq, Repr

/-- The whole machine: the cycle counter, the stream of the step, committed memory and its poison, the cores,
the control die, the contexts, dies, fabric, hub, host link and platform controller; the accesses, walks,
packets, pushes, starts and shootdowns in flight; the events due and put in; the hardware errors to come with their cycles, the units
(class, index, core, die) that fail their tests, and the 512-byte lines whose directory state is lost (R427, R445); what is still to
do in this cycle; and the counter that the free values are read at. -/
structure State where
  pcc : Nat
  cur : Focus
  mem : Memory
  poison : Poison
  cores : FMap Core
  control : Vector Control 16
  ctxs : FMap Ctx
  dies : FMap Die
  fabric : Fabric
  net : Net
  hub : Hub
  objects : FMap CodeObject
  moult : Moult
  host : HostLink
  pfc : Pfc
  qwin : Nat
  accs : FMap Access
  walks : FMap Walk
  flights : FMap Flight
  pushes : FMap TaskPush
  starts : FMap FormerStart
  shoots : FMap Shootdown
  remote : List RemoteStore
  nextId : Nat
  agenda : List (Nat × Event)
  inputs : List (Nat × Event)
  strikes : List (Nat × Strike)
  faults : List (Nat × Nat × Nat × Nat)
  lostDir : NatSet
  todo : List Focus
  outputs : List Output
  free : Nat
  deriving DecidableEq, Repr

/-- The package right after reset. -/
def State.reset : State :=
  { pcc := 0, cur := ⟨0, 0, .group⟩, mem := [], poison := ⟨[], [], []⟩, cores := [],
    control := Vector.replicate 16 Control.reset, ctxs := [], dies := [], fabric := Fabric.reset, net := ⟨[], [], []⟩, hub := Hub.reset,
    objects := [], moult := Moult.reset, host := HostLink.reset, pfc := Pfc.reset, qwin := 0,
    accs := [], walks := [], flights := [], pushes := [], starts := [], shoots := [], remote := [], nextId := 1,
    agenda := [], inputs := [], strikes := [], faults := [], lostDir := [], todo := [], outputs := [], free := 0 }

end Sys2Proof.Machine
end

