-- ==== Sys2Proof/Machine/Ops.lean ====
section
/-! DEFINITION. The named operations over the machine's registers and streams: reading and writing
registers, the stream a step belongs to, the schedule of events, taking an exception and returning from one. -/

namespace Sys2Proof.Machine

/-- What a meaning answers. -/
abbrev Out := Host.Outcome State Fault Refusal

/-! ### Cores and groups -/

/-- The compute core of a key. -/
def State.core (s : State) (k : Nat) : Core := s.cores.getD k Core.empty

def State.setCore (s : State) (k : Nat) (c : Core) : State := { s with cores := s.cores.set k c }

def State.modCore (s : State) (k : Nat) (f : Core → Core) : State := s.setCore k (f (s.core k))

/-- Changes a core that is there. -/
def State.modLive (s : State) (k : Nat) (f : Core → Core) : State := if s.cores.has k then s.modCore k f else s

/-- The core that the step's stream belongs to. -/
def State.here (s : State) : Core := s.core s.cur.core

def State.modHere (s : State) (f : Core → Core) : State := s.modCore s.cur.core f

/-- The group in a slot. -/
def Core.group (c : Core) (g : Nat) : Group := c.groups.getD g Group.empty

def Core.setGroup (c : Core) (g : Nat) (x : Group) : Core := { c with groups := c.groups.set g x }

def Core.modGroup (c : Core) (g : Nat) (f : Group → Group) : Core := c.setGroup g (f (c.group g))

/-- A clicker channel; numbers past the fourth wrap. -/
def Core.chan (c : Core) (n : Nat) : Chan := c.chans[n % 4]'(by omega)

def Core.modChan (c : Core) (n : Nat) (f : Chan → Chan) : Core :=
  { c with chans := c.chans.set (n % 4) (f (c.chan n)) (by omega) }

/-- The group that the step's stream belongs to. -/
def State.grp (s : State) : Group := s.here.group s.cur.slot

def State.modGrp (s : State) (f : Group → Group) : State := s.modHere fun c => c.modGroup s.cur.slot f

/-- The die of a core's key, and its physical index there (R118). -/
def dieOf (key : Nat) : Nat := key / Config.coresPerDie
def physOf (key : Nat) : Nat := key % Config.coresPerDie

/-- A control-die core; numbers past the sixteenth wrap. -/
def State.ctl (s : State) (n : Nat) : Control := s.control[n % 16]'(by omega)

def State.modCtl (s : State) (n : Nat) (f : Control → Control) : State :=
  { s with control := s.control.set (n % 16) (f (s.ctl n)) (by omega) }

/-- A context's entry in the hub. -/
def State.ctx (s : State) (n : Nat) : Ctx := s.ctxs.getD n Ctx.reset

def State.modCtx (s : State) (n : Nat) (f : Ctx → Ctx) : State := { s with ctxs := s.ctxs.set n (f (s.ctx n)) }

/-! ### Poisoned granules of memory (R446, R447, R466) -/

/-- Whether a granule lies in a range that a lost die left poisoned. -/
def Poison.inLost (p : Poison) (g : Nat) : Bool := p.lost.any fun r => decide (r.1 ≤ g) && decide (g < r.1 + r.2)

def Poison.has (p : Poison) (g : Nat) : Bool := p.marks.has g || (p.inLost g && !p.cleared.has g)

def Poison.add (p : Poison) (g : Nat) : Poison :=
  if p.inLost g then { p with cleared := p.cleared.del g } else { p with marks := p.marks.add g }

def Poison.del (p : Poison) (g : Nat) : Poison :=
  { p with marks := p.marks.del g, cleared := if p.inLost g then p.cleared.add g else p.cleared }

/-- Clears the n granules from g on. -/
def Poison.clear (p : Poison) (g n : Nat) : Poison := ((List.range n).map fun i => g + i).foldl Poison.del p

/-- Poisons the n granules from g on as one range. -/
def Poison.lose (p : Poison) (g n : Nat) : Poison :=
  let out (k : Nat) : Bool := !(decide (g ≤ k) && decide (k < g + n))
  { marks := p.marks.filter out, cleared := p.cleared.filter out
    lost := if p.lost.contains (g, n) then p.lost else p.lost ++ [(g, n)] }

/-! ### Registers -/

/-- x[n] of a register file; register 0 reads as zero (R54). -/
def RegFile.get (r : RegFile) (n : BitVec 5) : Word :=
  if n = 0 then 0 else r.x[n.toNat]'(by have := n.isLt; omega)

/-- Writes x[n]; a write of register 0 is discarded (R54). -/
def RegFile.put (r : RegFile) (n : BitVec 5) (v : Word) : RegFile :=
  if n = 0 then r
  else { r with x := r.x.set n.toNat v (by have := n.isLt; omega), poison := r.poison.del n.toNat }

/-- ORs bits into FLAGS (R42). -/
def RegFile.raise (r : RegFile) (fl : Nat) : RegFile := { r with flags := r.flags ||| BitVec.ofNat 32 fl }

/-- The scalar stream of the step (R122): a group's, the eft stream's or a control-die core's. -/
def State.scalar (s : State) : Scalar :=
  match s.cur.stream with
  | .eft => s.here.eft.sc
  | .control => (s.ctl s.cur.core).sc
  | _ => s.grp.sc

def State.modScalar (s : State) (f : Scalar → Scalar) : State :=
  match s.cur.stream with
  | .eft => s.modHere fun c => { c with eft := { c.eft with sc := f c.eft.sc } }
  | .control => s.modCtl s.cur.core fun c => { c with sc := f c.sc }
  | _ => s.modGrp fun g => { g with sc := f g.sc }

/-- The register file that a scalar instruction reads (the slot-2k copy of a twin group, R283). -/
def State.rf (s : State) : RegFile := s.scalar.rf

/-- x[n] as the step's scalar stream reads it. -/
def State.x (s : State) (n : BitVec 5) : Word := s.rf.get n

/-- Applies a change to both register files of a twin group (R283). -/
def Scalar.mapFiles (sc : Scalar) (f : RegFile → RegFile) : Scalar :=
  { sc with rf := f sc.rf, twin := sc.twin.map f }

/-- Records that register d is written with a latency (R98, R99). -/
def Scalar.mark (sc : Scalar) (now lat : Nat) (d : BitVec 5) : Scalar :=
  { sc with
    ready := if d = 0 then sc.ready else sc.ready.set d.toNat (now + lat)
    done := max sc.done (now + lat) }

/-- The next pc after a word that is no taken transfer (R122); the next instruction issues from the next
cycle (R99). -/
def Scalar.advance (sc : Scalar) (now : Nat) : Scalar :=
  { sc with pc := sc.pc + 4, nextIssue := now + 1 }

/-- Ends the wait of the step's scalar stream. -/
def State.clearHold (s : State) : State :=
  match s.cur.stream with
  | .eft => s.modHere fun c => { c with eft := { c.eft with hold := none } }
  | .control => s.modCtl s.cur.core fun c => { c with hold := none }
  | _ => s.modGrp fun g => { g with hold := none }

/-- The wait of the step's scalar stream. -/
def State.holding (s : State) : Option Hold :=
  match s.cur.stream with
  | .eft => s.here.eft.hold
  | .control => (s.ctl s.cur.core).hold
  | _ => s.grp.hold

/-- Notes the word that a scalar stream executes. -/
def State.noteWord (s : State) (w : BitVec 32) : State := s.modScalar fun sc => { sc with word := w }

/-- Puts the step's scalar stream into a wait; a wait already begun keeps its first cycle (R149). -/
def State.holdFor (s : State) (w : Wait) : State :=
  let since := match s.holding with
    | some h => h.since
    | none => s.pcc
  match s.cur.stream with
  | .eft => s.modHere fun c => { c with eft := { c.eft with hold := some ⟨since, w, none⟩ } }
  | .control => s.modCtl s.cur.core fun c => { c with hold := some ⟨since, w, none⟩ }
  | _ => s.modGrp fun g => { g with hold := some ⟨since, w, none⟩ }

/-- The step's scalar stream finishes its instruction: f is applied, and the stream moves on. -/
def State.finish (s : State) (f : Scalar → Scalar) : State :=
  (s.modScalar fun sc => (f sc).advance s.pcc).clearHold

/-- An instruction that writes x[d] := f in each register file, with latency lat (R99, R283). -/
def State.finishWrite (s : State) (d : BitVec 5) (lat : Nat) (f : RegFile → Word) : State :=
  s.finish fun sc => (sc.mapFiles fun r => r.put d (f r)).mark s.pcc lat d

/-- As `finishWrite`, with flags raised (R33, R35). -/
def State.finishFlags (s : State) (d : BitVec 5) (lat : Nat) (f : RegFile → Word × Nat) : State :=
  s.finish fun sc => (sc.mapFiles fun r => (r.put d (f r).1).raise (f r).2).mark s.pcc lat d

/-- A taken control transfer to t: the next instruction issues after the given cost (R99). -/
def State.jump (s : State) (t : Word) (cost : Nat) (f : Scalar → Scalar) : State :=
  (s.modScalar fun sc => { f sc with pc := t, nextIssue := s.pcc + cost }).clearHold

/-! ### The schedule of events -/

/-- Puts an event at its cycle, behind those already due in it. -/
def putEvent : List (Nat × Event) → Nat → Event → List (Nat × Event)
  | [], t, e => [(t, e)]
  | (u, f) :: rest, t, e => if t < u then (t, e) :: (u, f) :: rest else (u, f) :: putEvent rest t e

def State.schedule (s : State) (t : Nat) (e : Event) : State := { s with agenda := putEvent s.agenda t e }

/-- Runs f with the step's stream set to another, and sets it back. -/
def State.at (s : State) (f : Focus) (g : State → State) : State := { g { s with cur := f } with cur := s.cur }

/-- Takes the next number of the free-value counter. -/
def State.tick (s : State) : State := { s with free := s.free + 1 }

/-! ### Taking an exception (R10, R11, R74, R184, R185) -/

def causeEncoding : Nat := 0x01
def causeOperand : Nat := 0x02
def causeSchedule : Nat := 0x03
def causeMiss : Nat := 0x04
def causeFormatQueue : Nat := 0x05
def causeSegment : Nat := 0x06
def causeTwin : Nat := 0x07
def causeAlignment : Nat := 0x08
def causeTranslation : Nat := 0x09
def causeProtection : Nat := 0x0A
def causePoison : Nat := 0x0B
def causeRemote : Nat := 0x0C
def causePhase : Nat := 0x0D
def causeStarve : Nat := 0x0E
def causeIntegrity : Nat := 0x0F
def causeTrap : Nat := 0x10

/-- What a trap carries into its fault record (R395-R397). -/
structure TrapArgs where
  cause : Nat
  addr : Word := 0
  aux : Word := 0
  detail : Nat := 0
  elem : Nat := 0
  cidx : Nat := 0
  pc : Option Word := none
  deriving DecidableEq, Repr

/-- The pc of the step's word, in whichever stream it is. -/
def State.curPc (s : State) : Word :=
  match s.cur.stream with
  | .vector => s.grp.v.pc
  | .matrix => (s.here.matrix.run.map (·.pc)).getD 0
  | .chan n => ((s.here.chan n).run.map (·.pc)).getD 0
  | _ => s.scalar.pc

/-- The STREAM code of the fault record (R395). -/
def Stream.code : Stream → Nat
  | .group => 0x0
  | .vector => 0x1
  | .matrix => 0x2
  | .chan n => 0x3 + n
  | .eft => 0x7
  | .control => 0xF

/-- The slot of the group that a trap of the step's stream is charged to (R74). -/
def State.chargedSlot (s : State) : Nat :=
  match s.cur.stream with
  | .matrix => (s.here.matrix.run.map (·.owner)).getD s.cur.slot
  | .chan n => ((s.here.chan n).run.map (·.owner)).getD s.cur.slot
  | .eft => s.here.eft.owner
  | _ => s.cur.slot

/-- Whether a group can still be charged: it is there and has not executed JOIN (R74). -/
def Core.chargeable (c : Core) (slot : Nat) : Bool :=
  match c.groups.get slot with
  | some g => decide (g.status ≠ .joined)
  | none => false

/-- Whether the engine stream of the step was started by a group that has since left its slot (R74, R489). -/
def State.orphaned (s : State) : Bool :=
  match s.cur.stream with
  | .matrix => s.here.matrix.run.any (·.orphan)
  | .chan n => (s.here.chan n).run.any (·.orphan)
  | .eft => s.here.eft.orphan
  | _ => false

/-- Takes a group out of the active set and the ready queue. -/
def Core.withdraw (c : Core) (slot : Nat) : Core :=
  { c with sched := { c.sched with
      active := c.sched.active.map fun p => if p = some slot then none else p
      readyQ := c.sched.readyQ.filter fun g => decide (g ≠ slot)
      rotating := c.sched.rotating.filter fun g => decide (g ≠ slot) } }

/-- TSTATE with another REASON and STATE (R316). -/
def Treadle.toState (t : Treadle) (reason state : Nat) : Treadle :=
  { t with tstate := BitVec.ofNat 32 (t.tstate.toNat / 65536 * 65536 + reason * 256 + t.tstate.toNat / 8 % 2 * 8 + state) }

/-- A trap of the matrix stream ends a treadle run with REASON 6 (R324). -/
def Core.endTreadle (c : Core) (reason : Nat) : Core :=
  if c.matrix.run.any (·.treadle) && decide (c.treadle.tstate.toNat % 8 < 4) then
    { c with treadle := c.treadle.toState reason 4 }
  else c

/-- Whether a load, a drain or a replay still has accesses of a matrix command to make. -/
def Matrix.works (m : Matrix) (cmd : Nat) : Bool :=
  (m.loads.any fun (l : MLoad) => decide (l.cmd = cmd)) || (m.drains.any fun (d : MDrain) => decide (d.cmd = cmd)) ||
    m.replay.any fun r => r.cmds.any fun (k : Nat × WCmd) => decide (k.2.cmd = cmd)

/-- A command of the matrix stream that has entered the range checker and will not issue gives its entry up: it has no access
to complete (R117). -/
def Core.dropUnissued (c : Core) : Core :=
  { c with rc := c.rc.filter fun (e : RcEntry) => decide (e.source ≠ 0) || e.complete || c.matrix.works e.cmd }

/-- Stops the engine stream that raised a trap at its faulting word (R74). -/
def Core.stopStream (c : Core) (slot : Nat) : Stream → Core
  | .vector => c.modGroup slot fun g => { g with v := { g.v with stopped := true, seg := none } }
  | .matrix =>
    let c := ({ c with matrix := { c.matrix with replay := none } }.endTreadle 6).dropUnissued
    { c with matrix := { c.matrix with run := c.matrix.run.map fun r => { r with trapped := true, seg := none, ea := none } } }
  | .chan n => c.modChan n fun ch => { ch with run := ch.run.map fun r => { r with trapped := true } }
  | .eft => { c with eft := { c.eft with trapped := true } }
  | _ => c

/-- Whether a form that waits so has issued: it goes on without the issue slot (R149, R189). -/
def Wait.lasts : Wait → Bool
  | .resource => false
  | .load _ => false
  | .walk _ => false
  | .start => false
  | _ => true

/-- Whether a form that waits so executes again from its first step once the group, suspended or pre-empted, goes on (R149). -/
def Wait.again : Wait → Bool
  | .count .. => true
  | .countAt .. => true
  | .blocks .. => true
  | .demand _ => true
  | .packetWalk _ => true
  | _ => false

/-- Whether a wait outlives a trap of the group: it is over, or what it has asked for is on its way or kept. -/
def Hold.outlives (h : Hold) : Bool := h.granted.isSome || (h.wait.lasts && !h.wait.again)

/-- Suspends the charged group: TRAPPED, its KEEP latch cleared, the open segment of its vector stream, which issues no
more until the group is resumed, closed without a check (R12, R61, R74, R115, R260, R267). A wait whose request is
on its way is kept; any other form has not issued and executes again on resume (R149). A block that has not begun to commit
is left without an effect (R381). -/
def Group.suspend (g : Group) (now : Nat) (t : TrapInfo) : Group :=
  { g with status := .trapped, leftAt := now, traps := g.traps ++ [t], v := { g.v with latch := none, seg := none },
           hold := g.hold.filter Hold.outlives, block := g.block.filter (·.committing) }

/-- Appends a fault record to those a context's queue is to receive, and makes its writing due (R388). -/
def State.record (s : State) (r : FaultRecord) : State :=
  (s.modCtx r.ctx fun c => { c with held := c.held ++ [r] }).schedule s.pcc (.faultRecordWrite r.ctx)

/-- Whether the faulting step replays when the group is resumed (R396). -/
def replays (cause : Nat) : Bool := decide (cause = causeTranslation)

/-! ### Detected errors (R445, R452, R454) -/

/-- Whether two errors strike one unit. -/
def sameUnit (u v : TestUnit) : Bool :=
  decide (u.uclass = v.uclass) && decide (u.index = v.index) && decide (u.core = v.core) && decide (u.die = v.die)

/-- The entry of a unit in the spare map and among the retired and the faulty units. -/
def mapEntry (u : TestUnit) : Nat × Nat × Nat × Nat := (u.uclass, u.index, u.core, u.die)

/-- The kind of spare that stands in for a unit: an array's row or column, a slice's bank, a link's lane. -/
def spareKind (u : TestUnit) : Option (Nat × Nat) :=
  match u.uclass with
  | 0x01 => some (1, 0)
  | 0x02 => some (2, 0)
  | 0x03 => some (1, 0)
  | 0x0A => some (3, u.index / 16)
  | 0x0F => some (4, u.index)
  | 0x10 => some (5, u.index)
  | _ => none

/-- An entry of the spare map as a unit. -/
def mapUnit (x : Nat × Nat × Nat × Nat) : TestUnit :=
  { uclass := x.1, index := x.2.1, core := x.2.2.1, die := x.2.2.2, addr := 0, synd := 0, sev := 0, action := 0, detected := 0 }

/-- Whether an entry takes the spare that a unit would take. -/
def takesSpare (u : TestUnit) (x : Nat × Nat × Nat × Nat) : Bool :=
  decide (spareKind (mapUnit x) = spareKind u) && decide (x.2.2.1 = u.core) && decide (x.2.2.2 = u.die)

/-- Whether the spare for a unit is still free (R455): it stands in for no other, for good or during a test (R454). -/
def State.spareFree (s : State) (u : TestUnit) : Bool :=
  (spareKind u).isSome && !(s.pfc.spareMap.any (takesSpare u)) &&
    !(s.pfc.steered.any fun x => takesSpare u x && decide (x ≠ mapEntry u))

/-- The spare of a unit stands in for it while it is tested, where it is free (R454). -/
def State.steer (s : State) (u : TestUnit) : State :=
  if s.spareFree u && !s.pfc.steered.contains (mapEntry u) then
    { s with pfc := { s.pfc with steered := s.pfc.steered ++ [mapEntry u] } }
  else s

/-- The contexts with a job on a core, or where none is named on a die, as CTXMASK has them (R460). -/
def State.jobMask (s : State) (core die : Nat) (lines : NatSet) : Nat :=
  let on (key : Nat) : Bool :=
    if core < 200 then decide (key = Config.coresPerDie * die + core)
    else decide (die < 8) && decide (key < Config.controlBase) && decide (dieOf key = die)
  let ctxs := (s.cores.filter fun (c : Nat × Core) => on c.1).map fun (c : Nat × Core) => c.2.job.ctx
  ((ctxs ++ lines).foldl NatSet.add ([] : NatSet)).foldl (fun n c => n + pow2 (c % 64)) 0

/-- A self-test begins; it ends within 50 µs of the error (R452). It fails where the unit is faulty (R453, R454); which units are is
put in with the errors that strike them (log 29). -/
def State.startTest (s : State) (u : TestUnit) : State :=
  (s.schedule (s.pcc + 1 + Config.freeDelay s.free % 99999) (.selfTestComplete u (!s.faults.contains (mapEntry u)))).tick

/-- An error in a tested unit: 64 tests run at once and further ones wait; an error in a unit whose test is outstanding
joins that test (R452). -/
def State.detect (s : State) (u : TestUnit) : State :=
  let l := s.pfc.tests
  if l.any fun v => sameUnit v u then s
  else
    let v := { u with mask := s.jobMask u.core u.die [] }
    let s1 := { s with pfc := { s.pfc with tests := l ++ [v] } }
    if l.length < 64 then s1.startTest v else s1

/-- Fences the units of a core that a check failure of one of its streams puts under test (R454): a matrix stream's next table is
held once the stream is idle, the core's vector issue from now on, for up to 20 µs: a free value. -/
def Core.fence (c : Core) (matrix : Bool) (now hold : Nat) : Core :=
  { c with fences := if matrix then { c.fences with table := max c.fences.table hold } else { c.fences with vector := max c.fences.vector (now + hold) } }

/-- A check failure of a core's stream (R445, R454): the unit that is tested is the issue logic, the sequencer or the twin
group's lanes. Its signature has no given value, and its index is one fixed value for each such unit of a core. -/
def State.checkFailure (s : State) (cause : Nat) (action : Nat := 2) : State :=
  if cause ≠ causeSegment ∧ cause ≠ causeTwin then s
  else
    let matrix := decide (s.cur.stream = .matrix)
    ((s.modHere fun c => c.fence matrix s.pcc (Config.freeDelay (s.free + 2) % 40001)).detect
      { uclass := if cause = causeTwin then 0x15 else 0x14, core := physOf s.cur.core
        index := Config.unitIndex (if cause = causeTwin then 2 else if matrix then 1 else 0) % 65536
        die := dieOf s.cur.core, addr := 0, synd := Config.freeWord (s.free + 1) % pow2 64, sev := 2, action
        detected := s.pcc }).tick.tick.tick

/-- A trap of a compute core's stream (R10, R74): the stream stops at the faulting word, the charged
group is suspended, and the record goes to the context's fault queue. CODE_INTEGRITY ends the launch (R375). -/
def State.trapCompute (s : State) (t : TrapArgs) : State :=
  let slot := s.chargedSlot
  let c := s.here
  let charged := c.chargeable slot && !s.orphaned
  let pc := t.pc.getD s.curPc
  let c1 := c.stopStream s.cur.slot s.cur.stream
  let c2 := if charged then
      (c1.withdraw slot).modGroup slot fun g => g.suspend s.pcc ⟨t.cause, pc, s.cur.stream, replays t.cause, t.addr, t.aux, t.cidx, t.elem⟩
    else c1
  let s1 := (s.setCore s.cur.core c2).record
    { pcc := s.pcc, aux := t.aux, addr := t.addr, pc, jobid := c.job.jobid, role := c.job.role,
      core := physOf s.cur.core, die := dieOf s.cur.core, ctx := c.job.ctx, slot, stream := s.cur.stream.code,
      jobrec := !charged, replay := replays t.cause, cidx := t.cidx, elem := t.elem, detail := t.detail,
      killed := false, cause := t.cause }
  if t.cause = causeIntegrity then s1.schedule s.pcc (.codeIntegrityTermination c.job.launch) else s1.checkFailure t.cause

/-- A trap of a control-die core (R185): the pc and the cause are saved and the core continues at the trap
entry; a second trap before ERET stops it, which the PFC is told. -/
def State.trapControl (s : State) (t : TrapArgs) : State :=
  let c := s.ctl s.cur.core
  if c.outstanding then
    (s.modCtl s.cur.core fun c => { c with stopped := true, hold := none }).schedule s.pcc (.controlCoreReset (s.cur.core % 16))
  else
    s.modCtl s.cur.core fun c =>
      { c with savedPc := c.sc.pc, savedCause := t.cause, outstanding := true,
               wasTrap := decide (t.cause = causeTrap), hold := none,
               sc := { c.sc with pc := c.entry, nextIssue := s.pcc + 1 } }

/-- RaiseTrap of R10: no effect of the current instruction follows it. -/
def State.raiseTrap (s : State) (t : TrapArgs) : State :=
  match s.cur.stream with
  | .control => s.trapControl t
  | _ => s.trapCompute t

/-- The return from an exception of a control-die core (R185): the saved pc, or the word after a TRAP. -/
def State.returnFromTrap (s : State) : State :=
  s.modCtl s.cur.core fun c =>
    { c with outstanding := false, hold := none,
             sc := { c.sc with pc := if c.wasTrap then c.savedPc + 4 else c.savedPc, nextIssue := s.pcc + 1 } }

/-- The destination package in AUX (R427). -/
def packageAux (pkg : Option Nat) : Word := BitVec.ofNat 64 (pkg.getD 0 % 4096 * 65536)

/-- Answers the trap. -/
def trapWith (s : State) (t : TrapArgs) : Out := .next (s.raiseTrap t)

def trap (s : State) (cause : Nat) : Out := trapWith s { cause }

/-- Goes on where a check passes, and traps with the cause where it fails. -/
def check (ok : Bool) (cause : Nat) (s : State) (k : Out) : Out := if ok then k else trap s cause

/-! ### Streams and fields -/

/-- Whether the step's stream is one of those that a form accepts: the group scalar stream, the eft
stream, a control-die core (R77). -/
def State.streamIn (s : State) (g e c : Bool) : Bool :=
  match s.cur.stream with
  | .group => g
  | .eft => e
  | .control => c
  | _ => false

/-- A form outside the stream's subset is ILLEGAL_ENCODING (R45). -/
def onStreams (g e c : Bool) (s : State) (k : Out) : Out := check (s.streamIn g e c) causeEncoding s k

/-- An engine word with a UNIT that its form does not take: ILLEGAL_OPERAND on the stream that has engine words (R45, R53, R72). -/
def refuseUnit (s : State) : Out := onStreams true false false s (trap s causeOperand)

/-- A register field of the eft stream names e0-e15 only (R54). -/
def State.fieldOk (s : State) (n : BitVec 5) : Bool :=
  decide (s.cur.stream ≠ .eft) || decide (n.toNat < 16)

/-- Register fields in their class, or ILLEGAL_OPERAND (R54, check 2 of R72). -/
def withFields (ns : List (BitVec 5)) (s : State) (k : Out) : Out := check (ns.all s.fieldOk) causeOperand s k

/-- Whether one of the registers is poisoned in the step's file, or in the second file of a twin group (R283, R448). -/
def State.readsPoison (s : State) (ns : List (BitVec 5)) : Bool :=
  ns.any fun n => s.rf.poison.has n.toNat || s.scalar.twin.any fun r => r.poison.has n.toNat

/-- A scalar instruction that reads a poisoned register traps with POISON and has no effect (R448). -/
def withReads (ns : List (BitVec 5)) (s : State) (k : Out) : Out := check (!s.readsPoison ns) causePoison s k

/-- Bytes b to e of a dispatch packet, little-endian (R338). -/
def pkt (p : BitVec 1024) (b e : Nat) : Nat := fld p.toNat (8 * e + 7) (8 * b)

def pktContext (p : BitVec 1024) : Nat := pkt p 0x02 0x02 % 64

/-- Whether a launch of a context is in flight. -/
def State.launched (s : State) (ctx : Nat) : Bool :=
  s.hub.launches.any fun (l : Nat × Launch) => decide (pktContext l.2.packet = ctx)

/-- A telemetry counter, saturating (R429, R480). -/
def bump (n : Nat) : Nat := min (n + 1) 0xFFFFFFFF
def bump32 (n : BitVec 32) : BitVec 32 := BitVec.ofNat 32 (bump n.toNat)

end Sys2Proof.Machine
end

