-- ==== Sys2Proof/Machine/Alu.lean ====
section
/-! DEFINITION. The integer family, the immediate, bit-field and constant forms, and the job-register
forms of the scalar streams (R124-R129). -/

namespace Sys2Proof.Machine

/-- A register-register form (R124): accepted on every scalar stream (R77). -/
def alu (d a b : BitVec 5) (lat : Nat) (f : Word → Word → Word) (s : State) : Out :=
  onStreams true true true s <| withFields [d, a, b] s <| withReads [a, b] s <|
    .next (s.finishWrite d lat fun r => f (r.get a) (r.get b))

/-- A form with one register source and an immediate (R125, R126). -/
def aluImm (d a : BitVec 5) (f : Word → Word) (s : State) : Out :=
  onStreams true true true s <| withFields [d, a] s <| withReads [a] s <|
    .next (s.finishWrite d 1 fun r => f (r.get a))

/-- sext(v, w) to 64 bits of a number of w bits (R122). -/
def sext (n : Nat) (v : BitVec n) : Word := v.signExtend 64

/-- The low 32 bits sign-extended (R124). -/
def sextW (v : Word) : Word := (v.setWidth 32).signExtend 64

def boolWord (b : Bool) : Word := if b then 1 else 0

/-- Truncating signed division; by zero all ones, and the most negative value by -1 wraps (R35). -/
def divSigned (a b : Word) : Word := if b = 0 then BitVec.allOnes 64 else a.sdiv b
def remSigned (a b : Word) : Word := if b = 0 then a else a.srem b
def divUnsigned (a b : Word) : Word := if b = 0 then BitVec.allOnes 64 else a / b
def remUnsigned (a b : Word) : Word := if b = 0 then a else a % b

/-- Bits 127:64 of the signed product (R124). -/
def mulHigh (a b : Word) : Word := BitVec.ofInt 64 (a.toInt * b.toInt / (pow2 64 : Nat))
def mulHighU (a b : Word) : Word := BitVec.ofNat 64 (a.toNat * b.toNat / pow2 64)

/-- The number of leading zero bits, 0-64 (R124). -/
def countLeading (a : Word) : Nat := if a = 0 then 64 else 63 - Nat.log2 a.toNat

/-- The number of zero bits below the lowest one bit, at most n (R124). -/
def countTrailing : Nat → Nat → Nat
  | 0, _ => 0
  | n + 1, w => if w % 2 = 1 then 0 else 1 + countTrailing n (w / 2)

/-- The number of one bits among the low n (R124). -/
def countOnes : Nat → Nat → Nat
  | 0, _ => 0
  | n + 1, w => w % 2 + countOnes n (w / 2)

/-- The low n bytes in reverse order (R124). -/
def reverseBytes : Nat → Nat → Nat
  | 0, _ => 0
  | n + 1, w => w % 256 * pow2 (8 * n) + reverseBytes n (w / 256)

def execAdd (d a b : BitVec 5) (s : State) : Out := alu d a b 1 (fun a b => a + b) s
def execSub (d a b : BitVec 5) (s : State) : Out := alu d a b 1 (fun a b => a - b) s
def execAnd (d a b : BitVec 5) (s : State) : Out := alu d a b 1 (fun a b => a &&& b) s
def execOr (d a b : BitVec 5) (s : State) : Out := alu d a b 1 (fun a b => a ||| b) s
def execXor (d a b : BitVec 5) (s : State) : Out := alu d a b 1 (fun a b => a ^^^ b) s
def execAndn (d a b : BitVec 5) (s : State) : Out := alu d a b 1 (fun a b => a &&& ~~~b) s
def execSll (d a b : BitVec 5) (s : State) : Out := alu d a b 1 (fun a b => a <<< (b.toNat % 64)) s
def execSrl (d a b : BitVec 5) (s : State) : Out := alu d a b 1 (fun a b => a >>> (b.toNat % 64)) s
def execSra (d a b : BitVec 5) (s : State) : Out := alu d a b 1 (fun a b => a.sshiftRight (b.toNat % 64)) s
def execRotr (d a b : BitVec 5) (s : State) : Out := alu d a b 1 (fun a b => a.rotateRight (b.toNat % 64)) s
def execSlt (d a b : BitVec 5) (s : State) : Out := alu d a b 1 (fun a b => boolWord (a.slt b)) s
def execSltu (d a b : BitVec 5) (s : State) : Out := alu d a b 1 (fun a b => boolWord (a.ult b)) s
def execMin (d a b : BitVec 5) (s : State) : Out := alu d a b 1 (fun a b => if a.slt b then a else b) s
def execMax (d a b : BitVec 5) (s : State) : Out := alu d a b 1 (fun a b => if a.slt b then b else a) s
def execMinu (d a b : BitVec 5) (s : State) : Out := alu d a b 1 (fun a b => if a.ult b then a else b) s
def execMaxu (d a b : BitVec 5) (s : State) : Out := alu d a b 1 (fun a b => if a.ult b then b else a) s
def execMul (d a b : BitVec 5) (s : State) : Out := alu d a b 3 (fun a b => a * b) s
def execMulh (d a b : BitVec 5) (s : State) : Out := alu d a b 3 mulHigh s
def execMulhu (d a b : BitVec 5) (s : State) : Out := alu d a b 3 mulHighU s
def execDiv (d a b : BitVec 5) (s : State) : Out := alu d a b 20 divSigned s
def execDivu (d a b : BitVec 5) (s : State) : Out := alu d a b 20 divUnsigned s
def execRem (d a b : BitVec 5) (s : State) : Out := alu d a b 20 remSigned s
def execRemu (d a b : BitVec 5) (s : State) : Out := alu d a b 20 remUnsigned s
def execAddw (d a b : BitVec 5) (s : State) : Out := alu d a b 1 (fun a b => sextW (a + b)) s
def execSubw (d a b : BitVec 5) (s : State) : Out := alu d a b 1 (fun a b => sextW (a - b)) s
def execMulw (d a b : BitVec 5) (s : State) : Out := alu d a b 3 (fun a b => sextW (a * b)) s
def execSllw (d a b : BitVec 5) (s : State) : Out := alu d a b 1 (fun a b => sextW (a <<< (b.toNat % 32))) s
def execSrlw (d a b : BitVec 5) (s : State) : Out :=
  alu d a b 1 (fun a b => sextW ((a.setWidth 32 >>> (b.toNat % 32)).setWidth 64)) s
def execSraw (d a b : BitVec 5) (s : State) : Out :=
  alu d a b 1 (fun a b => sextW ((sextW a).sshiftRight (b.toNat % 32))) s
def execClz (d a : BitVec 5) (s : State) : Out :=
  aluImm d a (fun a => BitVec.ofNat 64 (countLeading a)) s
def execCtz (d a : BitVec 5) (s : State) : Out :=
  aluImm d a (fun a => BitVec.ofNat 64 (countTrailing 64 a.toNat)) s
def execPopc (d a : BitVec 5) (s : State) : Out :=
  aluImm d a (fun a => BitVec.ofNat 64 (countOnes 64 a.toNat)) s
def execBswap (d a : BitVec 5) (s : State) : Out :=
  aluImm d a (fun a => BitVec.ofNat 64 (reverseBytes 8 a.toNat)) s

/-- SEL reads its destination as the condition before it writes it (R124). -/
def execSel (d a b : BitVec 5) (s : State) : Out :=
  onStreams true true true s <| withFields [d, a, b] s <| withReads [d, a, b] s <|
    .next (s.finishWrite d 1 fun r => if r.get d ≠ 0 then r.get a else r.get b)

/-! ### Immediates (R125, R126) -/

def execAddi (d a : BitVec 5) (imm : BitVec 16) (s : State) : Out := aluImm d a (fun a => a + sext 16 imm) s
def execAndi (d a : BitVec 5) (imm : BitVec 16) (s : State) : Out := aluImm d a (fun a => a &&& imm.setWidth 64) s
def execOri (d a : BitVec 5) (imm : BitVec 16) (s : State) : Out := aluImm d a (fun a => a ||| imm.setWidth 64) s
def execXori (d a : BitVec 5) (imm : BitVec 16) (s : State) : Out := aluImm d a (fun a => a ^^^ imm.setWidth 64) s
def execSlti (d a : BitVec 5) (imm : BitVec 16) (s : State) : Out :=
  aluImm d a (fun a => boolWord (a.slt (sext 16 imm))) s
def execSltiu (d a : BitVec 5) (imm : BitVec 16) (s : State) : Out :=
  aluImm d a (fun a => boolWord (a.ult (sext 16 imm))) s
def execSlli (d a : BitVec 5) (n : BitVec 6) (s : State) : Out := aluImm d a (fun a => a <<< n.toNat) s
def execSrli (d a : BitVec 5) (n : BitVec 6) (s : State) : Out := aluImm d a (fun a => a >>> n.toNat) s
def execSrai (d a : BitVec 5) (n : BitVec 6) (s : State) : Out := aluImm d a (fun a => a.sshiftRight n.toNat) s

/-! ### Bit fields (R127) -/

/-- The length of the field, cut where it would pass bit 63 (R127). -/
def fieldLength (p l : BitVec 6) : Nat := min (l.toNat + 1) (64 - p.toNat)

/-- The field of a at p, as a number (R127). -/
def extractField (p l : BitVec 6) (a : Word) : Nat := a.toNat / pow2 p.toNat % pow2 (fieldLength p l)

def execBfx (d a : BitVec 5) (p l : BitVec 6) (s : State) : Out :=
  aluImm d a (fun a => BitVec.ofNat 64 (extractField p l a)) s

def execBfxS (d a : BitVec 5) (p l : BitVec 6) (s : State) : Out :=
  aluImm d a (fun a => wordOfInt (sextNat (extractField p l a) (fieldLength p l))) s

def execBfi (d a : BitVec 5) (p l : BitVec 6) (s : State) : Out :=
  onStreams true true true s <| withFields [d, a] s <| withReads [d, a] s <|
    .next (s.finishWrite d 1 fun r =>
      let mask : Word := BitVec.ofNat 64 (pow2 (fieldLength p l) - 1) <<< p.toNat
      (r.get d &&& ~~~mask) ||| ((r.get a <<< p.toNat) &&& mask))

/-! ### Constants (R128) -/

/-- A form with no register source. -/
def constForm (d : BitVec 5) (v : Word) (s : State) : Out :=
  onStreams true true true s <| withFields [d] s <| .next (s.finishWrite d 1 fun _ => v)

def execLi (d : BitVec 5) (imm : BitVec 21) (s : State) : Out := constForm d (sext 21 imm) s
def execLih (d : BitVec 5) (imm : BitVec 21) (s : State) : Out := constForm d (imm.setWidth 64 <<< 43) s
def execAdpc (d : BitVec 5) (imm : BitVec 21) (s : State) : Out :=
  constForm d (s.scalar.pc + sext 21 imm * 4) s

/-! ### Job registers (R129, R67) -/

/-- j[n] as every stream reads it in this cycle: writes of this cycle are not yet seen (R67). -/
def Core.jreg (c : Core) (n : Nat) : Word := c.j[n % 16]'(by omega)

/-- A write of j[n] in this cycle: it takes place at the cycle's end, in ascending slot order, the eft
stream counting as slot 32 (R67). -/
def Core.jwrite (c : Core) (rank n : Nat) (v : Word) : Core := { c with jpend := c.jpend ++ [(rank, n % 16, v)] }

/-- A J field names j0-j15 (R54). -/
def jFieldOk (n : BitVec 5) : Bool := decide (n.toNat < 16)

/-- The rank of the step's stream among the writers of a job register (R67). -/
def State.jrank (s : State) : Nat := if s.cur.stream = .eft then 32 else s.cur.slot

def execJget (d a : BitVec 5) (s : State) : Out :=
  onStreams true true false s <| withFields [d] s <| check (jFieldOk a) causeOperand s <|
    .next (s.finishWrite d 1 fun _ => s.here.jreg a.toNat)

def execJset (d a : BitVec 5) (s : State) : Out :=
  onStreams true true false s <| withFields [a] s <| check (jFieldOk d) causeOperand s <| withReads [a] s <|
    .next ((s.modHere fun c => c.jwrite s.jrank d.toNat (s.x a)).finish id)

/-- NOP takes one issue slot and has no other effect (R76). -/
def execNop (s : State) : Out := onStreams true true true s <| .next (s.finish id)

end Sys2Proof.Machine
end

