-- ==== Sys2Proof/Machine/Float.lean ====
section
/-! DEFINITION. The linear floating-point types and the device's IEEE choices (R32-R36): values as exact
dyadic numbers, one rounding per result, the flags of R37. -/

namespace Sys2Proof.Machine

/-- A binary interchange format: the widths of its exponent and fraction fields (R32). -/
structure Fmt where
  ebits : Nat
  fbits : Nat
  deriving DecidableEq, Repr

def Fmt.f64 : Fmt := ⟨11, 52⟩
def Fmt.f32 : Fmt := ⟨8, 23⟩
def Fmt.f16 : Fmt := ⟨5, 10⟩
def Fmt.bf16 : Fmt := ⟨8, 7⟩

/-- The exponent bias of a format. -/
def Fmt.bias (f : Fmt) : Nat := pow2 (f.ebits - 1) - 1

/-- The number of bits of a format. -/
def Fmt.width (f : Fmt) : Nat := 1 + f.ebits + f.fbits

/-- The place of the sign bit, as a number. -/
def Fmt.signBit (f : Fmt) : Nat := pow2 (f.ebits + f.fbits)

/-- The canonical NaN of a format (R32): a quiet NaN with no other payload bit. -/
def Fmt.nan (f : Fmt) : Nat := (pow2 f.ebits - 1) * pow2 f.fbits + pow2 (f.fbits - 1)

/-- An infinity of a format. -/
def Fmt.inf (f : Fmt) (neg : Bool) : Nat :=
  (pow2 f.ebits - 1) * pow2 f.fbits + (if neg then f.signBit else 0)

/-- A zero of a format. -/
def Fmt.zero (f : Fmt) (neg : Bool) : Nat := if neg then f.signBit else 0

/-- The largest finite magnitude of a format. -/
def Fmt.maxFinite (f : Fmt) (neg : Bool) : Nat :=
  (pow2 f.ebits - 1) * pow2 f.fbits - 1 + (if neg then f.signBit else 0)

/-- The value of a floating-point datum: a NaN, an infinity, or the number (-1)^neg × m × 2^e. -/
inductive FVal where
  | nan (signalling : Bool)
  | inf (neg : Bool)
  | fin (neg : Bool) (m : Nat) (e : Int)
  deriving DecidableEq, Repr

/-- Reads a bit pattern in a format; subnormals are kept (R33). -/
def Fmt.read (f : Fmt) (w : Nat) : FVal :=
  let frac := w % pow2 f.fbits
  let ex := w / pow2 f.fbits % pow2 f.ebits
  let neg := decide (w / f.signBit % 2 = 1)
  if ex = pow2 f.ebits - 1 then
    if frac = 0 then .inf neg else .nan (decide (frac < pow2 (f.fbits - 1)))
  else if ex = 0 then .fin neg frac (1 - (f.bias : Int) - f.fbits)
  else .fin neg (frac + pow2 f.fbits) ((ex : Int) - f.bias - f.fbits)

/-- The rounding modes of R34. -/
inductive Rm where
  | rne | rtz | rup | rdn
  deriving DecidableEq, Repr

/-- The rounding mode of a two-bit code (R34). -/
def Rm.ofCode (c : Nat) : Rm :=
  match c % 4 with
  | 0 => .rne
  | 1 => .rtz
  | 2 => .rup
  | _ => .rdn

/-- The flag bits of R37. -/
def flagNX : Nat := 1
def flagUF : Nat := 2
def flagOF : Nat := 4
def flagDZ : Nat := 8
def flagNV : Nat := 16

/-- A result and the flags it raises (R37). -/
structure FRes where
  bits : Nat
  flags : Nat
  deriving DecidableEq, Repr

/-- Whether the quotient n of m by 2^k, with remainder r ≠ 0, is rounded away from zero (R34). -/
def roundsUp (rm : Rm) (neg : Bool) (n r k : Nat) : Bool :=
  match rm with
  | .rne => decide (2 * r > pow2 k) || (decide (2 * r = pow2 k) && decide (n % 2 = 1))
  | .rtz => false
  | .rup => !neg && decide (r ≠ 0)
  | .rdn => neg && decide (r ≠ 0)

/-- m × 2^e as a multiple of 2^q, rounded by the mode; and whether that is inexact. -/
def roundAt (rm : Rm) (neg : Bool) (m : Nat) (e q : Int) : Nat × Bool :=
  if q ≤ e then (m * pow2 (e - q).toNat, false)
  else
    let k := (q - e).toNat
    let n := m / pow2 k
    let r := m % pow2 k
    (if roundsUp rm neg n r k then n + 1 else n, decide (r ≠ 0))

/-- The number of bits of a positive number. -/
def bitLen (m : Nat) : Nat := if m = 0 then 0 else Nat.log2 m + 1

/-- The result of an overflow (R33, R34): infinity, or the largest finite number where the mode turns
away from it. -/
def Fmt.overflow (f : Fmt) (rm : Rm) (neg : Bool) : FRes :=
  let toInf := match rm with
    | .rne => true
    | .rtz => false
    | .rup => !neg
    | .rdn => neg
  ⟨if toInf then f.inf neg else f.maxFinite neg, flagOF + flagNX⟩

/-- Rounds the nonzero real (-1)^neg × m × 2^e to a format: one rounding, subnormals kept, tininess
detected after rounding (R33). -/
def Fmt.roundNZ (f : Fmt) (rm : Rm) (neg : Bool) (m : Nat) (e : Int) : FRes :=
  let lead : Int := (bitLen m : Int) - 1 + e
  let emin : Int := 1 - (f.bias : Int)
  let q := max (lead - f.fbits) (emin - f.fbits)
  let (n, inexact) := roundAt rm neg m e q
  let biased := (q + f.fbits + f.bias).toNat
  let mag := biased * pow2 f.fbits + n - pow2 f.fbits
  if mag ≥ (pow2 f.ebits - 1) * pow2 f.fbits then f.overflow rm neg
  else
    let (n', _) := roundAt rm neg m e (lead - f.fbits)
    let tiny := decide (lead < emin) && !(decide (lead = emin - 1) && decide (n' ≥ pow2 (f.fbits + 1)))
    ⟨mag + (if neg then f.signBit else 0),
      (if inexact then flagNX else 0) + (if inexact && tiny then flagUF else 0)⟩

/-- Rounds a real; `zneg` is the sign an exact zero takes. -/
def Fmt.round (f : Fmt) (rm : Rm) (zneg : Bool) (neg : Bool) (m : Nat) (e : Int) : FRes :=
  if m = 0 then ⟨f.zero zneg, 0⟩ else f.roundNZ rm neg m e

/-- The signed number z × 2^e, rounded. -/
def Fmt.roundInt (f : Fmt) (rm : Rm) (zneg : Bool) (z : Int) (e : Int) : FRes :=
  f.round rm zneg (decide (z < 0)) z.natAbs e

/-- The signed integer of a finite value at the exponent q ≤ e. -/
def scaledTo (neg : Bool) (m : Nat) (e q : Int) : Int :=
  let z : Int := (m * pow2 (e - q).toNat : Nat)
  if neg then -z else z

def FVal.isNan : FVal → Bool
  | .nan _ => true
  | _ => false

def FVal.isSnan : FVal → Bool
  | .nan b => b
  | _ => false

def FVal.isZero : FVal → Bool
  | .fin _ m _ => decide (m = 0)
  | _ => false

def FVal.sign : FVal → Bool
  | .nan _ => false
  | .inf n => n
  | .fin n _ _ => n

def FVal.negate : FVal → FVal
  | .nan b => .nan b
  | .inf n => .inf (!n)
  | .fin n m e => .fin (!n) m e

/-- The canonical NaN, NV raised or not. -/
def Fmt.nanRes (f : Fmt) (nv : Bool) : FRes := ⟨f.nan, if nv then flagNV else 0⟩

/-- The sum of two values, rounded once (R33). An exact zero sum of opposite signs is +0, or -0 under RDN. -/
def Fmt.addV (f : Fmt) (rm : Rm) (x y : FVal) : FRes :=
  match x, y with
  | .nan a, y => f.nanRes (a || y.isSnan)
  | x, .nan b => f.nanRes (b || x.isSnan)
  | .inf a, .inf b => if a = b then ⟨f.inf a, 0⟩ else f.nanRes true
  | .inf a, .fin _ _ _ => ⟨f.inf a, 0⟩
  | .fin _ _ _, .inf b => ⟨f.inf b, 0⟩
  | .fin a m e, .fin b n k =>
    let q := min e k
    let zneg := if decide (m = 0) && decide (n = 0) && decide (a = b) then a else decide (rm = .rdn)
    f.roundInt rm zneg (scaledTo a m e q + scaledTo b n k q) q

/-- The product of two values as a value, or the NaN it makes with the NV it raises. -/
def mulV (x y : FVal) : FVal × Bool :=
  match x, y with
  | .nan a, y => (.nan false, a || y.isSnan)
  | x, .nan b => (.nan false, b || x.isSnan)
  | .inf a, .inf b => (.inf (xor a b), false)
  | .inf a, .fin b m _ => if m = 0 then (.nan false, true) else (.inf (xor a b), false)
  | .fin a m _, .inf b => if m = 0 then (.nan false, true) else (.inf (xor a b), false)
  | .fin a m e, .fin b n k => (.fin (xor a b) (m * n) (e + k), false)

def FRes.orFlags (r : FRes) (fl : Nat) : FRes := ⟨r.bits, r.flags ||| fl⟩

/-- A value rounded to a format. -/
def Fmt.roundV (f : Fmt) (rm : Rm) (x : FVal) : FRes :=
  match x with
  | .nan s => f.nanRes s
  | .inf a => ⟨f.inf a, 0⟩
  | .fin a m e => f.round rm a a m e

/-- The product, rounded once. -/
def Fmt.mulRes (f : Fmt) (rm : Rm) (x y : FVal) : FRes :=
  let (p, nv) := mulV x y
  (f.roundV rm p).orFlags (if nv then flagNV else 0)

/-- x × y + z, rounded once (R33): Inf × 0 raises NV whatever the addend. -/
def Fmt.fmaRes (f : Fmt) (rm : Rm) (x y z : FVal) : FRes :=
  let (p, nv) := mulV x y
  (f.addV rm p z).orFlags (if nv || z.isSnan then flagNV else 0)

/-- The quotient, rounded once; a finite nonzero dividend over a zero gives an infinity and DZ (R130). -/
def Fmt.divRes (f : Fmt) (rm : Rm) (x y : FVal) : FRes :=
  match x, y with
  | .nan a, y => f.nanRes (a || y.isSnan)
  | x, .nan b => f.nanRes (b || x.isSnan)
  | .inf _, .inf _ => f.nanRes true
  | .inf a, .fin b _ _ => ⟨f.inf (xor a b), 0⟩
  | .fin a _ _, .inf b => ⟨f.zero (xor a b), 0⟩
  | .fin a m e, .fin b n k =>
    if n = 0 then
      if m = 0 then f.nanRes true else ⟨f.inf (xor a b), flagDZ⟩
    else if m = 0 then ⟨f.zero (xor a b), 0⟩
    else
      let sh := f.fbits + 4 + bitLen n
      let num := m * pow2 sh
      let d := num / n
      let r := num % n
      f.roundNZ rm (xor a b) (2 * d + (if r = 0 then 0 else 1)) (e - k - sh - 1)

/-- One step of the integer square root: the root of m bit by bit, from 2^i down. -/
def isqrtAux (m : Nat) : Nat → Nat → Nat
  | 0, r => r
  | i + 1, r =>
    let t := r + pow2 i
    isqrtAux m i (if t * t ≤ m then t else r)

/-- The integer square root, rounded down. -/
def isqrt (m : Nat) : Nat := isqrtAux m (bitLen m / 2 + 1) 0

/-- The square root, rounded once; -0 gives -0, and a negative operand NaN with NV (R130). -/
def Fmt.sqrtRes (f : Fmt) (rm : Rm) (x : FVal) : FRes :=
  match x with
  | .nan s => f.nanRes s
  | .inf a => if a then f.nanRes true else ⟨f.inf false, 0⟩
  | .fin a m e =>
    if m = 0 then ⟨f.zero a, 0⟩
    else if a then f.nanRes true
    else
      let sh := 2 * (f.fbits + 4) + (e % 2).toNat
      let num := m * pow2 sh
      let r := isqrt num
      f.roundNZ rm false (2 * r + (if r * r = num then 0 else 1)) ((e - sh) / 2 - 1)

/-- The order of two finite or infinite values: whether x < y as reals, -0 equal to +0. -/
def ltV (x y : FVal) : Bool :=
  match x, y with
  | .inf a, .inf b => a && !b
  | .inf a, .fin _ _ _ => a
  | .fin _ _ _, .inf b => !b
  | .fin a m e, .fin b n k =>
    let q := min e k
    decide (scaledTo a m e q < scaledTo b n k q)
  | _, _ => false

/-- Equality of two values as reals; false for a NaN. -/
def eqV (x y : FVal) : Bool :=
  !x.isNan && !y.isNan && !ltV x y && !ltV y x

/-- minimumNumber and maximumNumber (R33): a NaN paired with a number is ignored, and -0 orders below
+0. The operands are bit patterns of the format. -/
def Fmt.minMax (f : Fmt) (wantMax : Bool) (a b : Nat) : FRes :=
  let x := f.read a
  let y := f.read b
  let nv := if x.isSnan || y.isSnan then flagNV else 0
  match x.isNan, y.isNan with
  | true, true => ⟨f.nan, nv⟩
  | true, false => ⟨b % pow2 f.width, nv⟩
  | false, true => ⟨a % pow2 f.width, nv⟩
  | false, false =>
    let xLess := ltV x y || (!ltV y x && x.sign && !y.sign)
    ⟨(if xor xLess wantMax then a else b) % pow2 f.width, nv⟩

/-- Equality compare (R33): NV only for a signalling NaN. -/
def Fmt.eqRes (f : Fmt) (a b : Nat) : FRes :=
  let x := f.read a
  let y := f.read b
  ⟨if eqV x y then 1 else 0, if x.isSnan || y.isSnan then flagNV else 0⟩

/-- Ordered compare (R33): NV for any NaN. -/
def Fmt.ltRes (f : Fmt) (a b : Nat) : FRes :=
  let x := f.read a
  let y := f.read b
  ⟨if ltV x y then 1 else 0, if x.isNan || y.isNan then flagNV else 0⟩

def Fmt.leRes (f : Fmt) (a b : Nat) : FRes :=
  let x := f.read a
  let y := f.read b
  ⟨if ltV x y || eqV x y then 1 else 0, if x.isNan || y.isNan then flagNV else 0⟩

/-- Arithmetic on bit patterns of one format. -/
def Fmt.add (f : Fmt) (rm : Rm) (a b : Nat) : FRes := f.addV rm (f.read a) (f.read b)
def Fmt.sub (f : Fmt) (rm : Rm) (a b : Nat) : FRes := f.addV rm (f.read a) (f.read b).negate
def Fmt.mul (f : Fmt) (rm : Rm) (a b : Nat) : FRes := f.mulRes rm (f.read a) (f.read b)
def Fmt.div (f : Fmt) (rm : Rm) (a b : Nat) : FRes := f.divRes rm (f.read a) (f.read b)
def Fmt.sqrt (f : Fmt) (rm : Rm) (a : Nat) : FRes := f.sqrtRes rm (f.read a)
def Fmt.fma (f : Fmt) (rm : Rm) (a b c : Nat) : FRes :=
  f.fmaRes rm (f.read a) (f.read b) (f.read c)

/-- A conversion between floating-point types: exact when widening, rounded when narrowing (R33). -/
def Fmt.convert (src dst : Fmt) (rm : Rm) (a : Nat) : FRes := dst.roundV rm (src.read a)

/-- A sign-bit change (R130, R197): no flag, and a NaN gives the canonical NaN. -/
def Fmt.abs (f : Fmt) (a : Nat) : FRes :=
  if (f.read a).isNan then ⟨f.nan, 0⟩ else ⟨a % f.signBit, 0⟩

def Fmt.neg (f : Fmt) (a : Nat) : FRes :=
  if (f.read a).isNan then ⟨f.nan, 0⟩
  else ⟨if a / f.signBit % 2 = 1 then a % f.signBit else a % f.signBit + f.signBit, 0⟩

/-- A floating-point value to an integer in lo..hi (R35): rounded first, then checked against the range. -/
def toInteger (rm : Rm) (lo hi : Int) (x : FVal) : Int × Nat :=
  match x with
  | .nan _ => (0, flagNV)
  | .inf a => (if a then lo else hi, flagNV)
  | .fin a m e =>
    let (n, inexact) := roundAt rm a m e 0
    let z : Int := if a then -(n : Int) else n
    if z < lo then (lo, flagNV)
    else if z > hi then (hi, flagNV)
    else (z, if inexact then flagNX else 0)

/-- An integer to a floating-point value (R35). -/
def Fmt.ofInteger (f : Fmt) (rm : Rm) (z : Int) : FRes := f.roundInt rm false z 0

end Sys2Proof.Machine
end

