-- ==== Sys2Proof/Machine/Fp.lean ====
section
/-! DEFINITION. The scalar floating-point family (R123, R130): the type bit selects FP32 or FP64, rounding
is RMODE.RM, and FLAGS are raised as R33 and R35 state. -/

namespace Sys2Proof.Machine

/-- The FP type of a scalar form (R130). -/
def fmtOf (t : BitVec 1) : Fmt := if t = 1 then Fmt.f64 else Fmt.f32

/-- An FP operand held in a register: bits 31:0 for FP32 (R123). -/
def fpIn (t : BitVec 1) (v : Word) : Nat := if t = 1 then v.toNat else v.toNat % pow2 32

/-- The rounding mode of a register file (R34, R38). -/
def RegFile.rm (r : RegFile) : Rm := Rm.ofCode (r.rmode.toNat % 4)

/-- A result and its flags as a register write; an FP32 result has bits 63:32 zero (R123). -/
def FRes.asWord (r : FRes) : Word × Nat := (BitVec.ofNat 64 r.bits, r.flags)

/-- A scalar FP form on the streams of OP 0x02 (R77), with its latencies for FP32 and FP64 (R99). -/
def fpForm (d : BitVec 5) (reads : List (BitVec 5)) (t : BitVec 1) (lat32 lat64 : Nat)
    (f : RegFile → Word × Nat) (s : State) : Out :=
  onStreams true false true s <| withReads reads s <|
    .next (s.finishFlags d (if t = 1 then lat64 else lat32) f)

def fp2 (d a b : BitVec 5) (t : BitVec 1) (f : Fmt → Rm → Nat → Nat → FRes) (s : State) : Out :=
  fpForm d [a, b] t 4 5 (fun r => (f (fmtOf t) r.rm (fpIn t (r.get a)) (fpIn t (r.get b))).asWord) s

def fp1 (d a : BitVec 5) (t : BitVec 1) (f : RegFile → Word → Word × Nat) (s : State) : Out :=
  fpForm d [a] t 4 5 (fun r => f r (r.get a)) s

def execFadd (d a b : BitVec 5) (t : BitVec 1) (s : State) : Out := fp2 d a b t Fmt.add s
def execFsub (d a b : BitVec 5) (t : BitVec 1) (s : State) : Out := fp2 d a b t Fmt.sub s
def execFmul (d a b : BitVec 5) (t : BitVec 1) (s : State) : Out := fp2 d a b t Fmt.mul s

def execFdiv (d a b : BitVec 5) (t : BitVec 1) (s : State) : Out :=
  fpForm d [a, b] t 10 18 (fun r => ((fmtOf t).div r.rm (fpIn t (r.get a)) (fpIn t (r.get b))).asWord) s

def execFsqrt (d a : BitVec 5) (t : BitVec 1) (s : State) : Out :=
  fpForm d [a] t 12 22 (fun r => ((fmtOf t).sqrt r.rm (fpIn t (r.get a))).asWord) s

def execFmin (d a b : BitVec 5) (t : BitVec 1) (s : State) : Out := fp2 d a b t (fun f _ => f.minMax false) s
def execFmax (d a b : BitVec 5) (t : BitVec 1) (s : State) : Out := fp2 d a b t (fun f _ => f.minMax true) s

/-- FMAC rounds once, and reads the old x[D] before it writes it (R130). -/
def execFmac (d a b : BitVec 5) (t : BitVec 1) (s : State) : Out :=
  fpForm d [d, a, b] t 4 5 (fun r =>
    ((fmtOf t).fma r.rm (fpIn t (r.get a)) (fpIn t (r.get b)) (fpIn t (r.get d))).asWord) s

def execFeq (d a b : BitVec 5) (t : BitVec 1) (s : State) : Out := fp2 d a b t (fun f _ => f.eqRes) s
def execFlt (d a b : BitVec 5) (t : BitVec 1) (s : State) : Out := fp2 d a b t (fun f _ => f.ltRes) s
def execFle (d a b : BitVec 5) (t : BitVec 1) (s : State) : Out := fp2 d a b t (fun f _ => f.leRes) s

/-- FCVT reads a as the other FP type (R130). -/
def execFcvt (d a : BitVec 5) (t : BitVec 1) (s : State) : Out :=
  fp1 d a t (fun r v =>
    ((fmtOf (1 - t)).convert (fmtOf t) r.rm (fpIn (1 - t) v)).asWord) s

/-- The result of a conversion to an integer, as a word (R35). -/
def intAsWord (p : Int × Nat) : Word × Nat := (wordOfInt p.1, p.2)

def execFtoi (d a : BitVec 5) (t : BitVec 1) (s : State) : Out :=
  fp1 d a t (fun r v =>
    intAsWord (toInteger r.rm (-(pow2 63 : Nat)) ((pow2 63 : Nat) - 1) ((fmtOf t).read (fpIn t v)))) s

def execFtou (d a : BitVec 5) (t : BitVec 1) (s : State) : Out :=
  fp1 d a t (fun r v =>
    intAsWord (toInteger r.rm 0 ((pow2 64 : Nat) - 1) ((fmtOf t).read (fpIn t v)))) s

def execItof (d a : BitVec 5) (t : BitVec 1) (s : State) : Out :=
  fp1 d a t (fun r v => ((fmtOf t).ofInteger r.rm v.toInt).asWord) s

def execUtof (d a : BitVec 5) (t : BitVec 1) (s : State) : Out :=
  fp1 d a t (fun r v => ((fmtOf t).ofInteger r.rm v.toNat).asWord) s

def execFabs (d a : BitVec 5) (t : BitVec 1) (s : State) : Out :=
  fp1 d a t (fun _ v => ((fmtOf t).abs (fpIn t v)).asWord) s

def execFneg (d a : BitVec 5) (t : BitVec 1) (s : State) : Out :=
  fp1 d a t (fun _ v => ((fmtOf t).neg (fpIn t v)).asWord) s

end Sys2Proof.Machine
end

