-- ==== Sys2Proof/Machine/Control.lean ====
section
/-! DEFINITION. Control transfer that needs no memory access (R142, R143, R145): conditional branches,
direct jumps and LAND. -/

namespace Sys2Proof.Machine

/-- The address a word offset of n bits names, relative to the word itself (R49). -/
def wordTarget (pc : Word) {n : Nat} (o : BitVec n) : Word := pc + o.signExtend 64 * 4

/-- The decision of a branch in both copies of a twin group must agree (R283). -/
def Scalar.agree (sc : Scalar) (f : RegFile → Bool) : Bool :=
  match sc.twin with
  | some t => f sc.rf == f t
  | none => true

/-- A conditional branch (R142): taken to the target at a cost of 3 cycles, else to pc + 4 (R99). -/
def branch (a b : BitVec 5) (o : BitVec 13) (cond : Word → Word → Bool) (s : State) : Out :=
  onStreams true true true s <| withFields [a, b] s <| withReads [a, b] s <|
    let sc := s.scalar
    let taken := fun (r : RegFile) => cond (r.get a) (r.get b)
    check (sc.agree taken) causeTwin s <|
      if taken sc.rf then .next (s.jump (wordTarget sc.pc o) 3 id) else .next (s.finish id)

def execBeq (a b : BitVec 5) (o : BitVec 13) (s : State) : Out := branch a b o (fun a b => a == b) s
def execBne (a b : BitVec 5) (o : BitVec 13) (s : State) : Out := branch a b o (fun a b => a != b) s
def execBlt (a b : BitVec 5) (o : BitVec 13) (s : State) : Out := branch a b o (fun a b => a.slt b) s
def execBge (a b : BitVec 5) (o : BitVec 13) (s : State) : Out := branch a b o (fun a b => !a.slt b) s
def execBltu (a b : BitVec 5) (o : BitVec 13) (s : State) : Out := branch a b o (fun a b => a.ult b) s
def execBgeu (a b : BitVec 5) (o : BitVec 13) (s : State) : Out := branch a b o (fun a b => !a.ult b) s

/-- J: the next instruction issues from t + 2 (R143, R99). -/
def execJ (o : BitVec 26) (s : State) : Out :=
  onStreams true true true s <| .next (s.jump (wordTarget s.scalar.pc o) 2 id)

/-- JAL links to s30 (R143). -/
def execJal (o : BitVec 26) (s : State) : Out :=
  onStreams true false true s <|
    .next (s.jump (wordTarget s.scalar.pc o) 2 fun sc =>
      (sc.mapFiles fun r => r.put 30 (sc.pc + 4)).mark s.pcc 1 30)

/-- LAND has no effect (R145). -/
def execLand (s : State) : Out := onStreams true false true s <| .next (s.finish id)

end Sys2Proof.Machine
end

