-- ==== Sys2Proof/Machine/Home.lean ====
section
/-! DEFINITION. Where a global physical address lives, and how long an access to it takes: the regions
and homes of R287 and R288, the die network of R118 and R119, the latencies of R289 and R484. -/

namespace Sys2Proof.Machine

/-! ### The die network (R118, R119) -/

/-- The station of core strip n on a welt row (R118). -/
def csStation (n : Nat) : Nat :=
  match n with
  | 0 => 1 | 1 => 2 | 2 => 4 | 3 => 5 | 4 => 7 | 5 => 8
  | 6 => 10 | 7 => 11 | 8 => 13 | 9 => 14 | 10 => 16 | _ => 17

/-- The station of slice strip n on a welt row (R118). -/
def ssStation (n : Nat) : Nat :=
  match n with
  | 0 => 0 | 1 => 3 | 2 => 6 | 3 => 12 | 4 => 15 | _ => 18

/-- The strip of a physical core; spare 192 + k sits in strip 2 + k (R118). -/
def stripOf (p : Nat) : Nat := if p < 192 then p / 16 else 2 + (p - 192)

/-- The row of a physical core; a spare counts as row 16 (R118). -/
def rowOf (p : Nat) : Nat := if p < 192 then p % 16 else 16

def absDiff (a b : Nat) : Nat := if a ≤ b then b - a else a - b

/-- The unloaded delivery latency of a packet of f flits (R119). -/
def pathCycles (row1 station1 row2 station2 f : Nat) : Nat :=
  2 + absDiff row1 row2 + absDiff station1 station2 + (f - 1)

/-- From a core to a slice of its die, or back (R119): slice 16 n + i is position i of SSn. -/
def coreSlice (p slice f : Nat) : Nat :=
  pathCycles (rowOf p) (csStation (stripOf p)) (slice % 16) (ssStation (slice / 16)) f

/-- From one core to another of the same die (R119). -/
def coreCore (p q f : Nat) : Nat :=
  pathCycles (rowOf p) (csStation (stripOf p)) (rowOf q) (csStation (stripOf q)) f

/-! ### Regions and homes (R287, R288) -/

/-- The register blocks of the configuration region (R287). -/
inductive Block where
  | moult | errorLog | hostbase | fabric
  deriving DecidableEq, Repr

/-- What a package-local address names (R287). -/
inductive Region where
  | lpddr (o : Nat)
  | dram (die : Nat) (o : Nat)
  | dsm (die : Nat) (o : Nat)
  | regs (b : Block) (o : Nat)
  | hostWindow (o : Nat)
  | none
  deriving DecidableEq, Repr

/-- The region of a package-local address (R287). -/
def regionOf (la : Nat) : Region :=
  if la < 0x10000000000 then .lpddr la
  else if la < 0x14000000000 then
    let die := (la - 0x10000000000) / 0x800000000
    let o := (la - 0x10000000000) % 0x800000000
    if o < 0x600000000 then .dram die o else .none
  else if la < 0x18000000000 then .none
  else if la < 0x18080000000 then
    .dsm ((la - 0x18000000000) / 0x10000000) ((la - 0x18000000000) % 0x10000000)
  else if la < 0xF0001000000 then .none
  else if la < 0xF0001001000 then .regs .moult (la - 0xF0001000000)
  else if la < 0xF0002000000 then .none
  else if la < 0xF0002001000 then .regs .errorLog (la - 0xF0002000000)
  else if la < 0xF0003000000 then .none
  else if la < 0xF0003001000 then .regs .hostbase (la - 0xF0003000000)
  else if la < 0xF1000000000 then .none
  else if la < 0xF1000001000 then .regs .fabric (la - 0xF1000000000)
  else if la < 0xF8000000000 then .none
  else if la < 0x100000000000 then .hostWindow (la - 0xF8000000000)
  else .none

/-- The package field and the package-local part of a global physical address (R131, R287). -/
def pkgOf (pa : Nat) : Nat := pa / 0x100000000000
def localOf (pa : Nat) : Nat := pa % 0x100000000000

/-- Whether a global physical address lies on this package (R131). -/
def State.isLocal (s : State) (pa : Nat) : Bool := decide (pkgOf pa = s.fabric.coord)

/-- The compute die that answers for an address, if one does. -/
def homeDie (r : Region) : Option Nat :=
  match r with
  | .dram d _ => some d
  | .dsm d _ => some d
  | _ => none

/-- The slice of an offset (R288). -/
def sliceOf (o : Nat) : Nat := o / 512 % 96

def State.die (s : State) (d : Nat) : Die := s.dies.getD d Die.reset

def State.modDie (s : State) (d : Nat) (f : Die → Die) : State := { s with dies := s.dies.set d (f (s.die d)) }

/-- A die that answers no access: isolated or held in reset (R287). -/
def Die.gone (d : Die) : Bool := d.isolated || d.inReset

/-- Torus coordinates of a 12-bit package number: x in 11:8, y in 7:4, z in 3:0 (R411). -/
def coordX (p : Nat) : Nat := p / 256 % 16
def coordY (p : Nat) : Nat := p / 16 % 16
def coordZ (p : Nat) : Nat := p % 16

/-- The hops of a minimal path along one dimension of the given size. -/
def ringHops (size a b : Nat) : Nat := if size = 0 then 0 else min ((a + size - b) % size) ((b + size - a) % size)

/-- The hops of a minimal path between two packages (R412, R418). -/
def Fabric.hops (f : Fabric) (p q : Nat) : Nat :=
  ringHops f.sizeX (coordX p) (coordX q) + ringHops f.sizeY (coordY p) (coordY q) +
    ringHops f.sizeZ (coordZ p) (coordZ q)

/-- Whether a package number lies inside the torus (R289). -/
def Fabric.inside (f : Fabric) (p : Nat) : Bool :=
  decide (coordX p < f.sizeX) && decide (coordY p < f.sizeY) && decide (coordZ p < f.sizeZ)

/-- How an access to an address ends and when (R289, R484): the request part, the reply part, and the
reason of a REMOTE_ERROR where no home answers. -/
structure Route where
  request : Nat
  reply : Nat
  error : Option Nat
  deriving DecidableEq, Repr

/-- The hops along each dimension in the minimal direction, + on a tie (R413): the distance and whether the
direction is +. -/
def ringStep (size a b : Nat) : Nat × Bool :=
  if size = 0 then (0, true)
  else
    let d := (b + size - a % size) % size
    if d ≤ size - d then (d, true) else (size - d, false)

/-- The distance and direction in X, Y and Z between two packages (R413). -/
def Fabric.steps (f : Fabric) (p q : Nat) : List (Nat × Bool) :=
  [ringStep f.sizeX (coordX p) (coordX q), ringStep f.sizeY (coordY p) (coordY q), ringStep f.sizeZ (coordZ p) (coordZ q)]

/-- The links of the own router by which a path to a package may start: the first dimension still to go in
dimension order, or in class AM any that reduces a remaining distance, both ways round where they are equal (R413). Link 2 i
is + and 2 i + 1 is - in dimension i (R429). -/
def Fabric.firstLinks (f : Fabric) (q : Nat) (adaptive : Bool) : List Nat :=
  let sizes := [f.sizeX, f.sizeY, f.sizeZ]
  let links (d : (Nat × Bool) × Nat) : List Nat :=
    if d.1.1 = 0 then []
    else if d.1.2 then 2 * d.2 :: (if adaptive && decide (2 * d.1.1 = sizes.getD d.2 0) then [2 * d.2 + 1] else [])
    else [2 * d.2 + 1]
  let all := ((f.steps f.coord q).zipIdx).flatMap links
  if adaptive then all else all.take 1

def Fabric.link (f : Fabric) (k : Nat) : Link := f.links[k % 6]'(by omega)

def Fabric.modLink (f : Fabric) (k : Nat) (g : Link → Link) : Fabric :=
  { f with links := f.links.set (k % 6) (g (f.link k)) (by omega) }

def Link.live (l : Link) : Bool := l.up && !l.dead

/-- The package at the other end of a link (R411, R429). -/
def Fabric.neighbour (f : Fabric) (k : Nat) : Nat :=
  let step (c n : Nat) : Nat := if n = 0 then 0 else if k % 2 = 0 then (c + 1) % n else (c + n - 1) % n
  let p := f.coord
  if k / 2 = 0 then step (coordX p) f.sizeX * 256 + coordY p * 16 + coordZ p
  else if k / 2 = 1 then coordX p * 256 + step (coordY p) f.sizeY * 16 + coordZ p
  else coordX p * 256 + coordY p * 16 + step (coordZ p) f.sizeZ

/-- The reason with which a router answers a request for which no link leads on (R428): 0x2 where its destination is the neighbour
beyond a dead port of its path. -/
def Fabric.noPathReason (f : Fabric) (links : List Nat) (pkg : Nat) : Nat := if links.any fun k => decide (f.neighbour k = pkg) then 0x2 else 0x3

/-- The intermediate package of a class RT request (R413): a free value. -/
def State.rtMid (s : State) : Nat :=
  let f := s.fabric
  let n := Config.freeVictim s.free % (f.sizeX * f.sizeY * f.sizeZ)
  n % f.sizeX * 256 + n / f.sizeX % f.sizeY * 16 + n / f.sizeX / f.sizeY

/-- The hops of a request (R413, R418): minimal in classes OM and AM; in class RT two legs over an
intermediate package. -/
def State.requestHops (s : State) (pkg cls : Nat) : Nat :=
  let f := s.fabric
  if cls = 2 then f.hops f.coord s.rtMid + f.hops s.rtMid pkg else f.hops f.coord pkg

/-- Where the own fabric die answers a request for a package itself (R428, R467): the fabric die lost; the
package marked dead; no live link on the path as far as this router knows it. -/
def State.fabricRefusal (s : State) (pkg cls : Nat) : Option Nat :=
  let f := s.fabric
  let target := if cls = 2 && decide (s.rtMid ≠ f.coord) then s.rtMid else pkg
  if f.lost then some 0x3
  else if f.deadPkg.has (256 * coordX pkg + 16 * coordY pkg + coordZ pkg) then some 0x2
  else
    let links := f.firstLinks target (decide (cls = 1))
    if links.any fun k => (f.link k).live then none else some (f.noPathReason links pkg)

/-- A home of this package at the far end of a torus request (R418, R289): the cycles from the ingress to it and from it back to the
egress. R418 gives their sum, 220, 290 and 400; R289 gives 440 + 40 h for a register. How a sum divides no rule says (DESIGN
CHOICE, log 58). -/
def homePart (r : Region) (hit : Bool) : Nat × Nat :=
  match r with
  | .lpddr _ => (260, 140)
  | .dram _ _ => (if hit then 120 else 190, 100)
  | .regs _ _ => (110, 110)
  | .hostWindow _ => (110, 110)
  | _ => (120, 100)

/-- The route of an access from a compute core (R484) in a class, for request packets of fq flits and
replies of fp flits; `hit` says whether the line is in its slice. R289 gives the sum for a register, 200, which the model halves, and
no cycles for the host window, which it gives the same halves (DESIGN CHOICE, log 58). -/
def State.route (s : State) (core pa cls fq fp : Nat) (hit : Bool) : Route :=
  let miss := if hit then 0 else 70
  let r := regionOf (localOf pa)
  if s.isLocal pa then
    match r with
    | .lpddr o => ⟨245, 85, if s.lostDir.has (o / 512) then some 0x4 else none⟩
    | .dram d o =>
      if (s.die d).gone then ⟨80, 80, some 0x4⟩
      else if d = dieOf core then
        ⟨1 + coreSlice (physOf core) (sliceOf o) fq + 4 + miss, coreSlice (physOf core) (sliceOf o) fp + 5, none⟩
      else ⟨90 + miss, 90, none⟩
    | .dsm d o =>
      let beyond := decide (o ≥ (s.die d).dsmWays * 0x600000)
      if (s.die d).gone then ⟨80, 80, some 0x4⟩
      else if d = dieOf core then
        ⟨1 + coreSlice (physOf core) (sliceOf o) fq + 4, coreSlice (physOf core) (sliceOf o) fp + 5,
          if beyond then some 0x4 else none⟩
      else ⟨90, 90, if beyond then some 0x4 else none⟩
    | .regs _ _ => ⟨100, 100, none⟩
    | .hostWindow _ => ⟨100, 100, none⟩
    | .none => ⟨80, 80, some 0x4⟩
  else if s.fabric.inside (pkgOf pa) then
    let h := s.fabric.hops s.fabric.coord (pkgOf pa)
    let q := s.requestHops (pkgOf pa) cls
    match s.fabricRefusal (pkgOf pa) cls with
    | some reason => ⟨110, 110, some reason⟩
    | none => ⟨110 + 40 * q + (homePart r hit).1, (homePart r hit).2 + 40 * h + 110, if r = .none then some 0x4 else none⟩
  else ⟨110, 110, some 0x5⟩

/-- The L2 set of an offset in a die's bonded DRAM (R288, R485): 128 for each slice. -/
def l2Set (o : Nat) : Nat := sliceOf o * 128 + o / 512 / 96 % 128

/-- The ways of a slice that hold bonded-DRAM lines (R286, R288): the DSM carve-out takes the others; a slice whose ways are disabled
has a buffer of 64 lines (R456). -/
def Die.l2Ways (d : Die) (slice : Nat) : Nat := if d.noWays.has slice then 64 else 16 - d.dsmWays

/-- Where a slice keeps the line of an offset: in its set, or in the one buffer of a slice whose ways are disabled (R456). -/
def Die.l2Place (d : Die) (o : Nat) : Nat := if d.noWays.has (sliceOf o) then sliceOf o * 128 else l2Set o

/-- Whether a line of bonded DRAM is in its slice when an access arrives (R485): it has been filled and no replacement has
taken it since, which may be in any cycle: a free value. -/
def Die.l2Has (d : Die) (o now : Nat) (kept : Bool) : Bool :=
  (((d.l2.getD (d.l2Place o) []).take (d.l2Ways (sliceOf o))).any fun l => decide (l.line = o / 512) && decide (l.since ≤ now)) && kept

/-- Puts a line into its set from a cycle on; which line of a full set it replaces is a free value. -/
def Die.l2Fill (d : Die) (o since victim : Nat) : Die :=
  let ways := d.l2Ways (sliceOf o)
  let old := ((d.l2.getD (d.l2Place o) []).filter fun l => decide (l.line ≠ o / 512)).take ways
  if ways = 0 then d
  else
    let room := if old.length < ways then old else old.take (victim % ways) ++ old.drop (victim % ways + 1)
    { d with l2 := d.l2.set (d.l2Place o) (⟨o / 512, since⟩ :: room) }

/-- Whether an access finds its line in the slice (R485): on this package as the slice's ways give it; the slices of another
package are not in this state, and theirs is a free value. Other homes have no such case. -/
def State.sliceHit (s : State) (pa : Nat) : Bool :=
  match regionOf (localOf pa) with
  | .dram d o => if s.isLocal pa then (s.die d).l2Has o s.pcc (Config.freeHit s.free) else Config.freeHit s.free
  | _ => true

/-- The line that an access to bonded DRAM of this package leaves in its slice (R485). -/
def State.fillSlice (s : State) (pa since : Nat) : State :=
  match regionOf (localOf pa) with
  | .dram d o =>
    if s.isLocal pa && !(s.die d).gone then s.modDie d fun x => x.l2Fill o (if x.l2Has o s.pcc (Config.freeHit s.free) then 0 else since) (Config.freeVictim s.free)
    else s
  | _ => s

/-- Whether an address's home is on the core's own die (R293). -/
def State.ownDie (s : State) (core pa : Nat) : Bool :=
  s.isLocal pa && decide (homeDie (regionOf (localOf pa)) = some (dieOf core))

/-- Whether an address is in the configuration and control region (R287). -/
def isConfig (pa : Nat) : Bool := decide (localOf pa ≥ 0xF0000000000)

end Sys2Proof.Machine
end

