-- ==== Sys2Proof/Machine/Net.lean ====
section
/-! DEFINITION. The welt and spine chains of a compute die under load (R118-R121): the way of each flit, the outputs and lane
slots it claims, the laps of one that loses, and the reassembly buffer of its destination. A packet's way is worked out as it is
sent (DEDUCED, log 10). -/

namespace Sys2Proof.Machine

/-! ### Rings (R118, R120) -/

/-- The slots of a ring: a folded row of 19 stations, or a spine of 16 positions, 17 where the strip carries a spare. -/
def ringLength (ring : Nat) : Nat :=
  if ring < 16 then 36
  else if (List.range 8).any fun k => decide (csStation (2 + k) = ring - 16) then 32 else 30

/-- The coordinates of position p of a ring on its two lanes. -/
def onLane (ring p : Nat) (forth : Bool) : Nat := if forth then p else (ringLength ring - p) % ringLength ring

/-- The cycles from one coordinate of a ring to another. -/
def lanePath (ring x y : Nat) : Nat := (y + ringLength ring - x) % ringLength ring

/-- The slot that stands at a coordinate of a ring in a cycle. -/
def slotAt (ring x now : Nat) : Nat := (x + ringLength ring - now % ringLength ring) % ringLength ring

/-- No flit that entered the network before rides in a slot from a cycle on. -/
def Net.freeSlot (n : Net) (die ring x now : Nat) : Bool :=
  n.rides.all fun r => !(decide (r.die = die) && decide (r.ring = ring) && decide (r.slot = slotAt ring x now) && decide (now ≤ r.last))

/-- An output that no older flit takes in a cycle (R120). -/
def Net.freeOutput (n : Net) (c : Claim) : Bool := !n.claims.contains c

/-- Room for a packet in the reassembly buffer of a station: 64 flits (R121). -/
def Net.room (n : Net) (die row station flits now : Nat) : Bool :=
  decide (((n.parcels.filter fun p => decide (p.die = die) && decide (p.row = row) && decide (p.station = station) &&
    decide (p.first ≤ now) && decide (now ≤ p.last)).map fun p => p.flits).sum + flits ≤ 64)

/-! ### The way of a flit (R119, R120) -/

/-- The first cycle from t on in which a flit at coordinate x of a ring wins an output of its position: it claims it each
time that it passes, on one lane and then on the other, and has it by `last` (R120, R285). Answers the cycle. -/
def passes (ring : Nat) (wins : Nat → Bool) (last : Nat) : Nat → Nat → Nat → Nat
  | 0, t, _ => t
  | fuel + 1, t, x =>
    if wins t then t
    else
      let y := (ringLength ring - x) % ringLength ring
      let d := lanePath ring x y
      let next := t + if d = 0 then ringLength ring else d
      if last < next then max t last else passes ring wins last fuel next y

/-- The first cycle from t on with an empty lane slot at a coordinate (R120). -/
def Net.injection (n : Net) (die ring x : Nat) : Nat → Nat → Nat
  | 0, t => t
  | fuel + 1, t => if n.freeSlot die ring x t then t else Net.injection n die ring x fuel (t + 1)

/-- A flit is delivered within so many cycles of its injection (R120). -/
def deliveryBound : Nat := 4096

/-- The claims that one flit may lose before it must have been delivered: its cycles hold no more. -/
def lapFuel : Nat := 256

/-- A place on a die's network: a row, 16 for a spare core, and a station (R118). -/
structure Spot where
  row : Nat
  station : Nat
  deriving DecidableEq, Repr

/-- The row of the welt that a place's flits use: a spare rides its spine to row 15 (R118). -/
def Spot.welt (p : Spot) : Nat := min p.row 15

/-- What a flit asks of the reassembly buffer of its destination: room for its packet, and from which cycle on an earlier flit of the
packet has reserved it. -/
structure Parcelling where
  flits : Nat
  reserved : Option Nat
  deriving DecidableEq, Repr

/-- The ejection of a flit at its destination: a free port, and room for its packet unless that is reserved (R121). -/
def Net.ejects (n : Net) (die : Nat) (q : Spot) (g : Parcelling) (t : Nat) : Bool :=
  n.freeOutput ⟨die, true, q.row, q.station, t⟩ && (g.reserved.any (fun r => decide (r ≤ t)) || n.room die q.row q.station g.flits t)

/-- A flit rides a ring from coordinate x to y, where it comes in cycle `first`, and takes an output there: the cycle in which it has
it, and the network with its slot. -/
def Net.ride (n : Net) (die ring x t y first last : Nat) (wins : Nat → Bool) : Net × Nat :=
  let out := passes ring wins last lapFuel first y
  ({ n with rides := ⟨die, ring, slotAt ring x t, out⟩ :: n.rides }, out)

/-- The last spine hop of a flit for a spare core, from row 15 (R118): the turn onto the spine is taken. -/
def Net.toSpare (n : Net) (die : Nat) (q : Spot) (g : Parcelling) (t bound : Nat) : Net × Nat :=
  let spine := 16 + q.station
  let x := onLane spine 15 true
  let (n1, out) := n.ride die spine x t (onLane spine 16 true) (t + 1) bound (n.ejects die q g)
  ({ n1 with claims := ⟨die, true, q.row, q.station, out⟩ :: n1.claims }, out)

/-- A flit from p to q that enters the network no earlier than a cycle: what it takes of the network, its injection and the
cycle of its ejection. Two spare cores count as of one row, 16 (R118). -/
def Net.flit (n : Net) (die : Nat) (p q : Spot) (g : Parcelling) (start : Nat) : Net × Nat × Nat :=
  let row := q.welt
  let east := decide (p.station ≤ q.station)
  let board := onLane row p.station east
  let spare := decide (q.row = 16) && decide (p.row ≠ 16)
  let claim (n : Net) (out : Nat) : Net := { n with claims := ⟨die, true, q.row, q.station, out⟩ :: n.claims }
  let along (n : Net) (entered t : Nat) : Net × Nat × Nat :=
    let first := t + absDiff p.station q.station
    let bound := entered + deliveryBound
    let y := onLane row q.station east
    if spare then
      let spine := 16 + q.station
      let turns (t : Nat) : Bool := n.freeOutput ⟨die, false, row, q.station, t⟩ && n.freeSlot die spine (onLane spine 15 true) t
      let (n1, turn) := n.ride die row board t y first (bound - 1) turns
      let (n2, out) := ({ n1 with claims := ⟨die, false, row, q.station, turn⟩ :: n1.claims } : Net).toSpare die q g turn bound
      (n2, entered, out)
    else
      let (n1, out) := n.ride die row board t y first bound (n.ejects die q g)
      (claim n1 out, entered, out)
  if p.row = row || p.row = q.row then
    if p.station = q.station then
      if spare then
        let spine := 16 + p.station
        let t := n.injection die spine (onLane spine 15 true) deliveryBound start
        let (n1, out) := n.toSpare die q g t (t + deliveryBound)
        (n1, t, out)
      else
        let out := passes 0 (n.ejects die q g) (start + deliveryBound) lapFuel start 0
        (claim n out, start, out)
    else
      let t := n.injection die row board deliveryBound start
      along n t t
  else
    let spine := 16 + p.station
    let down := decide (p.row ≤ row)
    let x := onLane spine p.row down
    let t := n.injection die spine x deliveryBound start
    if p.station = q.station then
      let (n1, out) := n.ride die spine x t (onLane spine q.row down) (t + absDiff p.row q.row) (t + deliveryBound) (n.ejects die q g)
      (claim n1 out, t, out)
    else
      let turns (t : Nat) : Bool := n.freeOutput ⟨die, false, row, p.station, t⟩ && n.freeSlot die row board t
      let left := absDiff p.station q.station + (q.row - row)
      let (n1, turn) := n.ride die spine x t (onLane spine row down) (t + absDiff p.row row) (t + deliveryBound - left) turns
      along { n1 with claims := ⟨die, false, row, p.station, turn⟩ :: n1.claims } t turn

/-- The flits of a packet after its first, one after the other: the cycles in which the first of all arrives and the last is delivered
(R119, R121). -/
def Net.rest (n : Net) (die : Nat) (p q : Spot) (f : Nat) : Nat → Nat → Nat → Nat → Net × Nat × Nat
  | 0, _, first, last => (n, first, last)
  | k + 1, start, first, last =>
    let (n1, t, o) := n.flit die p q ⟨f, some first⟩ start
    Net.rest n1 die p q f k (t + 1) (min first o) (max last o)

/-- A packet of f flits from p to q of a die that its source may inject from the cycle after `now`: the network with it, and
the cycle of its delivery, which is the latency of R119 later where nothing is in its way. -/
def Net.packet (n : Net) (die : Nat) (p q : Spot) (f now : Nat) : Net × Nat :=
  let (n1, t, out) := n.flit die p q ⟨f, none⟩ (now + 1)
  let (n2, first, last) := Net.rest n1 die p q f (f - 1) (t + 1) out out
  ({ n2 with parcels := ⟨die, q.row, q.station, f, first, last⟩ :: n2.parcels }, last + 1)

/-- What has left the network by a cycle. -/
def Net.reap (n : Net) (now : Nat) : Net :=
  { rides := n.rides.filter fun r => decide (now ≤ r.last)
    claims := n.claims.filter fun c => decide (now ≤ c.cycle)
    parcels := n.parcels.filter fun p => decide (now ≤ p.last) }

/-! ### Places and packets (R118, R119) -/

/-- The place of a physical core, of a slice, and of the hub on a row; on a spare's, the row that its flits use (R118). -/
def coreSpot (p : Nat) : Spot := ⟨rowOf p, csStation (stripOf p)⟩
def sliceSpot (n : Nat) : Spot := ⟨n % 16, ssStation (n / 16)⟩
def hubSpot (row : Nat) : Spot := ⟨min row 15, 9⟩

/-- Sends a packet over a die's network: the state with it, and the cycle of its delivery. -/
def State.carry (s : State) (die : Nat) (p q : Spot) (flits now : Nat) : State × Nat :=
  let (n, t) := s.net.packet die p q flits now
  ({ s with net := n }, t)

/-- The cycles that a packet takes beyond the unloaded latency of R119. -/
def State.carryLate (s : State) (die : Nat) (p q : Spot) (flits now : Nat) : State × Nat :=
  let (s1, t) := s.carry die p q flits now
  (s1, t - (now + pathCycles p.row p.station q.row q.station flits))

/-- The place on its own die's network to which a core's request for a home goes (R119, R288): a slice of its die, else the
hub station of its row. -/
def State.gateOf (s : State) (core pa : Nat) : Spot :=
  if s.ownDie core pa then
    match regionOf (localOf pa) with
    | .dram _ o => sliceSpot (sliceOf o)
    | .dsm _ o => sliceSpot (sliceOf o)
    | _ => hubSpot (rowOf (physOf core))
  else hubSpot (rowOf (physOf core))

end Sys2Proof.Machine
end

