-- ==== Sys2Proof/Machine/Translate.lean ====
section
/-! DEFINITION. Translation (R389-R394): page-table entries, the walk, the TLBs, instruction fetch. -/

namespace Sys2Proof.Machine

/-! ### Page-table entries (R390, R391) -/

/-- What a walk finds: a translation, or the level and kind of the entry it stopped at. -/
inductive WalkResult where
  | found (e : TlbEntry)
  | stopped (level : Nat) (malformed : Bool)
  deriving DecidableEq, Repr

/-- The bytes that one page of a leaf at a level covers (R389). -/
def pageBytes (level : Nat) : Nat := pow2 (16 + 10 * level)

/-- The index of an address into the table of a level (R389). -/
def tableIndex (va level : Nat) : Nat := va / pageBytes level % 1024

/-- Whether an entry with V = 1 is malformed in a table of the given level (R391). -/
def malformedEntry (e level : Nat) : Bool :=
  let leaf := decide (fld e 1 1 = 1)
  decide (fld e 57 56 ≠ 0) || decide (fld e 12 4 ≠ 0)
    || (leaf && (decide (fld e 15 13 ≠ 0) || decide (fld e 3 2 = 3) || decide (level = 3)
        || decide (fld e 55 16 * 65536 % pageBytes level ≠ 0)))
    || (!leaf && (decide (fld e 3 2 ≠ 0) || decide (level = 0)))

/-- The reason with which no home answers a read at an address: a die that is isolated or held in reset, a hole, coordinates
outside the torus, or no way there (R287, R412, R428, R464). -/
def State.noHome (s : State) (pa : Nat) : Option Nat := (s.route 0 pa 0 1 4 true).error

/-- The walk from a table down (R389-R391): the entries are read as memory holds them, committed values
only (R392). An entry with V = 0 is invalid whatever else it holds; a poisoned one with V = 1 counts as malformed (R391,
R397, R448). `lost` tells the addresses that no home answers for; of a walk whose read ends in REMOTE_ERROR no rule speaks, and
the model lets it fail there as at a malformed entry (DESIGN CHOICE, log 55). -/
def walkFrom (m : Memory) (poison : Poison) (lost : Nat → Bool) (ctx va : Nat) : Nat → Nat → WalkResult
  | 0, table =>
    let a := table + 8 * tableIndex va 0
    let e := Memory.readN m a 8
    if lost a then .stopped 0 true
    else if e % 2 = 0 then .stopped 0 false
    else if poison.has (a / 32) then .stopped 0 true
    else if malformedEntry e 0 then .stopped 0 true
    else .found ⟨ctx, va / pageBytes 0 * pageBytes 0, 0, fld e 55 16 * 65536, fld e 3 2⟩
  | level + 1, table =>
    let a := table + 8 * tableIndex va (level + 1)
    let e := Memory.readN m a 8
    if lost a then .stopped (level + 1) true
    else if e % 2 = 0 then .stopped (level + 1) false
    else if poison.has (a / 32) then .stopped (level + 1) true
    else if malformedEntry e (level + 1) then .stopped (level + 1) true
    else if fld e 1 1 = 1 then
      .found ⟨ctx, va / pageBytes (level + 1) * pageBytes (level + 1), level + 1, fld e 55 16 * 65536, fld e 3 2⟩
    else walkFrom m poison lost ctx va level (fld e 55 13 * 8192)

/-- The address of the poisoned entry that a walk stops at (R448). -/
def poisonedEntry (m : Memory) (poison : Poison) (lost : Nat → Bool) (va : Nat) : Nat → Nat → Option Nat
  | 0, table =>
    let a := table + 8 * tableIndex va 0
    if !lost a && Memory.readN m a 8 % 2 = 1 && poison.has (a / 32) then some a else none
  | level + 1, table =>
    let a := table + 8 * tableIndex va (level + 1)
    let e := Memory.readN m a 8
    if lost a || e % 2 = 0 then none
    else if poison.has (a / 32) then some a
    else if malformedEntry e (level + 1) || fld e 1 1 = 1 then none
    else poisonedEntry m poison lost va level (fld e 55 13 * 8192)

/-- The leaf that the runtime has given a page of a launch's stack area: readable and writable, not executable (R376). Where the
runtime keeps the entries that hold it no rule says; an entry that memory holds for the page goes before it (log 22). -/
def Ctx.stackLeaf (c : Ctx) (ctx va : Nat) : Option TlbEntry :=
  c.areas.findSome? fun a =>
    if a.1 ≤ va ∧ va < a.1 + a.2.1 then some ⟨ctx, va / pageBytes 0 * pageBytes 0, 0, a.2.2 + (va / pageBytes 0 * pageBytes 0 - a.1), 1⟩
    else none

/-- The level and the address of the table at which a walk for a core begins: the one that the lowest entry of the die's walk
cache names, or the one that ROOT names (R393). -/
def State.walkStart (s : State) (core ctx va : Nat) : Nat × Nat :=
  let cached (level : Nat) : Option Nat := ((s.die (dieOf core)).wcache.find? fun c =>
    decide (c.ctx = ctx) && decide (c.level = level) && decide (c.index = va / pageBytes level)).map fun c => fld c.entry 55 13 * 8192
  match cached 1, cached 2, cached 3 with
  | some t, _, _ => (0, t)
  | none, some t, _ => (1, t)
  | none, none, some t => (2, t)
  | none, none, none => (3, (s.ctx ctx).root)

/-- The walk of an address of a context for a core, from where it begins. -/
def State.walkTables (s : State) (core ctx va : Nat) : WalkResult :=
  let at_ := s.walkStart core ctx va
  match walkFrom s.mem s.poison (fun a => (s.noHome a).isSome) ctx va at_.1 at_.2 with
  | .stopped level false =>
    match (s.ctx ctx).stackLeaf ctx va with
    | some e => .found e
    | none => .stopped level false
  | r => r

/-- The walk of an address of a context for a core; one whose VALID is 0 is not translated: its walk stops at the table of ROOT,
which it has not (R386). -/
def State.walkPage (s : State) (core ctx va : Nat) : WalkResult :=
  if !(s.ctx ctx).valid then .stopped 3 false else s.walkTables core ctx va

/-! ### TLBs (R393) -/

/-- Whether an entry translates an address of a context. -/
def TlbEntry.covers (e : TlbEntry) (ctx va : Nat) : Bool :=
  decide (e.ctx = ctx) && decide (va / pageBytes e.level * pageBytes e.level = e.va)

/-- The physical address an entry gives. -/
def TlbEntry.phys (e : TlbEntry) (va : Nat) : Nat := e.pa + va % pageBytes e.level

def tlbFind (l : List TlbEntry) (ctx va : Nat) : Option TlbEntry := l.find? fun e => e.covers ctx va

/-- Removes the element at a place. -/
def dropAt {α : Type} : List α → Nat → List α
  | [], _ => []
  | _ :: rest, 0 => rest
  | x :: rest, n + 1 => x :: dropAt rest n

/-- Puts an entry into a TLB of a size; which entry a full TLB loses is a free value. -/
def tlbInstall (l : List TlbEntry) (e : TlbEntry) (size victim : Nat) : List TlbEntry :=
  if l.contains e then l
  else if l.length < size then e :: l else e :: dropAt l (victim % size)

/-- The set of a strip TLB that an entry goes into: 256 sets of 8 ways. Which bits choose it no rule says: here the low bits of
the page's number (DESIGN CHOICE, log 36). -/
def TlbEntry.set (e : TlbEntry) : Nat := e.va / pageBytes e.level % 256

/-- Puts an entry into a strip TLB (R393); which of the eight of a full set is lost is a free value. -/
def stlbInstall (l : List TlbEntry) (e : TlbEntry) (victim : Nat) : List TlbEntry :=
  let mine := l.filter fun x => decide (x.set = e.set)
  if l.contains e then l
  else if mine.length < 8 then e :: l
  else
    match mine[victim % 8]? with
    | some x => e :: l.filter fun y => decide (y ≠ x)
    | none => e :: l

/-- PERM grants write; PERM grants instruction fetch (R391). -/
def TlbEntry.writable (e : TlbEntry) : Bool := decide (e.perm = 1)
def TlbEntry.executable (e : TlbEntry) : Bool := decide (e.perm = 2)

/-- What a translation answers: an entry, or a miss. The control die's addresses are global physical
addresses (log 7). -/
def State.lookup (s : State) (core ctx : Nat) (va : Nat) : Option TlbEntry :=
  if core ≥ Config.controlBase then some ⟨ctx, 0, 4, 0, 1⟩
  else tlbFind (s.core core).mem.tlb ctx va

/-- The context that the step's stream runs in. -/
def State.curCtx (s : State) : Nat :=
  match s.cur.stream with
  | .control => 0
  | _ => s.here.job.ctx

/-- The key of the core of the step's stream for lookups: the control-die cores follow the compute cores. -/
def State.curKey (s : State) : Nat :=
  match s.cur.stream with
  | .control => Config.controlBase + s.cur.core % 16
  | _ => s.cur.core

/-- The strip TLB of a core: keyed by strip within its die. -/
def State.stlb (s : State) (core : Nat) : List TlbEntry := (s.die (dieOf core)).stlbs.getD (stripOf (physOf core)) []

/-- The cycles that a walk takes from a table down: one class OM read of an entry at its home per level (R392, R484). -/
def walkCycles (s : State) (core va : Nat) : Nat → Nat → Nat
  | 0, table =>
    let r := s.route core (table + 8 * tableIndex va 0) 0 1 4 true
    r.request + r.reply
  | level + 1, table =>
    let a := table + 8 * tableIndex va (level + 1)
    let e := Memory.readN s.mem a 8
    let r := s.route core a 0 1 4 true
    let here := r.request + r.reply
    if r.error.isNone && e % 2 = 1 && !malformedEntry e (level + 1) && decide (fld e 1 1 = 0) then
      here + walkCycles s core va level (fld e 55 13 * 8192)
    else here

/-- The core whose miss began a walk. -/
def Walk.core (w : Walk) : Nat := (w.joined.head?.map fun q => q.focus.core).getD 0

/-- Two misses of a die for one page of a context (R394). -/
def Walk.same (w x : Walk) : Bool :=
  decide (w.die = x.die) && decide (w.ctx = x.ctx) && decide (w.va / 65536 = x.va / 65536) && !w.dropped && !x.dropped &&
    decide (w.stage ≠ .hit) && decide (x.stage ≠ .hit)

/-- Whether one of the 64 places of a strip TLB's misses is free (R394): a walk under way or queued has one in each strip whose
requests it will answer. -/
def State.stripRoom (s : State) (die strip : Nat) : Bool :=
  decide ((s.walks.filter fun (w : Nat × Walk) =>
    decide (w.2.die = die) && decide (w.2.strip = strip) && (decide (w.2.stage = .walking) || decide (w.2.stage = .queued))).length < 64)

/-- Whether a queued miss may begin its walk now (R394): one of the 64 walks of its die is free, and none is under way for its
page, whose answer it would share. -/
def State.walkRoom (s : State) (w : Walk) : Bool :=
  decide ((s.walks.filter fun (x : Nat × Walk) => decide (x.2.die = w.die) && decide (x.2.stage = .walking)).length < 64) &&
    !(s.walks.any fun (x : Nat × Walk) => decide (x.2.stage = .walking) && x.2.same w)

/-- A walk begins: no earlier than the strip TLB has been looked up, and as long as its reads take (R392, R393). -/
def State.beginWalk (s : State) (id : Nat) (w : Walk) : State :=
  let core := w.core
  let at_ := s.walkStart core w.ctx w.va
  ({ s with walks := s.walks.set id { w with stage := .walking, window := s.qwin } }).schedule
    (max s.pcc (w.asked + 12) + walkCycles s core w.va at_.1 at_.2) (.tlbWalkComplete id)

/-- The misses of a die that have room now go on, in arrival order (R394): from their strips into the queue, and from the queue
into the walker. -/
def State.beginQueued (s : State) (die : Nat) : State :=
  let s1 := s.walks.foldl (fun (s : State) (x : Nat × Walk) =>
    if x.2.die ≠ die ∨ x.2.stage ≠ .waiting then s
    else if (tlbFind (s.stlb x.2.core) x.2.ctx x.2.va).isSome then
      ({ s with walks := s.walks.set x.1 { x.2 with stage := .hit } }).schedule (s.pcc + 12) (.tlbWalkComplete x.1)
    else if s.stripRoom die x.2.strip then { s with walks := s.walks.set x.1 { x.2 with stage := .queued } }
    else s) s
  s1.walks.foldl (fun (s : State) (x : Nat × Walk) =>
    if x.2.die = die ∧ x.2.stage = .queued ∧ s.walkRoom x.2 = true then s.beginWalk x.1 x.2 else s) s1

/-- Starts a walk for the step's stream (R393, R394): a hit in its strip TLB answers after 12 cycles; a miss joins the one of its
strip for the page, or takes a place of the strip's, and goes to the die's walker, which serves the misses of other strips for
the page with the same walk. It takes the current quiescence window (R401). -/
def State.startWalk (s : State) (va : Word) (fetch : Bool) (elem : Nat := 0) : State × Nat :=
  let core := s.cur.core
  let ctx := s.curCtx
  let req : WalkReq := ⟨s.cur, va, fetch, elem⟩
  let strip := stripOf (physOf core)
  let hit := (tlbFind (s.stlb core) ctx va.toNat).isSome
  let id := s.nextId
  let w : Walk := ⟨dieOf core, ctx, va.toNat, strip, [req], false, s.qwin, .waiting, s.pcc⟩
  let mine (x : Walk) : Bool := x.joined.contains req && !x.dropped
  match s.walks.find? fun x => mine x.2 || (!hit && decide (x.2.strip = strip) && x.2.same w) with
  | some (id, x) =>
    (if mine x then s else { s with walks := s.walks.set id { x with joined := x.joined ++ [req] } }, id)
  | none =>
    let s1 := { s with nextId := id + 1 }
    if hit then (({ s1 with walks := s1.walks.set id { w with stage := .hit } }).schedule (s.pcc + 12) (.tlbWalkComplete id), id)
    else (({ s1 with walks := s1.walks.set id w }).beginQueued (dieOf core), id)

/-! ### Instruction fetch (R131, R144, R146, R150, R391) -/

/-- What a fetch of a word answers: the word; a walk that must end first; or the trap it draws. -/
inductive Fetched where
  | word (w : BitVec 32)
  | miss
  | fault (t : TrapArgs)
  deriving DecidableEq, Repr

/-- The 128-byte sector of memory that holds an address, as one number. -/
def State.sectorBytes (s : State) (pa : Nat) : BitVec 1024 :=
  BitVec.ofNat 1024 (Memory.readN s.mem (pa / 128 * 128) 128)

/-- The poisoned granules of the sector of memory that holds an address. -/
def State.sectorMarks (s : State) (pa : Nat) : NatSet := ((List.range 4).map fun i => pa / 128 * 4 + i).filter fun g => s.poison.has g

/-- The word at an address within a sector. -/
def wordOfSector (d : BitVec 1024) (a : Nat) : BitVec 32 := BitVec.ofNat 32 (d.toNat / pow2 (8 * (a % 128)))

/-- The key of an instruction-cache sector: context and virtual sector. -/
def icKey (ctx va : Nat) : Nat := ctx * pow2 56 + va / 128

/-- Whether the configuration region closes an address to a compute core's fetch (R287, R435): a register block does, and the host
window of a context whose HOSTBASE.EN is 0. -/
def State.refusesFetch (s : State) (ctx pa : Nat) : Bool :=
  isConfig pa && (match regionOf (localOf pa) with
    | .regs _ _ => true
    | .hostWindow _ => decide (s.host.base.getD ctx 0 % 2 = 0)
    | _ => false)

/-- The word that a fetch has from its home: POISON where its granule is poisoned (R448), REMOTE_ERROR where no home answers
(R287, R412, R464). What a word of the configuration region reads as is a free value (log 55). -/
def State.fetchHome (s : State) (va : Word) (pa : Nat) : Fetched :=
  match s.noHome pa with
  | some reason => .fault { cause := causeRemote, addr := va, aux := BitVec.ofNat 64 (pkgOf pa % 4096 * 65536), detail := reason % 256 }
  | none =>
    if isConfig pa then .word (BitVec.ofNat 32 (Config.freeRemote s.free pa))
    else if s.poison.has (pa / 32) then .fault { cause := causePoison, addr := va }
    else .word (wordOfSector (s.sectorBytes pa) va.toNat)

/-- Fetches the word at a virtual address for a compute core of a context: the sector is taken from the
instruction cache if it is there, else from memory, whole (R400), with its marks (R446, R448). A code page whose leaf does not
grant fetch is PROTECTION, as is one in a register block (R287). -/
def State.fetch (s : State) (core ctx : Nat) (va : Word) : Fetched :=
  if va.toNat ≥ pow2 56 then .fault { cause := causeTranslation, addr := va, detail := 0x20 }
  else
    match s.lookup core ctx va.toNat with
    | none => .miss
    | some e =>
      let pa := e.phys va.toNat
      if core ≥ Config.controlBase then s.fetchHome va pa
      else if !e.executable || s.refusesFetch ctx pa then .fault { cause := causeProtection, addr := va }
      else
        match (s.core core).mem.icache.get (icKey ctx va.toNat) with
        | some d => if d.poison.has (pa / 32) then .fault { cause := causePoison, addr := va } else .word (wordOfSector d.data va.toNat)
        | none => s.fetchHome va pa

/-- Keeps the sector of a fetched word in the instruction cache: 64 KiB, 512 sectors (00_scope). Which
sector a full cache loses is a free value. -/
def State.keepSector (s : State) (core ctx : Nat) (va : Word) : State :=
  if core ≥ Config.controlBase then s
  else
    match s.lookup core ctx va.toNat with
    | none => s
    | some e =>
      let key := icKey ctx va.toNat
      let pa := e.phys va.toNat
      if isConfig pa then s
      else
        s.modCore core fun c =>
          let ic := c.mem.icache
          if ic.has key then c
          else
            let ic' := if ic.length < 512 then ic else dropAt ic (Config.freeVictim s.free % 512)
            { c with mem := { c.mem with icache := FMap.set ic' key ⟨s.sectorBytes pa, s.sectorMarks pa⟩ } }

end Sys2Proof.Machine
end

