-- ==== Sys2Proof/Machine/Mem.lean ====
section
/-! DEFINITION. Accesses to global memory (R131-R141, R293-R309, R446-R448, R484, R486): checks, issue,
performance at the home, pending stores and their commit, leases, and the return of data. -/

namespace Sys2Proof.Machine

/-! ### Bytes and granules -/

/-- Whether any 32-byte granule of the range is poisoned (R446). -/
def poisonedIn (poison : NatSet) (pa : Nat) : Nat → Bool
  | 0 => false
  | n + 1 => poison.has ((pa + n) / 32) || poisonedIn poison pa n

/-- Replaces byte i of a little-endian number. -/
def putByte (v i b : Nat) : Nat := v - fld v (8 * i + 7) (8 * i) * pow2 (8 * i) + b % 256 * pow2 (8 * i)

/-- Overlays n bytes of w (a number at address wa, of wn bytes) on the n bytes of v at address a. -/
def overlay (v a : Nat) : Nat → Nat → Nat → Nat → Nat
  | 0, _, _, _ => v
  | n + 1, w, wa, wn =>
    let v' := overlay v a n w wa wn
    let p := a + n
    if wa ≤ p ∧ p < wa + wn then putByte v' n (fld w (8 * (p - wa) + 7) (8 * (p - wa))) else v'

/-- Whether two byte ranges meet. -/
def rangesMeet (a n b m : Nat) : Bool := decide (a < b + m) && decide (b < a + n)

/-- Every byte of the granule g is written by some store of the list (R447). -/
def granuleCovered (stores : List PStore) (g : Nat) : Bool :=
  (List.range 32).all fun i => stores.any fun p => decide (p.pa ≤ g * 32 + i) && decide (g * 32 + i < p.pa + p.size)

/-- The granules that a range touches. -/
def granulesOf (pa size : Nat) : List Nat := (List.range (size / 32 + 2)).map (fun i => pa / 32 + i) |>.filter fun g =>
  rangesMeet (g * 32) 32 pa size

/-! ### What a load sees (R140, R293, R296, R447) -/

/-- The core's own stores that come before an access in its order. -/
def CoreMem.before (m : CoreMem) (order : Nat) : List PStore := m.pend.filter fun p => decide (p.order < order)

/-- Overlays the core's own earlier pending bytes, oldest first, on a value (R140). -/
def overlayStores (v pa size : Nat) (ps : List PStore) : Nat :=
  ps.foldl (fun acc p => if rangesMeet pa size p.pa p.size then overlay acc pa size p.value p.pa p.size else acc) v

/-- The value an access of a core reads at its home: committed bytes under the core's own earlier ones. -/
def State.readFor (s : State) (core order pa size : Nat) : Nat :=
  overlayStores (Memory.readN s.mem pa size) pa size ((s.core core).mem.before order)

/-- The stores that come after every store of poisoned bytes to a granule. -/
def sinceBad (ps : List PStore) (g : Nat) : List PStore :=
  ps.filter fun p => !ps.any fun q => q.poison && rangesMeet (g * 32) 32 q.pa q.size && decide (p.order ≤ q.order)

/-- Whether a granule is poisoned under pending stores (R447): it is marked, or a store of poisoned bytes meets it; and the
stores since then do not cover it whole. -/
def badUnder (ps : List PStore) (marked : Bool) (g : Nat) : Bool :=
  (marked || ps.any fun p => p.poison && rangesMeet (g * 32) 32 p.pa p.size) && !granuleCovered (sinceBad ps g) g

/-- Whether a read draws poison (R447, R448), with the core's own pending stores. -/
def State.readPoison (s : State) (core order pa size : Nat) : Bool :=
  (granulesOf pa size).any fun g => badUnder ((s.core core).mem.before order) (s.poison.has g) g

/-! ### Committing bytes (R294, R303, R447) -/

/-- Commits one store's bytes to its home. -/
def State.commitBytes (s : State) (p : PStore) : State := { s with mem := Memory.writeN s.mem p.pa p.size p.value }

/-- What is left of a pending store once a later store of its core is committed: the bytes that the later one does not write, since
an older value never follows it (R296 rule 1, R301). -/
def PStore.without (q p : PStore) : List PStore :=
  let last := p.pa + p.size
  if q.order < p.order ∧ rangesMeet q.pa q.size p.pa p.size = true then
    (if q.pa < p.pa then [{ q with size := p.pa - q.pa, value := q.value % pow2 (8 * (p.pa - q.pa)) }] else []) ++
      (if last < q.pa + q.size then [{ q with pa := last, size := q.pa + q.size - last, value := q.value / pow2 (8 * (last - q.pa)) }] else [])
  else [q]

/-- The pending stores of a core that remain once some of them are committed. -/
def CoreMem.left (m : CoreMem) (ps : List PStore) : List PStore :=
  (m.pend.filter fun p => !ps.any fun q => decide (q.order = p.order)).flatMap fun q =>
    ps.foldl (fun (l : List PStore) p => l.flatMap fun x => x.without p) [q]

/-- The bytes of stores of one core in its order reach their homes: granules that they cover whole lose their poison, and poisoned
data mark theirs (R446, R447). -/
def State.commitMarked (s : State) (ps : List PStore) : State :=
  let gs := (ps.flatMap fun p => granulesOf p.pa p.size).eraseDups
  ps.foldl State.commitBytes
    { s with poison := gs.foldl (fun (p : Poison) g => if badUnder ps (p.has g) g then p.add g else p.del g) s.poison }

/-- Commits several stores of one core in its order; the core's own clean copy of the sectors takes the bytes and the marks
(R295). -/
def State.commitStores (s : State) (core : Nat) (ps : List PStore) : State :=
  let gs := (ps.flatMap fun p => granulesOf p.pa p.size).eraseDups
  let copyMarks (k : Nat) (p : NatSet) : NatSet :=
    (gs.filter fun g => decide (g / 4 = k)).foldl (fun (p : NatSet) g => if badUnder ps (p.has g) g then p.add g else p.filter fun x => decide (x ≠ g)) p
  (s.commitMarked ps).modCore core fun c =>
    { c with mem := { c.mem with
        pend := c.mem.left ps
        l1 := c.mem.l1.mapVal fun k e =>
          ps.foldl (fun e p =>
            if rangesMeet (k * 128) 128 p.pa p.size
            then { e with data := BitVec.ofNat 1024 (overlay e.data.toNat (k * 128) 128 p.value p.pa p.size), poison := copyMarks k e.poison }
            else e) e } }

/-- Writes bytes of device memory that no core's order covers, committed at once; granules covered whole lose their
poison (R310, R447). Bytes that no home takes are written nowhere (R287, R464). -/
def State.deviceWrite (s : State) (pa size v : Nat) : State :=
  if (s.noHome pa).isSome then s else
  { s with
    mem := Memory.writeN s.mem pa size v
    poison := s.poison.clear (ceilDiv pa 32) ((pa + size) / 32 - ceilDiv pa 32) }

/-! ### Access order at the homes (R307, R288, R296 rule 5) -/

/-- The orders that an access is in with its core's others (R288, R307): of class OM toward its package, and of the
configuration space. -/
def orderKeys (pa cls : Nat) : List Nat := (if cls = 0 then [pkgOf pa] else []) ++ (if isConfig pa then [4096] else [])

/-- The last cycle in which an access of a core in an order is performed. -/
def State.lastIn (s : State) (core key : Nat) : Nat :=
  if core < Config.controlBase then (s.core core).mem.omLast.getD key 0 else (s.ctl core).omLast.getD key 0

/-- Notes the cycle in which an access of a core is performed in the orders it is in. -/
def State.noteLast (s : State) (core : Nat) (keys : List Nat) (t : Nat) : State :=
  let put (m : FMap Nat) : FMap Nat := keys.foldl (fun (m : FMap Nat) k => m.set k t) m
  if keys = [] then s
  else if core < Config.controlBase then s.modCore core fun c => { c with mem := { c.mem with omLast := put c.mem.omLast } }
  else s.modCtl core fun c => { c with omLast := put c.omLast }

/-- The first cycle in which an access may be performed: after the core's earlier accesses that the order of
R307 or R288 puts before it, and after its earlier accesses to the same sector (R296 rule 5). -/
def State.earliest (s : State) (core pa cls t : Nat) : Nat :=
  s.accs.foldl (fun t p =>
    if p.2.core = core && decide (p.2.pa / 128 = pa / 128) && !p.2.performed then max t p.2.performAt else t)
    ((orderKeys pa cls).foldl (fun t k => max t (s.lastIn core k)) t)

/-- Whether an access is a commit message, which no order puts before another access. -/
def Access.commits (a : Access) : Bool :=
  match a.kind with
  | .commit _ _ => true
  | _ => false

/-- Whether an order holds between an access and an earlier one of its core: class OM toward one package, the configuration space
(R288, R307), or the same sector (R140, R296 rule 5). -/
def Access.tied (a earlier : Access) : Bool :=
  ((orderKeys earlier.pa earlier.cls).any fun k => (orderKeys a.pa a.cls).contains k) ||
    (decide (earlier.pa / 128 = a.pa / 128) && !earlier.commits)

/-- Whether an access must wait at its home for an earlier one of its core that an order puts before it and that is still to
be performed: a store without an entry, a request to the host that is not complete, and what waits behind one (R288, R301, R307,
R434); or one to the same sector (R140, R296 rule 5). -/
def State.heldBehind (s : State) (id : Nat) (a : Access) : Bool :=
  s.accs.any fun (x : Nat × Access) =>
    decide (x.1 < id) && decide (x.2.core = a.core) && !x.2.performed && x.2.error.isNone && a.tied x.2

/-- The extra cycles of an atomic's near-bank step (R484). -/
def nearBank : AccKind → Nat
  | .amo .. => 4
  | .vamo .. => 4
  | .csig .. => 4
  | _ => 0

/-- The event that ends an access (R134, R136, R253, R293, R486), or its error (R138, R139). -/
def Access.ending (a : Access) (id : Nat) : Event :=
  match a.kind, a.error with
  | .store, some (.remote r) => .storeErrorRecord id r
  | .vstore _ _, some (.remote r) => .storeErrorRecord id r
  | .store, _ => .storeAck id
  | .vstore _ _, _ => .storeAck id
  | .commit _ _, _ => .commitAck id
  | .csig ch _, e => .csigResponse a.core ch e
  | _, some e => .dataErrorArrival id e
  | .cwrite _ _, none => .storeAck id
  | .ldq _, none => .ldqDataArrival id
  | _, none => .loadDataReturn id

/-- The event that performs an access at its home: a commit message commits (R486), every other access is
performed (R484). -/
def Access.acting (a : Access) (id : Nat) : Event :=
  match a.kind with
  | .commit _ _ => .commitMessage id
  | _ => .accessPerformed id

/-- Packets of an access: request and reply flits (R119, R289, R486). -/
def AccKind.flits : AccKind → Nat × Nat
  | .store => (1, 1)
  | .vstore _ _ => (1, 1)
  | .cwrite _ _ => (4, 1)
  | .commit _ _ => (4, 1)
  | _ => (1, 4)

/-- The packets of an access that leaves the package: what it commits there is versioned, so that its commits are
messages (R486). -/
def Access.wireFlits (a : Access) : Nat × Nat :=
  match a.kind with
  | .commit _ _ => (1, 1)
  | k => k.flits

/-- What identifies a new access. -/
structure NewAccess where
  kind : AccKind
  va : Word
  pa : Nat
  size : Nat
  cls : Nat
  value : Nat
  order : Nat
  lease : Option (Nat × BitVec 32 × Nat) := none
  delay : Nat := 0
  message : Bool := false
  deriving DecidableEq, Repr

/-! ### Tags and windows of remote accesses (R424-R426) -/

def Fabric.window (f : Fabric) (d : Nat) : FabWindow := f.windows.getD d ⟨512, 0, none, none⟩

def Fabric.modWindow (f : Fabric) (d : Nat) (g : FabWindow → FabWindow) : Fabric :=
  { f with windows := f.windows.set d (g (f.window d)) }

/-- A tag is free when nothing is outstanding under it and it is not withheld (R425). -/
def FabTag.isFree (t : FabTag) : Bool := t.access.isNone && t.withheld.isNone

/-- The lowest free tag of the 1,024 (R425). Which free tag is taken is the model's choice (log 14). -/
def Fabric.freeTag (f : Fabric) : Option Nat :=
  (List.range 1024).find? fun n => (f.tags.getD n { gen := 0, access := none, withheld := none }).isFree

/-- Whether the first hop over a link crosses the dateline of its dimension (R415). -/
def Fabric.crosses (f : Fabric) (k : Nat) : Bool :=
  let c := if k / 2 = 0 then coordX f.coord else if k / 2 = 1 then coordY f.coord else coordZ f.coord
  let n := if k / 2 = 0 then f.sizeX else if k / 2 = 1 then f.sizeY else f.sizeZ
  if k % 2 = 0 then decide (c + 1 = n) else decide (c = 0)

/-- The credits of a channel of a link. -/
def Fabric.credits (f : Fabric) (k c : Nat) : Nat := (f.link k).credits[c % 8]'(by omega)

/-- The live link in a minimal direction toward a package whose adaptive channel has the most credits, if one has any (R413). -/
def Fabric.widest (f : Fabric) (target chan : Nat) : Option Nat :=
  ((f.firstLinks target true).filter fun k => (f.link k).live && decide (0 < f.credits k chan)).foldl
    (fun (b : Option Nat) k => match b with
      | some j => if f.credits j chan < f.credits k chan then some k else b
      | none => some k) none

/-- The link and the channel by which a packet leaves for a package (R413, R415): channels 0 to 4 are OD0, OD1, TD0,
TD1 and AD of requests, 5 to 7 OD0, OD1 and AD of replies. `base` is the ordered channel before a dateline, `adaptive` the
adaptive channel of a packet of class AM, which takes its escape channel where none has a credit. None where no live link leads
on (R428). -/
def Fabric.egress (f : Fabric) (target : Nat) (adaptive : Option Nat) (base : Nat) : Option (Nat × Nat) :=
  let alive (k : Nat) : Bool := (f.link k).live
  let ordered := ((f.firstLinks target false).filter alive).head?.map fun k => (k, base + (if f.crosses k then 1 else 0))
  match adaptive with
  | some chan =>
    match f.widest target chan with
    | some k => some (k, chan)
    | none => ordered.orElse fun _ => ((f.firstLinks target true).filter alive).head?.map fun k => (k, chan)
  | none => ordered

/-- The link and the channel by which a packet in transit goes on (R413, R415): an adaptive one as at its source; one on
ordered channels in dimension order, moving to the second channel where it crosses a dateline and staying there within its
dimension. -/
def Fabric.transitEgress (f : Fabric) (q : RemoteRequest) (dest : Nat) : Option (Nat × Nat) :=
  if q.secondLeg then f.egress dest none 2
  else if q.chan = 4 then f.egress dest (some 4) 0
  else if q.chan = 7 then f.egress dest (some 7) 5
  else
    let base := if 5 ≤ q.chan then 5 else if 2 ≤ q.chan then 2 else 0
    (f.egress dest none base).map fun x => (x.1, if q.link / 2 = x.1 / 2 then max x.2 q.chan else x.2)

/-- The class in which a packet of an access travels: a commit message as AM (R414). -/
def Access.wireCls (a : Access) : Nat := if a.commits then 1 else a.cls

/-- The way out of a packet at the router (R413-R415). -/
def State.exitOf (s : State) (p : FabPkt) : Option (Nat × Nat) :=
  match p.item with
  | .own id =>
    match s.accs.get id with
    | none => none
    | some a =>
      if a.commits then s.fabric.egress p.dest (some 7) 5
      else if a.cls = 1 then s.fabric.egress p.dest (some 4) 0
      else s.fabric.egress p.dest none (if a.cls = 2 && p.final.isNone then 2 else 0)
  | .transit q => s.fabric.transitEgress q p.dest
  | .back _ => s.fabric.egress p.dest (some 7) 5

/-- The flits that wait at the router for a channel of a link. -/
def State.heldAt (s : State) (k c : Nat) : Nat :=
  ((s.fabric.queue.filter fun p => decide (s.exitOf p = some (k, c))).map fun p => p.flits).sum

/-- One fabric microsecond in cycles: 500 cycles are 250 ns (R359). -/
def cyclesPerUs : Nat := 2000

/-- Counts flits that leave by a channel of a link: they take the next sequence numbers and stand in the replay buffer (R419), and
the neighbour's next credit message returns them (R420, R421). -/
def State.sendFlits (s : State) (k c flits : Nat) : State :=
  let l := s.fabric.link k
  let sent := l.sent[c % 8]'(by omega) + BitVec.ofNat 16 flits
  let kept := l.kept ++ (List.range flits).map fun i => (l.seq + BitVec.ofNat 8 i, c % 8)
  let l1 : Link :=
    { l with
      sent := l.sent.set (c % 8) sent (by omega)
      credits := l.credits.set (c % 8) (l.credits[c % 8]'(by omega) - flits) (by omega)
      sinceAudit := l.sinceAudit + flits
      seq := l.seq + BitVec.ofNat 8 flits
      kept := kept.drop (kept.length - 256) }
  ({ s with fabric := s.fabric.modLink k fun _ => l1 }).schedule (s.pcc + 190) (.creditReturn k (c % 8) sent)

/-- The receiver frees the slots of a packet's flits and returns them (R420). -/
def State.returnCredit (s : State) (k c flits : Nat) : State :=
  let l := s.fabric.link k
  let ret := l.ret.set (c % 8) (l.ret[c % 8]'(by omega) + BitVec.ofNat 16 flits) (by omega)
  { s with
    fabric := s.fabric.modLink k fun l => { l with ret }
    outputs := s.outputs ++ [.credit k ret.toList false] }

/-- Removes an event from the agenda. -/
def State.unschedule (s : State) (e : Event) : State :=
  { s with agenda := s.agenda.filter fun p => decide (p.2 ≠ e) }

/-! ### Issue of an access -/

/-- Whether an address is in a register block (R287). -/
def isRegister (pa : Nat) : Bool := match regionOf (localOf pa) with
  | .regs _ _ => true
  | _ => false

/-- The cycles by which the die networks delay a request of a compute core beyond the figures of R484 (R120): on its own die,
and on another where its home is. In which cycle it enters the other die's network no rule says (log 10). -/
def State.requestLate (s : State) (core pa flits start : Nat) : State × Nat :=
  let own := s.carryLate (dieOf core) (coreSpot (physOf core)) (s.gateOf core pa) flits (start + 1)
  match if s.isLocal pa then regionOf (localOf pa) else .none with
  | .dram d o => far own d o
  | .dsm d o => far own d o
  | _ => own
where
  far (own : State × Nat) (d o : Nat) : State × Nat :=
    let q := sliceSpot (sliceOf o)
    if d = dieOf core || (s.die d).gone then own
    else
      let other := own.1.carryLate d (hubSpot q.row) q flits (start + own.2 + 45)
      (other.1, own.2 + other.2)

/-- The cycles by which the own die's network delays a reply (R120). -/
def State.replyLate (s : State) (a : Access) : State × Nat :=
  if a.core < Config.controlBase then
    s.carryLate (dieOf a.core) (s.gateOf a.core a.pa) (coreSpot (physOf a.core)) a.kind.flits.2 s.pcc
  else (s, 0)

/-- Enters an access whose times are known, and what it leaves: its place in its core's orders, and its line in the slice. -/
def State.place (s : State) (id : Nat) (a : Access) : State :=
  ((({ s with accs := s.accs.set id a }).noteLast a.core (orderKeys a.pa a.cls) a.performAt).fillSlice a.pa a.performAt).tick.tick

/-- Times an access to a home of this package and schedules what comes of it (R484). A compute core's access, and any access to a
register block (R289), is timed by its route; another access of a control-die core by a free value, since the spec gives its
latency none (log 8). An access that no home answers ends with an error at the end of its route (R289). -/
def State.timeAccess (s : State) (id : Nat) (a : Access) (flits : Nat × Nat) : State :=
  let hit := s.sliceHit a.pa
  let compute := decide (a.core < Config.controlBase)
  let r := if compute || isRegister a.pa then s.route a.core a.pa a.cls flits.1 flits.2 hit
    else ⟨1 + Config.freeDelay s.free, 1 + Config.freeDelay (s.free + 1),
      (s.route 0 a.pa a.cls 1 1 hit).error⟩
  let start := max s.pcc a.issued
  let (n, late) := if compute then s.requestLate a.core a.pa flits.1 start else (s, 0)
  let t := s.earliest a.core a.pa a.cls (start + r.request + nearBank a.kind + late)
  let a' := { a with performAt := t, replyAt := t + r.reply, error := r.error.map DataError.remote }
  match r.error with
  | some _ => (n.place id a').schedule (t + r.reply) (a'.ending id)
  | none => (n.place id a').schedule t (a'.acting id)

/-- Whether a commit message must wait for the acknowledgements of its core's stores to the package (R417). -/
def State.commitHeld (s : State) (id : Nat) (a : Access) : Bool :=
  a.commits &&
    s.accs.any fun (x : Nat × Access) =>
      decide (x.1 < id) && decide (x.2.core = a.core) && decide (pkgOf x.2.pa = pkgOf a.pa) && (match x.2.kind with
        | .store => true
        | .vstore _ _ => true
        | .cwrite _ _ => true
        | _ => false)

/-- Starts an access: to another package it comes to the fabric die after 110 cycles, behind what its core's orders put before it
(R416, R418); `replyAt` 0 marks it as on its way there. -/
def State.startAccess (s : State) (id : Nat) (a : Access) (flits : Nat × Nat) : State :=
  if s.isLocal a.pa then s.timeAccess id a flits
  else
    let start := max s.pcc a.issued
    let (n, late) := if a.core < Config.controlBase then s.requestLate a.core a.pa flits.1 start else (s, 0)
    let t := s.accs.foldl (fun t x =>
      if x.2.core = a.core && decide (x.2.replyAt = 0) && a.tied x.2 then max t x.2.performAt else t) (start + 110 + late)
    ({ n with accs := n.accs.set id { a with performAt := t, replyAt := 0 } }).schedule t (a.acting id)

/-! ### The router of the fabric die (R413-R428) -/

/-- A request leaves the package: it is performed at its home after its hops and the way from the ingress, and its reply is back at
the fabric die after the way to the egress and the reply's hops (R418). An address in no region is answered with an error (R427). -/
def State.departAccess (s : State) (id : Nat) (a : Access) : State :=
  let f := s.fabric
  let pkg := pkgOf a.pa
  let back := 40 * f.hops f.coord pkg
  let out := match a.tag.bind fun t => (f.tags.get t.1).bind fun x => x.mid with
    | some m => 40 * (f.hops f.coord m + f.hops m pkg)
    | none => back
  let region := regionOf (localOf a.pa)
  let part := homePart region (s.sliceHit a.pa)
  let t := s.earliest a.core a.pa a.cls (s.pcc + out + part.1 + nearBank a.kind)
  let a' := { a with performAt := t, replyAt := t + part.2 + back + 110, error := if region = Region.none then some (.remote 4) else none }
  match a'.error, a.tag with
  | some _, some (n, g) => (s.place id a').schedule (t + part.2 + back) (.replyArrival n g)
  | _, _ => (s.place id a').schedule t (a'.acting id)

/-- A packet goes out over a channel of a link (R420). -/
def State.depart (s : State) (k c : Nat) (p : FabPkt) : State :=
  let s1 := s.sendFlits k c p.flits
  match p.item with
  | .own id =>
    match s.accs.get id with
    | some a => s1.departAccess id a
    | none => s1
  | .transit q =>
    let s2 := s1.returnCredit q.link q.chan q.flits
    { s2 with outputs := s2.outputs ++ [.forward k c { q with link := k, chan := c, waited := 0, dest := some p.dest, final := p.final, secondLeg := false }] }
  | .back out => { s1 with outputs := s1.outputs ++ [out] }

/-- An error reply of the router to the source of a request. -/
def errorReply (q : RemoteRequest) (reason now : Nat) : FabPkt :=
  ⟨.back (.reply q.src q.tag q.gen 0 (some (.remote reason))), q.src, none, 1, none, now⟩

/-- What becomes of a packet for which no live link leads on (R428): a request is answered with an error, a reply or a notice is
discarded. -/
def State.strand (s : State) (p : FabPkt) : State :=
  let reason (adaptive : Bool) : Nat := s.fabric.noPathReason (s.fabric.firstLinks p.dest adaptive) (p.final.getD p.dest)
  match p.item with
  | .own id =>
    match s.accs.get id with
    | none => s
    | some a =>
      match a.tag with
      | none => s
      | some (n, g) =>
        ({ s with accs := s.accs.set id { a with performAt := s.pcc, replyAt := s.pcc + 110, error := some (.remote (reason (decide (a.wireCls = 1)))) } }).schedule
          s.pcc (.replyArrival n g)
  | .transit q =>
    let s1 := s.returnCredit q.link q.chan q.flits
    if 5 ≤ q.chan then s1
    else { s1 with fabric := { s1.fabric with queue := s1.fabric.queue ++ [errorReply q (reason (decide (q.chan = 4))) s.pcc] } }
  | .back _ => s

/-- Offers one packet to its channel: each channel is a FIFO (R416), so that what waits for a channel blocks those behind it. -/
def State.offer (x : State × List (Nat × Nat)) (p : FabPkt) : State × List (Nat × Nat) :=
  let s := x.1
  match s.exitOf p with
  | none => (s.strand p, x.2)
  | some (k, c) =>
    if x.2.contains (k, c) || (s.fabric.link k).retraining || decide (s.fabric.credits k c < p.flits) then
      ({ s with fabric := { s.fabric with queue := s.fabric.queue ++ [p] } }, (k, c) :: x.2)
    else (s.depart k c p, x.2)

/-- One round over the packets at the router, in the order in which they came. -/
def State.offerAll (s : State) : State :=
  (s.fabric.queue.foldl State.offer ({ s with fabric := { s.fabric with queue := [] } }, [])).1

/-- A packet that has waited 16,384 cycles is to be discarded (R425): the event for each link that it may wait for. -/
def State.watchAge (s : State) : State :=
  ((s.fabric.queue.filter fun p => decide (p.since = s.pcc)).flatMap fun p =>
      (s.fabric.firstLinks p.dest true).map fun k => (s.pcc + 16384, Event.routerDiscard k)).foldl
    (fun (s : State) e => if s.agenda.contains e then s else s.schedule e.1 e.2) s

/-- What is at the router goes on as far as it may; the second round takes the error replies of the first. -/
def State.pump (s : State) : State :=
  if s.fabric.queue = [] then s
  else if s.fabric.lost then { s with fabric := { s.fabric with queue := [] } }
  else s.offerAll.offerAll.watchAge

/-- A congestion notice halves the window toward a package, but not again within 2,048 cycles; 1,024 cycles without a notice raise
it (R424). -/
def State.noticed (s : State) (dest : Nat) : State :=
  let f := { s.fabric with cnrecv := bump32 s.fabric.cnrecv }
  let w := f.window dest
  let ignored := w.halvedAt.any fun t => decide (s.pcc < t + 2048)
  let w1 := if ignored then { w with noticeAt := some s.pcc }
    else { w with wd := max 4 (w.wd / 2), halvedAt := some s.pcc, noticeAt := some s.pcc }
  (({ s with fabric := f.modWindow dest fun _ => w1 }).unschedule (.windowIncrease dest)).schedule (s.pcc + 1024) (.windowIncrease dest)

/-- A request comes for an output port. While a request channel of the port holds 48 flits, the port sends the request's source a
notice that names the request's destination, at most one per source and 256 cycles (R423). -/
def State.noticeFor (s : State) (p : FabPkt) (src : Nat) : State :=
  match s.exitOf p with
  | none => s
  | some (k, _) =>
    let key := k * 4096 + src % 4096
    if !((List.range 5).any fun c => decide (48 ≤ s.heldAt k c)) || (s.fabric.notices.get key).any fun t => decide (s.pcc < t + 256) then s
    else
      let about := p.final.getD p.dest
      let f := { s.fabric.modLink k (fun l => { l with cnSent := bump32 l.cnSent }) with notices := s.fabric.notices.set key s.pcc }
      if src = f.coord then ({ s with fabric := f }).noticed about
      else { s with fabric := { f with queue := f.queue ++ [⟨.back (.notice src about), src, none, 1, none, s.pcc⟩] } }

/-- A packet comes to the router. -/
def State.enqueue (s : State) (p : FabPkt) : State :=
  { s with fabric := { s.fabric with queue := s.fabric.queue ++ [p] } }

/-- Sends a reply or a notice to another package (R414); no window holds one (R424). A reply counts in its access's window until it
leaves (R402). -/
def State.sendBack (s : State) (dest flits : Nat) (window : Option Nat) (out : Output) : State :=
  (s.enqueue ⟨.back out, dest, none, flits, window, s.pcc⟩).pump

/-- Allocates a tag to an access at the fabric die, with its intermediate package and its timeout (R413, R425, R426), and hands its
packet to the router. -/
def State.allocateTag (s : State) (id : Nat) (a : Access) (n : Nat) : State :=
  let f := s.fabric
  let pkg := pkgOf a.pa
  let flits := a.wireFlits.1
  let g := ((f.tags.getD n { gen := 15, access := none, withheld := none }).gen + 1) % 16
  let mid := if a.wireCls = 2 then some s.rtMid else none
  let first := mid.filter fun m => decide (m ≠ f.coord)
  let counted := if a.commits then 0 else flits
  let f1 := { f with tags := f.tags.set n { gen := g, access := some id, withheld := none, dest := pkg, flits := counted, window := a.window, mid } }
  let s1 : State :=
    { s with
      accs := s.accs.set id { a with tag := some (n, g) }
      fabric := f1.modWindow pkg fun w => { w with flits := w.flits + counted } }
  let p : FabPkt := ⟨.own id, first.getD pkg, first.map fun _ => pkg, flits, none, s.pcc⟩
  let s2 := (s1.schedule (s.pcc + f.timeout * cyclesPerUs) (.requesterTimeout n)).tick
  ((if a.commits then s2 else s2.noticeFor p f.coord).enqueue p)

/-- The fabric die answers an access itself (R412, R428). -/
def State.refuse (s : State) (id : Nat) (a : Access) (reason : Nat) : State :=
  let a' := { a with performAt := s.pcc, replyAt := s.pcc + 110, error := some (.remote reason) }
  ({ s with accs := s.accs.set id a' }).schedule (s.pcc + 110) (a'.ending id)

/-- Whether a request waits at the fabric die for a package, of those given; a commit message is none (R414, R424). -/
def State.waitsFor (s : State) (l : List Nat) (dest : Nat) : Bool :=
  l.any fun i => (s.accs.get i).any fun a => decide (pkgOf a.pa = dest) && !a.commits

/-- An access at the fabric die goes on to the router once a tag is free and its package's window admits it (R424, R425); one that
has no path is answered (R412, R428). -/
def State.letOut (s : State) (id : Nat) : State :=
  let left : State := { s with fabric := { s.fabric with waiting := s.fabric.waiting.filter fun i => decide (i ≠ id) } }
  match s.accs.get id with
  | none => left
  | some a =>
    let pkg := pkgOf a.pa
    let w := s.fabric.window pkg
    if s.commitHeld id a then s
    else if !s.fabric.inside pkg then left.refuse id a 5
    else
      match s.fabricRefusal pkg a.wireCls, s.fabric.freeTag with
      | some r, _ => left.refuse id a r
      | none, none => s
      | none, some n =>
        if a.commits || (decide (w.flits + a.wireFlits.1 ≤ w.wd) && !s.waitsFor (s.fabric.waiting.takeWhile fun i => decide (i ≠ id)) pkg) then
          left.allocateTag id a n
        else s

/-- What waits at the fabric die and at its router goes on as far as it may, in arrival order. -/
def State.releaseWaiting (s : State) : State := (s.fabric.waiting.foldl State.letOut s).pump

/-- An access of this package is at the fabric die. -/
def State.atFabric (s : State) (id : Nat) (a : Access) : State :=
  if a.tag.isSome || s.fabric.waiting.contains id then s
  else ({ s with fabric := { s.fabric with waiting := s.fabric.waiting ++ [id] } }).releaseWaiting

/-- Sends an access of the step's stream to its home (R484). -/
def State.send (s : State) (a : NewAccess) : State × Nat :=
  let id := s.nextId
  let acc : Access :=
    { core := s.curKey, slot := s.cur.slot, stream := s.cur.stream, kind := a.kind, pc := s.curPc, va := a.va, pa := a.pa,
      size := a.size, cls := a.cls, issued := s.pcc + a.delay, performAt := 0, replyAt := 0, order := a.order,
      value := a.value, performed := false, error := none, window := s.qwin, lease := a.lease, tag := none, host := 0 }
  (({ s with nextId := id + 1 }).startAccess id acc (if a.message then (1, 1) else a.kind.flits), id)

/-! ### Checks of a global access (R131, R287) -/

/-- The permission an access needs (R131). -/
inductive Perm where
  | read | write | both
  deriving DecidableEq, Repr

/-- What the checks of a global access answer. -/
inductive Checked where
  | ok (pa : Nat) (e : TlbEntry)
  | miss
  | fail (t : TrapArgs)
  deriving DecidableEq, Repr

/-- Whether the register block or window of an address refuses the step's unit (R287, R288, R435): a register
block admits only the control die, configuration space no atomic, and the host window of a context is open
while its HOSTBASE.EN is 1. -/
def State.refusesUnit (s : State) (pa : Nat) (p : Perm) : Bool :=
  isConfig pa &&
    (match regionOf (localOf pa) with
     | .regs _ _ => decide (s.cur.stream ≠ .control) || decide (p = .both)
     | .hostWindow _ => decide (p = .both) || decide (s.host.base.getD s.curCtx 0 % 2 = 0)
     | _ => decide (p = .both))

/-- Checks 1 to 3 of R131 for an address of the step's stream. -/
def State.checkAccess (s : State) (ea : Word) (size : Nat) (p : Perm) : Checked :=
  if ea.toNat % size ≠ 0 then .fail { cause := causeAlignment, addr := ea }
  else if ea.toNat ≥ pow2 56 then .fail { cause := causeTranslation, addr := ea, detail := 0x20 }
  else
    match s.lookup s.curKey s.curCtx ea.toNat with
    | none => .miss
    | some e =>
      let pa := e.phys ea.toNat
      if (p ≠ .read && !e.writable) || s.refusesUnit pa p then .fail { cause := causeProtection, addr := ea }
      else .ok pa e

/-- Goes on with the physical address once the checks pass; a miss holds the stream until the walk ends
(R132), and a failed check traps. -/
def withAddress (ea : Word) (size : Nat) (p : Perm) (s : State) (k : Nat → TlbEntry → Out) : Out :=
  match s.checkAccess ea size p with
  | .ok pa e => k pa e
  | .fail t => trapWith s t
  | .miss =>
    let (s', id) := s.startWalk ea false
    .next (s'.holdFor (.walk id))

/-! ### Outstanding accesses of a stream (R134) -/

/-- Whether an access belongs to the scalar stream of the step. -/
def State.mine (s : State) (a : Access) : Bool :=
  decide (a.core = s.curKey) && decide (a.slot = s.cur.slot) && decide (a.stream = s.cur.stream)

/-- The loads and atomics a stream has outstanding. -/
def State.outstanding (s : State) : Nat :=
  (s.accs.filter fun p => s.mine p.2 && (match p.2.kind with
    | .load .. => true
    | .block _ => true
    | .amo .. => true
    | .ldq _ => true
    | _ => false)).length

/-- The limit of R134. -/
def Stream.loadLimit : Stream → Nat
  | .eft => 48
  | .control => 32
  | _ => 16

/-- An access beyond the limit waits at issue (R134). -/
def withRoom (s : State) (k : Out) : Out :=
  if s.outstanding < s.cur.stream.loadLimit then k else .next (s.holdFor .resource)

/-! ### The core's order and leases -/

/-- Takes the next place in the core's issue order (R307). -/
def State.nextOrder (s : State) : Nat := s.here.mem.order

def State.bumpOrder (s : State) : State :=
  match s.cur.stream with
  | .control => s
  | _ => s.modHere fun c => { c with mem := { c.mem with order := c.mem.order + 1 } }

/-- The lease level of a page (R298). -/
def TlbEntry.leaseLevel (e : TlbEntry) : Nat := if e.writable then 0 else 4

/-- The lease tag that a fill requested now takes (R298). -/
def Core.leaseTag (c : Core) (e : TlbEntry) : Nat × BitVec 32 × Nat :=
  (e.leaseLevel, c.job.ph[if e.leaseLevel = 0 then 0 else 4]'(by split <;> omega), c.mem.epoch)

/-- Whether a lease tag is valid on a core (R298, R299). -/
def Core.leaseValid (c : Core) (level : Nat) (ph : BitVec 32) (epoch : Nat) : Bool :=
  if level = 0 then decide (ph = c.job.ph[0]) && decide (epoch = c.mem.epoch) else decide (ph = c.job.ph[4])

/-- The sector of a load that hits a valid lease, with no older access of the core to it in flight. The loads of a sector that
its core has evicted dirty miss, and its entry answers them (R301). -/
def State.leaseHit (s : State) (pa : Nat) : Option L1Sector :=
  let c := s.here
  let evicted := c.mem.pend.any fun p => decide (p.place = .versioned) && decide (p.pa / 128 = pa / 128) && s.ownDie s.cur.core pa
  if evicted then none else
  match c.mem.l1.get (pa / 128) with
  | none => none
  | some e =>
    if c.leaseValid e.level e.ph e.epoch &&
        !(s.accs.any fun p => decide (p.2.core = s.cur.core) && decide (p.2.pa / 128 = pa / 128))
    then some e else none

/-! ### Scalar loads (R133, R134) -/

/-- The value of an access of the given size, extended to 64 bits (R133). -/
def extend (signed : Bool) (size v : Nat) : Word :=
  if signed then wordOfInt (sextNat v (8 * size)) else BitVec.ofNat 64 (v % pow2 (8 * size))

/-- Whether a field that names a destination is x0. -/
def regDest (d : BitVec 5) : Nat := d.toNat

/-- The place at which a stream notes an access that it awaits: the destination register, or for x0, which no instruction waits
for, a place past the registers (R43, R134). -/
def awaitKey (d id : Nat) : Nat := if d = 0 then 32 + id else d

/-- Notes that register d awaits an access (R134). -/
def Scalar.await (sc : Scalar) (d : BitVec 5) (id : Nat) : Scalar := { sc with waits := sc.waits.set (awaitKey d.toNat id) id }

/-- Starts a read of global memory for the step's stream: with a valid lease its data is there in 6 cycles
(R289) and no home access is made (R484); else the home answers, and the fill takes the lease tag of now (R298). -/
def State.startRead (s : State) (kind : AccKind) (va : Word) (pa size cls delay : Nat) (e : TlbEntry) : State × Nat :=
  let order := s.nextOrder
  let cached := !(s.cur.stream = .control) && !isConfig pa
  match if cached then s.leaseHit pa else none with
  | some sec =>
    let v := overlayStores (fld sec.data.toNat (8 * (pa % 128 + size) - 1) (8 * (pa % 128))) pa size s.here.mem.pend
    let bad := (granulesOf pa size).any fun g => badUnder s.here.mem.pend (sec.poison.has g) g
    let id := s.nextId
    let acc : Access :=
      { core := s.curKey, slot := s.cur.slot, stream := s.cur.stream, kind, pc := s.curPc, va, pa, size, cls,
        issued := s.pcc + delay, performAt := s.pcc + delay, replyAt := s.pcc + delay + 6, order, value := v,
        performed := true, error := if bad then some .poison else none, window := s.qwin, lease := none,
        tag := none, host := 0 }
    ((({ s with accs := s.accs.set id acc, nextId := id + 1 }).schedule (s.pcc + delay + 6) (acc.ending id)).bumpOrder, id)
  | none =>
    let lease := if cached then some (s.here.leaseTag e) else none
    let (s1, id) := s.send { kind, va, pa, size, cls, value := e.va + e.level, order, lease, delay }
    (s1.bumpOrder, id)

/-- A scalar load (R133, R134). -/
def loadForm (d a : BitVec 5) (sz c : BitVec 2) (o : BitVec 12) (signed : Bool) (s : State) : Out :=
  onStreams true true true s <| withFields [d, a] s <| withReads [a] s <| withRoom s <|
    let size := pow2 sz.toNat
    let ea := s.x a + o.signExtend 64 * BitVec.ofNat 64 size
    withAddress ea size .read s fun pa e =>
      let (s1, id) := s.startRead (.load (regDest d) signed) ea pa size c.toNat 0 e
      .next (s1.finish fun sc => sc.await d id)

def execLd (d a : BitVec 5) (sz c : BitVec 2) (o : BitVec 12) (s : State) : Out := loadForm d a sz c o true s
def execLdu (d a : BitVec 5) (sz c : BitVec 2) (o : BitVec 12) (s : State) : Out := loadForm d a sz c o false s

/-! ### Scalar stores (R133, R293) -/

/-- The low bytes of a register (R133). -/
def storeValue (v : Word) (size : Nat) : Nat := v.toNat % pow2 (8 * size)

/-- A new pending store of the step's stream. -/
def State.newStore (s : State) (va : Word) (pa size cls value : Nat) (place : StorePlace) : PStore :=
  { order := s.nextOrder, slot := s.cur.slot, stream := s.cur.stream, pa, size, value, cls, place,
    performed := decide (place = .dirty), acked := decide (place = .dirty), committing := false, fenced := 0,
    poison := false, window := s.qwin, va, ctx := s.curCtx }

/-- A pending store is made of the byte ranges that one access writes, in one place of the core's order (R219). -/
def State.addStores (s : State) (va : Word) (pa cls value : Nat) (place : StorePlace) (runs : List (Nat × Nat)) : State :=
  let ps := runs.map fun r => s.newStore va (pa + r.1) r.2 cls (value / pow2 (8 * r.1) % pow2 (8 * r.2)) place
  s.modHere fun c => { c with mem := { c.mem with pend := c.mem.pend ++ ps } }

/-- Commit(addr, data, size) of R10 for a compute core: a store to its own die is performed into a dirty
sector at once; any other is written through as a pending version at its home (R293). A store to
configuration space bypasses both and acts when performed (R288). -/
def State.postStore (s : State) (kind : AccKind) (va : Word) (pa size cls value delay : Nat) (runs : List (Nat × Nat)) : State :=
  let own := s.ownDie s.cur.core pa && (s.route s.cur.core pa cls 1 1 true).error = none
  if own then (s.addStores va pa cls value .dirty runs).bumpOrder
  else if isConfig pa then
    runs.foldl (fun (s : State) r =>
      (s.send { kind, va, pa := pa + r.1, size := r.2, cls, value := value / pow2 (8 * r.1) % pow2 (8 * r.2), order := s.nextOrder, delay }).1.bumpOrder) s
  else
    ((s.addStores va pa cls value .inFlight runs).send { kind, va, pa, size, cls, value, order := s.nextOrder, delay }).1.bumpOrder

/-- Both copies of a twin group must agree on what a store does (R283). -/
def Scalar.agreeOn {α : Type} [DecidableEq α] (sc : Scalar) (f : RegFile → α) : Bool :=
  match sc.twin with
  | some t => decide (f sc.rf = f t)
  | none => true

/-- Whether a store changes the HOSTBASE of a context with a launch in flight, against R435. -/
def State.breaksHostbase (s : State) (pa size v : Nat) : Bool :=
  s.isLocal pa &&
    (match regionOf (localOf pa) with
     | .regs .hostbase o =>
       let old := s.host.base.getD (o / 8) 0
       let new := overlay old (o / 8 * 8) 8 v o size
       s.launched (o / 8) && decide (fld new 63 12 * 4096 + new % 2 ≠ old)
     | _ => false)

/-- ST (R133): posted once its checks pass (R134). On the control die the store commits when performed (R310); one that breaks R435 is
ILLEGAL_OPERAND and changes nothing (R2; DEDUCED, log 43). -/
def execSt (d a : BitVec 5) (sz c : BitVec 2) (o : BitVec 12) (s : State) : Out :=
  onStreams true false true s <| withReads [d, a] s <|
    let size := pow2 sz.toNat
    let off := o.signExtend 64 * BitVec.ofNat 64 size
    let ea := s.x a + off
    let v := storeValue (s.x d) size
    withAddress ea size .write s fun pa _ =>
      check (s.scalar.agreeOn fun r => (r.get a + off, storeValue (r.get d) size)) causeTwin s <|
        if s.cur.stream = .control then
          check (!s.breaksHostbase pa size v) causeOperand s <|
          .next ((s.send { kind := .store, va := ea, pa, size, cls := c.toNat, value := v, order := 0 }).1.finish id)
        else .next ((s.postStore .store ea pa size c.toNat v 0 [(0, size)]).finish id)

/-! ### Atomics (R36, R137, R302, R303) -/

/-- The new value of an atomic (R137): operation code, FP or integer, operand b and compare value, all of
w bits. FP operations round to nearest even and set no flag (R36). -/
def amoResult (op size old b : Nat) : Nat :=
  let m := pow2 (8 * size)
  let f := if size = 8 then Fmt.f64 else Fmt.f32
  match op with
  | 0 => (old + b) % m
  | 1 => old &&& b
  | 2 => old ||| b
  | 3 => old ^^^ b
  | 4 => if sextNat b (8 * size) < sextNat old (8 * size) then b else old
  | 5 => if sextNat old (8 * size) < sextNat b (8 * size) then b else old
  | 6 => b
  | 7 => b
  | 8 => (f.add .rne old b).bits
  | 9 => (f.minMax false old b).bits
  | 10 => (f.minMax true old b).bits
  | 11 => if b < old then b else old
  | _ => if old < b then b else old

/-- The bytes an atomic leaves: a failed cas writes nothing (R137). -/
def amoNew (op size old b cmp : Nat) : Nat :=
  if op = 7 ∧ old ≠ cmp then old else amoResult op size old b

/-- Whether R140 orders a pending store before an atomic of the same core: both OM, or a FENCE of their stream that names both
classes (R303). Bit m of `fenced` is set by a FENCE of mask m. -/
def PStore.orderedBefore (p : PStore) (a : Access) : Bool :=
  (decide (p.cls = 0) && decide (a.cls = 0)) ||
    (decide (p.slot = a.slot) && decide (p.stream = a.stream) &&
      (List.range 8).any fun m => p.fenced.testBit m && m.testBit p.cls && m.testBit a.cls)

/-- AMO: performed at the home as one step (R137, R484). -/
def amoForm (d a b : BitVec 5) (sz c : BitVec 2) (op : Nat) (s : State) : Out :=
  onStreams true false true s <| withReads [d, a, b] s <| withRoom s <|
    let size := pow2 sz.toNat
    let ea := s.x a
    withAddress ea size .both s fun pa _ =>
      check (s.scalar.agreeOn fun r => (r.get a, r.get b, r.get d)) causeTwin s <|
        let (s1, id) := s.send { kind := .amo (regDest d) op (s.x b) (s.x d), va := ea, pa, size, cls := c.toNat,
                                 value := 0, order := s.nextOrder }
        .next (s1.bumpOrder.finish fun sc => sc.await d id)

def execAmoAdd (d a b : BitVec 5) (sz c : BitVec 2) (s : State) : Out := amoForm d a b sz c 0 s
def execAmoAnd (d a b : BitVec 5) (sz c : BitVec 2) (s : State) : Out := amoForm d a b sz c 1 s
def execAmoOr (d a b : BitVec 5) (sz c : BitVec 2) (s : State) : Out := amoForm d a b sz c 2 s
def execAmoXor (d a b : BitVec 5) (sz c : BitVec 2) (s : State) : Out := amoForm d a b sz c 3 s
def execAmoMin (d a b : BitVec 5) (sz c : BitVec 2) (s : State) : Out := amoForm d a b sz c 4 s
def execAmoMax (d a b : BitVec 5) (sz c : BitVec 2) (s : State) : Out := amoForm d a b sz c 5 s
def execAmoSwap (d a b : BitVec 5) (sz c : BitVec 2) (s : State) : Out := amoForm d a b sz c 6 s
def execAmoCas (d a b : BitVec 5) (sz c : BitVec 2) (s : State) : Out := amoForm d a b sz c 7 s
def execAmoFadd (d a b : BitVec 5) (sz c : BitVec 2) (s : State) : Out := amoForm d a b sz c 8 s
def execAmoFmin (d a b : BitVec 5) (sz c : BitVec 2) (s : State) : Out := amoForm d a b sz c 9 s
def execAmoFmax (d a b : BitVec 5) (sz c : BitVec 2) (s : State) : Out := amoForm d a b sz c 10 s

/-! ### Scratchpad (R135) -/

/-- Whether a scratchpad range lies in the launch's reservation (R135). -/
def Core.inReservation (c : Core) (ea : Word) (n : Nat) : Bool := decide (ea.toNat + n ≤ c.job.spmSize)

/-- A scratchpad load: latency 4 (R99). Poisoned bytes raise POISON by R138 when the data is there. -/
def ldsForm (d a : BitVec 5) (sz : BitVec 2) (o : BitVec 12) (signed : Bool) (s : State) : Out :=
  onStreams true false false s <| withReads [a] s <|
    let size := pow2 sz.toNat
    let ea := s.x a + o.signExtend 64 * BitVec.ofNat 64 size
    if ea.toNat % size ≠ 0 then trapWith s { cause := causeAlignment, addr := ea }
    else if !s.here.inReservation ea size then trapWith s { cause := causeProtection, addr := ea }
    else if poisonedIn s.here.spmPoison ea.toNat size then
      let id := s.nextId
      let acc : Access :=
        { core := s.curKey, slot := s.cur.slot, stream := s.cur.stream, kind := .load (regDest d) signed,
          pc := s.scalar.pc, va := ea, pa := ea.toNat, size, cls := 0, issued := s.pcc, performAt := s.pcc,
          replyAt := s.pcc + 4, order := 0, value := 0, performed := true, error := some .poison,
          window := s.qwin, lease := none, tag := none, host := 0 }
      .next ((({ s with accs := s.accs.set id acc, nextId := id + 1 }).schedule (s.pcc + 4) (.dataErrorArrival id .poison)).finish
        fun sc => sc.await d id)
    else
      .next (s.finishWrite d 4 fun _ => extend signed size (Memory.readN s.here.spm ea.toNat size))

def execLds (d a : BitVec 5) (sz : BitVec 2) (o : BitVec 12) (s : State) : Out := ldsForm d a sz o true s
def execLdsu (d a : BitVec 5) (sz : BitVec 2) (o : BitVec 12) (s : State) : Out := ldsForm d a sz o false s

/-- Writes scratchpad bytes; granules written whole lose their poison (R447). -/
def Core.writeSpm (c : Core) (a size v : Nat) : Core :=
  { c with
    spm := Memory.writeN c.spm a size v
    spmPoison := c.spmPoison.filter fun g => !(decide (a ≤ g * 32) && decide (g * 32 + 32 ≤ a + size)) }

/-- Writes the ranges of one vector store; a granule that they cover whole together loses its poison (R447). -/
def Core.writeSpmAll (c : Core) (l : List (Nat × Nat × Nat)) : Core :=
  let c1 := l.foldl (fun (c : Core) w => c.writeSpm w.1 w.2.1 w.2.2) c
  { c1 with spmPoison := c1.spmPoison.filter fun g =>
      !((List.range 32).all fun i => l.any fun w => decide (w.1 ≤ g * 32 + i) && decide (g * 32 + i < w.1 + w.2.1)) }

/-- Keeps the bytes that a scalar store overwrites, for the vlds of this cycle (R135). -/
def Core.keepOld (c : Core) (a size : Nat) : Core :=
  { c with spmOld := (List.range size).map (fun i => (a + i, Memory.read c.spm (a + i))) ++ c.spmOld }

def execSts (d a : BitVec 5) (sz : BitVec 2) (o : BitVec 12) (s : State) : Out :=
  onStreams true false false s <| withReads [d, a] s <|
    let size := pow2 sz.toNat
    let off := o.signExtend 64 * BitVec.ofNat 64 size
    let ea := s.x a + off
    if ea.toNat % size ≠ 0 then trapWith s { cause := causeAlignment, addr := ea }
    else if !s.here.inReservation ea size then trapWith s { cause := causeProtection, addr := ea }
    else
      check (s.scalar.agreeOn fun r => (r.get a + off, storeValue (r.get d) size)) causeTwin s <|
        .next ((s.modHere fun c => (c.keepOld ea.toNat size).writeSpm ea.toNat size (storeValue (s.x d) size)).finish id)

end Sys2Proof.Machine
end

