-- ==== Sys2Proof/Machine/Ports.lean ====
section
/-! DEFINITION. The stream ports (R58, R119-R121, R163-R168, R272-R274): descriptors, packets, room,
pushing and popping. -/

namespace Sys2Proof.Machine

/-! ### Descriptors (R163, R164) -/

def descRole (d : Word) : Nat := fld d.toNat 63 48
def descPport (d : Word) : Nat := fld d.toNat 47 44
def descProd (d : Word) : Nat := fld d.toNat 39 36
def descCons (d : Word) : Nat := fld d.toNat 35 32

/-- The packet size in bytes (R163). -/
def descBytes (d : Word) : Nat := 4 * (fld d.toNat 23 16 + 1)

/-- The MBZ fields of a binding descriptor are zero, ROLE and PPORT included unless a side is a peer (R163). -/
def descMbzOk (d : Word) : Bool :=
  decide (fld d.toNat 43 40 = 0) && decide (fld d.toNat 31 24 = 0) && decide (fld d.toNat 15 0 = 0) &&
    (decide (descProd d = 5) || decide (descCons d = 5) || (decide (descRole d = 0) && decide (descPport d = 0)))

/-- The producer and consumer codes that R164 allows. -/
def descCodesOk (d : Word) : Bool :=
  decide (descProd d ≤ 7) && decide (descCons d ≤ 8) && decide (descCons d ≠ 4) &&
    !(decide (descProd d = 5) && decide (descCons d = 5))

/-! ### Room (R164, R168) -/

def Port.bytesPer (p : Port) : Nat := descBytes p.desc

/-- The packets a port holds at most (R164). -/
def Port.capacity (p : Port) : Nat := 8192 / p.bytesPer

/-- The bytes not taken by packets, the partial packet, ldq reservations and bytes in flight. -/
def Port.byteRoom (p : Port) : Nat :=
  p.capacity * p.bytesPer -
    (p.packets.length * p.bytesPer + p.partialBytes.length + (p.ldqs.map (·.size)).sum + p.inflight +
      p.reserved * p.bytesPer)

/-- The packets a port can still accept, reservations counted as taken (R168). -/
def Port.free (p : Port) : Nat := p.byteRoom / p.bytesPer

/-- The packets visible to the consumer in a cycle (R121, R168). -/
def Port.held (p : Port) (now : Nat) : Nat := (p.packets.filter fun k => decide (k.seen ≤ now)).length

/-- A port with nothing in it, on its way or reserved (R167). -/
def Port.drained (p : Port) : Bool :=
  decide (p.packets = []) && decide (p.partialBytes = []) && decide (p.reserved = 0) &&
    decide (p.ldqs = []) && decide (p.inflight = 0) && decide (p.leaving = 0)

def Core.port (c : Core) (n : Nat) : Port := c.ports[n % 16]'(by omega)

def Core.modPort (c : Core) (n : Nat) (f : Port → Port) : Core :=
  { c with ports := c.ports.set (n % 16) (f (c.port n)) (by omega) }

/-- Whether a producer of the given code may push to the port (R165, R272): bound, not closing. -/
def Port.feeds (p : Port) (prod : Nat) : Bool := decide (p.status = .bound) && decide (descProd p.desc = prod)

/-- Whether a consumer of the given code may pop the port: bound or closing (R272). -/
def Port.serves (p : Port) (cons : Nat) : Bool := decide (p.status ≠ .unbound) && decide (descCons p.desc = cons)

/-! ### Popping and pushing -/

/-- The bytes of a packet as a tile sees them: bytes with a clear mask bit read as zero (R58). -/
def maskedBytes (bytes : BitVec 8192) (mask : Mask) : BitVec 8192 :=
  let rec go : Nat → Nat
    | 0 => 0
    | n + 1 => go n + (if mask.toNat.testBit n then fld bytes.toNat (8 * n + 7) (8 * n) * pow2 (8 * n) else 0)
  BitVec.ofNat 8192 (go 1024)

/-- Removes the oldest packet. -/
def Port.pop (p : Port) : Port := { p with packets := p.packets.drop 1 }

/-- Appends a packet whose consumer sees it from the next cycle (R121). -/
def Port.push (p : Port) (k : Packet) (now : Nat) : Port := { p with packets := p.packets ++ [{ k with seen := now + 1 }] }

/-- A packet of n bytes with every mask bit of its first len bytes set (R250, R136). -/
def packetOf (bytes len : Nat) : Packet :=
  ⟨BitVec.ofNat 8192 (bytes % pow2 (8 * len)), BitVec.ofNat 1024 (pow2 len - 1), 0, 0⟩

/-- The sum of f n shifted to place n, for places of w bits below a count. -/
def assemble (w : Nat) (f : Nat → Nat) : Nat → Nat
  | 0 => 0
  | n + 1 => assemble w f n + f n % pow2 w * pow2 (w * n)

/-- The marks of a packet's poisoned granules, for units of n bytes each: a unit of a poisoned granule is marked (R446). -/
def Packet.marks (k : Packet) (n count : Nat) : Nat := assemble 1 (fun i => if k.poison.toNat.testBit (n * i / 32) then 1 else 0) count

/-- The bytes and mask bits of a packet of the port's size, in order (R166). -/
def packetBytes (k : Packet) (n : Nat) : List PortByte :=
  (List.range n).map fun i =>
    ⟨BitVec.ofNat 8 (fld k.bytes.toNat (8 * i + 7) (8 * i)), k.mask.toNat.testBit i, k.poison.toNat.testBit (i / 32)⟩

/-- A packet from bytes with mask bits; a granule that takes a poisoned byte is poisoned (R446). -/
def packetOfBytes (l : List PortByte) : Packet :=
  ⟨BitVec.ofNat 8192 (l.foldr (fun b acc => b.byte.toNat + 256 * acc) 0),
   BitVec.ofNat 1024 (l.foldr (fun b acc => (if b.live then 1 else 0) + 2 * acc) 0), 0,
   BitVec.ofNat 32 (assemble 1 (fun g => if ((l.drop (32 * g)).take 32).any (·.bad) then 1 else 0) 32)⟩

/-- Bytes without poison and with their mask bits set, from a little-endian value. -/
def plainBytes (n v : Nat) : List PortByte := (List.range n).map fun i => ⟨BitVec.ofNat 8 (fld v (8 * i + 7) (8 * i)), true, false⟩

/-- Cuts the partial bytes of a port into whole packets, oldest first (R136, R166). -/
def Port.cut (p : Port) (now : Nat) : Nat → Port
  | 0 => p
  | n + 1 =>
    if p.bytesPer ≤ p.partialBytes.length then
      Port.cut { p.push (packetOfBytes (p.partialBytes.take p.bytesPer)) now with
                 partialBytes := p.partialBytes.drop p.bytesPer } now n
    else p

/-- Appends bytes to a port's byte sequence (R136, R166). -/
def Port.append (p : Port) (l : List PortByte) (now : Nat) : Port := ({ p with partialBytes := p.partialBytes ++ l }).cut now 2048

/-! ### Roles (R165, R274, R358) -/

/-- The core of a launch that a role is bound to on this package, while its job is there. -/
def State.coreOfRole (s : State) (launch role : Nat) : Option Nat :=
  (s.hub.launches.get launch).bind fun l => (l.binding.get role).filter fun k =>
    s.cores.has k && decide ((s.core k).job.launch = launch)

/-- The inbound side of an outbound peer port, if the two ports name each other (R166) and it is bound: into a CLOSING port a
producer may not push (R272). -/
def State.peerOf (s : State) (core n : Nat) : Option Nat :=
  let c := s.core core
  let p := c.port n
  if p.status = .unbound || descCons p.desc ≠ 5 then none
  else
    match s.coreOfRole c.job.launch (descRole p.desc) with
    | none => none
    | some k =>
      let q := (s.core k).port (descPport p.desc)
      if q.status = .bound && descProd q.desc = 5 && descPport q.desc = n % 16 &&
          descRole q.desc = c.job.role.toNat % 65536 then some k else none

/-- The bytes of an outbound port that its peer has not taken. -/
def Port.outBytes (p : Port) : Nat := p.packets.length * p.bytesPer + p.partialBytes.length - p.gone

end Sys2Proof.Machine
end

