-- ==== Sys2Proof/Machine/Groups.lean ====
section
/-! DEFINITION. The core's scheduler (R256-R275): the active set and the ready queue, register blocks and
their places, commit events (R486), boundary arrivals (R174), and the end of a group (R179, R261, R489). -/

namespace Sys2Proof.Machine

/-! ### Group states (R260) -/

/-- The slots of the core's groups in a state, ascending. -/
def Core.slotsIn (c : Core) (p : Group → Bool) : List Nat := (c.groups.filter fun g => p g.2).map (·.1)

/-- A group becomes READY, at the tail of the ready queue; those that become so in one cycle join in ascending slot order
(R260). -/
def Core.makeReady (c : Core) (slot now : Nat) : Core :=
  let c1 := c.modGroup slot fun g => { g with status := .ready, readyAt := now }
  let later (n : Nat) : Bool := decide ((c.group n).readyAt = now) && decide (slot < n)
  { c1 with sched := { c1.sched with
      readyQ := c1.sched.readyQ.takeWhile (fun n => !later n) ++ [slot] ++ c1.sched.readyQ.dropWhile (fun n => !later n) } }

/-- An ACTIVE group leaves the active set for a state that is not READY (R260, R263). -/
def Core.leave (c : Core) (slot now : Nat) (st : GStatus) : Core :=
  (c.withdraw slot).modGroup slot fun g => { g with status := st, leftAt := now }

/-- An ACTIVE group leaves to the tail of the ready queue (R180, R265). -/
def Core.leaveReady (c : Core) (slot now : Nat) : Core :=
  ((c.withdraw slot).modGroup slot fun g => { g with leftAt := now }).makeReady slot now

/-- The group of the step leaves the active set at once, WAITING (R158, R263). -/
def State.swapOut (s : State) : State := s.modHere fun c => c.leave s.cur.slot s.pcc .waiting

/-- Whether a group is at an instruction that has issued and waits: it goes on without the issue slot (R149). -/
def Group.goesOn (g : Group) : Bool := decide (g.status = .joined) || g.hold.any fun h => h.wait.lasts

/-- Every block of the group is in the pool at its own parity (R264). -/
def Group.inPlace (g : Group) : Bool := g.blocks.all fun b => match b.2 with
  | .pool _ => true
  | _ => false

/-- The position of a group in the active set. -/
def Sched.position (c : Sched) (slot : Nat) : Option Nat := c.active.toList.findIdx? fun p => decide (p = some slot)

/-- The first empty position. -/
def Sched.emptyPosition (c : Sched) : Option Nat := c.active.toList.findIdx? Option.isNone

def Sched.setPosition (c : Sched) (k : Nat) (slot : Nat) : Sched :=
  { c with active := c.active.set (k % 8) (some slot) (by omega) }

/-- No block of the group is on the transfer path, or is exchanged for the one that is (R259, R270). -/
def Core.settled (c : Core) (slot : Nat) : Bool :=
  !(c.sched.move.any fun m => decide (m.slot = slot) || m.back.any fun b => decide (b.1 = slot))

/-- Whether the head of the ready queue is refilled: every one of its blocks is in place and stays there (R264). -/
def Core.refilled (c : Core) (slot : Nat) : Bool := (c.group slot).inPlace && c.settled slot

/-- Counts the empty positions as a cycle ends: a group may enter one of them in the next (R264). -/
def Core.countVacant (c : Core) : Core :=
  { c with sched := { c.sched with vacant := (c.sched.active.toList.filter Option.isNone).length } }

/-- Whether a READY group waits to enter (R180). -/
def Core.someReady (c : Core) : Bool := !c.sched.readyQ.isEmpty

/-! ### Register blocks (R169-R171, R268-R270) -/

/-- The blocks that the job holds (R169). -/
def Core.heldBlocks (c : Core) : Nat := (c.groups.map fun g => g.2.blocks.length).sum

/-- The block budget of the job (R169). -/
def Core.budget (c : Core) : Nat := 32 + c.job.storePlaces

/-- The physical pool block of a place. -/
def Place.phys : Place → Option Nat
  | .pool p => some p
  | .parked p => some p
  | _ => none

/-- The place of a logical block in a physical pool block: at its own parity, or parked (R268). -/
def poolPlace (block p : Nat) : Place := if p % 2 = block % 2 then .pool p else .parked p

/-- The pool blocks in use, the destination of the move under way counted (R268). -/
def Core.poolUsed (c : Core) : List Nat :=
  (c.groups.flatMap fun g => g.2.blocks.filterMap fun b => b.2.phys) ++
    (match c.sched.move with
     | some m => m.dest.phys.toList
     | none => [])

/-- The lowest free pool block of a parity. -/
def Core.freePhys (c : Core) (parity : Nat) : Option Nat :=
  ((List.range 16).map fun i => 2 * i + parity).find? fun p => !c.poolUsed.contains p

/-- The lowest free place of the group store. -/
def Core.freeStore (c : Core) : Option Nat :=
  let used := c.groups.flatMap fun g => g.2.blocks.filterMap fun b => match b.2 with
    | .store i => some i
    | _ => none
  let coming := match c.sched.move with
    | some ⟨_, _, .store i, _⟩ => [i]
    | _ => []
  (List.range c.job.storePlaces).find? fun i => !(used ++ coming).contains i

/-- Whether a group's blocks may be moved (R269): the group is READY, WAITING or TRAPPED, and its vector
stream is not busy; the register a latch holds keeps its block. -/
def Group.movable (g : Group) (block : Nat) : Bool :=
  (decide (g.status = .ready) || decide (g.status = .waiting) || decide (g.status = .trapped)) && !g.v.busy &&
    !(g.v.latch.any fun l => decide (l.name.toNat / 16 ≠ 3) && decide (l.name.toNat % 16 / 4 = block))

/-- The victim that gives room in a parity (R269): of the movable blocks there, those of the group that left
the active set earliest, and of these the highest-numbered. A group that has not been in the active set counts as the first
to have left, and of groups that left in one cycle the lower slot's block is taken (DESIGN CHOICE, log 35). `except` is the
group whose spilled block is brought back: a block of its own that is in place already is not taken (DEDUCED, log 35). -/
def Core.victim (c : Core) (parity : Nat) (except : Option Nat) : Option (Nat × Nat) :=
  let cands := c.groups.flatMap fun g => (g.2.blocks.filterMap fun b => match b.2 with
    | .pool p => if p % 2 = parity && g.2.movable b.1 && decide (some g.1 ≠ except) then some (g.2.leftAt, g.1, b.1) else none
    | .parked p => if p % 2 = parity && g.2.movable b.1 then some (g.2.leftAt, g.1, b.1) else none
    | _ => none)
  let best := cands.foldl (fun acc x => match acc with
    | none => some x
    | some y => if x.1 < y.1 || (x.1 = y.1 && x.2.1 = y.2.1 && decide (x.2.2 > y.2.2)) then some x else acc)
      (none : Option (Nat × Nat × Nat))
  best.map (·.2)

/-- Sets the place of a block. -/
def Core.setPlace (c : Core) (slot block : Nat) (p : Place) : Core :=
  c.modGroup slot fun g => { g with blocks := g.blocks.set block p }

/-- Serves the oldest request for a block (R269, R270): a new block takes a free pool block of its parity at
once; a spilled one is brought there; where none is free, a victim moves first. A request with no movable
victim waits. A request whose parity has a free block waits behind earlier ones and a move under way, by R270's order of arrival, though R280
has a start READY at s + 32 where no victim must move: which of the two wins no rule says (DESIGN CHOICE, log 63). -/
def Core.serveBlocks (c : Core) : Nat → Core × Bool
  | 0 => (c, false)
  | n + 1 =>
    if c.sched.move.isSome then (c, false)
    else
      match c.sched.requests with
      | [] => (c, false)
      | (slot, block) :: rest =>
        let drop := { c with sched := { c.sched with requests := rest } }
        match (c.group slot).blocks.get block with
        | none => Core.serveBlocks drop n
        | some (.pool _) => Core.serveBlocks drop n
        | some place =>
          match c.freePhys (block % 2) with
          | some p =>
            if place = .awaited then Core.serveBlocks (drop.setPlace slot block (.pool p)) n
            else ({ drop with sched := { drop.sched with move := some ⟨slot, block, .pool p, none⟩ } }, true)
          | none =>
            match c.victim (block % 2) (if place = .awaited then none else some slot) with
            | none => (c, false)
            | some (vs, vb) =>
              match c.freePhys (1 - block % 2), c.freeStore with
              | some p, _ =>
                ({ c with sched := { c.sched with move := some ⟨vs, vb, poolPlace vb p, none⟩ } }, true)
              | none, some i => ({ c with sched := { c.sched with move := some ⟨vs, vb, .store i, none⟩ } }, true)
              | none, none => exchange c slot block place vs vb
where
  /-- No place is free at all: the victim and the block change places (DEDUCED, assumption 30). -/
  exchange (c : Core) (slot block : Nat) (place : Place) (vs vb : Nat) : Core × Bool :=
    match place, ((c.group vs).blocks.get vb).bind Place.phys with
    | .awaited, _ => (c, false)
    | _, none => (c, false)
    | .pool _, _ => (c, false)
    | .parked x, some p => ({ c with sched := { c.sched with move := some ⟨vs, vb, poolPlace vb x, some (slot, block, .pool p)⟩ } }, true)
    | .store i, some p => ({ c with sched := { c.sched with move := some ⟨vs, vb, .store i, some (slot, block, .pool p)⟩ } }, true)

/-- Serves block requests of a core; a move begun ends 16 cycles later (R270), an exchange of two blocks 32. -/
def State.serveBlocks (s : State) (core : Nat) : State :=
  let (c, moving) := (s.core core).serveBlocks 64
  let s1 := s.setCore core c
  if moving then s1.schedule (s.pcc + if c.sched.move.any fun m => m.back.isSome then 32 else 16) (.blockTransfer core) else s1

/-- Gives blocks to a group: they read as zero and are to be brought into place (R170, R270). -/
def Core.giveBlocks (c : Core) (slot : Nat) (bs : List Nat) : Core :=
  let c1 := c.modGroup slot fun g =>
    { g with
      blocks := bs.foldl (fun m b => m.set b .awaited) g.blocks
      vregs := g.vregs.filter fun r => !bs.contains (r.1 / 4)
      vpoison := g.vpoison.filter fun r => !bs.contains (r / 256 / 4) }
  { c1 with sched := { c1.sched with requests := c1.sched.requests ++ bs.map fun b => (slot, b) } }

/-- The groups that hold at an instruction with a wait of a kind, in the order of their first cycle, then of
their slots (R107, R162, R170). -/
def Core.waiting (c : Core) (p : Wait → Bool) : List Nat :=
  let l := c.groups.filterMap fun g => match g.2.hold with
    | some h => if p h.wait && h.granted.isNone then some (h.since, g.1) else none
    | none => none
  (sortBy (fun a b => decide (a.1 < b.1) || (decide (a.1 = b.1) && decide (a.2 ≤ b.2))) l).map (·.2)

def Wait.blocks? : Wait → Bool
  | .blocks _ _ => true
  | _ => false

def Wait.demand? : Wait → Bool
  | .demand _ => true
  | _ => false

def Wait.start? : Wait → Bool
  | .start => true
  | _ => false

/-- The blocks of a mask that a group does not hold (R170). -/
def Group.lacking (g : Group) (mask : Nat) : List Nat :=
  [1, 2, 3].filter fun b => mask.testBit (b - 1) && !g.blocks.has b

/-- Grants the waiting rbacq.w requests, oldest first, each as a whole (R170). -/
def Core.grantBlocks (c : Core) : Nat → Core
  | 0 => c
  | n + 1 =>
    match c.waiting Wait.blocks? with
    | [] => c
    | slot :: _ =>
      let g := c.group slot
      let mask := match g.hold with
        | some ⟨_, .blocks m _, _⟩ => m
        | _ => 0
      let r := g.lacking mask
      if c.heldBlocks + r.length ≤ c.budget then
        Core.grantBlocks ((c.giveBlocks slot r).modGroup slot fun g => { g with hold := g.hold.map fun h => { h with granted := some 0 } }) n
      else c

/-- After blocks are freed: grants, then moves (R170, R270). -/
def State.regrant (s : State) (core : Nat) : State := (s.modCore core fun c => c.grantBlocks 32).serveBlocks core

/-! ### Commit events (R294, R486) -/

/-- Changes every pending store of the core. -/
def Core.mapPend (c : Core) (f : PStore → PStore) : Core := { c with mem := { c.mem with pend := c.mem.pend.map f } }

/-- The sectors of stores, ascending, each once. -/
def sectorsOf (ps : List PStore) : List Nat := (ps.foldl (fun acc p => NatSet.add acc (p.pa / 128)) ([] : NatSet))

/-- The commit messages of a core, not yet acknowledged, that name a store selected (R486). -/
def State.messagesOf (s : State) (core : Nat) (sel : PStore → Bool) : List Nat :=
  (s.accs.filter fun (x : Nat × Access) => decide (x.2.core = core) && (match x.2.kind with
    | .commit _ l => l.any sel
    | _ => false)).map (·.1)

/-- Starts a commit event of a core for the performed stores selected: from the next cycle one message or
sector write per home sector, in ascending address (R486). It is complete with their acknowledgements and with those of the
messages of other events that name a store of its own. Answers the event's number. -/
def State.beginCommit (s : State) (core : Nat) (sel : PStore → Bool) : State × Nat :=
  let cid := s.nextId
  let ps := (s.core core).mem.pend.filter fun p => p.performed && !p.committing && sel p
  let others := s.messagesOf core sel
  let s1 := { s with nextId := cid + 1 }
  if ps = [] ∧ others = [] then (s1, cid)
  else
    let s2 := s1.modCore core fun c => c.mapPend fun p => if ps.any (fun q => decide (q.order = p.order)) then { p with committing := true } else p
    let sent := (sectorsOf ps).zipIdx.foldl (fun (a : State × List Nat) x =>
      let mine := ps.filter fun p => decide (p.pa / 128 = x.1)
      let r := { a.1 with cur := ⟨core, 32, .group⟩ }.send
        { kind := .commit cid mine, va := 0, pa := x.1 * 128, size := 128, cls := 1,
          value := 0, order := 0, delay := 1 + x.2, message := mine.all fun (p : PStore) => decide (p.place ≠ StorePlace.dirty) }
      ({ r.1 with cur := a.1.cur }, r.2 :: a.2)) (s2, others)
    (sent.1.modCore core fun c => { c with mem := { c.mem with commits := c.mem.commits.set cid sent.2 } }, cid)

/-- Whether a commit event has every acknowledgement. -/
def Core.committed (c : Core) (cid : Nat) : Bool := !c.mem.commits.has cid

/-- The stores that FLUSH of a stream commits (R178, R294): its earlier stores, and the other bytes of the
dirty sectors that hold them. -/
def State.flushCovers (s : State) (core : Nat) (mine : PStore → Bool) (p : PStore) : Bool :=
  mine p || (decide (p.place = .dirty) &&
    (s.core core).mem.pend.any fun q => mine q && decide (q.place = .dirty) && decide (q.pa / 128 = p.pa / 128))

/-! ### Boundary arrivals (R174) -/

/-- The launch-started groups of the job that are resident and have not executed JOIN (R174). -/
def Core.arrivers (c : Core) : List Nat :=
  c.slotsIn fun g => decide (g.kindId = 0xFF) && decide (g.status ≠ .joined)

/-- The groups that have arrived carry different levels: each traps with PHASE_MISMATCH (R174). -/
def State.mismatch (s : State) (core : Nat) (slots : List Nat) : State :=
  slots.foldl (fun s g => s.at ⟨core, g, .group⟩ fun s =>
    (s.modGrp fun g => { g with arrived := none, hold := none }).raiseTrap { cause := causePhase }) s

/-- The level of an arrival that goes with whatever level the other members carry (R174 step 2). -/
def anyLevel : Nat := 5

/-- Begins an arrival of a core: its performed stores commit, and it is complete when that is acknowledged (R174, R294). -/
def State.beginArrival (s : State) (core level : Nat) : State :=
  let (s1, cid) := s.beginCommit core fun _ => true
  s1.modCore core fun c => { c with job := { c.job with arriving := some (cid, level) } }

/-- The core's arrival once every launch-started group has arrived (R174 step 2): at different levels they
trap; at one level the core arrives. A core with no such group arrives at every level. -/
def State.coreArrival (s : State) (core : Nat) : State :=
  let c := s.core core
  let gs := c.arrivers
  let levels := gs.filterMap fun g => (c.group g).arrived
  if levels.length < gs.length || c.job.arriving.isSome || c.job.arrival.isSome then s
  else
    match levels with
    | [] => s.beginArrival core anyLevel
    | l :: rest => if rest.all fun x => decide (x = l) then s.beginArrival core l else s.mismatch core gs

/-! ### The end of a group (R179, R258, R260, R273) -/

/-- Unbinds the ports that p selects: their packets and partial packets are discarded and counted (R258). -/
def Core.unbindPorts (c : Core) (p : Port → Bool) : Core :=
  let mine (x : Port) : Bool := decide (x.status ≠ .unbound) && p x
  { c with
    discarded := c.discarded + ((c.ports.toList.filter mine).map Port.outBytes).sum
    ports := c.ports.map fun x => if mine x then Port.unbound else x }

/-- Whether a port is bound to a vector stream (R165). -/
def Port.ofVector (p : Port) : Bool := decide (descProd p.desc = 6) || decide (descCons p.desc = 6)

/-- Whether a port is bound to a peer (R166). -/
def Port.ofPeer (p : Port) : Bool := decide (descProd p.desc = 5) || decide (descCons p.desc = 5)

/-- Unbinds the vector-stream ports whose binding group is the given one (R273). -/
def Core.unbindGroup (c : Core) (slot : Nat) : Core := c.unbindPorts fun p => decide (p.owner = slot) && p.ofVector

/-- Unbinds every peer binding, at an elastic boundary (R274). -/
def Core.unbindPeers (c : Core) : Core := c.unbindPorts Port.ofPeer

/-- Unbinds the peer bindings that name a role that is lost (R465). -/
def Core.unbindRoles (c : Core) (lost : List Nat) : Core := c.unbindPorts fun p => p.ofPeer && lost.contains (descRole p.desc)

/-- The engines that a group has started and that run on without it: their faults are the job's from now on (R74, R489). -/
def Core.disown (c : Core) (slot : Nat) : Core :=
  let mine (owner : Nat) (orphan : Bool) : Bool := orphan || decide (owner = slot)
  { c with
    matrix := { c.matrix with run := c.matrix.run.map fun r => { r with orphan := mine r.owner r.orphan } }
    chans := c.chans.map fun ch => { ch with run := ch.run.map fun r => { r with orphan := mine r.owner r.orphan } }
    eft := { c.eft with orphan := mine c.eft.owner c.eft.orphan } }

/-- Steps 2 to 4 of R179: the group's blocks and slot are free, and it takes part in no boundary. Its pending stores are no later
group's (R294). -/
def State.freeGroup (s : State) (core slot : Nat) : State :=
  let s1 := s.modCore core fun c =>
    let c1 := (((c.withdraw slot).unbindGroup slot).disown slot).mapPend fun p =>
      if p.slot = slot ∧ (p.stream = .group ∨ p.stream = .vector) then { p with slot := 32 } else p
    { c1 with groups := c1.groups.del slot
              sched := { c1.sched with requests := c1.sched.requests.filter fun r => decide (r.1 ≠ slot) } }
  (s1.regrant core).coreArrival core

/-- The accesses of a group's scalar and vector streams that are still to return go on without it (R261, R489). -/
def State.orphan (s : State) (core slot : Nat) : State :=
  { s with accs := s.accs.mapVal fun _ a =>
      if a.core = core && decide (a.slot = slot) && (decide (a.stream = .group) || decide (a.stream = .vector)) then { a with slot := 32 } else a }

end Sys2Proof.Machine
end

