-- ==== Sys2Proof/Machine/Sync.lean ====
section
/-! DEFINITION. Phase boundaries, ordering and commit, the end of a group, and yielding (R139, R174-R180). -/

namespace Sys2Proof.Machine

/-! ### Store errors (R139) -/

/-- The store errors recorded for the step's stream. -/
def State.storeErrors (s : State) : List StoreErr :=
  match s.cur.stream with
  | .control => (s.ctl s.cur.core).storeErrs
  | .group => s.grp.storeErrs
  | _ => []

/-- Forgets the recorded errors that p selects. -/
def State.dropErrors (s : State) (p : StoreErr → Bool) : State :=
  match s.cur.stream with
  | .control => s.modCtl s.cur.core fun c => { c with storeErrs := c.storeErrs.filter fun e => !p e }
  | .group => s.modGrp fun g => { g with storeErrs := g.storeErrs.filter fun e => !p e }
  | _ => s

/-- An instruction that waits for stores traps with REMOTE_ERROR at the first error recorded in a class that
it covers; the record lists the store's EA (R139, R396). -/
def withoutStoreError (covers : Nat → Bool) (s : State) (k : Out) : Out :=
  match s.storeErrors.find? fun e => covers e.cls with
  | some e => trapWith (s.dropErrors fun x => decide (x = e)) { cause := causeRemote, addr := e.ea, aux := e.ea, detail := e.reason }
  | none => k

/-! ### What is still to be performed (R174, R177-R179) -/

/-- Whether an access is a store whose acknowledgement is to come, or an access not yet performed. -/
def Access.unperformed (a : Access) : Bool :=
  match a.kind with
  | .store => true
  | _ => !a.performed

/-- Whether an access is a load or ldq. -/
def Access.isLoad (a : Access) : Bool :=
  match a.kind with
  | .load .. => true
  | .block _ => true
  | .ldq _ => true
  | _ => false

/-- Whether an earlier access of the step's stream that p selects is still to be performed at its home. -/
def State.outstandingBy (s : State) (p : Access → Bool) : Bool :=
  s.accs.any fun a => s.mine a.2 && a.2.unperformed && p a.2

/-! ### FENCE (R177) -/

/-- Notes on the stream's pending stores that a FENCE of a mask has completed (R303, R309). -/
def State.markFenced (s : State) (m : Nat) : State :=
  match s.cur.stream with
  | .group => s.modHere fun c => c.mapPend fun p =>
      if decide (p.slot = s.cur.slot ∧ p.stream = .group) then { p with fenced := p.fenced ||| pow2 m } else p
  | _ => s

def execFence (m : BitVec 3) (s : State) : Out :=
  onStreams true true true s <|
    withoutStoreError (fun c => m.toNat.testBit c) s <|
      if s.outstandingBy (fun a => m.toNat.testBit a.cls) then .next (s.holdFor .ordered)
      else .next ((s.markFenced m.toNat).finish id)

/-! ### FLUSH (R178) -/

/-- FLUSH once its stores are performed: a commit event, whose acknowledgements it awaits. On the control die
stores are committed when performed (R310). -/
def flushForm (s : State) : Out :=
  match s.holding with
  | some ⟨_, .commit cid, _⟩ =>
    if s.here.committed cid then .next (s.finish id) else .next (s.holdFor (.commit cid))
  | _ =>
    withoutStoreError (fun _ => true) s <|
      if s.outstandingBy (fun a => !a.isLoad) then .next (s.holdFor .ordered)
      else if s.cur.stream = .control then .next (s.finish id)
      else
        let mine (p : PStore) : Bool := decide (p.slot = s.cur.slot) && decide (p.stream = .group)
        let (s1, cid) := s.beginCommit s.cur.core (s.flushCovers s.cur.core mine)
        if s1.here.committed cid then .next (s1.finish id) else .next (s1.holdFor (.commit cid))

def execFlush (s : State) : Out := onStreams true false true s <| flushForm s

/-! ### PHASE (R174-R176) -/

/-- The arrival of a launch-started group, kept until the boundary completes (R149, R174). A wait at PHASE.E is told
from one at PHASE by 8 on its level. -/
def arriveForm (n : Nat) (elastic : Bool) (s : State) : Out :=
  match s.holding with
  | some ⟨_, .boundary _, some _⟩ => .next ((s.modGrp fun g => { g with arrived := none }).finish id)
  | some ⟨_, .boundary l, none⟩ => .next (s.holdFor (.boundary l))
  | _ =>
    withoutStoreError (fun _ => true) s <|
      if s.outstandingBy (fun a => !a.isLoad) then .next (s.holdFor .ordered)
      else
        let s1 := (s.modGrp fun g => { g with arrived := some n }).holdFor (.boundary (if elastic then 8 + n else n))
        .next (s1.coreArrival s.cur.core)

/-- PHASE; of a former-started group, level 0 flushes and any other level is PHASE_MISMATCH (R175). -/
def phaseForm (n : Nat) (elastic : Bool) (s : State) : Out :=
  if s.grp.kindId = 0xFF then arriveForm n elastic s
  else if n = 0 then flushForm s
  else trap s causePhase

def execPhase (l : BitVec 3) (s : State) : Out := onStreams true false false s <| phaseForm l.toNat false s

/-- Words that compatibility mode does not have (R384). -/
def notCompat (s : State) (k : Out) : Out := check (!s.here.job.compat) causeEncoding s k

/-- PHASE.E acts as PHASE n; what is elastic about it happens as the boundary completes (R176). -/
def execPhaseE (l : BitVec 3) (s : State) : Out :=
  onStreams true false false s <| notCompat s <| phaseForm l.toNat true s

/-! ### JOIN (R179) -/

/-- Whether an access of the step's group is still to come back (R179 step 1). -/
def State.groupOutstanding (s : State) : Bool :=
  s.accs.any fun a => s.mine a.2 && (match a.2.kind with
    | .load .. => true
    | .block _ => true
    | .amo .. => true
    | .store => true
    | _ => false)

/-- JOIN leaves the active set and the arrival set as it issues (R174), and frees the slot once the vector stream is not busy and the
group's accesses have returned. A group of a withdrawn die ends so without a JOIN of its own (R176). -/
def execJoin (s : State) : Out :=
  onStreams true false false s <|
    let slot := s.cur.slot
    let s1 := if s.grp.status = .joined then s else (s.modHere fun c => c.leave slot s.pcc .joined).coreArrival s.cur.core
    if s.grp.storeErrs ≠ [] && !s.groupOutstanding then
      withoutStoreError (fun _ => true) (s1.modGrp fun g => { g with status := .waiting }) (.next s)
    else if s.grp.v.busy || s.groupOutstanding then
      .next (s1.holdFor (if s.grp.hold.any fun h => decide (h.wait = .leaving) then .leaving else .resource))
    else .next (s1.freeGroup s.cur.core slot)

/-! ### YIELD (R180) -/

def execYield (s : State) : Out :=
  onStreams true false false s <|
    let s1 := s.finish id
    if s.here.someReady then .next (s1.modHere fun c => c.leaveReady s.cur.slot s.pcc) else .next s1

end Sys2Proof.Machine
end

