-- ==== Sys2Proof/Machine/Queues.lean ====
section
/-! DEFINITION. Launches and launch queues as a core's forms reach them (R172, R173, R276, R338-R346, R487):
packet fields, queue registers, task records and pushes. -/

namespace Sys2Proof.Machine

/-! ### The dispatch packet (R338, R339) -/

def pktVersion (p : BitVec 1024) : Nat := pkt p 0x00 0x01
def pktPrio (p : BitVec 1024) : Nat := pkt p 0x03 0x03 % 4
def pktFlags (p : BitVec 1024) : Nat := pkt p 0x04 0x05
def pktClass (p : BitVec 1024) : Nat := pkt p 0x06 0x06 % 4
def pktEntry (p : BitVec 1024) : Nat := pkt p 0x07 0x07
def pktCodeObj (p : BitVec 1024) : Nat := pkt p 0x08 0x0F
def pktArgs (p : BitVec 1024) : Nat := pkt p 0x10 0x17
def pktMinDie (p : BitVec 1024) : Nat := pkt p 0x18 0x18
def pktMaxDie (p : BitVec 1024) : Nat := pkt p 0x19 0x19
def pktCpd (p : BitVec 1024) : Nat := pkt p 0x1A 0x1B
def pktSlots (p : BitVec 1024) : Nat := pkt p 0x1C 0x1C
def pktLGroups (p : BitVec 1024) : Nat := pkt p 0x1D 0x1D
def pktL1 (p : BitVec 1024) : Nat := pkt p 0x1E 0x1E
def pktL2 (p : BitVec 1024) : Nat := pkt p 0x1F 0x1F
def pktSpRes (p : BitVec 1024) : Nat := pkt p 0x20 0x23
def pktGsRes (p : BitVec 1024) : Nat := pkt p 0x24 0x27
def pktTqTab (p : BitVec 1024) : Nat := pkt p 0x28 0x2F
def pktKTab (p : BitVec 1024) : Nat := pkt p 0x30 0x37
def pktTqN (p : BitVec 1024) : Nat := pkt p 0x38 0x38
def pktFto (p : BitVec 1024) : Nat := pkt p 0x3A 0x3B
def pktSched (p : BitVec 1024) : Nat := pkt p 0x3C 0x3F
def pktWait0 (p : BitVec 1024) : Nat := pkt p 0x40 0x47
def pktWait1 (p : BitVec 1024) : Nat := pkt p 0x48 0x4F
def pktCompl (p : BitVec 1024) : Nat := pkt p 0x50 0x57
def pktStat (p : BitVec 1024) : Nat := pkt p 0x58 0x5F
def pktFabList (p : BitVec 1024) : Nat := pkt p 0x60 0x67
def pktMsix (p : BitVec 1024) : Nat := pkt p 0x68 0x69
def pktFPkgs (p : BitVec 1024) : Nat := pkt p 0x6A 0x6B
def pktFabId (p : BitVec 1024) : Nat := pkt p 0x6C 0x6F
def pktTwin (p : BitVec 1024) : Bool := (pktFlags p).testBit 0
/-- FLAGS.EXPDEF: class 2 code is translated into exposed tables (R339). -/
def pktExpdef (p : BitVec 1024) : Bool := (pktFlags p).testBit 2
def pktElastic (p : BitVec 1024) : Bool := (pktFlags p).testBit 1
def pktIrq (p : BitVec 1024) : Bool := (pktFlags p).testBit 3

/-- The versions that the scheduler accepts: major 1, minor 0 (R342, R478). -/
def versionAccepted (p : BitVec 1024) : Bool := decide (pktVersion p = 0x0100)

/-! ### Launch queues (R343-R346) -/

def State.lqueue (s : State) (q : Nat) : LQueue := s.hub.queues.getD q LQueue.reset

def State.modQueue (s : State) (q : Nat) (f : LQueue → LQueue) : State :=
  { s with hub := { s.hub with queues := s.hub.queues.set q (f (s.lqueue q)) } }

/-- The packets counted (R345). -/
def LQueue.count (q : LQueue) : Nat := (q.widx - q.ridx).toNat

/-- Where the packet of an index stands (R343). -/
def LQueue.slot (q : LQueue) (i : BitVec 32) : Nat := q.base + 128 * (i.toNat % pow2 q.log2)

/-- Begins the copy of the head of an enabled queue with a packet counted (R345, R359): it is made within the
bounds of R359, in a cycle the spec does not fix. -/
def State.pokeQueue (s : State) (q : Nat) : State :=
  let lq := s.lqueue q
  if lq.enable && lq.head.isNone && !lq.copying && decide (lq.count ≠ 0) then
    ((s.modQueue q fun x => { x with copying := true }).schedule
      (s.pcc + 1 + Config.freeDelay s.free % 192) (.headPacketRead q)).tick
  else s

/-! ### Eligible heads and rounds (R347, R352) -/

/-- Both wait signals have been read as satisfied. -/
def LHead.satisfied (h : LHead) : Bool := h.sig0 && h.sig1

/-- Whether the head of a queue is eligible (R347): of an enabled queue, with its signals satisfied. -/
def LQueue.eligible (q : LQueue) : Bool := q.enable && q.head.any fun h => h.eligible.isSome

/-- The round of R352 that follows is due while a head is eligible. -/
def State.wantRound (s : State) : State :=
  if !(s.hub.queues.any fun (q : Nat × LQueue) => q.2.eligible) || (s.agenda.any fun (p : Nat × Event) => decide (p.2 = .selectionRound)) then s
  else s.schedule (s.pcc / 16 * 16 + 16) .selectionRound

/-- A head that has become eligible waits from this cycle on. -/
def State.judgeHead (s : State) (q : Nat) : State :=
  let lq := s.lqueue q
  if lq.enable && lq.head.any (fun h => h.satisfied && h.eligible.isNone) then
    (s.modQueue q fun x => { x with head := x.head.map fun h => { h with eligible := some s.pcc } }).wantRound
  else s

/-! ### Launches -/

def Launch.none : Launch :=
  { queue := 0, packet := 0, lseq := 0, dies := [], binding := [], info := LaunchInfo.none, stack := 0, tqs := [],
    status := 0, ended := false, invalid := false, discard := 0, recorded := [], sentPh4 := Option.none,
    stopReq := Option.none, saved := Option.none }

def State.launch (s : State) (l : Nat) : Launch := s.hub.launches.getD l Launch.none

/-- The key of a load record. -/
def objectKey (ctx va : Nat) : Nat := ctx * pow2 56 + va

def State.object (s : State) (ctx va : Nat) : Option CodeObject := s.objects.get (objectKey ctx va)

/-- Whether an address is that of a word of the code object that a packet names (R340). No layout of R362-R365 delimits the words of a
class: for classes 0 and 3 it is checked against the object's pages alone (DESIGN CHOICE, log 68). -/
def State.inObject (s : State) (p : BitVec 1024) (pc : Word) : Bool :=
  (s.object (pktContext p) (pktCodeObj p)).all fun o => decide (o.va ≤ pc.toNat) && decide (pc.toNat < o.va + 65536 * o.npage)

def State.modLaunch (s : State) (l : Nat) (f : Launch → Launch) : State :=
  { s with hub := { s.hub with launches := s.hub.launches.modify l f } }

/-- The launch of the step's core. -/
def State.hereLaunch (s : State) : Launch := s.launch s.here.job.launch

/-- The die ordinal of a die in a launch (R354). -/
def Launch.ordinal (l : Launch) (die : Nat) : Nat := (l.dies.findIdx? fun d => decide (d = die)).getD 0

/-! ### Task records and pushes (R172, R276, R487) -/

/-- A task record (R276). -/
def taskRecord (p0 p1 p2 : Nat) (scal : Bool) (core slot lane flags kind : Nat) : BitVec 256 :=
  BitVec.ofNat 256 (p2 % pow2 64 * pow2 192 + p1 % pow2 64 * pow2 128 + p0 % pow2 64 * pow2 64 +
    (if scal then pow2 53 else 0) + core % 256 * pow2 45 + slot % 32 * pow2 40 + lane % 256 * pow2 32 +
    flags % 65536 * pow2 16 + kind % 65536)

/-- The MBZ fields of a push header, its KIND and its QUEUE are ones the launch has (R172). -/
def Launch.headerOk (l : Launch) (a : Word) : Bool :=
  decide (fld a.toNat 63 48 = 0) && decide (fld a.toNat 15 6 = 0) && decide (fld a.toNat 31 16 < 64) &&
    l.info.kinds.has (fld a.toNat 31 16) && decide (fld a.toNat 5 0 < pktTqN l.packet)

/-- Sends one record to the die queue that serves a QUEUE value (R487), its packet leaving after a delay. -/
def State.sendPush (s : State) (queue lane order delay : Nat) (record : BitVec 256) : State × Nat :=
  let id := s.nextId
  let die := dieOf s.cur.core
  let l := s.hereLaunch
  let k := l.tqs.getD (64 * l.ordinal die + queue) 0
  let (s1, arrive) := s.carry die (coreSpot (physOf s.cur.core)) (sliceSpot k) 2 (s.pcc + 1 + delay)
  let p : TaskPush :=
    { focus := s.cur, lane, die, queue := k, record, back := if order = 0 then s.pcc + 8 else 0, order, refused := none
      sent := s.pcc + 1 + delay }
  (({ s1 with pushes := s1.pushes.set id p, nextId := id + 1 }).schedule arrive (.taskPushAccept id), id)

/-- TQPUSH (R172): B = 30 and 31 have no three payload words; the answer is back no earlier than 8 cycles after issue (R189, R487). -/
def execTqpush (d a b : BitVec 5) (s : State) : Out :=
  onStreams true false false s <| notCompat s <| check (decide (b.toNat ≤ 29)) causeOperand s <| withReads [a, b, b + 1, b + 2] s <|
    match s.holding with
    | some ⟨_, .push id, _⟩ =>
      match s.pushes.get id with
      | some ⟨_, _, _, _, _, back, _, some refused, _⟩ =>
        if back ≤ s.pcc then
          .next (({ s with pushes := s.pushes.del id }).finishWrite d 1 fun _ => if refused then 1 else 0)
        else .next (s.holdFor (.push id))
      | _ => .next (s.holdFor (.push id))
    | _ =>
      let h := s.x a
      check (s.hereLaunch.headerOk h) causeOperand s <|
        check (s.scalar.agreeOn fun r => (r.get a, r.get b, r.get (b + 1), r.get (b + 2))) causeTwin s <|
          let rec_ := taskRecord (s.x b).toNat (s.x (b + 1)).toNat (s.x (b + 2)).toNat true (physOf s.cur.core)
            s.cur.slot 0 (fld h.toNat 47 32) (fld h.toNat 31 16)
          let (s1, id) := s.sendPush (fld h.toNat 5 0) 0 0 0 rec_
          .next (s1.holdFor (.push id))

/-! ### LAUNCH (R173, R346) -/

/-- A packet with TWIN = 1 and an odd S, against R282. -/
def pktOddTwin (p : BitVec 1024) : Bool := pktTwin p && decide (pktSlots p % 2 = 1)

/-- Steps 2 and 3 of R173 with the packet read: PROTECTION for a queue or a context that is not the issuer's,
else the result, the packet appended where it is 0. -/
def State.appendPacket (s : State) (q : Nat) (p : BitVec 1024) : State × Option Word :=
  let lq := s.lqueue q
  if !(lq.enable && lq.devfed && decide (lq.ctx = s.here.job.ctx)) || decide (pkt p 0x02 0x02 ≠ s.here.job.ctx) then (s, none)
  else if !versionAccepted p then (s, some 2)
  else if lq.count = pow2 lq.log2 then (s, some 1)
  else
    (((s.deviceWrite (lq.slot lq.widx) 128 p.toNat).modQueue q fun x => { x with widx := x.widx + 1 }).pokeQueue q, some 0)

/-- Step 2 of R173: the packet is read, with the checks of a load. Over a miss of the TLB the form waits on, issued (R189). -/
def readPacket (a b : BitVec 5) (s : State) : Out :=
  match s.checkAccess (s.x a) 128 .read with
  | .fail t => trapWith s t
  | .miss =>
    let (s1, id) := s.startWalk (s.x a) false
    .next (s1.holdFor (.packetWalk id))
  | .ok pa e =>
    let (s1, id) := s.startRead (.packetRead ((s.x b).toNat % 64)) (s.x a) pa 128 0 0 e
    .next (s1.holdFor (.packet id))

/-- LAUNCH (R173): commits, reads the packet, appends it, and reports. -/
def execLaunch (d a b : BitVec 5) (s : State) : Out :=
  onStreams true false false s <| withReads [a, b] s <|
    match s.holding with
    | some ⟨_, .packet _, some r⟩ => .next (s.finishWrite d 1 fun _ => r)
    | some ⟨_, .packet id, none⟩ => .next (s.holdFor (.packet id))
    | some ⟨_, .packetWalk id, _⟩ => if s.walks.has id then .next s else readPacket a b s
    | some ⟨_, .settle cid, _⟩ => if s.here.committed cid then readPacket a b s else .next (s.holdFor (.settle cid))
    | _ =>
      check (decide ((s.x b).toNat < 64)) causeOperand s <|
        withoutStoreError (fun _ => true) s <|
          if s.outstandingBy (fun x => !x.isLoad) then .next (s.holdFor .ending)
          else
            let mine (p : PStore) : Bool := decide (p.slot = s.cur.slot) && decide (p.stream = .group)
            let (s1, cid) := s.beginCommit s.cur.core (s.flushCovers s.cur.core mine)
            if s1.here.committed cid then readPacket a b s1 else .next (s1.holdFor (.settle cid))

end Sys2Proof.Machine
end

