-- ==== Sys2Proof/Machine/System.lean ====
section
/-! DEFINITION. The control and status register forms and the system forms (R68-R70, R182-R188, R398-R402). -/

namespace Sys2Proof.Machine

/-! ### Control and status registers (R68, R182, R183) -/

/-- What a register admits (R68). -/
inductive CsrAccess where
  | rw (mask : Nat)
  | ro
  | w1c
  | wide
  deriving DecidableEq, Repr

/-- The access of a register number, if a register stands there; its MBZ bits are ignored in a write (R5). -/
def csrAccess (n : Nat) : Option CsrAccess :=
  match n with
  | 0x0001 => some (.rw 0x1F)
  | 0x0002 => some (.rw 0x3)
  | 0x0003 => some (.rw 0xF)
  | 0x0004 => some .wide
  | 0x0005 => some (.rw 0xFF)
  | 0x0010 => some .w1c
  | 0x0020 => some .ro
  | 0x0021 => some .ro
  | 0x0022 => some .ro
  | 0x0031 => some .ro
  | 0x0032 => some .ro
  | 0x0033 => some .ro
  | 0x0034 => some .ro
  | 0x0040 => some .ro
  | 0x0041 => some .ro
  | 0x0042 => some .ro
  | 0x0043 => some .ro
  | 0x0044 => some .ro
  | 0x0050 => some .ro
  | 0x0051 => some (.rw 0xF)
  | 0x0052 => some .ro
  | 0x0053 => some .w1c
  | 0x0054 => some .ro
  | _ => none

/-- GID of a group (R70). -/
def State.gid (s : State) : Nat :=
  s.grp.kindId % 256 * pow2 24 + s.grp.seq % 65536 * 256 + (if s.here.job.twin then 128 else 0) + s.cur.slot % 32

/-- The value of a register as a register file sees it (R68). -/
def State.csr (s : State) (r : RegFile) (n : Nat) : Nat :=
  let j := s.here.job
  match n with
  | 0x0001 => r.flags.toNat
  | 0x0002 => r.rmode.toNat
  | 0x0003 => r.lsat.toNat
  | 0x0004 => r.amax.toNat
  | 0x0005 => s.scalar.shape.toNat
  | 0x0010 => s.here.matrix.mflags.toNat
  | 0x0020 => s.gid
  | 0x0021 => j.jobid.toNat
  | 0x0022 => j.role.toNat
  | 0x0031 => j.dmr[0].toNat
  | 0x0032 => j.dmr[1].toNat
  | 0x0033 => j.dmr[2].toNat
  | 0x0034 => j.dmr[3].toNat
  | 0x0040 => j.ph[0].toNat
  | 0x0041 => j.ph[1].toNat
  | 0x0042 => j.ph[2].toNat
  | 0x0043 => j.ph[3].toNat
  | 0x0044 => j.ph[4].toNat
  | 0x0050 => s.here.treadle.tbeat.toNat
  | 0x0051 => s.here.treadle.tdla.toNat
  | 0x0052 => s.here.treadle.tdnext.toNat
  | 0x0053 => s.here.treadle.tmiss.toNat
  | 0x0054 => s.here.treadle.tstate.toNat
  | _ => 0

/-- Writes a state register of a register file (R183). -/
def RegFile.setCsr (r : RegFile) (n v : Nat) : RegFile :=
  match n with
  | 0x0001 => { r with flags := BitVec.ofNat 32 v }
  | 0x0002 => { r with rmode := BitVec.ofNat 32 v }
  | 0x0003 => { r with lsat := BitVec.ofNat 32 v }
  | 0x0004 => { r with amax := BitVec.ofNat 64 v }
  | _ => r

/-- Writes a state register that is not in a register file. -/
def State.setCsr (s : State) (n v : Nat) : State :=
  match n with
  | 0x0005 => s.modScalar fun sc => { sc with shape := BitVec.ofNat 32 v }
  | 0x0010 => s.modHere fun c => { c with matrix := { c.matrix with mflags := BitVec.ofNat 32 v } }
  | 0x0051 => s.modHere fun c => { c with treadle := { c.treadle with tdla := BitVec.ofNat 32 v } }
  | 0x0053 => s.modHere fun c => { c with treadle := { c.treadle with tmiss := BitVec.ofNat 32 v } }
  | _ => s

/-- A SHAPE value that the group may not have (R69, R384). -/
def State.badShape (s : State) (v : Nat) : Bool :=
  (s.here.job.twin && decide (v % 16 > 7)) || (s.here.job.compat && (decide (v % 16 > 7) || decide (v / 16 % 16 > 7)))

/-- A CSR form (R182): f gives the new value from the old and a register file's a; none writes nothing. -/
def csrForm (d : BitVec 5) (reads : List (BitVec 5)) (num : BitVec 16) (legal : CsrAccess → Bool)
    (f : Option (CsrAccess → Nat → RegFile → Nat)) (s : State) : Out :=
  onStreams true false true s <|
    match csrAccess num.toNat with
    | none => trap s causeOperand
    | some acc =>
      check (legal acc && (decide (s.cur.stream ≠ .control) || decide (num.toNat ≤ 2))) causeOperand s <|
        withReads reads s <|
          let n := num.toNat
          match f with
          | none => .next (s.finishWrite d 2 fun r => BitVec.ofNat 64 (s.csr r n))
          | some f =>
            let new (r : RegFile) : Nat := f acc (s.csr r n) r
            check (!(decide (n = 5) && s.badShape (new s.rf))) causeOperand s <|
              .next ((s.setCsr n (new s.rf)).finish fun sc =>
                (sc.mapFiles fun r => (r.setCsr n (new r)).put d (BitVec.ofNat 64 (s.csr r n))).mark s.pcc 2 d)

/-- Which registers csrw may write. -/
def CsrAccess.writable : CsrAccess → Bool
  | .ro => false
  | _ => true

/-- Which registers csrs and csrc may write. -/
def CsrAccess.settable : CsrAccess → Bool
  | .rw _ => true
  | _ => false

/-- The value that csrw leaves (R182). -/
def csrWritten (a : BitVec 5) (acc : CsrAccess) (old : Nat) (r : RegFile) : Nat :=
  let v := (r.get a).toNat
  match acc with
  | .rw m => v % pow2 32 &&& m
  | .wide => v
  | .w1c => old - (old &&& v)
  | .ro => old

/-- The value that csrs leaves. -/
def csrSet (a : BitVec 5) (acc : CsrAccess) (old : Nat) (r : RegFile) : Nat :=
  match acc with
  | .rw m => (old ||| ((r.get a).toNat % pow2 32)) &&& m
  | _ => old

/-- The value that csrc leaves. -/
def csrCleared (a : BitVec 5) (acc : CsrAccess) (old : Nat) (r : RegFile) : Nat :=
  match acc with
  | .rw _ => old - (old &&& ((r.get a).toNat % pow2 32))
  | _ => old

def execCsrr (d : BitVec 5) (num : BitVec 16) (s : State) : Out := csrForm d [] num (fun _ => true) none s
def execCsrw (d a : BitVec 5) (num : BitVec 16) (s : State) : Out :=
  csrForm d [a] num CsrAccess.writable (some (csrWritten a)) s
def execCsrs (d a : BitVec 5) (num : BitVec 16) (s : State) : Out :=
  csrForm d [a] num CsrAccess.settable (some (csrSet a)) s
def execCsrc (d a : BitVec 5) (num : BitVec 16) (s : State) : Out :=
  csrForm d [a] num CsrAccess.settable (some (csrCleared a)) s

/-! ### Traps and the control die's forms (R184, R185) -/

/-- TRAP (R184): the code stands in the record's DETAIL (R397). -/
def execTrap (c : BitVec 8) (s : State) : Out :=
  onStreams true false true s <| trapWith s { cause := causeTrap, detail := c.toNat }

/-- ERET (R185). -/
def execEret (s : State) : Out :=
  onStreams false false true s <|
    check ((s.ctl s.cur.core).outstanding) causeOperand s <| .next s.returnFromTrap

/-- HALT (R185): issue stops until the wake event, and goes on at pc + 4. -/
def execHalt (s : State) : Out :=
  onStreams false false true s <| .next ((s.finish id).modCtl s.cur.core fun c => { c with halted := true })

/-- The wake event of the control-die cores (R185, R388, R402). -/
def State.wakeControl (s : State) : State := { s with control := s.control.map fun c => { c with halted := false } }

/-! ### ICINV (R186) -/

/-- The keys of the compute cores in a scope around a core (R186). -/
def inScope (scope core key : Nat) : Bool :=
  match scope with
  | 0 => decide (key = core)
  | 1 => decide (dieOf key = dieOf core) && decide (stripOf (physOf key) = stripOf (physOf core))
  | 2 => decide (dieOf key = dieOf core)
  | _ => true

/-- The cycles within which ICINV completes (R186). -/
def icinvBound (scope : Nat) : Nat :=
  match scope with
  | 0 => 4
  | 1 => 64
  | 2 => 512
  | _ => 2048

/-- Drops the instruction-cache sector of a virtual address on the cores that p selects; a context of none
stands for every context. -/
def State.dropSector (s : State) (ctx : Option Nat) (va : Nat) (p : Nat → Bool) : State :=
  let gone (key : Nat) : Bool := decide (key % pow2 56 = va / 128) && (ctx.all fun x => decide (key / pow2 56 = x))
  { s with
    cores := s.cores.mapVal fun k c =>
      if p k then { c with mem := { c.mem with icache := c.mem.icache.filter fun e => !gone e.1 } } else c }

/-- ICINV: the sector is dropped, and the form completes when every core in the scope has acknowledged, in a
cycle within its bound. On the control die it covers every context's copy, as R400 needs (log 15). -/
def execIcinv (a : BitVec 5) (scope : BitVec 2) (s : State) : Out :=
  onStreams true false true s <|
    check (decide (s.cur.stream ≠ .control) || decide (scope = 3)) causeOperand s <|
      withReads [a] s <|
        match s.holding with
        | some ⟨_, .until t, _⟩ => if t ≤ s.pcc then .next (s.finish id) else .next (s.holdFor (.until t))
        | _ =>
          let ctx := if s.cur.stream = .control then none else some s.here.job.ctx
          let s1 := s.dropSector ctx (s.x a).toNat (inScope scope.toNat s.cur.core)
          let t := s.pcc + 1 + Config.freeDelay s.free % icinvBound scope.toNat
          .next (s1.tick.holdFor (.until t))

/-! ### TLBINV (R398, R399) -/

/-- Whether a translation is one that a TLBINV of a context covers: the page that contains an address, of any
size, or every page. -/
def shotEntry (ctx va : Nat) (all : Bool) (e : TlbEntry) : Bool :=
  decide (e.ctx = ctx) && (all || e.covers ctx va)

/-- Whether a leaf, given as its base plus its level, holds an address. -/
def leafHolds (leaf va : Nat) : Bool :=
  let level := leaf % 65536
  decide (va / pageBytes level * pageBytes level = leaf - level)

/-- A walk that has begun, or a strip TLB's answer that is on its way: what a TLBINV awaits and keeps from installing (R399). -/
def Walk.begun (w : Walk) : Bool := decide (w.stage = .walking) || decide (w.stage = .hit)

/-- The leases on pages that a TLBINV covers end on the dies that p selects (R298). -/
def State.shootLeases (s : State) (ctx va : Nat) (all : Bool) (p : Nat → Bool) : State :=
  { s with
    cores := s.cores.mapVal fun k c =>
      if p (dieOf k) && decide (c.job.ctx = ctx) then
        { c with mem := { c.mem with l1 := c.mem.l1.filter fun e => !(all || leafHolds e.2.vpage va) } }
      else c }

/-- Drops what a TLBINV covers on the dies that p selects: translations of L1 and strip TLBs, the walk cache's
entries of the context, the leases of covered pages, and those that fills in flight asked for (R298, R399); walks of the
context will not install. `ctl` is for the TLBs of the control-die cores (R393). -/
def State.shoot (s : State) (ctx va : Nat) (all : Bool) (p : Nat → Bool) (ctl : Bool) : State :=
  let s := s.shootLeases ctx va all p
  { s with
    control := if ctl then s.control.map fun (c : Control) => { c with tlb := c.tlb.filter fun e => !shotEntry ctx va all e } else s.control
    accs := s.accs.mapVal fun _ a =>
      if a.lease.isSome && p (dieOf a.core) && decide ((s.core a.core).job.ctx = ctx) && (all || leafHolds a.value va) then { a with lease := none }
      else a
    cores := s.cores.mapVal fun k c =>
      if p (dieOf k) then
        { c with mem := { c.mem with tlb := c.mem.tlb.filter fun e => !shotEntry ctx va all e } }
      else c
    dies := s.dies.mapVal fun d x =>
      if p d then
        { x with tlbs := x.tlbs.mapVal fun _ l => l.filter fun e => !shotEntry ctx va all e
                 stlbs := x.stlbs.mapVal fun _ l => l.filter fun e => !shotEntry ctx va all e
                 wcache := x.wcache.filter fun e => decide (e.ctx ≠ ctx) }
      else x
    walks := s.walks.mapVal fun _ w => if w.ctx = ctx && p w.die && w.begun then { w with dropped := true } else w }

/-- The dies a scope covers (R398). -/
def State.shotDies (s : State) (scope ctx : Nat) (d : Nat) : Bool :=
  match scope with
  | 0 => true
  | 1 => (s.ctx ctx).presence.has d
  | _ => false

/-- TLBINV (R398, R399): what it covers is dropped at once, and it completes once the walks it found have
ended, within 2,000 cycles of the last; then no lease is valid that a fill has taken before (R298). -/
def execTlbinv (a : BitVec 5) (scope : BitVec 3) (s : State) : Out :=
  onStreams false false true s <|
    check (decide (scope.toNat ≤ 2)) causeEncoding s <|
      withReads [a] s <|
        let v := (s.x a).toNat
        let ctx := fld v 61 56
        let all := v.testBit 62
        match s.holding with
        | some ⟨_, .shoot n, _⟩ =>
          match s.shoots.get n with
          | none => .next (s.finish id)
          | some sd =>
            if sd.walks.any fun w => s.walks.has w then .next (s.holdFor (.shoot n))
            else if sd.due = 0 then
              let due := s.pcc + 1 + Config.freeDelay s.free % 2000
              .next ({ s with shoots := s.shoots.set n { sd with due } }.tick.holdFor (.shoot n))
            else if s.pcc < sd.due then .next (s.holdFor (.shoot n))
            else
              let s1 := { s with shoots := s.shoots.del n }.shootLeases ctx (fld v 55 0) all (s.shotDies scope.toNat ctx)
              let s2 := if scope.toNat = 0 && all then s1.modCtx ctx (fun c => { c with presence := [] }) else s1
              .next (s2.finish id)
        | _ =>
          check (!v.testBit 63) causeOperand s <|
            let p := s.shotDies scope.toNat ctx
            let ws := (s.walks.filter fun w => decide (w.2.ctx = ctx) && p w.2.die && w.2.begun).map (·.1)
            let s1 := s.shoot ctx (fld v 55 0) all p (decide (scope.toNat ≠ 1))
            let n := s1.nextId
            .next (({ s1 with shoots := s1.shoots.set n ⟨ws, 0⟩, nextId := n + 1 }).holdFor (.shoot n))

/-! ### Quiescence windows (R401, R402) -/

/-- Whether an access is counted by the pending store it makes. -/
def Access.countedAsStore (a : Access) : Bool :=
  decide (a.core < Config.controlBase) && !isConfig a.pa && (match a.kind with
    | .store => true
    | .vstore _ _ => true
    | .cwrite _ _ => true
    | _ => false)

/-- Whether an access in flight is still counted in its window (R401): atomics until performed, as are the stores that their
performance commits, those of the control die and to configuration space (R288, R310); commit messages by their stores. -/
def Access.counted (a : Access) : Bool :=
  !a.countedAsStore && (match a.kind with
    | .commit _ _ => false
    | .amo .. => !a.performed
    | .vamo .. => !a.performed
    | .csig .. => !a.performed
    | .store => !a.performed
    | .vstore _ _ => !a.performed
    | .cwrite _ _ => !a.performed
    | _ => true)

/-- The cores with a job, and the saved images of pre-empted jobs (R407), whose keys follow those of the cores. -/
def State.jobs (s : State) : List (Nat × Core) :=
  s.cores ++ s.hub.launches.flatMap fun (l : Nat × Launch) => match l.2.saved with
    | some sv => sv.images.map fun (i : Nat × Core) => (2048 + l.2.binding.getD i.1 0, i.2)
    | none => []

/-- The accesses tagged with one window (R401), those of other packages that wait here among them (R402). -/
def State.tagged (s : State) (w : Nat) : Nat :=
  (s.agenda.filter fun (x : Nat × Event) => match x.2 with
    | .remoteRequestArrival q => decide (q.due ≠ 0) && decide (q.window = w)
    | _ => false).length +
  (s.accs.filter fun a => a.2.counted && decide (a.2.window = w)).length +
    (s.jobs.map fun c => (c.2.mem.pend.filter fun p => decide (p.window = w)).length).sum +
    (s.walks.filter fun x => decide (x.2.stage = .walking) && decide (x.2.window = w)).length +
    (s.fabric.queue.filter fun x => decide (x.window = some w)).length +
    (s.fabric.tags.filter fun t => decide (t.2.withheld = some w)).length

/-- Q[w] (R401): the accesses whose tag lies at or before w in rotation order, the current window last. -/
def State.quiescence (s : State) (w : Nat) : Nat :=
  let back := (w + 16 - (s.qwin + 1) % 16) % 16
  ((List.range (back + 1)).map fun i => s.tagged ((s.qwin + 1 + i) % 16)).sum

/-- Whether a page of the moult queue may be released: its window has drained, now or, noted by 16 on its tag, in an earlier
cycle (R402, R403). -/
def State.drained (s : State) (w : Nat) : Bool := decide (16 ≤ w) || decide (s.quiescence w = 0)

/-- Notes which pages' windows have drained as a cycle ends: their windows may be used again while the ring is full (R403). -/
def State.noteDrained (s : State) : State :=
  if s.moult.pages = [] then s
  else
    { s with moult := { s.moult with pages := s.moult.pages.map fun (p : Nat × Nat) =>
        if (p.2 < 16) ∧ (s.drained p.2 = true) then (p.1, p.2 + 16) else p } }

/-- MOULT (R187, R402): the page is tagged with the current window, and the next becomes current. -/
def execMoult (a : BitVec 5) (s : State) : Out :=
  onStreams false false true s <| withReads [a] s <|
    let p := (s.x a).toNat
    if p % 65536 ≠ 0 then trapWith s { cause := causeAlignment, addr := s.x a }
    else if s.moult.pages.length ≥ 8192 || decide (s.tagged ((s.qwin + 1) % 16) ≠ 0) then .next (s.holdFor .resource)
    else
      .next (({ s with moult := { s.moult with pages := s.moult.pages ++ [(p, s.qwin)] }, qwin := (s.qwin + 1) % 16 }).finish id)

/-- QREAD (R187, R402): the result is readable 21 cycles after issue (R189). The count and the current window are those of the
issue; whether they are sampled then or as it completes no rule says (DESIGN CHOICE, log 37). -/
def execQread (d : BitVec 5) (w : BitVec 4) (s : State) : Out :=
  onStreams false false true s <|
    .next (s.finishWrite d 21 fun _ =>
      BitVec.ofNat 64 (s.quiescence w.toNat % pow2 32 + if s.qwin = w.toNat then pow2 63 else 0))

/-- RDPCC (R188). -/
def execRdpcc (d : BitVec 5) (s : State) : Out :=
  onStreams true true true s <| withFields [d] s <| .next (s.finishWrite d 1 fun _ => BitVec.ofNat 64 s.pcc)

end Sys2Proof.Machine
end

