-- ==== Sys2Proof/Machine/Engine.lean ====
section
/-! DEFINITION. The engine commands but for CRUN (R147-R171), LDQ (R136) and JALR (R144). -/

namespace Sys2Proof.Machine

/-! ### Fetching words that a form needs (R63, R64, R144, R150) -/

/-- Goes on with the word at a virtual address; a miss waits for the walk, a fault is charged to the form. -/
def withWord (va : Word) (aux : Word) (s : State) (k : BitVec 32 → State → Out) : Out :=
  match s.fetch s.curKey s.curCtx va with
  | .miss =>
    let (s1, id) := s.startWalk va true
    .next (s1.holdFor (.walk id))
  | .fault t => trapWith s { t with aux }
  | .word w => k w (s.keepSector s.curKey s.curCtx va)

def headerKind (w : BitVec 32) : Nat := fld w.toNat 27 26
def headerMode (w : BitVec 32) : Bool := w.toNat.testBit 25
def headerLength (w : BitVec 32) : Nat := fld w.toNat 15 0

/-- The header check of a start command (R64). -/
def withHeader (va : Word) (kind : Nat) (exposedOnly : Bool) (s : State) (k : BitVec 32 → State → Out) : Out :=
  if va.toNat % 4 ≠ 0 then trapWith s { cause := causeAlignment, addr := va }
  else
    withWord va 0 s fun w s =>
      if fld w.toNat 31 28 ≠ 0xA ∨ headerKind w = 3 ∨ headerLength w = 0 ∨ fld w.toNat 19 16 ≠ 0 then trap s causeEncoding
      else if headerKind w ≠ kind then trap s causeOperand
      else if exposedOnly && !headerMode w then trap s causeOperand
      else k w s

/-! ### Engine modes (R107) -/

/-- Whether the engine mode is exposed, if the core is not in free mode: it follows from the tables that run. -/
def Core.engineMode (c : Core) : Option Bool :=
  match c.groups.find? fun g => g.2.v.busy with
  | some g => some g.2.v.exposed
  | none => c.matrix.run.map (·.exposed)

/-- Whether another group's exposed vector table runs. -/
def Core.exposedVector (c : Core) (slot : Nat) : Bool :=
  c.groups.any fun g => decide (g.1 ≠ slot) && g.2.v.busy && g.2.v.exposed

/-- Whether a start command for a table may go on: the mode is free or its own, no other exposed vector table
runs, and no older start command waits before it (R107). -/
def Core.mayStart (c : Core) (slot : Nat) (exposed vector : Bool) : Bool :=
  let older := (c.waiting Wait.start?).takeWhile fun g => decide (g ≠ slot)
  let waits := (c.waiting Wait.start?).contains slot
  (match c.engineMode with
   | some m => m == exposed && (!waits || decide (older = []))
   | none => decide (older = []) ) &&
    !(vector && exposed && c.exposedVector slot)

/-- A start command waits for its mode (R107). -/
def withMode (exposed vector : Bool) (s : State) (k : Out) : Out :=
  if s.here.mayStart s.cur.slot exposed vector then k else .next (s.holdFor .start)

/-! ### The vector stream (R150, R151) -/

/-- A vector stream started on a table. -/
def VStream.start (header : Word) (w : BitVec 32) (shape : BitVec 32) (rm now : Nat) : VStream :=
  { VStream.idle with
    busy := true, header, length := headerLength w, exposed := headerMode w, pc := header + 4, wshape := shape,
    wrm := rm, nextIssue := now + 2 }

/-- The cycles by which the power manager delays the start of a table in a window that it caps: at most 10 µs, and only an exposed
one's (R108, R479); which delay is a free value. -/
def State.startDelay (s : State) (exposed : Bool) : Nat :=
  if exposed && s.pfc.capping then Config.startDelay s.cur.core s.pcc % 20001 else 0

/-- A vector table whose start is delayed. -/
def VStream.delayed (v : VStream) (d : Nat) : VStream := { v with nextIssue := v.nextIssue + d }

/-- A matrix table whose start is delayed. -/
def Matrix.delayed (m : Matrix) (d : Nat) : Matrix := { m with nextIssue := m.nextIssue + d }

def execVrun (a b : BitVec 5) (s : State) : Out :=
  onStreams true false false s <| withReads [a, b] s <|
    if s.grp.v.busy then .next (s.holdFor .resource)
    else
      let va := s.x a
      withHeader va 0 false s fun w s =>
        withMode (headerMode w) true s <|
          let rf := s.rf
          .next ((s.modGrp fun g =>
            { g with v := (VStream.start va w g.sc.shape (rf.rmode.toNat % 4) s.pcc).delayed (s.startDelay (headerMode w)), k := g.k.set 0 (rf.get b) }).finish id)

def execVwait (d : BitVec 5) (s : State) : Out :=
  onStreams true false false s <|
    if s.grp.v.busy then .next (s.holdFor .ending) else .next (s.finishWrite d 1 fun _ => s.grp.ret)

/-! ### The matrix stream (R152-R154, R161) -/

/-- The matrix stream runs no table and the array holds no row (R152). -/
def Matrix.idle (m : Matrix) : Bool := m.run.isNone && decide (m.rows = [])

/-- Starts a matrix table: its first word issues 4 cycles later, and T0 is that cycle (R111). -/
def Matrix.start (m : Matrix) (owner : Nat) (header : Word) (w : BitVec 32) (treadle : Bool) (now : Nat) : Matrix :=
  { m with
    t0 := now + 4
    nextIssue := now + 4
    run := some { owner, header, length := headerLength w, exposed := headerMode w, treadle, pc := header + 4,
                  first := now + 4, started := false, seg := none, ended := false, trapped := false } }

/-- Whether the next start of a matrix table is held by the fence of a unit under test (R454). -/
def Core.tableHeld (c : Core) (now : Nat) : Bool := decide (c.fences.table ≠ 0) || decide (now < c.fences.tableTo)

def execMrun (a : BitVec 5) (s : State) : Out :=
  onStreams true false false s <| withReads [a] s <|
    if !s.here.matrix.idle || s.here.tableHeld s.pcc then .next (s.holdFor .resource)
    else
      let va := s.x a
      withHeader va 1 false s fun w s =>
        withMode (headerMode w) false s <|
          .next ((s.modHere fun c => { c with
            matrix := (c.matrix.start s.cur.slot va w false s.pcc).delayed (s.startDelay (headerMode w)) }).finish id)

def execMwait (d : BitVec 5) (s : State) : Out :=
  onStreams true false false s <|
    let m := s.here.matrix
    if m.idle && decide (m.drains = []) then .next (s.finishWrite d 1 fun _ => BitVec.ofNat 64 m.mflags.toNat)
    else .next (s.holdFor .ending)

/-- MSTOP: no word issues any more, and an open segment closes without a check (R153). The rule bars the words of later cycles; a word due in
MSTOP's own issue cycle does not issue either (DESIGN CHOICE, log 62). -/
def execMstop (s : State) : Out :=
  onStreams true false false s <|
    match s.here.matrix.run with
    | none => .next (s.finish id)
    | some r =>
      check (!r.treadle) causeOperand s <|
        .next ((s.modHere fun c =>
          { c.dropUnissued with matrix := { c.matrix with run := some { r with ended := true, seg := none, ea := none }, window := none } }).finish id)

/-- TRDL (R161): the controller's registers take their values of R314-R316, TDLA is latched, and end descriptors
of an earlier run that are still to be sent stay (R325). -/
def Treadle.start (t : Treadle) : Treadle :=
  { t with
    tbeat := 0, tdnext := 0, look := t.tdla.toNat % 16, tstate := BitVec.ofNat 32 (t.tstate.toNat / 8 % 2 * 8 + 1),
    missed := 0, segMissed := 0, waiting := t.waiting.filter fun d => decide (fld d.descr.toNat 63 60 = 15), sent := [], raiseTo := 0,
    endAt := 0, beats := 0, nextDemand := 0, part := 0 }

def execTrdl (a : BitVec 5) (s : State) : Out :=
  onStreams true false false s <| notCompat s <| withReads [a] s <|
    if !s.here.matrix.idle || s.here.tableHeld s.pcc then .next (s.holdFor .resource)
    else
      let va := s.x a
      withHeader va 1 true s fun w s =>
        withMode true false s <|
          .next ((s.modHere fun c =>
            { c with matrix := (c.matrix.start s.cur.slot va w true s.pcc).delayed (s.startDelay true), treadle := c.treadle.start }).finish id)

/-! ### Completion counts (R155-R158) -/

/-- A count is reached when (CC - c) mod 2^32 < 2^31 (R155). -/
def countReached (cc c : BitVec 32) : Bool := decide ((cc - c).toNat < pow2 31)

def execCwait (a : BitVec 5) (u : BitVec 4) (s : State) : Out :=
  onStreams true false false s <| withReads [a] s <|
    let ch := u.toNat - 2
    let c := (s.x a).setWidth 32
    match s.holding with
    | some ⟨_, .count _ _, some _⟩ => .next (s.finish id)
    | _ =>
      if countReached (s.here.chan ch).cc c then .next (s.finish id)
      else .next ((s.holdFor (.count ch c)).swapOut)

/-- CWAIT with continuation (R158): the target at the cost of a taken branch where the count is reached; else
the group leaves at once and is reactivated at the target. -/
def execCwaitCont (n : BitVec 2) (a : BitVec 5) (o : BitVec 13) (s : State) : Out :=
  onStreams true false false s <| withReads [a] s <|
    let c := (s.x a).setWidth 32
    let target := wordTarget s.scalar.pc o
    match s.holding with
    | some ⟨_, .countAt _ _ _, some _⟩ => .next (s.jump target 1 id)
    | _ =>
      if countReached (s.here.chan n.toNat).cc c then .next (s.jump target 3 id)
      else .next ((s.holdFor (.countAt n.toNat c target)).swapOut)

/-! ### The eft stream (R136, R159) -/

/-- The eft stream has ended and every ldq it issued has delivered its bytes (R159). -/
def Core.eftIdle (c : Core) : Bool := !c.eft.running && c.ports.all fun p => decide (p.ldqs = [])

def execErun (d a b : BitVec 5) (s : State) : Out :=
  onStreams true false false s <| withReads [d, a, b] s <|
    if !s.here.eftIdle then .next (s.holdFor .resource)
    else if (s.x a).toNat % 4 ≠ 0 then trapWith s { cause := causeAlignment, addr := s.x a }
    else
      let rf := s.rf
      .next ((s.modHere fun c =>
        let e := c.eft
        { c with eft :=
            { e with
              sc := { e.sc with pc := rf.get a, rf := e.sc.rf.put 1 (rf.get b), ready := e.sc.ready.del 1, nextIssue := s.pcc + 1 }
              running := decide (rf.get a ≠ rf.get d), endPc := rf.get d, owner := s.cur.slot, trapped := false, orphan := false } }).finish id)

/-- LDQ (R136): the bytes are reserved in the port at issue, and an ldq that finds too little room waits. -/
def execLdq (d a : BitVec 5) (sz c : BitVec 2) (o : BitVec 12) (s : State) : Out :=
  onStreams false true false s <| withFields [a] s <| check (decide (d.toNat < 16)) causeOperand s <|
    check ((s.here.port d.toNat).feeds 4) causeOperand s <| withReads [a] s <| withRoom s <|
      let size := pow2 sz.toNat
      let ea := s.x a + o.signExtend 64 * BitVec.ofNat 64 size
      withAddress ea size .read s fun pa e =>
        if (s.here.port d.toNat).byteRoom < size then .next (s.holdFor .resource)
        else
          let (s1, n) := s.startRead (.ldq d.toNat) ea pa size c.toNat 0 e
          .next ((s1.modHere fun c => c.modPort d.toNat fun p => { p with ldqs := p.ldqs ++ [⟨n, size, none, false⟩] }).finish id)

/-! ### The format queue (R160, R229) -/

/-- The reserved fields and values of a format word (R229). -/
def formatOk (w : Word) : Bool :=
  let n := w.toNat
  decide (fld n 31 20 = 0) && decide (fld n 18 16 ≤ 5) && decide (fld n 13 12 ≠ 3) && decide (fld n 11 10 ≤ 1) &&
    decide (fld n 9 4 = 0)

/-- A format word whose format codes compatibility mode lacks (R384; log 16). -/
def formatCompat (w : Word) : Bool := decide (fld w.toNat 3 2 ≠ 3) && decide (fld w.toNat 1 0 ≠ 3)

def execFmtq (a : BitVec 5) (s : State) : Out :=
  onStreams true false false s <| withReads [a] s <|
    let w := s.x a
    check (!s.here.job.compat || formatCompat w) causeEncoding s <|
      check (formatOk w) causeOperand s <|
        if s.here.matrix.fq.length ≥ 16 then .next (s.holdFor .resource)
        else .next ((s.modHere fun c => { c with matrix := { c.matrix with fq := c.matrix.fq ++ [⟨w, s.pcc + 2⟩] } }).finish id)

/-! ### Stitchers (R162) -/

/-- A demand is taken: its place is free again (R162, R322). -/
def Core.freePlace (c : Core) : Core := { c with places := c.places - 1 }

def execStitch (d : BitVec 5) (s : State) : Out :=
  onStreams true false false s <| notCompat s <|
    match s.holding with
    | some ⟨_, .demand _, some v⟩ => .next (s.finishWrite d 1 fun _ => v)
    | some ⟨_, .demand _, none⟩ => .next s
    | _ =>
      match s.here.demands with
      | v :: rest => .next ((s.modHere fun c => { c.freePlace with demands := rest }).finishWrite d 1 fun _ => v)
      | [] => .next ((s.holdFor (.demand d.toNat)).swapOut)

/-! ### Stream-port bindings (R163-R168) -/

/-- Whether a descriptor may be bound here (R165). -/
def State.bindOk (s : State) (n : Nat) (d : Word) : Bool :=
  decide ((s.here.port n).status = .unbound) && descMbzOk d && descCodesOk d &&
    (!(decide (descProd d = 5) || decide (descCons d = 5)) ||
      (match s.hereLaunch.binding.get (descRole d) with
       | some k => decide (dieOf k = dieOf s.cur.core)
       | none => false))

def execBind (a b : BitVec 5) (s : State) : Out :=
  onStreams true false false s <| check (decide (b.toNat < 16)) causeOperand s <| withReads [a] s <|
    check (s.bindOk b.toNat (s.x a)) causeOperand s <|
      .next ((s.modHere fun c => c.modPort b.toNat fun _ =>
        { Port.unbound with status := .bound, desc := s.x a, owner := s.cur.slot, since := s.pcc }).finish id)

/-- UNBIND (R167, R272): CLOSING until the port is drained. -/
def execUnbind (b : BitVec 5) (s : State) : Out :=
  onStreams true false false s <| check (decide (b.toNat < 16)) causeOperand s <|
    match (s.here.port b.toNat).status with
    | .unbound => .next (s.finish id)
    | .closing => .next (s.holdFor .resource)
    | .bound =>
      match s.holding with
      | some ⟨_, .resource, _⟩ => .next (s.finish id)
      | _ =>
        let s1 := s.modHere fun c => c.modPort b.toNat fun p => { p with status := .closing }
        if (s1.here.port b.toNat).drained then
          .next ((s1.modHere fun c => c.modPort b.toNat fun _ => Port.unbound).finish id)
        else .next (s1.holdFor .resource)

/-- The state word of a port (R168). -/
def Port.depthWord (p : Port) (now : Nat) : Word :=
  if p.status = .unbound then 0
  else BitVec.ofNat 64 (pow2 63 + p.free % 65536 * 65536 + p.held now % 65536)

def execQdepth (d b : BitVec 5) (s : State) : Out :=
  onStreams true false false s <| check (decide (b.toNat < 16)) causeOperand s <|
    .next (s.finishWrite d 2 fun _ => (s.here.port b.toNat).depthWord s.pcc)

/-! ### Register blocks (R169-R171) -/

/-- The blocks are the group's, and the form ends once they are in place (R270). -/
def takeBlocks (d : BitVec 5) (r : List Nat) (mask : Nat) (s : State) : Out :=
  let s1 := (s.modHere fun c => c.giveBlocks s.cur.slot r).serveBlocks s.cur.core
  if s1.grp.inPlace then .next (s1.finishWrite d 1 fun _ => 0)
  else
    let s2 := s1.holdFor (.blocks mask d.toNat)
    .next (s2.modGrp fun g => { g with hold := g.hold.map fun h => { h with granted := some 0 } })

/-- RBACQ (R170). -/
def rbacqForm (d a : BitVec 5) (waits : Bool) (s : State) : Out :=
  onStreams true false false s <|
    match s.holding with
    | some ⟨_, .blocks _ _, some _⟩ => if s.grp.inPlace then .next (s.finishWrite d 1 fun _ => 0) else .next s
    | some ⟨_, .blocks _ _, none⟩ => .next s
    | _ =>
      withReads [a] s <| check (decide ((s.x a).toNat < 8)) causeOperand s <|
        let mask := (s.x a).toNat
        let r := s.grp.lacking mask
        let c := s.here
        if r = [] then .next (s.finishWrite d 1 fun _ => 0)
        else if c.heldBlocks + r.length ≤ c.budget && decide (c.waiting Wait.blocks? = []) then takeBlocks d r mask s
        else if waits then .next ((s.holdFor (.blocks mask d.toNat)).swapOut)
        else .next (s.finishWrite d 1 fun _ => 1)

def execRbacqW (d a : BitVec 5) (s : State) : Out := rbacqForm d a true s
def execRbacqT (d a : BitVec 5) (s : State) : Out := rbacqForm d a false s

/-- RBREL (R171). -/
def execRbrel (a : BitVec 5) (s : State) : Out :=
  onStreams true false false s <| withReads [a] s <| check (decide ((s.x a).toNat < 8)) causeOperand s <|
    if s.grp.v.busy then .next (s.holdFor .resource)
    else
      let mask := (s.x a).toNat
      let gone (b : Nat) : Bool := decide (1 ≤ b) && decide (b ≤ 3) && mask.testBit (b - 1)
      let s1 := s.modGrp fun g => { g with blocks := g.blocks.filter fun b => !gone b.1 }
      .next ((s1.regrant s.cur.core).finish id)

/-! ### JALR (R144) -/

def execJalr (d a : BitVec 5) (s : State) : Out :=
  onStreams true false true s <| withReads [a] s <|
    let t := s.x a
    let pc := s.scalar.pc
    if t.toNat % 4 ≠ 0 then trapWith s { cause := causeAlignment, addr := t, aux := t }
    else
      withWord t t s fun w s =>
        if w ≠ 0x9C000000 then trapWith s { cause := causeProtection, addr := t, aux := t }
        else
          check (s.scalar.agreeOn fun r => r.get a) causeTwin s <|
            .next (s.jump t 3 fun sc => (sc.mapFiles fun r => r.put d (pc + 4)).mark s.pcc 1 d)

end Sys2Proof.Machine
end

