-- ==== Sys2Proof/Machine/Lns.lean ====
section
/-! DEFINITION. The logarithmic number system (R13-R31) and the special functions (R198): codes, Table16,
products, accumulation, and the conversions in both directions. -/

namespace Sys2Proof.Machine

/-! ### Formats and codes (R13-R20) -/

/-- An LNS format: its bits, codes per octave, bias and largest log field (R13). -/
structure LFmt where
  bits : Nat
  n : Nat
  bias : Nat
  emax : Nat
  deriving DecidableEq, Repr

def LFmt.l16 : LFmt := ⟨16, 256, 16384, 32767⟩
def LFmt.l8 : LFmt := ⟨8, 8, 64, 127⟩
def LFmt.l4 : LFmt := ⟨4, 2, 4, 7⟩

/-- The format of an LNS format code; L4X codes are stored as L4 nibbles (R84). -/
def LFmt.ofCode (c : Nat) : LFmt :=
  match c % 4 with
  | 0 => .l16
  | 1 => .l8
  | _ => .l4

/-- LNS units per code: 256 / n (R16). -/
def LFmt.unit (f : LFmt) : Nat := 256 / f.n

/-- The code of a sign and a log field (R13). -/
def LFmt.code (f : LFmt) (neg : Bool) (e : Nat) : Nat := (if neg then pow2 (f.bits - 1) else 0) + e % pow2 (f.bits - 1)

/-- What a code stands for: zero, NaR, or a real number with its log units (R14, R16). -/
inductive LVal where
  | zero
  | nar
  | real (neg : Bool) (u : Int)
  deriving DecidableEq, Repr

/-- The value of a code outside an L4X pair, and whether it is an L4 marker, which reads as zero (R14). -/
def LFmt.read (f : LFmt) (c : Nat) : LVal × Bool :=
  let neg := c.testBit (f.bits - 1)
  let e := c % pow2 (f.bits - 1)
  if e = 0 then
    if neg then (if f.bits = 4 then (.zero, true) else (.nar, false)) else (.zero, false)
  else (.real neg (((e : Int) - f.bias) * f.unit), false)

/-- The two elements of an L4X pair, and whether it held two markers (R20). -/
def l4xPair (byte : Nat) : LVal × LVal × Bool :=
  let lo := byte % 16
  let hi := byte / 16 % 16
  let outlier (v : Nat) : LVal := .real (v.testBit 3) (((v % 8 : Nat) + 4) * 128)
  if lo = 8 ∧ hi = 8 then (.zero, .zero, true)
  else if lo = 8 then (outlier hi, .zero, false)
  else if hi = 8 then (.zero, outlier lo, false)
  else ((LFmt.l4.read lo).1, (LFmt.l4.read hi).1, false)

/-- Element e of a packed sequence in an LNS format code, with the format violation it shows (R15, R20). -/
def lnsElement (fmt v e : Nat) : LVal × Bool :=
  let f := LFmt.ofCode fmt
  if fmt % 4 = 3 then
    let (a, b, two) := l4xPair (fld v (8 * (e / 2) + 7) (8 * (e / 2)))
    (if e % 2 = 0 then a else b, two)
  else f.read (fld v (f.bits * e + f.bits - 1) (f.bits * e))

/-! ### Table16 (R22) -/

/-- The largest n below 2^24 with (2n - 1)^256 at most 2^(6144 + k), found bit by bit. -/
def table16Aux (k : Nat) : Nat → Nat → Nat
  | 0, n => n
  | i + 1, n =>
    let m := n + pow2 i
    table16Aux k i (if (2 * m - 1) ^ 256 ≤ pow2 (6144 + k) then m else n)

/-- Table16[k] × 2^23: 2^(k/256) rounded to a 24-bit significand (R22). The definition is followed where two
printed entries, 86 and 212, differ from it (DEDUCED, log 5). -/
def table16 (k : Nat) : Nat := table16Aux (k % 256) 23 (pow2 23)

/-- Table16[U mod 256] × 2^floor(U/256) as a significand and an exponent (R16). Below 2^-4096 the exponent is
kept there: every format rounds such a number alike. -/
def linOf (u : Int) : Nat × Int := (table16 (u % 256).toNat, max (u / 256) (-4096) - 23)

/-- LinOf rounded to a format (R30). -/
def LVal.toLinear (v : LVal) (dst : Fmt) (rm : Rm) (sc : Int) : FRes :=
  match v with
  | .zero => ⟨dst.zero false, 0⟩
  | .nar => ⟨dst.nan, 0⟩
  | .real neg u =>
    let (m, e) := linOf (u + sc)
    dst.roundNZ rm neg m e

/-! ### Products and accumulation (R21, R23, R25) -/

def mflagACCOV : Nat := 1
def mflagACCUF : Nat := 2
def mflagNARIN : Nat := 4
def mflagSCOV : Nat := 8
def mflagFMTV : Nat := 16
def mflagMNV : Nat := 32
def mflagDOV : Nat := 64
def mflagDUF : Nat := 128
def mflagDLOSS : Nat := 256

/-- LnsProduct (R23): a binary32 image and the MFLAGS it sets. -/
def lnsProduct (a w : LVal) (sa sw : Int) : Nat × Nat :=
  let scov := if sa + sw < -32768 ∨ sa + sw > 32767 then mflagSCOV else 0
  match a, w with
  | .nar, _ => (Fmt.f32.nan, scov ||| mflagNARIN)
  | _, .nar => (Fmt.f32.nan, scov ||| mflagNARIN)
  | .zero, _ => (0, scov)
  | _, .zero => (0, scov)
  | .real na ua, .real nw uw =>
    let s := ua + uw + sa + sw
    let q := s / 256
    let neg := xor na nw
    if q ≥ 128 then (Fmt.f32.inf neg, scov ||| mflagACCOV)
    else if q < -126 then (0, scov ||| mflagACCUF)
    else ((if neg then pow2 31 else 0) + (q + 127).toNat * pow2 23 + (table16 (s % 256).toNat - pow2 23), scov)

/-- A finite binary32 image in units of 2^-149. -/
def f32Units (w : Nat) : Int :=
  match Fmt.f32.read w with
  | .fin neg m e => scaledTo neg m e (-149)
  | _ => 0

/-- AccStep (R25): the exact sum of its operands, rounded once to nearest even; the MFLAGS it sets. -/
def accStep (xs : List Nat) : Nat × Nat :=
  let vs := xs.map Fmt.f32.read
  if vs.any FVal.isNan then (Fmt.f32.nan, 0)
  else
    let pos := vs.any fun v => decide (v = .inf false)
    let neg := vs.any fun v => decide (v = .inf true)
    if pos && neg then (Fmt.f32.nan, mflagMNV)
    else if pos then (Fmt.f32.inf false, 0)
    else if neg then (Fmt.f32.inf true, 0)
    else
      let t := xs.foldl (fun acc x => acc + f32Units x) 0
      let r := Fmt.f32.roundInt .rne false t (-149)
      (r.bits, if r.flags.testBit 2 then mflagACCOV else 0)

/-! ### Conversion to LNS (R26, R27) -/

def lsatOV : Nat := 1
def lsatUF : Nat := 2
def lsatLOSS : Nat := 4
def lsatFMTV : Nat := 8

/-- A conversion's code and what it sets in FLAGS and LSAT. -/
structure LRes where
  code : Nat
  flags : Nat
  lsat : Nat
  deriving DecidableEq, Repr

/-- The integer nearest n × (log2(m × 2^e) - sc/256), a tie going to the larger, for m > 0 (R26): since 2^j is
at most m^512 exactly where j is at most its floor of log2, the floor of R26 is one integer division. -/
def nearestLog (n m : Nat) (e sc : Int) : Int :=
  let u : Int := (256 / n : Nat)
  ((Nat.log2 (m ^ 512) : Int) + 512 * e + u - 2 * sc) / (2 * u)

/-- LogCodeN (R26), with UFMIN. -/
def LFmt.logCode (f : LFmt) (x : FVal) (sc : Int) (ufmin : Bool) : LRes :=
  match x with
  | .nan s => if f.bits = 4 then ⟨0, flagNV, 0⟩ else ⟨f.code true 0, if s then flagNV else 0, 0⟩
  | .inf neg => ⟨f.code neg f.emax, 0, lsatOV⟩
  | .fin neg m e =>
    if m = 0 then ⟨0, 0, 0⟩
    else
      let t := nearestLog f.n m e sc + f.bias
      if t > f.emax then ⟨f.code neg f.emax, 0, lsatOV⟩
      else if t < 1 then ⟨if ufmin then f.code neg 1 else 0, 0, lsatUF⟩
      else ⟨f.code neg t.toNat, 0, 0⟩

/-- The rung of an input on the half-octave ladder, none for a NaN or a zero; an infinity lies above all
(R27). -/
def l4xRung (x : FVal) (sc : Int) : Option Int :=
  match x with
  | .nan _ => none
  | .inf _ => some (pow2 40 : Nat)
  | .fin _ m e => if m = 0 then none else some (nearestLog 2 m e sc)

/-- Whether |x| > |y| for inputs that are not NaN. -/
def magGreater (x y : FVal) : Bool :=
  let mag (v : FVal) : FVal := if v.sign then v.negate else v
  ltV (mag y) (mag x)

/-- The outlier nibble and its LSAT (R27). -/
def outlierNibble (x : FVal) (t : Int) : Nat × Nat :=
  let o := t - 4
  ((if x.sign then 8 else 0) + (if o > 7 then 7 else o.toNat), if o > 7 then lsatOV else 0)

/-- LogCode4X of a pair (R27): the byte, FLAGS and LSAT. -/
def logCode4x (x0 x1 : FVal) (sc : Int) (ufmin : Bool) : LRes :=
  let large (x : FVal) : Option Int := match l4xRung x sc with
    | some t => if t ≥ 4 then some t else none
    | none => none
  let one (i : Nat) (x : FVal) (t : Int) (other : FVal) (both : Bool) : LRes :=
    let (nib, ov) := outlierNibble x t
    let loss := if both then lsatLOSS ||| lsatOV else if other.isZero then 0 else lsatLOSS
    ⟨if i = 0 then 8 + 16 * nib else 16 * 8 + nib, if other.isNan then flagNV else 0, ov ||| loss⟩
  match large x0, large x1 with
  | none, none =>
    let a := LFmt.l4.logCode x0 sc ufmin
    let b := LFmt.l4.logCode x1 sc ufmin
    ⟨a.code + 16 * b.code, a.flags ||| b.flags, a.lsat ||| b.lsat⟩
  | some t, none => one 0 x0 t x1 false
  | none, some t => one 1 x1 t x0 false
  | some t0, some t1 => if magGreater x1 x0 then one 1 x1 t1 x0 true else one 0 x0 t0 x1 true

/-! ### AMAX (R28) -/

/-- The larger magnitude of two values that are not NaN. -/
def maxMag (acc : Option FVal) (x : FVal) : Option FVal :=
  let mag := if x.sign then x.negate else x
  if x.isNan then acc
  else
    match acc with
    | none => some mag
    | some a => some (if ltV a mag then mag else a)

/-- The update of AMAX by the active lanes (R28). -/
def amaxUpdate (amax : BitVec 64) (xs : List FVal) : BitVec 64 :=
  match xs.foldl maxMag none with
  | none => amax
  | some m =>
    let old := Fmt.f64.read amax.toNat
    if old.isNan || old.sign || ltV old m then BitVec.ofNat 64 (Fmt.f64.roundV .rne m).bits else amax

/-! ### Special functions (R198) -/

/-- 256p + k of Decomp for m × 2^e. -/
def decomp (m : Nat) (e : Int) : Int := nearestLog 256 m e 0

/-- Table16[U mod 256] × 2^floor(U/256), signed and rounded. -/
def Fmt.ofUnits (f : Fmt) (rm : Rm) (neg : Bool) (u : Int) : FRes := (LVal.real neg u).toLinear f rm 0

def Fmt.rcp (f : Fmt) (rm : Rm) (a : Nat) : FRes :=
  match f.read a with
  | .nan s => f.nanRes s
  | .inf neg => ⟨f.zero neg, 0⟩
  | .fin neg m e => if m = 0 then ⟨f.inf neg, flagDZ⟩ else f.ofUnits rm neg (-decomp m e)

def Fmt.rsq (f : Fmt) (rm : Rm) (a : Nat) : FRes :=
  match f.read a with
  | .nan s => f.nanRes s
  | .inf neg => if neg then f.nanRes true else ⟨f.zero false, 0⟩
  | .fin neg m e =>
    if m = 0 then ⟨f.inf neg, flagDZ⟩
    else if neg then f.nanRes true
    else f.ofUnits rm false ((-decomp m e + 1) / 2)

/-- The integer nearest 256x, ties to even; beyond ±2^20 it is kept there, where every format overflows or
underflows alike. -/
def nearest256 (neg : Bool) (m : Nat) (e : Int) : Int :=
  if (bitLen m : Int) + e > 13 then (if neg then -(pow2 20 : Nat) else (pow2 20 : Nat))
  else
    let n := (roundAt .rne neg m (e + 8) 0).1
    if neg then -(n : Int) else n

def Fmt.exp2 (f : Fmt) (rm : Rm) (a : Nat) : FRes :=
  match f.read a with
  | .nan s => f.nanRes s
  | .inf neg => if neg then ⟨f.zero false, 0⟩ else ⟨f.inf false, 0⟩
  | .fin neg m e => f.ofUnits rm false (nearest256 neg m e)

def Fmt.log2 (f : Fmt) (rm : Rm) (a : Nat) : FRes :=
  match f.read a with
  | .nan s => f.nanRes s
  | .inf neg => if neg then f.nanRes true else ⟨f.inf false, 0⟩
  | .fin neg m e =>
    if m = 0 then ⟨f.inf true, flagDZ⟩
    else if neg then f.nanRes true
    else f.roundInt rm false (decomp m e) (-8)

end Sys2Proof.Machine
end

