-- ==== Sys2Proof/Machine/Operands.lean ====
section
/-! DEFINITION. The operands of vector micro-orders (R56-R61, R190-R195, R384): views, SHAPE, the active
tile, ports as operands, and the environment a micro-order computes in. -/

namespace Sys2Proof.Machine

/-! ### Operand fields (R56, R57) -/

/-- DIR of an operand field: 0 row, 1 column, 2 diagonal, 3 port. -/
def opDir (f : BitVec 6) : Nat := f.toNat / 16
def opName (f : BitVec 6) : Nat := f.toNat % 16
def isPort (f : BitVec 6) : Bool := decide (opDir f = 3)

/-- The physical cell (16 × row + column) that a view gives logical cell n (R57); in compatibility mode the
diagonal turns within eight columns (R384). -/
def viewCell (dir : Nat) (compat : Bool) (n : Nat) : Nat :=
  let i := n / 16
  let j := n % 16
  if dir = 1 then 16 * j + i
  else if dir = 2 then
    if compat && decide (j < 8) then 16 * i + (i + j) % 8 else 16 * i + (i + j) % 16
  else n

/-- A register's bytes in logical order, seen through a view; k is 32 for cells, 4 for masks, 1 for marks. -/
def throughView (dir : Nat) (compat : Bool) (k v : Nat) : Nat :=
  if dir = 0 then v
  else assemble k (fun n => v / pow2 (k * viewCell dir compat n)) 256

/-- The logical cell that a view puts at a physical cell. -/
def unviewCell (dir : Nat) (compat : Bool) (p : Nat) : Nat :=
  let i := p / 16
  let j := p % 16
  if dir = 1 then 16 * j + i
  else if dir = 2 then
    if compat && decide (j < 8) then 16 * i + (j + 8 - i % 8) % 8 else 16 * i + (j + 16 - i) % 16
  else p

/-- Logical bytes put back into a register's places by a view on the destination (R57). -/
def throughUnview (dir : Nat) (compat : Bool) (k v : Nat) : Nat :=
  if dir = 0 then v
  else assemble k (fun p => v / pow2 (k * unviewCell dir compat p)) 256

/-! ### The active tile (R69, R190, R191) -/

/-- A working SHAPE: ROWS and COLS, each one less than the count. -/
structure Shape where
  rows : Nat
  cols : Nat
  deriving DecidableEq, Repr

def Shape.of (w : BitVec 32) : Shape := ⟨fld w.toNat 7 4, fld w.toNat 3 0⟩

/-- Whether the cell that holds a byte position lies inside SHAPE (R190, R191). -/
def Shape.inside (sh : Shape) (byte : Nat) : Bool :=
  decide (byte / 64 ≤ sh.rows) && decide (byte / 4 % 16 ≤ sh.cols)

/-- The cells of the tile. -/
def Shape.cells (sh : Shape) : Nat := (sh.rows + 1) * (sh.cols + 1)

/-- The tile's places of k bits per cell, in row order without gaps (R194). -/
def Shape.pack (sh : Shape) (k v : Nat) : Nat :=
  let n := k * (sh.cols + 1)
  assemble n (fun i => v / pow2 (16 * k * i)) (sh.rows + 1)

/-- A packed sequence spread over the tile's cells in row order (R58, R194). -/
def Shape.unpack (sh : Shape) (k v : Nat) : Nat :=
  let n := k * (sh.cols + 1)
  assemble (16 * k) (fun i => v / pow2 (n * i) % pow2 n) (sh.rows + 1)

/-- Every byte position inside SHAPE. -/
def Shape.bytes (sh : Shape) : Nat := assemble 64 (fun _ => pow2 (4 * (sh.cols + 1)) - 1) (sh.rows + 1)

/-- Marks of cells from marks of bytes: a cell is marked when one of its bytes is. -/
def cellsOf (bytes : Nat) : Nat := assemble 1 (fun n => if bytes / pow2 (4 * n) % 16 = 0 then 0 else 1) 256

/-- Marks of bytes from marks of cells. -/
def bytesOfCells (cells : Nat) : Nat := assemble 4 (fun n => if cells.testBit n then 15 else 0) 256

/-! ### The environment of a micro-order -/

/-- What a micro-order computes from: SHAPE, the guard bit of every byte (R60), the operands in logical order,
the old destination, the working rounding mode, the predicate register, and compatibility mode. -/
structure VEnv where
  sh : Shape
  guard : Nat
  a : Nat
  b : Nat
  d : Nat
  rm : Rm
  preds : Vector Mask 8
  compat : Bool
  deriving DecidableEq, Repr

/-- What a micro-order produces: destination bytes and which of them it writes, the entry it pushes, the
flags it raises, the AMAX candidate, the return word, and the source bytes it uses (R448). -/
structure VOut where
  value : Nat := 0
  mask : Nat := 0
  pred : Nat := 0
  flags : Nat := 0
  lsat : Nat := 0
  amax : Option (BitVec 64) := none
  ret : Option Word := none
  useA : Nat := 0
  useB : Nat := 0
  useD : Nat := 0
  deriving DecidableEq, Repr

/-- One destination element: its bit position and width, its bits, the flags it raises. -/
structure VEl where
  at_ : Nat
  w : Nat
  v : Nat
  fl : Nat := 0
  ls : Nat := 0
  deriving DecidableEq, Repr

/-- Bytes that an element of w bits (8 or more) at a bit position covers. -/
def elBytes (w pos : Nat) : Nat := (pow2 (w / 8) - 1) * pow2 (pos / 8)

/-- Element e of width w of a logical value (R190). -/
def el (w v e : Nat) : Nat := fld v (w * e + w - 1) (w * e)

/-- The elements of a register at a width (R190). -/
def elCount (w : Nat) : Nat := 8192 / w

/-- The columns of the element grid at a width (R190). -/
def gridCols (w : Nat) : Nat := 512 / w

/-- Puts the elements of a list into a result. -/
def VOut.gather (l : List VEl) : VOut :=
  l.foldl (fun o x =>
    { o with
      value := o.value + x.v % pow2 x.w * pow2 x.at_
      mask := o.mask + elBytes x.w x.at_
      flags := o.flags ||| x.fl
      lsat := o.lsat ||| x.ls }) {}

/-- Whether the byte position is inside SHAPE with its guard bit set (R191). -/
def VEnv.active (v : VEnv) (byte : Nat) : Bool := v.sh.inside byte && v.guard.testBit byte

/-- The active elements of a width, in ascending element number (R191, R193). -/
def VEnv.elems (v : VEnv) (w : Nat) : List Nat := (List.range (elCount w)).filter fun e => v.active (w * e / 8)

/-- The elements of the active tile, whatever the guard, in tile order (R193). -/
def VEnv.tile (v : VEnv) (w : Nat) : List Nat := (List.range (elCount w)).filter fun e => v.sh.inside (w * e / 8)

/-- Bytes of elements of a width. -/
def bytesOf (w : Nat) (l : List Nat) : Nat := l.foldl (fun acc e => acc + elBytes w (w * e)) 0

/-- An element-by-element form on one width: the destination's active elements, and the same bytes used of
every source (R192). -/
def VEnv.map (v : VEnv) (w : Nat) (f : Nat → Nat × Nat × Nat) : VOut :=
  let o := VOut.gather ((v.elems w).map fun e => let (x, fl, ls) := f e; { at_ := w * e, w, v := x, fl, ls })
  { o with useA := o.mask, useB := o.mask, useD := o.mask }

/-- A compare: one entry, whose bits are the element's result in every byte of it (R195); all eight bytes too where SHAPE ends
inside a 64-bit element (DESIGN CHOICE, log 46). -/
def VEnv.compare (v : VEnv) (w : Nat) (f : Nat → Bool × Nat) : VOut :=
  let o := v.map w fun e => let (b, fl) := f e; (if b then pow2 w - 1 else 0, fl, 0)
  { o with
    value := 0, mask := 0
    pred := assemble 1 (fun n => if o.value / pow2 (8 * n) % 256 = 0 then 0 else 1) 1024 }

/-! ### Predicates (R195) -/

/-- The guard bits that a GUARD field gives (R60). -/
def guardBits (g : BitVec 4) (preds : Vector Mask 8) : Nat :=
  if g.toNat < 8 then pow2 1024 - 1
  else
    let e := preds[g.toNat % 4]'(by omega)
    if g.toNat.testBit 2 then (~~~e).toNat else e.toNat

/-- Push, pop and replace (R195). -/
def pushPred (p : Vector Mask 8) (m : Mask) : Vector Mask 8 :=
  Vector.ofFn fun i : Fin 8 => if h : i.val = 0 then m else p[i.val - 1]

def popPred (p : Vector Mask 8) : Nat → Vector Mask 8
  | 0 => p
  | n + 1 => popPred (Vector.ofFn fun i : Fin 8 => if h : i.val + 1 < 8 then p[i.val + 1] else BitVec.allOnes 1024) n

def setPred (p : Vector Mask 8) (k : Nat) (m : Mask) : Vector Mask 8 := p.set (k % 8) m (by omega)

def predAt (p : Vector Mask 8) (k : Nat) : Mask := p[k % 8]'(by omega)

/-! ### Twin groups (R227) -/

/-- Exchanges columns 0-7 with columns 8-15, for places of k bits per cell. -/
def swapHalves (k v : Nat) : Nat :=
  assemble (16 * k) (fun i => fld v (16 * k * i + 16 * k - 1) (16 * k * i + 8 * k) +
    fld v (16 * k * i + 8 * k - 1) (16 * k * i) * pow2 (8 * k)) 16

end Sys2Proof.Machine
end

