-- ==== Sys2Proof/Machine/Flags.lean ====
section
/-! DEFINITION. What lands (R42, R102, R103, R195, R196): flags, AMAX, predicate changes, register bytes,
packets and scratchpad bytes that a micro-order writes in its last cycle. -/

namespace Sys2Proof.Machine

/-- Applies a change to the register file that a stream's flags go to: the slot-2k file, or the twin's (R282). -/
def Scalar.onFile (sc : Scalar) (shadow : Bool) (f : RegFile → RegFile) : Scalar :=
  if shadow then { sc with twin := sc.twin.map f } else { sc with rf := f sc.rf }

/-- ORs bits into LSAT (R39, R42). -/
def RegFile.raiseLsat (r : RegFile) (fl : Nat) : RegFile := { r with lsat := r.lsat ||| BitVec.ofNat 32 fl }

/-- Updates AMAX with a candidate (R28). -/
def RegFile.raiseAmax (r : RegFile) (v : BitVec 64) : RegFile :=
  { r with amax := amaxUpdate r.amax [Fmt.f64.read v.toNat] }

/-- The register of an empty table reads as zero (R66). -/
def Group.vreg (g : Group) (r : Nat) : BitVec 8192 := g.vregs.getD r 0

/-- The places of a number from a mask of bytes: each set bit becomes a byte of ones. -/
def spread (mask : Nat) : Nat := assemble 8 (fun n => if mask.testBit n then 255 else 0) 1024

/-- Writes the masked bytes of a register (R192); a cell written whole loses its poison (R447). -/
def Group.writeReg (g : Group) (r : Nat) (mask : Mask) (value : BitVec 8192) : Group :=
  let m := BitVec.ofNat 8192 (spread mask.toNat)
  let whole (cell : Nat) : Bool := decide (mask.toNat / pow2 (4 * cell) % 16 = 15)
  { g with
    vregs := g.vregs.set r ((g.vreg r &&& ~~~m) ||| (value &&& m))
    vpoison := g.vpoison.filter fun p => !(decide (p / 256 = r) && whole (p % 256)) }

/-- Applies a landing write to its group (R102, R196). -/
def Group.land (g : Group) : VEffect → Group
  | .reg r mask value => g.writeReg r mask value
  | .pushPred m => { g with preds := pushPred g.preds m }
  | .setPred d m => { g with preds := setPred g.preds d m }
  | .dropPred n => { g with preds := popPred g.preds n }
  | .flags sh fl => { g with sc := g.sc.onFile sh fun r => r.raise fl }
  | .lsat sh fl => { g with sc := g.sc.onFile sh fun r => r.raiseLsat fl }
  | .amax sh v => { g with sc := g.sc.onFile sh fun r => r.raiseAmax v }
  | .ret v => { g with ret := v }
  | .kreg n v => { g with k := g.k.set (n % 4) v (by omega) }
  | .push _ _ => g
  | .spm _ => g

/-- Applies a landing write that leaves the group: a packet takes its reserved place (R58, R101), scratchpad
bytes are written (R102). -/
def Core.land (c : Core) (now : Nat) : VEffect → Core
  | .push p k => c.modPort p fun q => { q.push k now with reserved := q.reserved - 1 }
  | .spm l => c.writeSpmAll l
  | _ => c

def VEffect.isPush : VEffect → Bool
  | .push _ _ => true
  | _ => false

def VEffect.isSpm : VEffect → Bool
  | .spm _ => true
  | _ => false

/-- The writes that are due in this cycle, and those that are not, in issue order (R103, R196). A packet that lands releases the
scratchpad writes issued before it, which land no later (R305). -/
def VStream.dueWrites (v : VStream) (now : Nat) : List VWrite × List VWrite :=
  let pushes := v.writes.zipIdx.filter fun (w : VWrite × Nat) => w.1.eff.isPush && decide (w.1.land ≤ now)
  let due (w : VWrite × Nat) : Bool := decide (w.1.land ≤ now) || (w.1.eff.isSpm && pushes.any fun p => decide (w.2 < p.2))
  let (a, b) := v.writes.zipIdx.partition due
  (a.map fun w => w.1, b.map fun w => w.1)

/-- Lands the writes of a group's vector stream that are due. -/
def Core.landGroup (c : Core) (slot now : Nat) : Core :=
  let (due, rest) := (c.group slot).v.dueWrites now
  if due = [] then c
  else
    let c1 := due.foldl (fun c w => (c.modGroup slot fun g => g.land w.eff).land now w.eff) c
    c1.modGroup slot fun g => { g with v := { g.v with writes := rest } }

end Sys2Proof.Machine
end

