-- ==== Sys2Proof/Machine/Vector.lean ====
section
/-! DEFINITION. The issue of vector micro-orders (R58-R61, R72, R73, R100-R108, R113, R194, R227): checks,
hazards, pipes, the latch, and what an issued micro-order leaves to land. -/

namespace Sys2Proof.Machine

/-! ### Shapes of forms -/

/-- The pipes of R100; `fp` is FA and FB together, `fp64` the first free of them. -/
inductive VPipe where
  | fp | fp64 | ix | sx | cx | px | mx
  deriving DecidableEq, Repr

/-- Occupancies of the vector latency table (R102), in terms of r = SHAPE.ROWS + 1. -/
inductive Occ where
  | quarter | half | rows | rows2
  | fixed (n : Nat)
  deriving DecidableEq, Repr

def Occ.cycles (o : Occ) (r : Nat) : Nat :=
  match o with
  | .quarter => ceilDiv r 4
  | .half => ceilDiv r 2
  | .rows => r
  | .rows2 => 2 * r
  | .fixed n => n

/-- A row of the latency table (R102): pipe, occupancy, and L - O. -/
structure VTime where
  pipe : VPipe
  occ : Occ
  extra : Nat
  deriving DecidableEq, Repr

/-- The parts of a micro-order's word that its issue needs: operand fields in D, A and B (data operands
only), whether D is read, whether an operand type is 64 bits wide, KEEP of a VR form, GUARD, the timing
class, and what else it reads or writes. -/
structure VForm where
  d : Option (BitVec 6) := none
  a : Option (BitVec 6) := none
  b : Option (BitVec 6) := none
  readsD : Bool := false
  wide : Bool := false
  keep : Option (BitVec 1) := none
  guard : BitVec 4 := 0
  time : VTime
  readsPred : Bool := false
  changesPred : Bool := false
  kreads : List Nat := []
  kwrite : Option Nat := none
  ret : Bool := false
  deriving DecidableEq, Repr

/-- A form outside the vector stream is ILLEGAL_ENCODING (R45). -/
def onVector (s : State) (k : Out) : Out := check (decide (s.cur.stream = .vector)) causeEncoding s k

/-! ### Check 2: operands (R57-R59, R194) -/

/-- Whether the group holds the block of a register (R59); a block that is granted and not yet created is not held (R270). -/
def Group.holdsReg (g : Group) (n : Nat) : Bool :=
  match g.blocks.get (n / 4) with
  | some .awaited => false
  | some _ => true
  | none => decide (n < 4)

/-- Whether the block of a register is in the pool at its own parity, or is no block of the group (R268). -/
def Group.regThere (g : Group) (n : Nat) : Bool :=
  match g.blocks.get (n / 4) with
  | some (.pool p) => decide (p % 2 = n / 4 % 2)
  | some _ => false
  | none => true

/-- Only blocks in the pool at their own parity are read or written (R268). -/
def Group.blocksThere (g : Group) (F : VForm) : Bool :=
  (F.a.toList ++ F.b.toList ++ F.d.toList).all fun f => isPort f || g.regThere (opName f)

/-- A register operand: its block is held, and a 64-bit form views it by rows (R57, R59). -/
def Group.regOk (g : Group) (f : BitVec 6) (wide : Bool) : Bool :=
  g.holdsReg (opName f) && !(wide && decide (opDir f ≠ 0))

/-- A source operand: a register, or a port whose consumer is this group's vector stream (R58, R164). -/
def State.sourceOk (s : State) (f : BitVec 6) (wide : Bool) : Bool :=
  if isPort f then (s.here.port (opName f)).serves 6 && decide ((s.here.port (opName f)).owner = s.cur.slot)
  else s.grp.regOk f wide

/-- A destination: a register, or a port fed by this group's vector stream whose packet holds the tile (R58, R194); a
form that reads D takes no port there. -/
def State.destOk (s : State) (F : VForm) (f : BitVec 6) : Bool :=
  if isPort f then
    !F.readsD && (s.here.port (opName f)).feeds 6 && decide ((s.here.port (opName f)).owner = s.cur.slot) &&
      decide (4 * (Shape.of s.grp.v.wshape).cells ≤ (s.here.port (opName f)).bytesPer)
  else s.grp.regOk f F.wide

def State.operandsOk (s : State) (F : VForm) : Bool :=
  (F.a.all fun f => s.sourceOk f F.wide) && (F.b.all fun f => s.sourceOk f F.wide) && (F.d.all fun f => s.destOk F f)

/-! ### The latch and the banks (R61, R104-R106) -/

/-- Whether A is served from the latch (R61). -/
def Group.latched (g : Group) (F : VForm) : Option Latch :=
  match F.a, g.v.latch with
  | some f, some l => if l.name = f then some l else none
  | _, _ => none

/-- The register fields that make bank reads, one per name and view (R105). -/
def Group.bankReads (g : Group) (F : VForm) : List (BitVec 6) :=
  let fs := (if (g.latched F).isSome then [] else F.a.toList) ++ F.b.toList ++ (if F.readsD then F.d.toList else [])
  (fs.filter fun f => !isPort f).eraseDups

/-- E of R105: the reads beyond two of a bank, in pairs. -/
def bankExcess (reads : List (BitVec 6)) : Nat :=
  ((List.range 8).map fun k => ceilDiv ((reads.filter fun f => decide (opName f % 8 = k)).length - 2) 2).sum

/-! ### Hazards of interlocked tables (R101-R103, R196) -/

/-- Whether an effect still to land writes register r. -/
def VEffect.writesReg (r : Nat) : VEffect → Bool
  | .reg n _ _ => decide (n = r)
  | _ => false

def VEffect.changesPred : VEffect → Bool
  | .pushPred _ => true
  | .setPred _ _ => true
  | .dropPred _ => true
  | _ => false

def VEffect.isRet : VEffect → Bool
  | .ret _ => true
  | _ => false

def VEffect.writesK (n : Nat) : VEffect → Bool
  | .kreg k _ => decide (k = n)
  | _ => false

/-- Whether a write to a register is outstanding, a load's included. -/
def VStream.regPending (v : VStream) (r : Nat) : Bool :=
  (v.writes.any fun w => w.eff.writesReg r) ||
    v.mems.any fun m => decide (m.left ≠ 0) && m.dest.any fun f => !isPort f && decide (opName f = r)

def VStream.predPending (v : VStream) : Bool := (v.writes.any fun w => w.eff.changesPred) || v.mems.any (·.pred)

/-- Whether a micro-order of an interlocked table still waits for an earlier one (R101, R103, R196). -/
def Group.hazard (g : Group) (F : VForm) : Bool :=
  let regs := (g.bankReads F ++ F.d.toList).filter fun f => !isPort f
  (regs.any fun f => g.v.regPending (opName f)) ||
    ((F.readsPred || F.changesPred || decide (F.guard ≠ 0)) && g.v.predPending) ||
    ((F.kreads ++ F.kwrite.toList).any fun n => g.v.writes.any fun w => w.eff.writesK n) ||
    (F.ret && g.v.writes.any fun w => w.eff.isRet)

/-! ### Pipes (R100) -/

def Pipes.free (p : Pipes) (q : VPipe) (now : Nat) : Bool :=
  match q with
  | .fp => decide (p.fa ≤ now) && decide (p.fb ≤ now)
  | .fp64 => decide (p.fa ≤ now) || decide (p.fb ≤ now)
  | .ix => decide (p.ix ≤ now)
  | .sx => decide (p.sx ≤ now)
  | .cx => decide (p.cx ≤ now)
  | .px => decide (p.px ≤ now)
  | .mx => decide (p.mx ≤ now)

def Pipes.take (p : Pipes) (q : VPipe) (now o : Nat) : Pipes :=
  match q with
  | .fp => { p with fa := now + o, fb := now + o }
  | .fp64 => if p.fa ≤ now then { p with fa := now + o } else { p with fb := now + o }
  | .ix => { p with ix := now + o }
  | .sx => { p with sx := now + o }
  | .cx => { p with cx := now + o }
  | .px => { p with px := now + o }
  | .mx => { p with mx := now + o }

/-! ### Segments (R113-R115) -/

/-- One byte of the CRC-32C of R114. -/
def crcByte (crc : Nat) (b : Nat) : Nat :=
  (List.range 8).foldl (fun c _ => if c % 2 = 1 then (c / 2) ^^^ 0x82F63B78 else c / 2) (crc ^^^ b)

/-- A word's four bytes, least significant first. -/
def crcWord (crc : BitVec 32) (w : BitVec 32) : BitVec 32 :=
  BitVec.ofNat 32 ((List.range 4).foldl (fun c i => crcByte c (fld w.toNat (8 * i + 7) (8 * i))) crc.toNat)

/-- A segment opened by a header (R113). -/
def Seg.opened (t0 cycles : Nat) (literal : BitVec 32) : Seg := ⟨t0, cycles, literal, BitVec.allOnes 32, true⟩

/-- Takes an issued word into the segment (R114). -/
def Seg.take (g : Seg) (w : BitVec 32) : Seg := { g with crc := crcWord g.crc w }

/-- The comparison at the closing word (R113, R115). -/
def Seg.passes (g : Seg) (now : Nat) : Bool :=
  !g.checked || (decide (now - g.t0 = g.cycles) && decide (~~~g.crc = g.literal))

/-- The word of a page that no TLB entry covers, as a walk and a fetch would give it. -/
def State.walkedWord (s : State) (ctx : Nat) (va : Word) : BitVec 32 :=
  match s.walkPage s.curKey ctx va.toNat with
  | .found e => wordOfSector (s.sectorBytes (e.phys va.toNat)) va.toNat
  | .stopped _ _ => 0

/-- The word at an address of the step's stream, as a fetch gives it; 0 where none can. -/
def State.wordAt (s : State) (va : Word) : BitVec 32 :=
  match s.fetch s.curKey s.curCtx va with
  | .word w => w
  | .miss => s.walkedWord s.curCtx va
  | .fault _ => 0

/-- Goes on with the signature literal behind a segment header, fetched like any word of the table: a miss waits for the walk,
a fault traps (R65, R87). -/
def withLiteral (va : Word) (s : State) (k : BitVec 32 → State → Out) : Out :=
  match s.fetch s.curKey s.curCtx va with
  | .miss => .next (s.startWalk va true).1
  | .fault t => trapWith s t
  | .word w => k w (s.keepSector s.curKey s.curCtx va)

/-! ### Words of a table (R65, R87) -/

/-- Whether a word is a segment header: vseg in a vector table (R83), mseg in a matrix table (R88). -/
def isSegHeader (vector : Bool) (w : BitVec 32) : Bool :=
  if vector then decide (fld w.toNat 31 25 = 0x7C) else decide (fld w.toNat 31 26 = 0x08)

/-- Whether word n of the table after its header is a signature literal (R87). -/
def State.isLiteral (s : State) (vector : Bool) (header : Word) : Nat → Bool
  | 0 => false
  | n + 1 => !State.isLiteral s vector header n && isSegHeader vector (s.wordAt (header + 4 + BitVec.ofNat 64 (4 * n)))

/-- The number of a pc's word in its table, if it lies inside (R65). -/
def tablePlace (header : Word) (length : Nat) (pc : Word) : Option Nat :=
  let off := (pc - (header + 4)).toNat
  if off % 4 = 0 ∧ off / 4 < length then some (off / 4) else none

/-! ### Issue -/

def State.modV (s : State) (f : VStream → VStream) : State := s.modGrp fun g => { g with v := f g.v }

/-- The step's vector stream moves on: its segment takes the word, the next micro-order may issue from the
given cycle, and the round-robin goes on after this slot (R101, R114). -/
def State.vAdvance (s : State) (next : Word) (cost : Nat) : State :=
  let w := s.wordAt s.grp.v.pc
  (s.modV fun v => { v with seg := v.seg.map (·.take w), pc := next, nextIssue := s.pcc + cost }).modHere
    fun c => { c with sched := { c.sched with vlast := s.cur.slot } }

/-- The operand of a port: its oldest packet spread over the tile (R58, R194); the packet after the first when
A and B name one port. -/
def State.portOperand (s : State) (sh : Shape) (f : BitVec 6) (second : Bool) : Nat × Nat :=
  match ((s.here.port (opName f)).packets.drop (if second then 1 else 0)).head? with
  | some k => (sh.unpack 32 (maskedBytes k.bytes k.mask).toNat, sh.unpack 1 (k.marks 4 256))
  | none => (0, 0)

/-- A register operand in logical order, with its poisoned cells. -/
def State.regOperand (s : State) (f : BitVec 6) (shadow : Bool) : Nat × Nat :=
  let g := s.grp
  let v := (g.vreg (opName f)).toNat
  let v := if shadow then swapHalves 32 v else v
  let bad := g.vpoison.foldl (fun acc p => if p / 256 = opName f then acc + pow2 (p % 256) else acc) 0
  let bad := if shadow then swapHalves 1 bad else bad
  (throughView (opDir f) s.here.job.compat 32 v, throughView (opDir f) s.here.job.compat 1 bad)

def State.sourceOperand (s : State) (sh : Shape) (f : BitVec 6) (second shadow : Bool) : Nat × Nat :=
  if isPort f then s.portOperand sh f second else s.regOperand f shadow

/-- The ports a micro-order pops: one packet per field that the latch does not serve (R58, R61). -/
def Group.pops (g : Group) (F : VForm) : List Nat :=
  ((if (g.latched F).isSome then [] else F.a.toList) ++ F.b.toList).filter isPort |>.map opName

/-- Whether every port holds the packets to be popped and has room for the packet to be pushed (R58, R101);
room is counted after the pops. -/
def State.portsReady (s : State) (F : VForm) : Bool :=
  let pops := s.grp.pops F
  (pops.all fun p => decide ((pops.filter fun q => decide (q = p)).length ≤ (s.here.port p).held s.pcc)) &&
    F.d.all fun f => !isPort f || decide (0 < (s.here.port (opName f)).free) || pops.contains (opName f)

/-- The environment of a form (R60, R190-R194), with the poisoned cells of its operands; `shadow` is the
environment of a twin group's columns 8-15 (R227). -/
def State.vEnv (s : State) (F : VForm) (shadow : Bool) : VEnv × Nat × Nat × Nat :=
  let g := s.grp
  let sh := Shape.of g.v.wshape
  let (a, pa) := match F.a, g.latched F with
    | some _, some l =>
      if shadow then (swapHalves 32 l.value.toNat, swapHalves 1 l.poison.toNat) else (l.value.toNat, l.poison.toNat)
    | some f, none => s.sourceOperand sh f false shadow
    | none, _ => (0, 0)
  let (b, pb) := match F.b with
    | some f => s.sourceOperand sh f (F.a = some f && isPort f && (g.latched F).isNone) shadow
    | none => (0, 0)
  let (d, pd) := match F.d with
    | some f => if F.readsD then s.regOperand f shadow else (0, 0)
    | none => (0, 0)
  let guard := guardBits F.guard g.preds
  ({ sh, guard := if shadow then swapHalves 4 guard else guard, a, b, d, rm := Rm.ofCode g.v.wrm,
     preds := if shadow then g.preds.map fun p => BitVec.ofNat 1024 (swapHalves 4 p.toNat) else g.preds,
     compat := s.here.job.compat }, pa, pb, pd)

/-- Whether a result uses a poisoned cell (R448). -/
def VOut.usesPoison (o : VOut) (pa pb pd : Nat) : Bool :=
  decide (cellsOf o.useA &&& pa ≠ 0) || decide (cellsOf o.useB &&& pb ≠ 0) || decide (cellsOf o.useD &&& pd ≠ 0)

/-- What a destination receives when it lands (R57, R58, R192, R194). -/
def destEffect (sh : Shape) (compat : Bool) (f : BitVec 6) (o : VOut) (shadow : Bool) : VEffect :=
  if isPort f then
    .push (opName f) ⟨BitVec.ofNat 8192 (sh.pack 32 o.value), BitVec.ofNat 1024 (sh.pack 4 o.mask), 0, 0⟩
  else
    let m := throughUnview (opDir f) compat 4 o.mask
    let v := throughUnview (opDir f) compat 32 o.value
    .reg (opName f) (BitVec.ofNat 1024 (if shadow then swapHalves 4 m else m))
      (BitVec.ofNat 8192 (if shadow then swapHalves 32 v else v))

/-- The effects of a result on flags and AMAX (R42, R28). -/
def VOut.flagEffects (o : VOut) (shadow : Bool) : List VEffect :=
  (if o.flags = 0 then [] else [.flags shadow o.flags]) ++ (if o.lsat = 0 then [] else [.lsat shadow o.lsat]) ++
    (o.amax.toList.map fun v => .amax shadow v)

/-- The pops and the latch (R58, R61). -/
def State.takeSources (s : State) (F : VForm) (a pa : Nat) : State :=
  let s1 := (s.grp.pops F).foldl (fun s p => s.modHere fun c => c.modPort p Port.pop) s
  match F.keep, F.a with
  | some k, some f =>
    s1.modV fun v => { v with latch := if k = 1 then some ⟨f, BitVec.ofNat 8192 a, BitVec.ofNat 256 pa⟩ else none }
  | some _, none => s1.modV fun v => { v with latch := none }
  | none, _ => s1

/-- Occupancy and latency with the bank excess of an interlocked table (R102, R105). -/
def VForm.cycles (F : VForm) (sh : Shape) (excess : Nat) : Nat × Nat :=
  let o := F.time.occ.cycles (sh.rows + 1)
  (o + excess * o, o + F.time.extra + excess * o)

/-- Checks 2 and 3 of R72 and the waits of R101, R108 and R268; then k issues, with the occupancy and the latency. -/
def vIssue (F : VForm) (s : State) (k : Nat → Nat → Out) : Out :=
  let g := s.grp
  let excess := bankExcess (g.bankReads F)
  check (s.operandsOk F) causeOperand s <|
    check (!(g.v.exposed && decide (excess ≠ 0))) causeSchedule s <|
      if !s.here.pipes.free F.time.pipe s.pcc || !g.blocksThere F then .next s
      else if g.v.exposed then
        check (s.portsReady F) causeMiss s <|
          let (o, l) := F.cycles (Shape.of g.v.wshape) 0
          k o l
      else if g.hazard F || !s.portsReady F then .next s
      else
        let (o, l) := F.cycles (Shape.of g.v.wshape) excess
        k o l

/-- Leaves effects to land in a cycle (R102). -/
def State.leave (s : State) (land : Nat) (effs : List VEffect) : State :=
  s.modV fun v => { v with writes := v.writes ++ effs.map fun e => ⟨land, e⟩ }

/-- Reserves the packet place of a port destination (R101). -/
def State.reserveDest (s : State) (F : VForm) : State :=
  match F.d with
  | some f => if isPort f then s.modHere fun c => c.modPort (opName f) fun p => { p with reserved := p.reserved + 1 } else s
  | none => s

def State.isTwin (s : State) : Bool := s.grp.sc.twin.isSome

/-- The effects of a form's result on the group, for the main or the shadow columns. -/
def VForm.effects (F : VForm) (sh : Shape) (compat : Bool) (o : VOut) (shadow : Bool) : List VEffect :=
  (match F.d with
   | some f => if shadow && isPort f then [] else [destEffect sh compat f o shadow]
   | none => []) ++
    o.flagEffects shadow ++
    (if shadow then [] else (o.ret.toList.map fun v => match F.kwrite with
      | some n => VEffect.kreg n v
      | none => .ret v))

/-- The entry that a form pushes: a twin group's holds the shadow columns' bits as well (R195, R227). -/
def pushedEntry (o sh : VOut) : Mask := BitVec.ofNat 1024 (o.pred ||| swapHalves 4 sh.pred)

/-- What an issued micro-order with its result known leaves: sources taken, the writes of cycle t + L - 1, the pipe
held (R100, R102). -/
def vTail (F : VForm) (s : State) (o l : Nat) (env : VEnv) (pa : Nat) (out sout : VOut) : Out :=
  let compat := s.here.job.compat
  let effs := F.effects env.sh compat out false ++ (if s.isTwin then F.effects env.sh compat sout true else []) ++
    (if F.changesPred then [.pushPred (pushedEntry out sout)] else [])
  let s1 := ((s.takeSources F env.a pa).reserveDest F).leave (s.pcc + l - 1) effs
  let s2 := s1.modHere fun c => { c with pipes := c.pipes.take F.time.pipe s.pcc o }
  .next (s2.vAdvance (s.grp.v.pc + 4) 1)

/-- Whether what a form uses in a twin group's columns 8-15 is poisoned (R227, R448). -/
def State.shadowPoison (s : State) (F : VForm) (used : VEnv → VOut) : Bool :=
  let (env, pa, pb, pd) := s.vEnv F true
  s.isTwin && (used env).usesPoison pa pb pd

/-- A register-only micro-order: issue, sources and result (R190-R217). -/
def vForm (F : VForm) (s : State) (f : VEnv → VOut) : Out :=
  onVector s <| vIssue F s fun o l =>
    let (env, pa, pb, pd) := s.vEnv F false
    let out := f env
    let sout := if s.isTwin then f (s.vEnv F true).1 else {}
    check (!out.usesPoison pa pb pd && !s.shadowPoison F f) causePoison s <| vTail F s o l env pa out sout

end Sys2Proof.Machine
end

