-- ==== Sys2Proof/Machine/VectorOps.lean ====
section
/-! DEFINITION. The vector micro-orders that compute (R197-R217): arithmetic, compares, predicates, permutes,
match, reductions, scans and conversions. -/

namespace Sys2Proof.Machine

/-! ### Types and timing classes (R84, R102) -/

/-- The format of an FP type code (R84). -/
def fpType (f : BitVec 2) : Fmt :=
  match f.toNat with
  | 0 => .f32
  | 1 => .f64
  | _ => .f16

/-- The width in bits of a width code (R84). -/
def widthOf (w : BitVec 2) : Nat :=
  match w.toNat with
  | 0 => 32
  | 1 => 64
  | 2 => 16
  | _ => 8

def isWide (w : BitVec 2) : Bool := decide (w = 1)

def timeFp (wide : Bool) : VTime := if wide then ⟨.fp64, .half, 6⟩ else ⟨.fp, .quarter, 4⟩
def timeInt (wide : Bool) : VTime := ⟨.ix, if wide then .half else .quarter, 2⟩
def timeMul (wide : Bool) : VTime := ⟨.ix, if wide then .half else .quarter, 4⟩
def timeFdiv (wide : Bool) : VTime := if wide then ⟨.sx, .rows2, 28⟩ else ⟨.sx, .rows, 14⟩
def timeIdiv (wide : Bool) : VTime := if wide then ⟨.sx, .rows2, 36⟩ else ⟨.sx, .rows, 20⟩
def timeSpecial : VTime := ⟨.sx, .rows, 12⟩
def timeConv (wide : Bool) : VTime := ⟨.cx, if wide then .half else .quarter, 5⟩
def timePermute : VTime := ⟨.px, .quarter, 3⟩
def timeMatch (wide : Bool) : VTime := ⟨.px, .fixed (if wide then 32 else 16), 4⟩
def timeReduce (fp wide : Bool) : VTime := ⟨.px, .fixed (if wide then 8 else 4), if fp then 12 else 6⟩
def timeScan (fp wide : Bool) : VTime := ⟨.px, .fixed (if wide then 16 else 8), if fp then 12 else 4⟩
def timeReturn : VTime := ⟨.px, .fixed 1, 3⟩

/-! ### Floating-point arithmetic (R197) -/

/-- A VR form of two sources. -/
def vr2 (d a b : BitVec 6) (k : BitVec 1) (g : BitVec 4) (wide : Bool) (time : VTime) : VForm :=
  { d := some d, a := some a, b := some b, wide, keep := some k, guard := g, time }

/-- A VR form of one source. -/
def vr1 (d a : BitVec 6) (k : BitVec 1) (g : BitVec 4) (wide : Bool) (time : VTime) : VForm :=
  { d := some d, a := some a, wide, keep := some k, guard := g, time }

/-- An FP form of two sources. -/
def vfp2 (d a b : BitVec 6) (f : BitVec 2) (k : BitVec 1) (g : BitVec 4) (time : VTime)
    (op : Fmt → Rm → Nat → Nat → FRes) (s : State) : Out :=
  let t := fpType f
  vForm (vr2 d a b k g (isWide f) time) s fun v =>
    v.map t.width fun e => let r := op t v.rm (el t.width v.a e) (el t.width v.b e); (r.bits, r.flags, 0)

/-- An FP form of one source. -/
def vfp1 (d a : BitVec 6) (f : BitVec 2) (k : BitVec 1) (g : BitVec 4) (time : VTime)
    (op : Fmt → Rm → Nat → FRes) (s : State) : Out :=
  let t := fpType f
  vForm (vr1 d a k g (isWide f) time) s fun v =>
    v.map t.width fun e => let r := op t v.rm (el t.width v.a e); (r.bits, r.flags, 0)

/-- A fused form, which reads its destination (R197). -/
def vfused (d a b : BitVec 6) (f : BitVec 2) (k : BitVec 1) (g : BitVec 4)
    (op : Fmt → Rm → Nat → Nat → Nat → FRes) (s : State) : Out :=
  let t := fpType f
  vForm { vr2 d a b k g (isWide f) (timeFp (isWide f)) with readsD := true } s fun v =>
    v.map t.width fun e =>
      let r := op t v.rm (el t.width v.a e) (el t.width v.b e) (el t.width v.d e)
      (r.bits, r.flags, 0)

/-- d - a × b, rounded once. -/
def Fmt.fnma (f : Fmt) (rm : Rm) (a b d : Nat) : FRes := f.fmaRes rm (f.read a).negate (f.read b) (f.read d)

def execVaddFp (d a b : BitVec 6) (f : BitVec 2) (k : BitVec 1) (g : BitVec 4) (s : State) : Out :=
  vfp2 d a b f k g (timeFp (isWide f)) Fmt.add s
def execVsubFp (d a b : BitVec 6) (f : BitVec 2) (k : BitVec 1) (g : BitVec 4) (s : State) : Out :=
  vfp2 d a b f k g (timeFp (isWide f)) Fmt.sub s
def execVmulFp (d a b : BitVec 6) (f : BitVec 2) (k : BitVec 1) (g : BitVec 4) (s : State) : Out :=
  vfp2 d a b f k g (timeFp (isWide f)) Fmt.mul s
def execVfma (d a b : BitVec 6) (f : BitVec 2) (k : BitVec 1) (g : BitVec 4) (s : State) : Out :=
  vfused d a b f k g Fmt.fma s
def execVfnma (d a b : BitVec 6) (f : BitVec 2) (k : BitVec 1) (g : BitVec 4) (s : State) : Out :=
  vfused d a b f k g Fmt.fnma s
def execVminFp (d a b : BitVec 6) (f : BitVec 2) (k : BitVec 1) (g : BitVec 4) (s : State) : Out :=
  vfp2 d a b f k g (timeFp (isWide f)) (fun t _ => t.minMax false) s
def execVmaxFp (d a b : BitVec 6) (f : BitVec 2) (k : BitVec 1) (g : BitVec 4) (s : State) : Out :=
  vfp2 d a b f k g (timeFp (isWide f)) (fun t _ => t.minMax true) s
def execVdivFp (d a b : BitVec 6) (f : BitVec 2) (k : BitVec 1) (g : BitVec 4) (s : State) : Out :=
  vfp2 d a b f k g (timeFdiv (isWide f)) Fmt.div s
def execVsqrt (d a : BitVec 6) (f : BitVec 2) (k : BitVec 1) (g : BitVec 4) (s : State) : Out :=
  vfp1 d a f k g (timeFdiv (isWide f)) Fmt.sqrt s
def execVabs (d a : BitVec 6) (f : BitVec 2) (k : BitVec 1) (g : BitVec 4) (s : State) : Out :=
  vfp1 d a f k g (timeFp (isWide f)) (fun t _ => t.abs) s
def execVneg (d a : BitVec 6) (f : BitVec 2) (k : BitVec 1) (g : BitVec 4) (s : State) : Out :=
  vfp1 d a f k g (timeFp (isWide f)) (fun t _ => t.neg) s

/-! ### Special functions (R198) -/

def execVrcp (d a : BitVec 6) (f : BitVec 2) (k : BitVec 1) (g : BitVec 4) (s : State) : Out :=
  vfp1 d a f k g timeSpecial Fmt.rcp s
def execVrsq (d a : BitVec 6) (f : BitVec 2) (k : BitVec 1) (g : BitVec 4) (s : State) : Out :=
  vfp1 d a f k g timeSpecial Fmt.rsq s
def execVexp2 (d a : BitVec 6) (f : BitVec 2) (k : BitVec 1) (g : BitVec 4) (s : State) : Out :=
  vfp1 d a f k g timeSpecial Fmt.exp2 s
def execVlog2 (d a : BitVec 6) (f : BitVec 2) (k : BitVec 1) (g : BitVec 4) (s : State) : Out :=
  vfp1 d a f k g timeSpecial Fmt.log2 s

/-! ### Integer arithmetic (R199, R200) -/

/-- An integer modulo 2^w. -/
def wrap (w : Nat) (z : Int) : Nat := (z % (pow2 w : Nat)).toNat

/-- An integer clamped to a range, modulo 2^w. -/
def clampTo (w : Nat) (lo hi z : Int) : Nat := wrap w (max lo (min hi z))

def signedMin (w : Nat) : Int := -(pow2 (w - 1) : Nat)
def signedMax (w : Nat) : Int := (pow2 (w - 1) : Nat) - 1

/-- Truncating signed division and its remainder (R35). -/
def divS (w a b : Nat) : Nat := if b = 0 then pow2 w - 1 else wrap w ((sextNat a w).tdiv (sextNat b w))
def remS (w a b : Nat) : Nat := if b = 0 then a else wrap w ((sextNat a w).tmod (sextNat b w))

/-- An integer form of two sources; the operation takes the width and the elements. -/
def vint2 (d a b : BitVec 6) (w : BitVec 2) (k : BitVec 1) (g : BitVec 4) (time : VTime) (op : Nat → Nat → Nat → Nat)
    (s : State) : Out :=
  let n := widthOf w
  vForm (vr2 d a b k g (isWide w) time) s fun v =>
    v.map n fun e => (op n (el n v.a e) (el n v.b e), 0, 0)

def execVaddInt (d a b : BitVec 6) (w : BitVec 2) (k : BitVec 1) (g : BitVec 4) (s : State) : Out :=
  vint2 d a b w k g (timeInt (isWide w)) (fun _ a b => a + b) s
def execVsubInt (d a b : BitVec 6) (w : BitVec 2) (k : BitVec 1) (g : BitVec 4) (s : State) : Out :=
  vint2 d a b w k g (timeInt (isWide w)) (fun n a b => a + pow2 n - b) s
def execVmulInt (d a b : BitVec 6) (w : BitVec 2) (k : BitVec 1) (g : BitVec 4) (s : State) : Out :=
  vint2 d a b w k g (timeMul (isWide w)) (fun _ a b => a * b) s
def execVmulh (d a b : BitVec 6) (w : BitVec 2) (k : BitVec 1) (g : BitVec 4) (s : State) : Out :=
  vint2 d a b w k g (timeMul (isWide w)) (fun n a b => wrap n (sextNat a n * sextNat b n / (pow2 n : Nat))) s
def execVmulhu (d a b : BitVec 6) (w : BitVec 2) (k : BitVec 1) (g : BitVec 4) (s : State) : Out :=
  vint2 d a b w k g (timeMul (isWide w)) (fun n a b => a * b / pow2 n) s
def execVand (d a b : BitVec 6) (w : BitVec 2) (k : BitVec 1) (g : BitVec 4) (s : State) : Out :=
  vint2 d a b w k g (timeInt (isWide w)) (fun _ a b => a &&& b) s
def execVor (d a b : BitVec 6) (w : BitVec 2) (k : BitVec 1) (g : BitVec 4) (s : State) : Out :=
  vint2 d a b w k g (timeInt (isWide w)) (fun _ a b => a ||| b) s
def execVxor (d a b : BitVec 6) (w : BitVec 2) (k : BitVec 1) (g : BitVec 4) (s : State) : Out :=
  vint2 d a b w k g (timeInt (isWide w)) (fun _ a b => a ^^^ b) s
def execVsll (d a b : BitVec 6) (w : BitVec 2) (k : BitVec 1) (g : BitVec 4) (s : State) : Out :=
  vint2 d a b w k g (timeInt (isWide w)) (fun n a b => a * pow2 (b % n)) s
def execVsrl (d a b : BitVec 6) (w : BitVec 2) (k : BitVec 1) (g : BitVec 4) (s : State) : Out :=
  vint2 d a b w k g (timeInt (isWide w)) (fun n a b => a / pow2 (b % n)) s
def execVsra (d a b : BitVec 6) (w : BitVec 2) (k : BitVec 1) (g : BitVec 4) (s : State) : Out :=
  vint2 d a b w k g (timeInt (isWide w)) (fun n a b => wrap n (sextNat a n / (pow2 (b % n) : Nat))) s
def execVminInt (d a b : BitVec 6) (w : BitVec 2) (k : BitVec 1) (g : BitVec 4) (s : State) : Out :=
  vint2 d a b w k g (timeInt (isWide w)) (fun n a b => if sextNat b n < sextNat a n then b else a) s
def execVmaxInt (d a b : BitVec 6) (w : BitVec 2) (k : BitVec 1) (g : BitVec 4) (s : State) : Out :=
  vint2 d a b w k g (timeInt (isWide w)) (fun n a b => if sextNat a n < sextNat b n then b else a) s
def execVminu (d a b : BitVec 6) (w : BitVec 2) (k : BitVec 1) (g : BitVec 4) (s : State) : Out :=
  vint2 d a b w k g (timeInt (isWide w)) (fun _ a b => min a b) s
def execVmaxu (d a b : BitVec 6) (w : BitVec 2) (k : BitVec 1) (g : BitVec 4) (s : State) : Out :=
  vint2 d a b w k g (timeInt (isWide w)) (fun _ a b => max a b) s
def execVadds (d a b : BitVec 6) (w : BitVec 2) (k : BitVec 1) (g : BitVec 4) (s : State) : Out :=
  vint2 d a b w k g (timeInt (isWide w)) (fun n a b => clampTo n (signedMin n) (signedMax n) (sextNat a n + sextNat b n)) s
def execVsubs (d a b : BitVec 6) (w : BitVec 2) (k : BitVec 1) (g : BitVec 4) (s : State) : Out :=
  vint2 d a b w k g (timeInt (isWide w)) (fun n a b => clampTo n (signedMin n) (signedMax n) (sextNat a n - sextNat b n)) s
def execVaddsu (d a b : BitVec 6) (w : BitVec 2) (k : BitVec 1) (g : BitVec 4) (s : State) : Out :=
  vint2 d a b w k g (timeInt (isWide w)) (fun n a b => clampTo n 0 ((pow2 n : Nat) - 1) ((a : Int) + b)) s
def execVsubsu (d a b : BitVec 6) (w : BitVec 2) (k : BitVec 1) (g : BitVec 4) (s : State) : Out :=
  vint2 d a b w k g (timeInt (isWide w)) (fun n a b => clampTo n 0 ((pow2 n : Nat) - 1) ((a : Int) - b)) s
def execVdivInt (d a b : BitVec 6) (w : BitVec 2) (k : BitVec 1) (g : BitVec 4) (s : State) : Out :=
  vint2 d a b w k g (timeIdiv (isWide w)) (divS) s
def execVdivu (d a b : BitVec 6) (w : BitVec 2) (k : BitVec 1) (g : BitVec 4) (s : State) : Out :=
  vint2 d a b w k g (timeIdiv (isWide w)) (fun n a b => if b = 0 then pow2 n - 1 else a / b) s
def execVrem (d a b : BitVec 6) (w : BitVec 2) (k : BitVec 1) (g : BitVec 4) (s : State) : Out :=
  vint2 d a b w k g (timeIdiv (isWide w)) (remS) s
def execVremu (d a b : BitVec 6) (w : BitVec 2) (k : BitVec 1) (g : BitVec 4) (s : State) : Out :=
  vint2 d a b w k g (timeIdiv (isWide w)) (fun _ a b => if b = 0 then a else a % b) s

/-- A VI form on 32-bit elements (R200). -/
def vimm (d a : BitVec 6) (g : BitVec 4) (op : Nat → Nat) (s : State) : Out :=
  vForm { d := some d, a := some a, guard := g, time := timeInt false } s fun v =>
    v.map 32 fun e => (op (el 32 v.a e), 0, 0)

/-- sext(IMM9, 9) widened to 32 bits (R200). -/
def imm32 (imm : BitVec 9) : Nat := (imm.signExtend 32).toNat

def execVaddi (d a : BitVec 6) (imm : BitVec 9) (g : BitVec 4) (s : State) : Out := vimm d a g (fun a => a + imm32 imm) s
def execVandi (d a : BitVec 6) (imm : BitVec 9) (g : BitVec 4) (s : State) : Out := vimm d a g (fun a => a &&& imm32 imm) s
def execVori (d a : BitVec 6) (imm : BitVec 9) (g : BitVec 4) (s : State) : Out := vimm d a g (fun a => a ||| imm32 imm) s
def execVxori (d a : BitVec 6) (imm : BitVec 9) (g : BitVec 4) (s : State) : Out := vimm d a g (fun a => a ^^^ imm32 imm) s
def execVslli (d a : BitVec 6) (n : BitVec 5) (g : BitVec 4) (s : State) : Out := vimm d a g (fun a => a * pow2 n.toNat) s
def execVsrli (d a : BitVec 6) (n : BitVec 5) (g : BitVec 4) (s : State) : Out := vimm d a g (fun a => a / pow2 n.toNat) s
def execVsrai (d a : BitVec 6) (n : BitVec 5) (g : BitVec 4) (s : State) : Out := vimm d a g (fun a => wrap 32 (sextNat a 32 / (pow2 n.toNat : Nat))) s
def execVmovi (d : BitVec 6) (imm : BitVec 9) (g : BitVec 4) (s : State) : Out :=
  vForm { d := some d, guard := g, time := timeInt false } s fun v => v.map 32 fun _ => (imm32 imm, 0, 0)

/-! ### Compares (R201) -/

/-- A compare form: D is unused, and one entry is pushed (R195). -/
def cmpForm (a b : Option (BitVec 6)) (keep : Option (BitVec 1)) (g : BitVec 4) (wide : Bool) (time : VTime) : VForm :=
  { a, b, wide, keep, guard := g, time, changesPred := true }

def vcmpFp (a b : BitVec 6) (f : BitVec 2) (k : BitVec 1) (g : BitVec 4) (op : Fmt → Nat → Nat → FRes) (s : State) : Out :=
  let t := fpType f
  vForm (cmpForm (some a) (some b) (some k) g (isWide f) (timeFp (isWide f))) s fun v =>
    v.compare t.width fun e => let r := op t (el t.width v.a e) (el t.width v.b e); (decide (r.bits ≠ 0), r.flags)

/-- The complement of equality; a NaN is unequal to everything (R33). -/
def Fmt.neRes (f : Fmt) (a b : Nat) : FRes := ⟨1 - (f.eqRes a b).bits, (f.eqRes a b).flags⟩

def vcmpInt (a b : BitVec 6) (w : BitVec 2) (k : BitVec 1) (g : BitVec 4) (op : Nat → Nat → Nat → Bool) (s : State) : Out :=
  let n := widthOf w
  vForm (cmpForm (some a) (some b) (some k) g (isWide w) (timeInt (isWide w))) s fun v =>
    v.compare n fun e => (op n (el n v.a e) (el n v.b e), 0)

def execVceqFp (a b : BitVec 6) (f : BitVec 2) (k : BitVec 1) (g : BitVec 4) (s : State) : Out := vcmpFp a b f k g Fmt.eqRes s
def execVcltFp (a b : BitVec 6) (f : BitVec 2) (k : BitVec 1) (g : BitVec 4) (s : State) : Out := vcmpFp a b f k g Fmt.ltRes s
def execVcleFp (a b : BitVec 6) (f : BitVec 2) (k : BitVec 1) (g : BitVec 4) (s : State) : Out := vcmpFp a b f k g Fmt.leRes s
def execVcneFp (a b : BitVec 6) (f : BitVec 2) (k : BitVec 1) (g : BitVec 4) (s : State) : Out := vcmpFp a b f k g Fmt.neRes s
def execVceqInt (a b : BitVec 6) (w : BitVec 2) (k : BitVec 1) (g : BitVec 4) (s : State) : Out :=
  vcmpInt a b w k g (fun _ a b => decide (a = b)) s
def execVcneInt (a b : BitVec 6) (w : BitVec 2) (k : BitVec 1) (g : BitVec 4) (s : State) : Out :=
  vcmpInt a b w k g (fun _ a b => decide (a ≠ b)) s
def execVcltInt (a b : BitVec 6) (w : BitVec 2) (k : BitVec 1) (g : BitVec 4) (s : State) : Out :=
  vcmpInt a b w k g (fun n a b => decide (sextNat a n < sextNat b n)) s
def execVcltu (a b : BitVec 6) (w : BitVec 2) (k : BitVec 1) (g : BitVec 4) (s : State) : Out :=
  vcmpInt a b w k g (fun _ a b => decide (a < b)) s
def execVcleInt (a b : BitVec 6) (w : BitVec 2) (k : BitVec 1) (g : BitVec 4) (s : State) : Out :=
  vcmpInt a b w k g (fun n a b => decide (sextNat a n ≤ sextNat b n)) s
def execVcleu (a b : BitVec 6) (w : BitVec 2) (k : BitVec 1) (g : BitVec 4) (s : State) : Out :=
  vcmpInt a b w k g (fun _ a b => decide (a ≤ b)) s
def execVtst (a b : BitVec 6) (w : BitVec 2) (k : BitVec 1) (g : BitVec 4) (s : State) : Out :=
  vcmpInt a b w k g (fun _ a b => decide (a &&& b ≠ 0)) s
def execVceqi (a : BitVec 6) (imm : BitVec 9) (g : BitVec 4) (s : State) : Out :=
  vForm (cmpForm (some a) none none g false (timeInt false)) s fun v =>
    v.compare 32 fun e => (decide (el 32 v.a e = imm32 imm), 0)

/-! ### Predicate forms (R202-R204) -/

/-- The truth table of vplog on all 1,024 bits (R202): the result is bit 2a + b of TT. -/
def plogic (t : BitVec 4) (a b : Mask) : Mask :=
  let pick (i : Nat) (m : Mask) : Mask := if t.toNat.testBit i then m else 0
  pick 0 (~~~a &&& ~~~b) ||| pick 1 (~~~a &&& b) ||| pick 2 (a &&& ~~~b) ||| pick 3 (a &&& b)

/-- A form of the predicate register alone: what lands in cycle t + L - 1. -/
def vPredForm (s : State) (f : Vector Mask 8 → Shape → List VEffect) : Out :=
  let F : VForm := { time := timeInt false, readsPred := true, changesPred := true }
  onVector s <| vIssue F s fun o l =>
    let s1 := s.leave (s.pcc + l - 1) (f s.grp.preds (Shape.of s.grp.v.wshape))
    .next ((s1.modHere fun c => { c with pipes := c.pipes.take F.time.pipe s.pcc o }).vAdvance (s.grp.v.pc + 4) 1)

def execVplog (t : BitVec 4) (a b : BitVec 3) (s : State) : Out :=
  vPredForm s fun p _ => [.pushPred (plogic t (predAt p a.toNat) (predAt p b.toNat))]

def execVplogR (t : BitVec 4) (a b d : BitVec 3) (s : State) : Out :=
  vPredForm s fun p _ => [.setPred d.toNat (plogic t (predAt p a.toNat) (predAt p b.toNat))]

def execVpdrop (n : BitVec 3) (s : State) : Out := vPredForm s fun _ _ => [.dropPred (n.toNat + 1)]

def execVppick (x : BitVec 6) (s : State) : Out :=
  vForm { b := some x, time := timeInt false, changesPred := true } s fun v =>
    let o := v.compare 8 fun e => (decide (el 8 v.b e ≠ 0), 0)
    { o with useA := 0, useB := v.sh.bytes }

def execVppickV (x : BitVec 6) (p : BitVec 3) (s : State) : Out :=
  vForm { d := some x, time := timeInt false, readsPred := true } s fun v =>
    let m := (predAt v.preds p.toNat).toNat
    v.map 8 fun e => (if m.testBit e then 0xFF else 0, 0, 0)

/-! ### Select, move and permutes (R205-R208, R385) -/

def execVsel (d a b : BitVec 6) (k : BitVec 1) (inv : BitVec 1) (p : BitVec 2) (s : State) : Out :=
  let g : BitVec 4 := BitVec.ofNat 4 (8 + 4 * inv.toNat + p.toNat)
  vForm (vr2 d a b k g false (timeInt false)) s fun v =>
    let o := VOut.gather ((v.tile 8).map fun e =>
      { at_ := 8 * e, w := 8, v := if v.guard.testBit e then el 8 v.a e else el 8 v.b e })
    let ga := o.mask &&& v.guard
    { o with useA := ga, useB := o.mask - ga }

def execVmov (d a : BitVec 6) (k : BitVec 1) (g : BitVec 4) (s : State) : Out :=
  vForm (vr1 d a k g false (timeInt false)) s fun v => v.map 8 fun e => (el 8 v.a e, 0, 0)

/-- A form that reads A at places it chooses: src gives the element of A, if any (R193). -/
def VEnv.moveEls (v : VEnv) (w : Nat) (src : Nat → Option Nat) : VOut :=
  let es := v.elems w
  let o := VOut.gather (es.map fun e =>
    { at_ := w * e, w, v := match src e with
        | some x => el w v.a x
        | none => 0 })
  { o with useA := bytesOf w (es.filterMap src).eraseDups, useB := o.mask }

def execVperm (d a b : BitVec 6) (m : BitVec 2) (k : BitVec 1) (g : BitVec 4) (s : State) : Out :=
  vForm (vr2 d a b k g false timePermute) s fun v =>
    match m.toNat with
    | 0 => v.moveEls 8 fun e => some (el 8 v.b e % 16)
    | 1 => v.moveEls 8 fun e => some (el 8 v.b e / 16)
    | 2 => v.moveEls 8 fun e => some (el 8 v.b e)
    | _ => v.moveEls 32 fun e => if el 32 v.b e < 256 then some (el 32 v.b e) else none

/-- One pass of the compatibility shuffle (R385): the active cells of four rows, from a source. -/
def shufflePass (v : VEnv) (src pass : Nat) : VOut :=
  let es := (v.elems 32).filter fun e => decide (e / 16 / 4 = pass)
  let from_ (e : Nat) : Nat := 16 * (el 32 v.b e % 64 / 8) + el 32 v.b e % 8
  let o := VOut.gather (es.map fun e => { at_ := 32 * e, w := 32, v := el 32 src (from_ e) })
  { o with useA := bytesOf 32 (es.map from_).eraseDups, useB := o.mask }

/-- The compatibility shuffle: pass 1 reads A after the writes of pass 0, which A shows where it is the
destination register (R385). -/
def shuffleCompat (v : VEnv) (d a : BitVec 6) (latched : Bool) : VOut :=
  let o0 := shufflePass v v.a 0
  let src1 :=
    if isPort a || isPort d || latched || opName a ≠ opName d then v.a
    else
      let m := spread (throughUnview (opDir d) true 4 o0.mask)
      let old := throughUnview (opDir a) true 32 v.a
      throughView (opDir a) true 32 (old - (old &&& m) + throughUnview (opDir d) true 32 o0.value)
  let o1 := shufflePass v src1 1
  { o0 with value := o0.value + o1.value, mask := o0.mask + o1.mask, useA := o0.useA ||| o1.useA, useB := o0.useB ||| o1.useB }

def execVshuf (d a b : BitVec 6) (w : BitVec 2) (k : BitVec 1) (g : BitVec 4) (s : State) : Out :=
  if s.here.job.compat then
    let F := vr2 d a b k g false ⟨.px, .fixed 2, 3⟩
    onVector s <| check (decide (w = 0)) causeEncoding s <|
      vForm F s fun v => shuffleCompat v d a (s.grp.latched F).isSome
  else
    let n := widthOf w
    vForm (vr2 d a b k g (isWide w) timePermute) s fun v =>
      v.moveEls n fun e => some (e / gridCols n * gridCols n + el n v.b e % gridCols n)

/-- vslide and vrot (R208): the sources of the tile's elements, A's or the old destination's. -/
def vTile (d a : BitVec 6) (w : BitVec 2) (g : BitVec 4) (readsD : Bool) (pick : Nat → Nat → Option (Bool × Nat)) (s : State) : Out :=
  let n := widthOf w
  vForm { d := some d, a := some a, readsD, wide := isWide w, guard := g, time := timePermute } s fun v =>
    let t := v.tile n
    let src (e : Nat) : Option (Bool × Nat) :=
      (pick (t.idxOf e) t.length).map fun p => (p.1, (t[p.2]?).getD 0)
    let es := v.elems n
    let o := VOut.gather (es.map fun e =>
      { at_ := n * e, w := n, v := match src e with
          | some (true, x) => el n v.d x
          | some (false, x) => el n v.a x
          | none => 0 })
    let used (old : Bool) := bytesOf n ((es.filterMap src).filterMap fun p => if p.1 = old then some p.2 else none).eraseDups
    { o with useA := used false, useD := used true }

def execVslide (d a : BitVec 6) (w : BitVec 2) (n : BitVec 7) (g : BitVec 4) (s : State) : Out :=
  vTile d a w g true (fun e count =>
    if e ≥ n.toNat then some (false, e - n.toNat)
    else if n.toNat ≤ count + e then some (true, count + e - n.toNat)
    else none) s

def execVrot (d a : BitVec 6) (w : BitVec 2) (n : BitVec 7) (g : BitVec 4) (s : State) : Out :=
  vTile d a w g false (fun e count => some (false, (e + count * 128 - n.toNat) % count)) s

/-! ### Match (R209) -/

/-- Equal of R209 by key type. -/
def keyEqual (f : BitVec 2) (a b : Nat) : Bool :=
  match f.toNat with
  | 2 => eqV (Fmt.f32.read a) (Fmt.f32.read b)
  | 3 => eqV (Fmt.f64.read a) (Fmt.f64.read b)
  | _ => decide (a = b)

def execVmatch (d a b : BitVec 6) (f : BitVec 2) (k : BitVec 1) (g : BitVec 4) (s : State) : Out :=
  let wide := decide (f.toNat % 2 = 1)
  let w := if wide then 64 else 32
  onVector s <| notCompat s <|
    vForm { vr2 d a b k g wide (timeMatch wide) with changesPred := true } s fun v =>
      let es := v.elems w
      let hit (e : Nat) : Option Nat := es.find? fun x => keyEqual f (el w v.a e) (el w v.b x)
      let o := VOut.gather (es.map fun e => { at_ := w * e, w, v := (hit e).getD (pow2 w - 1) })
      { o with pred := bytesOf w (es.filter fun e => (hit e).isSome), useA := o.mask, useB := o.mask }

/-! ### Reductions, scans and the return word (R210-R213) -/

/-- One round of the pairwise tree: neighbours combined, an odd last value unchanged. -/
def pairRound (op : Nat → Nat → Nat × Nat) : List Nat → List Nat × Nat
  | a :: b :: rest =>
    let (r, fl) := op a b
    let (l, fl') := pairRound op rest
    (r :: l, fl ||| fl')
  | l => (l, 0)

/-- The tree until one value is left (R210). -/
def reduceTree (op : Nat → Nat → Nat × Nat) : Nat → List Nat × Nat → List Nat × Nat
  | 0, p => p
  | n + 1, (l, fl) => if l.length ≤ 1 then (l, fl) else let (l', fl') := pairRound op l; reduceTree op n (l', fl ||| fl')

/-- A reduction: element (0, 0) of d and the return word (R210). -/
def vreduce (d a : BitVec 6) (k : BitVec 1) (g : BitVec 4) (wide : Bool) (time : VTime) (w empty : Nat)
    (op : Rm → Nat → Nat → Nat × Nat) (s : State) : Out :=
  vForm { vr1 d a k g wide time with ret := true } s fun v =>
    let es := v.elems w
    let (l, fl) := reduceTree (op v.rm) 11 (es.map (el w v.a), 0)
    let res := (l.head?).getD empty % pow2 w
    { value := res, mask := elBytes w 0, flags := fl, ret := some (BitVec.ofNat 64 res), useA := bytesOf w es }

def fpOp (op : Rm → Nat → Nat → FRes) (rm : Rm) (a b : Nat) : Nat × Nat := let r := op rm a b; (r.bits, r.flags)

def vreduceFp (d a : BitVec 6) (f : BitVec 2) (k : BitVec 1) (g : BitVec 4) (empty : Fmt → Nat) (op : Fmt → Rm → Nat → Nat → FRes)
    (s : State) : Out :=
  let t := fpType f
  vreduce d a k g (isWide f) (timeReduce true (isWide f)) t.width (empty t) (fpOp (op t)) s

def execVredaddFp (d a : BitVec 6) (f : BitVec 2) (k : BitVec 1) (g : BitVec 4) (s : State) : Out :=
  vreduceFp d a f k g (fun _ => 0) Fmt.add s
def execVredmin (d a : BitVec 6) (f : BitVec 2) (k : BitVec 1) (g : BitVec 4) (s : State) : Out :=
  vreduceFp d a f k g Fmt.nan (fun t _ => t.minMax false) s
def execVredmax (d a : BitVec 6) (f : BitVec 2) (k : BitVec 1) (g : BitVec 4) (s : State) : Out :=
  vreduceFp d a f k g Fmt.nan (fun t _ => t.minMax true) s
def execVredaddInt (d a : BitVec 6) (w : BitVec 2) (k : BitVec 1) (g : BitVec 4) (s : State) : Out :=
  let n := widthOf w
  vreduce d a k g (isWide w) (timeReduce false (isWide w)) n 0 (fun _ a b => ((a + b) % pow2 n, 0)) s

/-- The running values of a scan: each active element with the value after it (R211). -/
def scanFrom (op : Nat → Nat → Nat × Nat) (acc : Nat) : List (Nat × Nat) → List (Nat × Nat × Nat)
  | [] => []
  | (e, x) :: rest =>
    let (r, fl) := op acc x
    (e, r, fl) :: scanFrom op r rest

def vscan (d a : BitVec 6) (k : BitVec 1) (g : BitVec 4) (wide : Bool) (time : VTime) (w : Nat)
    (op : Rm → Nat → Nat → Nat × Nat) (s : State) : Out :=
  vForm (vr1 d a k g wide time) s fun v =>
    let es := v.elems w
    let l := match es.map fun e => (e, el w v.a e) with
      | [] => []
      | (e, x) :: rest => (e, x, 0) :: scanFrom (op v.rm) x rest
    let o := VOut.gather (l.map fun p => { at_ := w * p.1, w, v := p.2.1, fl := p.2.2 })
    { o with useA := o.mask }

def execVscanFp (d a : BitVec 6) (f : BitVec 2) (k : BitVec 1) (g : BitVec 4) (s : State) : Out :=
  let t := fpType f
  vscan d a k g (isWide f) (timeScan true (isWide f)) t.width (fpOp t.add) s
def execVscanInt (d a : BitVec 6) (w : BitVec 2) (k : BitVec 1) (g : BitVec 4) (s : State) : Out :=
  let n := widthOf w
  vscan d a k g (isWide w) (timeScan false (isWide w)) n (fun _ a b => ((a + b) % pow2 n, 0)) s

def execVpfirst (inv : BitVec 1) (p : BitVec 3) (s : State) : Out :=
  vForm { time := timeReturn, readsPred := true, ret := true } s fun v =>
    let m := predAt v.preds p.toNat
    let bit (e : Nat) : Bool := xor (m.toNat.testBit e) (decide (inv = 1))
    { ret := some (match (v.tile 8).find? bit with
        | some e => BitVec.ofNat 64 e
        | none => BitVec.allOnes 64) }

def execVxs (a : BitVec 6) (r : BitVec 2) (w : BitVec 1) (c : BitVec 4) (s : State) : Out :=
  let wide := decide (w = 1)
  onVector s <| check (!(wide && decide (c.toNat % 2 = 1))) causeOperand s <|
    vForm { a := some a, wide, time := timeReturn, kwrite := if r = 0 then none else some r.toNat, ret := decide (r = 0) } s fun v =>
      let n := if wide then 64 else 32
      { ret := some (BitVec.ofNat 64 (fld v.a (32 * c.toNat + n - 1) (32 * c.toNat))),
        useA := (pow2 (n / 8) - 1) * pow2 (4 * c.toNat) }

/-! ### Linear conversions (R214) -/

/-- A conversion between widths (R191, R214): pairs (i, j) below the shorter row; the SHAPE test takes the cell
of the wider element, the guard test the destination's lowest byte. -/
def VEnv.convert (v : VEnv) (ws wd : Nat) (f : Nat → Nat × Nat × Nat) : VOut :=
  let cols := min (gridCols ws) (gridCols wd)
  let pairs := ((List.range (16 * cols)).map fun n =>
      (n / cols * gridCols ws + n % cols, n / cols * gridCols wd + n % cols)).filter fun p =>
    v.sh.inside (if ws ≥ wd then ws * p.1 / 8 else wd * p.2 / 8) && v.guard.testBit (wd * p.2 / 8)
  let o := VOut.gather (pairs.map fun p => let (x, fl, ls) := f (el ws v.a p.1); { at_ := wd * p.2, w := wd, v := x, fl, ls })
  { o with useA := bytesOf ws (pairs.map (·.1)) }

/-- A linear vcvt; a rounding code, where the form has one, gives its mode. -/
def vcvtForm (d a : BitVec 6) (k : BitVec 1) (g : BitVec 4) (ws wd : Nat) (op : Nat → Nat × Nat) (s : State) : Out :=
  let wide := decide (ws = 64) || decide (wd = 64)
  vForm (vr1 d a k g wide (timeConv wide)) s fun v => v.convert ws wd fun x => let (r, fl) := op x; (r, fl, 0)

def fpConv (src dst : Fmt) (rm : Rm) (x : Nat) : Nat × Nat := let r := src.convert dst rm x; (r.bits, r.flags)
def toInt (src : Fmt) (w : Nat) (lo hi : Int) (rm : Rm) (x : Nat) : Nat × Nat :=
  let (z, fl) := toInteger rm lo hi (src.read x)
  (wrap w z, fl)
def ofInt (dst : Fmt) (rm : Rm) (z : Int) : Nat × Nat := let r := dst.ofInteger rm z; (r.bits, r.flags)

def execVcvtF32F64 (d a : BitVec 6) (r : BitVec 2) (k : BitVec 1) (g : BitVec 4) (s : State) : Out :=
  vcvtForm d a k g 64 32 (fpConv .f64 .f32 (Rm.ofCode r.toNat)) s
def execVcvtF64F32 (d a : BitVec 6) (k : BitVec 1) (g : BitVec 4) (s : State) : Out :=
  vcvtForm d a k g 32 64 (fpConv .f32 .f64 .rne) s
def execVcvtF16F32 (d a : BitVec 6) (r : BitVec 2) (k : BitVec 1) (g : BitVec 4) (s : State) : Out :=
  vcvtForm d a k g 32 16 (fpConv .f32 .f16 (Rm.ofCode r.toNat)) s
def execVcvtF32F16 (d a : BitVec 6) (k : BitVec 1) (g : BitVec 4) (s : State) : Out :=
  vcvtForm d a k g 16 32 (fpConv .f16 .f32 .rne) s
def execVcvtBf16F32 (d a : BitVec 6) (r : BitVec 2) (k : BitVec 1) (g : BitVec 4) (s : State) : Out :=
  vcvtForm d a k g 32 16 (fpConv .f32 .bf16 (Rm.ofCode r.toNat)) s
def execVcvtF32Bf16 (d a : BitVec 6) (k : BitVec 1) (g : BitVec 4) (s : State) : Out :=
  vcvtForm d a k g 16 32 (fpConv .bf16 .f32 .rne) s
def execVcvtI32F32 (d a : BitVec 6) (r : BitVec 2) (k : BitVec 1) (g : BitVec 4) (s : State) : Out :=
  vcvtForm d a k g 32 32 (toInt .f32 32 (signedMin 32) (signedMax 32) (Rm.ofCode r.toNat)) s
def execVcvtF32I32 (d a : BitVec 6) (r : BitVec 2) (k : BitVec 1) (g : BitVec 4) (s : State) : Out :=
  vcvtForm d a k g 32 32 (fun x => ofInt .f32 (Rm.ofCode r.toNat) (sextNat x 32)) s
def execVcvtN32F32 (d a : BitVec 6) (r : BitVec 2) (k : BitVec 1) (g : BitVec 4) (s : State) : Out :=
  vcvtForm d a k g 32 32 (toInt .f32 32 0 ((pow2 32 : Nat) - 1) (Rm.ofCode r.toNat)) s
def execVcvtF32N32 (d a : BitVec 6) (r : BitVec 2) (k : BitVec 1) (g : BitVec 4) (s : State) : Out :=
  vcvtForm d a k g 32 32 (fun x => ofInt .f32 (Rm.ofCode r.toNat) x) s
def execVcvtI64F64 (d a : BitVec 6) (r : BitVec 2) (k : BitVec 1) (g : BitVec 4) (s : State) : Out :=
  vcvtForm d a k g 64 64 (toInt .f64 64 (signedMin 64) (signedMax 64) (Rm.ofCode r.toNat)) s
def execVcvtF64I64 (d a : BitVec 6) (r : BitVec 2) (k : BitVec 1) (g : BitVec 4) (s : State) : Out :=
  vcvtForm d a k g 64 64 (fun x => ofInt .f64 (Rm.ofCode r.toNat) (sextNat x 64)) s

/-! ### LNS conversions (R215-R217) -/

/-- A form whose LNS format code compatibility mode may lack (R384). -/
def withLns (f : BitVec 2) (s : State) (k : Out) : Out :=
  onVector s <| check (!(s.here.job.compat && decide (f = 3))) causeEncoding s k

/-- The scale in a cell of b: its low 16 bits, signed (R215). -/
def scaleAt (b cell : Nat) : Int := sextNat (fld b (32 * cell + 15) (32 * cell)) 16

/-- The FP32 value of a cell. -/
def cellValue (a cell : Nat) : FVal := Fmt.f32.read (el 32 a cell)

/-- vlcvt (R215): one byte of a 4-bit format is the pair (2m, 2m+1), whose partner outside SHAPE is +0. -/
def lnsOut (v : VEnv) (f : BitVec 2) (ufmin : Bool) : VOut :=
  let fmt := LFmt.ofCode f.toNat
  let inside (cell : Nat) : Bool := v.sh.inside (4 * cell)
  let (els, srcs) :=
    if fmt.bits = 4 then
      let bytes := (List.range 128).filter fun n => inside (n / 8 * 16 + n % 8 * 2) && v.guard.testBit (n / 8 * 64 + n % 8)
      let one (n : Nat) : VEl :=
        let c := n / 8 * 16 + n % 8 * 2
        let x0 := cellValue v.a c
        let x1 := if inside (c + 1) then cellValue v.a (c + 1) else .fin false 0 0
        let r := if f = 3 then logCode4x x0 x1 (scaleAt v.b c) ufmin
          else
            let r0 := LFmt.l4.logCode x0 (scaleAt v.b c) ufmin
            let r1 := LFmt.l4.logCode x1 (scaleAt v.b (c + 1)) ufmin
            ⟨r0.code + 16 * r1.code, r0.flags ||| r1.flags, r0.lsat ||| r1.lsat⟩
        { at_ := 8 * (n / 8 * 64 + n % 8), w := 8, v := r.code, fl := r.flags, ls := r.lsat }
      (bytes.map one, bytes.flatMap fun n => let c := n / 8 * 16 + n % 8 * 2; if inside (c + 1) then [c, c + 1] else [c])
    else
      let w := fmt.bits
      let cells := (List.range 256).filter fun c => inside c && v.guard.testBit (w * (c / 16 * gridCols w + c % 16) / 8)
      let one (c : Nat) : VEl :=
        let r := fmt.logCode (cellValue v.a c) (scaleAt v.b c) ufmin
        { at_ := w * (c / 16 * gridCols w + c % 16), w, v := r.code, fl := r.flags, ls := r.lsat }
      (cells.map one, cells)
  let o := VOut.gather els
  let used := bytesOf 32 srcs
  { o with
    useA := used, useB := used
    amax := ((srcs.map (cellValue v.a)).foldl maxMag none).map fun m => BitVec.ofNat 64 (Fmt.f64.roundV .rne m).bits }

def vlcvtForm (d a b : BitVec 6) (f : BitVec 2) (k : BitVec 1) (g : BitVec 4) (ufmin : Bool) (s : State) : Out :=
  withLns f s <| vForm (vr2 d a b k g false (timeConv false)) s fun v => lnsOut v f ufmin

def execVlcvt (d a b : BitVec 6) (f : BitVec 2) (k : BitVec 1) (g : BitVec 4) (s : State) : Out := vlcvtForm d a b f k g false s
def execVlcvtM (d a b : BitVec 6) (f : BitVec 2) (k : BitVec 1) (g : BitVec 4) (s : State) : Out := vlcvtForm d a b f k g true s

/-- LNS codes to linear elements of a format (R216): source element (i, j) for j below the destination's row;
a marker read sets FMTV. -/
def linearOut (v : VEnv) (f : BitVec 2) (dst : Fmt) (scaled : Bool) : VOut :=
  let w := dst.width
  let ls := (LFmt.ofCode f.toNat).bits
  let src (e : Nat) : Nat := e / gridCols w * gridCols ls + e % gridCols w
  let o := v.map w fun e =>
    let (x, bad) := lnsElement f.toNat v.a (src e)
    let r := x.toLinear dst v.rm (if scaled then scaleAt v.b (w * e / 32) else 0)
    (r.bits, r.flags, if bad then lsatFMTV else 0)
  let used := ((v.elems w).map fun e => ls * src e / 8).eraseDups
  { o with useA := bytesOf 8 (if ls = 16 then used.flatMap fun b => [b, b + 1] else used), useB := if scaled then o.mask else 0, useD := 0 }

def execVlexp (d a b : BitVec 6) (f : BitVec 2) (k : BitVec 1) (g : BitVec 4) (s : State) : Out :=
  withLns f s <| vForm (vr2 d a b k g false (timeConv false)) s fun v => linearOut v f .f32 true

def execVcvtF64Lns (d a : BitVec 6) (f : BitVec 2) (k : BitVec 1) (g : BitVec 4) (s : State) : Out :=
  withLns f s <| vForm (vr1 d a k g true (timeConv true)) s fun v => linearOut v f .f64 false

/-- A product or a scaling in the log domain (R217): the code and the LSAT bits. -/
def logDomain (f : LFmt) (a : LVal) (b : Option LVal) (sigma : Int) : Nat × Nat :=
  let finish (neg : Bool) (u : Int) : Nat × Nat :=
    let e := (2 * u + f.unit) / (2 * (f.unit : Int)) + f.bias
    if e > f.emax then (f.code neg f.emax, lsatOV)
    else if e < 1 then (0, lsatUF)
    else (f.code neg e.toNat, 0)
  match a, b with
  | .nar, _ => (f.code true 0, 0)
  | _, some .nar => (f.code true 0, 0)
  | .zero, _ => (0, 0)
  | _, some .zero => (0, 0)
  | .real n u, some (.real m x) => finish (xor n m) (u + x)
  | .real n u, none => finish n (u + sigma)

/-- One code of the log-domain forms, at an element of the format's width. -/
def logElement (v : VEnv) (f : LFmt) (scale : Bool) (e : Nat) : Nat × Nat :=
  let (a, ba) := f.read (el f.bits v.a e)
  let (b, bb) := f.read (el f.bits v.b e)
  let (r, ls) := if scale then logDomain f a none (scaleAt v.b (f.bits * e / 32)) else logDomain f a (some b) 0
  (r, ls ||| (if ba || (!scale && bb) then lsatFMTV else 0))

def vlogForm (d a b : BitVec 6) (f : BitVec 2) (k : BitVec 1) (g : BitVec 4) (scale : Bool) (s : State) : Out :=
  let fmt := LFmt.ofCode f.toNat
  vForm (vr2 d a b k g false (timeConv false)) s fun v =>
    let o := if fmt.bits = 4 then
        v.map 8 fun n =>
          let (x, lx) := logElement v fmt scale (2 * n)
          let (y, ly) := logElement v fmt scale (2 * n + 1)
          (x + 16 * y, 0, lx ||| ly)
      else v.map fmt.bits fun e => let (x, lx) := logElement v fmt scale e; (x, 0, lx)
    if scale then { o with useB := bytesOfCells (cellsOf o.mask) } else o

def execVlmul (d a b : BitVec 6) (f : BitVec 2) (k : BitVec 1) (g : BitVec 4) (s : State) : Out := vlogForm d a b f k g false s
def execVlscl (d a b : BitVec 6) (f : BitVec 2) (k : BitVec 1) (g : BitVec 4) (s : State) : Out := vlogForm d a b f k g true s

end Sys2Proof.Machine
end

