-- ==== Sys2Proof/Machine/VectorMem.lean ====
section
/-! DEFINITION. The memory and control forms of the vector stream (R113, R218-R227). -/

namespace Sys2Proof.Machine

/-! ### Elements of a memory form (R218, R224) -/

/-- One access of a memory micro-order: the element's number for ELEM (R395), its address and size, its place in
the operand's bytes, what it carries, and, of a cell with inactive bytes, which are active. -/
structure VAcc where
  elem : Nat
  va : Word
  size : Nat
  at_ : Nat
  b : Nat := 0
  cmp : Nat := 0
  part : Nat := 0
  deriving DecidableEq, Repr

/-- The bytes of an access that are active, as a mask. -/
def VAcc.bytes (x : VAcc) : Nat := if x.part = 0 then pow2 x.size - 1 else x.part

/-- The byte ranges that an access writes: its place within the access, and its size. -/
def VAcc.runs (x : VAcc) : List (Nat × Nat) :=
  if x.part = 0 then [(0, x.size)] else ((List.range x.size).filter fun i => x.part.testBit i).map fun i => (i, 1)

/-- The address of the lowest active byte. -/
def VAcc.first (x : VAcc) : Word := x.va + BitVec.ofNat 64 ((x.runs.head?.map fun r => r.1).getD 0)

/-- k[n] of the group. -/
def Group.kreg (g : Group) (n : Nat) : Word := g.k[n % 4]'(by omega)

/-- The bytes of a scratchpad form's tile (R191, R218, R219): a cell whose bytes are all active is one access;
of any other cell each active byte is one. -/
def VEnv.tileBytes (v : VEnv) (base : Word) (data : Nat) : List VAcc :=
  (List.range 256).flatMap fun c =>
    let act := (List.range 4).filter fun i => v.active (4 * c + i)
    let addr (i : Nat) : Word := base + BitVec.ofNat 64 (4 * c + i)
    if act.length = 4 then [{ elem := 4 * c, va := addr 0, size := 4, at_ := 4 * c, b := el 32 data c }]
    else act.map fun i => { elem := 4 * c + i, va := addr i, size := 1, at_ := 4 * c + i, b := el 8 data (4 * c + i) }

/-- The accesses of a global byte form to its tile (R191, R218, R219): one to each cell with an active byte, which is single-copy
atomic for its active bytes. -/
def VEnv.tileCells (v : VEnv) (base : Word) (data : Nat) : List VAcc :=
  (List.range 256).filterMap fun c =>
    let act := (List.range 4).filter fun i => v.active (4 * c + i)
    let va := base + BitVec.ofNat 64 (4 * c)
    match act with
    | [] => none
    | i :: _ =>
      if act.length = 4 then some { elem := 4 * c, va, size := 4, at_ := 4 * c, b := el 32 data c }
      else
        some { elem := 4 * c + i, va, size := 4, at_ := 4 * c, part := (act.map fun j => pow2 j).sum
               b := (act.map fun j => el 8 data (4 * c + j) * pow2 (8 * j)).sum }

/-- The accesses of whole elements to the tile (R218, R221). -/
def VEnv.tileElems (v : VEnv) (w : Nat) (base : Word) (data : Nat) : List VAcc :=
  (v.elems w).map fun e =>
    { elem := e, va := base + BitVec.ofNat 64 (w * e / 8), size := w / 8, at_ := w * e / 8, b := el w data e }

/-- The accesses of an element form: k1 + sext(b[e]) (R218). -/
def VEnv.indexed (v : VEnv) (w : Nat) (base : Word) (data cmp : Nat) : List VAcc :=
  (v.elems w).map fun e =>
    { elem := e, va := base + wordOfInt (sextNat (el w v.b e) w), size := w / 8, at_ := w * e / 8, b := el w data e,
      cmp := el w cmp e }

/-- Bytes of the operand that a list of accesses covers. -/
def accBytes (l : List VAcc) : Nat := l.foldl (fun acc x => acc + x.bytes * pow2 x.at_) 0

/-- What the checks of every element answer (R224): the translations, an address that misses, or the trap of the
lowest faulting element. -/
inductive VChecked where
  | ok (l : List (VAcc × Nat × TlbEntry))
  | miss (x : VAcc)
  | fail (t : TrapArgs)
  deriving DecidableEq, Repr

def State.checkElems (s : State) (p : Perm) : List VAcc → VChecked
  | [] => .ok []
  | x :: rest =>
    match s.checkAccess x.va x.size p with
    | .fail t => .fail { t with addr := x.first, elem := x.elem }
    | .miss => .miss x
    | .ok pa e =>
      match State.checkElems s p rest with
      | .ok l => .ok ((x, pa, e) :: l)
      | r => r

/-- Goes on once every element has passed; a miss waits for its walk, a fault traps with no access made (R224). -/
def withElems (l : List VAcc) (p : Perm) (s : State) (k : List (VAcc × Nat × TlbEntry) → Out) : Out :=
  match s.checkElems p l with
  | .ok r => k r
  | .fail t => trapWith s t
  | .miss x => .next (s.startWalk x.va false x.elem).1

/-- The base of a tile form is a multiple of 4 (R219). -/
def withBase (base : Word) (l : List VAcc) (s : State) (k : Out) : Out :=
  match l with
  | [] => k
  | x :: _ => if base.toNat % 4 = 0 then k else trapWith s { cause := causeAlignment, addr := x.first, elem := x.elem }

/-- A global form does not belong to an exposed table (R108). -/
def onGlobal (s : State) (k : Out) : Out := onVector s <| check (!s.grp.v.exposed) causeEncoding s k

def timeMem : VTime := ⟨.mx, .quarter, 0⟩

/-- The delay of an element's access within its micro-order: the unit moves four rows per cycle (R100, R102). Such an element takes its
place in the core's issue order in the micro-order's issue cycle, on which R307 is silent (DESIGN CHOICE, log 65). -/
def VAcc.delay (x : VAcc) : Nat := x.at_ / 256

/-- The micro-order's number: the next number of the package. -/
def State.takeId (s : State) : State × Nat := ({ s with nextId := s.nextId + 1 }, s.nextId)

/-- What an issued memory micro-order leaves: sources taken, its pipe held, its elements in flight. -/
def memTail (F : VForm) (s0 s : State) (o : Nat) (env : VEnv) (pa : Nat) (m : Option VMem) : Out :=
  let s1 := (s.takeSources F env.a pa).reserveDest F
  let s2 := s1.modV fun v => { v with mems := v.mems ++ m.toList }
  let s3 := s2.modHere fun c => { c with pipes := c.pipes.take F.time.pipe s.pcc o }
  .next (s3.vAdvance (s0.grp.v.pc + 4) 1)

/-- A micro-order in flight with so many elements outstanding. -/
def State.newMem (s : State) (id left : Nat) (dest : Option (BitVec 6)) (mask smask : Nat) : VMem :=
  { order := id, pc := s.grp.v.pc, since := s.pcc, left, dest, shape := s.grp.v.wshape, pred := false,
    mask := BitVec.ofNat 1024 mask, smask := BitVec.ofNat 1024 smask, value := 0, back := 0, fault := none }

/-- What lands when the last element of a load or vamo is there (R224, R283). -/
def VMem.effects (m : VMem) (compat : Bool) : List VEffect :=
  match m.dest with
  | none => []
  | some f =>
    let sh := Shape.of m.shape
    [destEffect sh compat f { value := m.value.toNat, mask := m.mask.toNat } false] ++
      (if m.smask = 0 || isPort f then [] else [destEffect sh compat f { value := m.value.toNat, mask := m.smask.toNat } true])

/-- A form that awaits data: with no active element it completes at once (R58, R73). -/
def State.awaitData (s : State) (m : VMem) (o : Nat) : State × Option VMem :=
  if m.left = 0 then (s.leave (s.pcc + o) (m.effects s.here.job.compat), none) else (s, some m)

/-- The shadow environment's bytes of a twin group, or none (R227). -/
def State.shadowBytes (s : State) (F : VForm) (f : VEnv → List VAcc) : Nat :=
  if s.isTwin then accBytes (f (s.vEnv F true).1) else 0

/-- A twin group's stored bytes, operands and records agree with those of its shadow columns (R227, R283). -/
def withAgreement (F : VForm) (l : List VAcc) (f : VEnv → List VAcc) (s : State) (k : Out) : Out :=
  check (!s.isTwin || decide (f (s.vEnv F true).1 = l)) causeTwin s k

/-! ### Loads, stores and atomics (R219-R222) -/

/-- A global load of the elements that f names (R219, R220). -/
def vloadForm (F : VForm) (c : BitVec 2) (base : Option Word) (f : VEnv → List VAcc) (s : State) : Out :=
  onGlobal s <| vIssue F s fun o _ =>
    let (env, pa, pb, _) := s.vEnv F false
    let l := f env
    check (!({ useB := accBytes l } : VOut).usesPoison 0 pb 0 && !s.shadowPoison F fun e => { useB := accBytes (f e) }) causePoison s <|
      (match base with
       | some b => withBase b l s
       | none => fun k => k) <|
      withElems l .read s fun r =>
        let (s1, id) := s.takeId
        let s2 := r.foldl (fun (s : State) (x : VAcc × Nat × TlbEntry) => (s.startRead (.vload id x.1.at_ x.1.elem) x.1.first x.2.1 x.1.size c.toNat x.1.delay x.2.2).1) s1
        let m := s.newMem id l.length F.d (accBytes l) (s.shadowBytes F f)
        let (s3, m') := s2.awaitData m o
        memTail F s s3 o env pa m'

/-- A global store of the elements that f names (R219, R220, R293). -/
def vstoreForm (F : VForm) (c : BitVec 2) (base : Option Word) (f : VEnv → List VAcc) (s : State) : Out :=
  onGlobal s <| vIssue F s fun o _ =>
    let (env, pa, pb, _) := s.vEnv F false
    let l := f env
    check (!({ useA := accBytes l, useB := accBytes l } : VOut).usesPoison pa pb 0 &&
        !s.shadowPoison F fun e => { useA := accBytes (f e), useB := accBytes (f e) }) causePoison s <|
      (match base with
       | some b => withBase b l s
       | none => fun k => k) <|
      withElems l .write s fun r =>
        withAgreement F l f s <|
          let (s1, id) := s.takeId
          let s2 := r.foldl (fun (s : State) (x : VAcc × Nat × TlbEntry) => s.postStore (.vstore id x.1.elem) x.1.first x.2.1 x.1.size c.toNat x.1.b x.1.delay x.1.runs) s1
          let sent := s2.nextId - s1.nextId
          memTail F s s2 o env pa (if sent = 0 then none else some (s.newMem id sent none 0 0))

/-- Atomics of the elements that f names, with or without results (R221, R222). -/
def vamoForm (F : VForm) (c : BitVec 2) (op : Nat) (result : Bool) (f : VEnv → List VAcc) (s : State) : Out :=
  onGlobal s <| vIssue F s fun o _ =>
    let (env, pa, pb, pd) := s.vEnv F false
    let l := f env
    let used := accBytes l
    check (!({ useA := used, useB := used, useD := used } : VOut).usesPoison pa pb pd &&
        !s.shadowPoison F fun e => { useA := accBytes (f e), useB := accBytes (f e), useD := accBytes (f e) }) causePoison s <|
      withElems l .both s fun r =>
        withAgreement F l f s <|
          let (s1, id) := s.takeId
          let s2 := r.foldl (fun (s : State) (x : VAcc × Nat × TlbEntry) =>
            (s.send { kind := .vamo id x.1.at_ x.1.elem op (BitVec.ofNat 64 x.1.b) (BitVec.ofNat 64 x.1.cmp) result,
                      va := x.1.va, pa := x.2.1, size := x.1.size, cls := c.toNat, value := 0, order := s.nextOrder,
                      delay := x.1.delay }).1.bumpOrder) s1
          let m := s.newMem id l.length (if result then F.d else none) (if result then used else 0)
            (if result then s.shadowBytes F f else 0)
          let (s3, m') := s2.awaitData m o
          memTail F s s3 o env pa m'

/-- An index register: vN in the row view (R218). -/
def indexField (v : BitVec 4) : BitVec 6 := v.setWidth 6

def execVld (d : BitVec 6) (c n : BitVec 2) (g : BitVec 4) (s : State) : Out :=
  let base := s.grp.kreg n.toNat
  vloadForm { d := some d, guard := g, keep := some 0, time := timeMem, kreads := [n.toNat] } c (some base)
    (fun v => v.tileCells base 0) s

def execVst (a : BitVec 6) (c n : BitVec 2) (k : BitVec 1) (g : BitVec 4) (s : State) : Out :=
  let base := s.grp.kreg n.toNat
  vstoreForm { a := some a, guard := g, keep := some k, time := timeMem, kreads := [n.toNat] } c (some base)
    (fun v => v.tileCells base v.a) s

def widthBit (wd : BitVec 1) : Nat := if wd = 1 then 64 else 32

def execVgath (d : BitVec 6) (c : BitVec 2) (v : BitVec 4) (wd : BitVec 1) (g : BitVec 4) (s : State) : Out :=
  let base := s.grp.kreg 1
  vloadForm { d := some d, b := some (indexField v), wide := decide (wd = 1), guard := g, keep := some 0, time := timeMem, kreads := [1] }
    c none (fun e => e.indexed (widthBit wd) base 0 0) s

def execVscat (a : BitVec 6) (c : BitVec 2) (v : BitVec 4) (wd k : BitVec 1) (g : BitVec 4) (s : State) : Out :=
  let base := s.grp.kreg 1
  vstoreForm { a := some a, b := some (indexField v), wide := decide (wd = 1), guard := g, keep := some k, time := timeMem, kreads := [1] }
    c none (fun e => e.indexed (widthBit wd) base e.a 0) s

/-- The width of an AMO type (R84). -/
def amoWidth (t : BitVec 2) : Nat := if t.toNat % 2 = 1 then 64 else 32

/-- The operation of an AMO type: FP types have their own add, min and max (R136, R221, R222). -/
def amoOp (t : BitVec 2) (int fp : Nat) : Nat := if t.toNat < 2 then int else fp

/-- vupd (R221). -/
def vupdForm (a : BitVec 6) (c n t : BitVec 2) (k : BitVec 1) (g : BitVec 4) (op : Nat) (s : State) : Out :=
  let base := s.grp.kreg n.toNat
  vamoForm { a := some a, wide := decide (amoWidth t = 64), guard := g, keep := some k, time := timeMem, kreads := [n.toNat] }
    c op false (fun e => e.tileElems (amoWidth t) base e.a) s

def execVupdAdd (a : BitVec 6) (c n t : BitVec 2) (k : BitVec 1) (g : BitVec 4) (s : State) : Out := vupdForm a c n t k g (amoOp t 0 8) s
def execVupdMin (a : BitVec 6) (c n t : BitVec 2) (k : BitVec 1) (g : BitVec 4) (s : State) : Out := vupdForm a c n t k g (amoOp t 4 9) s
def execVupdMax (a : BitVec 6) (c n t : BitVec 2) (k : BitVec 1) (g : BitVec 4) (s : State) : Out := vupdForm a c n t k g (amoOp t 5 10) s
def execVupdAnd (a : BitVec 6) (c n t : BitVec 2) (k : BitVec 1) (g : BitVec 4) (s : State) : Out := vupdForm a c n t k g 1 s
def execVupdOr (a : BitVec 6) (c n t : BitVec 2) (k : BitVec 1) (g : BitVec 4) (s : State) : Out := vupdForm a c n t k g 2 s
def execVupdXor (a : BitVec 6) (c n t : BitVec 2) (k : BitVec 1) (g : BitVec 4) (s : State) : Out := vupdForm a c n t k g 3 s
def execVupdMinu (a : BitVec 6) (c n t : BitVec 2) (k : BitVec 1) (g : BitVec 4) (s : State) : Out := vupdForm a c n t k g 11 s
def execVupdMaxu (a : BitVec 6) (c n t : BitVec 2) (k : BitVec 1) (g : BitVec 4) (s : State) : Out := vupdForm a c n t k g 12 s

/-- vamo (R222); cas compares with the old d, which it reads. -/
def vamoOf (d a : BitVec 6) (c : BitVec 2) (v : BitVec 4) (t : BitVec 2) (k : BitVec 1) (g : BitVec 4) (op : Nat) (cas : Bool)
    (s : State) : Out :=
  let base := s.grp.kreg 1
  vamoForm { d := some d, a := some a, b := some (indexField v), readsD := cas, wide := decide (amoWidth t = 64), guard := g,
             keep := some k, time := timeMem, kreads := [1] }
    c op true (fun e => e.indexed (amoWidth t) base e.a e.d) s

def execVamoAdd (d a : BitVec 6) (c : BitVec 2) (v : BitVec 4) (t : BitVec 2) (k : BitVec 1) (g : BitVec 4) (s : State) : Out :=
  vamoOf d a c v t k g (amoOp t 0 8) false s
def execVamoAnd (d a : BitVec 6) (c : BitVec 2) (v : BitVec 4) (t : BitVec 2) (k : BitVec 1) (g : BitVec 4) (s : State) : Out :=
  vamoOf d a c v t k g 1 false s
def execVamoOr (d a : BitVec 6) (c : BitVec 2) (v : BitVec 4) (t : BitVec 2) (k : BitVec 1) (g : BitVec 4) (s : State) : Out :=
  vamoOf d a c v t k g 2 false s
def execVamoXor (d a : BitVec 6) (c : BitVec 2) (v : BitVec 4) (t : BitVec 2) (k : BitVec 1) (g : BitVec 4) (s : State) : Out :=
  vamoOf d a c v t k g 3 false s
def execVamoMin (d a : BitVec 6) (c : BitVec 2) (v : BitVec 4) (t : BitVec 2) (k : BitVec 1) (g : BitVec 4) (s : State) : Out :=
  vamoOf d a c v t k g (amoOp t 4 9) false s
def execVamoMax (d a : BitVec 6) (c : BitVec 2) (v : BitVec 4) (t : BitVec 2) (k : BitVec 1) (g : BitVec 4) (s : State) : Out :=
  vamoOf d a c v t k g (amoOp t 5 10) false s
def execVamoSwap (d a : BitVec 6) (c : BitVec 2) (v : BitVec 4) (t : BitVec 2) (k : BitVec 1) (g : BitVec 4) (s : State) : Out :=
  vamoOf d a c v t k g 6 false s
def execVamoCas (d a : BitVec 6) (c : BitVec 2) (v : BitVec 4) (t : BitVec 2) (k : BitVec 1) (g : BitVec 4) (s : State) : Out :=
  vamoOf d a c v t k g 7 true s

/-! ### Scratchpad forms (R135, R219) -/

/-- A scratchpad byte as it was before the scalar stores of this cycle (R135). -/
def Core.spmBefore (c : Core) (a : Nat) : Byte :=
  match c.spmOld.find? fun p => decide (p.1 = a) with
  | some p => p.2
  | none => Memory.read c.spm a

/-- The checks of a scratchpad form (R219): ALIGNMENT of the base, PROTECTION of the lowest byte outside. -/
def withScratch (base : Word) (l : List VAcc) (s : State) (k : Out) : Out :=
  withBase base l s <|
    match l.find? fun x => !s.here.inReservation x.va x.size with
    | some x =>
      let off := ((List.range x.size).find? fun i => !s.here.inReservation (x.va + BitVec.ofNat 64 i) 1).getD 0
      trapWith s { cause := causeProtection, addr := x.va + BitVec.ofNat 64 off, elem := x.elem + off }
    | none => k

/-- The bytes that a list of accesses reads from the scratchpad. -/
def Core.scratchBytes (c : Core) (l : List VAcc) : Nat :=
  l.foldl (fun acc x => acc + (((List.range x.size).map fun i => (c.spmBefore (x.va.toNat + i)).toNat * pow2 (8 * i)).sum) * pow2 (8 * x.at_)) 0

def execVlds (d : BitVec 6) (n : BitVec 2) (g : BitVec 4) (s : State) : Out :=
  let base := s.grp.kreg n.toNat
  let F : VForm := { d := some d, guard := g, keep := some 0, time := ⟨.mx, .quarter, 6⟩, kreads := [n.toNat] }
  onVector s <| vIssue F s fun o lat =>
    let env := (s.vEnv F false).1
    let l := env.tileBytes base 0
    let read (l : List VAcc) : VOut := { value := s.here.scratchBytes l, mask := accBytes l }
    withScratch base l s <|
      match l.find? fun x => poisonedIn s.here.spmPoison x.va.toNat x.size with
      | some x =>
        let (s1, id) := s.takeId
        let acc : Access :=
          { core := s.curKey, slot := s.cur.slot, stream := s.cur.stream, kind := .vload id x.at_ x.elem, pc := s.curPc, va := x.va,
            pa := x.va.toNat, size := x.size, cls := 0, issued := s.pcc, performAt := s.pcc, replyAt := s.pcc + lat - 1, order := 0,
            value := 0, performed := true, error := some .poison, window := s.qwin, lease := none, tag := none, host := 0 }
        let (s2, aid) := s1.takeId
        memTail F s (({ s2 with accs := s2.accs.set aid acc }).schedule (s.pcc + lat - 1) (.dataErrorArrival aid .poison)) o env 0
          (some (s.newMem id 1 F.d (accBytes l) 0))
      | none =>
        let sout := if s.isTwin then read ((s.vEnv F true).1.tileBytes base 0) else {}
        vTail F s o lat env 0 (read l) sout

/-- VSTS: performed for every vlds that issues in t + O + 2 or later (R102). -/
def execVsts (a : BitVec 6) (n : BitVec 2) (k : BitVec 1) (g : BitVec 4) (s : State) : Out :=
  let base := s.grp.kreg n.toNat
  let F : VForm := { a := some a, guard := g, keep := some k, time := ⟨.mx, .quarter, 2⟩, kreads := [n.toNat] }
  onVector s <| vIssue F s fun o lat =>
    let (env, pa, _, _) := s.vEnv F false
    let f (e : VEnv) := e.tileBytes base e.a
    let l := f env
    check (!({ useA := accBytes l } : VOut).usesPoison pa 0 0 && !s.shadowPoison F fun e => { useA := accBytes (f e) }) causePoison s <|
      withScratch base l s <|
        withAgreement F l f s <|
          let s1 := s.leave (s.pcc + lat - 1) [.spm (l.map fun x => (x.va.toNat, x.size, x.b))]
          memTail F s s1 o env pa none

/-! ### VTQPUSH (R223) -/

/-- The header cell of a lane: KIND, FLAGS and queue, if the launch has them (R223). -/
def Launch.laneOk (l : Launch) (h : Nat) : Bool :=
  decide (fld h 15 12 = 0) && l.info.kinds.has (fld h 11 6) && decide (fld h 5 0 < pktTqN l.packet)

/-- The lanes of a vtqpush: cell, header and payload words. -/
def VEnv.lanes (v : VEnv) (p0 p1 p2 : Nat) : List (Nat × Nat × Nat × Nat × Nat) :=
  (v.elems 32).map fun e => (e, el 32 v.b e, el 32 p0 e, el 32 p1 e, el 32 p2 e)

def execVtqpush (a b : BitVec 6) (k : BitVec 1) (g : BitVec 4) (s : State) : Out :=
  let row : BitVec 4 := a.setWidth 4
  let F : VForm := { a := some a, b := some b, guard := g, keep := some k, time := timeMem, changesPred := true }
  onVector s <| notCompat s <| onGlobal s <|
    check (decide (opDir a = 0) && decide (row.toNat ≤ 13) && (s.grp.holdsReg (row.toNat + 1)) && (s.grp.holdsReg (row.toNat + 2))) causeOperand s <|
      if s.grp.v.regPending (row.toNat + 1) || s.grp.v.regPending (row.toNat + 2) ||
          !(s.grp.regThere (row.toNat + 1) && s.grp.regThere (row.toNat + 2)) then .next s
      else
        vIssue F s fun o _ =>
          let (env, pa, pb, _) := s.vEnv F false
          let rows (shadow : Bool) (n : Nat) : Nat := (s.regOperand (indexField (row + BitVec.ofNat 4 n)) shadow).1
          let lanes := env.lanes env.a (rows false 1) (rows false 2)
          let used := bytesOf 32 (lanes.map (·.1))
          let bad (shadow : Bool) (n : Nat) : Nat := (s.regOperand (indexField (row + BitVec.ofNat 4 n)) shadow).2
          let (senv, spa, spb, _) := s.vEnv F true
          let sused := bytesOf 32 ((senv.lanes senv.a (rows true 1) (rows true 2)).map (·.1))
          check (lanes.all fun l => s.hereLaunch.laneOk l.2.1) causeOperand s <|
            check (!({ useA := used, useB := used } : VOut).usesPoison (pa ||| bad false 1 ||| bad false 2) pb 0 &&
                !(s.isTwin && ({ useA := sused, useB := sused } : VOut).usesPoison (spa ||| bad true 1 ||| bad true 2) spb 0)) causePoison s <|
              check (!s.isTwin || decide (senv.lanes senv.a (rows true 1) (rows true 2) = lanes)) causeTwin s <|
                let (s1, id) := s.takeId
                let (s2, _) := lanes.foldl (fun (p : State × Nat) l =>
                  let r := taskRecord l.2.2.1 l.2.2.2.1 l.2.2.2.2 false (physOf s.cur.core) s.cur.slot l.1 (fld l.2.1 31 16) (fld l.2.1 11 6)
                  ((p.1.sendPush (fld l.2.1 5 0) l.1 id p.2 r).1, p.2 + 1)) (s1, 0)
                let m := { s.newMem id lanes.length none 0 0 with pred := true }
                if lanes = [] then memTail F s (s2.leave (s.pcc + 8) [.pushPred 0]) o env pa none
                else memTail F s s2 o env pa (some m)

/-! ### Control forms (R113, R226) -/

def execVshape (r c : BitVec 4) (s : State) : Out :=
  onVector s <|
    check (!(s.isTwin && decide (c.toNat > 7)) && !(s.here.job.compat && (decide (r.toNat > 7) || decide (c.toNat > 7)))) causeOperand s <|
      .next ((s.modV fun v => { v with wshape := BitVec.ofNat 32 (16 * r.toNat + c.toNat) }).vAdvance (s.grp.v.pc + 4) 1)

/-- The target of a branch lies in the table and is no signature literal (R65, R87). -/
def State.vTargetOk (s : State) (t : Word) : Bool :=
  match tablePlace s.grp.v.header s.grp.v.length t with
  | none => false
  | some n => !s.isLiteral true s.grp.v.header n

def execVloop (n : BitVec 2) (o : BitVec 15) (s : State) : Out :=
  onVector s <|
    let pc := s.grp.v.pc
    let target := pc + o.signExtend 64 * 4
    check (s.vTargetOk target) causeOperand s <|
      if !s.grp.v.exposed && (s.grp.v.writes.any fun w => w.eff.writesK n.toNat) then .next s
      else
        let v := s.grp.kreg n.toNat - 1
        let s1 := s.modGrp fun g => { g with k := g.k.set n.toNat v }
        .next (if v ≠ 0 then s1.vAdvance target 2 else s1.vAdvance (pc + 4) 1)

def execVjmp (o : BitVec 15) (s : State) : Out :=
  onVector s <|
    let target := s.grp.v.pc + o.signExtend 64 * 4
    check (s.vTargetOk target) causeOperand s <| .next (s.vAdvance target 2)

/-- The closing word's check (R113): a failed one is SEGMENT_CHECK, and the word does not issue. -/
def withSegment (seg : Option Seg) (s : State) (k : Out) : Out :=
  match seg with
  | some g => check (g.passes s.pcc) causeSegment s k
  | none => k

def execVend (s : State) : Out :=
  onVector s <| withSegment s.grp.v.seg s <|
    .next ((s.modV fun v => { v with seg := none, latch := none, ended := true }).vAdvance s.grp.v.pc 1)

def execVseg (c : BitVec 20) (s : State) : Out :=
  onVector s <| check s.grp.v.exposed causeEncoding s <|
    let pc := s.grp.v.pc
    withLiteral (pc + 4) s fun w s => withSegment s.grp.v.seg s <|
      let s1 := (s.modV fun v => { v with seg := none }).vAdvance (pc + 8) 1
      .next (s1.modV fun v => { v with seg := some (Seg.opened s.pcc c.toNat w) })

def execVnop (s : State) : Out := onVector s <| .next (s.vAdvance (s.grp.v.pc + 4) 1)

end Sys2Proof.Machine
end

