-- ==== Sys2Proof/Machine/Matrix.lean ====
section
/-! DEFINITION. The matrix stream (R109, R111, R112, R228-R244) and the beats of a treadle run (R313-R328). -/

namespace Sys2Proof.Machine

def State.mx (s : State) : Matrix := s.here.matrix
def State.modMx (s : State) (f : Matrix → Matrix) : State := s.modHere fun c => { c with matrix := f c.matrix }
def State.modTd (s : State) (f : Treadle → Treadle) : State := s.modHere fun c => { c with treadle := f c.treadle }

def Matrix.bank (m : Matrix) (b : Nat) : Bank := m.banks[b % 2]'(by omega)
def Matrix.modBank (m : Matrix) (b : Nat) (f : Bank → Bank) : Matrix :=
  { m with banks := m.banks.set (b % 2) (f (m.bank b)) (by omega) }

/-! ### Format words (R229, R230) -/

def fwA (w : Word) : Nat := fld w.toNat 1 0
def fwB (w : Word) : Nat := fld w.toNat 3 2
def fwWsm (w : Word) : Nat := fld w.toNat 11 10
def fwAsm (w : Word) : Nat := fld w.toNat 13 12
def fwAcc (w : Word) : Bool := w.toNat.testBit 14
def fwSat (w : Word) : Bool := w.toNat.testBit 15
def fwDfmt (w : Word) : Nat := fld w.toNat 18 16
def fwDufmin (w : Word) : Bool := w.toNat.testBit 19
def fwDscale (w : Word) : Int := sextNat (fld w.toNat 47 32) 16
def fwCscale (w : Word) : Int := sextNat (fld w.toNat 63 48) 16

/-- The bytes an MLDW reads (R234). -/
def loadBytes (bfmt : Nat) : Nat := if bfmt = 0 then 2112 else 1088

/-- The bytes of a drained row (R239). -/
def drainBytes (dfmt : Nat) : Nat :=
  match dfmt with
  | 0 => 128
  | 1 => 64
  | 2 => 64
  | 3 => 32
  | _ => 16

/-- The reduction length (R236) and the A elements of a row. -/
def reduction (t : Bool) (bfmt : Nat) : Nat := if !t && decide (bfmt ≥ 2) then 64 else 32

/-- The tiles that an MMA writes (R236). -/
def mmaTiles (tile : Nat) (t : Bool) (bfmt : Nat) : List Nat := if t && decide (bfmt ≥ 2) then [tile, tile + 1] else [tile]

/-- The bytes of a row of A (R236). -/
def aRowBytes (t : Bool) (fw : Word) : Nat := reduction t (fwB fw) * (LFmt.ofCode (fwA fw)).bits / 8

/-- The cycles between two rows of an MMA: 4 with L16 on either side (R109). -/
def rowStride (fw : Word) : Nat := if fwA fw = 0 ∨ fwB fw = 0 then 4 else 1

/-! ### The array (R234, R237) -/

/-- A weight W[row][col] of a bank (R234, R20), and whether it reads as a marker. -/
def Bank.weight (b : Bank) (fmt row col : Nat) : LVal × Bool :=
  match fmt with
  | 0 => LFmt.l16.read (Memory.readN b.codes (64 * row + 2 * col) 2)
  | 1 => LFmt.l8.read (Memory.readN b.codes (64 * row + col) 1)
  | _ => lnsElement fmt (Memory.readN b.codes (64 * (row / 2) + 16 * (row % 2)) 16) col

def Bank.scale (b : Bank) (n : Nat) : Int := sextNat (Store.read b.scales n) 16

/-- An accumulator element's place in the store. -/
def accKey (tile row col : Nat) : Nat := 1024 * (tile % 8) + 32 * (row % 32) + col % 32

/-- One output element (R25, R237): products in ascending reduction index, four at a time. -/
def mmaElement (b : Bank) (r : MRow) (k c acc : Nat) : Nat × Nat :=
  let fw := r.fw
  (List.range (k / 4)).foldl (fun (st : Nat × Nat) g =>
    let ps := (List.range 4).map fun i =>
      let x := 4 * g + i
      let (a, ba) := lnsElement (fwA fw) r.a.toNat x
      let (w, bw) := if r.t then b.weight (fwB fw) c x else b.weight (fwB fw) x c
      let sw := if fwWsm fw = 1 then 0 else b.scale (if r.t then x else c)
      let (p, fl) := lnsProduct a w r.sa sw
      (p, fl ||| (if ba || bw then mflagFMTV else 0))
    let (v, fl) := accStep (st.1 :: ps.map (·.1))
    (v, ps.foldl (fun f p => f ||| p.2) (st.2 ||| fl))) (acc, 0)

/-- The new elements of a row, tile after tile, and the MFLAGS they set (R237). -/
def Matrix.rowResult (m : Matrix) (r : MRow) : Nat × Nat :=
  let b := m.bank r.bank
  let cols := 32 * (mmaTiles r.tile r.t (fwB r.fw)).length
  let k := reduction r.t (fwB r.fw)
  (List.range cols).foldl (fun (st : Nat × Nat) c =>
    let old := if fwAcc r.fw then Store.read m.acc (accKey (r.tile + c / 32) r.row c) else 0
    let (v, fl) := mmaElement b r k c old
    (st.1 + v * pow2 (32 * c), st.2 ||| fl)) (0, 0)

/-- ORs flags into those that a command will set once it completes (R43). -/
def Matrix.raise (m : Matrix) (cmd fl : Nat) : Matrix :=
  if fl = 0 then m else { m with pendFlags := m.pendFlags.set cmd (m.pendFlags.getD cmd 0 ||| fl) }

/-- A completed command's flags reach MFLAGS (R42, R43). -/
def Matrix.complete (m : Matrix) (cmd : Nat) : Matrix :=
  { m with mflags := m.mflags ||| BitVec.ofNat 32 (m.pendFlags.getD cmd 0), pendFlags := m.pendFlags.del cmd }

/-- Whether a row that accumulates reads a poisoned element (R448). -/
def Matrix.readsPoison (m : Matrix) (r : MRow) : Bool :=
  fwAcc r.fw && (List.range (32 * (mmaTiles r.tile r.t (fwB r.fw)).length)).any fun c =>
    m.accPoison.has (accKey (r.tile + c / 32) r.row c)

/-- Writes a finished row (R237). -/
def Matrix.landRow (m : Matrix) (r : MRow) : Matrix :=
  match r.result with
  | none => m
  | some v =>
    let cols := 32 * (mmaTiles r.tile r.t (fwB r.fw)).length
    let m1 := (List.range cols).foldl (fun (m : Matrix) c =>
      let key := accKey (r.tile + c / 32) r.row c
      { m with acc := Store.write m.acc key (fld v.toNat (32 * c + 31) (32 * c)), accPoison := m.accPoison.del key }) m
    if r.last then m1.complete r.cmd else m1

/-- Zeroes a tile (R241). -/
def Matrix.zeroTile (m : Matrix) (tile : Nat) : Matrix :=
  { m with
    acc := m.acc.filter fun p => decide (p.1 / 1024 ≠ tile)
    accPoison := m.accPoison.filter fun k => decide (k / 1024 ≠ tile) }

/-! ### Drains (R31, R239, R240) -/

/-- MFLAGS of an LNS conversion in a drain (R31). -/
def drainFlags (r : LRes) : Nat :=
  (if r.lsat &&& lsatOV ≠ 0 then mflagDOV else 0) ||| (if r.lsat &&& lsatUF ≠ 0 then mflagDUF else 0) |||
    (if r.lsat &&& lsatLOSS ≠ 0 then mflagDLOSS else 0) ||| (if r.flags ≠ 0 then mflagMNV else 0)

/-- An infinity, or an overflow, under SAT (R240). -/
def saturate (f : Fmt) (sat : Bool) (neg ovf : Bool) : Nat × Nat :=
  if sat then (f.maxFinite neg, mflagDOV) else (f.inf neg, if ovf then mflagDOV else 0)

/-- A linear drain of one element (R240). -/
def drainLinear (f : Fmt) (sat : Bool) (w : Nat) : Nat × Nat :=
  match Fmt.f32.read w with
  | .nan _ => (f.nan, 0)
  | .inf neg => saturate f sat neg false
  | x =>
    let r := f.roundV .rne x
    if (f.read r.bits) = .inf x.sign then saturate f sat x.sign true else (r.bits, 0)

/-- A row of 32 elements as drained bytes, and the MFLAGS it sets (R240). -/
def drainRow (fw : Word) (row : Nat → Nat) : Nat × Nat :=
  let gather (n w : Nat) (f : Nat → Nat × Nat) : Nat × Nat :=
    (List.range n).foldl (fun (st : Nat × Nat) i => let (v, fl) := f i; (st.1 + v * pow2 (w * i), st.2 ||| fl)) (0, 0)
  let lns (f : LFmt) (i : Nat) : Nat × Nat :=
    let r := f.logCode (Fmt.f32.read (row i)) (fwDscale fw) (fwDufmin fw)
    (r.code, drainFlags r)
  match fwDfmt fw with
  | 0 => gather 32 32 fun i => drainLinear .f32 (fwSat fw) (row i)
  | 1 => gather 32 16 fun i => drainLinear .bf16 (fwSat fw) (row i)
  | 2 => gather 32 16 (lns .l16)
  | 3 => gather 32 8 (lns .l8)
  | 4 => gather 32 4 (lns .l4)
  | _ => gather 16 8 fun j =>
    let r := logCode4x (Fmt.f32.read (row (2 * j))) (Fmt.f32.read (row (2 * j + 1))) (fwDscale fw) (fwDufmin fw)
    (r.code, drainFlags r)

/-- Notes on the window that a drain has pushed one more packet (R244). -/
def Window.notePush (w : Window) (cmd : Nat) : Window :=
  { w with cmds := w.cmds.map fun c => if c.cmd = cmd then { c with pushed := c.pushed + 1 } else c }

/-- Reads the row of a drain that is due in this cycle (R239). -/
def Matrix.drainRead (m : Matrix) (now : Nat) (d : MDrain) : MDrain × Nat :=
  if d.nread < 32 ∧ d.start + d.nread ≤ now then
    let (v, fl) := drainRow d.fw fun c => Store.read m.acc (accKey d.tile d.nread c)
    ({ d with rows := d.rows ++ [(now + 8, BitVec.ofNat 1024 v)], nread := d.nread + 1 }, fl)
  else (d, 0)

/-- Writes or pushes the row of a drain that is due (R239, R244). -/
def Core.drainWrite (c : Core) (now : Nat) (d : MDrain) : Core × MDrain :=
  match d.rows with
  | (t, v) :: rest =>
    if t ≤ now then
      let n := drainBytes (fwDfmt d.fw)
      let d' := { d with rows := rest, written := d.written + 1 }
      match d.port with
      | some p =>
        if d.written < d.skip then (c, d')
        else
          let c1 := c.modPort p fun q => { q.push (packetOf v.toNat n) now with reserved := q.reserved - 1 }
          ({ c1 with matrix := { c1.matrix with window := c1.matrix.window.map (·.notePush d.cmd) } }, d')
      | none => (c.writeSpm (d.ea + n * d.written) n v.toNat, d')
    else (c, d)
  | [] => (c, d)

/-! ### Weight loads (R234) -/

/-- A load lands: codes, scales, format tag, and the load rows that hold poison (R234, R446). R109 does not say which of the
33 cycles reads which row: all are read as the load ends (DESIGN CHOICE, log 45). -/
def Core.landLoad (c : Core) (l : MLoad) : Core :=
  let fmt := l.fmt.toNat
  let row := if fmt = 0 then 64 else 32
  let codes := (List.range 32).foldl (fun (m : Memory) r => Memory.writeN m (64 * r) row (Memory.readN c.spm (l.ea + row * r) row)) []
  let scales := (List.range 32).foldl (fun (st : Store) n => Store.write st n (Memory.readN c.spm (l.ea + 32 * row + 2 * n) 2)) []
  let bad := (List.range 32).filter fun r =>
    poisonedIn c.spmPoison (l.ea + row * r) row || poisonedIn c.spmPoison (l.ea + 32 * row) 64
  { c with
    matrix := c.matrix.modBank l.bank fun b => { b with codes, scales, tag := l.fmt, poison := bad }
    rc := c.rc.map fun e => if e.source = 0 ∧ e.cmd = l.cmd then { e with complete := true } else e }

/-! ### The end of a cycle (R109, R233, R241) -/

/-- Drains read their rows (R239). -/
def Core.cycleDrainReads (c : Core) (now : Nat) : Core :=
  let reads : List ((MDrain × Nat) × Nat) := c.matrix.drains.map fun (d : MDrain) => (c.matrix.drainRead now d, d.cmd)
  let m : Matrix := { c.matrix with drains := reads.map fun (r : (MDrain × Nat) × Nat) => r.1.1 }
  { c with matrix := reads.foldl (fun (m : Matrix) (r : (MDrain × Nat) × Nat) => m.raise r.2 r.1.2) m }

/-- Drains write or push their rows; one whose last row is written completes (R239). -/
def Core.cycleDrainWrites (c : Core) (now : Nat) : Core :=
  let r := c.matrix.drains.foldl (fun (st : Core × List MDrain) (d : MDrain) =>
    let x := st.1.drainWrite now d
    (x.1, st.2 ++ [x.2])) (c, ([] : List MDrain))
  let c2 : Core := r.1
  let ds : List MDrain := r.2
  let ended : List MDrain := ds.filter fun (d : MDrain) => decide (d.written ≥ 32)
  { c2 with
    matrix := ended.foldl (fun (m : Matrix) (d : MDrain) => m.complete d.cmd)
      { c2.matrix with drains := ds.filter fun (d : MDrain) => decide (d.written < 32) }
    rc := c2.rc.map fun (e : RcEntry) =>
      if e.source = 0 ∧ ended.any (fun (d : MDrain) => decide (d.cmd = e.cmd)) then { e with complete := true } else e }

/-- Rows are written, and the rows due in the next cycle read their accumulator elements (R233, R237). -/
def Matrix.cycleRows (m : Matrix) (now : Nat) : Matrix :=
  let m4 := (m.rows.filter fun (r : MRow) => decide (r.land ≤ now)).foldl Matrix.landRow m
  let r := (m4.rows.filter fun (r : MRow) => decide (now < r.land)).foldl
    (fun (st : Matrix × List MRow) (r : MRow) =>
      if r.land = now + 1 && r.result.isNone then
        let x := st.1.rowResult r
        (st.1.raise r.cmd x.2, st.2 ++ [{ r with result := some (BitVec.ofNat 2048 x.1) }])
      else (st.1, st.2 ++ [r])) (m4, ([] : List MRow))
  { r.1 with rows := r.2 }

/-- Tiles are zeroed (R241). -/
def Matrix.cycleZeroings (m : Matrix) (now : Nat) : Matrix :=
  let m1 := (m.zeroings.filter fun (z : MZeroing) => decide (z.land ≤ now)).foldl (fun (m : Matrix) (z : MZeroing) => m.zeroTile z.tile) m
  { m1 with zeroings := m1.zeroings.filter fun (z : MZeroing) => decide (now < z.land) }

/-- Loads land (R234). -/
def Core.cycleLoads (c : Core) (now : Nat) : Core :=
  let c1 := (c.matrix.loads.filter fun (l : MLoad) => decide (l.land ≤ now)).foldl Core.landLoad c
  { c1 with matrix := { c1.matrix with loads := c1.matrix.loads.filter fun (l : MLoad) => decide (now < l.land) } }

/-- The packets of rows of A, and their scale packets, leave their ports (R58). -/
def Core.popRows (c : Core) (rows : List MRow) : Core :=
  let pop (c : Core) (p : Option Nat) : Core := match p with
    | some p => c.modPort p Port.pop
    | none => c
  rows.foldl (fun (c : Core) (r : MRow) => pop (pop c r.aport) r.sport) c

/-- The ports of the rows popped in this cycle lose their packets (R58). -/
def Core.cyclePops (c : Core) (now : Nat) : Core := c.popRows (c.matrix.rows.filter fun (r : MRow) => decide (r.pop = now))

/-- The array's work of one cycle: drains read what stood before the cycle's row writes, rows are written, rows
due in the next cycle read their accumulator elements, tiles are zeroed, loads land, and the ports of rows
popped in this cycle lose their packets. -/
def Core.matrixCycle (c : Core) (now : Nat) : Core :=
  if c.matrix.rows = [] ∧ c.matrix.drains = [] ∧ c.matrix.loads = [] ∧ c.matrix.zeroings = [] then c
  else
    let c1 := (c.cycleDrainReads now).cycleDrainWrites now
    let c2 := { c1 with matrix := (c1.matrix.cycleRows now).cycleZeroings now }
    (c2.cycleLoads now).cyclePops now

/-- Whether every issued word has completed (R242). -/
def Matrix.quiet (m : Matrix) : Bool :=
  decide (m.rows = []) && decide (m.drains = []) && decide (m.loads = []) && decide (m.zeroings = [])

/-- The accumulator row with a poisoned element that is read in this cycle (R244, R448): a drain reads what stood before
the cycle's row writes, an MMA what stands after them (R233). -/
def Matrix.accTrigger (m : Matrix) (now : Nat) : Option (Nat × Nat) :=
  if m.accPoison = [] || !(m.run.any fun (r : MRun) => !r.trapped) then none
  else
    let after := (m.rows.filter fun (r : MRow) => decide (r.land ≤ now)).foldl Matrix.landRow m
    ((m.drains.find? fun (d : MDrain) => decide (d.nread < 32) && decide (d.start + d.nread ≤ now) &&
        (List.range 32).any fun c => m.accPoison.has (accKey d.tile d.nread c)).map fun (d : MDrain) => (d.tile, d.nread)) <|>
      (m.rows.find? fun (r : MRow) => decide (r.land = now + 1) && r.result.isNone && after.readsPoison r).map fun (r : MRow) => (r.tile, r.row)

/-- The poisoned load row of a weight bank that a row of an MMA reads in this cycle: row m of an MMA issued in cycle t reads
load row r in cycle t + m + r, or t + 4m + r (R237). -/
def Matrix.bankTrigger (m : Matrix) (now : Nat) : Option (Nat × Nat) :=
  if (m.banks.toList.all fun (b : Bank) => decide (b.poison = [])) || !(m.run.any fun (r : MRun) => !r.trapped) then none
  else
    m.rows.findSome? fun (q : MRow) =>
      ((m.bank q.bank).poison.find? fun (r : Nat) => decide (q.land + r = now + 39)).map fun (r : Nat) => (q.bank, r)

/-- The poisoned word that a row popped in this cycle reads: its row of A or its scale packet, or load row 0 of its bank
(R237, R244, R448). -/
def Matrix.popTrigger (m : Matrix) (now : Nat) : Option ReplaySite :=
  if !(m.run.any fun (r : MRun) => !r.trapped) then none
  else
    m.rows.findSome? fun (q : MRow) =>
      if q.pop ≠ now then none
      else if q.bad then some .packet
      else if (m.bank q.bank).poison.has 0 then some (.bank q.bank 0)
      else none

/-- A word in which an uncorrectable error is found is poisoned (R445, R446). -/
def Matrix.poisonSite (m : Matrix) : ReplaySite → Matrix
  | .bank b row => m.modBank b fun k => { k with poison := k.poison.add (row % 32) }
  | .acc tile row => { m with accPoison := (List.range 32).foldl (fun (p : NatSet) c => p.add (accKey tile row c)) m.accPoison }
  | .packet => m

/-- A table that has ended is over once every issued word has completed (R153, R242). -/
def Matrix.reap (m : Matrix) : Matrix :=
  match m.run with
  | some r => if r.ended && !r.treadle && !r.trapped && m.quiet && m.replay.isNone then { m with run := none } else m
  | none => m

/-! ### Replay (R243, R244, R326, R451) -/

/-- The command that a replay re-issues now. -/
def Matrix.replaying (m : Matrix) : Option WCmd := (m.replay.bind fun r => r.cmds.head?).map (·.2)

/-- A window that may be replayed (R243, R451). -/
def Matrix.replayable (m : Matrix) : Bool :=
  match m.window with
  | some w => !w.overflow && !w.replayed && decide (w.unopened = []) && m.replay.isNone && decide (w.cmds ≠ [])
  | none => false

/-- The smallest multiple of a beat period that is at least n (R326). -/
def beatShift (bp n : Nat) : Nat := if bp = 0 then n else ceilDiv n bp * bp

def isMswap (w : BitVec 32) : Bool := decide (fld w.toNat 31 26 = 0x02)

def Window.owns (w : Window) (cmd : Nat) : Bool := w.cmds.any fun (k : WCmd) => decide (k.cmd = cmd)

/-- ACT as it was at the window's marker. -/
def Window.markerAct (w : Window) (act : BitVec 1) : BitVec 1 :=
  if (w.cmds.filter fun (k : WCmd) => isMswap k.word).length % 2 = 1 then ~~~act else act

/-- The packets of the window's rows that are still to be popped in cycle x leave their ports: the window holds them. -/
def Core.popWindow (c : Core) (w : Window) (x : Nat) : Core :=
  c.popRows (c.matrix.rows.filter fun (q : MRow) => decide (x ≤ q.pop) && w.owns q.cmd)

/-- The rows that remain where the window's commands are taken back in cycle x: those of earlier commands still to be popped. -/
def Matrix.otherRows (m : Matrix) (w : Window) (x : Nat) : List MRow :=
  m.rows.filter fun (q : MRow) => decide (x ≤ q.pop) && !w.owns q.cmd

/-- The flags of commands that complete later: not those of the window's commands, nor those of earlier ones whose rows are all
discarded. -/
def Matrix.otherFlags (m : Matrix) (w : Window) (rows : List MRow) : FMap Nat :=
  let has (l : List MRow) (cmd : Nat) : Bool := l.any fun (q : MRow) => decide (q.cmd = cmd)
  m.pendFlags.filter fun p => !w.owns p.1 && (has rows p.1 || !has m.rows p.1)

/-- The last cycle that a row still to be popped keeps its bank in use (R109). -/
def MRow.holds (q : MRow) : Nat := q.pop + rowStride q.fw + 31

/-- A command of the window as a replay in cycle x takes it: the packets of its rows popped up to x come from the replay buffer,
the others stay in their ports (R244, R451). -/
def WCmd.replayed (k : WCmd) (rows : List MRow) (x : Nat) : WCmd :=
  { k with popped := k.apkts.length - (rows.filter fun (q : MRow) => decide (q.cmd = k.cmd) && decide (x < q.pop)).length }

/-- Starts a replay for a trigger in cycle x (R244, R326): the rows in the array are discarded, and those of a command before the
window that are still to be popped stay to come; ACT is what it was at the marker, and what the window's commands read and
write counts as incomplete until it is done again. In a treadle run the slots tested so far are not tested again. -/
def Core.startReplay (c0 : Core) (x : Nat) : Core :=
  match c0.matrix.window, c0.matrix.run with
  | some w, some r =>
    let c := c0.cyclePops x
    let m := c.matrix
    let first := (w.cmds.head?.map (·.issued)).getD x
    let gap := x + 4 - first
    let delta := if r.treadle then beatShift c.treadle.bp gap else gap
    let m1 := w.opened.foldl Matrix.zeroTile m
    let drains := m.drains.filter fun d => !w.owns d.cmd
    let loads := m.loads.filter fun l => !w.owns l.cmd
    let rows := m.otherRows w (x + 1)
    let cmds := w.cmds.map fun k => k.replayed m.rows x
    let busy (n : Nat) : Nat := (rows.filter fun q => decide (q.bank % 2 = n)).foldl (fun a q => max a q.holds) 0
    { c with
      rc := c.rc.map fun (e : RcEntry) => if e.source = 0 ∧ w.owns e.cmd = true then { e with complete := false } else e
      matrix :=
        { m1 with
          rows, drains, loads
          act := w.markerAct m1.act
          zeroings := m.zeroings.filter fun z => !w.opened.has z.tile
          pendFlags := m.otherFlags w rows
          banks := Vector.ofFn fun (i : Fin 2) => { m1.banks[i] with busyTo := busy i.val }
          aFree := rows.foldl (fun a q => max a (q.pop + rowStride q.fw)) x
          wlFree := loads.foldl (fun a l => max a (l.land - 1)) x
          drFree := drains.foldl (fun a d => max a (d.start + 32)) x
          t0 := if r.exposed then m.t0 + delta else m.t0
          run := some { r with seg := r.seg.map fun g => { g with checked := false } }
          window := some { w with replayed := true }
          replay := some ⟨cmds.map fun k => (if r.exposed then k.issued + delta else x + 4, k)⟩ }
      treadle := if r.treadle then { c.treadle with slot := c.treadle.slot + delta } else c.treadle }
  | _, _ => c0

/-! ### Issue of matrix words (R65, R72, R108, R113, R231, R243) -/

/-- The number of the command that the word is. -/
def Matrix.number (m : Matrix) : Nat := match m.replaying with
  | some c => c.cmd
  | none => m.cmds

def Matrix.exposed (m : Matrix) : Bool := (m.run.map (·.exposed)).getD false
def Matrix.treadleRun (m : Matrix) : Bool := (m.run.map (·.treadle)).getD false

/-- A form outside the matrix stream is ILLEGAL_ENCODING; the first word of a treadle table is MTREADLE (R45,
R242). -/
def onMatrix (s : State) (k : Out) : Out :=
  check (decide (s.cur.stream = .matrix) && s.mx.run.isSome) causeEncoding s <|
    check (!(s.mx.replaying.isNone && (s.mx.run.any fun r => r.treadle && decide (r.pc = r.header + 4)))) causeOperand s k

/-- Whether this cycle is a slot start of a treadle run: it has none before its MTREADLE has issued (R317). -/
def State.slotStart (s : State) : Bool :=
  let m := s.mx
  (m.run.any fun r => r.treadle && r.started) && decide (m.t0 < s.pcc) && decide (0 < s.here.treadle.bp) && decide ((s.pcc - m.t0) % s.here.treadle.bp = 0)

/-- The body words of a treadle table up to its MTEND, literals left out, and whether it has an MTEND (R313). -/
def State.treadleBody (s : State) (header : Word) (length : Nat) : List (BitVec 32) × Bool :=
  let ws := ((List.range (length - 1)).filter fun n => !s.isLiteral false header (n + 1)).map fun n =>
    s.wordAt (header + 8 + BitVec.ofNat 64 (4 * n))
  let isEnd (w : BitVec 32) : Bool := decide (fld w.toNat 31 26 = 0x0A)
  (ws.takeWhile fun w => !isEnd w, ws.any isEnd)

def isMma (w : BitVec 32) : Bool := decide (fld w.toNat 31 26 = 0x03)
def isPortDrain (w : BitVec 32) : Bool := decide (fld w.toNat 31 26 = 0x05) && decide (fld w.toNat 22 22 = 0)

/-- The words of beat k: its MMA, then those up to the next MMA; beat 0 also has those before the first (R321). -/
def beatWords (body : List (BitVec 32)) (ends : Bool) (k : Nat) : Option (BitVec 32 × List (BitVec 32)) :=
  let count := (body.filter isMma).length
  if count = 0 || (ends && decide (k ≥ count)) then none
  else
    let before := body.takeWhile fun w => !isMma w
    let rec skip : Nat → List (BitVec 32) → List (BitVec 32)
      | 0, l => l.dropWhile fun w => !isMma w
      | n + 1, l => skip n ((l.dropWhile fun w => !isMma w).drop 1)
    match skip (k % count) body with
    | [] => none
    | w :: rest =>
      let after := rest.takeWhile fun w => !isMma w
      let wrapped := if (rest.any isMma) || ends then after else after ++ before
      some (w, (if k = 0 then before else []) ++ wrapped)

/-- Ends a treadle run's issue (R324). -/
def State.endRun (s : State) (reason : Nat) : State :=
  (s.modTd fun t => t.toState reason 4).modMx fun m => { m with run := m.run.map fun r => { r with ended := true, seg := none } }

/-- Whether the oldest packet of a beat's APORT is an end mark: every mask bit is clear (R323, R324). -/
def State.endMark (s : State) (port : Nat) : Bool :=
  (((s.here.port port).packets.filter fun k => decide (k.seen ≤ s.pcc)).head?).any fun k => decide (k.mask = 0)

/-- The end mark is popped and the run ends (R324). -/
def State.takeEndMark (s : State) (port : Nat) : State := (s.modHere fun c => c.modPort port Port.pop).endRun 3

/-- The APORT of the run's next beat: where its MMA stands in the table is known before the stream reaches it (R319). -/
def State.nextAport (s : State) : Option Nat :=
  match s.mx.run with
  | none => none
  | some r =>
    let (body, ends) := s.treadleBody r.header r.length
    (beatWords body ends s.here.treadle.beats).map fun b => fld b.1.toNat 22 19

/-- A slot start of a treadle run that finds a word still waiting for its path: the end-mark test comes first, then SCHEDULE_MISS
(R318, R319). -/
def slotHeld (s : State) : Out :=
  if s.nextAport.any s.endMark then .next (s.takeEndMark (s.nextAport.getD 0)) else trap s causeMiss

/-- A word whose path is held waits; in a treadle run it may not wait past a slot start (R108, R318). -/
def pathWait (s : State) : Out :=
  if s.mx.replaying.isNone && s.slotStart then slotHeld s
  else .next (s.modMx fun m => { m with run := m.run.map fun q => { q with pathHeld := true } })

/-- Whether the word has waited for its path up to a slot start: even if the path is free now, it has not issued by the slot
start (R318). -/
def State.heldOver (s : State) : Bool := s.mx.replaying.isNone && s.slotStart && s.mx.run.any (·.pathHeld)

/-- A word whose path is free and that waits for room has no wait for its path any more (R318). -/
def State.pathFreed (s : State) : State := s.modMx fun m => { m with run := m.run.map fun q => { q with pathHeld := false } }

/-- A shortfall at issue: SCHEDULE_MISS in an exposed table, a wait in an interlocked one (R231). -/
def orMiss (ok : Bool) (s : State) (k : Out) : Out :=
  if ok then k else if s.mx.exposed then trap s causeMiss else .next s

/-- The FQ head: the retained word in a replay (R244). -/
def withFq (s : State) (reserved : Out) (k : Word → Out) : Out :=
  match s.mx.replaying with
  | some c => k (c.fw.getD 0)
  | none =>
    match s.mx.fq with
    | [] => trap s causeFormatQueue
    | e :: _ => if e.fill ≤ s.pcc then k e.word else reserved

/-- A pop-time check (R231): the popped word goes into the record. -/
def checkPop (ok : Bool) (cause : Nat) (addr : Word) (fw : Word) (s : State) (k : Out) : Out :=
  if ok then k else trapWith s { cause, addr, aux := fw }

/-- What a word leaves to a window (R243): the format word and packets popped, their bytes, whether it opens a
window, and the tiles it opens or accumulates into. -/
structure Retained where
  fw : Option Word := none
  apkts : List Packet := []
  spkts : List Packet := []
  bytes : Nat := 0
  marks : Bool := false
  opens : List Nat := []
  adds : List Nat := []
  deriving DecidableEq, Repr

/-- Adds a command to a window (R243). -/
def Window.add (w : Window) (c : WCmd) (r : Retained) : Window :=
  let bytes := w.bytes + r.bytes
  let unopened := (r.adds.filter fun t => !w.opened.has t).foldl NatSet.add w.unopened
  let opened := (r.opens.filter fun t => !w.unopened.has t).foldl NatSet.add w.opened
  if w.overflow || decide (w.cmds.length ≥ 64) || decide (bytes > 65536) then { w with overflow := true, opened, unopened }
  else { w with cmds := w.cmds ++ [c], bytes, opened, unopened }

/-- The observed count of a segment, less the missed slots of a treadle run (R113, R328). -/
def State.segPasses (s : State) (g : Seg) : Bool :=
  let t := s.here.treadle
  let missed := if s.mx.treadleRun then t.bp * (t.missed - t.segMissed) else 0
  !g.checked || (decide (s.pcc - g.t0 - missed = g.cycles) && decide (~~~g.crc = g.literal))

/-- The word's text: the retained one in a replay, else the one at the pc. -/
def State.mWord (s : State) : BitVec 32 := match s.mx.replaying with
  | some c => c.word
  | none => s.wordAt s.curPc

/-- A stamped MMA (R238). -/
def isStamped (w : BitVec 32) : Bool := decide (fld w.toNat 31 26 = 0x03) && w.toNat.testBit 7

/-- The cycles from the resumption of a pre-empted stream to its first issue, which T0 still has to rise by (R406). A stamped MMA issues
at its stamp: until it is decoded T0 has risen (DEDUCED, log 38). -/
def Matrix.stoodFor (m : Matrix) (stamped : Bool) (now : Nat) : Nat :=
  if stamped then 0 else ((m.run.bind (·.resumed)).map fun q => now - q).getD 0

/-- A matrix word issues: the window retains it, the stream goes on at the next word, and the segment takes the
word (R111, R114, R243). In a replay the next retained command follows. -/
def State.mAdvance (s : State) (r : Retained) (step : Nat) (taken : Bool) : State :=
  let m := s.mx
  let w := s.mWord
  let segOf (g : Option Seg) : Option Seg := if taken then g.map (·.take w) else g
  match m.replay with
  | some p =>
    let rest := p.cmds.drop 1
    s.modMx fun m =>
      { m with
        replay := if rest = [] then none else some ⟨rest⟩
        nextIssue := s.pcc + 1
        run := m.run.map fun q => { q with seg := segOf q.seg } }
  | none =>
    let c : WCmd := { cmd := m.cmds, word := w, pc := s.curPc, issued := s.pcc, fw := r.fw, apkts := r.apkts, spkts := r.spkts, pushed := 0,
                       popped := 0, missed := s.here.treadle.missed }
    s.modMx fun m =>
      { m with
        cmds := m.cmds + 1
        fq := if r.fw.isSome then m.fq.drop 1 else m.fq
        nextIssue := s.pcc + 1
        t0 := if m.run.any (·.started) then m.t0 + m.stoodFor (isStamped w) s.pcc else s.pcc
        window := if r.marks then some (({ cmds := [], bytes := 0, overflow := false, replayed := false, opened := [], unopened := [] } : Window).add c r)
          else m.window.map fun w => w.add c r
        run := m.run.map fun q =>
          { q with pc := q.pc + BitVec.ofNat 64 step, started := true, seg := segOf q.seg, ea := none, pathHeld := false, resumed := none } }

/-- The first body word of a treadle table after a wrap closes an open segment (R328). -/
def Matrix.wrapCloses (m : Matrix) : Bool :=
  m.run.any fun r => r.treadle && decide (r.pc = r.header + 8) && r.seg.isSome

/-- Issues a word: a closing word is checked first (R113); a failed check replays where the window opened after
the segment's header and may be replayed, and traps otherwise (R244). -/
def mIssue (r : Retained) (closes : Bool) (step : Nat) (s : State) (f : State → State) : Out :=
  let m := s.mx
  let go (s : State) (taken : Bool) : Out := .next ((f s).mAdvance r step taken)
  if m.replaying.isSome then go s true
  else
    match m.run.bind (·.seg), closes || m.wrapCloses with
    | some g, true =>
      if s.segPasses g then
        go (s.modMx fun m => { m with run := m.run.map fun q => { q with seg := none } }) (!closes)
      else
        let opened := (m.window.bind fun w => w.cmds.head?).any fun c => decide (g.t0 < c.issued)
        if opened && m.replayable then
          .next ((s.modHere fun c => c.startReplay s.pcc).checkFailure causeSegment 1)
        else trap s causeSegment
    | _, _ => go s true

/-! ### Scratchpad ranges (R116, R117, R234) -/

/-- An entry's place in the order of entries: by its cycle, and in one cycle the matrix stream, then the channels; the second
entry of a program follows its first (R116). -/
def rangeOrder (now place : Nat) : Nat := 16 * now + place

/-- An entry of the range checker for a command of the matrix stream, made at decode: a maximal length, cut at
2^19; none where the checker is full. -/
def Core.enter (c : Core) (isWrite : Bool) (ea len cmd now : Nat) : Option Core :=
  if c.rc.any fun e => decide (e.source = 0) && decide (e.cmd = cmd) then some c
  else if ea ≥ pow2 19 then some c
  else if c.rc.length ≥ 32 then none
  else some { c with rc := c.rc ++ [⟨rangeOrder now 0, isWrite, ea, min len (pow2 19 - ea), 0, cmd, false⟩] }

/-- Whether two entries conflict (R117). -/
def RcEntry.conflicts (a b : RcEntry) : Bool :=
  (a.isWrite || b.isWrite) && decide (a.first < b.first + b.length) && decide (b.first < a.first + a.length)

/-- Whether an older entry that conflicts with a command's entries remains (R117). -/
def Core.rangeBlocked (c : Core) (source cmd : Nat) : Bool :=
  (c.rc.filter fun e => decide (e.source = source) && decide (e.cmd = cmd)).any fun e =>
    c.rc.any fun o => decide (o.order < e.order) && !(decide (o.source = source) && decide (o.cmd = cmd)) && e.conflicts o

/-- The address of an MLDW or MDRAIN: read at decode, so that a waiting word and one in a replay keep it (R234, R239). -/
def State.mAddress (s : State) (j : BitVec 4) (o : BitVec 13) : Word :=
  match s.here.rc.find? fun e => decide (e.source = 0) && decide (e.cmd = s.mx.number) with
  | some e => BitVec.ofNat 64 e.first
  | none => (s.mx.run.bind (·.ea)).getD (s.here.j[j.toNat] + BitVec.ofNat 64 (16 * o.toNat))

/-- Keeps the address that the word at the pc has read at decode. -/
def State.keepAddress (s : State) (ea : Word) : State :=
  if s.mx.replaying.isSome then s else s.modMx fun m => { m with run := m.run.map fun q => { q with ea := some ea } }

/-- A scratchpad command: ALIGNMENT, its range entry, its path, and older conflicting entries. -/
def withRange (ea : Word) (isWrite : Bool) (len : Nat) (free : Nat) (s0 : State) (k : State → Out) : Out :=
  if ea.toNat % 16 ≠ 0 then trapWith s0 { cause := causeAlignment, addr := ea }
  else
    let s := s0.keepAddress ea
    match s.here.enter isWrite ea.toNat len s.mx.number s.pcc with
    | none => pathWait s
    | some c =>
      let s1 := s.setCore s.cur.core c
      if s.pcc < free || c.rangeBlocked 0 s.mx.number || s.heldOver then pathWait s1 else k s1

/-! ### MLDW, MSWAP (R234, R235) -/

def execMldw (b : BitVec 1) (j : BitVec 4) (o : BitVec 13) (s : State) : Out :=
  onMatrix s <|
    let ea := s.mAddress j o
    withRange ea false 2112 s.mx.wlFree s fun s =>
      let m := s.mx
      withFq s (orMiss false s (.next s)) fun fw =>
        orMiss (decide ((m.bank b.toNat).busyTo < s.pcc)) s <|
          checkPop (s.here.inReservation ea (loadBytes (fwB fw)) && decide (ea.toNat + loadBytes (fwB fw) ≤ pow2 19)) causeProtection ea fw s <|
            mIssue { fw := some fw } false 4 s fun s => s.modMx fun m =>
              let m1 := m.modBank b.toNat fun k => { k with usable := s.pcc + 35 }
              { m1 with
                wlFree := s.pcc + 33
                loads := m1.loads ++ [⟨s.pcc + 34, b.toNat, BitVec.ofNat 2 (fwB fw), ea.toNat, m.number⟩] }

def execMswap (s : State) : Out :=
  onMatrix s <| mIssue {} false 4 s fun s => s.modMx fun m => { m with act := ~~~m.act }

/-! ### MMA (R236, R237) -/

/-- Whether a poisoned byte stands among the live ones of a packet's first bytes (R448): a byte with a clear mask bit is not used
(R237). -/
def Packet.poisonIn (p : Packet) (n : Nat) : Bool :=
  (List.range 32).any fun g =>
    p.poison.toNat.testBit g && decide (p.mask.toNat % pow2 (min n 1024) / pow2 (32 * g) % pow2 32 ≠ 0)

/-- The rows of an MMA that issues now (R109, R237); the packets of a retained command's first rows have left their ports
(R451). -/
def mmaRows (s : State) (tile aport sport n : Nat) (t : Bool) (fw : Word) (ap sp : List Packet) : List MRow :=
  let stride := rowStride fw
  (List.range n).map fun i =>
    let a := (ap[i]?).getD ⟨0, 0, 0, 0⟩
    let c := (sp[i]?).getD ⟨0, 0, 0, 0⟩
    let sa : Int := match fwAsm fw with
      | 0 => 0
      | 1 => fwCscale fw
      | _ => sextNat ((maskedBytes c.bytes c.mask).toNat % pow2 16) 16
    let live := decide (((s.mx.replaying.map (·.popped)).getD 0) ≤ i)
    { cmd := s.mx.number, pop := s.pcc + stride * i, aport := if live then some aport else none,
      sport := if live && decide (fwAsm fw = 2) then some sport else none,
      land := s.pcc + stride * i + 39, bank := s.mx.act.toNat, fw, tile, row := i, t, a := maskedBytes a.bytes a.mask, sa,
      bad := a.poisonIn (aRowBytes t fw) || (decide (fwAsm fw = 2) && c.poisonIn 2), last := decide (i + 1 = n), result := none }

/-- The effect of an MMA: rows in the array, the A path held, the bank in use (R109, R235). -/
def mmaStart (tile aport sport n : Nat) (t : Bool) (fw : Word) (ap sp : List Packet) (s : State) : State :=
  let rows := mmaRows s tile aport sport n t fw ap sp
  let o := rowStride fw * n
  let bank := s.mx.act.toNat
  s.modMx fun m =>
    let m1 := m.modBank bank fun b => { b with busyTo := s.pcc + o + 31 }
    { m1 with rows := m1.rows ++ rows, aFree := s.pcc + o }

/-- The pop-time checks of an MMA, each ILLEGAL_OPERAND (R236, R313). -/
def mmaPopOk (s : State) (t : BitVec 3) (a sp : BitVec 4) (n : Nat) (x : Bool) (fw : Word) : Bool :=
  let b := s.mx.bank s.mx.act.toNat
  decide (fwB fw = b.tag.toNat) && !(x && decide (fwB fw ≥ 2) && decide (t.toNat % 2 = 1)) &&
    (decide (fwAsm fw ≠ 2) || (s.here.port sp.toNat).serves 8) &&
    decide (aRowBytes x fw ≤ (s.here.port a.toNat).bytesPer) &&
    (!s.mx.treadleRun || decide (rowStride fw * n ≤ s.here.treadle.bp))

/-- What an MMA leaves to the window (R243). -/
def mmaRetained (s : State) (t : BitVec 3) (a sp : BitVec 4) (x : Bool) (mark : Bool) (fw : Word) (ap sps : List Packet) : Retained :=
  let tiles := mmaTiles t.toNat x (fwB fw)
  { fw := some fw, apkts := ap, spkts := sps
    bytes := ap.length * (s.here.port a.toNat).bytesPer + sps.length * (s.here.port sp.toNat).bytesPer
    marks := mark, opens := if fwAcc fw then [] else tiles, adds := if fwAcc fw then tiles else [] }

/-- The packets of an MMA: the oldest of its ports, or the retained ones in a replay. -/
def mmaPackets (s : State) (a sp : BitVec 4) (n : Nat) (fw : Word) : List Packet × List Packet :=
  match s.mx.replaying with
  | some c => (c.apkts, c.spkts)
  | none => ((s.here.port a.toNat).packets.take n, if fwAsm fw = 2 then (s.here.port sp.toNat).packets.take n else [])

/-- An MMA issues with its format word. -/
def mmaIssue (t : BitVec 3) (a sp : BitVec 4) (n : Nat) (x mark : Bool) (fw : Word) (extra : State → State) (s : State) : Out :=
  let (ap, sps) := mmaPackets s a sp n fw
  mIssue (mmaRetained s t a sp x mark fw ap sps) false 4 s fun s =>
    extra (mmaStart t.toNat a.toNat sp.toNat n x fw ap sps s)

/-- Whether the ports hold the packets of an MMA (R236). -/
def mmaFed (s : State) (a sp : BitVec 4) (n : Nat) (fw : Word) : Bool :=
  decide (n ≤ (s.here.port a.toNat).held s.pcc) &&
    (decide (fwAsm fw ≠ 2) || decide (n ≤ (s.here.port sp.toNat).held s.pcc))

/-- Whether rows or zeroings into a tile are still to land (R233). -/
def Matrix.tilePending (m : Matrix) (tiles : List Nat) : Bool :=
  (m.rows.any fun r => (mmaTiles r.tile r.t (fwB r.fw)).any tiles.contains) || m.zeroings.any fun z => tiles.contains z.tile

/-- The beat of a treadle run (R317, R319, R324): issued at a slot start where everything stands ready, else left for
the slot's count of a miss. -/
def mmaBeat (t : BitVec 3) (a sp : BitVec 4) (n : Nat) (x mark : Bool) (s : State) : Out :=
  let td := s.here.treadle
  if td.nb ≠ 0 && decide (td.beats = td.nb) then .next (s.endRun 1)
  else if !s.slotStart || decide (s.pcc ≤ td.slot) then .next s
  else if s.endMark a.toNat then .next (s.takeEndMark a.toNat)
  else beat td
where
  beat (td : Treadle) : Out :=
    withFq s (.next s) fun fw =>
      if !mmaFed s a sp n fw then .next s
      else
        check (decide ((s.mx.bank s.mx.act.toNat).usable ≤ s.pcc) && decide (s.mx.aFree ≤ s.pcc)) causeMiss s <|
          checkPop (mmaPopOk s t a sp n x fw) causeOperand 0 fw s <|
            mmaIssue t a sp n x mark fw (fun s => s.modTd fun q =>
              { (q.toState 0 2) with
                tbeat := q.tbeat + 1, beats := q.beats + 1, slot := s.pcc
                tstate := BitVec.ofNat 32 (q.tstate.toNat / 8 % 2 * 8 + 2)
                raiseTo := td.beats + td.look + 1 }) s

/-- A stamped MMA takes the stamp (R238). -/
def useStamp (stamped : Bool) (s : State) : State := if stamped then s.modMx fun m => { m with stamp := none } else s

def execMma (t : BitVec 3) (a sp : BitVec 4) (m : BitVec 5) (x k p : BitVec 1) (s : State) : Out :=
  let n := m.toNat + 1
  let trans := decide (x = 1)
  let mark := decide (k = 1)
  let stamped := decide (p = 1)
  onMatrix s <|
    match s.mx.replaying with
    | some c =>
      if s.pcc < s.mx.aFree then .next s
      else
        let fw := c.fw.getD 0
        orMiss (decide ((s.mx.bank s.mx.act.toNat).usable ≤ s.pcc)) s <|
          if !s.mx.exposed && fwAcc fw && s.mx.tilePending (mmaTiles t.toNat trans (fwB fw)) then .next s
          else mmaIssue t a sp n trans mark fw (useStamp stamped) s
    | none =>
      check (!(stamped && (!s.mx.exposed || s.mx.treadleRun))) causeEncoding s <|
        check ((s.here.port a.toNat).serves 7 && decide (n ≤ (s.here.port a.toNat).capacity) &&
            !(stamped && s.mx.stamp.isNone) && (!s.mx.treadleRun || decide (n = s.here.treadle.rpb))) causeOperand s <|
          if s.mx.treadleRun then mmaBeat t a sp n trans mark s
          else if s.pcc < s.mx.aFree then .next s
          else
            let tau := s.mx.t0 + s.mx.stamp.getD 0
            check (!(stamped && decide (tau < s.pcc))) causeMiss s <|
              if stamped && decide (s.pcc < tau) then .next s
              else
                withFq s (orMiss false s (.next s)) fun fw =>
                  orMiss (mmaFed s a sp n fw && decide ((s.mx.bank s.mx.act.toNat).usable ≤ s.pcc)) s <|
                    if !s.mx.exposed && fwAcc fw && s.mx.tilePending (mmaTiles t.toNat trans (fwB fw)) then .next s
                    else
                      checkPop (mmaPopOk s t a sp n trans fw) causeOperand 0 fw s <|
                        mmaIssue t a sp n trans mark fw (useStamp stamped) s

/-! ### MSTAMP (R112, R238) -/

def execMstamp (d : BitVec 24) (s : State) : Out :=
  onMatrix s <| check (s.mx.exposed && !s.mx.treadleRun) causeEncoding s <|
    mIssue {} false 4 s fun s => s.modMx fun m => { m with stamp := some d.toNat }

/-! ### MDRAIN (R239) -/

/-- The drain starts (R109, R239). -/
def drainStart (tile : Nat) (fw : Word) (port : Option Nat) (ea skip : Nat) (s : State) : State :=
  s.modMx fun m =>
    { m with
      drFree := s.pcc + 32
      drains := m.drains ++ [{ cmd := m.number, start := s.pcc, tile, fw, port, ea, rows := [], nread := 0, written := 0, skip }] }

def execMdrainPort (t : BitVec 3) (p : BitVec 4) (s : State) : Out :=
  let port := p.toNat
  onMatrix s <|
    let replay := s.mx.replaying
    check (replay.isSome || (s.here.port port).feeds 7) causeOperand s <|
      if s.pcc < s.mx.drFree || s.heldOver then pathWait s
      else
        withFq s (orMiss false s (.next s)) fun fw =>
          let room := replay.isSome || decide (32 ≤ (s.here.port port).free)
          if !room && s.mx.treadleRun then .next s.pathFreed
          else
            orMiss room s <|
              if !s.mx.exposed && s.mx.tilePending [t.toNat] then .next s
              else
                checkPop (decide (drainBytes (fwDfmt fw) ≤ (s.here.port port).bytesPer)) causeOperand 0 fw s <|
                  mIssue { fw := some fw } false 4 s fun s =>
                    let s1 := if replay.isSome then s else s.modHere fun c => c.modPort port fun q => { q with reserved := q.reserved + 32 }
                    drainStart t.toNat fw (some port) 0 ((replay.map (·.pushed)).getD 0) s1

def execMdrainSpm (t : BitVec 3) (j : BitVec 4) (o : BitVec 13) (s : State) : Out :=
  onMatrix s <|
    let ea := s.mAddress j o
    withRange ea true 4096 s.mx.drFree s fun s =>
      withFq s (orMiss false s (.next s)) fun fw =>
        if !s.mx.exposed && s.mx.tilePending [t.toNat] then .next s
        else
          let len := 32 * drainBytes (fwDfmt fw)
          checkPop (s.here.inReservation ea len && decide (ea.toNat + len ≤ pow2 19)) causeProtection ea fw s <|
            mIssue { fw := some fw } false 4 s (drainStart t.toNat fw none ea.toNat 0)

/-! ### MZERO, MFLAGS, MNOP, MMARK (R241, R243) -/

def execMzero (t : BitVec 3) (s : State) : Out :=
  onMatrix s <|
    if !s.mx.exposed && s.mx.tilePending [t.toNat] then .next s
    else mIssue { opens := [t.toNat] } false 4 s fun s => s.modMx fun m => { m with zeroings := m.zeroings ++ [⟨s.pcc + 1, t.toNat⟩] }

def execMflags (mask : BitVec 9) (s : State) : Out :=
  onMatrix s <|
    if !s.mx.exposed && !s.mx.quiet then .next s
    else mIssue {} false 4 s fun s => s.modMx fun m => { m with mflags := m.mflags &&& ~~~(mask.setWidth 32) }

def execMnop (s : State) : Out := onMatrix s <| mIssue {} false 4 s id

def execMmark (s : State) : Out := onMatrix s <| mIssue { marks := true } false 4 s id

/-! ### MSEG, MTEND (R113, R242) -/

def execMseg (c : BitVec 20) (s : State) : Out :=
  onMatrix s <| check s.mx.exposed causeEncoding s <|
    let pc := match s.mx.replaying with
      | some k => k.pc
      | none => s.curPc
    let t := s.pcc
    withLiteral (pc + 4) s fun lit s => match mIssue {} true 8 s id with
    | .next s1 =>
      if s1.mx.run.any (·.trapped) || (s1.mx.replay.isSome && s.mx.replay.isNone) then .next s1
      else .next ((s1.modMx fun m => { m with run := m.run.map fun r => { r with seg := some (Seg.opened t c.toNat lit) } }).modTd
        fun q => { q with segMissed := ((s.mx.replaying.map (·.missed)).getD q.missed) })
    | r => r

def execMtend (s : State) : Out :=
  onMatrix s <| mIssue {} true 4 s fun s =>
    let s1 := s.modMx fun m => { m with window := none, run := m.run.map fun r => { r with ended := true, seg := none } }
    if s.mx.treadleRun then
      s1.modTd fun t =>
        { t.toState 2 4 with endAt := s.mx.t0 + ((s.pcc - s.mx.t0) / max 1 t.bp + 1) * t.bp }
    else s1

/-! ### Demands (R321-R323) -/

/-- A demand descriptor (R323). -/
def demandWord (kind pport role rows tile beat : Nat) : Word :=
  BitVec.ofNat 64 (kind % 16 * pow2 60 + pport % 16 * pow2 56 + role % 65536 * pow2 40 + rows % 32 * pow2 35 + tile % 8 * pow2 32 +
    beat % pow2 32)

/-- The demands of beat k, in the order of R321. -/
def State.beatDemands (s : State) (k : Nat) : List Demand :=
  let c := s.here
  match c.matrix.run with
  | none => []
  | some r =>
    let (body, ends) := s.treadleBody r.header r.length
    match beatWords body ends k with
    | none => []
    | some (w, rest) =>
      let asked (kind port tile : Nat) : List Demand :=
        let d := (c.port port).desc
        match s.coreOfRole c.job.launch (descRole d) with
        | some core => [⟨core, demandWord kind (descPport d) c.job.role.toNat (c.treadle.rpb - 1) tile k⟩]
        | none => []
      let bound (port : Nat) : Bool := decide ((c.port port).status ≠ .unbound)
      let ap := fld w.toNat 22 19
      let sp := fld w.toNat 18 15
      let tile := fld w.toNat 25 23
      (if bound ap && decide (descProd (c.port ap).desc = 5) then asked 0 ap tile else []) ++
        (if bound sp && decide (descCons (c.port sp).desc = 8) && decide (descProd (c.port sp).desc = 5) then asked 1 sp tile else []) ++
        ((rest.filter isPortDrain).flatMap fun x =>
          let p := fld x.toNat 21 18
          if bound p && decide (descProd (c.port p).desc = 7) && decide (descCons (c.port p).desc = 5) then asked 2 p (fld x.toNat 25 23) else [])

/-- Whether demands of the next beat are to be raised (R322). -/
def Treadle.due (t : Treadle) : Bool := decide (t.nextDemand < t.raiseTo) && (decide (t.nb = 0) || decide (t.nextDemand < t.nb))

/-- Whether the controller, which holds 32 demands of the run, has room; the end descriptors of an earlier run are no demands of
this one (R322, R325). -/
def Treadle.roomy (t : Treadle) : Bool :=
  decide ((t.waiting.filter fun (d : Demand) => decide (fld d.descr.toNat 63 60 ≠ 15)).length < 32)

/-- One demand of the next beat is raised: TDNEXT is then past that beat (R315). -/
def Treadle.raiseOne (t : Treadle) (d : Demand) : Treadle :=
  { t with waiting := t.waiting ++ [d], tdnext := BitVec.ofNat 32 (t.nextDemand + 1), part := t.part + 1 }

/-- The demands of the next beat have all been raised. -/
def Treadle.passBeat (t : Treadle) : Treadle :=
  { t with tdnext := BitVec.ofNat 32 (t.nextDemand + 1), nextDemand := t.nextDemand + 1, part := 0 }

/-- Raises the demands that are due, one after another, while the controller has room (R322). -/
def State.raiseDemands (s : State) : Nat → State
  | 0 => s
  | n + 1 =>
    let t := s.here.treadle
    if !t.due then s
    else
      match (s.beatDemands t.nextDemand).drop t.part with
      | [] => State.raiseDemands (s.modTd Treadle.passBeat) n
      | d :: _ => if t.roomy then State.raiseDemands (s.modTd fun t => t.raiseOne d) n else s

/-! ### MTREADLE (R242, R313, R322) -/

def execMtreadle (p : BitVec 1) (r : BitVec 5) (b : BitVec 8) (n : BitVec 12) (s : State) : Out :=
  check (decide (s.cur.stream = .matrix) && !s.here.job.compat &&
      (s.mx.run.any fun q => q.treadle && decide (q.pc = q.header + 4))) causeEncoding s <|
    check (decide (r.toNat ≤ b.toNat)) causeOperand s <|
      mIssue {} false 4 s fun s =>
        let s1 := s.modTd fun t =>
          { t with
            bp := b.toNat + 1, rpb := r.toNat + 1, nb := n.toNat, strict := decide (p = 1), slot := s.pcc
            raiseTo := t.look, tstate := BitVec.ofNat 32 (p.toNat * 8 + 1) }
        s1.raiseDemands 64

end Sys2Proof.Machine
end

