-- ==== Sys2Proof/Machine/Clicker.lean ====
section
/-! DEFINITION. The clicker channels (R116, R156, R245-R255, R488): CRUN, the words of a program, the copies and
the signals. -/

namespace Sys2Proof.Machine

/-- The channel of the step's stream. -/
def State.chanNo (s : State) : Nat := match s.cur.stream with
  | .chan n => n % 4
  | _ => 0

def State.ch (s : State) : Chan := s.here.chan s.chanNo
def State.modCh (s : State) (f : Chan → Chan) : State := s.modHere fun c => c.modChan s.chanNo f
def State.modRun (s : State) (f : CRun → CRun) : State := s.modCh fun ch => { ch with run := ch.run.map f }

/-- Base n of a channel. -/
def Chan.base (ch : Chan) (n : Nat) : Word := ch.b[n % 6]'(by omega)
def Chan.setBase (ch : Chan) (n : Nat) (v : Word) : Chan := { ch with b := ch.b.set (n % 6) v (by omega) }

/-! ### Loop levels (R248, R249) -/

/-- Changes a level; the levels up to it become active. -/
def setLevel : List CLevel → Nat → (CLevel → CLevel) → List CLevel
  | [], 0, f => [f ⟨1, 0, 0⟩]
  | x :: rest, 0, f => f x :: rest
  | [], n + 1, f => ⟨1, 0, 0⟩ :: setLevel [] n f
  | x :: rest, n + 1, f => x :: setLevel rest n f

/-- The iterations of a loop nest. -/
def iterations (ls : List CLevel) : Nat := ls.foldl (fun n l => n * l.count) 1

/-- The indices i0, i1, ... of an iteration, level 0 fastest (R249). -/
def indices : List CLevel → Nat → List Nat
  | [], _ => []
  | l :: rest, n => n % l.count :: indices rest (n / l.count)

/-- The source or destination offset of an iteration (R249). -/
def offsetOf (ls : List CLevel) (n : Nat) (stride : CLevel → Int) : Int :=
  (ls.zip (indices ls n)).foldl (fun (z : Int) (p : CLevel × Nat) => z + p.2 * stride p.1) 0

/-- Three indices, 21 bits each, as a fault record holds them (R395, R396). -/
def packIndices (ix : List Nat) (k : Nat) : Nat :=
  ix.getD k 0 % pow2 21 + ix.getD (k + 1) 0 % pow2 21 * pow2 21 + ix.getD (k + 2) 0 % pow2 21 * pow2 42

/-- The hull of every byte of every iteration (R116): its first byte and its length. -/
def hull (base : Word) (ls : List CLevel) (stride : CLevel → Int) (len : Nat) : Nat × Nat :=
  let low := ls.foldl (fun (z : Int) (l : CLevel) => z + min 0 (stride l * (l.count - 1 : Nat))) (base.toNat : Int)
  let high := ls.foldl (fun (z : Int) (l : CLevel) => z + max 0 (stride l * (l.count - 1 : Nat))) (base.toNat + len : Int)
  ((max low 0).toNat, max 1 (high - max low 0).toNat)

/-! ### The conversion literal (R251) -/

def litScale (l : BitVec 32) : Int := sextNat (fld l.toNat 31 16) 16
def litUfmin (l : BitVec 32) : Bool := l.toNat.testBit 11
def litLtype (l : BitVec 32) : Nat := fld l.toNat 10 8
def litLfmt (l : BitVec 32) : Nat := fld l.toNat 7 6
def litRm (l : BitVec 32) : Rm := Rm.ofCode (fld l.toNat 5 4)
def litMbzOk (l : BitVec 32) : Bool := decide (fld l.toNat 15 12 = 0) && decide (fld l.toNat 3 0 = 0)

/-- The linear format of an LTYPE. -/
def linearFmt (t : Nat) : Fmt :=
  match t with
  | 0 => .f32
  | 1 => .f16
  | 2 => .bf16
  | _ => .f64

def linearBytes (t : Nat) : Nat := (1 + (linearFmt t).ebits + (linearFmt t).fbits) / 8

/-- The bytes of a source element, at least 1. -/
def sourceBytes (conv : Nat) (l : BitVec 32) : Nat :=
  match conv with
  | 0 => 1
  | 1 => linearBytes (litLtype l)
  | _ => if litLfmt l = 0 then 2 else 1

/-- The bytes that a copy of len source bytes writes (R250, R251). -/
def resultBytes (conv : Nat) (l : BitVec 32) (len : Nat) : Nat :=
  match conv with
  | 0 => len
  | 1 => len / linearBytes (litLtype l) * (LFmt.ofCode (litLfmt l)).bits / 8
  | _ => 8 * len / (LFmt.ofCode (litLfmt l)).bits * linearBytes (litLtype l)

/-- Whole source elements, and an even number of L4 or L4X results (R251). -/
def wholeElements (conv : Nat) (l : BitVec 32) (len : Nat) : Bool :=
  decide (len % sourceBytes conv l = 0) &&
    (decide (conv ≠ 1) || decide (litLfmt l < 2) || decide (len / sourceBytes conv l % 2 = 0))

/-- The converted bytes of a copy (R26, R27, R30, R251). -/
def convert (conv : Nat) (l : BitVec 32) (len v : Nat) : Nat :=
  match conv with
  | 0 => v
  | 1 =>
    let f := linearFmt (litLtype l)
    let w := 8 * linearBytes (litLtype l)
    let x (i : Nat) : FVal := f.read (fld v (w * i + w - 1) (w * i))
    let n := len / linearBytes (litLtype l)
    if litLfmt l = 3 then
      assemble 8 (fun j => (logCode4x (x (2 * j)) (x (2 * j + 1)) (litScale l) (litUfmin l)).code) (n / 2)
    else
      let g := LFmt.ofCode (litLfmt l)
      assemble g.bits (fun i => (g.logCode (x i) (litScale l) (litUfmin l)).code) n
  | _ =>
    let f := linearFmt (litLtype l)
    assemble (8 * linearBytes (litLtype l))
      (fun i => ((lnsElement (litLfmt l) v i).1.toLinear f (litRm l) (litScale l)).bits)
      (8 * len / (LFmt.ofCode (litLfmt l)).bits)

/-! ### The words of a program (R245-R253) -/

/-- What reading a word of a program answers: the channel with the word read, or the cause of a trap. -/
abbrev CRead := Except Nat Chan

/-- A word that a program may hold only before its copy word (R245). -/
def Chan.before (ch : Chan) (k : CRun → CRead) : CRead :=
  match ch.run with
  | some r => if r.op.isNone then k r else .error causeEncoding
  | none => .error causeEncoding

/-- A word that a program may hold only after its copy word (R245). -/
def Chan.after (ch : Chan) (k : CRun → CRead) : CRead :=
  match ch.run with
  | some r => if r.op.isSome && !r.ended then k r else .error causeEncoding
  | none => .error causeEncoding

/-- The channel at the word so many bytes further on. -/
def Chan.goOn (ch : Chan) (r : CRun) (step : Nat) : Chan := { ch with run := some { r with pc := r.pc + BitVec.ofNat 64 step } }

/-- A CLEV word (R248). -/
def Chan.level (ch : Chan) (l : BitVec 3) (f : CRun → CLevel → CLevel) : CRead :=
  ch.before fun r =>
    if l.toNat < 6 then .ok (ch.goOn { r with levels := setLevel r.levels l.toNat (f r) } 4) else .error causeOperand

/-- A CBASE word (R248); j as CRUN read it (R67). -/
def Chan.loadBase (ch : Chan) (b : BitVec 3) (j : BitVec 4) (o : BitVec 19) : CRead :=
  ch.before fun r =>
    if b.toNat < 6 then .ok ((ch.setBase b.toNat (r.j[j.toNat] + o.signExtend 64)).goOn r 4) else .error causeOperand

/-- A REF field that names a base, and a base that is there (R62, R247). -/
def refOk (space ref : Nat) : Bool := decide (space = 5) || decide (ref < 6)

/-- The word after the program's pc. -/
def CRun.literal (r : CRun) : BitVec 32 := (r.words[((r.pc - r.header).toNat / 4)]?).getD 0

/-- A CCOPY word with its literal (R250, R251). -/
def Chan.copy (ch : Chan) (conv : Nat) (src dst : BitVec 3) (ref dref : BitVec 4) (l : BitVec 10) : CRead :=
  ch.before fun r =>
    let lit := if conv = 0 then 0 else r.literal
    let len := l.toNat + 1
    if !(decide (conv = 0) || litMbzOk lit) then .error causeEncoding
    else if !(refOk src.toNat ref.toNat && refOk dst.toNat dref.toNat) then .error causeOperand
    else if !(decide (conv = 0) || (decide (litLtype lit ≤ 3) && wholeElements conv lit len)) then .error causeOperand
    else
      .ok (ch.goOn { r with opPc := r.pc, op := some (.copy conv lit len), srcSpace := src.toNat, dstSpace := dst.toNat,
                            srcRef := ref.toNat, dstRef := dref.toNat } (if conv = 0 then 4 else 8))

/-- A CFILL word (R252): the pattern is the low bytes of j as CRUN read it. -/
def Chan.fill (ch : Chan) (dst : BitVec 3) (ref : BitVec 4) (w : BitVec 2) (l : BitVec 10) (j : BitVec 4) : CRead :=
  ch.before fun r =>
    let width := pow2 w.toNat
    if !refOk dst.toNat ref.toNat then .error causeOperand
    else
      .ok (ch.goOn { r with opPc := r.pc, op := some (.fill (r.j[j.toNat].toNat % pow2 (8 * width)) width (l.toNat + 1)),
                            srcSpace := 7, dstSpace := dst.toNat, srcRef := 0, dstRef := ref.toNat } 4)

/-- A CNOP word (R253). -/
def Chan.pass (ch : Chan) : CRead :=
  match ch.run with
  | some r => if r.ended then .error causeEncoding else .ok (ch.goOn r 4)
  | none => .error causeEncoding

/-- A CSIG word as CRUN reads it (R253). -/
def Chan.signal (ch : Chan) (b : BitVec 3) : CRead :=
  ch.after fun r => if b.toNat < 6 then .ok (ch.goOn r 4) else .error causeOperand

/-- A CEND word (R253): the last of the table (R245). -/
def Chan.finish (ch : Chan) : CRead := ch.after fun r => .ok (ch.goOn { r with ended := true } 4)

/-- Reads a word of a program (R245). -/
def Chan.read (ch : Chan) : Instr → CRead
  | .clevCount l v => ch.level l fun _ x => { x with count := v.toNat + 1 }
  | .clevSs l v => ch.level l fun _ x => { x with ss := sextNat v.toNat 21 }
  | .clevDs l v => ch.level l fun _ x => { x with ds := sextNat v.toNat 21 }
  | .clevJs l sj d => ch.level l fun r x => { x with ss := sextNat r.j[sj.toNat].toNat 64, ds := sextNat r.j[d.toNat].toNat 64 }
  | .cbase b j o => ch.loadBase b j o
  | .ccopy src dst r e l => ch.copy 0 src dst r e l
  | .ccopyTolns src dst r e l => ch.copy 1 src dst r e l
  | .ccopyTolin src dst r e l => ch.copy 2 src dst r e l
  | .cfill dst r w l j => ch.fill dst r w l j
  | .csig b _ _ => ch.signal b
  | .cend => ch.finish
  | .cnop => ch.pass
  | _ => .error causeEncoding

/-- A form outside a clicker program is ILLEGAL_ENCODING (R45). -/
def onChannel (s : State) (k : Out) : Out :=
  match s.cur.stream with
  | .chan _ => check s.ch.run.isSome causeEncoding s k
  | _ => trap s causeEncoding

/-- A word that only changes the channel's program. -/
def chanForm (f : Chan → CRead) (s : State) : Out :=
  onChannel s <|
    match f s.ch with
    | .ok ch => .next (s.modCh fun _ => ch)
    | .error cause => trap s cause

def execClevCount (l : BitVec 3) (v : BitVec 21) (s : State) : Out :=
  chanForm (fun ch => ch.level l fun _ x => { x with count := v.toNat + 1 }) s
def execClevSs (l : BitVec 3) (v : BitVec 21) (s : State) : Out :=
  chanForm (fun ch => ch.level l fun _ x => { x with ss := sextNat v.toNat 21 }) s
def execClevDs (l : BitVec 3) (v : BitVec 21) (s : State) : Out :=
  chanForm (fun ch => ch.level l fun _ x => { x with ds := sextNat v.toNat 21 }) s
def execClevJs (l : BitVec 3) (sj d : BitVec 4) (s : State) : Out :=
  chanForm (fun ch => ch.level l fun r x => { x with ss := sextNat r.j[sj.toNat].toNat 64, ds := sextNat r.j[d.toNat].toNat 64 }) s
def execCbase (b : BitVec 3) (j : BitVec 4) (o : BitVec 19) (s : State) : Out := chanForm (fun ch => ch.loadBase b j o) s
def execCcopy (src dst : BitVec 3) (r e : BitVec 4) (l : BitVec 10) (s : State) : Out :=
  chanForm (fun ch => ch.copy 0 src dst r e l) s
def execCcopyTolns (src dst : BitVec 3) (r e : BitVec 4) (l : BitVec 10) (s : State) : Out :=
  chanForm (fun ch => ch.copy 1 src dst r e l) s
def execCcopyTolin (src dst : BitVec 3) (r e : BitVec 4) (l : BitVec 10) (s : State) : Out :=
  chanForm (fun ch => ch.copy 2 src dst r e l) s
def execCfill (dst : BitVec 3) (r : BitVec 4) (w : BitVec 2) (l : BitVec 10) (j : BitVec 4) (s : State) : Out :=
  chanForm (fun ch => ch.fill dst r w l j) s
def execCnop (s : State) : Out := chanForm Chan.pass s

/-- Every copy of the program is complete (R155). -/
def CRun.copied (r : CRun) : Bool := decide (r.next ≥ iterations r.levels) && decide (r.copies = [])

/-- CEND (R253): the counter advances once the copies too are complete. -/
def execCend (s : State) : Out :=
  onChannel s <|
    match s.ch.finish with
    | .ok ch =>
      let s1 := s.modCh fun _ => ch
      .next (if ch.run.any CRun.copied then s1.schedule s.pcc (.clickerProgramComplete s.cur.core s.chanNo) else s1)
    | .error cause => trap s cause

/-- A trap of a channel with the indices of an iteration (R255, R396). -/
def trapCopy (t : TrapArgs) (iter : Nat) (s : State) : State :=
  let r := s.ch.run
  let ix := (r.map fun r => indices r.levels iter).getD []
  s.raiseTrap { t with aux := BitVec.ofNat 64 (packIndices ix 0), cidx := packIndices ix 3, pc := r.map (·.opPc) }

/-- CSIG (R253): the first starts once every copy is complete, each later one once the response before it has
returned. -/
def execCsig (b : BitVec 3) (c : BitVec 2) (v : BitVec 16) (s : State) : Out :=
  onChannel s <|
    match s.ch.signal b with
    | .error cause => trap s cause
    | .ok _ =>
      if !(s.ch.run.any CRun.copied) || s.ch.run.any (·.sigOut) then .next s
      else
        let ea := s.ch.base b.toNat
        match s.checkAccess ea 8 .both with
        | .fail t => trapWith s t
        | .miss =>
          let (s1, id) := s.startWalk ea false
          .next (s1.modRun fun r => { r with walk := some id })
        | .ok pa _ =>
          let (s1, _) := s.send { kind := .csig s.chanNo (sextNat v.toNat 16), va := ea, pa, size := 8, cls := c.toNat, value := 0,
                                  order := s.nextOrder }
          .next (s1.bumpOrder.modRun fun r => { r with sigOut := true })

/-! ### CRUN (R156, R245) -/

/-- What reading a program answers. -/
inductive Program where
  | ok (ch : Chan)
  | bad (pc : Word) (t : TrapArgs)
  deriving DecidableEq, Repr

/-- Fetches the words of a table after its header, or says which cannot be had. -/
def State.tableWords (s : State) (va : Word) : Nat → Except (Word × Option TrapArgs) (List (BitVec 32))
  | 0 => .ok []
  | n + 1 =>
    match s.fetch s.curKey s.curCtx va with
    | .miss => .error (va, none)
    | .fault t => .error (va, some t)
    | .word w =>
      match State.tableWords s (va + 4) n with
      | .ok ws => .ok (w :: ws)
      | .error e => .error e

/-- Reads and checks the words of a program from the channel's pc on (R245, R246). -/
def Chan.readAll (ch : Chan) : Nat → Program
  | 0 => .bad 0 { cause := causeEncoding }
  | n + 1 =>
    match ch.run with
    | none => .bad 0 { cause := causeEncoding }
    | some r =>
      let k := (r.pc - r.header).toNat / 4
      if r.ended then (if k = r.length + 1 then .ok ch else .bad r.pc { cause := causeEncoding })
      else
        match r.words[k - 1]? with
        | none => .bad r.pc { cause := causeEncoding }
        | some w =>
          match decodeClicker w.toNat with
          | .ok i =>
            match ch.read i with
            | .ok ch' => Chan.readAll ch' n
            | .error cause => .bad r.pc { cause }
          | .illegalEncoding => .bad r.pc { cause := causeEncoding }
          | .illegalOperand => .bad r.pc { cause := causeOperand }

/-- The bytes an iteration takes, and those it writes. -/
def CRun.lengths (r : CRun) : Nat × Nat :=
  match r.op with
  | some (.copy conv lit len) => (len, resultBytes conv lit len)
  | some (.fill _ _ len) => (0, len)
  | none => (0, 0)

/-- The len of the copy word: source bytes of a copy, bytes written by a fill (R251, R252, R488). -/
def CRun.opLength (r : CRun) : Nat :=
  match r.op with
  | some (.copy _ _ len) => len
  | some (.fill _ _ len) => len
  | none => 0

/-- The checks of R245 that need the core: a format code that compatibility mode lacks (R384), the ports' bindings
and packet sizes (R247, R250, R251). Where several checks of a program fail no rule says which cause CRUN takes: the words are checked in
their order, a literal's MBZ before its CCOPY's base, and these checks come after all of them (DESIGN CHOICE, log 60). -/
def Core.programCause (c : Core) (n : Nat) (r : CRun) : Option Nat :=
  let conv := match r.op with
    | some (.copy conv lit _) => decide (conv ≠ 0) && decide (litLfmt lit = 3)
    | _ => false
  if c.job.compat && conv then some causeEncoding
  else if decide (r.srcSpace = 5) && !((c.port r.srcRef).serves n && decide (r.lengths.1 ≤ (c.port r.srcRef).bytesPer)) then
    some causeOperand
  else if decide (r.dstSpace = 5) && !((c.port r.dstRef).feeds n && decide (r.lengths.2 ≤ (c.port r.dstRef).bytesPer)) then
    some causeOperand
  else none

/-- The range-checker entries of a program, its read entry first (R116). -/
def Chan.entries (ch : Chan) (r : CRun) : List (Bool × Nat × Nat) :=
  (if r.srcSpace = 0 then [(false, hull (ch.base r.srcRef) r.levels (·.ss) r.lengths.1)] else []) ++
    (if r.dstSpace = 0 then [(true, hull (ch.base r.dstRef) r.levels (·.ds) r.lengths.2)] else [])

/-- A program before its first word. -/
def CRun.blank (owner : Nat) (header : Word) (words : List (BitVec 32)) (j : Vector Word 16) (cmd now : Nat) : CRun :=
  { owner, header, length := words.length, words, pc := header + 4, j, levels := [], opPc := header, op := none, srcSpace := 7,
    dstSpace := 7, srcRef := 0, dstRef := 0, next := 0, copies := [], sigOut := false, ended := false, startFree := now + 1,
    walk := none, cmd, trapped := false }

/-- Enters a program's ranges in the checker. -/
def Core.enterAll (c : Core) (n : Nat) (l : List (Bool × Nat × Nat)) (now : Nat) : Core :=
  { c with
    rc := c.rc ++ l.zipIdx.map fun (p : (Bool × Nat × Nat) × Nat) =>
      (⟨rangeOrder now (1 + 2 * n + p.2), p.1.1, p.1.2.1, p.1.2.2, 1 + n, c.rcOrder, false⟩ : RcEntry)
    rcOrder := c.rcOrder + l.length }

/-- Raises the trap of a program's word: it is charged to the CRUN's group and names the channel (R74, R245). -/
def trapProgram (s : State) (n : Nat) (pc : Word) (t : TrapArgs) : Out :=
  .next (s.at ⟨s.cur.core, s.cur.slot, .chan n⟩ fun s => s.raiseTrap { t with pc := some pc })

/-- CRUN (R156, R245). The channel reads and checks the whole program; its words then take their effect. -/
def execCrun (a b : BitVec 5) (u : BitVec 4) (s : State) : Out :=
  onStreams true false false s <| check (channelUnit u) causeOperand s <| withReads [a, b] s <|
    let n := u.toNat - 2
    if (s.here.chan n).run.isSome then .next (s.holdFor .resource)
    else
      let va := s.x a
      withHeader va 2 false s fun w s =>
        match s.tableWords (va + 4) (headerLength w) with
        | .error (at_, none) =>
          let (s1, id) := s.startWalk at_ true
          .next (s1.holdFor (.walk id))
        | .error (at_, some t) => trapProgram s n at_ t
        | .ok ws =>
          let c := s.here
          let blank := { (c.chan n).setBase 0 (s.x b) with run := some (CRun.blank s.cur.slot va ws c.j c.rcOrder s.pcc) }
          match blank.readAll (ws.length + 1) with
          | .bad pc t => trapProgram s n pc t
          | .ok ch =>
            match ch.run with
            | none => trap s causeEncoding
            | some r =>
              match c.programCause n r with
              | some cause => trapProgram s n r.opPc { cause }
              | none =>
                let l := ch.entries r
                if c.rc.length + l.length > 32 then .next (s.holdFor .resource)
                else .next ((s.modHere fun c => (c.enterAll n l s.pcc).modChan n fun _ => blank).finish id)

/-! ### Copies (R249-R255, R488) -/

/-- The classes of the spaces (R247). -/
def spaceClass (space : Nat) : Nat := space % 4 - 1

def isMemorySpace (space : Nat) : Bool := decide (1 ≤ space) && decide (space ≤ 4)

/-- A range cut at multiples of a unit: the address and the length of each piece. -/
def pieces (unit : Nat) : Nat → Nat → Nat → List (Nat × Nat)
  | 0, _, _ => []
  | n + 1, a, len =>
    if len = 0 then []
    else
      let k := min len (unit - a % unit)
      (a, k) :: pieces unit n (a + k) (len - k)

/-- Whether an address lies in the DSM window of a die of the own package (R247). -/
def State.inDsm (s : State) (die pa : Nat) : Bool :=
  s.isLocal pa && (match regionOf (localOf pa) with
    | .dsm d _ => decide (d = die)
    | _ => false)

/-- What checking a side of a copy answers: its pieces with their translations, a walk to wait for, or a trap. -/
inductive Side where
  | ok (l : List (Nat × Nat × Nat × TlbEntry))
  | miss (va : Word)
  | fail (t : TrapArgs)
  deriving DecidableEq, Repr

/-- Translates and checks the 128-byte sectors of a side in global memory (R247, R255). -/
def State.checkSectors (s : State) (dsm : Bool) (p : Perm) : List (Nat × Nat) → Side
  | [] => .ok []
  | (a, n) :: rest =>
    let va : Word := BitVec.ofNat 64 a
    match s.checkAccess va 1 p with
    | .fail t => .fail t
    | .miss => .miss va
    | .ok pa e =>
      if dsm && !s.inDsm (dieOf s.cur.core) pa then .fail { cause := causeProtection, addr := va }
      else
        match State.checkSectors s dsm p rest with
        | .ok l => .ok ((a, pa, n, e) :: l)
        | r => r

/-- Checks a side of a copy before any of its accesses (R250, R251, R255); a port has nothing to check. An element in DSM that is
not aligned draws ALIGNMENT as in the spaces that R251 names (DESIGN CHOICE, log 47). -/
def State.checkSide (s : State) (space : Nat) (ea : Word) (len align : Nat) (p : Perm) : Side :=
  if space > 4 then .ok []
  else if ea.toNat % align ≠ 0 then .fail { cause := causeAlignment, addr := ea }
  else if space = 0 then
    if s.here.inReservation ea len && decide (ea.toNat + len ≤ pow2 19) then .ok [] else .fail { cause := causeProtection, addr := ea }
  else s.checkSectors (decide (space = 4)) p (pieces 128 (len / 128 + 2) ea.toNat len)

/-- The source and destination addresses of an iteration (R249). -/
def Chan.sourceOf (ch : Chan) (r : CRun) (n : Nat) : Word := ch.base r.srcRef + wordOfInt (offsetOf r.levels n (·.ss))
def Chan.destOf (ch : Chan) (r : CRun) (n : Nat) : Word := ch.base r.dstRef + wordOfInt (offsetOf r.levels n (·.ds))

/-- The pattern of a fill, repeated and cut (R252). -/
def fillBytes (v width len : Nat) : Nat := assemble (8 * width) (fun _ => v) (ceilDiv len width) % pow2 (8 * len)

/-- Whether the next copy may start now (R117, R250, R488). -/
def State.copyReady (s : State) (r : CRun) : Bool :=
  let c := s.here
  r.op.isSome && !r.trapped && r.walk.isNone && decide (r.next < iterations r.levels) && decide (r.copies.length < 64) &&
    decide (r.startFree ≤ s.pcc) && !c.rangeBlocked (1 + s.chanNo) r.cmd &&
    (decide (r.srcSpace ≠ 5) || (decide (1 ≤ (c.port r.srcRef).held s.pcc) &&
      r.copies.all fun (k : CCopy) => decide (k.writing = 0))) &&
    (decide (r.dstSpace ≠ 5) || decide (1 ≤ (c.port r.dstRef).free))

/-- The bytes of a mask of granules as they stand poisoned in the scratchpad. -/
def Core.spmPoisonMask (c : Core) (a len : Nat) : Mask :=
  BitVec.ofNat 1024 (assemble 1 (fun i => if c.spmPoison.has ((a + i) / 32) then 1 else 0) len)

/-- Starts the reads of a copy from global memory (R488): one sector a cycle. DSM reads bypass L1 (R247). -/
def State.startReads (s : State) (space iter : Nat) (l : List (Nat × Nat × Nat × TlbEntry)) (base : Nat) : State :=
  l.zipIdx.foldl (fun (s : State) (q : (Nat × Nat × Nat × TlbEntry) × Nat) =>
    let (va, pa, len, e) := q.1
    let kind := AccKind.cread s.chanNo iter (va - base)
    if space = 4 then
      (s.send { kind, va := BitVec.ofNat 64 va, pa, size := len, cls := 0, value := 0, order := s.nextOrder, delay := q.2 }).1.bumpOrder
    else (s.startRead kind (BitVec.ofNat 64 va) pa len (spaceClass space) q.2 e).1) s

/-- Leaves a copy, and every later one, unmade (R255): the next to start is that copy, and a walk for a later one is awaited no
more. Rooms reserved in the
destination port are free again, and answers still on their way find no copy. -/
def State.dropCopies (s : State) (iter : Nat) : State :=
  match s.ch.run with
  | none => s
  | some r =>
    let gone := r.copies.filter fun (k : CCopy) => decide (iter ≤ k.iter)
    let n := s.chanNo
    let s1 := s.modRun fun r => { r with copies := r.copies.filter fun (k : CCopy) => decide (k.iter < iter), next := iter, walk := none }
    let s2 := if r.dstSpace = 5 then s1.modHere fun c => c.modPort r.dstRef fun p => { p with reserved := p.reserved - gone.length } else s1
    { s2 with accs := s2.accs.mapVal fun _ a =>
        if a.core = s.cur.core then
          match a.kind with
          | .cread ch k b => if ch = n ∧ iter ≤ k then { a with kind := .cread ch (k + pow2 160) b } else a
          | .cwrite ch k => if ch = n ∧ iter ≤ k then { a with kind := .cwrite ch (k + pow2 160) } else a
          | _ => a
        else a }

/-- Marks the newest pending store of the core as poisoned. -/
def State.poisonLast (s : State) (order : Nat) : State :=
  s.modHere fun c => c.mapPend fun p => if p.order = order then { p with poison := true } else p

/-- Makes one global write of a copy; DSM writes bypass L1 (R247). Answers whether an acknowledgement is to come. -/
def State.copyStore (s : State) (space iter : Nat) (va : Word) (pa len v : Nat) (bad : Bool) : State × Bool :=
  let order := s.nextOrder
  let kind := AccKind.cwrite s.chanNo iter
  let s1 :=
    if space = 4 then
      let t := s.modHere fun c => { c with mem := { c.mem with pend := c.mem.pend ++ [s.newStore va pa len 0 v .inFlight] } }
      (t.send { kind, va, pa, size := len, cls := 0, value := v, order }).1.bumpOrder
    else s.postStore kind va pa len (spaceClass space) v 0 [(0, len)]
  (if bad then s1.poisonLast order else s1, decide (s.nextId < s1.nextId))

/-- The bytes a copy writes. -/
def CRun.resultOf (r : CRun) (k : CCopy) : Nat :=
  match r.op with
  | some (.copy conv lit len) => convert conv lit len (k.data.toNat % pow2 (8 * len))
  | some (.fill v width len) => fillBytes v width len
  | none => 0

/-- Whether a copy's poison is consumed: it is pushed to a port or converted (R255). -/
def CRun.consumes (r : CRun) : Bool :=
  decide (r.dstSpace = 5) || decide (r.srcSpace = 5) || (match r.op with
    | some (.copy conv _ _) => decide (conv ≠ 0)
    | _ => false)

/-- A destination piece as it is written: whole, or by granules where the copy holds poison (R446). -/
def CCopy.parts (k : CCopy) : List (Nat × Nat × Nat) :=
  if k.poison = 0 then k.dest
  else k.dest.flatMap fun (q : Nat × Nat × Nat) => (pieces 32 6 q.1 q.2.2).map fun (x : Nat × Nat) => (x.1, q.2.1 + (x.1 - q.1), x.2)

/-- Makes the writes of a copy whose bytes are there. -/
def State.writeCopy (s : State) (r : CRun) (k : CCopy) : State :=
  let setCopy (s : State) (f : CCopy → CCopy) : State :=
    s.modRun fun r => { r with copies := r.copies.map fun (x : CCopy) => if x.iter = k.iter then f x else x }
  let base := (k.dest.head?.map (·.1)).getD 0
  let v := r.resultOf k
  let (s1, out) := k.parts.foldl (fun (st : State × Nat) (q : Nat × Nat × Nat) =>
    let off := q.1 - base
    let len := q.2.2
    let bad := decide (fld k.poison.toNat (off + len - 1) off ≠ 0)
    let x := st.1.copyStore r.dstSpace k.iter (BitVec.ofNat 64 q.1) q.2.1 len (fld v (8 * (off + len) - 1) (8 * off)) bad
    (x.1, st.2 + if x.2 then 1 else 0)) (s, 0)
  let s2 := setCopy s1 fun x => { x with issued := true, writing := out }
  if out = 0 then s2.schedule s.pcc (.clickerCopyComplete s.cur.core s.chanNo k.iter) else s2

/-- Whether a write of an earlier copy is still to be answered: until then it may fail, and a later copy makes no write and
takes no packet (R255, R488; DEDUCED, log 40). -/
def CRun.writesOut (r : CRun) (iter : Nat) : Bool :=
  r.copies.any fun (k : CCopy) => decide (k.iter < iter) && k.issued && decide (k.writing ≠ 0)

/-- Lets the copies whose bytes are there write, in iteration order (R254, R255): a copy with consumed poison stops
the channel there. -/
def State.drainCopies (s : State) : Nat → State
  | 0 => s
  | n + 1 =>
    match s.ch.run with
    | none => s
    | some r =>
      match r.copies.find? fun (k : CCopy) => !k.issued with
      | none => s
      | some k =>
        if k.reading ≠ 0 || r.writesOut k.iter then s
        else if r.consumes && decide (k.poison ≠ 0) then
          let t : TrapArgs := { cause := causePoison, addr := if r.srcSpace = 5 then 0 else s.ch.sourceOf r k.iter }
          trapCopy t k.iter (s.dropCopies k.iter)
        else State.drainCopies (s.writeCopy r k) n

/-- A channel starts the next copy of its program (R249, R250, R255, R488). A packet that a copy has taken from a port stays taken
when the copy stops, and a resumed copy takes the next one (DESIGN CHOICE, log 49). -/
def execClickerCopyStart (core ch : Nat) (s : State) : Out :=
  .next (s.at ⟨core, ((s.core core).chan ch).run.map (·.owner) |>.getD 0, .chan ch⟩ fun s =>
    match s.ch.run with
    | none => s
    | some r =>
      if !s.copyReady r then s
      else
        let iter := r.next
        let (len, out) := r.lengths
        let src := s.ch.sourceOf r iter
        let conv := match r.op with
          | some (.copy conv lit _) => sourceBytes conv lit
          | _ => 1
        match s.checkSide r.srcSpace src len conv .read, s.checkSide r.dstSpace (s.ch.destOf r iter) out 1 .write with
        | .miss va, _ => missed s va
        | .fail t, _ => trapCopy t iter s
        | .ok _, .miss va => missed s va
        | .ok _, .fail t => trapCopy t iter s
        | .ok l, .ok dl =>
          let c := s.here
          let pkt := (c.port r.srcRef).packets.head?
          let data : Nat := if r.srcSpace = 5 then (pkt.map fun (k : Packet) => (maskedBytes k.bytes k.mask).toNat % pow2 (8 * len)).getD 0
            else if r.srcSpace = 0 then Memory.readN c.spm src.toNat len else 0
          let bad : Mask := if r.srcSpace = 5 then BitVec.ofNat 1024 ((pkt.map fun (k : Packet) => k.marks 1 len).getD 0)
            else if r.srcSpace = 0 then c.spmPoisonMask src.toNat len else 0
          let copy : CCopy := { iter, dest := dl.map fun (q : Nat × Nat × Nat × TlbEntry) => (q.1, q.2.1, q.2.2.1), reading := l.length, data := BitVec.ofNat 8192 data, poison := bad, issued := false, writing := 0 }
          let s1 := s.modHere fun c =>
            let c1 := if r.srcSpace = 5 then c.modPort r.srcRef Port.pop else c
            if r.dstSpace = 5 then c1.modPort r.dstRef fun p => { p with reserved := p.reserved + 1 } else c1
          let s2 := s1.modRun fun r =>
            { r with next := iter + 1, copies := r.copies ++ [copy], startFree := s.pcc + ceilDiv r.opLength 128 }
          (s2.startReads r.srcSpace iter l src.toNat).drainCopies 65)
where
  missed (s : State) (va : Word) : State :=
    let (s1, id) := s.startWalk va false
    s1.modRun fun r => { r with walk := some id }

/-- A clicker copy completes (R155): its scratchpad bytes are written or its packet is pushed; a global copy's stores
are performed. -/
def execClickerCopyComplete (core ch copy : Nat) (s : State) : Out :=
  .next (s.at ⟨core, ((s.core core).chan ch).run.map (·.owner) |>.getD 0, .chan ch⟩ fun s =>
    match s.ch.run with
    | none => s
    | some r =>
      match r.copies.find? fun (k : CCopy) => decide (k.iter = copy) with
      | none => s
      | some k =>
        if !k.issued then s
        else
          let v := r.resultOf k
          let len := r.lengths.2
          let s1 := if r.dstSpace = 0 then
              let a := (s.ch.destOf r k.iter).toNat
              s.modHere fun c =>
                let c1 := c.writeSpm a len v
                let bad := (List.range len).filter fun i => k.poison.toNat.testBit i
                { c1 with spmPoison := bad.foldl (fun (p : NatSet) i => p.add ((a + i) / 32)) c1.spmPoison }
            else if r.dstSpace = 5 then
              s.modHere fun c => c.modPort r.dstRef fun p => { p.push (packetOf v len) s.pcc with reserved := p.reserved - 1 }
            else s
          let s2 := s1.modRun fun r => { r with copies := r.copies.filter fun (x : CCopy) => decide (x.iter ≠ copy) }
          let whole := s2.ch.run.any CRun.copied
          let s3 := if whole then s2.modHere fun c =>
              { c with rc := c.rc.map fun (e : RcEntry) => if e.source = 1 + ch % 4 ∧ e.cmd = r.cmd then { e with complete := true } else e }
            else s2
          if whole && r.ended then s3.schedule s.pcc (.clickerProgramComplete core ch) else s3)

/-- A CSIG response returns (R253): the program goes on, or stops there with its error. -/
def execCsigResponse (core ch : Nat) (err : Option DataError) (s : State) : Out :=
  .next (s.at ⟨core, ((s.core core).chan ch).run.map (·.owner) |>.getD 0, .chan ch⟩ fun s =>
    let s1 := { s with accs := s.accs.filter fun (a : Nat × Access) =>
      !(decide (a.2.core = core) && (match a.2.kind with
        | .csig n _ => decide (n = ch % 4)
        | _ => false)) }
    match s1.ch.run with
    | none => s1
    | some r =>
      if !r.sigOut then s1
      else
        let acc := (s.accs.find? fun (a : Nat × Access) => decide (a.2.core = core) && (match a.2.kind with
          | .csig n _ => decide (n = ch % 4)
          | _ => false)).map (·.2)
        let ea := (acc.map (·.va)).getD 0
        let s2 := match err with
          | none => s1
          | some .poison => s1.raiseTrap { cause := causePoison, addr := ea }
          | some (.remote n) => s1.raiseTrap { cause := causeRemote, addr := ea, detail := n % 256, aux := packageAux (acc.map fun (a : Access) => pkgOf a.pa) }
        s2.modRun fun r => { r with sigOut := false, pc := r.pc + 4 })

/-- The completion counter advances (R155), and the channel is free. -/
def execClickerProgramComplete (core ch : Nat) (s : State) : Out :=
  .next (s.modLive core fun c => c.modChan ch fun k =>
    match k.run with
    | some r => if r.ended && r.copied && !r.trapped then { k with cc := k.cc + 1, run := none } else k
    | none => k)

end Sys2Proof.Machine
end

