-- ==== Sys2Proof/Machine/Registers.lean ====
section
/-! DEFINITION. The device's registers and rings outside the cores (R343-R345, R386-R388, R395-R397, R403, R411,
R429, R431, R432, R435, R437, R458-R461, R471, R480): fault records, error records, interrupts, the register
blocks, BAR0, and the events that write them. -/

namespace Sys2Proof.Machine

/-! ### Fault records (R388, R395) -/

/-- The 512 bits of a fault record (R395). -/
def FaultRecord.bits (r : FaultRecord) (seq : BitVec 32) : Nat :=
  r.pcc % pow2 64 * pow2 448 + r.aux.toNat * pow2 384 + r.addr.toNat * pow2 320 + r.pc.toNat * pow2 256 +
    r.jobid.toNat * pow2 224 + r.role.toNat % pow2 16 * pow2 208 + r.core % 256 * pow2 200 + r.die % 8 * pow2 197 +
    r.ctx % 64 * pow2 191 + r.slot % 32 * pow2 178 + r.stream % 16 * pow2 174 + (if r.jobrec then pow2 173 else 0) +
    (if r.replay then pow2 172 else 0) + seq.toNat * pow2 128 + r.cidx % pow2 63 * pow2 64 + r.elem % 2048 * pow2 32 +
    r.detail % pow2 16 * pow2 16 + (if r.killed then 256 else 0) + r.cause % 256

/-- The records that a context's fault queue holds (R386). -/
def Ctx.capacity (c : Ctx) : Nat := pow2 (c.fqlog + 6)

/-- The package's own global physical address of a package-local one (R131). -/
def State.globalPa (s : State) (la : Nat) : Nat := s.fabric.coord * pow2 44 + la % pow2 44

/-- A held fault record is written once the queue has room, before FQT passes it; the control die gets a wake event
(R388). -/
def execFaultRecordWrite (ctx : Nat) (s : State) : Out :=
  let c := s.ctx ctx
  match c.held with
  | [] => .next s
  | r :: rest =>
    if (c.fqt - c.fqh).toNat ≥ c.capacity then .next s
    else
      let s1 := s.deviceWrite (c.fqbase * 4096 + 64 * (c.fqt.toNat % c.capacity)) 64 (r.bits c.fqt)
      let s2 := (s1.modCtx ctx fun c => { c with held := rest, fqt := c.fqt + 1 }).wakeControl
      .next (if rest = [] then s2 else s2.schedule s.pcc (.faultRecordWrite ctx))

/-! ### Interrupts (R437) -/

def HostLink.fn (h : HostLink) (n : Nat) : HostFn := h.fns.getD n HostFn.reset
def State.modFn (s : State) (n : Nat) (f : HostFn → HostFn) : State :=
  { s with host := { s.host with fns := s.host.fns.set n (f (s.host.fn n)) } }

/-- The entries of a function's MSI-X table (R431). -/
def msixEntries (fn : Nat) : Nat := if fn = 0 then 2048 else 64

/-- An MSI-X entry that nothing has written is masked (log 17). -/
def HostFn.entry (f : HostFn) (vec : Nat) : MsixEntry := f.msix.getD vec ⟨0, 0, true⟩

/-- Sends an MSI-X message, or leaves it pending under a masked vector; an index past the table is only counted
(R437). -/
def State.sendMsix (s : State) (fn vec : Nat) : State :=
  if vec ≥ msixEntries fn then { s with pfc := { s.pfc with irqdrop := bump s.pfc.irqdrop } }
  else
    let e := (s.host.fn fn).entry vec
    if e.masked then s.modFn fn fun f => { f with pending := f.pending.add vec }
    else { s with outputs := s.outputs ++ [.msix fn vec e.addr e.data] }

/-- Unmasking a vector sends its pending message (R437). -/
def execMsixUnmask (fn vector : Nat) (s : State) : Out :=
  let f := s.host.fn fn
  if vector ≥ msixEntries fn then .next s
  else
    let s1 := s.modFn fn fun f =>
      { f with msix := f.msix.set vector { f.entry vector with masked := false }, pending := f.pending.del vector }
    .next (if f.pending.has vector then s1.sendMsix fn vector else s1)

/-! ### The error log (R458-R461) -/

/-- What an error record says (R460). -/
structure ErrRecord where
  pcc : Nat
  addr : Nat := 0
  synd : Nat := 0
  uclass : Nat
  index : Nat := 0
  core : Nat := 0xFF
  die : Nat
  sev : Nat
  verdict : Nat := 0
  action : Nat := 0
  lines : NatSet := []
  mask : Option Nat := none
  deriving DecidableEq, Repr

/-- CTXMASK: the contexts with a job on the unit's core or die, or a poisoned line, at the detection (R460). -/
def State.ctxMask (s : State) (r : ErrRecord) : Nat := r.mask.getD (s.jobMask r.core r.die r.lines)

/-- The 512 bits of an error record (R460). -/
def ErrRecord.bits (r : ErrRecord) (mask : Nat) (seq : BitVec 32) : Nat :=
  r.pcc % pow2 64 * pow2 448 + r.addr % pow2 64 * pow2 384 + r.synd % pow2 64 * pow2 320 + mask % pow2 64 * pow2 256 +
    seq.toNat * pow2 224 + r.uclass % 256 * pow2 216 + r.index % pow2 16 * pow2 200 + r.core % 256 * pow2 192 +
    r.die % 16 * pow2 188 + r.sev % 16 * pow2 184 + r.verdict % 16 * pow2 180 + r.action % 16 * pow2 176

/-- Writes an error record into the ring, advances ELT and raises VEC; a full ring or a clear ENABLE counts it in
ELLOST (R459). The rule names the ring full where ELT - ELH is its size; where an ELH past ELT or a smaller LOG2SZ has made the
difference larger, it is full too (DESIGN CHOICE, log 69). -/
def State.logError (s : State) (r : ErrRecord) : State :=
  let p := s.pfc
  if !p.elEnable || decide ((p.elt - p.elh).toNat ≥ pow2 p.elLog2) then { s with pfc := { p with ellost := bump32 p.ellost } }
  else
    let s1 := s.deviceWrite (p.elbase + 64 * (p.elt.toNat % pow2 p.elLog2)) 64 (r.bits (s.ctxMask r) p.elt)
    ({ s1 with pfc := { p with elt := p.elt + 1 } }).sendMsix 0 p.elVec

/-- The unit that an error at an address is logged against: class, index and die (R460, R461, R490). Which of a slice's 16 banks holds
a line no rule says: a free value. -/
def State.homeUnit (s : State) (pa : Nat) : Nat × Nat × Nat :=
  match regionOf (localOf pa) with
  | .dram d o => (0x0C, sliceOf o, d)
  | .dsm d o => (0x0A, sliceOf o * 16 + Config.freeWord s.free % 16, d)
  | _ => (0x0D, 0, 8)

/-- Logs an error in the memory behind an address that a context has met (R447, R448, R460): the line is one of that context's, and
what other contexts have a poisoned line there no rule fixes (log 25). -/
def State.logPoison (s : State) (pa ctx action : Nat) : State :=
  let u := s.homeUnit pa
  (s.logError
    { pcc := s.pcc, addr := pa, uclass := u.1, index := u.2.1, die := u.2.2, sev := 1, action
      synd := Config.freeWord (s.free + 1) % pow2 64
      lines := ctx % 64 :: (Config.freeSet s.free).filter fun c => decide (c < 64) }).tick.tick

/-! ### Register blocks of the configuration region (R287, R403, R429, R435, R458) -/

/-- The registers of a block: first byte and width. -/
def Block.layout : Block → List (Nat × Nat)
  | .moult => [(0x00, 8), (0x08, 4), (0x0C, 4), (0x10, 4)]
  | .errorLog => [(0x00, 8), (0x08, 4), (0x0C, 4), (0x10, 4), (0x14, 4)]
  | .hostbase => (List.range 64).map fun c => (8 * c, 8)
  | .fabric => [(0x000, 4), (0x008, 4)] ++ ((List.range 6).map fun k => (0x40 + 4 * k, 4)) ++
      ((List.range 24).map fun i => (0x80 + 4 * i, 4)) ++ [(0x100, 4), (0x104, 4), (0x108, 4)] ++
      ((List.range 64).map fun i => (0x200 + 8 * i, 8))

/-- FCOORD (R411). -/
def Fabric.fcoord (f : Fabric) : Nat :=
  (f.sizeX - 1) % 16 * pow2 28 + (f.sizeY - 1) % 16 * pow2 24 + (f.sizeZ - 1) % 16 * pow2 20 + f.coord % pow2 12

/-- FLINKST (R429). -/
def Link.status (l : Link) : Nat :=
  (if l.up then pow2 31 else 0) + (if l.dead then pow2 30 else 0) + l.major % 256 * 256 + l.minor % 256

/-- Sixty-four bits of a set of numbers, from n on. -/
def setBits (p : NatSet) (n : Nat) : Nat := ((List.range 64).map fun i => if p.has (n + i) then pow2 i else 0).sum

/-- ELCTL (R459). -/
def Pfc.elctl (p : Pfc) : Nat := (if p.elEnable then pow2 31 else 0) + p.elVec % 2048 * pow2 16 + p.elLog2 % 16

/-- The value of the register that begins at an offset of a block. -/
def State.blockReg (s : State) (b : Block) (o : Nat) : Nat :=
  match b with
  | .moult =>
    match o with
    | 0x00 => s.moult.mrbase
    | 0x08 => 0xD
    | 0x0C => s.moult.mrt.toNat
    | _ => s.moult.mrh.toNat
  | .errorLog =>
    match o with
    | 0x00 => s.pfc.elbase
    | 0x08 => s.pfc.elctl
    | 0x0C => s.pfc.elt.toNat
    | 0x10 => s.pfc.elh.toNat
    | _ => s.pfc.ellost.toNat
  | .hostbase => s.host.base.getD (o / 8) 0
  | .fabric =>
    let f := s.fabric
    if o = 0x000 then f.fcoord
    else if o = 0x008 then f.timeout
    else if o < 0x80 then (f.link ((o - 0x40) / 4)).status
    else if o < 0x100 then
      let l := f.link ((o - 0x80) / 16)
      match (o - 0x80) / 4 % 4 with
      | 0 => l.crcRetry.toNat
      | 1 => l.credFix.toNat
      | 2 => l.cnSent.toNat
      | _ => l.discard.toNat
    else if o = 0x100 then f.stalerep.toNat
    else if o = 0x104 then f.timeouts.toNat
    else if o = 0x108 then f.cnrecv.toNat
    else setBits f.deadPkg (8 * (o - 0x200))

/-- Writes the register that begins at an offset of a block: RO registers and MBZ bits ignore it (R5). MRBASE is
written by the platform controller alone (R403). A HOSTBASE write that changes it while a launch of the context is in flight
breaks a program obligation of R435, which names no response: no state changes (R2; DEDUCED, log 43). -/
def State.setBlockReg (s : State) (pfc : Bool) (b : Block) (o v : Nat) : State :=
  match b with
  | .moult =>
    match o with
    | 0x00 => if pfc then { s with moult := { s.moult with mrbase := fld v 55 12 * 4096 } } else s
    | 0x10 => { s with moult := { s.moult with mrh := BitVec.ofNat 32 v } }
    | _ => s
  | .errorLog =>
    match o with
    | 0x00 => { s with pfc := { s.pfc with elbase := fld v 55 12 * 4096 } }
    | 0x08 =>
      let n := fld v 3 0
      { s with pfc := { s.pfc with elEnable := v.testBit 31, elVec := fld v 26 16, elLog2 := if 6 ≤ n then n else s.pfc.elLog2 } }
    | 0x10 => { s with pfc := { s.pfc with elh := BitVec.ofNat 32 v } }
    | _ => s
  | .hostbase =>
    let new := fld v 63 12 * 4096 + v % 2
    if s.launched (o / 8) && decide (new ≠ s.host.base.getD (o / 8) 0) then s
    else { s with host := { s.host with base := s.host.base.set (o / 8) new } }
  | .fabric =>
    if o = 0x008 then
      let n := fld v 15 0
      if 10 ≤ n ∧ n ≤ 1000 then { s with fabric := { s.fabric with timeout := n } } else s
    else if 0x200 ≤ o then
      let first := 8 * (o - 0x200)
      let rest := s.fabric.deadPkg.filter fun n => !(decide (first ≤ n) && decide (n < first + 64))
      let more := (List.range 64).filter fun i => v.testBit i
      { s with fabric := { s.fabric with deadPkg := more.foldl (fun (p : NatSet) i => p.add (first + i)) rest } }
    else s

/-- The registers of a block that an access meets. -/
def Block.met (b : Block) (o n : Nat) : List (Nat × Nat) := b.layout.filter fun r => rangesMeet o n r.1 r.2

/-- Reads bytes of a block; an offset that holds no register reads 0 (R287). -/
def State.readBlock (s : State) (b : Block) (o n : Nat) : Nat :=
  (b.met o n).foldl (fun v r => overlay v o n (s.blockReg b r.1) r.1 r.2) 0

/-- Writes bytes of a block: each register met takes its old bytes with the written ones over them. -/
def State.writeBlock (s : State) (pfc : Bool) (b : Block) (o n v : Nat) : State :=
  (b.met o n).foldl (fun s r => s.setBlockReg pfc b r.1 (overlay (s.blockReg b r.1) r.1 r.2 v o n)) s

/-! ### Launch-queue registers (R343-R345, R387) -/

/-- Whether a function reaches a queue (R387). -/
def State.reachesQueue (s : State) (fn q : Nat) : Bool :=
  decide (q < 64) && (decide (fn = 0) || decide ((s.ctx (s.lqueue q).ctx).func = fn))

def LQueue.qctl (q : LQueue) : Nat :=
  (if q.enable then pow2 31 else 0) + (if q.devfed then pow2 30 else 0) + q.ctx % 64 * pow2 16 + q.log2 % 16
def LQueue.qstat (q : LQueue) : Nat := (if q.overrun then pow2 31 else 0) + (if q.ignwr then pow2 30 else 0)

/-- What a request received from a function does; on a function whose stream is insecure it is dropped and counted (R436). -/
def State.receive (s : State) (fn : Nat) (f : State → State) : State :=
  if (s.host.fn fn).insecure then s.modFn fn fun (x : HostFn) => { x with dropped := x.dropped + 1 } else f s

/-- A QCTL write (R344); ENABLE is ignored before stage 7 and in minimal mode (R468, R469). -/
def State.writeQctl (s : State) (q fn : Nat) (value : BitVec 32) : State :=
  if !s.reachesQueue fn q then s
  else
    let v := value.toNat
    let on := v.testBit 31
    let lq := s.lqueue q
    if lq.enable then
      (if on then s
       else s.modQueue q fun x => { x with enable := false, head := x.head.map fun h => { h with eligible := none } })
    else
      let n := fld v 3 0
      ((s.modQueue q fun x =>
        { x with
          enable := on && s.pfc.ready && !s.pfc.minimal
          devfed := v.testBit 30
          ctx := if fn = 0 then fld v 21 16 else x.ctx
          log2 := if 4 ≤ n ∧ n ≤ 12 then n else x.log2 }).pokeQueue q).judgeHead q

/-- A QWIDX write (R345). -/
def State.writeQwidx (s : State) (q fn : Nat) (value : BitVec 32) : State :=
  if !s.reachesQueue fn q then s
  else
    let lq := s.lqueue q
    if lq.devfed then s.modQueue q fun x => { x with ignwr := true }
    else if (value - lq.ridx).toNat > pow2 lq.log2 then
      s.modQueue q fun x => { x with overrun := true, enable := false, head := x.head.map fun h => { h with eligible := none } }
    else (s.modQueue q fun x => { x with widx := value }).pokeQueue q

def execQwidxWrite (queue fn : Nat) (value : BitVec 32) (s : State) : Out :=
  .next (s.receive fn fun s => s.writeQwidx queue fn value)
/-- A QCTL write with ENABLE set. -/
def execQueueEnable (queue fn : Nat) (value : BitVec 32) (s : State) : Out :=
  .next (s.receive fn fun s => s.writeQctl queue fn (value ||| 0x80000000))
/-- A QCTL write with ENABLE clear. -/
def execQueueDisable (queue fn : Nat) (value : BitVec 32) (s : State) : Out :=
  .next (s.receive fn fun s => s.writeQctl queue fn (value &&& 0x7FFFFFFF))

/-- The registers of a queue as 32 bytes (R343). -/
def LQueue.bytes (q : LQueue) : Nat :=
  q.base + q.qctl * pow2 64 + q.widx.toNat * pow2 96 + q.ridx.toNat * pow2 128 + q.qstat * pow2 160

/-- A write of a queue's registers by the host. -/
def State.writeQueueReg (s : State) (q fn o size : Nat) (v : Nat) : State :=
  if !s.reachesQueue fn q then s
  else
    let old := (s.lqueue q).bytes
    let new := overlay old 0 32 v o size
    let touches (a n : Nat) : Bool := rangesMeet o size a n
    let s1 := if touches 0 8 && !(s.lqueue q).enable then s.modQueue q fun x => { x with base := fld new 55 7 * 128 } else s
    let s2 := if touches 8 4 then s1.writeQctl q fn (BitVec.ofNat 32 (fld new 95 64)) else s1
    let s3 := if touches 12 4 then s2.writeQwidx q fn (BitVec.ofNat 32 (fld new 127 96)) else s2
    if touches 20 4 then
      let w := fld (overlay 0 0 32 v o size) 191 160
      s3.modQueue q fun x => { x with overrun := x.overrun && !w.testBit 31, ignwr := x.ignwr && !w.testBit 30 }
    else s3

/-! ### BAR0 (R431, R432, R471, R480) -/

/-- BOOTSTAT (R471). -/
def Pfc.bootstat (p : Pfc) : Nat :=
  (if p.ready then pow2 31 else 0) + (if p.minimal then pow2 30 else 0) + p.alarm % 4 * pow2 28 + p.failcnt % 16 * pow2 24 +
    p.reason % 256 * pow2 16 + p.stage % 256

/-- WIN2 (R432). -/
def HostFn.win2 (f : HostFn) : Nat := f.winBase + f.winCtx

/-- The telemetry word at an offset of its block (R480). -/
def State.telemetry (s : State) (o : Nat) : Nat :=
  if o = 0x000 then 0x0100
  else if o = 0x004 then s.pfc.pwr
  else if o < 0x008 then 0
  else if o < 0x034 then ((s.pfc.temps.getD ((o - 8) / 4) 0) % (pow2 32 : Nat)).toNat
  else if o = 0x040 then min (s.pfc.capcyc / 1024) 0xFFFFFFFF
  else if o = 0x044 then s.pfc.irqdrop
  else if 0x048 ≤ o ∧ o < 0x068 then (s.die ((o - 0x48) / 4)).fcommit
  else 0

/-- Whether a function reaches a context's fault-queue indices (R387). -/
def State.reachesCtx (s : State) (fn c : Nat) : Bool := decide (c < 64) && (decide (fn = 0) || decide ((s.ctx c).func = fn))

/-- The MSI-X table of a function (R431). -/
def msixBase (fn : Nat) : Nat := if fn = 0 then 0x10000 else 0x8000
def pbaBase (fn : Nat) : Nat := if fn = 0 then 0x18000 else 0x0F000

/-- The 16 bytes of an MSI-X entry: address, data, and the mask in bit 0 of the last word (log 17). -/
def MsixEntry.bytes (e : MsixEntry) : Nat := e.addr.toNat + e.data.toNat * pow2 64 + if e.masked then pow2 96 else 0

/-- The 32-bit word at a 4-byte-aligned offset of BAR0 (R431); every other offset reads 0. -/
def State.bar0Word (s : State) (fn o : Nat) : Nat :=
  let f := s.host.fn fn
  if o = 0 then 0x0100
  else if o = 0x08 then (if fn = 0 then s.pfc.bootstat % pow2 32 else 0)
  else if o = 0x0C then 0
  else if o = 0x10 then f.win2 % pow2 32
  else if o = 0x14 then f.win2 / pow2 32
  else if 0x1000 ≤ o ∧ o < 0x1800 then
    let q := (o - 0x1000) / 32
    if s.reachesQueue fn q then fld (s.lqueue q).bytes (8 * (o % 32) + 31) (8 * (o % 32)) else 0
  else if 0x2000 ≤ o ∧ o < 0x2200 then
    let c := (o - 0x2000) / 8
    if s.reachesCtx fn c then (if o % 8 = 0 then (s.ctx c).fqt.toNat else (s.ctx c).fqh.toNat) else 0
  else if msixBase fn ≤ o ∧ o < msixBase fn + 16 * msixEntries fn then
    fld (f.entry ((o - msixBase fn) / 16)).bytes (8 * (o % 16) + 31) (8 * (o % 16))
  else if pbaBase fn ≤ o ∧ o < pbaBase fn + msixEntries fn / 8 then setBits f.pending (8 * (o - pbaBase fn)) % pow2 32
  else if fn = 0 ∧ 0x20000 ≤ o ∧ o < 0x20068 then s.telemetry (o - 0x20000)
  else 0

/-- A host write of BAR0 bytes (R5, R431). -/
def State.writeBar0 (s : State) (fn o size v : Nat) : State :=
  if 0x10 ≤ o ∧ o < 0x18 then
    let new := overlay (s.host.fn fn).win2 0x10 8 v o size
    s.modFn fn fun f =>
      if fn = 0 then { f with winBase := fld new 43 36 * pow2 36, winCtx := 0 }
      else { f with winBase := fld new 55 36 * pow2 36, winCtx := fld new 5 0 }
  else if 0x1000 ≤ o ∧ o < 0x1800 then s.writeQueueReg ((o - 0x1000) / 32) fn (o % 32) size v
  else if 0x2000 ≤ o ∧ o < 0x2200 then
    let c := (o - 0x2000) / 8
    if s.reachesCtx fn c && rangesMeet (o % 8) size 4 4 then
      (s.modCtx c fun x => { x with fqh := BitVec.ofNat 32 (overlay x.fqh.toNat 4 4 v (o % 8) size) }).schedule s.pcc (.faultRecordWrite c)
    else s
  else if msixBase fn ≤ o ∧ o < msixBase fn + 16 * msixEntries fn then
    let vec := (o - msixBase fn) / 16
    let e := (s.host.fn fn).entry vec
    let new := overlay e.bytes 0 16 v (o % 16) size
    let s1 := s.modFn fn fun f =>
      { f with msix := f.msix.set vec ⟨BitVec.ofNat 64 (new / 4 * 4), BitVec.ofNat 32 (new / pow2 64), new.testBit 96⟩ }
    if e.masked && !new.testBit 96 then s1.schedule s.pcc (.msixUnmask fn vec) else s1
  else s

/-! ### REGISTER_WRITE (R5, R262, R288, R358, R386) -/

/-- The runtime's descriptor of a context (R386); FQLOG above 6 leaves VALID clear. -/
def Ctx.describe (c : Ctx) (v : Nat) : Ctx :=
  { c with
    fqlog := min (fld v 127 124) 6
    fqbase := fld v 119 76
    valid := v.testBit 63 && decide (fld v 127 124 ≤ 6)
    func := fld v 61 57
    root := fld v 55 13 * 8192 }

def execRegisterWrite (w : RegWrite) (s : State) : Out :=
  .next (match w with
    | .bar0 fn o size v => s.receive fn fun s => s.writeBar0 fn o size v.toNat
    | .platform addr size v =>
      match regionOf addr with
      | .regs b o => s.writeBlock true b o size v.toNat
      | _ => s
    | .descriptor ctx v => s.modCtx (ctx % 64) fun c => c.describe v.toNat
    | .schedctl core v => s.modLive core fun c => { c with job := { c.job with schedctl := v &&& 0x00FFFF00 } }
    | .binding launch role v =>
      let n := v.toNat
      s.modLaunch launch fun l =>
        { l with binding := if n.testBit 15 then l.binding.set role (200 * fld n 10 8 + fld n 7 0) else l.binding.del role }
    | .carveOut die ways =>
      if s.cores.any fun c => decide (dieOf c.1 = die) then s
      else s.modDie die fun d => { d with dsmWays := if d.noWays = [] then min ways 12 else 0 }
    | .trapEntry n v => s.modCtl n fun c => { c with entry := v })

end Sys2Proof.Machine
end

