-- ==== Sys2Proof/Machine/Access.lean ====
section
/-! DEFINITION. What becomes of the accesses of the cores (R134-R139, R224, R225, R253, R255, R288, R293-R303,
R389-R394, R427, R433-R436, R447, R448, R484-R486): performance at the home, data and errors, acknowledgements, commits,
the version buffers, L1 replacement, and the walks. -/

namespace Sys2Proof.Machine

/-! ### The stream of an access -/

/-- The stream an access belongs to. -/
def Access.focus (a : Access) : Focus :=
  ⟨if a.core < Config.controlBase then a.core else a.core - Config.controlBase, a.slot, a.stream⟩

def Access.onCompute (a : Access) : Bool := decide (a.core < Config.controlBase)

/-- Whether what the access serves is still there: a killed job or group no longer takes an answer (R261). -/
def State.awaits (s : State) (a : Access) : Bool :=
  !a.onCompute || (match s.cores.get a.core with
    | none => false
    | some c => match a.stream with
      | .group => c.groups.has a.slot
      | .vector => c.groups.has a.slot
      | _ => true)

/-- The context of an access. The control die's cores act in none of their own, and no rule says as which function and PASID and
through whose HOSTBASE their accesses go to the host: the model takes context 0 (DESIGN CHOICE, log 57). -/
def State.ctxOf (s : State) (a : Access) : Nat := if a.onCompute then (s.core a.core).job.ctx else 0

/-- The cause and the DETAIL of an error (R138, R427). -/
def errCause : DataError → Nat
  | .poison => causePoison
  | .remote _ => causeRemote

def errDetail : DataError → Nat
  | .poison => 0
  | .remote r => r % 256

/-- The destination package in AUX where R396 gives AUX nothing (R427). -/
def errAux : DataError → Nat → Word
  | .poison, _ => 0
  | .remote _, pkg => packageAux (some pkg)

/-! ### Performance at the home (R293, R302, R303, R484) -/

/-- The access is performed: its end follows after the reply part of its latency (R484). A reply from another package
reaches the fabric die 110 cycles before the core (R418). -/
def State.settle (s : State) (id : Nat) (a : Access) : State :=
  let done (s : State) : State := { s with accs := s.accs.set id { a with performed := true } }
  let reply := a.replyAt - a.performAt
  match a.tag with
  | some (n, g) => (done s).schedule (s.pcc + (reply - 110)) (.replyArrival n g)
  | none =>
    let (s1, late) := s.replyLate a
    (done s1).schedule (s.pcc + reply + late) (a.ending id)

/-- The retired entries of a version buffer (R456). -/
def State.retiredEntries (s : State) (buf : Nat) : Nat :=
  (s.pfc.retired.filter fun (x : Nat × Nat × Nat × Nat) => decide (x.1 = 0x0B) && decide (x.2.2.1 = buf)).length

/-- The version buffer that a home's pending bytes take entries of, and its size (R301): one for each slice of a
compute die and one at the hub. -/
def State.bufferOf (s : State) (pa : Nat) : Option (Nat × Nat) :=
  if s.isLocal pa then
    match regionOf (localOf pa) with
    | .dram d o => some (96 * d + sliceOf o, 2048 - s.retiredEntries (96 * d + sliceOf o))
    | .dsm d o => some (96 * d + sliceOf o, 2048 - s.retiredEntries (96 * d + sliceOf o))
    | .lpddr _ => some (768, 8192 - s.retiredEntries 768)
    | _ => none
  else none

/-- The entries of a version buffer: writer and sector (R301). Writers of other packages are numbered past the own. -/
def State.entries (s : State) (buf : Nat) : List (Nat × Nat) :=
  let inBuf (pa : Nat) : Bool := (s.bufferOf pa).any fun b => decide (b.1 = buf)
  ((s.jobs.flatMap fun (c : Nat × Core) =>
      (c.2.mem.pend.filter fun (p : PStore) => decide (p.place = .versioned) && inBuf p.pa).map fun (p : PStore) => (c.1, p.pa / 128)) ++
    (s.remote.filter fun (p : RemoteStore) => inBuf p.pa).map fun (p : RemoteStore) =>
      (4096 + (8 * p.src + p.die) * 256 + p.core, p.pa / 128)).eraseDups

/-- Whether a writer's sector has an entry or finds one free (R301). -/
def State.entryFree (s : State) (writer pa : Nat) : Bool :=
  match s.bufferOf pa with
  | none => true
  | some (buf, size) =>
    let l := s.entries buf
    l.contains (writer, pa / 128) || decide (l.length < size)

/-- Changes the pending store of an access. -/
def State.modPend (s : State) (core order : Nat) (f : PStore → PStore) : State :=
  s.modLive core fun c => c.mapPend fun p => if p.order = order then f p else p

def State.dropPend (s : State) (core order : Nat) : State :=
  s.modLive core fun c => { c with mem := { c.mem with pend := c.mem.pend.filter fun p => decide (p.order ≠ order) } }

/-- A write of a clicker copy is performed; with the last of them the copy is complete (R155). -/
def State.copyWritten (s : State) (a : Access) : State :=
  match a.kind with
  | .cwrite ch iter =>
    if !s.awaits a then s
    else
      s.at a.focus fun s =>
        let s1 := s.modRun fun r =>
          { r with copies := r.copies.map fun (k : CCopy) => if k.iter = iter then { k with writing := k.writing - 1 } else k }
        let whole := s1.ch.run.any fun r => r.copies.any fun (k : CCopy) => decide (k.iter = iter) && decide (k.writing = 0)
        if whole then s1.schedule s.pcc (.clickerCopyComplete a.core ch iter) else s1
  | _ => s

/-- A store at its home: the control die's commits (R310); a compute core's becomes a pending version once an entry
holds it, and after 4,096 cycles without one its sector is committed (R293, R301). -/
def State.performStore (s : State) (id : Nat) (a : Access) : State :=
  if !a.onCompute then (s.deviceWrite a.pa a.size a.value).settle id a
  else
    match (s.core a.core).mem.pend.find? (fun (p : PStore) => decide (p.order = a.order)) with
    | none => (s.copyWritten a).settle id a
    | some _ =>
      if s.entryFree a.core a.pa then
        ((s.modPend a.core a.order fun p => { p with place := .versioned, performed := true }).copyWritten a).settle id a
      else
        let s1 := s.schedule (s.pcc + 1) (.accessPerformed id)
        if s.pcc = a.performAt then s1.schedule (s.pcc + 4096) (.forcedCommit a.core (a.pa / 128)) else s1

/-- Takes the bytes of an access into the own core's clean copies of its sectors (R295). -/
def State.refresh (s : State) (core pa size v : Nat) : State :=
  s.modLive core fun c =>
    let l1 := c.mem.l1.mapVal fun k (e : L1Sector) =>
      if rangesMeet (k * 128) 128 pa size = true then
        { e with data := BitVec.ofNat 1024 (overlay e.data.toNat (k * 128) 128 v pa size) }
      else e
    { c with mem := { c.mem with l1 } }

/-- An atomic at its home (R303, R447): the core's earlier stores that are ordered before it commit first; on a
poisoned granule it is not performed. -/
def State.performAmo (s : State) (id : Nat) (a : Access) (op b cmp : Nat) (result : Bool) : State :=
  let mine := (s.core a.core).mem.pend.filter fun (p : PStore) =>
    a.onCompute && decide (p.order < a.order) && p.performed && rangesMeet a.pa a.size p.pa p.size && p.orderedBefore a
  let s1 := if mine = [] then s else s.commitStores a.core mine
  if (granulesOf a.pa a.size).any (fun g => s1.poison.has g) then
    if result then s1.settle id { a with error := some .poison }
    else
      let s2 := s1.logPoison a.pa (s1.ctxOf a) 0
      match a.kind with
      | .csig .. => s2.settle id { a with error := some .poison }
      | _ => s2.settle id a
  else
    let old := Memory.readN s1.mem a.pa a.size
    let new := amoNew op a.size old b cmp
    let s2 := { s1 with mem := Memory.writeN s1.mem a.pa a.size new }
    (s2.refresh a.core a.pa a.size new).settle id { a with value := old }

/-- The poisoned bytes of a range, as a mask. -/
def State.poisonMask (s : State) (core order pa size : Nat) : Nat :=
  assemble 1 (fun i => if s.readPoison core order (pa + i) 1 then 1 else 0) size

/-- A load at its home (R140, R293, R448, R484): the value, and the sector that L1 keeps under the lease asked for
(R298). A clicker's read brings its poison along (R255), above its 128 bytes. -/
def State.performLoad (s : State) (id : Nat) (a : Access) : State :=
  let v := s.readFor a.core a.order a.pa a.size
  let bad := s.readPoison a.core a.order a.pa a.size
  let s1 := match a.lease with
    | none => s
    | some (level, ph, epoch) =>
      let sec : L1Sector :=
        { level, ph, epoch, data := s.sectorBytes a.pa, vpage := a.value,
          poison := (granulesOf (a.pa / 128 * 128) 128).filter fun g => s.poison.has g }
      s.modLive a.core fun c => { c with mem := { c.mem with l1 := c.mem.l1.set (a.pa / 128) sec } }
  match a.kind with
  | .cread .. => s1.settle id { a with value := v + s.poisonMask a.core a.order a.pa a.size * pow2 1024 }
  | _ => s1.settle id { a with value := v, error := if bad then some .poison else none }

/-! ### The host window (R288, R434-R436) -/

def Access.isStore (a : Access) : Bool :=
  match a.kind with
  | .store => true
  | .vstore _ _ => true
  | .cwrite _ _ => true
  | _ => false

/-- The host address that an address of the window stands for (R434). -/
def State.hostAddr (s : State) (a : Access) : Word :=
  BitVec.ofNat 64 (fld (s.host.base.getD (s.ctxOf a) 0) 63 12 * 4096 + (localOf a.pa - 0xF8000000000))

/-- The function a request of a context goes out as (R434). -/
def State.fnOf (s : State) (a : Access) : Nat := (s.ctx (s.ctxOf a)).func

/-- The page of the host that the translation cache gives for an access's page (R434). -/
def State.atcPage (s : State) (a : Access) : Option Nat :=
  (s.host.atc.find? fun (e : Nat × Nat × Nat) => decide (e.1 = s.ctxOf a ∧ e.2.1 = (s.hostAddr a).toNat / 4096)).map fun e => e.2.2

/-- Sends a request to the host, a translated one where the cache has its page: a write is performed as it leaves, a read waits for its
completion. -/
def State.hostSend (s : State) (id : Nat) (a : Access) : State :=
  let plain := s.hostAddr a
  let addr := ((s.atcPage a).map fun p => BitVec.ofNat 64 (p * 4096 + plain.toNat % 4096)).getD plain
  let req := Output.hostRequest id (s.fnOf a) (s.ctxOf a) addr (s.atcPage a).isSome a.size (if a.isStore then some a.value else none)
  let s1 := { s with outputs := s.outputs ++ [req] }
  if a.isStore then (s1.copyWritten a).settle id { a with host := 0 }
  else { s1 with accs := s1.accs.set id { a with host := 3 } }

/-- An access to the host window (R434, R436): with ATS a miss of the translation cache asks for a translation first. -/
def State.hostAccess (s : State) (id : Nat) (a : Access) : State :=
  let f := s.host.fn (s.fnOf a)
  if f.insecure && !a.isStore then s.settle id { a with error := some (.remote 7) }
  else if !f.ats || (s.atcPage a).isSome then s.hostSend id a
  else
    { s with
      accs := s.accs.set id { a with host := 1 }
      outputs := s.outputs ++ [.atsRequest id (s.fnOf a) (s.ctxOf a) (s.hostAddr a)] }

/-- A request is complete: the invalidations that waited for it go on (R434). -/
def State.hostDone (s : State) (id : Nat) : State :=
  let l := s.host.invals.map fun (i : AtsInval) => { i with left := i.left.filter fun n => decide (n ≠ id) }
  { s with
    host := { s.host with invals := l.filter fun (i : AtsInval) => decide (i.left ≠ []) }
    outputs := s.outputs ++ (l.filter fun (i : AtsInval) => decide (i.left = [])).map fun (i : AtsInval) => Output.atsDone i.ctx i.page }

/-- What the host sends back: a translated address, or none where the page is not present; or the data of a read. -/
def execHostCompletionArrival (id : Nat) (data : List (BitVec 8)) (s : State) : Out :=
  .next (match s.accs.get id with
    | none => s
    | some a =>
      if a.host = 1 then
        if data = [] then
          if (s.host.fn (s.fnOf a)).pri then
            { s with
              accs := s.accs.set id { a with host := 2 }
              outputs := s.outputs ++ [.pageRequest id (s.fnOf a) (s.ctxOf a) (s.hostAddr a)] }
          else s.settle id { a with host := 0, error := some (.remote 6) }
        else
          let e := (s.ctxOf a, (s.hostAddr a).toNat / 4096, data.foldr (fun (b : BitVec 8) n => b.toNat + 256 * n) 0 / 4096 % pow2 52)
          let l := if s.host.atc.length < 1024 then s.host.atc else dropAt s.host.atc (Config.freeVictim s.free % 1024)
          ({ s with host := { s.host with atc := e :: l } }).tick.hostSend id a
      else if a.host = 3 then
        let v := data.foldr (fun (b : BitVec 8) n => b.toNat + 256 * n) 0
        (s.settle id { a with host := 0, value := v % pow2 (8 * a.size) }).hostDone id
      else s)

/-- The host's answer to a page request (R434); one on an insecure stream is dropped and counted (R436). -/
def execPageRequestResponse (id : Nat) (granted : Bool) (s : State) : Out :=
  .next (match s.accs.get id with
    | none => s
    | some a =>
      if a.host ≠ 2 then s
      else
        s.receive (s.fnOf a) fun s =>
          if granted then
            { s with
              accs := s.accs.set id { a with host := 1 }
              outputs := s.outputs ++ [.atsRequest id (s.fnOf a) (s.ctxOf a) (s.hostAddr a)] }
          else s.settle id { a with host := 0, error := some (.remote 6) })

/-- An invalidation from the host drops a translation and waits for the requests translated through it (R434); one on an insecure
stream is dropped and counted (R436). -/
def execAtsInvalidation (ctx page : Nat) (s : State) : Out :=
  let hit (e : Nat × Nat × Nat) : Bool := decide (e.1 = ctx ∧ e.2.1 = page)
  let left := (s.accs.filter fun (x : Nat × Access) =>
    decide (x.2.host = 3) && decide (s.ctxOf x.2 = ctx) && decide ((s.hostAddr x.2).toNat / 4096 = page) &&
      s.host.atc.any hit).map fun (x : Nat × Access) => x.1
  .next (s.receive (s.ctx ctx).func fun s =>
    let s1 := { s with host := { s.host with atc := s.host.atc.filter fun e => !hit e } }
    if left = [] then { s1 with outputs := s1.outputs ++ [.atsDone ctx page] }
    else { s1 with host := { s1.host with invals := s1.host.invals ++ [⟨ctx, page, left⟩] } })

/-! ### ACCESS_PERFORMED -/

/-- An access to the configuration region (R287, R288, R434). Another package's registers read as a free value. -/
def State.performConfig (s : State) (id : Nat) (a : Access) : State :=
  if s.isLocal a.pa then
    match regionOf (localOf a.pa) with
    | .regs b o =>
      if a.isStore then (s.writeBlock false b o a.size a.value).settle id a
      else s.settle id { a with value := s.readBlock b o a.size }
    | _ => s.hostAccess id a
  else if a.isStore then (s.copyWritten a).settle id a
  else (s.settle id { a with value := Config.freeRemote s.free a.pa % pow2 (8 * a.size) }).tick

/-- ACCESS_PERFORMED (R484); one that an order puts behind an earlier access is performed no earlier (R288, R307); one for another
package is at the fabric die first (R418). -/
def execAccessPerformed (id : Nat) (s : State) : Out :=
  .next (match s.accs.get id with
    | none => s
    | some a =>
      if a.performed then s
      else if a.replyAt = 0 && !s.isLocal a.pa then s.atFabric id a
      else if s.heldBehind id a then
        ({ s with accs := s.accs.set id { a with performAt := s.pcc + 1, replyAt := s.pcc + 1 + (a.replyAt - a.performAt) } }).schedule
          (s.pcc + 1) (a.acting id)
      else if isConfig a.pa then s.performConfig id a
      else
        match a.kind with
        | .store => s.performStore id a
        | .vstore _ _ => s.performStore id a
        | .cwrite _ _ => s.performStore id a
        | .amo _ op b cmp => s.performAmo id a op (storeValue b a.size) (storeValue cmp a.size) true
        | .vamo _ _ _ op b cmp r => s.performAmo id a op (storeValue b a.size) (storeValue cmp a.size) r
        | .csig _ v => s.performAmo id a 0 (wordOfInt v).toNat 0 false
        | .commit _ _ => s.settle id a
        | _ => s.performLoad id a)

/-! ### Data and errors at the core (R134, R136, R138, R139, R224, R299) -/

/-- Ends an access. -/
def State.endAccess (s : State) (id : Nat) : State := { s with accs := s.accs.del id }

/-- A register receives the answer it waits for; its readers may issue from now on (R134). -/
def Scalar.answer (sc : Scalar) (d id now : Nat) (v : Option Word) : Scalar :=
  let key := awaitKey d id
  if sc.waits.get key = some id then
    let sc1 := { sc with waits := sc.waits.del key, ready := if d = 0 then sc.ready else sc.ready.set d now }
    match v with
    | some w => sc1.mapFiles fun r => r.put (BitVec.ofNat 5 d) w
    | none => sc1
  else sc

/-- The load of the block that a group is in has its data (R380). -/
def Group.answerBlock (g : Group) (id : Nat) (v : Word) : Group :=
  { g with block := g.block.map fun b => if b.load = some id then { b with data := some v } else b }

/-- The result of an amo as x[D] takes it (R137): an FP result is zero-extended. -/
def amoValue (op size v : Nat) : Word := extend (decide (op < 8) || decide (10 < op)) size v

/-- The acquire epoch rises (R299). -/
def State.acquire (s : State) (core : Nat) : State :=
  s.modLive core fun c => { c with mem := { c.mem with epoch := c.mem.epoch + 1 } }

/-- Changes a memory micro-order of the step's vector stream. -/
def State.modMem (s : State) (order : Nat) (f : VMem → VMem) : State :=
  s.modV fun v => { v with mems := v.mems.map fun (m : VMem) => if m.order = order then f m else m }

def State.dropMem (s : State) (order : Nat) : State :=
  s.modV fun v => { v with mems := v.mems.filter fun (m : VMem) => decide (m.order ≠ order) }

/-- Replaces n bytes of an operand. -/
def putBytes (v : BitVec 8192) (at_ n x : Nat) : BitVec 8192 :=
  BitVec.ofNat 8192 (v.toNat - fld v.toNat (8 * (at_ + n) - 1) (8 * at_) * pow2 (8 * at_) + x % pow2 (8 * n) * pow2 (8 * at_))

/-- Writes of a micro-order land now (R224). -/
def State.landNow (s : State) (l : List VEffect) : State :=
  s.modHere fun c => l.foldl (fun (c : Core) e => (c.modGroup s.cur.slot fun g => g.land e).land s.pcc e) c

/-- The trap of a memory micro-order: its lowest faulting element (R224). -/
def State.trapMem (s : State) (m : VMem) : State :=
  match m.fault with
  | none => s
  | some (elem, va, err, pkg) =>
    s.raiseTrap { cause := errCause err, addr := va, aux := errAux err pkg, detail := errDetail err, elem, pc := some m.pc }

/-- The room that a micro-order has reserved in a destination port. -/
def State.releaseDest (s : State) (m : VMem) : State :=
  match m.dest with
  | some f => if isPort f then s.modHere fun c => c.modPort (opName f) fun p => { p with reserved := p.reserved - 1 } else s
  | none => s

/-- An element of a memory micro-order has been answered. With the last one a load lands, or traps at its lowest
affected element; a store's or a vupd's error waits for the busy flag to clear (R224). -/
def State.answerMem (s : State) (order : Nat) (f : VMem → VMem) : State :=
  let s1 := s.modMem order fun m => { f m with left := m.left - 1 }
  match s1.grp.v.mems.find? fun (m : VMem) => decide (m.order = order) with
  | none => s1
  | some m =>
    if m.left ≠ 0 then s1
    else if m.fault.isNone then (s1.dropMem order).landNow (m.effects s.here.job.compat)
    else if m.dest.isSome then ((s1.dropMem order).releaseDest m).trapMem m
    else s1

/-- Keeps the lower of two faulting elements. -/
def VMem.failAt (m : VMem) (elem : Nat) (va : Word) (err : DataError) (pkg : Nat) : VMem :=
  match m.fault with
  | some f => if f.1 ≤ elem then m else { m with fault := some (elem, va, err, pkg) }
  | none => { m with fault := some (elem, va, err, pkg) }

/-- A clicker's read has its bytes; what the copy writes takes its place in the core's order in the channel's next turn (R307,
R488). -/
def State.copyRead (s : State) (a : Access) (iter at_ : Nat) : State :=
  s.modRun fun r =>
    { r with copies := r.copies.map fun (k : CCopy) =>
        if k.iter = iter then
          { k with
            data := putBytes k.data at_ a.size (a.value % pow2 1024)
            poison := k.poison ||| BitVec.ofNat 1024 (a.value / pow2 1024 * pow2 at_)
            reading := k.reading - 1 }
        else k }

/-- LAUNCH has its packet: it is appended or refused, or PROTECTION (R173). One that would append a twin launch with an odd S breaks
R282, and the group traps with ILLEGAL_OPERAND and appends nothing (R2; DEDUCED, log 51). -/
def State.packetThere (s : State) (a : Access) (id queue : Nat) : State :=
  if s.holding.any (fun h => decide (h.wait = .packet id)) then
    let p := BitVec.ofNat 1024 a.value
    let stop (cause : Nat) : State := (s.modGrp fun g => { g with hold := none }).raiseTrap { cause, addr := if cause = causeProtection then a.va else 0 }
    match s.appendPacket queue p with
    | (s1, some w) =>
      if w = 0 ∧ pktOddTwin p = true then stop causeOperand
      else s1.modGrp fun g => { g with hold := g.hold.map fun h => { h with granted := some w } }
    | (_, none) => stop causeProtection
  else s

/-- LOAD_DATA_RETURN (R134, R224, R299). -/
def execLoadDataReturn (id : Nat) (s : State) : Out :=
  .next (match s.accs.get id with
    | none => s
    | some a =>
      let s1 := s.endAccess id
      if !s.awaits a then s1
      else
        s1.at a.focus fun s =>
          match a.kind with
          | .load d sg => s.modScalar fun sc => sc.answer d id s.pcc (some (extend sg a.size a.value))
          | .block sg => s.modGrp fun g => g.answerBlock id (extend sg a.size a.value)
          | .amo d op _ _ => (s.modScalar fun sc => sc.answer d id s.pcc (some (amoValue op a.size a.value))).acquire a.core
          | .vload o at_ _ => s.answerMem o fun m => { m with value := putBytes m.value at_ a.size a.value }
          | .vamo o at_ _ _ _ _ r =>
            let t := s.answerMem o fun m => if r then { m with value := putBytes m.value at_ a.size a.value } else m
            if r then t.acquire a.core else t
          | .cread _ iter at_ => s.copyRead a iter at_
          | .packetRead q => s.packetThere a id q
          | _ => s)

/-- A channel stops at a copy whose access has failed (R255). -/
def State.copyFailed (s : State) (a : Access) (iter : Nat) (err : DataError) : State :=
  let t : TrapArgs := { cause := errCause err, addr := a.va, detail := errDetail err }
  trapCopy t iter (s.dropCopies iter)

/-- DATA_ERROR_ARRIVAL (R138, R224, R255): the destination is not written, and the stream is stopped before its next
unissued instruction, which for a LAUNCH whose packet came with an error is the one after it (R449). The access of a failed ldq is kept, to be made again (R136). -/
def execDataErrorArrival (id : Nat) (err : DataError) (s : State) : Out :=
  .next (match s.accs.get id with
    | none => s
    | some a =>
      let s1 := s.endAccess id
      if !s.awaits a then s1
      else
        s1.at a.focus fun s =>
          let t : TrapArgs :=
            { cause := errCause err, addr := a.va, aux := s.scalar.pc, detail := errDetail err, pc := some a.pc }
          match a.kind with
          | .load d _ => (s.modScalar fun sc => sc.answer d id s.pcc none).raiseTrap t
          | .block _ => s.raiseTrap { t with aux := errAux err (pkgOf a.pa) }
          | .amo d _ _ _ => (s.modScalar fun sc => sc.answer d id s.pcc none).raiseTrap t
          | .ldq p =>
            let s2 := s.modHere fun c =>
              { c.modPort p fun q => { q with ldqs := q.ldqs.map fun (x : LdqSlot) => if x.id = id then { x with failed := true } else x } with
                eft := { c.eft with retry := c.eft.retry ++ [id] } }
            ({ s2 with accs := s2.accs.set id { a with performed := true, error := some err, window := 16 } }).raiseTrap t
          | .vload o _ e => s.answerMem o fun m => m.failAt e a.va err (pkgOf a.pa)
          | .vamo o _ e _ _ _ _ => s.answerMem o fun m => m.failAt e a.va err (pkgOf a.pa)
          | .cread _ iter _ => s.copyFailed a iter err
          | .cwrite _ iter => ((s.dropPend a.core a.order).copyFailed a iter err).releaseWaiting
          | .packetRead _ =>
            ((s.modGrp fun g => { g with hold := none }).raiseTrap { t with pc := none, aux := errAux err (pkgOf a.pa) }).modScalar fun sc =>
              { sc with pc := sc.pc + 4 }
          | _ => s)

/-- LDQ_DATA_ARRIVAL (R136): the reserved bytes are filled, and the port takes the bytes that are there in order. -/
def execLdqDataArrival (id : Nat) (s : State) : Out :=
  .next (match s.accs.get id with
    | none => s
    | some a =>
      let s1 := s.endAccess id
      match a.kind with
      | .ldq n =>
        s1.modLive a.core fun c => c.modPort n fun p =>
          let l := p.ldqs.map fun (x : LdqSlot) => if x.id = id then { x with data := some a.value, failed := false } else x
          let there := l.takeWhile fun (x : LdqSlot) => x.data.isSome
          ({ p with ldqs := l.drop there.length }).append (there.flatMap fun (x : LdqSlot) => plainBytes x.size (x.data.getD 0)) s.pcc
      | _ => s1)

/-- STORE_ACK (R134, R225, R293); a commit message that waited for it may leave (R417). -/
def execStoreAck (id : Nat) (s : State) : Out :=
  .next (match s.accs.get id with
    | none => s
    | some a =>
      let s1 := ((s.endAccess id).modPend a.core a.order fun p => { p with acked := true }).releaseWaiting
      if !s.awaits a then s1
      else
        match a.kind with
        | .vstore o _ => s1.at a.focus fun s => s.answerMem o fun m => m
        | _ => s1)

/-- STORE_ERROR_RECORD (R139, R224): the error is kept against the group and its class; the store has no effect. -/
def execStoreErrorRecord (id reason : Nat) (s : State) : Out :=
  .next (match s.accs.get id with
    | none => s
    | some a =>
      let s1 := ((s.endAccess id).dropPend a.core a.order).releaseWaiting
      if !s.awaits a then s1
      else
        s1.at a.focus fun s =>
          let e : StoreErr := ⟨a.cls, a.va, reason⟩
          match a.kind, a.stream with
          | .vstore o n, _ => s.answerMem o fun m => m.failAt n a.va (.remote reason) (pkgOf a.pa)
          | _, .control => s.modCtl s.cur.core fun c => { c with storeErrs := c.storeErrs ++ [e] }
          | _, .group => s.modGrp fun g => { g with storeErrs := g.storeErrs ++ [e] }
          | _, _ => s)

/-! ### Commits (R294, R295, R486) -/

/-- COMMIT_MESSAGE (R486): the pending bytes it names become committed at the home. -/
def execCommitMessage (id : Nat) (s : State) : Out :=
  .next (match s.accs.get id with
    | none => s
    | some a =>
      match a.kind with
      | .commit _ stores =>
        let ps := (s.core a.core).mem.pend.filter fun (p : PStore) => stores.any fun q => decide (q.order = p.order)
        if a.replyAt = 0 && !s.isLocal a.pa then s.atFabric id a
        else (if ps = [] then s else s.commitStores a.core ps).settle id a
      | _ => s)

/-- COMMIT_ACK (R486): the event is complete with its last acknowledgement. Bytes that no home took are gone. -/
def execCommitAck (id : Nat) (s : State) : Out :=
  .next (match s.accs.get id with
    | none => s
    | some a =>
      match a.kind with
      | .commit _ stores =>
        (s.endAccess id).modLive a.core fun c =>
          { c with mem := { c.mem with
              commits := (c.mem.commits.mapVal fun _ l => l.filter fun n => decide (n ≠ id)).filter fun x => decide (x.2 ≠ [])
              pend := c.mem.pend.filter fun (p : PStore) => !(p.committing && stores.any fun q => decide (q.order = p.order)) } }
      | _ => s)

/-! ### L1 and the version buffers (R295, R301, R485) -/

/-- DIRTY_SECTOR_EVICTION (R301): the sector's bytes go to an entry, and its line leaves L1; without a free entry it
waits. -/
def execDirtySectorEviction (core sector : Nat) (s : State) : Out :=
  let e := Event.dirtySectorEviction core sector
  let dirty := (s.core core).mem.pend.filter fun (p : PStore) => decide (p.place = .dirty) && decide (p.pa / 128 = sector)
  .next (if dirty = [] then s
    else if s.entryFree core (sector * 128) then
      s.modLive core fun c =>
        let c1 := c.mapPend fun p => if p.place = .dirty ∧ p.pa / 128 = sector then { p with place := .versioned } else p
        { c1 with mem := { c1.mem with l1 := c1.mem.l1.del sector } }
    else
      let s1 := s.schedule (s.pcc + 1) e
      if s.agenda.any (fun (p : Nat × Event) => decide (p.2 = .forcedCommit core sector)) then s1
      else s1.schedule (s.pcc + 4096) (.forcedCommit core sector))

/-- FORCED_COMMIT (R301): the sector that has waited 4,096 cycles for an entry is committed at once, and counted. -/
def execForcedCommit (core sector : Nat) (s : State) : Out :=
  let late (a : Access) : Bool :=
    decide (a.core = core) && a.isStore && !a.performed && decide (a.pa / 128 = sector) && decide (a.performAt + 4096 ≤ s.pcc)
  let waiting := (s.accs.filter fun (x : Nat × Access) => late x.2).map fun (x : Nat × Access) => x.2.order
  let evicted := s.agenda.any fun (p : Nat × Event) => decide (p.2 = .dirtySectorEviction core sector)
  let ps := (s.core core).mem.pend.filter fun (p : PStore) =>
    decide (p.pa / 128 = sector) && (p.performed || waiting.contains p.order)
  .next (if (!evicted && decide (waiting = [])) || decide (ps = []) then s
    else
      let die := (homeDie (regionOf (localOf (sector * 128)))).getD (dieOf core)
      ((s.commitStores core ps).unschedule (.dirtySectorEviction core sector)).modDie die fun d =>
        { d with fcommit := bump d.fcommit })

/-- The lines of L1: a line is four sectors, and 16 sets of 8 lines hold them (00_scope, R286, R485). A dirty sector that waits for a
version-buffer entry has left its way (R301; DESIGN CHOICE, log 59). -/
def Core.lines (c : Core) (leaving : List Nat) : NatSet :=
  let l := (c.mem.l1.map fun (e : Nat × L1Sector) => e.1 / 4) ++
    ((c.mem.pend.filter fun (p : PStore) => decide (p.place = .dirty) && !leaving.contains (p.pa / 128)).map fun (p : PStore) => p.pa / 512)
  l.foldl NatSet.add ([] : NatSet)

/-- A line of a set that holds more than eight, if there is one; which one leaves is a free value. -/
def Core.overfull (c : Core) (free : Nat) (leaving : List Nat) : Option Nat :=
  let lines := c.lines leaving
  ((List.range 16).map fun n => lines.filter fun l => decide (l % 16 = n)).findSome? fun set =>
    if set.length > 8 then set[Config.freeVictim free % set.length]? else none

/-- L1_LINE_REPLACEMENT (R301, R485): the line's leases end, and its dirty sectors are evicted. -/
def execL1LineReplacement (core line : Nat) (s : State) : Out :=
  let dirty := ((s.core core).mem.pend.filter fun (p : PStore) => decide (p.place = .dirty) && decide (p.pa / 512 = line))
  let s1 := s.modLive core fun c => { c with mem := { c.mem with l1 := c.mem.l1.filter fun (e : Nat × L1Sector) => decide (e.1 / 4 ≠ line) } }
  .next ((sectorsOf dirty).foldl (fun (s : State) n => s.schedule s.pcc (.dirtySectorEviction core n)) s1).tick

/-! ### Walks (R389-R394, R374) -/

/-- The table entries above the leaf that a walk has read (R393). -/
def tableEntries (m : Memory) (ctx va : Nat) : Nat → Nat → List WalkCached
  | 0, _ => []
  | level + 1, table =>
    let e := Memory.readN m (table + 8 * tableIndex va (level + 1)) 8
    if e % 2 = 1 && decide (fld e 1 1 = 0) && !malformedEntry e (level + 1) then
      ⟨ctx, level + 1, va / pageBytes (level + 1), e⟩ :: tableEntries m ctx va level (fld e 55 13 * 8192)
    else []

/-- Keeps table entries in a die's walk cache; which of 256 one replaces is a free value. -/
def Die.keepEntries (d : Die) (l : List WalkCached) (free : Nat) : Die :=
  l.foldl (fun (d : Die) x =>
    if d.wcache.contains x then d
    else if d.wcache.length < 256 then { d with wcache := x :: d.wcache }
    else { d with wcache := x :: dropAt d.wcache (Config.freeVictim free % 256) }) d

/-- The failed page of a code object that holds an address of a context (R374). -/
def State.failedPage (s : State) (ctx va : Nat) : Option Nat :=
  s.objects.findSome? fun (o : Nat × CodeObject) =>
    if o.2.ctx = ctx ∧ o.2.va ≤ va ∧ va < o.2.va + o.2.npage * 65536 then
      let page := (va - o.2.va) / 65536
      if o.2.failed.has page then some page else none
    else none

/-- Ends a stream's wait for a walk. -/
def State.walkOver (s : State) (id : Nat) : State :=
  match s.cur.stream with
  | .chan _ => s.modRun fun r => if r.walk = some id then { r with walk := none } else r
  | .vector => s
  | .matrix => s
  | _ => if s.holding.any (fun h => decide (h.wait = .walk id)) then s.clearHold else s

/-- Whether the stream of a request still waits for the walk. -/
def State.walkAwaited (s : State) (id : Nat) (q : WalkReq) : Bool :=
  s.cores.has q.focus.core &&
    (match q.focus.stream with
     | .group => ((s.core q.focus.core).group q.focus.slot).hold.any fun h => decide (h.wait = .walk id) || decide (h.wait = .packetWalk id)
     | .eft => (s.core q.focus.core).eft.hold.any fun h => decide (h.wait = .walk id)
     | .chan n => ((s.core q.focus.core).chan n).run.any fun r => decide (r.walk = some id)
     | .matrix => (s.core q.focus.core).matrix.run.any fun r => !r.trapped && !r.ended && (decide (q.va = r.pc) || decide (q.va = r.pc + 4))
     | .vector => (s.core q.focus.core).groups.has q.focus.slot && ((s.core q.focus.core).group q.focus.slot).v.busy &&
         !((s.core q.focus.core).group q.focus.slot).v.stopped
     | _ => false)

/-- The trap of a failed fetch (R146, R396): it is charged to the stream's own word. A jalr records its target, and a word of
a program that a CRUN reads past the header is charged to the channel (R74). -/
def State.trapFetch (s : State) (va : Word) (t : TrapArgs) : State :=
  let own := match s.cur.stream with
    | .group | .eft => s.scalar.pc
    | _ => va
  if own = va then s.raiseTrap t
  else
    match s.fetch s.curKey s.curCtx own with
    | .word w =>
      match decodeScalar w.toNat with
      | .ok (.jalr _ _ _) => s.raiseTrap { t with aux := va }
      | .ok (.crun a _ u _) =>
        if s.x a = va then s.raiseTrap t
        else s.at ⟨s.cur.core, s.cur.slot, .chan (u.toNat - 2)⟩ fun s => s.raiseTrap { t with pc := some va }
      | _ => s.raiseTrap t
    | _ => s.raiseTrap t

/-- A failed walk: each request it answers traps with TRANSLATION, or with CODE_INTEGRITY on a failed page of a code
object (R374, R394, R397). A poisoned entry stands in the error log too, once for the walk (R448). -/
def State.walkFailed (s : State) (id : Nat) (w : Walk) (level : Nat) (malformed : Bool) : State :=
  let at_ := s.walkStart w.core w.ctx w.va
  let logged := match poisonedEntry s.mem s.poison (fun a => (s.noHome a).isSome) w.va at_.1 at_.2 with
    | some a => s.logPoison a w.ctx 7
    | none => s
  let others := s.walks.filter fun (x : Nat × Walk) => decide (x.2.stage = .queued) && x.2.same w
  let all := ((id, w) :: others).flatMap fun (x : Nat × Walk) => x.2.joined.map fun q => (x.1, q)
  let begun := if malformed then logged else s
  all.foldl (fun (s : State) (x : Nat × WalkReq) =>
    let q := x.2
    if !s.walkAwaited x.1 q then s
    else
      s.at q.focus fun s =>
        let s1 := s.walkOver x.1
        let t : TrapArgs := match s.failedPage w.ctx q.va.toNat with
          | some page => { cause := causeIntegrity, addr := q.va, detail := page, elem := q.elem }
          | none => { cause := causeTranslation, addr := q.va, detail := level + (if malformed then 16 else 0), elem := q.elem }
        match q.focus.stream with
        | .chan _ =>
          match s1.ch.run with
          | some r => if r.op.isSome && decide (r.next < iterations r.levels) then trapCopy t r.next s1 else s1.raiseTrap t
          | none => s1
        | _ => if q.fetch then s1.trapFetch q.va t else s1.raiseTrap t)
    { begun with walks := begun.walks.filter fun (x : Nat × Walk) => !others.any fun y => decide (y.1 = x.1) }

/-- A walk that has found a translation answers every request in the page, and the entry is installed in the strip TLBs
and the L1 TLBs of its requesters (R393, R394). -/
def State.walkFound (s : State) (id : Nat) (w : Walk) (e : TlbEntry) : State :=
  let others := s.walks.filter fun (x : Nat × Walk) =>
    decide (x.2.die = w.die) && !x.2.dropped && (decide (x.2.stage = .walking) || decide (x.2.stage = .queued)) && e.covers x.2.ctx x.2.va
  let all := ((id, w) :: others).flatMap fun (x : Nat × Walk) => x.2.joined.map fun q => (x.1, q)
  let s1 := others.foldl (fun (s : State) (x : Nat × Walk) => ({ s with walks := s.walks.del x.1 }).unschedule (.tlbWalkComplete x.1)) s
  let at_ := s.walkStart w.core w.ctx w.va
  let s2 := s1.modDie w.die fun d => d.keepEntries (tableEntries s.mem w.ctx w.va at_.1 at_.2) s.free
  (all.foldl (fun (s : State) (x : Nat × WalkReq) =>
    let core := x.2.focus.core
    if !s.cores.has core then s
    else
      let strip := stripOf (physOf core)
      let s3 := s.modDie w.die fun d =>
        { d with stlbs := d.stlbs.set strip (stlbInstall (d.stlbs.getD strip []) e (Config.freeVictim s.free)) }
      let s4 := s3.modCore core fun c => { c with mem := { c.mem with tlb := tlbInstall c.mem.tlb e 32 (Config.freeVictim (s.free + 1)) } }
      s4.at x.2.focus fun s => if s.walkAwaited x.1 x.2 then s.walkOver x.1 else s) s2).tick.tick

/-- A hit in a strip TLB answers its request: the core's own TLB takes the entry (R393). -/
def State.stripFound (s : State) (id : Nat) (w : Walk) (e : TlbEntry) : State :=
  (w.joined.foldl (fun (s : State) q =>
    if !s.cores.has q.focus.core then s
    else
      let s1 := s.modCore q.focus.core fun c => { c with mem := { c.mem with tlb := tlbInstall c.mem.tlb e 32 (Config.freeVictim s.free) } }
      s1.at q.focus fun s => if s.walkAwaited id q then s.walkOver id else s) s).tick

/-- What a walk that has ended answers (R394). One that a TLBINV has dropped installs nothing, and its requests begin again
(R399); so does a hit whose entry the strip TLB has lost. -/
def State.walkAnswered (s : State) (id : Nat) (w : Walk) : State :=
  if w.dropped then
    w.joined.foldl (fun (s : State) q => if s.walkAwaited id q then s.at q.focus fun s => s.walkOver id else s) s
  else if w.stage = .hit then
    match tlbFind (s.stlb w.core) w.ctx w.va with
    | some e => s.stripFound id w e
    | none => { s with walks := s.walks.set id { w with stage := .waiting } }
  else
      match s.walkPage w.core w.ctx w.va with
      | .found e => s.walkFound id w e
      | .stopped level malformed => s.walkFailed id w level malformed

/-- TLB_WALK_COMPLETE (R394): its requests are answered, and queued walks of the die go on. -/
def execTlbWalkComplete (id : Nat) (s : State) : Out :=
  .next (match s.walks.get id with
    | none => s
    | some w => ({ s with walks := s.walks.del id }.walkAnswered id w).beginQueued w.die)

/-! ### The vector stream's end, the command window, the range checker -/

/-- Nothing of a vector stream that has ended is outstanding (R103, R225). -/
def VStream.clears (v : VStream) : Bool :=
  v.busy && v.ended && !v.stopped && decide (v.writes = []) && v.mems.all fun (m : VMem) => decide (m.left = 0)

/-- VECTOR_BUSY_CLEAR (R103, R224): a recorded store error traps here; else the stream is no longer busy. -/
def execVectorBusyClear (core slot : Nat) (s : State) : Out :=
  .next (if !((s.core core).groups.has slot && ((s.core core).group slot).v.clears) then s
    else
      s.at ⟨core, slot, .vector⟩ fun s =>
        match s.grp.v.mems.find? fun (m : VMem) => m.fault.isSome with
        | some m => (s.modV fun v => { v with mems := [] }).trapMem m
        | none => s.modV fun v => { v with busy := false, ended := false, mems := [], latch := none, seg := none })

/-- COMMAND_WINDOW_REPLAY (R244, R326, R451): the window is replayed where it may be, else the trigger traps with
POISON. An uncorrectable error poisons its word. The platform controller learns of the error, and of a replay. -/
def execCommandWindowReplay (core : Nat) (trigger : ReplayTrigger) (s : State) : Out :=
  let unit : Nat × Nat := match trigger.site with
    | .bank _ row => (0x01, row)
    | .packet => (0x01, 0)
    | .acc tile row => (0x03, tile * 32 + row)
  .next (if !s.cores.has core then s
    else
      s.at ⟨core, 0, .matrix⟩ fun s =>
        match s.here.matrix.run with
        | none => s
        | some r =>
          if r.trapped then s
          else
            let done := s.here.matrix.replayable
            let poisoned := if trigger.isParity then s.modHere fun c => { c with matrix := c.matrix.poisonSite trigger.site } else s
            let s1 := if trigger.isParity || done then
                (poisoned.detect
                  { uclass := unit.1, index := unit.2, core := physOf core, die := dieOf core, addr := 0
                    synd := Config.freeWord s.free % pow2 64, sev := 1, action := if done then 1 else 2, detected := s.pcc }).tick
              else s
            if done then s1.modHere fun c => c.startReplay s.pcc
            else s1.raiseTrap { cause := causePoison })

/-- Whether an entry of the range checker may leave: its accesses are complete, and a command of the open window keeps
its entry (R117, R243). A command that issues once the window has overflowed is not kept in it, nor its entry (DESIGN CHOICE,
log 48). -/
def Core.retires (c : Core) (e : RcEntry) : Bool :=
  e.complete && !(decide (e.source = 0) && c.matrix.window.any fun w => w.cmds.any fun (k : WCmd) => decide (k.cmd = e.cmd))

/-- RANGE_ENTRY_RETIRE (R117). -/
def execRangeEntryRetire (core entry : Nat) (s : State) : Out :=
  .next (s.modLive core fun c => { c with rc := c.rc.filter fun (e : RcEntry) => !(decide (e.order = entry) && c.retires e) })

end Sys2Proof.Machine
end

