-- ==== Sys2Proof/Machine/Issue.lean ====
section
/-! DEFINITION. Whether a scalar stream's next instruction may issue (R98, R99, R43): the registers it names, and the
scoreboard. -/

namespace Sys2Proof.Machine

/-- The scalar registers that a scalar instruction reads or writes (R98). Other forms name none. -/
def scalarNames : Instr → List (BitVec 5)
  | .add d a b _ => [d, a, b]
  | .sub d a b _ => [d, a, b]
  | .and d a b _ => [d, a, b]
  | .or d a b _ => [d, a, b]
  | .xor d a b _ => [d, a, b]
  | .andn d a b _ => [d, a, b]
  | .sll d a b _ => [d, a, b]
  | .srl d a b _ => [d, a, b]
  | .sra d a b _ => [d, a, b]
  | .rotr d a b _ => [d, a, b]
  | .slt d a b _ => [d, a, b]
  | .sltu d a b _ => [d, a, b]
  | .min d a b _ => [d, a, b]
  | .max d a b _ => [d, a, b]
  | .minu d a b _ => [d, a, b]
  | .maxu d a b _ => [d, a, b]
  | .mul d a b _ => [d, a, b]
  | .mulh d a b _ => [d, a, b]
  | .mulhu d a b _ => [d, a, b]
  | .div d a b _ => [d, a, b]
  | .divu d a b _ => [d, a, b]
  | .rem d a b _ => [d, a, b]
  | .remu d a b _ => [d, a, b]
  | .addw d a b _ => [d, a, b]
  | .subw d a b _ => [d, a, b]
  | .mulw d a b _ => [d, a, b]
  | .sllw d a b _ => [d, a, b]
  | .srlw d a b _ => [d, a, b]
  | .sraw d a b _ => [d, a, b]
  | .clz d a _ => [d, a]
  | .ctz d a _ => [d, a]
  | .popc d a _ => [d, a]
  | .bswap d a _ => [d, a]
  | .sel d a b _ => [d, a, b]
  | .fadd d a b _ _ => [d, a, b]
  | .fsub d a b _ _ => [d, a, b]
  | .fmul d a b _ _ => [d, a, b]
  | .fdiv d a b _ _ => [d, a, b]
  | .fsqrt d a _ _ => [d, a]
  | .fmin d a b _ _ => [d, a, b]
  | .fmax d a b _ _ => [d, a, b]
  | .fmac d a b _ _ => [d, a, b]
  | .feq d a b _ _ => [d, a, b]
  | .flt d a b _ _ => [d, a, b]
  | .fle d a b _ _ => [d, a, b]
  | .fcvt d a _ _ => [d, a]
  | .ftoi d a _ _ => [d, a]
  | .ftou d a _ _ => [d, a]
  | .itof d a _ _ => [d, a]
  | .utof d a _ _ => [d, a]
  | .fabs d a _ _ => [d, a]
  | .fneg d a _ _ => [d, a]
  | .jalr d a _ => [d, a]
  | .jget d _ _ => [d]
  | .jset _ a _ => [a]
  | .addi d a _ => [d, a]
  | .andi d a _ => [d, a]
  | .ori d a _ => [d, a]
  | .xori d a _ => [d, a]
  | .slti d a _ => [d, a]
  | .sltiu d a _ => [d, a]
  | .slli d a _ => [d, a]
  | .srli d a _ => [d, a]
  | .srai d a _ => [d, a]
  | .bfx d a _ _ => [d, a]
  | .bfxS d a _ _ => [d, a]
  | .bfi d a _ _ => [d, a]
  | .li d _ => [d]
  | .lih d _ => [d]
  | .adpc d _ => [d]
  | .ld d a _ _ _ => [d, a]
  | .ldu d a _ _ _ => [d, a]
  | .st d a _ _ _ => [d, a]
  | .lds d a _ _ => [d, a]
  | .ldsu d a _ _ => [d, a]
  | .sts d a _ _ => [d, a]
  | .ldq _ a _ _ _ => [a]
  | .amoAdd d a b _ _ => [d, a, b]
  | .amoAnd d a b _ _ => [d, a, b]
  | .amoOr d a b _ _ => [d, a, b]
  | .amoXor d a b _ _ => [d, a, b]
  | .amoMin d a b _ _ => [d, a, b]
  | .amoMax d a b _ _ => [d, a, b]
  | .amoSwap d a b _ _ => [d, a, b]
  | .amoCas d a b _ _ => [d, a, b]
  | .amoFadd d a b _ _ => [d, a, b]
  | .amoFmin d a b _ _ => [d, a, b]
  | .amoFmax d a b _ _ => [d, a, b]
  | .beq a b _ => [a, b]
  | .bne a b _ => [a, b]
  | .blt a b _ => [a, b]
  | .bge a b _ => [a, b]
  | .bltu a b _ => [a, b]
  | .bgeu a b _ => [a, b]
  | .jal _ => [30]
  | .cwaitCont _ a _ => [a]
  | .vrun a b _ => [a, b]
  | .vwait d _ => [d]
  | .mrun a _ => [a]
  | .mwait d _ => [d]
  | .crun a b _ _ => [a, b]
  | .cwait a _ _ => [a]
  | .erun d a b _ => [d, a, b]
  | .fmtq a _ => [a]
  | .trdl a _ => [a]
  | .stitch d _ => [d]
  | .bind a _ _ => [a]
  | .qdepth d _ _ => [d]
  | .rbacqW d a _ => [d, a]
  | .rbacqT d a _ => [d, a]
  | .rbrel a _ => [a]
  | .tqpush d a b _ => if b.toNat ≤ 29 then [d, a, b, b + 1, b + 2] else []
  | .launch d a b _ => [d, a, b]
  | .csrr d _ => [d]
  | .csrw d a _ => [d, a]
  | .csrs d a _ => [d, a]
  | .csrc d a _ => [d, a]
  | .icinv a _ => [a]
  | .tlbinv a _ => [a]
  | .moult a => [a]
  | .qread d _ => [d]
  | .rdpcc d => [d]
  | _ => []

/-- Whether the instruction is a CSR form that names FLAGS, LSAT or AMAX, which waits for every earlier scalar
instruction (R43, R98). -/
def namesArith : Instr → Bool
  | .csrr _ num => arith num
  | .csrw _ _ num => arith num
  | .csrs _ _ num => arith num
  | .csrc _ _ num => arith num
  | _ => false
where
  arith (num : BitVec 16) : Bool := decide (num = 1) || decide (num = 3) || decide (num = 4)

/-- Whether the scoreboard of a scalar stream lets an instruction issue in a cycle (R98, R99); a form that names FLAGS, LSAT
or AMAX waits for every earlier instruction, global loads and atomics included (R43). -/
def Scalar.admits (sc : Scalar) (i : Instr) (now : Nat) : Bool :=
  decide (sc.nextIssue ≤ now) &&
    ((scalarNames i).all fun n => !sc.waits.has n.toNat && decide (sc.ready.getD n.toNat 0 ≤ now)) &&
    (!namesArith i || (decide (sc.done ≤ now) && decide (sc.waits = [])))

/-- The access that an instruction waits for, if it names a register that one is to write: the one issued first
(R98, R263). -/
def State.awaited (s : State) (sc : Scalar) (i : Instr) : Option Nat :=
  let ids := (scalarNames i).filterMap fun n => sc.waits.get n.toNat
  ids.foldl (fun (acc : Option Nat) n =>
    match acc with
    | none => some n
    | some m =>
      let at_ (k : Nat) : Nat := ((s.accs.get k).map fun (a : Access) => a.issued).getD 0
      if at_ n < at_ m then some n else some m) none

/-- The instruction at a stream's pc, where its word is to be had and decodes. -/
def State.scalarAt (s : State) (core ctx : Nat) (pc : Word) : Option Instr :=
  match s.fetch core ctx pc with
  | .word w => (decodeScalar w.toNat).instr
  | _ => none

end Sys2Proof.Machine
end

