-- ==== Sys2Proof/Machine/Sched.lean ====
section
/-! DEFINITION. The events of the ports, the treadle controller and the core's scheduler (R121, R162-R167, R174,
R263-R274, R317-R325). -/

namespace Sys2Proof.Machine

/-! ### Peer ports (R121, R166, R274) -/

/-- The bytes of whole packets that have not left an outbound port yet. -/
def Port.outgoing (p : Port) (now : Nat) : List PortByte :=
  (((p.packets.filter fun (k : Packet) => decide (k.seen ≤ now)).flatMap fun (k : Packet) => packetBytes k p.bytesPer)).drop p.gone

/-- Bytes leave an outbound port; a packet whose bytes have all left is gone. -/
def Port.depart (p : Port) (n : Nat) : Port :=
  let whole := (p.gone + n) / p.bytesPer
  { p with packets := p.packets.drop whole, gone := (p.gone + n) % p.bytesPer, leaving := p.leaving + n }

/-- The bytes that may leave for the peer now: eight flits at most (R119), into room of the inbound port, one packet a
cycle. -/
def State.peerBytes (s : State) (core n : Nat) : List PortByte :=
  match s.peerOf core n with
  | none => []
  | some k =>
    let p := (s.core core).port n
    let room := ((s.core k).port (descPport p.desc)).byteRoom
    if s.flights.any fun (f : Nat × Flight) => decide (f.2.srcCore = core) && decide (f.2.srcPort = n % 16) && decide (f.2.left = s.pcc)
    then []
    else (p.outgoing s.pcc).take (min room 256)

/-- PEER_BYTE_TRANSFER (R166): bytes leave into room reserved in the inbound port. -/
def execPeerByteTransfer (core port : Nat) (s : State) : Out :=
  .next (match s.peerOf core port, s.peerBytes core port with
    | some k, b :: rest =>
      let bytes := b :: rest
      let p := (s.core core).port port
      let q := descPport p.desc
      let since := ((s.core k).port q).since
      let ahead := (s.flights.filter fun (f : Nat × Flight) => decide (f.2.core = k) && decide (f.2.port = q) && decide (f.2.since = since)).length
      let f : Flight :=
        { srcCore := core, srcPort := port % 16, core := k, port := q, number := ((s.core k).port q).taken + ahead, bytes,
          left := s.pcc, srcSince := p.since, since }
      let id := s.nextId
      let s1 := s.modCore core fun c => c.modPort port fun x => x.depart bytes.length
      let s2 := s1.modCore k fun c => c.modPort q fun x => { x with inflight := x.inflight + bytes.length }
      let (s3, t) := s2.carry (dieOf core) (coreSpot (physOf core)) (coreSpot (physOf k)) (ceilDiv bytes.length 32) s.pcc
      ({ s3 with flights := s3.flights.set id f, nextId := id + 1 }).schedule t (.packetDelivery id)
    | _, _ => s)

/-- PACKET_DELIVERY (R121): a packet waits for the earlier ones of its binding; then its bytes enter the port. A port
whose binding has ended discards them (R258, R273, R274). -/
def execPacketDelivery (id : Nat) (s : State) : Out :=
  .next (match s.flights.get id with
    | none => s
    | some f =>
      let n := f.bytes.length
      let away (s : State) : State :=
        { s.modLive f.srcCore (fun c => c.modPort f.srcPort fun p => if p.since = f.srcSince then { p with leaving := p.leaving - n } else p) with
          flights := s.flights.del id }
      let q := (s.core f.core).port f.port
      if !s.cores.has f.core || decide (q.inflight = 0) || decide (q.since ≠ f.since) then
        (away s).modLive f.core fun c => { c with discarded := c.discarded + n }
      else if q.taken < f.number then s.schedule (s.pcc + 1) (.packetDelivery id)
      else
        (away s).modLive f.core fun c => c.modPort f.port fun p =>
          { p with inflight := p.inflight - n, taken := p.taken + 1 }.append f.bytes s.pcc)

/-- PORT_UNBIND_COMPLETE (R167, R272). -/
def execPortUnbindComplete (core port : Nat) (s : State) : Out :=
  let p := (s.core core).port port
  .next (if p.status = .closing && p.drained then s.modLive core fun c => c.modPort port fun _ => Port.unbound else s)

/-! ### Demands (R162, R322, R325) -/

/-- The demand that may be sent now: the first whose stitcher core has a place, and that no demand for the same core
waits before (R322). -/
def State.sendable (s : State) (t : Treadle) : Option Demand :=
  (t.waiting.zipIdx.find? fun (d : Demand × Nat) =>
    decide ((s.core d.1.core).places < 8) && !((t.waiting.take d.2).any fun (e : Demand) => decide (e.core = d.1.core))).map (·.1)

/-- Removes the first demand equal to one. -/
def dropDemand : List Demand → Demand → List Demand
  | [], _ => []
  | x :: rest, d => if x = d then rest else x :: dropDemand rest d

def demandPort (d : Word) : Nat := fld d.toNat 59 56
def demandKind (d : Word) : Nat := fld d.toNat 63 60
def demandRole (d : Word) : Nat := fld d.toNat 55 40

/-- The cycle in which the last demand of a run that is on its way to a stitcher core arrives: a later one arrives no earlier
(R322). -/
def State.lastDemand (s : State) (d : Demand) : Nat :=
  s.agenda.foldl (fun (t : Nat) (p : Nat × Event) => match p.2 with
    | .demandArrival k x => if k = d.core ∧ demandRole x = demandRole d.descr then max t p.1 else t
    | _ => t) 0

/-- DEMAND_SEND (R322): a place is reserved and the demand leaves; room in the controller raises more. -/
def execDemandSend (core : Nat) (s : State) : Out :=
  .next (match s.sendable (s.core core).treadle with
    | none => s
    | some d =>
      let s1 := s.modLive core fun c =>
        { c with treadle := { c.treadle with
            waiting := dropDemand c.treadle.waiting d
            sent := if demandKind d.descr = 15 ∨ (d.core, demandPort d.descr) ∈ c.treadle.sent then c.treadle.sent
              else c.treadle.sent ++ [(d.core, demandPort d.descr)] } }
      let s2 := s1.modLive d.core fun c => { c with places := c.places + 1 }
      let (s3, t) := s2.carry (dieOf core) (coreSpot (physOf core)) (coreSpot (physOf d.core)) 1 s.pcc
      let s3 := s3.schedule (max t (s.lastDemand d)) (.demandArrival d.core d.descr)
      s3.at ⟨core, 0, .matrix⟩ fun s =>
        if s.here.treadle.tstate.toNat % 8 < 4 ∧ s.mx.replay = none then s.raiseDemands 64 else s)

/-- DEMAND_ARRIVAL (R162): the oldest waiting STITCH takes it, or it is held. -/
def execDemandArrival (core : Nat) (descriptor : BitVec 64) (s : State) : Out :=
  .next (s.modLive core fun c =>
    match c.waiting Wait.demand? with
    | slot :: _ =>
      c.freePlace.modGroup slot fun g => { g with hold := g.hold.map fun h => { h with granted := some descriptor } }
    | [] => { c with demands := c.demands ++ [descriptor] })

/-- Whether a descriptor is a demand of the run of a treadle core. -/
def ofRun (role : Nat) (d : Word) : Bool := decide (demandRole d = role) && decide (demandKind d ≠ 15)

/-- Discards the demands of a run that no STITCH has taken: held at the stitcher cores of its launch and in flight
(R325). -/
def State.discardDemands (s : State) (core : Nat) : State :=
  let j := (s.core core).job
  let role := j.role.toNat % 65536
  let mine (k : Nat) : Bool := decide ((s.core k).job.launch = j.launch) && decide (dieOf k = dieOf core)
  let flying := s.agenda.filterMap fun (p : Nat × Event) => match p.2 with
    | .demandArrival k d => if mine k && ofRun role d then some k else none
    | _ => none
  let s1 := { s with agenda := s.agenda.filter fun (p : Nat × Event) => match p.2 with
    | .demandArrival k d => !(mine k && ofRun role d)
    | _ => true }
  { s1 with cores := s1.cores.mapVal fun k (c : Core) =>
      if mine k then
        let held := c.demands.filter fun d => ofRun role d
        let n := held.length + (flying.filter fun x => decide (x = k)).length
        { c with demands := c.demands.filter (fun d => !ofRun role d), places := c.places - n }
      else c }

/-- TREADLE_RUN_END (R324, R325). -/
def execTreadleRunEnd (core : Nat) (s : State) : Out :=
  .next (if !((s.core core).matrix.run.any fun (r : MRun) => r.treadle) || decide ((s.core core).treadle.tstate.toNat % 8 ≠ 4) then s
    else
      let t := (s.core core).treadle
      let own := t.waiting.filter fun (d : Demand) => decide (demandKind d.descr ≠ 15)
      let pairs := own.foldl (fun (l : List (Nat × Nat)) (d : Demand) =>
        if (d.core, demandPort d.descr) ∈ l then l else l ++ [(d.core, demandPort d.descr)]) t.sent
      (s.discardDemands core).modLive core fun c =>
        let ends := pairs.map fun (p : Nat × Nat) =>
          (⟨p.1, demandWord 15 p.2 c.job.role.toNat (t.rpb - 1) 0 t.tbeat.toNat⟩ : Demand)
        { c with
          matrix := { c.matrix with run := none, window := none }
          treadle := { t.toState (t.tstate.toNat / 256 % 8) 5 with
            waiting := t.waiting.filter (fun (d : Demand) => decide (demandKind d.descr = 15)) ++ ends, sent := [] } })

/-- CONSEC with another count (R316). -/
def Treadle.toConsec (t : Treadle) (n : Nat) : Treadle :=
  { t with tstate := BitVec.ofNat 32 (t.tstate.toNat % 65536 + n * 65536) }

/-- TREADLE_SLOT_START (R317, R319, R320, R322, R326): at a slot start in which no beat has issued the slot is missed; else the
demands that are due are raised. -/
def execTreadleSlotStart (core : Nat) (s : State) : Out :=
  .next (s.at ⟨core, 0, .matrix⟩ fun s =>
    let t := s.here.treadle
    if !(s.mx.treadleRun && s.mx.replay.isNone && decide (t.tstate.toNat % 8 < 4)) then s
    else if !s.slotStart || decide (s.pcc ≤ t.slot) then s.raiseDemands 64
    else if s.nextAport.any s.endMark then s.takeEndMark (s.nextAport.getD 0)
    else
      let n := t.tstate.toNat / 65536 % 256 + 1
      let s1 := s.modTd fun t =>
        { (t.toState 0 3).toConsec n with
          slot := s.pcc, missed := t.missed + 1
          tmiss := if t.tmiss = 0xFFFFFFFF then t.tmiss else t.tmiss + 1 }
      if t.strict || decide (n ≥ 16) then
        (s1.modTd fun t => t.toState 5 4).raiseTrap
          { cause := causeStarve, aux := BitVec.ofNat 64 (t.tbeat.toNat + (s1.here.treadle.tmiss.toNat) * pow2 32) }
      else s1)

/-! ### The scheduler (R263-R265, R270) -/

/-- Whether a block that the group has been granted is still to be created (R269, R270). -/
def Group.awaits (g : Group) : Bool := g.blocks.any fun b => decide (b.2 = .awaited)

/-- The wake condition of a WAITING group holds (R263); an RBACQ.w waits on while a block it is granted finds no place
(R269). -/
def Core.wakes (c : Core) (accs : FMap Access) (g : Group) : Bool :=
  match g.hold with
  | none => true
  | some h =>
    match h.wait with
    | .load id => !accs.has id
    | .count ch n => h.granted.isSome || countReached (c.chan ch).cc n
    | .countAt ch n _ => h.granted.isSome || countReached (c.chan ch).cc n
    | .blocks _ _ => h.granted.isSome && !g.awaits
    | _ => h.granted.isSome

/-- GROUP_WAKE (R260, R263): a CWAIT has its count; a waited load is there. -/
def execGroupWake (core slot : Nat) (s : State) : Out :=
  .next (s.modLive core fun c =>
    let g := c.group slot
    if !(c.groups.has slot && decide (g.status = .waiting) && c.wakes s.accs g) then c
    else
      let c1 := c.modGroup slot fun g =>
        { g with hold := g.hold.bind fun h => match h.wait with
            | .load _ => none
            | .count .. => some { h with granted := some 0 }
            | .countAt .. => some { h with granted := some 0 }
            | _ => some h }
      c1.makeReady slot s.pcc)

/-- The load that keeps a group's next instruction from issuing; a group that runs blocks has none (R383). -/
def State.blockedOn (s : State) (core slot : Nat) : Option Nat :=
  let g := (s.core core).group slot
  if (s.core core).job.blocks.isSome then none
  else (s.scalarAt core (s.core core).job.ctx g.sc.pc).bind fun i => s.awaited g.sc i

/-- Whether a word is PHASE or PHASE.E. -/
def isPhase (w : BitVec 32) : Bool :=
  match decodeScalar w.toNat with
  | .ok (.phase _) => true
  | .ok (.phaseE _) => true
  | _ => false

/-- What makes an ACTIVE group leave after a threshold (R262, R263): PHASE or PHASE.E in any of its steps, a walk, a load. -/
def State.swapWait (s : State) (core slot : Nat) : Option (Option Wait) :=
  let c := s.core core
  let g := c.group slot
  let ldsw := fld c.job.schedctl.toNat 15 8 * 16
  let phsw := fld c.job.schedctl.toNat 23 16 * 16
  if !(c.groups.has slot && decide (g.status = .active)) then none
  else
    match g.hold with
    | some ⟨since, .boundary _, none⟩ => if since + phsw ≤ s.pcc then some none else none
    | some ⟨since, .ordered, none⟩ => if isPhase g.sc.word && decide (since + phsw ≤ s.pcc) then some none else none
    | some ⟨since, .commit _, none⟩ => if isPhase g.sc.word && decide (since + phsw ≤ s.pcc) then some none else none
    | some ⟨since, .walk _, none⟩ => if since + ldsw ≤ s.pcc then some none else none
    | some ⟨_, .resource, none⟩ => loadWait ldsw
    | none => loadWait ldsw
    | _ => none
where
  loadWait (ldsw : Nat) : Option (Option Wait) :=
    match s.blockedOn core slot with
    | some id =>
      match s.accs.get id with
      | some a => if a.issued + ldsw ≤ s.pcc then some (some (.load id)) else none
      | none => none
    | none => none

/-- SWAP_TRIGGER (R263). -/
def execSwapTrigger (core slot : Nat) (s : State) : Out :=
  .next (match s.swapWait core slot with
    | none => s
    | some w =>
      s.modLive core fun c =>
        let c1 := c.modGroup slot fun g => { g with hold := match w with
          | some x => some ⟨s.pcc, x, none⟩
          | none => g.hold }
        c1.leave slot s.pcc .waiting)

/-- The head of the ready queue that may enter the active set now, into a position that was empty as the cycle began
(R264). -/
def Core.entering (c : Core) (now : Nat) : Option Nat :=
  match c.sched.readyQ with
  | slot :: _ =>
    if c.sched.vacant ≠ 0 && c.refilled slot && decide ((c.group slot).readyAt < now) then some slot else none
  | [] => none

/-- A woken group's form completes as the group re-enters (R263): its result is written, and the group goes on behind it. Blocks
that class 2 code has acquired at entry (R382), with 32 for a register, leave it where it is. -/
def Group.completes (g : Group) (now : Nat) : Group :=
  let past (f : Scalar → Scalar) : Group := { g with hold := none, sc := { f g.sc with pc := g.sc.pc + 4 } }
  let result (d : Nat) (v : Word) : Group :=
    past fun sc => (sc.mapFiles fun r => r.put (BitVec.ofNat 5 d) v).mark now 1 (BitVec.ofNat 5 d)
  match g.hold with
  | some ⟨_, .count _ _, some _⟩ => past id
  | some ⟨_, .countAt _ _ target, some _⟩ => { g with hold := none, sc := { g.sc with pc := target } }
  | some ⟨_, .boundary _, some _⟩ => { past id with arrived := none }
  | some ⟨_, .blocks _ d, some _⟩ => if d < 32 then result d 0 else { g with hold := none }
  | some ⟨_, .demand d, some v⟩ => result d v
  | _ => g

/-- ACTIVE_REFILL (R263, R264): the head enters the empty position and issues from the next cycle. -/
def execActiveRefill (core pos : Nat) (s : State) : Out :=
  .next (s.modLive core fun c =>
    match c.entering s.pcc, (c.sched.active.toList.getD (pos % 8) none) with
    | some slot, none =>
      let c1 := { c with sched := { c.sched.setPosition pos slot with readyQ := c.sched.readyQ.drop 1, vacant := c.sched.vacant - 1 } }
      c1.modGroup slot fun g =>
        let g := g.completes s.pcc
        { g with status := .active, enteredAt := s.pcc, sc := { g.sc with nextIssue := max g.sc.nextIssue (s.pcc + 1) } }
    | _, _ => c)

/-- The group that a tick rotates out (R265): of the groups in the active set for at least 64 cycles the one there
longest, the lower slot on a tie. -/
def Core.rotates (c : Core) (now : Nat) : Option Nat :=
  let full := c.sched.active.toList.all Option.isSome
  let head := match c.sched.readyQ with
    | slot :: _ => c.refilled slot
    | [] => false
  if !(full && head && decide (c.job.start < now) && decide ((now - c.job.start) % 16 = 0)) then none
  else
    let l := (c.sched.active.toList.filterMap id).filter fun g => decide ((c.group g).enteredAt + 64 ≤ now)
    let longest := l.foldl (fun (best : Option Nat) g =>
      match best with
      | none => some g
      | some b =>
        let x := (c.group g).enteredAt
        let y := (c.group b).enteredAt
        if x < y ∨ (x = y ∧ g < b) then some g else some b) none
    longest.filter fun g => !c.sched.rotating.has g

/-- A group that a tick has chosen at a form that waits, and that has come to its instruction boundary (R263, R265). -/
def Core.rotatesNow (c : Core) : Option Nat :=
  c.sched.rotating.find? fun g => decide ((c.group g).status = .active) && !(c.group g).goesOn

/-- ROTATION_TICK (R265): the group leaves at its instruction boundary, once a form that it has issued is complete. -/
def execRotationTick (core : Nat) (s : State) : Out :=
  .next (s.modLive core fun c =>
    match c.rotatesNow, c.rotates s.pcc with
    | some slot, _ => c.leaveReady slot s.pcc
    | none, some slot =>
      if (c.group slot).goesOn then { c with sched := { c.sched with rotating := c.sched.rotating.add slot } }
      else c.leaveReady slot s.pcc
    | none, none => c)

/-- BLOCK_TRANSFER (R270): the move ends, and the next request is served. -/
def execBlockTransfer (core : Nat) (s : State) : Out :=
  .next (match (s.core core).sched.move with
    | none => s
    | some m =>
      let s1 := s.modLive core fun c =>
        let c1 := { c with sched := { c.sched with move := none } }
        let c2 := if ((c1.group m.slot).blocks.has m.block) then c1.setPlace m.slot m.block m.dest else c1
        match m.back with
        | some (slot, block, p) => if (c2.group slot).blocks.has block then c2.setPlace slot block p else c2
        | none => c2
      if s1.cores.has core then s1.serveBlocks core else s1)

/-- Requests for the spilled blocks of the ready queue's head (R270). -/
def Core.requestHead (c : Core) : Core :=
  match c.sched.readyQ with
  | [] => c
  | slot :: _ =>
    let spilled := ((c.group slot).blocks.filter fun (b : Nat × Place) => match b.2 with
      | .parked _ => true
      | .store _ => true
      | _ => false).map fun (b : Nat × Place) => (slot, b.1)
    let new := spilled.filter fun (r : Nat × Nat) =>
      !(c.sched.requests.contains r) && !(c.sched.move.any fun m => decide (m.slot = r.1) && decide (m.block = r.2))
    { c with sched := { c.sched with requests := c.sched.requests ++ new } }

/-- PHASE_ARRIVAL (R174): the core's arrival is complete once its commits are acknowledged. -/
def execPhaseArrival (core : Nat) (s : State) : Out :=
  .next (s.modLive core fun c =>
    match c.job.arriving with
    | some (cid, l) => if c.committed cid then { c with job := { c.job with arriving := none, arrival := some l } } else c
    | none => c)

end Sys2Proof.Machine
end

