-- ==== Sys2Proof/Machine/Start.lean ====
section
/-! DEFINITION. Jobs and groups start and end, and the hardware task queues with the group former (R66, R169, R256-R258,
R276-R282, R376, R487). -/

namespace Sys2Proof.Machine

/-! ### The start of a group (R66, R256, R281, R282, R376) -/

/-- The stack pointer that the kernel's stack declaration gives a slot of a role (R376). -/
def Launch.stackPointer (l : Launch) (role slot : Nat) : Word :=
  let z := pow2 (fld l.info.header.toNat 20 17 + 8)
  match fld l.info.header.toNat 22 21 with
  | 1 => BitVec.ofNat 64 (pktSpRes l.packet) - BitVec.ofNat 64 (slot * z)
  | 2 => l.stack + BitVec.ofNat 64 ((role * pktSlots l.packet + slot + 1) * z)
  | _ => 0

/-- SHAPE at group start (R69, R384). -/
def shapeReset (twin compat : Bool) : BitVec 32 := if compat then 0x77 else if twin then 0xF7 else 0xFF

/-- A group at its start: every register at its reset but for the argument block, the stack, and what its task
gives it (R66, R281). -/
def Launch.newGroup (l : Launch) (j : JobInfo) (slot kind seq : Nat) (pc : Word) (regs : List (Nat × Word)) : Group :=
  let base := [(31, BitVec.ofNat 64 (pktArgs l.packet)), (29, l.stackPointer (j.role.toNat % 65536) slot)] ++ regs
  let rf := base.foldl (fun (r : RegFile) (p : Nat × Word) => r.put (BitVec.ofNat 5 p.1) p.2) RegFile.reset
  { Group.empty with
    kindId := kind, seq
    sc := { Scalar.reset with pc, rf, twin := if j.twin then some rf else Option.none, shape := shapeReset j.twin j.compat } }

/-! ### JOB_START (R66, R256) -/

/-- Where block 0 of the n-th group of a job is at its start: the sixteen even blocks of the pool come first, then
odd ones, where it is parked. The spec fixes only the parity (log 20). -/
def firstPlace (n : Nat) : Place := if n < 16 then .pool (2 * n) else .parked (2 * (n - 16) + 1)

/-- The launch-started groups of a job, by slot; a twin group takes two slots (R256, R282). -/
def Launch.firstGroups (l : Launch) (j : JobInfo) (now : Nat) : FMap Group :=
  let pc := if j.rejoin then l.info.rejoin else l.info.entry
  (List.range j.launchGroups).map fun n =>
    let slot := if j.twin then 2 * n else n
    let g := l.newGroup j slot 0xFF n pc []
    (slot, { g with
      status := if slot < 8 then .active else .ready
      enteredAt := now, readyAt := now, blocks := [(0, firstPlace n)]
      sc := { g.sc with nextIssue := now + 1 } })

/-- JOB_START: the job's state is reset, the groups of slots 0 to 7 enter the active set and the rest the ready queue. -/
def execJobStart (launch core : Nat) (s : State) : Out :=
  .next (match s.hub.launches.get launch, s.cores.get core with
    | some l, some c =>
      if c.job.launch ≠ launch ∨ c.job.seqNext ≠ 0 then s
      else
        let gs := l.firstGroups c.job s.pcc
        let slots := gs.map (·.1)
        let first := slots.filter fun n => decide (n < 8)
        let sched : Sched := (first.zipIdx).foldl (fun (q : Sched) (p : Nat × Nat) => q.setPosition p.2 p.1)
          { Sched.reset with readyQ := slots.filter fun n => decide (8 ≤ n) }
        s.setCore core { Core.empty with
          job := { c.job with start := s.pcc, seqNext := c.job.launchGroups }
          groups := gs, sched, mem := { CoreMem.reset with tlb := c.mem.tlb } }
    | _, _ => s)

/-! ### JOB_END (R257, R258) -/

/-- The die queues that a launch holds on a die. -/
def Launch.queuesOn (l : Launch) (die : Nat) : List Nat :=
  match l.dies.findIdx? fun d => decide (d = die) with
  | some n => (List.range (pktTqN l.packet)).filterMap fun q => l.tqs.get (64 * n + q)
  | _ => []

/-- No record of the launch is left on a die, and no start of its former is under way (R257). -/
def State.queuesEmpty (s : State) (launch die : Nat) : Bool :=
  let l := s.launch launch
  ((l.queuesOn die).all fun q => match (s.die die).queues.get q with
    | some t => decide (t.ring = []) && decide (t.backing = [])
    | none => true) &&
  !(s.starts.any fun (x : Nat × FormerStart) => decide (dieOf x.2.core = die) && decide ((s.core x.2.core).job.launch = launch))

/-- The conditions of a started job's end (R257): every slot free, its engines idle, and the launch's queues on the die
empty. -/
def State.jobDone (s : State) (core : Nat) : Bool :=
  let c := s.core core
  decide (c.job.seqNext ≠ 0) && decide (c.groups = []) && c.matrix.idle && (c.chans.toList.all fun h => h.run.isNone) && c.eftIdle &&
    s.queuesEmpty c.job.launch (dieOf core)

/-- The port bytes that a job's end discards (R258). -/
def Core.portBytes (c : Core) : Nat := (c.ports.toList.map Port.outBytes).sum

/-- The job on a core is gone; what the core's TLB holds stays there (R407). -/
def State.vacate (s : State) (core : Nat) : State :=
  let tlb := (s.core core).mem.tlb
  ({ s with cores := s.cores.del core }).modDie (dieOf core) fun d => { d with tlbs := d.tlbs.set (physOf core) tlb }

/-- A job is put on a core: its die enters the context's presence mask (R398), and the core's TLB is as it was. -/
def State.occupy (s : State) (core : Nat) (c : Core) : State :=
  (s.setCore core { c with mem := { c.mem with tlb := (s.die (dieOf core)).tlbs.getD (physOf core) [] } }).modCtx c.job.ctx fun x =>
    { x with presence := x.presence.add (dieOf core) }

/-- The stores of a job that have been performed since the commit event of its end began (R258, R261). -/
def Core.lateStores (c : Core) : Bool := c.mem.pend.any fun (p : PStore) => p.performed && !p.committing

/-- The stores of an ending job commit (R258). -/
def State.commitLast (s : State) (core : Nat) : State :=
  let (s1, cid) := s.beginCommit core fun _ => true
  s1.modCore core fun c => { c with job := { c.job with ending := some cid } }

/-- Whether the job of a core may end now, or the end that has begun goes on: its stores commit as they are performed. -/
def State.mayEnd (s : State) (core : Nat) : Bool :=
  let c := s.core core
  match c.job.ending with
  | none => s.jobDone core
  | some cid => c.committed cid && (decide (c.mem.pend = []) || c.lateStores)

/-- The job of a core ends: ports are unbound with their bytes counted, and the job's stores commit; once they are acknowledged the
core is idle. -/
def State.endJob (s : State) (core : Nat) : State :=
  let c := s.core core
  match c.job.ending with
  | none =>
    (s.modCore core fun c =>
      { c with discarded := c.discarded + c.portBytes, ports := Vector.replicate 16 Port.unbound
               job := { c.job with stopping := none } }).commitLast core
  | some _ =>
    if c.mem.pend ≠ [] then s.commitLast core
    else (s.vacate core).modLaunch c.job.launch fun l => { l with discard := l.discard + c.discarded }

/-! ### Pushes (R277, R487) -/

def State.taskQueue (s : State) (die q : Nat) : TaskQueue :=
  (s.die die).queues.getD q ⟨0, 0, 0, [], [], false, 0⟩

def State.modTaskQueue (s : State) (die q : Nat) (f : TaskQueue → TaskQueue) : State :=
  s.modDie die fun d => { d with queues := d.queues.set q (f (s.taskQueue die q)) }

/-- Accepts or refuses one record (R277). -/
def TaskQueue.push (t : TaskQueue) (r : BitVec 256) (now : Nat) : Option TaskQueue :=
  if t.backing = [] ∧ t.ring.length < 2048 then
    some { t with ring := t.ring ++ [r], headSince := if t.ring = [] then now else t.headSince }
  else if t.backing.length < t.cap then some { t with backing := t.backing ++ [r] }
  else none

/-- A lane of a vtqpush has its answer, and in a twin group the shadow lane with it; the predicate entry lands after the last
(R223, R227, R487). -/
def State.laneAnswered (s : State) (p : TaskPush) (accepted : Bool) : State :=
  s.at p.focus fun s =>
    let bits := if accepted then bytesOf 32 [p.lane] else 0
    let entry := if s.isTwin then pushedEntry { pred := bits } { pred := bits } else BitVec.ofNat 1024 bits
    let s1 := s.modMem p.order fun m => { m with left := m.left - 1, back := max m.back p.back, mask := m.mask ||| entry }
    match s1.grp.v.mems.find? fun (m : VMem) => decide (m.order = p.order) with
    | some m =>
      if m.left = 0 then (s1.dropMem p.order).leave (max (m.back + 1) (m.since + 8)) [.pushPred m.mask] else s1
    | none => s1

/-- TASK_PUSH_ACCEPT (R223, R277, R487): the slice takes the packets of one core in the order sent, and its answer goes back over
the network. Once a push of a micro-order to a queue has failed, its later ones to that queue
fail too. -/
def execTaskPushAccept (id : Nat) (s : State) : Out :=
  .next (match s.pushes.get id with
    | none => s
    | some p0 =>
      if s.pushes.any fun (x : Nat × TaskPush) =>
          (decide (x.2.sent < p0.sent) || (decide (x.2.sent = p0.sent) && decide (x.1 < id))) && decide (x.2.focus.core = p0.focus.core) &&
          decide (x.2.queue = p0.queue) && x.2.refused.isNone then s.schedule (s.pcc + 1) (.taskPushAccept id) else
      let (s, back) := s.carry p0.die (sliceSpot p0.queue) (coreSpot (physOf p0.focus.core)) 1 s.pcc
      let p := { p0 with back := max p0.back back }
      let failed := p.order ≠ 0 ∧ (s.pushes.any fun (x : Nat × TaskPush) =>
        decide (x.2.order = p.order) && decide (x.2.queue = p.queue) && decide (x.2.refused = some true))
      let (s1, ok) := if failed then (s, false)
        else
          match (s.taskQueue p.die p.queue).push p.record s.pcc with
          | some t => (s.modTaskQueue p.die p.queue fun _ => t, true)
          | none => (s, false)
      let s2 := { s1 with pushes := s1.pushes.set id { p with refused := some !ok } }
      if p.order = 0 then s2
      else
        let s3 := s2.laneAnswered p ok
        if s3.pushes.any fun (x : Nat × TaskPush) => decide (x.2.order = p.order) && decide (x.2.refused = none) then s3
        else { s3 with pushes := s3.pushes.filter fun (x : Nat × TaskPush) => decide (x.2.order ≠ p.order) })

/-! ### Spill and refill (R277) -/

/-- The cycles that a transfer of n records takes. -/
def transferCycles (n : Nat) : Nat := ceilDiv n 64 * 16

def TaskQueue.spills (t : TaskQueue) : Bool := decide (t.backing = []) && decide (1536 < t.ring.length) && decide (0 < t.cap)

/-- TASK_QUEUE_SPILL: the records beyond position 1,536, or the newest of them that fit, have their places in the backing area
at once, and move there when the die's transfer path is free. -/
def execTaskQueueSpill (die queue : Nat) (s : State) : Out :=
  let t := s.taskQueue die queue
  let n := min (t.ring.length - 1536) t.cap
  .next (if !t.spills then s
    else
      (s.modTaskQueue die queue fun t =>
        { t with ring := t.ring.take (t.ring.length - n), backing := t.ring.drop (t.ring.length - n) }).modDie die fun d =>
          { d with former := { d.former with pathFree := max d.former.pathFree s.pcc + transferCycles n } })

def TaskQueue.refills (t : TaskQueue) : Bool :=
  decide (t.backing ≠ []) && (decide (t.ring.length < 512) || (t.refilling && decide (t.ring.length < 1536)))

/-- TASK_QUEUE_REFILL: 64 records, or what is left to move, go to the ring's tail. -/
def execTaskQueueRefill (die queue : Nat) (s : State) : Out :=
  let t := s.taskQueue die queue
  let n := min 64 (min (1536 - t.ring.length) t.backing.length)
  .next (if !t.refills || decide (s.pcc < (s.die die).former.pathFree) then s
    else
      (s.modTaskQueue die queue fun t =>
        { t with
          ring := t.ring ++ t.backing.take n, backing := t.backing.drop n
          refilling := decide (t.ring.length + n < 1536) && decide (n < t.backing.length)
          headSince := if t.ring = [] then s.pcc else t.headSince }).modDie die fun d =>
          { d with former := { d.former with pathFree := s.pcc + 16 } })

/-! ### The group former (R279-R281) -/

/-- A record's kind (R276). -/
def recKind (r : BitVec 256) : Nat := fld r.toNat 15 0

/-- A record's pushing lane (R276): core, slot and cell. Groups that follow one another in a slot have the same lane here
(DESIGN CHOICE, log 50). -/
def recLane (r : BitVec 256) : Nat := fld r.toNat 53 32

/-- What the former takes from a ring: the records taken and those left, in push order (R279). -/
def takeRecords (kind : Nat) : List (BitVec 256) → List Nat → Nat → List (BitVec 256) × List (BitVec 256)
  | [], _, _ => ([], [])
  | x :: rest, blocked, n =>
    if n = 0 then ([], x :: rest)
    else if recKind x = kind ∧ recLane x ∉ blocked then
      let r := takeRecords kind rest blocked (n - 1)
      (x :: r.1, r.2)
    else
      let r := takeRecords kind rest (if recKind x = kind then blocked else recLane x :: blocked) n
      (r.1, x :: r.2)

/-- The former timeout of a launch in cycles (R279, R338). -/
def formerTimeoutOf (p : BitVec 1024) : Nat := if pktFto p = 0 then 1024 else 16 * pktFto p

/-- The slots of a job that a new group may take, lowest first: pairs in a twin launch (R280). Where S is odd, against R282
and with no check of R342 on it, slot S - 1 makes no pair and stays empty (DEDUCED, log 51). -/
def Core.freeSlots (c : Core) : List Nat :=
  (List.range c.job.slots).filter fun n => (!c.job.twin || (decide (n % 2 = 0) && decide (n + 1 < c.job.slots))) && !c.groups.has n

/-- The core on which the former starts a group: the one with the most free slots, the lowest ROLE on a tie (R280). -/
def State.formerCore (s : State) (launch die : Nat) : Option Nat :=
  let l := s.cores.filter fun (x : Nat × Core) =>
    decide (dieOf x.1 = die) && decide (x.2.job.launch = launch) && decide (x.2.job.seqNext ≠ 0) && x.2.job.stopping.isNone &&
      x.2.job.ending.isNone && decide (x.2.freeSlots ≠ []) && decide (x.2.heldBlocks + 1 ≤ x.2.budget)
  (l.foldl (fun (best : Option (Nat × Core)) (x : Nat × Core) =>
    match best with
    | none => some x
    | some b =>
      let n := x.2.freeSlots.length
      let m := b.2.freeSlots.length
      if m < n ∨ (n = m ∧ x.2.job.role.toNat < b.2.job.role.toNat) then some x else some b) none).map (·.1)

/-- Starts a group of the records taken (R280): its slot and block 0 are taken now; it is READY 32 cycles later. -/
def State.formGroup (s : State) (core kind : Nat) (records : List (BitVec 256)) : State :=
  let c := s.core core
  match c.freeSlots with
  | [] => s
  | slot :: _ =>
    let l := s.launch c.job.launch
    let r0 := records.headD 0
    let word (hi lo : Nat) : Word := BitVec.ofNat 64 (fld r0.toNat hi lo)
    let g := l.newGroup c.job slot kind c.job.seqNext (l.info.kinds.getD kind 0)
      [(1, BitVec.ofNat 64 records.length), (2, word 127 64), (3, word 191 128), (4, word 255 192), (5, word 31 16)]
    let id := s.nextId
    let s1 := s.modCore core fun c =>
      let c1 := { c.setGroup slot { g with status := .starting } with job := { c.job with seqNext := c.job.seqNext + 1 } }
      c1.giveBlocks slot [0]
    let s2 := s1.serveBlocks core
    ({ s2 with starts := s2.starts.set id ⟨core, slot, kind, records⟩, nextId := id + 1 }).schedule (s.pcc + 32) (.formerGroupReady id)

/-- One selection of a die queue (R279): a start of 256 records, or of fewer once the head has waited for the timeout. -/
def State.selectFrom (s : State) (die queue : Nat) : State :=
  let t := s.taskQueue die queue
  let l := s.launch t.launch
  match t.ring with
  | [] => s
  | x :: _ =>
    let (taken, rest) := takeRecords (recKind x) t.ring [] 256
    if taken.length = 256 ∨ t.headSince + formerTimeoutOf l.packet ≤ s.pcc then
      match s.formerCore t.launch die with
      | none => s
      | some core =>
        (s.modTaskQueue die queue fun t => { t with ring := rest, headSince := s.pcc }).formGroup core (recKind x) taken
    else s

/-- The queue that the former serves next (R279): the first with a record after the one it served last. -/
def Die.nextQueue (d : Die) : Option Nat :=
  ((List.range 64).map fun i => (d.former.rr + 1 + i) % 64).find? fun q => match d.queues.get q with
    | some t => decide (t.ring ≠ [])
    | none => false

/-- A selection of the former for the queue that is due; the next is 4 cycles later (R279). -/
def State.former (s : State) (die : Nat) : State :=
  match (s.die die).nextQueue with
  | none => s
  | some q =>
    if s.pcc < (s.die die).former.nextSel then s
    else
      (s.modDie die fun d => { d with former := { d.former with rr := q, nextSel := s.pcc + 4 } }).selectFrom die q

/-- FORMER_SELECTION (R279). -/
def execFormerSelection (die : Nat) (s : State) : Out := .next (s.former die)

/-- FORMER_TIMEOUT (R279): the selection of a queue whose head record has waited for the timeout. -/
def execFormerTimeout (die queue : Nat) (s : State) : Out :=
  .next (if (s.die die).nextQueue = some queue then s.former die else s)

/-- The payload words of a started group's records in v0 to v2 (R281). -/
def payload (records : List (BitVec 256)) (w : Nat) : BitVec 8192 :=
  BitVec.ofNat 8192 (assemble 32 (fun i => fld ((records[i]?).getD 0).toNat (64 * w + 95) (64 * w + 64)) 256)

/-- FORMER_GROUP_READY (R280, R281): the group becomes READY once its block 0 is in place; one whose kind has an entry outside the
launch's code object draws ILLEGAL_OPERAND (R2, R340). -/
def execFormerGroupReady (id : Nat) (s : State) : Out :=
  .next (match s.starts.get id with
    | none => s
    | some f =>
      let g := (s.core f.core).group f.slot
      if !((s.core f.core).groups.has f.slot && decide (g.status = .starting)) then { s with starts := s.starts.del id }
      else if !g.inPlace then s.schedule (s.pcc + 1) (.formerGroupReady id)
      else
        let s1 := ({ s with starts := s.starts.del id }).modCore f.core fun c =>
          c.modGroup f.slot fun g =>
            { g with vregs := ((g.vregs.set 0 (payload f.records 0)).set 1 (payload f.records 1)).set 2 (payload f.records 2) }
        if s1.inObject (s1.launch (s1.core f.core).job.launch).packet g.sc.pc then s1.modCore f.core fun c => c.makeReady f.slot s.pcc
        else s1.at ⟨f.core, f.slot, .group⟩ fun s => s.raiseTrap { cause := causeOperand })

end Sys2Proof.Machine
end

