-- ==== Sys2Proof/Machine/Contexts.lean ====
section
/-! DEFINITION. What the runtime does with groups, launches and contexts: resuming and killing a group (R12, R136, R255,
R260, R261, R449, R489), ending a launch early (R181, R350, R375), killing a context (R410), pre-emption and resumption
(R115, R149, R271, R275, R300, R327, R404-R409). -/

namespace Sys2Proof.Machine

/-! ### Resuming a group (R449) -/

/-- The choices that R449 leaves for a trap. -/
def TrapInfo.resumable (t : TrapInfo) : Bool := decide (t.cause ≠ causeTwin) && decide (t.cause ≠ causeIntegrity)

/-- The pc at which a group's scalar stream goes on (R184, R449). -/
def resumePc (g : Group) (rewrite : ResumeRewrite) : Word :=
  match rewrite.pc with
  | some pc => pc
  | none =>
    match g.traps.find? fun (t : TrapInfo) => decide (t.stream = .group) && decide (t.cause = causeTrap) with
    | some t => t.pc + 4
    | none => g.sc.pc

/-- The ldqs whose data came with an error are made again (R136). -/
def State.retryLdqs (s : State) (core : Nat) : State :=
  let ids := (s.core core).eft.retry
  let s1 := s.modCore core fun c =>
    { c with
      eft := { c.eft with retry := [] }
      ports := c.ports.map fun p => { p with ldqs := p.ldqs.map fun (x : LdqSlot) => if x.id ∈ ids then { x with failed := false } else x } }
  ids.foldl (fun (s : State) id =>
    match s.accs.get id with
    | some a =>
      s.startAccess id { a with performed := false, error := none, window := s.qwin, issued := s.pcc, tag := none, lease := none } a.kind.flits
    | none => s) s1

/-- A stream that a trap has stopped continues (R449); a trapped treadle run does not (R325). -/
def State.resumeStream (s : State) (core slot : Nat) (st : Stream) : State :=
  let next := s.pcc + 1
  match st with
  | .vector => s.modCore core fun c => c.modGroup slot fun g => { g with v := { g.v with stopped := false, nextIssue := max g.v.nextIssue next } }
  | .matrix =>
    s.modCore core fun c => { c with matrix := { c.matrix with
      run := c.matrix.run.map fun r => if r.treadle then r else { r with trapped := false }
      nextIssue := max c.matrix.nextIssue next } }
  | .chan n => s.modCore core fun c => c.modChan n fun h => { h with run := h.run.map fun r => { r with trapped := false, startFree := max r.startFree next } }
  | .eft =>
    (s.modCore core fun c =>
      { c with eft := { c.eft with trapped := false, hold := c.eft.hold.filter fun h => h.wait.lasts } }).retryLdqs core
  | _ => s

/-- A trapped group is resumed. One whose block has begun to commit resumes at that store only (R381); at another pc the form that
waits at the old one is left. -/
def State.resumeGroup (s : State) (core slot : Nat) (rewrite : ResumeRewrite) : State :=
  let g := (s.core core).group slot
  let moved := rewrite.pc.any fun pc => decide (pc ≠ g.sc.pc)
  if !((s.core core).groups.has slot && decide (g.status = .trapped) && g.traps.all TrapInfo.resumable) ||
      (moved && g.block.any fun b => b.committing) then s
  else
    let s1 := g.traps.foldl (fun (s : State) (t : TrapInfo) => s.resumeStream core slot t.stream) s
    s1.modCore core fun c =>
      (c.modGroup slot fun x =>
        let put (r : RegFile) : RegFile := rewrite.regs.foldl (fun (r : RegFile) p => r.put (BitVec.ofNat 5 p.1) p.2) r
        { x with
          traps := []
          hold := if moved then none else x.hold
          arrived := if moved then none else x.arrived
          sc := { (x.sc.mapFiles put) with pc := resumePc g rewrite, nextIssue := s.pcc + 1 } }).makeReady slot s.pcc

/-- RESUME_GROUP (R449). -/
def execResumeGroup (core slot : Nat) (rewrite : ResumeRewrite) (s : State) : Out :=
  .next (if s.cores.has core then s.resumeGroup core slot rewrite else s)

/-! ### Killing a group (R260, R261, R489) -/

/-- What an issued micro-order of a killed group still writes outside the group (R489). -/
def Core.landKilled (c : Core) (slot now : Nat) : Core :=
  (c.group slot).v.writes.foldl (fun (c : Core) w => match w.eff with
    | .spm l => c.land now (.spm l)
    | _ => c) c

/-- The program of a channel is abandoned: its ranges go, and its channel is free (R489). -/
def Core.abandon (c : Core) (n : Nat) : Core :=
  match (c.chan n).run with
  | none => c
  | some r =>
    let c1 := c.modChan n fun h => { h with run := none }
    let c2 := { c1 with rc := c1.rc.map fun (e : RcEntry) => if e.source = 1 + n % 4 ∧ e.cmd = r.cmd then { e with complete := true } else e }
    if r.dstSpace = 5 then c2.modPort r.dstRef fun p => { p with reserved := p.reserved - r.copies.length } else c2

/-- The eft stream becomes idle; the bytes reserved for ldqs whose data cannot come are given up, and those behind
them are delivered (R489). -/
def Core.endEft (c : Core) (now : Nat) (all : Bool) : Core :=
  let gone (x : LdqSlot) : Bool := all || x.failed
  { c with
    eft := { c.eft with running := false, trapped := false, hold := none, retry := [] }
    ports := c.ports.map fun p =>
      let l := p.ldqs.filter fun x => !gone x
      let there := l.takeWhile fun (x : LdqSlot) => x.data.isSome
      if l = p.ldqs then p
      else { p with ldqs := l.drop there.length }.append (there.flatMap fun (x : LdqSlot) => plainBytes x.size (x.data.getD 0)) now }

/-- A matrix table ends as if by MSTOP (R153, R489). -/
def Core.stopTable (c : Core) : Core :=
  Core.dropUnissued { c with matrix := { c.matrix with
      run := c.matrix.run.map fun r => { r with ended := true, seg := none, trapped := false, ea := none }, window := none, replay := none } }

/-- The engine streams that a trap charged to the group has stopped end at their faulting words (R489). -/
def Core.endTrapped (c : Core) (now : Nat) : Stream → Core
  | .matrix => if c.matrix.run.any fun r => r.trapped && !r.treadle then c.stopTable else c
  | .chan n => if (c.chan n).run.any fun r => r.trapped then c.abandon n else c
  | .eft => if c.eft.trapped then c.endEft now false else c
  | _ => c

/-- Forgets the accesses of ldqs that are no longer awaited. -/
def State.dropRetries (s : State) (ids : List Nat) : State := { s with accs := s.accs.filter fun (a : Nat × Access) => a.1 ∉ ids }

/-- A group is killed: its slot is free at once (R260); its posted stores are performed and commit (R261). -/
def State.killGroup (s : State) (core slot : Nat) : State :=
  if !(s.core core).groups.has slot then s
  else
    let g := (s.core core).group slot
    let ids := if g.traps.any (fun (t : TrapInfo) => decide (t.stream = .eft)) then (s.core core).eft.retry else []
    let s1 := s.modCore core fun c =>
      g.traps.foldl (fun (c : Core) (t : TrapInfo) => c.endTrapped s.pcc t.stream) (c.landKilled slot s.pcc)
    ((s1.dropRetries ids).orphan core slot).freeGroup core slot

/-- KILL_GROUP (R489): the runtime kills a trapped group, but for one with CODE_INTEGRITY, which admits the termination of R375 alone
(R449). -/
def execKillGroup (core slot : Nat) (s : State) : Out :=
  let g := (s.core core).group slot
  .next (if decide (g.status = .trapped) && g.traps.all fun (t : TrapInfo) => decide (t.cause ≠ causeIntegrity) then s.killGroup core slot else s)

/-! ### Where the matrix stream stops (R406) -/

/-- Whether a matrix word is a marker or MTEND: a stop point of R406. -/
def stopPoint (w : BitVec 32) : Bool :=
  decide (fld w.toNat 31 26 = 0x07) || decide (fld w.toNat 31 26 = 0x0A) || (isMma w && w.toNat.testBit 8)

/-- The packets that a window's commands have popped from a port. -/
def Window.popped (w : Window) (port : Nat) : List Packet :=
  w.cmds.flatMap fun (c : WCmd) =>
    if !isMma c.word then []
    else (if fld c.word.toNat 22 19 = port then c.apkts else []) ++ (if fld c.word.toNat 18 15 = port then c.spkts else [])

/-- Whether the matrix stream may stop at once (R406). -/
def Core.stopsAtOnce (c0 : Core) (now : Nat) : Bool :=
  match c0.matrix.window with
  | none => false
  | some w =>
    let c := c0.popWindow w now
    c.matrix.replayable && !(w.cmds.any fun k => isPortDrain k.word) &&
      decide (c.matrix.fq.length + (w.cmds.filter fun k => k.fw.isSome).length ≤ 16) &&
      (List.range 16).all fun p => decide ((w.popped p).length ≤ (c.port p).free) || decide (w.popped p = [])

/-- The matrix stream stops at once: rows are discarded, popped words and packets go back, and the pc is at the marker, with
ACT as it was there (R406). -/
def Core.stopMatrix (c0 : Core) (now : Nat) : Core :=
  match c0.matrix.window with
  | none => c0
  | some w =>
    let c := c0.popWindow w now
    let rows := c.matrix.otherRows w now
    let words := (w.cmds.filterMap fun k => k.fw).map fun x => (⟨x, 0⟩ : FqEntry)
    let ports := Vector.ofFn fun (i : Fin 16) =>
      let p := c.ports[i]
      if w.popped i.val = [] then p else { p with packets := w.popped i.val ++ p.packets }
    Core.dropUnissued { c with
      ports
      matrix := { c.matrix with
        rows
        act := w.markerAct c.matrix.act
        drains := c.matrix.drains.filter fun d => !w.owns d.cmd
        loads := c.matrix.loads.filter fun l => !w.owns l.cmd
        zeroings := c.matrix.zeroings.filter fun z => !w.opened.has z.tile
        pendFlags := c.matrix.otherFlags w rows
        fq := words ++ c.matrix.fq
        window := none
        run := c.matrix.run.map fun r => { r with pc := ((w.cmds.head?.map (·.pc)).getD r.pc), ea := none, seg := r.seg.map fun g => { g with checked := false } } }
      rc := c.rc.map fun (e : RcEntry) => if e.source = 0 ∧ w.owns e.cmd = true then { e with complete := true } else e }

/-- Whether the matrix stream of a core stops at once (R406); a treadle run stops by R327. -/
def State.matrixYields (s : State) (core : Nat) : Bool :=
  (s.core core).stopsAtOnce s.pcc && !(s.core core).matrix.treadleRun

/-- The matrix stream of a core stops at once where it may (R406). -/
def State.stopMatrixNow (s : State) (core : Nat) : State :=
  if s.matrixYields core then s.modCore core fun c => c.stopMatrix s.pcc else s

/-! ### Ending a launch early (R181, R350, R375) -/

/-- The cores of a launch. -/
def State.coresOf (s : State) (launch : Nat) : List Nat :=
  (s.cores.filter fun (c : Nat × Core) => decide (c.2.job.launch = launch)).map fun (c : Nat × Core) => c.1

/-- Whether a stream waits at FENCE, FLUSH or PHASE: it has issued and is not complete (R149). -/
def waitsOrdered (h : Option Hold) : Bool :=
  h.any fun h => h.granted.isNone && (match h.wait with
    | .ordered => true
    | .commit _ => true
    | .boundary _ => true
    | _ => false)

/-- A KILLED record for a waiting FENCE, FLUSH or PHASE of a job (R181, R395). -/
def State.recordKilled (s : State) (c : Core) (core slot : Nat) (stream : Stream) (pc : Word) (jobrec : Bool) : State :=
  s.record
    { pcc := s.pcc, aux := 0, addr := 0, pc, jobid := c.job.jobid, role := c.job.role, core := physOf core,
      die := dieOf core, ctx := c.job.ctx, slot, stream := stream.code, jobrec, replay := false, cidx := 0, elem := 0,
      detail := 0, killed := true, cause := 0 }

/-- Every FENCE, FLUSH and PHASE of a job that still waits completes with a KILLED record: those of its groups by slot, then the
eft stream's FENCE (R177, R181). `c` is the job on a core or in the image saved from it. -/
def State.recordWaits (s : State) (c : Core) (core : Nat) : State :=
  let s1 := c.groups.foldl (fun (s : State) (g : Nat × Group) =>
    if waitsOrdered g.2.hold then s.recordKilled c core g.1 .group g.2.sc.pc false else s) s
  if waitsOrdered c.eft.hold then
    s1.recordKilled c core c.eft.owner .eft c.eft.sc.pc !(c.chargeable c.eft.owner && !c.eft.orphan)
  else s1

/-- The engines of a killed job, each at its boundary, end: what has issued has completed (R375, R410). -/
def Core.stopEngines (c : Core) : Core :=
  let c1 := if c.matrix.run.any fun r => r.treadle then
      { c.stopTable with treadle := if c.treadle.tstate.toNat % 8 < 4 then c.treadle.toState 6 4 else c.treadle }
    else c.stopTable
  let c2 := (List.range 4).foldl (fun (c : Core) n => c.abandon n) c1
  { c2 with job := { c2.job with stopping := none, stopReady := false } }

/-- Every group of a core is killed, and its engines are asked to stop at their next boundaries (R404, R410): the eft stream is at
one, what the matrix stream can take back is taken back, and the others go on to theirs. The job then ends by R257. -/
def State.killJob (s : State) (records : Bool) (core : Nat) : State :=
  let s0 := if records then s.recordWaits (s.core core) core else s
  let slots := (s.core core).groups.map fun (g : Nat × Group) => g.1
  let s1 := slots.foldl (fun (s : State) n => s.killGroup core n) s0
  let eftIds := (s1.accs.filter fun (a : Nat × Access) => decide (a.2.core = core) && decide (a.2.stream = .eft)).map fun (a : Nat × Access) => a.1
  let s2 := s1.dropRetries eftIds
  ((s2.modCore core fun c => c.endEft s.pcc true).stopMatrixNow core).modCore core fun c =>
    { c with
      demands := []
      job := { c.job with stopping := some (c.job.stopping.getD s.pcc), stopReady := false, arriving := none, killed := true } }

/-- The records of a launch's task queues are discarded, and its starts are dropped (R410). -/
def State.dropTasks (s : State) (launch : Nat) : State :=
  let drop (q : TaskQueue) : TaskQueue := if q.launch = launch then { q with ring := [], backing := [], refilling := false } else q
  { s with
    dies := s.dies.mapVal fun _ d => { d with queues := d.queues.mapVal fun _ q => drop q }
    starts := s.starts.filter fun (x : Nat × FormerStart) => decide ((s.core x.2.core).job.launch ≠ launch)
    pushes := s.pushes.filter fun (x : Nat × TaskPush) => decide ((s.core x.2.focus.core).job.launch ≠ launch) }

/-- What the end of a saved job leaves (R181, R258): a KILLED record for an arrival kept over its pre-emption, its port bytes
discarded, its stores committed with their marks. -/
def State.endImage (s : State) (launch : Nat) (records : Bool) (role : Nat) (c : Core) : State :=
  let s1 := if records then s.recordWaits c ((s.launch launch).binding.getD role 0) else s
  (s1.commitMarked c.mem.pend).modLaunch launch fun l => { l with discard := l.discard + c.discarded + c.portBytes }

/-- Changes the arrival messages that are not recorded yet. -/
def State.modArrivals (s : State) (f : List FabSent → List FabSent) : State := { s with fabric := { s.fabric with arrivals := f s.fabric.arrivals } }

/-- A launch is terminated with a status (R350): its jobs are killed, and it completes by R349 once their stores have
committed. Saved jobs (R404) end with it; their pending stores commit. `records` says whether its waiting forms complete with KILLED
(R181, R375, R465); a killed launch whose context goes on has no such records (R11). -/
def State.terminate (s : State) (launch status : Nat) (invalid : Bool) (records : Bool := true) : State :=
  match s.hub.launches.get launch with
  | none => s
  | some l =>
    if l.ended then s
    else
      let s1 := s.dropTasks launch
      let waiting := (s1.coresOf launch).filter fun k => decide ((s1.core k).job.seqNext = 0)
      let s2 := { s1 with cores := s1.cores.filter fun (c : Nat × Core) => c.1 ∉ waiting }
      let s3 := (s2.coresOf launch).foldl (fun (s : State) k => s.killJob records k) s2
      let s4 := match l.saved with
        | some sv => sv.images.foldl (fun (s : State) (i : Nat × Core) => s.endImage launch records i.1 i.2) s3
        | none => s3
      (s4.modLaunch launch fun l => { l with status, invalid, ended := true, saved := none, stopReq := none }).modArrivals
        fun l => l.filter fun m => decide (m.launch ≠ launch)

/-- CODE_INTEGRITY_TERMINATION (R375). -/
def execCodeIntegrityTermination (launch : Nat) (s : State) : Out := .next (s.terminate launch 2 true)

/-- KILL_LAUNCH (R449). -/
def execKillLaunch (launch : Nat) (s : State) : Out := .next (s.terminate launch 3 false false)

/-- Step 5 of R410, once every launch of a killed context has completed: its translations go. -/
def State.forget (s : State) (ctx : Nat) : State :=
  if (s.ctx ctx).killed && !s.launched ctx then
    (s.shoot ctx 0 true (fun _ => true) true).modCtx ctx fun c => { c with presence := [], killed := false }
  else s

/-- KILL_CONTEXT (R410): the context is invalid and its queues are disabled; its launches end; then its translations go. Its
pages go to MOULT by the MOULT instructions that the runtime's firmware executes. -/
def State.killContext (s : State) (ctx : Nat) : State :=
  let s1 := s.modCtx ctx fun c => { c with valid := false, killed := true }
  let off (q : LQueue) : LQueue := { q with enable := false, head := q.head.map fun h => { h with eligible := none } }
  let s2 := { s1 with hub := { s1.hub with queues := s1.hub.queues.mapVal fun _ q => if q.ctx = ctx then off q else q } }
  let ls := (s2.hub.launches.filter fun (l : Nat × Launch) => decide (pktContext l.2.packet = ctx)).map fun (l : Nat × Launch) => l.1
  (ls.foldl (fun (s : State) l => s.terminate l 3 false) s2).forget ctx

def execKillContext (ctx : Nat) (s : State) : Out := .next (s.killContext ctx)

/-! ### The stop of a launch (R404-R406) -/

/-- A stop begins in a job: the matrix stream stops at once where it may; pushes not yet accepted have not issued
(R149, R404). -/
def State.beginStop (s : State) (core : Nat) : State :=
  let now := s.matrixYields core
  let s1 := (s.stopMatrixNow core).modCore core fun c =>
    { c with job := { c.job with stopping := some s.pcc, stopReady := false, matrixStop := if now then some s.pcc else none } }
  let mine (p : TaskPush) : Bool :=
    decide (p.focus.core = core) && decide (p.order = 0) && decide (p.refused = none)
  let gone := (s1.pushes.filter fun (p : Nat × TaskPush) => mine p.2).map fun (p : Nat × TaskPush) => p.1
  let s2 := { s1 with pushes := s1.pushes.filter fun (p : Nat × TaskPush) => p.1 ∉ gone }
  s2.modCore core fun c =>
    { c with groups := c.groups.mapVal fun _ g =>
        { g with hold := g.hold.filter fun h => match h.wait with
            | .push id => id ∉ gone
            | _ => true } }

/-- Whether a waiting instruction has had its effect elsewhere and completes before the stop: a push that has been
answered, a packet that has been appended. -/
def Hold.mustEnd (h : Hold) : Bool :=
  match h.wait with
  | .push _ => true
  | .packet _ => h.granted.isSome
  | _ => false

/-- The matrix stream of a stopping job is at a stop point (R404, R406, R327). -/
def State.matrixStopped (s : State) (core : Nat) (c : Core) : Bool :=
  match c.matrix.run with
  | none => true
  | some r =>
    c.matrix.quiet && (c.matrix.replay.isNone || r.trapped) &&
      (if r.treadle then c.job.stopReady || r.trapped || decide (4 ≤ c.treadle.tstate.toNat % 8)
       else r.ended || r.trapped || (match s.fetch core c.job.ctx r.pc with
         | .word w => stopPoint w
         | .miss => false
         | .fault _ => true))

/-- Whether this cycle is a slot start of a core's treadle run, whose MTREADLE has issued (R317). -/
def Core.slotStartAt (c : Core) (now : Nat) : Bool :=
  (c.matrix.run.any fun r => r.treadle && r.started) && decide (c.matrix.t0 < now) && decide (0 < c.treadle.bp) && decide ((now - c.matrix.t0) % c.treadle.bp = 0)

/-- A treadle run stops at the first slot start at which every issued word has completed, those that a replay issues again
among them; before its first word it has no slots, and stops at once (R327; DEDUCED, log 39). -/
def Core.treadleStops (c : Core) (now : Nat) : Bool :=
  c.job.stopping.isSome && !c.job.stopReady && c.matrix.quiet && c.matrix.replay.isNone &&
    (c.slotStartAt now || c.matrix.run.any fun r => r.treadle && !r.started)

/-- The engines of a killed job have reached their boundaries (R404, R410): the matrix stream its stop point, the channels the end of
their copies. -/
def State.enginesHalted (s : State) (core : Nat) : Bool :=
  let c := s.core core
  c.job.killed && c.job.stopping.isSome && (s.matrixStopped core c || c.treadleStops s.pcc) &&
    (c.chans.toList.all fun h => h.run.all fun (r : CRun) => decide (r.copies = []) && !r.sigOut)

/-- JOB_END (R257, R258, R410): the job ends; that of a killed one, once its engines have stopped. -/
def execJobEnd (core : Nat) (s : State) : Out :=
  .next (if !s.cores.has core then s
    else if s.enginesHalted core then s.modCore core Core.stopEngines
    else if s.mayEnd core then s.endJob core
    else s)

/-- Every row of R404 is complete for a job. -/
def State.jobStopped (s : State) (core : Nat) : Bool :=
  let c := s.core core
  let out (a : Access) : Bool := decide (a.core = core) && !(a.performed && c.eft.retry ≠ [] && decide (a.stream = .eft))
  decide (c.job.seqNext ≠ 0) && s.matrixStopped core c && decide (c.mem.commits = []) && c.sched.move.isNone && c.job.arriving.isNone &&
    !(s.accs.any fun (a : Nat × Access) => out a.2) &&
    !(s.pushes.any fun (p : Nat × TaskPush) => decide (p.2.focus.core = core)) &&
    !(s.starts.any fun (p : Nat × FormerStart) => decide (p.2.core = core)) &&
    !(s.flights.any fun (p : Nat × Flight) => decide (p.2.core = core) || decide (p.2.srcCore = core)) &&
    !(s.agenda.any fun (p : Nat × Event) => match p.2 with
      | .demandArrival k _ => decide (k = core)
      | .dirtySectorEviction k _ => decide (k = core)
      | _ => false) &&
    (c.groups.all fun (g : Nat × Group) =>
      !(g.2.hold.any Hold.mustEnd) && (g.2.v.exposed || decide (g.2.v.writes = [])) &&
        g.2.v.mems.all fun (m : VMem) => decide (m.left = 0)) &&
    (c.chans.toList.all fun h => h.run.all fun (r : CRun) => decide (r.copies = []) && !r.sigOut)

/-! ### The save (R407) -/

/-- What a saved group keeps of its wait: an arrival at a boundary, and what a wait that is over has given it (R263). Any other form
has not issued, and executes again from its first step; a WAITING group is so awake as its job resumes (R149, R404, R407). -/
def Group.saved (g : Group) : Group :=
  { g with hold := g.hold.filter fun h => h.granted.isSome || (match h.wait with
      | .boundary _ => true
      | .leaving => true
      | _ => false) }

/-- The image of a job: forms that wait have not issued, and no line is left in L1 (R149, R407). The dirty sectors have been sent to
their homes. -/
def Core.image (c : Core) : Core :=
  { c with
    groups := c.groups.mapVal fun _ g => g.saved
    eft := { c.eft with hold := none }
    chans := c.chans.map fun h => { h with run := h.run.map fun r => { r with walk := none } }
    matrix := { c.matrix with window := none }
    treadle := if c.matrix.treadleRun && decide (c.treadle.tstate.toNat % 8 < 4) then
        { c.treadle with tstate := BitVec.ofNat 32 (c.treadle.tstate.toNat - c.treadle.tstate.toNat / 256 % 8 * 256 + 4 * 256) }
      else c.treadle
    mem := { c.mem with l1 := [], tlb := [], icache := [], epoch := c.mem.epoch + 1 } }

/-- The sectors that a core holds dirty. -/
def Core.dirtySectors (c : Core) : List Nat := sectorsOf (c.mem.pend.filter fun p => decide (p.place = .dirty))

/-- The image of a core is written to its save area, of at most 848 KiB in the die's bonded DRAM (R407). Where the runtime has put the
area and how the image lies in it no rule gives: free values (DESIGN CHOICE, log 21). -/
def State.writeImage (s : State) (core : Nat) : State :=
  let base := s.fabric.coord * pow2 44 + 0x10000000000 + dieOf core * 0x800000000 + Config.freeVictim s.free % 393202 * 65536
  ((Config.freeImage s.free).foldl (fun (s : State) g => s.deviceWrite (base + 32 * (g.1 % 27136)) 32 g.2) s).tick

/-- PREEMPT (R404, R407): the stop begins in every job of the launch; once every stream has stopped, the dirty sectors go to their
homes (R301), and then the jobs are saved. -/
def State.preempt (s : State) (launch : Nat) : State :=
  match s.hub.launches.get launch with
  | none => s
  | some l =>
    if l.saved.isSome || l.ended || decide (s.coresOf launch = []) then s
    else if l.stopReq.isNone then
      ((s.coresOf launch).foldl State.beginStop s).modLaunch launch fun l => { l with stopReq := some s.pcc }
    else
      let s1 := { s with cores := s.cores.mapVal fun _ c =>
        if c.job.launch = launch ∧ c.treadleStops s.pcc = true then { c with job := { c.job with stopReady := true } } else c }
      let ks := s1.coresOf launch
      if !(ks.all s1.jobStopped) then s1
      else if ks.any fun k => decide ((s1.core k).dirtySectors ≠ []) then
        ks.foldl (fun (s : State) k => (s.core k).dirtySectors.foldl (fun (s : State) n => s.schedule s.pcc (.dirtySectorEviction k n)) s) s1
      else
        let images := (s1.cores.filter fun (c : Nat × Core) => decide (c.2.job.launch = launch)).foldl
          (fun (m : FMap Core) (c : Nat × Core) => m.set (c.2.job.role.toNat % 65536) c.2.image) ([] : FMap Core)
        (ks.foldl (fun (s : State) k => (s.writeImage k).vacate k) s1).modLaunch launch fun l => { l with saved := some ⟨s.pcc, images⟩ }

def execPreempt (launch : Nat) (s : State) : Out := .next (s.preempt launch)

/-! ### Resumption (R409) -/

/-- An exposed stream goes on at the offsets it was frozen at (R405). -/
def VStream.shifted (v : VStream) (d : Nat) : VStream :=
  { v with
    writes := v.writes.map fun w => { w with land := w.land + d }
    nextIssue := v.nextIssue + d
    frozen := v.busy && !v.ended
    seg := v.seg.map fun g => { g with checked := false } }

/-- The cycle since which the matrix stream of a saved job has stood (R406): at its stop point, or where a trap had stopped it as the stop
was asked for. -/
def Core.matrixStood (c : Core) (stopped : Nat) : Nat :=
  if c.matrix.run.any (·.trapped) then c.job.stopping.getD stopped else c.job.matrixStop.getD stopped

/-- A job at its resumption in cycle q (R115, R327, R405, R406, R409): T0 rises by the cycles that the matrix stream has stood, here
those up to q. An exposed vector stream is frozen until its next word can be fetched. -/
def Core.resumed (c : Core) (stopped q : Nat) : Core :=
  let d := q - c.job.stopping.getD q
  let exposed := c.groups.any fun (g : Nat × Group) => g.2.v.busy && g.2.v.exposed
  let p := c.pipes
  { c with
    job := { c.job with stopping := none, stopReady := false, matrixStop := none, start := c.job.start + (q - c.job.stopping.getD q) }
    groups := c.groups.mapVal fun _ g =>
      { g with
        v := if g.v.exposed then g.v.shifted d else { g.v with nextIssue := max g.v.nextIssue q, seg := g.v.seg.map fun x => { x with checked := false } }
        sc := { g.sc with nextIssue := max g.sc.nextIssue q } }
    pipes := if exposed then ⟨p.fa + d, p.fb + d, p.ix + d, p.sx + d, p.cx + d, p.px + d, p.mx + d⟩ else p
    matrix := { c.matrix with
      t0 := if c.matrix.treadleRun then q else c.matrix.t0 + (q - c.matrixStood stopped)
      nextIssue := max c.matrix.nextIssue q
      run := c.matrix.run.map fun r => { r with pathHeld := false, resumed := if r.started && !r.treadle then some q else none, seg := r.seg.map fun g => { g with checked := false } } }
    treadle := { c.treadle with slot := q } }

/-- The demands of a saved treadle run follow the roles of their stitcher cores (R327, R409). -/
def Core.demandsTo (c : Core) (moved : Nat → Nat) : Core :=
  { c with treadle := { c.treadle with
      waiting := c.treadle.waiting.map fun d => { d with core := moved d.core }
      sent := c.treadle.sent.map fun p => (moved p.1, p.2) } }

/-- The groups of a resumed job that TRANSLATION has trapped go on: their faulting steps replay (R132, R255, R409). -/
def State.replayFaults (s : State) (core : Nat) : State :=
  ((s.core core).groups.filter fun (g : Nat × Group) =>
      decide (g.2.status = .trapped) && g.2.traps.all fun (t : TrapInfo) => t.replay).foldl
    (fun (s : State) (g : Nat × Group) => s.resumeGroup core g.1 ⟨[], none⟩) s

/-- RESUME_JOB (R409): the runtime rewrites roles onto other cores, and every job of the launch goes on. -/
def State.resumeJob (s : State) (launch : Nat) (moves : List (Nat × Nat)) : State :=
  match s.hub.launches.get launch with
  | none => s
  | some l =>
    match l.saved with
    | none => s
    | some sv =>
      let binding := moves.foldl (fun (b : FMap Nat) (m : Nat × Nat) => b.set m.1 m.2) l.binding
      let place (role : Nat) : Nat := binding.getD role 0
      let keys := sv.images.map fun (i : Nat × Core) => place i.1
      if keys.any (fun k => s.cores.has k || (s.die (dieOf k)).gone) || decide (keys.eraseDups.length ≠ keys.length) then s
      else
        let moved (k : Nat) : Nat := ((l.binding.find? fun (b : Nat × Nat) => decide (b.2 = k)).map fun (b : Nat × Nat) => place b.1).getD k
        let s1 := sv.images.foldl (fun (s : State) (i : Nat × Core) =>
          s.occupy (place i.1) ((i.2.resumed sv.stoppedAt s.pcc).demandsTo moved)) s
        let s2 := s1.modLaunch launch fun l => { l with binding, saved := none, stopReq := none }
        keys.foldl State.replayFaults s2

def execResumeJob (launch : Nat) (moves : List (Nat × Nat)) (s : State) : Out := .next (s.resumeJob launch moves)

end Sys2Proof.Machine
end

