-- ==== Sys2Proof/Machine/Keccak.lean ====
section
/-! DEFINITION. SHAKE256, which R363, R370 and R372 name: the function of FIPS 202 (log 12, PRESUMED). -/

namespace Sys2Proof.Machine

/-- The state of the permutation: 25 lanes of 64 bits, lane x + 5y. -/
abbrev Lanes := List (BitVec 64)

def lane (a : Lanes) (n : Nat) : BitVec 64 := a.getD n 0

/-- The rotation of lane x + 5y in the step rho. -/
def rhoOffsets : List Nat :=
  [0, 1, 62, 28, 27, 36, 44, 6, 55, 20, 3, 10, 43, 25, 39, 41, 45, 15, 21, 8, 18, 2, 61, 56, 14]

/-- The round constants of the step iota. -/
def iotaConstants : List (BitVec 64) :=
  [0x0000000000000001, 0x0000000000008082, 0x800000000000808A, 0x8000000080008000, 0x000000000000808B, 0x0000000080000001,
   0x8000000080008081, 0x8000000000008009, 0x000000000000008A, 0x0000000000000088, 0x0000000080008009, 0x000000008000000A] ++
  [0x000000008000808B, 0x800000000000008B, 0x8000000000008089, 0x8000000000008003, 0x8000000000008002, 0x8000000000000080,
   0x000000000000800A, 0x800000008000000A, 0x8000000080008081, 0x8000000000008080, 0x0000000080000001, 0x8000000080008008]

/-- One round. -/
def keccakRound (a : Lanes) (rc : BitVec 64) : Lanes :=
  let c := (List.range 5).map fun x => lane a x ^^^ lane a (x + 5) ^^^ lane a (x + 10) ^^^ lane a (x + 15) ^^^ lane a (x + 20)
  let d := (List.range 5).map fun x => c.getD ((x + 4) % 5) 0 ^^^ (c.getD ((x + 1) % 5) 0).rotateLeft 1
  let t := (List.range 25).map fun n => (lane a n ^^^ d.getD (n % 5) 0).rotateLeft (rhoOffsets.getD n 0)
  -- the lane that the step pi brings to (x, y) comes from (x + 3y, x)
  let b := (List.range 25).map fun n => lane t ((n % 5 + 3 * (n / 5)) % 5 + 5 * (n % 5))
  let e := (List.range 25).map fun n => lane b n ^^^ (~~~(lane b ((n % 5 + 1) % 5 + 5 * (n / 5))) &&& lane b ((n % 5 + 2) % 5 + 5 * (n / 5)))
  e.set 0 (lane e 0 ^^^ rc)

def keccak (a : Lanes) : Lanes := iotaConstants.foldl keccakRound a

/-- A list of bytes as a number, the first least significant. -/
def leBytes (l : List (BitVec 8)) : Nat := l.foldr (fun b n => b.toNat + 256 * n) 0

/-- Takes a block of 136 bytes in. -/
def absorbBlock (a : Lanes) (block : Nat) : Lanes :=
  (List.range 25).map fun n => if n < 17 then lane a n ^^^ BitVec.ofNat 64 (block / pow2 (64 * n)) else lane a n

/-- The blocks of a padded message, as numbers. -/
def absorb (a : Lanes) (msg : Nat) : Nat → Lanes
  | 0 => a
  | n + 1 => absorb (keccak (absorbBlock a (msg % pow2 1088))) (msg / pow2 1088) n

/-- The first n bytes (at most 136) of the SHAKE256 output of a message, as a number, the first byte least significant. -/
def shake256 (msg : List (BitVec 8)) (n : Nat) : Nat :=
  let blocks := msg.length / 136 + 1
  let padded := leBytes msg + 0x1F * pow2 (8 * msg.length) + pow2 (1088 * blocks - 1)
  let a := absorb (List.replicate 25 0) padded blocks
  ((List.range 17).map fun i => (lane a i).toNat * pow2 (64 * i)).sum % pow2 (8 * n)

end Sys2Proof.Machine
end

