-- ==== Sys2Proof/Machine/Beyllieg.lean ====
section
/-! DEFINITION. Beyllieg hyperblocks (R379-R382): their layout, the rules that a load checks, and what the operations of a
block compute. -/

namespace Sys2Proof.Machine

/-- A read entry of a block (R379). -/
structure BRead where
  reg : Nat
  tgt : Nat
  deriving DecidableEq, Repr

/-- An operation of a block (R379). -/
structure BOp where
  opc : Nat
  nt : Nat
  pr : Nat
  imm : BitVec 12
  t0 : Nat
  t1 : Nat
  mbz : Nat
  deriving DecidableEq, Repr

/-- A block (R379). -/
structure Block2 where
  lane : Bool
  reads : List BRead
  ops : List BOp
  size : Nat
  ok : Bool
  deriving DecidableEq, Repr

/-- Parses the block at an offset (R379). `ok` is false where the header or the padding breaks the layout. -/
def Block2.parse (m : Memory) (a : Nat) : Block2 :=
  let h := Memory.readN m a 8
  let nops := fld h 58 52 + 1
  let nread := fld h 51 47
  let pad := (2 * nread + 7) / 8 * 8
  { lane := h.testBit 59
    reads := (List.range nread).map fun i =>
      let e := Memory.readN m (a + 8 + 2 * i) 2
      { reg := fld e 15 11, tgt := e % 2048 }
    ops := (List.range nops).map fun i =>
      let o := Memory.readN m (a + 8 + pad + 8 * i) 8
      { opc := fld o 63 56, nt := fld o 55 54, pr := fld o 53 52, imm := BitVec.ofNat 12 (fld o 51 40), t0 := fld o 39 30,
        t1 := fld o 29 20, mbz := fld o 19 0 }
    size := 8 + pad + 8 * nops
    ok := decide (fld h 63 60 = 0xD) && decide (fld h 46 0 = 0) &&
      decide (Memory.readN m (a + 8 + 2 * nread) (pad - 2 * nread) = 0) }

/-- The data operands of an operation (R380); none for a code that is refused. -/
def arity2 (opc : Nat) : Option Nat :=
  if opc = 0x01 ∨ opc = 0x50 ∨ opc = 0x52 then some 0
  else if opc = 0x02 ∨ opc = 0x1C ∨ (0x30 ≤ opc ∧ opc ≤ 0x32) ∨ opc = 0x51 then some 1
  else if (0x10 ≤ opc ∧ opc ≤ 0x1A) ∨ opc = 0x20 ∨ opc = 0x38 ∨ opc = 0x39 ∨ (0x40 ≤ opc ∧ opc ≤ 0x43) then some 2
  else none

def isExit2 (opc : Nat) : Bool := decide (0x50 ≤ opc) && decide (opc ≤ 0x52)
def isStore2 (opc : Nat) : Bool := decide (opc = 0x38) || decide (opc = 0x39)

/-- Whether a target is one that the block has (R379, R382); an operation names higher ones only. -/
def Block2.targetOk (b : Block2) (t : Nat) (from_ : Option Nat) : Bool :=
  if t.testBit 9 then decide (fld t 8 5 = 0) && (!b.lane || !t.testBit 4)
  else
    decide (fld t 1 0 ≠ 3) && decide (fld t 8 2 < b.ops.length) &&
      (match from_ with
       | some n => decide (n < fld t 8 2)
       | none => true)

/-- The rules of R379, R380 and R382 for one block. -/
def Block2.wf (b : Block2) : Bool :=
  b.ok &&
    (b.reads.all fun r => !r.tgt.testBit 10 && b.targetOk r.tgt none && (!b.lane || decide (r.reg < 16))) &&
    (b.ops.zipIdx.all fun (x : BOp × Nat) =>
      let o := x.1
      decide (o.mbz = 0) && decide (o.nt ≤ 2) && decide (o.pr ≠ 1) && (arity2 o.opc).isSome &&
        (!(isExit2 o.opc || isStore2 o.opc) || decide (o.nt = 0)) &&
        (!b.lane || decide (o.opc ≤ 0x20)) &&
        (if 0 < o.nt then b.targetOk o.t0 (some x.2) else decide (o.t0 = 0)) &&
        (if 1 < o.nt then b.targetOk o.t1 (some x.2) else decide (o.t1 = 0)))

/-- Whether a block header stands at an offset: its MAGIC. -/
def isBlock2 (m : Memory) (size a : Nat) : Bool := decide (a + 8 ≤ size) && decide (fld (Memory.readN m a 8) 63 60 = 0xD)

/-- The blocks that come after one: those of its exits, and the next of the sequence in memory, which a lane block must have
(R379, R380, R382). -/
def Block2.next (b : Block2) (m : Memory) (size a : Nat) : List Nat :=
  ((b.ops.filter fun (o : BOp) => decide (o.opc = 0x50)).map fun (o : BOp) => ((a : Int) + o.imm.toInt * 8).toNat) ++
    (if b.lane || isBlock2 m size (a + b.size) then [a + b.size] else [])

/-- The blocks of a kernel: those that its entries, their exits and the sequence in memory reach, or none if one of them
breaks a rule (R379, R382). -/
def blocksOf (m : Memory) (size : Nat) : Nat → List Nat → List Nat → Option (List Nat)
  | _, [], seen => some seen
  | 0, _ :: _, _ => none
  | n + 1, a :: work, seen =>
    if a ∈ seen then blocksOf m size n work seen
    else
      let b := Block2.parse m a
      if a + b.size ≤ size ∧ b.wf = true ∧ !(b.lane && (Block2.parse m (a + b.size)).lane) then
        blocksOf m size n (b.next m size a ++ work) (a :: seen)
      else none

/-! ### The effects of a block (R380-R382) -/

/-- An integer form of R124 on words of a width. -/
def int2 {w : Nat} (opc : Nat) (a b : BitVec w) : BitVec w :=
  match opc with
  | 0x10 => a + b
  | 0x11 => a - b
  | 0x12 => a &&& b
  | 0x13 => a ||| b
  | 0x14 => a ^^^ b
  | 0x15 => a <<< (b.toNat % w)
  | 0x16 => a >>> (b.toNat % w)
  | 0x17 => a.sshiftRight (b.toNat % w)
  | 0x18 => a * b
  | 0x19 => if a.slt b then 1 else 0
  | 0x1A => if a.ult b then 1 else 0
  | _ => if a = b then 1 else 0

/-- The result of an operation that neither loads nor computes in FP (R380). -/
def plain2 {w : Nat} (o : BOp) (a b : BitVec w) : BitVec w :=
  match o.opc with
  | 0x01 => o.imm.signExtend w
  | 0x02 => a
  | 0x1C => a + o.imm.signExtend w
  | _ => int2 o.opc a b

/-- Delivers a value to a target (R379): a later delivery replaces an earlier one. -/
def Eval2.deliver {w : Nat} (e : Eval2 w) (t : Nat) (v : BitVec w) : Eval2 w :=
  if t.testBit 9 then { e with regs := e.regs.set (t % 32) v } else { e with slots := e.slots.set (fld t 8 0) v }

def Eval2.deliverAll {w : Nat} (e : Eval2 w) (o : BOp) (v : BitVec w) : Eval2 w :=
  let e1 := if 0 < o.nt then e.deliver o.t0 v else e
  if 1 < o.nt then e1.deliver o.t1 v else e1

/-- Whether an operation fires (R381). -/
def Eval2.fires {w : Nat} (e : Eval2 w) (o : BOp) (n : Nat) : Bool :=
  let need := (arity2 o.opc).getD 0
  (decide (need < 1) || e.slots.has (4 * n)) && (decide (need < 2) || e.slots.has (4 * n + 1)) &&
    (match o.pr with
     | 0 => true
     | 2 => (e.slots.get (4 * n + 2)).any fun p => decide (p ≠ 0)
     | 3 => (e.slots.get (4 * n + 2)).any fun p => decide (p = 0)
     | _ => false)

/-- A block at its start: each read entry's register goes to its target (R381). -/
def Block2.start {w : Nat} (b : Block2) (reg : Nat → BitVec w) : Eval2 w :=
  b.reads.foldl (fun (e : Eval2 w) (r : BRead) => e.deliver (r.tgt % 1024) (reg r.reg)) ⟨[], [], [], [], 0⟩

/-- The load that an operation makes if it fires: its address, its size and whether it is sign-extended (R380). -/
def Eval2.loadOf (e : Eval2 64) (o : BOp) (n : Nat) : Option (Word × Nat × Bool) :=
  if !e.fires o n then none
  else
    let ea := e.slots.getD (4 * n) 0 + o.imm.signExtend 64
    match o.opc with
    | 0x30 => some (ea, 8, true)
    | 0x31 => some (ea, 4, true)
    | 0x32 => some (ea, 4, false)
    | _ => none

/-- One operation of a block that is no lane block and no load (R380, R381). -/
def Eval2.op64 (rm : Rm) (e : Eval2 64) (o : BOp) (n : Nat) : Eval2 64 :=
  if !e.fires o n then e
  else
    let a := e.slots.getD (4 * n) 0
    let b := e.slots.getD (4 * n + 1) 0
    let ea := a + o.imm.signExtend 64
    let fp (r : FRes) : Eval2 64 := { e.deliverAll o (BitVec.ofNat 64 r.bits) with flags := e.flags ||| r.flags }
    match o.opc with
    | 0x38 => { e with stores := e.stores ++ [(ea, 8, b)] }
    | 0x39 => { e with stores := e.stores ++ [(ea, 4, b)] }
    | 0x40 => fp (Fmt.f64.add rm a.toNat b.toNat)
    | 0x41 => fp (Fmt.f64.sub rm a.toNat b.toNat)
    | 0x42 => fp (Fmt.f64.mul rm a.toNat b.toNat)
    | 0x43 => fp (Fmt.f64.div rm a.toNat b.toNat)
    | 0x50 => { e with exits := e.exits ++ [.offset (o.imm.toInt * 8)] }
    | 0x51 => { e with exits := e.exits ++ [.address a] }
    | 0x52 => { e with exits := e.exits ++ [.join] }
    | _ => e.deliverAll o (plain2 o a b)

/-- The effects of a lane block on one lane (R382): the values of v0 to v15 there. -/
def Block2.evalLane (b : Block2) (reg : Nat → BitVec 32) : FMap (BitVec 32) :=
  (b.ops.zipIdx.foldl (fun (e : Eval2 32) (x : BOp × Nat) =>
    if !e.fires x.1 x.2 then e
    else e.deliverAll x.1 (plain2 x.1 (e.slots.getD (4 * x.2) 0) (e.slots.getD (4 * x.2 + 1) 0))) (b.start reg)).regs

end Sys2Proof.Machine
end

