-- ==== Sys2Proof/Machine/Objects.lean ====
section
/-! DEFINITION. Code objects (R362-R374, R379): their layout and checks, slots, the page hash tree, loading, demand pages,
patching and unloading. -/

namespace Sys2Proof.Machine

/-! ### The image (R362-R365, R370) -/

/-- A byte memory of a list of bytes. -/
def Memory.ofBytes (l : List (BitVec 8)) : Memory :=
  (l.zipIdx.filter fun (x : BitVec 8 × Nat) => decide (x.1 ≠ 0)).map fun (x : BitVec 8 × Nat) => (x.2, x.1)

/-- The n bytes of a number, the least significant first. -/
def leList (n v : Nat) : List (BitVec 8) := (List.range n).map fun i => BitVec.ofNat 8 (fld v (8 * i + 7) (8 * i))

/-- Replaces n bytes of a memory by those of another. -/
def Memory.replace (m : Memory) (a n : Nat) (src : Memory) (b : Nat) : Memory :=
  (m.filter fun (x : Nat × BitVec 8) => decide (x.1 < a)) ++
    ((src.filter fun (x : Nat × BitVec 8) => decide (b ≤ x.1) && decide (x.1 < b + n)).map fun (x : Nat × BitVec 8) => (a + (x.1 - b), x.2)) ++
    m.filter fun (x : Nat × BitVec 8) => decide (a + n ≤ x.1)

def pageSize : Nat := 65536

def hdrMagic (m : Memory) : Nat := Memory.readN m 0 4
def hdrFver (m : Memory) : Nat := Memory.readN m 4 2
def hdrNpage (m : Memory) : Nat := Memory.readN m 6 2
def hdrClsdir (m : Memory) : Nat := Memory.readN m 8 4
def hdrSlottab (m : Memory) : Nat := Memory.readN m 0x0C 4
def hdrNslot (m : Memory) : Nat := Memory.readN m 0x10 4
def hdrSigoff (m : Memory) : Nat := Memory.readN m 0x14 4
def hdrKeyid (m : Memory) : Nat := Memory.readN m 0x18 8
def hdrRoot (m : Memory) : Nat := Memory.readN m 0x20 32

/-- The directory entry of a class (R364): NOTE, KTABLE, NKERN. -/
def classEntry (m : Memory) (c : Nat) : Nat × Nat × Nat :=
  let a := hdrClsdir m + 16 * c
  (Memory.readN m a 4, Memory.readN m (a + 4) 4, Memory.readN m (a + 8) 2)

/-- A kernel's offsets (R364): HDR, ENTRY, REJOIN, KINDS. -/
def kernelEntry (m : Memory) (ktable e : Nat) : Nat × Nat × Nat × Nat :=
  let a := ktable + 16 * e
  (Memory.readN m a 4, Memory.readN m (a + 4) 4, Memory.readN m (a + 8) 4, Memory.readN m (a + 12) 4)

/-- The slot table (R370), with the MBZ bytes of each entry. -/
def slotTable (m : Memory) : List (SlotEntry × Nat) :=
  if hdrSlottab m = 0 then []
  else
    (List.range (hdrNslot m)).map fun i =>
      let a := hdrSlottab m + 16 * i
      (⟨Memory.readN m a 4, Memory.readN m (a + 4) 4, Memory.readN m (a + 8) 4, Memory.readN m (a + 12) 1, Memory.readN m (a + 13) 1⟩,
       Memory.readN m (a + 14) 2)

/-- The OP7 values of the VI forms (R83). -/
def isViOp (op : Nat) : Bool := decide (0x28 ≤ op ∧ op ≤ 0x2F) || [0x3A, 0x44, 0x45, 0x4F].contains op

/-- The width of a slot's field, and whether the marked word is of its kind (R370). -/
def SlotEntry.width (e : SlotEntry) : Nat :=
  match e.ty with
  | 0 => 16
  | 1 => 21
  | 2 => 9
  | 3 => 32
  | _ => 64

/-- Whether the marked word lies in the image behind page 0, which holds the header and the leaf array (R362). -/
def SlotEntry.inImage (e : SlotEntry) (m : Memory) : Bool :=
  decide (65536 ≤ e.off) && decide (e.off + (if e.ty = 4 then 8 else 4) ≤ 65536 * hdrNpage m)

/-- A data section stands on pages that hold no code. -/
def SlotEntry.inData (e : SlotEntry) (code : List Nat) : Bool := !code.contains (e.off / 65536)

def SlotEntry.kindOk (e : SlotEntry) (m : Memory) (code : List Nat) : Bool :=
  let w := Memory.readN m e.off 4
  let op := fld w 31 26
  match e.ty with
  | 0 => decide (0x08 ≤ op ∧ op ≤ 0x10) || decide (0x30 ≤ op ∧ op ≤ 0x35)
  | 1 => decide (0x11 ≤ op ∧ op ≤ 0x13)
  | 2 => isViOp (fld w 31 25)
  | 3 => e.inData code
  | 4 => decide (e.off % 8 = 0) && e.inData code
  | _ => false

/-- Check 4 of R369: no entry breaks R370, and the load gives each slot a value that fits. -/
def slotsOk (m : Memory) (values : FMap Nat) (code : List Nat) : Bool :=
  decide (hdrNslot m ≤ 65535) && (slotTable m).all fun (x : SlotEntry × Nat) =>
    decide (x.2 = 0) && decide (x.1.scope ≤ 1) && x.1.inImage m && x.1.kindOk m code && (values.get x.1.nameh).any fun v => decide (v < pow2 x.1.width)

/-! ### Patching (R370, R371, R97, R114) -/

/-- The image with a slot's value in its field. -/
def SlotEntry.patch (e : SlotEntry) (v : Nat) (m : Memory) : Memory :=
  let w := Memory.readN m e.off 4
  match e.ty with
  | 0 => Memory.writeN m e.off 4 (w - fld w 15 0 + v % pow2 16)
  | 1 => Memory.writeN m e.off 4 (w - fld w 20 0 + v % pow2 21)
  | 2 => Memory.writeN m e.off 4 (w - fld w 12 4 * 16 + v % pow2 9 * 16)
  | 3 => Memory.writeN m e.off 4 (v % pow2 32)
  | _ => Memory.writeN m e.off 8 (v % pow2 64)

/-- Whether a word of a matrix table is the literal of a segment before it, the table read from an offset on (R87). -/
def literalAt (m : Memory) (lit : Nat) : Nat → Nat → Bool
  | 0, _ => false
  | n + 1, a =>
    if lit < a then false
    else if fld (Memory.readN m a 4) 31 26 = 0x08 then decide (lit = a + 4) || literalAt m lit n (a + 8)
    else literalAt m lit n (a + 4)

/-- The last word of the matrix table that holds an offset: the header is the nearest word of its form before it whose table
reaches that far and that is no literal of such a table. -/
def tableLast (m : Memory) (a : Nat) : Option Nat :=
  let heads := (List.range 65536).filterMap fun k =>
    let h := a - 4 * (k + 1)
    let w := Memory.readN m h 4
    if 4 * (k + 1) ≤ a ∧ fld w 31 28 = 0xA ∧ fld w 27 26 = 1 ∧ fld w 19 16 = 0 ∧ a ≤ h + 4 * fld w 15 0 then some (h, h + 4 * fld w 15 0) else none
  (heads.find? fun (x : Nat × Nat) => !(heads.any fun (y : Nat × Nat) => decide (y.1 < x.1) && literalAt m x.1 65536 (y.1 + 4))).map
    fun (x : Nat × Nat) => x.2

/-- The CRC of a segment's words from an offset on, in the order in which they issue (R97, R114). -/
def segCrc (m : Memory) (vector : Bool) (last : Nat) : Nat → Nat → BitVec 32 → BitVec 32
  | 0, _, crc => crc
  | n + 1, a, crc =>
    let w := Memory.readN m a 4
    let op7 := fld w 31 25
    let closes := if vector then decide (op7 = 0x7C) || decide (op7 = 0x7B)
      else decide (fld w 31 26 = 0x08) || decide (fld w 31 26 = 0x0A) || decide (last < a)
    if closes then crc
    else
      let next := if vector && decide (op7 = 0x7A) then ((a : Int) + 4 * sextNat (fld w 18 4) 15).toNat else a + 4
      segCrc m vector last n next (crcWord crc (BitVec.ofNat 32 w))

/-- The image with the signature literal of a segment recomputed. -/
def resign (m : Memory) (seg : Nat) : Memory :=
  let vector := decide (fld (Memory.readN m seg 4) 31 25 = 0x7C)
  let last := (tableLast m seg).getD (seg + 4 * 65536)
  Memory.writeN m (seg + 4) 4 (~~~(segCrc m vector last 65536 (seg + 8) (BitVec.allOnes 32))).toNat

/-- The value of a slot: a load-scope slot keeps what the load gave it (R371). -/
def CodeObject.value (o : CodeObject) (e : SlotEntry) : Nat := (if e.scope = 0 then o.values else o.current).getD e.nameh 0

/-- The image as its pages are mapped: every slot patched, and the literals of segments that hold a slot recomputed. -/
def CodeObject.patched (o : CodeObject) : Memory :=
  let m1 := o.slots.foldl (fun (m : Memory) e => e.patch (o.value e) m) o.image
  (((o.slots.map fun e => e.seg).filter fun n => decide (n ≠ 0)).eraseDups).foldl resign m1

/-! ### The page hash tree (R372) -/

/-- leaf(i) of the image. -/
def leafHash (m : Memory) (i : Nat) : Nat :=
  shake256 (0 :: leList 8 i ++ (List.range pageSize).map fun k => Memory.read m (pageSize * i + k)) 32

/-- The leaf that the array gives for page i. -/
def storedLeaf (m : Memory) (i : Nat) : Nat := Memory.readN m (0x100 + 32 * (i - 1)) 32

/-- One level of the tree from the level below. -/
def treeLevel : List Nat → List Nat
  | a :: b :: rest => shake256 (1 :: leList 32 a ++ leList 32 b) 32 :: treeLevel rest
  | l => l

/-- The single node at the top. -/
def treeRoot : Nat → List Nat → Nat
  | 0, l => l.headD 0
  | n + 1, l => if l.length ≤ 1 then l.headD 0 else treeRoot n (treeLevel l)

/-- Check 3 of R369. -/
def treeOk (m : Memory) : Bool :=
  let n := hdrNpage m
  decide (treeRoot 12 ((List.range (n - 1)).map fun i => storedLeaf m (i + 1)) = hdrRoot m) &&
    m.all fun (x : Nat × BitVec 8) => !(decide (0x100 + 32 * (n - 1) ≤ x.1) && decide (x.1 < pageSize))

/-! ### Checks at the load (R369) -/

/-- Check 1 of R369. -/
def headerFits (m : Memory) : Bool :=
  decide (hdrMagic m = 0x314F4346) && decide (hdrFver m / 256 = 1) && decide (2 ≤ hdrNpage m) && decide (hdrNpage m ≤ 2041) &&
    decide (Memory.readN m 0x40 0xC0 = 0) &&
    (List.range 4).all fun c => decide (Memory.readN m (hdrClsdir m + 16 * c + 10) 6 = 0)

/-- Check 2 of R369. -/
def signatureOk (m : Memory) (keys : List Nat) : Bool :=
  keys.contains (hdrKeyid m) &&
    Config.falconOk (hdrKeyid m) (shake256 ((List.range 0x100).map fun i => Memory.read m i) 64) (Memory.readN m (hdrSigoff m) 1280)

/-- The offsets of a kind table that are not 0, with their kinds (R364). -/
def kindEntries (m : Memory) (kinds : Nat) : List (Nat × Nat) :=
  if kinds = 0 then []
  else (List.range 64).filterMap fun k =>
    let n := Memory.readN m (kinds + 4 * k) 4
    if n = 0 then none else some (k, n)

/-- The blocks at which a class 2 kernel may begin: its entry, its rejoin word and its kinds. -/
def blockEntries (m : Memory) (ktable e : Nat) : List Nat :=
  let (_, entry, rejoin, kinds) := kernelEntry m ktable e
  entry :: (if rejoin = 0 then [] else [rejoin]) ++ (kindEntries m kinds).map fun (x : Nat × Nat) => x.2

/-- The blocks of each class 2 kernel, in class order; none where a block breaks a rule, which is check 9 of R369. -/
def kernelBlocks (m : Memory) : Option (FMap (List Nat)) :=
  let (note, kt, n) := classEntry m 2
  let size := pageSize * hdrNpage m
  if note = 0 then some []
  else (List.range n).mapM fun e => (blocksOf m size (32 * size) (blockEntries m kt e) []).map fun l => (e, l)

/-- The pages that the load verifies (R373): those of the class directory, the notes, the kernel tables and the slot
table; every page of an object with class 2 code. -/
def loadPages (m : Memory) : List Nat :=
  let span (a n : Nat) : List Nat := if n = 0 then [] else (List.range (n / pageSize + 2)).map (fun i => a / pageSize + i) |>.filter fun p =>
    decide (p * pageSize < a + n)
  let classes := (List.range 4).map (classEntry m)
  let some_ := classes.flatMap fun (x : Nat × Nat × Nat) => if x.1 = 0 then [] else span x.1 32 ++ span x.2.1 (16 * x.2.2)
  let l := if (classEntry m 2).1 ≠ 0 then List.range (hdrNpage m)
    else span (hdrClsdir m) 64 ++ some_ ++ span (hdrSlottab m) (16 * (slotTable m).length)
  (l.filter fun p => decide (0 < p) && decide (p < hdrNpage m)).foldl NatSet.add ([] : NatSet)

/-! ### Mapping (R362, R373, R374) -/

/-- The address of the leaf entry of a page of a context in its level 0 table, where the tables above it stand. -/
def leafEntry (m : Memory) (va : Nat) : Nat → Nat → Option Nat
  | 0, table => some (table + 8 * tableIndex va 0)
  | level + 1, table =>
    let e := Memory.readN m (table + 8 * tableIndex va (level + 1)) 8
    if e % 2 = 1 && decide (fld e 1 1 = 0) && !malformedEntry e (level + 1) then leafEntry m va level (fld e 55 13 * 8192) else none

/-- Writes the leaf entry of a page: present with a permission, or not present. -/
def State.setLeaf (s : State) (ctx va v : Nat) : State :=
  match leafEntry s.mem va 3 (s.ctx ctx).root with
  | some a => s.deviceWrite a 8 v
  | none => s

/-- A page of an object is mapped: one that holds code executable, any other read-only (R362; log 19). -/
def State.mapPage (s : State) (o : CodeObject) (i : Nat) : State :=
  let pa := o.phys + pageSize * i
  let s1 := { s with
    mem := Memory.replace s.mem pa pageSize o.patched (pageSize * i)
    poison := s.poison.clear (pa / 32) (pageSize / 32) }
  s1.setLeaf o.ctx (o.va + pageSize * i) (3 + 4 * (if i ≠ 0 ∧ i ∈ o.code then 2 else 0) + pa)

/-- The checks of a load in the order of R369: the DETAIL of the first that fails, or the blocks of the class 2 kernels. A page
whose leaf does not agree is refused as check 3 refuses the leaf array (R373; log 19). -/
def checkLoad (req : LoadRequest) (keys : List Nat) (values : FMap Nat) : Except Nat (FMap (List Nat)) :=
  let m := Memory.ofBytes req.image
  if !headerFits m then .error 0x01
  else if !(signatureOk m keys && treeOk m) then .error 0x02
  else if !slotsOk m values req.code then .error 0x0B
  else if !((loadPages m).all fun p => decide (leafHash m p = storedLeaf m p)) then .error 0x02
  else
    match kernelBlocks m with
    | none => .error 0x0A
    | some l => .ok l

/-- CODE_OBJECT_LOAD (R362-R373, R379): an object that fails a check is refused with its DETAIL, and nothing is loaded; a load
is entered in the measurement log (R475). -/
def execCodeObjectLoad (req : LoadRequest) (s : State) : Out :=
  let m := Memory.ofBytes req.image
  let values := req.slots.foldl (fun (f : FMap Nat) (x : Nat × Nat) => f.set x.1 x.2) ([] : FMap Nat)
  .next (if !(decide (req.va % pageSize = 0) && (s.object req.ctx req.va).isNone) then s
    else
      match checkLoad req s.pfc.keys values with
      | .error detail => { s with outputs := s.outputs ++ [.loadRefused req.ctx req.va detail] }
      | .ok blocks =>
        let pages := loadPages m
        let o : CodeObject :=
          { ctx := req.ctx, va := req.va, phys := req.phys, npage := hdrNpage m, image := m, verified := pages.foldl NatSet.add [0],
            failed := [], slots := (slotTable m).map fun (x : SlotEntry × Nat) => x.1, values, current := values, root := hdrRoot m,
            code := req.code, blocks }
        (0 :: pages).foldl (fun (s : State) p => s.mapPage o p) { s with
            objects := s.objects.set (objectKey req.ctx req.va) o
            pfc := { s.pfc with measured := s.pfc.measured ++ [(5, req.ctx, hdrRoot m)] } })

/-! ### Demand pages (R374) -/

/-- The replayable traps of groups at an address of a page: a group may have one for each of its streams. -/
def State.faultsOn (s : State) (o : CodeObject) (page : Nat) : List (Nat × Nat × TrapInfo) :=
  let inside (a : Word) : Bool := decide (a.toNat / pageSize = (o.va + pageSize * page) / pageSize)
  s.cores.flatMap fun (c : Nat × Core) =>
    if c.2.job.ctx ≠ o.ctx then []
    else c.2.groups.flatMap fun (g : Nat × Group) =>
      if g.2.status ≠ .trapped then []
      else (g.2.traps.filter fun (t : TrapInfo) => t.replay && inside t.addr).map fun t => (c.1, g.1, t)

/-- A trap of a group is answered. -/
def State.dropTrap (s : State) (core slot : Nat) (t : TrapInfo) : State :=
  s.modCore core fun c => c.modGroup slot fun g => { g with traps := g.traps.filter fun (x : TrapInfo) => decide (x ≠ t) }

/-- CODE_INTEGRITY in place of the replay, with what the access's record held beside the cause (R374, R396, R397). -/
def State.failReplay (s : State) (core slot page : Nat) (t : TrapInfo) : State :=
  (s.dropTrap core slot t).at ⟨core, slot, t.stream⟩ fun s =>
    s.raiseTrap { cause := causeIntegrity, addr := t.addr, detail := page, pc := some t.pc, aux := t.aux, cidx := t.cidx, elem := t.elem }

/-- The replay of one access (R132, R374): the group goes on once none of its traps is left. -/
def State.replayAccess (s : State) (core slot : Nat) (t : TrapInfo) : State :=
  if ((s.core core).group slot).traps.all fun (x : TrapInfo) => decide (x = t) then s.resumeGroup core slot ⟨[], none⟩
  else (s.dropTrap core slot t).resumeStream core slot t.stream

/-- DEMAND_PAGE_VERIFY (R374): a page whose leaf agrees is mapped and the accesses replay; another is marked failed. -/
def execDemandPageVerify (ctx va page : Nat) (s : State) : Out :=
  .next (match s.object ctx va with
    | none => s
    | some o =>
      if o.npage ≤ page ∨ page = 0 then s
      else
        let fail := o.failed.has page || (!o.verified.has page && decide (leafHash o.image page ≠ storedLeaf o.image page))
        if fail then
          let s1 := { s with objects := s.objects.set (objectKey ctx va) { o with failed := o.failed.add page } }
          (s.faultsOn o page).foldl (fun (s : State) (x : Nat × Nat × TrapInfo) => s.failReplay x.1 x.2.1 page x.2.2) s1
        else
          let o1 := { o with verified := o.verified.add page }
          let s1 := if o.verified.has page then s else ({ s with objects := s.objects.set (objectKey ctx va) o1 }).mapPage o1 page
          (s.faultsOn o page).foldl (fun (s : State) (x : Nat × Nat × TrapInfo) => s.replayAccess x.1 x.2.1 x.2.2) s1)

/-! ### Slot patches and unloading (R371, R374) -/

/-- The launches of a load record in flight on the package. -/
def State.launchesOf (s : State) (ctx va : Nat) : List Nat :=
  (s.hub.launches.filter fun (l : Nat × Launch) => decide (pktContext l.2.packet = ctx) && decide (pktCodeObj l.2.packet = va)).map
    fun (l : Nat × Launch) => l.1

/-- Writes bytes of the patched image to a mapped page, and drops instruction-cache copies (R186, R371). -/
def State.refreshBytes (s : State) (o : CodeObject) (off n : Nat) (code : Bool) : State :=
  if !o.verified.has (off / pageSize) then s
  else
    let s1 := s.deviceWrite (o.phys + off) n (Memory.readN o.patched off n)
    if code then s1.dropSector (some o.ctx) (o.va + off) fun _ => true else s1

/-- SLOT_PATCH (R371): only a launch-scope slot, only while no launch of the load record is in flight; a value wider than its field is
refused with 0x0B (R370). -/
def execSlotPatch (ctx va nameh : Nat) (value : BitVec 64) (s : State) : Out :=
  .next (match s.object ctx va with
    | none => s
    | some o =>
      let es := o.slots.filter fun e => decide (e.nameh = nameh) && decide (e.scope = 1)
      if es = [] ∨ s.launchesOf ctx va ≠ [] then s
      else if es.any fun e => decide (pow2 e.width ≤ value.toNat) then { s with outputs := s.outputs ++ [.loadRefused ctx va 0x0B] }
      else
        let o1 := { o with current := o.current.set nameh value.toNat }
        let s1 := { s with objects := s.objects.set (objectKey ctx va) o1 }
        es.foldl (fun (s : State) e =>
          let s2 := s.refreshBytes o1 e.off (if e.ty = 4 then 8 else 4) (decide (e.ty ≤ 2))
          if e.seg = 0 then s2 else s2.refreshBytes o1 (e.seg + 4) 4 true) s1)

/-- CODE_OBJECT_UNLOAD (R374): the load record ends with its failed marks, and its pages are no longer mapped. -/
def execCodeObjectUnload (ctx va : Nat) (s : State) : Out :=
  .next (match s.object ctx va with
    | none => s
    | some o =>
      let s1 := o.verified.foldl (fun (s : State) p => s.setLeaf ctx (va + pageSize * p) 0) { s with objects := s.objects.del (objectKey ctx va) }
      o.verified.foldl (fun (s : State) p => s.shoot ctx (va + pageSize * p) false (fun _ => true) true) s1)

/-! ### Checks at a launch (R364-R369) -/

/-- What a launch takes from its code object: the kernel header word, the entry, the rejoin word (0 where there is none)
and the kinds that the object itself defines. -/
structure KernelInfo where
  header : BitVec 32
  entry : Word
  rejoin : Word
  kinds : FMap Word
  deriving DecidableEq, Repr

/-- The revisions of R368. -/
def noteMajor (cls : Nat) : Nat :=
  match cls with
  | 2 => 1
  | 3 => 2
  | _ => 3

/-- Checks 5 to 8, 10 and 11 of R369: the DETAIL of the first that fails, or the kernel. -/
def CodeObject.kernel (o : CodeObject) (cls entry slots spres : Nat) : Except Nat KernelInfo :=
  let m := o.image
  let (note, kt, nkern) := classEntry m cls
  if note = 0 then .error 0x03
  else if nkern ≤ entry then .error 0x04
  else
    let ver := Memory.readN m note 2
    let feat := Memory.readN m (note + 4) 8
    if ver / 256 ≠ 1 then .error 0x05
    else if Memory.readN m (note + 2) 1 ≠ noteMajor cls ∨ Memory.readN m (note + 3) 1 ≠ 0 then .error 0x06
    else if pow2 9 ≤ feat then .error 0x07
    else
      let (hdr, ent, rej, kinds) := kernelEntry m kt entry
      let w := Memory.readN m hdr 4
      let z := pow2 (fld w 20 17 + 8)
      if fld w 31 26 ≠ 0x3F ∨ fld w 25 24 ≠ cls ∨ fld w 23 23 ≠ (if cls = 3 then 1 else 0) ∨ fld w 22 21 = 3 ∨ fld w 16 0 ≠ 0 then .error 0x08
      else if cls = 1 then .error 0x09
      else if fld w 22 21 = 1 ∧ spres < slots * z then .error 0x0D
      else
        let at_ (n : Nat) : Word := BitVec.ofNat 64 (o.va + n)
        .ok
          { header := BitVec.ofNat 32 w, entry := at_ ent, rejoin := if rej = 0 then 0 else at_ rej
            kinds := (kindEntries m kinds).map fun (x : Nat × Nat) => (x.1, at_ x.2) }

end Sys2Proof.Machine
end

