-- ==== Sys2Proof/Machine/Blocks.lean ====
section
/-! DEFINITION. How a group of class 2 code runs (R366, R381-R383): a kernel's blocks with the effects that the rules give them,
in place of the class 0 words that the runtime makes of them, which no program sees and whose timing no rule defines
(DESIGN CHOICE, log 41). -/

namespace Sys2Proof.Machine

/-! ### The block at an address (R379, R381) -/

/-- The code object of the step's launch. -/
def State.hereObject (s : State) : Option CodeObject := s.object s.here.job.ctx (pktCodeObj s.hereLaunch.packet)

/-- The offsets of the blocks of the step's kernel. -/
def State.hereBlocks (s : State) (o : CodeObject) : List Nat := o.blocks.getD (pktEntry s.hereLaunch.packet) []

/-- The block at an address, if it is one of the step's kernel. -/
def State.blockAt (s : State) (pc : Word) : Option Block2 :=
  s.hereObject.bind fun o =>
    if decide (o.va ≤ pc.toNat) && (s.hereBlocks o).contains (pc.toNat - o.va) then some (Block2.parse o.image (pc.toNat - o.va)) else none

/-- Whether the step's kernel has a lane block, and so acquires register blocks 1 to 3 at entry (R382). -/
def State.hasLanes (s : State) : Bool :=
  s.hereObject.any fun o => (s.hereBlocks o).any fun a => (Block2.parse o.image a).lane

/-! ### Going on -/

/-- The step's group goes on in its block, or at an address behind it, from the next cycle (R383: no timing is defined). -/
def State.blockGo (s : State) (r : Option BlockRun) (pc : Word) : State :=
  (s.modGrp fun g => { g with block := r, sc := { g.sc with pc, nextIssue := s.pcc + 1 } }).clearHold

/-- The next step of the block that the group is in. -/
def State.blockOn (s : State) (r : BlockRun) : State := s.blockGo (some r) s.scalar.pc

/-- A block whose evaluation has begun. -/
def BlockRun.begin (b : Block2) (s : State) : BlockRun :=
  { eval := b.start fun n => s.rf.get (BitVec.ofNat 5 n), twin := s.scalar.twin.map fun r => b.start fun n => r.get (BitVec.ofNat 5 n),
    next := 0, load := none, data := none, committing := false, stored := 0 }

/-- Both copies of a twin group agree on what leaves the registers (R283). -/
def BlockRun.agreeOn {α : Type} [DecidableEq α] (r : BlockRun) (f : Eval2 64 → α) : Bool := r.twin.all fun t => decide (f r.eval = f t)

/-! ### Evaluation (R381) -/

/-- The next operation of a block: a load waits for its data, any other takes one cycle. -/
def evalBlock (o : BOp) (r : BlockRun) (s : State) : Out :=
  let n := r.next
  match r.eval.loadOf o n, r.data with
  | some _, some v =>
    .next (s.blockOn { r with
      eval := r.eval.deliverAll o v, twin := r.twin.map fun t => t.deliverAll o v, next := n + 1, load := none, data := none })
  | some (ea, size, signed), none =>
    check (r.agreeOn fun e => e.loadOf o n) causeTwin s <| withRoom s <|
      withAddress ea size .read s fun pa e =>
        let (s1, id) := s.startRead (.block signed) ea pa size 0 0 e
        .next (s1.blockOn { r with load := some id })
  | none, _ =>
    check (r.agreeOn fun e => e.loadOf o n) causeTwin s <|
      let rm (f : RegFile) : Rm := Rm.ofCode f.rmode.toNat
      .next (s.blockOn { r with
        eval := r.eval.op64 (rm s.rf) o n
        twin := r.twin.map fun t => t.op64 ((s.scalar.twin.map rm).getD .rne) o n, next := n + 1 })

/-! ### Commit (R381) -/

/-- The exit of a block: exactly one has fired, and an exitr leads to a block of the kernel. The trap comes before the commit,
so that the block has no effect. -/
def withExit (r : BlockRun) (s : State) (k : Exit2 → Out) : Out :=
  match r.eval.exits with
  | [x] =>
    check (r.agreeOn fun e => e.exits) causeTwin s <|
      match x with
      | .address a => if (s.blockAt a).isSome then k x else trapWith s { cause := causeProtection, addr := a }
      | _ => k x
  | _ => trap s causeOperand

/-- The register targets of a block are written, the FLAGS raised, and the group goes to the next block, or leaves by JOIN. -/
def leaveBlock (r : BlockRun) (x : Exit2) (s : State) : Out :=
  let put (e : Eval2 64) (f : RegFile) : RegFile :=
    (e.regs.foldl (fun (f : RegFile) (v : Nat × Word) => f.put (BitVec.ofNat 5 v.1) v.2) f).raise e.flags
  let s1 := s.modScalar fun sc => { sc with rf := put r.eval sc.rf, twin := sc.twin.map fun t => put (r.twin.getD r.eval) t }
  match x with
  | .offset n => .next (s1.blockGo none (s.scalar.pc + BitVec.ofInt 64 n))
  | .address a => .next (s1.blockGo none a)
  | .join =>
    .next (((s1.blockGo none s.scalar.pc).modHere fun c => c.leave s.cur.slot s.pcc .joined).modGrp fun g =>
      { g with hold := some ⟨s.pcc, .leaving, none⟩ })

/-- The commit of a block: its stores one after another, then its registers. A trap at a store leaves the earlier ones made, and
the block goes on from that store when the group is resumed. -/
def commitBlock (r : BlockRun) (s : State) : Out :=
  withExit r s fun x =>
    match r.eval.stores[r.stored]? with
    | none => leaveBlock r x s
    | some (ea, size, v) =>
      check (r.agreeOn fun e => e.stores.map fun w => (w.1, w.2.1, storeValue w.2.2 w.2.1)) causeTwin s <|
        let s0 := s.modGrp fun g => { g with block := some { r with committing := true } }
        withAddress ea size .write s0 fun pa _ =>
          .next ((s0.postStore .store ea pa size 0 (storeValue v size) 0 [(0, size)]).blockOn { r with committing := true, stored := r.stored + 1 })

/-! ### Lane blocks (R382) -/

/-- The registers that a lane block writes, each with its bytes: every one of the 256 lanes evaluates the block on the 32-bit
cells of v0 to v15 there. -/
def laneWrites (b : Block2) (reg : Nat → BitVec 8192) : List (Nat × Mask × BitVec 8192) :=
  let lanes := (List.range 256).map fun k => (k, b.evalLane fun n => (reg n).extractLsb' (32 * k) 32)
  (List.range 16).filterMap fun n =>
    let l := lanes.filterMap fun (x : Nat × FMap (BitVec 32)) => (x.2.get n).map fun v => (x.1, v)
    if l = [] then none
    else some (n, l.foldl (fun (m : Mask) (x : Nat × BitVec 32) => m ||| BitVec.ofNat 1024 (15 * pow2 (4 * x.1))) 0,
      l.foldl (fun (v : BitVec 8192) (x : Nat × BitVec 32) => v ||| BitVec.ofNat 8192 (x.2.toNat * pow2 (32 * x.1))) 0)

/-- Whether a register that a lane block reads holds a poisoned cell (R448). -/
def Group.lanePoison (g : Group) (b : Block2) : Bool :=
  b.reads.any fun r => g.vpoison.any fun p => decide (p / 256 = r.reg)

/-- A lane block: a vector table, exposed where the packet asks for it, that writes what the lanes have computed; the group goes on
behind it once the stream is no longer busy. -/
def laneBlock (b : Block2) (s : State) : Out :=
  match s.grp.block with
  | some _ => .next (s.blockGo none (s.scalar.pc + BitVec.ofNat 64 b.size))
  | none =>
    let exposed := s.here.job.blocks.getD false
    if s.grp.lanePoison b then
      .next (s.at ⟨s.cur.core, s.cur.slot, .vector⟩ fun s => s.raiseTrap { cause := causePoison, pc := some s.scalar.pc })
    else
      withMode exposed true s <|
        let land := s.pcc + 8 + Config.freeDelay s.free % 4096
        let writes := (laneWrites b s.grp.vreg).map fun (w : Nat × Mask × BitVec 8192) => (⟨land, .reg w.1 w.2.1 w.2.2⟩ : VWrite)
        .next (((s.modV fun _ =>
          { VStream.idle with busy := true, header := s.scalar.pc, exposed, pc := s.scalar.pc, ended := true, writes }).tick).blockOn
            { BlockRun.begin b s with committing := true })

/-! ### The step of a group that runs blocks -/

/-- A kernel with lane blocks acquires register blocks 1 to 3 at entry, as rbacq.w does, with no register written (R170, R382). -/
def withRegisterBlocks (s : State) (k : Out) : Out :=
  let c := s.here
  let r := s.grp.lacking 7
  match s.grp.hold with
  | some ⟨_, .blocks _ _, some _⟩ => if s.grp.inPlace then .next s.clearHold else .next s
  | some ⟨_, .blocks _ _, none⟩ => .next s
  | _ =>
    if !s.hasLanes || decide (r = []) then k
    else if c.heldBlocks + r.length ≤ c.budget && decide (c.waiting Wait.blocks? = []) then
      let s1 := (s.modHere fun c => c.giveBlocks s.cur.slot r).serveBlocks s.cur.core
      .next ((s1.holdFor (.blocks 7 32)).modGrp fun g => { g with hold := g.hold.map fun h => { h with granted := some 0 } })
    else .next ((s.holdFor (.blocks 7 32)).swapOut)

/-- One step of a group that runs blocks. A pc at no block of the kernel draws ILLEGAL_OPERAND (R2, R340). -/
def runBlock (s : State) : Out :=
  withRegisterBlocks s <|
    match s.blockAt s.scalar.pc with
    | none => trap s causeOperand
    | some b =>
      if b.lane then laneBlock b s
      else
        match s.grp.block with
        | none => withReads (b.reads.map fun r => BitVec.ofNat 5 r.reg) s <| .next (s.blockOn (BlockRun.begin b s))
        | some r =>
          match b.ops[r.next]? with
          | some o => evalBlock o r s
          | none => commitBlock r s

/-- Whether the group waits for a load of its block, or for its vector stream. -/
def Group.blockWaits (g : Group) : Bool := g.v.busy || g.block.any fun r => r.load.isSome && r.data.isNone

end Sys2Proof.Machine
end

