-- ==== Sys2Proof/Machine/Launches.lean ====
section
/-! DEFINITION. Launches (R174-R176, R338-R361): the check of a packet, wait signals, selection, placement, completion, and
the boundaries of a launch's domains with the elastic decision and the arrival messages of a fabric launch. -/

namespace Sys2Proof.Machine

/-! ### A context's memory as the scheduler reads it (R338, R386, R391) -/

/-- The physical address that a virtual address of a context has for the hub, with its leaf: of a valid context, and of a killed one
until its launches have completed (R349, R410; DEDUCED, log 56). A signal or a table is in memory; configuration space is none
(log 23), nor is an address that no home answers for (R287, R412, R464; log 55). -/
def State.translateIn (s : State) (ctx va : Nat) : Option (Nat × TlbEntry) :=
  if !((s.ctx ctx).valid || (s.ctx ctx).killed) || decide (pow2 56 ≤ va) then none
  else
    match s.walkTables Config.controlBase ctx va with
    | .found e => if isConfig (e.phys va) || (s.noHome (e.phys va)).isSome then none else some (e.phys va, e)
    | .stopped _ _ => none

/-- Every page of n bytes is readable by a context. -/
def State.readableIn (s : State) (ctx va n : Nat) : Bool :=
  (s.translateIn ctx (va + (n - 1))).isSome && (List.range (n / 65536 + 1)).all fun i => (s.translateIn ctx (va + 65536 * i)).isSome

def State.writableIn (s : State) (ctx va : Nat) : Bool := (s.translateIn ctx va).any fun p => p.2.writable

/-- The n bytes at an aligned address of a context, committed values only (R310). -/
def State.readIn (s : State) (ctx va n : Nat) : Option Nat := (s.translateIn ctx va).map fun p => Memory.readN s.mem p.1 n

/-- Entries of n bytes of a table. -/
def State.tableIn (s : State) (ctx va n count : Nat) : Option (List Nat) := (List.range count).mapM fun i => s.readIn ctx (va + n * i) n

/-! ### The check of a packet (R341, R342) -/

/-- One row of R342: the first failing field, in the order of their offsets, ends the check. -/
def packetRow {α : Type} (status : Nat) (fields : List (Nat × Bool)) (k : Except (Nat × Nat) α) : Except (Nat × Nat) α :=
  match fields.find? fun (x : Nat × Bool) => x.2 with
  | some x => .error (status, x.1)
  | none => k

/-- The entries of FABLIST that R341 allows: inside the torus, distinct, and the own package among them. -/
def State.membersOk (s : State) (l : List Nat) : Bool :=
  (l.all fun n => decide (n < 4096) && s.fabric.inside n) && decide (l.eraseDups.length = l.length) && l.contains s.fabric.coord

/-- A kind table in memory (R340). -/
def kindsOf (l : List Nat) : FMap Word :=
  l.zipIdx.filterMap fun (x : Nat × Nat) => if x.1 % 2 = 1 then some (x.2, BitVec.ofNat 64 (x.1 / 4 * 4)) else none

/-- The core whose place a core takes: a spare that stands in for a retired core has the retired core's strip and position
for placement (R118, R457). -/
def State.placeOf (s : State) (die : Nat) : Nat → Nat → Nat
  | 0, p => p
  | n + 1, p =>
    match s.pfc.spareMap.find? fun (x : Nat × Nat × Nat × Nat) => decide (x.1 = 0x14) && decide (x.2.1 = p) && decide (x.2.2.2 = die) && decide (p ≠ x.2.2.1) with
    | some x => s.placeOf die n x.2.2.1
    | none => p

/-- The cores of a die that a launch may use (R353, R456), each with the core whose place it takes, in the order of their places:
those not retired, and spares that stand in for one. -/
def State.usableCores (s : State) (die : Nat) : List (Nat × Nat) :=
  let d := s.die die
  if d.gone then []
  else
    let l := ((List.range Config.coresPerDie).filter fun p => !d.retired.has p).map fun p => (p, s.placeOf die 8 p)
    sortBy (fun (a b : Nat × Nat) => decide (a.2 ≤ b.2)) (l.filter fun x => decide (x.2 < 192))

/-- The checks of R342 in their order: the status and the DETAIL of the first that fails, or what a placement needs. -/
def State.checkPacket (s : State) (q : Nat) (p : BitVec 1024) : Except (Nat × Nat) LaunchInfo :=
  let ctx := pktContext p
  let n (b e : Nat) : Nat := pkt p b e
  let caps := s.tableIn ctx (pktTqTab p) 8 (pktTqN p)
  let members := if pktFPkgs p < 2 then some [] else s.tableIn ctx (pktFabList p) 2 (pktFPkgs p)
  let addr (a al size : Nat) (write : Bool) : Bool :=
    decide (a ≠ 0) && (decide (a % al ≠ 0) || !s.readableIn ctx a size || (write && !s.writableIn ctx a))
  packetRow 5 [(0, !versionAccepted p)] <|
  packetRow 4 [(0x02, decide (n 2 2 ≠ (s.lqueue q).ctx) || !(s.ctx ctx).valid), (0x03, decide (4 ≤ n 3 3)), (0x04, decide (16 ≤ n 4 5)),
    (0x06, decide (4 ≤ n 6 6)), (0x39, decide (n 0x39 0x39 ≠ 0)), (0x70, decide (n 0x70 0x7F ≠ 0))] <|
  packetRow 4 [(0x18, decide (pktMinDie p = 0) || decide (8 < pktMinDie p)), (0x19, decide (pktMaxDie p < pktMinDie p) || decide (8 < pktMaxDie p)),
    (0x1A, decide (pktCpd p = 0) || decide (192 < pktCpd p)), (0x1C, decide (pktSlots p = 0) || decide (32 < pktSlots p)),
    (0x1D, decide (pktLGroups p = 0) || decide (pktSlots p < pktLGroups p)), (0x1E, decide (pktL1 p = 0) || decide (16 < pktL1 p)),
    (0x1F, decide (pktL2 p = 0))] <|
  packetRow 4 [(0x1A, decide (pktL2 p % pktL1 p ≠ 0) || decide (pktCpd p % pktL2 p ≠ 0))] <|
  packetRow 4 [(0x1C, pktTwin p && decide (pktSlots p < 2 * pktLGroups p))] <|
  packetRow 4 [(0x20, decide (524288 < pktSpRes p + pktGsRes p) || decide (pktSpRes p % 4096 ≠ 0) || decide (pktGsRes p % 4096 ≠ 0))] <|
  packetRow 4 [(0x28, decide (64 < pktTqN p) || (decide (pktTqN p ≠ 0) && decide (pktTqTab p = 0)) ||
    caps.any fun l => l.any fun x => decide (2097152 < x))] <|
  packetRow 4 [(0x3A, (decide (1 ≤ pktFto p) && decide (pktFto p ≤ 3)) || decide (4096 < pktFto p))] <|
  packetRow 4 [(0x3C, decide (pktSched p &&& 0xFF0000FF ≠ 0))] <|
  packetRow 4 [(0x60, decide (2 ≤ pktFPkgs p) && (decide (pktFabList p = 0) || members.any fun l => !s.membersOk l))] <|
  packetRow 4 [(0x6C, decide (2 ≤ pktFPkgs p) && s.hub.launches.any fun (l : Nat × Launch) =>
    decide (2 ≤ pktFPkgs l.2.packet) && decide (pktFabId l.2.packet = pktFabId p))] <|
  packetRow 7 [(0x28, addr (pktTqTab p) 8 (8 * max 1 (pktTqN p)) false), (0x30, addr (pktKTab p) 8 512 false), (0x40, addr (pktWait0 p) 8 8 false),
    (0x48, addr (pktWait1 p) 8 8 false), (0x50, addr (pktCompl p) 8 8 true), (0x58, addr (pktStat p) 16 16 true),
    (0x60, addr (pktFabList p) 2 (2 * max 1 (pktFPkgs p)) false)] <|
  match s.object ctx (pktCodeObj p) with
  | none => .error (8, 0x0C)
  | some o =>
    match o.kernel (pktClass p) (pktEntry p) (pktSlots p) (pktSpRes p) with
    | .error d => .error (8, d)
    | .ok k =>
      let dies := (List.range Config.dies).filter fun d => !(s.die d).gone
      packetRow 6 [(0x18, decide (dies.length < pktMinDie p) || dies.all fun d => decide ((s.usableCores d).length < pktCpd p))] <|
        .ok
          { caps := caps.getD [], members := members.getD [], entry := k.entry, rejoin := k.rejoin, header := k.header
            kinds := if pktKTab p = 0 then k.kinds else kindsOf ((s.tableIn ctx (pktKTab p) 8 64).getD []) }

/-! ### Signals (R347, R348) -/

/-- Has a wait signal of a head read again: within 64 cycles where it is homed at the hub or has just been decremented, else
within 2,048, and no later than a read already due. In which cycle is a free value. -/
def State.pollSignal (s : State) (q i : Nat) (soon : Bool) : State :=
  match (s.lqueue q).head with
  | none => s
  | some h =>
    let va := if i = 0 then pktWait0 h.packet else pktWait1 h.packet
    let hub := (s.translateIn (pktContext h.packet) va).any fun x => s.isLocal x.1 && (match regionOf (localOf x.1) with
      | .lpddr _ => true
      | _ => false)
    let bound := if soon || hub then 64 else 2048
    let due := s.pcc + 1 + Config.freeDelay s.free % bound
    let pending := s.agenda.find? fun (p : Nat × Event) => decide (p.2 = .signalReread q i)
    if pending.any fun p => decide (p.1 ≤ due) then s.tick
    else ((s.unschedule (.signalReread q i)).schedule due (.signalReread q i)).tick

/-- Has the signals that heads wait for read again, after one was decremented here (R348). -/
def State.pollAll (s : State) : State :=
  s.hub.queues.foldl (fun (s : State) (q : Nat × LQueue) =>
    match q.2.head with
    | none => s
    | some h =>
      let s1 := if h.sig0 then s else s.pollSignal q.1 0 true
      if h.sig1 then s1 else s1.pollSignal q.1 1 true) s

/-- A signal is satisfied at 0 or less (R347); a poisoned one has not been read (log 23). -/
def State.signalSatisfied (s : State) (ctx va : Nat) : Bool :=
  (s.translateIn ctx va).any fun x => !s.poison.has (x.1 / 32) && decide (sextNat (Memory.readN s.mem x.1 8) 64 ≤ 0)

/-- SIGNAL_REREAD: a satisfied read is never withdrawn. -/
def execSignalReread (queue signal : Nat) (s : State) : Out :=
  .next (match (s.lqueue queue).head with
    | none => s
    | some h =>
      let done := if signal = 0 then h.sig0 else h.sig1
      let va := if signal = 0 then pktWait0 h.packet else pktWait1 h.packet
      if done then s
      else if s.signalSatisfied (pktContext h.packet) va then
        (s.modQueue queue fun x => { x with head := x.head.map fun h => if signal = 0 then { h with sig0 := true } else { h with sig1 := true } }).judgeHead
          queue
      else s.pollSignal queue signal false)

/-! ### Completion (R349, R350) -/

/-- Whether a write of the hub's reaches an aligned address of a context. -/
def State.reportable (s : State) (ctx va al : Nat) : Bool :=
  decide (va ≠ 0) && decide (va % al = 0) && (s.translateIn ctx va).any fun x => x.2.writable

/-- The status record (R350). -/
def statusRecord (pcc discard dies detail status : Nat) (invalid : Bool) : Nat :=
  pcc % pow2 64 * pow2 64 + min discard 0xFFFFFFFF * pow2 32 + dies % 256 * pow2 24 + detail % 256 * pow2 16 +
    (if invalid then pow2 15 else 0) + status % pow2 15

/-- Steps 2 to 4 of R349. -/
def State.report (s : State) (p : BitVec 1024) (discard dies detail status : Nat) (invalid : Bool) : State :=
  let ctx := pktContext p
  let at_ (va : Nat) : Nat := ((s.translateIn ctx va).map fun x => x.1).getD 0
  let s1 := if s.reportable ctx (pktStat p) 16 then
      s.deviceWrite (at_ (pktStat p)) 16 (statusRecord s.pcc discard dies detail status invalid)
    else s
  let a := at_ (pktCompl p)
  let s2 := if s1.reportable ctx (pktCompl p) 8 && !s1.poison.has (a / 32) then
      ({ s1 with mem := Memory.writeN s1.mem a 8 (Memory.readN s1.mem a 8 + (pow2 64 - 1)) }).pollAll
    else s1
  if pktIrq p then s2.sendMsix (s2.ctx ctx).func (pktMsix p) else s2

/-- Whether the scheduler's read of a packet draws no bytes: no home answers, or they are poisoned. No rule says what follows; the
read is made again (DESIGN CHOICE, log 55). -/
def State.packetLost (s : State) (a : Nat) : Bool :=
  (s.noHome a).isSome || (granulesOf a 128).any fun g => s.poison.has g

/-- HEAD_PACKET_READ (R342, R345): the head is copied and checked; one that fails completes at once, and the queue moves
on. -/
def execHeadPacketRead (queue : Nat) (s : State) : Out :=
  let q := s.lqueue queue
  .next (if !q.copying || q.head.isSome then s
    else if s.packetLost (q.slot q.ridx) then (s.schedule (s.pcc + 1 + Config.freeDelay s.free % 192) (.headPacketRead queue)).tick
    else
      let p := BitVec.ofNat 1024 (Memory.readN s.mem (q.slot q.ridx) 128)
      let s1 := s.modQueue queue fun x => { x with copying := false, ridx := x.ridx + 1 }
      match s.checkPacket queue p with
      | .error (status, detail) => (s1.report p 0 0 detail status false).pokeQueue queue
      | .ok info =>
        let h : LHead := { packet := p, info, sig0 := decide (pktWait0 p = 0), sig1 := decide (pktWait1 p = 0), eligible := none }
        let s2 := s1.modQueue queue fun x => { x with head := some h }
        let s3 := if h.sig0 then s2 else s2.pollSignal queue 0 false
        let s4 := if h.sig1 then s3 else s3.pollSignal queue 1 false
        s4.judgeHead queue)

/-- A launch whose jobs have all ended on the package, or were saved and have ended since (R349). -/
def State.launchOver (s : State) (launch : Nat) (l : Launch) : Bool := decide (s.coresOf launch = []) && l.saved.isNone

/-- The dies that a launch holds. -/
def Launch.held (l : Launch) : List Nat := l.dies.filter fun d => decide (d < Config.dies)

/-- Frees the die queues of a launch on the dies that p selects. -/
def State.freeQueues (s : State) (launch : Nat) (p : Nat → Bool) : State :=
  let freed (d : Die) : Die := { d with queues := d.queues.filter fun (q : Nat × TaskQueue) => decide (q.2.launch ≠ launch) }
  { s with dies := s.dies.mapVal fun k d => if p k then freed d else d }

/-- The stack area of a launch is freed: its pages are no longer mapped, and their translations and leases go (R376). -/
def State.freeStackArea (s : State) (ctx va : Nat) : State :=
  match (s.ctx ctx).areas.find? fun (a : Nat × Nat × Nat) => decide (a.1 = va) with
  | none => s
  | some a =>
    let inside (x : Nat) : Bool := decide (a.1 ≤ x) && decide (x < a.1 + a.2.1)
    let keep (l : List TlbEntry) : List TlbEntry := l.filter fun e => !(decide (e.ctx = ctx) && inside e.va)
    let s1 := s.modCtx ctx fun c => { c with areas := c.areas.filter fun (x : Nat × Nat × Nat) => decide (x ≠ a) }
    { s1 with
      cores := s1.cores.mapVal fun _ c =>
        { c with mem := { c.mem with
            tlb := keep c.mem.tlb
            l1 := if c.job.ctx = ctx then c.mem.l1.filter fun e => !inside e.2.vpage else c.mem.l1 } }
      dies := s1.dies.mapVal fun _ d => { d with tlbs := d.tlbs.mapVal fun _ l => keep l, stlbs := d.stlbs.mapVal fun _ l => keep l } }

/-- LAUNCH_COMPLETION (R349): every store of the jobs was committed as they ended (R258). -/
def execLaunchCompletion (launch : Nat) (s : State) : Out :=
  .next (match s.hub.launches.get launch with
    | none => s
    | some l =>
      if !s.launchOver launch l then s
      else
        let s1 := s.report l.packet l.discard l.held.length 0 l.status l.invalid
        ({ s1.freeQueues launch (fun _ => true) with hub := { s1.hub with launches := s1.hub.launches.del launch } }.freeStackArea
          (pktContext l.packet) l.stack.toNat).forget (pktContext l.packet))

/-! ### Fit and placement (R353, R354, R356, R357) -/

/-- Level-1 domains in role order, each in the lowest strip with enough idle cores, on its lowest positions (R354). The
idle cores come with their places, in the order of these. -/
def placeDomains (l1 : Nat) : Nat → List (Nat × Nat) → Option (List Nat)
  | 0, _ => some []
  | n + 1, idle =>
    let inStrip (k : Nat) : List (Nat × Nat) := idle.filter fun p => decide (stripOf p.2 = k)
    match (List.range 12).find? fun k => decide (l1 ≤ (inStrip k).length) with
    | none => none
    | some k =>
      let chosen := (inStrip k).take l1
      (placeDomains l1 n (idle.filter fun p => p ∉ chosen)).map fun rest => chosen.map (fun p => p.1) ++ rest

/-- The idle cores of a die, with their places. -/
def State.idleCores (s : State) (die : Nat) : List (Nat × Nat) :=
  (s.usableCores die).filter fun p => !s.cores.has (Config.coresPerDie * die + p.1)

/-- What a packet would get on a die: the die, its idle cores, the cores by role and the die queues by QUEUE. -/
structure DieFit where
  die : Nat
  idle : Nat
  cores : List Nat
  queues : List Nat
  deriving DecidableEq, Repr

/-- Whether a die holds what R353 asks for; which free die queues are taken no program sees (R340). -/
def State.fitOn (s : State) (p : BitVec 1024) (die : Nat) : Option DieFit :=
  let idle := s.idleCores die
  let free := (List.range 64).filter fun q => !(s.die die).queues.has q
  if free.length < pktTqN p then none
  else (placeDomains (pktL1 p) (pktCpd p / pktL1 p) idle).map fun cores => ⟨die, idle.length, cores, free.take (pktTqN p)⟩

/-- A die held by the reservation of another queue's packet (R355). -/
def State.heldBack (s : State) (queue : Option Nat) (die : Nat) : Bool :=
  match s.hub.reserve with
  | some (q, l) => decide (queue ≠ some q) && l.contains die
  | none => false

/-- The fitting dies, those with the most idle cores first, the lower on a tie (R354). -/
def State.fitting (s : State) (queue : Option Nat) (p : BitVec 1024) : List DieFit :=
  let l := ((List.range Config.dies).filter fun d => !s.heldBack queue d).filterMap fun d => s.fitOn p d
  sortBy (fun (a b : DieFit) => decide (b.idle < a.idle) || (decide (a.idle = b.idle) && decide (a.die ≤ b.die))) l

/-- Fit(P) (R353). -/
def State.fits (s : State) (queue : Nat) (p : BitVec 1024) : Bool := decide (pktMinDie p ≤ (s.fitting (some queue) p).length)

/-- DMRn of R291. -/
def dmrWord (domain members : Nat) : BitVec 32 := BitVec.ofNat 32 (domain % 65536 * 65536 + members % 65536)

/-- The job of a role (R356, R357). -/
def Launch.jobOf (l : Launch) (launch fabIndex role ordinal : Nat) (ph : Vector (BitVec 32) 5) (rejoin : Bool) : JobInfo :=
  let p := l.packet
  { JobInfo.blank with
    launch, ctx := pktContext p, role := BitVec.ofNat 32 role, jobid := BitVec.ofNat 32 (l.lseq % pow2 24 * 256 + ordinal % 8)
    slots := pktSlots p, launchGroups := pktLGroups p, twin := pktTwin p
    dmr := #v[dmrWord (role / pktL1 p) (pktL1 p), dmrWord (role / pktL2 p) (pktL2 p), dmrWord fabIndex (l.held.length * pktCpd p),
      dmrWord 0 (max (pktFPkgs p) 1)]
    ph, schedctl := BitVec.ofNat 32 (pktSched p), spmSize := pktSpRes p, storePlaces := pktGsRes p / 4096
    compat := decide (pktClass p = 3), rejoin, blocks := if pktClass p = 2 then some (pktExpdef p) else .none }

/-- The package's index in FABLIST (R341). -/
def State.fabIndex (s : State) (l : Launch) : Nat := (l.info.members.findIdx? fun n => decide (n = s.fabric.coord)).getD 0

/-- Places the jobs of one die of a launch (R354): each starts within the bounds of R359, in a cycle the spec does not
fix. A die with a slice without ways has no DSM from then on (R456). -/
def State.placeDie (s : State) (launch : Nat) (l : Launch) (ordinal : Nat) (f : DieFit) (ph : Vector (BitVec 32) 5) (rejoin : Bool) : State :=
  let s1 := s.modDie f.die fun d =>
    { d with dsmWays := if d.noWays = [] then d.dsmWays else 0, queues := (f.queues.zipIdx).foldl (fun (m : FMap TaskQueue) (x : Nat × Nat) =>
        m.set x.1 ⟨launch, x.2, l.info.caps.getD x.2 0, [], [], false, 0⟩) d.queues }
  (f.cores.zipIdx).foldl (fun (s : State) (x : Nat × Nat) =>
    let key := Config.coresPerDie * f.die + x.1
    let job := l.jobOf launch (s.fabIndex l) (ordinal * pktCpd l.packet + x.2) ordinal ph rejoin
    ((s.occupy key { Core.empty with job }).schedule (s.pcc + 1 + Config.freeDelay s.free % 180) (.jobStart launch key)).tick) s1

/-- A launch with dies added from an ordinal on: its binding table and its die queues (R340, R358). -/
def Launch.withDies (l : Launch) (first : Nat) (fs : List DieFit) : Launch :=
  let cpd := pktCpd l.packet
  fs.zipIdx.foldl (fun (l : Launch) (x : DieFit × Nat) =>
    let n := first + x.2
    { l with
      dies := l.dies ++ [x.1.die]
      binding := x.1.cores.zipIdx.foldl (fun (b : FMap Nat) (c : Nat × Nat) => b.set (n * cpd + c.2) (Config.coresPerDie * x.1.die + c.1)) l.binding
      tqs := x.1.queues.zipIdx.foldl (fun (b : FMap Nat) (c : Nat × Nat) => b.set (64 * n + c.2) c.1) l.tqs }) l

/-- The bytes of the stack area of a launch whose kernel has its stacks in global memory: one stack for every slot of every role
that the launch may come to have (R376). -/
def stackBytes (p : BitVec 1024) (header : BitVec 32) : Nat :=
  ceilDiv (8 * pktCpd p * pktSlots p * pow2 (fld header.toNat 20 17 + 8)) pageSize * pageSize

/-- The placement of a queue's head (R354); a stack area in global memory is mapped, on memory of the package that the runtime
chooses (R376; log 22). -/
def State.placeHead (s : State) (queue : Nat) (h : LHead) : State :=
  let fs := (s.fitting (some queue) h.packet).take (pktMaxDie h.packet)
  let id := s.nextId
  let global := decide (fld h.info.header.toNat 22 21 = 2)
  let stack : Word := if global then BitVec.ofNat 64 (Config.freeStack s.free % pow2 40 * 65536) else 0
  let phys := s.fabric.coord * pow2 44 + Config.freeStack (s.free + 1) % pow2 24 * 65536
  let l := ({ Launch.none with queue, packet := h.packet, lseq := s.hub.lseq, info := h.info, stack }).withDies 0 fs
  let hub := { s.hub with
    launches := s.hub.launches.set id l, lseq := (s.hub.lseq + 1) % pow2 24
    reserve := s.hub.reserve.filter fun r => decide (r.1 ≠ queue) }
  let s0 := ({ s with hub, nextId := id + 1 }).tick.tick
  let s1 := if global then s0.modCtx (pktContext h.packet) fun c =>
      { c with areas := c.areas ++ [(stack.toNat, stackBytes h.packet h.info.header, phys)] } else s0
  let s2 := fs.zipIdx.foldl (fun (s : State) (x : DieFit × Nat) => s.placeDie id l x.2 x.1 (Vector.replicate 5 0) false) s1
  (s2.modQueue queue fun x => { x with head := none }).pokeQueue queue

/-! ### Selection and reservation (R351, R352, R355) -/

/-- The effective priority of an eligible head (R351). -/
def LHead.priority (h : LHead) (now : Nat) : Nat := min 3 (pktPrio h.packet + (now - h.eligible.getD now) / 2000000)

/-- The eligible head of a queue. -/
def State.eligibleHead (s : State) (q : Nat) : Option LHead := if (s.lqueue q).eligible then (s.lqueue q).head else none

/-- The queues of one level in the order of a round (R352). -/
def roundOrder (rr : Nat) : List Nat := (List.range 64).map fun i => (rr + 1 + i) % 64

/-- The packet that a round places: its level, its queue, and the head. -/
def State.selected (s : State) : Option (Nat × Nat × LHead) :=
  [3, 2, 1, 0].findSome? fun p =>
    (roundOrder (s.hub.rr.toList.getD p 63)).findSome? fun q =>
      match s.eligibleHead q with
      | some h => if h.priority s.pcc = p ∧ s.fits q h.packet = true then some (p, q, h) else none
      | none => none

/-- SELECTION_ROUND (R352). -/
def execSelectionRound (s : State) : Out :=
  .next ((if s.hub.launches.length ≥ 256 then s
    else
      match s.selected with
      | none => s
      | some (p, q, h) =>
        let s1 := s.placeHead q h
        { s1 with hub := { s1.hub with rr := s1.hub.rr.set (p % 4) q (by omega) } }).wantRound)

/-- The packet that is to become the reserving one (R355): of the eligible ones at level 3 the one that has waited longest,
once it has waited 4,000,000 cycles and does not fit; of two that have waited equally long, which the rule does not rank, the one of the
lower queue number (DESIGN CHOICE, log 66). -/
def State.reserving (s : State) : Option Nat :=
  if s.hub.reserve.isSome then none
  else
    let l := s.hub.queues.filterMap fun (q : Nat × LQueue) =>
      match s.eligibleHead q.1 with
      | some h => if h.priority s.pcc = 3 then some (h.eligible.getD s.pcc, q.1) else none
      | none => none
    match l.foldl (fun (best : Option (Nat × Nat)) (x : Nat × Nat) => match best with
        | some b => if x.1 < b.1 then some x else some b
        | none => some x) none with
    | some (t, q) =>
      if t + 4000000 ≤ s.pcc && !((s.eligibleHead q).any fun h => s.fits q h.packet) then some q else none
    | none => none

/-- RESERVATION_START (R355): the dies with the fewest busy cores are held. -/
def execReservationStart (queue : Nat) (s : State) : Out :=
  let busy (d : Nat) : Nat := (s.cores.filter fun (c : Nat × Core) => decide (dieOf c.1 = d)).length
  let dies := sortBy (fun (a b : Nat) => decide (busy a < busy b) || (decide (busy a = busy b) && decide (a ≤ b)))
    ((List.range Config.dies).filter fun d => !(s.die d).gone)
  .next (if s.reserving ≠ some queue then s
    else
      match (s.lqueue queue).head with
      | some h => { s with hub := { s.hub with reserve := some (queue, dies.take (pktMinDie h.packet)) } }
      | none => s)

/-! ### Domains and arrivals (R174, R356) -/

/-- The level-n domain that a role is in on the package; a core is its own level-0 domain. -/
def Launch.domainOf (l : Launch) (level role key : Nat) : Nat :=
  match level with
  | 0 => key
  | 1 => role / pktL1 l.packet
  | 2 => role / pktL2 l.packet
  | _ => 0

/-- The member cores of a domain whose jobs have not ended; one whose job has ended counts as arrived (R174). -/
def State.membersOf (s : State) (launch : Nat) (l : Launch) (level domain : Nat) : List Nat :=
  (l.binding.filter fun (b : Nat × Nat) =>
    decide (l.domainOf level b.1 b.2 = domain) && s.cores.has b.2 && decide ((s.core b.2).job.launch = launch)).map fun (b : Nat × Nat) => b.2

/-- What a domain's arrivals come to (R174 step 3): its members agree, or they carry different levels. -/
inductive Boundary where
  | agreed
  | differing
  deriving DecidableEq, Repr

/-- PH4 of the boundary that a launch's member cores are at. -/
def State.phase4 (s : State) (launch : Nat) : BitVec 32 :=
  match s.membersOf launch (s.launch launch) 4 0 with
  | k :: _ => (s.core k).job.ph[4]
  | [] => 0

/-- Whether another member of a fabric launch has arrived at the level-4 boundary that this package is at: cores that count as
arrived at every level then arrive at it too, carrying the level that the other members carry (R174; DEDUCED, log 42). -/
def State.summoned (s : State) (launch : Nat) (l : Launch) (level : Nat) : Bool :=
  decide (level = 4) && decide (2 ≤ pktFPkgs l.packet) && l.recorded.any fun (r : Nat × Nat) => decide (r.1 = (s.phase4 launch).toNat)

/-- Step 3 of R174 for a domain of a level: none while a member lacks an arrival, or while every one of them goes on to a
higher domain. -/
def State.boundary (s : State) (launch : Nat) (l : Launch) (level domain : Nat) : Option Boundary :=
  let arrivals := (s.membersOf launch l level domain).map fun k => (s.core k).job.arrival
  let real := arrivals.filterMap fun a => a.filter fun n => decide (n ≠ anyLevel)
  match real with
  | [] => if arrivals ≠ [] ∧ arrivals.all Option.isSome = true ∧ s.summoned launch l level = true then some .agreed else none
  | n :: rest =>
    if arrivals.any Option.isNone || real.any (fun x => decide (x < level)) then none
    else if rest.any fun x => decide (x ≠ n) then some .differing
    else if n = level then some .agreed
    else none

/-- A fabric launch that still lacks the arrival of a member (R341). -/
def State.awaitsMembers (s : State) (launch : Nat) (l : Launch) : Bool :=
  decide (2 ≤ pktFPkgs l.packet) &&
    !((List.range (pktFPkgs l.packet)).all fun i => l.recorded.contains ((s.phase4 launch).toNat, i))

/-- Whether a boundary of a launch may go on now: at level 4 of a fabric launch the own arrival is to be sent, or every
member has arrived. -/
def State.boundaryDue (s : State) (launch : Nat) (l : Launch) (level domain : Nat) : Bool :=
  match s.boundary launch l level domain with
  | none => false
  | some .differing => true
  | some .agreed => decide (level ≠ 4) || decide (l.sentPh4 ≠ some (s.phase4 launch)) || !s.awaitsMembers launch l

/-- The first boundary of a launch that is due; none while it is being stopped (R404). -/
def State.dueBoundary (s : State) (launch : Nat) (l : Launch) : Option (Nat × Nat) :=
  if l.stopReq.isSome then none
  else
    ((l.binding.filter fun (b : Nat × Nat) =>
        s.cores.has b.2 && decide ((s.core b.2).job.launch = launch) && (s.core b.2).job.arrival.any fun n => decide (n ≠ anyLevel)).findSome?
      fun (b : Nat × Nat) => (List.range (((s.core b.2).job.arrival.getD 0) + 1)).findSome? fun j =>
        let d := l.domainOf j b.1 b.2
        if s.boundaryDue launch l j d then some (j, d) else none) <|>
    (if s.boundaryDue launch l 4 0 then some (4, 0) else none)

/-- The groups of a core that wait in a boundary. -/
def Core.inBoundary (c : Core) : List Nat :=
  c.slotsIn fun g => g.hold.any fun h => h.granted.isNone && (match h.wait with
    | .boundary _ => true
    | _ => false)

/-- Every group of a core that waits in a boundary traps, and the core's arrival is withdrawn (R174, R341). -/
def State.failArrival (s : State) (core : Nat) (t : TrapArgs) : State :=
  let s1 := (s.core core).inBoundary.foldl (fun (s : State) g => s.at ⟨core, g, .group⟩ fun s =>
    (s.modGrp fun g => { g with arrived := none, hold := none }).raiseTrap t) s
  s1.modCore core fun c => { c with job := { c.job with arrival := c.job.arrival.filter fun n => decide (n = anyLevel) } }

/-- Step 4 of R174 on one member core: PH0 to PHn advance, and the waiting groups go on. -/
def State.passBoundary (s : State) (n core : Nat) : State :=
  let s1 := s.modCore core fun c =>
    let slots := c.inBoundary
    { c with
      job := { c.job with arrival := none, ph := Vector.ofFn fun (i : Fin 5) => if i.val ≤ n then c.job.ph[i] + 1 else c.job.ph[i] }
      groups := c.groups.mapVal fun k g =>
        if k ∈ slots then { g with arrived := none, hold := g.hold.map fun h => { h with granted := some 0 } } else g }
  s1.coreArrival core

/-! ### The elastic decision (R176, R360, R361) -/

/-- DMR3.MEMBERS of every job of a launch follows the dies it holds (R361, R465). -/
def State.setMembers (s : State) (launch members : Nat) : State :=
  { s with cores := s.cores.mapVal fun _ c =>
      if c.job.launch = launch then
        { c with job := { c.job with dmr := c.job.dmr.set 2 (dmrWord (c.job.dmr[2].toNat / 65536) members) } } else c }

/-- Whether a die may be withdrawn (R361). -/
def State.mayWithdraw (s : State) (launch die : Nat) : Bool :=
  s.queuesEmpty launch die && !(s.cores.any fun (c : Nat × Core) =>
    decide (dieOf c.1 = die) && decide (c.2.job.launch = launch) && c.2.groups.any fun (g : Nat × Group) => decide (g.2.kindId ≠ 0xFF))

/-- The ordinals that may be withdrawn, the highest first, down to MINDIE dies. -/
def State.withdrawable (s : State) (launch : Nat) (l : Launch) : List Nat :=
  let ordinals := ((l.dies.zipIdx.filter fun (d : Nat × Nat) => decide (d.1 < Config.dies)).map fun (d : Nat × Nat) => d.2).reverse
  (ordinals.take (ordinals.length - pktMinDie l.packet)).takeWhile fun n => s.mayWithdraw launch (l.dies.getD n 8)

/-- The machine as placement would see it without some dies of a launch. -/
def State.without (s : State) (launch : Nat) (dies : List Nat) : State :=
  ({ s with cores := s.cores.filter fun (c : Nat × Core) => !(decide (c.2.job.launch = launch) && decide (dieOf c.1 ∈ dies)) }).freeQueues launch
    fun d => dies.contains d

/-- The eligible heads of at least a priority, in the order of a round. -/
def State.headsFrom (s : State) (prio : Nat) : List (Nat × LHead) :=
  ([3, 2, 1, 0].filter fun p => decide (prio ≤ p)).flatMap fun p =>
    (roundOrder (s.hub.rr.toList.getD p 63)).filterMap fun q =>
      (s.eligibleHead q).bind fun h => if h.priority s.pcc = p then some (q, h) else none

/-- How many dies are withdrawn: as many as the first packet of higher priority needs that does not fit, and would fit then
(R360). The launch counts with the priority of its packet (log 24). -/
def State.toWithdraw (s : State) (launch : Nat) (l : Launch) : Nat :=
  let ords := s.withdrawable launch l
  let gone (k : Nat) : List Nat := (ords.take k).map fun n => l.dies.getD n 8
  ((s.headsFrom (pktPrio l.packet + 1)).findSome? fun (x : Nat × LHead) =>
    if s.fits x.1 x.2.packet then none
    else ((List.range ords.length).map (fun i => i + 1)).find? fun k => (s.without launch (gone k)).fits x.1 x.2.packet).getD 0

/-- The groups of a withdrawn die's cores end as if by JOIN (R176): each frees its slot once its vector stream is not busy and
its accesses have returned (R179). A trapped one stays as it is until the runtime resumes or kills it. -/
def State.withdrawCore (s : State) (core : Nat) : State :=
  s.modLive core fun c => (c.groups.map fun (g : Nat × Group) => g.1).foldl (fun (c : Core) n =>
    let st := if (c.group n).status = .trapped then .trapped else .joined
    (c.leave n s.pcc st).modGroup n fun g => { g with arrived := none, hold := some ⟨s.pcc, .leaving, none⟩ }) c

/-- Withdraws the k highest dies (R361). -/
def State.withdraw (s : State) (launch k : Nat) : State :=
  let l := s.launch launch
  let ords := (s.withdrawable launch l).take k
  let m := ords.foldl min l.dies.length
  let dies := ords.map fun n => l.dies.getD n 8
  let cores := (s.coresOf launch).filter fun c => dies.contains (dieOf c)
  let s1 := s.modLaunch launch fun l =>
    { l with dies := l.dies.take m, binding := l.binding.filter fun (b : Nat × Nat) => decide (b.1 < m * pktCpd l.packet) }
  let s2 := s1.setMembers launch ((s1.launch launch).held.length * pktCpd l.packet)
  cores.foldl State.withdrawCore (s2.freeQueues launch fun d => dies.contains d)

/-- The dies that may be added (R360, R361): none outside a hold, none while a packet of equal or higher priority waits that
does not fit, none for a kernel without .rejoin. A die has an ordinal below 8 (R357). -/
def State.toGrow (s : State) (l : Launch) : List DieFit :=
  if decide (l.info.rejoin = 0) || (s.headsFrom (pktPrio l.packet)).any fun x => !s.fits x.1 x.2.packet then []
  else
    let room := min (pktMaxDie l.packet - l.held.length) (8 - l.dies.length)
    ((s.fitting none l.packet).filter fun f => !l.dies.contains f.die).take room

/-- Adds dies to a launch; their jobs start at .rejoin with the phase numbers given: those of the first staying member, where the members'
PH0 to PH2 differ and R292 names none (DESIGN CHOICE, log 64). -/
def State.grow (s : State) (launch : Nat) (fs : List DieFit) (ph : Vector (BitVec 32) 5) : State :=
  let first := (s.launch launch).dies.length
  let s1 := s.modLaunch launch fun l => l.withDies first fs
  let l := s1.launch launch
  (fs.zipIdx.foldl (fun (s : State) (x : DieFit × Nat) => s.placeDie launch l (first + x.2) x.1 ph true) s1).setMembers launch
    (l.held.length * pktCpd l.packet)

/-- Whether a boundary of level 3 or 4 is elastic (R176): a launch with its flag set, at PHASE.E. -/
def State.isElastic (s : State) (l : Launch) (level : Nat) (members : List Nat) : Bool :=
  decide (3 ≤ level) && pktElastic l.packet && members.any fun k => (s.core k).groups.any fun (g : Nat × Group) =>
    g.2.hold.any fun h => h.granted.isNone && (match h.wait with
      | .boundary n => decide (8 ≤ n)
      | _ => false)

/-- The elastic decision, and the boundary completes (R174 step 4, R360); at an elastic boundary every peer binding of the
members' jobs is unbound first (R274). -/
def State.completeBoundary (s : State) (launch level domain : Nat) : State :=
  let l := s.launch launch
  let members := s.membersOf launch l level domain
  let elastic := s.isElastic l level members
  let k := if elastic then s.toWithdraw launch l else 0
  let fs := if elastic && decide (k = 0) then s.toGrow l else []
  let s0 := if elastic then members.foldl (fun (s : State) c => s.modCore c Core.unbindPeers) s else s
  let s1 := if k = 0 then s0 else s0.withdraw launch k
  let stay := s1.membersOf launch (s1.launch launch) level domain
  let s2 := stay.foldl (fun (s : State) c => s.passBoundary level c) s1
  if fs = [] then s2
  else
    match stay with
    | c :: _ => s2.grow launch fs (s2.core c).job.ph
    | [] => s2

/-! ### Level 4 of a fabric launch (R341) -/

/-- An arrival message leaves; one that no path leads to answers with an error (R341, R428). -/
def State.sendFab (s : State) (m : FabSent) : State :=
  match s.fabricRefusal m.dest 0 with
  | some r => s.schedule s.pcc (.fabricArrivalMessage { m.msg with member := m.member, coord := m.dest, answer := some (.error r) })
  | none => { s with outputs := s.outputs ++ [.arrival m.dest m.msg] }

/-- Sends the own arrival to the member of an index. It stands in the fabric die until it is recorded (R341). -/
def State.sendArrival (s : State) (launch : Nat) (ph4 : BitVec 32) (member : Nat) : State :=
  let l := s.launch launch
  let msg : FabricArrival :=
    { fabid := pktFabId l.packet, fpkgs := pktFPkgs l.packet, member := s.fabIndex l, coord := s.fabric.coord, ph4, answer := none }
  let m : FabSent := ⟨launch, member, l.info.members.getD member 0, msg, none⟩
  ({ s with fabric := { s.fabric with arrivals := s.fabric.arrivals ++ [m] } }).sendFab m

/-- The own arrival is recorded and sent to the other members. -/
def State.sendArrivals (s : State) (launch : Nat) : State :=
  let l := s.launch launch
  let ph4 := s.phase4 launch
  let own := s.fabIndex l
  let s1 := s.modLaunch launch fun l => { l with sentPh4 := some ph4, recorded := l.recorded ++ [(ph4.toNat, own)] }
  ((List.range l.info.members.length).filter fun i => decide (i ≠ own)).foldl (fun (s : State) i => s.sendArrival launch ph4 i) s1

/-- Every group that waits in the level-4 boundary of a launch traps (R341): at the receiver of a mismatched message also those that wait
with another PH4 than the message's, which the rule does not settle (DESIGN CHOICE, log 67). -/
def State.failLevel4 (s : State) (launch : Nat) (t : TrapArgs) : State :=
  let waits (g : Group) : Bool := g.hold.any fun h => h.granted.isNone && (decide (h.wait = .boundary 4) || decide (h.wait = .boundary 12))
  let own := s.fabIndex (s.launch launch)
  let s1 := (s.coresOf launch).foldl (fun (s : State) k =>
    if (s.core k).groups.any fun (g : Nat × Group) => waits g.2 then s.failArrival k t else s) s
  let sent := (s.launch launch).sentPh4
  (s1.modLaunch launch fun l =>
    { l with
      sentPh4 := none
      recorded := l.recorded.filter fun (r : Nat × Nat) => !(decide (r.2 = own) && sent.any fun p => decide (p.toNat = r.1)) }).modArrivals
    fun l => l.filter fun m => !(decide (m.launch = launch) && decide (sent = some m.msg.ph4))

/-- PHASE_BOUNDARY_COMPLETE (R174, R341, R360). -/
def execPhaseBoundaryComplete (launch level domain : Nat) (s : State) : Out :=
  .next (match s.hub.launches.get launch with
    | none => s
    | some l =>
      match s.boundary launch l level domain with
      | none => s
      | some .differing =>
        (s.membersOf launch l level domain).foldl (fun (s : State) k => s.failArrival k { cause := causePhase }) s
      | some .agreed =>
        if level = 4 && decide (2 ≤ pktFPkgs l.packet) then
          let ph4 := s.phase4 launch
          let s1 := if l.sentPh4 = some ph4 then s else s.sendArrivals launch
          if s1.awaitsMembers launch (s1.launch launch) then s1
          else
            (s1.completeBoundary launch level domain).modLaunch launch fun l =>
              { l with sentPh4 := none, recorded := l.recorded.filter fun (r : Nat × Nat) => decide (r.1 ≠ ph4.toNat) }
        else s.completeBoundary launch level domain)

/-- The launch in flight with a FABID. -/
def State.fabLaunch (s : State) (fabid : Nat) : Option (Nat × Launch) :=
  s.hub.launches.find? fun (l : Nat × Launch) => decide (2 ≤ pktFPkgs l.2.packet) && decide (pktFabId l.2.packet = fabid)

/-- Answers an arrival message. -/
def State.answerArrival (s : State) (msg : FabricArrival) (a : ArrivalAnswer) : State :=
  { s with outputs := s.outputs ++ [.arrival msg.coord { msg with coord := s.fabric.coord, answer := some a }] }

/-- The arrival that an answer is about. -/
def FabSent.answered (m : FabSent) (a : FabricArrival) : Bool :=
  decide (m.dest = a.coord) && decide (m.msg.fabid = a.fabid) && decide (m.msg.ph4 = a.ph4)

/-- A level-4 boundary of the launch fails, if it still waits at the PH4 of the message (R341). -/
def State.failSent (s : State) (m : FabSent) (t : TrapArgs) : State :=
  if (s.launch m.launch).sentPh4 = some m.msg.ph4 then s.failLevel4 m.launch t else s

/-- FABRIC_ARRIVAL_MESSAGE (R341): the arrival of a member, or the answer of one. After NOT_YET the arrival is sent again, be the
own boundary over or not. -/
def execFabricArrivalMessage (msg : FabricArrival) (s : State) : Out :=
  .next (match msg.answer with
    | none =>
      match s.fabLaunch msg.fabid with
      | none => s.answerArrival msg .notYet
      | some (id, l) =>
        if msg.fpkgs = pktFPkgs l.packet ∧ l.info.members[msg.member]? = some msg.coord then
          (s.modLaunch id fun l =>
            { l with recorded := if l.recorded.contains (msg.ph4.toNat, msg.member) then l.recorded
                else l.recorded ++ [(msg.ph4.toNat, msg.member)] }).answerArrival msg .recorded
        else (s.failLevel4 id { cause := causePhase }).answerArrival msg .mismatch
    | some a =>
      match s.fabric.arrivals.find? fun (m : FabSent) => m.answered msg with
      | none => s
      | some m =>
        let s1 := s.modArrivals fun l => l.filter fun x => !x.answered msg
        match a with
        | .recorded => s1
        | .notYet =>
          (s1.modArrivals fun l => l ++ [{ m with again := some (s.pcc + 2048) }]).schedule (s.pcc + 2048) (.arrivalResend m.launch m.member)
        | .mismatch => s1.failSent m { cause := causePhase }
        | .error r => s1.failSent m { cause := causeRemote, detail := r % 256, aux := errAux (.remote r) msg.coord })

/-- ARRIVAL_RESEND (R341): what the member has answered NOT_YET to leaves again once it is due. -/
def execArrivalResend (launch member : Nat) (s : State) : Out :=
  let due (m : FabSent) : Bool := decide (m.launch = launch) && decide (m.member = member) && m.again.any fun t => decide (t ≤ s.pcc)
  let s1 := s.modArrivals fun l => l.map fun m => if due m then { m with again := none } else m
  .next ((s.fabric.arrivals.filter due).foldl State.sendFab s1)

end Sys2Proof.Machine
end

