-- ==== Sys2Proof/Machine/Torus.lean ====
section
/-! DEFINITION. The fabric die (R402, R403, R412-R429): released pages, requests from the torus, replies and timeouts,
congestion windows, links with their credits and audits, retraining and dead ports. -/

namespace Sys2Proof.Machine

/-! ### MOULT_RELEASE (R402, R403) -/

/-- The page at the head of the moult queue may be released: its windows have drained and the ring has room. -/
def State.releasable (s : State) : Bool :=
  match s.moult.pages with
  | (_, w) :: _ => s.drained w && decide ((s.moult.mrt - s.moult.mrh).toNat < 8192)
  | [] => false

/-- MOULT_RELEASE: the entry is written before MRT passes it, and the control die is woken. -/
def execMoultRelease (s : State) : Out :=
  .next (match s.moult.pages with
    | (page, w) :: rest =>
      if !s.releasable then s
      else
        let m := s.moult
        let s1 := s.deviceWrite (m.mrbase + 8 * (m.mrt.toNat % 8192)) 8 (page % pow2 56 / 65536 * 65536 + w % 16)
        ({ s1 with moult := { m with pages := rest, mrt := m.mrt + 1 } }).wakeControl
    | [] => s)

/-! ### Requests from the torus (R416, R417, R423) -/

/-- A store of another package's core as a pending store of its writer (R417). -/
def RemoteStore.pending (r : RemoteStore) : PStore :=
  { order := r.order, slot := 0, stream := .group, pa := r.pa, size := r.size, value := r.value, cls := r.cls, place := .versioned,
    performed := true, acked := true, committing := false, fenced := 0, poison := r.poison, window := 0, va := 0, ctx := 0 }

/-- Whether a pending store is of the core that a request comes from. -/
def ofSource (q : RemoteRequest) (r : RemoteStore) : Bool := decide (r.src = q.src) && decide (r.die = q.die) && decide (r.core = q.core)

/-- The number of a writer of another package in the version buffers. -/
def remoteWriter (q : RemoteRequest) : Nat := 4096 + (8 * q.src + q.die) * 256 + q.core

/-- What is left of a pending store of another package's core once a later one of that core is committed (R296 rule 1). -/
def RemoteStore.without (q p : RemoteStore) : List RemoteStore :=
  let last := p.pa + p.size
  if q.src = p.src ∧ q.die = p.die ∧ q.core = p.core ∧ q.order < p.order ∧ rangesMeet q.pa q.size p.pa p.size = true then
    (if q.pa < p.pa then [{ q with size := p.pa - q.pa, value := q.value % pow2 (8 * (p.pa - q.pa)) }] else []) ++
      (if last < q.pa + q.size then [{ q with pa := last, size := q.pa + q.size - last, value := q.value / pow2 (8 * (last - q.pa)) }] else [])
  else [q]

/-- Commits pending stores of another package's core (R294, R303, R446, R447). -/
def State.commitRemote (s : State) (l : List RemoteStore) : State :=
  let ps := l.map RemoteStore.pending
  { s.commitMarked ps with remote := (s.remote.filter fun r => !l.contains r).flatMap fun q => l.foldl (fun (x : List RemoteStore) p => x.flatMap fun r => r.without p) [q] }

/-- The flits of the reply to a request (R119, R289). -/
def replyFlits (q : RemoteRequest) (err : Option DataError) : Nat :=
  match q.op with
  | .load => if err.isNone then 4 else 1
  | .atomic .. => if err.isNone then 4 else 1
  | _ => 1

/-- The error of a home that cannot answer (R427). -/
def State.homeError (s : State) (pa : Nat) : Bool :=
  match regionOf (localOf pa) with
  | .lpddr o => s.lostDir.has (o / 512)
  | .dram d _ => (s.die d).gone
  | .dsm d o => (s.die d).gone || decide (o ≥ (s.die d).dsmWays * 0x600000)
  | .regs _ _ => false
  | _ => true

/-- What a request leaves at its home, and what its reply says: a value, or an error. -/
abbrev Answered := State × Nat × Option DataError

/-- A request at memory (R417): its core's own earlier stores are seen by it alone. An atomic finds them committed where it is
ordered behind them (R303); on a poisoned granule it is not performed, which is logged for a vupd element and a CSIG (R447). -/
def State.performRemote (s : State) (q : RemoteRequest) : Answered :=
  let mine := s.remote.filter fun r => ofSource q r && decide (r.order < q.order)
  let own := mine.map RemoteStore.pending
  let bad := (granulesOf q.addr q.size).any fun g => badUnder own (s.poison.has g) g
  match q.op with
  | .load => (s, overlayStores (Memory.readN s.mem q.addr q.size) q.addr q.size own, if bad then some .poison else none)
  | .store v =>
    let r : RemoteStore := ⟨q.src, q.die, q.core, q.order, q.cls, q.addr, q.size, v, q.poison⟩
    let late := !s.entryFree (remoteWriter q) q.addr
    let s1 := { s with remote := s.remote ++ [r] }
    let s2 := if late then s1.commitRemote (s1.remote.filter fun x => ofSource q x && decide (x.pa / 128 = q.addr / 128)) else s1
    let s3 := match late, homeDie (regionOf (localOf q.addr)) with
      | true, some d => s2.modDie d fun d => { d with fcommit := bump d.fcommit }
      | _, _ => s2
    (s3, 0, none)
  | .atomic op b cmp =>
    let ordered (r : RemoteStore) : Bool := (decide (r.cls = 0) && decide (q.cls = 0)) || q.fenced.contains r.order
    let s1 := s.commitRemote (mine.filter fun r => rangesMeet q.addr q.size r.pa r.size && ordered r)
    if (granulesOf q.addr q.size).any (fun g => s1.poison.has g) then
      if q.quiet = 0 then (s1, 0, some .poison)
      else (s1.logPoison q.addr 64 0, 0, if q.quiet = 1 then none else some .poison)
    else
      let old := Memory.readN s1.mem q.addr q.size
      let new := amoNew op q.size old (storeValue b q.size) (storeValue cmp q.size)
      ({ s1 with mem := Memory.writeN s1.mem q.addr q.size new }, old, none)
  | .commit orders => (s.commitRemote (s.remote.filter fun r => ofSource q r && orders.contains r.order), 0, none)

/-- A request at a register block (R287, R429): only a control die's reaches one. -/
def State.performRemoteRegs (s : State) (q : RemoteRequest) (b : Block) (o : Nat) : Answered :=
  if q.die ≠ 9 then (s, 0, some (.remote 4))
  else
    match q.op with
    | .load => (s, s.readBlock b o q.size, none)
    | .store v => (s.writeBlock false b o q.size v, 0, none)
    | _ => (s, 0, some (.remote 4))

/-- A request at its home (R417, R427). -/
def State.answerRemote (s : State) (q : RemoteRequest) : Answered :=
  if s.homeError q.addr then (s, 0, some (.remote 4))
  else
    match regionOf (localOf q.addr) with
    | .regs b o => s.performRemoteRegs q b o
    | _ => s.performRemote q

/-- Whether an earlier request of the same core that an order puts first, of class OM or to the same sector, is still to be performed
here (R416, R296 rule 5). -/
def State.behind (s : State) (q : RemoteRequest) : Bool :=
  s.agenda.any fun (p : Nat × Event) => match p.2 with
    | .remoteRequestArrival x =>
      decide (x.due ≠ 0) && x.answer.isNone && decide (x.src = q.src) && decide (x.die = q.die) && decide (x.core = q.core) &&
        decide (x.order < q.order) && ((decide (x.cls = 0) && decide (q.cls = 0)) || decide (x.addr / 128 = q.addr / 128))
    | _ => false

/-- Whether a request waits at its home, for a version-buffer entry or behind another (R301, R416). -/
def State.waitsAtHome (s : State) (q : RemoteRequest) : Bool :=
  let store := match q.op with
    | .store _ => true
    | _ => false
  s.behind q || (store && !s.homeError q.addr && !s.entryFree (remoteWriter q) q.addr && decide (q.waited < 4096))

/-- The near-bank step of a request (R418). -/
def remoteStep (q : RemoteRequest) : Nat :=
  match q.op with
  | .atomic .. => 4
  | _ => 0

/-- A packet that passes through: on its leg to a package, or from this one, its intermediate package, on to its destination
(R413, R415). The output port sends the notice of a request (R423). -/
def State.passOn (s : State) (q : RemoteRequest) (dest : Nat) (final : Option Nat) (second : Bool) : State :=
  let p : FabPkt := ⟨.transit { q with secondLeg := second }, dest, final, q.flits, none, s.pcc⟩
  ((if q.chan < 5 then s.noticeFor p q.src else s).enqueue p).pump

/-- A packet that has come over a link: it goes on, or it is on its way to its home here (R413, R418). Its access counts in the
quiescence window that is current (R402). -/
def State.enterRemote (s : State) (q : RemoteRequest) : State :=
  let elsewhere (d : Option Nat) : Option Nat := d.filter fun d => decide (d ≠ s.fabric.coord)
  match elsewhere q.dest, elsewhere q.final with
  | some d, _ => s.passOn q d q.final false
  | none, some d => s.passOn q d none true
  | none, none =>
    let part := homePart (regionOf (localOf q.addr)) (s.sliceHit q.addr)
    let t := s.pcc + part.1 + remoteStep q
    let q1 := { q with window := s.qwin, waited := 0, due := t, answer := none }
    ((s.fillSlice q.addr t).tick).schedule t (.remoteRequestArrival q1)

/-- REMOTE_REQUEST_ARRIVAL (R301, R402, R413, R417, R418, R420): a packet that comes over a link; the same request at its home, where
a store without a free entry waits for one, for 4,096 cycles; and its reply at the egress. The slots of its flits are free once it
leaves the router or has been performed. -/
def execRemoteRequestArrival (q : RemoteRequest) (s : State) : Out :=
  .next (if s.fabric.lost then s
    else if q.due = 0 then s.enterRemote q
    else
      match q.answer with
      | some (v, err) => s.sendBack q.src (replyFlits q err) (some q.window) (.reply q.src q.tag q.gen v err)
      | none =>
        if s.waitsAtHome q then s.schedule (s.pcc + 1) (.remoteRequestArrival { q with waited := q.waited + 1 })
        else
          let (s1, v, err) := s.answerRemote q
          let s2 := s1.returnCredit q.link q.chan q.flits
          s2.schedule (s.pcc + (homePart (regionOf (localOf q.addr)) true).2) (.remoteRequestArrival { q with answer := some (v, err) }))

/-! ### Replies, timeouts and tags (R425, R426) -/

/-- A request is no longer outstanding toward its package: its flits leave the window, and what waited may go (R424). -/
def State.endRequest (s : State) (x : FabTag) : State :=
  ({ s with fabric := s.fabric.modWindow x.dest fun w => { w with flits := w.flits - x.flits } }).releaseWaiting

/-- Sets a tag. -/
def State.setTag (s : State) (tag : Nat) (x : FabTag) : State :=
  { s with fabric := { s.fabric with tags := s.fabric.tags.set tag x } }

/-- What ends at this package frees its slots at once (R420). Over which link and reply channel it came no rule says: free values, among
the links by which its way may end. -/
def State.endsHere (s : State) (links : List Nat) (flits : Nat) : State :=
  (s.returnCredit (links.getD (Config.freeVictim s.free % links.length) 0) (5 + Config.freeVictim (s.free + 1) % 3) flits).tick.tick

/-- The flits of the reply to an access: its data, or one (R119, R289). -/
def Access.replyFlits (a : Access) : Nat := if a.error.isNone then a.wireFlits.2 else 1

/-- REPLY_ARRIVAL (R420, R425): a reply is delivered to the access that holds its tag in its generation; any other is stale. -/
def execReplyArrival (tag gen : Nat) (s : State) : Out :=
  let stale (s : State) : State := { s with fabric := { s.fabric with stalerep := bump32 s.fabric.stalerep } }
  let any := List.range 6
  .next (match s.fabric.tags.get tag with
    | none => stale (s.endsHere any (1 + Config.freeVictim (s.free + 2) % 4))
    | some x =>
      match x.access with
      | none => stale (s.endsHere any (1 + Config.freeVictim (s.free + 2) % 4))
      | some id =>
        if x.gen ≠ gen then stale (s.endsHere any (1 + Config.freeVictim (s.free + 2) % 4))
        else
          let s1 := (s.setTag tag { x with access := none }).unschedule (.requesterTimeout tag)
          (match s.accs.get id with
           | none => s1
           | some a =>
             let (s2, late) := (s1.endsHere (s.fabric.firstLinks x.dest true) a.replyFlits).replyLate a
             ({ s2 with accs := s2.accs.set id { a with tag := none } }).schedule (s.pcc + 110 + late) (a.ending id)).endRequest x)

/-- REQUESTER_TIMEOUT (R426): the access ends with reason 0x1, and its tag is withheld for 2,000,000 cycles, in which it counts
in its window still. -/
def execRequesterTimeout (tag : Nat) (s : State) : Out :=
  .next (match s.fabric.tags.get tag with
    | none => s
    | some x =>
      match x.access with
      | none => s
      | some id =>
        let s0 := { s with fabric := { s.fabric with
          timeouts := bump32 s.fabric.timeouts, queue := s.fabric.queue.filter fun (p : FabPkt) => decide (p.item ≠ FabItem.own id) } }
        let s1 := (s0.setTag tag { x with access := none, withheld := some x.window }).schedule (s.pcc + 2000000) (.tagRelease tag)
        (match s.accs.get id with
         | none => s1
         | some a =>
           let a1 := { a with performed := true, error := some (.remote 1), tag := none }
           let s2 := if a.performed then s1 else s1.unschedule (a.acting id)
           ({ s2 with accs := s2.accs.set id a1 }).schedule s.pcc (a1.ending id)).endRequest x)

/-- TAG_RELEASE (R425): the withholding ends. -/
def execTagRelease (tag : Nat) (s : State) : Out :=
  .next (match s.fabric.tags.get tag with
    | none => s
    | some x =>
      if x.access.isSome || x.withheld.isNone then s
      else (s.setTag tag { x with withheld := none }).releaseWaiting)

/-- The link that a packet at the router waits for. -/
def State.linkOf (s : State) (p : FabPkt) : Nat := ((s.exitOf p).map fun x => x.1).getD 0

/-- ROUTER_DISCARD (R425): the packets that have waited 16,384 cycles for a link are discarded and counted; an own request among them
ends by its timeout. -/
def execRouterDiscard (link : Nat) (s : State) : Out :=
  let old (p : FabPkt) : Bool := decide (p.since + 16384 ≤ s.pcc) && decide (s.linkOf p = link % 6)
  let l : List FabPkt := s.fabric.queue.filter old
  let s1 : State := { s with fabric :=
    { (s.fabric.modLink link fun x => { x with discard := l.foldl (fun n _ => bump32 n) x.discard }) with
      queue := s.fabric.queue.filter fun p => !old p } }
  .next (if l = [] then s
    else
      (l.foldl (fun (s : State) (p : FabPkt) => match p.item with
        | FabItem.transit q => s.returnCredit q.link q.chan q.flits
        | _ => s) s1).pump)

/-! ### Congestion windows (R424) -/

/-- CONGESTION_NOTICE (R420, R424): a notice that has come over a link. -/
def execCongestionNotice (dest : Nat) (s : State) : Out :=
  .next ((s.endsHere (s.fabric.firstLinks dest true) 1).noticed dest)

/-- WINDOW_INCREASE. -/
def execWindowIncrease (dest : Nat) (s : State) : Out :=
  let w := s.fabric.window dest
  .next (if w.noticeAt.any (fun t => decide (s.pcc < t + 1024)) then s
    else
      let wd := min 512 (w.wd + 8)
      let s1 := ({ s with fabric := s.fabric.modWindow dest fun w => { w with wd } }).releaseWaiting
      if wd < 512 then s1.schedule (s.pcc + 1024) (.windowIncrease dest) else s1)

/-! ### Credits and audits (R420, R421) -/

/-- A lane's error on a torus link: corrected, logged and tested, while the link's spare lane stands in (R445, R454). -/
def State.linkError (s : State) (k synd : Nat) : State :=
  let u : TestUnit := { uclass := 0x10, index := k % 6, core := 0xFF, die := 10, addr := 0, synd, sev := 0, action := 0, detected := s.pcc }
  (s.steer u).detect u

/-- Retraining begins (R419). -/
def Link.startRetrain (l : Link) : Link := { l with retraining := true, retries := 0, retried := none }

/-- CREDIT_RETURN (R420): the last return counts, so that a lost one is made good; what waited for credits may go. -/
def execCreditReturn (link chan : Nat) (ret : BitVec 16) (s : State) : Out :=
  .next ({ s with fabric := s.fabric.modLink link fun l =>
    { l with
      retLast := l.retLast.set (chan % 8) ret (by omega)
      credits := l.credits.set (chan % 8) (64 - (l.sent[chan % 8]'(by omega) - ret).toNat) (by omega) } }).releaseWaiting

/-- AUDIT_FLIT_SEND (R421): after 4,096 flits of a direction. -/
def execAuditFlitSend (link : Nat) (s : State) : Out :=
  let l := s.fabric.link link
  .next (if l.sinceAudit < 4096 then s
    else
      { s with
        fabric := s.fabric.modLink link fun l => { l with sinceAudit := l.sinceAudit - 4096 }
        outputs := s.outputs ++ [.auditFlit (link % 6) l.sent.toList] })

/-- The corrections of an audit: the link's counters, the record, and retraining where one exceeds 8 units (R421). -/
def State.corrected (s : State) (k : Nat) (units : List Nat) : State :=
  let n := (units.filter fun u => decide (u ≠ 0)).length
  if n = 0 then s
  else
    let far := units.any fun u => decide (8 < u)
    let fix (l : Link) : Link :=
      let l1 := { l with credFix := (List.range n).foldl (fun c _ => bump32 c) l.credFix }
      if far then l1.startRetrain else l1
    ({ s with fabric := s.fabric.modLink k fix }).linkError k n

/-- The size of a difference modulo 2^16, in either direction. -/
def diff16 (a b : BitVec 16) : Nat := min (a - b).toNat (b - a).toNat

/-- The flits of a channel of a link that the receiver holds (R421): of packets at the router, and of requests that have not been
performed here. -/
def State.heldFrom (s : State) (k c : Nat) : Nat :=
  let held (q : RemoteRequest) : Nat := if q.link % 6 = k % 6 ∧ q.chan % 8 = c then q.flits else 0
  ((s.fabric.queue.map fun (p : FabPkt) => match p.item with
      | .transit q => held q
      | _ => 0) ++
    s.agenda.map fun (p : Nat × Event) => match p.2 with
      | .remoteRequestArrival q => if q.due ≠ 0 ∧ q.answer.isNone = true then held q else 0
      | _ => 0).sum

/-- AUDIT_FLIT_RECEIVE (R421): RET is set right, for the flits that the receiver still holds, and returned with the mark. -/
def execAuditFlitReceive (link : Nat) (sent : List (BitVec 16)) (s : State) : Out :=
  let l := s.fabric.link link
  let new : Vector (BitVec 16) 8 := Vector.ofFn fun (i : Fin 8) =>
    (sent[i.val]?).elim l.ret[i] fun n => n - BitVec.ofNat 16 (s.heldFrom link i)
  let units := (List.finRange 8).map fun (i : Fin 8) => diff16 new[i] l.ret[i]
  let s1 := ({ s with fabric := s.fabric.modLink link fun l => { l with ret := new } }).corrected link units
  .next { s1 with outputs := s1.outputs ++ [.credit (link % 6) new.toList true] }

/-- AUDIT_RETURN (R421): the sender sets its credits right by the marked return. -/
def execAuditReturn (link : Nat) (ret : List (BitVec 16)) (s : State) : Out :=
  let l := s.fabric.link link
  let last : Vector (BitVec 16) 8 := Vector.ofFn fun (i : Fin 8) => ret.getD i.val l.retLast[i]
  let credits : Vector Nat 8 := Vector.ofFn fun (i : Fin 8) => 64 - (l.sent[i] - last[i]).toNat
  let units := (List.finRange 8).map fun (i : Fin 8) => if credits[i] ≤ l.credits[i] then l.credits[i] - credits[i] else credits[i] - l.credits[i]
  .next (({ s with fabric := s.fabric.modLink link fun l => { l with retLast := last, credits } }).corrected link units).releaseWaiting

/-! ### Retries, retraining, training and dead ports (R419, R422, R428) -/

/-- The flits of the replay buffer from a number on are sent again (R419). -/
def State.resend (s : State) (k : Nat) (from_ : Option (BitVec 8)) : State :=
  let kept := (s.fabric.link k).kept
  { s with outputs := s.outputs ++ [.resent (k % 6) (match from_ with
      | some n => kept.dropWhile fun x => decide (x.1 ≠ n)
      | none => kept)] }

/-- LINK_CRC_RETRY (R419, R445): the link replays from the flit on; the sixteenth retry of a flit in a row starts retraining. -/
def execLinkCrcRetry (flit : LinkFlit) (s : State) : Out :=
  let link := flit.link
  let l := s.fabric.link link
  let seq := BitVec.ofNat 8 flit.seq
  let n := if l.retried = some seq then l.retries + 1 else 1
  let s1 := { s with fabric := s.fabric.modLink link fun l =>
    let l1 := { l with crcRetry := bump32 l.crcRetry, retries := n, retried := some seq }
    if 16 ≤ n then l1.startRetrain else l1 }
  let s2 := s1.linkError link n
  .next (if 16 ≤ n then s2 else s2.resend link (some seq))

/-- LINK_RETRAIN (R419, R428): flits are kept and sent again; the third failure in a row makes the port dead. -/
def execLinkRetrain (link : Nat) (trained : Bool) (s : State) : Out :=
  .next (if trained then
      (({ s with fabric := s.fabric.modLink link fun l => { l with retraining := false, retries := 0, retried := none, retrains := 0 } }).resend
        link none).releaseWaiting
    else
      let n := (s.fabric.link link).retrains + 1
      let s1 := { s with fabric := s.fabric.modLink link fun l => { l with retraining := true, retrains := n } }
      if 3 ≤ n then s1.schedule s.pcc (.portDead (link % 6)) else s1)

/-- PORT_DEAD (R428): what waits for the port is answered with an error. -/
def execPortDead (link : Nat) (s : State) : Out :=
  .next ({ s with fabric := s.fabric.modLink link fun l => { l with up := false, dead := true, retraining := false } }).releaseWaiting

/-- LINK_TRAINING (R422, R429): the peer's version; without a common major the port is dead. -/
def State.trainLink (s : State) (k : Nat) (major minor : Nat) : State :=
  let ok := decide (major = 1)
  { s with fabric := s.fabric.modLink k fun _ =>
    { Link.reset with up := ok, dead := !ok, major := if ok then 1 else 0, minor := if ok then min 1 minor else 0 } }

def execLinkTraining (link major minor : Nat) (s : State) : Out := .next (s.trainLink link major minor).releaseWaiting

end Sys2Proof.Machine
end

