-- ==== Sys2Proof/Machine/Recovery.lean ====
section
/-! DEFINITION. Errors, spares and lost dies (R445, R450-R467): self-tests with their verdicts, spare units and retirement,
the substitution of a core, and the loss and recovery of control-die cores, the control die, compute dies and the fabric
die. -/

namespace Sys2Proof.Machine

/-! ### Spares and retirement (R455, R456, R490) -/

/-- The spare cores that a substitution under way has taken (R457). -/
def State.takenSpares (s : State) : List Nat :=
  s.agenda.filterMap fun (p : Nat × Event) => match p.2 with
    | .spareSubstitution _ spare => some spare
    | _ => none

/-- The spare cores of a die that stand in for no core, nor are to, and are not retired (R455). -/
def State.spareCores (s : State) (die : Nat) : List Nat :=
  (List.range 8).map (fun k => 192 + k) |>.filter fun k =>
    !(s.die die).retired.has k && !(s.pfc.spareMap.any fun x => decide (x.1 = 0x14) && decide (x.2.1 = k) && decide (x.2.2.2 = die)) &&
      !(s.takenSpares.contains (Config.coresPerDie * die + k))

/-- Marks a unit as retired in the store (R456). -/
def State.keepRetired (s : State) (x : Nat × Nat × Nat × Nat) : State := { s with pfc := { s.pfc with retired := s.pfc.retired ++ [x] } }

/-- Retires a core: a spare core of the die stands in for it, or the launches with a job on it end (R456, R457); no context is killed,
and so no form of theirs completes with KILLED (R11). The answer is the ACTION. -/
def State.retireCore (s : State) (die core : Nat) : State × Nat :=
  let key := Config.coresPerDie * die + core
  let s1 := (s.modDie die fun d => { d with retired := d.retired.add core }).keepRetired (0x14, core, core, die)
  match s.spareCores die with
  | k :: _ => (s1.schedule s.pcc (.spareSubstitution key (Config.coresPerDie * die + k)), 4)
  | [] =>
    let launches := (s1.cores.filter fun (c : Nat × Core) => decide (c.1 = key)).map fun (c : Nat × Core) => c.2.job.launch
    (launches.foldl (fun (s : State) l => s.terminate l 1 false false) s1, 5)

/-- The ways of a slice are disabled: its lines go, and its buffer of 64 lines is empty (R456). -/
def Die.disable (d : Die) (slice : Nat) : Die :=
  { d with noWays := d.noWays.add slice, l2 := d.l2.filter fun (e : Nat × List L2Line) => decide (e.1 / 128 ≠ slice) }

/-- Retires a lasting unit that has no spare left (R456). A DRAM device is reported, and the runtime retires its page (R455);
the hub's directory and the control die have no retirement of their own; a fault that a whole die shares isolates it (R464). -/
def State.retireUnit (s : State) (u : TestUnit) : State × Nat :=
  match u.uclass with
  | 0x0A => ((s.modDie u.die fun d => d.disable (u.index / 16)).keepRetired (mapEntry u), 5)
  | 0x0B => (s.keepRetired (0x0B, u.index, ((s.bufferOf u.addr).map fun b => b.1).getD 768, u.die), 5)
  | 0x0F => (s.keepRetired (mapEntry u), 5)
  | 0x10 => (s.keepRetired (mapEntry u), 5)
  | 0x0C => (s, 0)
  | 0x0D => (s, 0)
  | 0x0E => (s, 0)
  | 0x11 => (s, 0)
  | 0x12 => (s, 0)
  | 0x13 => (s.schedule s.pcc (.dieIsolation u.die), 6)
  | _ => s.retireCore u.die u.core

/-! ### SELF_TEST_COMPLETE (R452, R453, R460) -/

/-- The transient verdicts of a unit within 2^32 cycles. -/
def State.transientsOf (s : State) (u : TestUnit) : Nat :=
  (s.pfc.transients.filter fun (x : Nat × Nat × Nat × Nat × Nat) =>
    decide ((x.1, x.2.1, x.2.2.1, x.2.2.2.1) = mapEntry u) && decide (s.pcc < x.2.2.2.2 + pow2 32)).length

/-- The record of a tested unit (R460). -/
def testRecord (u : TestUnit) (sev verdict action : Nat) : ErrRecord :=
  { pcc := u.detected, addr := u.addr, synd := u.synd, uclass := u.uclass, index := u.index, core := u.core, die := u.die, sev, verdict, action
    mask := some u.mask }

/-- The spare that stood in for a unit during its test does so no more. -/
def State.unsteer (s : State) (u : TestUnit) : State :=
  { s with pfc := { s.pfc with steered := s.pfc.steered.filter fun x => decide (x ≠ mapEntry u) } }

/-- A lasting unit goes to its spare, or is retired (R453). The lanes of a torus link are remapped by a retraining (R455). -/
def State.repair (s : State) (u : TestUnit) : State :=
  if s.spareFree u then
    let s1 := ({ s with pfc := { s.pfc with spareMap := s.pfc.spareMap ++ [mapEntry u] } }).unsteer u
    let s2 := if u.uclass = 0x10 then { s1 with fabric := s1.fabric.modLink u.index Link.startRetrain } else s1
    s2.logError (testRecord u u.sev 2 3)
  else
    let (s1, action) := s.retireUnit u
    (s1.unsteer u).logError (testRecord u 3 3 action)

/-- The test of a unit leaves the list, and one that waited begins. -/
def State.endTest (s : State) (u : TestUnit) : State :=
  let l := s.pfc.tests
  let rest := l.filter fun v => !sameUnit v u
  let s1 := { s with pfc := { s.pfc with tests := rest } }
  if rest.length < l.length then
    match rest[63]? with
    | some v => s1.startTest v
    | none => s1
  else s1

/-- SELF_TEST_COMPLETE: the third transient verdict of a unit within 2^32 cycles makes it lasting. A spare that was steered to is
freed at the next point that allows a swap (`State.releaseSpares`). -/
def execSelfTestComplete (unit : TestUnit) (passed : Bool) (s : State) : Out :=
  let s1 := s.endTest unit
  .next (if passed && decide (s.transientsOf unit < 2) then
      ({ s1 with pfc := { s1.pfc with
          transients := s1.pfc.transients ++ [(unit.uclass, unit.index, unit.core, unit.die, s.pcc)] } }).logError
        (testRecord unit unit.sev 1 unit.action)
    else s1.repair unit)

/-! ### SPARE_SUBSTITUTION (R457) -/

/-- SPARE_SUBSTITUTION: the launch on the core is pre-empted, its role is bound to the spare, and it goes on. -/
def execSpareSubstitution (core spare : Nat) (s : State) : Out :=
  .next (match s.cores.get core with
    | some c =>
      let n := c.job.launch
      let s1 := if (s.launch n).stopReq.isNone then s.preempt n else s
      s1.schedule (s.pcc + 1) (.spareSubstitution core spare)
    | none =>
      let x := (0x14, physOf spare, physOf core, dieOf core)
      let s1 := { s with pfc := { s.pfc with spareMap := if s.pfc.spareMap.contains x then s.pfc.spareMap else s.pfc.spareMap ++ [x] } }
      s.hub.launches.foldl (fun (s : State) (l : Nat × Launch) =>
        match l.2.saved, l.2.binding.find? fun (b : Nat × Nat) => decide (b.2 = core) with
        | some _, some b => s.resumeJob l.1 [(b.1, spare)]
        | _, _ => s) s1)

/-! ### Dies that stop -/

/-- What is in flight from or toward a lost die ends (R464). -/
def State.cutOff (s : State) (die : Nat) : State :=
  let gone (k : Nat) : Bool := decide (k < Config.controlBase) && decide (dieOf k = die)
  let s1 : State :=
    { s with
      cores := s.cores.filter fun (c : Nat × Core) => !gone c.1
      accs := s.accs.filter fun (a : Nat × Access) => !gone a.2.core
      walks := s.walks.filter fun (w : Nat × Walk) => decide (w.2.die ≠ die)
      pushes := s.pushes.filter fun (p : Nat × TaskPush) => decide (p.2.die ≠ die)
      starts := s.starts.filter fun (x : Nat × FormerStart) => !gone x.2.core
      flights := s.flights.filter fun (f : Nat × Flight) => !gone f.2.srcCore && !gone f.2.core
      fabric := { s.fabric with waiting := s.fabric.waiting.filter fun i => !((s.accs.get i).any fun a => gone a.core) } }
  let s2 := s1.modDie die fun d =>
    { Die.reset with isolated := true, inReset := d.inReset, usable := d.usable, dsmWays := d.dsmWays, fcommit := d.fcommit, retired := d.retired, noWays := d.noWays }
  let struck := s2.accs.filter fun (a : Nat × Access) =>
    !a.2.performed && s2.isLocal a.2.pa && decide (homeDie (regionOf (localOf a.2.pa)) = some die)
  struck.foldl (fun (s : State) (a : Nat × Access) => (s.unschedule (a.2.acting a.1)).settle a.1 { a.2 with error := some (.remote 4) }) s2

/-- The compute dies are held in reset (R463, R469): their jobs end with them. -/
def State.holdDies (s : State) : State :=
  (List.range 8).foldl (fun (s : State) d => (s.cutOff d).modDie d fun x => { x with isolated := false, inReset := true }) s

/-! ### The control die (R450, R462, R463) -/

/-- A control-die core that starts at its firmware's reset entry. -/
def Control.restarted (entry : Word) : Control :=
  { Control.reset with stopped := false, sc := { Scalar.reset with pc := entry } }

/-- CONTROL_CORE_RESET (R450): the core's accesses end with it. -/
def execControlCoreReset (n : Nat) (s : State) : Out :=
  let key := Config.controlBase + n % 16
  let s1 := { s with accs := s.accs.filter fun (a : Nat × Access) => decide (a.2.core ≠ key) }
  .next (((s1.modCtl n fun _ => { Control.restarted s.pfc.ctlEntry with sc := { (Control.restarted s.pfc.ctlEntry).sc with nextIssue := s.pcc + 1 } }).logError
    { pcc := s.pcc, uclass := 0x11, index := n % 16, die := 9, sev := Config.freeWord s.free % 5, synd := Config.freeWord (s.free + 1) % pow2 64 }).tick.tick)

/-- Poisons a line of 512 bytes and logs it (R462). -/
def State.poisonLine (s : State) (addr : Nat) : State :=
  let a := addr / 512 * 512
  let s1 := { s with poison := ((List.range 16).map fun i => a / 32 + i).foldl Poison.add s.poison }
  (s1.logError
    { pcc := s.pcc, addr := a, uclass := 0x12, index := Config.freeWord s.free % 65536, die := 9, sev := 4, action := 7
      lines := (Config.freeSet s.free).filter fun c => decide (c < 64) }).tick

/-- CONTROL_DIE_LOSS (R462): the lines are those of hub-homed memory that the directory shows modified there; at the end the
VEC vector is raised. -/
def State.loseControlDie (s : State) (modified : List Nat) : State :=
  if s.pfc.ctlLost then s
  else
    let s1 : State :=
      { s with
        control := s.control.map fun c => { c with stopped := true, hold := none }
        accs := s.accs.filter fun (a : Nat × Access) => decide (a.2.core < Config.controlBase)
        pfc := { s.pfc with ctlLost := true, ctlMissed := none } }
    let hub (a : Nat) : Bool := s.isLocal a && (match regionOf (localOf a) with
      | .lpddr _ => true
      | _ => false)
    let s2 := (modified.filter hub).foldl State.poisonLine s1
    s2.sendMsix 0 s2.pfc.elVec

def execControlDieLoss (modified : List Nat) (s : State) : Out := .next (s.loseControlDie modified)

/-- The control die's firmware starts. -/
def State.startControl (s : State) (entry : Word) : State :=
  let c := Control.restarted entry
  { s with control := Vector.replicate 16 { c with sc := { c.sc with nextIssue := s.pcc + 1 } } }

/-- Every context ends (R463, R477). -/
def State.killAll (s : State) : State := (List.range 64).foldl (fun (s : State) c => if (s.ctx c).valid then s.killContext c else s) s

/-- CONTROL_DIE_RESTART (R463): the third failure in a row kills every context and keeps the compute dies in reset. -/
def execControlDieRestart (success : Bool) (s : State) : Out :=
  .next (if !s.pfc.ctlLost then s
    else if success then ({ s with pfc := { s.pfc with ctlLost := false, ctlFails := 0 } }).startControl s.pfc.ctlEntry
    else
      let n := s.pfc.ctlFails + 1
      let s1 := { s with pfc := { s.pfc with ctlFails := n } }
      if n < 3 then s1 else s1.killAll.holdDies)

/-! ### Lost compute dies (R464-R466) -/

/-- HEARTBEAT_MISS: of a compute die (0 to 7), the control die (9) or the fabric die (10). Two in a row, one period of 1 ms
apart, are a loss (R462, R464, R467). -/
def execHeartbeatMiss (die : Nat) (s : State) : Out :=
  let again (last : Option Nat) : Bool := last.any fun t => decide (s.pcc < t + 4000000)
  .next (if die = 9 then
      if again s.pfc.ctlMissed then (s.schedule s.pcc (.controlDieLoss (Config.freeSet s.free))).tick
      else { s with pfc := { s.pfc with ctlMissed := some s.pcc } }
    else if die = 10 then s.schedule s.pcc .fabricDieLoss
    else if again (s.die die).missed then s.schedule s.pcc (.dieIsolation die)
    else s.modDie die fun d => { d with missed := some s.pcc })

/-- Whether the loss of a die ends a launch: it is not elastic, or too few dies remain (R465). -/
def State.doomed (s : State) (die launch : Nat) : Bool :=
  let l := s.launch launch
  !pktElastic l.packet || decide ((l.held.filter fun d => decide (d ≠ die)).length < pktMinDie l.packet)

/-- The waiting FENCE, FLUSH and PHASE forms that a lost die holds of the launches that end with it complete with KILLED (R181,
R465). -/
def State.recordLost (s : State) (die : Nat) : State :=
  (s.cores.filter fun (c : Nat × Core) => decide (c.1 < Config.controlBase) && decide (dieOf c.1 = die) && s.doomed die c.2.job.launch).foldl
    (fun (s : State) (c : Nat × Core) => s.recordWaits c.2 c.1) s

/-- What becomes of a launch with jobs on a lost die (R465); the bytes that those jobs had discarded still count (R350), and the
bindings of saved jobs go with those of the others. -/
def State.launchLoses (s : State) (die launch discarded : Nat) : State :=
  let l := s.launch launch
  let remaining := (l.held.filter fun d => decide (d ≠ die)).length
  let lost := (l.binding.filter fun (b : Nat × Nat) => decide (dieOf b.2 = die)).map fun (b : Nat × Nat) => b.1
  let s1 := s.modLaunch launch fun l =>
    { l with
      discard := l.discard + discarded
      dies := l.dies.map fun d => if d = die then 8 else d
      binding := l.binding.filter fun (b : Nat × Nat) => decide (dieOf b.2 ≠ die) }
  if s.doomed die launch then s1.terminate launch 1 false
  else
    let unbind (c : Core) : Core := if c.job.launch = launch then c.unbindRoles lost else c
    ({ s1 with cores := s1.cores.mapVal fun _ c => unbind c }.setMembers launch (remaining * pktCpd l.packet)).modLaunch launch fun l =>
      { l with
        status := if l.ended then l.status else 1
        saved := l.saved.map fun (v : SavedJobs) => { v with images := v.images.mapVal fun _ c => c.unbindRoles lost } }

/-- DIE_ISOLATION (R464): the die's own pending versions go with its cores; committed values stay. -/
def execDieIsolation (die : Nat) (s : State) : Out :=
  .next (if (s.die die).isolated then s
    else
      let there := s.cores.filter fun (c : Nat × Core) => decide (c.1 < Config.controlBase) && decide (dieOf c.1 = die)
      let launches := (there.map fun (c : Nat × Core) => c.2.job.launch).eraseDups
      let gone (l : Nat) : Nat := ((there.filter fun (c : Nat × Core) => decide (c.2.job.launch = l)).map fun (c : Nat × Core) => c.2.discarded).sum
      let s1 := launches.foldl (fun (s : State) l => s.launchLoses die l (gone l)) ((s.recordLost die).cutOff die)
      (s1.logError
        { mask := some (s.jobMask 0xFF die []), pcc := s.pcc, uclass := 0x13, index := Config.freeWord s.free % 65536, synd := Config.freeWord (s.free + 1) % pow2 64, die, sev := 4, action := 6 }).tick.tick)

/-! ### Capability tables (R470) -/

/-- Bytes b to e of a table, little-endian. -/
def bytesAt (l : List (BitVec 8)) (b e : Nat) : Nat := ((l.drop b).take (e + 1 - b)).foldr (fun (x : BitVec 8) n => x.toNat + 256 * n) 0

/-- The rows of R470 for the table on a port. -/
def tableAccepted (port : Nat) (t : List (BitVec 8)) : Bool :=
  let kind := bytesAt t 6 6
  let cores := bytesAt t 0x10 0x11
  decide (t.length = 64) && decide (bytesAt t 0 3 = 0x50434643) && decide (bytesAt t 5 5 = 1) && decide (kind ≤ 2) &&
    decide (bytesAt t 7 7 = port) && decide (port ≤ 11) &&
    (if kind = 0 then decide (192 ≤ cores) && decide (cores ≤ 200) else decide (cores = if kind = 1 then 16 else 0)) &&
    decide (bytesAt t 0x14 0x17 = if kind = 0 then 24 else 0) && decide (bytesAt t 0x38 0x3F = 0)

/-- DIE_RECOVERY (R466): a die that passes its test and its enumeration on its own port (R470; log 27) returns with its memory poisoned; another stays in
reset. -/
def execDieRecovery (die : Nat) (passed : Bool) (table : List (BitVec 8)) (s : State) : Out :=
  .next (if !(s.die die).isolated then s
    else if !(passed && tableAccepted die table && decide (bytesAt table 6 6 = 0)) then
      s.modDie die fun d => { d with inReset := true }
    else
      let dram := s.globalPa (0x10000000000 + die * 0x800000000)
      let dsm := s.globalPa (0x18000000000 + die * 0x10000000)
      let s1 := { s with poison := (s.poison.lose (dram / 32) (0x600000000 / 32)).lose (dsm / 32) (0x10000000 / 32) }
      (s1.modDie die fun d => { d with isolated := false, inReset := false, missed := none, usable := bytesAt table 0x10 0x11 }).wantRound)

/-! ### The fabric die (R467) -/

/-- The fabric die stops: every remote access of the package ends with reason 0x3. -/
def State.dropFabric (s : State) : State :=
  let s1 := ({ s with fabric := { s.fabric with lost := true } }).releaseWaiting
  let struck := s1.accs.filter fun (a : Nat × Access) => a.2.tag.isSome
  let s2 := struck.foldl (fun (s : State) (a : Nat × Access) =>
    let a1 := { a.2 with performed := true, error := some (.remote 3), tag := none }
    let s3 := if a.2.performed then s else s.unschedule (a.2.acting a.1)
    ({ s3 with accs := s3.accs.set a.1 a1 }).schedule s.pcc (a1.ending a.1)) s1
  let agenda := s2.agenda.filter fun (p : Nat × Event) => match p.2 with
    | .replyArrival _ _ => false
    | .requesterTimeout _ => false
    | _ => true
  { s2 with agenda, fabric := { s2.fabric with tags := [], windows := [], queue := [] } }

/-- FABRIC_DIE_LOSS (R467): fabric launches are terminated. -/
def execFabricDieLoss (s : State) : Out :=
  .next (if s.fabric.lost then s
    else
      let s1 := s.dropFabric
      let ls := (s1.hub.launches.filter fun (l : Nat × Launch) => decide (2 ≤ pktFPkgs l.2.packet)).map fun (l : Nat × Launch) => l.1
      ((ls.foldl (fun (s : State) l => s.terminate l 1 false) s1).logError
        { pcc := s.pcc, uclass := 1 + Config.freeWord s.free % 22, index := Config.freeWord (s.free + 1) % 65536
          synd := Config.freeWord (s.free + 2) % pow2 64, die := 10, sev := 4, action := Config.freeWord (s.free + 3) % 8 }).tick.tick.tick.tick)

end Sys2Proof.Machine
end

