-- ==== Sys2Proof/Machine/Strikes.lean ====
section
/-! DEFINITION. The errors that the hardware detects in its memories and its logic (R445-R448, R452-R455, R490): the unit that each
is logged against, the poison that an uncorrected one leaves, the tests it starts and the fences that go with them. -/

namespace Sys2Proof.Machine

/-! ### The units of R490 -/

/-- The unit of a core: class, index, core and die, with an address. -/
def coreUnit (core uclass index addr now : Nat) : TestUnit :=
  { uclass, index, core := physOf core, die := dieOf core, addr, synd := 0, sev := 0, action := 0, detected := now }

/-- A unit that lies in no core. -/
def dieUnit (die uclass index addr now : Nat) : TestUnit :=
  { uclass, index, core := 0xFF, die, addr, synd := 0, sev := 0, action := 0, detected := now }

/-- The die of an address's home, 8 for the hub (R460). -/
def homeOf (pa : Nat) : Nat := (homeDie (regionOf (localOf pa))).getD 8

/-- The slice of an address's home on a compute die. -/
def sliceAt (pa : Nat) : Nat :=
  match regionOf (localOf pa) with
  | .dram _ o => sliceOf o
  | .dsm _ o => sliceOf o
  | _ => 0

/-- The unit that an error is logged against (R461, R490). A DRAM device has no INDEX in R490: its controller's number stands there
(DESIGN CHOICE, log 61). -/
def StrikeSite.unit (site : StrikeSite) (s : State) : TestUnit :=
  let now := s.pcc
  match site with
  | .matrix core (.bank _ r) => coreUnit core 0x01 (r % 32) 0 now
  | .matrix core (.acc tile r) => coreUnit core 0x03 (tile % 8 * 32 + r % 32) 0 now
  | .matrix core .packet => coreUnit core 0x01 0 0 now
  | .pool core block _ _ => coreUnit core 0x05 (block % 32) 0 now
  | .scalar core slot reg => coreUnit core 0x06 (slot * 32 + reg % 32) 0 now
  | .spm core word => coreUnit core 0x07 word 0 now
  | .l1 core sector granule way => coreUnit core 0x08 (sector / 4 % 16 * 8 + way % 8) (sector * 128 + granule % 4 * 32) now
  | .icache core _ _ place => coreUnit core 0x09 (place % 512) 0 now
  | .slice pa bank => dieUnit (homeOf pa) 0x0A (sliceAt pa * 16 + bank % 16) (pa / 32 * 32) now
  | .version pa entry => dieUnit (homeOf pa) 0x0B entry (pa / 32 * 32) now
  | .memory pa =>
    match regionOf (localOf pa) with
    | .dram d o => dieUnit d 0x0C (sliceOf o) (pa / 32 * 32) now
    | _ => dieUnit 8 0x0D (localOf pa / 512 % 16) (pa / 32 * 32) now
  | .directory pa => dieUnit 8 0x0E (localOf pa / 512 % 16) (pa / 512 * 512) now
  | .row core n => coreUnit core 0x01 (n % 32) 0 now
  | .column core n => coreUnit core 0x02 (n % 32) 0 now
  | .lanes core pair => coreUnit core 0x04 pair 0 now
  | .ucie die lane => dieUnit die 0x0F lane 0 now

/-! ### What an uncorrected error leaves (R446) -/

/-- A cell of a register of a pool block is poisoned in the group that holds the block. -/
def Core.poisonPool (c : Core) (block reg cell : Nat) : Core :=
  let there (p : Place) : Bool := match p with
    | .pool n => decide (n = block % 32)
    | .parked n => decide (n = block % 32)
    | _ => false
  { c with groups := c.groups.mapVal fun _ (g : Group) =>
      match g.blocks.find? fun (b : Nat × Place) => there b.2 with
      | some b => { g with vpoison := g.vpoison.add (256 * (4 * b.1 + reg % 4) + cell % 256) }
      | none => g }

/-- A register of a group is poisoned; slots 2n and 2n + 1 are the files of a twin group (R282). -/
def Core.poisonScalar (c : Core) (twin : Bool) (slot reg : Nat) : Core :=
  let mark (f : RegFile) : RegFile := { f with poison := f.poison.add (reg % 32) }
  if reg % 32 = 0 then c
  else if twin && decide (slot % 2 = 1) then
    c.modGroup (slot - 1) fun g => { g with sc := { g.sc with twin := g.sc.twin.map mark } }
  else c.modGroup slot fun g => { g with sc := { g.sc with rf := mark g.sc.rf } }

/-- The pending version of a granule that an entry of a version buffer holds is poisoned. -/
def State.poisonVersion (s : State) (pa : Nat) : State :=
  let hit (a n : Nat) : Bool := decide (a / 32 ≤ pa / 32) && decide (pa / 32 ≤ (a + n - 1) / 32)
  { s with
    cores := s.cores.mapVal fun _ (c : Core) => c.mapPend fun p => if hit p.pa p.size then { p with poison := true } else p
    remote := s.remote.map fun (r : RemoteStore) => if hit r.pa r.size then { r with poison := true } else r }

/-- The mark of a granule of memory. -/
def State.poisonGranule (s : State) (pa : Nat) : State := { s with poison := s.poison.add (pa / 32) }

/-- The data that an uncorrected error spoils are poisoned; lost directory state answers its line's accesses with REMOTE_ERROR
(R427). -/
def State.spoil (s : State) : StrikeSite → State
  | .matrix core site => s.modLive core fun c => { c with matrix := c.matrix.poisonSite site }
  | .pool core block reg cell => s.modLive core fun c => c.poisonPool block reg cell
  | .scalar core slot reg => s.modLive core fun c => c.poisonScalar c.job.twin slot reg
  | .spm core word => s.modLive core fun c => { c with spmPoison := c.spmPoison.add (word % 16384) }
  | .l1 core sector granule _ => s.modLive core fun c =>
    { c with mem := { c.mem with l1 := c.mem.l1.modify sector fun (x : L1Sector) => { x with poison := x.poison.add (4 * sector + granule % 4) } } }
  | .icache core sector granule _ => s.modLive core fun c =>
    { c with mem := { c.mem with icache := c.mem.icache.modify sector fun (x : CodeSector) => { x with poison := x.poison.add granule } } }
  | .slice pa _ => s.poisonGranule pa
  | .version pa _ => s.poisonVersion pa
  | .memory pa => s.poisonGranule pa
  | .directory pa => { s with lostDir := s.lostDir.add (localOf pa / 512) }
  | _ => s

/-! ### The error in its cycle (R445, R452, R454) -/

/-- Whether an error is one of a logic unit, with no data of its own. -/
def StrikeSite.isLogic : StrikeSite → Bool
  | .row _ _ => true
  | .column _ _ => true
  | .lanes _ _ => true
  | .ucie _ _ => true
  | _ => false

/-- Whether R454 lists the unit, so that the error starts a test. -/
def StrikeSite.isTested : StrikeSite → Bool
  | .memory _ => false
  | .directory _ => false
  | _ => true

/-- The fence of a unit under test (R454): a PE row or column and a link's lane go to their spare; where a row's or column's spare is in
lasting use the next table is held, and for a lane pair the core's vector issue, for up to 20 µs: a free value. -/
def State.fenceSite (s : State) (site : StrikeSite) : State :=
  let u := site.unit s
  let hold := Config.freeDelay s.free % 40001
  match site with
  | .row core _ => if s.spareFree u then s.steer u else (s.modLive core fun c => c.fence true s.pcc hold).tick
  | .column core _ => if s.spareFree u then s.steer u else (s.modLive core fun c => c.fence true s.pcc hold).tick
  | .lanes core _ => (s.modLive core fun c => c.fence false s.pcc hold).tick
  | .ucie _ _ => s.steer u
  | _ => s

/-- A weight-bank or accumulator word is found bad when the array uses it (R244), any other unit's error in its own cycle. -/
def StrikeSite.isLate : StrikeSite → Bool
  | .matrix _ _ => true
  | _ => false

/-- The record or the test of a detected error (R445, R452, R460): severity 0 corrected, 1 uncorrected, 2 for the logic of a
unit. -/
def State.logStrike (s : State) (x : Strike) : State :=
  let site := x.site
  let sev := if site.isLogic then 2 else if x.isCorrected then 0 else 1
  let u := { site.unit s with synd := x.synd, sev }
  if site.isTested then (s.fenceSite site).detect u
  else
    (s.logError
      { pcc := s.pcc, addr := u.addr, synd := u.synd, uclass := u.uclass, index := u.index, die := u.die, sev
        action := if x.isCorrected then 0 else 7
        lines := (Config.freeSet s.free).filter fun c => decide (c < 64) }).tick

/-- An error strikes (R445): a lasting one leaves the unit faulty, so that it fails its tests; an uncorrected one poisons its data. -/
def State.strike (s : State) (x : Strike) : State :=
  let u := x.site.unit s
  let s1 := if x.isLasting && !s.faults.contains (mapEntry u) then { s with faults := s.faults ++ [mapEntry u] } else s
  let s2 := if x.isCorrected then s1 else s1.spoil x.site
  if x.site.isLate && !x.isCorrected then s2 else s2.logStrike x

/-- The errors of the cycle. -/
def State.struck (s : State) : State :=
  (s.strikes.filter fun (x : Nat × Strike) => decide (x.1 ≤ s.pcc)).foldl (fun (s : State) (x : Nat × Strike) => s.strike x.2)
    { s with strikes := s.strikes.filter fun (x : Nat × Strike) => decide (s.pcc < x.1) }

/-! ### The spares of units under test (R453, R454) -/

/-- Whether the spare of a unit may be taken back: its test is over, and a PE row's or column's array holds no row. -/
def State.swapsBack (s : State) (x : Nat × Nat × Nat × Nat) : Bool :=
  !(s.pfc.tests.any fun u => decide (mapEntry u = x)) &&
    (decide (x.1 ≠ 1 ∧ x.1 ≠ 2) || decide ((s.core (Config.coresPerDie * x.2.2.2 + x.2.2.1)).matrix.rows = []))

/-- The spares of units whose tests are over are freed. -/
def State.releaseSpares (s : State) : State :=
  if s.pfc.steered = [] then s else { s with pfc := { s.pfc with steered := s.pfc.steered.filter fun x => !s.swapsBack x } }

end Sys2Proof.Machine
end

