-- ==== Sys2Proof/Machine/HostPort.lean ====
section
/-! DEFINITION. What the host's requests do (R387, R430-R437): the BAR2 window of each function, atomic requests, the secure
streams, function reset and the training of the host link. -/

namespace Sys2Proof.Machine

/-! ### BAR2 (R432, R433) -/

/-- The pieces of a request by page: where each begins and its length. -/
def hostPieces (a n : Nat) : List (Nat × Nat) :=
  (List.range (n / 65536 + 2)).filterMap fun i =>
    let first := max a ((a / 65536 + i) * 65536)
    let last := min (a + n) ((a / 65536 + i + 1) * 65536)
    if first < last then some (first, last - first) else Option.none

/-- The physical address of an address in a function's window: package-local for the physical function, translated through
the window's context for a virtual function that owns it; none where the request is unsupported (R432; log 26). -/
def State.hostPlace (s : State) (fn a : Nat) (write : Bool) : Option Nat :=
  let f := s.host.fn fn
  if fn = 0 then
    let pa := s.globalPa a
    if isConfig pa || s.homeError pa then Option.none else some pa
  else if (s.ctx f.winCtx).func ≠ fn then Option.none
  else
    match s.translateIn f.winCtx a with
    | some p => if (write && !p.2.writable) || (s.route 0 p.1 0 1 4 true).error.isSome then Option.none else some p.1
    | Option.none => Option.none

/-- The physical pieces of a BAR2 request, or none where one of them is unsupported. -/
def State.hostPlaces (s : State) (fn offset n : Nat) (write : Bool) : Option (List (Nat × Nat)) :=
  (hostPieces ((s.host.fn fn).winBase + offset) n).mapM fun (p : Nat × Nat) => (s.hostPlace fn p.1 write).map fun pa => (pa, p.2)

/-- HOST_BAR2_READ: committed values; a poisoned granule makes the whole completion poisoned (R433, R448). -/
def execHostBar2Read (fn offset len : Nat) (s : State) : Out :=
  .next (if !s.host.trained then s
    else s.receive fn fun s =>
      match s.hostPlaces fn offset len false with
      | Option.none => { s with outputs := s.outputs ++ [.unsupported fn] }
      | some l =>
        let data := l.flatMap fun (p : Nat × Nat) => leList p.2 (Memory.readN s.mem p.1 p.2)
        let bad := l.any fun (p : Nat × Nat) => (granulesOf p.1 p.2).any fun g => s.poison.has g
        { s with outputs := s.outputs ++ [.hostRead fn (some data) bad] })

/-- Writes the bytes of a request to its pieces in order. -/
def State.hostStore (s : State) : List (Nat × Nat) → List (BitVec 8) → State
  | [], _ => s
  | (pa, n) :: rest, data => (s.deviceWrite pa n (leBytes (data.take n))).hostStore rest (data.drop n)

/-- HOST_BAR2_WRITE: committed when performed (R312); a virtual function's unsupported write is dropped and counted (R432). -/
def execHostBar2Write (fn offset : Nat) (data : List (BitVec 8)) (s : State) : Out :=
  .next (if !s.host.trained then s
    else s.receive fn fun s =>
      match s.hostPlaces fn offset data.length true with
      | some l => s.hostStore l data
      | Option.none =>
        if fn = 0 then { s with outputs := s.outputs ++ [.unsupported fn] }
        else s.modFn fn fun (f : HostFn) => { f with dropped := f.dropped + 1 })

/-- HOST_ATOMIC_REQUEST: Unsupported Request at every address (R430). -/
def execHostAtomicRequest (fn _offset : Nat) (s : State) : Out :=
  .next (if !s.host.trained then s
    else s.receive fn fun s => { s with outputs := s.outputs ++ [.unsupported fn] })

/-! ### Secure streams (R436) -/

/-- IDE_INTEGRITY_FAIL: the device reads outstanding on the stream end with reason 0x7. -/
def execIdeIntegrityFail (fn : Nat) (s : State) : Out :=
  let s1 := s.modFn fn fun (f : HostFn) => { f with insecure := true }
  let struck := s1.accs.filter fun (a : Nat × Access) => decide (a.2.host ≠ 0) && decide (s1.fnOf a.2 = fn) && !a.2.isStore
  .next (struck.foldl (fun (s : State) (a : Nat × Access) =>
    (s.settle a.1 { a.2 with host := 0, error := some (.remote 7) }).hostDone a.1) s1)

def execIdeRekey (fn : Nat) (s : State) : Out := .next (s.modFn fn fun (f : HostFn) => { f with insecure := false })

/-! ### Functions (R344, R430, R432, R437, R471) -/

/-- FUNCTION_RESET: the indices of the function's queues are 0, and its configuration, window and MSI-X table are as at
reset; its stream stays insecure until it is re-keyed. -/
def execFunctionReset (fn : Nat) (s : State) : Out :=
  let s1 := s.modFn fn fun (f : HostFn) => { HostFn.reset with insecure := f.insecure, dropped := f.dropped }
  let mine (q : LQueue) : Bool := decide ((s1.ctx q.ctx).func = fn)
  let zero (q : LQueue) : LQueue := { q with widx := 0, ridx := 0, copying := false }
  .next { s1 with hub := { s1.hub with queues := s1.hub.queues.mapVal fun _ q => if mine q then zero q else q } }

/-- HOST_LINK_TRAINING: the link is up, and the host has enumerated the functions, each with its ATS and PRI enables. -/
def execHostLinkTraining (fns : List (Nat × Bool × Bool)) (s : State) : Out :=
  let s1 := { s with host := { s.host with trained := true } }
  .next (fns.foldl (fun (s : State) (f : Nat × Bool × Bool) =>
    s.modFn f.1 fun (x : HostFn) => { x with ats := f.2.1, pri := f.2.2 }) s1)

end Sys2Proof.Machine
end

