-- ==== Sys2Proof/Machine/Startup.lean ====
section
/-! DEFINITION. Start-up, security and service (R468-R480): the boot stages with minimal mode, the measurement log and the
attestation report, alarms and debug attempts, the power window. -/

namespace Sys2Proof.Machine

/-! ### Minimal mode and failed starts (R468, R469) -/

/-- No launch queue stays enabled. -/
def State.disableQueues (s : State) : State :=
  let off (q : LQueue) : LQueue := { q with enable := false, head := q.head.map fun h => { h with eligible := none } }
  { s with hub := { s.hub with queues := s.hub.queues.mapVal fun _ q => off q } }

/-- The compute dies and the fabric die are held in reset, and no queue can be enabled. -/
def State.enterMinimal (s : State) : State :=
  let s1 := (s.disableQueues.holdDies).dropFabric
  { s1 with pfc := { s1.pfc with minimal := true } }

/-- A stage fails: the start stops with its reason, in minimal mode from the third failed start on and where the start is a restart
out of minimal mode. -/
def State.failStart (s : State) (reason : Nat) : State :=
  let s1 := { s with pfc := { s.pfc with reason } }
  if 3 ≤ s.pfc.failcnt || s.pfc.restart then s1.enterMinimal else s1

/-! ### The stages (R468-R475) -/

/-- A stage's outcome: the state it leaves, with a reason where it fails. -/
abbrev StageOut := State × Option Nat

/-- Appends to the measurement log the digest of what a stage has read (R475). -/
def State.measure (s : State) (kind index : Nat) (l : List (BitVec 8)) : State :=
  { s with pfc := { s.pfc with measured := s.pfc.measured ++ [(kind, index, shake256 l 32)] } }

/-- Stage 0: the store is read, and with helper data the identity key is derived (R474). -/
def stage0 (env : BootInputs) (s : State) : StageOut :=
  if env.romOk then ({ s with pfc := { s.pfc with identity := s.pfc.helper } }, none) else (s, some 0x01)

/-- Stage 1. -/
def stage1 (env : BootInputs) (s : State) : StageOut :=
  if env.imageSigOk then (s.measure 1 0 env.image, none) else (s, some 0x02)

/-- Every field of a configuration record is in range and every MBZ field is zero (R472). -/
def recordOk (l : List (BitVec 8)) : Bool :=
  decide (l.length = 128) && decide (bytesAt l 1 1 = 1) && decide (bytesAt l 2 3 ≤ 63) && decide (bytesAt l 4 4 ≤ 1) &&
    decide (bytesAt l 5 5 ≤ 8) && decide (1000 ≤ bytesAt l 6 7) && decide (bytesAt l 6 7 ≤ 2600) &&
    decide (bytesAt l 0x48 0x4B ≤ 1) && decide (bytesAt l 0x4C 0x7F = 0)

/-- Stage 2: an image below the anti-rollback counter is refused (R473). -/
def stage2 (env : BootInputs) (s : State) : StageOut :=
  let l := env.record
  if !recordOk l then (s, some 0x04)
  else if bytesAt l 2 3 < s.pfc.arb then (s, some 0x03)
  else
    let s1 := s.measure 2 0 l
    ({ s1 with pfc := { s1.pfc with
        secver := bytesAt l 2 3, adv := bytesAt l 4 4, plim := bytesAt l 6 7, debug := decide (bytesAt l 0x48 0x4B = 1)
        keys := (List.range (bytesAt l 5 5)).map fun i => bytesAt l (8 + 8 * i) (15 + 8 * i) } }, none)

/-- Stage 3: the firmware starts, and the platform controller allocates the moult release ring (R403; log 27). -/
def stage3 (env : BootInputs) (s : State) : StageOut :=
  if !env.firmwareOk then (s, some 0x05)
  else
    let page := Config.freeWord s.free % (pow2 40 / 65536)
    let s1 : State :=
      { s with
        pfc := { s.pfc with ctlEntry := env.entry }
        moult := { Moult.reset with mrbase := env.coord % 4096 * pow2 44 + page * 65536 } }
    let s2 := ((s1.measure 3 0 env.firmware).startControl env.entry).tick
    (s2, if env.heartbeat then none else some 0x06)

/-- A compute die with an accepted table, before its memory is trained; its retired cores and slices come from the store. -/
def State.enumerated (s : State) (d : Nat) (table : List (BitVec 8)) : Die :=
  let units (cls : Nat) : List (Nat × Nat × Nat × Nat) :=
    s.pfc.retired.filter fun (x : Nat × Nat × Nat × Nat) => decide (x.1 = cls) && decide (x.2.2.2 = d)
  { Die.reset with
    usable := bytesAt table 0x10 0x11
    retired := (units 0x14).foldl (fun (l : NatSet) (x : Nat × Nat × Nat × Nat) => l.add x.2.1) []
    noWays := (units 0x0A).foldl (fun (l : NatSet) (x : Nat × Nat × Nat × Nat) => l.add (x.2.1 / 16)) [] }

/-- Stage 4: the chiplet on port d, 0 to 7, is compute die d (log 27). -/
def stage4 (env : BootInputs) (s : State) : StageOut :=
  let tables := sortBy (fun (a b : Nat × List (BitVec 8)) => decide (a.1 ≤ b.1)) env.chiplets
  let ok (kind : Nat) (x : Nat × List (BitVec 8)) : Bool := tableAccepted x.1 x.2 && decide (bytesAt x.2 6 6 = kind)
  let s1 := tables.foldl (fun (s : State) (x : Nat × List (BitVec 8)) => s.measure 4 x.1 x.2) s
  let found := tables.filter fun x => ok 0 x && decide (x.1 < 8)
  let put (m : FMap Die) (x : Nat × List (BitVec 8)) : FMap Die := m.set x.1 { s.enumerated x.1 x.2 with fcommit := (s.die x.1).fcommit }
  ({ s1 with dies := found.foldl put [] }, if (tables.any (ok 1)) && (tables.any (ok 2)) then none else some 0x07)

/-- Stage 5: the dies whose memory trains leave reset. -/
def stage5 (env : BootInputs) (s : State) : StageOut :=
  if !env.lpddrOk then (s, some 0x09)
  else
    let s1 := { s with dies := s.dies.mapVal fun k (d : Die) => { d with inReset := !env.dramOk.contains k } }
    (s1, if s1.dies.any fun (d : Nat × Die) => !d.2.inReset then none else some 0x08)

/-- Stage 6: coordinates, size and links (R411, R422); a port that does not come up is dead (R428). -/
def stage6 (env : BootInputs) (s : State) : StageOut :=
  if !env.fabricOk then (s, some 0x0A)
  else
    let f := { Fabric.reset with coord := env.coord % 4096, sizeX := env.size.1, sizeY := env.size.2.1, sizeZ := env.size.2.2 }
    let s1 := { s with fabric := f }
    ((List.range 6).foldl (fun (s : State) k =>
      match env.links.getD k none with
      | some v => s.trainLink k v.1 v.2
      | none => { s with fabric := s.fabric.modLink k fun _ => { Link.reset with dead := true } }) s1, none)

/-- Stage 7: ready. The anti-rollback counter advances where the record says so and no level-2 alarm was raised in this start (R473). -/
def stage7 (s : State) : StageOut :=
  let p := s.pfc
  ({ s with hub := { s.hub with lseq := 0 }, pfc := { p with
      ready := true, failcnt := 0
      arb := if p.adv = 1 ∧ p.arb < p.secver ∧ !p.startAlarm then p.secver else p.arb
      reason := if p.identity.isSome then 0 else 0x0C } }, none)

/-- The work of a stage. -/
def stageWork (env : BootInputs) (s : State) : Nat → StageOut
  | 0 => stage0 env s
  | 1 => stage1 env s
  | 2 => stage2 env s
  | 3 => stage3 env s
  | 4 => stage4 env s
  | 5 => stage5 env s
  | 6 => stage6 env s
  | _ => stage7 s

/-- The cycles of 2 s. -/
def stageLimit : Nat := 4000000000

/-- Runs stages in order. `again` is a restart out of minimal mode, which leaves FAILCNT as it is (R469). A stage that hangs
fails after 2 s. -/
def State.runStages (s : State) (env : BootInputs) (again : Bool) : List Nat → State
  | [] => s
  | k :: rest =>
    let count := if k = 1 ∧ !again then min 15 (s.pfc.failcnt + 1) else s.pfc.failcnt
    let s1 := { s with pfc := { s.pfc with stage := k, failcnt := count } }
    if env.hang = some k ∧ k < 7 then s1.schedule (s.pcc + stageLimit) .bootStageTimeout
    else
      match stageWork env s1 k with
      | (s2, some reason) => s2.failStart reason
      | (s2, none) => s2.runStages env again rest

def bootStages : List Nat := [0, 1, 2, 3, 4, 5, 6, 7]

/-- DEVICE_RESET (R110, R468, R469): of the package only the store in the hub stays, with the faults of its units, and the stages run. -/
def execDeviceReset (env : BootInputs) (s : State) : Out :=
  let p := s.pfc
  let s1 : State :=
    { State.reset with
      pfc := { Pfc.reset with failcnt := p.failcnt, arb := p.arb, helper := p.helper, spareMap := p.spareMap, retired := p.retired }
      inputs := s.inputs, outputs := s.outputs, strikes := s.strikes, faults := s.faults, free := s.free, nextId := s.nextId }
  .next (s1.runStages env false bootStages)

/-- A start is under way: no stage has failed, and no alarm has stopped it. -/
def Pfc.starting (p : Pfc) : Bool := !p.ready && !p.minimal && !p.stopped && decide (p.reason = 0)

/-- The reasons that a stage may fail with. -/
def stageReasons : Nat → Nat × Nat
  | 0 => (0x01, 0x01)
  | 1 => (0x02, 0x02)
  | 2 => (0x04, 0x03)
  | 3 => (0x05, 0x06)
  | 4 => (0x07, 0x07)
  | 5 => (0x09, 0x08)
  | _ => (0x0A, 0x0A)

/-- BOOT_STAGE_TIMEOUT (R468): which of a stage's two reasons is shown is a free value (log 27). -/
def execBootStageTimeout (s : State) : Out :=
  .next (if !s.pfc.starting || decide (7 ≤ s.pfc.stage) then s
    else
      let r := stageReasons s.pfc.stage
      (s.failStart (if Config.freeHit s.free then r.1 else r.2)).tick)

/-- HOST_RESTART_REQUEST (R469): only minimal mode ends by it; alarms are not lowered (R477). -/
def execHostRestartRequest (env : BootInputs) (s : State) : Out :=
  .next (if !s.pfc.minimal then s
    else
      let s1 : State :=
        { s with
          control := Vector.replicate 16 Control.reset
          pfc := { s.pfc with
            ready := false, minimal := false, stopped := false, reason := 0, restart := true, startAlarm := false, identity := none, secver := 0, adv := 0, keys := [], plim := 0
            debug := false, measured := [], ctlLost := false, ctlFails := 0, ctlMissed := none } }
      s1.runStages env true bootStages)

/-! ### Alarms (R477) -/

/-- Whether a temperature, in eighths of a degree, is above 115 °C or below -10 °C. -/
def outOfRange (eighths : Int) : Bool := decide (eighths > 920) || decide (eighths < -80)

/-- The store of wrapped keys, the helper data and what was derived from them go (R477, log 28). -/
def Pfc.zeroised (p : Pfc) : Pfc := { p with helper := none, identity := none, keys := [] }

/-- Raises an alarm: INDEX names the trigger; a start that is under way stops in its stage. -/
def State.raiseAlarm (s : State) (level index : Nat) : State :=
  let s1 := s.logError { pcc := s.pcc, uclass := 0x16, index, die := 8, sev := 5 }
  let s2 : State :=
    { s1 with
      pfc := { s1.pfc with alarm := max s1.pfc.alarm level, locked := true, startAlarm := s1.pfc.startAlarm || decide (2 ≤ level), stopped := s1.pfc.stopped || s1.pfc.starting }
      agenda := s1.agenda.filter fun (p : Nat × Event) => decide (p.2 ≠ .bootStageTimeout) }
  if level < 2 then s2
  else
    let s3 := ({ s2 with pfc := s2.pfc.zeroised }).killAll.enterMinimal
    { s3 with pfc := { s3.pfc with reason := 0x0B } }

/-- SECURITY_ALARM: an excursion, a temperature that a sensor reports, or failed debug attempts. -/
def execSecurityAlarm (trigger : AlarmTrigger) (s : State) : Out :=
  .next (match trigger with
    | .excursion => s.raiseAlarm 2 0
    | .temperature die eighths =>
      let s1 := { s with pfc := { s.pfc with temps := s.pfc.temps.set die eighths } }
      if !outOfRange eighths then { s1 with pfc := { s1.pfc with hotSince := s1.pfc.hotSince.del die } }
      else if s.pfc.hotSince.has die then s1
      else
        (({ s1 with pfc := { s1.pfc with hotSince := s1.pfc.hotSince.set die s.pcc } }).raiseAlarm 1 1).schedule
          (s.pcc + 2000000000) .alarmEscalation
    | .debugUnlock => s.raiseAlarm (if 8 ≤ s.pfc.badUnlocks then 2 else 1) 2)

/-- ALARM_ESCALATION: a die that is still out of range 1 s later. -/
def execAlarmEscalation (s : State) : Out :=
  .next (if s.pfc.hotSince.any fun (d : Nat × Nat) => decide (d.2 + 2000000000 ≤ s.pcc) then s.raiseAlarm 2 1 else s)

/-- DEBUG_UNLOCK_ATTEMPT: the third failure in a row, the eighth, and any attempt that the record does not permit raise an
alarm; locked debug lets none succeed (log 28). -/
def execDebugUnlockAttempt (success : Bool) (s : State) : Out :=
  let p := s.pfc
  let n := if success && p.debug && !p.locked then 0 else p.badUnlocks + 1
  let s1 := { s with pfc := { p with badUnlocks := n } }
  .next (if !p.debug || decide (n = 3) || decide (n = 8) then s1.schedule s.pcc (.securityAlarm .debugUnlock) else s1)

/-! ### Identity and attestation (R474-R476) -/

/-- VENDOR_ENROLMENT: helper data are written by a record signed with the ROM key alone. -/
def execVendorEnrolment (helper : Nat) (signedOk : Bool) (s : State) : Out :=
  .next (if signedOk then { s with pfc := { s.pfc with helper := some helper } } else s)

/-- The bytes of the measurement log (R475). -/
def Pfc.logBytes (p : Pfc) : List (BitVec 8) :=
  p.measured.flatMap fun (e : Nat × Nat × Nat) => leList 8 e.1 ++ leList 8 e.2.1 ++ leList 32 e.2.2

/-- Bytes 0x000 to 0x0FF of a report. -/
def State.reportBody (s : State) (helper : Nat) (nonce : List (BitVec 8)) : List (BitVec 8) :=
  let p := s.pfc
  leList 4 0x54415446 ++ leList 2 0x0100 ++ leList 2 0 ++ leList 32 (leBytes nonce) ++ leList 32 (shake256 p.logBytes 32) ++
    leList 8 (p.measured.length % 65536 * pow2 48 + s.pcc % pow2 48) ++ leList 4 p.bootstat ++ leList 2 p.arb ++
    leList 8 (Config.identityKey helper) ++ List.replicate 162 0

/-- ATTESTATION_REQUEST: refused during a level-2 alarm or without an identity key; signed with the one that this start's stage 0 has
derived (R474). -/
def execAttestationRequest (nonce : List (BitVec 8)) (s : State) : Out :=
  .next (match s.pfc.identity with
    | some helper =>
      if 2 ≤ s.pfc.alarm then { s with outputs := s.outputs ++ [.attestationRefused] }
      else
        let body := s.reportBody helper nonce
        { s with outputs := s.outputs ++ [.attestation (body ++ leList 1280 (Config.falconSign helper (shake256 body 64)))] }
    | none => { s with outputs := s.outputs ++ [.attestationRefused] })

/-! ### Power (R108, R479, R480) -/

/-- Whether the power manager may put idle cycles into a vector stream: it runs an interlocked table (R108). -/
def VStream.idles (v : VStream) : Bool := v.busy && !v.stopped && !v.ended && !v.exposed

/-- Idle cycles in an interlocked vector stream. -/
def VStream.capped (v : VStream) (now idle : Nat) : VStream := if v.idles then { v with nextIssue := max v.nextIssue now + idle } else v

/-- The vector streams of a core that idle cycles go into. -/
def Core.idlers (c : Core) : Nat := (c.groups.filter fun (g : Nat × Group) => g.2.v.idles).length

/-- POWER_WINDOW: the manager holds the window's power at PLIM, by idle cycles in the interlocked vector streams, which CAPCYC
counts, and by the delays of the exposed tables that start in the window (`State.startDelay`). `watts` is what the module would have drawn
without it, and `capped`, in units of 1,024, bounds the idle cycles in a stream, which are a free value (log 29). -/
def execPowerWindow (watts capped : Nat) (s : State) : Out :=
  let capping := decide (s.pfc.plim < watts) || decide (capped ≠ 0)
  let idle := Config.freeDelay s.free % (1024 * capped + 1)
  let idlers := (s.cores.map fun (c : Nat × Core) => c.2.idlers).sum
  .next { s with
    pfc := { s.pfc with pwr := min watts s.pfc.plim, capping, capcyc := s.pfc.capcyc + idle * idlers }
    cores := s.cores.mapVal fun _ c => { c with groups := c.groups.mapVal fun _ (g : Group) => { g with v := g.v.capped s.pcc idle } } }.tick

end Sys2Proof.Machine
end

