-- ==== Sys2Proof/Machine/Cycle.lean ====
section
/-! DEFINITION. What comes next in a cycle (R1-R4, R98-R103, R108, R153, R234, R264, R265): events put in and due, the
events that a state enables before the streams' turns and after them, the turn of each stream, and the end of the
cycle. -/

namespace Sys2Proof.Machine

/-- What a step does. -/
inductive Act where
  /-- Nothing more: the state has been changed already. -/
  | idle
  /-- An event of the table takes place. -/
  | event (e : Event)
  /-- The stream of the step executes a word of its kind. -/
  | word (k : WordKind) (w : BitVec 32)
  /-- The step's group runs its class 2 code on. -/
  | block
  /-- The stream of the step raises a trap before it has a word. -/
  | raised (t : TrapArgs)
  deriving DecidableEq, Repr

/-! ### Turns -/

/-- The mark behind the turns of a cycle in `State.todo`. -/
def turnsEnd : Focus := ⟨2000, 0, .control⟩

/-- Whether a group's next instruction may stand for the issue slot, or has issued (R98, R149). A PHASE that has left the active set
before its stores are performed goes on to its arrival (R174, R263). -/
def Group.mayTurn (g : Group) : Bool :=
  match (g.hold.map fun h => h.wait : Option Wait) with
  | some (.walk _) => false
  | some .ordered => decide (g.status = .active) || decide (g.status = .waiting)
  | some (.commit _) => decide (g.status = .active) || decide (g.status = .waiting)
  | _ => decide (g.status = .active) || decide (g.status = .joined)

/-- The slots of instructions that wait, by their first cycle and slot (R149). -/
def Core.heldTurns (c : Core) : List Nat :=
  let l := (c.groups.filter fun (g : Nat × Group) => g.2.mayTurn && g.2.goesOn).map fun (g : Nat × Group) =>
    ((g.2.hold.map fun h => h.since).getD 0, g.1)
  (sortBy (fun (a b : Nat × Nat) => decide (a.1 < b.1) || (decide (a.1 = b.1) && decide (a.2 ≤ b.2))) l).map fun (p : Nat × Nat) => p.2

/-- The slots of the active set from the search position on (R98). -/
def Core.slotTurns (c : Core) : List Nat :=
  let l := c.sched.active.toList
  ((l.drop (c.sched.rr % 8) ++ l.take (c.sched.rr % 8)).filterMap id).filter fun n => (c.group n).mayTurn && !(c.group n).goesOn

/-- Whether the core's vector issue is held by the fence of a unit under test, which it never is while an exposed table
runs (R454). -/
def Core.vectorHeld (c : Core) (now : Nat) : Bool :=
  decide (now < c.fences.vector) && !(c.groups.any fun (g : Nat × Group) => g.2.v.busy && g.2.v.exposed)

/-- The busy vector streams of groups that no trap suspends, after the one that issued last (R101, R267). -/
def Core.vectorTurns (c : Core) (now : Nat) : List Nat :=
  if c.vectorHeld now then [] else
  let l := (c.groups.filter fun (g : Nat × Group) =>
    decide (g.2.status ≠ .trapped) && g.2.v.busy && !g.2.v.stopped && !g.2.v.ended && decide (g.2.v.nextIssue ≤ now)).map
      fun (g : Nat × Group) => g.1
  l.filter (fun n => decide (c.sched.vlast < n)) ++ l.filter fun n => decide (n ≤ c.sched.vlast)

/-- The turns of a core's channels (R307). -/
def Core.chanTurns (c : Core) (key : Nat) : List Focus :=
  (List.range 4).filterMap fun n => (c.chan n).run.map fun (r : CRun) => (⟨key, r.owner, .chan n⟩ : Focus)

/-- The turns of a core whose job is to stop (R404): what has had its effect elsewhere ends, and the matrix stream goes on
to a stop point. -/
def Core.stoppingTurns (c : Core) (key : Nat) : List Focus :=
  (c.heldTurns.filter fun n => (c.group n).hold.any Hold.mustEnd).map (fun n => (⟨key, n, .group⟩ : Focus)) ++
    c.chanTurns key ++
    (match c.matrix.run with
     | some r => if r.trapped || (r.treadle && c.matrix.replay.isNone) then [] else [(⟨key, r.owner, .matrix⟩ : Focus)]
     | none => [])

/-- The turns of one core. -/
def Core.turns (c : Core) (key now : Nat) : List Focus :=
  if c.job.stopping.isSome then c.stoppingTurns key else
  c.heldTurns.map (fun n => (⟨key, n, .group⟩ : Focus)) ++ c.slotTurns.map (fun n => (⟨key, n, .group⟩ : Focus)) ++
    (if c.eft.running && !c.eft.trapped then [(⟨key, 0, .eft⟩ : Focus)] else []) ++
    (c.vectorTurns now).map (fun n => (⟨key, n, .vector⟩ : Focus)) ++
    c.chanTurns key ++
    (match c.matrix.run with
     | some r => if r.trapped then [] else [(⟨key, r.owner, .matrix⟩ : Focus)]
     | none => [])

/-- The turns of a cycle: the compute cores by key, then the control die's. -/
def State.turns (s : State) : List Focus :=
  (s.cores.flatMap fun (c : Nat × Core) => c.2.turns c.1 s.pcc) ++
    ((List.range 16).filter fun n => !(s.ctl n).stopped && !(s.ctl n).halted).map (fun n => (⟨n, 0, .control⟩ : Focus))

/-! ### The turn of a stream -/

/-- The word at a scalar stream's pc: executed once the scoreboard admits it (R98). The word of a form that has issued and waits goes on
(R149, R189). -/
def State.scalarTurn (s : State) (held : Bool) : Act × State :=
  let sc := s.scalar
  if s.pcc < sc.nextIssue then (.idle, s)
  else if held then (.word .scalar sc.word, s)
  else
    match s.fetch s.curKey s.curCtx sc.pc with
    | .miss =>
      let (s1, id) := s.startWalk sc.pc true
      (.idle, s1.holdFor (.walk id))
    | .fault t => (.raised t, s)
    | .word w =>
      let s1 := (s.keepSector s.curKey s.curCtx sc.pc).noteWord w
      match decodeScalar w.toNat with
      | .ok i => if sc.admits i s.pcc then (.word .scalar w, s1) else (.idle, s1)
      | _ => (.word .scalar w, s1)

/-- Whether the eft stream or a control-die core waits for a walk. -/
def onWalk (h : Option Hold) : Bool := h.any fun h => match h.wait with
  | .walk _ => true
  | _ => false

/-- The word of JOIN (R179). -/
def joinWord : BitVec 32 := 0xD0004000

/-- The turn of a group's scalar stream, or of its blocks; one whose die is withdrawn ends as if by JOIN (R176). -/
def State.groupTurn (s : State) : Act × State :=
  if !(s.here.groups.has s.cur.slot && s.grp.mayTurn) then (.idle, s)
  else if s.grp.hold.any fun h => decide (h.wait = .leaving) then (.word .scalar joinWord, s)
  else if s.here.job.blocks.isSome then (if s.pcc < s.scalar.nextIssue || s.grp.blockWaits then .idle else .block, s)
  else s.scalarTurn s.grp.goesOn

/-- The turn of the eft stream (R159): it ends where its next pc is the end address. -/
def State.eftTurn (s : State) : Act × State :=
  let e := s.here.eft
  if !e.running || e.trapped || onWalk e.hold then (.idle, s)
  else if e.sc.pc = e.endPc && e.hold.isNone then (.idle, s.modHere fun c => { c with eft := { c.eft with running := false } })
  else s.scalarTurn (e.hold.any fun h => h.wait.lasts)

/-- The turn of a control-die core (R185). -/
def State.controlTurn (s : State) : Act × State :=
  let c := s.ctl s.cur.core
  if c.stopped || c.halted || onWalk c.hold then (.idle, s) else s.scalarTurn (c.hold.any fun h => h.wait.lasts)

/-- The word at an engine's pc (R65): outside the table ILLEGAL_ENCODING. -/
def State.tableTurn (s : State) (k : WordKind) (header : Word) (length : Nat) (pc : Word) : Act × State :=
  if (tablePlace header length pc).isNone then (.raised { cause := causeEncoding }, s)
  else
    match s.fetch s.curKey s.curCtx pc with
    | .miss => (.idle, (s.startWalk pc true).1)
    | .fault t => (.raised t, s)
    | .word w => (.word k w, s.keepSector s.curKey s.curCtx pc)

/-- The turn of a group's vector stream. -/
def State.vectorTurn (s : State) : Act × State :=
  let v := s.grp.v
  if s.here.groups.has s.cur.slot && decide (s.grp.status ≠ .trapped) && v.busy && !v.stopped && !v.ended &&
      decide (v.nextIssue ≤ s.pcc) then
    s.tableTurn .vector v.header v.length v.pc
  else (.idle, s)

/-- Notes the cycle in which the matrix stream of a stopping job stands at its stop point (R406). -/
def State.noteMatrixStop (s : State) : State :=
  s.modHere fun c => { c with job := { c.job with matrixStop := some (c.job.matrixStop.getD s.pcc) } }

/-- T0 of a resumed stream rises while its first word waits for its translation (R406). -/
def Matrix.stands (m : Matrix) : Matrix :=
  if m.run.any fun r => r.resumed.isSome && !r.treadle then
    { m with t0 := m.t0 + 1, run := m.run.map fun r => { r with resumed := r.resumed.map (· + 1) } }
  else m

/-- The turn of the matrix stream: in a replay the retained word; a treadle table wraps to its first body word (R244,
R313). -/
def State.matrixTurn (s : State) : Act × State :=
  match s.mx.run with
  | none => (.idle, s)
  | some r =>
    if r.trapped then (.idle, s)
    else
      match s.mx.replay with
      | some p =>
        match p.cmds with
        | (t, c) :: _ => if t ≤ s.pcc then (.word .matrix c.word, s) else (.idle, s)
        | [] => (.idle, s)
      | none =>
        if r.ended || decide (s.pcc < s.mx.nextIssue) then (.idle, s)
        else if r.treadle && decide (r.pc = r.header + BitVec.ofNat 64 (4 * r.length + 4)) then
          let pc := r.header + 8
          (s.modMx fun m => { m with run := m.run.map fun q => { q with pc } }).tableTurn .matrix r.header r.length pc
        else
          match s.tableTurn .matrix r.header r.length r.pc with
          | (.idle, t) => (.idle, t.modMx fun m => m.stands)
          | (.word k w, t) => if s.here.job.stopping.isSome && stopPoint w then (.idle, t.noteMatrixStop) else (.word k w, t)
          | x => x

/-- The turn of a clicker channel (R245, R249, R253, R307): copies whose bytes are there write; then words up to the copy word,
then the copies, then the words after it. A channel whose job is to stop starts nothing more (R404). -/
def State.chanTurn (s0 : State) (n : Nat) : Act × State :=
  let s := s0.drainCopies 65
  match s.ch.run with
  | none => (.idle, s)
  | some r =>
    if r.trapped || r.walk.isSome || decide (s.pcc < r.startFree) || s.here.job.stopping.isSome then (.idle, s)
    else if r.op.isSome && decide (r.next < iterations r.levels) then
      if s.copyReady r then (.event (.clickerCopyStart s.cur.core n), s) else (.idle, s)
    else if r.ended then (.idle, s)
    else
      match r.words[(r.pc - r.header).toNat / 4 - 1]? with
      | some w => (.word .clicker w, s)
      | none => (.raised { cause := causeEncoding }, s)

/-- The turn of the step's stream. -/
def State.turn (s : State) : Act × State :=
  match s.cur.stream with
  | .group => s.groupTurn
  | .vector => s.vectorTurn
  | .matrix => s.matrixTurn
  | .chan n => s.chanTurn n
  | .eft => s.eftTurn
  | .control => s.controlTurn

/-! ### After a word -/

/-- Whether the word of a vector stream has issued: the stream has moved on or stopped. -/
def VStream.issued (v : VStream) (now : Nat) : Bool := !v.busy || v.stopped || v.ended || decide (now < v.nextIssue)

/-- Drops the turns left of a unit that has issued in this cycle. -/
def State.dropTurns (s : State) (p : Focus → Bool) : State := { s with todo := s.todo.filter fun f => !p f }

/-- What follows a word that a stream has executed: one scalar instruction and one vector micro-order a cycle issue in a
core (R98, R101), and a channel reads on (R245). `b` is the state before the word. A word that traps at its check has taken the
cycle's issue slot and moves the search position, on which R72 and R98 are silent (DESIGN CHOICE, log 44). -/
def State.afterWord (b t : State) : State :=
  let f := b.cur
  match f.stream with
  | .group =>
    let g := t.grp
    let issued := !(b.grp.goesOn) && (!t.here.groups.has f.slot || g.goesOn || g.hold.isNone || decide (g.status ≠ .active))
    if !issued then t
    else
      let rr := ((b.here.sched.position f.slot).getD 7 + 1) % 8
      (t.modLive f.core fun c => { c with sched := { c.sched with rr } }).dropTurns fun x =>
        decide (x.core = f.core) && decide (x.stream = .group)
  | .vector =>
    if !t.here.groups.has f.slot || t.grp.v.issued t.pcc then
      t.dropTurns fun x => decide (x.core = f.core) && decide (x.stream = .vector)
    else t
  | .chan _ =>
    let place (s : State) : Option (Word × Bool × Bool) := s.ch.run.map fun r => (r.pc, r.ended, r.trapped)
    if place b = place t then t else { t with todo := f :: t.todo }
  | _ => t

/-- The outcome of a word's meaning with what follows it. -/
def goOnAfter (b : State) : Out → Out
  | .next t => .next (b.afterWord t)
  | r => r

/-! ### Events that a core enables -/

/-- A group of the core that satisfies a test. -/
def Core.someSlot (c : Core) (p : Nat → Group → Bool) : Option Nat :=
  (c.groups.find? fun (g : Nat × Group) => p g.1 g.2).map fun (g : Nat × Group) => g.1

/-- A port of the core that satisfies a test. -/
def Core.somePort (c : Core) (p : Nat → Port → Bool) : Option Nat := (List.range 16).find? fun n => p n (c.port n)

/-- The L1 line that must leave now (R286), of those that hold a sector which is not on its way to the version buffer (R301). -/
def State.leavingLine (s : State) (k : Nat) (c : Core) : Option Nat :=
  c.overfull s.free (s.agenda.filterMap fun (p : Nat × Event) => match p.2 with
    | .dirtySectorEviction x n => if x = k then some n else none
    | _ => none)

/-- The first event that enables a core's scheduler or its streams; none while its job is to stop (R404). -/
def State.runEvent (s : State) (k : Nat) (c : Core) : Option Event :=
  if c.job.stopping.isSome then none
  else
    (c.someSlot fun _ g => decide (g.status = .waiting) && c.wakes s.accs g).map (Event.groupWake k) <|>
    (if (c.entering s.pcc).isSome then c.sched.emptyPosition.map (Event.activeRefill k) else none) <|>
    (c.rotatesNow <|> c.rotates s.pcc).map (fun _ => Event.rotationTick k) <|>
    (c.somePort fun n _ => decide (s.peerBytes k n ≠ [])).map (Event.peerByteTransfer k) <|>
    (if (s.sendable c.treadle).isSome then some (.demandSend k) else none)

/-- The first event that a core's state enables before the turns. -/
def State.coreEvent (s : State) (k : Nat) (c : Core) : Option Event :=
  (c.matrix.bankTrigger s.pcc).map (fun (a : Nat × Nat) => Event.commandWindowReplay k ⟨.bank a.1 a.2, false⟩) <|>
  (c.matrix.popTrigger s.pcc).map (fun (x : ReplaySite) => Event.commandWindowReplay k ⟨x, false⟩) <|>
  s.runEvent k c <|>
  (if c.job.arriving.any (fun a => c.committed a.1) then some (.phaseArrival k) else none) <|>
  (c.somePort fun _ p => decide (p.status = .closing) && p.drained).map (Event.portUnbindComplete k) <|>
  (c.someSlot fun _ g => g.v.clears).map (Event.vectorBusyClear k) <|>
  (c.rc.find? fun e => c.retires e).map (fun e => Event.rangeEntryRetire k e.order) <|>
  (if c.matrix.treadleRun && decide (c.treadle.tstate.toNat % 8 = 4) && c.matrix.quiet && c.matrix.replay.isNone && decide (c.treadle.endAt ≤ s.pcc) then
    some (.treadleRunEnd k) else none) <|>
  (s.leavingLine k c).map (Event.l1LineReplacement k) <|>
  (if s.enginesHalted k || s.mayEnd k then some (.jobEnd k) else none)

/-- The first event that a die's task queues and former enable (R277, R279). -/
def State.dieEvent (s : State) (k : Nat) (d : Die) : Option Event :=
  let free := decide (d.former.pathFree ≤ s.pcc)
  ((d.queues.find? fun (q : Nat × TaskQueue) => q.2.spills).map fun q => Event.taskQueueSpill k q.1) <|>
  ((d.queues.find? fun (q : Nat × TaskQueue) => free && q.2.refills).map fun q => Event.taskQueueRefill k q.1) <|>
  (if s.pcc < d.former.nextSel then none
   else d.nextQueue.map fun q =>
     let t := s.taskQueue k q
     if t.headSince + formerTimeoutOf (s.launch t.launch).packet ≤ s.pcc then .formerTimeout k q else .formerSelection k)

/-- The event that a core's state enables after the turns: a row popped as it issues in this cycle reads poison (R237), a poisoned
accumulator element is read (R244), a group leaves (R263), a slot of a treadle run starts or is
missed (R317). -/
def State.coreEventAfter (s : State) (k : Nat) (c : Core) : Option Event :=
  (c.matrix.popTrigger s.pcc).map (fun (x : ReplaySite) => Event.commandWindowReplay k ⟨x, false⟩) <|>
  (c.matrix.accTrigger s.pcc).map (fun (a : Nat × Nat) => Event.commandWindowReplay k ⟨.acc a.1 a.2, false⟩) <|>
  if c.job.stopping.isSome then none else
  ((c.groups.find? fun (g : Nat × Group) => (s.swapWait k g.1).isSome).map fun (g : Nat × Group) => Event.swapTrigger k g.1) <|>
  (let t := c.treadle
   let live := c.matrix.treadleRun && c.matrix.replay.isNone && decide (t.tstate.toNat % 8 < 4)
   if live && ((c.slotStartAt s.pcc && decide (t.slot < s.pcc)) || (t.due && t.roomy)) then some (.treadleSlotStart k) else none)

/-- The event that a launch's state enables before the turns: the stop of its jobs (R404), a boundary (R174), its
completion (R349). -/
def State.launchEvent (s : State) (n : Nat) (l : Launch) : Option Event :=
  let ks := s.coresOf n
  (if l.stopReq.isSome && l.saved.isNone && !l.ended && decide (ks ≠ []) &&
      ((ks.any fun k => (s.core k).treadleStops s.pcc) || ks.all s.jobStopped) then some (.preempt n) else none) <|>
  (s.dueBoundary n l).map (fun (b : Nat × Nat) => Event.phaseBoundaryComplete n b.1 b.2) <|>
  (if s.launchOver n l then some (.launchCompletion n) else none)

/-- The event that the hub's or the fabric die's state enables: a reservation (R355), a released page (R402), an audit
(R421). -/
def State.packageEvent (s : State) : Option Event :=
  s.reserving.map Event.reservationStart <|>
  (if s.moult.pages ≠ [] && s.releasable then some .moultRelease else none) <|>
  ((List.range 6).find? fun k => decide (4096 ≤ (s.fabric.link k).sinceAudit)).map Event.auditFlitSend

/-! ### The order within a cycle -/

/-- The event that comes before the turns of the cycle. -/
def State.eventBefore (s : State) : Option Event :=
  (s.cores.findSome? fun (c : Nat × Core) => s.coreEvent c.1 c.2) <|>
  (s.dies.findSome? fun (d : Nat × Die) => s.dieEvent d.1 d.2) <|>
  (s.hub.launches.findSome? fun (l : Nat × Launch) => s.launchEvent l.1 l.2) <|>
  s.packageEvent

/-- The event that comes after the turns of the cycle. -/
def State.eventAfter (s : State) : Option Event := s.cores.findSome? fun (c : Nat × Core) => s.coreEventAfter c.1 c.2

/-- The job registers take the writes of the cycle, the highest rank last (R67). -/
def Core.landJobRegs (c : Core) : Core :=
  let l := sortBy (fun (a b : Nat × Nat × Word) => decide (a.1 ≤ b.1)) c.jpend
  { c with
    jpend := []
    j := l.foldl (fun (v : Vector Word 16) (w : Nat × Nat × Word) => v.set (w.2.1 % 16) w.2.2 (by omega)) c.j }

/-- Once the matrix stream is idle, the hold of its next table begins (R454). -/
def Core.beginTableHold (c : Core) (now : Nat) : Core :=
  if decide (c.fences.table ≠ 0) && c.matrix.idle then
    { c with fences := { c.fences with table := 0, tableTo := now + c.fences.table } }
  else c

/-- The end of a cycle in a core (R67, R102, R103, R233, R454); the writes of an exposed stream that is stopped are frozen (R405). -/
def Core.endCycle (c : Core) (now : Nat) : Core :=
  let c1 := { c.landJobRegs with spmOld := [] }
  let lands (g : Group) : Bool := !(c.job.stopping.isSome && g.v.exposed)
  let c2 := ((c1.groups.filter fun (g : Nat × Group) => lands g.2).map fun (g : Nat × Group) => g.1).foldl (fun (c : Core) n => c.landGroup n now) c1
  let c3 := c2.matrixCycle now
  (({ c3 with matrix := c3.matrix.reap }.requestHead).countVacant).beginTableHold now

/-- An exposed vector stream of a resumed job stays frozen, with its writes and the pipes, while its next word waits for its
translation (R405). -/
def State.thaw (s : State) (k slot : Nat) : State :=
  s.at ⟨k, slot, .vector⟩ fun s =>
    match s.fetch s.curKey s.curCtx s.grp.v.pc with
    | .miss =>
      (s.startWalk s.grp.v.pc true).1.modHere fun c =>
        let p := c.pipes
        { c.modGroup slot fun g => { g with v := { g.v with
            writes := g.v.writes.map fun w => { w with land := w.land + 1 }, nextIssue := g.v.nextIssue + 1 } } with
          pipes := ⟨p.fa + 1, p.fb + 1, p.ix + 1, p.sx + 1, p.cx + 1, p.px + 1, p.mx + 1⟩ }
    | _ => s.modV fun v => { v with frozen := false }

/-- The frozen streams of the package. -/
def State.thawAll (s : State) : State :=
  (s.cores.flatMap fun (c : Nat × Core) =>
      (c.2.groups.filter fun (g : Nat × Group) => g.2.v.frozen && c.2.job.stopping.isNone).map fun (g : Nat × Group) => (c.1, g.1)).foldl
    (fun (s : State) (x : Nat × Nat) => s.thaw x.1 x.2) s

/-- The end of a cycle; the errors that strike in it are detected (R445). -/
def State.endCycle (s0 : State) : State :=
  let s := s0.struck.releaseSpares.thawAll
  let s1 := { s with cores := s.cores.mapVal fun _ (c : Core) => c.endCycle s.pcc }
  let s2 := (s1.cores.map fun (c : Nat × Core) => c.1).foldl (fun (s : State) k => s.serveBlocks k) s1
  { s2.noteDrained with todo := [], pcc := s.pcc + 1, net := s2.net.reap s.pcc }

/-- The turns, with the events before and after them. -/
def State.planTurns (s : State) : Act × State :=
  match s.todo with
  | [] =>
    match s.eventBefore with
    | some e => (.event e, s)
    | none => (.idle, { s with todo := s.turns ++ [turnsEnd] })
  | f :: rest =>
    if f = turnsEnd then
      match s.eventAfter with
      | some e => (.event e, s)
      | none => (.idle, s.endCycle)
    else { s with cur := f, todo := rest }.turn

/-- An event that is due goes first. -/
def State.planAgenda (s : State) : Act × State :=
  match s.agenda with
  | (t, e) :: rest => if t ≤ s.pcc then (.event e, { s with agenda := rest }) else s.planTurns
  | [] => s.planTurns

/-- What the next step does: what comes from outside in this cycle goes first of all. -/
def State.plan (s : State) : Act × State :=
  match s.inputs with
  | (t, e) :: rest => if t ≤ s.pcc then (.event e, { s with inputs := rest }) else s.planAgenda
  | [] => s.planAgenda

end Sys2Proof.Machine
end

