-- ==== Sys2Proof/Machine/Dispatch.lean ====
section
/-! DEFINITION. The meaning of each constructor of Instr: one arm each. -/

namespace Sys2Proof.Machine

def exec (i : Instr) (s : State) : Host.Outcome State Fault Refusal :=
  match i with
  | .add d a b _ => Sys2Proof.Machine.execAdd d a b s
  | .sub d a b _ => Sys2Proof.Machine.execSub d a b s
  | .and d a b _ => Sys2Proof.Machine.execAnd d a b s
  | .or d a b _ => Sys2Proof.Machine.execOr d a b s
  | .xor d a b _ => Sys2Proof.Machine.execXor d a b s
  | .andn d a b _ => Sys2Proof.Machine.execAndn d a b s
  | .sll d a b _ => Sys2Proof.Machine.execSll d a b s
  | .srl d a b _ => Sys2Proof.Machine.execSrl d a b s
  | .sra d a b _ => Sys2Proof.Machine.execSra d a b s
  | .rotr d a b _ => Sys2Proof.Machine.execRotr d a b s
  | .slt d a b _ => Sys2Proof.Machine.execSlt d a b s
  | .sltu d a b _ => Sys2Proof.Machine.execSltu d a b s
  | .min d a b _ => Sys2Proof.Machine.execMin d a b s
  | .max d a b _ => Sys2Proof.Machine.execMax d a b s
  | .minu d a b _ => Sys2Proof.Machine.execMinu d a b s
  | .maxu d a b _ => Sys2Proof.Machine.execMaxu d a b s
  | .mul d a b _ => Sys2Proof.Machine.execMul d a b s
  | .mulh d a b _ => Sys2Proof.Machine.execMulh d a b s
  | .mulhu d a b _ => Sys2Proof.Machine.execMulhu d a b s
  | .div d a b _ => Sys2Proof.Machine.execDiv d a b s
  | .divu d a b _ => Sys2Proof.Machine.execDivu d a b s
  | .rem d a b _ => Sys2Proof.Machine.execRem d a b s
  | .remu d a b _ => Sys2Proof.Machine.execRemu d a b s
  | .addw d a b _ => Sys2Proof.Machine.execAddw d a b s
  | .subw d a b _ => Sys2Proof.Machine.execSubw d a b s
  | .mulw d a b _ => Sys2Proof.Machine.execMulw d a b s
  | .sllw d a b _ => Sys2Proof.Machine.execSllw d a b s
  | .srlw d a b _ => Sys2Proof.Machine.execSrlw d a b s
  | .sraw d a b _ => Sys2Proof.Machine.execSraw d a b s
  | .clz d a _ => Sys2Proof.Machine.execClz d a s
  | .ctz d a _ => Sys2Proof.Machine.execCtz d a s
  | .popc d a _ => Sys2Proof.Machine.execPopc d a s
  | .bswap d a _ => Sys2Proof.Machine.execBswap d a s
  | .sel d a b _ => Sys2Proof.Machine.execSel d a b s
  | .fadd d a b t _ => Sys2Proof.Machine.execFadd d a b t s
  | .fsub d a b t _ => Sys2Proof.Machine.execFsub d a b t s
  | .fmul d a b t _ => Sys2Proof.Machine.execFmul d a b t s
  | .fdiv d a b t _ => Sys2Proof.Machine.execFdiv d a b t s
  | .fsqrt d a t _ => Sys2Proof.Machine.execFsqrt d a t s
  | .fmin d a b t _ => Sys2Proof.Machine.execFmin d a b t s
  | .fmax d a b t _ => Sys2Proof.Machine.execFmax d a b t s
  | .fmac d a b t _ => Sys2Proof.Machine.execFmac d a b t s
  | .feq d a b t _ => Sys2Proof.Machine.execFeq d a b t s
  | .flt d a b t _ => Sys2Proof.Machine.execFlt d a b t s
  | .fle d a b t _ => Sys2Proof.Machine.execFle d a b t s
  | .fcvt d a t _ => Sys2Proof.Machine.execFcvt d a t s
  | .ftoi d a t _ => Sys2Proof.Machine.execFtoi d a t s
  | .ftou d a t _ => Sys2Proof.Machine.execFtou d a t s
  | .itof d a t _ => Sys2Proof.Machine.execItof d a t s
  | .utof d a t _ => Sys2Proof.Machine.execUtof d a t s
  | .fabs d a t _ => Sys2Proof.Machine.execFabs d a t s
  | .fneg d a t _ => Sys2Proof.Machine.execFneg d a t s
  | .jalr d a _ => Sys2Proof.Machine.execJalr d a s
  | .jget d a _ => Sys2Proof.Machine.execJget d a s
  | .jset d a _ => Sys2Proof.Machine.execJset d a s
  | .addi d a imm => Sys2Proof.Machine.execAddi d a imm s
  | .andi d a imm => Sys2Proof.Machine.execAndi d a imm s
  | .ori d a imm => Sys2Proof.Machine.execOri d a imm s
  | .xori d a imm => Sys2Proof.Machine.execXori d a imm s
  | .slti d a imm => Sys2Proof.Machine.execSlti d a imm s
  | .sltiu d a imm => Sys2Proof.Machine.execSltiu d a imm s
  | .slli d a n => Sys2Proof.Machine.execSlli d a n s
  | .srli d a n => Sys2Proof.Machine.execSrli d a n s
  | .srai d a n => Sys2Proof.Machine.execSrai d a n s
  | .bfx d a p l => Sys2Proof.Machine.execBfx d a p l s
  | .bfxS d a p l => Sys2Proof.Machine.execBfxS d a p l s
  | .bfi d a p l => Sys2Proof.Machine.execBfi d a p l s
  | .li d imm => Sys2Proof.Machine.execLi d imm s
  | .lih d imm => Sys2Proof.Machine.execLih d imm s
  | .adpc d imm => Sys2Proof.Machine.execAdpc d imm s
  | .ld d a sz c o => Sys2Proof.Machine.execLd d a sz c o s
  | .ldu d a sz c o => Sys2Proof.Machine.execLdu d a sz c o s
  | .st d a sz c o => Sys2Proof.Machine.execSt d a sz c o s
  | .lds d a sz o => Sys2Proof.Machine.execLds d a sz o s
  | .ldsu d a sz o => Sys2Proof.Machine.execLdsu d a sz o s
  | .sts d a sz o => Sys2Proof.Machine.execSts d a sz o s
  | .ldq d a sz c o => Sys2Proof.Machine.execLdq d a sz c o s
  | .amoAdd d a b sz c => Sys2Proof.Machine.execAmoAdd d a b sz c s
  | .amoAnd d a b sz c => Sys2Proof.Machine.execAmoAnd d a b sz c s
  | .amoOr d a b sz c => Sys2Proof.Machine.execAmoOr d a b sz c s
  | .amoXor d a b sz c => Sys2Proof.Machine.execAmoXor d a b sz c s
  | .amoMin d a b sz c => Sys2Proof.Machine.execAmoMin d a b sz c s
  | .amoMax d a b sz c => Sys2Proof.Machine.execAmoMax d a b sz c s
  | .amoSwap d a b sz c => Sys2Proof.Machine.execAmoSwap d a b sz c s
  | .amoCas d a b sz c => Sys2Proof.Machine.execAmoCas d a b sz c s
  | .amoFadd d a b sz c => Sys2Proof.Machine.execAmoFadd d a b sz c s
  | .amoFmin d a b sz c => Sys2Proof.Machine.execAmoFmin d a b sz c s
  | .amoFmax d a b sz c => Sys2Proof.Machine.execAmoFmax d a b sz c s
  | .beq a b o => Sys2Proof.Machine.execBeq a b o s
  | .bne a b o => Sys2Proof.Machine.execBne a b o s
  | .blt a b o => Sys2Proof.Machine.execBlt a b o s
  | .bge a b o => Sys2Proof.Machine.execBge a b o s
  | .bltu a b o => Sys2Proof.Machine.execBltu a b o s
  | .bgeu a b o => Sys2Proof.Machine.execBgeu a b o s
  | .j o => Sys2Proof.Machine.execJ o s
  | .jal o => Sys2Proof.Machine.execJal o s
  | .land => Sys2Proof.Machine.execLand s
  | .cwaitCont n a o => Sys2Proof.Machine.execCwaitCont n a o s
  | .vrun a b _ => Sys2Proof.Machine.execVrun a b s
  | .vwait d _ => Sys2Proof.Machine.execVwait d s
  | .mrun a _ => Sys2Proof.Machine.execMrun a s
  | .mwait d _ => Sys2Proof.Machine.execMwait d s
  | .mstop _ => Sys2Proof.Machine.execMstop s
  | .crun a b u _ => Sys2Proof.Machine.execCrun a b u s
  | .cwait a u _ => Sys2Proof.Machine.execCwait a u s
  | .erun d a b _ => Sys2Proof.Machine.execErun d a b s
  | .fmtq a _ => Sys2Proof.Machine.execFmtq a s
  | .trdl a _ => Sys2Proof.Machine.execTrdl a s
  | .stitch d _ => Sys2Proof.Machine.execStitch d s
  | .bind a b _ => Sys2Proof.Machine.execBind a b s
  | .unbind b _ => Sys2Proof.Machine.execUnbind b s
  | .qdepth d b _ => Sys2Proof.Machine.execQdepth d b s
  | .rbacqW d a _ => Sys2Proof.Machine.execRbacqW d a s
  | .rbacqT d a _ => Sys2Proof.Machine.execRbacqT d a s
  | .rbrel a _ => Sys2Proof.Machine.execRbrel a s
  | .tqpush d a b _ => Sys2Proof.Machine.execTqpush d a b s
  | .launch d a b _ => Sys2Proof.Machine.execLaunch d a b s
  | .csrr d num => Sys2Proof.Machine.execCsrr d num s
  | .csrw d a num => Sys2Proof.Machine.execCsrw d a num s
  | .csrs d a num => Sys2Proof.Machine.execCsrs d a num s
  | .csrc d a num => Sys2Proof.Machine.execCsrc d a num s
  | .phase l => Sys2Proof.Machine.execPhase l s
  | .phaseE l => Sys2Proof.Machine.execPhaseE l s
  | .fence m => Sys2Proof.Machine.execFence m s
  | .flush => Sys2Proof.Machine.execFlush s
  | .join => Sys2Proof.Machine.execJoin s
  | .yield => Sys2Proof.Machine.execYield s
  | .trap c => Sys2Proof.Machine.execTrap c s
  | .eret => Sys2Proof.Machine.execEret s
  | .icinv a scope => Sys2Proof.Machine.execIcinv a scope s
  | .tlbinv a scope => Sys2Proof.Machine.execTlbinv a scope s
  | .moult a => Sys2Proof.Machine.execMoult a s
  | .qread d w => Sys2Proof.Machine.execQread d w s
  | .rdpcc d => Sys2Proof.Machine.execRdpcc d s
  | .halt => Sys2Proof.Machine.execHalt s
  | .nop _ => Sys2Proof.Machine.execNop s
  | .clevCount l v => Sys2Proof.Machine.execClevCount l v s
  | .clevSs l v => Sys2Proof.Machine.execClevSs l v s
  | .clevDs l v => Sys2Proof.Machine.execClevDs l v s
  | .clevJs l sj d => Sys2Proof.Machine.execClevJs l sj d s
  | .cbase b j o => Sys2Proof.Machine.execCbase b j o s
  | .ccopy src dst r e l => Sys2Proof.Machine.execCcopy src dst r e l s
  | .ccopyTolns src dst r e l => Sys2Proof.Machine.execCcopyTolns src dst r e l s
  | .ccopyTolin src dst r e l => Sys2Proof.Machine.execCcopyTolin src dst r e l s
  | .cfill dst r w l j => Sys2Proof.Machine.execCfill dst r w l j s
  | .csig b c v => Sys2Proof.Machine.execCsig b c v s
  | .cend => Sys2Proof.Machine.execCend s
  | .cnop => Sys2Proof.Machine.execCnop s
  | .mldw b j o => Sys2Proof.Machine.execMldw b j o s
  | .mswap => Sys2Proof.Machine.execMswap s
  | .mma t a sp m x k p => Sys2Proof.Machine.execMma t a sp m x k p s
  | .mstamp d => Sys2Proof.Machine.execMstamp d s
  | .mdrainPort t p => Sys2Proof.Machine.execMdrainPort t p s
  | .mdrainSpm t j o => Sys2Proof.Machine.execMdrainSpm t j o s
  | .mzero t => Sys2Proof.Machine.execMzero t s
  | .mmark => Sys2Proof.Machine.execMmark s
  | .mseg c => Sys2Proof.Machine.execMseg c s
  | .mtreadle p r b n => Sys2Proof.Machine.execMtreadle p r b n s
  | .mtend => Sys2Proof.Machine.execMtend s
  | .mflags m => Sys2Proof.Machine.execMflags m s
  | .mnop => Sys2Proof.Machine.execMnop s
  | .vaddFp d a b f k g => Sys2Proof.Machine.execVaddFp d a b f k g s
  | .vsubFp d a b f k g => Sys2Proof.Machine.execVsubFp d a b f k g s
  | .vmulFp d a b f k g => Sys2Proof.Machine.execVmulFp d a b f k g s
  | .vfma d a b f k g => Sys2Proof.Machine.execVfma d a b f k g s
  | .vfnma d a b f k g => Sys2Proof.Machine.execVfnma d a b f k g s
  | .vminFp d a b f k g => Sys2Proof.Machine.execVminFp d a b f k g s
  | .vmaxFp d a b f k g => Sys2Proof.Machine.execVmaxFp d a b f k g s
  | .vdivFp d a b f k g => Sys2Proof.Machine.execVdivFp d a b f k g s
  | .vsqrt d a f k g => Sys2Proof.Machine.execVsqrt d a f k g s
  | .vabs d a f k g => Sys2Proof.Machine.execVabs d a f k g s
  | .vneg d a f k g => Sys2Proof.Machine.execVneg d a f k g s
  | .vrcp d a f k g => Sys2Proof.Machine.execVrcp d a f k g s
  | .vrsq d a f k g => Sys2Proof.Machine.execVrsq d a f k g s
  | .vexp2 d a f k g => Sys2Proof.Machine.execVexp2 d a f k g s
  | .vlog2 d a f k g => Sys2Proof.Machine.execVlog2 d a f k g s
  | .vaddInt d a b w k g => Sys2Proof.Machine.execVaddInt d a b w k g s
  | .vsubInt d a b w k g => Sys2Proof.Machine.execVsubInt d a b w k g s
  | .vmulInt d a b w k g => Sys2Proof.Machine.execVmulInt d a b w k g s
  | .vmulh d a b w k g => Sys2Proof.Machine.execVmulh d a b w k g s
  | .vmulhu d a b w k g => Sys2Proof.Machine.execVmulhu d a b w k g s
  | .vand d a b w k g => Sys2Proof.Machine.execVand d a b w k g s
  | .vor d a b w k g => Sys2Proof.Machine.execVor d a b w k g s
  | .vxor d a b w k g => Sys2Proof.Machine.execVxor d a b w k g s
  | .vsll d a b w k g => Sys2Proof.Machine.execVsll d a b w k g s
  | .vsrl d a b w k g => Sys2Proof.Machine.execVsrl d a b w k g s
  | .vsra d a b w k g => Sys2Proof.Machine.execVsra d a b w k g s
  | .vminInt d a b w k g => Sys2Proof.Machine.execVminInt d a b w k g s
  | .vmaxInt d a b w k g => Sys2Proof.Machine.execVmaxInt d a b w k g s
  | .vminu d a b w k g => Sys2Proof.Machine.execVminu d a b w k g s
  | .vmaxu d a b w k g => Sys2Proof.Machine.execVmaxu d a b w k g s
  | .vadds d a b w k g => Sys2Proof.Machine.execVadds d a b w k g s
  | .vsubs d a b w k g => Sys2Proof.Machine.execVsubs d a b w k g s
  | .vaddsu d a b w k g => Sys2Proof.Machine.execVaddsu d a b w k g s
  | .vsubsu d a b w k g => Sys2Proof.Machine.execVsubsu d a b w k g s
  | .vdivInt d a b w k g => Sys2Proof.Machine.execVdivInt d a b w k g s
  | .vdivu d a b w k g => Sys2Proof.Machine.execVdivu d a b w k g s
  | .vrem d a b w k g => Sys2Proof.Machine.execVrem d a b w k g s
  | .vremu d a b w k g => Sys2Proof.Machine.execVremu d a b w k g s
  | .vaddi d a imm g => Sys2Proof.Machine.execVaddi d a imm g s
  | .vandi d a imm g => Sys2Proof.Machine.execVandi d a imm g s
  | .vori d a imm g => Sys2Proof.Machine.execVori d a imm g s
  | .vxori d a imm g => Sys2Proof.Machine.execVxori d a imm g s
  | .vslli d a n g => Sys2Proof.Machine.execVslli d a n g s
  | .vsrli d a n g => Sys2Proof.Machine.execVsrli d a n g s
  | .vsrai d a n g => Sys2Proof.Machine.execVsrai d a n g s
  | .vmovi d imm g => Sys2Proof.Machine.execVmovi d imm g s
  | .vceqFp a b f k g => Sys2Proof.Machine.execVceqFp a b f k g s
  | .vcltFp a b f k g => Sys2Proof.Machine.execVcltFp a b f k g s
  | .vcleFp a b f k g => Sys2Proof.Machine.execVcleFp a b f k g s
  | .vcneFp a b f k g => Sys2Proof.Machine.execVcneFp a b f k g s
  | .vceqInt a b w k g => Sys2Proof.Machine.execVceqInt a b w k g s
  | .vcneInt a b w k g => Sys2Proof.Machine.execVcneInt a b w k g s
  | .vcltInt a b w k g => Sys2Proof.Machine.execVcltInt a b w k g s
  | .vcltu a b w k g => Sys2Proof.Machine.execVcltu a b w k g s
  | .vcleInt a b w k g => Sys2Proof.Machine.execVcleInt a b w k g s
  | .vcleu a b w k g => Sys2Proof.Machine.execVcleu a b w k g s
  | .vceqi a imm g => Sys2Proof.Machine.execVceqi a imm g s
  | .vtst a b w k g => Sys2Proof.Machine.execVtst a b w k g s
  | .vplog t a b => Sys2Proof.Machine.execVplog t a b s
  | .vplogR t a b d => Sys2Proof.Machine.execVplogR t a b d s
  | .vpdrop n => Sys2Proof.Machine.execVpdrop n s
  | .vppick x => Sys2Proof.Machine.execVppick x s
  | .vppickV x p => Sys2Proof.Machine.execVppickV x p s
  | .vsel d a b k inv p => Sys2Proof.Machine.execVsel d a b k inv p s
  | .vmov d a k g => Sys2Proof.Machine.execVmov d a k g s
  | .vperm d a b m k g => Sys2Proof.Machine.execVperm d a b m k g s
  | .vshuf d a b w k g => Sys2Proof.Machine.execVshuf d a b w k g s
  | .vslide d a w n g => Sys2Proof.Machine.execVslide d a w n g s
  | .vrot d a w n g => Sys2Proof.Machine.execVrot d a w n g s
  | .vmatch d a b f k g => Sys2Proof.Machine.execVmatch d a b f k g s
  | .vredaddFp d a f k g => Sys2Proof.Machine.execVredaddFp d a f k g s
  | .vredmin d a f k g => Sys2Proof.Machine.execVredmin d a f k g s
  | .vredmax d a f k g => Sys2Proof.Machine.execVredmax d a f k g s
  | .vredaddInt d a w k g => Sys2Proof.Machine.execVredaddInt d a w k g s
  | .vscanFp d a f k g => Sys2Proof.Machine.execVscanFp d a f k g s
  | .vscanInt d a w k g => Sys2Proof.Machine.execVscanInt d a w k g s
  | .vpfirst inv p => Sys2Proof.Machine.execVpfirst inv p s
  | .vxs a r w c => Sys2Proof.Machine.execVxs a r w c s
  | .vcvtF32F64 d a r k g => Sys2Proof.Machine.execVcvtF32F64 d a r k g s
  | .vcvtF64F32 d a k g => Sys2Proof.Machine.execVcvtF64F32 d a k g s
  | .vcvtF16F32 d a r k g => Sys2Proof.Machine.execVcvtF16F32 d a r k g s
  | .vcvtF32F16 d a k g => Sys2Proof.Machine.execVcvtF32F16 d a k g s
  | .vcvtBf16F32 d a r k g => Sys2Proof.Machine.execVcvtBf16F32 d a r k g s
  | .vcvtF32Bf16 d a k g => Sys2Proof.Machine.execVcvtF32Bf16 d a k g s
  | .vcvtI32F32 d a r k g => Sys2Proof.Machine.execVcvtI32F32 d a r k g s
  | .vcvtF32I32 d a r k g => Sys2Proof.Machine.execVcvtF32I32 d a r k g s
  | .vcvtN32F32 d a r k g => Sys2Proof.Machine.execVcvtN32F32 d a r k g s
  | .vcvtF32N32 d a r k g => Sys2Proof.Machine.execVcvtF32N32 d a r k g s
  | .vcvtI64F64 d a r k g => Sys2Proof.Machine.execVcvtI64F64 d a r k g s
  | .vcvtF64I64 d a r k g => Sys2Proof.Machine.execVcvtF64I64 d a r k g s
  | .vlcvt d a b f k g => Sys2Proof.Machine.execVlcvt d a b f k g s
  | .vlcvtM d a b f k g => Sys2Proof.Machine.execVlcvtM d a b f k g s
  | .vlexp d a b f k g => Sys2Proof.Machine.execVlexp d a b f k g s
  | .vcvtF64Lns d a f k g => Sys2Proof.Machine.execVcvtF64Lns d a f k g s
  | .vlmul d a b f k g => Sys2Proof.Machine.execVlmul d a b f k g s
  | .vlscl d a b f k g => Sys2Proof.Machine.execVlscl d a b f k g s
  | .vld d c n g => Sys2Proof.Machine.execVld d c n g s
  | .vst a c n k g => Sys2Proof.Machine.execVst a c n k g s
  | .vlds d n g => Sys2Proof.Machine.execVlds d n g s
  | .vsts a n k g => Sys2Proof.Machine.execVsts a n k g s
  | .vgath d c v wd g => Sys2Proof.Machine.execVgath d c v wd g s
  | .vscat a c v wd k g => Sys2Proof.Machine.execVscat a c v wd k g s
  | .vupdAdd a c n t k g => Sys2Proof.Machine.execVupdAdd a c n t k g s
  | .vupdMin a c n t k g => Sys2Proof.Machine.execVupdMin a c n t k g s
  | .vupdMax a c n t k g => Sys2Proof.Machine.execVupdMax a c n t k g s
  | .vupdAnd a c n t k g => Sys2Proof.Machine.execVupdAnd a c n t k g s
  | .vupdOr a c n t k g => Sys2Proof.Machine.execVupdOr a c n t k g s
  | .vupdXor a c n t k g => Sys2Proof.Machine.execVupdXor a c n t k g s
  | .vupdMinu a c n t k g => Sys2Proof.Machine.execVupdMinu a c n t k g s
  | .vupdMaxu a c n t k g => Sys2Proof.Machine.execVupdMaxu a c n t k g s
  | .vtqpush a b k g => Sys2Proof.Machine.execVtqpush a b k g s
  | .vamoAdd d a c v t k g => Sys2Proof.Machine.execVamoAdd d a c v t k g s
  | .vamoAnd d a c v t k g => Sys2Proof.Machine.execVamoAnd d a c v t k g s
  | .vamoOr d a c v t k g => Sys2Proof.Machine.execVamoOr d a c v t k g s
  | .vamoXor d a c v t k g => Sys2Proof.Machine.execVamoXor d a c v t k g s
  | .vamoMin d a c v t k g => Sys2Proof.Machine.execVamoMin d a c v t k g s
  | .vamoMax d a c v t k g => Sys2Proof.Machine.execVamoMax d a c v t k g s
  | .vamoSwap d a c v t k g => Sys2Proof.Machine.execVamoSwap d a c v t k g s
  | .vamoCas d a c v t k g => Sys2Proof.Machine.execVamoCas d a c v t k g s
  | .vshape r c => Sys2Proof.Machine.execVshape r c s
  | .vloop n o => Sys2Proof.Machine.execVloop n o s
  | .vjmp o => Sys2Proof.Machine.execVjmp o s
  | .vend => Sys2Proof.Machine.execVend s
  | .vseg c => Sys2Proof.Machine.execVseg c s
  | .vnop _ => Sys2Proof.Machine.execVnop s
  | .faultRecordWrite ctx => Sys2Proof.Machine.execFaultRecordWrite ctx s
  | .loadDataReturn id => Sys2Proof.Machine.execLoadDataReturn id s
  | .dataErrorArrival id err => Sys2Proof.Machine.execDataErrorArrival id err s
  | .accessPerformed id => Sys2Proof.Machine.execAccessPerformed id s
  | .storeAck id => Sys2Proof.Machine.execStoreAck id s
  | .storeErrorRecord id reason => Sys2Proof.Machine.execStoreErrorRecord id reason s
  | .commitMessage id => Sys2Proof.Machine.execCommitMessage id s
  | .commitAck id => Sys2Proof.Machine.execCommitAck id s
  | .dirtySectorEviction core sector => Sys2Proof.Machine.execDirtySectorEviction core sector s
  | .forcedCommit core sector => Sys2Proof.Machine.execForcedCommit core sector s
  | .tlbWalkComplete id => Sys2Proof.Machine.execTlbWalkComplete id s
  | .ldqDataArrival id => Sys2Proof.Machine.execLdqDataArrival id s
  | .vectorBusyClear core slot => Sys2Proof.Machine.execVectorBusyClear core slot s
  | .commandWindowReplay core trigger => Sys2Proof.Machine.execCommandWindowReplay core trigger s
  | .rangeEntryRetire core entry => Sys2Proof.Machine.execRangeEntryRetire core entry s
  | .clickerCopyStart core ch => Sys2Proof.Machine.execClickerCopyStart core ch s
  | .clickerCopyComplete core ch copy => Sys2Proof.Machine.execClickerCopyComplete core ch copy s
  | .csigResponse core ch err => Sys2Proof.Machine.execCsigResponse core ch err s
  | .clickerProgramComplete core ch => Sys2Proof.Machine.execClickerProgramComplete core ch s
  | .packetDelivery id => Sys2Proof.Machine.execPacketDelivery id s
  | .peerByteTransfer core port => Sys2Proof.Machine.execPeerByteTransfer core port s
  | .portUnbindComplete core port => Sys2Proof.Machine.execPortUnbindComplete core port s
  | .treadleSlotStart core => Sys2Proof.Machine.execTreadleSlotStart core s
  | .demandSend core => Sys2Proof.Machine.execDemandSend core s
  | .demandArrival core descriptor => Sys2Proof.Machine.execDemandArrival core descriptor s
  | .treadleRunEnd core => Sys2Proof.Machine.execTreadleRunEnd core s
  | .jobStart launch core => Sys2Proof.Machine.execJobStart launch core s
  | .jobEnd core => Sys2Proof.Machine.execJobEnd core s
  | .swapTrigger core slot => Sys2Proof.Machine.execSwapTrigger core slot s
  | .groupWake core slot => Sys2Proof.Machine.execGroupWake core slot s
  | .activeRefill core pos => Sys2Proof.Machine.execActiveRefill core pos s
  | .rotationTick core => Sys2Proof.Machine.execRotationTick core s
  | .blockTransfer core => Sys2Proof.Machine.execBlockTransfer core s
  | .phaseArrival core => Sys2Proof.Machine.execPhaseArrival core s
  | .phaseBoundaryComplete launch level domain => Sys2Proof.Machine.execPhaseBoundaryComplete launch level domain s
  | .fabricArrivalMessage msg => Sys2Proof.Machine.execFabricArrivalMessage msg s
  | .arrivalResend launch member => Sys2Proof.Machine.execArrivalResend launch member s
  | .taskPushAccept id => Sys2Proof.Machine.execTaskPushAccept id s
  | .taskQueueSpill die queue => Sys2Proof.Machine.execTaskQueueSpill die queue s
  | .taskQueueRefill die queue => Sys2Proof.Machine.execTaskQueueRefill die queue s
  | .formerSelection die => Sys2Proof.Machine.execFormerSelection die s
  | .formerTimeout die queue => Sys2Proof.Machine.execFormerTimeout die queue s
  | .formerGroupReady id => Sys2Proof.Machine.execFormerGroupReady id s
  | .qwidxWrite queue fn value => Sys2Proof.Machine.execQwidxWrite queue fn value s
  | .queueEnable queue fn value => Sys2Proof.Machine.execQueueEnable queue fn value s
  | .queueDisable queue fn value => Sys2Proof.Machine.execQueueDisable queue fn value s
  | .headPacketRead queue => Sys2Proof.Machine.execHeadPacketRead queue s
  | .signalReread queue signal => Sys2Proof.Machine.execSignalReread queue signal s
  | .selectionRound => Sys2Proof.Machine.execSelectionRound s
  | .reservationStart queue => Sys2Proof.Machine.execReservationStart queue s
  | .launchCompletion launch => Sys2Proof.Machine.execLaunchCompletion launch s
  | .msixUnmask fn vector => Sys2Proof.Machine.execMsixUnmask fn vector s
  | .codeObjectLoad req => Sys2Proof.Machine.execCodeObjectLoad req s
  | .demandPageVerify ctx va page => Sys2Proof.Machine.execDemandPageVerify ctx va page s
  | .codeIntegrityTermination launch => Sys2Proof.Machine.execCodeIntegrityTermination launch s
  | .slotPatch ctx va nameh value => Sys2Proof.Machine.execSlotPatch ctx va nameh value s
  | .preempt launch => Sys2Proof.Machine.execPreempt launch s
  | .resumeJob launch moves => Sys2Proof.Machine.execResumeJob launch moves s
  | .resumeGroup core slot rewrite => Sys2Proof.Machine.execResumeGroup core slot rewrite s
  | .killGroup core slot => Sys2Proof.Machine.execKillGroup core slot s
  | .killLaunch launch => Sys2Proof.Machine.execKillLaunch launch s
  | .killContext ctx => Sys2Proof.Machine.execKillContext ctx s
  | .moultRelease => Sys2Proof.Machine.execMoultRelease s
  | .remoteRequestArrival req => Sys2Proof.Machine.execRemoteRequestArrival req s
  | .replyArrival tag gen => Sys2Proof.Machine.execReplyArrival tag gen s
  | .requesterTimeout tag => Sys2Proof.Machine.execRequesterTimeout tag s
  | .tagRelease tag => Sys2Proof.Machine.execTagRelease tag s
  | .routerDiscard link => Sys2Proof.Machine.execRouterDiscard link s
  | .congestionNotice dest => Sys2Proof.Machine.execCongestionNotice dest s
  | .windowIncrease dest => Sys2Proof.Machine.execWindowIncrease dest s
  | .creditReturn link chan ret => Sys2Proof.Machine.execCreditReturn link chan ret s
  | .auditFlitSend link => Sys2Proof.Machine.execAuditFlitSend link s
  | .auditFlitReceive link sent => Sys2Proof.Machine.execAuditFlitReceive link sent s
  | .auditReturn link ret => Sys2Proof.Machine.execAuditReturn link ret s
  | .linkCrcRetry flit => Sys2Proof.Machine.execLinkCrcRetry flit s
  | .linkRetrain link trained => Sys2Proof.Machine.execLinkRetrain link trained s
  | .linkTraining link major minor => Sys2Proof.Machine.execLinkTraining link major minor s
  | .portDead link => Sys2Proof.Machine.execPortDead link s
  | .hostBar2Read fn offset len => Sys2Proof.Machine.execHostBar2Read fn offset len s
  | .hostBar2Write fn offset data => Sys2Proof.Machine.execHostBar2Write fn offset data s
  | .hostAtomicRequest fn offset => Sys2Proof.Machine.execHostAtomicRequest fn offset s
  | .atsInvalidation ctx page => Sys2Proof.Machine.execAtsInvalidation ctx page s
  | .ideIntegrityFail fn => Sys2Proof.Machine.execIdeIntegrityFail fn s
  | .ideRekey fn => Sys2Proof.Machine.execIdeRekey fn s
  | .attestationRequest nonce => Sys2Proof.Machine.execAttestationRequest nonce s
  | .hostRestartRequest env => Sys2Proof.Machine.execHostRestartRequest env s
  | .registerWrite w => Sys2Proof.Machine.execRegisterWrite w s
  | .selfTestComplete unit passed => Sys2Proof.Machine.execSelfTestComplete unit passed s
  | .spareSubstitution core spare => Sys2Proof.Machine.execSpareSubstitution core spare s
  | .controlCoreReset n => Sys2Proof.Machine.execControlCoreReset n s
  | .controlDieLoss modified => Sys2Proof.Machine.execControlDieLoss modified s
  | .controlDieRestart success => Sys2Proof.Machine.execControlDieRestart success s
  | .heartbeatMiss die => Sys2Proof.Machine.execHeartbeatMiss die s
  | .dieIsolation die => Sys2Proof.Machine.execDieIsolation die s
  | .dieRecovery die passed table => Sys2Proof.Machine.execDieRecovery die passed table s
  | .fabricDieLoss => Sys2Proof.Machine.execFabricDieLoss s
  | .deviceReset env => Sys2Proof.Machine.execDeviceReset env s
  | .bootStageTimeout => Sys2Proof.Machine.execBootStageTimeout s
  | .securityAlarm trigger => Sys2Proof.Machine.execSecurityAlarm trigger s
  | .alarmEscalation => Sys2Proof.Machine.execAlarmEscalation s
  | .debugUnlockAttempt success => Sys2Proof.Machine.execDebugUnlockAttempt success s
  | .powerWindow watts capped => Sys2Proof.Machine.execPowerWindow watts capped s
  | .functionReset fn => Sys2Proof.Machine.execFunctionReset fn s
  | .codeObjectUnload ctx va => Sys2Proof.Machine.execCodeObjectUnload ctx va s
  | .vendorEnrolment helper signedOk => Sys2Proof.Machine.execVendorEnrolment helper signedOk s
  | .hostCompletionArrival id data => Sys2Proof.Machine.execHostCompletionArrival id data s
  | .pageRequestResponse id granted => Sys2Proof.Machine.execPageRequestResponse id granted s
  | .l1LineReplacement core line => Sys2Proof.Machine.execL1LineReplacement core line s
  | .hostLinkTraining fns => Sys2Proof.Machine.execHostLinkTraining fns s

end Sys2Proof.Machine
end

