-- ==== Sys2Proof/Machine/Entry.lean ====
section
/-! DEFINITION. A word placed where the next step fetches it. At reset no core has a job, so no stream runs (R66, R256);
a word that is placed for the next step needs a job, a group and, for an engine's word, a table that runs (log 4). -/

namespace Sys2Proof.Machine

/-- The kind of stream that a placed word runs in: the first kind whose decoder takes it. -/
noncomputable def kindOfWord (w : Nat) : WordKind :=
  if (decodeOk .scalar w).isSome then .scalar
  else if (decodeOk .vector w).isSome then .vector
  else if (decodeOk .matrix w).isSome then .matrix
  else if (decodeOk .clicker w).isSome then .clicker
  else .scalar

/-- A core whose job has one group, ACTIVE in slot 0 at pc 0, with the page at 0 mapped for fetch. -/
def Core.placed : Core :=
  { Core.empty with
    job := { JobInfo.blank with slots := 1, launchGroups := 1, seqNext := 1 }
    groups := [(0, { Group.empty with status := .active, blocks := [(0, .pool 0)] })]
    sched := Sched.reset.setPosition 0 0
    mem := { CoreMem.reset with tlb := [⟨0, 0, 0, 0, 2⟩] } }

/-- The same with an engine at the word after a header at address 0, in an interlocked table of two words. -/
def Core.placedIn (w : BitVec 32) : WordKind → Core
  | .scalar => Core.placed
  | .vector => Core.placed.modGroup 0 fun g => { g with v := { VStream.idle with busy := true, length := 2, pc := 4 } }
  | .matrix =>
    { Core.placed with matrix := { Matrix.reset with
        run := some { owner := 0, header := 0, length := 2, exposed := false, treadle := false, pc := 4, first := 0,
                      started := false, seg := none, ended := false, trapped := false } } }
  | .clicker => Core.placed.modChan 0 fun h => { h with run := some { CRun.blank 0 0 [w, 0] (Vector.replicate 16 0) 0 0 with startFree := 0 } }

/-- The stream of a kind in the placed core. -/
def placedStream : WordKind → Stream
  | .scalar => .group
  | .vector => .vector
  | .matrix => .matrix
  | .clicker => .chan 0

/-- Writes the placed word and eight bytes of zeros after it. -/
def State.placeWord (s : State) (a w : Nat) : State :=
  { s with
    mem := Memory.writeN (Memory.writeN s.mem a 4 w) (a + 4) 8 0
    poison := s.poison.del 0 }

/-- The machine with a word placed for the next step. -/
noncomputable def State.withWord (s : State) (w : Nat) : State :=
  let k := kindOfWord w
  let s1 := s.placeWord (if k = .scalar then 0 else 4) w
  { s1 with
    cores := s1.cores.set 0 (Core.placedIn (BitVec.ofNat 32 w) k)
    inputs := [], agenda := []
    todo := [⟨0, 0, placedStream k⟩, turnsEnd] }

end Sys2Proof.Machine
end

