-- ==== Sys2Proof/Machine/Step.lean ====
section
/-! DEFINITION. The step of the machine, and a word placed for the next step. -/

namespace Sys2Proof.Machine

/-- One step: an event takes place, a stream executes a word or raises the trap that the word draws (R45, R46, R72), or
the cycle goes on. -/
noncomputable def step (s : State) : Host.Outcome State Fault Refusal :=
  match s.plan with
  | (.idle, t) => .next t
  | (.event e, t) => exec e.toInstr t
  | (.raised r, t) => goOnAfter t (trapWith t r)
  | (.block, t) => goOnAfter t (runBlock t)
  | (.word k w, t) =>
    match decode k w.toNat with
    | .ok i => goOnAfter t (exec i t)
    | .illegalEncoding => goOnAfter t (trap t causeEncoding)
    | .illegalOperand => goOnAfter t (refuseUnit t)

/-- The machine with an instruction placed where the next step fetches it (log 4). Every word of the table has 32 bits;
what stands above them is 0. -/
noncomputable def State.withFetchWord (s : State) (nbits w : Nat) : State := s.withWord (w % pow2 (min nbits 32))

end Sys2Proof.Machine
end

