-- ==== Sys2Proof/Safety.lean ====
section
/-! DEFINITION. The terms that claims use: a safe step, an instruction that completes, and what a finished scalar
instruction leaves as it was. -/

namespace Sys2Proof.Machine

/-- The step answers a next state. -/
def State.safe (s : State) : Prop := ∃ t, step s = .next t

/-- The instruction completes in a state: exec answers a next state, of which P holds. -/
def Completes (i : Instr) (s : State) (P : State → Prop) : Prop := ∃ t, exec i s = .next t ∧ P t

/-- A scalar word may take its effect: its stream is one that the form is accepted on, and the registers it reads hold no
poison, in neither of a twin group's files (R45, R77, R448). On the eft stream the register fields name e0 to e15 (R54). -/
def Admits (s : State) (onGroup onEft onControl : Bool) (fields reads : List (BitVec 5)) : Prop :=
  (s.cur.stream = .group ∧ onGroup = true ∨ s.cur.stream = .eft ∧ onEft = true ∨ s.cur.stream = .control ∧ onControl = true) ∧
  (s.cur.stream = .eft → ∀ n ∈ fields, n.toNat < 16) ∧
  (∀ n ∈ reads, n.toNat ∉ s.rf.poison ∧ ∀ r, s.scalar.twin = some r → n.toNat ∉ r.poison)

/-- Nothing of the machine changes but the step's scalar stream, whose wait, if it had one, has ended. -/
def OnlyScalar (s t : State) : Prop :=
  t = (s.modScalar fun _ => t.scalar).clearHold ∧ ∀ a, Memory.read t.mem a = Memory.read s.mem a

/-- A register file after a write of d with flag bits raised: register 0 takes no write, and every other register, the
rounding mode, LSAT and AMAX are as they were. -/
def FileWrote (r r' : RegFile) (d : BitVec 5) (v : Word × Nat) : Prop :=
  (∀ n, r'.get n = if n = d ∧ d ≠ 0 then v.1 else r.get n) ∧
  r'.flags = r.flags ||| BitVec.ofNat 32 v.2 ∧ r'.rmode = r.rmode ∧ r'.lsat = r.lsat ∧ r'.amax = r.amax

/-- What a finished scalar instruction leaves: d takes the value that each register file gives it (a twin group's two files
each their own, R283), the bits it raises are set in FLAGS, the next word is at pc + 4 and may issue from the next cycle, and
nothing else of the machine changes. A dependent instruction may issue once the latency is over (R99). -/
def ScalarWrote (s t : State) (d : BitVec 5) (lat : Nat) (f : RegFile → Word × Nat) : Prop :=
  OnlyScalar s t ∧ FileWrote s.rf t.rf d (f s.rf) ∧
  (s.scalar.twin = none → t.scalar.twin = none) ∧
  (∀ r, s.scalar.twin = some r → ∃ r', t.scalar.twin = some r' ∧ FileWrote r r' d (f r)) ∧
  t.scalar.shape = s.scalar.shape ∧ t.scalar.pc = s.scalar.pc + 4 ∧ t.scalar.nextIssue = s.pcc + 1 ∧
  (d ≠ 0 → t.scalar.ready.get d.toNat = some (s.pcc + lat))

/-- A form of the scalar streams that writes x[d] := f and has no other effect. -/
def WritesForm (i : Instr) (onGroup onEft onControl : Bool) (fields reads : List (BitVec 5)) (d : BitVec 5) (lat : Nat)
    (f : RegFile → Word × Nat) : Prop :=
  ∀ s, Admits s onGroup onEft onControl fields reads → Completes i s fun t => ScalarWrote s t d lat f

/-! ### Vector micro-orders -/

/-- A vector micro-order may issue in this cycle: its operands are registers and ports that it may name, its pipe is free, its
registers are in the pool, its ports hold its packets and have room for its own; an exposed table keeps to the banks' two reads,
and the scoreboard of an interlocked one holds it back no longer (R58, R59, R72, R100, R101, R105, R108, R268). -/
def VectorReady (s : State) (F : VForm) : Prop :=
  s.cur.stream = .vector ∧ s.operandsOk F = true ∧ s.here.pipes.free F.time.pipe s.pcc = true ∧ s.grp.blocksThere F = true ∧
  s.portsReady F = true ∧
  (s.grp.v.exposed = true → bankExcess (s.grp.bankReads F) = 0) ∧ (s.grp.v.exposed = false → s.grp.hazard F = false)

/-- No operand of the micro-order holds poison, a twin group's shadow columns among them (R227, R448). -/
def VectorClean (s : State) (F : VForm) : Prop :=
  (s.vEnv F false).2 = (0, 0, 0) ∧ (s.isTwin = true → (s.vEnv F true).2 = (0, 0, 0))

/-- What every vector micro-order leaves alone when it issues: registers, predicates, the return word, the scalar streams,
the scratchpad, the other groups, the registers of the other cores, and all memory. -/
def VectorKept (s t : State) : Prop :=
  t.grp.vregs = s.grp.vregs ∧ t.grp.vpoison = s.grp.vpoison ∧ t.grp.preds = s.grp.preds ∧ t.grp.ret = s.grp.ret ∧
  t.grp.sc = s.grp.sc ∧ t.grp.blocks = s.grp.blocks ∧
  (∀ n, n ≠ s.cur.slot → t.here.group n = s.here.group n) ∧ t.here.j = s.here.j ∧ t.here.spm = s.here.spm ∧
  t.here.matrix = s.here.matrix ∧ t.here.chans = s.here.chans ∧ t.here.eft = s.here.eft ∧
  (∀ k, k ≠ s.cur.core → (t.core k).groups = (s.core k).groups ∧ (t.core k).spm = (s.core k).spm) ∧
  ∀ a, Memory.read t.mem a = Memory.read s.mem a

/-- What the issue of a vector micro-order leaves of its stream and its core: the next word, the pipe held for the
occupancy, the latch (R61, R100, R101). -/
def VectorIssued (s t : State) (F : VForm) : Prop :=
  let o := (F.cycles (Shape.of s.grp.v.wshape) (bankExcess (s.grp.bankReads F))).1
  t.grp.v.pc = s.grp.v.pc + 4 ∧ t.grp.v.nextIssue = s.pcc + 1 ∧ t.here.pipes = s.here.pipes.take F.time.pipe s.pcc o ∧
  (F.keep = none → t.grp.v.latch = s.grp.v.latch) ∧ (F.keep = some 0 → t.grp.v.latch = none) ∧
  (∀ f, F.keep = some 1 → F.a = some f → ∃ p, t.grp.v.latch = some ⟨f, BitVec.ofNat 8192 (s.vEnv F false).1.a, p⟩) ∧
  t.grp.v.wshape = s.grp.v.wshape ∧ t.grp.k = s.grp.k ∧ VectorKept s t

/-- A micro-order that makes no access has issued: what it writes lands in cycle t + L - 1 (R102). -/
def VectorLeft (s t : State) (F : VForm) (effs : List VEffect) : Prop :=
  let l := (F.cycles (Shape.of s.grp.v.wshape) (bankExcess (s.grp.bankReads F))).2
  VectorIssued s t F ∧ t.accs = s.accs ∧ t.here.mem = s.here.mem ∧ (∀ k, k ≠ s.cur.core → t.core k = s.core k) ∧
  t.grp.v.mems = s.grp.v.mems ∧ t.grp.v.writes = s.grp.v.writes ++ effs.map fun e => ⟨s.pcc + l - 1, e⟩

/-- Where H holds, a form of the vector stream has a result that, for the environment it computes in, is as P says; a twin
group's shadow columns compute a result of their own (R227). -/
def VectorFormIf (H : State → Prop) (i : Instr) (F : VForm) (P : State → VEnv → VOut → Prop) : Prop :=
  ∀ s, H s → VectorReady s F → VectorClean s F →
    ∃ out sout, P s (s.vEnv F false).1 out ∧ (s.isTwin = true → P s (s.vEnv F true).1 sout) ∧ (s.isTwin = false → sout = {}) ∧
      Completes i s fun t =>
        VectorLeft s t F (F.effects (Shape.of s.grp.v.wshape) s.here.job.compat out false ++
          (if s.isTwin = true then F.effects (Shape.of s.grp.v.wshape) s.here.job.compat sout true else []) ++
          (if F.changesPred = true then [.pushPred (pushedEntry out sout)] else []))

/-- A form of the vector stream in every state. -/
def VectorForm (i : Instr) (F : VForm) (P : VEnv → VOut → Prop) : Prop := VectorFormIf (fun _ => True) i F fun _ => P

/-- The bytes a result writes, and the bits it raises, are those of every active element of a width (R191, R192): element e
takes the first part of res e, raises the second in FLAGS and the third in LSAT. -/
def ElementwiseL (w : Nat) (v : VEnv) (o : VOut) (res : Nat → Nat × Nat × Nat) : Prop :=
  (∀ e < elCount w, v.active (w * e / 8) = true → el w o.value e = (res e).1 % 2 ^ w) ∧
  (∀ b < 1024, o.mask.testBit b = v.active (b / (w / 8) * (w / 8))) ∧
  (∀ k, o.flags.testBit k = true ↔ ∃ e < elCount w, v.active (w * e / 8) = true ∧ (res e).2.1.testBit k = true) ∧
  (∀ k, o.lsat.testBit k = true ↔ ∃ e < elCount w, v.active (w * e / 8) = true ∧ (res e).2.2.testBit k = true) ∧
  o.amax = none ∧ o.ret = none

/-- The same, of a form that raises nothing in LSAT. -/
def Elementwise (w : Nat) (v : VEnv) (o : VOut) (res : Nat → Nat × Nat) : Prop :=
  ElementwiseL w v o fun e => ((res e).1, (res e).2, 0)

/-- A result raises no bit of FLAGS or LSAT and no AMAX. -/
def Quiet (o : VOut) : Prop := o.flags = 0 ∧ o.lsat = 0 ∧ o.amax = none

/-- A compare's entry: every byte of an active element whose result holds is 1, every other byte 0 (R195). It writes no
register byte. -/
def ComparesTo (w : Nat) (v : VEnv) (o : VOut) (res : Nat → Bool × Nat) : Prop :=
  (∀ b < 1024, o.pred.testBit b = (v.active (b / (w / 8) * (w / 8)) && (res (b / (w / 8))).1)) ∧ o.value = 0 ∧ o.mask = 0 ∧
  (∀ k, o.flags.testBit k = true ↔ ∃ e < elCount w, v.active (w * e / 8) = true ∧ (res e).2.testBit k = true) ∧
  o.lsat = 0 ∧ o.amax = none ∧ o.ret = none

end Sys2Proof.Machine
end

