-- ==== Sys2Proof/Certificates/Slice0/Obligations.lean ====
section
/-! DEFINITION. The statements for the provers. -/

open Sys2Proof Sys2Proof.Machine

/-! ### The integer family -/

/-- A form with two register sources that writes f of them (R124). -/
def IntForm (d a b : BitVec 5) (i : Instr) (lat : Nat) (f : Word → Word → Word) : Prop :=
  WritesForm i true true true [d, a, b] [a, b] d lat fun r => (f (r.get a) (r.get b), 0)

/-- A form with one register source that writes f of it in one cycle (R124 to R127). -/
def IntForm1 (d a : BitVec 5) (i : Instr) (f : Word → Word) : Prop :=
  WritesForm i true true true [d, a] [a] d 1 fun r => (f (r.get a), 0)

/-- R124: each of these forms writes the value of the rule's table to x[D], with the latency of R99, on each scalar stream;
register 0 takes no write, and nothing else changes. -/
def Obligations.IntegerRegisterForms : Prop :=
  ∀ (d a b : BitVec 5) (h : BitVec 3),
    IntForm d a b (.add d a b h) 1 (fun x y => x + y) ∧ IntForm d a b (.sub d a b h) 1 (fun x y => x - y) ∧
    IntForm d a b (.and d a b h) 1 (fun x y => x &&& y) ∧ IntForm d a b (.or d a b h) 1 (fun x y => x ||| y) ∧
    IntForm d a b (.xor d a b h) 1 (fun x y => x ^^^ y) ∧ IntForm d a b (.andn d a b h) 1 (fun x y => x &&& ~~~y) ∧
    IntForm d a b (.sll d a b h) 1 (fun x y => x <<< (y.toNat % 64)) ∧
    IntForm d a b (.srl d a b h) 1 (fun x y => x >>> (y.toNat % 64)) ∧
    IntForm d a b (.sra d a b h) 1 (fun x y => x.sshiftRight (y.toNat % 64)) ∧
    IntForm d a b (.rotr d a b h) 1 (fun x y => (x >>> (y.toNat % 64)) ||| (x <<< ((64 - y.toNat % 64) % 64))) ∧
    IntForm d a b (.slt d a b h) 1 (fun x y => if x.toInt < y.toInt then 1 else 0) ∧
    IntForm d a b (.sltu d a b h) 1 (fun x y => if x.toNat < y.toNat then 1 else 0) ∧
    IntForm d a b (.min d a b h) 1 (fun x y => if x.toInt < y.toInt then x else y) ∧
    IntForm d a b (.max d a b h) 1 (fun x y => if x.toInt < y.toInt then y else x) ∧
    IntForm d a b (.minu d a b h) 1 (fun x y => if x.toNat < y.toNat then x else y) ∧
    IntForm d a b (.maxu d a b h) 1 (fun x y => if x.toNat < y.toNat then y else x) ∧
    IntForm d a b (.mul d a b h) 3 (fun x y => BitVec.ofInt 64 (x.toInt * y.toInt)) ∧
    IntForm d a b (.mulh d a b h) 3 (fun x y => BitVec.ofInt 64 (x.toInt * y.toInt / 2 ^ 64)) ∧
    IntForm d a b (.mulhu d a b h) 3 (fun x y => BitVec.ofNat 64 (x.toNat * y.toNat / 2 ^ 64)) ∧
    WritesForm (.sel d a b h) true true true [d, a, b] [d, a, b] d 1
      (fun r => (if r.get d ≠ 0 then r.get a else r.get b, 0))

/-- R124 and R35: a division truncates; by zero its quotient is all ones and its remainder the dividend, and the most
negative number by -1 gives itself and the remainder 0. -/
def DivideFormsHold : Prop :=
  ∀ (d a b : BitVec 5) (h : BitVec 3),
    IntForm d a b (.div d a b h) 20
      (fun x y => if y = 0 then BitVec.allOnes 64 else BitVec.ofInt 64 (Int.tdiv x.toInt y.toInt)) ∧
    IntForm d a b (.divu d a b h) 20 (fun x y => if y = 0 then BitVec.allOnes 64 else BitVec.ofNat 64 (x.toNat / y.toNat)) ∧
    IntForm d a b (.rem d a b h) 20 (fun x y => if y = 0 then x else BitVec.ofInt 64 (Int.tmod x.toInt y.toInt)) ∧
    IntForm d a b (.remu d a b h) 20 (fun x y => if y = 0 then x else BitVec.ofNat 64 (x.toNat % y.toNat))

/-- R124: the 32-bit forms work on the low 32 bits of their operands, and write the result sign-extended. -/
def Word32FormsHold : Prop :=
  ∀ (d a b : BitVec 5) (h : BitVec 3),
    let low (x : Word) : BitVec 32 := x.setWidth 32
    IntForm d a b (.addw d a b h) 1 (fun x y => (low x + low y).signExtend 64) ∧
    IntForm d a b (.subw d a b h) 1 (fun x y => (low x - low y).signExtend 64) ∧
    IntForm d a b (.mulw d a b h) 3 (fun x y => (low x * low y).signExtend 64) ∧
    IntForm d a b (.sllw d a b h) 1 (fun x y => (low x <<< (y.toNat % 32)).signExtend 64) ∧
    IntForm d a b (.srlw d a b h) 1 (fun x y => (low x >>> (y.toNat % 32)).signExtend 64) ∧
    IntForm d a b (.sraw d a b h) 1 (fun x y => ((low x).sshiftRight (y.toNat % 32)).signExtend 64)

/-- R124 and R35: the division forms and the 32-bit forms write the value of the rule's table. -/
def Obligations.DivideAndWordForms : Prop := DivideFormsHold ∧ Word32FormsHold

/-- R124: clz, ctz, popc and bswap write the count or the bytes that the rule names. -/
def Obligations.BitCountForms : Prop :=
  (∀ (d a : BitVec 5) (h : BitVec 3),
    IntForm1 d a (.clz d a h) (fun x => BitVec.ofNat 64 (countLeading x)) ∧
    IntForm1 d a (.ctz d a h) (fun x => BitVec.ofNat 64 (countTrailing 64 x.toNat)) ∧
    IntForm1 d a (.popc d a h) (fun x => BitVec.ofNat 64 (countOnes 64 x.toNat)) ∧
    IntForm1 d a (.bswap d a h) (fun x => BitVec.ofNat 64 (reverseBytes 8 x.toNat))) ∧
  countLeading 0 = 64 ∧ countTrailing 64 0 = 64 ∧
  ∀ x : Word,
    (x ≠ 0 → countLeading x ≤ 63 ∧ 2 ^ (63 - countLeading x) ≤ x.toNat ∧ x.toNat < 2 ^ (64 - countLeading x)) ∧
    (x ≠ 0 → x.toNat % 2 ^ countTrailing 64 x.toNat = 0 ∧ x.getLsbD (countTrailing 64 x.toNat) = true) ∧
    countOnes 64 x.toNat = ((List.range 64).filter fun i => x.getLsbD i).length ∧
    ∀ k < 8, (BitVec.ofNat 64 (reverseBytes 8 x.toNat)).extractLsb' (8 * k) 8 = x.extractLsb' (8 * (7 - k)) 8

/-- R125 to R128: the immediate, bit-field and constant forms write the value of their rule. A field that would pass bit 63
ends there. Their words are those of the SI and SL formats, and a word whose IMM16 is not of its form's layout is an illegal
encoding. -/
def Obligations.ImmediateForms : Prop :=
  (∀ (d a : BitVec 5) (imm : BitVec 16) (n p l : BitVec 6),
    let len : Nat := min (l.toNat + 1) (64 - p.toNat)
    IntForm1 d a (.addi d a imm) (fun x => x + imm.signExtend 64) ∧
    IntForm1 d a (.andi d a imm) (fun x => x &&& imm.setWidth 64) ∧
    IntForm1 d a (.ori d a imm) (fun x => x ||| imm.setWidth 64) ∧
    IntForm1 d a (.xori d a imm) (fun x => x ^^^ imm.setWidth 64) ∧
    IntForm1 d a (.slti d a imm) (fun x => if x.toInt < imm.toInt then 1 else 0) ∧
    IntForm1 d a (.sltiu d a imm) (fun x => if x.toNat < (imm.signExtend 64 : Word).toNat then 1 else 0) ∧
    IntForm1 d a (.slli d a n) (fun x => x <<< n.toNat) ∧ IntForm1 d a (.srli d a n) (fun x => x >>> n.toNat) ∧
    IntForm1 d a (.srai d a n) (fun x => x.sshiftRight n.toNat) ∧
    IntForm1 d a (.bfx d a p l) (fun x => BitVec.ofNat 64 (x.toNat / 2 ^ p.toNat % 2 ^ len)) ∧
    IntForm1 d a (.bfxS d a p l)
      (fun x => let v := x.toNat / 2 ^ p.toNat % 2 ^ len
                BitVec.ofInt 64 (if v < 2 ^ (len - 1) then (v : Int) else (v : Int) - 2 ^ len)) ∧
    WritesForm (.bfi d a p l) true true true [d, a] [d, a] d 1
      (fun r => let mask : Word := BitVec.ofNat 64 (2 ^ len - 1) <<< p.toNat
                ((r.get d &&& ~~~mask) ||| ((r.get a <<< p.toNat) &&& mask), 0))) ∧
  ∀ (d : BitVec 5) (imm : BitVec 21),
    WritesForm (.li d imm) true true true [d] [] d 1 (fun _ => (imm.signExtend 64, 0)) ∧
    WritesForm (.lih d imm) true true true [d] [] d 1 (fun _ => (imm.setWidth 64 <<< 43, 0)) ∧
    (∀ s, Admits s true true true [d] [] →
      Completes (.adpc d imm) s fun t => ScalarWrote s t d 1 fun _ => (s.scalar.pc + imm.signExtend 64 * 4, 0)) ∧
    (∀ (a : BitVec 5) (i : BitVec 16) (n p l : BitVec 6),
      let word (op imm16 : Nat) : Nat := op * 2 ^ 26 + d.toNat * 2 ^ 21 + a.toNat * 2 ^ 16 + imm16
      encode (.addi d a i) = word 0x08 i.toNat ∧ encode (.andi d a i) = word 0x09 i.toNat ∧ encode (.ori d a i) = word 0x0A i.toNat ∧
      encode (.xori d a i) = word 0x0B i.toNat ∧ encode (.slti d a i) = word 0x0C i.toNat ∧ encode (.sltiu d a i) = word 0x0D i.toNat ∧
      encode (.slli d a n) = word 0x0E n.toNat ∧ encode (.srli d a n) = word 0x0E (2 ^ 6 + n.toNat) ∧
      encode (.srai d a n) = word 0x0E (2 ^ 7 + n.toNat) ∧ encode (.bfx d a p l) = word 0x0F (2 ^ 6 * p.toNat + l.toNat) ∧
      encode (.bfxS d a p l) = word 0x0F (2 ^ 15 + 2 ^ 6 * p.toNat + l.toNat) ∧
      encode (.bfi d a p l) = word 0x10 (2 ^ 6 * p.toNat + l.toNat) ∧
      encode (.li d imm) = 0x11 * 2 ^ 26 + d.toNat * 2 ^ 21 + imm.toNat ∧ encode (.lih d imm) = 0x12 * 2 ^ 26 + d.toNat * 2 ^ 21 + imm.toNat ∧
      encode (.adpc d imm) = 0x13 * 2 ^ 26 + d.toNat * 2 ^ 21 + imm.toNat) ∧
    ∀ w < 2 ^ 32,
      (w / 2 ^ 26 = 0x0E → w / 2 ^ 8 % 2 ^ 8 ≠ 0 ∨ w / 2 ^ 6 % 4 = 3 → decode .scalar w = .illegalEncoding) ∧
      (w / 2 ^ 26 = 0x0F → w / 2 ^ 12 % 8 ≠ 0 → decode .scalar w = .illegalEncoding) ∧
      (w / 2 ^ 26 = 0x10 → w / 2 ^ 12 % 16 ≠ 0 → decode .scalar w = .illegalEncoding)

/-! ### The scalar floating-point family -/

/-- R130: each scalar floating-point form runs on a group and on the control die, reads FP32 operands from bits 31:0,
writes an FP32 result with bits 63:32 zero, and raises the flags of its operation in FLAGS. -/
def Obligations.FloatForms : Prop :=
  ∀ (d a b : BitVec 5) (t : BitVec 1) (h : BitVec 3),
    let F : Fmt := if t = 1 then Fmt.f64 else Fmt.f32
    let G : Fmt := if t = 1 then Fmt.f32 else Fmt.f64
    let arg (r : RegFile) (n : BitVec 5) : Nat := if t = 1 then (r.get n).toNat else (r.get n).toNat % 2 ^ 32
    let other (r : RegFile) (n : BitVec 5) : Nat := if t = 1 then (r.get n).toNat % 2 ^ 32 else (r.get n).toNat
    let rm (r : RegFile) : Rm := Rm.ofCode (r.rmode.toNat % 4)
    let res (x : FRes) : Word × Nat := (BitVec.ofNat 64 x.bits, x.flags)
    let form (i : Instr) (reads : List (BitVec 5)) (l32 l64 : Nat) (f : RegFile → Word × Nat) : Prop :=
      WritesForm i true false true [] reads d (if t = 1 then l64 else l32) f
    form (.fadd d a b t h) [a, b] 4 5 (fun r => res (F.add (rm r) (arg r a) (arg r b))) ∧
    form (.fsub d a b t h) [a, b] 4 5 (fun r => res (F.sub (rm r) (arg r a) (arg r b))) ∧
    form (.fmul d a b t h) [a, b] 4 5 (fun r => res (F.mul (rm r) (arg r a) (arg r b))) ∧
    form (.fdiv d a b t h) [a, b] 10 18 (fun r => res (F.div (rm r) (arg r a) (arg r b))) ∧
    form (.fsqrt d a t h) [a] 12 22 (fun r => res (F.sqrt (rm r) (arg r a))) ∧
    form (.fmin d a b t h) [a, b] 4 5 (fun r => res (F.minMax false (arg r a) (arg r b))) ∧
    form (.fmax d a b t h) [a, b] 4 5 (fun r => res (F.minMax true (arg r a) (arg r b))) ∧
    form (.fmac d a b t h) [d, a, b] 4 5 (fun r => res (F.fma (rm r) (arg r a) (arg r b) (arg r d))) ∧
    form (.feq d a b t h) [a, b] 4 5 (fun r => res (F.eqRes (arg r a) (arg r b))) ∧
    form (.flt d a b t h) [a, b] 4 5 (fun r => res (F.ltRes (arg r a) (arg r b))) ∧
    form (.fle d a b t h) [a, b] 4 5 (fun r => res (F.leRes (arg r a) (arg r b))) ∧
    form (.fcvt d a t h) [a] 4 5 (fun r => res (G.convert F (rm r) (other r a))) ∧
    form (.ftoi d a t h) [a] 4 5
      (fun r => let p := toInteger (rm r) (-(2 ^ 63)) (2 ^ 63 - 1) (F.read (arg r a)); (BitVec.ofInt 64 p.1, p.2)) ∧
    form (.ftou d a t h) [a] 4 5
      (fun r => let p := toInteger (rm r) 0 (2 ^ 64 - 1) (F.read (arg r a)); (BitVec.ofInt 64 p.1, p.2)) ∧
    form (.itof d a t h) [a] 4 5 (fun r => res (F.ofInteger (rm r) (r.get a).toInt)) ∧
    form (.utof d a t h) [a] 4 5 (fun r => res (F.ofInteger (rm r) (r.get a).toNat)) ∧
    form (.fabs d a t h) [a] 4 5 (fun r => res (F.abs (arg r a))) ∧
    form (.fneg d a t h) [a] 4 5 (fun r => res (F.neg (arg r a)))

/-! ### Control transfer -/

/-- What a scalar transfer leaves: the next word is at the target and issues after the cost; d, where it is not register 0,
takes the link; nothing else changes. -/
def ScalarJumped (s t : State) (target : Word) (cost : Nat) (d : BitVec 5) (link : Word) : Prop :=
  OnlyScalar s t ∧ FileWrote s.rf t.rf d (link, 0) ∧ t.scalar.shape = s.scalar.shape ∧
  (s.scalar.twin = none → t.scalar.twin = none) ∧
  (∀ r, s.scalar.twin = some r → ∃ r', t.scalar.twin = some r' ∧ FileWrote r r' d (link, 0)) ∧
  t.scalar.pc = target ∧ t.scalar.nextIssue = s.pcc + cost

/-- A conditional branch (R142): where both copies of a twin group decide alike, it is taken to pc + 4 × the offset at a
cost of 3 cycles, or goes on at pc + 4. -/
def BranchForm (a b : BitVec 5) (o : BitVec 13) (i : Instr) (cond : Word → Word → Prop) : Prop :=
  ∀ s, Admits s true true true [a, b] [a, b] →
    (∀ r, s.scalar.twin = some r → (cond (r.get a) (r.get b) ↔ cond (s.x a) (s.x b))) →
    (cond (s.x a) (s.x b) →
      Completes i s fun t => ScalarJumped s t (s.scalar.pc + o.signExtend 64 * 4) 3 0 0) ∧
    (¬ cond (s.x a) (s.x b) → Completes i s fun t => ScalarJumped s t (s.scalar.pc + 4) 1 0 0)

/-- R142 and R143: the branches and the direct jumps, with their words; JAL links to s30. A reserved COND is an illegal encoding
(R52). -/
def BranchesAndJumpsHold : Prop :=
  (∀ (a b : BitVec 5) (o : BitVec 13),
    BranchForm a b o (.beq a b o) (fun x y => x = y) ∧ BranchForm a b o (.bne a b o) (fun x y => x ≠ y) ∧
    BranchForm a b o (.blt a b o) (fun x y => x.toInt < y.toInt) ∧ BranchForm a b o (.bge a b o) (fun x y => y.toInt ≤ x.toInt) ∧
    BranchForm a b o (.bltu a b o) (fun x y => x.toNat < y.toNat) ∧
    BranchForm a b o (.bgeu a b o) (fun x y => y.toNat ≤ x.toNat)) ∧
  (∀ (a b : BitVec 5) (o : BitVec 13),
    let word (cond : Nat) : Nat := 0x24 * 2 ^ 26 + cond * 2 ^ 23 + a.toNat * 2 ^ 18 + b.toNat * 2 ^ 13 + o.toNat
    encode (.beq a b o) = word 0 ∧ encode (.bne a b o) = word 1 ∧ encode (.blt a b o) = word 2 ∧ encode (.bge a b o) = word 3 ∧
    encode (.bltu a b o) = word 4 ∧ encode (.bgeu a b o) = word 5 ∧
    decode .scalar (word 6) = .illegalEncoding ∧ decode .scalar (word 7) = .illegalEncoding) ∧
  ∀ (o : BitVec 26) (s : State),
    encode (.j o) = 0x25 * 2 ^ 26 + o.toNat ∧ encode (.jal o) = 0x26 * 2 ^ 26 + o.toNat ∧
    (Admits s true true true [] [] →
      Completes (.j o) s fun t => ScalarJumped s t (s.scalar.pc + o.signExtend 64 * 4) 2 0 0) ∧
    (Admits s true false true [] [] →
      Completes (.jal o) s fun t => ScalarJumped s t (s.scalar.pc + o.signExtend 64 * 4) 2 30 (s.scalar.pc + 4))

/-- R144: JALR reads its target before it writes the link, goes there if the word there is LAND (0x9C000000), and traps
with ALIGNMENT where the target is no multiple of 4 and with PROTECTION where another word stands there; the record holds
the target in ADDR and AUX, and x[D] keeps its value. -/
def JumpRegisterHold : Prop :=
  ∀ (d a : BitVec 5) (h : BitVec 3) (s : State), Admits s true false true [] [a] →
    let target := s.x a
    (target.toNat % 4 ≠ 0 →
      exec (.jalr d a h) s = .next (s.raiseTrap { cause := 0x08, addr := target, aux := target })) ∧
    (∀ w, target.toNat % 4 = 0 → s.fetch s.curKey s.curCtx target = .word w →
      let s1 := s.keepSector s.curKey s.curCtx target
      (w ≠ 0x9C000000 → exec (.jalr d a h) s = .next (s1.raiseTrap { cause := 0x0A, addr := target, aux := target })) ∧
      (w = 0x9C000000 → (∀ r, s.scalar.twin = some r → r.get a = target) →
        Completes (.jalr d a h) s fun t => ScalarJumped s1 t target 3 d (s.scalar.pc + 4)))

/-- R142 to R144: the branches, the direct jumps and JALR go where their rules say. -/
def Obligations.ControlTransferForms : Prop := BranchesAndJumpsHold ∧ JumpRegisterHold

/-- R54, R76, R129, R145 and R188: the forms that read or write a job register, NOP, LAND and RDPCC. A write of a job
register takes place at the cycle's end, that of the highest slot last (R67, R129). -/
def Obligations.SmallScalarForms : Prop :=
  ∀ (d a : BitVec 5) (h : BitVec 3) (x : BitVec 26) (s : State),
    (Admits s true true false [d] [] → a.toNat < 16 →
      Completes (.jget d a h) s fun t => ScalarWrote s t d 1 fun _ => (s.here.jreg a.toNat, 0)) ∧
    (Admits s true true false [a] [a] → d.toNat < 16 →
      Completes (.jset d a h) s fun t =>
        let s1 := s.modHere fun c => c.jwrite s.jrank d.toNat (s.x a)
        ScalarJumped s1 t (s.scalar.pc + 4) 1 0 0) ∧
    (Admits s true true true [] [] → Completes (.nop x) s fun t => ScalarJumped s t (s.scalar.pc + 4) 1 0 0) ∧
    (Admits s true false true [] [] → Completes .land s fun t => ScalarJumped s t (s.scalar.pc + 4) 1 0 0) ∧
    (Admits s true true true [d] [] → Completes (.rdpcc d) s fun t => ScalarWrote s t d 1 fun _ => (BitVec.ofNat 64 s.pcc, 0)) ∧
    encode (.rdpcc d) = 0xD4006000 + d.toNat * 2 ^ 21 ∧
    ∀ (c : Core) (now rank : Nat) (n : Fin 16) (v : Word),
      (∀ m < 16, (c.jwrite rank n v).jreg m = c.jreg m) ∧ (c.endCycle now).jpend = [] ∧
      ((∀ w ∈ c.jpend, w.2.1 % 16 ≠ n.val) → (c.endCycle now).jreg n = c.jreg n) ∧
      ((rank, n.val, v) ∈ c.jpend → (∀ w ∈ c.jpend, w.2.1 % 16 = n.val → w = (rank, n.val, v) ∨ w.1 < rank) →
        (c.endCycle now).jreg n = v)

/-- R448: an arithmetic form, a branch, a selection, a load, a store, an atomic, a floating-point form, a scratchpad form, a jump to
a register or a vector start that reads a register that is poisoned in one of the stream's files (a twin group has two, R283)
traps with POISON and has no other effect. -/
def PoisonedReadHolds : Prop :=
  ∀ (d a b : BitVec 5) (h : BitVec 3) (t : BitVec 1) (n : BitVec 6) (imm : BitVec 16) (sz c : BitVec 2) (o : BitVec 12) (p : BitVec 13) (s : State),
    let bad (r : BitVec 5) : Prop := r.toNat ∈ s.rf.poison ∨ ∃ f, s.scalar.twin = some f ∧ r.toNat ∈ f.poison
    let traps (i : Instr) : Prop := exec i s = .next (s.raiseTrap { cause := 0x0B })
    (Admits s true true true [d, a, b] [] →
      (bad a ∨ bad b → traps (.add d a b h) ∧ traps (.sub d a b h) ∧ traps (.div d a b h) ∧ traps (.beq a b p) ∧ traps (.sel d a b h)) ∧
      (bad d → traps (.sel d a b h)) ∧
      (bad a → traps (.addi d a imm) ∧ traps (.slli d a n) ∧ traps (.clz d a h) ∧ traps (.ld d a sz c o) ∧ traps (.ldu d a sz c o))) ∧
    (Admits s true false true [] [] →
      (bad a ∨ bad b → traps (.fadd d a b t h) ∧ traps (.fmul d a b t h) ∧ traps (.fmac d a b t h) ∧ traps (.amoAdd d a b sz c)) ∧
      (bad a ∨ bad d → traps (.st d a sz c o)) ∧ (bad a → traps (.fsqrt d a t h) ∧ traps (.jalr d a h))) ∧
    (Admits s true false false [] [] →
      (bad a → traps (.lds d a sz o) ∧ traps (.ldsu d a sz o)) ∧ (bad a ∨ bad d → traps (.sts d a sz o)) ∧
      (bad a ∨ bad b → traps (.vrun a b h)))

/-! ### Scratchpad and global memory -/

/-- R135: the scratchpad forms. An address that is no multiple of the size traps with ALIGNMENT, one outside the launch's
reservation with PROTECTION; a load of bytes without poison writes them, sign-extended (lds) or zero-extended (ldsu), with
latency 4; a store writes the low bytes of x[D], under the same checks, and no other byte of any memory changes. -/
def Obligations.ScratchpadForms : Prop :=
  ∀ (d a : BitVec 5) (sz : BitVec 2) (o : BitVec 12) (s : State),
    let size := 2 ^ sz.toNat
    let ea : Word := s.x a + o.signExtend 64 * BitVec.ofNat 64 size
    let v := Memory.readN s.here.spm ea.toNat size
    (Admits s true false false [] [a] →
      (ea.toNat % size ≠ 0 →
        exec (.lds d a sz o) s = .next (s.raiseTrap { cause := 0x08, addr := ea }) ∧
        exec (.ldsu d a sz o) s = .next (s.raiseTrap { cause := 0x08, addr := ea })) ∧
      (ea.toNat % size = 0 → s.here.job.spmSize < ea.toNat + size →
        exec (.lds d a sz o) s = .next (s.raiseTrap { cause := 0x0A, addr := ea }) ∧
        exec (.ldsu d a sz o) s = .next (s.raiseTrap { cause := 0x0A, addr := ea })) ∧
      (ea.toNat % size = 0 → ea.toNat + size ≤ s.here.job.spmSize → (∀ k < size, (ea.toNat + k) / 32 ∉ s.here.spmPoison) →
        (Completes (.lds d a sz o) s fun t => ScalarWrote s t d 4 fun _ => ((BitVec.ofNat (8 * size) v).signExtend 64, 0)) ∧
        (Completes (.ldsu d a sz o) s fun t => ScalarWrote s t d 4 fun _ => (BitVec.ofNat 64 v, 0)))) ∧
    (Admits s true false false [] [d, a] →
      (ea.toNat % size ≠ 0 → exec (.sts d a sz o) s = .next (s.raiseTrap { cause := 0x08, addr := ea })) ∧
      (ea.toNat % size = 0 → s.here.job.spmSize < ea.toNat + size →
        exec (.sts d a sz o) s = .next (s.raiseTrap { cause := 0x0A, addr := ea }))) ∧
    (Admits s true false false [] [d, a] → ea.toNat % size = 0 → ea.toNat + size ≤ s.here.job.spmSize →
      (∀ r, s.scalar.twin = some r → r.get a = s.x a ∧ r.get d = s.x d) →
      Completes (.sts d a sz o) s fun t =>
        (∀ k, Memory.read t.here.spm k =
          if ea.toNat ≤ k ∧ k < ea.toNat + size then (s.x d).extractLsb' (8 * (k - ea.toNat)) 8 else Memory.read s.here.spm k) ∧
        (s.here.spm.wf = true → t.here.spm.wf = true) ∧ (∀ k, Memory.read t.mem k = Memory.read s.mem k) ∧ (∀ n, t.x n = s.x n) ∧
        t.scalar.pc = s.scalar.pc + 4 ∧ t.scalar.rf = s.scalar.rf ∧ t.accs = s.accs ∧
        ∀ k, k ≠ s.cur.core → t.core k = s.core k)

/-- The checks of R131 for an access of the step's stream pass: the address is aligned and below 2^56, its translation is
held, grants a write where the access writes, and names no block that refuses the unit. -/
def Reaches (s : State) (ea : Word) (size : Nat) (p : Perm) (e : TlbEntry) : Prop :=
  ea.toNat % size = 0 ∧ ea.toNat < 2 ^ 56 ∧ s.lookup s.curKey s.curCtx ea.toNat = some e ∧
  (p ≠ .read → e.writable = true) ∧ s.refusesUnit (e.phys ea.toNat) p = false

/-- An access of the step's stream is under way under the next free number, and the stream has gone on: nothing has been
written yet, in registers or in memory. -/
def AccessIssued (s t : State) (kind : AccKind) (ea : Word) (pa size cls : Nat) : Prop :=
  (∃ a, t.accs.get s.nextId = some a ∧ a.kind = kind ∧ a.va = ea ∧ a.pa = pa ∧ a.size = size ∧ a.cls = cls ∧
    a.core = s.curKey ∧ a.slot = s.cur.slot ∧ a.stream = s.cur.stream ∧ a.pc = s.curPc) ∧
  t.scalar.rf = s.scalar.rf ∧ t.scalar.pc = s.scalar.pc + 4 ∧ (∀ k, Memory.read t.mem k = Memory.read s.mem k)

/-- R131, R133 and R134: a load whose checks pass and for which the stream has room issues its access, and its destination
awaits it. -/
def Obligations.GlobalLoads : Prop :=
  ∀ (d a : BitVec 5) (sz c : BitVec 2) (o : BitVec 12) (e : TlbEntry) (s : State),
    let size := 2 ^ sz.toNat
    let ea : Word := s.x a + o.signExtend 64 * BitVec.ofNat 64 size
    Admits s true true true [d, a] [a] → s.outstanding < (if s.cur.stream = .control then 32 else if s.cur.stream = .eft then 48 else 16) →
    Reaches s ea size .read e →
    (Completes (.ld d a sz c o) s fun t =>
      AccessIssued s t (.load d.toNat true) ea (e.phys ea.toNat) size c.toNat ∧
      (d ≠ 0 → t.scalar.waits.get d.toNat = some s.nextId)) ∧
    (Completes (.ldu d a sz c o) s fun t =>
      AccessIssued s t (.load d.toNat false) ea (e.phys ea.toNat) size c.toNat ∧
      (d ≠ 0 → t.scalar.waits.get d.toNat = some s.nextId))

/-- R137: an atomic whose checks pass issues one access that carries its operation, its operand and, for cas, the value of
its destination to compare with. -/
def AtomicsIssueHold : Prop :=
  ∀ (d a b : BitVec 5) (sz c : BitVec 2) (e : TlbEntry) (s : State),
    let size := 2 ^ sz.toNat
    let issues (i : Instr) (op : Nat) : Prop :=
      Completes i s fun t =>
        AccessIssued s t (.amo d.toNat op (s.x b) (s.x d)) (s.x a) (e.phys (s.x a).toNat) size c.toNat ∧
        (d ≠ 0 → t.scalar.waits.get d.toNat = some s.nextId)
    Admits s true false true [] [d, a, b] → s.outstanding < (if s.cur.stream = .control then 32 else 16) →
    Reaches s (s.x a) size .both e →
    (∀ r, s.scalar.twin = some r → r.get a = s.x a ∧ r.get b = s.x b ∧ r.get d = s.x d) →
    issues (.amoAdd d a b sz c) 0 ∧ issues (.amoAnd d a b sz c) 1 ∧ issues (.amoOr d a b sz c) 2 ∧
    issues (.amoXor d a b sz c) 3 ∧ issues (.amoMin d a b sz c) 4 ∧ issues (.amoMax d a b sz c) 5 ∧
    issues (.amoSwap d a b sz c) 6 ∧ issues (.amoCas d a b sz c) 7 ∧ issues (.amoFadd d a b sz c) 8 ∧
    issues (.amoFmin d a b sz c) 9 ∧ issues (.amoFmax d a b sz c) 10

/-- R133, R134, R288 and R293: a store whose checks pass is posted. A group's store to memory stands among the core's pending
stores, with the low bytes of x[D], and no committed byte changes; the control die's store, and a store to configuration
space, is an access under way. One of the control die that changes the HOSTBASE of a context with a launch in flight traps with
ILLEGAL_OPERAND: the model's reading of R2 and R435 (log entry 43). -/
def GlobalStoresHold : Prop :=
  ∀ (d a : BitVec 5) (sz c : BitVec 2) (o : BitVec 12) (e : TlbEntry) (s : State),
    let size := 2 ^ sz.toNat
    let ea : Word := s.x a + o.signExtend 64 * BitVec.ofNat 64 size
    let v := (s.x d).toNat % 2 ^ (8 * size)
    Admits s true false true [] [d, a] → Reaches s ea size .write e →
    (∀ r, s.scalar.twin = some r → r.get a = s.x a ∧ r.get d = s.x d) →
    (s.cur.stream = .group → isConfig (e.phys ea.toNat) = false →
      Completes (.st d a sz c o) s fun t =>
        (∃ p ∈ t.here.mem.pend, p.pa = e.phys ea.toNat ∧ p.size = size ∧ p.value = v ∧ p.cls = c.toNat ∧
          p.order = s.here.mem.order ∧ p.slot = s.cur.slot) ∧
        t.scalar.rf = s.scalar.rf ∧ t.scalar.pc = s.scalar.pc + 4 ∧ (∀ k, Memory.read t.mem k = Memory.read s.mem k)) ∧
    (s.cur.stream = .control ∧ s.breaksHostbase (e.phys ea.toNat) size v = false ∨
        s.cur.stream = .group ∧ isConfig (e.phys ea.toNat) = true →
      Completes (.st d a sz c o) s fun t => AccessIssued s t .store ea (e.phys ea.toNat) size c.toNat) ∧
    (s.cur.stream = .control → s.breaksHostbase (e.phys ea.toNat) size v = true →
      exec (.st d a sz c o) s = .next (s.raiseTrap { cause := 0x02 }))

/-- R133, R134, R137, R288 and R293: atomics and stores whose checks pass are under way, and no committed byte changes yet. -/
def Obligations.AtomicsAndStoresIssue : Prop := AtomicsIssueHold ∧ GlobalStoresHold

/-- R131: an address that is no multiple of the size traps with ALIGNMENT, one at or above 2^56 with TRANSLATION, and one
whose page grants no write, or whose block refuses the unit (a register block every unit but the control die), with PROTECTION; ADDR is
the address. -/
def Obligations.AccessChecks : Prop :=
  ∀ (d a : BitVec 5) (sz c : BitVec 2) (o : BitVec 12) (s : State),
    let size := 2 ^ sz.toNat
    let ea : Word := s.x a + o.signExtend 64 * BitVec.ofNat 64 size
    Admits s true false true [d, a] [d, a] → s.outstanding < (if s.cur.stream = .control then 32 else 16) →
    (ea.toNat % size ≠ 0 →
      exec (.ld d a sz c o) s = .next (s.raiseTrap { cause := 0x08, addr := ea }) ∧
      exec (.st d a sz c o) s = .next (s.raiseTrap { cause := 0x08, addr := ea })) ∧
    (ea.toNat % size = 0 → 2 ^ 56 ≤ ea.toNat →
      exec (.ld d a sz c o) s = .next (s.raiseTrap { cause := 0x09, addr := ea, detail := 0x20 }) ∧
      exec (.st d a sz c o) s = .next (s.raiseTrap { cause := 0x09, addr := ea, detail := 0x20 })) ∧
    (∀ e, ea.toNat % size = 0 → ea.toNat < 2 ^ 56 → s.lookup s.curKey s.curCtx ea.toNat = some e →
      (e.writable = false ∨ s.refusesUnit (e.phys ea.toNat) .write = true →
        exec (.st d a sz c o) s = .next (s.raiseTrap { cause := 0x0A, addr := ea })) ∧
      (s.refusesUnit (e.phys ea.toNat) .read = true →
        exec (.ld d a sz c o) s = .next (s.raiseTrap { cause := 0x0A, addr := ea })) ∧
      (s.cur.stream = .group → ∀ b n, regionOf (localOf (e.phys ea.toNat)) = .regs b n → isConfig (e.phys ea.toNat) = true →
        s.refusesUnit (e.phys ea.toNat) .read = true ∧ s.refusesUnit (e.phys ea.toNat) .write = true))

/-! ### The vector family -/

/-- The latency rows of R102 that the arithmetic forms use. -/
def fpTime (wide : Bool) : VTime := if wide then ⟨.fp64, .half, 6⟩ else ⟨.fp, .quarter, 4⟩
def intTime (wide : Bool) : VTime := if wide then ⟨.ix, .half, 2⟩ else ⟨.ix, .quarter, 2⟩
def convTime (wide : Bool) : VTime := if wide then ⟨.cx, .half, 5⟩ else ⟨.cx, .quarter, 5⟩

/-- R197 and R198: the FP forms compute each active element in the working rounding mode and raise its flags; vfma gives
a × b + d and vfnma d - a × b, rounded once. The functions of R198 go by Table16 as R22 defines it, which two printed entries differ from: the model's choice (log entry 5). -/
def Obligations.VectorFloatForms : Prop :=
  ∀ (d a b : BitVec 6) (f : BitVec 2) (k : BitVec 1) (g : BitVec 4),
    let F := Machine.fpType f
    let wide : Bool := isWide f
    let A (v : VEnv) (e : Nat) : Nat := el F.width v.a e
    let B (v : VEnv) (e : Nat) : Nat := el F.width v.b e
    let D (v : VEnv) (e : Nat) : Nat := el F.width v.d e
    let res (x : FRes) : Nat × Nat := (x.bits, x.flags)
    let two (i : Instr) (t : VTime) (op : Rm → Nat → Nat → FRes) : Prop :=
      VectorForm i { d := some d, a := some a, b := some b, wide, keep := some k, guard := g, time := t } fun v o =>
        Elementwise F.width v o fun e => res (op v.rm (A v e) (B v e))
    let one (i : Instr) (t : VTime) (op : Rm → Nat → FRes) : Prop :=
      VectorForm i { d := some d, a := some a, wide, keep := some k, guard := g, time := t } fun v o =>
        Elementwise F.width v o fun e => res (op v.rm (A v e))
    let fused (i : Instr) (op : Rm → Nat → Nat → Nat → FRes) : Prop :=
      VectorForm i { d := some d, a := some a, b := some b, readsD := true, wide, keep := some k, guard := g, time := fpTime wide } fun v o =>
        Elementwise F.width v o fun e => res (op v.rm (A v e) (B v e) (D v e))
    two (.vaddFp d a b f k g) (fpTime wide) (fun m x y => F.add m x y) ∧
    two (.vsubFp d a b f k g) (fpTime wide) (fun m x y => F.sub m x y) ∧
    two (.vmulFp d a b f k g) (fpTime wide) (fun m x y => F.mul m x y) ∧
    two (.vminFp d a b f k g) (fpTime wide) (fun _ x y => F.minMax false x y) ∧
    two (.vmaxFp d a b f k g) (fpTime wide) (fun _ x y => F.minMax true x y) ∧
    two (.vdivFp d a b f k g) (if wide then ⟨.sx, .rows2, 28⟩ else ⟨.sx, .rows, 14⟩) (fun m x y => F.div m x y) ∧
    one (.vsqrt d a f k g) (if wide then ⟨.sx, .rows2, 28⟩ else ⟨.sx, .rows, 14⟩) (fun m x => F.sqrt m x) ∧
    one (.vabs d a f k g) (fpTime wide) (fun _ x => F.abs x) ∧ one (.vneg d a f k g) (fpTime wide) (fun _ x => F.neg x) ∧
    one (.vrcp d a f k g) ⟨.sx, .rows, 12⟩ (fun m x => F.rcp m x) ∧ one (.vrsq d a f k g) ⟨.sx, .rows, 12⟩ (fun m x => F.rsq m x) ∧
    one (.vexp2 d a f k g) ⟨.sx, .rows, 12⟩ (fun m x => F.exp2 m x) ∧ one (.vlog2 d a f k g) ⟨.sx, .rows, 12⟩ (fun m x => F.log2 m x) ∧
    fused (.vfma d a b f k g) (fun m x y z => F.fma m x y z) ∧
    fused (.vfnma d a b f k g) (fun m x y z => F.fmaRes m (F.read x).negate (F.read y) (F.read z))

/-- The forms of R199 with two sources: res gives an element from those of A and B as n-bit numbers, modulo 2^n. -/
def VectorInt (d a b : BitVec 6) (w : BitVec 2) (k : BitVec 1) (g : BitVec 4) (i : Instr) (t : VTime) (op : Nat → Nat → Int) : Prop :=
  VectorForm i { d := some d, a := some a, b := some b, wide := isWide w, keep := some k, guard := g, time := t } fun v o =>
    Elementwise (widthOf w) v o fun e =>
      ((op (el (widthOf w) v.a e) (el (widthOf w) v.b e) % (2 ^ widthOf w : Nat)).toNat, 0)

/-- R199: the integer forms on 8, 16, 32 and 64-bit elements. -/
def Obligations.VectorIntegerForms : Prop :=
  ∀ (d a b : BitVec 6) (w : BitVec 2) (k : BitVec 1) (g : BitVec 4),
    let n := widthOf w
    let S (x : Nat) : Int := sextNat x n
    let lo : Int := -(2 ^ (n - 1) : Nat)
    let hi : Int := (2 ^ (n - 1) : Nat) - 1
    let simple := VectorInt d a b w k g
    let t : VTime := intTime (isWide w)
    let mul : VTime := if w = 1 then ⟨.ix, .half, 4⟩ else ⟨.ix, .quarter, 4⟩
    let div : VTime := if w = 1 then ⟨.sx, .rows2, 36⟩ else ⟨.sx, .rows, 20⟩
    simple (.vaddInt d a b w k g) t (fun x y => x + y) ∧ simple (.vsubInt d a b w k g) t (fun x y => x - y) ∧
    simple (.vmulInt d a b w k g) mul (fun x y => x * y) ∧ simple (.vmulh d a b w k g) mul (fun x y => S x * S y / (2 ^ n : Nat)) ∧
    simple (.vmulhu d a b w k g) mul (fun x y => x * y / 2 ^ n) ∧ simple (.vand d a b w k g) t (fun x y => (x &&& y : Nat)) ∧
    simple (.vor d a b w k g) t (fun x y => (x ||| y : Nat)) ∧ simple (.vxor d a b w k g) t (fun x y => (x ^^^ y : Nat)) ∧
    simple (.vsll d a b w k g) t (fun x y => x * 2 ^ (y % n)) ∧ simple (.vsrl d a b w k g) t (fun x y => x / 2 ^ (y % n)) ∧
    simple (.vsra d a b w k g) t (fun x y => S x / 2 ^ (y % n)) ∧
    simple (.vminInt d a b w k g) t (fun x y => min (S x) (S y)) ∧ simple (.vmaxInt d a b w k g) t (fun x y => max (S x) (S y)) ∧
    simple (.vminu d a b w k g) t (fun x y => min x y) ∧ simple (.vmaxu d a b w k g) t (fun x y => max x y) ∧
    simple (.vadds d a b w k g) t (fun x y => max lo (min hi (S x + S y))) ∧
    simple (.vsubs d a b w k g) t (fun x y => max lo (min hi (S x - S y))) ∧
    simple (.vaddsu d a b w k g) t (fun x y => min ((2 ^ n : Nat) - 1 : Int) (x + y)) ∧
    simple (.vsubsu d a b w k g) t (fun x y => max 0 ((x : Int) - y)) ∧
    simple (.vdivInt d a b w k g) div (fun x y => if y = 0 then -1 else (S x).tdiv (S y)) ∧
    simple (.vdivu d a b w k g) div (fun x y => if y = 0 then -1 else x / y) ∧
    simple (.vrem d a b w k g) div (fun x y => if y = 0 then x else (S x).tmod (S y)) ∧
    simple (.vremu d a b w k g) div (fun x y => if y = 0 then x else x % y)

/-- R200: the immediate forms on 32-bit elements, with their words; IMM9 is sign-extended. -/
def Obligations.VectorImmediateForms : Prop :=
  ∀ (d a : BitVec 6) (imm : BitVec 9) (n : BitVec 5) (g : BitVec 4),
    let form (i : Instr) (op : BitVec 32 → BitVec 32) : Prop :=
      VectorForm i { d := some d, a := some a, guard := g, time := ⟨.ix, .quarter, 2⟩ } fun v o =>
        Elementwise 32 v o fun e => ((op (BitVec.ofNat 32 (el 32 v.a e))).toNat, 0)
    form (.vaddi d a imm g) (fun x => x + imm.signExtend 32) ∧ form (.vandi d a imm g) (fun x => x &&& imm.signExtend 32) ∧
    form (.vori d a imm g) (fun x => x ||| imm.signExtend 32) ∧ form (.vxori d a imm g) (fun x => x ^^^ imm.signExtend 32) ∧
    form (.vslli d a n g) (fun x => x <<< n.toNat) ∧ form (.vsrli d a n g) (fun x => x >>> n.toNat) ∧
    form (.vsrai d a n g) (fun x => x.sshiftRight n.toNat) ∧
    (VectorForm (.vmovi d imm g) { d := some d, guard := g, time := ⟨.ix, .quarter, 2⟩ } fun v o =>
      Elementwise 32 v o fun _ => ((imm.signExtend 32).toNat, 0)) ∧
    (let word (op7 a9 imm9 : Nat) : Nat := op7 * 2 ^ 25 + d.toNat * 2 ^ 19 + a9 * 2 ^ 13 + imm9 * 2 ^ 4 + g.toNat
     encode (.vaddi d a imm g) = word 0x28 a.toNat imm.toNat ∧ encode (.vandi d a imm g) = word 0x29 a.toNat imm.toNat ∧
     encode (.vori d a imm g) = word 0x2A a.toNat imm.toNat ∧ encode (.vxori d a imm g) = word 0x2B a.toNat imm.toNat ∧
     encode (.vslli d a n g) = word 0x2C a.toNat n.toNat ∧ encode (.vsrli d a n g) = word 0x2D a.toNat n.toNat ∧
     encode (.vsrai d a n g) = word 0x2E a.toNat n.toNat ∧ encode (.vmovi d imm g) = word 0x2F 0 imm.toNat) ∧
    ∀ w < 2 ^ 32,
      (0x2C ≤ w / 2 ^ 25 → w / 2 ^ 25 ≤ 0x2E → w / 2 ^ 9 % 16 ≠ 0 → decode .vector w = .illegalEncoding) ∧
      (w / 2 ^ 25 = 0x2F → w / 2 ^ 13 % 64 ≠ 0 → decode .vector w = .illegalEncoding)

/-- R195 and R201: a compare writes no register and pushes one predicate entry. That all eight bytes of a 64-bit element at the edge of SHAPE hold its result is the model's choice (log entry 46). -/
def Obligations.VectorCompareForms : Prop :=
  ∀ (a b : BitVec 6) (f w : BitVec 2) (k : BitVec 1) (g : BitVec 4) (imm : BitVec 9),
    let F := Machine.fpType f
    let n := widthOf w
    let S (x : Nat) : Int := sextNat x n
    let fp (i : Instr) (op : Nat → Nat → Bool × Nat) : Prop :=
      VectorForm i { a := some a, b := some b, wide := isWide f, keep := some k, guard := g, time := fpTime (isWide f), changesPred := true } fun v o =>
        ComparesTo F.width v o fun e => op (el F.width v.a e) (el F.width v.b e)
    let int (i : Instr) (op : Nat → Nat → Bool) : Prop :=
      VectorForm i { a := some a, b := some b, wide := isWide w, keep := some k, guard := g, time := intTime (isWide w), changesPred := true } fun v o =>
        ComparesTo n v o fun e => (op (el n v.a e) (el n v.b e), 0)
    fp (.vceqFp a b f k g) (fun x y => (decide ((F.eqRes x y).bits ≠ 0), (F.eqRes x y).flags)) ∧
    fp (.vcltFp a b f k g) (fun x y => (decide ((F.ltRes x y).bits ≠ 0), (F.ltRes x y).flags)) ∧
    fp (.vcleFp a b f k g) (fun x y => (decide ((F.leRes x y).bits ≠ 0), (F.leRes x y).flags)) ∧
    fp (.vcneFp a b f k g) (fun x y => (decide ((F.eqRes x y).bits = 0), (F.eqRes x y).flags)) ∧
    int (.vceqInt a b w k g) (fun x y => decide (x = y)) ∧ int (.vcneInt a b w k g) (fun x y => decide (x ≠ y)) ∧
    int (.vcltInt a b w k g) (fun x y => decide (S x < S y)) ∧ int (.vcltu a b w k g) (fun x y => decide (x < y)) ∧
    int (.vcleInt a b w k g) (fun x y => decide (S x ≤ S y)) ∧ int (.vcleu a b w k g) (fun x y => decide (x ≤ y)) ∧
    int (.vtst a b w k g) (fun x y => decide (x &&& y ≠ 0)) ∧
    VectorForm (.vceqi a imm g) { a := some a, guard := g, time := ⟨.ix, .quarter, 2⟩, changesPred := true } fun v o =>
      ComparesTo 32 v o fun e => (decide (el 32 v.a e = (imm.signExtend 32).toNat), 0)

/-- R195, R202 to R204: the predicate forms. vplog pushes, and vplogR puts in place, the truth table's bit 2a + b of two
entries, on all 1,024 bits; vpdrop drops entries; vppick pushes the bytes that are not zero; vppickV writes an entry's bits
as bytes. -/
def Obligations.VectorPredicateForms : Prop :=
  ∀ (t : BitVec 4) (a b d n : BitVec 3) (x : BitVec 6),
    let table (p : Vector Mask 8) (i : Nat) : Bool :=
      t.getLsbD (2 * ((predAt p a.toNat).getLsbD i).toNat + ((predAt p b.toNat).getLsbD i).toNat)
    let form (i : Instr) (eff : Mask → VEffect) : Prop :=
      ∀ s, let F : VForm := { time := ⟨.ix, .quarter, 2⟩, readsPred := true, changesPred := true }
        VectorReady s F → Completes i s fun u =>
          ∃ m : Mask, (∀ j < 1024, m.getLsbD j = table s.grp.preds j) ∧ VectorLeft s u F [eff m]
    form (.vplog t a b) .pushPred ∧ form (.vplogR t a b d) (.setPred d.toNat) ∧ form (.vpdrop n) (fun _ => .dropPred (n.toNat + 1)) ∧
    (VectorForm (.vppick x) { b := some x, time := ⟨.ix, .quarter, 2⟩, changesPred := true } fun v o =>
      ComparesTo 8 v o fun e => (decide (el 8 v.b e ≠ 0), 0)) ∧
    (VectorForm (.vppickV x a) { d := some x, time := ⟨.ix, .quarter, 2⟩, readsPred := true } fun v o =>
      Elementwise 8 v o fun e => (if (predAt v.preds a.toNat).getLsbD e then 0xFF else 0, 0)) ∧
    ∀ (p : Vector Mask 8) (m : Mask),
      predAt (pushPred p m) 0 = m ∧ (∀ j < 7, predAt (pushPred p m) (j + 1) = predAt p j) ∧
      (∀ j < 8, predAt (popPred p (n.toNat + 1)) j = if j + (n.toNat + 1) < 8 then predAt p (j + (n.toNat + 1)) else BitVec.allOnes 1024) ∧
      ∀ j < 8, predAt (setPred p d.toNat m) j = if j = d.toNat then m else predAt p j

/-- R205 to R207 and R385: vsel takes each byte of the tile from A or B by its guard bit; vmov, vperm and vshuf move
elements of A. In compatibility mode vshuf works on 32-bit elements only, in two passes. -/
def VectorMoveFormsHold : Prop :=
  ∀ (d a b : BitVec 6) (m w p : BitVec 2) (k inv : BitVec 1) (g : BitVec 4),
    (VectorForm (.vsel d a b k inv p)
        { d := some d, a := some a, b := some b, keep := some k, guard := BitVec.ofNat 4 (8 + 4 * inv.toNat + p.toNat), time := ⟨.ix, .quarter, 2⟩ }
        fun v o => (∀ e < 1024, v.sh.inside e = true → el 8 o.value e = if v.guard.testBit e then el 8 v.a e else el 8 v.b e) ∧
          (∀ e < 1024, o.mask.testBit e = v.sh.inside e) ∧ Quiet o) ∧
    (VectorForm (.vmov d a k g) { d := some d, a := some a, keep := some k, guard := g, time := ⟨.ix, .quarter, 2⟩ } fun v o =>
      Elementwise 8 v o fun e => (el 8 v.a e, 0)) ∧
    (VectorForm (.vperm d a b m k g) { d := some d, a := some a, b := some b, keep := some k, guard := g, time := ⟨.px, .quarter, 3⟩ } fun v o =>
      (m = 0 → Elementwise 8 v o fun e => (el 8 v.a (el 8 v.b e % 16), 0)) ∧
      (m = 1 → Elementwise 8 v o fun e => (el 8 v.a (el 8 v.b e / 16), 0)) ∧
      (m = 2 → Elementwise 8 v o fun e => (el 8 v.a (el 8 v.b e), 0)) ∧
      (m = 3 → Elementwise 32 v o fun e => (if el 32 v.b e < 256 then el 32 v.a (el 32 v.b e) else 0, 0))) ∧
    (VectorFormIf (fun s => s.here.job.compat = false) (.vshuf d a b w k g)
      { d := some d, a := some a, b := some b, wide := isWide w, keep := some k, guard := g, time := ⟨.px, .quarter, 3⟩ } fun _ v o =>
        let n := widthOf w
        Elementwise n v o fun e => (el n v.a (e / (512 / n) * (512 / n) + el n v.b e % (512 / n)), 0)) ∧
    (VectorFormIf (fun s => s.here.job.compat = true) (.vshuf d a b 0 k g)
      { d := some d, a := some a, b := some b, keep := some k, guard := g, time := ⟨.px, .fixed 2, 3⟩ } fun s v o =>
        o = shuffleCompat v d a
          (s.grp.latched { d := some d, a := some a, b := some b, keep := some k, guard := g, time := ⟨.px, .fixed 2, 3⟩ }).isSome) ∧
    ∀ s, s.here.job.compat = true → s.cur.stream = .vector → w ≠ 0 →
      exec (.vshuf d a b w k g) s = .next (s.raiseTrap { cause := 0x01 })

/-- R208: vslide and vrot move elements along the tile's order; what vslide brings in from before the tile is the old
destination's last elements, and 0 from before those. -/
def VectorTileFormsHold : Prop :=
  ∀ (d a : BitVec 6) (w : BitVec 2) (n : BitVec 7) (g : BitVec 4),
    let W := widthOf w
    let place (v : VEnv) (e : Nat) : Nat := ((v.tile W).filter (· < e)).length
    let nth (v : VEnv) (j : Nat) : Nat := (v.tile W).getD j 0
    (VectorForm (.vslide d a w n g)
      { d := some d, a := some a, readsD := true, wide := isWide w, guard := g, time := ⟨.px, .quarter, 3⟩ } fun v o =>
        Elementwise W v o fun e =>
          let i := place v e
          let count := (v.tile W).length
          (if n.toNat ≤ i then el W v.a (nth v (i - n.toNat))
           else if n.toNat ≤ count + i then el W v.d (nth v (count + i - n.toNat)) else 0, 0)) ∧
    (VectorForm (.vrot d a w n g) { d := some d, a := some a, wide := isWide w, guard := g, time := ⟨.px, .quarter, 3⟩ } fun v o =>
      Elementwise W v o fun e =>
        (el W v.a (nth v (((place v e : Int) - n.toNat) % (v.tile W).length).toNat), 0)) ∧
    (let word (op7 : Nat) : Nat := op7 * 2 ^ 25 + d.toNat * 2 ^ 19 + a.toNat * 2 ^ 13 + w.toNat * 2 ^ 11 + n.toNat * 2 ^ 4 + g.toNat
     encode (.vslide d a w n g) = word 0x44 ∧ encode (.vrot d a w n g) = word 0x45)

/-- R205 to R208 and R385: the selections and movements of elements write what their rules say. -/
def Obligations.VectorMovementForms : Prop := VectorMoveFormsHold ∧ VectorTileFormsHold

/-- R209: vmatch gives each active element of A the number of the first active element of B that equals it, or all ones, and
pushes an entry of the elements that found one. Compatibility mode has no vmatch. -/
def VectorMatchFormHold : Prop :=
  ∀ (d a b : BitVec 6) (f : BitVec 2) (k : BitVec 1) (g : BitVec 4),
    let wide : Bool := decide (f.toNat % 2 = 1)
    let w := if wide then 64 else 32
    let hit (v : VEnv) (e x : Nat) : Prop := v.active (w * x / 8) = true ∧ keyEqual f (el w v.a e) (el w v.b x) = true
    (VectorFormIf (fun s => s.here.job.compat = false) (.vmatch d a b f k g)
      { d := some d, a := some a, b := some b, wide, keep := some k, guard := g, changesPred := true,
        time := if wide then ⟨.px, .fixed 32, 4⟩ else ⟨.px, .fixed 16, 4⟩ } fun _ v o =>
        (∀ b < 1024, o.mask.testBit b = v.active (b / (w / 8) * (w / 8))) ∧ Quiet o ∧
        ∀ e < elCount w, v.active (w * e / 8) = true →
          (∀ x < elCount w, hit v e x → (∀ y < x, ¬ hit v e y) →
            el w o.value e = x ∧ ∀ b, b / (w / 8) = e → o.pred.testBit b = true) ∧
          ((∀ x < elCount w, ¬ hit v e x) → el w o.value e = 2 ^ w - 1 ∧ ∀ b, b / (w / 8) = e → o.pred.testBit b = false)) ∧
    ∀ s, s.here.job.compat = true → s.cur.stream = .vector →
      exec (.vmatch d a b f k g) s = .next (s.raiseTrap { cause := 0x01 })

/-- A reduction's result: element 0 and the return word take it, and no other byte is written. -/
def ReducesTo (w : Nat) (o : VOut) (r : Nat) (fl : Nat) : Prop :=
  el w o.value 0 = r ∧ (∀ b < 1024, o.mask.testBit b = decide (b < w / 8)) ∧ o.ret = some (BitVec.ofNat 64 r) ∧ o.flags = fl ∧ o.lsat = 0 ∧ o.amax = none

/-- The active elements of a width, in ascending order, and their values in A. -/
def activeValues (w : Nat) (v : VEnv) : List Nat :=
  ((List.range (elCount w)).filter fun e => v.active (w * e / 8)).map fun e => el w v.a e

/-- The running result of a scan over values in order: the last value and the flags of its own step. -/
def scanTo (op : Nat → Nat → Nat × Nat) : List Nat → Nat × Nat
  | [] => (0, 0)
  | x :: l => l.foldl (fun p y => op p.1 y) (x, 0)

/-- R210 and R211: a reduction combines the active elements of A pairwise until one value is left, and writes it to element 0
and the return word; an empty one gives +0 for a sum and the canonical NaN for a minimum or maximum. A scan gives each active
element the running result up to it. -/
def VectorReduceFormsHold : Prop :=
  ∀ (d a : BitVec 6) (f w : BitVec 2) (k : BitVec 1) (g : BitVec 4),
    let F := Machine.fpType f
    let n := widthOf w
    let red (wide fp : Bool) : VForm :=
      { d := some d, a := some a, wide, keep := some k, guard := g, ret := true,
        time := ⟨.px, .fixed (if wide then 8 else 4), if fp then 12 else 6⟩ }
    let scan (wide fp : Bool) : VForm :=
      { d := some d, a := some a, wide, keep := some k, guard := g,
        time := ⟨.px, .fixed (if wide then 16 else 8), if fp then 12 else 4⟩ }
    let fpRed (i : Instr) (empty : Nat) (op : Rm → Nat → Nat → FRes) : Prop :=
      VectorForm i (red (isWide f) true) fun v o =>
        ∃ r fl, ReducesTo F.width o (r % 2 ^ F.width) fl ∧
          (activeValues F.width v = [] → r = empty ∧ fl = 0) ∧
          ∀ x l, activeValues F.width v = x :: l →
            reduceTree (fun p q => ((op v.rm p q).bits, (op v.rm p q).flags)) 11 (x :: l, 0) = ([r], fl)
    fpRed (.vredaddFp d a f k g) 0 (fun m x y => F.add m x y) ∧ fpRed (.vredmin d a f k g) F.nan (fun _ x y => F.minMax false x y) ∧
    fpRed (.vredmax d a f k g) F.nan (fun _ x y => F.minMax true x y) ∧
    (VectorForm (.vredaddInt d a w k g) (red (isWide w) false) fun v o =>
      ReducesTo n o ((activeValues n v).sum % 2 ^ n) 0) ∧
    (VectorForm (.vscanFp d a f k g) (scan (isWide f) true) fun v o =>
      Elementwise F.width v o fun e =>
        scanTo (fun p q => ((F.add v.rm p q).bits, (F.add v.rm p q).flags))
          (((List.range (e + 1)).filter fun x => v.active (F.width * x / 8)).map fun x => el F.width v.a x)) ∧
    VectorForm (.vscanInt d a w k g) (scan (isWide w) false) fun v o =>
      Elementwise n v o fun e =>
        ((((List.range (e + 1)).filter fun x => v.active (n * x / 8)).map fun x => el n v.a x).sum % 2 ^ n, 0)

/-- R209 to R211: vmatch, the reductions and the scans. The entry of a 64-bit element at the edge of SHAPE is as in a compare, the model's choice (log entry 46). -/
def Obligations.VectorCombiningForms : Prop := VectorMatchFormHold ∧ VectorReduceFormsHold

/-- R212 and R213: vpfirst returns the first byte of the tile whose bit of an entry is 1 (0 with INV), or all ones; vxs copies
a cell of A, or a pair of cells, to the return word or a k register, and traps with ILLEGAL_OPERAND for a pair at an odd
column. -/
def Obligations.VectorReturnForms : Prop :=
  ∀ (a : BitVec 6) (inv w : BitVec 1) (p : BitVec 3) (r : BitVec 2) (c : BitVec 4),
    let bit (v : VEnv) (e : Nat) : Prop :=
      v.sh.inside e = true ∧ (predAt v.preds p.toNat).getLsbD e = decide (inv = 0)
    let n := if w = 1 then 64 else 32
    (VectorForm (.vpfirst inv p) { time := ⟨.px, .fixed 1, 3⟩, readsPred := true, ret := true } fun v o =>
      Quiet o ∧ (∀ e < 1024, bit v e → (∀ x < e, ¬ bit v x) → o.ret = some (BitVec.ofNat 64 e)) ∧
      ((∀ e < 1024, ¬ bit v e) → o.ret = some (BitVec.allOnes 64))) ∧
    ((w = 0 ∨ c.toNat % 2 = 0) →
      VectorForm (.vxs a r w c)
        { a := some a, wide := decide (w = 1), time := ⟨.px, .fixed 1, 3⟩, kwrite := if r = 0 then none else some r.toNat, ret := decide (r = 0) }
        fun v o => Quiet o ∧ o.ret = some (BitVec.ofNat 64 (v.a / 2 ^ (32 * c.toNat) % 2 ^ n))) ∧
    (∀ s, s.cur.stream = .vector → w = 1 → c.toNat % 2 = 1 →
      exec (.vxs a r w c) s = .next (s.raiseTrap { cause := 0x02 })) ∧
    encode (.vpfirst inv p) = 0x4E * 2 ^ 25 + inv.toNat * 2 ^ 7 + p.toNat * 2 ^ 4 ∧
    ∀ x < 2 ^ 32, x / 2 ^ 25 = 0x4E → x % 16 ≠ 0 ∨ x / 2 ^ 8 % 2 ^ 17 ≠ 0 → decode .vector x = .illegalEncoding

/-- A conversion between widths (R214): element j of a row from element j of A's row, as far as both rows reach; the tile is
tested at the cell of the wider element, the guard at the destination's lowest byte. -/
def Converts (ws wd : Nat) (v : VEnv) (o : VOut) (res : Nat → Nat × Nat) : Prop :=
  let cols := min (512 / ws) (512 / wd)
  let src (i j : Nat) := i * (512 / ws) + j
  let dst (i j : Nat) := i * (512 / wd) + j
  let on (i j : Nat) : Prop :=
    i < 16 ∧ j < cols ∧ v.sh.inside (if wd ≤ ws then ws * src i j / 8 else wd * dst i j / 8) = true ∧ v.guard.testBit (wd * dst i j / 8) = true
  (∀ i j, on i j → el wd o.value (dst i j) = (res (el ws v.a (src i j))).1 % 2 ^ wd) ∧
  (∀ b < 1024, o.mask.testBit b = true ↔ ∃ i j, on i j ∧ b / (wd / 8) = dst i j) ∧
  (∀ k, o.flags.testBit k = true ↔ ∃ i j, on i j ∧ (res (el ws v.a (src i j))).2.testBit k = true) ∧
  o.lsat = 0 ∧ o.amax = none ∧ o.ret = none

/-- R214: the conversions among linear formats; a form with an RM field rounds as it says, and an integer that does not fit
saturates. -/
def Obligations.VectorConvertForms : Prop :=
  ∀ (d a : BitVec 6) (r : BitVec 2) (k : BitVec 1) (g : BitVec 4),
    let m := Rm.ofCode r.toNat
    let form (i : Instr) (ws wd : Nat) (res : Nat → Nat × Nat) : Prop :=
      VectorForm i { d := some d, a := some a, wide := decide (ws = 64) || decide (wd = 64), keep := some k, guard := g,
                     time := convTime (decide (ws = 64) || decide (wd = 64)) } fun v o => Converts ws wd v o res
    let fp (S D : Fmt) (m : Rm) (x : Nat) : Nat × Nat := ((S.convert D m x).bits, (S.convert D m x).flags)
    let int (S : Fmt) (lo hi : Int) (w : Nat) (x : Nat) : Nat × Nat :=
      (((toInteger m lo hi (S.read x)).1 % (2 ^ w : Nat)).toNat, (toInteger m lo hi (S.read x)).2)
    let of (D : Fmt) (z : Int) : Nat × Nat := ((D.ofInteger m z).bits, (D.ofInteger m z).flags)
    form (.vcvtF32F64 d a r k g) 64 32 (fp .f64 .f32 m) ∧ form (.vcvtF64F32 d a k g) 32 64 (fp .f32 .f64 .rne) ∧
    form (.vcvtF16F32 d a r k g) 32 16 (fp .f32 .f16 m) ∧ form (.vcvtF32F16 d a k g) 16 32 (fp .f16 .f32 .rne) ∧
    form (.vcvtBf16F32 d a r k g) 32 16 (fp .f32 .bf16 m) ∧ form (.vcvtF32Bf16 d a k g) 16 32 (fp .bf16 .f32 .rne) ∧
    form (.vcvtI32F32 d a r k g) 32 32 (int .f32 (-(2 ^ 31)) (2 ^ 31 - 1) 32) ∧
    form (.vcvtN32F32 d a r k g) 32 32 (int .f32 0 (2 ^ 32 - 1) 32) ∧
    form (.vcvtI64F64 d a r k g) 64 64 (int .f64 (-(2 ^ 63)) (2 ^ 63 - 1) 64) ∧
    form (.vcvtF32I32 d a r k g) 32 32 (fun x => of .f32 (sextNat x 32)) ∧
    form (.vcvtF32N32 d a r k g) 32 32 (fun x => of .f32 x) ∧ form (.vcvtF64I64 d a r k g) 64 64 (fun x => of .f64 (sextNat x 64))

/-- R14, R26, R30 and R217: a code reads as zero, NaR or a real number of log units; a number converts to the code nearest its
logarithm, n × (log2 (m × 2^e) − sc/256), a tie going up, kept at emax with OV and flushed, or kept at 1 under UFMIN, with UF; a code
converts to the linear number of Table16; and a product or a scaling adds the log units. -/
def LogValuesHold : Prop :=
  ∀ L : LFmt, L = .l16 ∨ L = .l8 ∨ L = .l4 →
    let sign (neg : Bool) : Nat := if neg then 2 ^ (L.bits - 1) else 0
    let u : Nat := 256 / L.n
    (∀ c : Nat, let neg := c.testBit (L.bits - 1)
      let e := c % 2 ^ (L.bits - 1)
      (e ≠ 0 → L.read c = (.real neg (((e : Int) - L.bias) * u), false)) ∧ (e = 0 → neg = false → L.read c = (.zero, false)) ∧
      (e = 0 → neg = true → L.read c = if L.bits = 4 then (.zero, true) else (.nar, false))) ∧
    (∀ (sc : Int) (ufmin : Bool),
      (∀ q, L.logCode (.nan q) sc ufmin = if L.bits = 4 then ⟨0, flagNV, 0⟩ else ⟨sign true, if q then flagNV else 0, 0⟩) ∧
      (∀ neg, L.logCode (.inf neg) sc ufmin = ⟨sign neg + L.emax, 0, lsatOV⟩) ∧
      (∀ neg e, L.logCode (.fin neg 0 e) sc ufmin = ⟨0, 0, 0⟩) ∧
      ∀ (neg : Bool) (m : Nat) (e : Int), 0 < m → ∃ t : Int,
        (let q := (2 * t - 1) * u + 2 * sc - 512 * e
         2 ^ q.toNat ≤ m ^ 512 ∧ m ^ 512 < 2 ^ (q + 2 * u).toNat) ∧
        (L.emax < t + L.bias → L.logCode (.fin neg m e) sc ufmin = ⟨sign neg + L.emax, 0, lsatOV⟩) ∧
        (t + L.bias < 1 → L.logCode (.fin neg m e) sc ufmin = ⟨if ufmin then sign neg + 1 else 0, 0, lsatUF⟩) ∧
        (1 ≤ t + L.bias → t + L.bias ≤ L.emax → L.logCode (.fin neg m e) sc ufmin = ⟨sign neg + (t + L.bias).toNat, 0, 0⟩)) ∧
    (∀ (D : Fmt) (rm : Rm) (sc w : Int) (neg : Bool),
      LVal.toLinear .zero D rm sc = ⟨D.zero false, 0⟩ ∧ LVal.toLinear .nar D rm sc = ⟨D.nan, 0⟩ ∧
      (-4096 ≤ (w + sc) / 256 →
        LVal.toLinear (.real neg w) D rm sc = D.roundNZ rm neg (table16 ((w + sc) % 256).toNat) ((w + sc) / 256 - 23))) ∧
    ∀ (v : VEnv) (scale : Bool) (n : Nat),
      let a := L.read (el L.bits v.a n)
      let b := L.read (el L.bits v.b n)
      let r := logElement v L scale n
      let mark := if a.2 = true ∨ scale = false ∧ b.2 = true then lsatFMTV else 0
      let nar := a.1 = .nar ∨ scale = false ∧ b.1 = .nar
      (nar → r = (2 ^ (L.bits - 1), mark)) ∧ (¬nar → a.1 = .zero ∨ scale = false ∧ b.1 = .zero → r = (0, mark)) ∧
      ∀ na ua nb ub, a.1 = .real na ua → (scale = false → b.1 = .real nb ub) →
        (scale = true → nb = false ∧ ub = sextNat (v.b / 2 ^ (32 * (L.bits * n / 32)) % 2 ^ 16) 16) →
        let e := (2 * (ua + ub) + u) / (2 * (u : Int)) + L.bias
        let s := sign (na != nb)
        (L.emax < e → r = (s + L.emax, lsatOV ||| mark)) ∧ (e < 1 → r = (0, lsatUF ||| mark)) ∧
        (1 ≤ e → e ≤ L.emax → r = (s + e.toNat, mark))

/-- The scale in a cell: its low 16 bits, signed (R215). -/
def scaleOf (b c : Nat) : Int := sextNat (b / 2 ^ (32 * c) % 2 ^ 16) 16

/-- The elements of one conversion to LNS: place p of width w takes the code of source x, and its bits of FLAGS and LSAT go up. -/
def CodesAt (w : Nat) (o : VOut) (on : Nat → Prop) (place : Nat → Nat) (res : Nat → LRes) : Prop :=
  (∀ x, on x → el w o.value (place x) = (res x).code % 2 ^ w) ∧
  (∀ b < 1024, o.mask.testBit b = true ↔ ∃ x, on x ∧ b / (w / 8) = place x) ∧
  (∀ k, o.flags.testBit k = true ↔ ∃ x, on x ∧ (res x).flags.testBit k = true) ∧
  (∀ k, o.lsat.testBit k = true ↔ ∃ x, on x ∧ (res x).lsat.testBit k = true)

/-- R215: FP32 elements of a become codes with the scales in the cells of b; in the 4-bit formats a pair of cells becomes a byte, its
partner +0 where SHAPE leaves it out; AMAX takes the greatest magnitude of the active sources (R28). -/
def LnsConverts (v : VEnv) (f : BitVec 2) (ufmin : Bool) (o : VOut) : Prop :=
  let L := LFmt.ofCode f.toNat
  let inside (c : Nat) : Bool := v.sh.inside (4 * c)
  let x (c : Nat) : FVal := Fmt.f32.read (el 32 v.a c)
  o.ret = none ∧
  (L.bits ≠ 4 →
    let place (c : Nat) : Nat := c / 16 * (512 / L.bits) + c % 16
    CodesAt L.bits o (fun c => c < 256 ∧ inside c = true ∧ v.guard.testBit (L.bits * place c / 8) = true) place
      (fun c => L.logCode (x c) (scaleOf v.b c) ufmin) ∧
    o.amax = ((((List.range 256).filter fun c => inside c && v.guard.testBit (L.bits * place c / 8)).map x).foldl maxMag none).map
      fun m => BitVec.ofNat 64 (Fmt.f64.roundV .rne m).bits) ∧
  (L.bits = 4 →
    let place (n : Nat) : Nat := n / 8 * 64 + n % 8
    let cell (n : Nat) : Nat := n / 8 * 16 + n % 8 * 2
    let other (n : Nat) : FVal := if inside (cell n + 1) then x (cell n + 1) else .fin false 0 0
    CodesAt 8 o (fun n => n < 128 ∧ inside (cell n) = true ∧ v.guard.testBit (place n) = true) place fun n =>
      if f = 3 then logCode4x (x (cell n)) (other n) (scaleOf v.b (cell n)) ufmin
      else
        let p := LFmt.l4.logCode (x (cell n)) (scaleOf v.b (cell n)) ufmin
        let q := LFmt.l4.logCode (other n) (scaleOf v.b (cell n + 1)) ufmin
        ⟨p.code + 16 * q.code, p.flags ||| q.flags, p.lsat ||| q.lsat⟩)

/-- R216: element (i, j) of a linear destination is code (i, j) of a, converted with its scale and rounded; a marker read sets FMTV. -/
def LinearConverts (v : VEnv) (f : BitVec 2) (D : Fmt) (scaled : Bool) (o : VOut) : Prop :=
  let cols := 512 / D.width
  ElementwiseL D.width v o fun e =>
    let x := lnsElement f.toNat v.a (e / cols * (512 / (LFmt.ofCode f.toNat).bits) + e % cols)
    let r := x.1.toLinear D v.rm (if scaled then scaleOf v.b (D.width * e / 32) else 0)
    (r.bits, r.flags, if x.2 then lsatFMTV else 0)

/-- R14, R26, R28, R30, R215 to R217 and R384: the conversions to and from LNS codes and the products and scalings of codes; format
.l4x is an illegal encoding in compatibility mode. -/
def Obligations.VectorLogForms : Prop :=
  LogValuesHold ∧
  ∀ (d a b : BitVec 6) (f : BitVec 2) (k : BitVec 1) (g : BitVec 4),
    let L := LFmt.ofCode f.toNat
    let two : VForm := { d := some d, a := some a, b := some b, keep := some k, guard := g, time := ⟨.cx, .quarter, 5⟩ }
    let has (s : State) : Prop := s.here.job.compat = false ∨ f ≠ 3
    VectorFormIf has (.vlcvt d a b f k g) two (fun _ v o => LnsConverts v f false o) ∧
    VectorFormIf has (.vlcvtM d a b f k g) two (fun _ v o => LnsConverts v f true o) ∧
    VectorFormIf has (.vlexp d a b f k g) two (fun _ v o => LinearConverts v f .f32 true o) ∧
    VectorFormIf has (.vcvtF64Lns d a f k g)
      { d := some d, a := some a, wide := true, keep := some k, guard := g, time := ⟨.cx, .half, 5⟩ } (fun _ v o => LinearConverts v f .f64 false o) ∧
    (L.bits ≠ 4 →
      VectorForm (.vlmul d a b f k g) two (fun v o => ElementwiseL L.bits v o fun e => ((logElement v L false e).1, 0, (logElement v L false e).2)) ∧
      VectorForm (.vlscl d a b f k g) two (fun v o => ElementwiseL L.bits v o fun e => ((logElement v L true e).1, 0, (logElement v L true e).2))) ∧
    (L.bits = 4 →
      VectorForm (.vlmul d a b f k g) two (fun v o => ElementwiseL 8 v o fun n =>
        ((logElement v L false (2 * n)).1 + 16 * (logElement v L false (2 * n + 1)).1, 0,
         (logElement v L false (2 * n)).2 ||| (logElement v L false (2 * n + 1)).2)) ∧
      VectorForm (.vlscl d a b f k g) two (fun v o => ElementwiseL 8 v o fun n =>
        ((logElement v L true (2 * n)).1 + 16 * (logElement v L true (2 * n + 1)).1, 0,
         (logElement v L true (2 * n)).2 ||| (logElement v L true (2 * n + 1)).2))) ∧
    ∀ s, s.here.job.compat = true → f = 3 → s.cur.stream = .vector →
      exec (.vlcvt d a b f k g) s = .next (s.raiseTrap { cause := 0x01 }) ∧
      exec (.vlexp d a b f k g) s = .next (s.raiseTrap { cause := 0x01 })

/-- A memory micro-order that may take effect: ready, of an interlocked table, with no poison in its operands, every element
translated and, where it has a base, the base a multiple of 4 (R108, R219, R224). -/
def VectorReaches (s : State) (F : VForm) (p : Perm) (base : Option Word) (l : List VAcc) (r : List (VAcc × Nat × TlbEntry)) : Prop :=
  VectorReady s F ∧ VectorClean s F ∧ s.grp.v.exposed = false ∧ (∀ b, base = some b → l = [] ∨ b.toNat % 4 = 0) ∧ s.checkElems p l = .ok r

/-- An element that fails a check of R131, after elements that pass, traps the micro-order with its address and number, and no
access is made (R224). -/
def ElementTraps (i : Instr) (s : State) (p : Perm) (l : List VAcc) : Prop :=
  ∀ pre x post, l = pre ++ x :: post → (∀ y ∈ pre, ∃ e, Reaches s y.va y.size p e) →
    let traps (cause detail : Nat) : Prop := exec i s = .next (s.raiseTrap { cause, addr := x.first, detail, elem := x.elem })
    (x.va.toNat % x.size ≠ 0 → traps 0x08 0) ∧
    (x.va.toNat % x.size = 0 → 2 ^ 56 ≤ x.va.toNat → traps 0x09 0x20) ∧
    ∀ e, x.va.toNat % x.size = 0 → x.va.toNat < 2 ^ 56 → s.lookup s.curKey s.curCtx x.va.toNat = some e →
      (p ≠ .read ∧ e.writable = false ∨ s.refusesUnit (e.phys x.va.toNat) p = true) → traps 0x0A 0

/-- The checks of a memory micro-order that is ready: in an exposed table it is an illegal encoding (R108), its base is a multiple of 4
(R219), and each of its elements passes (R224). -/
def VectorChecks (i : Instr) (s : State) (F : VForm) (p : Perm) (base : Option Word) (l : List VAcc) : Prop :=
  (s.cur.stream = .vector → s.grp.v.exposed = true → exec i s = .next (s.raiseTrap { cause := 0x01 })) ∧
  (VectorReady s F → VectorClean s F → s.grp.v.exposed = false →
    (∀ b x, base = some b → b.toNat % 4 ≠ 0 → l.head? = some x →
      exec i s = .next (s.raiseTrap { cause := 0x08, addr := x.first, elem := x.elem })) ∧
    ((∀ b, base = some b → b.toNat % 4 = 0) → ElementTraps i s p l))

/-- What a load or an atomic with results leaves: one access under way per element, and a micro-order that awaits them. -/
def VectorAwaits (s t : State) (F : VForm) (r : List (VAcc × Nat × TlbEntry)) (c : BitVec 2) (kind : VAcc → AccKind) : Prop :=
  VectorIssued s t F ∧
  (∀ x ∈ r, ∃ id a, t.accs.get id = some a ∧ a.kind = kind x.1 ∧ a.va = x.1.first ∧ a.pa = x.2.1 ∧ a.size = x.1.size ∧ a.cls = c.toNat) ∧
  (r ≠ [] → t.grp.v.writes = s.grp.v.writes ∧
    ∃ m, t.grp.v.mems = s.grp.v.mems ++ [m] ∧ m.order = s.nextId ∧ m.pc = s.grp.v.pc ∧ m.left = r.length)

/-- R108, R218 to R220 and R224: a vector load whose elements pass their checks issues one access per cell of the tile with an active
byte, at k[n] plus its position (vld), or per element, at k1 plus its index (vgath); a vector store posts the active bytes of each, and
no other. A base that is no multiple of 4 and an element that fails a check trap with no access made. -/
def Obligations.VectorMemoryForms : Prop :=
  ∀ (d a : BitVec 6) (c n : BitVec 2) (v : BitVec 4) (wd k : BitVec 1) (g : BitVec 4) (s : State) (r : List (VAcc × Nat × TlbEntry)),
    let base := s.grp.kreg n.toNat
    let w := if wd = 1 then 64 else 32
    let mx : VTime := ⟨.mx, .quarter, 0⟩
    let load (i : Instr) (F : VForm) (b : Option Word) (f : VEnv → List VAcc) : Prop :=
      let l := f (s.vEnv F false).1
      VectorChecks i s F .read b l ∧
      (VectorReaches s F .read b l r → Completes i s fun t =>
        VectorAwaits s t F r c (fun x => .vload s.nextId x.at_ x.elem) ∧
        (r ≠ [] → ∀ m ∈ t.grp.v.mems.getLast?, m.dest = F.d ∧ ∀ b < 1024, m.mask.getLsbD b = (accBytes l).testBit b))
    let store (i : Instr) (F : VForm) (b : Option Word) (f : VEnv → List VAcc) : Prop :=
      VectorChecks i s F .write b (f (s.vEnv F false).1) ∧
      (VectorReaches s F .write b (f (s.vEnv F false).1) r → (s.isTwin = true → f (s.vEnv F true).1 = f (s.vEnv F false).1) →
        Completes i s fun t => VectorIssued s t F ∧
          ∀ x ∈ r, isConfig x.2.1 = false → ∀ y ∈ x.1.runs,
            ∃ p ∈ t.here.mem.pend, p.pa = x.2.1 + y.1 ∧ p.size = y.2 ∧ p.value = x.1.b / 2 ^ (8 * y.1) % 2 ^ (8 * y.2) ∧
              p.cls = c.toNat ∧ p.slot = s.cur.slot)
    load (.vld d c n g) { d := some d, guard := g, keep := some 0, time := mx, kreads := [n.toNat] } (some base) (fun v => v.tileCells base 0) ∧
    load (.vgath d c v wd g)
      { d := some d, b := some (v.setWidth 6), wide := decide (wd = 1), guard := g, keep := some 0, time := mx, kreads := [1] } none
      (fun e => e.indexed w (s.grp.kreg 1) 0 0) ∧
    store (.vst a c n k g) { a := some a, guard := g, keep := some k, time := mx, kreads := [n.toNat] } (some base) (fun v => v.tileCells base v.a) ∧
    store (.vscat a c v wd k g)
      { a := some a, b := some (v.setWidth 6), wide := decide (wd = 1), guard := g, keep := some k, time := mx, kreads := [1] } none
      (fun e => e.indexed w (s.grp.kreg 1) e.a 0) ∧
    ∀ (e : VEnv) (data : Nat), (∀ x ∈ e.tileCells base data, x.size = 4 ∧ x.at_ % 4 = 0 ∧ x.va = base + BitVec.ofNat 64 x.at_ ∧
        ∀ i < 4, x.bytes.testBit i = e.active (x.at_ + i)) ∧
      ∀ b < 1024, e.active b = true → ∃ x ∈ e.tileCells base data, x.at_ = b / 4 * 4

/-- R108, R221, R222 and R224: vupd issues one atomic without result per element, at k[n] plus its place in the tile; vamo one with a
result per element, at k1 plus its index. The FP types have their own addition, minimum and maximum; cas compares with the
old destination. An element that fails a check traps with no access made. -/
def Obligations.VectorAtomicForms : Prop :=
  ∀ (d a : BitVec 6) (c n ty : BitVec 2) (v : BitVec 4) (k : BitVec 1) (g : BitVec 4) (s : State) (r : List (VAcc × Nat × TlbEntry)),
    let w := if ty.toNat % 2 = 1 then 64 else 32
    let fp (int float : Nat) : Nat := if ty.toNat < 2 then int else float
    let mx : VTime := ⟨.mx, .quarter, 0⟩
    let amo (i : Instr) (F : VForm) (op : Nat) (res : Bool) (f : VEnv → List VAcc) : Prop :=
      VectorChecks i s F .both none (f (s.vEnv F false).1) ∧
      (VectorReaches s F .both none (f (s.vEnv F false).1) r → (s.isTwin = true → f (s.vEnv F true).1 = f (s.vEnv F false).1) →
        Completes i s fun t => VectorAwaits s t F r c fun x =>
          .vamo s.nextId x.at_ x.elem op (BitVec.ofNat 64 x.b) (BitVec.ofNat 64 x.cmp) res)
    let upd (i : Instr) (op : Nat) : Prop :=
      amo i { a := some a, wide := decide (w = 64), guard := g, keep := some k, time := mx, kreads := [n.toNat] } op false
        fun e => e.tileElems w (s.grp.kreg n.toNat) e.a
    let ind (i : Instr) (op : Nat) (cas : Bool) : Prop :=
      amo i { d := some d, a := some a, b := some (v.setWidth 6), readsD := cas, wide := decide (w = 64), guard := g, keep := some k,
              time := mx, kreads := [1] } op true fun e => e.indexed w (s.grp.kreg 1) e.a e.d
    upd (.vupdAdd a c n ty k g) (fp 0 8) ∧ upd (.vupdAnd a c n ty k g) 1 ∧ upd (.vupdOr a c n ty k g) 2 ∧
    upd (.vupdXor a c n ty k g) 3 ∧ upd (.vupdMin a c n ty k g) (fp 4 9) ∧ upd (.vupdMax a c n ty k g) (fp 5 10) ∧
    upd (.vupdMinu a c n ty k g) 11 ∧ upd (.vupdMaxu a c n ty k g) 12 ∧
    ind (.vamoAdd d a c v ty k g) (fp 0 8) false ∧ ind (.vamoAnd d a c v ty k g) 1 false ∧ ind (.vamoOr d a c v ty k g) 2 false ∧
    ind (.vamoXor d a c v ty k g) 3 false ∧ ind (.vamoMin d a c v ty k g) (fp 4 9) false ∧
    ind (.vamoMax d a c v ty k g) (fp 5 10) false ∧ ind (.vamoSwap d a c v ty k g) 6 false ∧ ind (.vamoCas d a c v ty k g) 7 true

/-- R102, R135 and R219: vlds reads the scratchpad as it was before the scalar stores of its cycle, and its bytes land like
those of a register form; vsts leaves its bytes to be written to the scratchpad. Both trap with ALIGNMENT at a base that is
no multiple of 4, and with PROTECTION at the first byte outside the launch's reservation. -/
def Obligations.VectorScratchForms : Prop :=
  ∀ (d a : BitVec 6) (n : BitVec 2) (k : BitVec 1) (g : BitVec 4) (s : State),
    let base := s.grp.kreg n.toNat
    let L : VForm := { d := some d, guard := g, keep := some 0, time := ⟨.mx, .quarter, 6⟩, kreads := [n.toNat] }
    let S : VForm := { a := some a, guard := g, keep := some k, time := ⟨.mx, .quarter, 2⟩, kreads := [n.toNat] }
    let el := (s.vEnv L false).1
    let es := (s.vEnv S false).1
    let inside (l : List VAcc) : Prop := ∀ x ∈ l, x.va.toNat + x.size ≤ s.here.job.spmSize
    let protects (i : Instr) (l : List VAcc) : Prop :=
      ∀ pre x post n, l = pre ++ x :: post → inside pre → ¬ inside [x] → n < x.size →
        (∀ j < n, (x.va + BitVec.ofNat 64 j).toNat < s.here.job.spmSize) → s.here.job.spmSize ≤ (x.va + BitVec.ofNat 64 n).toNat →
        exec i s = .next (s.raiseTrap { cause := 0x0A, addr := x.va + BitVec.ofNat 64 n, elem := x.elem + n })
    let reads (v : VEnv) (o : VOut) : Prop :=
      (∀ x ∈ v.tileBytes base 0, ∀ i < x.size, Machine.el 8 o.value (x.at_ + i) = (s.here.spmBefore (x.va.toNat + i)).toNat) ∧
      (∀ b < 1024, o.mask.testBit b = v.active b) ∧ Quiet o ∧ o.ret = none
    (VectorReady s L → VectorClean s L → base.toNat % 4 = 0 → inside (el.tileBytes base 0) →
      (∀ x ∈ el.tileBytes base 0, ∀ i < x.size, (x.va.toNat + i) / 32 ∉ s.here.spmPoison) →
      ∃ o o', reads el o ∧ (s.isTwin = true → reads (s.vEnv L true).1 o') ∧
        Completes (.vlds d n g) s fun t =>
          VectorLeft s t L (L.effects el.sh s.here.job.compat o false ++
            (if s.isTwin = true then L.effects el.sh s.here.job.compat o' true else []))) ∧
    (VectorReady s S → VectorClean s S → base.toNat % 4 = 0 → inside (es.tileBytes base es.a) →
      (s.isTwin = true → (s.vEnv S true).1.tileBytes base (s.vEnv S true).1.a = es.tileBytes base es.a) →
      Completes (.vsts a n k g) s fun t =>
        VectorLeft s t S [.spm ((es.tileBytes base es.a).map fun x => (x.va.toNat, x.size, x.b))]) ∧
    (∀ x, VectorReady s L → base.toNat % 4 ≠ 0 → (el.tileBytes base 0).head? = some x →
      exec (.vlds d n g) s = .next (s.raiseTrap { cause := 0x08, addr := x.va, elem := x.elem })) ∧
    (∀ x, VectorReady s S → VectorClean s S → base.toNat % 4 ≠ 0 → (es.tileBytes base es.a).head? = some x →
      exec (.vsts a n k g) s = .next (s.raiseTrap { cause := 0x08, addr := x.va, elem := x.elem })) ∧
    (VectorReady s L → base.toNat % 4 = 0 → protects (.vlds d n g) (el.tileBytes base 0)) ∧
    (VectorReady s S → VectorClean s S → base.toNat % 4 = 0 → protects (.vsts a n k g) (es.tileBytes base es.a))

/-- R223, R276 and R487: vtqpush sends one task record per active lane, with the lane's header and payload, and awaits the
answers; an active lane with a header that its launch does not take traps with ILLEGAL_OPERAND, and no record is sent. So does an A
that is no row view of v0 to v13. -/
def Obligations.VectorTaskPush : Prop :=
  ∀ (f b : BitVec 6) (k : BitVec 1) (g : BitVec 4) (s : State),
    let a : BitVec 4 := f.setWidth 4
    let F : VForm := { a := some f, b := some b, guard := g, keep := some k, time := ⟨.mx, .quarter, 0⟩, changesPred := true }
    let row (sh : Bool) (n : Nat) : Nat := (s.regOperand ((a + BitVec.ofNat 4 n).setWidth 6) sh).1
    let lanes (sh : Bool) := (s.vEnv F sh).1.lanes (s.vEnv F sh).1.a (row sh 1) (row sh 2)
    (s.cur.stream = .vector → s.here.job.compat = false → s.grp.v.exposed = false → 13 < f.toNat →
      exec (.vtqpush f b k g) s = .next (s.raiseTrap { cause := 0x02 })) ∧
    (VectorReady s F → VectorClean s F → s.here.job.compat = false → s.grp.v.exposed = false → f.toNat ≤ 13 →
    (∀ n, n = 1 ∨ n = 2 → s.grp.holdsReg (a.toNat + n) = true ∧ s.grp.v.regPending (a.toNat + n) = false ∧
      s.grp.regThere (a.toNat + n) = true ∧ (s.regOperand ((a + BitVec.ofNat 4 n).setWidth 6) false).2 = 0 ∧
      (s.isTwin = true → (s.regOperand ((a + BitVec.ofNat 4 n).setWidth 6) true).2 = 0)) →
    ((∀ l ∈ lanes false, s.hereLaunch.laneOk l.2.1 = true) → (s.isTwin = true → lanes true = lanes false) →
      Completes (.vtqpush f b k g) s fun t =>
        VectorIssued s t F ∧ t.accs = s.accs ∧
        (∀ l ∈ lanes false, ∃ id p, t.pushes.get id = some p ∧ p.lane = l.1 ∧ p.focus = s.cur ∧ p.order = s.nextId ∧ p.refused = none ∧
          p.record = taskRecord l.2.2.1 l.2.2.2.1 l.2.2.2.2 false (physOf s.cur.core) s.cur.slot l.1 (fld l.2.1 31 16) (fld l.2.1 11 6))) ∧
    ((∃ l ∈ lanes false, s.hereLaunch.laneOk l.2.1 = false) →
      exec (.vtqpush f b k g) s = .next (s.raiseTrap { cause := 0x02 })))

/-- R113 and R226: the control forms. A branch goes to a word of the table that is no signature literal, or traps with
ILLEGAL_OPERAND; vend ends the table, and closes its segment; vseg opens one, of an exposed table. -/
def Obligations.VectorControlForms : Prop :=
  ∀ (r c : BitVec 4) (n : BitVec 2) (o : BitVec 15) (y : BitVec 20) (z : BitVec 25) (s : State),
    let pc := s.grp.v.pc
    let target : Word := pc + o.signExtend 64 * 4
    let passes : Prop := ∀ g, s.grp.v.seg = some g → g.passes s.pcc = true
    let goes (i : Instr) (next : Word) (cost : Nat) (P : State → Prop) : Prop :=
      Completes i s fun t => t.grp.v.pc = next ∧ t.grp.v.nextIssue = s.pcc + cost ∧ t.grp.v.writes = s.grp.v.writes ∧
        t.accs = s.accs ∧ VectorKept s t ∧ P t
    s.cur.stream = .vector →
    ((s.isTwin = false ∨ c.toNat ≤ 7) → (s.here.job.compat = false ∨ r.toNat ≤ 7 ∧ c.toNat ≤ 7) →
      goes (.vshape r c) (pc + 4) 1 fun t => Shape.of t.grp.v.wshape = ⟨r.toNat, c.toNat⟩ ∧ t.grp.k = s.grp.k) ∧
    (s.isTwin = true ∧ 7 < c.toNat → exec (.vshape r c) s = .next (s.raiseTrap { cause := 0x02 })) ∧
    (s.vTargetOk target = true → goes (.vjmp o) target 2 fun t => t.grp.k = s.grp.k) ∧
    (s.vTargetOk target = false →
      exec (.vjmp o) s = .next (s.raiseTrap { cause := 0x02 }) ∧ exec (.vloop n o) s = .next (s.raiseTrap { cause := 0x02 })) ∧
    (s.vTargetOk target = true → (s.grp.v.exposed = true ∨ ∀ w ∈ s.grp.v.writes, w.eff.writesK n.toNat = false) →
      let left := s.grp.kreg n.toNat - 1
      goes (.vloop n o) (if left = 0 then pc + 4 else target) (if left = 0 then 1 else 2) fun t =>
        ∀ m < 4, t.grp.kreg m = if m = n.toNat then left else s.grp.kreg m) ∧
    (passes → goes .vend pc 1 fun t => t.grp.v.ended = true ∧ t.grp.v.seg = none ∧ t.grp.v.latch = none ∧ t.grp.k = s.grp.k) ∧
    (∀ lit, s.grp.v.exposed = true → passes → s.fetch s.curKey s.curCtx (pc + 4) = .word lit →
      goes (.vseg y) (pc + 8) 1 fun t => t.grp.v.seg = some (Seg.opened s.pcc y.toNat lit) ∧ t.grp.k = s.grp.k) ∧
    (∀ f, s.grp.v.exposed = true → s.fetch s.curKey s.curCtx (pc + 4) = .fault f → exec (.vseg y) s = .next (s.raiseTrap f)) ∧
    (¬ passes → exec .vend s = .next (s.raiseTrap { cause := 0x06 })) ∧
    goes (.vnop z) (pc + 4) 1 fun t => t.grp.k = s.grp.k

/-- R57, R102, R192, R195 and R196: what lands. The masked bytes of a register take the value's, and every other byte, and
every other register, stays; flags are set and none cleared. -/
def Obligations.VectorLanding : Prop :=
  ∀ (g : Group) (r n : Nat) (mask : Mask) (value : BitVec 8192) (fl : Nat) (v : Word),
    (∀ b < 1024, ((g.land (.reg r mask value)).vreg r).extractLsb' (8 * b) 8 =
      if mask.getLsbD b then value.extractLsb' (8 * b) 8 else (g.vreg r).extractLsb' (8 * b) 8) ∧
    (n ≠ r → (g.land (.reg r mask value)).vreg n = g.vreg n) ∧ (g.land (.reg r mask value)).sc = g.sc ∧
    (g.land (.flags false fl)).sc.rf = { g.sc.rf with flags := g.sc.rf.flags ||| BitVec.ofNat 32 fl } ∧
    (g.land (.flags false fl)).sc.twin = g.sc.twin ∧ (g.land (.flags false fl)).vregs = g.vregs ∧
    (g.land (.ret v)).ret = v ∧ (g.land (.ret v)).vregs = g.vregs ∧
    (∀ m : Mask, (g.land (.pushPred m)).preds = pushPred g.preds m ∧ (g.land (.pushPred m)).vregs = g.vregs) ∧
    ∀ k < 4, ∀ j < 4, (g.land (.kreg k v)).kreg j = if j = k then v else g.kreg j

/-! ### Engine commands -/

/-- A scalar instruction that is done: its stream goes on at pc + 4 from the next cycle, with its registers as they were, and
nothing else of the machine changes. -/
def Finished (s t : State) : Prop := ScalarJumped s t (s.scalar.pc + 4) 1 0 0

/-- A table header of a kind and a mode (R63, R64). -/
def HeaderOf (w : BitVec 32) (kind : Nat) (exposed : Bool) : Prop :=
  w.toNat / 2 ^ 28 = 0xA ∧ w.toNat / 2 ^ 26 % 4 = kind ∧ w.getLsbD 25 = exposed ∧ w.toNat / 2 ^ 16 % 16 = 0 ∧ w.toNat % 2 ^ 16 ≠ 0

/-- R64, R107, R111, R150, R152, R156 and R161: a start command whose header passes starts its table on a stream that is
free, and the group goes on; a header that is none traps with ILLEGAL_ENCODING, one of another kind with ILLEGAL_OPERAND, and
one at no multiple of 4 with ALIGNMENT. The start of an exposed table is later by at most 10 µs in a window that the power manager
caps (R479); by how much is a free value (log entry 29). -/
def Obligations.EngineStarts : Prop :=
  ∀ (a b : BitVec 5) (h : BitVec 3) (u : BitVec 4) (x : Bool) (w : BitVec 32) (s : State),
    let va := s.x a
    let s0 := s.keepSector s.curKey s.curCtx va
    let len := w.toNat % 2 ^ 16
    va.toNat % 4 = 0 → s.fetch s.curKey s.curCtx va = .word w →
    (s0.startDelay x ≤ 20000 ∧ (x = false ∨ s.pfc.capping = false → s0.startDelay x = 0)) ∧
    (Admits s true false false [] [a, b] → s.grp.v.busy = false →
      (HeaderOf w 0 x → s0.here.mayStart s.cur.slot x true = true →
        Completes (.vrun a b h) s fun t =>
          ScalarJumped
            (s0.modGrp fun g =>
              { g with k := g.k.set 0 (s.x b)
                       v := { VStream.idle with busy := true, header := va, length := len, exposed := x, pc := va + 4,
                                                wshape := s.scalar.shape, wrm := s.rf.rmode.toNat % 4, nextIssue := s.pcc + 2 + s0.startDelay x } })
            t (s.scalar.pc + 4) 1 0 0) ∧
      (w.toNat / 2 ^ 28 ≠ 0xA → exec (.vrun a b h) s = .next (s0.raiseTrap { cause := 0x01 })) ∧
      (HeaderOf w 1 x → exec (.vrun a b h) s = .next (s0.raiseTrap { cause := 0x02 }))) ∧
    (Admits s true false false [] [a] → s.here.matrix.run = none → s.here.matrix.rows = [] → s.here.tableHeld s.pcc = false →
      HeaderOf w 1 x →
      s0.here.mayStart s.cur.slot x false = true →
        (Completes (.mrun a h) s fun t =>
          Finished (s0.modHere fun c => { c with matrix := (c.matrix.start s.cur.slot va w false s.pcc).delayed (s0.startDelay x) }) t ∧
          t.here.matrix.t0 = s.pcc + 4 ∧
          ∃ r, t.here.matrix.run = some r ∧ r.owner = s.cur.slot ∧ r.pc = va + 4 ∧ r.length = len ∧ r.exposed = x ∧ r.treadle = false) ∧
        (s.here.job.compat = false → x = true →
          Completes (.trdl a h) s fun t =>
            Finished (s0.modHere fun c => { c with matrix := (c.matrix.start s.cur.slot va w true s.pcc).delayed (s0.startDelay true), treadle := c.treadle.start }) t ∧
            t.here.treadle.tbeat = 0 ∧ t.here.treadle.tdnext = 0 ∧ t.here.treadle.look = s.here.treadle.tdla.toNat % 16)) ∧
    (∀ ws ch r, Admits s true false false [] [a, b] → 2 ≤ u.toNat → u.toNat ≤ 5 →
      let n := u.toNat - 2
      let c := s0.here
      let blank := { (c.chan n).setBase 0 (s.x b) with run := some (CRun.blank s.cur.slot va ws c.j c.rcOrder s.pcc) }
      (s.here.chan n).run = none → HeaderOf w 2 x → s0.tableWords (va + 4) len = .ok ws → blank.readAll (ws.length + 1) = .ok ch →
      ch.run = some r → c.programCause n r = none → c.rc.length + (ch.entries r).length ≤ 32 →
        Completes (.crun a b u 0) s fun t =>
          Finished (s0.modHere fun c => (c.enterAll n (ch.entries r) s.pcc).modChan n fun _ => blank) t) ∧
    ∀ v : BitVec 5, Admits s true false false [] [v, b] → s.grp.v.busy = false → (s.x v).toNat % 4 ≠ 0 →
      exec (.vrun v b h) s = .next (s.raiseTrap { cause := 0x08, addr := s.x v })

/-- R150 to R160 and R229: a wait ends where what it waits for is there, and its result goes to x[D]; CWAIT compares counts
modulo 2^32; MSTOP ends the table; FMTQ appends a format word, and traps with ILLEGAL_OPERAND where a reserved field is not
zero; ERUN starts the eft stream at x[A], with e1 = x[B] and its end at x[D]. -/
def Obligations.EngineForms : Prop :=
  ∀ (d a b : BitVec 5) (u : BitVec 4) (n : BitVec 2) (o : BitVec 13) (h : BitVec 3) (s : State),
    let c : BitVec 32 := (s.x a).setWidth 32
    let reached (k : Nat) : Prop := ((s.here.chan k).cc - c).toNat < 2 ^ 31
    (Admits s true false false [] [] →
      (s.grp.v.busy = false → Completes (.vwait d h) s fun t => ScalarWrote s t d 1 fun _ => (s.grp.ret, 0)) ∧
      (s.here.matrix.run = none → s.here.matrix.rows = [] → s.here.matrix.drains = [] →
        Completes (.mwait d h) s fun t => ScalarWrote s t d 1 fun _ => (s.here.matrix.mflags.setWidth 64, 0)) ∧
      (s.here.matrix.run = none → Completes (.mstop h) s fun t => Finished s t) ∧
      (∀ r, s.here.matrix.run = some r → r.treadle = false → Completes (.mstop h) s fun t =>
        t.here.matrix.run = some { r with ended := true, seg := none, ea := none } ∧ t.scalar.pc = s.scalar.pc + 4 ∧ t.scalar.rf = s.scalar.rf ∧
        t.here.matrix.acc = s.here.matrix.acc) ∧
      (∀ r, s.here.matrix.run = some r → r.treadle = true → exec (.mstop h) s = .next (s.raiseTrap { cause := 0x02 })) ∧
      (∀ v rest, s.here.job.compat = false → s.holding = none → s.here.demands = v :: rest →
        Completes (.stitch d h) s fun t =>
          ScalarWrote (s.modHere fun c => { c with demands := rest, places := c.places - 1 }) t d 1 fun _ => (v, 0))) ∧
    (Admits s true false false [] [a] →
      (∀ k, k < 4 → u.toNat = k + 2 → reached k → Completes (.cwait a u 0) s fun t => Finished s t) ∧
      (s.holding = none → reached n.toNat →
        Completes (.cwaitCont n a o) s fun t => ScalarJumped s t (s.scalar.pc + o.signExtend 64 * 4) 3 0 0) ∧
      (let w := (s.x a).toNat
       let ok : Prop := w / 2 ^ 20 % 2 ^ 12 = 0 ∧ w / 2 ^ 16 % 8 ≤ 5 ∧ w / 2 ^ 12 % 4 ≠ 3 ∧ w / 2 ^ 10 % 4 ≤ 1 ∧ w / 2 ^ 4 % 64 = 0
       (s.here.job.compat = false ∨ w / 4 % 4 ≠ 3 ∧ w % 4 ≠ 3) →
         (ok → s.here.matrix.fq.length < 16 → Completes (.fmtq a h) s fun t =>
           Finished (s.modHere fun c => { c with matrix := { c.matrix with fq := c.matrix.fq ++ [⟨s.x a, s.pcc + 2⟩] } }) t) ∧
         (¬ ok → exec (.fmtq a h) s = .next (s.raiseTrap { cause := 0x02 })))) ∧
    (Admits s true false false [] [d, a, b] → s.here.eft.running = false → (∀ i : Fin 16, s.here.ports[i].ldqs = []) →
      ((s.x a).toNat % 4 ≠ 0 → exec (.erun d a b h) s = .next (s.raiseTrap { cause := 0x08, addr := s.x a })) ∧
      ((s.x a).toNat % 4 = 0 → Completes (.erun d a b h) s fun t =>
        t.here.eft.sc.pc = s.x a ∧ t.here.eft.sc.rf.get 1 = s.x b ∧ (∀ m, m ≠ 1 → t.here.eft.sc.rf.get m = s.here.eft.sc.rf.get m) ∧
        t.here.eft.endPc = s.x d ∧ t.here.eft.running = decide (s.x a ≠ s.x d) ∧ t.here.eft.owner = s.cur.slot ∧
        t.scalar.pc = s.scalar.pc + 4 ∧ t.scalar.rf = s.scalar.rf ∧ t.here.spm = s.here.spm ∧ ∀ k, Memory.read t.mem k = Memory.read s.mem k))

/-- R136, R163 to R168 and R272: BIND binds an unbound port with a descriptor that passes its checks, and traps with
ILLEGAL_OPERAND otherwise; UNBIND of a drained port leaves it unbound; QDEPTH reads its state, and of a port that is CLOSING BOUND as
1, which is the model's choice (log entry 32); LDQ reserves its bytes in a port with room and issues its read. -/
def Obligations.PortForms : Prop :=
  ∀ (d a b : BitVec 5) (sz c : BitVec 2) (o : BitVec 12) (h : BitVec 3) (e : TlbEntry) (s : State),
    (Admits s true false false [] [a] → b.toNat < 16 →
      (s.bindOk b.toNat (s.x a) = true → Completes (.bind a b h) s fun t =>
        Finished (s.modHere fun c => c.modPort b.toNat fun _ =>
          { Port.unbound with status := .bound, desc := s.x a, owner := s.cur.slot, since := s.pcc }) t) ∧
      (s.bindOk b.toNat (s.x a) = false → exec (.bind a b h) s = .next (s.raiseTrap { cause := 0x02 })) ∧
      (let w := (s.x a).toNat
       let prod := w / 2 ^ 36 % 16
       let cons := w / 2 ^ 32 % 16
       let peer : Prop := prod = 5 ∨ cons = 5
       (s.bindOk b.toNat (s.x a) = true ↔
         (s.here.port b.toNat).status = .unbound ∧ w / 2 ^ 40 % 16 = 0 ∧ w / 2 ^ 24 % 256 = 0 ∧ w % 2 ^ 16 = 0 ∧
         prod ≤ 7 ∧ cons ≤ 8 ∧ cons ≠ 4 ∧ ¬ (prod = 5 ∧ cons = 5) ∧ (¬ peer → w / 2 ^ 44 = 0) ∧
         (peer → ∃ k, s.hereLaunch.binding.get (w / 2 ^ 48) = some k ∧ dieOf k = dieOf s.cur.core)))) ∧
    (Admits s true false false [] [] →
      (16 ≤ b.toNat → exec (.unbind b h) s = .next (s.raiseTrap { cause := 0x02 }) ∧
        exec (.qdepth d b h) s = .next (s.raiseTrap { cause := 0x02 })) ∧
      (b.toNat < 16 →
        ((s.here.port b.toNat).status = .unbound → Completes (.unbind b h) s fun t => Finished s t) ∧
        (let s1 := s.modHere fun c => c.modPort b.toNat fun p => { p with status := .closing }
         (s.here.port b.toNat).status = .bound → s.holding = none → (s1.here.port b.toNat).drained = true →
           Completes (.unbind b h) s fun t => Finished (s1.modHere fun c => c.modPort b.toNat fun _ => Port.unbound) t) ∧
        let p := s.here.port b.toNat
        Completes (.qdepth d b h) s fun t => ScalarWrote s t d 2 fun _ =>
          (if p.status = .unbound then 0 else BitVec.ofNat 64 (2 ^ 63 + p.free % 65536 * 65536 + p.held s.pcc % 65536), 0))) ∧
    let size := 2 ^ sz.toNat
    let ea : Word := s.x a + o.signExtend 64 * BitVec.ofNat 64 size
    Admits s false true false [a] [a] → d.toNat < 16 →
      ((s.here.port d.toNat).feeds 4 = true → s.outstanding < 48 → Reaches s ea size .read e → size ≤ (s.here.port d.toNat).byteRoom →
        Completes (.ldq d a sz c o) s fun t =>
          AccessIssued s t (.ldq d.toNat) ea (e.phys ea.toNat) size c.toNat ∧
          (t.here.port d.toNat).ldqs = (s.here.port d.toNat).ldqs ++ [⟨s.nextId, size, none, false⟩]) ∧
      ((s.here.port d.toNat).feeds 4 = false → exec (.ldq d a sz c o) s = .next (s.raiseTrap { cause := 0x02 }))

/-- R169 to R171: RBACQ ends at once with 0 where the group holds the blocks named, and RBACQ.T with 1 where the budget does
not allow them; where the budget allows them and no other request waits, the group holds the blocks at once, which read as zero, and the
form ends with 0 once they are in place; so does a granted wait; a mask above 7 traps with ILLEGAL_OPERAND. RBREL gives
the blocks named up. -/
def Obligations.BlockForms : Prop :=
  ∀ (d a : BitVec 5) (h : BitVec 3) (s : State), Admits s true false false [] [a] →
    let mask := (s.x a).toNat
    let c := s.here
    (8 ≤ mask → s.holding = none → exec (.rbacqW d a h) s = .next (s.raiseTrap { cause := 0x02 }) ∧
      exec (.rbacqT d a h) s = .next (s.raiseTrap { cause := 0x02 }) ∧ exec (.rbrel a h) s = .next (s.raiseTrap { cause := 0x02 })) ∧
    (mask < 8 → s.holding = none →
      (s.grp.lacking mask = [] →
        (Completes (.rbacqW d a h) s fun t => ScalarWrote s t d 1 fun _ => (0, 0)) ∧
        (Completes (.rbacqT d a h) s fun t => ScalarWrote s t d 1 fun _ => (0, 0))) ∧
      (s.grp.lacking mask ≠ [] → c.budget < c.heldBlocks + (s.grp.lacking mask).length →
        Completes (.rbacqT d a h) s fun t => ScalarWrote s t d 1 fun _ => (1, 0)) ∧
      (s.grp.lacking mask ≠ [] → c.heldBlocks + (s.grp.lacking mask).length ≤ c.budget → c.waiting Wait.blocks? = [] →
        let given := c.giveBlocks s.cur.slot (s.grp.lacking mask)
        let s1 := (s.modHere fun _ => given).serveBlocks s.cur.core
        (∀ n, (given.group s.cur.slot).blocks.has n = (s.grp.blocks.has n || (s.grp.lacking mask).contains n)) ∧
        (∀ n, n / 4 ∈ s.grp.lacking mask → (given.group s.cur.slot).vreg n = 0) ∧
        (s1.grp.inPlace = true →
          (Completes (.rbacqW d a h) s fun t => ScalarWrote s1 t d 1 fun _ => (0, 0)) ∧
          Completes (.rbacqT d a h) s fun t => ScalarWrote s1 t d 1 fun _ => (0, 0)) ∧
        (s1.grp.inPlace = false →
          let waits (t : State) : Prop := t.grp.hold.map (fun g => (g.wait, g.granted)) = some (.blocks mask d.toNat, some 0) ∧
            t.grp.blocks = s1.grp.blocks ∧ t.scalar = s.scalar
          Completes (.rbacqW d a h) s waits ∧ Completes (.rbacqT d a h) s waits)) ∧
      (s.grp.v.busy = false → Completes (.rbrel a h) s fun t =>
        let s1 := s.modGrp fun g => { g with blocks := g.blocks.filter fun b => !(decide (1 ≤ b.1) && decide (b.1 ≤ 3) && mask.testBit (b.1 - 1)) }
        Finished (s1.regrant s.cur.core) t)) ∧
    (∀ since m d' v, s.holding = some ⟨since, .blocks m d', some v⟩ → s.grp.inPlace = true →
      (Completes (.rbacqW d a h) s fun t => ScalarWrote s t d 1 fun _ => (0, 0)) ∧
      Completes (.rbacqT d a h) s fun t => ScalarWrote s t d 1 fun _ => (0, 0))

/-! ### Queues, state registers, synchronisation and the system forms -/

/-- R172, R173, R276 and R487: TQPUSH sends one record with its header and payload and awaits the answer, and ends with 0 for a
record taken and 1 for one refused; a header that its launch does not have traps with ILLEGAL_OPERAND, and so does B above 29. LAUNCH ends with the
result its packet drew; a packet joins its queue where the queue takes it. -/
def Obligations.QueueForms : Prop :=
  ∀ (d a b : BitVec 5) (h : BitVec 3) (s : State),
    (s.cur.stream = .group → s.here.job.compat = false → 30 ≤ b.toNat → exec (.tqpush d a b h) s = .next (s.raiseTrap { cause := 0x02 })) ∧
    (Admits s true false false [] [a, b, b + 1, b + 2] → s.here.job.compat = false → b.toNat ≤ 29 →
      (s.holding = none → s.hereLaunch.headerOk (s.x a) = false → exec (.tqpush d a b h) s = .next (s.raiseTrap { cause := 0x02 })) ∧
      (s.holding = none → s.hereLaunch.headerOk (s.x a) = true →
        (∀ r, s.scalar.twin = some r → r.get a = s.x a ∧ r.get b = s.x b ∧ r.get (b + 1) = s.x (b + 1) ∧ r.get (b + 2) = s.x (b + 2)) →
        Completes (.tqpush d a b h) s fun t => t.scalar.rf = s.scalar.rf ∧ t.scalar.pc = s.scalar.pc ∧
          ∃ p, t.pushes.get s.nextId = some p ∧ p.focus = s.cur ∧ p.refused = none ∧ s.pcc + 8 ≤ p.back ∧
            p.record = taskRecord (s.x b).toNat (s.x (b + 1)).toNat (s.x (b + 2)).toNat true (physOf s.cur.core) s.cur.slot 0
              ((s.x a).toNat / 2 ^ 32 % 2 ^ 16) ((s.x a).toNat / 2 ^ 16 % 2 ^ 16)) ∧
      (∀ since v id p full, s.holding = some ⟨since, .push id, v⟩ → s.pushes.get id = some p → p.refused = some full → p.back ≤ s.pcc →
        Completes (.tqpush d a b h) s fun t =>
          ScalarWrote { s with pushes := s.pushes.del id } t d 1 fun _ => (if full then 1 else 0, 0))) ∧
    (Admits s true false false [] [a, b] →
      (∀ since id r, s.holding = some ⟨since, .packet id, some r⟩ →
        Completes (.launch d a b h) s fun t => ScalarWrote s t d 1 fun _ => (r, 0)) ∧
      (s.holding = none → 64 ≤ (s.x b).toNat → exec (.launch d a b h) s = .next (s.raiseTrap { cause := 0x02 }))) ∧
    ∀ (q : Nat) (p : BitVec 1024), let lq := s.lqueue q
      lq.enable = true → lq.devfed = true → lq.ctx = s.here.job.ctx → p.toNat / 2 ^ 16 % 256 = s.here.job.ctx →
        (p.toNat % 2 ^ 16 ≠ 0x0100 → s.appendPacket q p = (s, some 2)) ∧
        (p.toNat % 2 ^ 16 = 0x0100 → lq.count = 2 ^ lq.log2 → s.appendPacket q p = (s, some 1)) ∧
        (p.toNat % 2 ^ 16 = 0x0100 → lq.count ≠ 2 ^ lq.log2 → s.noHome (lq.slot lq.widx) = none → ∃ t, s.appendPacket q p = (t, some 0) ∧
          (t.lqueue q).widx = lq.widx + 1 ∧ (∀ i < 128, Memory.read t.mem (lq.slot lq.widx + i) = p.extractLsb' (8 * i) 8) ∧
          ∀ k, (k < lq.slot lq.widx ∨ lq.slot lq.widx + 128 ≤ k) → Memory.read t.mem k = Memory.read s.mem k)

/-- R68, R182 and R183: csrr reads a register; csrw, csrs and csrc write one that admits it, ignore its MBZ bits, and give its
old value; no other register changes. A number that names no register, and a write that the register does not admit, trap
with ILLEGAL_OPERAND. The control die has FLAGS and RMODE only; a SHAPE that the group may not take is an illegal operand. -/
def Obligations.StateRegisterForms : Prop :=
  ∀ (d a : BitVec 5) (num : BitVec 16) (s : State),
    let n := num.toNat
    let here (acc : CsrAccess) : Prop := csrAccess n = some acc ∧ (s.cur.stream = .control → n ≤ 2)
    let old := s.csr s.rf n
    let low := (s.x a).toNat % 2 ^ 32
    let writes (i : Instr) (v : Nat) : Prop :=
      Completes i s fun t =>
        t.csr t.rf n = v ∧ (∀ m, m ≠ n → t.csr t.rf m = s.csr s.rf m) ∧
        (∀ r, t.x r = if r = d ∧ d ≠ 0 then BitVec.ofNat 64 old else s.x r) ∧
        t.scalar.pc = s.scalar.pc + 4 ∧ ∀ k, Memory.read t.mem k = Memory.read s.mem k
    let traps (i : Instr) : Prop := exec i s = .next (s.raiseTrap { cause := 0x02 })
    (Admits s true false true [] [] →
      (∀ acc, here acc → Completes (.csrr d num) s fun t => ScalarWrote s t d 2 fun r => (BitVec.ofNat 64 (s.csr r n), 0)) ∧
      (csrAccess n = none → traps (.csrr d num) ∧ traps (.csrw d a num) ∧ traps (.csrs d a num) ∧ traps (.csrc d a num)) ∧
      (s.cur.stream = .control → 2 < n → traps (.csrr d num) ∧ traps (.csrw d a num) ∧ traps (.csrs d a num) ∧ traps (.csrc d a num)) ∧
      (here .ro → traps (.csrw d a num)) ∧
      (∀ acc, here acc → (∀ m, acc ≠ .rw m) → traps (.csrs d a num) ∧ traps (.csrc d a num))) ∧
    (Admits s true false true [] [a] →
      (∀ m, here (.rw m) →
        ((n = 5 → s.badShape (low &&& m) = false) → writes (.csrw d a num) (low &&& m)) ∧
        ((n = 5 → s.badShape ((old ||| low) &&& m) = false) → writes (.csrs d a num) ((old ||| low) &&& m)) ∧
        ((n = 5 → s.badShape (old - (old &&& low)) = false) → writes (.csrc d a num) (old - (old &&& low))) ∧
        (n = 5 → s.badShape (low &&& m) = true → traps (.csrw d a num)) ∧
        (n = 5 → s.badShape ((old ||| low) &&& m) = true → traps (.csrs d a num)) ∧
        (n = 5 → s.badShape (old - (old &&& low)) = true → traps (.csrc d a num))) ∧
      (here .wide → writes (.csrw d a num) (s.x a).toNat) ∧
      (here .w1c → writes (.csrw d a num) (old - (old &&& (s.x a).toNat))))

/-- R139, R174, R175 and R177 to R180: FENCE and FLUSH end where what they wait for is performed and committed; an arrival is
recorded and kept until its boundary completes; a former-started group flushes at level 0 and traps with PHASE_MISMATCH at
any other; JOIN frees the group's slot; YIELD leaves the active set for a READY group; a recorded store error traps with
REMOTE_ERROR. -/
def Obligations.OrderingForms : Prop :=
  ∀ (m : BitVec 3) (l : BitVec 3) (s : State),
    (Admits s true true true [] [] → (∀ e ∈ s.storeErrors, m.toNat.testBit e.cls = false) →
      (∀ a ∈ s.accs, s.mine a.2 = true → a.2.unperformed = true → m.toNat.testBit a.2.cls = false) →
      Completes (.fence m) s fun t => Finished (s.markFenced m.toNat) t) ∧
    (Admits s true false true [] [] →
      (∀ since cid v, s.holding = some ⟨since, .commit cid, v⟩ → s.here.committed cid = true →
        Completes .flush s fun t => Finished s t) ∧
      (∀ e, s.holding = none → s.storeErrors.head? = some e →
        exec .flush s = .next ((s.dropErrors fun x => decide (x = e)).raiseTrap { cause := 0x0C, addr := e.ea, aux := e.ea, detail := e.reason })) ∧
      (s.cur.stream = .control → s.holding = none → s.storeErrors = [] → s.outstandingBy (fun a => !a.isLoad) = false →
        Completes .flush s fun t => Finished s t)) ∧
    (Admits s true false false [] [] →
      (s.grp.kindId = 0xFF →
        (s.holding = none → s.storeErrors = [] → s.outstandingBy (fun a => !a.isLoad) = false →
          exec (.phase l) s =
            .next (((s.modGrp fun g => { g with arrived := some l.toNat }).holdFor (.boundary l.toNat)).coreArrival s.cur.core)) ∧
        (∀ since v n, s.holding = some ⟨since, .boundary n, some v⟩ →
          (Completes (.phase l) s fun t => Finished (s.modGrp fun g => { g with arrived := none }) t) ∧
          (s.here.job.compat = false →
            Completes (.phaseE l) s fun t => Finished (s.modGrp fun g => { g with arrived := none }) t))) ∧
      (s.grp.kindId ≠ 0xFF → exec (.phase 0) s = exec .flush s ∧ (s.here.job.compat = false → exec (.phaseE 0) s = exec .flush s)) ∧
      (s.grp.kindId ≠ 0xFF → l ≠ 0 → exec (.phase l) s = .next (s.raiseTrap { cause := 0x0D })) ∧
      (s.here.job.compat = true → exec (.phaseE l) s = .next (s.raiseTrap { cause := 0x01 })) ∧
      (s.grp.v.busy = false → s.groupOutstanding = false → s.grp.storeErrs = [] → s.grp.status ≠ .joined →
        exec .join s = .next (((s.modHere fun c => c.leave s.cur.slot s.pcc .joined).coreArrival s.cur.core).freeGroup s.cur.core s.cur.slot)) ∧
      (s.here.someReady = false → Completes .yield s fun t => Finished s t) ∧
      (s.here.someReady = true → Completes .yield s fun t =>
        ∃ u, Finished s u ∧ t = u.modHere fun c => c.leaveReady s.cur.slot s.pcc))

/-- R184 to R188, R398, R399 and R402: TRAP raises TRAP with its code; ERET returns to the saved pc, or after a TRAP to the word
behind it, and is an illegal operand with no trap outstanding; HALT stops the core's issue; ICINV drops the sector at once and
ends with its last acknowledgement; TLBINV drops what it covers; MOULT queues a page under the current window; QREAD counts.
A form of the control die is an illegal encoding on a group. QREAD takes the counter as it stands at its issue: the model's choice (log entry 37). -/
def Obligations.SystemForms : Prop :=
  ∀ (d a : BitVec 5) (c : BitVec 8) (sc : BitVec 2) (ts : BitVec 3) (w : BitVec 4) (s : State),
    (Admits s true false true [] [] → exec (.trap c) s = .next (s.raiseTrap { cause := 0x10, detail := c.toNat })) ∧
    (s.cur.stream = .group →
      ∀ i ∈ [Instr.eret, .halt, .tlbinv a ts, .moult a, .qread d w], exec i s = .next (s.raiseTrap { cause := 0x01 })) ∧
    (Admits s false false true [] [] →
      let k := s.ctl s.cur.core
      (k.outstanding = true → Completes .eret s fun t =>
        (let sc := { k.sc with pc := if k.wasTrap then k.savedPc + 4 else k.savedPc, nextIssue := s.pcc + 1 }
         t.ctl s.cur.core = { k with outstanding := false, hold := none, sc }) ∧ t.mem = s.mem) ∧
      (k.outstanding = false → exec .eret s = .next (s.raiseTrap { cause := 0x02 })) ∧
      (Completes .halt s fun t => (t.ctl s.cur.core).halted = true ∧ t.scalar.pc = s.scalar.pc + 4 ∧ t.scalar.rf = s.scalar.rf ∧ t.mem = s.mem) ∧
      (Completes (.qread d w) s fun t => ScalarWrote s t d 21 fun _ =>
        (BitVec.ofNat 64 (s.quiescence w.toNat % 2 ^ 32 + if s.qwin = w.toNat then 2 ^ 63 else 0), 0))) ∧
    (Admits s false false true [] [a] →
      ((s.x a).toNat % 65536 ≠ 0 → exec (.moult a) s = .next (s.raiseTrap { cause := 0x08, addr := s.x a })) ∧
      ((s.x a).toNat % 65536 = 0 → s.moult.pages.length < 8192 → s.tagged ((s.qwin + 1) % 16) = 0 →
        Completes (.moult a) s fun t => t.moult.pages = s.moult.pages ++ [((s.x a).toNat, s.qwin)] ∧ t.qwin = (s.qwin + 1) % 16 ∧
          t.scalar.pc = s.scalar.pc + 4 ∧ t.scalar.rf = s.scalar.rf ∧ t.mem = s.mem ∧ t.accs = s.accs) ∧
      (ts.toNat ≤ 2 → s.holding = none → (s.x a).getLsbD 63 = false →
        Completes (.tlbinv a ts) s fun t =>
          (∀ k e, k ∈ t.cores.map Prod.fst → s.shotDies ts.toNat ((s.x a).toNat / 2 ^ 56 % 64) (dieOf k) = true →
            e ∈ (t.core k).mem.tlb → shotEntry ((s.x a).toNat / 2 ^ 56 % 64) ((s.x a).toNat % 2 ^ 56) ((s.x a).getLsbD 62) e = false) ∧
          (ts ≠ 1 → ∀ k e, e ∈ (t.ctl k).tlb → shotEntry ((s.x a).toNat / 2 ^ 56 % 64) ((s.x a).toNat % 2 ^ 56) ((s.x a).getLsbD 62) e = false) ∧
          t.mem = s.mem ∧ t.scalar.rf = s.scalar.rf ∧ ∃ sd, t.shoots.get s.nextId = some sd) ∧
      (∀ since n v, ts.toNat ≤ 2 → s.holding = some ⟨since, .shoot n, v⟩ → s.shoots.get n = none →
        Completes (.tlbinv a ts) s fun t => Finished s t)) ∧
    (Admits s true false true [] [a] → (s.cur.stream = .control → sc = 3) →
      (s.cur.stream = .group → s.holding = none → Completes (.icinv a sc) s fun t =>
        (∀ k e, k ∈ t.cores.map Prod.fst → inScope sc.toNat s.cur.core k = true → e ∈ (t.core k).mem.icache →
          ¬ (e.1 % 2 ^ 56 = (s.x a).toNat / 128 ∧ e.1 / 2 ^ 56 = s.here.job.ctx)) ∧ t.mem = s.mem ∧ t.scalar.rf = s.scalar.rf) ∧
      ∀ since u v, s.holding = some ⟨since, .until u, v⟩ → u ≤ s.pcc → Completes (.icinv a sc) s fun t => Finished s t)

/-- R10, R12, R74, R260 and R395: a trap of a group's scalar stream suspends the group where its pc stands, and one record with
the cause, the pc and the addresses joins those its context's queue is to receive; no register and no memory byte changes. -/
def TrapEntryHold : Prop :=
  ∀ (t : TrapArgs) (s : State), s.cur.stream = .group → s.here.chargeable s.cur.slot = true → t.cause ≠ 0x0F → t.pc = none →
    t.cause ≠ 0x06 → t.cause ≠ 0x07 →
    let u := s.raiseTrap t
    let j := s.here.job
    u.grp.status = .trapped ∧ u.grp.sc = s.grp.sc ∧ u.grp.vregs = s.grp.vregs ∧ u.grp.preds = s.grp.preds ∧
    u.grp.traps = s.grp.traps ++ [⟨t.cause, s.scalar.pc, .group, decide (t.cause = 0x09), t.addr, t.aux, t.cidx, t.elem⟩] ∧
    (u.ctx j.ctx).held = (s.ctx j.ctx).held ++
      [{ pcc := s.pcc, aux := t.aux, addr := t.addr, pc := s.scalar.pc, jobid := j.jobid, role := j.role, core := physOf s.cur.core,
         die := dieOf s.cur.core, ctx := j.ctx, slot := s.cur.slot, stream := 0, jobrec := false, replay := decide (t.cause = 0x09),
         cidx := t.cidx, elem := t.elem, detail := t.detail, killed := false, cause := t.cause }] ∧
    (∀ p ∈ u.here.sched.active.toList, p ≠ some s.cur.slot) ∧ u.here.spm = s.here.spm ∧
    (∀ n, n ≠ s.cur.slot → u.here.group n = s.here.group n) ∧ (∀ k, k ≠ s.cur.core → u.core k = s.core k) ∧ u.mem = s.mem

/-- R185: a trap of a control-die core saves its pc and cause and goes on at the trap entry; a second one before ERET stops the
core. -/
def ControlTrapEntryHold : Prop :=
  ∀ (t : TrapArgs) (s : State), s.cur.stream = .control →
    let k := s.ctl s.cur.core
    let u := s.raiseTrap t
    (k.outstanding = false →
      let sc := { k.sc with pc := k.entry, nextIssue := s.pcc + 1 }
      let wasTrap := decide (t.cause = 0x10)
      u.ctl s.cur.core = { k with savedPc := k.sc.pc, savedCause := t.cause, outstanding := true, wasTrap, hold := none, sc }) ∧
    (k.outstanding = true → (u.ctl s.cur.core).stopped = true ∧ (u.ctl s.cur.core).sc = k.sc) ∧ u.mem = s.mem ∧ u.cores = s.cores

/-- R10, R12, R74, R185, R260 and R395: what taking a trap saves, and where it goes, on a group and on the control die. -/
def Obligations.TrapEntries : Prop := TrapEntryHold ∧ ControlTrapEntryHold

/-! ### The matrix stream -/

/-- The matrix stream may issue its next word live: its table runs, no replay is in progress, and the word is neither the first
of a treadle table nor one that closes a segment at a wrap. -/
def MatrixLive (s : State) (r : MRun) : Prop :=
  s.cur.stream = .matrix ∧ s.mx.run = some r ∧ s.mx.replay = none ∧ (r.treadle = true → r.pc ≠ r.header + 4) ∧ s.mx.wrapCloses = false

/-- What the issue of a matrix word leaves alone: groups, the scratchpad, the accumulator, the other cores and memory. -/
def MatrixKept (s t : State) : Prop :=
  t.here.groups = s.here.groups ∧ t.here.spm = s.here.spm ∧ t.here.chans = s.here.chans ∧ t.here.eft = s.here.eft ∧
  t.here.j = s.here.j ∧ t.here.matrix.acc = s.here.matrix.acc ∧ (∀ k, k ≠ s.cur.core → t.core k = s.core k) ∧
  ∀ k, Memory.read t.mem k = Memory.read s.mem k

/-- A matrix word has issued: the table goes on so many bytes further in the next cycle, and its segment has taken the word. -/
def MatrixIssued (s t : State) (r : MRun) (step : Nat) : Prop :=
  MatrixKept s t ∧ t.here.matrix.nextIssue = s.pcc + 1 ∧ t.here.matrix.cmds = s.here.matrix.cmds + 1 ∧
  t.here.matrix.run = some { r with pc := r.pc + BitVec.ofNat 64 step, started := true, seg := r.seg.map (·.take (s.wordAt r.pc)), ea := none,
                                        pathHeld := false, resumed := none }

/-- The format word that the next command pops is there (R231). -/
def FormatReady (s : State) (fw : Word) : Prop := ∃ e l, s.mx.fq = e :: l ∧ e.fill ≤ s.pcc ∧ e.word = fw

/-- R109, R231, R235 to R237 and R313: an MMA whose packets, weight bank and format word are there issues: its rows enter the
array, row i popped at t + i × stride and landing 39 cycles later, the A path is held for stride × rows, and the format word
is gone. A stamped one issues in its cycle only. An empty format queue traps with FORMAT_QUEUE. -/
def Obligations.MatrixMultiply : Prop :=
  ∀ (t : BitVec 3) (a sp : BitVec 4) (m : BitVec 5) (x k p : BitVec 1) (r : MRun) (fw : Word) (s : State),
    let n := m.toNat + 1
    let i := Instr.mma t a sp m x k p
    let tr := decide (x = 1)
    MatrixLive s r → r.treadle = false → (s.here.port a.toNat).serves 7 = true → n ≤ (s.here.port a.toNat).capacity → s.mx.aFree ≤ s.pcc →
    (p = 1 → r.exposed = true ∧ ∃ d, s.mx.stamp = some d ∧ s.mx.t0 + d = s.pcc) →
      (s.mx.fq = [] → exec i s = .next (s.raiseTrap { cause := 0x05 })) ∧
      (FormatReady s fw → mmaFed s a sp n fw = true → (s.mx.bank s.mx.act.toNat).usable ≤ s.pcc →
        (r.exposed = false → fwAcc fw = true → s.mx.tilePending (mmaTiles t.toNat tr (fwB fw)) = false) →
        (mmaPopOk s t a sp n tr fw = false → exec i s = .next (s.raiseTrap { cause := 0x02, aux := fw })) ∧
        (mmaPopOk s t a sp n tr fw = true →
          Completes i s fun u =>
            MatrixIssued s u r 4 ∧ u.here.matrix.fq = s.here.matrix.fq.drop 1 ∧
            u.here.matrix.aFree = s.pcc + rowStride fw * n ∧ u.here.matrix.rows.length = s.here.matrix.rows.length + n ∧
            (∀ j < n, ∃ q, u.here.matrix.rows[s.here.matrix.rows.length + j]? = some q ∧ q.tile = t.toNat ∧ q.row = j ∧
              q.pop = s.pcc + rowStride fw * j ∧ q.land = s.pcc + rowStride fw * j + 39 ∧ q.fw = fw ∧ q.bank = s.mx.act.toNat ∧ q.t = tr ∧
              ∀ w, (s.here.port a.toNat).packets[j]? = some w → q.a = maskedBytes w.bytes w.mask) ∧
            (p = 1 → u.here.matrix.stamp = none) ∧ (p = 0 → u.here.matrix.stamp = s.here.matrix.stamp)))

/-- R234, R235, R239, R241, R243 and R244: the other commands issue: MLDW fills a bank in 34 cycles, usable from 35, MSWAP turns
the active bank over, MDRAIN holds its path for 32 cycles, MZERO zeroes its tile from the second cycle on, MFLAGS clears the
flags of its mask; MSTAMP sets the stamp of an exposed table. MLDW and MDRAIN have not waited for their path up to a slot start of
a treadle run. -/
def MatrixCommandsHold : Prop :=
  ∀ (b : BitVec 1) (t : BitVec 3) (port j : BitVec 4) (o : BitVec 13) (f : BitVec 9) (d : BitVec 24) (r : MRun) (fw : Word) (c : Core) (s : State),
    MatrixLive s r →
    let m := s.here.matrix
    let issued (i : Instr) (P : State → Prop) : Prop := Completes i s fun u => MatrixIssued s u r 4 ∧ P u
    issued .mnop (fun u => u.here.matrix.act = m.act ∧ u.here.matrix.rows = m.rows ∧ u.here.matrix.mflags = m.mflags) ∧
    issued .mswap (fun u => u.here.matrix.act = ~~~m.act) ∧
    issued .mmark (fun u => ∃ w c, u.here.matrix.window = some w ∧ w.cmds = [c] ∧ c.cmd = m.cmds ∧ w.replayed = false) ∧
    (r.exposed = true ∧ r.treadle = false → issued (.mstamp d) fun u => u.here.matrix.stamp = some d.toNat) ∧
    (r.exposed = false ∨ r.treadle = true → exec (.mstamp d) s = .next (s.raiseTrap { cause := 0x01 })) ∧
    ((r.exposed = true ∨ s.mx.tilePending [t.toNat] = false) →
      issued (.mzero t) fun u => u.here.matrix.zeroings = m.zeroings ++ [⟨s.pcc + 1, t.toNat⟩]) ∧
    ((r.exposed = true ∨ s.mx.quiet = true) → issued (.mflags f) fun u => u.here.matrix.mflags = m.mflags &&& ~~~(f.setWidth 32)) ∧
    (FormatReady s fw →
      ((s.here.port port.toNat).feeds 7 = true → m.drFree ≤ s.pcc → s.heldOver = false → 32 ≤ (s.here.port port.toNat).free →
        (r.exposed = true ∨ s.mx.tilePending [t.toNat] = false) → drainBytes (fwDfmt fw) ≤ (s.here.port port.toNat).bytesPer →
        issued (.mdrainPort t port) fun u => u.here.matrix.drFree = s.pcc + 32 ∧ u.here.matrix.fq = m.fq.drop 1 ∧
          ∃ q, u.here.matrix.drains = m.drains ++ [q] ∧ q.start = s.pcc ∧ q.tile = t.toNat ∧ q.fw = fw ∧ q.port = some port.toNat) ∧
      (let ea := s.mAddress j o
       let len := 32 * drainBytes (fwDfmt fw)
       ea.toNat % 16 = 0 → s.here.enter true ea.toNat 4096 m.cmds s.pcc = some c → c.rangeBlocked 0 m.cmds = false → m.drFree ≤ s.pcc → s.heldOver = false →
         (r.exposed = true ∨ s.mx.tilePending [t.toNat] = false) → ea.toNat + len ≤ s.here.job.spmSize → ea.toNat + len ≤ 2 ^ 19 →
         issued (.mdrainSpm t j o) fun u => u.here.matrix.drFree = s.pcc + 32 ∧
           ∃ q, u.here.matrix.drains = m.drains ++ [q] ∧ q.tile = t.toNat ∧ q.fw = fw ∧ q.port = none ∧ q.ea = ea.toNat) ∧
      (let ea := s.mAddress j o
       ea.toNat % 16 = 0 → s.here.enter false ea.toNat 2112 m.cmds s.pcc = some c → c.rangeBlocked 0 m.cmds = false → m.wlFree ≤ s.pcc → s.heldOver = false →
         (m.bank b.toNat).busyTo < s.pcc → ea.toNat + loadBytes (fwB fw) ≤ s.here.job.spmSize → ea.toNat + loadBytes (fwB fw) ≤ 2 ^ 19 →
         issued (.mldw b j o) fun u => u.here.matrix.wlFree = s.pcc + 33 ∧ (u.here.matrix.bank b.toNat).usable = s.pcc + 35 ∧
           u.here.matrix.loads = m.loads ++ [⟨s.pcc + 34, b.toNat, BitVec.ofNat 2 (fwB fw), ea.toNat, m.cmds⟩])) ∧
    ((s.mAddress j o).toNat % 16 ≠ 0 →
      exec (.mldw b j o) s = .next (s.raiseTrap { cause := 0x08, addr := s.mAddress j o }) ∧
      exec (.mdrainSpm t j o) s = .next (s.raiseTrap { cause := 0x08, addr := s.mAddress j o }))

/-- R113, R242, R313 and R328: MSEG opens a segment of an exposed table with the literal that is fetched behind it, and MTEND ends the table, each once an open segment
passes its check; MTREADLE, the first word of a treadle run, sets the controller, and traps with ILLEGAL_OPERAND where its
rows exceed its beat period. -/
def MatrixControlHold : Prop :=
  ∀ (y : BitVec 20) (p : BitVec 1) (rows : BitVec 5) (bp : BitVec 8) (n : BitVec 12) (lit : BitVec 32) (f : TrapArgs) (r : MRun) (s : State),
    s.cur.stream = .matrix → s.mx.run = some r → s.mx.replay = none →
    (r.treadle = false → r.trapped = false → (∀ g, r.seg = some g → s.segPasses g = true) →
      (r.exposed = true → s.fetch s.curKey s.curCtx (r.pc + 4) = .word lit → Completes (.mseg y) s fun t => MatrixKept s t ∧
        ∃ q, t.here.matrix.run = some q ∧ q.pc = r.pc + 8 ∧ q.seg = some (Seg.opened s.pcc y.toNat lit)) ∧
      (r.exposed = true → s.fetch s.curKey s.curCtx (r.pc + 4) = .fault f → exec (.mseg y) s = .next (s.raiseTrap f)) ∧
      (Completes .mtend s fun t => MatrixKept s t ∧
        ∃ q, t.here.matrix.run = some q ∧ q.ended = true ∧ q.seg = none ∧ t.here.matrix.window = none)) ∧
    (r.treadle = false → r.exposed = false → exec (.mseg y) s = .next (s.raiseTrap { cause := 0x01 })) ∧
    (r.treadle = true → r.pc = r.header + 4 → r.seg = none → s.here.job.compat = false →
      (bp.toNat < rows.toNat → exec (.mtreadle p rows bp n) s = .next (s.raiseTrap { cause := 0x02 })) ∧
      (rows.toNat ≤ bp.toNat → Completes (.mtreadle p rows bp n) s fun t => MatrixKept s t ∧
        t.here.treadle.bp = bp.toNat + 1 ∧ t.here.treadle.rpb = rows.toNat + 1 ∧ t.here.treadle.nb = n.toNat ∧
        t.here.treadle.strict = decide (p = 1) ∧ t.here.treadle.tbeat = s.here.treadle.tbeat ∧
        ∃ q, t.here.matrix.run = some q ∧ q.pc = r.pc + 4 ∧ q.started = true)) ∧
    (r.treadle = false → exec (.mtreadle p rows bp n) s = .next (s.raiseTrap { cause := 0x01 }))

/-- R22, R23 and R25: an entry of Table16 is the 24-bit significand nearest to 2^(k/256); a product of the array is NaN with a NaR,
+0 with a zero, and else by its quotient an infinity, +0 or a binary32 image; a step of an accumulation is NaN with a NaN or with
infinities of both signs, an infinity with one, and else the exact sum rounded once to nearest even, +0 where it is zero. Two
printed entries of Table16 differ from its definition, which is followed (the model's choice, log entry 5). -/
def ArrayArithmeticHolds : Prop :=
  (∀ k < 256, 2 ^ 23 ≤ table16 k ∧ table16 k < 2 ^ 24 ∧ (2 * table16 k - 1) ^ 256 ≤ 2 ^ (6144 + k) ∧
    2 ^ (6144 + k) < (2 * table16 k + 1) ^ 256) ∧
  (∀ (a : LVal) (sa sw : Int), (lnsProduct .nar a sa sw).1 = 0x7FC00000 ∧ (lnsProduct a .nar sa sw).1 = 0x7FC00000 ∧
    (a ≠ .nar → (lnsProduct .zero a sa sw).1 = 0 ∧ (lnsProduct a .zero sa sw).1 = 0)) ∧
  (∀ (na nw : Bool) (ua uw sa sw : Int),
    let u := ua + uw + sa + sw
    let sign := if na = nw then 0 else 0x80000000
    let p := (lnsProduct (.real na ua) (.real nw uw) sa sw).1
    (128 ≤ u / 256 → p = sign + 0x7F800000) ∧ (u / 256 < -126 → p = 0) ∧
    (-126 ≤ u / 256 → u / 256 < 128 → p = sign + (u / 256 + 127).toNat * 2 ^ 23 + (table16 (u % 256).toNat - 2 ^ 23))) ∧
  ∀ xs : List Nat,
    let has (v : FVal) : Prop := ∃ x ∈ xs, Fmt.f32.read x = v
    let nan : Prop := ∃ q, has (.nan q)
    (nan ∨ has (.inf false) ∧ has (.inf true) → (accStep xs).1 = 0x7FC00000) ∧
    (¬nan → has (.inf false) → ¬has (.inf true) → (accStep xs).1 = 0x7F800000) ∧
    (¬nan → has (.inf true) → ¬has (.inf false) → (accStep xs).1 = 0xFF800000) ∧
    (¬nan → ¬has (.inf false) → ¬has (.inf true) →
      let t := (xs.map f32Units).sum
      (t = 0 → (accStep xs).1 = 0) ∧ (accStep xs).1 = (Fmt.f32.roundInt .rne false t (-149)).bits)

/-- R24, R25 and R237: the product of an output element at a reduction index. -/
def arrayProduct (b : Bank) (r : MRow) (c x : Nat) : Nat :=
  let w := if r.t then b.weight (fwB r.fw) c x else b.weight (fwB r.fw) x c
  (lnsProduct (lnsElement (fwA r.fw) r.a.toNat x).1 w.1 r.sa (if fwWsm r.fw = 1 then 0 else b.scale (if r.t then x else c))).1

/-- R24, R25, R109, R234, R237, R239, R240 and R241: the array's work at a cycle's end. A row of an MMA that is due is written to its
accumulator elements and to nothing else; one due in the next cycle takes its elements, each the sum of its products four at a time
in ascending reduction index from the old value or +0; a drain reads row i in cycle t + i and writes it in cycle t + i + 8 to its
scratchpad bytes; a due MZERO clears its tile; a due MLDW fills its bank from scratchpad. That a load's rows are all read as it
lands is the model's choice (log entry 45). The accumulator of a core after a cycle is what these leave. -/
def ArrayCycleHold : Prop :=
  (∀ (b : Bank) (r : MRow) (c acc : Nat), (mmaElement b r 0 c acc).1 = acc ∧
    ∀ g, (mmaElement b r (4 * (g + 1)) c acc).1 =
      (accStep ((mmaElement b r (4 * g) c acc).1 :: (List.range 4).map fun i => arrayProduct b r c (4 * g + i))).1) ∧
  (∀ (m : Matrix) (r : MRow) (z : MZeroing) (now : Nat),
    let wide := r.t = true ∧ 2 ≤ fwB r.fw
    let cols := if wide then 64 else 32
    let q := m.cycleRows now
    (m.rows = [r] → r.land ≤ now → q.rows = [] ∧ q.banks = m.banks ∧ q.act = m.act ∧
      (∀ v, r.result = some v → (∀ x < cols, Store.read q.acc (accKey (r.tile + x / 32) r.row x) = (v.extractLsb' (32 * x) 32).toNat) ∧
        ∀ k, (∀ x < cols, k ≠ accKey (r.tile + x / 32) r.row x) → Store.read q.acc k = Store.read m.acc k)) ∧
    (m.rows = [r] → r.land = now + 1 → r.result = none → q.acc = m.acc ∧ q.banks = m.banks ∧
      ∃ v, q.rows = [{ r with result := some v }] ∧ ∀ x < cols,
        (v.extractLsb' (32 * x) 32).toNat = (mmaElement (m.bank r.bank) r (if r.t = false ∧ 2 ≤ fwB r.fw then 64 else 32) x
          (if fwAcc r.fw then Store.read m.acc (accKey (r.tile + x / 32) r.row x) else 0)).1 % 2 ^ 32) ∧
    (m.rows = [r] → now + 1 < r.land → q.rows = [r] ∧ q.acc = m.acc) ∧
    (m.zeroings = [z] →
      (z.land ≤ now → (m.cycleZeroings now).zeroings = [] ∧
        ∀ k, Store.read (m.cycleZeroings now).acc k = if k / 1024 = z.tile then 0 else Store.read m.acc k) ∧
      (now < z.land → m.cycleZeroings now = m))) ∧
  (∀ (m : Matrix) (d : MDrain) (now : Nat), d.nread < 32 →
    (now < d.start + d.nread → m.drainRead now d = (d, 0)) ∧
    (d.start + d.nread ≤ now → ∃ v, (m.drainRead now d).1 = { d with rows := d.rows ++ [(now + 8, v)], nread := d.nread + 1 } ∧
      ∀ i < 32, let w := Store.read m.acc (accKey d.tile d.nread i)
        (fwDfmt d.fw = 0 → (v.extractLsb' (32 * i) 32).toNat = (drainLinear .f32 (fwSat d.fw) w).1 % 2 ^ 32) ∧
        (fwDfmt d.fw = 1 → (v.extractLsb' (16 * i) 16).toNat = (drainLinear .bf16 (fwSat d.fw) w).1 % 2 ^ 16) ∧
        (fwDfmt d.fw = 2 → (v.extractLsb' (16 * i) 16).toNat =
          (LFmt.l16.logCode (Fmt.f32.read w) (fwDscale d.fw) (fwDufmin d.fw)).code % 2 ^ 16) ∧
        (fwDfmt d.fw = 3 → (v.extractLsb' (8 * i) 8).toNat =
          (LFmt.l8.logCode (Fmt.f32.read w) (fwDscale d.fw) (fwDufmin d.fw)).code % 2 ^ 8) ∧
        (fwDfmt d.fw = 4 → (v.extractLsb' (4 * i) 4).toNat =
          (LFmt.l4.logCode (Fmt.f32.read w) (fwDscale d.fw) (fwDufmin d.fw)).code % 2 ^ 4) ∧
        (5 ≤ fwDfmt d.fw → i < 16 → (v.extractLsb' (8 * i) 8).toNat =
          (logCode4x (Fmt.f32.read (Store.read m.acc (accKey d.tile d.nread (2 * i))))
            (Fmt.f32.read (Store.read m.acc (accKey d.tile d.nread (2 * i + 1)))) (fwDscale d.fw) (fwDufmin d.fw)).code % 2 ^ 8))) ∧
  (∀ (f : Fmt) (sat : Bool) (w : Nat),
    ((∃ q, Fmt.f32.read w = .nan q) → (drainLinear f sat w).1 = f.nan) ∧
    (∀ neg, Fmt.f32.read w = .inf neg → (drainLinear f sat w).1 = if sat then f.maxFinite neg else f.inf neg)) ∧
  (∀ (c : Core) (d : MDrain) (t : Nat) (v : BitVec 1024) (rest : List (Nat × BitVec 1024)) (now : Nat),
    let n := drainBytes (fwDfmt d.fw)
    d.rows = (t, v) :: rest →
      (now < t → c.drainWrite now d = (c, d)) ∧
      (t ≤ now → d.port = none → (c.drainWrite now d).2 = { d with rows := rest, written := d.written + 1 } ∧
        (∀ i < n, (c.drainWrite now d).1.spm.read (d.ea + n * d.written + i) = v.extractLsb' (8 * i) 8) ∧
        (∀ a, a < d.ea + n * d.written ∨ d.ea + n * d.written + n ≤ a → (c.drainWrite now d).1.spm.read a = c.spm.read a)) ∧
      (∀ p, t ≤ now → d.port = some p → d.written < d.skip → (c.drainWrite now d).1 = c)) ∧
  (∀ (c : Core) (l : MLoad) (now : Nat), c.matrix.loads = [l] →
    let q := c.cycleLoads now
    let row := if l.fmt = 0 then 64 else 32
    (now < l.land → q = c) ∧
    (l.land ≤ now → q.matrix.loads = [] ∧ q.spm = c.spm ∧ q.matrix.acc = c.matrix.acc ∧
      (q.matrix.bank l.bank).tag = l.fmt ∧ q.matrix.bank (l.bank + 1) = c.matrix.bank (l.bank + 1) ∧
      (∀ r < 32, ∀ i < row, Memory.read (q.matrix.bank l.bank).codes (64 * r + i) = c.spm.read (l.ea + row * r + i)) ∧
      ∀ n < 32, Store.read (q.matrix.bank l.bank).scales n = Memory.readN c.spm (l.ea + 32 * row + 2 * n) 2)) ∧
  ∀ (c : Core) (now : Nat), (c.endCycle now).matrix.acc = ((c.matrix.cycleRows now).cycleZeroings now).acc

/-- R22 to R25, R109, R113, R234, R235, R237, R239 to R244, R313 and R328: the matrix words but MMA, and the array's work of a cycle. -/
def Obligations.MatrixWords : Prop := MatrixCommandsHold ∧ MatrixControlHold ∧ ArrayArithmeticHolds ∧ ArrayCycleHold

/-! ### The clicker channels -/

/-- A word of a clicker program has been read: the channel of the step goes on so many bytes further, and nothing else of the
machine changes. -/
def ChannelRead (s t : State) (r : CRun) (step : Nat) : Prop :=
  t = (s.modCh fun _ => t.ch) ∧ t.ch.cc = s.ch.cc ∧ ∃ q, t.ch.run = some q ∧ q.pc = r.pc + BitVec.ofNat 64 step ∧ q.copies = r.copies ∧ q.j = r.j

/-- R245 to R253: the words of a clicker program. A level takes its count and strides, a base the sum of a job register and an
offset, the copy word its conversion, spaces and length; a level or base number above 5 traps with ILLEGAL_OPERAND, and a word
out of its order with ILLEGAL_ENCODING. CSIG sends its signal once every copy is complete. -/
def Obligations.ClickerWords : Prop :=
  ∀ (l b src dst : BitVec 3) (v : BitVec 21) (i j x y : BitVec 4) (o : BitVec 19) (c w : BitVec 2) (sv : BitVec 16) (n : BitVec 10)
    (k : Nat) (r : CRun) (s : State), s.cur.stream = .chan k → k < 4 → s.ch.run = some r →
    let level (ins : Instr) (f : CLevel → CLevel) : Prop :=
      (r.op = none → l.toNat < 6 → Completes ins s fun t => ChannelRead s t r 4 ∧ t.ch.b = s.ch.b ∧
        ∃ q, t.ch.run = some q ∧ q.op = none ∧ q.levels.length = max r.levels.length (l.toNat + 1) ∧
          ∀ m, q.levels.getD m ⟨1, 0, 0⟩ = if m = l.toNat then f (r.levels.getD m ⟨1, 0, 0⟩) else r.levels.getD m ⟨1, 0, 0⟩) ∧
      (r.op = none → 6 ≤ l.toNat → exec ins s = .next (s.raiseTrap { cause := 0x02 })) ∧
      (r.op ≠ none → exec ins s = .next (s.raiseTrap { cause := 0x01 }))
    let copy (ins : Instr) (conv : Nat) : Prop :=
      let lit := if conv = 0 then 0 else r.literal
      (r.op = none → refOk src.toNat x.toNat = true → refOk dst.toNat y.toNat = true →
        (conv = 0 ∨ litMbzOk lit = true ∧ litLtype lit ≤ 3 ∧ wholeElements conv lit (n.toNat + 1) = true) →
        Completes ins s fun t => ChannelRead s t r (if conv = 0 then 4 else 8) ∧
          ∃ q, t.ch.run = some q ∧ q.op = some (.copy conv lit (n.toNat + 1)) ∧ q.opPc = r.pc ∧ q.srcSpace = src.toNat ∧
            q.dstSpace = dst.toNat ∧ q.srcRef = x.toNat ∧ q.dstRef = y.toNat ∧ q.levels = r.levels) ∧
      (r.op = none → (conv = 0 ∨ litMbzOk lit = true) →
        ¬(refOk src.toNat x.toNat = true ∧ refOk dst.toNat y.toNat = true ∧
          (conv = 0 ∨ litLtype lit ≤ 3 ∧ wholeElements conv lit (n.toNat + 1) = true)) →
        exec ins s = .next (s.raiseTrap { cause := 0x02 })) ∧
      (r.op ≠ none → exec ins s = .next (s.raiseTrap { cause := 0x01 }))
    level (.clevCount l v) (fun z => { z with count := v.toNat + 1 }) ∧ level (.clevSs l v) (fun z => { z with ss := v.toInt }) ∧
    level (.clevDs l v) (fun z => { z with ds := v.toInt }) ∧
    level (.clevJs l i j) (fun z => { z with ss := r.j[i.toNat].toInt, ds := r.j[j.toNat].toInt }) ∧
    (r.op = none → b.toNat < 6 → Completes (.cbase b j o) s fun t => ChannelRead s t r 4 ∧
      ∀ m < 6, t.ch.base m = if m = b.toNat then r.j[j.toNat] + o.signExtend 64 else s.ch.base m) ∧
    (r.op = none → 6 ≤ b.toNat → exec (.cbase b j o) s = .next (s.raiseTrap { cause := 0x02 })) ∧
    (r.op ≠ none → exec (.cbase b j o) s = .next (s.raiseTrap { cause := 0x01 }) ∧
      exec (.cfill dst x w n j) s = .next (s.raiseTrap { cause := 0x01 })) ∧
    (r.op = none → refOk dst.toNat x.toNat = false → exec (.cfill dst x w n j) s = .next (s.raiseTrap { cause := 0x02 })) ∧
    (r.op = none ∨ r.ended = true → exec (.csig b c sv) s = .next (s.raiseTrap { cause := 0x01 }) ∧
      exec .cend s = .next (s.raiseTrap { cause := 0x01 })) ∧
    (r.op ≠ none → r.ended = false → 6 ≤ b.toNat → exec (.csig b c sv) s = .next (s.raiseTrap { cause := 0x02 })) ∧
    (r.ended = true → exec .cnop s = .next (s.raiseTrap { cause := 0x01 })) ∧
    (∀ sp rf : Nat, refOk sp rf = true ↔ sp = 5 ∨ rf < 6) ∧
    copy (.ccopy src dst x y n) 0 ∧ copy (.ccopyTolns src dst x y n) 1 ∧ copy (.ccopyTolin src dst x y n) 2 ∧
    (r.op = none → refOk dst.toNat x.toNat = true → Completes (.cfill dst x w n j) s fun t => ChannelRead s t r 4 ∧
      ∃ q, t.ch.run = some q ∧ q.op = some (.fill (r.j[j.toNat].toNat % 2 ^ (8 * 2 ^ w.toNat)) (2 ^ w.toNat) (n.toNat + 1)) ∧
        q.dstSpace = dst.toNat ∧ q.dstRef = x.toNat) ∧
    (r.ended = false → Completes .cnop s fun t => ChannelRead s t r 4) ∧
    (r.op ≠ none → r.ended = false → Completes .cend s fun t => t.mem = s.mem ∧ t.here.groups = s.here.groups ∧
      ∃ q, t.ch.run = some q ∧ q.ended = true ∧ q.pc = r.pc + 4) ∧
    (r.op ≠ none → r.ended = false → b.toNat < 6 → r.copied = true → r.sigOut = false →
      ∀ e, Reaches s (s.ch.base b.toNat) 8 .both e → Completes (.csig b c sv) s fun t =>
        (∃ a, t.accs.get s.nextId = some a ∧ a.kind = .csig k sv.toInt ∧ a.va = s.ch.base b.toNat ∧ a.size = 8 ∧ a.cls = c.toNat) ∧
        (∃ q, t.ch.run = some q ∧ q.sigOut = true ∧ q.pc = r.pc) ∧ t.here.groups = s.here.groups ∧
        ∀ m, Memory.read t.mem m = Memory.read s.mem m)

/-! ### Events of accesses -/

/-- The scalar stream of a place. -/
def scalarAt (s : State) (f : Focus) : Scalar := ({ s with cur := f }).scalar

/-- R134, R138, R224 and R484 to R486: a load that is performed, and that no earlier access of its core holds back (R288, R307),
takes the bytes that the store order gives it, and answers after its latency, later by what its die's network delays it (R120); its
return writes its destination register. A poisoned or failed one writes no register and traps in its group. An
atomic changes memory and answers the old value. -/
def AccessEventsHold : Prop :=
  ∀ (id d op b cmp : Nat) (sg : Bool) (err : DataError) (a : Access) (s : State),
    s.accs.get id = some a →
    (a.kind = .load d sg → s.awaits a = true → d ≠ 0 → d < 32 → (scalarAt s a.focus).waits.get d = some id →
      Completes (.loadDataReturn id) s fun t =>
        t.accs = s.accs.del id ∧ (scalarAt t a.focus).rf.get (BitVec.ofNat 5 d) = extend sg a.size a.value ∧
        (∀ n : BitVec 5, n.toNat ≠ d → (scalarAt t a.focus).rf.get n = (scalarAt s a.focus).rf.get n) ∧
        (scalarAt t a.focus).ready.get d = some s.pcc ∧ (scalarAt t a.focus).pc = (scalarAt s a.focus).pc ∧ t.mem = s.mem) ∧
    (a.kind = .load d sg → s.awaits a = true → a.stream = .group → a.core < Config.controlBase →
      (s.core a.core).chargeable a.slot = true →
      Completes (.dataErrorArrival id err) s fun t =>
        let g := (s.core a.core).group a.slot
        let u := (t.core a.core).group a.slot
        t.accs = s.accs.del id ∧ u.status = .trapped ∧ u.sc.rf = g.sc.rf ∧ u.sc.pc = g.sc.pc ∧ u.vregs = g.vregs ∧
        u.traps = g.traps ++ [⟨errCause err, a.pc, .group, replays (errCause err), a.va, g.sc.pc, 0, 0⟩] ∧ t.mem = s.mem) ∧
    (a.performed = false → s.heldBehind id a = false → isConfig a.pa = false → (s.isLocal a.pa = true ∨ a.replyAt ≠ 0) →
      (a.kind = .load d sg →
        Completes (.accessPerformed id) s fun t =>
          t.mem = s.mem ∧ ∃ c, t.accs.get id = some c ∧ c.performed = true ∧ c.value = s.readFor a.core a.order a.pa a.size ∧
            c.error = (if s.readPoison a.core a.order a.pa a.size then some .poison else none) ∧
            (a.tag = none → (s.pcc + (a.replyAt - a.performAt) + (s.replyLate a).2, c.ending id) ∈ t.agenda)) ∧
      (a.kind = .amo d op b cmp → (∀ p ∈ (s.core a.core).mem.pend, p.performed = false) →
        (∀ g ∈ granulesOf a.pa a.size, s.poison.has g = false) →
        Completes (.accessPerformed id) s fun t =>
          let old := Memory.readN s.mem a.pa a.size
          t.mem = Memory.writeN s.mem a.pa a.size (amoNew op a.size old (storeValue b a.size) (storeValue cmp a.size)) ∧
          ∃ c, t.accs.get id = some c ∧ c.performed = true ∧ c.value = old) ∧
      (a.kind = .store → a.onCompute = false → s.noHome a.pa = none →
        Completes (.accessPerformed id) s fun t =>
          t.mem = Memory.writeN s.mem a.pa a.size a.value ∧ ∃ c, t.accs.get id = some c ∧ c.performed = true))

/-- R134, R136, R139, R301 and R486: an acknowledged store of a group is marked so, one that failed is dropped and recorded
against its group; a commit message takes its stores' bytes to memory, and its last acknowledgement ends the commit; the bytes
of an ldq enter its port; a line that is replaced sends its dirty sectors to the home, and a sector that has waited too long is
committed and counted. -/
def StoreEventsHold : Prop :=
  ∀ (id core n event reason line sector : Nat) (stores : List PStore) (a : Access) (s : State),
    (s.accs.get id = some a → a.kind = .store → a.stream = .group → a.core < Config.controlBase → s.awaits a = true →
      s.fabric.waiting = [] → s.fabric.queue = [] →
      Completes (.storeAck id) s (fun t =>
        t.accs = s.accs.del id ∧ t.mem = s.mem ∧
        (t.core a.core).mem.pend = (s.core a.core).mem.pend.map fun p => if p.order = a.order then { p with acked := true } else p) ∧
      Completes (.storeErrorRecord id reason) s fun t =>
        t.accs = s.accs.del id ∧ t.mem = s.mem ∧
        ((t.core a.core).group a.slot).storeErrs = ((s.core a.core).group a.slot).storeErrs ++ [⟨a.cls, a.va, reason⟩] ∧
        (t.core a.core).mem.pend = (s.core a.core).mem.pend.filter fun p => decide (p.order ≠ a.order)) ∧
    (s.accs.get id = some a → a.kind = .commit event stores → (s.isLocal a.pa = true ∨ a.replyAt ≠ 0) →
      let named (p : PStore) : Bool := stores.any fun q => decide (q.order = p.order)
      (∀ p, (s.core a.core).mem.pend.filter named = [p] →
        Completes (.commitMessage id) s fun t =>
          Memory.readN t.mem p.pa p.size = p.value % 256 ^ p.size ∧
          (∀ x, (x < p.pa ∨ p.pa + p.size ≤ x) → Memory.read t.mem x = Memory.read s.mem x) ∧
          (t.core a.core).mem.pend = ((s.core a.core).mem.pend.filter fun q => decide (q.order ≠ p.order)).flatMap (·.without p) ∧
          ∃ c, t.accs.get id = some c ∧ c.performed = true) ∧
      (∀ e l, s.cores.has a.core = true → (s.core a.core).mem.commits.wf = true → (s.core a.core).mem.commits.get e = some l →
        Completes (.commitAck id) s fun t =>
          let rest := l.filter fun k => decide (k ≠ id)
          t.accs = s.accs.del id ∧ t.mem = s.mem ∧ (t.core a.core).mem.commits.get e = (if rest = [] then none else some rest) ∧
          (t.core a.core).mem.pend = (s.core a.core).mem.pend.filter fun p => !(p.committing && named p))) ∧
    (∀ x : LdqSlot, s.accs.get id = some a → a.kind = .ldq n → s.cores.has a.core = true →
      ((s.core a.core).port n).ldqs = [x] → x.id = id →
      Completes (.ldqDataArrival id) s fun t =>
        let bytes := (List.range x.size).map fun i => (⟨BitVec.ofNat 8 (a.value / 256 ^ i), true, false⟩ : PortByte)
        t.accs = s.accs.del id ∧ (t.core a.core).port n = ({ (s.core a.core).port n with ldqs := [] }).append bytes s.pcc) ∧
    (s.cores.has core = true →
      let c := s.core core
      Completes (.l1LineReplacement core line) s (fun t =>
        (t.core core).mem.l1 = c.mem.l1.filter (fun e => decide (e.1 / 4 ≠ line)) ∧ (t.core core).mem.pend = c.mem.pend ∧ t.mem = s.mem ∧
        ∀ p ∈ c.mem.pend, p.place = .dirty → p.pa / 512 = line → (s.pcc, Event.dirtySectorEviction core (p.pa / 128)) ∈ t.agenda) ∧
      ((∃ p ∈ c.mem.pend, p.place = .dirty ∧ p.pa / 128 = sector) → s.entryFree core (sector * 128) = true →
        Completes (.dirtySectorEviction core sector) s fun t =>
          t.mem = s.mem ∧ (t.core core).mem.l1 = c.mem.l1.del sector ∧
          (t.core core).mem.pend = c.mem.pend.map fun p =>
            if p.place = .dirty ∧ p.pa / 128 = sector then { p with place := .versioned } else p) ∧
      ((∃ q ∈ s.agenda, q.2 = .dirtySectorEviction core sector) →
        let ps := c.mem.pend.filter fun p => decide (p.pa / 128 = sector) && p.performed
        let die := (homeDie (regionOf (localOf (sector * 128)))).getD (dieOf core)
        ps ≠ [] → s.accs = [] →
        Completes (.forcedCommit core sector) s fun t =>
          t.mem = (s.commitStores core ps).mem ∧ (t.die die).fcommit = min ((s.die die).fcommit + 1) 0xFFFFFFFF ∧
          (∀ q ∈ t.agenda, q.2 ≠ .dirtySectorEviction core sector))) ∧
    ∀ slot, (s.core core).groups.has slot = true → ((s.core core).group slot).v.clears = true →
      (∀ m ∈ ((s.core core).group slot).v.mems, m.fault = none) →
      Completes (.vectorBusyClear core slot) s fun t =>
        let v := ((s.core core).group slot).v
        ((t.core core).group slot).v = { v with busy := false, ended := false, mems := [], latch := none, seg := none } ∧ t.mem = s.mem

/-- R296 and R301: what is left of a pending store once a later one of its core is committed covers the bytes that the later one does
not write, with the values they had; a store that is not earlier is left whole. -/
def StoreLeftHold : Prop :=
  ∀ (q p : PStore),
    let covers (r : PStore) (x : Nat) : Bool := decide (r.pa ≤ x) && decide (x < r.pa + r.size)
    (∀ x, (q.without p).any (covers · x) = (covers q x && !(decide (q.order < p.order) && covers p x))) ∧
    (∀ r ∈ q.without p, r.order = q.order ∧ r.slot = q.slot ∧ r.stream = q.stream ∧ q.pa ≤ r.pa ∧ r.pa + r.size ≤ q.pa + q.size ∧
      r.value % 256 ^ r.size = q.value / 256 ^ (r.pa - q.pa) % 256 ^ r.size) ∧
    (p.order ≤ q.order → q.without p = [q])

/-- R134, R136, R139, R296, R301 and R486: the events of stores, commits and lines, and what a commit leaves of earlier stores. What is counted for a sector of no home, and where, is the model's choice (log entry 32). -/
def Obligations.StoreEvents : Prop := StoreEventsHold ∧ StoreLeftHold

/-- R393 and R394: a page walk that finds its page, and a hit in the strip TLB, give the translation to the requester's core, whose
word goes on; a walk that a shootdown has dropped installs nothing. -/
def WalkEventsHold : Prop :=
  ∀ (id : Nat) (w : Walk) (e : TlbEntry) (q : WalkReq) (s : State),
    s.walks = [(id, w)] → w.joined = [q] →
    (w.dropped = false → s.cores.has q.focus.core = true →
      (w.stage = .walking ∧ s.walkPage w.core w.ctx w.va = .found e) ∨ (w.stage = .hit ∧ tlbFind (s.stlb w.core) w.ctx w.va = some e) →
      Completes (.tlbWalkComplete id) s fun t =>
        t.walks = [] ∧ e ∈ (t.core q.focus.core).mem.tlb ∧ t.mem = s.mem ∧
        (q.focus.stream = .group → ((s.core q.focus.core).group q.focus.slot).hold.any (fun h => decide (h.wait = .walk id)) = true →
          ((t.core q.focus.core).group q.focus.slot).hold = none)) ∧
    (w.dropped = true →
      Completes (.tlbWalkComplete id) s fun t => t.walks = [] ∧ t.dies = s.dies ∧ t.mem = s.mem ∧
        (t.core q.focus.core).mem.tlb = (s.core q.focus.core).mem.tlb)

/-- R134, R138, R224, R394 and R484 to R486: accesses are performed and answered, and walks end. How the network delays an answer, and what a dropped walk does, are the model's choices (log entries 10 and 32). -/
def Obligations.AccessAndWalkEvents : Prop := AccessEventsHold ∧ WalkEventsHold

/-! ### Events of engines and ports -/

/-- R117, R155, R244, R249, R253, R326 and R488: a command window is replayed where it may be, with ACT as at its marker and the
rows of other commands that are still to be popped kept, and else its owner's group traps; a finished range entry goes; a channel starts its next copy and ends it with its bytes in place; the answer of a CSIG
lets the program go on; the last copy raises the completion counter. What a replay re-executes, and which entries a window keeps, are the model's choices (log entries 31 and 48). -/
def Obligations.ChannelEvents : Prop :=
  ∀ (core ch : Nat) (s : State), s.cores.has core = true →
    let c := s.core core
    (∀ (trigger : ReplayTrigger) (r : MRun) (w : Window), c.matrix.run = some r → c.matrix.window = some w → r.trapped = false →
      (c.matrix.replayable = true →
        Completes (.commandWindowReplay core trigger) s fun t =>
          (t.core core).matrix.rows = c.matrix.otherRows w (s.pcc + 1) ∧
          (c.matrix.otherRows w (s.pcc + 1) = [] → (t.core core).matrix.aFree = s.pcc) ∧
          (t.core core).matrix.act = w.markerAct c.matrix.act ∧
          (∃ p, (t.core core).matrix.replay = some p ∧ p.cmds.map (·.2) = w.cmds.map fun k => k.replayed c.matrix.rows s.pcc) ∧
          (t.core core).matrix.window = some { w with replayed := true } ∧ t.mem = s.mem) ∧
      (c.matrix.replayable = false → c.chargeable r.owner = true → r.orphan = false →
        Completes (.commandWindowReplay core trigger) s fun t =>
          ((t.core core).group r.owner).status = .trapped ∧ ((t.core core).group r.owner).vregs = (c.group r.owner).vregs ∧
          (∃ q, (t.core core).matrix.run = some q ∧ q.trapped = true) ∧ t.mem = s.mem)) ∧
    (∀ entry, Completes (.rangeEntryRetire core entry) s fun t =>
      t.core core = { c with rc := c.rc.filter fun e => !(decide (e.order = entry) && c.retires e) }) ∧
    (∀ (r : CRun) (lit : BitVec 32) (len : Nat),
      (c.chan ch).run = some r → r.op = some (.copy 0 lit len) → r.srcSpace = 0 → r.dstSpace = 0 →
      let src := (c.chan ch).sourceOf r r.next
      (r.copies = [] → c.inReservation src len = true → c.inReservation ((c.chan ch).destOf r r.next) len = true →
        src.toNat + len ≤ 2 ^ 19 → ((c.chan ch).destOf r r.next).toNat + len ≤ 2 ^ 19 →
        ({ s with cur := ⟨core, r.owner, .chan ch⟩ }).copyReady r = true →
        Completes (.clickerCopyStart core ch) s fun t =>
          (∃ q k, ((t.core core).chan ch).run = some q ∧ q.next = r.next + 1 ∧ q.startFree = s.pcc + (len + 127) / 128 ∧
            q.copies = [k] ∧ k.iter = r.next ∧ k.issued = true ∧ k.data = BitVec.ofNat 8192 (Memory.readN c.spm src.toNat len)) ∧
          (s.pcc, Event.clickerCopyComplete core (ch % 4) r.next) ∈ t.agenda ∧ (t.core core).spm = c.spm ∧ t.mem = s.mem) ∧
      (∀ k, r.copies = [k] → k.issued = true →
        Completes (.clickerCopyComplete core ch k.iter) s fun t =>
          (t.core core).spm = Memory.writeN c.spm ((c.chan ch).destOf r k.iter).toNat len (k.data.toNat % 2 ^ (8 * len)) ∧
          ((t.core core).chan ch).run = some { r with copies := [] } ∧ t.mem = s.mem ∧
          (iterations r.levels ≤ r.next → r.ended = true → (s.pcc, Event.clickerProgramComplete core ch) ∈ t.agenda))) ∧
    (∀ r, (c.chan ch).run = some r →
      (r.sigOut = true →
        Completes (.csigResponse core ch none) s (fun t =>
          ((t.core core).chan ch).run = some { r with sigOut := false, pc := r.pc + 4 } ∧ t.cores.has core = true ∧ t.mem = s.mem) ∧
        (c.chargeable r.owner = true → r.orphan = false → ∀ n, Completes (.csigResponse core ch (some (.remote n))) s fun t =>
          ((t.core core).chan ch).run = some { r with sigOut := false, pc := r.pc + 4, trapped := true } ∧
          ((t.core core).group r.owner).status = .trapped ∧ t.mem = s.mem)) ∧
      (r.ended = true → r.copied = true → r.trapped = false →
        Completes (.clickerProgramComplete core ch) s fun t =>
          (t.core core).chan ch = { c.chan ch with cc := (c.chan ch).cc + 1, run := none } ∧ (t.core core).spm = c.spm ∧ t.mem = s.mem))

/-- R121, R162, R166, R167, R272, R317, R319, R320, R322, R324 and R325: bytes leave a peer port into room of the other core's
and enter it in order, and bytes for a binding that is over are discarded and counted; a closing port that is empty is unbound; at a treadle slot
start an end mark ends the run, and else a slot in which no beat has issued is missed and counted; a demand leaves with a place reserved, and the oldest waiting STITCH takes it; a run that ends
leaves the stream free. How a peer port cuts its bytes, and when a port takes a flit, are the model's choices (log entries 10 and 32). -/
def Obligations.PortEvents : Prop :=
  ∀ (core port k id : Nat) (f : Flight) (descr : Word) (s : State), s.cores.has core = true →
    let c := s.core core
    (∀ b l, s.peerOf core port = some k → k ≠ core → s.peerBytes core port = b :: l →
      Completes (.peerByteTransfer core port) s fun t =>
        (t.core core).port port = (c.port port).depart (l.length + 1) ∧
        (let q := (s.core k).port (descPport (c.port port).desc)
         (t.core k).port (descPport (c.port port).desc) = { q with inflight := q.inflight + (l.length + 1) }) ∧
        (∃ g, t.flights = s.flights.set s.nextId g ∧ g.bytes = b :: l ∧ g.core = k ∧ g.srcCore = core ∧
          g.since = ((s.core k).port (descPport (c.port port).desc)).since ∧ g.srcSince = (c.port port).since) ∧
        ((s.net.packet (dieOf core) (coreSpot (physOf core)) (coreSpot (physOf k)) (ceilDiv (l.length + 1) 32) s.pcc).2,
          Event.packetDelivery s.nextId) ∈ t.agenda ∧ t.mem = s.mem) ∧
    (s.flights.get id = some f → f.core = core → f.srcCore ≠ core →
      ((c.port f.port).since = f.since → (c.port f.port).inflight ≠ 0 → (c.port f.port).taken = f.number →
        Completes (.packetDelivery id) s fun t =>
          let q := c.port f.port
          t.flights = s.flights.del id ∧ t.mem = s.mem ∧
          (t.core core).port f.port =
            ({ q with inflight := q.inflight - f.bytes.length, taken := q.taken + 1 }).append f.bytes s.pcc) ∧
      ((c.port f.port).since ≠ f.since →
        Completes (.packetDelivery id) s fun t =>
          t.flights = s.flights.del id ∧ t.mem = s.mem ∧ (t.core core).port f.port = c.port f.port ∧
          (t.core core).discarded = c.discarded + f.bytes.length)) ∧
    ((c.port port).status = .closing → (c.port port).drained = true →
      Completes (.portUnbindComplete core port) s fun t =>
        (t.core core).port port = Port.unbound ∧ ∀ n, n % 16 ≠ port % 16 → (t.core core).port n = c.port n) ∧
    (c.matrix.run.any (fun r => r.treadle) = true →
      (let z := { s with cur := ⟨core, 0, .matrix⟩ }
       c.matrix.replay = none → z.slotStart = true → c.treadle.tstate.toNat % 8 < 4 → c.treadle.slot < s.pcc →
       (∀ p, z.nextAport = some p → z.endMark p = true →
        Completes (.treadleSlotStart core) s fun t =>
          let d := (t.core core).treadle
          (t.core core).port p = (c.port p).pop ∧ d.tstate.toNat % 8 = 4 ∧ d.tstate.toNat / 256 % 8 = 3 ∧ d.tmiss = c.treadle.tmiss ∧
          (∃ q, (t.core core).matrix.run = some q ∧ q.ended = true) ∧ t.mem = s.mem) ∧
       (z.nextAport.any z.endMark = false → c.treadle.strict = false → c.treadle.tstate.toNat / 65536 % 256 < 15 →
        Completes (.treadleSlotStart core) s fun t =>
          let d := (t.core core).treadle
          d.slot = s.pcc ∧ d.missed = c.treadle.missed + 1 ∧ d.tmiss.toNat = min (c.treadle.tmiss.toNat + 1) 0xFFFFFFFF ∧ d.tstate.toNat % 8 = 3 ∧
          d.tstate.toNat / 65536 = c.treadle.tstate.toNat / 65536 % 256 + 1 ∧ d.tbeat = c.treadle.tbeat ∧ d.waiting = c.treadle.waiting)) ∧
      (c.treadle.tstate.toNat % 8 = 4 →
        Completes (.treadleRunEnd core) s fun t =>
          (t.core core).matrix.run = none ∧ (t.core core).matrix.window = none ∧ (t.core core).treadle.tstate.toNat % 8 = 5 ∧
          t.mem = s.mem)) ∧
    (∀ d, s.sendable c.treadle = some d → s.cores.has d.core = true →
      Completes (.demandSend core) s fun t =>
        (t.core d.core).places = (s.core d.core).places + 1 ∧
        (max (s.net.packet (dieOf core) (coreSpot (physOf core)) (coreSpot (physOf d.core)) 1 s.pcc).2 (s.lastDemand d),
          Event.demandArrival d.core d.descr) ∈ t.agenda) ∧
    (c.waiting Wait.demand? = [] →
      Completes (.demandArrival core descr) s fun t => (t.core core).demands = c.demands ++ [descr] ∧ (t.core core).places = c.places) ∧
    ∀ slot l, c.waiting Wait.demand? = slot :: l →
      Completes (.demandArrival core descr) s fun t =>
        (t.core core).places = c.places - 1 ∧ (t.core core).demands = c.demands ∧
        ((t.core core).group slot).hold = (c.group slot).hold.map fun h => { h with granted := some descr }

/-! ### Events of scheduling -/

/-- R256 to R258, R260, R263 to R265 and R270: a job starts with the groups of slots 0 to 7 active and the rest ready; a finished
job unbinds its ports and leaves its core once its stores are acknowledged; a group that waits long enough leaves its position, is
ready again when its wait is over, before the groups of higher slots that became ready in that cycle, and enters an empty position
from the head of the queue with its form complete; rotation makes one ready, once a form that it has issued and that waits is
complete; a block move ends. The zero that a register block reads as when it is given, and memory's, are the model's choice (log entry 1). -/
def Obligations.SchedulerEvents : Prop :=
  ∀ (launch core slot pos : Nat) (s : State), s.cores.has core = true →
    let c := s.core core
    (∀ l, s.hub.launches.get launch = some l → c.job.launch = launch → c.job.seqNext = 0 →
      Completes (.jobStart launch core) s fun t =>
        let d := t.core core
        d.job = { c.job with start := s.pcc, seqNext := c.job.launchGroups } ∧ d.spm = [] ∧ t.mem = s.mem ∧
        d.sched.readyQ = (((List.range c.job.launchGroups).map fun n => if c.job.twin then 2 * n else n).filter fun n => decide (8 ≤ n)) ∧
        ∀ n < c.job.launchGroups,
          let k := if c.job.twin then 2 * n else n
          (d.group k).status = (if k < 8 then .active else .ready) ∧ (d.group k).seq = n ∧
          (d.group k).sc.pc = (if c.job.rejoin then l.info.rejoin else l.info.entry) ∧ (k < 8 → (some k) ∈ d.sched.active.toList)) ∧
    (c.job.killed = false → c.job.ending = none → s.jobDone core = true →
      Completes (.jobEnd core) s fun t => (t.core core).job.ending = some s.nextId ∧ ∀ n, (t.core core).port n = Port.unbound) ∧
    (∀ cid, c.job.killed = false → c.job.ending = some cid → c.committed cid = true → c.mem.pend = [] →
      Completes (.jobEnd core) s fun t =>
        t.cores = s.cores.del core ∧ t.mem = s.mem ∧
        ∀ l, s.hub.launches.get c.job.launch = some l →
          t.hub.launches.get c.job.launch = some { l with discard := l.discard + c.discarded }) ∧
    (∀ w, s.swapWait core slot = some w →
      Completes (.swapTrigger core slot) s fun t =>
        ((t.core core).group slot).status = .waiting ∧ (∀ p ∈ (t.core core).sched.active.toList, p ≠ some slot) ∧
        (∀ x, w = some x → ((t.core core).group slot).hold = some ⟨s.pcc, x, none⟩) ∧
        ((t.core core).group slot).sc = (c.group slot).sc ∧ t.mem = s.mem) ∧
    (c.groups.has slot = true → (c.group slot).status = .waiting → c.wakes s.accs (c.group slot) = true →
      Completes (.groupWake core slot) s fun t =>
        let later (n : Nat) : Bool := decide ((c.group n).readyAt = s.pcc) && decide (slot < n)
        ((t.core core).group slot).status = .ready ∧ ((t.core core).group slot).readyAt = s.pcc ∧
        (t.core core).sched.readyQ =
          c.sched.readyQ.takeWhile (fun n => !later n) ++ [slot] ++ c.sched.readyQ.dropWhile (fun n => !later n) ∧ t.mem = s.mem) ∧
    (∀ l, c.sched.readyQ = slot :: l → c.entering s.pcc = some slot → pos < 8 → c.sched.active.toList.getD pos none = none →
      Completes (.activeRefill core pos) s fun t =>
        ((t.core core).group slot).status = .active ∧ (t.core core).sched.readyQ = l ∧
        (t.core core).sched.active.toList.getD pos none = some slot ∧ s.pcc + 1 ≤ ((t.core core).group slot).sc.nextIssue ∧
        ((t.core core).group slot).sc.pc = ((c.group slot).completes s.pcc).sc.pc ∧ t.mem = s.mem) ∧
    (c.rotatesNow = some slot ∨ c.rotatesNow = none ∧ c.rotates s.pcc = some slot ∧ (c.group slot).goesOn = false →
      Completes (.rotationTick core) s fun t =>
        ((t.core core).group slot).status = .ready ∧ (∀ p ∈ (t.core core).sched.active.toList, p ≠ some slot) ∧ t.mem = s.mem) ∧
    (c.rotatesNow = none → c.rotates s.pcc = some slot → (c.group slot).goesOn = true →
      Completes (.rotationTick core) s fun t =>
        t.core core = { c with sched := { c.sched with rotating := c.sched.rotating.add slot } } ∧ t.mem = s.mem) ∧
    ∀ m, c.sched.move = some m → m.back = none → c.sched.requests = [] → (c.group m.slot).blocks.has m.block = true →
      Completes (.blockTransfer core) s fun t =>
        (t.core core).sched.move = none ∧ ((t.core core).group m.slot).blocks.get m.block = some m.dest ∧ t.mem = s.mem

/-- R174 and R341: a core's arrival is complete when its commit is acknowledged; at a boundary that its members agree on, PH0 to
PHn advance on every one of them and the groups that wait go on; at level 4 of a launch over several packages the own arrival is
recorded and sent first, and a message that does not agree with the launch is answered MISMATCH, its waiting groups trapping with
PHASE_MISMATCH; a package answers an arrival message, and one that a member has answered NOT_YET it
sends again 2,048 cycles later, until it is recorded. -/
def Obligations.PhaseEvents : Prop :=
  ∀ (launch core level domain member : Nat) (l : Launch) (msg : FabricArrival) (s : State),
    (∀ cid n, s.cores.has core = true → (s.core core).job.arriving = some (cid, n) → (s.core core).committed cid = true →
      Completes (.phaseArrival core) s fun t =>
        t.core core = { s.core core with job := { (s.core core).job with arriving := none, arrival := some n } } ∧ t.mem = s.mem) ∧
    (s.hub.launches.get launch = some l → level < 3 → s.boundary launch l level domain = some .agreed →
      s.membersOf launch l level domain = [core] →
      Completes (.phaseBoundaryComplete launch level domain) s fun t =>
        (∀ i : Fin 5, (t.core core).job.ph[i] = if i.val ≤ level then (s.core core).job.ph[i] + 1 else (s.core core).job.ph[i]) ∧
        ∀ slot ∈ (s.core core).inBoundary, ((s.core core).group slot).kindId = 0xFF → ((s.core core).group slot).status ≠ .joined →
          ((t.core core).group slot).hold = ((s.core core).group slot).hold.map fun h => { h with granted := some 0 }) ∧
    (∀ members, s.hub.launches.get launch = some l → s.boundary launch l level domain = some .agreed →
      (level < 3 ∨ (level ≤ 4 ∧ pktElastic l.packet = false ∧ (level = 4 → pktFPkgs l.packet < 2))) →
      s.membersOf launch l level domain = members → members.Nodup →
      (∀ k ∈ members, ∃ n ∈ (s.core k).inBoundary, ((s.core k).group n).kindId = 0xFF ∧ ((s.core k).group n).status ≠ .joined) →
      Completes (.phaseBoundaryComplete launch level domain) s fun t =>
        t.mem = s.mem ∧ ∀ k ∈ members,
          (∀ i : Fin 5, (t.core k).job.ph[i] = if i.val ≤ level then (s.core k).job.ph[i] + 1 else (s.core k).job.ph[i]) ∧
          (t.core k).job.arrival = none ∧
          ∀ n ∈ (s.core k).inBoundary,
            ((t.core k).group n).hold = ((s.core k).group n).hold.map fun h => { h with granted := some 0 }) ∧
    (∀ d, s.hub.launches.get launch = some l → s.boundary launch l 4 domain = some .agreed → pktFPkgs l.packet = 2 →
      l.info.members = [s.fabric.coord, d] → d ≠ s.fabric.coord → s.fabricRefusal d 0 = none →
      l.sentPh4 ≠ some (s.phase4 launch) → ((s.phase4 launch).toNat, 1) ∉ l.recorded →
      Completes (.phaseBoundaryComplete launch 4 domain) s fun t =>
        t.cores = s.cores ∧
        t.outputs = s.outputs ++ [.arrival d ⟨pktFabId l.packet, 2, 0, s.fabric.coord, s.phase4 launch, none⟩] ∧
        ∃ k, t.hub.launches.get launch = some k ∧ k.sentPh4 = some (s.phase4 launch) ∧ ((s.phase4 launch).toNat, 0) ∈ k.recorded) ∧
    (msg.answer = none → s.fabLaunch msg.fabid = some (launch, l) →
      ¬(msg.fpkgs = pktFPkgs l.packet ∧ l.info.members[msg.member]? = some msg.coord) →
      ∀ slot, s.coresOf launch = [core] → (s.core core).inBoundary = [slot] → (s.core core).chargeable slot = true →
        (((s.core core).group slot).hold.any fun h => decide (h.wait = .boundary 4)) = true →
        Completes (.fabricArrivalMessage msg) s fun t =>
          t.outputs = s.outputs ++ [.arrival msg.coord { msg with coord := s.fabric.coord, answer := some .mismatch }] ∧
          ((t.core core).group slot).status = .trapped ∧ (∃ x ∈ ((t.core core).group slot).traps, x.cause = causePhase) ∧
          t.mem = s.mem) ∧
    (msg.answer = none →
      (s.fabLaunch msg.fabid = none →
        Completes (.fabricArrivalMessage msg) s fun t =>
          t.outputs = s.outputs ++ [.arrival msg.coord { msg with coord := s.fabric.coord, answer := some .notYet }] ∧ t.cores = s.cores) ∧
      (s.fabLaunch msg.fabid = some (launch, l) → s.hub.launches.get launch = some l → msg.fpkgs = pktFPkgs l.packet →
        l.info.members[msg.member]? = some msg.coord →
        Completes (.fabricArrivalMessage msg) s fun t =>
          t.outputs = s.outputs ++ [.arrival msg.coord { msg with coord := s.fabric.coord, answer := some .recorded }] ∧
          (∃ k, t.hub.launches.get launch = some k ∧ (msg.ph4.toNat, msg.member) ∈ k.recorded ∧ ∀ x ∈ l.recorded, x ∈ k.recorded) ∧
          t.cores = s.cores)) ∧
    ∀ x : FabSent, s.fabric.arrivals = [x] →
      (msg.answer = some .notYet → x.answered msg = true →
        Completes (.fabricArrivalMessage msg) s fun t =>
          t.fabric.arrivals = [{ x with again := some (s.pcc + 2048) }] ∧
          (s.pcc + 2048, Event.arrivalResend x.launch x.member) ∈ t.agenda ∧ t.cores = s.cores) ∧
      (msg.answer = some .recorded → x.answered msg = true →
        Completes (.fabricArrivalMessage msg) s fun t => t.fabric.arrivals = [] ∧ t.cores = s.cores) ∧
      (x.launch = launch → x.member = member → (∃ n, x.again = some n ∧ n ≤ s.pcc) → s.fabricRefusal x.dest 0 = none →
        Completes (.arrivalResend launch member) s fun t =>
          t.outputs = s.outputs ++ [.arrival x.dest x.msg] ∧ t.fabric.arrivals = [{ x with again := none }] ∧ t.cores = s.cores)

/-- R277, R279 to R281, R340 and R487: a task queue takes a record where it has room and refuses it where it has none; records
beyond 1,536 go to the backing area and come back 64 at a time; the former starts a group of the records it selects, which is
ready 32 cycles later with their words in v0 to v2, and one whose kind's entry is outside the code object traps. When records spill and come back, and how often the former selects, are the model's choices (log entry 32). -/
def Obligations.TaskEvents : Prop :=
  ∀ (id die q core : Nat) (p : TaskPush) (f : FormerStart) (x : BitVec 256) (l : List (BitVec 256)) (s : State),
    let t := s.taskQueue die q
    (s.pushes.get id = some p → p.order = 0 → p.die = die → p.queue = q →
      (∀ y ∈ s.pushes, y.2.sent < p.sent ∨ y.2.sent = p.sent ∧ y.1 < id → y.2.focus.core = p.focus.core → y.2.queue = q →
        y.2.refused ≠ none) →
      let back := max p.back (s.net.packet die (sliceSpot q) (coreSpot (physOf p.focus.core)) 1 s.pcc).2
      Completes (.taskPushAccept id) s fun u =>
        u.mem = s.mem ∧
        (t.backing = [] ∧ t.ring.length < 2048 →
          (u.taskQueue die q).ring = t.ring ++ [p.record] ∧ u.pushes = s.pushes.set id { p with back, refused := some false }) ∧
        (¬(t.backing = [] ∧ t.ring.length < 2048) → t.backing.length < t.cap →
          (u.taskQueue die q).backing = t.backing ++ [p.record] ∧ u.pushes = s.pushes.set id { p with back, refused := some false }) ∧
        (¬(t.backing = [] ∧ t.ring.length < 2048) → t.cap ≤ t.backing.length →
          u.taskQueue die q = t ∧ u.pushes = s.pushes.set id { p with back, refused := some true })) ∧
    (t.backing = [] → 1536 < t.ring.length → 0 < t.cap →
      Completes (.taskQueueSpill die q) s fun u =>
        let v := u.taskQueue die q
        v.ring ++ v.backing = t.ring ∧ v.backing.length = min (t.ring.length - 1536) t.cap ∧
        max (s.die die).former.pathFree s.pcc + 16 ≤ (u.die die).former.pathFree) ∧
    ((s.die die).former.pathFree ≤ s.pcc → t.backing ≠ [] → t.ring.length < 512 →
      Completes (.taskQueueRefill die q) s fun u =>
        let v := u.taskQueue die q
        v.ring ++ v.backing = t.ring ++ t.backing ∧ v.ring.length = t.ring.length + min 64 t.backing.length ∧
        (u.die die).former.pathFree = s.pcc + 16) ∧
    ((s.core core).freeSlots ≠ [] → (s.die die).nextQueue = some q → (s.die die).former.nextSel ≤ s.pcc → t.ring = x :: l →
      s.formerCore t.launch die = some core →
      let r := takeRecords (recKind x) t.ring [] 256
      (r.1.length = 256 ∨ t.headSince + formerTimeoutOf (s.launch t.launch).packet ≤ s.pcc) →
      exec (.formerTimeout die q) s = exec (.formerSelection die) s ∧
      Completes (.formerSelection die) s fun u =>
        (u.taskQueue die q).ring = r.2 ∧ (u.die die).former.rr = q ∧ (u.die die).former.nextSel = s.pcc + 4 ∧
        (∃ g, u.starts.get s.nextId = some g ∧ g.core = core ∧ g.records = r.1 ∧ ((u.core core).group g.slot).status = .starting ∧
          ((u.core core).group g.slot).kindId = recKind x ∧ (s.core core).groups.has g.slot = false) ∧
        (s.pcc + 32, Event.formerGroupReady s.nextId) ∈ u.agenda) ∧
    (s.starts.get id = some f → (s.core f.core).groups.has f.slot = true → ((s.core f.core).group f.slot).status = .starting →
      ((s.core f.core).group f.slot).inPlace = true →
      let there := s.inObject (s.launch (s.core f.core).job.launch).packet ((s.core f.core).group f.slot).sc.pc
      Completes (.formerGroupReady id) s fun u =>
        let g := (u.core f.core).group f.slot
        g.status = (if there then .ready else .trapped) ∧ (there = true → f.slot ∈ (u.core f.core).sched.readyQ) ∧
        (there = false → ∃ x ∈ g.traps, x.cause = causeOperand) ∧ u.starts = s.starts.del id ∧
        ∀ w < 3, ∃ v, g.vregs.get w = some v ∧
          ∀ (i : Nat) r, i < 256 → f.records[i]? = some r → v.extractLsb' (32 * i) 32 = r.extractLsb' (64 * w + 64) 32)

/-! ### Events of launches and of the runtime -/

/-- R342, R344, R345, R349, R352, R355, R388 and R437: a doorbell moves the write index or disables a queue that it would overrun;
a queue is enabled and disabled; the head packet is copied and checked; a signal is read again until it is satisfied; a round
places the head it selects; a launch that is over reports and is gone; a fault record is written where FQT points. An MSI-X entry has the layout of the PCI Express specification: the model's choice (log entry 17). -/
def Obligations.LaunchEvents : Prop :=
  ∀ (q fn launch ctx : Nat) (v : BitVec 32) (s : State),
    let lq := s.lqueue q
    (s.reachesQueue fn q = true → (s.host.fn fn).insecure = false →
      (lq.devfed = false → (v - lq.ridx).toNat ≤ 2 ^ lq.log2 →
        Completes (.qwidxWrite q fn v) s fun t =>
          (t.lqueue q).widx = v ∧ (t.lqueue q).enable = lq.enable ∧ t.mem = s.mem ∧
          (lq.enable = true → lq.head = none → lq.copying = false → v ≠ lq.ridx →
            ∃ k, 1 ≤ k ∧ k ≤ 192 ∧ (s.pcc + k, Event.headPacketRead q) ∈ t.agenda)) ∧
      (lq.devfed = false → 2 ^ lq.log2 < (v - lq.ridx).toNat →
        Completes (.qwidxWrite q fn v) s fun t =>
          (t.lqueue q).overrun = true ∧ (t.lqueue q).enable = false ∧ (t.lqueue q).widx = lq.widx) ∧
      (lq.devfed = true → Completes (.qwidxWrite q fn v) s fun t => (t.lqueue q).ignwr = true ∧ (t.lqueue q).widx = lq.widx) ∧
      (lq.enable = false → s.pfc.ready = true → s.pfc.minimal = false →
        Completes (.queueEnable q fn v) s fun t =>
          let n := v.toNat % 16
          (t.lqueue q).enable = true ∧ (t.lqueue q).devfed = v.getLsbD 30 ∧ (t.lqueue q).log2 = (if 4 ≤ n ∧ n ≤ 12 then n else lq.log2) ∧
          (t.lqueue q).ctx = (if fn = 0 then v.toNat / 65536 % 64 else lq.ctx)) ∧
      (lq.enable = true → Completes (.queueDisable q fn v) s fun t => (t.lqueue q).enable = false)) ∧
    (lq.copying = true → lq.head = none → s.packetLost (lq.slot lq.ridx) = false →
      Completes (.headPacketRead q) s fun t =>
        let p := BitVec.ofNat 1024 (Memory.readN s.mem (lq.slot lq.ridx) 128)
        (t.lqueue q).ridx = lq.ridx + 1 ∧
        (∀ x, s.checkPacket q p = .error x → (t.lqueue q).head = none) ∧
        ∀ i, s.checkPacket q p = .ok i → ∃ h, (t.lqueue q).head = some h ∧ h.packet = p ∧ h.info = i) ∧
    (∀ h, lq.head = some h → h.sig0 = false →
      Completes (.signalReread q 0) s fun t =>
        (s.signalSatisfied (pktContext h.packet) (pktWait0 h.packet) = true → ∃ k, (t.lqueue q).head = some k ∧ k.sig0 = true ∧ k.packet = h.packet) ∧
        (s.signalSatisfied (pktContext h.packet) (pktWait0 h.packet) = false →
          (t.lqueue q).head = some h ∧ ∃ x, x ≤ s.pcc + 2048 ∧ (x, Event.signalReread q 0) ∈ t.agenda)) ∧
    (∀ p h, s.hub.launches.length < 256 → s.selected = some (p, q, h) →
      Completes .selectionRound s fun t =>
        (∃ l, t.hub.launches.get s.nextId = some l ∧ l.packet = h.packet ∧ l.queue = q ∧ l.lseq = s.hub.lseq) ∧
        t.hub.lseq = (s.hub.lseq + 1) % 2 ^ 24 ∧ (t.lqueue q).head = none) ∧
    (∀ h, s.reserving = some q → lq.head = some h →
      Completes (.reservationStart q) s fun t =>
        ∃ ds, t.hub.reserve = some (q, ds) ∧ ds.length ≤ pktMinDie h.packet ∧ (∀ d ∈ ds, d < 8 ∧ (s.die d).gone = false) ∧
          t.cores = s.cores) ∧
    (∀ l, s.hub.launches.get launch = some l → s.launchOver launch l = true →
      Completes (.launchCompletion launch) s fun t =>
        let c := s.ctx (pktContext l.packet)
        t.hub.launches = s.hub.launches.del launch ∧
        (c.killed = false → c.areas = [] → t.cores = s.cores) ∧
        (∀ a, c.killed = false → c.areas = [a] → a.1 = l.stack.toNat → (t.ctx (pktContext l.packet)).areas = []) ∧
        (s.reportable (pktContext l.packet) (pktStat l.packet) 16 = true → pktCompl l.packet = 0 →
          ∀ a w, s.translateIn (pktContext l.packet) (pktStat l.packet) = some (a, w) → s.noHome a = none →
            Memory.readN t.mem a 16 =
              s.pcc % 2 ^ 64 * 2 ^ 64 + min l.discard 0xFFFFFFFF * 2 ^ 32 + l.held.length % 256 * 2 ^ 24 +
                (if l.invalid = true then 2 ^ 15 else 0) + l.status % 2 ^ 15)) ∧
    (Completes (.functionReset fn) s fun t =>
      (t.host.fn fn).msix = [] ∧ (t.host.fn fn).pending = [] ∧ (t.host.fn fn).winBase = 0 ∧ (t.host.fn fn).ats = false ∧
      (t.host.fn fn).insecure = (s.host.fn fn).insecure ∧
      ((s.ctx lq.ctx).func = fn → (t.lqueue q).widx = 0 ∧ (t.lqueue q).ridx = 0) ∧ t.mem = s.mem) ∧
    (∀ r rest, (s.ctx ctx).held = r :: rest → ((s.ctx ctx).fqt - (s.ctx ctx).fqh).toNat < (s.ctx ctx).capacity →
      s.noHome ((s.ctx ctx).fqbase * 4096 + 64 * ((s.ctx ctx).fqt.toNat % (s.ctx ctx).capacity)) = none →
      Completes (.faultRecordWrite ctx) s fun t =>
        let c := s.ctx ctx
        (t.ctx ctx).held = rest ∧ (t.ctx ctx).fqt = c.fqt + 1 ∧ (∀ n, (t.ctl n).halted = false) ∧
        Memory.readN t.mem (c.fqbase * 4096 + 64 * (c.fqt.toNat % c.capacity)) 64 = r.bits c.fqt % 256 ^ 64) ∧
    ∀ vector, vector < msixEntries fn →
      Completes (.msixUnmask fn vector) s fun t =>
        ((t.host.fn fn).entry vector).masked = false ∧
        t.outputs = s.outputs ++ (if (s.host.fn fn).pending.has vector = true then
          [.msix fn vector ((s.host.fn fn).entry vector).addr ((s.host.fn fn).entry vector).data] else [])

/-- R362 to R375, R402, R404, R407, R409, R410, R449, R475 and R489: an object that passes its checks is loaded and measured,
and one that fails a check is refused with its DETAIL; a page whose leaf agrees becomes verified, and another failed; a slot takes its value; an
object goes with its mapping; a launch stops, is saved and goes on; a group resumes or is killed; a launch and a context are
killed; a quiet page leaves the moult queue. T0 at a resumption and the stop of a treadle run are the model's choices (log entries 38 and 39). -/
def Obligations.RuntimeEvents : Prop :=
  ∀ (req : LoadRequest) (ctx va page launch core slot : Nat) (o : CodeObject) (l : Launch) (w : ResumeRewrite) (s : State),
    let m := Memory.ofBytes req.image
    let values := req.slots.foldl (fun (f : FMap Nat) (x : Nat × Nat) => f.set x.1 x.2) ([] : FMap Nat)
    (req.va % pageSize = 0 → s.object req.ctx req.va = none →
      Completes (.codeObjectLoad req) s fun t =>
        (∀ blocks, (headerFits m && signatureOk m s.pfc.keys && treeOk m && slotsOk m values req.code) = true →
          (∀ p ∈ loadPages m, leafHash m p = storedLeaf m p) → kernelBlocks m = some blocks →
          (∃ k, t.object req.ctx req.va = some k ∧ k.image = m ∧ k.phys = req.phys ∧ k.failed = [] ∧ k.values = values ∧
            k.blocks = blocks) ∧
          t.pfc.measured = s.pfc.measured ++ [(5, req.ctx, hdrRoot m)]) ∧
        let refused (d : Nat) : State := { s with outputs := s.outputs ++ [.loadRefused req.ctx req.va d] }
        (headerFits m = false → t = refused 0x01) ∧
        (headerFits m = true → (signatureOk m s.pfc.keys && treeOk m) = false → t = refused 0x02) ∧
        (headerFits m = true → (signatureOk m s.pfc.keys && treeOk m) = true →
          (slotsOk m values req.code = false → t = refused 0x0B) ∧
          (slotsOk m values req.code = true → (∀ p ∈ loadPages m, leafHash m p = storedLeaf m p) → kernelBlocks m = none →
            t = refused 0x0A))) ∧
    (s.object ctx va = some o →
      (page ≠ 0 → page < o.npage → o.failed.has page = false → o.verified.has page = false → s.faultsOn o page = [] →
        Completes (.demandPageVerify ctx va page) s fun t =>
          (leafHash o.image page = storedLeaf o.image page → t.object ctx va = some { o with verified := o.verified.add page }) ∧
          (leafHash o.image page ≠ storedLeaf o.image page → t.object ctx va = some { o with failed := o.failed.add page } ∧ t.mem = s.mem)) ∧
      (∀ (nameh : Nat) (v : BitVec 64), s.launchesOf ctx va = [] → (∃ e ∈ o.slots, e.nameh = nameh ∧ e.scope = 1) →
        (∀ e ∈ o.slots, e.nameh = nameh → e.scope = 1 → v.toNat < 2 ^ e.width) →
        Completes (.slotPatch ctx va nameh v) s fun t => t.object ctx va = some { o with current := o.current.set nameh v.toNat }) ∧
      (∀ (nameh : Nat) (v : BitVec 64), s.launchesOf ctx va = [] → (∃ e ∈ o.slots, e.nameh = nameh ∧ e.scope = 1 ∧ 2 ^ e.width ≤ v.toNat) →
        Completes (.slotPatch ctx va nameh v) s fun t => t = { s with outputs := s.outputs ++ [.loadRefused ctx va 0x0B] }) ∧
      Completes (.codeObjectUnload ctx va) s fun t => t.objects = s.objects.del (objectKey ctx va)) ∧
    (s.hub.launches.get launch = some l → l.ended = false →
      Completes (.codeIntegrityTermination launch) s (fun t =>
        ∃ k, t.hub.launches.get launch = some k ∧ k.status = 2 ∧ k.invalid = true ∧ k.ended = true ∧ k.saved = none) ∧
      Completes (.killLaunch launch) s (fun t =>
        ∃ k, t.hub.launches.get launch = some k ∧ k.status = 3 ∧ k.invalid = false ∧ k.ended = true ∧ k.saved = none) ∧
      (l.saved = none → s.coresOf launch ≠ [] →
        (l.stopReq = none →
          Completes (.preempt launch) s fun t =>
            (∃ k, t.hub.launches.get launch = some k ∧ k.stopReq = some s.pcc) ∧
            ∀ n ∈ s.coresOf launch, (t.core n).job.stopping = some s.pcc) ∧
        (l.stopReq ≠ none → (∀ c ∈ s.cores, c.2.treadleStops s.pcc = false) → (s.coresOf launch).all s.jobStopped = true →
          (∀ n ∈ s.coresOf launch, (s.core n).dirtySectors = []) →
          Completes (.preempt launch) s fun t =>
            t.coresOf launch = [] ∧ ∃ k v, t.hub.launches.get launch = some k ∧ k.saved = some v ∧ v.stoppedAt = s.pcc)) ∧
      (∀ v role image, l.saved = some v → v.images = [(role, image)] → s.cores.has core = false → (s.die (dieOf core)).gone = false →
        let binding := l.binding.set role core
        let moved (k : Nat) : Nat := ((l.binding.find? fun (b : Nat × Nat) => decide (b.2 = k)).map fun b => binding.getD b.1 0).getD k
        let d := (image.resumed v.stoppedAt s.pcc).demandsTo moved
        Completes (.resumeJob launch [(role, core)]) s fun t =>
          ((∀ g ∈ image.groups, g.2.status ≠ .trapped) →
            t.core core = { d with mem := { d.mem with tlb := (s.die (dieOf core)).tlbs.getD (physOf core) [] } }) ∧
          (∀ g, image.groups = [(slot, g)] → g.status = .trapped → (∀ x ∈ g.traps, x.cause = causeTranslation ∧ x.replay = true) →
            ((t.core core).group slot).status = .ready) ∧
          ∃ k, t.hub.launches.get launch = some k ∧ k.saved = none ∧ k.stopReq = none ∧ k.binding.get role = some core)) ∧
    (s.cores.has core = true → (s.core core).groups.has slot = true → ((s.core core).group slot).status = .trapped →
      (w.pc = none ∨ ((s.core core).group slot).block = none →
        (∀ x ∈ ((s.core core).group slot).traps, x.cause ≠ 0x07 ∧ x.cause ≠ 0x0F ∧ x.stream = .group) →
        Completes (.resumeGroup core slot w) s fun t =>
          let g := (t.core core).group slot
          g.status = .ready ∧ g.traps = [] ∧ g.sc.nextIssue = s.pcc + 1 ∧ (∀ pc, w.pc = some pc → g.sc.pc = pc) ∧
          (w.regs = [] → ∀ n, g.sc.rf.get n = ((s.core core).group slot).sc.rf.get n) ∧
          (t.core core).sched.readyQ = ((s.core core).makeReady slot s.pcc).sched.readyQ ∧ t.mem = s.mem) ∧
      (∀ b pc, ((s.core core).group slot).block = some b → b.committing = true → w.pc = some pc → pc ≠ ((s.core core).group slot).sc.pc →
        Completes (.resumeGroup core slot w) s fun t => t = s) ∧
      ((∀ x ∈ ((s.core core).group slot).traps, x.cause ≠ 0x0F) →
        Completes (.killGroup core slot) s fun t => (t.core core).groups.has slot = false ∧ t.mem = s.mem) ∧
      ((∃ x ∈ ((s.core core).group slot).traps, x.cause = 0x0F) →
        Completes (.resumeGroup core slot w) s (fun t => t = s) ∧ Completes (.killGroup core slot) s fun t => t = s)) ∧
    (Completes (.killContext ctx) s fun t =>
      (t.ctx ctx).valid = false ∧ (s.launched ctx = false → (t.ctx ctx).presence = []) ∧
      (s.launched ctx = true → (t.ctx ctx).killed = true) ∧ (∀ n, (s.lqueue n).ctx = ctx → (t.lqueue n).enable = false)) ∧
    ∀ (pg win : Nat) (rest : List (Nat × Nat)), s.moult.pages = (pg, win) :: rest → s.releasable = true →
      s.noHome (s.moult.mrbase + 8 * (s.moult.mrt.toNat % 8192)) = none →
      Completes .moultRelease s fun t =>
        t.moult.pages = rest ∧ t.moult.mrt = s.moult.mrt + 1 ∧ (∀ n, (t.ctl n).halted = false) ∧
        Memory.readN t.mem (s.moult.mrbase + 8 * (s.moult.mrt.toNat % 8192)) 8 = pg % 2 ^ 56 / 65536 * 65536 + win % 16

/-! ### Events of the torus, the host link and the package's services -/

/-- R402, R413, R415 to R418 and R420: what comes over a link. A packet for another package, and one whose intermediate package this is,
takes its next channel where that has credits, and gives the slots of its flits back then; else it waits. A request for a home here is
performed after its way, and then gives its slots back; its reply comes to the egress after its own way. -/
def RemoteRequestsHold : Prop :=
  ∀ (req : RemoteRequest) (d : Nat) (s : State), s.fabric.lost = false → s.fabric.queue = [] →
    let passes (final : Option Nat) (second : Bool) : Prop :=
      ∀ k c, s.fabric.transitEgress { req with secondLeg := second } d = some (k, c) → (s.fabric.link k).retraining = false →
        (req.flits ≤ s.fabric.credits k c →
          Completes (.remoteRequestArrival req) s fun t =>
            t.mem = s.mem ∧ t.accs = s.accs ∧ t.fabric.queue = [] ∧ t.fabric.credits k c + req.flits = s.fabric.credits k c ∧
            ∃ pre r, t.outputs = pre ++ [.forward k c r] ∧ r.dest = some d ∧ r.final = final ∧ r.op = req.op ∧ r.addr = req.addr ∧
              r.link = k ∧ r.chan = c) ∧
        (s.fabric.credits k c < req.flits →
          Completes (.remoteRequestArrival req) s fun t =>
            t.mem = s.mem ∧ t.accs = s.accs ∧ t.outputs = s.outputs ∧ (∀ i : Fin 8, (t.fabric.link req.link).ret[i] = (s.fabric.link req.link).ret[i]) ∧
            ∃ p, t.fabric.queue = [p] ∧ p.dest = d ∧ p.final = final ∧ p.flits = req.flits ∧ p.since = s.pcc)
    (req.due = 0 → req.dest = some d → d ≠ s.fabric.coord → passes req.final false) ∧
    (req.due = 0 → (∀ e, req.dest = some e → e = s.fabric.coord) → req.final = some d → d ≠ s.fabric.coord → passes none true) ∧
    (∀ f : Fabric, f.transitEgress { req with secondLeg := true } d = f.egress d none 2) ∧
    (req.due = 0 → (∀ e, req.dest = some e → e = s.fabric.coord) → (∀ e, req.final = some e → e = s.fabric.coord) →
      Completes (.remoteRequestArrival req) s fun t =>
        let at_ := s.pcc + (homePart (regionOf (localOf req.addr)) (s.sliceHit req.addr)).1 + remoteStep req
        t.mem = s.mem ∧ t.accs = s.accs ∧ t.outputs = s.outputs ∧
        (at_, Event.remoteRequestArrival { req with window := s.qwin, waited := 0, due := at_, answer := none }) ∈ t.agenda) ∧
    (req.due ≠ 0 → req.answer = none → s.waitsAtHome req = false →
      let answers (v : Nat) (err : Option DataError) (t : State) : Prop :=
        (s.pcc + (homePart (regionOf (localOf req.addr)) true).2, Event.remoteRequestArrival { req with answer := some (v, err) }) ∈ t.agenda ∧
        t.fabric = (s.returnCredit req.link req.chan req.flits).fabric
      (s.homeError req.addr = true → Completes (.remoteRequestArrival req) s fun t => t.mem = s.mem ∧ answers 0 (some (.remote 4)) t) ∧
      (s.homeError req.addr = false → (∀ b n, regionOf (localOf req.addr) ≠ .regs b n) → s.remote = [] →
        (∀ g ∈ granulesOf req.addr req.size, s.poison.has g = false) →
        (req.op = .load → Completes (.remoteRequestArrival req) s fun t =>
          t.mem = s.mem ∧ answers (Memory.readN s.mem req.addr req.size) none t) ∧
        (∀ v, req.op = .store v → s.entryFree (remoteWriter req) req.addr = true → Completes (.remoteRequestArrival req) s fun t =>
          t.mem = s.mem ∧ t.remote = [⟨req.src, req.die, req.core, req.order, req.cls, req.addr, req.size, v, req.poison⟩] ∧ answers 0 none t) ∧
        ∀ op b c, req.op = .atomic op b c → Completes (.remoteRequestArrival req) s fun t =>
          let old := Memory.readN s.mem req.addr req.size
          t.mem = Memory.writeN s.mem req.addr req.size (amoNew op req.size old (storeValue b req.size) (storeValue c req.size)) ∧
          answers old none t)) ∧
    ∀ v err k c, req.due ≠ 0 → req.answer = some (v, err) → s.fabric.egress req.src (some 7) 5 = some (k, c) →
      (s.fabric.link k).retraining = false →
      let out : Output := .reply req.src req.tag req.gen v err
      (replyFlits req err ≤ s.fabric.credits k c →
        Completes (.remoteRequestArrival req) s fun t =>
          t.outputs = s.outputs ++ [out] ∧ t.fabric.queue = [] ∧
          t.fabric.link k = (s.sendFlits k c (replyFlits req err)).fabric.link k ∧ t.mem = s.mem) ∧
      (s.fabric.credits k c < replyFlits req err →
        Completes (.remoteRequestArrival req) s fun t =>
          t.outputs = s.outputs ∧ t.fabric.queue = [⟨.back out, req.src, none, replyFlits req err, some req.window, s.pcc⟩] ∧ t.mem = s.mem)

/-- R402, R413, R415 to R422, R424 to R426, R428 and R467: what comes over a link goes on, or to its home; a remote access takes a
tag, its window and its timeout; a reply ends the access that holds its tag, one that is late ends by the timeout; windows and
credits follow their rules; audits set credits right; a link replays its flits, retrains and dies; the fabric die's loss ends what is
outstanding. Over which reply channel an answer came, and how long a packet at the router waits, are log entries 14 and 53. The reply channels are used as log entry 53 says, the model's choice. -/
def Obligations.FabricEvents : Prop :=
  RemoteRequestsHold ∧
  ∀ (tag gen id link dest major minor : Nat) (flit : LinkFlit) (a : Access) (s : State),
    (s.fabric.waiting = [] → s.fabric.queue = [] →
      (∀ n, s.accs.get id = some a → a.performed = false → a.replyAt = 0 → a.tag = none → a.commits = false → s.isLocal a.pa = false →
        s.fabric.lost = false → s.fabric.inside (pkgOf a.pa) = true → s.fabricRefusal (pkgOf a.pa) a.wireCls = none →
        s.fabric.freeTag = some n → (s.fabric.window (pkgOf a.pa)).flits + a.wireFlits.1 ≤ (s.fabric.window (pkgOf a.pa)).wd →
        Completes (.accessPerformed id) s fun t =>
          (∃ x, t.fabric.tags.get n = some x ∧ x.access = some id ∧ x.withheld = none ∧ x.dest = pkgOf a.pa ∧
            x.gen = ((s.fabric.tags.getD n { gen := 15, access := none, withheld := none }).gen + 1) % 16) ∧
          (t.fabric.window (pkgOf a.pa)).flits = (s.fabric.window (pkgOf a.pa)).flits + a.wireFlits.1 ∧
          (s.pcc + s.fabric.timeout * 2000, Event.requesterTimeout n) ∈ t.agenda ∧ t.mem = s.mem) ∧
      (∀ x : FabTag, s.fabric.tags.get tag = some x → x.gen = gen → x.access = some id → s.accs.get id = some a →
        Completes (.replyArrival tag gen) s (fun t =>
          t.accs = s.accs.set id { a with tag := none } ∧ t.fabric.tags = s.fabric.tags.set tag { x with access := none } ∧
          (t.fabric.window x.dest).flits = (s.fabric.window x.dest).flits - x.flits ∧
          (∃ n, s.pcc + 110 ≤ n ∧ (n, a.ending id) ∈ t.agenda) ∧ t.mem = s.mem) ∧
        Completes (.requesterTimeout tag) s fun t =>
          let b := { a with performed := true, error := some (.remote 1), tag := none }
          t.accs = s.accs.set id b ∧ t.fabric.tags = s.fabric.tags.set tag { x with access := none, withheld := some x.window } ∧
          (s.pcc, b.ending id) ∈ t.agenda ∧ (s.pcc + 2000000, Event.tagRelease tag) ∈ t.agenda ∧
          t.fabric.timeouts.toNat = min (s.fabric.timeouts.toNat + 1) 0xFFFFFFFF ∧ t.mem = s.mem) ∧
      (s.fabric.tags.get tag = none → Completes (.replyArrival tag gen) s fun t =>
        t.accs = s.accs ∧ t.agenda = s.agenda ∧ t.fabric.stalerep.toNat = min (s.fabric.stalerep.toNat + 1) 0xFFFFFFFF) ∧
      (∀ x : FabTag, s.fabric.tags.get tag = some x → x.access = none → x.withheld ≠ none →
        Completes (.tagRelease tag) s fun t => t.fabric.tags = s.fabric.tags.set tag { x with withheld := none } ∧ t.accs = s.accs) ∧
      ((s.fabric.window dest).noticeAt = none →
        Completes (.windowIncrease dest) s fun t =>
          (t.fabric.window dest).wd = min 512 ((s.fabric.window dest).wd + 8) ∧
          ((t.fabric.window dest).wd < 512 → (s.pcc + 1024, Event.windowIncrease dest) ∈ t.agenda)) ∧
      (∀ (chan : Fin 8) ret,
        Completes (.creditReturn link chan.val ret) s fun t =>
          (t.fabric.link link).credits[chan] = 64 - ((s.fabric.link link).sent[chan] - ret).toNat ∧
          (t.fabric.link link).retries = (s.fabric.link link).retries ∧
          ∀ c : Fin 8, c ≠ chan → (t.fabric.link link).credits[c] = (s.fabric.link link).credits[c]) ∧
      (∀ ret : Vector (BitVec 16) 8,
        Completes (.auditReturn link ret.toList) s fun t =>
          ∀ c : Fin 8, (t.fabric.link link).credits[c] = 64 - ((s.fabric.link link).sent[c] - ret[c]).toNat) ∧
      Completes (.linkRetrain link true) s (fun t =>
        (t.fabric.link link).retraining = false ∧ (t.fabric.link link).retrains = 0 ∧ (t.fabric.link link).sent = (s.fabric.link link).sent ∧
        t.outputs = s.outputs ++ [.resent (link % 6) (s.fabric.link link).kept]) ∧
      Completes (.linkTraining link major minor) s (fun t =>
        let l := t.fabric.link link
        (major = 1 → l.up = true ∧ l.dead = false ∧ l.minor = min 1 minor ∧ l.credits = Vector.replicate 8 64) ∧
        (major ≠ 1 → l.up = false ∧ l.dead = true)) ∧
      Completes (.portDead link) s fun t => (t.fabric.link link).dead = true ∧ (t.fabric.link link).up = false) ∧
    (Completes (.linkRetrain link false) s fun t =>
      (t.fabric.link link).retrains = (s.fabric.link link).retrains + 1 ∧
      (3 ≤ (s.fabric.link link).retrains + 1 → (s.pcc, Event.portDead (link % 6)) ∈ t.agenda)) ∧
    (∀ p, s.fabric.queue = [p] → p.since + 16384 ≤ s.pcc → s.linkOf p = link % 6 → Completes (.routerDiscard link) s fun t =>
      (t.fabric.link link).discard.toNat = min ((s.fabric.link link).discard.toNat + 1) 0xFFFFFFFF ∧ t.fabric.queue = [] ∧
      t.accs = s.accs) ∧
    (Completes (.congestionNotice dest) s fun t =>
      (s.pcc + 1024, Event.windowIncrease dest) ∈ t.agenda ∧
      (t.fabric.window dest).wd =
        if (s.fabric.window dest).halvedAt.any (fun x => decide (s.pcc < x + 2048)) then (s.fabric.window dest).wd
        else max 4 ((s.fabric.window dest).wd / 2)) ∧
    (4096 ≤ (s.fabric.link link).sinceAudit → Completes (.auditFlitSend link) s fun t =>
      t.outputs = s.outputs ++ [.auditFlit (link % 6) (s.fabric.link link).sent.toList] ∧
      (t.fabric.link link).sinceAudit = (s.fabric.link link).sinceAudit - 4096) ∧
    (∀ sent : Vector (BitVec 16) 8, Completes (.auditFlitReceive link sent.toList) s fun t =>
      (∀ c : Fin 8, (t.fabric.link link).ret[c] = sent[c] - BitVec.ofNat 16 (s.heldFrom link c.val)) ∧
      t.outputs = s.outputs ++ [.credit (link % 6) (t.fabric.link link).ret.toList true]) ∧
    (Completes (.linkCrcRetry flit) s fun t =>
      let l := s.fabric.link flit.link
      let n := if l.retried = some (BitVec.ofNat 8 flit.seq) then l.retries + 1 else 1
      (t.fabric.link flit.link).crcRetry.toNat = min (l.crcRetry.toNat + 1) 0xFFFFFFFF ∧
      (t.fabric.link flit.link).retries = (if 16 ≤ n then 0 else n) ∧ (16 ≤ n → (t.fabric.link flit.link).retraining = true) ∧
      (n < 16 → t.outputs = s.outputs ++ [.resent (flit.link % 6) (l.kept.dropWhile fun x => decide (x.1 ≠ BitVec.ofNat 8 flit.seq))])) ∧
    (s.fabric.lost = false → s.fabric.waiting = [] → s.fabric.queue = [] → (∀ l ∈ s.hub.launches, pktFPkgs l.2.packet < 2) → Completes .fabricDieLoss s fun t =>
      t.fabric.lost = true ∧ t.fabric.tags = [] ∧ t.cores = s.cores)

/-- R312, R430 to R434, R437, R474 and R478: the host reads and writes the window, and an atomic of its is unsupported; an
invalidation drops a translation, and one on an insecure stream is dropped; a stream that fails its integrity check is insecure until it is re-keyed; the host's answers end
the reads and translations that wait; a device register takes a write; an attestation request is answered or refused. -/
def Obligations.HostEvents : Prop :=
  ∀ (fn offset len id ctx page : Nat) (a : Access) (data nonce : List (BitVec 8)) (s : State),
    (s.host.trained = true → (s.host.fn fn).insecure = false →
      (∀ pa, s.hostPlaces fn offset len false = some [(pa, len)] → Completes (.hostBar2Read fn offset len) s fun t =>
        ∃ bad, t.outputs = s.outputs ++ [.hostRead fn (some (leList len (Memory.readN s.mem pa len))) bad] ∧ t.mem = s.mem) ∧
      (s.hostPlaces fn offset len false = none → Completes (.hostBar2Read fn offset len) s fun t =>
        t.outputs = s.outputs ++ [.unsupported fn]) ∧
      (∀ pa, s.hostPlaces fn offset data.length true = some [(pa, data.length)] →
        Completes (.hostBar2Write fn offset data) s fun t =>
          Memory.readN t.mem pa data.length = leBytes data ∧
          ∀ x, (x < pa ∨ pa + data.length ≤ x) → Memory.read t.mem x = Memory.read s.mem x) ∧
      (s.hostPlaces fn offset data.length true = none → Completes (.hostBar2Write fn offset data) s fun t =>
        t.mem = s.mem ∧ (fn = 0 → t.outputs = s.outputs ++ [.unsupported fn]) ∧
        (fn ≠ 0 → t.outputs = s.outputs ∧ (t.host.fn fn).dropped = (s.host.fn fn).dropped + 1)) ∧
      Completes (.hostAtomicRequest fn offset) s fun t => t.outputs = s.outputs ++ [.unsupported fn] ∧ t.mem = s.mem) ∧
    ((∀ x ∈ s.accs, x.2.host ≠ 3) → (s.host.fn (s.ctx ctx).func).insecure = false → Completes (.atsInvalidation ctx page) s fun t =>
      (∀ e ∈ t.host.atc, ¬(e.1 = ctx ∧ e.2.1 = page)) ∧ t.outputs = s.outputs ++ [.atsDone ctx page]) ∧
    ((s.host.fn (s.ctx ctx).func).insecure = true → Completes (.atsInvalidation ctx page) s fun t =>
      t.host.atc = s.host.atc ∧ t.outputs = s.outputs ∧
      (t.host.fn (s.ctx ctx).func).dropped = (s.host.fn (s.ctx ctx).func).dropped + 1) ∧
    ((∀ x ∈ s.accs, x.2.host = 0) → Completes (.ideIntegrityFail fn) s fun t => (t.host.fn fn).insecure = true ∧ t.accs = s.accs) ∧
    (Completes (.ideRekey fn) s fun t => (t.host.fn fn).insecure = false ∧ t.mem = s.mem) ∧
    (s.pfc.identity = none ∨ 2 ≤ s.pfc.alarm →
      Completes (.attestationRequest nonce) s fun t => t.outputs = s.outputs ++ [.attestationRefused]) ∧
    (∀ helper, s.pfc.identity = some helper → s.pfc.alarm < 2 →
      Completes (.attestationRequest nonce) s fun t =>
        ∃ sig, sig.length = 1280 ∧ t.outputs = s.outputs ++ [.attestation (s.reportBody helper nonce ++ sig)]) ∧
    (s.accs.get id = some a →
      (a.host = 3 → Completes (.hostCompletionArrival id data) s fun t =>
        ∃ b, t.accs.get id = some b ∧ b.host = 0 ∧ b.performed = true ∧
          b.value = data.foldr (fun (x : BitVec 8) n => x.toNat + 256 * n) 0 % 2 ^ (8 * a.size)) ∧
      (a.host = 1 → data ≠ [] → a.isStore = false → Completes (.hostCompletionArrival id data) s fun t =>
        let page := data.foldr (fun (x : BitVec 8) n => x.toNat + 256 * n) 0 / 4096 % 2 ^ 52
        (s.ctxOf a, (s.hostAddr a).toNat / 4096, page) ∈ t.host.atc ∧ t.accs = s.accs.set id { a with host := 3 } ∧
        t.outputs = s.outputs ++ [.hostRequest id (s.fnOf a) (s.ctxOf a)
          (BitVec.ofNat 64 (page * 4096 + (s.hostAddr a).toNat % 4096)) true a.size none]) ∧
      (a.host = 1 → (s.host.fn (s.fnOf a)).pri = false → Completes (.hostCompletionArrival id []) s fun t =>
        ∃ b, t.accs.get id = some b ∧ b.performed = true ∧ b.error = some (.remote 6)) ∧
      (a.host = 2 → (s.host.fn (s.fnOf a)).insecure = false → Completes (.pageRequestResponse id true) s (fun t =>
          t.accs = s.accs.set id { a with host := 1 } ∧
          t.outputs = s.outputs ++ [.atsRequest id (s.fnOf a) (s.ctxOf a) (s.hostAddr a)]) ∧
        Completes (.pageRequestResponse id false) s fun t =>
          ∃ b, t.accs.get id = some b ∧ b.performed = true ∧ b.error = some (.remote 6))) ∧
    (∀ ats pri, Completes (.hostLinkTraining [(fn, ats, pri)]) s fun t =>
      t.host.trained = true ∧ (t.host.fn fn).ats = ats ∧ (t.host.fn fn).pri = pri) ∧
    (∀ v : BitVec 128, ctx < 64 → Completes (.registerWrite (.descriptor ctx v)) s fun t =>
      let c := t.ctx ctx
      c.fqbase = v.toNat / 2 ^ 76 % 2 ^ 44 ∧ c.func = v.toNat / 2 ^ 57 % 32 ∧ c.root = v.toNat / 2 ^ 13 % 2 ^ 43 * 8192 ∧
      (v.toNat / 2 ^ 124 ≤ 6 → c.valid = v.getLsbD 63 ∧ c.fqlog = v.toNat / 2 ^ 124) ∧ (6 < v.toNat / 2 ^ 124 → c.valid = false)) ∧
    (∀ (n launch role : Nat) (v : BitVec 32) (w : Word) (x : BitVec 16),
      (s.cores.has n = true → Completes (.registerWrite (.schedctl n v)) s fun t =>
        (t.core n).job.schedctl = v &&& 0x00FFFF00 ∧ (t.core n).groups = (s.core n).groups) ∧
      Completes (.registerWrite (.trapEntry n w)) s (fun t => (t.ctl n).entry = w ∧ (t.ctl n).sc = (s.ctl n).sc) ∧
      ∀ l, s.hub.launches.get launch = some l → x.getLsbD 15 = true →
        Completes (.registerWrite (.binding launch role x)) s fun t =>
          ∃ k, t.hub.launches.get launch = some k ∧ k.binding.get role = some (200 * (x.toNat / 256 % 8) + x.toNat % 256))

/-- R450 to R454, R460, R462 to R469, R472 to R477, R479 and R480: a reset starts the package, which is ready when every stage
passes; a transient verdict is kept, a spare takes a core's place; control cores restart, the control die and a compute die are
lost and come back; alarms, debug attempts and the power window leave what the rules say. That memory reads 0 after a reset is the model's choice (log entry 1). -/
def Obligations.RecoveryEvents : Prop :=
  ∀ (env : BootInputs) (unit : TestUnit) (core spare n die watts capped helper : Nat) (table : List (BitVec 8)) (s : State),
    (env.hang = none → env.romOk = true → env.imageSigOk = true → recordOk env.record = true →
      env.firmwareOk = true → env.heartbeat = true → env.lpddrOk = true → env.fabricOk = true →
      (∃ x ∈ env.chiplets, tableAccepted x.1 x.2 = true ∧ bytesAt x.2 6 6 = 1) →
      (∃ x ∈ env.chiplets, tableAccepted x.1 x.2 = true ∧ bytesAt x.2 6 6 = 2) →
      (∃ x ∈ env.chiplets, tableAccepted x.1 x.2 = true ∧ bytesAt x.2 6 6 = 0 ∧ x.1 < 8 ∧ env.dramOk.contains x.1 = true) →
      s.pfc.arb ≤ bytesAt env.record 2 3 →
      Completes (.deviceReset env) s (fun t =>
        t.pfc.ready = true ∧ t.pfc.failcnt = 0 ∧ t.pfc.stage = 7 ∧ t.mem = [] ∧ t.cores = [] ∧ t.pcc = 0 ∧
        ∀ k, (t.ctl k).stopped = false ∧ (t.ctl k).sc.pc = env.entry) ∧
      (s.pfc.minimal = true → Completes (.hostRestartRequest env) s fun t =>
        t.pfc.ready = true ∧ t.pfc.minimal = false ∧ t.pfc.alarm = s.pfc.alarm ∧
        ∀ k, (t.ctl k).stopped = false ∧ (t.ctl k).sc.pc = env.entry)) ∧
    (s.transientsOf unit < 2 → Completes (.selfTestComplete unit true) s fun t =>
      t.pfc.transients = s.pfc.transients ++ [(unit.uclass, unit.index, unit.core, unit.die, s.pcc)] ∧ t.cores = s.cores ∧
      ∀ u ∈ t.pfc.tests, sameUnit u unit = false) ∧
    (s.cores.get core = none → s.hub.launches = [] → Completes (.spareSubstitution core spare) s fun t =>
      (0x14, physOf spare, physOf core, dieOf core) ∈ t.pfc.spareMap ∧ t.mem = s.mem) ∧
    (s.cores.has core = true → Completes (.spareSubstitution core spare) s fun t =>
      (s.pcc + 1, Event.spareSubstitution core spare) ∈ t.agenda) ∧
    (Completes (.controlCoreReset n) s fun t =>
      (t.ctl n).stopped = false ∧ (t.ctl n).sc.pc = s.pfc.ctlEntry ∧ (t.ctl n).outstanding = false ∧ t.cores = s.cores ∧
      ∀ k, k % 16 ≠ n % 16 → t.ctl k = s.ctl k) ∧
    (s.pfc.ctlLost = false → Completes (.controlDieLoss []) s fun t =>
      t.pfc.ctlLost = true ∧ (∀ k, (t.ctl k).stopped = true) ∧ t.cores = s.cores ∧ t.mem = s.mem) ∧
    (s.pfc.ctlLost = true →
      Completes (.controlDieRestart true) s (fun t =>
        t.pfc.ctlLost = false ∧ t.pfc.ctlFails = 0 ∧ ∀ k, (t.ctl k).stopped = false ∧ (t.ctl k).sc.pc = s.pfc.ctlEntry) ∧
      (s.pfc.ctlFails < 2 → Completes (.controlDieRestart false) s fun t =>
        t.pfc.ctlFails = s.pfc.ctlFails + 1 ∧ t.pfc.ctlLost = true ∧ t.cores = s.cores)) ∧
    (Completes (.heartbeatMiss 10) s fun t => (s.pcc, Event.fabricDieLoss) ∈ t.agenda) ∧
    (s.pfc.ctlMissed = none → Completes (.heartbeatMiss 9) s fun t => t.pfc.ctlMissed = some s.pcc ∧ t.control = s.control) ∧
    (die < 8 → ∀ x, (s.die die).missed = some x → s.pcc < x + 4000000 →
      Completes (.heartbeatMiss die) s fun t => (s.pcc, Event.dieIsolation die) ∈ t.agenda) ∧
    ((s.die die).isolated = false → (∀ c ∈ s.cores, dieOf c.1 ≠ die) → Completes (.dieIsolation die) s fun t => (t.die die).isolated = true) ∧
    ((s.die die).isolated = true →
      Completes (.dieRecovery die false table) s (fun t => (t.die die).inReset = true ∧ (t.die die).isolated = true) ∧
      (tableAccepted die table = true → bytesAt table 6 6 = 0 → Completes (.dieRecovery die true table) s fun t =>
        let dram := s.globalPa (0x10000000000 + die * 0x800000000) / 32
        let dsm := s.globalPa (0x18000000000 + die * 0x10000000) / 32
        (t.die die).isolated = false ∧ (t.die die).inReset = false ∧ t.mem = s.mem ∧
        ∀ g, (dram ≤ g ∧ g < dram + 0x600000000 / 32) ∨ (dsm ≤ g ∧ g < dsm + 0x10000000 / 32) → t.poison.has g = true) ∧
      (tableAccepted die table = false → Completes (.dieRecovery die true table) s fun t =>
        (t.die die).isolated = true ∧ (t.die die).inReset = true)) ∧
    (s.pfc.starting = true → s.pfc.stage < 7 → Completes .bootStageTimeout s fun t =>
      t.pfc.reason = (stageReasons s.pfc.stage).1 ∨ t.pfc.reason = (stageReasons s.pfc.stage).2) ∧
    (Completes (.securityAlarm .excursion) s fun t => t.pfc.reason = 0x0B ∧ t.pfc.minimal = true) ∧
    (∀ x, outOfRange x = true → s.pfc.hotSince.has die = false → Completes (.securityAlarm (.temperature die x)) s fun t =>
      t.pfc.alarm = max s.pfc.alarm 1 ∧ t.pfc.locked = true ∧ t.pfc.hotSince.get die = some s.pcc ∧
      (s.pcc + 2000000000, Event.alarmEscalation) ∈ t.agenda) ∧
    (∀ d x, (d, x) ∈ s.pfc.hotSince → x + 2000000000 ≤ s.pcc → Completes .alarmEscalation s fun t => t.pfc.reason = 0x0B ∧ t.pfc.minimal = true) ∧
    (s.pfc.debug = true → s.pfc.locked = false → Completes (.debugUnlockAttempt true) s fun t => t.pfc.badUnlocks = 0) ∧
    (Completes (.debugUnlockAttempt false) s fun t =>
      t.pfc.badUnlocks = s.pfc.badUnlocks + 1 ∧
      (s.pfc.debug = false ∨ s.pfc.badUnlocks = 2 ∨ s.pfc.badUnlocks = 7 → (s.pcc, Event.securityAlarm .debugUnlock) ∈ t.agenda)) ∧
    (Completes (.powerWindow watts capped) s fun t =>
      t.pfc.pwr = min watts s.pfc.plim ∧ t.mem = s.mem ∧
      ∃ idle, idle ≤ 1024 * capped ∧ t.pfc.capcyc = s.pfc.capcyc + idle * (s.cores.map fun (c : Nat × Core) => c.2.idlers).sum ∧
        (∀ k n, ((t.core k).group n).v = ((s.core k).group n).v.capped s.pcc idle) ∧
        ∀ v : VStream, (v.exposed = true → v.capped s.pcc idle = v) ∧
          (v.idles = true → v.capped s.pcc idle = { v with nextIssue := max v.nextIssue s.pcc + idle })) ∧
    Completes (.vendorEnrolment helper true) s fun t => t.pfc.helper = some helper ∧ t.mem = s.mem

/-! ### Words, steps and the machine as a whole -/

/-- R45 to R55 and R62: words written from the encodings of the opcode map decode to their instructions; the all-zero and
the all-ones word decode to none (R46), nor does a word with an MBZ bit set; an engine word with a UNIT that its form does
not take names a wrong operand (R53). -/
def Obligations.WordsDecode : Prop :=
    decode .scalar 0b00000100001000100001100000000000 = .ok (.add 1 2 3 0) ∧
    decode .scalar 0b00000111111111101110100101000101 = .ok (.sel 31 30 29 5) ∧
    decode .scalar 0b00000100100001010000000100000000 = .ok (.clz 4 5 0) ∧
    decode .scalar 0b00001000001000100001110000111000 = .ok (.fmac 1 2 3 1 0) ∧
    decode .scalar 0b00001000111010000100100000000000 = .ok (.fadd 7 8 9 0 0) ∧
    decode .scalar 0b00001111110001010000000000000000 = .ok (.jalr 30 5 0) ∧
    decode .scalar 0b00010000110011110000000000000000 = .ok (.jget 6 15 0) ∧
    decode .scalar 0b00100000001000101111111111111111 = .ok (.addi 1 2 65535) ∧
    decode .scalar 0b00111000011001000000000000111111 = .ok (.slli 3 4 63) ∧
    decode .scalar 0b00111100001000100000001000001111 = .ok (.bfx 1 2 8 15) ∧
    decode .scalar 0b01000101001111111111111111111111 = .ok (.li 9 2097151) ∧
    decode .scalar 0b01100000111001001101111111111110 = .ok (.ld 7 4 3 1 4094) ∧
    decode .scalar 0b01110100001000101000011111111111 = .ok (.sts 1 2 2 2047) ∧
    decode .scalar 0b01111000011001001110000000000001 = .ok (.ldq 3 4 3 2 1) ∧
    decode .scalar 0b10000000001000100001101111110000 = .ok (.amoCas 1 2 3 3 2) ∧
    decode .scalar 0b10010000000001000101111111111111 = .ok (.beq 1 2 8191) ∧
    decode .scalar 0b10010100001111111111111111111111 = .ok (.j 4194303) ∧
    decode .scalar 0b10011100000000000000000000000000 = .ok .land ∧
    decode .scalar 0b11000000101000000000000100000010 = .ok (.csrr 5 258) ∧
    decode .scalar 0b11010000000000000010000000000011 = .ok (.fence 3) ∧
    decode .scalar 0b11111000000000000000000000000000 = .ok (.nop 0) ∧
    decode .scalar 0b10110000000000010001000000000000 = .ok (.vrun 1 2 0) ∧
    decode .scalar 0b10110000000000010001000110101000 = .ok (.crun 1 2 3 0) ∧
    decode .scalar 0b10110000001000000001010011101000 = .ok (.qdepth 1 2 0) ∧
    decode .vector 0b00000010000010000100000110000000 = .ok (.vaddFp 1 2 3 0 0 0) ∧
    decode .vector 0b01010000000010000101111111110000 = .ok (.vaddi 1 2 511 0) ∧
    decode .vector 0b00100000001000001010001101001000 = .ok (.vaddInt 4 5 6 2 0 8) ∧
    decode .vector 0b01100000000000000010000100000000 = .ok (.vceqFp 1 2 0 0 0) ∧
    decode .vector 0b01111000000001001001010000000000 = .ok (.vplog 9 1 2) ∧
    decode .vector 0b10000000000010000100000110011010 = .ok (.vsel 1 2 3 1 0 2) ∧
    decode .vector 0b10001000000010000100100001010000 = .ok (.vslide 1 2 1 5 0) ∧
    decode .vector 0b11011000000010000000100100100000 = .ok (.vgath 1 1 2 1 0) ∧
    decode .vector 0b11100000000010000100100110000000 = .ok (.vamoAdd 1 2 1 3 0 0 0) ∧
    decode .vector 0b11111000111111111111111111110000 = .ok (.vseg 1048575) ∧
    decode .vector 0b11111100000000000000000000000000 = .ok (.vnop 0) ∧
    decode .matrix 0b00001100100100011111111010000000 = .ok (.mma 1 2 3 31 1 0 1) ∧
    decode .matrix 0b00000110101111111111111100000000 = .ok (.mldw 1 5 8191) ∧
    decode .matrix 0b00010000101010111100110111101111 = .ok (.mstamp 11259375) ∧
    decode .matrix 0b00001000000000000000000000000000 = .ok .mswap ∧
    decode .matrix 0b00100000000000000000000000010100 = .ok (.mseg 20) ∧
    decode .clicker 0b00000100010000000000001111101000 = .ok (.clevCount 2 1000) ∧
    decode .clicker 0b00001100000000010010000000001111 = .ok (.ccopy 0 0 1 2 15) ∧
    decode .clicker 0b00010110101000001111111111111111 = .ok (.csig 5 1 65535) ∧
    decode .clicker 0b00011000000000000000000000000000 = .ok .cend ∧
    (∀ k, decode k 0 = .illegalEncoding ∧ decode k 0xFFFFFFFF = .illegalEncoding) ∧
    decode .scalar 0b00000100100001010000100100000000 = .illegalEncoding ∧
    decode .scalar 0b10110000000000010001000010000000 = .illegalOperand

/-- R47, R48, R55 and R62: decoding the word of a well-formed instruction gives the instruction back, every operand with it. -/
def Obligations.DecodeOfEncode : Prop :=
  ∀ (i : Instr) (k : WordKind), i.kind = some k → i.wf = true → encode i < 2 ^ 32 ∧ decode k (encode i) = .ok i

/-- A word that decodes has one reading: it is the word of the well-formed instruction it decodes to. -/
def Obligations.EncodeOfDecode : Prop :=
  ∀ (k : WordKind) (w : Nat) (i : Instr), w < 2 ^ 32 → decode k w = .ok i → i.kind = some k ∧ i.wf = true ∧ encode i = w

/-- R45, R46, R72 and R98: a step executes the word that its turn fetches: the meaning of the instruction it decodes to, or the
trap it draws, and then what follows a word (an engine word with a UNIT that its form does not take is an ILLEGAL_OPERAND only
on a group's stream); a group that is in a Beyllieg block runs it on. In a group's turn that word is the four bytes in memory where the translation
of its pc points. An event is its own meaning. -/
def Obligations.StepRunsWord : Prop :=
  ∀ s : State,
    (∀ k w t, s.plan = (.word k w, t) →
      (∀ i, decode k w.toNat = .ok i → step s = goOnAfter t (exec i t)) ∧
      (decode k w.toNat = .illegalEncoding → step s = goOnAfter t (.next (t.raiseTrap { cause := 0x01 }))) ∧
      (decode k w.toNat = .illegalOperand →
        step s = goOnAfter t (.next (t.raiseTrap { cause := if t.cur.stream = .group then 0x02 else 0x01 })))) ∧
    (∀ t, s.plan = (.block, t) → step s = goOnAfter t (runBlock t)) ∧
    (∀ e t, s.plan = (.event e, t) → step s = exec e.toInstr t) ∧
    (∀ e rest n, s.inputs = (n, e) :: rest → n ≤ s.pcc → step s = exec e.toInstr { s with inputs := rest }) ∧
    (∀ e rest n, s.inputs = [] → s.agenda = (n, e) :: rest → n ≤ s.pcc → step s = exec e.toInstr { s with agenda := rest }) ∧
    ∀ (core slot pa level : Nat) (rest : List Focus) (e : TlbEntry) (i : Instr),
      s.inputs = [] → s.agenda = [] → s.todo = ⟨core, slot, .group⟩ :: rest →
      let u := { s with cur := ⟨core, slot, .group⟩, todo := rest }
      let pc := u.scalar.pc
      core < Config.controlBase → u.here.groups.has slot = true → u.grp.status = .active → u.grp.hold = none →
      u.here.job.blocks = none → u.noHome pa = none → isConfig pa = false →
      u.scalar.admits i s.pcc = true → u.lookup core u.curCtx pc.toNat = some e → e.executable = true →
      pc.toNat < 2 ^ 56 → pc.toNat % 4 = 0 → e.level = level → e.pa % 128 = 0 → pa = e.pa + pc.toNat % pageBytes level →
      u.here.mem.icache.get (icKey u.curCtx pc.toNat) = none → s.poison.has (pa / 32) = false →
      decode .scalar (Memory.readN s.mem pa 4) = .ok i →
      let v := (u.keepSector core u.curCtx pc).noteWord (BitVec.ofNat 32 (Memory.readN s.mem pa 4))
      step s = goOnAfter v (exec i v)

/-- Nothing stops the machine: every step answers a next state (R1, R72, R74: what an instruction may not do is a trap). -/
def Obligations.EveryStepGoesOn : Prop := ∀ s : State, s.safe

/-- The bytes of memory, and those of every loaded code object's image, are in the canonical form. -/
def MemoryForm (s : State) : Prop := s.mem.wf = true ∧ ∀ o ∈ s.objects, o.2.image.wf = true

/-- Every step keeps the canonical form of memory. -/
def Obligations.MemoryKeepsForm : Prop := ∀ s t : State, MemoryForm s → step s = .next t → MemoryForm t

/-- R54: register 0 reads as zero and discards writes; on the eft stream a register field of 16 or above, and in a job-register
form a J field of 16 or above, traps with ILLEGAL_OPERAND; a field of a group's stream may name any register. That a poisoned register traps whichever of a twin group's files holds it is the model's choice (log entry 31). -/
def Obligations.RegisterFields : Prop :=
  (∀ (r : RegFile) (v : Word) (n : BitVec 5), r.get 0 = 0 ∧ (r.put 0 v).get n = r.get n) ∧
  (∀ (d a b : BitVec 5) (h : BitVec 3) (s : State),
    (s.cur.stream = .eft → 16 ≤ d.toNat ∨ 16 ≤ a.toNat ∨ 16 ≤ b.toNat →
      exec (.add d a b h) s = .next (s.raiseTrap { cause := 0x02 })) ∧
    (s.cur.stream = .group → 16 ≤ a.toNat → exec (.jget d a h) s = .next (s.raiseTrap { cause := 0x02 })) ∧
    (s.cur.stream = .group → (∀ n ∈ [a, b], n.toNat ∉ s.rf.poison) →
      Completes (.add 0 a b h) s fun t => (∀ n, t.x n = s.x n) ∧ t.scalar.pc = s.scalar.pc + 4)) ∧
  PoisonedReadHolds

/-- R2, R340, R381 and R383: a group whose pc is at no block of its kernel draws ILLEGAL_OPERAND; a block begins with its reads
delivered; an operation that does not fire changes nothing, and one that is no load takes one step; where not one exit has fired,
or more than one, the group draws ILLEGAL_OPERAND, and PROTECTION where an exitr leads to no block; the commit writes the
register targets, raises FLAGS and goes to the next block. A trap leaves registers and memory as they were. That blocks run
so in place of the words made of them is the model's choice (log entry 41). -/
def Obligations.BlockSteps : Prop :=
  ∀ s : State, s.cur.stream = .group → s.here.chargeable s.cur.slot = true → s.grp.hold = none → s.hasLanes = false →
    s.scalar.twin = none →
    let pc := s.scalar.pc
    let runs (P : State → Prop) : Prop := ∃ t, runBlock s = .next t ∧ t.mem = s.mem ∧ t.grp.vregs = s.grp.vregs ∧ P t
    let traps (cause : Nat) (t : State) : Prop :=
      t.grp.status = .trapped ∧ t.rf = s.rf ∧ t.scalar.pc = pc ∧ ∃ x ∈ t.grp.traps, x.cause = cause ∧ x.pc = pc
    (s.blockAt pc = none → runs (traps 0x02)) ∧
    ∀ b, s.blockAt pc = some b → b.lane = false →
      (s.grp.block = none → (∀ r ∈ b.reads, (BitVec.ofNat 5 r.reg).toNat ∉ s.rf.poison) →
        runs fun t => t.rf = s.rf ∧ t.scalar.pc = pc ∧
          ∃ r, t.grp.block = some r ∧ r.next = 0 ∧ r.eval = b.start fun n => s.rf.get (BitVec.ofNat 5 n)) ∧
      ∀ r, s.grp.block = some r → r.twin = none →
        (∀ o, b.ops[r.next]? = some o → r.eval.loadOf o r.next = none →
          runs fun t => t.rf = s.rf ∧ t.scalar.pc = pc ∧
            ∃ q, t.grp.block = some q ∧ q.next = r.next + 1 ∧ (r.eval.fires o r.next = false → q.eval = r.eval) ∧
              q.eval.flags ||| r.eval.flags = q.eval.flags) ∧
        (b.ops.length ≤ r.next →
          (r.eval.exits.length ≠ 1 → runs (traps 0x02)) ∧
          (∀ a, r.eval.exits = [.address a] → s.blockAt a = none → runs (traps 0x0A)) ∧
          (∀ n, r.eval.exits = [.offset n] → r.eval.stores.length ≤ r.stored → r.eval.regs.wf = true →
            (∀ x ∈ r.eval.regs, x.1 < 32) →
            runs fun t =>
              (∀ k : BitVec 5, t.rf.get k = if k = 0 then 0 else (r.eval.regs.get k.toNat).getD (s.rf.get k)) ∧
              t.rf.flags = s.rf.flags ||| BitVec.ofNat 32 r.eval.flags ∧
              t.scalar.pc = pc + BitVec.ofInt 64 n ∧ t.grp.block = none ∧ t.scalar.nextIssue = s.pcc + 1))

/-- R66 and R110: after reset PCC is 0, no stream runs, no launch queue is enabled and memory is in its canonical form; at a
group's start s31 holds the kernel argument block's address and every register without a given value is 0, the predicates
are true everywhere and no vector register holds anything; at a job's start its registers, ports, queue and accumulators
are empty or zero. -/
def Obligations.StartValues : Prop :=
  (State.reset.pcc = 0 ∧ State.reset.turns = [] ∧ (∀ q, (State.reset.lqueue q).enable = false) ∧ MemoryForm State.reset) ∧
  (∀ (l : Launch) (j : JobInfo) (slot kind seq : Nat) (pc : Word),
    let g := l.newGroup j slot kind seq pc []
    g.sc.pc = pc ∧ g.sc.rf.get 31 = BitVec.ofNat 64 (pktArgs l.packet) ∧
    g.sc.rf.get 29 = l.stackPointer (j.role.toNat % 65536) slot ∧ (∀ n : BitVec 5, n ≠ 31 → n ≠ 29 → g.sc.rf.get n = 0) ∧
    (∀ i : Fin 4, g.k[i] = 0) ∧ (∀ i : Fin 8, g.preds[i] = BitVec.allOnes 1024) ∧ g.vregs = [] ∧ g.ret = 0) ∧
  (∀ i : Fin 16, Core.empty.j[i] = 0 ∧ Core.empty.port i.val = Port.unbound) ∧ (∀ n, Core.empty.eft.sc.rf.get n = 0) ∧
  Core.empty.matrix.fq = [] ∧ Core.empty.matrix.acc = [] ∧ ∀ (n : Nat) (i : Fin 6), (Core.empty.chan n).b[i] = 0
end

