-- ==== Sys2Proof/Laws/Store.lean ====
section
/-! SUPPORT. Laws of the plain-data tables: reads after writes, and the canonical form that every write keeps. -/

namespace Sys2Proof.Machine

/-! ### Tables -/

theorem FMap.get_set_same {α : Type} (m : FMap α) (k : Nat) (v : α) : (m.set k v).get k = some v := by
  induction m with
  | nil => simp [FMap.set, FMap.get]
  | cons p rest ih =>
    obtain ⟨a, w⟩ := p
    simp only [FMap.set]
    split
    · subst_vars; simp [FMap.get]
    · split <;> simp [FMap.get, *]

theorem FMap.get_set_other {α : Type} (m : FMap α) (k j : Nat) (v : α) (h : j ≠ k) : (m.set k v).get j = m.get j := by
  induction m with
  | nil => simp [FMap.set, FMap.get, h]
  | cons p rest ih =>
    obtain ⟨a, w⟩ := p
    simp only [FMap.set]
    split
    · subst_vars; simp [FMap.get, h]
    · split
      · simp [FMap.get, h]
      · simp only [FMap.get, ih]

theorem FMap.get_modify_same {α : Type} (m : FMap α) (k : Nat) (f : α → α) : (m.modify k f).get k = (m.get k).map f := by
  induction m with
  | nil => rfl
  | cons p rest ih =>
    obtain ⟨a, w⟩ := p
    simp only [FMap.modify]
    split <;> simp [FMap.get, *]

theorem FMap.get_modify_other {α : Type} (m : FMap α) (k j : Nat) (f : α → α) (h : j ≠ k) : (m.modify k f).get j = m.get j := by
  induction m with
  | nil => rfl
  | cons p rest ih =>
    obtain ⟨a, w⟩ := p
    simp only [FMap.modify]
    split
    · subst_vars; simp [FMap.get, h]
    · simp only [FMap.get, ih]

theorem FMap.get_mapVal {α : Type} (m : FMap α) (f : Nat → α → α) (k : Nat) : (m.mapVal f).get k = (m.get k).map (f k) := by
  induction m with
  | nil => rfl
  | cons p rest ih =>
    obtain ⟨a, w⟩ := p
    show FMap.get ((a, f a w) :: FMap.mapVal rest f) k = _
    simp only [FMap.get]
    split
    · subst_vars; rfl
    · exact ih

theorem FMap.getD_set_same {α : Type} (m : FMap α) (k : Nat) (v d : α) : (m.set k v).getD k d = v := by
  simp [FMap.getD, FMap.get_set_same]

theorem FMap.getD_set_other {α : Type} (m : FMap α) (k j : Nat) (v d : α) (h : j ≠ k) :
    (m.set k v).getD j d = m.getD j d := by
  simp [FMap.getD, FMap.get_set_other, h]

theorem FMap.has_set_same {α : Type} (m : FMap α) (k : Nat) (v : α) : (m.set k v).has k = true := by
  simp [FMap.has, FMap.get_set_same]

/-- Every key of a table comes after a number. -/
def FMap.after {α : Type} (m : FMap α) (k : Nat) : Prop := ∀ p ∈ m, k < p.1

theorem FMap.wf_cons {α : Type} (p : Nat × α) (m : FMap α) : FMap.wf (p :: m) = true ↔ FMap.after m p.1 ∧ m.wf = true := by
  induction m generalizing p with
  | nil => simp [FMap.wf, FMap.after]
  | cons q rest ih =>
    simp only [FMap.wf, Bool.and_eq_true, decide_eq_true_eq, FMap.after, List.mem_cons, forall_eq_or_imp]
    constructor
    · rintro ⟨h1, h2⟩
      have := (ih q).mp h2
      exact ⟨⟨h1, fun x hx => lt_trans h1 (this.1 x hx)⟩, h2⟩
    · rintro ⟨⟨h1, -⟩, h2⟩
      exact ⟨h1, h2⟩

theorem FMap.mem_set {α : Type} (m : FMap α) (k : Nat) (v : α) (p : Nat × α) (h : p ∈ m.set k v) : p = (k, v) ∨ p ∈ m := by
  induction m with
  | nil => simp only [FMap.set, List.mem_singleton] at h; exact .inl h
  | cons q rest ih =>
    obtain ⟨a, w⟩ := q
    simp only [FMap.set] at h
    split at h
    · subst_vars
      rcases List.mem_cons.mp h with h | h
      · exact .inl h
      · exact .inr (List.mem_cons_of_mem _ h)
    · split at h
      · rcases List.mem_cons.mp h with h | h
        · exact .inl h
        · exact .inr h
      · rcases List.mem_cons.mp h with h | h
        · exact .inr (by simp [h])
        · rcases ih h with h | h
          · exact .inl h
          · exact .inr (List.mem_cons_of_mem _ h)

theorem FMap.mem_del {α : Type} (m : FMap α) (k : Nat) (p : Nat × α) (h : p ∈ m.del k) : p ∈ m := by
  induction m with
  | nil => exact h
  | cons q rest ih =>
    obtain ⟨a, w⟩ := q
    simp only [FMap.del] at h
    split at h
    · exact List.mem_cons_of_mem _ (ih h)
    · rcases List.mem_cons.mp h with h | h
      · simp [h]
      · exact List.mem_cons_of_mem _ (ih h)

theorem FMap.wf_set {α : Type} (m : FMap α) (k : Nat) (v : α) (h : m.wf = true) : (m.set k v).wf = true := by
  induction m with
  | nil => rfl
  | cons p rest ih =>
    obtain ⟨a, w⟩ := p
    obtain ⟨h1, h2⟩ := (FMap.wf_cons _ _).mp h
    simp only [FMap.set]
    split
    · subst_vars
      exact (FMap.wf_cons _ _).mpr ⟨h1, h2⟩
    · split
      · refine (FMap.wf_cons _ _).mpr ⟨?_, h⟩
        intro q hq
        rcases List.mem_cons.mp hq with rfl | hq
        · assumption
        · exact lt_trans ‹_› (h1 q hq)
      · refine (FMap.wf_cons _ _).mpr ⟨?_, ih h2⟩
        intro q hq
        rcases FMap.mem_set _ _ _ _ hq with rfl | hq
        · simp only; omega
        · exact h1 q hq

theorem FMap.wf_del {α : Type} (m : FMap α) (k : Nat) (h : m.wf = true) : (m.del k).wf = true := by
  induction m with
  | nil => rfl
  | cons p rest ih =>
    obtain ⟨a, w⟩ := p
    obtain ⟨h1, h2⟩ := (FMap.wf_cons _ _).mp h
    simp only [FMap.del]
    split
    · exact ih h2
    · exact (FMap.wf_cons _ _).mpr ⟨fun q hq => h1 q (FMap.mem_del _ _ _ hq), ih h2⟩

theorem FMap.get_del_same {α : Type} (m : FMap α) (k : Nat) : (m.del k).get k = none := by
  induction m with
  | nil => rfl
  | cons p rest ih =>
    obtain ⟨a, w⟩ := p
    simp only [FMap.del]
    split
    · exact ih
    · simp [FMap.get, *]

theorem FMap.get_del_other {α : Type} (m : FMap α) (k j : Nat) (hj : j ≠ k) : (m.del k).get j = m.get j := by
  induction m with
  | nil => rfl
  | cons p rest ih =>
    obtain ⟨a, w⟩ := p
    simp only [FMap.del]
    split
    · subst_vars; simp [FMap.get, hj, ih]
    · simp only [FMap.get, ih]

theorem FMap.has_del_same {α : Type} (m : FMap α) (k : Nat) : (m.del k).has k = false := by
  simp [FMap.has, FMap.get_del_same]

/-! ### Memory -/

theorem Memory.wf_iff (m : Memory) : m.wf = true ↔ FMap.wf m = true ∧ ∀ p ∈ m, p.2 ≠ 0 := by
  simp [Memory.wf]

theorem Memory.wf_nil : Memory.wf [] = true := rfl

theorem Memory.wf_write (m : Memory) (a : Nat) (b : Byte) (h : m.wf = true) : (m.write a b).wf = true := by
  obtain ⟨h1, h2⟩ := (Memory.wf_iff m).mp h
  unfold Memory.write
  split
  · exact (Memory.wf_iff _).mpr ⟨FMap.wf_del _ _ h1, fun p hp => h2 p (FMap.mem_del _ _ _ hp)⟩
  · refine (Memory.wf_iff _).mpr ⟨FMap.wf_set _ _ _ h1, fun p hp => ?_⟩
    rcases FMap.mem_set _ _ _ _ hp with rfl | hp
    · assumption
    · exact h2 p hp

theorem Memory.wf_writeN (m : Memory) (a n v : Nat) (h : m.wf = true) : (m.writeN a n v).wf = true := by
  induction n generalizing m a v with
  | zero => exact h
  | succ n ih => exact ih _ _ _ (Memory.wf_write _ _ _ h)

theorem Memory.read_write_same (m : Memory) (a : Nat) (b : Byte) : (m.write a b).read a = b := by
  unfold Memory.write Memory.read
  split
  · simp [FMap.getD, FMap.get_del_same, *]
  · simp [FMap.getD, FMap.get_set_same]

theorem Memory.read_write_other (m : Memory) (a c : Nat) (b : Byte) (hc : c ≠ a) : (m.write a b).read c = m.read c := by
  unfold Memory.write Memory.read
  split
  · simp [FMap.getD, FMap.get_del_other _ _ _ hc]
  · simp [FMap.getD, FMap.get_set_other _ _ _ _ hc]

/-- A write leaves every byte outside its range alone. -/
theorem Memory.read_writeN_outside (m : Memory) (a n v c : Nat) (hc : c < a ∨ a + n ≤ c) : (m.writeN a n v).read c = m.read c := by
  induction n generalizing m a v with
  | zero => rfl
  | succ n ih =>
    simp only [Memory.writeN]
    rw [ih _ _ _ (by omega), Memory.read_write_other _ _ _ _ (by omega)]

/-- A write of n bytes leaves byte i of the number at offset i. -/
theorem Memory.read_writeN_inside (m : Memory) (a n v i : Nat) (hi : i < n) :
    (m.writeN a n v).read (a + i) = BitVec.ofNat 8 (v / 256 ^ i) := by
  induction n generalizing m a v i with
  | zero => omega
  | succ n ih =>
    simp only [Memory.writeN]
    cases i with
    | zero =>
      rw [Memory.read_writeN_outside _ _ _ _ _ (by omega)]
      simpa using Memory.read_write_same m a _
    | succ i =>
      have := ih (m.write a (BitVec.ofNat 8 v)) (a + 1) (v / 256) i (by omega)
      rw [show a + (i + 1) = a + 1 + i by omega, this, Nat.div_div_eq_div_mul, Nat.pow_succ, Nat.mul_comm 256]

theorem Memory.readN_lt (m : Memory) (a n : Nat) : m.readN a n < 256 ^ n := by
  induction n generalizing a with
  | zero => simp [Memory.readN]
  | succ n ih =>
    have h1 := ih (a + 1)
    have h2 : (m.read a).toNat < 256 := (m.read a).isLt
    simp only [Memory.readN, Nat.pow_succ]
    omega

/-- The bytes read where they have just been written are the number's low bytes. -/
theorem Memory.readN_writeN (m : Memory) (a n v : Nat) : (m.writeN a n v).readN a n = v % 256 ^ n := by
  induction n generalizing m a v with
  | zero => simp [Memory.readN, Nat.mod_one]
  | succ n ih =>
    simp only [Memory.writeN, Memory.readN]
    rw [ih _ _ _, Memory.read_writeN_outside _ _ _ _ _ (by omega), Memory.read_write_same, BitVec.toNat_ofNat,
      show 256 ^ (n + 1) = 256 * 256 ^ n from by rw [Nat.pow_succ, Nat.mul_comm], Nat.mod_mul]

theorem Memory.readN_congr (m m' : Memory) (a n : Nat) (h : ∀ c, a ≤ c → c < a + n → m.read c = m'.read c) :
    m.readN a n = m'.readN a n := by
  induction n generalizing a with
  | zero => rfl
  | succ n ih =>
    simp only [Memory.readN]
    rw [h a (by omega) (by omega), ih (a + 1) fun c h1 h2 => h c (by omega) (by omega)]

/-! ### Stores -/

theorem Store.wf_iff (m : Store) : m.wf = true ↔ FMap.wf m = true ∧ ∀ p ∈ m, p.2 ≠ 0 := by
  simp [Store.wf]

theorem Store.wf_write (m : Store) (a v : Nat) (h : m.wf = true) : (m.write a v).wf = true := by
  obtain ⟨h1, h2⟩ := (Store.wf_iff m).mp h
  unfold Store.write
  split
  · exact (Store.wf_iff _).mpr ⟨FMap.wf_del _ _ h1, fun p hp => h2 p (FMap.mem_del _ _ _ hp)⟩
  · refine (Store.wf_iff _).mpr ⟨FMap.wf_set _ _ _ h1, fun p hp => ?_⟩
    rcases FMap.mem_set _ _ _ _ hp with rfl | hp
    · assumption
    · exact h2 p hp

theorem Store.read_write_same (m : Store) (a v : Nat) : (m.write a v).read a = v := by
  unfold Store.write Store.read
  split
  · simp [FMap.getD, FMap.get_del_same, *]
  · simp [FMap.getD, FMap.get_set_same]

theorem Store.read_write_other (m : Store) (a c v : Nat) (hc : c ≠ a) : (m.write a v).read c = m.read c := by
  unfold Store.write Store.read
  split
  · simp [FMap.getD, FMap.get_del_other _ _ _ hc]
  · simp [FMap.getD, FMap.get_set_other _ _ _ _ hc]

end Sys2Proof.Machine
end

