-- ==== Sys2Proof/Laws/State.lean ====
section
/-! SUPPORT. Laws of the state: what each named update leaves of each field. -/

namespace Sys2Proof.Machine

/-! ### A core -/

@[simp] theorem State.setCore_pcc (s : State) (k : Nat) (c : Core) : (s.setCore k c).pcc = s.pcc := rfl
@[simp] theorem State.setCore_cur (s : State) (k : Nat) (c : Core) : (s.setCore k c).cur = s.cur := rfl
@[simp] theorem State.setCore_mem (s : State) (k : Nat) (c : Core) : (s.setCore k c).mem = s.mem := rfl
@[simp] theorem State.setCore_poison (s : State) (k : Nat) (c : Core) : (s.setCore k c).poison = s.poison := rfl
@[simp] theorem State.setCore_control (s : State) (k : Nat) (c : Core) : (s.setCore k c).control = s.control := rfl
@[simp] theorem State.setCore_ctxs (s : State) (k : Nat) (c : Core) : (s.setCore k c).ctxs = s.ctxs := rfl
@[simp] theorem State.setCore_dies (s : State) (k : Nat) (c : Core) : (s.setCore k c).dies = s.dies := rfl
@[simp] theorem State.setCore_fabric (s : State) (k : Nat) (c : Core) : (s.setCore k c).fabric = s.fabric := rfl
@[simp] theorem State.setCore_net (s : State) (k : Nat) (c : Core) : (s.setCore k c).net = s.net := rfl
@[simp] theorem State.setCore_hub (s : State) (k : Nat) (c : Core) : (s.setCore k c).hub = s.hub := rfl
@[simp] theorem State.setCore_objects (s : State) (k : Nat) (c : Core) : (s.setCore k c).objects = s.objects := rfl
@[simp] theorem State.setCore_moult (s : State) (k : Nat) (c : Core) : (s.setCore k c).moult = s.moult := rfl
@[simp] theorem State.setCore_host (s : State) (k : Nat) (c : Core) : (s.setCore k c).host = s.host := rfl
@[simp] theorem State.setCore_pfc (s : State) (k : Nat) (c : Core) : (s.setCore k c).pfc = s.pfc := rfl
@[simp] theorem State.setCore_qwin (s : State) (k : Nat) (c : Core) : (s.setCore k c).qwin = s.qwin := rfl
@[simp] theorem State.setCore_accs (s : State) (k : Nat) (c : Core) : (s.setCore k c).accs = s.accs := rfl
@[simp] theorem State.setCore_walks (s : State) (k : Nat) (c : Core) : (s.setCore k c).walks = s.walks := rfl
@[simp] theorem State.setCore_flights (s : State) (k : Nat) (c : Core) : (s.setCore k c).flights = s.flights := rfl
@[simp] theorem State.setCore_pushes (s : State) (k : Nat) (c : Core) : (s.setCore k c).pushes = s.pushes := rfl
@[simp] theorem State.setCore_starts (s : State) (k : Nat) (c : Core) : (s.setCore k c).starts = s.starts := rfl
@[simp] theorem State.setCore_shoots (s : State) (k : Nat) (c : Core) : (s.setCore k c).shoots = s.shoots := rfl
@[simp] theorem State.setCore_remote (s : State) (k : Nat) (c : Core) : (s.setCore k c).remote = s.remote := rfl
@[simp] theorem State.setCore_nextId (s : State) (k : Nat) (c : Core) : (s.setCore k c).nextId = s.nextId := rfl
@[simp] theorem State.setCore_agenda (s : State) (k : Nat) (c : Core) : (s.setCore k c).agenda = s.agenda := rfl
@[simp] theorem State.setCore_inputs (s : State) (k : Nat) (c : Core) : (s.setCore k c).inputs = s.inputs := rfl
@[simp] theorem State.setCore_strikes (s : State) (k : Nat) (c : Core) : (s.setCore k c).strikes = s.strikes := rfl
@[simp] theorem State.setCore_faults (s : State) (k : Nat) (c : Core) : (s.setCore k c).faults = s.faults := rfl
@[simp] theorem State.setCore_lostDir (s : State) (k : Nat) (c : Core) : (s.setCore k c).lostDir = s.lostDir := rfl
@[simp] theorem State.setCore_todo (s : State) (k : Nat) (c : Core) : (s.setCore k c).todo = s.todo := rfl
@[simp] theorem State.setCore_outputs (s : State) (k : Nat) (c : Core) : (s.setCore k c).outputs = s.outputs := rfl
@[simp] theorem State.setCore_free (s : State) (k : Nat) (c : Core) : (s.setCore k c).free = s.free := rfl

/-! ### A core changed -/

@[simp] theorem State.modCore_pcc (s : State) (k : Nat) (f : Core → Core) : (s.modCore k f).pcc = s.pcc := rfl
@[simp] theorem State.modCore_cur (s : State) (k : Nat) (f : Core → Core) : (s.modCore k f).cur = s.cur := rfl
@[simp] theorem State.modCore_mem (s : State) (k : Nat) (f : Core → Core) : (s.modCore k f).mem = s.mem := rfl
@[simp] theorem State.modCore_poison (s : State) (k : Nat) (f : Core → Core) : (s.modCore k f).poison = s.poison := rfl
@[simp] theorem State.modCore_control (s : State) (k : Nat) (f : Core → Core) : (s.modCore k f).control = s.control := rfl
@[simp] theorem State.modCore_ctxs (s : State) (k : Nat) (f : Core → Core) : (s.modCore k f).ctxs = s.ctxs := rfl
@[simp] theorem State.modCore_dies (s : State) (k : Nat) (f : Core → Core) : (s.modCore k f).dies = s.dies := rfl
@[simp] theorem State.modCore_fabric (s : State) (k : Nat) (f : Core → Core) : (s.modCore k f).fabric = s.fabric := rfl
@[simp] theorem State.modCore_net (s : State) (k : Nat) (f : Core → Core) : (s.modCore k f).net = s.net := rfl
@[simp] theorem State.modCore_hub (s : State) (k : Nat) (f : Core → Core) : (s.modCore k f).hub = s.hub := rfl
@[simp] theorem State.modCore_objects (s : State) (k : Nat) (f : Core → Core) : (s.modCore k f).objects = s.objects := rfl
@[simp] theorem State.modCore_moult (s : State) (k : Nat) (f : Core → Core) : (s.modCore k f).moult = s.moult := rfl
@[simp] theorem State.modCore_host (s : State) (k : Nat) (f : Core → Core) : (s.modCore k f).host = s.host := rfl
@[simp] theorem State.modCore_pfc (s : State) (k : Nat) (f : Core → Core) : (s.modCore k f).pfc = s.pfc := rfl
@[simp] theorem State.modCore_qwin (s : State) (k : Nat) (f : Core → Core) : (s.modCore k f).qwin = s.qwin := rfl
@[simp] theorem State.modCore_accs (s : State) (k : Nat) (f : Core → Core) : (s.modCore k f).accs = s.accs := rfl
@[simp] theorem State.modCore_walks (s : State) (k : Nat) (f : Core → Core) : (s.modCore k f).walks = s.walks := rfl
@[simp] theorem State.modCore_flights (s : State) (k : Nat) (f : Core → Core) : (s.modCore k f).flights = s.flights := rfl
@[simp] theorem State.modCore_pushes (s : State) (k : Nat) (f : Core → Core) : (s.modCore k f).pushes = s.pushes := rfl
@[simp] theorem State.modCore_starts (s : State) (k : Nat) (f : Core → Core) : (s.modCore k f).starts = s.starts := rfl
@[simp] theorem State.modCore_shoots (s : State) (k : Nat) (f : Core → Core) : (s.modCore k f).shoots = s.shoots := rfl
@[simp] theorem State.modCore_remote (s : State) (k : Nat) (f : Core → Core) : (s.modCore k f).remote = s.remote := rfl
@[simp] theorem State.modCore_nextId (s : State) (k : Nat) (f : Core → Core) : (s.modCore k f).nextId = s.nextId := rfl
@[simp] theorem State.modCore_agenda (s : State) (k : Nat) (f : Core → Core) : (s.modCore k f).agenda = s.agenda := rfl
@[simp] theorem State.modCore_inputs (s : State) (k : Nat) (f : Core → Core) : (s.modCore k f).inputs = s.inputs := rfl
@[simp] theorem State.modCore_strikes (s : State) (k : Nat) (f : Core → Core) : (s.modCore k f).strikes = s.strikes := rfl
@[simp] theorem State.modCore_faults (s : State) (k : Nat) (f : Core → Core) : (s.modCore k f).faults = s.faults := rfl
@[simp] theorem State.modCore_lostDir (s : State) (k : Nat) (f : Core → Core) : (s.modCore k f).lostDir = s.lostDir := rfl
@[simp] theorem State.modCore_todo (s : State) (k : Nat) (f : Core → Core) : (s.modCore k f).todo = s.todo := rfl
@[simp] theorem State.modCore_outputs (s : State) (k : Nat) (f : Core → Core) : (s.modCore k f).outputs = s.outputs := rfl
@[simp] theorem State.modCore_free (s : State) (k : Nat) (f : Core → Core) : (s.modCore k f).free = s.free := rfl

/-! ### The core of the step -/

@[simp] theorem State.modHere_pcc (s : State) (f : Core → Core) : (s.modHere f).pcc = s.pcc := rfl
@[simp] theorem State.modHere_cur (s : State) (f : Core → Core) : (s.modHere f).cur = s.cur := rfl
@[simp] theorem State.modHere_mem (s : State) (f : Core → Core) : (s.modHere f).mem = s.mem := rfl
@[simp] theorem State.modHere_poison (s : State) (f : Core → Core) : (s.modHere f).poison = s.poison := rfl
@[simp] theorem State.modHere_control (s : State) (f : Core → Core) : (s.modHere f).control = s.control := rfl
@[simp] theorem State.modHere_ctxs (s : State) (f : Core → Core) : (s.modHere f).ctxs = s.ctxs := rfl
@[simp] theorem State.modHere_dies (s : State) (f : Core → Core) : (s.modHere f).dies = s.dies := rfl
@[simp] theorem State.modHere_fabric (s : State) (f : Core → Core) : (s.modHere f).fabric = s.fabric := rfl
@[simp] theorem State.modHere_net (s : State) (f : Core → Core) : (s.modHere f).net = s.net := rfl
@[simp] theorem State.modHere_hub (s : State) (f : Core → Core) : (s.modHere f).hub = s.hub := rfl
@[simp] theorem State.modHere_objects (s : State) (f : Core → Core) : (s.modHere f).objects = s.objects := rfl
@[simp] theorem State.modHere_moult (s : State) (f : Core → Core) : (s.modHere f).moult = s.moult := rfl
@[simp] theorem State.modHere_host (s : State) (f : Core → Core) : (s.modHere f).host = s.host := rfl
@[simp] theorem State.modHere_pfc (s : State) (f : Core → Core) : (s.modHere f).pfc = s.pfc := rfl
@[simp] theorem State.modHere_qwin (s : State) (f : Core → Core) : (s.modHere f).qwin = s.qwin := rfl
@[simp] theorem State.modHere_accs (s : State) (f : Core → Core) : (s.modHere f).accs = s.accs := rfl
@[simp] theorem State.modHere_walks (s : State) (f : Core → Core) : (s.modHere f).walks = s.walks := rfl
@[simp] theorem State.modHere_flights (s : State) (f : Core → Core) : (s.modHere f).flights = s.flights := rfl
@[simp] theorem State.modHere_pushes (s : State) (f : Core → Core) : (s.modHere f).pushes = s.pushes := rfl
@[simp] theorem State.modHere_starts (s : State) (f : Core → Core) : (s.modHere f).starts = s.starts := rfl
@[simp] theorem State.modHere_shoots (s : State) (f : Core → Core) : (s.modHere f).shoots = s.shoots := rfl
@[simp] theorem State.modHere_remote (s : State) (f : Core → Core) : (s.modHere f).remote = s.remote := rfl
@[simp] theorem State.modHere_nextId (s : State) (f : Core → Core) : (s.modHere f).nextId = s.nextId := rfl
@[simp] theorem State.modHere_agenda (s : State) (f : Core → Core) : (s.modHere f).agenda = s.agenda := rfl
@[simp] theorem State.modHere_inputs (s : State) (f : Core → Core) : (s.modHere f).inputs = s.inputs := rfl
@[simp] theorem State.modHere_strikes (s : State) (f : Core → Core) : (s.modHere f).strikes = s.strikes := rfl
@[simp] theorem State.modHere_faults (s : State) (f : Core → Core) : (s.modHere f).faults = s.faults := rfl
@[simp] theorem State.modHere_lostDir (s : State) (f : Core → Core) : (s.modHere f).lostDir = s.lostDir := rfl
@[simp] theorem State.modHere_todo (s : State) (f : Core → Core) : (s.modHere f).todo = s.todo := rfl
@[simp] theorem State.modHere_outputs (s : State) (f : Core → Core) : (s.modHere f).outputs = s.outputs := rfl
@[simp] theorem State.modHere_free (s : State) (f : Core → Core) : (s.modHere f).free = s.free := rfl

/-! ### The group of the step -/

@[simp] theorem State.modGrp_pcc (s : State) (f : Group → Group) : (s.modGrp f).pcc = s.pcc := rfl
@[simp] theorem State.modGrp_cur (s : State) (f : Group → Group) : (s.modGrp f).cur = s.cur := rfl
@[simp] theorem State.modGrp_mem (s : State) (f : Group → Group) : (s.modGrp f).mem = s.mem := rfl
@[simp] theorem State.modGrp_poison (s : State) (f : Group → Group) : (s.modGrp f).poison = s.poison := rfl
@[simp] theorem State.modGrp_control (s : State) (f : Group → Group) : (s.modGrp f).control = s.control := rfl
@[simp] theorem State.modGrp_ctxs (s : State) (f : Group → Group) : (s.modGrp f).ctxs = s.ctxs := rfl
@[simp] theorem State.modGrp_dies (s : State) (f : Group → Group) : (s.modGrp f).dies = s.dies := rfl
@[simp] theorem State.modGrp_fabric (s : State) (f : Group → Group) : (s.modGrp f).fabric = s.fabric := rfl
@[simp] theorem State.modGrp_net (s : State) (f : Group → Group) : (s.modGrp f).net = s.net := rfl
@[simp] theorem State.modGrp_hub (s : State) (f : Group → Group) : (s.modGrp f).hub = s.hub := rfl
@[simp] theorem State.modGrp_objects (s : State) (f : Group → Group) : (s.modGrp f).objects = s.objects := rfl
@[simp] theorem State.modGrp_moult (s : State) (f : Group → Group) : (s.modGrp f).moult = s.moult := rfl
@[simp] theorem State.modGrp_host (s : State) (f : Group → Group) : (s.modGrp f).host = s.host := rfl
@[simp] theorem State.modGrp_pfc (s : State) (f : Group → Group) : (s.modGrp f).pfc = s.pfc := rfl
@[simp] theorem State.modGrp_qwin (s : State) (f : Group → Group) : (s.modGrp f).qwin = s.qwin := rfl
@[simp] theorem State.modGrp_accs (s : State) (f : Group → Group) : (s.modGrp f).accs = s.accs := rfl
@[simp] theorem State.modGrp_walks (s : State) (f : Group → Group) : (s.modGrp f).walks = s.walks := rfl
@[simp] theorem State.modGrp_flights (s : State) (f : Group → Group) : (s.modGrp f).flights = s.flights := rfl
@[simp] theorem State.modGrp_pushes (s : State) (f : Group → Group) : (s.modGrp f).pushes = s.pushes := rfl
@[simp] theorem State.modGrp_starts (s : State) (f : Group → Group) : (s.modGrp f).starts = s.starts := rfl
@[simp] theorem State.modGrp_shoots (s : State) (f : Group → Group) : (s.modGrp f).shoots = s.shoots := rfl
@[simp] theorem State.modGrp_remote (s : State) (f : Group → Group) : (s.modGrp f).remote = s.remote := rfl
@[simp] theorem State.modGrp_nextId (s : State) (f : Group → Group) : (s.modGrp f).nextId = s.nextId := rfl
@[simp] theorem State.modGrp_agenda (s : State) (f : Group → Group) : (s.modGrp f).agenda = s.agenda := rfl
@[simp] theorem State.modGrp_inputs (s : State) (f : Group → Group) : (s.modGrp f).inputs = s.inputs := rfl
@[simp] theorem State.modGrp_strikes (s : State) (f : Group → Group) : (s.modGrp f).strikes = s.strikes := rfl
@[simp] theorem State.modGrp_faults (s : State) (f : Group → Group) : (s.modGrp f).faults = s.faults := rfl
@[simp] theorem State.modGrp_lostDir (s : State) (f : Group → Group) : (s.modGrp f).lostDir = s.lostDir := rfl
@[simp] theorem State.modGrp_todo (s : State) (f : Group → Group) : (s.modGrp f).todo = s.todo := rfl
@[simp] theorem State.modGrp_outputs (s : State) (f : Group → Group) : (s.modGrp f).outputs = s.outputs := rfl
@[simp] theorem State.modGrp_free (s : State) (f : Group → Group) : (s.modGrp f).free = s.free := rfl

/-! ### A control-die core -/

@[simp] theorem State.modCtl_pcc (s : State) (n : Nat) (f : Control → Control) : (s.modCtl n f).pcc = s.pcc := rfl
@[simp] theorem State.modCtl_cur (s : State) (n : Nat) (f : Control → Control) : (s.modCtl n f).cur = s.cur := rfl
@[simp] theorem State.modCtl_mem (s : State) (n : Nat) (f : Control → Control) : (s.modCtl n f).mem = s.mem := rfl
@[simp] theorem State.modCtl_poison (s : State) (n : Nat) (f : Control → Control) : (s.modCtl n f).poison = s.poison := rfl
@[simp] theorem State.modCtl_cores (s : State) (n : Nat) (f : Control → Control) : (s.modCtl n f).cores = s.cores := rfl
@[simp] theorem State.modCtl_ctxs (s : State) (n : Nat) (f : Control → Control) : (s.modCtl n f).ctxs = s.ctxs := rfl
@[simp] theorem State.modCtl_dies (s : State) (n : Nat) (f : Control → Control) : (s.modCtl n f).dies = s.dies := rfl
@[simp] theorem State.modCtl_fabric (s : State) (n : Nat) (f : Control → Control) : (s.modCtl n f).fabric = s.fabric := rfl
@[simp] theorem State.modCtl_net (s : State) (n : Nat) (f : Control → Control) : (s.modCtl n f).net = s.net := rfl
@[simp] theorem State.modCtl_hub (s : State) (n : Nat) (f : Control → Control) : (s.modCtl n f).hub = s.hub := rfl
@[simp] theorem State.modCtl_objects (s : State) (n : Nat) (f : Control → Control) : (s.modCtl n f).objects = s.objects := rfl
@[simp] theorem State.modCtl_moult (s : State) (n : Nat) (f : Control → Control) : (s.modCtl n f).moult = s.moult := rfl
@[simp] theorem State.modCtl_host (s : State) (n : Nat) (f : Control → Control) : (s.modCtl n f).host = s.host := rfl
@[simp] theorem State.modCtl_pfc (s : State) (n : Nat) (f : Control → Control) : (s.modCtl n f).pfc = s.pfc := rfl
@[simp] theorem State.modCtl_qwin (s : State) (n : Nat) (f : Control → Control) : (s.modCtl n f).qwin = s.qwin := rfl
@[simp] theorem State.modCtl_accs (s : State) (n : Nat) (f : Control → Control) : (s.modCtl n f).accs = s.accs := rfl
@[simp] theorem State.modCtl_walks (s : State) (n : Nat) (f : Control → Control) : (s.modCtl n f).walks = s.walks := rfl
@[simp] theorem State.modCtl_flights (s : State) (n : Nat) (f : Control → Control) : (s.modCtl n f).flights = s.flights := rfl
@[simp] theorem State.modCtl_pushes (s : State) (n : Nat) (f : Control → Control) : (s.modCtl n f).pushes = s.pushes := rfl
@[simp] theorem State.modCtl_starts (s : State) (n : Nat) (f : Control → Control) : (s.modCtl n f).starts = s.starts := rfl
@[simp] theorem State.modCtl_shoots (s : State) (n : Nat) (f : Control → Control) : (s.modCtl n f).shoots = s.shoots := rfl
@[simp] theorem State.modCtl_remote (s : State) (n : Nat) (f : Control → Control) : (s.modCtl n f).remote = s.remote := rfl
@[simp] theorem State.modCtl_nextId (s : State) (n : Nat) (f : Control → Control) : (s.modCtl n f).nextId = s.nextId := rfl
@[simp] theorem State.modCtl_agenda (s : State) (n : Nat) (f : Control → Control) : (s.modCtl n f).agenda = s.agenda := rfl
@[simp] theorem State.modCtl_inputs (s : State) (n : Nat) (f : Control → Control) : (s.modCtl n f).inputs = s.inputs := rfl
@[simp] theorem State.modCtl_strikes (s : State) (n : Nat) (f : Control → Control) : (s.modCtl n f).strikes = s.strikes := rfl
@[simp] theorem State.modCtl_faults (s : State) (n : Nat) (f : Control → Control) : (s.modCtl n f).faults = s.faults := rfl
@[simp] theorem State.modCtl_lostDir (s : State) (n : Nat) (f : Control → Control) : (s.modCtl n f).lostDir = s.lostDir := rfl
@[simp] theorem State.modCtl_todo (s : State) (n : Nat) (f : Control → Control) : (s.modCtl n f).todo = s.todo := rfl
@[simp] theorem State.modCtl_outputs (s : State) (n : Nat) (f : Control → Control) : (s.modCtl n f).outputs = s.outputs := rfl
@[simp] theorem State.modCtl_free (s : State) (n : Nat) (f : Control → Control) : (s.modCtl n f).free = s.free := rfl

/-! ### A context -/

@[simp] theorem State.modCtx_pcc (s : State) (n : Nat) (f : Ctx → Ctx) : (s.modCtx n f).pcc = s.pcc := rfl
@[simp] theorem State.modCtx_cur (s : State) (n : Nat) (f : Ctx → Ctx) : (s.modCtx n f).cur = s.cur := rfl
@[simp] theorem State.modCtx_mem (s : State) (n : Nat) (f : Ctx → Ctx) : (s.modCtx n f).mem = s.mem := rfl
@[simp] theorem State.modCtx_poison (s : State) (n : Nat) (f : Ctx → Ctx) : (s.modCtx n f).poison = s.poison := rfl
@[simp] theorem State.modCtx_cores (s : State) (n : Nat) (f : Ctx → Ctx) : (s.modCtx n f).cores = s.cores := rfl
@[simp] theorem State.modCtx_control (s : State) (n : Nat) (f : Ctx → Ctx) : (s.modCtx n f).control = s.control := rfl
@[simp] theorem State.modCtx_dies (s : State) (n : Nat) (f : Ctx → Ctx) : (s.modCtx n f).dies = s.dies := rfl
@[simp] theorem State.modCtx_fabric (s : State) (n : Nat) (f : Ctx → Ctx) : (s.modCtx n f).fabric = s.fabric := rfl
@[simp] theorem State.modCtx_net (s : State) (n : Nat) (f : Ctx → Ctx) : (s.modCtx n f).net = s.net := rfl
@[simp] theorem State.modCtx_hub (s : State) (n : Nat) (f : Ctx → Ctx) : (s.modCtx n f).hub = s.hub := rfl
@[simp] theorem State.modCtx_objects (s : State) (n : Nat) (f : Ctx → Ctx) : (s.modCtx n f).objects = s.objects := rfl
@[simp] theorem State.modCtx_moult (s : State) (n : Nat) (f : Ctx → Ctx) : (s.modCtx n f).moult = s.moult := rfl
@[simp] theorem State.modCtx_host (s : State) (n : Nat) (f : Ctx → Ctx) : (s.modCtx n f).host = s.host := rfl
@[simp] theorem State.modCtx_pfc (s : State) (n : Nat) (f : Ctx → Ctx) : (s.modCtx n f).pfc = s.pfc := rfl
@[simp] theorem State.modCtx_qwin (s : State) (n : Nat) (f : Ctx → Ctx) : (s.modCtx n f).qwin = s.qwin := rfl
@[simp] theorem State.modCtx_accs (s : State) (n : Nat) (f : Ctx → Ctx) : (s.modCtx n f).accs = s.accs := rfl
@[simp] theorem State.modCtx_walks (s : State) (n : Nat) (f : Ctx → Ctx) : (s.modCtx n f).walks = s.walks := rfl
@[simp] theorem State.modCtx_flights (s : State) (n : Nat) (f : Ctx → Ctx) : (s.modCtx n f).flights = s.flights := rfl
@[simp] theorem State.modCtx_pushes (s : State) (n : Nat) (f : Ctx → Ctx) : (s.modCtx n f).pushes = s.pushes := rfl
@[simp] theorem State.modCtx_starts (s : State) (n : Nat) (f : Ctx → Ctx) : (s.modCtx n f).starts = s.starts := rfl
@[simp] theorem State.modCtx_shoots (s : State) (n : Nat) (f : Ctx → Ctx) : (s.modCtx n f).shoots = s.shoots := rfl
@[simp] theorem State.modCtx_remote (s : State) (n : Nat) (f : Ctx → Ctx) : (s.modCtx n f).remote = s.remote := rfl
@[simp] theorem State.modCtx_nextId (s : State) (n : Nat) (f : Ctx → Ctx) : (s.modCtx n f).nextId = s.nextId := rfl
@[simp] theorem State.modCtx_agenda (s : State) (n : Nat) (f : Ctx → Ctx) : (s.modCtx n f).agenda = s.agenda := rfl
@[simp] theorem State.modCtx_inputs (s : State) (n : Nat) (f : Ctx → Ctx) : (s.modCtx n f).inputs = s.inputs := rfl
@[simp] theorem State.modCtx_strikes (s : State) (n : Nat) (f : Ctx → Ctx) : (s.modCtx n f).strikes = s.strikes := rfl
@[simp] theorem State.modCtx_faults (s : State) (n : Nat) (f : Ctx → Ctx) : (s.modCtx n f).faults = s.faults := rfl
@[simp] theorem State.modCtx_lostDir (s : State) (n : Nat) (f : Ctx → Ctx) : (s.modCtx n f).lostDir = s.lostDir := rfl
@[simp] theorem State.modCtx_todo (s : State) (n : Nat) (f : Ctx → Ctx) : (s.modCtx n f).todo = s.todo := rfl
@[simp] theorem State.modCtx_outputs (s : State) (n : Nat) (f : Ctx → Ctx) : (s.modCtx n f).outputs = s.outputs := rfl
@[simp] theorem State.modCtx_free (s : State) (n : Nat) (f : Ctx → Ctx) : (s.modCtx n f).free = s.free := rfl

/-! ### The schedule of events -/

@[simp] theorem State.schedule_pcc (s : State) (t : Nat) (e : Event) : (s.schedule t e).pcc = s.pcc := rfl
@[simp] theorem State.schedule_cur (s : State) (t : Nat) (e : Event) : (s.schedule t e).cur = s.cur := rfl
@[simp] theorem State.schedule_mem (s : State) (t : Nat) (e : Event) : (s.schedule t e).mem = s.mem := rfl
@[simp] theorem State.schedule_poison (s : State) (t : Nat) (e : Event) : (s.schedule t e).poison = s.poison := rfl
@[simp] theorem State.schedule_cores (s : State) (t : Nat) (e : Event) : (s.schedule t e).cores = s.cores := rfl
@[simp] theorem State.schedule_control (s : State) (t : Nat) (e : Event) : (s.schedule t e).control = s.control := rfl
@[simp] theorem State.schedule_ctxs (s : State) (t : Nat) (e : Event) : (s.schedule t e).ctxs = s.ctxs := rfl
@[simp] theorem State.schedule_dies (s : State) (t : Nat) (e : Event) : (s.schedule t e).dies = s.dies := rfl
@[simp] theorem State.schedule_fabric (s : State) (t : Nat) (e : Event) : (s.schedule t e).fabric = s.fabric := rfl
@[simp] theorem State.schedule_net (s : State) (t : Nat) (e : Event) : (s.schedule t e).net = s.net := rfl
@[simp] theorem State.schedule_hub (s : State) (t : Nat) (e : Event) : (s.schedule t e).hub = s.hub := rfl
@[simp] theorem State.schedule_objects (s : State) (t : Nat) (e : Event) : (s.schedule t e).objects = s.objects := rfl
@[simp] theorem State.schedule_moult (s : State) (t : Nat) (e : Event) : (s.schedule t e).moult = s.moult := rfl
@[simp] theorem State.schedule_host (s : State) (t : Nat) (e : Event) : (s.schedule t e).host = s.host := rfl
@[simp] theorem State.schedule_pfc (s : State) (t : Nat) (e : Event) : (s.schedule t e).pfc = s.pfc := rfl
@[simp] theorem State.schedule_qwin (s : State) (t : Nat) (e : Event) : (s.schedule t e).qwin = s.qwin := rfl
@[simp] theorem State.schedule_accs (s : State) (t : Nat) (e : Event) : (s.schedule t e).accs = s.accs := rfl
@[simp] theorem State.schedule_walks (s : State) (t : Nat) (e : Event) : (s.schedule t e).walks = s.walks := rfl
@[simp] theorem State.schedule_flights (s : State) (t : Nat) (e : Event) : (s.schedule t e).flights = s.flights := rfl
@[simp] theorem State.schedule_pushes (s : State) (t : Nat) (e : Event) : (s.schedule t e).pushes = s.pushes := rfl
@[simp] theorem State.schedule_starts (s : State) (t : Nat) (e : Event) : (s.schedule t e).starts = s.starts := rfl
@[simp] theorem State.schedule_shoots (s : State) (t : Nat) (e : Event) : (s.schedule t e).shoots = s.shoots := rfl
@[simp] theorem State.schedule_remote (s : State) (t : Nat) (e : Event) : (s.schedule t e).remote = s.remote := rfl
@[simp] theorem State.schedule_nextId (s : State) (t : Nat) (e : Event) : (s.schedule t e).nextId = s.nextId := rfl
@[simp] theorem State.schedule_inputs (s : State) (t : Nat) (e : Event) : (s.schedule t e).inputs = s.inputs := rfl
@[simp] theorem State.schedule_strikes (s : State) (t : Nat) (e : Event) : (s.schedule t e).strikes = s.strikes := rfl
@[simp] theorem State.schedule_faults (s : State) (t : Nat) (e : Event) : (s.schedule t e).faults = s.faults := rfl
@[simp] theorem State.schedule_lostDir (s : State) (t : Nat) (e : Event) : (s.schedule t e).lostDir = s.lostDir := rfl
@[simp] theorem State.schedule_todo (s : State) (t : Nat) (e : Event) : (s.schedule t e).todo = s.todo := rfl
@[simp] theorem State.schedule_outputs (s : State) (t : Nat) (e : Event) : (s.schedule t e).outputs = s.outputs := rfl
@[simp] theorem State.schedule_free (s : State) (t : Nat) (e : Event) : (s.schedule t e).free = s.free := rfl

/-! ### The counter of free values -/

@[simp] theorem State.tick_pcc (s : State) : (s.tick).pcc = s.pcc := rfl
@[simp] theorem State.tick_cur (s : State) : (s.tick).cur = s.cur := rfl
@[simp] theorem State.tick_mem (s : State) : (s.tick).mem = s.mem := rfl
@[simp] theorem State.tick_poison (s : State) : (s.tick).poison = s.poison := rfl
@[simp] theorem State.tick_cores (s : State) : (s.tick).cores = s.cores := rfl
@[simp] theorem State.tick_control (s : State) : (s.tick).control = s.control := rfl
@[simp] theorem State.tick_ctxs (s : State) : (s.tick).ctxs = s.ctxs := rfl
@[simp] theorem State.tick_dies (s : State) : (s.tick).dies = s.dies := rfl
@[simp] theorem State.tick_fabric (s : State) : (s.tick).fabric = s.fabric := rfl
@[simp] theorem State.tick_net (s : State) : (s.tick).net = s.net := rfl
@[simp] theorem State.tick_hub (s : State) : (s.tick).hub = s.hub := rfl
@[simp] theorem State.tick_objects (s : State) : (s.tick).objects = s.objects := rfl
@[simp] theorem State.tick_moult (s : State) : (s.tick).moult = s.moult := rfl
@[simp] theorem State.tick_host (s : State) : (s.tick).host = s.host := rfl
@[simp] theorem State.tick_pfc (s : State) : (s.tick).pfc = s.pfc := rfl
@[simp] theorem State.tick_qwin (s : State) : (s.tick).qwin = s.qwin := rfl
@[simp] theorem State.tick_accs (s : State) : (s.tick).accs = s.accs := rfl
@[simp] theorem State.tick_walks (s : State) : (s.tick).walks = s.walks := rfl
@[simp] theorem State.tick_flights (s : State) : (s.tick).flights = s.flights := rfl
@[simp] theorem State.tick_pushes (s : State) : (s.tick).pushes = s.pushes := rfl
@[simp] theorem State.tick_starts (s : State) : (s.tick).starts = s.starts := rfl
@[simp] theorem State.tick_shoots (s : State) : (s.tick).shoots = s.shoots := rfl
@[simp] theorem State.tick_remote (s : State) : (s.tick).remote = s.remote := rfl
@[simp] theorem State.tick_nextId (s : State) : (s.tick).nextId = s.nextId := rfl
@[simp] theorem State.tick_agenda (s : State) : (s.tick).agenda = s.agenda := rfl
@[simp] theorem State.tick_inputs (s : State) : (s.tick).inputs = s.inputs := rfl
@[simp] theorem State.tick_strikes (s : State) : (s.tick).strikes = s.strikes := rfl
@[simp] theorem State.tick_faults (s : State) : (s.tick).faults = s.faults := rfl
@[simp] theorem State.tick_lostDir (s : State) : (s.tick).lostDir = s.lostDir := rfl
@[simp] theorem State.tick_todo (s : State) : (s.tick).todo = s.todo := rfl
@[simp] theorem State.tick_outputs (s : State) : (s.tick).outputs = s.outputs := rfl

/-! ### The scalar stream of the step -/

@[simp] theorem State.modScalar_pcc (s : State) (f : Scalar → Scalar) : (s.modScalar f).pcc = s.pcc := by unfold State.modScalar; split <;> rfl
@[simp] theorem State.modScalar_cur (s : State) (f : Scalar → Scalar) : (s.modScalar f).cur = s.cur := by unfold State.modScalar; split <;> rfl
@[simp] theorem State.modScalar_mem (s : State) (f : Scalar → Scalar) : (s.modScalar f).mem = s.mem := by unfold State.modScalar; split <;> rfl
@[simp] theorem State.modScalar_poison (s : State) (f : Scalar → Scalar) : (s.modScalar f).poison = s.poison := by unfold State.modScalar; split <;> rfl
@[simp] theorem State.modScalar_ctxs (s : State) (f : Scalar → Scalar) : (s.modScalar f).ctxs = s.ctxs := by unfold State.modScalar; split <;> rfl
@[simp] theorem State.modScalar_dies (s : State) (f : Scalar → Scalar) : (s.modScalar f).dies = s.dies := by unfold State.modScalar; split <;> rfl
@[simp] theorem State.modScalar_fabric (s : State) (f : Scalar → Scalar) : (s.modScalar f).fabric = s.fabric := by unfold State.modScalar; split <;> rfl
@[simp] theorem State.modScalar_net (s : State) (f : Scalar → Scalar) : (s.modScalar f).net = s.net := by unfold State.modScalar; split <;> rfl
@[simp] theorem State.modScalar_hub (s : State) (f : Scalar → Scalar) : (s.modScalar f).hub = s.hub := by unfold State.modScalar; split <;> rfl
@[simp] theorem State.modScalar_objects (s : State) (f : Scalar → Scalar) : (s.modScalar f).objects = s.objects := by unfold State.modScalar; split <;> rfl
@[simp] theorem State.modScalar_moult (s : State) (f : Scalar → Scalar) : (s.modScalar f).moult = s.moult := by unfold State.modScalar; split <;> rfl
@[simp] theorem State.modScalar_host (s : State) (f : Scalar → Scalar) : (s.modScalar f).host = s.host := by unfold State.modScalar; split <;> rfl
@[simp] theorem State.modScalar_pfc (s : State) (f : Scalar → Scalar) : (s.modScalar f).pfc = s.pfc := by unfold State.modScalar; split <;> rfl
@[simp] theorem State.modScalar_qwin (s : State) (f : Scalar → Scalar) : (s.modScalar f).qwin = s.qwin := by unfold State.modScalar; split <;> rfl
@[simp] theorem State.modScalar_accs (s : State) (f : Scalar → Scalar) : (s.modScalar f).accs = s.accs := by unfold State.modScalar; split <;> rfl
@[simp] theorem State.modScalar_walks (s : State) (f : Scalar → Scalar) : (s.modScalar f).walks = s.walks := by unfold State.modScalar; split <;> rfl
@[simp] theorem State.modScalar_flights (s : State) (f : Scalar → Scalar) : (s.modScalar f).flights = s.flights := by unfold State.modScalar; split <;> rfl
@[simp] theorem State.modScalar_pushes (s : State) (f : Scalar → Scalar) : (s.modScalar f).pushes = s.pushes := by unfold State.modScalar; split <;> rfl
@[simp] theorem State.modScalar_starts (s : State) (f : Scalar → Scalar) : (s.modScalar f).starts = s.starts := by unfold State.modScalar; split <;> rfl
@[simp] theorem State.modScalar_shoots (s : State) (f : Scalar → Scalar) : (s.modScalar f).shoots = s.shoots := by unfold State.modScalar; split <;> rfl
@[simp] theorem State.modScalar_remote (s : State) (f : Scalar → Scalar) : (s.modScalar f).remote = s.remote := by unfold State.modScalar; split <;> rfl
@[simp] theorem State.modScalar_nextId (s : State) (f : Scalar → Scalar) : (s.modScalar f).nextId = s.nextId := by unfold State.modScalar; split <;> rfl
@[simp] theorem State.modScalar_agenda (s : State) (f : Scalar → Scalar) : (s.modScalar f).agenda = s.agenda := by unfold State.modScalar; split <;> rfl
@[simp] theorem State.modScalar_inputs (s : State) (f : Scalar → Scalar) : (s.modScalar f).inputs = s.inputs := by unfold State.modScalar; split <;> rfl
@[simp] theorem State.modScalar_strikes (s : State) (f : Scalar → Scalar) : (s.modScalar f).strikes = s.strikes := by unfold State.modScalar; split <;> rfl
@[simp] theorem State.modScalar_faults (s : State) (f : Scalar → Scalar) : (s.modScalar f).faults = s.faults := by unfold State.modScalar; split <;> rfl
@[simp] theorem State.modScalar_lostDir (s : State) (f : Scalar → Scalar) : (s.modScalar f).lostDir = s.lostDir := by unfold State.modScalar; split <;> rfl
@[simp] theorem State.modScalar_todo (s : State) (f : Scalar → Scalar) : (s.modScalar f).todo = s.todo := by unfold State.modScalar; split <;> rfl
@[simp] theorem State.modScalar_outputs (s : State) (f : Scalar → Scalar) : (s.modScalar f).outputs = s.outputs := by unfold State.modScalar; split <;> rfl
@[simp] theorem State.modScalar_free (s : State) (f : Scalar → Scalar) : (s.modScalar f).free = s.free := by unfold State.modScalar; split <;> rfl

/-! ### The end of a wait -/

@[simp] theorem State.clearHold_pcc (s : State) : (s.clearHold).pcc = s.pcc := by unfold State.clearHold; split <;> rfl
@[simp] theorem State.clearHold_cur (s : State) : (s.clearHold).cur = s.cur := by unfold State.clearHold; split <;> rfl
@[simp] theorem State.clearHold_mem (s : State) : (s.clearHold).mem = s.mem := by unfold State.clearHold; split <;> rfl
@[simp] theorem State.clearHold_poison (s : State) : (s.clearHold).poison = s.poison := by unfold State.clearHold; split <;> rfl
@[simp] theorem State.clearHold_ctxs (s : State) : (s.clearHold).ctxs = s.ctxs := by unfold State.clearHold; split <;> rfl
@[simp] theorem State.clearHold_dies (s : State) : (s.clearHold).dies = s.dies := by unfold State.clearHold; split <;> rfl
@[simp] theorem State.clearHold_fabric (s : State) : (s.clearHold).fabric = s.fabric := by unfold State.clearHold; split <;> rfl
@[simp] theorem State.clearHold_net (s : State) : (s.clearHold).net = s.net := by unfold State.clearHold; split <;> rfl
@[simp] theorem State.clearHold_hub (s : State) : (s.clearHold).hub = s.hub := by unfold State.clearHold; split <;> rfl
@[simp] theorem State.clearHold_objects (s : State) : (s.clearHold).objects = s.objects := by unfold State.clearHold; split <;> rfl
@[simp] theorem State.clearHold_moult (s : State) : (s.clearHold).moult = s.moult := by unfold State.clearHold; split <;> rfl
@[simp] theorem State.clearHold_host (s : State) : (s.clearHold).host = s.host := by unfold State.clearHold; split <;> rfl
@[simp] theorem State.clearHold_pfc (s : State) : (s.clearHold).pfc = s.pfc := by unfold State.clearHold; split <;> rfl
@[simp] theorem State.clearHold_qwin (s : State) : (s.clearHold).qwin = s.qwin := by unfold State.clearHold; split <;> rfl
@[simp] theorem State.clearHold_accs (s : State) : (s.clearHold).accs = s.accs := by unfold State.clearHold; split <;> rfl
@[simp] theorem State.clearHold_walks (s : State) : (s.clearHold).walks = s.walks := by unfold State.clearHold; split <;> rfl
@[simp] theorem State.clearHold_flights (s : State) : (s.clearHold).flights = s.flights := by unfold State.clearHold; split <;> rfl
@[simp] theorem State.clearHold_pushes (s : State) : (s.clearHold).pushes = s.pushes := by unfold State.clearHold; split <;> rfl
@[simp] theorem State.clearHold_starts (s : State) : (s.clearHold).starts = s.starts := by unfold State.clearHold; split <;> rfl
@[simp] theorem State.clearHold_shoots (s : State) : (s.clearHold).shoots = s.shoots := by unfold State.clearHold; split <;> rfl
@[simp] theorem State.clearHold_remote (s : State) : (s.clearHold).remote = s.remote := by unfold State.clearHold; split <;> rfl
@[simp] theorem State.clearHold_nextId (s : State) : (s.clearHold).nextId = s.nextId := by unfold State.clearHold; split <;> rfl
@[simp] theorem State.clearHold_agenda (s : State) : (s.clearHold).agenda = s.agenda := by unfold State.clearHold; split <;> rfl
@[simp] theorem State.clearHold_inputs (s : State) : (s.clearHold).inputs = s.inputs := by unfold State.clearHold; split <;> rfl
@[simp] theorem State.clearHold_strikes (s : State) : (s.clearHold).strikes = s.strikes := by unfold State.clearHold; split <;> rfl
@[simp] theorem State.clearHold_faults (s : State) : (s.clearHold).faults = s.faults := by unfold State.clearHold; split <;> rfl
@[simp] theorem State.clearHold_lostDir (s : State) : (s.clearHold).lostDir = s.lostDir := by unfold State.clearHold; split <;> rfl
@[simp] theorem State.clearHold_todo (s : State) : (s.clearHold).todo = s.todo := by unfold State.clearHold; split <;> rfl
@[simp] theorem State.clearHold_outputs (s : State) : (s.clearHold).outputs = s.outputs := by unfold State.clearHold; split <;> rfl
@[simp] theorem State.clearHold_free (s : State) : (s.clearHold).free = s.free := by unfold State.clearHold; split <;> rfl

/-! ### The start of a wait -/

@[simp] theorem State.holdFor_pcc (s : State) (w : Wait) : (s.holdFor w).pcc = s.pcc := by unfold State.holdFor; dsimp only; split <;> split <;> rfl
@[simp] theorem State.holdFor_cur (s : State) (w : Wait) : (s.holdFor w).cur = s.cur := by unfold State.holdFor; dsimp only; split <;> split <;> rfl
@[simp] theorem State.holdFor_mem (s : State) (w : Wait) : (s.holdFor w).mem = s.mem := by unfold State.holdFor; dsimp only; split <;> split <;> rfl
@[simp] theorem State.holdFor_poison (s : State) (w : Wait) : (s.holdFor w).poison = s.poison := by unfold State.holdFor; dsimp only; split <;> split <;> rfl
@[simp] theorem State.holdFor_ctxs (s : State) (w : Wait) : (s.holdFor w).ctxs = s.ctxs := by unfold State.holdFor; dsimp only; split <;> split <;> rfl
@[simp] theorem State.holdFor_dies (s : State) (w : Wait) : (s.holdFor w).dies = s.dies := by unfold State.holdFor; dsimp only; split <;> split <;> rfl
@[simp] theorem State.holdFor_fabric (s : State) (w : Wait) : (s.holdFor w).fabric = s.fabric := by unfold State.holdFor; dsimp only; split <;> split <;> rfl
@[simp] theorem State.holdFor_net (s : State) (w : Wait) : (s.holdFor w).net = s.net := by unfold State.holdFor; dsimp only; split <;> split <;> rfl
@[simp] theorem State.holdFor_hub (s : State) (w : Wait) : (s.holdFor w).hub = s.hub := by unfold State.holdFor; dsimp only; split <;> split <;> rfl
@[simp] theorem State.holdFor_objects (s : State) (w : Wait) : (s.holdFor w).objects = s.objects := by unfold State.holdFor; dsimp only; split <;> split <;> rfl
@[simp] theorem State.holdFor_moult (s : State) (w : Wait) : (s.holdFor w).moult = s.moult := by unfold State.holdFor; dsimp only; split <;> split <;> rfl
@[simp] theorem State.holdFor_host (s : State) (w : Wait) : (s.holdFor w).host = s.host := by unfold State.holdFor; dsimp only; split <;> split <;> rfl
@[simp] theorem State.holdFor_pfc (s : State) (w : Wait) : (s.holdFor w).pfc = s.pfc := by unfold State.holdFor; dsimp only; split <;> split <;> rfl
@[simp] theorem State.holdFor_qwin (s : State) (w : Wait) : (s.holdFor w).qwin = s.qwin := by unfold State.holdFor; dsimp only; split <;> split <;> rfl
@[simp] theorem State.holdFor_accs (s : State) (w : Wait) : (s.holdFor w).accs = s.accs := by unfold State.holdFor; dsimp only; split <;> split <;> rfl
@[simp] theorem State.holdFor_walks (s : State) (w : Wait) : (s.holdFor w).walks = s.walks := by unfold State.holdFor; dsimp only; split <;> split <;> rfl
@[simp] theorem State.holdFor_flights (s : State) (w : Wait) : (s.holdFor w).flights = s.flights := by unfold State.holdFor; dsimp only; split <;> split <;> rfl
@[simp] theorem State.holdFor_pushes (s : State) (w : Wait) : (s.holdFor w).pushes = s.pushes := by unfold State.holdFor; dsimp only; split <;> split <;> rfl
@[simp] theorem State.holdFor_starts (s : State) (w : Wait) : (s.holdFor w).starts = s.starts := by unfold State.holdFor; dsimp only; split <;> split <;> rfl
@[simp] theorem State.holdFor_shoots (s : State) (w : Wait) : (s.holdFor w).shoots = s.shoots := by unfold State.holdFor; dsimp only; split <;> split <;> rfl
@[simp] theorem State.holdFor_remote (s : State) (w : Wait) : (s.holdFor w).remote = s.remote := by unfold State.holdFor; dsimp only; split <;> split <;> rfl
@[simp] theorem State.holdFor_nextId (s : State) (w : Wait) : (s.holdFor w).nextId = s.nextId := by unfold State.holdFor; dsimp only; split <;> split <;> rfl
@[simp] theorem State.holdFor_agenda (s : State) (w : Wait) : (s.holdFor w).agenda = s.agenda := by unfold State.holdFor; dsimp only; split <;> split <;> rfl
@[simp] theorem State.holdFor_inputs (s : State) (w : Wait) : (s.holdFor w).inputs = s.inputs := by unfold State.holdFor; dsimp only; split <;> split <;> rfl
@[simp] theorem State.holdFor_strikes (s : State) (w : Wait) : (s.holdFor w).strikes = s.strikes := by unfold State.holdFor; dsimp only; split <;> split <;> rfl
@[simp] theorem State.holdFor_faults (s : State) (w : Wait) : (s.holdFor w).faults = s.faults := by unfold State.holdFor; dsimp only; split <;> split <;> rfl
@[simp] theorem State.holdFor_lostDir (s : State) (w : Wait) : (s.holdFor w).lostDir = s.lostDir := by unfold State.holdFor; dsimp only; split <;> split <;> rfl
@[simp] theorem State.holdFor_todo (s : State) (w : Wait) : (s.holdFor w).todo = s.todo := by unfold State.holdFor; dsimp only; split <;> split <;> rfl
@[simp] theorem State.holdFor_outputs (s : State) (w : Wait) : (s.holdFor w).outputs = s.outputs := by unfold State.holdFor; dsimp only; split <;> split <;> rfl
@[simp] theorem State.holdFor_free (s : State) (w : Wait) : (s.holdFor w).free = s.free := by unfold State.holdFor; dsimp only; split <;> split <;> rfl

/-! ### A finished instruction -/

@[simp] theorem State.finish_pcc (s : State) (f : Scalar → Scalar) : (s.finish f).pcc = s.pcc := by simp [State.finish]
@[simp] theorem State.finish_cur (s : State) (f : Scalar → Scalar) : (s.finish f).cur = s.cur := by simp [State.finish]
@[simp] theorem State.finish_mem (s : State) (f : Scalar → Scalar) : (s.finish f).mem = s.mem := by simp [State.finish]
@[simp] theorem State.finish_poison (s : State) (f : Scalar → Scalar) : (s.finish f).poison = s.poison := by simp [State.finish]
@[simp] theorem State.finish_ctxs (s : State) (f : Scalar → Scalar) : (s.finish f).ctxs = s.ctxs := by simp [State.finish]
@[simp] theorem State.finish_dies (s : State) (f : Scalar → Scalar) : (s.finish f).dies = s.dies := by simp [State.finish]
@[simp] theorem State.finish_fabric (s : State) (f : Scalar → Scalar) : (s.finish f).fabric = s.fabric := by simp [State.finish]
@[simp] theorem State.finish_net (s : State) (f : Scalar → Scalar) : (s.finish f).net = s.net := by simp [State.finish]
@[simp] theorem State.finish_hub (s : State) (f : Scalar → Scalar) : (s.finish f).hub = s.hub := by simp [State.finish]
@[simp] theorem State.finish_objects (s : State) (f : Scalar → Scalar) : (s.finish f).objects = s.objects := by simp [State.finish]
@[simp] theorem State.finish_moult (s : State) (f : Scalar → Scalar) : (s.finish f).moult = s.moult := by simp [State.finish]
@[simp] theorem State.finish_host (s : State) (f : Scalar → Scalar) : (s.finish f).host = s.host := by simp [State.finish]
@[simp] theorem State.finish_pfc (s : State) (f : Scalar → Scalar) : (s.finish f).pfc = s.pfc := by simp [State.finish]
@[simp] theorem State.finish_qwin (s : State) (f : Scalar → Scalar) : (s.finish f).qwin = s.qwin := by simp [State.finish]
@[simp] theorem State.finish_accs (s : State) (f : Scalar → Scalar) : (s.finish f).accs = s.accs := by simp [State.finish]
@[simp] theorem State.finish_walks (s : State) (f : Scalar → Scalar) : (s.finish f).walks = s.walks := by simp [State.finish]
@[simp] theorem State.finish_flights (s : State) (f : Scalar → Scalar) : (s.finish f).flights = s.flights := by simp [State.finish]
@[simp] theorem State.finish_pushes (s : State) (f : Scalar → Scalar) : (s.finish f).pushes = s.pushes := by simp [State.finish]
@[simp] theorem State.finish_starts (s : State) (f : Scalar → Scalar) : (s.finish f).starts = s.starts := by simp [State.finish]
@[simp] theorem State.finish_shoots (s : State) (f : Scalar → Scalar) : (s.finish f).shoots = s.shoots := by simp [State.finish]
@[simp] theorem State.finish_remote (s : State) (f : Scalar → Scalar) : (s.finish f).remote = s.remote := by simp [State.finish]
@[simp] theorem State.finish_nextId (s : State) (f : Scalar → Scalar) : (s.finish f).nextId = s.nextId := by simp [State.finish]
@[simp] theorem State.finish_agenda (s : State) (f : Scalar → Scalar) : (s.finish f).agenda = s.agenda := by simp [State.finish]
@[simp] theorem State.finish_inputs (s : State) (f : Scalar → Scalar) : (s.finish f).inputs = s.inputs := by simp [State.finish]
@[simp] theorem State.finish_strikes (s : State) (f : Scalar → Scalar) : (s.finish f).strikes = s.strikes := by simp [State.finish]
@[simp] theorem State.finish_faults (s : State) (f : Scalar → Scalar) : (s.finish f).faults = s.faults := by simp [State.finish]
@[simp] theorem State.finish_lostDir (s : State) (f : Scalar → Scalar) : (s.finish f).lostDir = s.lostDir := by simp [State.finish]
@[simp] theorem State.finish_todo (s : State) (f : Scalar → Scalar) : (s.finish f).todo = s.todo := by simp [State.finish]
@[simp] theorem State.finish_outputs (s : State) (f : Scalar → Scalar) : (s.finish f).outputs = s.outputs := by simp [State.finish]
@[simp] theorem State.finish_free (s : State) (f : Scalar → Scalar) : (s.finish f).free = s.free := by simp [State.finish]

/-! ### A finished instruction that writes -/

@[simp] theorem State.finishWrite_pcc (s : State) (d : BitVec 5) (lat : Nat) (f : RegFile → Word) : (s.finishWrite d lat f).pcc = s.pcc := by simp [State.finishWrite]
@[simp] theorem State.finishWrite_cur (s : State) (d : BitVec 5) (lat : Nat) (f : RegFile → Word) : (s.finishWrite d lat f).cur = s.cur := by simp [State.finishWrite]
@[simp] theorem State.finishWrite_mem (s : State) (d : BitVec 5) (lat : Nat) (f : RegFile → Word) : (s.finishWrite d lat f).mem = s.mem := by simp [State.finishWrite]
@[simp] theorem State.finishWrite_poison (s : State) (d : BitVec 5) (lat : Nat) (f : RegFile → Word) : (s.finishWrite d lat f).poison = s.poison := by simp [State.finishWrite]
@[simp] theorem State.finishWrite_ctxs (s : State) (d : BitVec 5) (lat : Nat) (f : RegFile → Word) : (s.finishWrite d lat f).ctxs = s.ctxs := by simp [State.finishWrite]
@[simp] theorem State.finishWrite_dies (s : State) (d : BitVec 5) (lat : Nat) (f : RegFile → Word) : (s.finishWrite d lat f).dies = s.dies := by simp [State.finishWrite]
@[simp] theorem State.finishWrite_fabric (s : State) (d : BitVec 5) (lat : Nat) (f : RegFile → Word) : (s.finishWrite d lat f).fabric = s.fabric := by simp [State.finishWrite]
@[simp] theorem State.finishWrite_net (s : State) (d : BitVec 5) (lat : Nat) (f : RegFile → Word) : (s.finishWrite d lat f).net = s.net := by simp [State.finishWrite]
@[simp] theorem State.finishWrite_hub (s : State) (d : BitVec 5) (lat : Nat) (f : RegFile → Word) : (s.finishWrite d lat f).hub = s.hub := by simp [State.finishWrite]
@[simp] theorem State.finishWrite_objects (s : State) (d : BitVec 5) (lat : Nat) (f : RegFile → Word) : (s.finishWrite d lat f).objects = s.objects := by simp [State.finishWrite]
@[simp] theorem State.finishWrite_moult (s : State) (d : BitVec 5) (lat : Nat) (f : RegFile → Word) : (s.finishWrite d lat f).moult = s.moult := by simp [State.finishWrite]
@[simp] theorem State.finishWrite_host (s : State) (d : BitVec 5) (lat : Nat) (f : RegFile → Word) : (s.finishWrite d lat f).host = s.host := by simp [State.finishWrite]
@[simp] theorem State.finishWrite_pfc (s : State) (d : BitVec 5) (lat : Nat) (f : RegFile → Word) : (s.finishWrite d lat f).pfc = s.pfc := by simp [State.finishWrite]
@[simp] theorem State.finishWrite_qwin (s : State) (d : BitVec 5) (lat : Nat) (f : RegFile → Word) : (s.finishWrite d lat f).qwin = s.qwin := by simp [State.finishWrite]
@[simp] theorem State.finishWrite_accs (s : State) (d : BitVec 5) (lat : Nat) (f : RegFile → Word) : (s.finishWrite d lat f).accs = s.accs := by simp [State.finishWrite]
@[simp] theorem State.finishWrite_walks (s : State) (d : BitVec 5) (lat : Nat) (f : RegFile → Word) : (s.finishWrite d lat f).walks = s.walks := by simp [State.finishWrite]
@[simp] theorem State.finishWrite_flights (s : State) (d : BitVec 5) (lat : Nat) (f : RegFile → Word) : (s.finishWrite d lat f).flights = s.flights := by simp [State.finishWrite]
@[simp] theorem State.finishWrite_pushes (s : State) (d : BitVec 5) (lat : Nat) (f : RegFile → Word) : (s.finishWrite d lat f).pushes = s.pushes := by simp [State.finishWrite]
@[simp] theorem State.finishWrite_starts (s : State) (d : BitVec 5) (lat : Nat) (f : RegFile → Word) : (s.finishWrite d lat f).starts = s.starts := by simp [State.finishWrite]
@[simp] theorem State.finishWrite_shoots (s : State) (d : BitVec 5) (lat : Nat) (f : RegFile → Word) : (s.finishWrite d lat f).shoots = s.shoots := by simp [State.finishWrite]
@[simp] theorem State.finishWrite_remote (s : State) (d : BitVec 5) (lat : Nat) (f : RegFile → Word) : (s.finishWrite d lat f).remote = s.remote := by simp [State.finishWrite]
@[simp] theorem State.finishWrite_nextId (s : State) (d : BitVec 5) (lat : Nat) (f : RegFile → Word) : (s.finishWrite d lat f).nextId = s.nextId := by simp [State.finishWrite]
@[simp] theorem State.finishWrite_agenda (s : State) (d : BitVec 5) (lat : Nat) (f : RegFile → Word) : (s.finishWrite d lat f).agenda = s.agenda := by simp [State.finishWrite]
@[simp] theorem State.finishWrite_inputs (s : State) (d : BitVec 5) (lat : Nat) (f : RegFile → Word) : (s.finishWrite d lat f).inputs = s.inputs := by simp [State.finishWrite]
@[simp] theorem State.finishWrite_strikes (s : State) (d : BitVec 5) (lat : Nat) (f : RegFile → Word) : (s.finishWrite d lat f).strikes = s.strikes := by simp [State.finishWrite]
@[simp] theorem State.finishWrite_faults (s : State) (d : BitVec 5) (lat : Nat) (f : RegFile → Word) : (s.finishWrite d lat f).faults = s.faults := by simp [State.finishWrite]
@[simp] theorem State.finishWrite_lostDir (s : State) (d : BitVec 5) (lat : Nat) (f : RegFile → Word) : (s.finishWrite d lat f).lostDir = s.lostDir := by simp [State.finishWrite]
@[simp] theorem State.finishWrite_todo (s : State) (d : BitVec 5) (lat : Nat) (f : RegFile → Word) : (s.finishWrite d lat f).todo = s.todo := by simp [State.finishWrite]
@[simp] theorem State.finishWrite_outputs (s : State) (d : BitVec 5) (lat : Nat) (f : RegFile → Word) : (s.finishWrite d lat f).outputs = s.outputs := by simp [State.finishWrite]
@[simp] theorem State.finishWrite_free (s : State) (d : BitVec 5) (lat : Nat) (f : RegFile → Word) : (s.finishWrite d lat f).free = s.free := by simp [State.finishWrite]

/-! ### A finished instruction that writes and raises flags -/

@[simp] theorem State.finishFlags_pcc (s : State) (d : BitVec 5) (lat : Nat) (f : RegFile → Word × Nat) : (s.finishFlags d lat f).pcc = s.pcc := by simp [State.finishFlags]
@[simp] theorem State.finishFlags_cur (s : State) (d : BitVec 5) (lat : Nat) (f : RegFile → Word × Nat) : (s.finishFlags d lat f).cur = s.cur := by simp [State.finishFlags]
@[simp] theorem State.finishFlags_mem (s : State) (d : BitVec 5) (lat : Nat) (f : RegFile → Word × Nat) : (s.finishFlags d lat f).mem = s.mem := by simp [State.finishFlags]
@[simp] theorem State.finishFlags_poison (s : State) (d : BitVec 5) (lat : Nat) (f : RegFile → Word × Nat) : (s.finishFlags d lat f).poison = s.poison := by simp [State.finishFlags]
@[simp] theorem State.finishFlags_ctxs (s : State) (d : BitVec 5) (lat : Nat) (f : RegFile → Word × Nat) : (s.finishFlags d lat f).ctxs = s.ctxs := by simp [State.finishFlags]
@[simp] theorem State.finishFlags_dies (s : State) (d : BitVec 5) (lat : Nat) (f : RegFile → Word × Nat) : (s.finishFlags d lat f).dies = s.dies := by simp [State.finishFlags]
@[simp] theorem State.finishFlags_fabric (s : State) (d : BitVec 5) (lat : Nat) (f : RegFile → Word × Nat) : (s.finishFlags d lat f).fabric = s.fabric := by simp [State.finishFlags]
@[simp] theorem State.finishFlags_net (s : State) (d : BitVec 5) (lat : Nat) (f : RegFile → Word × Nat) : (s.finishFlags d lat f).net = s.net := by simp [State.finishFlags]
@[simp] theorem State.finishFlags_hub (s : State) (d : BitVec 5) (lat : Nat) (f : RegFile → Word × Nat) : (s.finishFlags d lat f).hub = s.hub := by simp [State.finishFlags]
@[simp] theorem State.finishFlags_objects (s : State) (d : BitVec 5) (lat : Nat) (f : RegFile → Word × Nat) : (s.finishFlags d lat f).objects = s.objects := by simp [State.finishFlags]
@[simp] theorem State.finishFlags_moult (s : State) (d : BitVec 5) (lat : Nat) (f : RegFile → Word × Nat) : (s.finishFlags d lat f).moult = s.moult := by simp [State.finishFlags]
@[simp] theorem State.finishFlags_host (s : State) (d : BitVec 5) (lat : Nat) (f : RegFile → Word × Nat) : (s.finishFlags d lat f).host = s.host := by simp [State.finishFlags]
@[simp] theorem State.finishFlags_pfc (s : State) (d : BitVec 5) (lat : Nat) (f : RegFile → Word × Nat) : (s.finishFlags d lat f).pfc = s.pfc := by simp [State.finishFlags]
@[simp] theorem State.finishFlags_qwin (s : State) (d : BitVec 5) (lat : Nat) (f : RegFile → Word × Nat) : (s.finishFlags d lat f).qwin = s.qwin := by simp [State.finishFlags]
@[simp] theorem State.finishFlags_accs (s : State) (d : BitVec 5) (lat : Nat) (f : RegFile → Word × Nat) : (s.finishFlags d lat f).accs = s.accs := by simp [State.finishFlags]
@[simp] theorem State.finishFlags_walks (s : State) (d : BitVec 5) (lat : Nat) (f : RegFile → Word × Nat) : (s.finishFlags d lat f).walks = s.walks := by simp [State.finishFlags]
@[simp] theorem State.finishFlags_flights (s : State) (d : BitVec 5) (lat : Nat) (f : RegFile → Word × Nat) : (s.finishFlags d lat f).flights = s.flights := by simp [State.finishFlags]
@[simp] theorem State.finishFlags_pushes (s : State) (d : BitVec 5) (lat : Nat) (f : RegFile → Word × Nat) : (s.finishFlags d lat f).pushes = s.pushes := by simp [State.finishFlags]
@[simp] theorem State.finishFlags_starts (s : State) (d : BitVec 5) (lat : Nat) (f : RegFile → Word × Nat) : (s.finishFlags d lat f).starts = s.starts := by simp [State.finishFlags]
@[simp] theorem State.finishFlags_shoots (s : State) (d : BitVec 5) (lat : Nat) (f : RegFile → Word × Nat) : (s.finishFlags d lat f).shoots = s.shoots := by simp [State.finishFlags]
@[simp] theorem State.finishFlags_remote (s : State) (d : BitVec 5) (lat : Nat) (f : RegFile → Word × Nat) : (s.finishFlags d lat f).remote = s.remote := by simp [State.finishFlags]
@[simp] theorem State.finishFlags_nextId (s : State) (d : BitVec 5) (lat : Nat) (f : RegFile → Word × Nat) : (s.finishFlags d lat f).nextId = s.nextId := by simp [State.finishFlags]
@[simp] theorem State.finishFlags_agenda (s : State) (d : BitVec 5) (lat : Nat) (f : RegFile → Word × Nat) : (s.finishFlags d lat f).agenda = s.agenda := by simp [State.finishFlags]
@[simp] theorem State.finishFlags_inputs (s : State) (d : BitVec 5) (lat : Nat) (f : RegFile → Word × Nat) : (s.finishFlags d lat f).inputs = s.inputs := by simp [State.finishFlags]
@[simp] theorem State.finishFlags_strikes (s : State) (d : BitVec 5) (lat : Nat) (f : RegFile → Word × Nat) : (s.finishFlags d lat f).strikes = s.strikes := by simp [State.finishFlags]
@[simp] theorem State.finishFlags_faults (s : State) (d : BitVec 5) (lat : Nat) (f : RegFile → Word × Nat) : (s.finishFlags d lat f).faults = s.faults := by simp [State.finishFlags]
@[simp] theorem State.finishFlags_lostDir (s : State) (d : BitVec 5) (lat : Nat) (f : RegFile → Word × Nat) : (s.finishFlags d lat f).lostDir = s.lostDir := by simp [State.finishFlags]
@[simp] theorem State.finishFlags_todo (s : State) (d : BitVec 5) (lat : Nat) (f : RegFile → Word × Nat) : (s.finishFlags d lat f).todo = s.todo := by simp [State.finishFlags]
@[simp] theorem State.finishFlags_outputs (s : State) (d : BitVec 5) (lat : Nat) (f : RegFile → Word × Nat) : (s.finishFlags d lat f).outputs = s.outputs := by simp [State.finishFlags]
@[simp] theorem State.finishFlags_free (s : State) (d : BitVec 5) (lat : Nat) (f : RegFile → Word × Nat) : (s.finishFlags d lat f).free = s.free := by simp [State.finishFlags]

/-! ### A taken transfer -/

@[simp] theorem State.jump_pcc (s : State) (t : Word) (cost : Nat) (f : Scalar → Scalar) : (s.jump t cost f).pcc = s.pcc := by simp [State.jump]
@[simp] theorem State.jump_cur (s : State) (t : Word) (cost : Nat) (f : Scalar → Scalar) : (s.jump t cost f).cur = s.cur := by simp [State.jump]
@[simp] theorem State.jump_mem (s : State) (t : Word) (cost : Nat) (f : Scalar → Scalar) : (s.jump t cost f).mem = s.mem := by simp [State.jump]
@[simp] theorem State.jump_poison (s : State) (t : Word) (cost : Nat) (f : Scalar → Scalar) : (s.jump t cost f).poison = s.poison := by simp [State.jump]
@[simp] theorem State.jump_ctxs (s : State) (t : Word) (cost : Nat) (f : Scalar → Scalar) : (s.jump t cost f).ctxs = s.ctxs := by simp [State.jump]
@[simp] theorem State.jump_dies (s : State) (t : Word) (cost : Nat) (f : Scalar → Scalar) : (s.jump t cost f).dies = s.dies := by simp [State.jump]
@[simp] theorem State.jump_fabric (s : State) (t : Word) (cost : Nat) (f : Scalar → Scalar) : (s.jump t cost f).fabric = s.fabric := by simp [State.jump]
@[simp] theorem State.jump_net (s : State) (t : Word) (cost : Nat) (f : Scalar → Scalar) : (s.jump t cost f).net = s.net := by simp [State.jump]
@[simp] theorem State.jump_hub (s : State) (t : Word) (cost : Nat) (f : Scalar → Scalar) : (s.jump t cost f).hub = s.hub := by simp [State.jump]
@[simp] theorem State.jump_objects (s : State) (t : Word) (cost : Nat) (f : Scalar → Scalar) : (s.jump t cost f).objects = s.objects := by simp [State.jump]
@[simp] theorem State.jump_moult (s : State) (t : Word) (cost : Nat) (f : Scalar → Scalar) : (s.jump t cost f).moult = s.moult := by simp [State.jump]
@[simp] theorem State.jump_host (s : State) (t : Word) (cost : Nat) (f : Scalar → Scalar) : (s.jump t cost f).host = s.host := by simp [State.jump]
@[simp] theorem State.jump_pfc (s : State) (t : Word) (cost : Nat) (f : Scalar → Scalar) : (s.jump t cost f).pfc = s.pfc := by simp [State.jump]
@[simp] theorem State.jump_qwin (s : State) (t : Word) (cost : Nat) (f : Scalar → Scalar) : (s.jump t cost f).qwin = s.qwin := by simp [State.jump]
@[simp] theorem State.jump_accs (s : State) (t : Word) (cost : Nat) (f : Scalar → Scalar) : (s.jump t cost f).accs = s.accs := by simp [State.jump]
@[simp] theorem State.jump_walks (s : State) (t : Word) (cost : Nat) (f : Scalar → Scalar) : (s.jump t cost f).walks = s.walks := by simp [State.jump]
@[simp] theorem State.jump_flights (s : State) (t : Word) (cost : Nat) (f : Scalar → Scalar) : (s.jump t cost f).flights = s.flights := by simp [State.jump]
@[simp] theorem State.jump_pushes (s : State) (t : Word) (cost : Nat) (f : Scalar → Scalar) : (s.jump t cost f).pushes = s.pushes := by simp [State.jump]
@[simp] theorem State.jump_starts (s : State) (t : Word) (cost : Nat) (f : Scalar → Scalar) : (s.jump t cost f).starts = s.starts := by simp [State.jump]
@[simp] theorem State.jump_shoots (s : State) (t : Word) (cost : Nat) (f : Scalar → Scalar) : (s.jump t cost f).shoots = s.shoots := by simp [State.jump]
@[simp] theorem State.jump_remote (s : State) (t : Word) (cost : Nat) (f : Scalar → Scalar) : (s.jump t cost f).remote = s.remote := by simp [State.jump]
@[simp] theorem State.jump_nextId (s : State) (t : Word) (cost : Nat) (f : Scalar → Scalar) : (s.jump t cost f).nextId = s.nextId := by simp [State.jump]
@[simp] theorem State.jump_agenda (s : State) (t : Word) (cost : Nat) (f : Scalar → Scalar) : (s.jump t cost f).agenda = s.agenda := by simp [State.jump]
@[simp] theorem State.jump_inputs (s : State) (t : Word) (cost : Nat) (f : Scalar → Scalar) : (s.jump t cost f).inputs = s.inputs := by simp [State.jump]
@[simp] theorem State.jump_strikes (s : State) (t : Word) (cost : Nat) (f : Scalar → Scalar) : (s.jump t cost f).strikes = s.strikes := by simp [State.jump]
@[simp] theorem State.jump_faults (s : State) (t : Word) (cost : Nat) (f : Scalar → Scalar) : (s.jump t cost f).faults = s.faults := by simp [State.jump]
@[simp] theorem State.jump_lostDir (s : State) (t : Word) (cost : Nat) (f : Scalar → Scalar) : (s.jump t cost f).lostDir = s.lostDir := by simp [State.jump]
@[simp] theorem State.jump_todo (s : State) (t : Word) (cost : Nat) (f : Scalar → Scalar) : (s.jump t cost f).todo = s.todo := by simp [State.jump]
@[simp] theorem State.jump_outputs (s : State) (t : Word) (cost : Nat) (f : Scalar → Scalar) : (s.jump t cost f).outputs = s.outputs := by simp [State.jump]
@[simp] theorem State.jump_free (s : State) (t : Word) (cost : Nat) (f : Scalar → Scalar) : (s.jump t cost f).free = s.free := by simp [State.jump]

/-! ### What the changed fields hold -/

@[simp] theorem State.core_setCore_same (s : State) (k : Nat) (c : Core) : (s.setCore k c).core k = c :=
  FMap.getD_set_same _ _ _ _

theorem State.core_setCore_other (s : State) (k j : Nat) (c : Core) (h : j ≠ k) : (s.setCore k c).core j = s.core j :=
  FMap.getD_set_other _ _ _ _ _ h

@[simp] theorem State.core_modCore_same (s : State) (k : Nat) (f : Core → Core) : (s.modCore k f).core k = f (s.core k) :=
  FMap.getD_set_same _ _ _ _

theorem State.core_modCore_other (s : State) (k j : Nat) (f : Core → Core) (h : j ≠ k) : (s.modCore k f).core j = s.core j :=
  FMap.getD_set_other _ _ _ _ _ h

@[simp] theorem State.here_modHere (s : State) (f : Core → Core) : (s.modHere f).here = f s.here :=
  FMap.getD_set_same _ _ _ _

@[simp] theorem Core.group_setGroup_same (c : Core) (g : Nat) (x : Group) : (c.setGroup g x).group g = x :=
  FMap.getD_set_same _ _ _ _

theorem Core.group_setGroup_other (c : Core) (g h : Nat) (x : Group) (hg : h ≠ g) : (c.setGroup g x).group h = c.group h :=
  FMap.getD_set_other _ _ _ _ _ hg

@[simp] theorem Core.group_modGroup_same (c : Core) (g : Nat) (f : Group → Group) : (c.modGroup g f).group g = f (c.group g) :=
  FMap.getD_set_same _ _ _ _

theorem Core.group_modGroup_other (c : Core) (g h : Nat) (f : Group → Group) (hg : h ≠ g) : (c.modGroup g f).group h = c.group h :=
  FMap.getD_set_other _ _ _ _ _ hg

@[simp] theorem State.grp_modGrp (s : State) (f : Group → Group) : (s.modGrp f).grp = f s.grp := by
  simp [State.grp, State.modGrp]

@[simp] theorem State.ctl_modCtl_same (s : State) (n : Nat) (f : Control → Control) : (s.modCtl n f).ctl n = f (s.ctl n) := by
  simp [State.ctl, State.modCtl]

@[simp] theorem Core.chan_modChan_same (c : Core) (n : Nat) (f : Chan → Chan) : (c.modChan n f).chan n = f (c.chan n) := by
  simp [Core.chan, Core.modChan]

@[simp] theorem State.scalar_modScalar (s : State) (f : Scalar → Scalar) : (s.modScalar f).scalar = f s.scalar := by
  cases h : s.cur.stream <;> simp [State.modScalar, State.scalar, h]

@[simp] theorem State.scalar_clearHold (s : State) : s.clearHold.scalar = s.scalar := by
  cases h : s.cur.stream <;> simp [State.clearHold, State.scalar, h]

@[simp] theorem State.holding_clearHold (s : State) : s.clearHold.holding = none := by
  cases h : s.cur.stream <;> simp [State.clearHold, State.holding, h]

@[simp] theorem State.scalar_finish (s : State) (f : Scalar → Scalar) : (s.finish f).scalar = (f s.scalar).advance s.pcc := by
  simp [State.finish]

@[simp] theorem State.scalar_jump (s : State) (t : Word) (cost : Nat) (f : Scalar → Scalar) :
    (s.jump t cost f).scalar = { f s.scalar with pc := t, nextIssue := s.pcc + cost } := by
  simp [State.jump]

end Sys2Proof.Machine
end

