-- ==== Sys2Proof/Laws/Ops.lean ====
section
/-! SUPPORT. Laws of the shared operations: what a finished scalar instruction leaves, and when a check lets its
instruction go on. -/

namespace Sys2Proof.Machine

/-! ### The step's scalar stream -/

theorem State.modScalar_const (s : State) (f : Scalar → Scalar) : s.modScalar f = s.modScalar fun _ => f s.scalar := by
  cases h : s.cur.stream <;> simp only [State.modScalar, State.scalar, h] <;> rfl

/-- A finished instruction changes nothing but its stream. -/
theorem onlyScalar_finish (s : State) (f : Scalar → Scalar) : OnlyScalar s (s.finish f) := by
  refine ⟨?_, fun a => by simp⟩
  rw [State.scalar_finish, State.finish]
  congr 1
  exact State.modScalar_const s _

/-- A taken transfer changes nothing but its stream. -/
theorem onlyScalar_jump (s : State) (t : Word) (c : Nat) (f : Scalar → Scalar) : OnlyScalar s (s.jump t c f) := by
  refine ⟨?_, fun a => by simp⟩
  rw [State.scalar_jump, State.jump]
  congr 1
  exact State.modScalar_const s _

/-! ### Register files -/

theorem RegFile.get_put (r : RegFile) (d n : BitVec 5) (v : Word) :
    (r.put d v).get n = if n = d ∧ d ≠ 0 then v else r.get n := by
  unfold RegFile.put RegFile.get
  by_cases hd : d = 0
  · simp [hd]
  · by_cases hn : n = d
    · subst hn
      rw [if_neg hd, if_neg hd, if_pos ⟨rfl, hd⟩]
      simp
    · have : n.toNat ≠ d.toNat := fun h => hn (BitVec.eq_of_toNat_eq h)
      simp only [hd, hn, if_false, false_and]
      split
      · rfl
      · rw [Vector.getElem_set_ne]; exact fun h => this h.symm

/-- Register 0 reads as zero (R54). -/
@[simp] theorem RegFile.get_zero (r : RegFile) : r.get 0 = 0 := rfl

@[simp] theorem RegFile.put_flags (r : RegFile) (d : BitVec 5) (v : Word) : (r.put d v).flags = r.flags := by
  unfold RegFile.put; split <;> rfl
@[simp] theorem RegFile.put_rmode (r : RegFile) (d : BitVec 5) (v : Word) : (r.put d v).rmode = r.rmode := by
  unfold RegFile.put; split <;> rfl
@[simp] theorem RegFile.put_lsat (r : RegFile) (d : BitVec 5) (v : Word) : (r.put d v).lsat = r.lsat := by
  unfold RegFile.put; split <;> rfl
@[simp] theorem RegFile.put_amax (r : RegFile) (d : BitVec 5) (v : Word) : (r.put d v).amax = r.amax := by
  unfold RegFile.put; split <;> rfl

theorem fileWrote_put (r : RegFile) (d : BitVec 5) (v : Word × Nat) : FileWrote r ((r.put d v.1).raise v.2) d v := by
  refine ⟨fun n => ?_, ?_, ?_, ?_, ?_⟩
  · show (r.put d v.1).get n = _
    exact RegFile.get_put r d n v.1
  all_goals simp [RegFile.raise]

/-- An instruction that writes x[d] with flags raised leaves what `ScalarWrote` says. -/
theorem scalarWrote_finishFlags (s : State) (d : BitVec 5) (lat : Nat) (f : RegFile → Word × Nat) :
    ScalarWrote s (s.finishFlags d lat f) d lat f := by
  refine ⟨onlyScalar_finish _ _, ?_, ?_, ?_, ?_, ?_, ?_, ?_⟩
  · simp only [State.rf, State.finishFlags, State.scalar_finish]
    exact fileWrote_put _ _ _
  · intro h
    simp [State.finishFlags, Scalar.advance, Scalar.mark, Scalar.mapFiles, h]
  · intro r h
    refine ⟨(r.put d (f r).1).raise (f r).2, ?_, fileWrote_put _ _ _⟩
    simp [State.finishFlags, Scalar.advance, Scalar.mark, Scalar.mapFiles, h]
  · simp [State.finishFlags, Scalar.advance, Scalar.mark, Scalar.mapFiles]
  · simp [State.finishFlags, Scalar.advance, Scalar.mark, Scalar.mapFiles]
  · simp [State.finishFlags, Scalar.advance, Scalar.mark, Scalar.mapFiles]
  · intro hd
    simp only [State.finishFlags, State.scalar_finish, Scalar.advance, Scalar.mark]
    rw [if_neg hd]
    exact FMap.get_set_same _ _ _

theorem RegFile.raise_zero (r : RegFile) : r.raise 0 = r := by
  cases r; simp [RegFile.raise]

theorem State.finishWrite_eq (s : State) (d : BitVec 5) (lat : Nat) (f : RegFile → Word) :
    s.finishWrite d lat f = s.finishFlags d lat fun r => (f r, 0) := by
  simp only [State.finishWrite, State.finishFlags, RegFile.raise_zero]

/-- An instruction that writes x[d] leaves what `ScalarWrote` says. -/
theorem scalarWrote_finishWrite (s : State) (d : BitVec 5) (lat : Nat) (f : RegFile → Word) :
    ScalarWrote s (s.finishWrite d lat f) d lat fun r => (f r, 0) := by
  rw [State.finishWrite_eq]; exact scalarWrote_finishFlags _ _ _ _

/-! ### Checks -/

theorem check_of_true (ok : Bool) (cause : Nat) (s : State) (k : Out) (h : ok = true) : check ok cause s k = k := by
  simp [check, h]

theorem check_of_false (ok : Bool) (cause : Nat) (s : State) (k : Out) (h : ok = false) : check ok cause s k = trap s cause := by
  simp [check, h]

/-- A check goes on or traps. -/
theorem check_cases (ok : Bool) (cause : Nat) (s : State) (k : Out) :
    ok = true ∧ check ok cause s k = k ∨ ok = false ∧ check ok cause s k = .next (s.raiseTrap { cause }) := by
  cases ok
  · exact .inr ⟨rfl, rfl⟩
  · exact .inl ⟨rfl, rfl⟩

theorem onStreams_of_admits {s : State} {g e c : Bool} {fields reads : List (BitVec 5)} (h : Admits s g e c fields reads)
    (k : Out) : onStreams g e c s k = k := by
  apply check_of_true
  obtain ⟨h | h | h, -⟩ := h <;> simp [State.streamIn, h.1, h.2]

theorem withFields_of_admits {s : State} {g e c : Bool} {fields reads : List (BitVec 5)} (h : Admits s g e c fields reads)
    (k : Out) : withFields fields s k = k := by
  apply check_of_true
  rw [List.all_eq_true]
  intro n hn
  by_cases he : s.cur.stream = .eft
  · simp [State.fieldOk, he, h.2.1 he n hn]
  · simp [State.fieldOk, he]

theorem withReads_of_admits {s : State} {g e c : Bool} {fields reads : List (BitVec 5)} (h : Admits s g e c fields reads)
    (k : Out) : withReads reads s k = k := by
  apply check_of_true
  have hp : s.readsPoison reads = false := by
    rw [State.readsPoison, List.any_eq_false]
    intro n hn
    obtain ⟨h1, h2⟩ := h.2.2 n hn
    cases ht : s.scalar.twin with
    | none => simpa [NatSet.has, ht] using h1
    | some r => simpa [NatSet.has, ht] using ⟨h1, h2 r ht⟩
  simp [hp]

end Sys2Proof.Machine
end

