-- ==== Sys2Proof/Laws/Access.lean ====
section
/-! SUPPORT. Laws of the issue of an access (R484): what is under way afterwards, and what is as it was. -/

namespace Sys2Proof.Machine

/-- Two states agree on memory, the scalar streams and the registers of every core and control-die core: what the issue of
an access leaves alone. It may note when the core's accesses are performed. -/
def SameRegisters (s t : State) : Prop :=
  t.mem = s.mem ∧ t.cur = s.cur ∧ t.pcc = s.pcc ∧ (∀ k, t.ctl k = { s.ctl k with omLast := (t.ctl k).omLast }) ∧
  ∀ k, (t.core k).groups = (s.core k).groups ∧ (t.core k).eft = (s.core k).eft ∧ (t.core k).spm = (s.core k).spm ∧
    (t.core k).mem.pend = (s.core k).mem.pend

theorem SameRegisters.of {s t : State} (h1 : t.mem = s.mem) (h2 : t.cur = s.cur) (h3 : t.pcc = s.pcc) (h4 : t.control = s.control)
    (h5 : t.cores = s.cores) : SameRegisters s t :=
  ⟨h1, h2, h3, fun k => by simp [State.ctl, h4], fun k => by simp [State.core, h5]⟩

theorem SameRegisters.refl (s : State) : SameRegisters s s := .of rfl rfl rfl rfl rfl

theorem SameRegisters.trans {s t u : State} (h : SameRegisters s t) (g : SameRegisters t u) : SameRegisters s u :=
  ⟨g.1.trans h.1, g.2.1.trans h.2.1, g.2.2.1.trans h.2.2.1, fun k => by rw [g.2.2.2.1 k, h.2.2.2.1 k], fun k =>
    ⟨(g.2.2.2.2 k).1.trans (h.2.2.2.2 k).1, (g.2.2.2.2 k).2.1.trans (h.2.2.2.2 k).2.1,
     (g.2.2.2.2 k).2.2.1.trans (h.2.2.2.2 k).2.2.1, (g.2.2.2.2 k).2.2.2.trans (h.2.2.2.2 k).2.2.2⟩⟩

/-- A change of a core that keeps its groups, eft stream, scratchpad and pending stores. -/
theorem SameRegisters.modCore (s : State) (j : Nat) (f : Core → Core)
    (h : ∀ c, (f c).groups = c.groups ∧ (f c).eft = c.eft ∧ (f c).spm = c.spm ∧ (f c).mem.pend = c.mem.pend) :
    SameRegisters s (s.modCore j f) := by
  refine ⟨rfl, rfl, rfl, fun _ => rfl, fun k => ?_⟩
  by_cases hk : k = j
  · subst hk; rw [State.core_modCore_same]; exact h _
  · rw [State.core_modCore_other _ _ _ _ hk]; exact ⟨rfl, rfl, rfl, rfl⟩

theorem SameRegisters.scalar {s t : State} (h : SameRegisters s t) : t.scalar = s.scalar := by
  obtain ⟨-, h2, -, h4, h5⟩ := h
  unfold State.scalar State.here State.grp State.here Core.group
  rw [h2]
  split
  · rw [(h5 _).2.1]
  · rw [h4]
  · rw [(h5 _).1]

/-- What leaves the accesses under way and the registers alone. -/
def KeepsAccs (s t : State) : Prop := t.accs = s.accs ∧ SameRegisters s t

theorem KeepsAccs.refl (s : State) : KeepsAccs s s := ⟨rfl, SameRegisters.refl s⟩

theorem KeepsAccs.trans {s t u : State} (h : KeepsAccs s t) (g : KeepsAccs t u) : KeepsAccs s u := ⟨g.1.trans h.1, h.2.trans g.2⟩

theorem SameRegisters.schedule (s : State) (t : Nat) (e : Event) : SameRegisters s (s.schedule t e) := .of rfl rfl rfl rfl rfl

theorem KeepsAccs.tick (s : State) : KeepsAccs s s.tick := ⟨rfl, .of rfl rfl rfl rfl rfl⟩

/-- The network's flits change no register. -/
theorem carryLate_keeps (s : State) (die : Nat) (p q : Spot) (flits now : Nat) : KeepsAccs s (s.carryLate die p q flits now).1 :=
  ⟨rfl, .of rfl rfl rfl rfl rfl⟩

theorem requestLate_keeps (s : State) (core pa flits now : Nat) : KeepsAccs s (s.requestLate core pa flits now).1 := by
  have far (d o : Nat) (own : State × Nat) (h : KeepsAccs s own.1) : KeepsAccs s (State.requestLate.far s core flits now own d o).1 := by
    unfold State.requestLate.far
    dsimp only
    split
    · exact h
    · exact h.trans (carryLate_keeps _ _ _ _ _ _)
  unfold State.requestLate
  dsimp only
  split
  · exact far _ _ _ (carryLate_keeps _ _ _ _ _ _)
  · exact far _ _ _ (carryLate_keeps _ _ _ _ _ _)
  · exact carryLate_keeps _ _ _ _ _ _

/-- A line that a slice takes changes no register. -/
theorem fillSlice_keeps (s : State) (pa since : Nat) : KeepsAccs s (s.fillSlice pa since) := by
  unfold State.fillSlice
  repeat' split
  all_goals exact ⟨rfl, .of rfl rfl rfl rfl rfl⟩

/-- A note of the cycle in which an access is performed changes no register. -/
theorem noteLast_keeps (s : State) (core : Nat) (keys : List Nat) (t : Nat) : KeepsAccs s (s.noteLast core keys t) := by
  unfold State.noteLast
  dsimp only
  split
  · exact KeepsAccs.refl s
  · split
    · exact ⟨rfl, SameRegisters.modCore _ _ _ fun c => ⟨rfl, rfl, rfl, rfl⟩⟩
    · refine ⟨rfl, rfl, rfl, rfl, fun k => ?_, fun k => ⟨rfl, rfl, rfl, rfl⟩⟩
      by_cases hk : core % 16 = k % 16
      · simp [State.ctl, State.modCtl, hk]
      · simp [State.ctl, State.modCtl, hk]

/-- Entering a timed access changes the accesses under way by that access, and no register. -/
theorem place_spec (s : State) (id : Nat) (a : Access) : (s.place id a).accs = s.accs.set id a ∧ SameRegisters s (s.place id a) := by
  have k : KeepsAccs { s with accs := s.accs.set id a } (s.place id a) :=
    (((noteLast_keeps _ _ _ _).trans (fillSlice_keeps _ _ _)).trans (KeepsAccs.tick _)).trans (KeepsAccs.tick _)
  exact ⟨k.1, (SameRegisters.of rfl rfl rfl rfl rfl).trans k.2⟩

/-- The way into the die's network, which an access of a compute core takes, changes no register. -/
theorem wayIn_keeps (s : State) (core pa flits now : Nat) :
    ∃ n late, (if core < Config.controlBase then s.requestLate core pa flits now else (s, 0)) = (n, late) ∧ KeepsAccs s n := by
  by_cases h : core < Config.controlBase
  · rw [if_pos h]; exact ⟨_, _, rfl, requestLate_keeps _ _ _ _ _⟩
  · rw [if_neg h]; exact ⟨_, _, rfl, KeepsAccs.refl s⟩

/-- An access that is timed stands in the table under its number, with its times and its error; registers and memory are as they
were. -/
theorem timeAccess_spec (s : State) (id : Nat) (a : Access) (fl : Nat × Nat) :
    (∃ p r e, (s.timeAccess id a fl).accs = s.accs.set id { a with performAt := p, replyAt := r, error := e }) ∧
      SameRegisters s (s.timeAccess id a fl) := by
  obtain ⟨n, late, hn, hk⟩ := wayIn_keeps s a.core a.pa fl.1 (max s.pcc a.issued)
  unfold State.timeAccess
  simp only [decide_eq_true_eq, hn]
  generalize (if (decide (a.core < Config.controlBase) || isRegister a.pa) = true then
    s.route a.core a.pa a.cls fl.1 fl.2 (s.sliceHit a.pa) else
    ⟨1 + Config.freeDelay s.free, 1 + Config.freeDelay (s.free + 1), (s.route 0 a.pa a.cls 1 1 (s.sliceHit a.pa)).error⟩) = r
  generalize s.earliest a.core a.pa a.cls _ = t
  have k := place_spec n id { a with performAt := t, replyAt := t + r.reply, error := r.error.map DataError.remote }
  rw [hk.1] at k
  split
  all_goals exact ⟨⟨_, _, _, k.1⟩, (hk.2.trans k.2).trans (SameRegisters.schedule _ _ _)⟩

/-- An access that starts stands in the table under its number. -/
theorem startAccess_spec (s : State) (id : Nat) (a : Access) (fl : Nat × Nat) :
    (∃ p r e, (s.startAccess id a fl).accs = s.accs.set id { a with performAt := p, replyAt := r, error := e }) ∧
      SameRegisters s (s.startAccess id a fl) := by
  unfold State.startAccess
  split
  · exact timeAccess_spec s id a fl
  · obtain ⟨n, late, hn, hk⟩ := wayIn_keeps s a.core a.pa fl.1 (max s.pcc a.issued)
    simp only [hn]
    refine ⟨⟨_, _, a.error, congrArg (fun x : FMap Access => x.set id _) hk.1⟩, hk.2.trans ?_⟩
    exact SameRegisters.of rfl rfl rfl rfl rfl

/-- An access that is sent stands in the table under the next free number, as its stream issued it. -/
theorem send_spec (s : State) (n : NewAccess) :
    (s.send n).2 = s.nextId ∧ SameRegisters s (s.send n).1 ∧
    ∃ a, (s.send n).1.accs.get s.nextId = some a ∧ a.kind = n.kind ∧ a.va = n.va ∧ a.pa = n.pa ∧ a.size = n.size ∧ a.cls = n.cls ∧
      a.core = s.curKey ∧ a.slot = s.cur.slot ∧ a.stream = s.cur.stream ∧ a.pc = s.curPc ∧ a.value = n.value := by
  unfold State.send
  dsimp only
  refine ⟨rfl, ?_, ?_⟩
  · exact (show SameRegisters s { s with nextId := s.nextId + 1 } from SameRegisters.of rfl rfl rfl rfl rfl).trans (startAccess_spec _ _ _ _).2
  · obtain ⟨p, r, e, h⟩ := (startAccess_spec { s with nextId := s.nextId + 1 } s.nextId
      { core := s.curKey, slot := s.cur.slot, stream := s.cur.stream, kind := n.kind, pc := s.curPc, va := n.va, pa := n.pa,
        size := n.size, cls := n.cls, issued := s.pcc + n.delay, performAt := 0, replyAt := 0, order := n.order,
        value := n.value, performed := false, error := none, window := s.qwin, lease := n.lease, tag := none, host := 0 }
      (if n.message then (1, 1) else n.kind.flits)).1
    refine ⟨_, by rw [h]; exact FMap.get_set_same _ _ _, rfl, rfl, rfl, rfl, rfl, rfl, rfl, rfl, ?_, rfl⟩
    rfl

theorem bumpOrder_spec (s : State) : s.bumpOrder.accs = s.accs ∧ SameRegisters s s.bumpOrder := by
  unfold State.bumpOrder
  split
  · exact ⟨rfl, SameRegisters.refl s⟩
  · exact ⟨rfl, SameRegisters.modCore _ _ _ fun c => ⟨rfl, rfl, rfl, rfl⟩⟩

/-- A read that starts stands in the table under the next free number. -/
theorem startRead_spec (s : State) (kind : AccKind) (va : Word) (pa size cls delay : Nat) (e : TlbEntry) :
    (s.startRead kind va pa size cls delay e).2 = s.nextId ∧ SameRegisters s (s.startRead kind va pa size cls delay e).1 ∧
    ∃ a, (s.startRead kind va pa size cls delay e).1.accs.get s.nextId = some a ∧ a.kind = kind ∧ a.va = va ∧ a.pa = pa ∧
      a.size = size ∧ a.cls = cls ∧ a.core = s.curKey ∧ a.slot = s.cur.slot ∧ a.stream = s.cur.stream ∧ a.pc = s.curPc := by
  unfold State.startRead
  dsimp only
  split
  · refine ⟨rfl, ?_, ?_⟩
    · refine SameRegisters.trans ?_ (bumpOrder_spec _).2
      exact SameRegisters.of rfl rfl rfl rfl rfl
    · rw [(bumpOrder_spec _).1]
      exact ⟨_, FMap.get_set_same _ _ _, rfl, rfl, rfl, rfl, rfl, rfl, rfl, rfl, rfl⟩
  · obtain ⟨h1, h2, a, h3, h4⟩ := send_spec s { kind, va, pa, size, cls, value := e.va + e.level, order := s.nextOrder, lease := if (!(decide (s.cur.stream = .control)) && !isConfig pa) = true then some (s.here.leaseTag e) else none, delay }
    refine ⟨h1, h2.trans (bumpOrder_spec _).2, a, ?_, h4.1, h4.2.1, h4.2.2.1, h4.2.2.2.1, h4.2.2.2.2.1, h4.2.2.2.2.2.1, h4.2.2.2.2.2.2.1, h4.2.2.2.2.2.2.2.1, h4.2.2.2.2.2.2.2.2.1⟩
    rw [(bumpOrder_spec _).1]
    exact h3

end Sys2Proof.Machine
end

