-- ==== Sys2Proof/Laws/Vector.lean ====
section
/-! SUPPORT. Laws of the issue of vector micro-orders: what a micro-order leaves of its stream, and what it leaves alone. -/

namespace Sys2Proof.Machine

/-- Two states differ at most in the step's vector stream, and in its core's pipes, ports and search position. -/
def OnlyVector (s t : State) : Prop :=
  t.cur = s.cur ∧ t.pcc = s.pcc ∧ t.mem = s.mem ∧ (∀ k, k ≠ s.cur.core → t.core k = s.core k) ∧
  (∀ n, n ≠ s.cur.slot → t.here.group n = s.here.group n) ∧ t.grp = { s.grp with v := t.grp.v } ∧
  (∃ p q r, t.here = { s.here with groups := t.here.groups, pipes := p, ports := q, sched := r })

theorem OnlyVector.refl (s : State) : OnlyVector s s :=
  ⟨rfl, rfl, rfl, fun _ _ => rfl, fun _ _ => rfl, rfl, _, _, _, rfl⟩

theorem OnlyVector.trans {s t u : State} (h : OnlyVector s t) (g : OnlyVector t u) : OnlyVector s u := by
  obtain ⟨h1, h2, h3, h4, h5, h6, p, q, r, h7⟩ := h
  obtain ⟨g1, g2, g3, g4, g5, g6, p', q', r', g7⟩ := g
  refine ⟨g1.trans h1, g2.trans h2, g3.trans h3, fun k hk => ?_, fun n hn => ?_, ?_, p', q', r', ?_⟩
  · rw [g4 k (by rw [h1]; exact hk), h4 k hk]
  · rw [g5 n (by rw [h1]; exact hn), h5 n hn]
  · rw [g6, h6]
  · rw [g7, h7]

theorem OnlyVector.modV (s : State) (f : VStream → VStream) : OnlyVector s (s.modV f) := by
  refine ⟨rfl, rfl, rfl, fun k hk => State.core_modCore_other _ _ _ _ hk, fun n hn => ?_, ?_, s.here.pipes, s.here.ports, s.here.sched, ?_⟩
  · simp only [State.modV, State.modGrp, State.here_modHere]; exact Core.group_modGroup_other _ _ _ _ hn
  · simp [State.modV]
  · simp [State.modV, State.modGrp, Core.modGroup, Core.setGroup]

theorem OnlyVector.modHere (s : State) (f : Core → Core)
    (h : ∀ c, f c = { c with pipes := (f c).pipes, ports := (f c).ports, sched := (f c).sched }) : OnlyVector s (s.modHere f) := by
  have hg : (f s.here).groups = s.here.groups := by rw [h]
  refine ⟨rfl, rfl, rfl, fun k hk => State.core_modCore_other _ _ _ _ hk, fun n _ => ?_, ?_, (f s.here).pipes, (f s.here).ports, (f s.here).sched, ?_⟩
  · simp [Core.group, hg]
  · simp [State.grp, Core.group, hg]
  · rw [State.here_modHere]
    calc f s.here = { s.here with pipes := (f s.here).pipes, ports := (f s.here).ports, sched := (f s.here).sched } := h _
      _ = _ := by rw [hg]

@[simp] theorem State.grp_modV (s : State) (f : VStream → VStream) : (s.modV f).grp = { s.grp with v := f s.grp.v } := by
  simp [State.modV]

theorem State.grp_modHere (s : State) (f : Core → Core) (h : ∀ c, (f c).groups = c.groups) : (s.modHere f).grp = s.grp := by
  simp [State.grp, Core.group, h]

theorem State.reserveDest_spec (s : State) (F : VForm) :
    OnlyVector s (s.reserveDest F) ∧ (s.reserveDest F).grp = s.grp ∧ (s.reserveDest F).here.pipes = s.here.pipes ∧
      (s.reserveDest F).accs = s.accs := by
  unfold State.reserveDest
  split
  · split
    · exact ⟨OnlyVector.modHere _ _ fun c => rfl, State.grp_modHere _ _ fun _ => rfl, by simp [Core.modPort], rfl⟩
    · exact ⟨OnlyVector.refl _, rfl, rfl, rfl⟩
  · exact ⟨OnlyVector.refl _, rfl, rfl, rfl⟩

theorem State.popPorts_spec (l : List Nat) : ∀ s : State,
    let t := l.foldl (fun (s : State) p => s.modHere fun c => c.modPort p Port.pop) s
    OnlyVector s t ∧ t.grp = s.grp ∧ t.here.pipes = s.here.pipes ∧ t.accs = s.accs := by
  induction l with
  | nil => exact fun s => ⟨OnlyVector.refl s, rfl, rfl, rfl⟩
  | cons p l ih =>
    intro s
    obtain ⟨h1, h2, h3, h4⟩ := ih (s.modHere fun c => c.modPort p Port.pop)
    refine ⟨(OnlyVector.modHere _ _ fun c => rfl).trans h1, h2.trans (State.grp_modHere _ _ fun _ => rfl), h3.trans (by simp [Core.modPort]), h4⟩

theorem State.takeSources_spec (s : State) (F : VForm) (a pa : Nat) :
    OnlyVector s (s.takeSources F a pa) ∧ (s.takeSources F a pa).here.pipes = s.here.pipes ∧ (s.takeSources F a pa).accs = s.accs ∧
    ∃ l, (s.takeSources F a pa).grp = { s.grp with v := { s.grp.v with latch := l } } ∧
      (F.keep = none → l = s.grp.v.latch) ∧ (F.keep = some 0 → l = none) ∧
      (∀ f, F.keep = some 1 → F.a = some f → ∃ p, l = some ⟨f, BitVec.ofNat 8192 a, p⟩) := by
  obtain ⟨h1, h2, h3, h4⟩ := State.popPorts_spec (s.grp.pops F) s
  have pipes (x : State) (f : VStream → VStream) : (x.modV f).here.pipes = x.here.pipes := by
    simp [State.modV, State.modGrp, Core.modGroup, Core.setGroup]
  unfold State.takeSources
  dsimp only
  split
  · refine ⟨h1.trans (OnlyVector.modV _ _), (pipes _ _).trans h3, h4, _, by rw [State.grp_modV, h2], ?_⟩
    simp_all
  · refine ⟨h1.trans (OnlyVector.modV _ _), (pipes _ _).trans h3, h4, _, by rw [State.grp_modV, h2], ?_⟩
    simp_all
  · refine ⟨h1, h3, h4, s.grp.v.latch, h2, ?_⟩
    simp_all

/-- What an issued micro-order leaves, from a chain of changes that touch nothing but its stream (R61, R100, R101). -/
theorem vectorIssued_of_only {s t : State} {F : VForm} (h : OnlyVector s t) (hpc : t.grp.v.pc = s.grp.v.pc + 4)
    (hn : t.grp.v.nextIssue = s.pcc + 1)
    (hp : t.here.pipes = s.here.pipes.take F.time.pipe s.pcc (F.cycles (Shape.of s.grp.v.wshape) (bankExcess (s.grp.bankReads F))).1)
    (hw : t.grp.v.wshape = s.grp.v.wshape)
    (h1 : F.keep = none → t.grp.v.latch = s.grp.v.latch) (h2 : F.keep = some 0 → t.grp.v.latch = none)
    (h3 : ∀ f, F.keep = some 1 → F.a = some f → ∃ p, t.grp.v.latch = some ⟨f, BitVec.ofNat 8192 (s.vEnv F false).1.a, p⟩) :
    VectorIssued s t F := by
  obtain ⟨_, _, e3, e4, e5, e6, p, q, r, e7⟩ := h
  refine ⟨hpc, hn, hp, h1, h2, h3, hw, ?_, ?_, ?_, ?_, ?_, ?_, ?_, e5, ?_, ?_, ?_, ?_, ?_, fun k hk => by rw [e4 k hk]; exact ⟨rfl, rfl⟩, fun a => by rw [e3]⟩
  all_goals first | rw [e6] | rw [e7]

/-- A register-only micro-order that may issue: what it leaves (R101, R102). -/
theorem vTail_spec (F : VForm) (s : State) (o l : Nat) (env : VEnv) (pa : Nat) (out sout : VOut)
    (hc : F.cycles (Shape.of s.grp.v.wshape) (bankExcess (s.grp.bankReads F)) = (o, l)) (hs : env.sh = Shape.of s.grp.v.wshape)
    (ha : env.a = (s.vEnv F false).1.a) :
    ∃ t, vTail F s o l env pa out sout = .next t ∧
      VectorLeft s t F (F.effects (Shape.of s.grp.v.wshape) s.here.job.compat out false ++
        (if s.isTwin = true then F.effects (Shape.of s.grp.v.wshape) s.here.job.compat sout true else []) ++
        (if F.changesPred = true then [.pushPred (pushedEntry out sout)] else [])) := by
  unfold vTail
  dsimp only
  refine ⟨_, rfl, ?_⟩
  rw [hs]
  generalize F.effects (Shape.of s.grp.v.wshape) s.here.job.compat out false ++
        (if s.isTwin = true then F.effects (Shape.of s.grp.v.wshape) s.here.job.compat sout true else []) ++
        (if F.changesPred = true then [VEffect.pushPred (pushedEntry out sout)] else []) = effs
  obtain ⟨a1, a2, a3, latch, a4, a5, a6, a7⟩ := State.takeSources_spec s F env.a pa
  obtain ⟨b1, b2, b3, b4⟩ := State.reserveDest_spec (s.takeSources F env.a pa) F
  generalize s.takeSources F env.a pa = s1 at *
  generalize s1.reserveDest F = s2 at *
  have only : OnlyVector s s2 := a1.trans b1
  have e1 : s2.grp = { s.grp with v := { s.grp.v with latch := latch } } := b2.trans a4
  have e2 : s2.here.pipes = s.here.pipes := b3.trans a2
  have e3 : s2.accs = s.accs := b4.trans a3
  have e4 : s2.pcc = s.pcc := only.2.1
  have e5 : s2.cur = s.cur := only.1
  let s3 := s2.leave (s.pcc + l - 1) effs
  let s4 := s3.modHere fun c => { c with pipes := c.pipes.take F.time.pipe s.pcc o }
  have c1 : OnlyVector s s4 :=
    (only.trans (OnlyVector.modV _ _)).trans (OnlyVector.modHere _ _ fun c => rfl)
  have c2 : s4.grp = { s.grp with v := { s.grp.v with latch := latch, writes := s.grp.v.writes ++ effs.map fun e => ⟨s.pcc + l - 1, e⟩ } } := by
    show (s3.modHere _).grp = _
    rw [State.grp_modHere _ _ (by intro c; rfl)]
    simp only [s3, State.leave, State.grp_modV, e1]
  have c3 : s4.here.pipes = s.here.pipes.take F.time.pipe s.pcc o := by
    simp [s4, s3, State.leave, State.modV, State.modGrp, Core.modGroup, Core.setGroup, e2]
  have c4 : s4.accs = s.accs := e3
  show VectorLeft s (s4.vAdvance (s.grp.v.pc + 4) 1) F effs
  clear_value s4
  have d1 : OnlyVector s (s4.vAdvance (s.grp.v.pc + 4) 1) :=
    (c1.trans (OnlyVector.modV _ _)).trans (OnlyVector.modHere _ _ fun c => rfl)
  have d2 : (s4.vAdvance (s.grp.v.pc + 4) 1).grp.v =
      { s4.grp.v with seg := s4.grp.v.seg.map (·.take (s4.wordAt s4.grp.v.pc)), pc := s.grp.v.pc + 4, nextIssue := s4.pcc + 1 } := by
    unfold State.vAdvance
    rw [State.grp_modHere _ _ (by intro c; rfl), State.grp_modV]
  have d3 : (s4.vAdvance (s.grp.v.pc + 4) 1).here.pipes = s4.here.pipes := by
    simp [State.vAdvance, State.modV, State.modGrp, Core.modGroup, Core.setGroup]
  have d4 : (s4.vAdvance (s.grp.v.pc + 4) 1).accs = s4.accs := rfl
  obtain ⟨p, q, r, d5⟩ := d1.2.2.2.2.2.2
  refine ⟨vectorIssued_of_only d1 ?_ ?_ ?_ ?_ ?_ ?_ ?_, d4.trans c4, by rw [d5], d1.2.2.2.1, ?_, ?_⟩
  · rw [d2]
  · rw [d2, c1.2.1]
  · rw [d3, c3, hc]
  · rw [d2, c2]
  · rw [d2, c2]; exact a5
  · rw [d2, c2]; exact a6
  · rw [d2, c2]; intro f h1 h2; rw [← ha]; exact a7 f h1 h2
  · rw [d2, c2]
  · rw [d2, c2, hc]

/-- The operands' environment works in the stream's SHAPE. -/
@[simp] theorem State.vEnv_sh (s : State) (F : VForm) (shadow : Bool) : (s.vEnv F shadow).1.sh = Shape.of s.grp.v.wshape := rfl

/-- A micro-order that is ready goes on to take its effect. -/
theorem vIssue_of_ready {F : VForm} {s : State} (h : VectorReady s F) (k : Nat → Nat → Out) :
    vIssue F s k = k (F.cycles (Shape.of s.grp.v.wshape) (bankExcess (s.grp.bankReads F))).1
      (F.cycles (Shape.of s.grp.v.wshape) (bankExcess (s.grp.bankReads F))).2 := by
  obtain ⟨_, h2, h3, h4, h5, h6, h7⟩ := h
  unfold vIssue
  dsimp only
  cases hx : s.grp.v.exposed
  · simp [check, h2, h3, h4, h5, h7 hx]
  · simp [check, h2, h3, h4, h5, h6 hx]

theorem usesPoison_clean (o : VOut) : o.usesPoison 0 0 0 = false := by simp [VOut.usesPoison]

theorem shadowPoison_clean (F : VForm) (s : State) (f : VEnv → VOut) (h : s.isTwin = true → (s.vEnv F true).2 = (0, 0, 0)) :
    s.shadowPoison F f = false := by
  unfold State.shadowPoison
  cases ht : s.isTwin
  · rfl
  · have h2 := h ht
    generalize s.vEnv F true = e at h2
    obtain ⟨env, pa, pb, pd⟩ := e
    obtain ⟨rfl, rfl, rfl⟩ : pa = 0 ∧ pb = 0 ∧ pd = 0 := by simpa using h2
    simp [usesPoison_clean]

/-- A register-only form that is ready and reads no poison completes, and leaves its result to land (R72, R102). -/
theorem vForm_completes (F : VForm) (s : State) (f : VEnv → VOut) (h : VectorReady s F) (hc : VectorClean s F) :
    ∃ t, vForm F s f = .next t ∧
      VectorLeft s t F (F.effects (Shape.of s.grp.v.wshape) s.here.job.compat (f (s.vEnv F false).1) false ++
        (if s.isTwin = true then
          F.effects (Shape.of s.grp.v.wshape) s.here.job.compat (if s.isTwin = true then f (s.vEnv F true).1 else {}) true else []) ++
        (if F.changesPred = true then
          [.pushPred (pushedEntry (f (s.vEnv F false).1) (if s.isTwin = true then f (s.vEnv F true).1 else {}))] else [])) := by
  unfold vForm onVector
  rw [check, if_pos (by simp [h.1]), vIssue_of_ready h]
  have hs : s.shadowPoison F f = false := shadowPoison_clean F s f hc.2
  generalize he : s.vEnv F false = e
  obtain ⟨env, pa, pb, pd⟩ := e
  have hz : (pa, pb, pd) = (0, 0, 0) := by have := hc.1; rw [he] at this; exact this
  obtain ⟨rfl, rfl, rfl⟩ : pa = 0 ∧ pb = 0 ∧ pd = 0 := by simpa using hz
  dsimp only
  rw [check, if_pos (by simp [usesPoison_clean, hs])]
  exact vTail_spec F s _ _ env 0 _ _ rfl (by have := s.vEnv_sh F false; rw [he] at this; exact this) (by rw [he])

/-- A register-only form has the result that its function gives. -/
theorem vectorForm_of (i : Instr) (F : VForm) (f : State → VEnv → VOut) (H : State → Prop) (P : State → VEnv → VOut → Prop)
    (hi : ∀ s, H s → VectorReady s F → exec i s = vForm F s (f s)) (hP : ∀ s v, H s → v.sh = Shape.of s.grp.v.wshape → P s v (f s v)) :
    VectorFormIf H i F P := by
  intro s hH h hc
  obtain ⟨t, h1, h2⟩ := vForm_completes F s (f s) h hc
  refine ⟨f s (s.vEnv F false).1, if s.isTwin = true then f s (s.vEnv F true).1 else {}, hP _ _ hH rfl, fun ht => ?_, fun ht => ?_, t, ?_, h2⟩
  · rw [if_pos ht]; exact hP _ _ hH rfl
  · rw [ht]; rfl
  · rw [hi s hH h, h1]

end Sys2Proof.Machine
end

