-- ==== Sys2Proof/Laws/Elements.lean ====
section
/-! SUPPORT. Laws of results element by element: the bits of a number put together place by place, and what the element-by-element
operations write. -/

namespace Sys2Proof.Machine

/-- The sum of r e in place e of w bits, for the e below a count of which p holds. -/
def placed (w : Nat) (p : Nat → Bool) (r : Nat → Nat) (n : Nat) : Nat :=
  (((List.range n).filter p).map fun e => r e * 2 ^ (w * e)).sum

theorem placed_succ (w : Nat) (p r) (n : Nat) :
    placed w p r (n + 1) = placed w p r n + if p n then r n * 2 ^ (w * n) else 0 := by
  unfold placed
  rw [List.range_succ, List.filter_append, List.map_append, List.sum_append]
  cases h : p n <;> simp [h]

theorem placed_lt (w : Nat) (p r) (hr : ∀ e, r e < 2 ^ w) : ∀ n, placed w p r n < 2 ^ (w * n)
  | 0 => by simp [placed]
  | n + 1 => by
    have ih := placed_lt w p r hr n
    rw [placed_succ]
    have h1 : (r n + 1) * 2 ^ (w * n) ≤ 2 ^ w * 2 ^ (w * n) := Nat.mul_le_mul_right _ (hr n)
    have h2 : 2 ^ (w * (n + 1)) = 2 ^ w * 2 ^ (w * n) := by rw [← Nat.pow_add]; congr 1; ring
    rw [h2]
    split
    · calc _ < 2 ^ (w * n) + r n * 2 ^ (w * n) := by omega
        _ = (r n + 1) * 2 ^ (w * n) := by ring
        _ ≤ _ := h1
    · calc _ < 2 ^ (w * n) := by omega
        _ ≤ _ := Nat.le_mul_of_pos_left _ (by positivity)

/-- The number in a place. -/
theorem placed_get (w : Nat) (p r) (hr : ∀ e, r e < 2 ^ w) (e : Nat) : ∀ n, e < n →
    placed w p r n / 2 ^ (w * e) % 2 ^ w = if p e then r e else 0
  | 0, h => absurd h (by omega)
  | n + 1, h => by
    rw [placed_succ]
    rcases Nat.lt_or_eq_of_le (Nat.lt_succ_iff.mp h) with h | h
    · rw [← placed_get w p r hr e n h]
      have : ∃ q, (if p n then r n * 2 ^ (w * n) else 0) = 2 ^ (w * e) * (2 ^ w * q) := by
        obtain ⟨d, rfl⟩ : ∃ d, n = e + 1 + d := ⟨n - (e + 1), by omega⟩
        refine ⟨if p (e + 1 + d) then r (e + 1 + d) * 2 ^ (w * d) else 0, ?_⟩
        split
        · rw [show w * (e + 1 + d) = w * e + w + w * d by ring, Nat.pow_add, Nat.pow_add]; ring
        · simp
      obtain ⟨q, hq⟩ := this
      rw [hq, Nat.add_mul_div_left _ _ (by positivity), Nat.add_mul_mod_self_left]
    · subst h
      have h1 := placed_lt w p r hr e
      split
      · rw [Nat.add_mul_div_right _ _ (by positivity), Nat.div_eq_of_lt h1, Nat.zero_add, Nat.mod_eq_of_lt (hr e)]
      · rw [Nat.add_zero, Nat.div_eq_of_lt h1, Nat.zero_mod]

theorem gather_eq (l : List VEl) : ∀ o : VOut,
    l.foldl (fun (o : VOut) (x : VEl) =>
      { o with value := o.value + x.v % pow2 x.w * pow2 x.at_, mask := o.mask + elBytes x.w x.at_,
               flags := o.flags ||| x.fl, lsat := o.lsat ||| x.ls }) o =
    { o with value := o.value + (l.map fun x => x.v % pow2 x.w * pow2 x.at_).sum,
             mask := o.mask + (l.map fun x => elBytes x.w x.at_).sum,
             flags := l.foldl (fun a x => a ||| x.fl) o.flags, lsat := l.foldl (fun a x => a ||| x.ls) o.lsat } := by
  induction l with
  | nil => intro o; simp
  | cons x l ih => intro o; rw [List.foldl_cons, ih]; simp [Nat.add_assoc]

theorem VOut.gather_spec (l : List VEl) :
    (VOut.gather l).value = (l.map fun x => x.v % 2 ^ x.w * 2 ^ x.at_).sum ∧
    (VOut.gather l).mask = (l.map fun x => (2 ^ (x.w / 8) - 1) * 2 ^ (x.at_ / 8)).sum ∧
    (VOut.gather l).flags = l.foldl (fun a x => a ||| x.fl) 0 ∧ (VOut.gather l).lsat = l.foldl (fun a x => a ||| x.ls) 0 ∧
    (VOut.gather l).pred = 0 ∧ (VOut.gather l).amax = none ∧ (VOut.gather l).ret = none := by
  unfold VOut.gather
  rw [gather_eq]
  refine ⟨?_, ?_, rfl, rfl, rfl, rfl, rfl⟩
  · simp only [Nat.zero_add]; congr 2
  · simp only [Nat.zero_add]; congr 2

theorem testBit_foldl_or {α : Type} (g : α → Nat) (k : Nat) (l : List α) : ∀ a : Nat,
    (l.foldl (fun a x => a ||| g x) a).testBit k = true ↔ a.testBit k = true ∨ ∃ x ∈ l, (g x).testBit k = true := by
  induction l with
  | nil => intro a; simp
  | cons x l ih => intro a; rw [List.foldl_cons, ih]; simp [Nat.testBit_or, or_assoc]

theorem pow2_eq (n : Nat) : pow2 n = 2 ^ n := by simp only [pow2]

/-- The bits of a mask of whole elements. -/
theorem placed_testBit (k : Nat) (hk : 0 < k) (p : Nat → Bool) (n b : Nat) (hb : b < k * n) :
    (placed k p (fun _ => 2 ^ k - 1) n).testBit b = p (b / k) := by
  have h1 : b / k < n := Nat.div_lt_of_lt_mul hb
  have h2 := placed_get k p (fun _ => 2 ^ k - 1) (fun _ => by have := Nat.two_pow_pos k; omega) (b / k) n h1
  have h3 : (placed k p (fun _ => 2 ^ k - 1) n).testBit b =
      (placed k p (fun _ => 2 ^ k - 1) n / 2 ^ (k * (b / k)) % 2 ^ k).testBit (b % k) := by
    rw [Nat.testBit_mod_two_pow, Nat.testBit_div_two_pow]
    have := Nat.div_add_mod b k
    simp only [Nat.mod_lt b hk, decide_true, Bool.true_and]
    congr 1; omega
  rw [h3, h2]
  cases p (b / k)
  · simp
  · simp [Nat.testBit_two_pow_sub_one, Nat.mod_lt b hk]

theorem el_eq (w x e : Nat) (hw : 0 < w) : el w x e = x / 2 ^ (w * e) % 2 ^ w := by
  have h : w * e + w - 1 + 1 - w * e = w := by omega
  simp only [el, fld, pow2, h]

/-- The elements of an element-by-element result; what it does not write is 0 in it. -/
theorem VEnv.map_el (v : VEnv) (w : Nat) (hw : 0 < w) (f : Nat → Nat × Nat × Nat) (e : Nat) (he : e < elCount w) :
    el w (v.map w f).value e = if v.active (w * e / 8) = true then (f e).1 % 2 ^ w else 0 := by
  have hv : (v.map w f).value = placed w (fun e => v.active (w * e / 8)) (fun e => (f e).1 % 2 ^ w) (elCount w) := by
    refine (VOut.gather_spec _).1.trans ?_
    rw [List.map_map]; rfl
  rw [el_eq _ _ _ hw, hv, placed_get w _ _ (fun _ => Nat.mod_lt _ (by positivity)) e _ he]

/-- An element-by-element result (R192). -/
theorem VEnv.map_elementwise (v : VEnv) (w : Nat) (hw : w = 8 ∨ w = 16 ∨ w = 32 ∨ w = 64) (f : Nat → Nat × Nat × Nat) :
    ElementwiseL w v (v.map w f) f := by
  obtain ⟨-, g2, g3, g4, -, g6, g7⟩ := VOut.gather_spec ((v.elems w).map fun e => { at_ := w * e, w, v := (f e).1, fl := (f e).2.1, ls := (f e).2.2 })
  have hm : (v.map w f).mask = placed (w / 8) (fun e => v.active (w * e / 8)) (fun _ => 2 ^ (w / 8) - 1) (elCount w) := by
    refine g2.trans ?_
    rw [List.map_map]
    unfold placed VEnv.elems
    congr 2
    funext e
    have : w * e / 8 = w / 8 * e := by rcases hw with h | h | h | h <;> subst h <;> omega
    simp [this]
  have hf : (v.map w f).flags = (v.elems w).foldl (fun a e => a ||| (f e).2.1) 0 := by
    refine g3.trans ?_
    rw [List.foldl_map]
  have hl : (v.map w f).lsat = (v.elems w).foldl (fun a e => a ||| (f e).2.2) 0 := by
    refine g4.trans ?_
    rw [List.foldl_map]
  refine ⟨fun e he ha => by rw [VEnv.map_el v w (by omega) f e he, if_pos ha], fun b hb => ?_, fun k => ?_, fun k => ?_, g6, g7⟩
  · have hk : 0 < w / 8 := by omega
    have hn : w / 8 * elCount w = 1024 := by rcases hw with h | h | h | h <;> subst h <;> decide
    rw [hm, placed_testBit (w / 8) hk _ _ b (by omega)]
    congr 1
    rcases hw with h | h | h | h <;> subst h <;> omega
  · rw [hf, testBit_foldl_or]
    simp [VEnv.elems, and_assoc]
  · rw [hl, testBit_foldl_or]
    simp [VEnv.elems, and_assoc]

theorem assemble_eq (w : Nat) (f : Nat → Nat) : ∀ n, assemble w f n = placed w (fun _ => true) (fun e => f e % 2 ^ w) n
  | 0 => rfl
  | n + 1 => by rw [assemble, placed_succ, assemble_eq w f n]; simp [pow2]

/-- A place of an assembled number. -/
theorem assemble_get (w : Nat) (f : Nat → Nat) (n e : Nat) (h : e < n) : assemble w f n / 2 ^ (w * e) % 2 ^ w = f e % 2 ^ w := by
  rw [assemble_eq, placed_get w _ _ (fun _ => Nat.mod_lt _ (by positivity)) e n h, if_pos rfl]

theorem assemble_testBit (f : Nat → Nat) (n e : Nat) (h : e < n) : (assemble 1 f n).testBit e = decide (f e % 2 = 1) := by
  have := assemble_get 1 f n e h
  rw [Nat.one_mul, Nat.pow_one] at this
  rw [Nat.testBit_eq_decide_div_mod_eq, this]

/-- A byte of an element-by-element result. -/
theorem byte_of_el (w : Nat) (hw : w = 8 ∨ w = 16 ∨ w = 32 ∨ w = 64) (x b : Nat) :
    x / 2 ^ (8 * b) % 256 = el w x (b / (w / 8)) / 2 ^ (8 * (b % (w / 8))) % 256 := by
  have h1 := el_eq w x (b / (w / 8)) (by omega)
  have h2 : w * (b / (w / 8)) + 8 * (b % (w / 8)) = 8 * b := by rcases hw with h | h | h | h <;> subst h <;> omega
  have h3 : 8 * (b % (w / 8)) + 8 ≤ w := by
    rcases hw with h | h | h | h <;> subst h <;> omega
  rw [h1, ← h2, Nat.pow_add, ← Nat.div_div_eq_div_mul]
  generalize x / 2 ^ (w * (b / (w / 8))) = y
  apply Nat.eq_of_testBit_eq
  intro i
  rw [show (256 : Nat) = 2 ^ 8 from rfl]
  simp only [Nat.testBit_mod_two_pow, Nat.testBit_div_two_pow]
  by_cases hi : i < 8
  · have : i + 8 * (b % (w / 8)) < w := by omega
    simp [hi, this]
  · simp [hi]

/-- The entry that a compare pushes (R195). -/
theorem VEnv.compare_spec (v : VEnv) (w : Nat) (hw : w = 8 ∨ w = 16 ∨ w = 32 ∨ w = 64) (f : Nat → Bool × Nat) :
    ComparesTo w v (v.compare w f) f := by
  obtain ⟨-, -, h3, h4, h6, h7⟩ := VEnv.map_elementwise v w hw fun e => (if (f e).1 then pow2 w - 1 else 0, (f e).2, 0)
  refine ⟨fun b hb => ?_, rfl, rfl, h3, ?_, h6, h7⟩
  rotate_left
  · refine Nat.eq_of_testBit_eq fun k => ?_
    have h5 := h4 k
    simp only [Nat.zero_testBit, Bool.false_eq_true, and_false, exists_false, iff_false, Bool.not_eq_true] at h5 ⊢
    exact h5
  have he : b / (w / 8) < elCount w := by rcases hw with h | h | h | h <;> subst h <;> simp [elCount] <;> omega
  have hat : w * (b / (w / 8)) / 8 = b / (w / 8) * (w / 8) := by rcases hw with h | h | h | h <;> subst h <;> omega
  show (assemble 1 _ 1024).testBit b = _
  rw [assemble_testBit _ _ _ hb]
  have bit : ∀ V : Nat, decide ((if V = 0 then 0 else 1) % 2 = 1) = decide (V ≠ 0) := fun V => by by_cases h : V = 0 <;> simp [h]
  refine (bit ((v.map w fun e => (if (f e).1 then pow2 w - 1 else 0, (f e).2, 0)).value / 2 ^ (8 * b) % 256)).trans ?_
  rw [byte_of_el w hw, VEnv.map_el _ _ (by omega) _ _ he, hat]
  cases v.active (b / (w / 8) * (w / 8))
  · simp
  · cases (f (b / (w / 8))).1
    · simp
    · have h4 : 8 * (b % (w / 8)) < w := by rcases hw with h | h | h | h <;> subst h <;> omega
      have : ((pow2 w - 1) % 2 ^ w / 2 ^ (8 * (b % (w / 8))) % 256) ≠ 0 := by
        intro h0
        have h5 : ((2 ^ w - 1) / 2 ^ (8 * (b % (w / 8)))).testBit 0 = true := by
          rw [Nat.testBit_div_two_pow, Nat.testBit_two_pow_sub_one]; simp [h4]
        have h6 : (pow2 w - 1) % 2 ^ w = 2 ^ w - 1 := Nat.mod_eq_of_lt (Nat.sub_lt (Nat.two_pow_pos w) Nat.one_pos)
        rw [h6] at h0
        rw [Nat.testBit_zero] at h5
        have h7 := of_decide_eq_true h5
        generalize (2 ^ w - 1) / 2 ^ (8 * (b % (w / 8))) = y at h0 h7
        omega
      simpa using this

end Sys2Proof.Machine
end

