-- ==== Sys2Proof/Laws/Events.lean ====
section
/-! SUPPORT. What the shared operations of events do: an effect at a focus, a change of a core that exists, the agenda, an
access that is performed, a device's write. -/

namespace Sys2Proof.Machine

/-! ### The agenda -/

/-- An event that is put on the agenda is there. -/
theorem mem_putEvent (l : List (Nat × Event)) (t : Nat) (e : Event) (x : Nat × Event) :
    x ∈ putEvent l t e ↔ x = (t, e) ∨ x ∈ l := by
  induction l with
  | nil => simp [putEvent]
  | cons p r ih =>
    obtain ⟨u, f⟩ := p
    simp only [putEvent]
    split
    · simp
    · simp only [List.mem_cons, ih]; tauto

theorem State.mem_schedule (s : State) (t : Nat) (e : Event) : (t, e) ∈ (s.schedule t e).agenda :=
  (mem_putEvent _ _ _ _).2 (.inl rfl)

theorem State.mem_schedule_of_mem (s : State) (t : Nat) (e : Event) (x : Nat × Event) (h : x ∈ s.agenda) :
    x ∈ (s.schedule t e).agenda := (mem_putEvent _ _ _ _).2 (.inr h)

/-! ### An effect at a focus -/

/-- What an effect at a focus leaves is what it leaves of the state with that focus, but for the focus itself. -/
theorem State.at_eq (s : State) (f : Focus) (g : State → State) : s.at f g = { g { s with cur := f } with cur := s.cur } := rfl

@[simp] theorem State.at_mem (s : State) (f : Focus) (g : State → State) : (s.at f g).mem = (g { s with cur := f }).mem := rfl
@[simp] theorem State.at_accs (s : State) (f : Focus) (g : State → State) : (s.at f g).accs = (g { s with cur := f }).accs := rfl
@[simp] theorem State.at_core (s : State) (f : Focus) (g : State → State) (k : Nat) : (s.at f g).core k = (g { s with cur := f }).core k := rfl
@[simp] theorem State.at_ctl (s : State) (f : Focus) (g : State → State) (k : Nat) : (s.at f g).ctl k = (g { s with cur := f }).ctl k := rfl
@[simp] theorem State.at_cores (s : State) (f : Focus) (g : State → State) : (s.at f g).cores = (g { s with cur := f }).cores := rfl
@[simp] theorem State.at_agenda (s : State) (f : Focus) (g : State → State) : (s.at f g).agenda = (g { s with cur := f }).agenda := rfl
@[simp] theorem State.at_dies (s : State) (f : Focus) (g : State → State) : (s.at f g).dies = (g { s with cur := f }).dies := rfl

/-! ### A change of a core that exists -/

@[simp] theorem State.modLive_mem (s : State) (k : Nat) (f : Core → Core) : (s.modLive k f).mem = s.mem := by
  unfold State.modLive; split <;> rfl
@[simp] theorem State.modLive_accs (s : State) (k : Nat) (f : Core → Core) : (s.modLive k f).accs = s.accs := by
  unfold State.modLive; split <;> rfl
@[simp] theorem State.modLive_agenda (s : State) (k : Nat) (f : Core → Core) : (s.modLive k f).agenda = s.agenda := by
  unfold State.modLive; split <;> rfl

theorem State.modLive_of_has (s : State) (k : Nat) (f : Core → Core) (h : s.cores.has k = true) : s.modLive k f = s.modCore k f := by
  simp [State.modLive, h]

/-! ### An access that is performed -/

/-- The network's flits change no register, no memory and no event. -/
theorem replyLate_keeps (s : State) (a : Access) :
    (s.replyLate a).1.accs = s.accs ∧ (s.replyLate a).1.mem = s.mem ∧ (s.replyLate a).1.cores = s.cores ∧
      (s.replyLate a).1.control = s.control ∧ (s.replyLate a).1.agenda = s.agenda := by
  unfold State.replyLate
  split <;> exact ⟨rfl, rfl, rfl, rfl, rfl⟩

/-- The access stands in the table, performed, and its answer is on the agenda, as late as the network makes it (R120); nothing
else but the agenda and the network changes. -/
theorem settle_spec (s : State) (id : Nat) (a : Access) :
    (s.settle id a).accs = s.accs.set id { a with performed := true } ∧ (s.settle id a).mem = s.mem ∧
    (s.settle id a).cores = s.cores ∧ (s.settle id a).control = s.control ∧
    (a.tag = none → (s.pcc + (a.replyAt - a.performAt) + (s.replyLate a).2, a.ending id) ∈ (s.settle id a).agenda) := by
  obtain ⟨h1, h2, h3, h4, -⟩ := replyLate_keeps s a
  unfold State.settle
  dsimp only
  split
  · rename_i n g h
    exact ⟨rfl, rfl, rfl, rfl, fun h' => by rw [h] at h'; cases h'⟩
  · exact ⟨congrArg (fun x : FMap Access => x.set id _) h1, h2, h3, h4, fun _ => State.mem_schedule _ _ _⟩

theorem settle_get (s : State) (id : Nat) (a : Access) : (s.settle id a).accs.get id = some { a with performed := true } := by
  rw [(settle_spec s id a).1, FMap.get_set_same]

/-! ### Writes of the hub and the host -/

/-- What a device's write can do: nothing where no home answers, else it writes its bytes. -/
theorem State.deviceWrite_mem (s : State) (pa size v : Nat) :
    (s.deviceWrite pa size v).mem = if (s.noHome pa).isSome then s.mem else s.mem.writeN pa size v := by
  unfold State.deviceWrite
  split <;> rfl

/-- The canonical form of memory stays. -/
theorem State.wf_deviceWrite (s : State) (pa size v : Nat) (h : s.mem.wf = true) : (s.deviceWrite pa size v).mem.wf = true := by
  rw [State.deviceWrite_mem]
  split
  · exact h
  · exact Memory.wf_writeN s.mem pa size v h

/-- A device's write changes no byte but its own. -/
theorem State.read_deviceWrite_outside (s : State) (pa size v a : Nat) (h : a < pa ∨ pa + size ≤ a) :
    Memory.read (s.deviceWrite pa size v).mem a = Memory.read s.mem a := by
  rw [State.deviceWrite_mem]
  split
  · rfl
  · exact Memory.read_writeN_outside s.mem pa size v a h

theorem State.deviceWrite_cores (s : State) (pa size v : Nat) : (s.deviceWrite pa size v).cores = s.cores := by
  unfold State.deviceWrite
  split <;> rfl

theorem State.deviceWrite_hub (s : State) (pa size v : Nat) : (s.deviceWrite pa size v).hub = s.hub := by
  unfold State.deviceWrite
  split <;> rfl

/-- A property of states that every write of a device keeps and that no count of free values changes holds behind a written image. -/
theorem State.writeImage_keeps (P : State → Prop) (hw : ∀ s pa size v, P s → P (s.deviceWrite pa size v)) (ht : ∀ s, P s → P s.tick)
    (s : State) (core : Nat) (h : P s) : P (s.writeImage core) := by
  refine ht _ ?_
  generalize Config.freeImage s.free = l
  generalize s.fabric.coord * pow2 44 + 0x10000000000 + dieOf core * 0x800000000 + Config.freeVictim s.free % 393202 * 65536 = base
  induction l generalizing s with
  | nil => exact h
  | cons x l ih => exact ih (s.deviceWrite (base + 32 * (x.1 % 27136)) 32 x.2) (hw _ _ _ _ h)

theorem State.wf_writeImage (s : State) (core : Nat) (h : s.mem.wf = true) : (s.writeImage core).mem.wf = true :=
  State.writeImage_keeps (fun s => s.mem.wf = true) State.wf_deviceWrite (fun _ h => h) s core h

theorem State.writeImage_cores (s : State) (core : Nat) : (s.writeImage core).cores = s.cores :=
  State.writeImage_keeps (fun t => t.cores = s.cores) (fun t _ _ _ h => (State.deviceWrite_cores t _ _ _).trans h) (fun _ h => h) s core rfl

end Sys2Proof.Machine
end

