-- ==== Sys2Proof/Laws/Objects.lean ====
section
/-! SUPPORT. The images of code objects are memories in the canonical form, and a page of an image that is put in place
keeps that form of memory. -/

namespace Sys2Proof.Machine

theorem FMap.wf_iff_pairwise {α : Type} (m : FMap α) : m.wf = true ↔ m.Pairwise fun p q => p.1 < q.1 := by
  induction m with
  | nil => simp [FMap.wf]
  | cons p m ih => rw [FMap.wf_cons, List.pairwise_cons, ih]; rfl

theorem Memory.wf_iff_pairwise (m : Memory) :
    m.wf = true ↔ (List.Pairwise (fun p q : Nat × BitVec 8 => p.1 < q.1) m) ∧ ∀ p ∈ m, p.2 ≠ 0 := by
  rw [Memory.wf_iff, FMap.wf_iff_pairwise]

/-- The memory of a list of bytes is in the canonical form. -/
theorem Memory.wf_ofBytes (l : List (BitVec 8)) : (Memory.ofBytes l).wf = true := by
  rw [Memory.wf_iff_pairwise]
  refine ⟨?_, by
    intro p hp
    simp only [Memory.ofBytes, List.mem_map, List.mem_filter, decide_eq_true_eq] at hp
    obtain ⟨q, ⟨_, h⟩, rfl⟩ := hp
    exact h⟩
  rw [Memory.ofBytes, List.pairwise_map]
  refine List.Pairwise.filter _ ?_
  have h : (l.zipIdx.map Prod.snd).Pairwise (· < ·) := by
    rw [List.zipIdx_map_snd]; exact List.pairwise_lt_range'
  exact List.pairwise_map.mp h

/-- Replacing bytes by those of another memory keeps the canonical form. -/
theorem Memory.wf_replace (m src : Memory) (a n b : Nat) (hm : m.wf = true) (hs : src.wf = true) :
    (Memory.replace m a n src b).wf = true := by
  rw [Memory.wf_iff_pairwise] at *
  obtain ⟨hm, hm0⟩ := hm
  obtain ⟨hs, hs0⟩ := hs
  constructor
  · rw [Memory.replace, List.pairwise_append, List.pairwise_append]
    refine ⟨⟨hm.filter _, ?_, ?_⟩, hm.filter _, ?_⟩
    · rw [List.pairwise_map, List.pairwise_filter]
      refine hs.imp ?_
      intro x y hxy hx hy
      simp at hx hy ⊢
      omega
    · intro x hx y hy
      simp at hx hy
      obtain ⟨u, v, ⟨_, _, _⟩, rfl⟩ := hy
      simp; omega
    · intro x hx y hy
      simp at hx hy
      rcases hx with ⟨_, h⟩ | ⟨u, v, ⟨_, _, _⟩, rfl⟩
      · omega
      · simp; omega
  · intro p hp
    simp only [Memory.replace, List.mem_append, List.mem_filter, List.mem_map] at hp
    rcases hp with (⟨h, _⟩ | ⟨q, ⟨h, _⟩, rfl⟩) | ⟨h, _⟩
    · exact hm0 p h
    · exact hs0 q h
    · exact hm0 p h

end Sys2Proof.Machine
end

