-- ==== Sys2Proof/Tests/Slice0.lean ====
section
/-! SUPPORT. Tests of the model: well-formed and ill-formed terms, one decoded word of every instruction, the spec's worked
examples, and for every statement a state and operands that meet its hypotheses, clause by clause. -/

open Sys2Proof Sys2Proof.Machine

namespace Sys2Proof.Tests

set_option Elab.async false

/-! ### Small states -/

/-- Core 0 with one active group in slot 0. -/
def oneGroup (f : Group → Group) : Core :=
  { Core.empty with groups := [(0, f { Group.empty with status := .active })]
                    sched := { Sched.reset with active := Sched.reset.active.set 0 (some 0) } }

/-- A machine of that core, with its die out of reset, in a turn of a stream of it. -/
def onCore (stream : Stream) (c : Core) : State :=
  { State.reset with cores := [(0, c)], dies := [(0, { Die.reset with inReset := false })], cur := ⟨0, 0, stream⟩ }

/-- A machine with one active group, in its turn. -/
def inGroup (f : Group → Group) : State := onCore .group (oneGroup f)

/-- The group with values in its first registers: x1, x2, and so on. -/
def withX (l : List Word) (g : Group) : Group :=
  { g with sc := { g.sc with rf := { g.sc.rf with x := Vector.ofFn fun i : Fin 32 => if i.val = 0 then 0 else l.getD (i.val - 1) 0 } } }

/-- A twin group: its second register file is the first one. -/
def asTwin (g : Group) : Group := { g with sc := { g.sc with twin := some g.sc.rf } }

/-- A machine in a turn of a group with these registers. -/
def xs (l : List Word) : State := inGroup (withX l)

/-- A machine in a turn of control-die core 0 with these registers. -/
def control (l : List Word) : State :=
  { State.reset with
    cur := ⟨0, 0, .control⟩
    control := State.reset.control.set 0 { Control.reset with sc := (withX l Group.empty).sc, stopped := false } }

/-- A turn of the eft stream. -/
def eft : State := onCore .eft (oneGroup id)

/-- Core 0 with a page of die memory at virtual address 0, with a permission. -/
def mapped (perm : Nat) (c : Core) : Core := { c with mem := { c.mem with tlb := [⟨0, 0, 0, 0x10000000000, perm⟩] } }

/-- The translation of that page. -/
def page (perm : Nat) : TlbEntry := ⟨0, 0, 0, 0x10000000000, perm⟩

/-- A word in die memory, at an offset of the page. -/
def holding (off : Nat) (w : Nat) (s : State) : State := { s with mem := Memory.writeN s.mem (0x10000000000 + off) 4 w }

/-- What a next state shows. -/
def after {α : Type} (o : Host.Outcome State Fault Refusal) (f : State → α) (d : α) : α :=
  match o with
  | .next t => f t
  | _ => d

/-! ### The spec's worked examples -/

/-- The words of the examples of chapters 2, 3 and 5 to 7. -/
theorem test_example_words :
    decode .scalar 0x04642800 = .ok (.add 3 4 5 0) ∧ decode .scalar 0x3C43820B = .ok (.bfxS 2 3 8 11) ∧
    decode .scalar 0x48200200 = .ok (.lih 1 0x200) ∧ decode .scalar 0x28211234 = .ok (.ori 1 1 0x1234) ∧
    decode .scalar 0x443FFFFF = .ok (.li 1 0x1FFFFF) ∧ decode .scalar 0x08C74438 = .ok (.fmac 6 7 8 1 0) ∧
    decode .scalar 0x68E48002 = .ok (.st 7 4 2 0 2) ∧ decode .scalar 0x808533E0 = .ok (.amoCas 4 5 6 3 0) ∧
    decode .scalar 0x808533E1 = .illegalEncoding ∧ decode .scalar 0x80843005 = .illegalEncoding ∧
    decode .scalar 0x90901FFD = .ok (.bne 4 0 0x1FFD) ∧ decode .scalar 0x0FC50000 = .ok (.jalr 30 5 0) ∧
    decode .scalar 0x04211000 = .ok (.add 1 1 2 0) ∧ decode .scalar 0xB0053000 = .ok (.vrun 5 6 0) ∧
    decode .scalar 0xA11C0003 = .ok (.cwaitCont 1 7 3) ∧ decode .scalar 0x60E4DFFE = .ok (.ld 7 4 3 1 0xFFE) ∧
    decode .scalar 0x60000B45 = .ok (.ld 0 0 0 0 0xB45) ∧ decode .scalar 0xB0053128 = .ok (.crun 5 6 2 0) ∧
    decode .scalar 0xB0800008 = .ok (.vwait 4 0) ∧ decode .vector 0x02085990 = .ok (.vaddFp 1 2 0b110011 0 1 0) ∧
    decode .vector 0x062A408D = .ok (.vmulFp 5 0b010010 1 0 0 0b1101) ∧ decode .vector 0xF6000000 = .ok .vend ∧
    decode .vector 0x21A66109 = .ok (.vaddInt 0b110100 0b110011 2 0 0 0b1001) ∧
    decode .vector 0x68002100 = .ok (.vceqInt 1 2 0 0 0) ∧ decode .vector 0x88185830 = .ok (.vslide 3 2 3 3 0) ∧
    decode .vector 0x8C282148 = .ok (.vmatch 5 1 2 2 0 8) := by
  repeat' (first | rfl | refine And.intro ?_ ?_)

/-- The value that a form leaves in x3, with x1 and x2. -/
noncomputable def x3 (i : Instr) (a b : Word) : Word := after (exec i (xs [a, b])) (fun t => t.x 3) 0xDEAD

/-- The FLAGS that a form leaves, with x1 and x2. -/
noncomputable def flagsOf (i : Instr) (a b : Word) : BitVec 32 := after (exec i (xs [a, b])) (fun t => t.rf.flags) 0xDEAD

/-- Chapter 5, after R124: shifts, products and quotients. -/
theorem test_integer_examples :
    x3 (.sra 3 1 2 0) 0xFFFFFFFFFFFFFF00 4 = 0xFFFFFFFFFFFFFFF0 ∧
    x3 (.mulh 3 1 2 0) 0x8000000000000000 2 = 0xFFFFFFFFFFFFFFFF ∧ x3 (.mul 3 1 2 0) 0x8000000000000000 2 = 0 ∧
    x3 (.mulhu 3 1 2 0) 0x8000000000000000 2 = 1 ∧ x3 (.div 3 1 2 0) 0xFFFFFFFFFFFFFFF9 2 = 0xFFFFFFFFFFFFFFFD ∧
    x3 (.rem 3 1 2 0) 0xFFFFFFFFFFFFFFF9 2 = 0xFFFFFFFFFFFFFFFF ∧ x3 (.srlw 3 1 2 0) 0x80000010 4 = 0x08000001 ∧
    x3 (.sraw 3 1 2 0) 0x80000010 4 = 0xFFFFFFFFF8000001 := by
  repeat' (first | apply And.intro | decide +kernel)

/-- R35: a division by zero, and of the most negative number by -1. -/
theorem test_divide_corners :
    x3 (.div 3 1 2 0) 7 0 = 0xFFFFFFFFFFFFFFFF ∧ x3 (.rem 3 1 2 0) 7 0 = 7 ∧
    x3 (.div 3 1 2 0) 0x8000000000000000 0xFFFFFFFFFFFFFFFF = 0x8000000000000000 ∧
    x3 (.rem 3 1 2 0) 0x8000000000000000 0xFFFFFFFFFFFFFFFF = 0 ∧ x3 (.divu 3 1 2 0) 7 0 = 0xFFFFFFFFFFFFFFFF ∧ x3 (.remu 3 1 2 0) 7 0 = 7 := by
  repeat' (first | apply And.intro | decide +kernel)

/-- Chapter 5, after R127 and R128: bfx.s and the constant of lih and ori. -/
theorem test_constant_examples :
    x3 (.bfxS 3 1 8 11) 0xABCD12 0 = 0xFFFFFFFFFFFFFBCD ∧ x3 (.lih 3 0x200) 0 0 = 0x0010000000000000 ∧
    x3 (.ori 3 1 0x1234) 0x0010000000000000 0 = 0x0010000000001234 ∧ x3 (.li 3 0x1FFFFF) 0 0 = 0xFFFFFFFFFFFFFFFF := by
  repeat' (first | apply And.intro | decide +kernel)

/-- The value that fsub.f64 of x1 and x1 leaves in x3 under a rounding mode. -/
noncomputable def fsubUnder (rm : BitVec 32) (a : Word) : Word :=
  after (exec (.fsub 3 1 1 1 0) (inGroup fun g => let h := withX [a] g
    { h with sc := { h.sc with rf := { h.sc.rf with rmode := rm } } })) (fun t => t.x 3) 0xDEAD

/-- Chapter 5, after R130: 1.5 - 1.5 under RNE and RDN (R34), 1.0 / +0, the minimum of a NaN, 2^63 to integer. -/
theorem test_float_examples :
    fsubUnder 0 0x3FF8000000000000 = 0 ∧ fsubUnder 3 0x3FF8000000000000 = 0x8000000000000000 ∧
    x3 (.fdiv 3 1 2 0 0) 0x3F800000 0 = 0x7F800000 ∧ flagsOf (.fdiv 3 1 2 0 0) 0x3F800000 0 = 8 ∧
    x3 (.fmin 3 1 2 0 0) 0x7FC00000 0x40000000 = 0x40000000 ∧ flagsOf (.fmin 3 1 2 0 0) 0x7FC00000 0x40000000 = 0 ∧
    x3 (.ftoi 3 1 0 0) 0x5F000000 0 = 0x7FFFFFFFFFFFFFFF ∧ flagsOf (.ftoi 3 1 0 0) 0x5F000000 0 = 16 := by
  repeat' (first | apply And.intro | decide +kernel)

/-- R22, R23 and the examples beside them: table entries, the images of two codes, a product. -/
theorem test_log_examples :
    table16 136 = 0xB8FBAF ∧ table16 106 = 0xAA8D26 ∧ ((LFmt.l8.read 0x7F).1.toLinear .f32 .rne 0).bits = 0x436AC0C7 ∧
    ((LFmt.l8.read 0x81).1.toLinear .f32 .rne 0).bits = 0xBB8B95C2 ∧
    (lnsProduct (LFmt.l8.read 0x4A).1 (LFmt.l8.read 0xC3).1 (-40) 16).1 = 0xC038FBAF ∧
    ((l4xPair 0x38).1.toLinear .f32 .rne 0).bits = 0x413504F3 ∧ (l4xPair 0x38).2.1 = .zero ∧ (l4xPair 0x88).2.2 = true := by
  repeat' (first | apply And.intro | decide +kernel)

/-- R25's example: four halves join an accumulator of 2^24 in one step. -/
theorem test_accumulate_example : accStep [0x4B800000, 0x3F000000, 0x3F000000, 0x3F000000, 0x3F000000] = (0x4B800001, 0) := by
  decide +kernel

/-- The rows of R29's table. -/
theorem test_to_log_table :
    let l8 (x : Nat) (sc : Int) (u : Bool) := LFmt.l8.logCode (Fmt.f32.read x) sc u
    let l4 (x : Nat) (sc : Int) := LFmt.l4.logCode (Fmt.f32.read x) sc false
    l8 0x3F800000 0 false = ⟨0x40, 0, 0⟩ ∧ l8 0x40400000 0 false = ⟨0x4D, 0, 0⟩ ∧ l8 0x40400000 128 false = ⟨0x49, 0, 0⟩ ∧
    l8 0xBDCCCCCD 0 false = ⟨0xA5, 0, 0⟩ ∧ l8 0x43700000 0 false = ⟨0x7F, 0, 0⟩ ∧ l8 0x43960000 0 false = ⟨0x7F, 0, lsatOV⟩ ∧
    l8 0x3B83126F 0 false = ⟨0, 0, lsatUF⟩ ∧ l8 0x3B83126F 0 true = ⟨1, 0, lsatUF⟩ ∧ l8 0x7F800000 0 false = ⟨0x7F, 0, lsatOV⟩ ∧
    l8 0x80000000 0 false = ⟨0, 0, 0⟩ ∧ l8 0x7FC00000 0 false = ⟨0x80, 0, 0⟩ ∧ l8 0x7FA00000 0 false = ⟨0x80, 16, 0⟩ ∧
    l8 0x3F800000 16 false = ⟨0x40, 0, 0⟩ ∧ l4 0x40000000 64 = ⟨6, 0, 0⟩ ∧ l4 0x3E99999A 0 = ⟨1, 0, 0⟩ ∧ l4 0x40600000 0 = ⟨7, 0, lsatOV⟩ ∧
    l4 0x7FC00000 0 = ⟨0, 16, 0⟩ ∧ LFmt.l16.logCode (Fmt.f32.read 0x40400000) 0 false = ⟨0x4196, 0, 0⟩ ∧
    LFmt.l16.logCode (Fmt.f32.read 0x40400000) (-256) false = ⟨0x4296, 0, 0⟩ ∧
    logCode4x (Fmt.f32.read 0x41400000) (Fmt.f32.read 0x3E99999A) 0 false = ⟨0x38, 0, lsatLOSS⟩ ∧
    logCode4x (Fmt.f32.read 0x41400000) (Fmt.f32.read 0xC2200000) 0 false = ⟨0x8F, 0, lsatLOSS ||| lsatOV⟩ := by
  repeat' (first | apply And.intro | decide +kernel)

/-- Chapter 7, after R198: vrcp.f32 and vlog2.f32 of 3.0. -/
theorem test_special_examples :
    Fmt.f32.rcp .rne 0x40400000 = ⟨0x3EAA8D26, 0⟩ ∧ (Fmt.f32.log2 .rne 0x40400000).bits = 0x3FCB0000 := by
  repeat' (first | apply And.intro | decide +kernel)

/-- R114: the check value of the signature's procedure, over the bytes of 123456789. -/
theorem test_signature :
    ([0x31, 0x32, 0x33, 0x34, 0x35, 0x36, 0x37, 0x38, 0x39].foldl crcByte 0xFFFFFFFF) ^^^ 0xFFFFFFFF = 0xE3069283 := by decide +kernel

/-- R158's example: counts compare modulo 2^32. -/
theorem test_counts : countReached 0xFFFFFFFE 0x00000001 = false ∧ countReached 0x00000001 0x00000001 = true ∧ countReached 0xFFFFFFFE 0xFFFFFFF0 = true := by
  decide

/-! ### Well-formed instructions -/

/-- Every check has a term that it refuses, and a neighbour that it accepts. -/
theorem test_ill_formed :
    (Instr.ld 1 2 3 3 0).wf = false ∧ (Instr.ldu 1 2 3 0 0).wf = false ∧ (Instr.st 1 2 3 3 0).wf = false ∧ (Instr.ldsu 1 2 3 0).wf = false ∧
    (Instr.ldq 1 2 0 3 0).wf = false ∧ (Instr.amoAdd 1 2 3 1 0).wf = false ∧ (Instr.amoAdd 1 2 3 2 3).wf = false ∧ (Instr.crun 1 2 1 0).wf = false ∧
    (Instr.crun 1 2 6 0).wf = false ∧ (Instr.cwait 1 0 0).wf = false ∧ (Instr.phase 5).wf = false ∧ (Instr.phaseE 2).wf = false ∧
    (Instr.fence 0).wf = false ∧ (Instr.tlbinv 1 3).wf = false ∧ (Instr.ccopy 6 0 0 0 0).wf = false ∧ (Instr.ccopy 0 4 0 8 0).wf = false ∧
    (Instr.cfill 7 0 0 0 0).wf = false ∧ (Instr.csig 0 3 0).wf = false ∧ (Instr.mseg 0).wf = false ∧ (Instr.vaddFp 1 2 3 3 0 0).wf = false ∧
    (Instr.vaddFp 1 2 3 0 0 7).wf = false ∧ (Instr.vrcp 1 2 1 0 0).wf = false ∧ (Instr.vlmul 1 2 3 3 0 0).wf = false ∧
    (Instr.vld 1 3 0 0).wf = false ∧ (Instr.vupdAnd 1 0 0 2 0 0).wf = false ∧ (Instr.vamoCas 1 2 0 0 3 0 0).wf = false ∧ (Instr.vseg 0).wf = false := by
  repeat' (first | apply And.intro | decide +kernel)

theorem test_well_formed :
    (Instr.ld 1 2 3 2 0).wf = true ∧ (Instr.ldu 1 2 2 0 0).wf = true ∧ (Instr.amoAdd 1 2 3 2 2).wf = true ∧ (Instr.crun 1 2 2 0).wf = true ∧
    (Instr.crun 1 2 5 0).wf = true ∧ (Instr.phase 4).wf = true ∧ (Instr.phaseE 3).wf = true ∧ (Instr.fence 1).wf = true ∧
    (Instr.tlbinv 1 2).wf = true ∧ (Instr.ccopy 5 4 15 7 0).wf = true ∧ (Instr.mseg 1).wf = true ∧ (Instr.vaddFp 1 2 3 2 0 8).wf = true ∧
    (Instr.vrcp 1 2 2 0 0).wf = true ∧ (Instr.vupdAnd 1 0 0 1 0 0).wf = true := by
  repeat' (first | apply And.intro | decide +kernel)

/-- What an ill-formed term would encode to, and words whose MBZ bits are not zero, decode to none (R71, R72). -/
theorem test_refused_words :
    decode .scalar (encode (.ld 1 2 3 3 0)) = .illegalEncoding ∧ decode .scalar (encode (.amoAdd 1 2 3 1 0)) = .illegalEncoding ∧
    decode .scalar (encode (.phase 5)) = .illegalEncoding ∧ decode .scalar (encode (.fence 0)) = .illegalEncoding ∧
    decode .vector (encode (.vaddFp 1 2 3 3 0 0)) = .illegalEncoding ∧ decode .vector (encode (.vaddFp 1 2 3 0 0 7)) = .illegalEncoding ∧
    decode .vector (encode (.vrcp 1 2 1 0 0)) = .illegalEncoding ∧ decode .vector (encode (.vseg 0)) = .illegalEncoding ∧
    decode .matrix (encode (.mseg 0)) = .illegalEncoding ∧ decode .clicker (encode (.ccopy 6 0 0 0 0)) = .illegalEncoding ∧
    decode .scalar 0x9C000001 = .illegalEncoding ∧ decode .clicker 0x18000001 = .illegalEncoding := by
  repeat' (first | apply And.intro | decide +kernel)

/-! ### Decoding: one word of every instruction, written out from its encoding -/

theorem test_decode_integer :
    decode .scalar 0b00000110101010101001100000000001 = .ok (.add 21 10 19 1) ∧
    decode .scalar 0b00000110101010101001100000001001 = .ok (.sub 21 10 19 1) ∧
    decode .scalar 0b00000110101010101001100000010001 = .ok (.and 21 10 19 1) ∧
    decode .scalar 0b00000110101010101001100000011001 = .ok (.or 21 10 19 1) ∧
    decode .scalar 0b00000110101010101001100000100001 = .ok (.xor 21 10 19 1) ∧
    decode .scalar 0b00000110101010101001100000101001 = .ok (.andn 21 10 19 1) ∧
    decode .scalar 0b00000110101010101001100000110001 = .ok (.sll 21 10 19 1) ∧
    decode .scalar 0b00000110101010101001100000111001 = .ok (.srl 21 10 19 1) ∧
    decode .scalar 0b00000110101010101001100001000001 = .ok (.sra 21 10 19 1) ∧
    decode .scalar 0b00000110101010101001100001001001 = .ok (.rotr 21 10 19 1) ∧
    decode .scalar 0b00000110101010101001100001010001 = .ok (.slt 21 10 19 1) ∧
    decode .scalar 0b00000110101010101001100001011001 = .ok (.sltu 21 10 19 1) ∧
    decode .scalar 0b00000110101010101001100001100001 = .ok (.min 21 10 19 1) ∧
    decode .scalar 0b00000110101010101001100001101001 = .ok (.max 21 10 19 1) ∧
    decode .scalar 0b00000110101010101001100001110001 = .ok (.minu 21 10 19 1) ∧
    decode .scalar 0b00000110101010101001100001111001 = .ok (.maxu 21 10 19 1) ∧
    decode .scalar 0b00000110101010101001100010000001 = .ok (.mul 21 10 19 1) ∧
    decode .scalar 0b00000110101010101001100010001001 = .ok (.mulh 21 10 19 1) ∧
    decode .scalar 0b00000110101010101001100010010001 = .ok (.mulhu 21 10 19 1) ∧
    decode .scalar 0b00000110101010101001100010011001 = .ok (.div 21 10 19 1) ∧
    decode .scalar 0b00000110101010101001100010100001 = .ok (.divu 21 10 19 1) ∧
    decode .scalar 0b00000110101010101001100010101001 = .ok (.rem 21 10 19 1) ∧
    decode .scalar 0b00000110101010101001100010110001 = .ok (.remu 21 10 19 1) ∧
    decode .scalar 0b00000110101010101001100011000001 = .ok (.addw 21 10 19 1) ∧
    decode .scalar 0b00000110101010101001100011001001 = .ok (.subw 21 10 19 1) ∧
    decode .scalar 0b00000110101010101001100011010001 = .ok (.mulw 21 10 19 1) ∧
    decode .scalar 0b00000110101010101001100011011001 = .ok (.sllw 21 10 19 1) ∧
    decode .scalar 0b00000110101010101001100011100001 = .ok (.srlw 21 10 19 1) ∧
    decode .scalar 0b00000110101010101001100011101001 = .ok (.sraw 21 10 19 1) ∧
    decode .scalar 0b00000110101010100000000100000110 = .ok (.clz 21 10 6) ∧
    decode .scalar 0b00000110101010100000000100001110 = .ok (.ctz 21 10 6) ∧
    decode .scalar 0b00000110101010100000000100010110 = .ok (.popc 21 10 6) ∧
    decode .scalar 0b00000110101010100000000100011110 = .ok (.bswap 21 10 6) ∧
    decode .scalar 0b00000110101010101001100101000001 = .ok (.sel 21 10 19 1) := by
  repeat' (first | rfl | refine And.intro ?_ ?_)

theorem test_decode_float :
    decode .scalar 0b00001010101010101001110000000101 = .ok (.fadd 21 10 19 1 5) ∧
    decode .scalar 0b00001010101010101001110000001101 = .ok (.fsub 21 10 19 1 5) ∧
    decode .scalar 0b00001010101010101001110000010101 = .ok (.fmul 21 10 19 1 5) ∧
    decode .scalar 0b00001010101010101001110000011101 = .ok (.fdiv 21 10 19 1 5) ∧
    decode .scalar 0b00001010101010100000000000100001 = .ok (.fsqrt 21 10 0 1) ∧
    decode .scalar 0b00001010101010101001110000101101 = .ok (.fmin 21 10 19 1 5) ∧
    decode .scalar 0b00001010101010101001110000110101 = .ok (.fmax 21 10 19 1 5) ∧
    decode .scalar 0b00001010101010101001110000111101 = .ok (.fmac 21 10 19 1 5) ∧
    decode .scalar 0b00001010101010101001110001000101 = .ok (.feq 21 10 19 1 5) ∧
    decode .scalar 0b00001010101010101001110001001101 = .ok (.flt 21 10 19 1 5) ∧
    decode .scalar 0b00001010101010101001110001010101 = .ok (.fle 21 10 19 1 5) ∧
    decode .scalar 0b00001010101010100000000001011001 = .ok (.fcvt 21 10 0 1) ∧
    decode .scalar 0b00001010101010100000000001100001 = .ok (.ftoi 21 10 0 1) ∧
    decode .scalar 0b00001010101010100000000001101001 = .ok (.ftou 21 10 0 1) ∧
    decode .scalar 0b00001010101010100000000001110001 = .ok (.itof 21 10 0 1) ∧
    decode .scalar 0b00001010101010100000000001111001 = .ok (.utof 21 10 0 1) ∧
    decode .scalar 0b00001010101010100000000010000001 = .ok (.fabs 21 10 0 1) ∧
    decode .scalar 0b00001010101010100000000010001001 = .ok (.fneg 21 10 0 1) := by
  repeat' (first | rfl | refine And.intro ?_ ?_)

theorem test_decode_scalar_rest :
    decode .scalar 0b00001110101010100000000000000110 = .ok (.jalr 21 10 6) ∧
    decode .scalar 0b00010010101010100000000000000110 = .ok (.jget 21 10 6) ∧
    decode .scalar 0b00010010101010100000000000001110 = .ok (.jset 21 10 6) ∧
    decode .scalar 0b00100010101010101010011100011011 = .ok (.addi 21 10 42779) ∧
    decode .scalar 0b00100110101010101010011100011011 = .ok (.andi 21 10 42779) ∧
    decode .scalar 0b00101010101010101010011100011011 = .ok (.ori 21 10 42779) ∧
    decode .scalar 0b00101110101010101010011100011011 = .ok (.xori 21 10 42779) ∧
    decode .scalar 0b00110010101010101010011100011011 = .ok (.slti 21 10 42779) ∧
    decode .scalar 0b00110110101010101010011100011011 = .ok (.sltiu 21 10 42779) ∧
    decode .scalar 0b00111010101010100000000000110011 = .ok (.slli 21 10 51) ∧
    decode .scalar 0b00111010101010100000000001110011 = .ok (.srli 21 10 51) ∧
    decode .scalar 0b00111010101010100000000010110011 = .ok (.srai 21 10 51) ∧
    decode .scalar 0b00111110101010100000110011001100 = .ok (.bfx 21 10 51 12) ∧
    decode .scalar 0b00111110101010101000110011001100 = .ok (.bfxS 21 10 51 12) ∧
    decode .scalar 0b01000010101010100000110011001100 = .ok (.bfi 21 10 51 12) ∧
    decode .scalar 0b01000110101011100001111101001001 = .ok (.li 21 925513) ∧
    decode .scalar 0b01001010101011100001111101001001 = .ok (.lih 21 925513) ∧
    decode .scalar 0b01001110101011100001111101001001 = .ok (.adpc 21 925513) := by
  repeat' (first | rfl | refine And.intro ?_ ?_)

theorem test_decode_memory :
    decode .scalar 0b01100010101010100110011010111111 = .ok (.ld 21 10 1 2 1727) ∧
    decode .scalar 0b01100110101010100110011010111111 = .ok (.ldu 21 10 1 2 1727) ∧
    decode .scalar 0b01101010101010100110011010111111 = .ok (.st 21 10 1 2 1727) ∧
    decode .scalar 0b01101110101010100100111011101101 = .ok (.lds 21 10 1 3821) ∧
    decode .scalar 0b01110010101010100100111011101101 = .ok (.ldsu 21 10 1 3821) ∧
    decode .scalar 0b01110110101010100100111011101101 = .ok (.sts 21 10 1 3821) ∧
    decode .scalar 0b01111010101010100110011010111111 = .ok (.ldq 21 10 1 2 1727) := by
  repeat' (first | rfl | refine And.intro ?_ ?_)

theorem test_decode_atomic :
    decode .scalar 0b10000010101010101001100001101000 = .ok (.amoAdd 21 10 19 3 1) ∧
    decode .scalar 0b10000010101010101001100011101000 = .ok (.amoAnd 21 10 19 3 1) ∧
    decode .scalar 0b10000010101010101001100101101000 = .ok (.amoOr 21 10 19 3 1) ∧
    decode .scalar 0b10000010101010101001100111101000 = .ok (.amoXor 21 10 19 3 1) ∧
    decode .scalar 0b10000010101010101001101001101000 = .ok (.amoMin 21 10 19 3 1) ∧
    decode .scalar 0b10000010101010101001101011101000 = .ok (.amoMax 21 10 19 3 1) ∧
    decode .scalar 0b10000010101010101001101101101000 = .ok (.amoSwap 21 10 19 3 1) ∧
    decode .scalar 0b10000010101010101001101111101000 = .ok (.amoCas 21 10 19 3 1) ∧
    decode .scalar 0b10000010101010101001110001101000 = .ok (.amoFadd 21 10 19 3 1) ∧
    decode .scalar 0b10000010101010101001110011101000 = .ok (.amoFmin 21 10 19 3 1) ∧
    decode .scalar 0b10000010101010101001110101101000 = .ok (.amoFmax 21 10 19 3 1) := by
  repeat' (first | rfl | refine And.intro ?_ ?_)

theorem test_decode_control :
    decode .scalar 0b10010000010101010100011100011011 = .ok (.beq 21 10 1819) ∧
    decode .scalar 0b10010000110101010100011100011011 = .ok (.bne 21 10 1819) ∧
    decode .scalar 0b10010001010101010100011100011011 = .ok (.blt 21 10 1819) ∧
    decode .scalar 0b10010001110101010100011100011011 = .ok (.bge 21 10 1819) ∧
    decode .scalar 0b10010010010101010100011100011011 = .ok (.bltu 21 10 1819) ∧
    decode .scalar 0b10010010110101010100011100011011 = .ok (.bgeu 21 10 1819) ∧
    decode .scalar 0b10010101111000101001011101110111 = .ok (.j 31627127) ∧
    decode .scalar 0b10011001111000101001011101110111 = .ok (.jal 31627127) ∧
    decode .scalar 0b10011100000000000000000000000000 = .ok (.land) ∧
    decode .scalar 0b10100001001010000000011100011011 = .ok (.cwaitCont 1 10 1819) := by
  repeat' (first | rfl | refine And.intro ?_ ?_)

theorem test_decode_engine :
    decode .scalar 0b10110000000101010101000000000110 = .ok (.vrun 21 10 6) ∧
    decode .scalar 0b10110010101000000000000000001011 = .ok (.vwait 21 3) ∧
    decode .scalar 0b10110000000101010000000010010011 = .ok (.mrun 21 3) ∧
    decode .scalar 0b10110010101000000000000010011011 = .ok (.mwait 21 3) ∧
    decode .scalar 0b10110000000000000000000010100101 = .ok (.mstop 5) ∧
    decode .scalar 0b10110000000101010101001000101001 = .ok (.crun 21 10 4 1) ∧
    decode .scalar 0b10110000000101010000001000110110 = .ok (.cwait 21 4 6) ∧
    decode .scalar 0b10110010101010101001101100111001 = .ok (.erun 21 10 19 1) ∧
    decode .scalar 0b10110000000101010000001111000011 = .ok (.fmtq 21 3) ∧
    decode .scalar 0b10110000000101010000010001001011 = .ok (.trdl 21 3) ∧
    decode .scalar 0b10110010101000000000010001010011 = .ok (.stitch 21 3) ∧
    decode .scalar 0b10110000000101010101010011011110 = .ok (.bind 21 10 6) ∧
    decode .scalar 0b10110000000000001010110011100011 = .ok (.unbind 21 3) ∧
    decode .scalar 0b10110010101000000101010011101110 = .ok (.qdepth 21 10 6) ∧
    decode .scalar 0b10110110101010100000000000000110 = .ok (.rbacqW 21 10 6) ∧
    decode .scalar 0b10110110101010100000000000001110 = .ok (.rbacqT 21 10 6) ∧
    decode .scalar 0b10110100000101010000000000010011 = .ok (.rbrel 21 3) ∧
    decode .scalar 0b10110110101010101001110100011001 = .ok (.tqpush 21 10 19 1) ∧
    decode .scalar 0b10110110101010101001110110100001 = .ok (.launch 21 10 19 1) := by
  repeat' (first | rfl | refine And.intro ?_ ?_)

theorem test_decode_system :
    decode .scalar 0b11000010101000000001111101001001 = .ok (.csrr 21 8009) ∧
    decode .scalar 0b11000110101010101010011100011011 = .ok (.csrw 21 10 42779) ∧
    decode .scalar 0b11001010101010101010011100011011 = .ok (.csrs 21 10 42779) ∧
    decode .scalar 0b11001110101010101010011100011011 = .ok (.csrc 21 10 42779) ∧
    decode .scalar 0b11010000000000000000000000000011 = .ok (.phase 3) ∧
    decode .scalar 0b11010000000000000001000000000011 = .ok (.phaseE 3) ∧
    decode .scalar 0b11010000000000000010000000000101 = .ok (.fence 5) ∧
    decode .scalar 0b11010000000000000011000000000000 = .ok (.flush) ∧
    decode .scalar 0b11010000000000000100000000000000 = .ok (.join) ∧
    decode .scalar 0b11010000000000000101000000000000 = .ok (.yield) ∧
    decode .scalar 0b11010100000000000000000001110111 = .ok (.trap 119) ∧
    decode .scalar 0b11010100000000000001000000000000 = .ok (.eret) ∧
    decode .scalar 0b11010100000101010010000000000001 = .ok (.icinv 21 1) ∧
    decode .scalar 0b11010100000101010011000000000010 = .ok (.tlbinv 21 2) ∧
    decode .scalar 0b11010100000101010100000000000000 = .ok (.moult 21) ∧
    decode .scalar 0b11010110101000000101000000000110 = .ok (.qread 21 6) ∧
    decode .scalar 0b11010110101000000110000000000000 = .ok (.rdpcc 21) ∧
    decode .scalar 0b11010100000000000111000000000000 = .ok (.halt) ∧
    decode .scalar 0b11111001111000101001011101110111 = .ok (.nop 31627127) := by
  repeat' (first | rfl | refine And.intro ?_ ?_)

theorem test_decode_vector_float :
    decode .vector 0b00000011010010101101100111001011 = .ok (.vaddFp 41 22 51 2 0 11) ∧
    decode .vector 0b00000101010010101101100111001011 = .ok (.vsubFp 41 22 51 2 0 11) ∧
    decode .vector 0b00000111010010101101100111001011 = .ok (.vmulFp 41 22 51 2 0 11) ∧
    decode .vector 0b00001001010010101101100111001011 = .ok (.vfma 41 22 51 2 0 11) ∧
    decode .vector 0b00001011010010101101100111001011 = .ok (.vfnma 41 22 51 2 0 11) ∧
    decode .vector 0b00001101010010101101100111001011 = .ok (.vminFp 41 22 51 2 0 11) ∧
    decode .vector 0b00001111010010101101100111001011 = .ok (.vmaxFp 41 22 51 2 0 11) ∧
    decode .vector 0b00010001010010101101100111001011 = .ok (.vdivFp 41 22 51 2 0 11) ∧
    decode .vector 0b00010011010010101100000001011011 = .ok (.vsqrt 41 22 2 1 11) ∧
    decode .vector 0b00010101010010101100000001011011 = .ok (.vabs 41 22 2 1 11) ∧
    decode .vector 0b00010111010010101100000001011011 = .ok (.vneg 41 22 2 1 11) ∧
    decode .vector 0b00011001010010101100000001011011 = .ok (.vrcp 41 22 2 1 11) ∧
    decode .vector 0b00011011010010101100000001011011 = .ok (.vrsq 41 22 2 1 11) ∧
    decode .vector 0b00011101010010101100000001011011 = .ok (.vexp2 41 22 2 1 11) ∧
    decode .vector 0b00011111010010101100000001011011 = .ok (.vlog2 41 22 2 1 11) := by
  repeat' (first | rfl | refine And.intro ?_ ?_)

theorem test_decode_vector_int :
    decode .vector 0b00100001010010101101100110101011 = .ok (.vaddInt 41 22 51 1 0 11) ∧
    decode .vector 0b00100011010010101101100110101011 = .ok (.vsubInt 41 22 51 1 0 11) ∧
    decode .vector 0b00100101010010101101100110101011 = .ok (.vmulInt 41 22 51 1 0 11) ∧
    decode .vector 0b00100111010010101101100110101011 = .ok (.vmulh 41 22 51 1 0 11) ∧
    decode .vector 0b00101001010010101101100110101011 = .ok (.vmulhu 41 22 51 1 0 11) ∧
    decode .vector 0b00101011010010101101100110101011 = .ok (.vand 41 22 51 1 0 11) ∧
    decode .vector 0b00101101010010101101100110101011 = .ok (.vor 41 22 51 1 0 11) ∧
    decode .vector 0b00101111010010101101100110101011 = .ok (.vxor 41 22 51 1 0 11) ∧
    decode .vector 0b00110001010010101101100110101011 = .ok (.vsll 41 22 51 1 0 11) ∧
    decode .vector 0b00110011010010101101100110101011 = .ok (.vsrl 41 22 51 1 0 11) ∧
    decode .vector 0b00110101010010101101100110101011 = .ok (.vsra 41 22 51 1 0 11) ∧
    decode .vector 0b00110111010010101101100110101011 = .ok (.vminInt 41 22 51 1 0 11) ∧
    decode .vector 0b00111001010010101101100110101011 = .ok (.vmaxInt 41 22 51 1 0 11) ∧
    decode .vector 0b00111011010010101101100110101011 = .ok (.vminu 41 22 51 1 0 11) ∧
    decode .vector 0b00111101010010101101100110101011 = .ok (.vmaxu 41 22 51 1 0 11) ∧
    decode .vector 0b00111111010010101101100110101011 = .ok (.vadds 41 22 51 1 0 11) ∧
    decode .vector 0b01000001010010101101100110101011 = .ok (.vsubs 41 22 51 1 0 11) ∧
    decode .vector 0b01000011010010101101100110101011 = .ok (.vaddsu 41 22 51 1 0 11) ∧
    decode .vector 0b01000101010010101101100110101011 = .ok (.vsubsu 41 22 51 1 0 11) ∧
    decode .vector 0b01000111010010101101100110101011 = .ok (.vdivInt 41 22 51 1 0 11) ∧
    decode .vector 0b01001001010010101101100110101011 = .ok (.vdivu 41 22 51 1 0 11) ∧
    decode .vector 0b01001011010010101101100110101011 = .ok (.vrem 41 22 51 1 0 11) ∧
    decode .vector 0b01001101010010101101100110101011 = .ok (.vremu 41 22 51 1 0 11) ∧
    decode .vector 0b01010001010010101101000110111011 = .ok (.vaddi 41 22 283 11) ∧
    decode .vector 0b01010011010010101101000110111011 = .ok (.vandi 41 22 283 11) ∧
    decode .vector 0b01010101010010101101000110111011 = .ok (.vori 41 22 283 11) ∧
    decode .vector 0b01010111010010101101000110111011 = .ok (.vxori 41 22 283 11) ∧
    decode .vector 0b01011001010010101100000100111011 = .ok (.vslli 41 22 19 11) ∧
    decode .vector 0b01011011010010101100000100111011 = .ok (.vsrli 41 22 19 11) ∧
    decode .vector 0b01011101010010101100000100111011 = .ok (.vsrai 41 22 19 11) ∧
    decode .vector 0b01011111010010000001010010011011 = .ok (.vmovi 41 329 11) := by
  repeat' (first | rfl | refine And.intro ?_ ?_)

theorem test_decode_vector_compare :
    decode .vector 0b01100000000001010010101101011011 = .ok (.vceqFp 41 22 2 1 11) ∧
    decode .vector 0b01100010000001010010101101011011 = .ok (.vcltFp 41 22 2 1 11) ∧
    decode .vector 0b01100100000001010010101101011011 = .ok (.vcleFp 41 22 2 1 11) ∧
    decode .vector 0b01100110000001010010101101011011 = .ok (.vcneFp 41 22 2 1 11) ∧
    decode .vector 0b01101000000001010010101100111011 = .ok (.vceqInt 41 22 1 1 11) ∧
    decode .vector 0b01101010000001010010101100111011 = .ok (.vcneInt 41 22 1 1 11) ∧
    decode .vector 0b01101100000001010010101100111011 = .ok (.vcltInt 41 22 1 1 11) ∧
    decode .vector 0b01101110000001010010101100111011 = .ok (.vcltu 41 22 1 1 11) ∧
    decode .vector 0b01110000000001010010101100111011 = .ok (.vcleInt 41 22 1 1 11) ∧
    decode .vector 0b01110010000001010010101100111011 = .ok (.vcleu 41 22 1 1 11) ∧
    decode .vector 0b01110100000001010011010010011011 = .ok (.vceqi 41 329 11) ∧
    decode .vector 0b01110110000001010010101100111011 = .ok (.vtst 41 22 1 1 11) ∧
    decode .vector 0b01111000000001001011110000000000 = .ok (.vplog 9 3 6) ∧
    decode .vector 0b01111000000001001011110100100000 = .ok (.vplogR 9 3 6 1) ∧
    decode .vector 0b01111010000000000000000001010000 = .ok (.vpdrop 5) ∧
    decode .vector 0b01111101010010000000000000000000 = .ok (.vppick 41) ∧
    decode .vector 0b01111101010011000000000000110000 = .ok (.vppickV 41 3) := by
  repeat' (first | rfl | refine And.intro ?_ ?_)

theorem test_decode_vector_move :
    decode .vector 0b10000001010010101101100110011001 = .ok (.vsel 41 22 51 1 0 1) ∧
    decode .vector 0b10000011010010101100000000001011 = .ok (.vmov 41 22 0 11) ∧
    decode .vector 0b10000101010010101101100110101011 = .ok (.vperm 41 22 51 1 0 11) ∧
    decode .vector 0b10000111010010101101100110101011 = .ok (.vshuf 41 22 51 1 0 11) ∧
    decode .vector 0b10001001010010101100111011011011 = .ok (.vslide 41 22 1 109 11) ∧
    decode .vector 0b10001011010010101100111011011011 = .ok (.vrot 41 22 1 109 11) ∧
    decode .vector 0b10001101010010101101100111001011 = .ok (.vmatch 41 22 51 2 0 11) ∧
    decode .vector 0b10010001010010101100000001011011 = .ok (.vredaddFp 41 22 2 1 11) ∧
    decode .vector 0b10010011010010101100000001011011 = .ok (.vredmin 41 22 2 1 11) ∧
    decode .vector 0b10010101010010101100000001011011 = .ok (.vredmax 41 22 2 1 11) ∧
    decode .vector 0b10010111010010101100000000111011 = .ok (.vredaddInt 41 22 1 1 11) ∧
    decode .vector 0b10011001010010101100000001011011 = .ok (.vscanFp 41 22 2 1 11) ∧
    decode .vector 0b10011011010010101100000000111011 = .ok (.vscanInt 41 22 1 1 11) ∧
    decode .vector 0b10011100000000000000000000110000 = .ok (.vpfirst 0 3) ∧
    decode .vector 0b10011110000001010010100011000000 = .ok (.vxs 41 1 0 12) := by
  repeat' (first | rfl | refine And.intro ?_ ?_)

theorem test_decode_vector_convert :
    decode .vector 0b10100001010010101100000000111011 = .ok (.vcvtF32F64 41 22 1 1 11) ∧
    decode .vector 0b10100011010010101100000000001011 = .ok (.vcvtF64F32 41 22 0 11) ∧
    decode .vector 0b10100101010010101100000000111011 = .ok (.vcvtF16F32 41 22 1 1 11) ∧
    decode .vector 0b10100111010010101100000000001011 = .ok (.vcvtF32F16 41 22 0 11) ∧
    decode .vector 0b10101001010010101100000000111011 = .ok (.vcvtBf16F32 41 22 1 1 11) ∧
    decode .vector 0b10101011010010101100000000001011 = .ok (.vcvtF32Bf16 41 22 0 11) ∧
    decode .vector 0b10101101010010101100000000111011 = .ok (.vcvtI32F32 41 22 1 1 11) ∧
    decode .vector 0b10101111010010101100000000111011 = .ok (.vcvtF32I32 41 22 1 1 11) ∧
    decode .vector 0b10110001010010101100000000111011 = .ok (.vcvtN32F32 41 22 1 1 11) ∧
    decode .vector 0b10110011010010101100000000111011 = .ok (.vcvtF32N32 41 22 1 1 11) ∧
    decode .vector 0b10110101010010101100000000111011 = .ok (.vcvtI64F64 41 22 1 1 11) ∧
    decode .vector 0b10110111010010101100000000111011 = .ok (.vcvtF64I64 41 22 1 1 11) ∧
    decode .vector 0b10111001010010101101100111001011 = .ok (.vlcvt 41 22 51 2 0 11) ∧
    decode .vector 0b10111011010010101101100111001011 = .ok (.vlcvtM 41 22 51 2 0 11) ∧
    decode .vector 0b10111101010010101101100111001011 = .ok (.vlexp 41 22 51 2 0 11) ∧
    decode .vector 0b10111111010010101100000001011011 = .ok (.vcvtF64Lns 41 22 2 1 11) ∧
    decode .vector 0b11000001010010101101100111001011 = .ok (.vlmul 41 22 51 2 0 11) ∧
    decode .vector 0b11000011010010101101100111001011 = .ok (.vlscl 41 22 51 2 0 11) := by
  repeat' (first | rfl | refine And.intro ?_ ?_)

theorem test_decode_vector_memory :
    decode .vector 0b11010001010010000001000010001011 = .ok (.vld 41 2 1 11) ∧
    decode .vector 0b11010010000001010011000010011011 = .ok (.vst 41 2 1 1 11) ∧
    decode .vector 0b11010101010010000000000010001011 = .ok (.vlds 41 1 11) ∧
    decode .vector 0b11010110000001010010000010001011 = .ok (.vsts 41 1 0 11) ∧
    decode .vector 0b11011001010010000001000110101011 = .ok (.vgath 41 2 3 1 11) ∧
    decode .vector 0b11011010000001010011000110101011 = .ok (.vscat 41 2 3 1 0 11) ∧
    decode .vector 0b11011100000001010011000010101011 = .ok (.vupdAdd 41 2 1 1 0 11) ∧
    decode .vector 0b11011100000011010011000010101011 = .ok (.vupdMin 41 2 1 1 0 11) ∧
    decode .vector 0b11011100000101010011000010101011 = .ok (.vupdMax 41 2 1 1 0 11) ∧
    decode .vector 0b11011100000111010011000010101011 = .ok (.vupdAnd 41 2 1 1 0 11) ∧
    decode .vector 0b11011100001001010011000010101011 = .ok (.vupdOr 41 2 1 1 0 11) ∧
    decode .vector 0b11011100001011010011000010101011 = .ok (.vupdXor 41 2 1 1 0 11) ∧
    decode .vector 0b11011100001101010011000010101011 = .ok (.vupdMinu 41 2 1 1 0 11) ∧
    decode .vector 0b11011100001111010011000010101011 = .ok (.vupdMaxu 41 2 1 1 0 11) ∧
    decode .vector 0b11011110000000010010101100001011 = .ok (.vtqpush 9 22 0 11) ∧
    decode .vector 0b11100001010010101101011000111011 = .ok (.vamoAdd 41 22 2 12 1 1 11) ∧
    decode .vector 0b11100011010010101101011000111011 = .ok (.vamoAnd 41 22 2 12 1 1 11) ∧
    decode .vector 0b11100101010010101101011000111011 = .ok (.vamoOr 41 22 2 12 1 1 11) ∧
    decode .vector 0b11100111010010101101011000111011 = .ok (.vamoXor 41 22 2 12 1 1 11) ∧
    decode .vector 0b11101001010010101101011000111011 = .ok (.vamoMin 41 22 2 12 1 1 11) ∧
    decode .vector 0b11101011010010101101011000111011 = .ok (.vamoMax 41 22 2 12 1 1 11) ∧
    decode .vector 0b11101101010010101101011000111011 = .ok (.vamoSwap 41 22 2 12 1 1 11) ∧
    decode .vector 0b11101111010010101101011000111011 = .ok (.vamoCas 41 22 2 12 1 1 11) := by
  repeat' (first | rfl | refine And.intro ?_ ?_)

theorem test_decode_vector_control :
    decode .vector 0b11110000000000000000100101100000 = .ok (.vshape 9 6) ∧
    decode .vector 0b11110010000010011111010010010000 = .ok (.vloop 1 8009) ∧
    decode .vector 0b11110100000000010111011101110000 = .ok (.vjmp 6007) ∧
    decode .vector 0b11110110000000000000000000000000 = .ok (.vend) ∧
    decode .vector 0b11111000001010010111011101110000 = .ok (.vseg 169847) ∧
    decode .vector 0b11111101111000101001011101110111 = .ok (.vnop 31627127) := by
  repeat' (first | rfl | refine And.intro ?_ ?_)

theorem test_decode_matrix :
    decode .matrix 0b00000100110001110001101100000000 = .ok (.mldw 0 6 1819) ∧
    decode .matrix 0b00001000000000000000000000000000 = .ok (.mswap) ∧
    decode .matrix 0b00001110101100011011010100000000 = .ok (.mma 5 6 3 13 0 1 0) ∧
    decode .matrix 0b00010000111000101001011101110111 = .ok (.mstamp 14849911) ∧
    decode .matrix 0b00010110100110000000000000000000 = .ok (.mdrainPort 5 6) ∧
    decode .matrix 0b00010110110110001110001101100000 = .ok (.mdrainSpm 5 6 1819) ∧
    decode .matrix 0b00011010100000000000000000000000 = .ok (.mzero 5) ∧
    decode .matrix 0b00011100000000000000000000000000 = .ok (.mmark) ∧
    decode .matrix 0b00100000000000101001011101110111 = .ok (.mseg 169847) ∧
    decode .matrix 0b00100100101000011011111011101101 = .ok (.mtreadle 0 10 27 3821) ∧
    decode .matrix 0b00101000000000000000000000000000 = .ok (.mtend) ∧
    decode .matrix 0b00101100000000000000000101110111 = .ok (.mflags 375) ∧
    decode .matrix 0b00110000000000000000000000000000 = .ok (.mnop) := by
  repeat' (first | rfl | refine And.intro ?_ ?_)

theorem test_decode_clicker :
    decode .clicker 0b00000100101011100001111101001001 = .ok (.clevCount 5 925513) ∧
    decode .clicker 0b00000101101011100001111101001001 = .ok (.clevSs 5 925513) ∧
    decode .clicker 0b00000110101011100001111101001001 = .ok (.clevDs 5 925513) ∧
    decode .clicker 0b00000111101011000110000000000000 = .ok (.clevJs 5 6 3) ∧
    decode .clicker 0b00001010101100011010011100011011 = .ok (.cbase 5 6 108315) ∧
    decode .clicker 0b00001101110101101100000000100101 = .ok (.ccopy 3 5 6 12 37) ∧
    decode .clicker 0b00001101110101101100010000100101 = .ok (.ccopyTolns 3 5 6 12 37) ∧
    decode .clicker 0b00001101110101101100100000100101 = .ok (.ccopyTolin 3 5 6 12 37) ∧
    decode .clicker 0b00010010101100110111011011001000 = .ok (.cfill 5 6 1 749 9) ∧
    decode .clicker 0b00010110110000001010011100011011 = .ok (.csig 5 2 42779) ∧
    decode .clicker 0b00011000000000000000000000000000 = .ok (.cend) ∧
    decode .clicker 0b00011100000000000000000000000000 = .ok (.cnop) := by
  repeat' (first | rfl | refine And.intro ?_ ?_)

/-! ### Witnesses: the scalar families -/

theorem hyp_scalar_forms :
    Admits (xs []) true true true [31, 31, 31] [31, 31, 31] ∧ Admits eft true true true [15, 15, 15] [15, 15, 15] ∧
    Admits (control []) true true true [31, 31, 31] [31, 31, 31] ∧ Admits (inGroup asTwin) true true true [0, 0, 0] [0, 0] ∧
    Admits (xs []) true false true [] [31, 31] ∧ Admits (control []) true false true [] [0, 0] ∧ (1 : Word) ≠ 0 := by
  unfold Admits; repeat' (first | apply And.intro | decide +kernel)

theorem hyp_branches :
    Admits (xs [5, 5]) true true true [1, 2] [1, 2] ∧ (xs [5, 5]).x 1 = (xs [5, 5]).x 2 ∧
    Admits (xs [5, 6]) true true true [1, 2] [1, 2] ∧ (xs [5, 6]).x 1 ≠ (xs [5, 6]).x 2 ∧
    (xs [5, 6]).scalar.twin = none ∧ (xs [5, 5]).scalar.twin = none ∧
    Admits (xs []) true true true [] [] ∧ Admits (xs []) true false true [] [] := by
  unfold Admits; repeat' (first | apply And.intro | decide +kernel)

/-- The twin's condition of a branch: here both copies decide alike. -/
theorem hyp_branches_twin :
    (inGroup fun g => asTwin (withX [5, 5] g)).scalar.twin = some (xs [5, 5]).rf ∧
    ∀ r, (inGroup fun g => asTwin (withX [5, 5] g)).scalar.twin = some r →
      ((r.get 1 = r.get 2) ↔ ((xs [5, 5]).x 1 = (xs [5, 5]).x 2)) := by
  refine ⟨rfl, fun r h => ?_⟩
  obtain rfl : (xs [5, 5]).rf = r := Option.some.inj h
  decide

/-- JALR: a misaligned target; a target at which another word stands; one at which LAND stands. -/
theorem hyp_jump_register :
    (Admits (xs [2]) true false true [] [1] ∧ ((xs [2]).x 1).toNat % 4 ≠ 0) ∧
    (let s := onCore .group (mapped 2 (oneGroup (withX [8])))
     Admits s true false true [] [1] ∧ (s.x 1).toNat % 4 = 0 ∧ s.fetch s.curKey s.curCtx (s.x 1) = .word 0) ∧
    (let s := holding 8 0x9C000000 (onCore .group (mapped 2 (oneGroup (withX [8]))))
     Admits s true false true [] [1] ∧ (s.x 1).toNat % 4 = 0 ∧ s.fetch s.curKey s.curCtx (s.x 1) = .word 0x9C000000 ∧
     s.scalar.twin = none) := by
  unfold Admits; repeat' (first | apply And.intro | decide +kernel)

theorem hyp_small_scalar_forms :
    (Admits (xs []) true true false [31] [] ∧ (15 : BitVec 5).toNat < 16) ∧ Admits (xs []) true true false [15] [31] ∧
    Admits eft true true false [15] [] ∧ Admits (xs []) true true true [] [] ∧ Admits (control []) true false true [] [] ∧
    Admits (control []) true true true [31] [] := by
  unfold Admits; repeat' (first | apply And.intro | decide +kernel)

theorem hyp_poisoned_read :
    let s := inGroup fun g => { g with sc := { g.sc with rf := { g.sc.rf with poison := [2] } } }
    let t := inGroup fun g => { asTwin (withX [] g) with sc := { (asTwin g).sc with twin := some { g.sc.rf with poison := [2] } } }
    Admits s true true true [1, 2, 3] [] ∧ Admits s true false true [] [] ∧ Admits s true false false [] [] ∧ (2 : BitVec 5).toNat ∈ s.rf.poison ∧
    Admits t true false false [] [] ∧ t.scalar.twin.any (fun f => f.poison.has 2) = true := by
  unfold Admits; repeat' (first | apply And.intro | decide +kernel)

/-! ### Witnesses: memory -/

/-- A group with 64 bytes of scratchpad. -/
def spmState (l : List Word) : State :=
  onCore .group (let c := oneGroup (withX l); { c with job := { c.job with spmSize := 64 } })

/-- The scratchpad forms, 8 bytes wide: the last address inside, one past it, and a misaligned one. -/
theorem hyp_scratchpad :
    let ea (s : State) : Word := s.x 1 + (0 : BitVec 12).signExtend 64 * 8
    (let s := spmState [56, 7]
     Admits s true false false [] [2, 1] ∧ (ea s).toNat % 8 = 0 ∧ (ea s).toNat + 8 ≤ s.here.job.spmSize ∧
      (∀ k < 8, ((ea s).toNat + k) / 32 ∉ s.here.spmPoison) ∧ s.scalar.twin = none) ∧
    (Admits (spmState [64]) true false false [] [1] ∧ (ea (spmState [64])).toNat % 8 = 0 ∧
      (spmState [64]).here.job.spmSize < (ea (spmState [64])).toNat + 8) ∧
    (Admits (spmState [57]) true false false [] [1] ∧ (ea (spmState [57])).toNat % 8 ≠ 0) ∧
    (Admits (spmState [57]) true false false [] [2, 1] ∧ Admits (spmState [64]) true false false [] [2, 1]) := by
  unfold Admits; repeat' (first | apply And.intro | decide +kernel)

/-- Loads, stores and atomics whose checks pass, on a group and on the control die, and with a twin. -/
theorem hyp_global_accesses :
    (let s := onCore .group (mapped 1 (oneGroup (withX [16, 7])))
     Admits s true true true [3, 1] [1, 2, 3] ∧ s.outstanding < 16 ∧ Reaches s 16 8 .read (page 1) ∧ Reaches s 16 8 .write (page 1) ∧
       Reaches s 16 8 .both (page 1) ∧ isConfig ((page 1).phys 16) = false ∧ s.cur.stream = .group ∧ s.scalar.twin = none) ∧
    (let s := onCore .group (mapped 1 (oneGroup fun g => asTwin (withX [16, 7] g)))
     Admits s true false true [] [2, 1] ∧ Reaches s 16 8 .write (page 1) ∧
       ∀ r, s.scalar.twin = some r → r.get 1 = s.x 1 ∧ r.get 2 = s.x 2) ∧
    (let s := control [16, 7]
     let e : TlbEntry := ⟨0, 0, 4, 0, 1⟩
     Admits s true true true [3, 1] [1, 2, 3] ∧ s.outstanding < 32 ∧ Reaches s 16 8 .read e ∧ Reaches s 16 8 .write e ∧
       Reaches s 16 8 .both e ∧ s.cur.stream = .control ∧ s.scalar.twin = none) ∧
    (let s := onCore .eft (mapped 0 (oneGroup id))
     Admits s true true true [3, 1] [1] ∧ s.outstanding < 48 ∧ Reaches s 0 8 .read (page 0)) := by
  refine ⟨?_, ⟨?_, ?_, fun r h => ?_⟩, ?_, ?_⟩
  case refine_4 =>
    obtain rfl : (xs [16, 7]).rf = r := Option.some.inj h
    decide
  all_goals (try unfold Admits); (try unfold Reaches)
  all_goals (repeat' (first | apply And.intro | decide +kernel))

/-- A store of a group to configuration space. -/
theorem hyp_config_store :
    let c := { oneGroup (withX [16, 7]) with mem := { CoreMem.reset with tlb := [⟨0, 0, 0, 0xF8000000000, 1⟩] } }
    let s := { onCore .group c with host := { HostLink.reset with base := [(0, 1)] } }
    Admits s true false true [] [2, 1] ∧ Reaches s 16 8 .write ⟨0, 0, 0, 0xF8000000000, 1⟩ ∧
      isConfig ((⟨0, 0, 0, 0xF8000000000, 1⟩ : TlbEntry).phys 16) = true ∧ s.scalar.twin = none := by
  unfold Admits; unfold Reaches; repeat' (first | apply And.intro | decide +kernel)

/-- The three checks of R131: misaligned, at 2^56, and a page that grants no write. -/
theorem hyp_access_checks :
    (Admits (xs [4]) true false true [2, 1] [2, 1] ∧ (xs [4]).outstanding < 16 ∧ (4 : Nat) % 8 ≠ 0) ∧
    (Admits (xs [0x100000000000000]) true false true [2, 1] [2, 1] ∧ ((xs [0x100000000000000]).x 1).toNat = 2 ^ 56) ∧
    (let s := onCore .group (mapped 0 (oneGroup (withX [16])))
     Admits s true false true [2, 1] [2, 1] ∧ s.outstanding < 16 ∧ s.lookup s.curKey s.curCtx 16 = some (page 0) ∧ (page 0).writable = false) ∧
    (let e : TlbEntry := ⟨0, 0, 0, 0xF0001000000, 1⟩
     let c := { oneGroup (withX [16]) with mem := { CoreMem.reset with tlb := [e] } }
     let s := onCore .group c
     Admits s true false true [2, 1] [2, 1] ∧ s.lookup s.curKey s.curCtx 16 = some e ∧ s.cur.stream = .group ∧ isConfig (e.phys 16) = true ∧
       regionOf (localOf (e.phys 16)) = .regs .moult 16 ∧ s.refusesUnit (e.phys 16) .read = true ∧ s.refusesUnit (e.phys 16) .write = true) := by
  unfold Admits; repeat' (first | apply And.intro | decide +kernel)

/-! ### Witnesses: the vector family -/

/-- A turn of a vector stream whose table runs, of a job in compatibility mode or not. -/
def vec (compat : Bool) (f : VStream → VStream) : State :=
  onCore .vector (let c := oneGroup fun g => { g with v := f { g.v with busy := true } }
                  { c with job := { c.job with compat } })

theorem hyp_vector_arithmetic :
    (let F : VForm := { d := some 1, a := some 2, b := some 3, readsD := true, keep := some 1, guard := 12, time := ⟨.fp, .quarter, 4⟩ }
     VectorReady (vec false id) F ∧ VectorClean (vec false id) F) ∧
    (let F : VForm := { d := some 0, a := some 3, wide := true, keep := some 0, guard := 0, time := ⟨.fp64, .half, 6⟩ }
     VectorReady (vec false id) F ∧ VectorClean (vec false id) F) ∧
    (let F : VForm := { d := some 1, a := some 2, guard := 0, time := ⟨.ix, .quarter, 2⟩ }
     let s := vec false fun v => { v with exposed := true }
     VectorReady s F ∧ VectorClean s F) ∧
    (let F : VForm := { a := some 2, b := some 3, keep := some 0, guard := 0, time := ⟨.ix, .quarter, 2⟩, changesPred := true }
     VectorReady (vec false id) F ∧ VectorClean (vec false id) F) ∧
    (let F : VForm := { d := some 1, a := some 2, b := some 3, keep := some 0, guard := 0, time := ⟨.sx, .rows, 20⟩ }
     VectorReady (vec false id) F ∧ VectorClean (vec false id) F) ∧
    (let F : VForm := { d := some 1, a := some 2, b := some 3, keep := some 0, guard := 0, time := ⟨.cx, .quarter, 5⟩ }
     VectorReady (vec false id) F ∧ VectorClean (vec false id) F) ∧
    (let F : VForm := { time := ⟨.ix, .quarter, 2⟩, readsPred := true, changesPred := true }
     VectorReady (vec false id) F) := by
  unfold VectorReady VectorClean; repeat' (first | apply And.intro | decide +kernel)

theorem hyp_vector_movement :
    (let F : VForm := { d := some 1, a := some 2, b := some 3, keep := some 0, guard := 0, time := ⟨.px, .quarter, 3⟩ }
     (vec false id).here.job.compat = false ∧ VectorReady (vec false id) F ∧ VectorClean (vec false id) F) ∧
    (let F : VForm := { d := some 1, a := some 2, b := some 3, keep := some 0, guard := 0, time := ⟨.px, .fixed 2, 3⟩ }
     (vec true id).here.job.compat = true ∧ VectorReady (vec true id) F ∧ VectorClean (vec true id) F) ∧
    ((vec true id).here.job.compat = true ∧ (vec true id).cur.stream = .vector ∧ (1 : BitVec 2) ≠ 0) ∧
    (let F : VForm := { d := some 1, a := some 2, readsD := true, wide := true, guard := 8, time := ⟨.px, .quarter, 3⟩ }
     VectorReady (vec false id) F ∧ VectorClean (vec false id) F) := by
  unfold VectorReady VectorClean; repeat' (first | apply And.intro | decide +kernel)

theorem hyp_vector_combining :
    (let F : VForm := { d := some 1, a := some 2, b := some 3, wide := true, keep := some 0, guard := 0, changesPred := true, time := ⟨.px, .fixed 32, 4⟩ }
     (vec false id).here.job.compat = false ∧ VectorReady (vec false id) F ∧ VectorClean (vec false id) F) ∧
    ((vec true id).here.job.compat = true ∧ (vec true id).cur.stream = .vector) ∧
    (let F : VForm := { d := some 1, a := some 2, keep := some 0, guard := 0, ret := true, time := ⟨.px, .fixed 4, 12⟩ }
     VectorReady (vec false id) F ∧ VectorClean (vec false id) F) ∧
    (let F : VForm := { d := some 1, a := some 2, keep := some 0, guard := 0, time := ⟨.px, .fixed 8, 12⟩ }
     VectorReady (vec false id) F ∧ VectorClean (vec false id) F) := by
  unfold VectorReady VectorClean; repeat' (first | apply And.intro | decide +kernel)

theorem hyp_vector_return :
    (let F : VForm := { time := ⟨.px, .fixed 1, 3⟩, readsPred := true, ret := true }
     VectorReady (vec false id) F ∧ VectorClean (vec false id) F) ∧
    (let F : VForm := { a := some 2, wide := true, time := ⟨.px, .fixed 1, 3⟩, kwrite := some 3 }
     (14 : BitVec 4).toNat % 2 = 0 ∧ VectorReady (vec false id) F ∧ VectorClean (vec false id) F) ∧
    ((vec false id).cur.stream = .vector ∧ (15 : BitVec 4).toNat % 2 = 1) := by
  unfold VectorReady VectorClean; repeat' (first | apply And.intro | decide +kernel)

theorem hyp_vector_log :
    (let F : VForm := { d := some 1, a := some 2, b := some 3, keep := some 0, guard := 0, time := ⟨.cx, .quarter, 5⟩ }
     (vec true id).here.job.compat = true ∧ (2 : BitVec 2) ≠ 3 ∧ VectorReady (vec true id) F ∧ VectorClean (vec true id) F) ∧
    (LFmt.ofCode 0).bits ≠ 4 ∧ (LFmt.ofCode 2).bits = 4 ∧ (vec true id).cur.stream = .vector := by
  unfold VectorReady VectorClean; repeat' (first | apply And.intro | decide +kernel)

/-! ### Witnesses: vector accesses and control -/

/-- A turn of a vector stream with a tile of one cell and base register values, whose page grants an access. -/
def vecAt (k : Vector Word 4) (perm : Nat) (twin : Bool) : State :=
  onCore .vector (mapped perm (let c := oneGroup fun g =>
    { (if twin then asTwin g else g) with k, v := { g.v with busy := true, wshape := 0 } }
    { c with job := { c.job with twin, spmSize := 64 } }))

/-- The one element at address 16, translated. -/
def oneElem : List (VAcc × Nat × TlbEntry) := [({ elem := 0, va := 16, size := 4, at_ := 0 }, 0x10000000010, page 1)]

/-- The memory micro-orders of k[1]: a form with the operands that an instruction has. -/
def memForm (d a b : Option (BitVec 6)) (readsD : Bool) (k : BitVec 1) : VForm :=
  { d, a, b, readsD, guard := 0, keep := some k, time := ⟨.mx, .quarter, 0⟩, kreads := [1] }

theorem base_ok {b : Word} {l : List VAcc} (h : b.toNat % 4 = 0) : ∀ c, some b = some c → l = [] ∨ c.toNat % 4 = 0 :=
  fun _ e => .inr (Option.some.inj e ▸ h)

theorem base_none {l : List VAcc} : ∀ c : Word, none = some c → l = [] ∨ c.toNat % 4 = 0 := nofun

/-- A load and a store at k[1]: one element, checked and translated. -/
theorem hyp_vector_load_store :
    let s := vecAt #v[0, 16, 0, 0] 1 false
    let L := memForm (some 1) none none false 0
    let S := memForm none (some 1) none false 1
    VectorReaches s L .read (some 16) ((s.vEnv L false).1.tileBytes 16 0) oneElem ∧
    VectorReaches s S .write (some 16) ((s.vEnv S false).1.tileBytes 16 (s.vEnv S false).1.a) oneElem ∧
    s.isTwin = false ∧ isConfig 0x10000000010 = false := by
  unfold VectorReaches VectorReady VectorClean
  refine ⟨⟨?_, ?_, ?_, base_ok (by decide +kernel), ?_⟩, ⟨?_, ?_, ?_, base_ok (by decide +kernel), ?_⟩, ?_, ?_⟩
  all_goals (repeat' (first | apply And.intro | decide +kernel))

/-- The indexed forms and the atomics: one element, checked and translated. -/
theorem hyp_vector_indexed :
    let s := vecAt #v[0, 16, 0, 0] 1 false
    let G := memForm (some 1) none (some 3) false 0
    let X := memForm none (some 1) (some 3) false 0
    let U := memForm none (some 1) none false 0
    let C := memForm (some 1) (some 2) (some 3) true 0
    VectorReaches s G .read none ((s.vEnv G false).1.indexed 32 16 0 0) oneElem ∧
    VectorReaches s X .write none ((s.vEnv X false).1.indexed 32 16 (s.vEnv X false).1.a 0) oneElem ∧
    VectorReaches s U .both none ((s.vEnv U false).1.tileElems 32 16 (s.vEnv U false).1.a) oneElem ∧
    VectorReaches s C .both none ((s.vEnv C false).1.indexed 32 16 (s.vEnv C false).1.a (s.vEnv C false).1.d) oneElem := by
  unfold VectorReaches VectorReady VectorClean
  refine ⟨⟨?_, ?_, ?_, base_none, ?_⟩, ⟨?_, ?_, ?_, base_none, ?_⟩, ⟨?_, ?_, ?_, base_none, ?_⟩, ⟨?_, ?_, ?_, base_none, ?_⟩⟩
  all_goals (repeat' (first | apply And.intro | decide +kernel))

/-- A twin group's store: both halves name the same bytes. -/
theorem hyp_vector_memory_twin :
    let s := vecAt #v[0, 16, 0, 0] 1 true
    let S : VForm := { a := some 1, guard := 0, keep := some 1, time := ⟨.mx, .quarter, 0⟩, kreads := [1] }
    s.isTwin = true ∧
      (s.vEnv S true).1.tileBytes 16 (s.vEnv S true).1.a = (s.vEnv S false).1.tileBytes 16 (s.vEnv S false).1.a := by
  repeat' (first | apply And.intro | decide +kernel)

/-- The scratchpad forms: the last aligned place, and a misaligned base. -/
theorem hyp_vector_scratch :
    let L : VForm := { d := some 1, guard := 0, keep := some 0, time := ⟨.mx, .quarter, 6⟩, kreads := [1] }
    let S : VForm := { a := some 1, guard := 0, keep := some 0, time := ⟨.mx, .quarter, 2⟩, kreads := [1] }
    let s := vecAt #v[0, 60, 0, 0] 1 false
    let t := vecAt #v[0, 61, 0, 0] 1 false
    (VectorReady s L ∧ VectorClean s L ∧ VectorReady s S ∧ VectorClean s S ∧ (60 : Word).toNat % 4 = 0 ∧ s.isTwin = false ∧
      (∀ x ∈ (s.vEnv L false).1.tileBytes 60 0, x.va.toNat + x.size ≤ s.here.job.spmSize) ∧
      (∀ x ∈ (s.vEnv S false).1.tileBytes 60 0, x.va.toNat + x.size ≤ s.here.job.spmSize) ∧
      ∀ x ∈ (s.vEnv L false).1.tileBytes 60 0, ∀ i < x.size, (x.va.toNat + i) / 32 ∉ s.here.spmPoison) ∧
    (VectorReady t L ∧ VectorReady t S ∧ VectorClean t S ∧ (61 : Word).toNat % 4 ≠ 0 ∧
      ((t.vEnv L false).1.tileBytes 61 0).head? = some { elem := 0, va := 61, size := 4, at_ := 0 } ∧
      ((t.vEnv S false).1.tileBytes 61 (t.vEnv S false).1.a).head? = some { elem := 0, va := 61, size := 4, at_ := 0 }) := by
  unfold VectorReady VectorClean
  repeat' (first | apply And.intro | decide +kernel)

/-- A launch with one kind (number 0) and one task queue. -/
def oneQueue : Launch :=
  { queue := 0, packet := 1 <<< (8 * 0x38), lseq := 0, dies := [0], binding := [(0, 0)], info := { LaunchInfo.none with kinds := [(0, 0)] },
    stack := 0, tqs := [], status := 0, ended := false, invalid := false, discard := 0, recorded := [], sentPh4 := none, stopReq := none,
    saved := none }

/-- A state whose hub runs that launch. -/
def launched (l : Launch) (s : State) : State := { s with hub := { s.hub with launches := [(0, l)] } }

/-- The lane's header names a kind of the launch; or none. -/
theorem hyp_vector_task_push :
    let F : VForm := { a := some 0, b := some 3, guard := 0, keep := some 0, time := ⟨.mx, .quarter, 0⟩, changesPred := true }
    let s := launched oneQueue (vecAt #v[0, 0, 0, 0] 1 false)
    let t := vecAt #v[0, 0, 0, 0] 1 false
    let lanes (s : State) := (s.vEnv F false).1.lanes (s.vEnv F false).1.a (s.regOperand 1 false).1 (s.regOperand 2 false).1
    (VectorReady s F ∧ VectorClean s F ∧ s.here.job.compat = false ∧ s.grp.v.exposed = false ∧
      (s.grp.holdsReg 1 = true ∧ s.grp.v.regPending 1 = false ∧ s.grp.regThere 1 = true ∧ (s.regOperand 1 false).2 = 0) ∧
      (s.grp.holdsReg 2 = true ∧ s.grp.v.regPending 2 = false ∧ s.grp.regThere 2 = true ∧ (s.regOperand 2 false).2 = 0) ∧
      (∀ l ∈ lanes s, s.hereLaunch.laneOk l.2.1 = true) ∧ (lanes s).length = 1 ∧ s.isTwin = false) ∧
    (VectorReady t F ∧ VectorClean t F ∧ t.here.job.compat = false ∧ t.grp.v.exposed = false ∧
      ∃ l ∈ lanes t, t.hereLaunch.laneOk l.2.1 = false) ∧ 13 < (14 : BitVec 6).toNat ∧ 13 < (32 : BitVec 6).toNat := by
  unfold VectorReady VectorClean
  repeat' (first | apply And.intro | decide +kernel)

/-- A vector table of 4 words at 0 whose word at 8 is the next one. -/
def vecTable (seg : Option Seg) (exposed : Bool) : State :=
  vec false fun v => { v with header := 0, length := 4, pc := 8, seg, exposed }

theorem hyp_vector_control :
    ((vecTable none false).cur.stream = .vector ∧ (vecTable none false).isTwin = false ∧ (vecTable none false).here.job.compat = false) ∧
    ((vecAt #v[0, 0, 0, 0] 1 true).cur.stream = .vector ∧ (vecAt #v[0, 0, 0, 0] 1 true).isTwin = true ∧ 7 < (8 : BitVec 4).toNat) ∧
    ((vec true id).here.job.compat = true ∧ (7 : BitVec 4).toNat ≤ 7) ∧
    (vecTable none false).vTargetOk 16 = true ∧ (vecTable none false).vTargetOk 20 = false ∧
    (vecTable none false).vTargetOk 4 = true ∧ (vecTable none false).vTargetOk 0 = false ∧
    (∀ w ∈ (vecTable none false).grp.v.writes, w.eff.writesK 0 = false) ∧
    (vecTable none true).grp.v.exposed = true := by
  repeat' (first | apply And.intro | decide +kernel)

/-- A segment that passes its check (none open, or one that compatibility mode leaves unchecked), and one that does not. -/
theorem hyp_vector_segments :
    (∀ g, (vecTable none true).grp.v.seg = some g → g.passes (vecTable none true).pcc = true) ∧
    (⟨0, 5, 0, 0, false⟩ : Seg).passes 3 = true ∧ (⟨0, 3, 0, 0xFFFFFFFF, true⟩ : Seg).passes 3 = true ∧
    ¬ (∀ g, (vecTable (some ⟨0, 5, 0, 0, true⟩) true).grp.v.seg = some g →
        g.passes (vecTable (some ⟨0, 5, 0, 0, true⟩) true).pcc = true) := by
  refine ⟨fun _ h => (nomatch h), by decide, by decide, fun h => ?_⟩
  exact absurd (h _ rfl) (by decide +kernel)

/-- A vector or matrix table whose next word is at 8, in a page with a permission, with the word 5 behind it. -/
def literalAt (stream : Stream) (perm : Nat) : State :=
  holding 12 5 (onCore stream (let c := mapped perm (oneGroup fun g =>
      { g with v := { g.v with busy := true, exposed := true, header := 0, length := 4, pc := 8 } })
    { c with matrix := { c.matrix with run := some { owner := 0, header := 0, length := 4, exposed := true, treadle := false, pc := 8, first := 0,
                                                      started := true, seg := none, ended := false, trapped := false } } }))

/-- The literal behind a segment header is fetched, or its fetch faults. -/
theorem hyp_segment_literals :
    let next (stream : Stream) (perm : Nat) : Fetched :=
      (literalAt stream perm).fetch (literalAt stream perm).curKey (literalAt stream perm).curCtx 12
    (literalAt .vector 2).grp.v.pc + 4 = 12 ∧ next .vector 2 = .word 5 ∧ (∃ f, next .vector 1 = .fault f) ∧ (literalAt .vector 2).grp.v.exposed = true ∧
    (literalAt .matrix 2).mx.run.any (fun r => decide (r.pc + 4 = 12) && r.exposed) = true ∧ next .matrix 2 = .word 5 ∧ ∃ f, next .matrix 1 = .fault f := by
  refine ⟨?_, ?_, ⟨_, rfl⟩, ?_, ?_, ?_, ⟨_, rfl⟩⟩ <;> decide +kernel

/-- The indices of VectorLanding: k registers and another register. -/
theorem hyp_vector_landing : (3 : Nat) < 4 ∧ (1 : Nat) ≠ 0 := by decide

/-! ### Witnesses: engines and ports -/

/-- A group with x1 = 16, x2 = 5 and x3 = 2, and words in an executable page from address 16 on. -/
def tableAt (l : List Nat) : State :=
  (l.zipIdx.foldl (fun s (p : Nat × Nat) => holding (16 + 4 * p.2) p.1 s) (onCore .group (mapped 2 (oneGroup (withX [16, 5, 2])))))

/-- Headers of each kind at x1, a word that is none, and a misaligned register. -/
theorem hyp_engine_starts :
    let at1 (s : State) (w : BitVec 32) : Prop := (s.x 1).toNat % 4 = 0 ∧ s.fetch s.curKey s.curCtx (s.x 1) = .word w
    let sector (s : State) : State := s.keepSector s.curKey s.curCtx (s.x 1)
    (at1 (tableAt [0xA0000001]) 0xA0000001 ∧ Admits (tableAt [0xA0000001]) true false false [] [1, 2] ∧
      (tableAt [0xA0000001]).grp.v.busy = false ∧ HeaderOf 0xA0000001 0 false ∧
      (sector (tableAt [0xA0000001])).here.mayStart 0 false true = true) ∧
    (at1 (tableAt [0xA200FFFF]) 0xA200FFFF ∧ HeaderOf 0xA200FFFF 0 true ∧ (sector (tableAt [0xA200FFFF])).here.mayStart 0 true true = true) ∧
    (at1 (tableAt [0x90000001]) 0x90000001 ∧ (0x90000001 : BitVec 32).toNat / 2 ^ 28 ≠ 0xA) ∧
    (at1 (tableAt [0xA4000001]) 0xA4000001 ∧ HeaderOf 0xA4000001 1 false ∧ Admits (tableAt [0xA4000001]) true false false [] [1] ∧
      (tableAt [0xA4000001]).here.matrix.run = none ∧
      (tableAt [0xA4000001]).here.tableHeld (tableAt [0xA4000001]).pcc = false ∧ (tableAt [0xA4000001]).here.matrix.rows = [] ∧
      (sector (tableAt [0xA4000001])).here.mayStart 0 false false = true) ∧
    (at1 (tableAt [0xA6000001]) 0xA6000001 ∧ HeaderOf 0xA6000001 1 true ∧ (tableAt [0xA6000001]).here.job.compat = false ∧
      (sector (tableAt [0xA6000001])).here.mayStart 0 true false = true) ∧
    (Admits (tableAt [0xA0000001]) true false false [] [3, 2] ∧ ((tableAt [0xA0000001]).x 3).toNat % 4 ≠ 0) := by
  unfold Admits HeaderOf; repeat' (first | apply And.intro | decide +kernel)

/-- The clicker program of a copy of 64 bytes and CEND, as CRUN reads it. -/
def clickerTable : State := tableAt [0xA8000002, 0x0C00103F, 0x18000000]

def clickerBlank : Chan :=
  let s := clickerTable.keepSector clickerTable.curKey clickerTable.curCtx 16
  { (s.here.chan 0).setBase 0 5 with run := some (CRun.blank 0 16 [0x0C00103F, 0x18000000] s.here.j s.here.rcOrder s.pcc) }

def clickerRead : Chan :=
  match clickerBlank.readAll 3 with
  | .ok ch => ch
  | _ => clickerBlank

theorem hyp_crun :
    let s := clickerTable
    let s0 := s.keepSector s.curKey s.curCtx (s.x 1)
    (s.x 1).toNat % 4 = 0 ∧ s.fetch s.curKey s.curCtx (s.x 1) = .word 0xA8000002 ∧ Admits s true false false [] [1, 2] ∧
    HeaderOf 0xA8000002 2 false ∧ (s.here.chan 0).run = none ∧ s0.tableWords 20 2 = .ok [0x0C00103F, 0x18000000] ∧
    clickerBlank.readAll 3 = .ok clickerRead ∧ (s.x 2) = 5 ∧
    ∃ r, clickerRead.run = some r ∧ s0.here.programCause 0 r = none ∧ s0.here.rc.length + (clickerRead.entries r).length ≤ 32 := by
  refine ⟨?_, ?_, ?_, ?_, ?_, ?_, ?_, ?_, (clickerRead.run).get (by decide +kernel), ?_⟩
  all_goals (try unfold Admits); (try unfold HeaderOf)
  all_goals (repeat' (first | apply And.intro | decide +kernel))

/-- Core 0 with a change, in a group's turn with registers. -/
def coreWith (l : List Word) (f : Core → Core) : State := onCore .group (f (oneGroup (withX l)))

/-- The matrix table of owner 0 that runs from address 16. -/
def runOf (treadle exposed : Bool) : MRun :=
  { owner := 0, header := 16, length := 4, exposed, treadle, pc := 20, first := 0, started := true, seg := none, ended := false, trapped := false }

theorem hyp_engine_forms :
    (Admits (xs [5]) true false false [] [] ∧ (xs []).grp.v.busy = false ∧ (xs []).here.matrix.run = none ∧
      (xs []).here.matrix.rows = [] ∧ (xs []).here.matrix.drains = []) ∧
    (coreWith [] fun c => { c with matrix := { c.matrix with run := some (runOf false false) } }).here.matrix.run = some (runOf false false) ∧
    ((runOf false false).treadle = false ∧ (runOf true true).treadle = true) ∧
    (let s := coreWith [] fun c => { c with demands := [7] }
     s.here.job.compat = false ∧ s.holding = none ∧ s.here.demands = [7]) ∧
    (Admits (xs [0x80000001]) true false false [] [1] ∧ (5 : BitVec 4).toNat = 3 + 2 ∧
      (((xs [0x80000001]).here.chan 3).cc - (((xs [0x80000001]).x 1).setWidth 32 : BitVec 32)).toNat < 2 ^ 31) ∧
    ((xs [0]).holding = none ∧ (((xs [0]).here.chan 0).cc - (((xs [0]).x 1).setWidth 32 : BitVec 32)).toNat < 2 ^ 31) ∧
    (let ok (w : Nat) : Prop := w / 2 ^ 20 % 2 ^ 12 = 0 ∧ w / 2 ^ 16 % 8 ≤ 5 ∧ w / 2 ^ 12 % 4 ≠ 3 ∧ w / 2 ^ 10 % 4 ≤ 1 ∧ w / 2 ^ 4 % 64 = 0
     ok 0x5240F ∧ (0x5240F / 4 % 4 = 3) ∧ ¬ ok 0x60000 ∧ (xs [0x5240F]).here.job.compat = false ∧ (xs []).here.matrix.fq.length < 16) ∧
    (Admits (xs [16, 3, 32]) true false false [] [3, 1, 2] ∧ (xs [16]).here.eft.running = false ∧
      (∀ i : Fin 16, (xs [16]).here.ports[i].ldqs = []) ∧ ((xs [16]).x 1).toNat % 4 = 0 ∧ ((xs [18]).x 1).toNat % 4 ≠ 0) := by
  unfold Admits; repeat' (first | apply And.intro | decide +kernel)

/-- A bound port that ldq feeds and the matrix stream takes from, with its descriptor. -/
def ldqPort : Port := { Port.unbound with status := .bound, desc := 0x4700000000 }

/-- The eft stream of core 0 with that port. -/
def eftPort (p : Port) : State :=
  onCore .eft (let c := mapped 0 (oneGroup id); { c with ports := c.ports.set 0 p })

theorem hyp_port_forms :
    (Admits (xs [0x4700000000]) true false false [] [1] ∧ (15 : BitVec 5).toNat < 16 ∧ (xs [0x4700000000]).bindOk 15 ((xs [0x4700000000]).x 1) = true) ∧
    ((xs [0xFFFF]).bindOk 15 ((xs [0xFFFF]).x 1) = false) ∧
    ((coreWith [] fun c => { c with ports := c.ports.set 0 ldqPort }).here.port 0).status ≠ .unbound ∧
    (16 : BitVec 5).toNat = 16 ∧ ((xs []).here.port 15).status = .unbound ∧
    (let s := coreWith [] fun c => { c with ports := c.ports.set 0 ldqPort }
     (s.here.port 0).status = .bound ∧ s.holding = none ∧
       ((s.modHere fun c => c.modPort 0 fun p => { p with status := .closing }).here.port 0).drained = true) ∧
    (Admits (eftPort ldqPort) false true false [1] [1] ∧ ((eftPort ldqPort).here.port 0).feeds 4 = true ∧ (eftPort ldqPort).outstanding < 48 ∧
      Reaches (eftPort ldqPort) 0 8 .read (page 0) ∧ 8 ≤ ((eftPort ldqPort).here.port 0).byteRoom) ∧
    ((eftPort Port.unbound).here.port 0).feeds 4 = false := by
  unfold Admits Reaches; repeat' (first | apply And.intro | decide +kernel)

/-- A group that waits with a hold. -/
def heldWith (l : List Word) (w : Wait) (v : Option Word) (f : Core → Core) : State :=
  onCore .group (f (oneGroup fun g => { withX l g with hold := some ⟨0, w, v⟩ }))

theorem hyp_block_forms :
    (Admits (xs [8]) true false false [] [1] ∧ 8 ≤ ((xs [8]).x 1).toNat ∧ (xs [8]).holding = none) ∧
    (Admits (xs [0]) true false false [] [1] ∧ ((xs [0]).x 1).toNat < 8 ∧ (xs [0]).grp.lacking 0 = [] ∧ (xs [0]).grp.v.busy = false) ∧
    (let s := onCore .group (let c := oneGroup fun g => { withX [7] g with blocks := (List.range 32).map fun n => (n + 4, .pool n) }; c)
     Admits s true false false [] [1] ∧ (s.x 1).toNat < 8 ∧ s.holding = none ∧ s.grp.lacking 7 ≠ [] ∧
       s.here.budget < s.here.heldBlocks + (s.grp.lacking 7).length) ∧
    (let s := heldWith [7] (.blocks 7 3) (some 0) id
     Admits s true false false [] [1] ∧ s.holding = some ⟨0, .blocks 7 3, some 0⟩ ∧ s.grp.inPlace = true) := by
  unfold Admits; repeat' (first | apply And.intro | decide +kernel)

/-- A push whose answer is there. -/
def answered (full : Bool) : TaskPush :=
  { focus := ⟨0, 0, .group⟩, lane := 0, die := 0, queue := 0, record := 0, back := 0, order := 0, refused := some full }

theorem hyp_queue_forms :
    (Admits (xs [0x40]) true false false [] [1, 2, 3, 4] ∧ (xs []).here.job.compat = false ∧ (xs []).holding = none ∧
      (xs [0x40]).hereLaunch.headerOk ((xs [0x40]).x 1) = false ∧ (2 : BitVec 5).toNat ≤ 29 ∧ 30 ≤ (30 : BitVec 5).toNat) ∧
    ((launched oneQueue (xs [0])).holding = none ∧ (launched oneQueue (xs [0])).hereLaunch.headerOk 0 = true ∧ (xs [0]).scalar.twin = none) ∧
    (let s := { heldWith [] (.push 3) none id with pushes := [(3, answered true)] }
     Admits s true false false [] [1, 2, 3, 4] ∧ s.holding = some ⟨0, .push 3, none⟩ ∧ s.pushes.get 3 = some (answered true) ∧
       (answered true).refused = some true ∧ (answered true).back ≤ s.pcc) ∧
    (Admits (heldWith [] (.packet 3) (some 2) id) true false false [] [1, 2] ∧
      (heldWith [] (.packet 3) (some 2) id).holding = some ⟨0, .packet 3, some 2⟩) ∧
    (Admits (xs [0, 64]) true false false [] [1, 2] ∧ (xs [0, 64]).holding = none ∧ 64 ≤ ((xs [0, 64]).x 2).toNat) := by
  unfold Admits; repeat' (first | apply And.intro | decide +kernel)

/-- A device-fed queue of 16 packets that holds so many; a packet of version 0x0100 and one of version 0. -/
def devQueue (n : Nat) : State :=
  { xs [] with hub := { Hub.reset with queues := [(0, { LQueue.reset with enable := true, devfed := true, widx := BitVec.ofNat 32 n })] } }

theorem hyp_queue_append :
    ((devQueue 16).lqueue 0).enable = true ∧ ((devQueue 16).lqueue 0).devfed = true ∧
    ((devQueue 16).lqueue 0).ctx = (devQueue 16).here.job.ctx ∧ (0x0100 : BitVec 1024).toNat / 2 ^ 16 % 256 = (devQueue 16).here.job.ctx ∧
    (0x0100 : BitVec 1024).toNat % 2 ^ 16 = 0x0100 ∧ (0 : BitVec 1024).toNat % 2 ^ 16 ≠ 0x0100 ∧
    ((devQueue 16).lqueue 0).count = 2 ^ ((devQueue 16).lqueue 0).log2 ∧ ((devQueue 15).lqueue 0).count ≠ 2 ^ ((devQueue 15).lqueue 0).log2 ∧
    (devQueue 15).noHome (((devQueue 15).lqueue 0).slot ((devQueue 15).lqueue 0).widx) = none := by
  repeat' (first | apply And.intro | decide +kernel)

/-- A register of each access: FLAGS and RMODE also on the control die, AMAX, MFLAGS, GID; SHAPE with a twin; and no register. -/
theorem hyp_state_registers :
    (Admits (xs []) true false true [] [31] ∧ Admits (control []) true false true [] [31]) ∧
    (csrAccess 1 = some (.rw 0x1F) ∧ csrAccess 2 = some (.rw 3) ∧ (control []).cur.stream = .control ∧ csrAccess 4 = some .wide ∧
      csrAccess 0x10 = some .w1c ∧ csrAccess 0x20 = some .ro ∧ csrAccess 0 = none ∧ csrAccess 0xFFFF = none ∧ csrAccess 0x55 = none) ∧
    csrAccess 5 = some (.rw 0xFF) ∧ (xs []).badShape 0xFF = false ∧
    (onCore .group (let c := oneGroup asTwin; { c with job := { c.job with twin := true } })).badShape 8 = true ∧
    (onCore .group (let c := oneGroup asTwin; { c with job := { c.job with twin := true } })).badShape 7 = false := by
  unfold Admits; repeat' (first | apply And.intro | decide +kernel)

theorem hyp_ordering_forms :
    (Admits (xs []) true true true [] [] ∧ (∀ e ∈ (xs []).storeErrors, (5 : BitVec 3).toNat.testBit e.cls = false) ∧
      (∀ a ∈ (xs []).accs, (xs []).mine a.2 = true → a.2.unperformed = true → (5 : BitVec 3).toNat.testBit a.2.cls = false)) ∧
    (let s := heldWith [] (.commit 3) none id
     Admits s true false true [] [] ∧ s.holding = some ⟨0, .commit 3, none⟩ ∧ s.here.committed 3 = true) ∧
    (let s := inGroup fun g => { g with storeErrs := [⟨0, 8, 1⟩] }
     s.holding = none ∧ s.storeErrors.head? = some ⟨0, 8, 1⟩) ∧
    ((control []).cur.stream = .control ∧ (control []).holding = none ∧ (control []).storeErrors = [] ∧
      (control []).outstandingBy (fun a => !a.isLoad) = false) ∧
    (Admits (xs []) true false false [] [] ∧ (xs []).grp.kindId = 0xFF ∧ (xs []).holding = none ∧ (xs []).storeErrors = [] ∧
      (xs []).outstandingBy (fun a => !a.isLoad) = false) ∧
    (let s := heldWith [] (.boundary 4) (some 0) id
     s.grp.kindId = 0xFF ∧ s.holding = some ⟨0, .boundary 4, some 0⟩ ∧ s.here.job.compat = false) ∧
    ((inGroup fun g => { g with kindId := 0 }).grp.kindId ≠ 0xFF ∧ (1 : BitVec 3) ≠ 0) ∧
    (coreWith [] fun c => { c with job := { c.job with compat := true } }).here.job.compat = true ∧
    ((xs []).grp.v.busy = false ∧ (xs []).groupOutstanding = false ∧ (xs []).grp.storeErrs = [] ∧ (xs []).grp.status ≠ .joined) ∧
    (xs []).here.someReady = false ∧ (coreWith [] fun c => { c with sched := { c.sched with readyQ := [1] } }).here.someReady = true := by
  unfold Admits; repeat' (first | apply And.intro | decide +kernel)

/-- A control-die core with a change. -/
def controlWith (l : List Word) (f : Control → Control) : State :=
  { control l with control := (control l).control.set 0 (f ((control l).control[0])) }

theorem hyp_system_forms :
    (Admits (xs []) true false true [] [] ∧ (xs []).cur.stream = .group) ∧
    (Admits (control []) false false true [] [] ∧ ((control []).ctl 0).outstanding = false ∧
      ((controlWith [] fun k => { k with outstanding := true }).ctl 0).outstanding = true) ∧
    (Admits (control [0x10000]) false false true [] [1] ∧ ((control [1]).x 1).toNat % 65536 ≠ 0 ∧ ((control [0x10000]).x 1).toNat % 65536 = 0 ∧
      (control [0x10000]).moult.pages.length < 8192 ∧ (control [0x10000]).tagged (((control [0x10000]).qwin + 1) % 16) = 0 ∧
      (2 : BitVec 3).toNat ≤ 2 ∧ (control [0x10000]).holding = none ∧ ((control [0x10000]).x 1).getLsbD 63 = false) ∧
    (let s := controlWith [] fun k => { k with hold := some ⟨0, .shoot 3, none⟩ }
     s.holding = some ⟨0, .shoot 3, none⟩ ∧ s.shoots.get 3 = none) ∧
    (Admits (xs []) true false true [] [1] ∧ (xs []).holding = none) ∧
    (Admits (control []) true false true [] [1] ∧ (3 : BitVec 2) = 3) ∧
    (let s := heldWith [] (.until 0) none id
     s.holding = some ⟨0, .until 0, none⟩ ∧ 0 ≤ s.pcc) := by
  unfold Admits; repeat' (first | apply And.intro | decide +kernel)

theorem hyp_trap_entries :
    ((xs []).cur.stream = .group ∧ (xs []).here.chargeable (xs []).cur.slot = true ∧
      (let t : TrapArgs := { cause := 0x10, detail := 255 }; t.cause ≠ 0x0F ∧ t.pc = none ∧ t.cause ≠ 0x06 ∧ t.cause ≠ 0x07)) ∧
    (control []).cur.stream = .control ∧ ((control []).ctl 0).outstanding = false ∧
    ((controlWith [] fun k => { k with outstanding := true }).ctl 0).outstanding = true := by
  repeat' (first | apply And.intro | decide +kernel)

/-! ### Witnesses: the matrix stream and the clicker channels -/

/-- A port that holds one packet and that the matrix stream takes from or feeds. -/
def packetPort (desc : Word) : Port := { Port.unbound with status := .bound, desc, packets := [⟨0, BitVec.allOnes 1024, 0, 0⟩] }

/-- A turn of the matrix stream, with one format word. -/
def matrixTurn (treadle exposed : Bool) (f : Matrix → Matrix) : State :=
  onCore .matrix (let c := oneGroup id
    { c with matrix := f { c.matrix with run := some (runOf treadle exposed), fq := [⟨5, 0⟩] }
             ports := (c.ports.set 0 (packetPort 0x4700FF0000)).set 1 { (packetPort 0x76001F0000) with packets := [] }
             job := { c.job with spmSize := 8192 } })

theorem hyp_matrix_multiply :
    let s := matrixTurn false true fun m => { m with stamp := some 0 }
    MatrixLive s (runOf false true) ∧ (runOf false true).treadle = false ∧ (s.here.port 0).serves 7 = true ∧ 1 ≤ (s.here.port 0).capacity ∧
    s.mx.aFree ≤ s.pcc ∧ ((runOf false true).exposed = true ∧ s.mx.stamp = some 0 ∧ s.mx.t0 + 0 = s.pcc) ∧
    mmaFed s 0 1 1 5 = true ∧ (s.mx.bank s.mx.act.toNat).usable ≤ s.pcc ∧ mmaPopOk s 0 0 1 1 false 5 = true ∧
    mmaPopOk s 0 0 1 1 false 1 = false ∧ mmaFed s 0 1 1 1 = true ∧
    (matrixTurn false false fun m => { m with fq := [] }).mx.fq = [] := by
  unfold MatrixLive; repeat' (first | apply And.intro | decide +kernel)

theorem hyp_format_ready : FormatReady (matrixTurn false false id) 5 := ⟨⟨5, 0⟩, [], by decide +kernel, by decide +kernel, by decide +kernel⟩

theorem hyp_matrix_commands :
    let s := matrixTurn false false id
    (MatrixLive s (runOf false false) ∧ (s.here.port 1).feeds 7 = true ∧ s.mx.drFree ≤ s.pcc ∧ 32 ≤ (s.here.port 1).free ∧
      s.mx.tilePending [7] = false ∧ drainBytes (fwDfmt 5) ≤ (s.here.port 1).bytesPer ∧ s.mx.quiet = true) ∧
    (s.heldOver = false ∧ (s.mAddress 0 8).toNat % 16 = 0 ∧
      (∃ c, s.here.enter true (s.mAddress 0 8).toNat 4096 s.here.matrix.cmds s.pcc = some c ∧
        c.rangeBlocked 0 s.here.matrix.cmds = false) ∧
      (s.mAddress 0 8).toNat + 32 * drainBytes (fwDfmt 5) ≤ s.here.job.spmSize) ∧
    ((∃ c, s.here.enter false (s.mAddress 0 8).toNat 2112 s.here.matrix.cmds s.pcc = some c ∧ c.rangeBlocked 0 s.here.matrix.cmds = false) ∧
      s.mx.wlFree ≤ s.pcc ∧ (s.mAddress 0 8).toNat + loadBytes (fwB 5) ≤ s.here.job.spmSize) ∧
    (MatrixLive (matrixTurn false true id) (runOf false true) ∧ (runOf false true).exposed = true ∧ (runOf false false).exposed = false) := by
  refine ⟨?_, ⟨?_, ?_, ⟨_, rfl, ?_⟩, ?_⟩, ⟨⟨_, rfl, ?_⟩, ?_⟩, ?_⟩
  all_goals (try unfold MatrixLive)
  all_goals (repeat' (first | apply And.intro | decide +kernel))

/-- The weight bank of a load must be past its last use. -/
theorem hyp_matrix_load :
    let s := { matrixTurn false false id with pcc := 1 }
    MatrixLive s (runOf false false) ∧ (s.here.matrix.bank 1).busyTo < s.pcc ∧
    (let t := onCore .matrix (let c := (matrixTurn false false id).here; { c with j := c.j.set 0 8 })
     (t.mAddress 0 1).toNat % 16 ≠ 0 ∧ MatrixLive t (runOf false false)) := by
  unfold MatrixLive; repeat' (first | apply And.intro | decide +kernel)

theorem hyp_matrix_control :
    (let s := matrixTurn false true id
     s.cur.stream = .matrix ∧ s.mx.run = some (runOf false true) ∧ s.mx.replay = none ∧ (runOf false true).trapped = false ∧
       (runOf false true).seg = none ∧ (runOf false true).exposed = true) ∧
    (let s := matrixTurn true true id
     s.mx.run = some (runOf true true) ∧ (runOf true true).treadle = true ∧ (runOf true true).pc = (runOf true true).header + 4 ∧
       (runOf true true).seg = none ∧ s.here.job.compat = false ∧ (3 : BitVec 8).toNat < (4 : BitVec 5).toNat ∧ (4 : BitVec 5).toNat ≤ (4 : BitVec 8).toNat) ∧
    (matrixTurn false false id).segPasses ⟨0, 0, 0, 0xFFFFFFFF, true⟩ = true := by
  repeat' (first | apply And.intro | decide +kernel)

/-- A row of an MMA into tile 2, of the L8 formats of format word 5, that is written in cycle 40. -/
def rowOfMma (t : Bool) (fw : Word) (result : Option (BitVec 2048)) : MRow :=
  { cmd := 0, pop := 1, aport := none, sport := none, land := 40, bank := 0, fw, tile := 2, row := 3, t, a := 0, sa := 0, bad := false, last := true, result }

theorem hyp_matrix_cycle :
    (let r := rowOfMma true 9 (some 7)
     let m := { Matrix.reset with rows := [r], zeroings := [⟨40, 3⟩] }
     m.rows = [r] ∧ r.land ≤ 40 ∧ r.result = some 7 ∧ r.t = true ∧ 2 ≤ fwB r.fw ∧ m.zeroings = [⟨40, 3⟩]) ∧
    (let r := rowOfMma false 5 none
     r.land = 39 + 1 ∧ r.result = none ∧ ¬(r.t = true ∧ 2 ≤ fwB r.fw) ∧ 38 + 1 < r.land) ∧
    (let d : MDrain := ⟨0, 5, 2, 5, none, 64, [(13, 7)], 31, 0, 0⟩
     d.nread < 32 ∧ 35 < d.start + d.nread ∧ d.start + d.nread ≤ 36 ∧ d.port = none ∧ fwDfmt d.fw = 0) ∧
    (let c := { Core.empty with matrix := { Matrix.reset with loads := [⟨34, 1, 1, 0, 0⟩] } }
     c.matrix.loads = [⟨34, 1, 1, 0, 0⟩]) := by
  repeat' (first | apply And.intro | decide +kernel)

/-- Infinities, NaN, and numbers in a sum of the array; a product that is NaR, one that overflows, and one that is small. -/
theorem hyp_array_arithmetic :
    Fmt.f32.read 0x7FC00000 = .nan false ∧ Fmt.f32.read 0x7F800000 = .inf false ∧ Fmt.f32.read 0xFF800000 = .inf true ∧
    (∃ m e, Fmt.f32.read 0x3F800000 = .fin false m e) ∧ (128 : Int) ≤ (30000 + 2768) / 256 ∧ ((-40000 : Int)) / 256 < -126 ∧ (0 : Nat) < 1 := by
  refine ⟨?_, ?_, ?_, ⟨_, _, rfl⟩, ?_, ?_, ?_⟩ <;> decide +kernel

/-- A turn of clicker channel 3, whose program is at its second word or has its operation already. -/
def reading (op : Option COp) (f : CRun → CRun) : State :=
  onCore (.chan 3) (let c := mapped 1 (oneGroup id)
    { c with chans := c.chans.set 3 { Chan.reset with run := some (f { CRun.blank 0 16 [] c.j 0 0 with op }) } })

/-- The program of that channel. -/
def theRun (op : Option COp) (f : CRun → CRun) : CRun := f { CRun.blank 0 16 [] Core.empty.j 0 0 with op }

theorem hyp_clicker_words :
    let none' := reading none id
    let copy := some (COp.copy 0 0 64)
    let done := reading copy fun r => { r with levels := [], next := 1 }
    (none'.cur.stream = .chan 3 ∧ none'.ch.run = some (theRun none id) ∧ (theRun none id).op = none ∧ (theRun none id).ended = false ∧
      (5 : BitVec 3).toNat < 6 ∧ 6 ≤ (6 : BitVec 3).toNat ∧ refOk 0 5 = true ∧ refOk 5 15 = true ∧ litMbzOk 0 = true ∧ litLtype 0 ≤ 3 ∧
      wholeElements 1 0 1024 = true) ∧
    ((reading copy id).ch.run = some (theRun copy id) ∧ (theRun copy id).op ≠ none) ∧
    (done.cur.stream = .chan 3 ∧ (theRun copy fun r => { r with levels := [], next := 1 }).copied = true ∧
      (theRun copy fun r => { r with levels := [], next := 1 }).sigOut = false ∧ Reaches done (done.ch.base 5) 8 .both (page 1)) := by
  unfold Reaches; repeat' (first | apply And.intro | decide +kernel)

/-! ### Witnesses: events of accesses and stores -/

/-- An access of the group's stream of core 0. -/
def accessOf (kind : AccKind) : Access :=
  { core := 0, slot := 0, stream := .group, kind, pc := 4, va := 16, pa := 0x10000000010, size := 8, cls := 0, issued := 0, performAt := 5,
    replyAt := 9, order := 7, value := 3, performed := false, error := none, window := 0, lease := none, tag := none, host := 0 }

/-- A machine with one access, numbered 3. -/
def withAccess (a : Access) (s : State) : State := { s with accs := [(3, a)] }

/-- A group whose x1 awaits access 3. -/
def awaiting (g : Group) : Group := { g with sc := { g.sc with waits := [(1, 3)] } }

theorem hyp_access_events :
    (let a := accessOf (.load 1 true)
     let s := withAccess a (inGroup awaiting)
     s.accs.get 3 = some a ∧ s.awaits a = true ∧ (1 : Nat) ≠ 0 ∧ (scalarAt s a.focus).waits.get 1 = some 3 ∧ a.stream = .group ∧
       a.core < Config.controlBase ∧ (s.core a.core).chargeable a.slot = true ∧ a.performed = false ∧ s.heldBehind 3 a = false ∧ isConfig a.pa = false ∧ a.tag = none ∧
       (s.isLocal a.pa = true ∨ a.replyAt ≠ 0)) ∧
    (let a := accessOf (.amo 1 0 2 0)
     let s := withAccess a (xs [])
     s.accs.get 3 = some a ∧ a.performed = false ∧ s.heldBehind 3 a = false ∧ (∀ p ∈ (s.core a.core).mem.pend, p.performed = false) ∧
       ∀ g ∈ granulesOf a.pa a.size, s.poison.has g = false) ∧
    (let a := { accessOf .store with core := 1600, stream := .control }
     let s := { withAccess a (control []) with dies := [(0, { Die.reset with inReset := false })] }
     s.accs.get 3 = some a ∧ a.onCompute = false ∧ a.performed = false ∧ isConfig a.pa = false ∧ s.heldBehind 3 a = false ∧ s.noHome a.pa = none) := by
  repeat' (first | apply And.intro | decide +kernel)

/-- A pending store of core 0. -/
def pending (place : StorePlace) (performed : Bool) : PStore :=
  { order := 7, slot := 0, stream := .group, pa := 0x10000000010, size := 8, value := 3, cls := 0, place, performed, acked := false,
    committing := false, fenced := 0, poison := false, window := 0, va := 16, ctx := 0 }

/-- Core 0 with that store pending and a commit of number 5 in progress. -/
def storing (p : PStore) : State :=
  coreWith [] fun c => { c with mem := { c.mem with pend := [p], commits := [(5, [3, 4])] } }

theorem hyp_store_events :
    (let a := accessOf .store
     let s := withAccess a (storing (pending .inFlight true))
     s.accs.get 3 = some a ∧ a.stream = .group ∧ a.core < Config.controlBase ∧ s.awaits a = true ∧ s.fabric.waiting = [] ∧ s.fabric.queue = []) ∧
    (let p := pending .versioned true
     let a := accessOf (.commit 5 [p])
     let s := withAccess a (storing p)
     s.accs.get 3 = some a ∧ (s.core a.core).mem.pend.filter (fun q => [p].any fun x => decide (x.order = q.order)) = [p] ∧
       (s.isLocal a.pa = true ∨ a.replyAt ≠ 0) ∧
       s.cores.has a.core = true ∧ (s.core a.core).mem.commits.wf = true ∧ (s.core a.core).mem.commits.get 5 = some [3, 4]) ∧
    (let a := { accessOf (.ldq 0) with stream := .eft }
     let s := withAccess a (eftPort { ldqPort with ldqs := [⟨3, 8, none, false⟩] })
     s.accs.get 3 = some a ∧ s.cores.has a.core = true ∧ ((s.core a.core).port 0).ldqs = [⟨3, 8, none, false⟩]) ∧
    (let s := storing (pending .dirty true)
     s.cores.has 0 = true ∧ pending .dirty true ∈ (s.core 0).mem.pend ∧ (pending .dirty true).place = .dirty ∧
       (pending .dirty true).pa / 512 = 2147483648 ∧ (pending .dirty true).pa / 128 = 8589934592 ∧
       s.entryFree 0 (8589934592 * 128) = true) ∧
    (let s := { storing (pending .dirty true) with agenda := [(9, .dirtySectorEviction 0 8589934592)] }
     (∃ q ∈ s.agenda, q.2 = .dirtySectorEviction 0 8589934592) ∧
       ((s.core 0).mem.pend.filter fun p => decide (p.pa / 128 = 8589934592) && p.performed) ≠ [] ∧ s.accs = []) ∧
    (let s := vec false fun v => { v with ended := true }
     (s.core 0).groups.has 0 = true ∧ ((s.core 0).group 0).v.clears = true ∧ ∀ m ∈ ((s.core 0).group 0).v.mems, m.fault = none) := by
  repeat' (first | apply And.intro | decide +kernel)

/-- A group that waits for walk 3. -/
def walking (dropped : Bool) : State :=
  { (onCore .group (oneGroup fun g => { g with hold := some ⟨0, .walk 3, none⟩ })) with
    walks := [(3, ⟨0, 0, 0x10000, 0, [⟨⟨0, 0, .group⟩, 0x10000, false, 0⟩], dropped, 0, .walking, 0⟩)] }

/-- Page tables that map the page 0x10000 (its leaf entry holds 0x10000000000 with write permission). -/
def tables : State :=
  let s := walking false
  let s := { s with ctxs := [(0, { Ctx.reset with valid := true, root := 0 })] }
  let table (s : State) (at_ v : Nat) : State := { s with mem := Memory.writeN s.mem at_ 8 v }
  table (table (table (table s 0 0x2001) 0x2000 0x4001) 0x4000 0x6001) 0x6008 0x10000000007
theorem hyp_walk_events :
    (let w : Walk := ⟨0, 0, 0x10000, 0, [⟨⟨0, 0, .group⟩, 0x10000, false, 0⟩], false, 0, .walking, 0⟩
     tables.walks = [(3, w)] ∧ w.joined = [⟨⟨0, 0, .group⟩, 0x10000, false, 0⟩] ∧ w.dropped = false ∧
       tlbFind (tables.stlb 0) w.ctx w.va = none ∧ tables.walkPage 0 0 0x10000 = .found ⟨0, 0x10000, 0, 0x10000000000, 1⟩ ∧
       tables.cores.has 0 = true ∧ ((tables.core 0).group 0).hold.any (fun h => decide (h.wait = .walk 3)) = true) ∧
    (let w : Walk := ⟨0, 0, 0x10000, 0, [⟨⟨0, 0, .group⟩, 0x10000, false, 0⟩], false, 0, .hit, 0⟩
     let e : TlbEntry := ⟨0, 0x10000, 0, 0x10000000000, 1⟩
     let s := { walking false with walks := [(3, w)], dies := [(0, { Die.reset with inReset := false, stlbs := [(0, [e])] })] }
     s.walks = [(3, w)] ∧ w.stage = .hit ∧ w.dropped = false ∧ tlbFind (s.stlb 0) w.ctx w.va = some e ∧ s.cores.has 0 = true) ∧
    (walking true).walks = [(3, ⟨0, 0, 0x10000, 0, [⟨⟨0, 0, .group⟩, 0x10000, false, 0⟩], true, 0, .walking, 0⟩)] := by
  repeat' (first | apply And.intro | decide +kernel)

/-! ### Witnesses: engines, ports, the scheduler -/

/-- A command window with one command, of tiles that it has opened, or overflowed. -/
def windowOf (overflow : Bool) : Window :=
  { cmds := [⟨0, 0x0C000000, 20, 0, none, [], [], 0, 0, 0⟩], bytes := 0, overflow, replayed := false, opened := [], unopened := [] }

/-- A clicker program that copies 64 bytes in the scratchpad. -/
def copyRun (f : CRun → CRun) : CRun :=
  f { CRun.blank 0 16 [] Core.empty.j 0 0 with
      op := some (.copy 0 0 64), srcSpace := 0, dstSpace := 0, srcRef := 0, dstRef := 1, startFree := 0 }

/-- That program in channel 3. -/
def copying (f : CRun → CRun) : State :=
  onCore (.chan 3) (let c := oneGroup id
    { c with job := { c.job with spmSize := 4096 }, chans := c.chans.set 3 { Chan.reset with run := some (copyRun f) } })

theorem hyp_channel_events :
    (let s (o : Bool) := matrixTurn false false fun m => { m with window := some (windowOf o) }
     (s false).cores.has 0 = true ∧ ((s false).core 0).matrix.run = some (runOf false false) ∧ ((s false).core 0).matrix.window = some (windowOf false) ∧
       (runOf false false).trapped = false ∧ (runOf false false).orphan = false ∧ ((s false).core 0).matrix.replayable = true ∧ ((s true).core 0).matrix.replayable = false ∧
       ((s true).core 0).chargeable (runOf false false).owner = true) ∧
    (let s := copying id
     let r := copyRun id
     s.cores.has 0 = true ∧ ((s.core 0).chan 3).run = some r ∧ r.op = some (.copy 0 0 64) ∧ r.srcSpace = 0 ∧ r.dstSpace = 0 ∧ r.copies = [] ∧
       (s.core 0).inReservation (((s.core 0).chan 3).sourceOf r r.next) 64 = true ∧
       (s.core 0).inReservation (((s.core 0).chan 3).destOf r r.next) 64 = true ∧
       (((s.core 0).chan 3).sourceOf r r.next).toNat + 64 ≤ 2 ^ 19 ∧ ({ s with cur := ⟨0, r.owner, .chan 3⟩ }).copyReady r = true) ∧
    (let s := copying fun r => { r with next := 1, ended := true }
     let r := copyRun fun r => { r with next := 1, ended := true }
     ((s.core 0).chan 3).run = some r ∧ r.ended = true ∧ r.copied = true ∧ r.trapped = false) ∧
    (let s := copying fun r => { r with sigOut := true }
     ((s.core 0).chan 3).run = some (copyRun fun r => { r with sigOut := true }) ∧
       (copyRun fun r => { r with sigOut := true }).orphan = false ∧ (s.core 0).chargeable 0 = true) := by
  repeat' (first | apply And.intro | decide +kernel)

/-- A copy that has been issued. -/
theorem hyp_channel_copy :
    let k : CCopy := { iter := 0, dest := [], reading := 0, data := 0, poison := 0, issued := true, writing := 0 }
    let s := copying fun r => { r with copies := [k], next := 1 }
    ((s.core 0).chan 3).run = some (copyRun fun r => { r with copies := [k], next := 1 }) ∧ k.issued = true := by
  repeat' (first | apply And.intro | decide +kernel)

/-- Cores 0 and 1 of one launch: port 0 of core 0 sends its packet to port 1 of core 1. -/
def peers : State :=
  let c (role : Nat) (f : Vector Port 16 → Vector Port 16) : Core :=
    let c := oneGroup id
    { c with job := { c.job with role := BitVec.ofNat 32 role }, ports := f c.ports }
  let a := c 0 fun p => p.set 0 (packetPort 0x00011075000F0000)
  let b := c 1 fun p => p.set 1 { packetPort 0x00000057000F0000 with packets := [] }
  launched { oneQueue with binding := [(0, 0), (1, 1)] } { onCore .group a with cores := [(0, a), (1, b)] }

/-- A run of the treadle stream, with a demand that waits to be sent. -/
def treadleRun (tstate slot : Nat) : State :=
  let s := matrixTurn true true id
  { s with cores := [(0, { s.here with treadle := { Treadle.reset with tstate := BitVec.ofNat 32 tstate, slot, bp := 4, waiting := [⟨0, 9⟩] } })] }

theorem hyp_peer_bytes :
    peers.cores.has 0 = true ∧ peers.peerOf 0 0 = some 1 ∧ (1 : Nat) ≠ 0 ∧ ∃ b l, peers.peerBytes 0 0 = b :: l := by
  refine ⟨by decide +kernel, by decide +kernel, by decide, List.exists_cons_of_ne_nil (by decide +kernel)⟩

theorem hyp_port_events :
    (let f : Flight := ⟨1, 0, 0, 0, 0, [⟨1, true, false⟩], 0, 0, 0⟩
     let s := { coreWith [] fun c => { c with ports := c.ports.set 0 { ldqPort with inflight := 1 } } with flights := [(3, f)] }
     s.cores.has 0 = true ∧ s.flights.get 3 = some f ∧ f.core = 0 ∧ f.srcCore ≠ 0 ∧ ((s.core 0).port 0).inflight ≠ 0 ∧
       ((s.core 0).port 0).taken = f.number ∧ ((s.core 0).port 0).since = f.since ∧ ((s.core 0).port 0).since ≠ { f with since := 9 }.since) ∧
    (let s := coreWith [] fun c => { c with ports := c.ports.set 0 { ldqPort with status := .closing } }
     ((s.core 0).port 0).status = .closing ∧ ((s.core 0).port 0).drained = true) ∧
    (let s := { treadleRun 0x000E0000 5 with pcc := 8 }
     (s.core 0).matrix.run.any (fun r => r.treadle) = true ∧ (s.core 0).matrix.replay = none ∧
       ({ s with cur := ⟨0, 0, .matrix⟩ }).slotStart = true ∧ (s.core 0).treadle.tstate.toNat % 8 < 4 ∧ (s.core 0).treadle.slot ≠ s.pcc ∧
       (s.core 0).treadle.strict = false ∧ (s.core 0).treadle.tstate.toNat / 65536 % 256 < 15) ∧
    (let s0 := holding 24 0x0C000000 (holding 28 0x28000000 (treadleRun 0x000E0000 5))
     let c := mapped 2 (s0.core 0)
     let s := { s0 with cores := [(0, { c with ports := c.ports.set 0 { packetPort 0x4700FF0000 with packets := [⟨0, 0, 0, 0⟩] } })], pcc := 8 }
     let z := { s with cur := ⟨0, 0, .matrix⟩ }
     (s.core 0).matrix.replay = none ∧ z.slotStart = true ∧ (s.core 0).treadle.tstate.toNat % 8 < 4 ∧ (s.core 0).treadle.slot < s.pcc ∧
       z.nextAport = some 0 ∧ z.endMark 0 = true) ∧
    (let z := { treadleRun 0x000E0000 5 with pcc := 8, cur := ⟨0, 0, .matrix⟩ }
     z.nextAport.any z.endMark = false) ∧
    ((treadleRun 4 0).core 0).treadle.tstate.toNat % 8 = 4 ∧
    ((treadleRun 0 0).sendable ((treadleRun 0 0).core 0).treadle = some ⟨0, 9⟩ ∧ (treadleRun 0 0).cores.has 0 = true) ∧
    ((xs []).core 0).waiting Wait.demand? = [] ∧ ((heldWith [] (.demand 5) none id).core 0).waiting Wait.demand? = [0] := by
  repeat' (first | apply And.intro | decide +kernel)

/-! ### Witnesses: the scheduler, phases and tasks -/

theorem hyp_scheduler_events :
    (let s := launched oneQueue (coreWith [] fun c => { c with groups := [], job := { c.job with launchGroups := 9 } })
     s.cores.has 0 = true ∧ s.hub.launches.get 0 = some oneQueue ∧ (s.core 0).job.launch = 0 ∧ (s.core 0).job.seqNext = 0) ∧
    (let s := coreWith [] fun c => { c with groups := [], job := { c.job with seqNext := 1 } }
     (s.core 0).job.killed = false ∧ (s.core 0).job.ending = none ∧ s.jobDone 0 = true) ∧
    (let s := launched oneQueue (coreWith [] fun c => { c with job := { c.job with ending := some 3 } })
     (s.core 0).job.ending = some 3 ∧ (s.core 0).committed 3 = true ∧ (s.core 0).mem.pend = []) ∧
    (let s := { heldWith [] (.boundary 0) none id with pcc := 4 }
     s.cores.has 0 = true ∧ s.swapWait 0 0 = some none) ∧
    (let s := inGroup fun g => { g with status := .waiting }
     (s.core 0).groups.has 0 = true ∧ ((s.core 0).group 0).status = .waiting ∧ (s.core 0).wakes s.accs ((s.core 0).group 0) = true) ∧
    (let s := { onCore .group { oneGroup (fun g => { g with status := .ready }) with sched := { Sched.reset with readyQ := [0], vacant := 8 } } with pcc := 1 }
     (s.core 0).sched.readyQ = [0] ∧ (s.core 0).entering s.pcc = some 0 ∧ (s.core 0).sched.active.toList.getD 7 none = none) := by
  repeat' (first | apply And.intro | decide +kernel)

/-- A group that has waited for a load for 16 × LDSW cycles: it leaves with the load. -/
theorem hyp_swap_for_a_load :
    let c := mapped 2 (oneGroup awaiting)
    let s := { withAccess (accessOf (.load 1 true)) (holding 0 0x04210800 (onCore .group c)) with pcc := 600 }
    s.swapWait 0 0 = some (some (.load 3)) := by
  decide +kernel

/-- A full active set, with a ready group. -/
def fullCore : Core :=
  { oneGroup id with
    groups := (List.range 9).map fun n => (n, { Group.empty with status := if n < 8 then .active else .ready })
    sched := { Sched.reset with active := Vector.ofFn fun i : Fin 8 => some i.val, readyQ := [8] } }

theorem hyp_rotation_and_move :
    ((({ onCore .group fullCore with pcc := 64 }).core 0).rotates 64 = some 0 ∧ fullCore.rotatesNow = none ∧ (fullCore.group 0).goesOn = false) ∧
    (let c := { fullCore with groups := fullCore.groups.set 0 { fullCore.group 0 with hold := some ⟨0, .boundary 0, none⟩ } }
     c.rotatesNow = none ∧ c.rotates 64 = some 0 ∧ (c.group 0).goesOn = true) ∧
    ({ fullCore with sched := { fullCore.sched with rotating := [0] } }).rotatesNow = some 0 ∧
    (let m : Move := ⟨0, 1, .pool 3, none⟩
     let s := onCore .group { oneGroup (fun g => { g with blocks := [(1, .awaited)] }) with sched := { Sched.reset with move := some m } }
     (s.core 0).sched.move = some m ∧ m.back = none ∧ (s.core 0).sched.requests = [] ∧ ((s.core 0).group 0).blocks.has 1 = true) := by
  repeat' (first | apply And.intro | decide +kernel)

/-- A message of member 1 about phase 7 of fabric launch 9. -/
def message : FabricArrival := { fabid := 9, ph4 := 7, member := 0, coord := 0x21, fpkgs := 2, answer := none }

/-- A launch on two packages, of fabric identifier 9. -/
def twoPackages : Launch :=
  { oneQueue with packet := (2 <<< (8 * 0x6A)) ||| (9 <<< (8 * 0x6C)), info := { LaunchInfo.none with members := [0x21, 0] }, sentPh4 := some 7 }

theorem hyp_phase_events :
    (let s := coreWith [] fun c => { c with job := { c.job with arriving := some (3, 4) } }
     s.cores.has 0 = true ∧ (s.core 0).job.arriving = some (3, 4) ∧ (s.core 0).committed 3 = true) ∧
    (let s := launched oneQueue (coreWith [] fun c => { c with job := { c.job with arrival := some 0 } })
     s.hub.launches.get 0 = some oneQueue ∧ s.boundary 0 oneQueue 0 0 = some .agreed ∧ s.membersOf 0 oneQueue 0 0 = [0]) ∧
    (message.answer = none ∧ (xs []).fabLaunch 9 = none) ∧
    (let s := launched twoPackages (xs [])
     s.fabLaunch message.fabid = some (0, twoPackages) ∧ s.hub.launches.get 0 = some twoPackages ∧ message.fpkgs = pktFPkgs twoPackages.packet ∧
       twoPackages.info.members[message.member]? = some message.coord) := by
  repeat' (first | apply And.intro | decide +kernel)

/-- A torus of 4 × 4 × 4 packages, with every link up. -/
def torus : State :=
  { xs [] with fabric := { Fabric.reset with sizeX := 4, sizeY := 4, sizeZ := 4, links := Vector.replicate 6 { Link.reset with up := true } } }

/-- An arrival that is not recorded yet, sent again from cycle 0 on. -/
def unrecorded : FabSent := ⟨0, 0, 0x21, { message with coord := 0 }, some 0⟩

/-- Two cores of one launch whose groups wait at a boundary of level 0, and a launch on two packages at one of level 4. -/
theorem hyp_phase_members :
    (let c := oneGroup fun g => { g with hold := some ⟨0, .boundary 0, none⟩, kindId := 0xFF }
     let c := { c with job := { c.job with arrival := some 0 } }
     let l := { oneQueue with binding := [(0, 0), (1, 1)], packet := (1 <<< (8 * 0x38)) ||| (1 <<< (8 * 0x2E)) }
     let s := launched l { onCore .group c with cores := [(0, c), (1, c)] }
     s.hub.launches.get 0 = some l ∧ pktElastic l.packet = false ∧ s.boundary 0 l 1 0 = none ∧ (∀ k ∈ [0, 1], (s.core k).inBoundary = [0]) ∧
       (∀ k ∈ [0, 1], ((s.core k).group 0).kindId = 0xFF ∧ ((s.core k).group 0).status ≠ .joined) ∧
       (s.membersOf 0 l 0 (l.domainOf 0 0 0)).Nodup ∧ s.boundary 0 l 0 (l.domainOf 0 0 0) = some .agreed) ∧
    (let c := oneGroup fun g => { g with hold := some ⟨0, .boundary 4, none⟩, kindId := 0xFF }
     let c := { c with job := { c.job with arrival := some 4 } }
     let l := { twoPackages with info := { LaunchInfo.none with members := [0, 0x21] }, sentPh4 := none }
     let s := { launched l { onCore .group c with cores := [(0, c)] } with fabric := torus.fabric }
     s.boundary 0 l 4 0 = some .agreed ∧ pktFPkgs l.packet = 2 ∧ l.info.members = [s.fabric.coord, 0x21] ∧ (0x21 : Nat) ≠ s.fabric.coord ∧
       s.fabricRefusal 0x21 0 = none ∧ l.sentPh4 ≠ some (s.phase4 0) ∧ ((s.phase4 0).toNat, 1) ∉ l.recorded ∧
       s.fabLaunch 9 = some (0, l) ∧ ¬(message.fpkgs = pktFPkgs l.packet ∧ l.info.members[message.member]? = some message.coord) ∧
       s.coresOf 0 = [0] ∧ (s.core 0).inBoundary = [0] ∧ (s.core 0).chargeable 0 = true ∧
       (((s.core 0).group 0).hold.any fun h => decide (h.wait = .boundary 4)) = true) := by
  repeat' (first | apply And.intro | decide +kernel)

theorem hyp_arrival_resend :
    (let s := { torus with fabric := { torus.fabric with arrivals := [unrecorded] } }
     s.fabric.arrivals = [unrecorded] ∧ unrecorded.launch = 0 ∧ unrecorded.member = 0 ∧ (∃ n, unrecorded.again = some n ∧ n ≤ s.pcc) ∧
       s.fabricRefusal unrecorded.dest 0 = none) ∧
    unrecorded.answered { message with answer := some .notYet } = true ∧ unrecorded.answered { message with answer := some .recorded } = true := by
  refine ⟨⟨rfl, rfl, rfl, ⟨0, rfl, by decide +kernel⟩, by decide +kernel⟩, by decide +kernel, by decide +kernel⟩

/-- A queue of die 0 that holds so many records in its ring and its backing area. -/
def queueOf (ring backing cap : Nat) : State :=
  { coreWith [] fun c => { c with job := { c.job with slots := 2, seqNext := 1 } } with
    dies := [(0, { Die.reset with inReset := false, queues := [(0, ⟨0, 0, cap, List.replicate ring 0, List.replicate backing 0, false, 0⟩)] })] }

theorem hyp_task_push :
    (let p : TaskPush := { answered false with refused := none }
     let s (n m c : Nat) := { queueOf n m c with pushes := [(3, p)] }
     (s 2 0 0).pushes.get 3 = some p ∧ p.order = 0 ∧ p.die = 0 ∧ p.queue = 0 ∧
       (∀ y ∈ (s 2 0 0).pushes, y.1 < 3 → y.2.focus.core = p.focus.core → y.2.queue = 0 → y.2.refused ≠ none) ∧
       (((s 2 0 0).taskQueue 0 0).backing = [] ∧ ((s 2 0 0).taskQueue 0 0).ring.length < 2048) ∧
       (¬ (((s 2048 1 2).taskQueue 0 0).backing = [] ∧ ((s 2048 1 2).taskQueue 0 0).ring.length < 2048)) ∧
       ((s 2048 1 2).taskQueue 0 0).backing.length < ((s 2048 1 2).taskQueue 0 0).cap ∧
       ((s 2048 2 2).taskQueue 0 0).cap ≤ ((s 2048 2 2).taskQueue 0 0).backing.length) ∧
    (((queueOf 1537 0 1).taskQueue 0 0).backing = [] ∧ 1536 < ((queueOf 1537 0 1).taskQueue 0 0).ring.length ∧ 0 < ((queueOf 1537 0 1).taskQueue 0 0).cap) ∧
    (((queueOf 511 1 1).die 0).former.pathFree ≤ (queueOf 511 1 1).pcc ∧ ((queueOf 511 1 1).taskQueue 0 0).backing ≠ [] ∧ ((queueOf 511 1 1).taskQueue 0 0).ring.length < 512) := by
  repeat' (first | apply And.intro | decide +kernel)

/-- A loaded object of three pages with one slot that can be patched; its first class 2 kernel has one block, of one operation. -/
def theObject : CodeObject :=
  { ctx := 0, va := 0x10000, phys := 0, npage := 3, image := [], verified := [1], failed := [], slots := [⟨0, 0, 5, 0, 1⟩], values := [], current := [],
    root := 0, code := [2], blocks := [(0, [0])] }

/-- Groups are formed from 256 records of one kind at once, and from fewer after the timeout; the entry of a kind is in its code
object, or not. -/
theorem hyp_former :
    (let s := queueOf 256 0 0
     (s.core 0).freeSlots ≠ [] ∧ (s.die 0).nextQueue = some 0 ∧ (s.die 0).former.nextSel ≤ s.pcc ∧
       (s.taskQueue 0 0).ring = 0 :: List.replicate 255 0 ∧ s.formerCore (s.taskQueue 0 0).launch 0 = some 0) ∧
    (let s := { queueOf 1 0 0 with pcc := 1024 }
     (s.taskQueue 0 0).headSince + formerTimeoutOf (s.launch (s.taskQueue 0 0).launch).packet ≤ s.pcc) ∧
    (let f : FormerStart := ⟨0, 0, 0, [0]⟩
     let s := { inGroup fun g => { g with status := .starting } with starts := [(3, f)] }
     s.starts.get 3 = some f ∧ (s.core f.core).groups.has f.slot = true ∧ ((s.core f.core).group f.slot).status = .starting ∧
       ((s.core f.core).group f.slot).inPlace = true ∧ s.inObject (s.launch 0).packet 0 = true) ∧
    (let s := { inGroup fun g => { g with status := .starting } with objects := [(objectKey 0 0, { theObject with va := 0, npage := 0 })] }
     s.inObject (s.launch 0).packet ((s.core 0).group 0).sc.pc = false) := by
  repeat' (first | apply And.intro | decide +kernel)

/-! ### Witnesses: launches and the runtime -/

/-- A machine whose launch queue 0 is this one. -/
def queued (f : LQueue → LQueue) : State := { xs [] with hub := { Hub.reset with queues := [(0, f LQueue.reset)] } }

/-- A head whose waits are satisfied, eligible from cycle 0, of a priority. -/
def headOf (prio : Nat) (sig : Bool) : LHead :=
  { packet := BitVec.ofNat 1024 (prio * 2 ^ 24), info := LaunchInfo.none, sig0 := sig, sig1 := sig, eligible := some 0 }

theorem hyp_doorbells :
    ((queued id).reachesQueue 0 0 = true ∧ ((queued id).host.fn 0).insecure = false ∧ ((queued id).lqueue 0).devfed = false ∧
      ((16 : BitVec 32) - ((queued id).lqueue 0).ridx).toNat ≤ 2 ^ ((queued id).lqueue 0).log2 ∧
      2 ^ ((queued id).lqueue 0).log2 < ((17 : BitVec 32) - ((queued id).lqueue 0).ridx).toNat) ∧
    (let s := queued fun q => { q with enable := true }
     (s.lqueue 0).enable = true ∧ (s.lqueue 0).head = none ∧ (s.lqueue 0).copying = false ∧ (16 : BitVec 32) ≠ (s.lqueue 0).ridx) ∧
    ((queued fun q => { q with devfed := true }).lqueue 0).devfed = true ∧
    (let s := { queued id with pfc := { Pfc.reset with ready := true } }
     (s.lqueue 0).enable = false ∧ s.pfc.ready = true ∧ s.pfc.minimal = false) := by
  repeat' (first | apply And.intro | decide +kernel)

theorem hyp_heads :
    (let s := queued fun q => { q with enable := true, copying := true }
     (s.lqueue 0).copying = true ∧ (s.lqueue 0).head = none ∧ s.packetLost ((s.lqueue 0).slot (s.lqueue 0).ridx) = false ∧
       { s with poison := ⟨[0], [], []⟩ }.packetLost ((s.lqueue 0).slot (s.lqueue 0).ridx) = true) ∧
    (let s := queued fun q => { q with head := some (headOf 0 false) }
     (s.lqueue 0).head = some (headOf 0 false) ∧ (headOf 0 false).sig0 = false) ∧
    (let s := queued fun q => { q with enable := true, head := some (headOf 2 true) }
     s.hub.launches.length < 256 ∧ s.selected = some (2, 0, headOf 2 true)) ∧
    (let h : LHead := { headOf 3 true with packet := BitVec.ofNat 1024 (3 * 2 ^ 24 + 8 * 2 ^ 192 + 2 ^ 208 + 2 ^ 240) }
     let s := { queued fun q => { q with enable := true, head := some h } with pcc := 4000000 }
     s.reserving = some 0 ∧ (s.lqueue 0).head = some h) := by
  repeat' (first | apply And.intro | decide +kernel)

theorem hyp_launch_ends :
    (let s := launched oneQueue { xs [] with cores := [] }
     s.hub.launches.get 0 = some oneQueue ∧ s.launchOver 0 oneQueue = true ∧ (s.ctx (pktContext oneQueue.packet)).killed = false ∧
       (s.ctx (pktContext oneQueue.packet)).areas = []) ∧
    (let s := { launched oneQueue { xs [] with cores := [] } with ctxs := [(0, { Ctx.reset with areas := [(0, 0x20000, 0)] })] }
     s.launchOver 0 oneQueue = true ∧ (s.ctx (pktContext oneQueue.packet)).areas = [(0, 0x20000, 0)] ∧ 0 = oneQueue.stack.toNat) ∧
    (let r : FaultRecord := ⟨0, 0, 0, 4, 0, 0, 0, 0, 0, 0, 0, false, false, 0, 0, 0, false, 8⟩
     let s := { xs [] with ctxs := [(0, { Ctx.reset with valid := true, held := [r], fqt := 63 })] }
     (s.ctx 0).held = [r] ∧ ((s.ctx 0).fqt - (s.ctx 0).fqh).toNat < (s.ctx 0).capacity) ∧
    (31 < msixEntries 1) := by
  repeat' (first | apply And.intro | decide +kernel)

/-- A status address that can be written, mapped through page tables. -/
theorem hyp_report :
    let l := { oneQueue with packet := BitVec.ofNat 1024 (0x10000 * 2 ^ (8 * 0x58)) }
    let s := { tables with dies := [(0, { Die.reset with inReset := false })] }
    pktCompl l.packet = 0 ∧ s.reportable (pktContext l.packet) (pktStat l.packet) 16 = true ∧
      s.translateIn (pktContext l.packet) (pktStat l.packet) = some (0x10000000000, ⟨0, 0x10000, 0, 0x10000000000, 1⟩) := by
  repeat' (first | apply And.intro | decide +kernel)

theorem hyp_objects :
    (let req : LoadRequest := ⟨0, 0x10000, 0, [], [], []⟩
     req.va % pageSize = 0 ∧ (xs []).object req.ctx req.va = none ∧ headerFits (Memory.ofBytes req.image) = false) ∧
    (let m := Memory.ofBytes (leList 4 0x314F4346 ++ leList 2 0x100 ++ leList 2 2)
     headerFits m = true ∧ (signatureOk m (xs []).pfc.keys && treeOk m) = false ∧ slotsOk m [] [] = true ∧ kernelBlocks m = some []) ∧
    (let s := { xs [] with objects := [(objectKey 0 0x10000, theObject)] }
     s.object 0 0x10000 = some theObject ∧ (2 : Nat) ≠ 0 ∧ 2 < theObject.npage ∧ theObject.failed.has 2 = false ∧
       theObject.verified.has 2 = false ∧ s.faultsOn theObject 2 = [] ∧ s.launchesOf 0 0x10000 = [] ∧
       (∃ e ∈ theObject.slots, e.nameh = 5 ∧ e.scope = 1) ∧
       (∀ e ∈ theObject.slots, e.nameh = 5 → e.scope = 1 → (255 : BitVec 64).toNat < 2 ^ e.width) ∧
       ∃ e ∈ theObject.slots, e.nameh = 5 ∧ e.scope = 1 ∧ 2 ^ e.width ≤ (0xFFFFFFFFFFFFFFFF : BitVec 64).toNat) := by
  repeat' (first | apply And.intro | decide +kernel)

theorem hyp_launch_control :
    (let s := launched oneQueue (xs [])
     s.hub.launches.get 0 = some oneQueue ∧ oneQueue.ended = false ∧ oneQueue.saved = none ∧ s.coresOf 0 ≠ [] ∧ oneQueue.stopReq = none) ∧
    (let l := { oneQueue with stopReq := some 0 }
     let s := launched l (coreWith [] fun c => { c with job := { c.job with seqNext := 1, stopping := some 0 } })
     l.stopReq ≠ none ∧ (∀ c ∈ s.cores, c.2.treadleStops s.pcc = false) ∧ (s.coresOf 0).all s.jobStopped = true ∧
       ∀ n ∈ s.coresOf 0, (s.core n).dirtySectors = []) ∧
    (let v : SavedJobs := ⟨0, [(0, oneGroup id)]⟩
     let l := { oneQueue with saved := some v }
     let s := launched l { xs [] with cores := [], dies := [(0, { Die.reset with inReset := false })] }
     l.saved = some v ∧ v.images = [(0, oneGroup id)] ∧ s.cores.has 0 = false ∧ (s.die (dieOf 0)).gone = false ∧
       ∀ g ∈ (oneGroup id).groups, g.2.status ≠ .trapped) ∧
    (let g : Group := { Group.empty with status := .trapped, traps := [⟨causeTranslation, 4, .group, true, 8, 0, 0, 0⟩] }
     (oneGroup fun _ => g).groups = [(0, g)] ∧ ∀ x ∈ g.traps, x.cause = causeTranslation ∧ x.replay = true) ∧
    (launched oneQueue (xs [])).launched 0 = true ∧ (xs []).launched 0 = false := by
  repeat' (first | apply And.intro | decide +kernel)

theorem hyp_group_control :
    (let s := inGroup fun g => { g with status := .trapped, traps := [⟨8, 4, .group, false, 8, 0, 0, 0⟩] }
     s.cores.has 0 = true ∧ (s.core 0).groups.has 0 = true ∧ ((s.core 0).group 0).status = .trapped ∧
       ∀ x ∈ ((s.core 0).group 0).traps, x.cause ≠ 0x07 ∧ x.cause ≠ 0x0F ∧ x.stream = .group) ∧
    (let b : BlockRun := { eval := { slots := [], regs := [], stores := [], exits := [], flags := 0 }, twin := none, next := 0, load := none,
                           data := none, committing := true, stored := 0 }
     let s := inGroup fun g => { g with status := .trapped, traps := [⟨0x0F, 4, .group, true, 8, 0, 0, 0⟩], block := some b }
     ((s.core 0).group 0).status = .trapped ∧ ((s.core 0).group 0).block = some b ∧ b.committing = true ∧ (8 : Word) ≠ ((s.core 0).group 0).sc.pc ∧
       ∃ x ∈ ((s.core 0).group 0).traps, x.cause = 0x0F) ∧
    (let s := { xs [] with moult := { Moult.reset with pages := [(0x10000, 3)] } }
     s.moult.pages = [(0x10000, 3)] ∧ s.releasable = true) := by
  repeat' (first | apply And.intro | decide +kernel)

/-! ### Witnesses: the torus, the host link and the package's services -/

/-- A request of core 4 of die 2 of another package, for 8 bytes. -/
def requestOf (op : RemoteOp) (addr : Nat) : RemoteRequest :=
  { src := 0x100, die := 2, core := 4, order := 9, cls := 0, op, addr, size := 8, waited := 0, tag := 3, gen := 1, link := 0, chan := 0, flits := 1 }

theorem hyp_remote_requests :
    (let d := 2
     let q := { requestOf .load 0x1000 with dest := some d, chan := 4 }
     let poor := { torus with fabric := { torus.fabric with links := Vector.replicate 6 { Link.reset with up := true, credits := Vector.replicate 8 0 } } }
     torus.fabric.lost = false ∧ torus.fabric.queue = [] ∧ q.due = 0 ∧ q.dest = some d ∧ d ≠ torus.fabric.coord ∧
       torus.fabric.transitEgress q d = some (4, 4) ∧ (torus.fabric.link 4).retraining = false ∧ q.flits ≤ torus.fabric.credits 4 4 ∧
       poor.fabric.transitEgress q d = some (4, 0) ∧ poor.fabric.credits 4 0 < q.flits) ∧
    (let q := { requestOf .load 0x1000 with dest := some 0, final := some 2 }
     q.dest = some torus.fabric.coord ∧ q.final = some 2 ∧ torus.fabric.transitEgress { q with secondLeg := true } 2 = some (4, 2)) ∧
    (let q := { requestOf .load 0x1000 with due := 5 }
     (requestOf .load 0x1000).due = 0 ∧ (requestOf .load 0x1000).dest = none ∧ (requestOf .load 0x1000).final = none ∧
       q.due ≠ 0 ∧ q.answer = none ∧ (xs []).waitsAtHome q = false ∧ (xs []).fabric.queue = []) ∧
    (let q := { requestOf .load 0x1000 with src := 2, due := 5, answer := some (7, none) }
     q.answer = some (7, none) ∧ torus.fabric.egress q.src (some 7) 5 = some (4, 7) ∧ replyFlits q none ≤ torus.fabric.credits 4 7) ∧
    (xs []).fabric.lost = false ∧
    (xs []).homeError 0x14000000000 = true ∧ (xs []).homeError 0x1000 = false ∧ (xs []).remote = [] ∧
    (∀ g ∈ granulesOf 0x1000 8, (xs []).poison.has g = false) ∧
    (xs []).entryFree (remoteWriter (requestOf (.store 5) 0x1000)) 0x1000 = true := by
  repeat' (first | apply And.intro | decide +kernel)

theorem hyp_remote_region : ∀ b n, regionOf (localOf 0x1000) ≠ .regs b n := by
  intro b n h
  have : regionOf (localOf 0x1000) = .lpddr 0x1000 := by decide
  rw [this] at h; exact absurd h nofun

theorem hyp_fabric_events :
    (let a := accessOf (.load 1 true)
     let x : FabTag := ⟨1, some 3, none, 2, 1, 0, none⟩
     let s := { withAccess a torus with fabric := { torus.fabric with tags := [(5, x)] } }
     s.fabric.waiting = [] ∧ s.fabric.queue = [] ∧ s.fabric.tags.get 5 = some x ∧ x.gen = 1 ∧ x.access = some 3 ∧ s.accs.get 3 = some a) ∧
    torus.fabric.tags.get 5 = none ∧
    (let a := { accessOf (.load 1 true) with pa := 2 * 2 ^ 44, replyAt := 0 }
     let s := withAccess a torus
     s.accs.get 3 = some a ∧ a.performed = false ∧ a.replyAt = 0 ∧ a.tag = none ∧ a.commits = false ∧ s.isLocal a.pa = false ∧
       s.fabric.inside (pkgOf a.pa) = true ∧ s.fabricRefusal (pkgOf a.pa) a.wireCls = none ∧ s.fabric.freeTag = some 0 ∧
       (s.fabric.window (pkgOf a.pa)).flits + a.wireFlits.1 ≤ (s.fabric.window (pkgOf a.pa)).wd) ∧
    (let x : FabTag := ⟨1, none, some 2, 2, 1, 0, none⟩
     let s := { torus with fabric := { torus.fabric with tags := [(5, x)] } }
     s.fabric.tags.get 5 = some x ∧ x.access = none ∧ x.withheld ≠ none) ∧
    (let f := { torus.fabric with links := Vector.replicate 6 { Link.reset with up := true, credits := Vector.replicate 8 0 } }
     f.queue = [] ∧ f.lost = false ∧ f.egress 2 (some 7) 5 = some (4, 5) ∧
       (f.link 4).retraining = false ∧ f.credits 4 5 < replyFlits { requestOf .load 0x1000 with src := 2 } none) ∧
    (let p : FabPkt := ⟨.back (.reply 2 3 1 7 none), 2, none, 2, some 0, 0⟩
     let s := { torus with pcc := 16384, fabric := { torus.fabric with queue := [p] } }
     s.fabric.queue = [p] ∧ p.since + 16384 ≤ s.pcc ∧ s.linkOf p = 4 % 6) ∧
    (torus.fabric.window 0x21).noticeAt = none ∧
    (let s := { torus with fabric := { torus.fabric with links := Vector.replicate 6 { Link.reset with up := true, sinceAudit := 4096 } } }
     4096 ≤ (s.fabric.link 5).sinceAudit) ∧
    (torus.fabric.lost = false ∧ torus.fabric.waiting = [] ∧ torus.fabric.queue = [] ∧ ∀ l ∈ torus.hub.launches, pktFPkgs l.2.packet < 2) := by
  repeat' (first | apply And.intro | decide +kernel)

/-- A trained host link, of a package whose function 0 has its window at address 0. -/
def hosted : State := { xs [] with host := { HostLink.reset with trained := true } }

theorem hyp_host_events :
    hosted.host.trained = true ∧ (hosted.host.fn 0).insecure = false ∧ (0 : Nat) ≠ 1 ∧
    (let s := hosted
     (∀ x ∈ s.accs, x.2.host ≠ 3) ∧ ∀ x ∈ s.accs, x.2.host = 0) ∧
    ((xs []).pfc.identity = none ∧
      (let s := { xs [] with pfc := { Pfc.reset with identity := some 0 } }
       s.pfc.identity = some 0 ∧ s.pfc.alarm < 2)) ∧
    (let s := { hosted with host := { hosted.host with fns := [(0, { HostFn.reset with insecure := true })] } }
     (s.host.fn (s.ctx 0).func).insecure = true ∧ (hosted.host.fn (hosted.ctx 0).func).insecure = false) ∧
    (let a (n : Nat) := { accessOf (.load 1 true) with pa := 0xF8000000010, host := n }
     (withAccess (a 3) hosted).accs.get 3 = some (a 3) ∧ (a 3).host = 3 ∧ (a 1).host = 1 ∧ (a 1).isStore = false ∧
       ((withAccess (a 1) hosted).host.fn ((withAccess (a 1) hosted).fnOf (a 1))).pri = false ∧ (a 2).host = 2) ∧
    (63 < 64 ∧ tables.cores.has 0 = true ∧ (0x8001 : BitVec 16).getLsbD 15 = true ∧ (launched oneQueue (xs [])).hub.launches.get 0 = some oneQueue) := by
  repeat' (first | apply And.intro | decide +kernel)

/-- Offsets of the window: one that reaches memory, and one that does not. -/
theorem hyp_host_places :
    (let s := { tables with host := { HostLink.reset with trained := true, fns := [(0, { HostFn.reset with winBase := 0x10000 })] }
                            dies := [(0, { Die.reset with inReset := false })] }
     s.hostPlaces 0 0 8 false = some [(0x10000, 8)] ∧ s.hostPlaces 0 0x13FFFFF0000 8 false = none ∧ s.hostPlaces 0 0 8 true = some [(0x10000, 8)] ∧
     s.hostPlaces 0 0x13FFFFF0000 8 true = none) := by
  repeat' (first | apply And.intro | decide +kernel)

/-- A capability table of a kind for a port: a compute die has 192 cores and 24 slices, a control die 16 cores. -/
def capTable (kind port : Nat) : List (BitVec 8) :=
  let cores : Nat := if kind = 0 then 192 else if kind = 1 then 16 else 0
  let slices : Nat := if kind = 0 then 24 else 0
  ([0x43, 0x46, 0x43, 0x50, 0, 1, BitVec.ofNat 8 kind, BitVec.ofNat 8 port] ++ List.replicate 8 0 ++ [BitVec.ofNat 8 cores, 0, 0, 0] ++
    [BitVec.ofNat 8 slices, 0, 0, 0] ++ List.replicate 40 0)

/-- A configuration record: version 1, a power limit of 1,000 W. -/
def goodRecord : List (BitVec 8) := [0, 1, 0, 0, 0, 0, 0xE8, 3] ++ List.replicate 120 0

/-- Boot inputs with which every stage passes. -/
def goodBoot : BootInputs :=
  { romOk := true, image := [], imageSigOk := true, record := goodRecord, firmware := [], firmwareOk := true, heartbeat := true,
    chiplets := [(8, capTable 1 8), (9, capTable 2 9), (0, capTable 0 0)], lpddrOk := true, dramOk := [0], fabricOk := true,
    coord := 0, size := (1, 1, 1), links := [], entry := 0x100, hang := none }

theorem hyp_start :
    (goodBoot.hang = none ∧ goodBoot.romOk = true ∧ goodBoot.imageSigOk = true ∧ recordOk goodBoot.record = true ∧ goodBoot.firmwareOk = true ∧
      goodBoot.heartbeat = true ∧ goodBoot.lpddrOk = true ∧ goodBoot.fabricOk = true) ∧
    (∃ x ∈ goodBoot.chiplets, tableAccepted x.1 x.2 = true ∧ bytesAt x.2 6 6 = 1) ∧
    (∃ x ∈ goodBoot.chiplets, tableAccepted x.1 x.2 = true ∧ bytesAt x.2 6 6 = 2) ∧
    (∃ x ∈ goodBoot.chiplets, tableAccepted x.1 x.2 = true ∧ bytesAt x.2 6 6 = 0 ∧ x.1 < 8 ∧ goodBoot.dramOk.contains x.1 = true) ∧
    State.reset.pfc.arb ≤ bytesAt goodBoot.record 2 3 ∧
    ({ State.reset with pfc := { Pfc.reset with minimal := true } }).pfc.minimal = true := by
  repeat' (first | apply And.intro | decide +kernel)

/-- The package with a change of its platform controller. -/
def withPfc (f : Pfc → Pfc) : State := { xs [] with pfc := f Pfc.reset }

/-- The package with a change of die 0. -/
def withDie (f : Die → Die) : State := { State.reset with dies := [(0, f { Die.reset with inReset := false })] }

theorem hyp_recovery :
    (let u : TestUnit := ⟨1, 2, 3, 0, 0, 0, 0, 0, 0, 0⟩
     (xs []).transientsOf u = 0) ∧
    ((xs []).cores.get 5 = none ∧ (xs []).hub.launches = [] ∧ (xs []).cores.has 0 = true) ∧
    ((withPfc id).pfc.ctlLost = false ∧ (withPfc id).pfc.ctlMissed = none ∧ (withPfc fun p => { p with ctlLost := true, ctlFails := 1 }).pfc.ctlLost = true ∧
      (withPfc fun p => { p with ctlLost := true, ctlFails := 1 }).pfc.ctlFails < 2) ∧
    (let s := { withDie fun d => { d with missed := some 0 } with pcc := 3999999 }
     (s.die 0).missed = some 0 ∧ s.pcc < 0 + 4000000 ∧ (s.die 0).isolated = false ∧ ∀ c ∈ s.cores, dieOf c.1 ≠ 0) ∧
    (((withDie fun d => { d with isolated := true }).die 0).isolated = true ∧ tableAccepted 0 (capTable 0 0) = true ∧
      bytesAt (capTable 0 0) 6 6 = 0 ∧ tableAccepted 0 (capTable 0 5) = false) ∧
    ((withPfc fun p => { p with stage := 6 }).pfc.starting = true ∧ (withPfc fun p => { p with stage := 6 }).pfc.stage < 7) ∧
    (outOfRange 921 = true ∧ outOfRange (-81) = true ∧ outOfRange 920 = false ∧ (withPfc id).pfc.hotSince.has 0 = false) ∧
    (let s := { withPfc fun p => { p with hotSince := [(0, 0)] } with pcc := 2000000000 }
     (0, 0) ∈ s.pfc.hotSince ∧ 0 + 2000000000 ≤ s.pcc) ∧
    ((withPfc fun p => { p with debug := true }).pfc.debug = true ∧ (withPfc fun p => { p with debug := true }).pfc.locked = false) := by
  repeat' (first | apply And.intro | decide +kernel)

/-! ### Witnesses: steps and the machine as a whole -/

/-- A group's turn at address 0 of an executable page that holds ADD x1, x1, x1. -/
def addStep : State := { holding 0 0x04210800 (onCore .group (mapped 2 (oneGroup id))) with todo := [⟨0, 0, .group⟩] }

theorem hyp_step :
    let u := { addStep with cur := ⟨0, 0, .group⟩, todo := [] }
    addStep.inputs = [] ∧ addStep.agenda = [] ∧ addStep.todo = [⟨0, 0, .group⟩] ∧ 0 < Config.controlBase ∧ u.here.groups.has 0 = true ∧
    u.grp.status = .active ∧ u.grp.hold = none ∧ u.here.job.blocks = none ∧ u.noHome 0x10000000000 = none ∧ isConfig 0x10000000000 = false ∧
    u.scalar.admits (.add 1 1 1 0) addStep.pcc = true ∧ u.lookup 0 u.curCtx 0 = some (page 2) ∧
    (page 2).executable = true ∧ (page 2).pa % 128 = 0 ∧ 0x10000000000 = (page 2).pa + 0 % pageBytes (page 2).level ∧
    u.here.mem.icache.get (icKey u.curCtx 0) = none ∧ addStep.poison.has (0x10000000000 / 32) = false ∧
    decode .scalar (Memory.readN addStep.mem 0x10000000000 4) = .ok (.add 1 1 1 0) := by
  repeat' (first | apply And.intro | decide +kernel)

theorem pair_of {α β : Type} {p : α × β} {a : α} (h : p.1 = a) : ∃ t, p = (a, t) := ⟨p.2, by rw [← h]⟩

/-- The group runs blocks of the object, and may be in one. -/
def inBlocks (r : Option BlockRun) (s : State) : State :=
  { s with cores := s.cores.modify 0 fun c =>
             { c with job := { c.job with blocks := some false }, groups := c.groups.modify 0 fun g => { g with block := r } }
           objects := [(objectKey 0 0, { theObject with va := 0 })] }

theorem hyp_plan :
    (∃ t, addStep.plan = (.word .scalar 0x04210800, t)) ∧
    (∃ t, (inBlocks none { addStep with cores := [(0, mapped 2 (oneGroup id))] }).plan = (.block, t)) ∧
    (∃ e t, ({ addStep with agenda := [(0, .selectionRound)] }).plan = (.event e, t)) ∧
    (let s := { addStep with inputs := [(0, .fabricDieLoss)] }
     s.inputs = [(0, .fabricDieLoss)] ∧ 0 ≤ s.pcc) ∧
    (let s := { addStep with agenda := [(0, .selectionRound)] }
     s.inputs = [] ∧ s.agenda = [(0, .selectionRound)] ∧ 0 ≤ s.pcc) := by
  refine ⟨pair_of (by decide +kernel), pair_of (by decide +kernel), ⟨.selectionRound, pair_of (by decide +kernel)⟩, ?_, ?_⟩
  all_goals (repeat' (first | apply And.intro | decide +kernel))

/-- The run of a block that has done so many operations and has these exits. -/
def blockRun (next : Nat) (exits : List Exit2) : BlockRun :=
  { eval := { slots := [], regs := [(3, 7)], stores := [], exits, flags := 0 }, twin := none, next, load := none, data := none, committing := false,
    stored := 0 }

theorem hyp_block_steps :
    let s (r : Option BlockRun) : State := inBlocks r (inGroup id)
    let b := Block2.parse [] 0
    ((s none).cur.stream = .group ∧ (s none).here.chargeable 0 = true ∧ (s none).grp.hold = none ∧ (s none).hasLanes = false ∧
      (s none).scalar.twin = none ∧ (s none).scalar.pc = 0 ∧ (s none).blockAt 0 = some b ∧ b.lane = false ∧ (s none).grp.block = none ∧
      b.reads = [] ∧ b.ops.length = 1 ∧ (inGroup id).blockAt 0 = none) ∧
    ((s (some (blockRun 0 []))).grp.block = some (blockRun 0 []) ∧ (blockRun 0 []).twin = none ∧
      ∃ o, b.ops[(blockRun 0 []).next]? = some o ∧ (blockRun 0 []).eval.loadOf o (blockRun 0 []).next = none) ∧
    (b.ops.length ≤ (blockRun 1 []).next ∧ (blockRun 1 []).eval.exits.length ≠ 1) ∧
    ((blockRun 1 [.address 8]).eval.exits = [.address 8] ∧ (s (some (blockRun 1 [.address 8]))).blockAt 8 = none) ∧
    ((blockRun 1 [.offset (-8)]).eval.exits = [.offset (-8)] ∧ (blockRun 1 [.offset (-8)]).eval.stores.length ≤ (blockRun 1 [.offset (-8)]).stored ∧
      (blockRun 1 [.offset (-8)]).eval.regs.wf = true ∧ ∀ x ∈ (blockRun 1 [.offset (-8)]).eval.regs, x.1 < 32) := by
  refine ⟨?_, ⟨?_, ?_, (Block2.parse [] 0).ops.head (by decide +kernel), ?_, ?_⟩, ?_⟩
  all_goals (repeat' (first | apply And.intro | decide +kernel))

theorem hyp_register_fields :
    eft.cur.stream = .eft ∧ 16 ≤ (16 : BitVec 5).toNat ∧ (xs []).cur.stream = .group ∧ (∀ n ∈ [(31 : BitVec 5), 0], n.toNat ∉ (xs []).rf.poison) := by
  repeat' (first | apply And.intro | decide +kernel)

/-- Every instruction of a few families is well formed and has a kind of word; its word decodes. -/
theorem hyp_encode :
    (Instr.amoCas 31 30 29 3 2).kind = some .scalar ∧ (Instr.amoCas 31 30 29 3 2).wf = true ∧ encode (.amoCas 31 30 29 3 2) < 2 ^ 32 ∧
    (Instr.csig 5 2 0xFFFF).kind = some .clicker ∧ (Instr.csig 5 2 0xFFFF).wf = true ∧
    decode .clicker (encode (.csig 5 2 0xFFFF)) = .ok (.csig 5 2 0xFFFF) := by
  repeat' (first | apply And.intro | decide +kernel)

/-- Memory at reset is in its canonical form. -/
theorem hyp_memory_form : MemoryForm State.reset := by
  unfold MemoryForm; exact ⟨rfl, fun _ h => absurd h List.not_mem_nil⟩

/-! ### One step of a few instructions, with results from the spec's examples -/

/-- A vector stream with a working SHAPE and registers v1, v2, v3, of a group that holds block 1. -/
def vecRegs (shape : BitVec 32) (v1 v2 v3 : Nat) (p0 : Mask) : State :=
  onCore .vector (oneGroup fun g =>
    { g with v := { g.v with busy := true, wshape := shape }, preds := g.preds.set 0 p0, blocks := [(1, .pool 1)]
             vregs := [(1, BitVec.ofNat 8192 v1), (2, BitVec.ofNat 8192 v2), (3, BitVec.ofNat 8192 v3)] })

/-- The value, within a mask, that the first register write of a micro-order lands, and the entry that it pushes. -/
noncomputable def lands (i : Instr) (s : State) : Nat × Nat :=
  after (exec i s) (fun t => t.grp.v.writes.foldl (fun (p : Nat × Nat) w => match w.eff with
    | .reg _ mask v => (((List.range 1024).filter fun b => mask.getLsbD b).foldl (fun acc b => acc + v.toNat / 2 ^ (8 * b) % 256 * 2 ^ (8 * b)) 0, p.2)
    | .pushPred m => (p.1, m.toNat)
    | _ => p) (0, 0)) (0, 0)

/-- The example after R208: vslide.b v3, v2, 3 in a tile of 8 bytes. -/
theorem test_slide_example :
    (lands (.vslide 3 2 3 3 0) (vecRegs 1 0 0x3332317A797820A9 0xC341AC82E2636261 0)).1 = 0x7A797820A9C341AC := by decide +kernel

/-- The example after R209: the values of the elements of the guard, and the pushed entry. -/
theorem test_match_example :
    let s := vecRegs 3 (0x7FC00000 * 2 ^ 32 + 0x40400000 * 2 ^ 64 + 0x80000000 * 2 ^ 96)
      (0x80000000 + 0x7FC00000 * 2 ^ 32 + 0x40A00000 * 2 ^ 64 + 0x40400000 * 2 ^ 96) 0 0xFFF
    lands (.vmatch 5 1 2 2 0 8) s = (0xFFFFFFFFFFFFFFFF00000000, 0xF) := by decide +kernel

/-- The example of R28 and R215: vlcvt.l8 v4, v1, v2 of 3.0, 300.0, -0.1 and a NaN. -/
theorem test_log_conversion_example :
    (lands (.vlcvt 4 1 2 1 0 0) (vecRegs 3 (0x40400000 + 0x43960000 * 2 ^ 32 + 0xBDCCCCCD * 2 ^ 64 + 0x7FC00000 * 2 ^ 96) 0 0 0)).1 = 0x80A57F4D := by
  decide +kernel

/-- The example of chapter 5: a call through x5 to a LAND; the link is x30. -/
theorem test_jalr_example :
    let s := holding 8 0x9C000000 (onCore .group (mapped 2 (oneGroup (withX [0, 0, 0, 0, 8]))))
    after (exec (.jalr 30 5 0) s) (fun t => (t.scalar.pc, t.x 30)) (0, 0) = (8, 4) := by decide +kernel

/-- The descriptors of the binding example. -/
theorem test_descriptor_example :
    descRole 0x0006906500FF0000 = 6 ∧ descPport 0x0006906500FF0000 = 9 ∧ descProd 0x0006906500FF0000 = 6 ∧ descCons 0x0006906500FF0000 = 5 ∧
    descBytes 0x0006906500FF0000 = 1024 ∧ descBytes 0x00052057001F0000 = 128 := by
  repeat' (first | apply And.intro | decide +kernel)

/-- A full step: the word at the group's pc is ADD, the next one is at 4. -/
theorem test_step_add : after (step addStep) (fun t => ((t.core 0).group 0).sc.pc) 0 = 4 := by decide +kernel

/-- A word after reset: withFetchWord has it run in the next step. -/
theorem test_with_fetch_word :
    after (step (State.reset.withFetchWord 32 0x44200005)) (fun t => ((t.core 0).group 0).sc.rf.get 1) 0 = 5 := by decide +kernel

theorem test_decode_table_word : decodeTableWord 32 0x04642800 = some (.add 3 4 5 0) := by decide +kernel

end Sys2Proof.Tests
end

/-! ## O57 and O56: what each change of the state does to memory and the loaded code objects

Nearly every function of the model leaves the bytes of memory and the loaded code objects alone; the lemmas of this part say so of
each, function by function in the model's order. -/

namespace Sys2Proof.Machine

/-- A fold of changes that leave memory and the loaded code objects alone leaves them alone. -/
@[simp] theorem foldl_mem_objects {α : Type} (g : State → α → State)
    (h : ∀ s x, (g s x).mem = s.mem ∧ (g s x).objects = s.objects) (l : List α) (s : State) :
    (l.foldl g s).mem = s.mem ∧ (l.foldl g s).objects = s.objects := by
  induction l generalizing s with
  | nil => exact ⟨rfl, rfl⟩
  | cons x l ih => exact ⟨(ih _).1.trans (h s x).1, (ih _).2.trans (h s x).2⟩

/-- The same of a fold that carries a value beside the state. -/
@[simp] theorem foldl_fst_mem_objects {α β : Type} (g : State × β → α → State × β)
    (h : ∀ a x, (g a x).1.mem = a.1.mem ∧ (g a x).1.objects = a.1.objects) (l : List α) (a : State × β) :
    (l.foldl g a).1.mem = a.1.mem ∧ (l.foldl g a).1.objects = a.1.objects := by
  induction l generalizing a with
  | nil => exact ⟨rfl, rfl⟩
  | cons x l ih => exact ⟨(ih _).1.trans (h a x).1, (ih _).2.trans (h a x).2⟩

@[simp] theorem State.at_objects (s : State) (f : Focus) (g : State → State) :
    (s.at f g).objects = (g { s with cur := f }).objects := rfl

/-! ### Machine/Ops -/

@[simp] theorem State.modLive_mem_objects (s : State) (k : Nat) (f : Core → Core) :
    (s.modLive k f).mem = s.mem ∧ (s.modLive k f).objects = s.objects := by
  unfold State.modLive
  split <;> simp

@[simp] theorem State.noteWord_mem_objects (s : State) (w : BitVec 32) :
    (s.noteWord w).mem = s.mem ∧ (s.noteWord w).objects = s.objects := by
  simp [State.noteWord]

@[simp] theorem State.record_mem_objects (s : State) (r : FaultRecord) :
    (s.record r).mem = s.mem ∧ (s.record r).objects = s.objects := ⟨rfl, rfl⟩

@[simp] theorem State.steer_mem_objects (s : State) (u : TestUnit) : (s.steer u).mem = s.mem ∧ (s.steer u).objects = s.objects := by
  unfold State.steer
  split <;> simp

@[simp] theorem State.startTest_mem_objects (s : State) (u : TestUnit) :
    (s.startTest u).mem = s.mem ∧ (s.startTest u).objects = s.objects := ⟨rfl, rfl⟩

@[simp] theorem State.detect_mem_objects (s : State) (u : TestUnit) : (s.detect u).mem = s.mem ∧ (s.detect u).objects = s.objects := by
  simp [State.detect, apply_ite State.mem, apply_ite State.objects]

@[simp] theorem State.checkFailure_mem_objects (s : State) (cause : Nat) (action : Nat) :
    (s.checkFailure cause action).mem = s.mem ∧ (s.checkFailure cause action).objects = s.objects := by
  unfold State.checkFailure
  split <;> simp

@[simp] theorem State.trapCompute_mem_objects (s : State) (t : TrapArgs) :
    (s.trapCompute t).mem = s.mem ∧ (s.trapCompute t).objects = s.objects := by
  unfold State.trapCompute
  split <;> simp

@[simp] theorem State.trapControl_mem_objects (s : State) (t : TrapArgs) :
    (s.trapControl t).mem = s.mem ∧ (s.trapControl t).objects = s.objects := by
  unfold State.trapControl
  dsimp only
  split <;> simp

@[simp] theorem State.raiseTrap_mem_objects (s : State) (t : TrapArgs) :
    (s.raiseTrap t).mem = s.mem ∧ (s.raiseTrap t).objects = s.objects := by
  unfold State.raiseTrap
  split <;> simp

@[simp] theorem State.returnFromTrap_mem_objects (s : State) :
    s.returnFromTrap.mem = s.mem ∧ s.returnFromTrap.objects = s.objects := ⟨rfl, rfl⟩

/-! ### Machine/Home -/

@[simp] theorem State.modDie_mem_objects (s : State) (d : Nat) (f : Die → Die) :
    (s.modDie d f).mem = s.mem ∧ (s.modDie d f).objects = s.objects := ⟨rfl, rfl⟩

@[simp] theorem State.fillSlice_mem_objects (s : State) (pa since : Nat) :
    (s.fillSlice pa since).mem = s.mem ∧ (s.fillSlice pa since).objects = s.objects := by
  unfold State.fillSlice
  split <;> simp [apply_ite State.mem, apply_ite State.objects]

/-! ### Machine/Net -/

@[simp] theorem State.carry_mem_objects (s : State) (die : Nat) (p q : Spot) (flits now : Nat) :
    (s.carry die p q flits now).1.mem = s.mem ∧ (s.carry die p q flits now).1.objects = s.objects := ⟨rfl, rfl⟩

@[simp] theorem State.carryLate_mem_objects (s : State) (die : Nat) (p q : Spot) (flits now : Nat) :
    (s.carryLate die p q flits now).1.mem = s.mem ∧ (s.carryLate die p q flits now).1.objects = s.objects := ⟨rfl, rfl⟩

/-! ### Machine/Translate -/

@[simp] theorem State.beginWalk_mem_objects (s : State) (id : Nat) (w : Walk) :
    (s.beginWalk id w).mem = s.mem ∧ (s.beginWalk id w).objects = s.objects := ⟨rfl, rfl⟩

@[simp] theorem State.beginQueued_mem_objects (s : State) (die : Nat) :
    (s.beginQueued die).mem = s.mem ∧ (s.beginQueued die).objects = s.objects := by
  simp [State.beginQueued, apply_ite State.mem, apply_ite State.objects]

@[simp] theorem State.startWalk_mem_objects (s : State) (va : Word) (fetch : Bool) (elem : Nat) :
    (s.startWalk va fetch elem).1.mem = s.mem ∧ (s.startWalk va fetch elem).1.objects = s.objects := by
  unfold State.startWalk
  dsimp only
  repeat' split
  all_goals simp

@[simp] theorem State.keepSector_mem_objects (s : State) (core ctx : Nat) (va : Word) :
    (s.keepSector core ctx va).mem = s.mem ∧ (s.keepSector core ctx va).objects = s.objects := by
  unfold State.keepSector
  dsimp only
  repeat' split
  all_goals simp

/-! ### Machine/Mem -/

@[simp] theorem State.noteLast_mem_objects (s : State) (core : Nat) (keys : List Nat) (t : Nat) :
    (s.noteLast core keys t).mem = s.mem ∧ (s.noteLast core keys t).objects = s.objects := by
  simp [State.noteLast, apply_ite State.mem, apply_ite State.objects]

@[simp] theorem State.sendFlits_mem_objects (s : State) (k c flits : Nat) :
    (s.sendFlits k c flits).mem = s.mem ∧ (s.sendFlits k c flits).objects = s.objects := ⟨rfl, rfl⟩

@[simp] theorem State.returnCredit_mem_objects (s : State) (k c flits : Nat) :
    (s.returnCredit k c flits).mem = s.mem ∧ (s.returnCredit k c flits).objects = s.objects := ⟨rfl, rfl⟩

@[simp] theorem State.unschedule_mem_objects (s : State) (e : Event) :
    (s.unschedule e).mem = s.mem ∧ (s.unschedule e).objects = s.objects := ⟨rfl, rfl⟩

@[simp] theorem State.requestLate_mem_objects (s : State) (core pa flits start : Nat) :
    (s.requestLate core pa flits start).1.mem = s.mem ∧ (s.requestLate core pa flits start).1.objects = s.objects := by
  have far (own : State × Nat) (d o : Nat) :
      (State.requestLate.far s core flits start own d o).1.mem = own.1.mem ∧
        (State.requestLate.far s core flits start own d o).1.objects = own.1.objects := by
    unfold State.requestLate.far
    dsimp only
    split <;> simp
  unfold State.requestLate
  dsimp only
  split <;> simp [far]

@[simp] theorem State.replyLate_mem_objects (s : State) (a : Access) :
    (s.replyLate a).1.mem = s.mem ∧ (s.replyLate a).1.objects = s.objects := by
  unfold State.replyLate
  split <;> simp

@[simp] theorem State.place_mem_objects (s : State) (id : Nat) (a : Access) :
    (s.place id a).mem = s.mem ∧ (s.place id a).objects = s.objects := by
  simp [State.place]

@[simp] theorem State.timeAccess_mem_objects (s : State) (id : Nat) (a : Access) (flits : Nat × Nat) :
    (s.timeAccess id a flits).mem = s.mem ∧ (s.timeAccess id a flits).objects = s.objects := by
  unfold State.timeAccess
  dsimp only
  repeat' split
  all_goals simp

@[simp] theorem State.startAccess_mem_objects (s : State) (id : Nat) (a : Access) (flits : Nat × Nat) :
    (s.startAccess id a flits).mem = s.mem ∧ (s.startAccess id a flits).objects = s.objects := by
  simp [State.startAccess, apply_ite Prod.fst, apply_ite State.mem, apply_ite State.objects]

@[simp] theorem State.departAccess_mem_objects (s : State) (id : Nat) (a : Access) :
    (s.departAccess id a).mem = s.mem ∧ (s.departAccess id a).objects = s.objects := by
  unfold State.departAccess
  dsimp only
  split <;> simp

@[simp] theorem State.depart_mem_objects (s : State) (k c : Nat) (p : FabPkt) :
    (s.depart k c p).mem = s.mem ∧ (s.depart k c p).objects = s.objects := by
  unfold State.depart
  repeat' split
  all_goals simp

@[simp] theorem State.strand_mem_objects (s : State) (p : FabPkt) : (s.strand p).mem = s.mem ∧ (s.strand p).objects = s.objects := by
  unfold State.strand
  repeat' split
  all_goals simp

@[simp] theorem State.offer_mem_objects (x : State × List (Nat × Nat)) (p : FabPkt) :
    (State.offer x p).1.mem = x.1.mem ∧ (State.offer x p).1.objects = x.1.objects := by
  unfold State.offer
  dsimp only
  repeat' split
  all_goals simp

@[simp] theorem State.offerAll_mem_objects (s : State) : s.offerAll.mem = s.mem ∧ s.offerAll.objects = s.objects := by
  simp [State.offerAll]

@[simp] theorem State.watchAge_mem_objects (s : State) : s.watchAge.mem = s.mem ∧ s.watchAge.objects = s.objects := by
  simp [State.watchAge, apply_ite State.mem, apply_ite State.objects]

@[simp] theorem State.pump_mem_objects (s : State) : s.pump.mem = s.mem ∧ s.pump.objects = s.objects := by
  simp [State.pump, apply_ite State.mem, apply_ite State.objects]

@[simp] theorem State.noticed_mem_objects (s : State) (dest : Nat) :
    (s.noticed dest).mem = s.mem ∧ (s.noticed dest).objects = s.objects := ⟨rfl, rfl⟩

@[simp] theorem State.noticeFor_mem_objects (s : State) (p : FabPkt) (src : Nat) :
    (s.noticeFor p src).mem = s.mem ∧ (s.noticeFor p src).objects = s.objects := by
  unfold State.noticeFor
  split <;> simp [apply_ite State.mem, apply_ite State.objects]

@[simp] theorem State.enqueue_mem_objects (s : State) (p : FabPkt) :
    (s.enqueue p).mem = s.mem ∧ (s.enqueue p).objects = s.objects := ⟨rfl, rfl⟩

@[simp] theorem State.sendBack_mem_objects (s : State) (dest flits : Nat) (window : Option Nat) (out : Output) :
    (s.sendBack dest flits window out).mem = s.mem ∧ (s.sendBack dest flits window out).objects = s.objects := by
  simp [State.sendBack]

@[simp] theorem State.allocateTag_mem_objects (s : State) (id : Nat) (a : Access) (n : Nat) :
    (s.allocateTag id a n).mem = s.mem ∧ (s.allocateTag id a n).objects = s.objects := by
  unfold State.allocateTag
  dsimp only
  split <;> simp

@[simp] theorem State.refuse_mem_objects (s : State) (id : Nat) (a : Access) (reason : Nat) :
    (s.refuse id a reason).mem = s.mem ∧ (s.refuse id a reason).objects = s.objects := ⟨rfl, rfl⟩

@[simp] theorem State.letOut_mem_objects (s : State) (id : Nat) : (s.letOut id).mem = s.mem ∧ (s.letOut id).objects = s.objects := by
  unfold State.letOut
  dsimp only
  repeat' split
  all_goals simp

@[simp] theorem State.releaseWaiting_mem_objects (s : State) : s.releaseWaiting.mem = s.mem ∧ s.releaseWaiting.objects = s.objects := by
  simp [State.releaseWaiting]

@[simp] theorem State.atFabric_mem_objects (s : State) (id : Nat) (a : Access) :
    (s.atFabric id a).mem = s.mem ∧ (s.atFabric id a).objects = s.objects := by
  unfold State.atFabric
  split <;> simp

@[simp] theorem State.send_mem_objects (s : State) (a : NewAccess) : (s.send a).1.mem = s.mem ∧ (s.send a).1.objects = s.objects := by
  simp [State.send]

@[simp] theorem State.bumpOrder_mem_objects (s : State) : s.bumpOrder.mem = s.mem ∧ s.bumpOrder.objects = s.objects := by
  unfold State.bumpOrder
  split <;> simp

@[simp] theorem State.startRead_mem_objects (s : State) (kind : AccKind) (va : Word) (pa size cls delay : Nat) (e : TlbEntry) :
    (s.startRead kind va pa size cls delay e).1.mem = s.mem ∧ (s.startRead kind va pa size cls delay e).1.objects = s.objects := by
  unfold State.startRead
  dsimp only
  split <;> simp

@[simp] theorem State.addStores_mem_objects (s : State) (va : Word) (pa cls value : Nat) (place : StorePlace) (runs : List (Nat × Nat)) :
    (s.addStores va pa cls value place runs).mem = s.mem ∧ (s.addStores va pa cls value place runs).objects = s.objects := ⟨rfl, rfl⟩

@[simp] theorem State.postStore_mem_objects (s : State) (kind : AccKind) (va : Word) (pa size cls value delay : Nat)
    (runs : List (Nat × Nat)) :
    (s.postStore kind va pa size cls value delay runs).mem = s.mem ∧
      (s.postStore kind va pa size cls value delay runs).objects = s.objects := by
  simp [State.postStore, apply_ite State.mem, apply_ite State.objects]

/-! ### Machine/Groups -/

@[simp] theorem State.swapOut_mem_objects (s : State) : s.swapOut.mem = s.mem ∧ s.swapOut.objects = s.objects := ⟨rfl, rfl⟩

@[simp] theorem State.serveBlocks_mem_objects (s : State) (core : Nat) :
    (s.serveBlocks core).mem = s.mem ∧ (s.serveBlocks core).objects = s.objects := by
  unfold State.serveBlocks
  dsimp only
  split <;> simp

@[simp] theorem State.regrant_mem_objects (s : State) (core : Nat) :
    (s.regrant core).mem = s.mem ∧ (s.regrant core).objects = s.objects := by
  simp [State.regrant]

@[simp] theorem State.beginCommit_mem_objects (s : State) (core : Nat) (sel : PStore → Bool) :
    (s.beginCommit core sel).1.mem = s.mem ∧ (s.beginCommit core sel).1.objects = s.objects := by
  unfold State.beginCommit
  dsimp only
  split <;> simp

@[simp] theorem State.mismatch_mem_objects (s : State) (core : Nat) (slots : List Nat) :
    (s.mismatch core slots).mem = s.mem ∧ (s.mismatch core slots).objects = s.objects := by
  simp [State.mismatch]

@[simp] theorem State.beginArrival_mem_objects (s : State) (core level : Nat) :
    (s.beginArrival core level).mem = s.mem ∧ (s.beginArrival core level).objects = s.objects := by
  simp [State.beginArrival]

@[simp] theorem State.coreArrival_mem_objects (s : State) (core : Nat) :
    (s.coreArrival core).mem = s.mem ∧ (s.coreArrival core).objects = s.objects := by
  unfold State.coreArrival
  dsimp only
  repeat' split
  all_goals simp

@[simp] theorem State.freeGroup_mem_objects (s : State) (core slot : Nat) :
    (s.freeGroup core slot).mem = s.mem ∧ (s.freeGroup core slot).objects = s.objects := by
  simp [State.freeGroup]

@[simp] theorem State.orphan_mem_objects (s : State) (core slot : Nat) :
    (s.orphan core slot).mem = s.mem ∧ (s.orphan core slot).objects = s.objects := ⟨rfl, rfl⟩

/-! ### Machine/Sync -/

@[simp] theorem State.dropErrors_mem_objects (s : State) (p : StoreErr → Bool) :
    (s.dropErrors p).mem = s.mem ∧ (s.dropErrors p).objects = s.objects := by
  unfold State.dropErrors
  split <;> simp

@[simp] theorem State.markFenced_mem_objects (s : State) (m : Nat) :
    (s.markFenced m).mem = s.mem ∧ (s.markFenced m).objects = s.objects := by
  unfold State.markFenced
  split <;> simp

/-! ### Machine/Queues -/

@[simp] theorem State.modQueue_mem_objects (s : State) (q : Nat) (f : LQueue → LQueue) :
    (s.modQueue q f).mem = s.mem ∧ (s.modQueue q f).objects = s.objects := ⟨rfl, rfl⟩

@[simp] theorem State.pokeQueue_mem_objects (s : State) (q : Nat) : (s.pokeQueue q).mem = s.mem ∧ (s.pokeQueue q).objects = s.objects := by
  unfold State.pokeQueue
  dsimp only
  split <;> simp

@[simp] theorem State.wantRound_mem_objects (s : State) : s.wantRound.mem = s.mem ∧ s.wantRound.objects = s.objects := by
  unfold State.wantRound
  split <;> simp

@[simp] theorem State.judgeHead_mem_objects (s : State) (q : Nat) : (s.judgeHead q).mem = s.mem ∧ (s.judgeHead q).objects = s.objects := by
  unfold State.judgeHead
  dsimp only
  split <;> simp

@[simp] theorem State.modLaunch_mem_objects (s : State) (l : Nat) (f : Launch → Launch) :
    (s.modLaunch l f).mem = s.mem ∧ (s.modLaunch l f).objects = s.objects := ⟨rfl, rfl⟩

@[simp] theorem State.sendPush_mem_objects (s : State) (queue lane order delay : Nat) (record : BitVec 256) :
    (s.sendPush queue lane order delay record).1.mem = s.mem ∧
      (s.sendPush queue lane order delay record).1.objects = s.objects := ⟨rfl, rfl⟩

/-! ### Machine/System -/

@[simp] theorem State.setCsr_mem_objects (s : State) (n v : Nat) : (s.setCsr n v).mem = s.mem ∧ (s.setCsr n v).objects = s.objects := by
  unfold State.setCsr
  split <;> simp

@[simp] theorem State.wakeControl_mem_objects (s : State) : s.wakeControl.mem = s.mem ∧ s.wakeControl.objects = s.objects := ⟨rfl, rfl⟩

@[simp] theorem State.dropSector_mem_objects (s : State) (ctx : Option Nat) (va : Nat) (p : Nat → Bool) :
    (s.dropSector ctx va p).mem = s.mem ∧ (s.dropSector ctx va p).objects = s.objects := ⟨rfl, rfl⟩

@[simp] theorem State.shootLeases_mem_objects (s : State) (ctx va : Nat) (all : Bool) (p : Nat → Bool) :
    (s.shootLeases ctx va all p).mem = s.mem ∧ (s.shootLeases ctx va all p).objects = s.objects := ⟨rfl, rfl⟩

@[simp] theorem State.shoot_mem_objects (s : State) (ctx va : Nat) (all : Bool) (p : Nat → Bool) (ctl : Bool) :
    (s.shoot ctx va all p ctl).mem = s.mem ∧ (s.shoot ctx va all p ctl).objects = s.objects := ⟨rfl, rfl⟩

@[simp] theorem State.noteDrained_mem_objects (s : State) : s.noteDrained.mem = s.mem ∧ s.noteDrained.objects = s.objects := by
  unfold State.noteDrained
  split <;> simp

/-! ### Machine/Vector -/

@[simp] theorem State.modV_mem_objects (s : State) (f : VStream → VStream) :
    (s.modV f).mem = s.mem ∧ (s.modV f).objects = s.objects := ⟨rfl, rfl⟩

@[simp] theorem State.vAdvance_mem_objects (s : State) (next : Word) (cost : Nat) :
    (s.vAdvance next cost).mem = s.mem ∧ (s.vAdvance next cost).objects = s.objects := ⟨rfl, rfl⟩

@[simp] theorem State.takeSources_mem_objects (s : State) (F : VForm) (a pa : Nat) :
    (s.takeSources F a pa).mem = s.mem ∧ (s.takeSources F a pa).objects = s.objects := by
  unfold State.takeSources
  split <;> simp

@[simp] theorem State.leave_mem_objects (s : State) (land : Nat) (effs : List VEffect) :
    (s.leave land effs).mem = s.mem ∧ (s.leave land effs).objects = s.objects := ⟨rfl, rfl⟩

@[simp] theorem State.reserveDest_mem_objects (s : State) (F : VForm) :
    (s.reserveDest F).mem = s.mem ∧ (s.reserveDest F).objects = s.objects := by
  unfold State.reserveDest
  split <;> simp [apply_ite State.mem, apply_ite State.objects]

/-! ### Machine/VectorMem -/

@[simp] theorem State.takeId_mem_objects (s : State) : s.takeId.1.mem = s.mem ∧ s.takeId.1.objects = s.objects := ⟨rfl, rfl⟩

@[simp] theorem State.awaitData_mem_objects (s : State) (m : VMem) (o : Nat) :
    (s.awaitData m o).1.mem = s.mem ∧ (s.awaitData m o).1.objects = s.objects := by
  unfold State.awaitData
  split <;> simp

/-! ### Machine/Matrix -/

@[simp] theorem State.modMx_mem_objects (s : State) (f : Matrix → Matrix) :
    (s.modMx f).mem = s.mem ∧ (s.modMx f).objects = s.objects := ⟨rfl, rfl⟩

@[simp] theorem State.modTd_mem_objects (s : State) (f : Treadle → Treadle) :
    (s.modTd f).mem = s.mem ∧ (s.modTd f).objects = s.objects := ⟨rfl, rfl⟩

@[simp] theorem State.endRun_mem_objects (s : State) (reason : Nat) :
    (s.endRun reason).mem = s.mem ∧ (s.endRun reason).objects = s.objects := ⟨rfl, rfl⟩

@[simp] theorem State.takeEndMark_mem_objects (s : State) (port : Nat) :
    (s.takeEndMark port).mem = s.mem ∧ (s.takeEndMark port).objects = s.objects := ⟨rfl, rfl⟩

@[simp] theorem State.pathFreed_mem_objects (s : State) : s.pathFreed.mem = s.mem ∧ s.pathFreed.objects = s.objects := ⟨rfl, rfl⟩

@[simp] theorem State.mAdvance_mem_objects (s : State) (r : Retained) (step : Nat) (taken : Bool) :
    (s.mAdvance r step taken).mem = s.mem ∧ (s.mAdvance r step taken).objects = s.objects := by
  unfold State.mAdvance
  dsimp only
  split <;> simp

@[simp] theorem State.keepAddress_mem_objects (s : State) (ea : Word) :
    (s.keepAddress ea).mem = s.mem ∧ (s.keepAddress ea).objects = s.objects := by
  unfold State.keepAddress
  split <;> simp

@[simp] theorem mmaStart_mem_objects (tile aport sport n : Nat) (t : Bool) (fw : Word) (ap sp : List Packet) (s : State) :
    (mmaStart tile aport sport n t fw ap sp s).mem = s.mem ∧ (mmaStart tile aport sport n t fw ap sp s).objects = s.objects := ⟨rfl, rfl⟩

@[simp] theorem useStamp_mem_objects (stamped : Bool) (s : State) :
    (useStamp stamped s).mem = s.mem ∧ (useStamp stamped s).objects = s.objects := by
  unfold useStamp
  split <;> simp

@[simp] theorem drainStart_mem_objects (tile : Nat) (fw : Word) (port : Option Nat) (ea skip : Nat) (s : State) :
    (drainStart tile fw port ea skip s).mem = s.mem ∧ (drainStart tile fw port ea skip s).objects = s.objects := ⟨rfl, rfl⟩

@[simp] theorem State.raiseDemands_mem_objects (s : State) (n : Nat) :
    (s.raiseDemands n).mem = s.mem ∧ (s.raiseDemands n).objects = s.objects := by
  induction n generalizing s with
  | zero => exact ⟨rfl, rfl⟩
  | succ n ih =>
    unfold State.raiseDemands
    dsimp only
    repeat' split
    all_goals simp [ih]

/-! ### Machine/Clicker -/

@[simp] theorem State.modCh_mem_objects (s : State) (f : Chan → Chan) :
    (s.modCh f).mem = s.mem ∧ (s.modCh f).objects = s.objects := ⟨rfl, rfl⟩

@[simp] theorem State.modRun_mem_objects (s : State) (f : CRun → CRun) :
    (s.modRun f).mem = s.mem ∧ (s.modRun f).objects = s.objects := ⟨rfl, rfl⟩

@[simp] theorem trapCopy_mem_objects (t : TrapArgs) (iter : Nat) (s : State) :
    (trapCopy t iter s).mem = s.mem ∧ (trapCopy t iter s).objects = s.objects := by
  simp [trapCopy]

@[simp] theorem State.startReads_mem_objects (s : State) (space iter : Nat) (l : List (Nat × Nat × Nat × TlbEntry)) (base : Nat) :
    (s.startReads space iter l base).mem = s.mem ∧ (s.startReads space iter l base).objects = s.objects := by
  unfold State.startReads
  split <;> simp

@[simp] theorem State.dropCopies_mem_objects (s : State) (iter : Nat) :
    (s.dropCopies iter).mem = s.mem ∧ (s.dropCopies iter).objects = s.objects := by
  unfold State.dropCopies
  split <;> simp [apply_ite State.mem, apply_ite State.objects]

@[simp] theorem State.poisonLast_mem_objects (s : State) (order : Nat) :
    (s.poisonLast order).mem = s.mem ∧ (s.poisonLast order).objects = s.objects := ⟨rfl, rfl⟩

@[simp] theorem State.copyStore_mem_objects (s : State) (space iter : Nat) (va : Word) (pa len v : Nat) (bad : Bool) :
    (s.copyStore space iter va pa len v bad).1.mem = s.mem ∧ (s.copyStore space iter va pa len v bad).1.objects = s.objects := by
  simp [State.copyStore, apply_ite State.mem, apply_ite State.objects]

@[simp] theorem State.writeCopy_mem_objects (s : State) (r : CRun) (k : CCopy) :
    (s.writeCopy r k).mem = s.mem ∧ (s.writeCopy r k).objects = s.objects := by
  unfold State.writeCopy
  dsimp only
  split <;> simp

@[simp] theorem State.drainCopies_mem_objects (s : State) (n : Nat) :
    (s.drainCopies n).mem = s.mem ∧ (s.drainCopies n).objects = s.objects := by
  induction n generalizing s with
  | zero => exact ⟨rfl, rfl⟩
  | succ n ih =>
    unfold State.drainCopies
    repeat' split
    all_goals simp [ih]

/-! ### Machine/Registers -/

@[simp] theorem State.modFn_mem_objects (s : State) (n : Nat) (f : HostFn → HostFn) :
    (s.modFn n f).mem = s.mem ∧ (s.modFn n f).objects = s.objects := ⟨rfl, rfl⟩

@[simp] theorem State.sendMsix_mem_objects (s : State) (fn vec : Nat) :
    (s.sendMsix fn vec).mem = s.mem ∧ (s.sendMsix fn vec).objects = s.objects := by
  simp [State.sendMsix, apply_ite State.mem, apply_ite State.objects]

@[simp] theorem State.setBlockReg_mem_objects (s : State) (pfc : Bool) (b : Block) (o v : Nat) :
    (s.setBlockReg pfc b o v).mem = s.mem ∧ (s.setBlockReg pfc b o v).objects = s.objects := by
  unfold State.setBlockReg
  dsimp only
  repeat' split
  all_goals simp

@[simp] theorem State.writeBlock_mem_objects (s : State) (pfc : Bool) (b : Block) (o n v : Nat) :
    (s.writeBlock pfc b o n v).mem = s.mem ∧ (s.writeBlock pfc b o n v).objects = s.objects := by
  simp [State.writeBlock]

theorem State.receive_mem_objects (s : State) (fn : Nat) (f : State → State) (h : (f s).mem = s.mem ∧ (f s).objects = s.objects) :
    (s.receive fn f).mem = s.mem ∧ (s.receive fn f).objects = s.objects := by
  unfold State.receive
  split <;> simp [h]

@[simp] theorem State.writeQctl_mem_objects (s : State) (q fn : Nat) (value : BitVec 32) :
    (s.writeQctl q fn value).mem = s.mem ∧ (s.writeQctl q fn value).objects = s.objects := by
  simp [State.writeQctl, apply_ite State.mem, apply_ite State.objects]

@[simp] theorem State.writeQwidx_mem_objects (s : State) (q fn : Nat) (value : BitVec 32) :
    (s.writeQwidx q fn value).mem = s.mem ∧ (s.writeQwidx q fn value).objects = s.objects := by
  simp [State.writeQwidx, apply_ite State.mem, apply_ite State.objects]

@[simp] theorem State.writeQueueReg_mem_objects (s : State) (q fn o size : Nat) (v : Nat) :
    (s.writeQueueReg q fn o size v).mem = s.mem ∧ (s.writeQueueReg q fn o size v).objects = s.objects := by
  simp [State.writeQueueReg, apply_ite State.mem, apply_ite State.objects]

@[simp] theorem State.writeBar0_mem_objects (s : State) (fn o size v : Nat) :
    (s.writeBar0 fn o size v).mem = s.mem ∧ (s.writeBar0 fn o size v).objects = s.objects := by
  simp [State.writeBar0, apply_ite State.mem, apply_ite State.objects]

/-! ### Machine/Access -/

@[simp] theorem State.settle_mem_objects (s : State) (id : Nat) (a : Access) :
    (s.settle id a).mem = s.mem ∧ (s.settle id a).objects = s.objects := by
  unfold State.settle
  split <;> simp

@[simp] theorem State.modPend_mem_objects (s : State) (core order : Nat) (f : PStore → PStore) :
    (s.modPend core order f).mem = s.mem ∧ (s.modPend core order f).objects = s.objects := by
  simp [State.modPend]

@[simp] theorem State.dropPend_mem_objects (s : State) (core order : Nat) :
    (s.dropPend core order).mem = s.mem ∧ (s.dropPend core order).objects = s.objects := by
  simp [State.dropPend]

@[simp] theorem State.copyWritten_mem_objects (s : State) (a : Access) :
    (s.copyWritten a).mem = s.mem ∧ (s.copyWritten a).objects = s.objects := by
  unfold State.copyWritten
  split <;> simp [apply_ite State.mem, apply_ite State.objects]

@[simp] theorem State.refresh_mem_objects (s : State) (core pa size v : Nat) :
    (s.refresh core pa size v).mem = s.mem ∧ (s.refresh core pa size v).objects = s.objects := by
  simp [State.refresh]

@[simp] theorem State.performLoad_mem_objects (s : State) (id : Nat) (a : Access) :
    (s.performLoad id a).mem = s.mem ∧ (s.performLoad id a).objects = s.objects := by
  unfold State.performLoad
  repeat' split
  all_goals simp

@[simp] theorem State.hostSend_mem_objects (s : State) (id : Nat) (a : Access) :
    (s.hostSend id a).mem = s.mem ∧ (s.hostSend id a).objects = s.objects := by
  unfold State.hostSend
  split <;> simp

@[simp] theorem State.hostAccess_mem_objects (s : State) (id : Nat) (a : Access) :
    (s.hostAccess id a).mem = s.mem ∧ (s.hostAccess id a).objects = s.objects := by
  simp [State.hostAccess, apply_ite State.mem, apply_ite State.objects]

@[simp] theorem State.hostDone_mem_objects (s : State) (id : Nat) :
    (s.hostDone id).mem = s.mem ∧ (s.hostDone id).objects = s.objects := ⟨rfl, rfl⟩

@[simp] theorem State.performConfig_mem_objects (s : State) (id : Nat) (a : Access) :
    (s.performConfig id a).mem = s.mem ∧ (s.performConfig id a).objects = s.objects := by
  unfold State.performConfig
  repeat' split
  all_goals simp

@[simp] theorem State.endAccess_mem_objects (s : State) (id : Nat) :
    (s.endAccess id).mem = s.mem ∧ (s.endAccess id).objects = s.objects := ⟨rfl, rfl⟩

@[simp] theorem State.acquire_mem_objects (s : State) (core : Nat) :
    (s.acquire core).mem = s.mem ∧ (s.acquire core).objects = s.objects := by
  simp [State.acquire]

@[simp] theorem State.modMem_mem_objects (s : State) (order : Nat) (f : VMem → VMem) :
    (s.modMem order f).mem = s.mem ∧ (s.modMem order f).objects = s.objects := ⟨rfl, rfl⟩

@[simp] theorem State.dropMem_mem_objects (s : State) (order : Nat) :
    (s.dropMem order).mem = s.mem ∧ (s.dropMem order).objects = s.objects := ⟨rfl, rfl⟩

@[simp] theorem State.landNow_mem_objects (s : State) (l : List VEffect) :
    (s.landNow l).mem = s.mem ∧ (s.landNow l).objects = s.objects := ⟨rfl, rfl⟩

@[simp] theorem State.trapMem_mem_objects (s : State) (m : VMem) : (s.trapMem m).mem = s.mem ∧ (s.trapMem m).objects = s.objects := by
  unfold State.trapMem
  split <;> simp

@[simp] theorem State.releaseDest_mem_objects (s : State) (m : VMem) :
    (s.releaseDest m).mem = s.mem ∧ (s.releaseDest m).objects = s.objects := by
  unfold State.releaseDest
  split <;> simp [apply_ite State.mem, apply_ite State.objects]

@[simp] theorem State.answerMem_mem_objects (s : State) (order : Nat) (f : VMem → VMem) :
    (s.answerMem order f).mem = s.mem ∧ (s.answerMem order f).objects = s.objects := by
  unfold State.answerMem
  dsimp only
  split <;> simp [apply_ite State.mem, apply_ite State.objects]

@[simp] theorem State.copyRead_mem_objects (s : State) (a : Access) (iter at_ : Nat) :
    (s.copyRead a iter at_).mem = s.mem ∧ (s.copyRead a iter at_).objects = s.objects := ⟨rfl, rfl⟩

@[simp] theorem State.copyFailed_mem_objects (s : State) (a : Access) (iter : Nat) (err : DataError) :
    (s.copyFailed a iter err).mem = s.mem ∧ (s.copyFailed a iter err).objects = s.objects := by
  simp [State.copyFailed]

@[simp] theorem State.walkOver_mem_objects (s : State) (id : Nat) : (s.walkOver id).mem = s.mem ∧ (s.walkOver id).objects = s.objects := by
  unfold State.walkOver
  split <;> simp [apply_ite State.mem, apply_ite State.objects]

@[simp] theorem State.trapFetch_mem_objects (s : State) (va : Word) (t : TrapArgs) :
    (s.trapFetch va t).mem = s.mem ∧ (s.trapFetch va t).objects = s.objects := by
  unfold State.trapFetch
  dsimp only
  repeat' split
  all_goals simp

@[simp] theorem State.walkFound_mem_objects (s : State) (id : Nat) (w : Walk) (e : TlbEntry) :
    (s.walkFound id w e).mem = s.mem ∧ (s.walkFound id w e).objects = s.objects := by
  simp [State.walkFound, apply_ite State.mem, apply_ite State.objects]

@[simp] theorem State.stripFound_mem_objects (s : State) (id : Nat) (w : Walk) (e : TlbEntry) :
    (s.stripFound id w e).mem = s.mem ∧ (s.stripFound id w e).objects = s.objects := by
  refine foldl_mem_objects _ (fun s q => ?_) _ _
  split
  · exact ⟨rfl, rfl⟩
  · simp only [State.at_mem, State.at_objects]
    split <;> simp

/-! ### Machine/Sched -/

@[simp] theorem State.discardDemands_mem_objects (s : State) (core : Nat) :
    (s.discardDemands core).mem = s.mem ∧ (s.discardDemands core).objects = s.objects := ⟨rfl, rfl⟩

/-! ### Machine/Start -/

@[simp] theorem State.vacate_mem_objects (s : State) (core : Nat) :
    (s.vacate core).mem = s.mem ∧ (s.vacate core).objects = s.objects := ⟨rfl, rfl⟩

@[simp] theorem State.occupy_mem_objects (s : State) (core : Nat) (c : Core) :
    (s.occupy core c).mem = s.mem ∧ (s.occupy core c).objects = s.objects := ⟨rfl, rfl⟩

@[simp] theorem State.commitLast_mem_objects (s : State) (core : Nat) :
    (s.commitLast core).mem = s.mem ∧ (s.commitLast core).objects = s.objects := by
  simp [State.commitLast]

@[simp] theorem State.endJob_mem_objects (s : State) (core : Nat) : (s.endJob core).mem = s.mem ∧ (s.endJob core).objects = s.objects := by
  unfold State.endJob
  dsimp only
  split <;> simp [apply_ite State.mem, apply_ite State.objects]

@[simp] theorem State.modTaskQueue_mem_objects (s : State) (die q : Nat) (f : TaskQueue → TaskQueue) :
    (s.modTaskQueue die q f).mem = s.mem ∧ (s.modTaskQueue die q f).objects = s.objects := ⟨rfl, rfl⟩

@[simp] theorem State.laneAnswered_mem_objects (s : State) (p : TaskPush) (accepted : Bool) :
    (s.laneAnswered p accepted).mem = s.mem ∧ (s.laneAnswered p accepted).objects = s.objects := by
  simp only [State.laneAnswered, State.at_mem, State.at_objects]
  split
  · split <;> simp
  · simp

@[simp] theorem State.formGroup_mem_objects (s : State) (core kind : Nat) (records : List (BitVec 256)) :
    (s.formGroup core kind records).mem = s.mem ∧ (s.formGroup core kind records).objects = s.objects := by
  unfold State.formGroup
  dsimp only
  split <;> simp

@[simp] theorem State.selectFrom_mem_objects (s : State) (die queue : Nat) :
    (s.selectFrom die queue).mem = s.mem ∧ (s.selectFrom die queue).objects = s.objects := by
  unfold State.selectFrom
  dsimp only
  repeat' split
  all_goals simp

@[simp] theorem State.former_mem_objects (s : State) (die : Nat) : (s.former die).mem = s.mem ∧ (s.former die).objects = s.objects := by
  unfold State.former
  split <;> simp [apply_ite State.mem, apply_ite State.objects]

/-! ### Machine/Contexts -/

@[simp] theorem State.retryLdqs_mem_objects (s : State) (core : Nat) :
    (s.retryLdqs core).mem = s.mem ∧ (s.retryLdqs core).objects = s.objects := by
  unfold State.retryLdqs
  dsimp only
  rw [(foldl_mem_objects _ _ _ _).1, (foldl_mem_objects _ _ _ _).2]
  · simp
  all_goals intro s x; split <;> simp

@[simp] theorem State.resumeStream_mem_objects (s : State) (core slot : Nat) (st : Stream) :
    (s.resumeStream core slot st).mem = s.mem ∧ (s.resumeStream core slot st).objects = s.objects := by
  unfold State.resumeStream
  split <;> simp

@[simp] theorem State.resumeGroup_mem_objects (s : State) (core slot : Nat) (rewrite : ResumeRewrite) :
    (s.resumeGroup core slot rewrite).mem = s.mem ∧ (s.resumeGroup core slot rewrite).objects = s.objects := by
  unfold State.resumeGroup
  dsimp only
  split <;> simp

@[simp] theorem State.dropRetries_mem_objects (s : State) (ids : List Nat) :
    (s.dropRetries ids).mem = s.mem ∧ (s.dropRetries ids).objects = s.objects := ⟨rfl, rfl⟩

@[simp] theorem State.killGroup_mem_objects (s : State) (core slot : Nat) :
    (s.killGroup core slot).mem = s.mem ∧ (s.killGroup core slot).objects = s.objects := by
  unfold State.killGroup
  split <;> simp

@[simp] theorem State.stopMatrixNow_mem_objects (s : State) (core : Nat) :
    (s.stopMatrixNow core).mem = s.mem ∧ (s.stopMatrixNow core).objects = s.objects := by
  unfold State.stopMatrixNow
  split <;> simp

@[simp] theorem State.recordKilled_mem_objects (s : State) (c : Core) (core slot : Nat) (stream : Stream) (pc : Word) (jobrec : Bool) :
    (s.recordKilled c core slot stream pc jobrec).mem = s.mem ∧
      (s.recordKilled c core slot stream pc jobrec).objects = s.objects := ⟨rfl, rfl⟩

@[simp] theorem State.recordWaits_mem_objects (s : State) (c : Core) (core : Nat) :
    (s.recordWaits c core).mem = s.mem ∧ (s.recordWaits c core).objects = s.objects := by
  simp [State.recordWaits, apply_ite State.mem, apply_ite State.objects]

@[simp] theorem State.killJob_mem_objects (s : State) (records : Bool) (core : Nat) :
    (s.killJob records core).mem = s.mem ∧ (s.killJob records core).objects = s.objects := by
  unfold State.killJob
  split <;> simp

@[simp] theorem State.dropTasks_mem_objects (s : State) (launch : Nat) :
    (s.dropTasks launch).mem = s.mem ∧ (s.dropTasks launch).objects = s.objects := ⟨rfl, rfl⟩

@[simp] theorem State.modArrivals_mem_objects (s : State) (f : List FabSent → List FabSent) :
    (s.modArrivals f).mem = s.mem ∧ (s.modArrivals f).objects = s.objects := ⟨rfl, rfl⟩

@[simp] theorem State.forget_mem_objects (s : State) (ctx : Nat) : (s.forget ctx).mem = s.mem ∧ (s.forget ctx).objects = s.objects := by
  unfold State.forget
  split <;> simp

@[simp] theorem State.beginStop_mem_objects (s : State) (core : Nat) :
    (s.beginStop core).mem = s.mem ∧ (s.beginStop core).objects = s.objects := by
  simp [State.beginStop]

@[simp] theorem State.replayFaults_mem_objects (s : State) (core : Nat) :
    (s.replayFaults core).mem = s.mem ∧ (s.replayFaults core).objects = s.objects := by
  simp [State.replayFaults]

@[simp] theorem State.resumeJob_mem_objects (s : State) (launch : Nat) (moves : List (Nat × Nat)) :
    (s.resumeJob launch moves).mem = s.mem ∧ (s.resumeJob launch moves).objects = s.objects := by
  unfold State.resumeJob
  dsimp only
  repeat' split
  all_goals simp

/-! ### Machine/Objects -/

@[simp] theorem State.dropTrap_mem_objects (s : State) (core slot : Nat) (t : TrapInfo) :
    (s.dropTrap core slot t).mem = s.mem ∧ (s.dropTrap core slot t).objects = s.objects := ⟨rfl, rfl⟩

@[simp] theorem State.failReplay_mem_objects (s : State) (core slot page : Nat) (t : TrapInfo) :
    (s.failReplay core slot page t).mem = s.mem ∧ (s.failReplay core slot page t).objects = s.objects := by
  simp [State.failReplay]

@[simp] theorem State.replayAccess_mem_objects (s : State) (core slot : Nat) (t : TrapInfo) :
    (s.replayAccess core slot t).mem = s.mem ∧ (s.replayAccess core slot t).objects = s.objects := by
  unfold State.replayAccess
  split <;> simp

/-! ### Machine/Blocks -/

@[simp] theorem State.blockGo_mem_objects (s : State) (r : Option BlockRun) (pc : Word) :
    (s.blockGo r pc).mem = s.mem ∧ (s.blockGo r pc).objects = s.objects := by
  simp [State.blockGo]

@[simp] theorem State.blockOn_mem_objects (s : State) (r : BlockRun) : (s.blockOn r).mem = s.mem ∧ (s.blockOn r).objects = s.objects := by
  simp [State.blockOn]

/-! ### Machine/Launches -/

@[simp] theorem State.pollSignal_mem_objects (s : State) (q i : Nat) (soon : Bool) :
    (s.pollSignal q i soon).mem = s.mem ∧ (s.pollSignal q i soon).objects = s.objects := by
  unfold State.pollSignal
  split <;> simp [apply_ite State.mem, apply_ite State.objects]

@[simp] theorem State.pollAll_mem_objects (s : State) : s.pollAll.mem = s.mem ∧ s.pollAll.objects = s.objects := by
  refine foldl_mem_objects _ (fun s q => ?_) _ _
  split <;> simp [apply_ite State.mem, apply_ite State.objects]

@[simp] theorem State.freeQueues_mem_objects (s : State) (launch : Nat) (p : Nat → Bool) :
    (s.freeQueues launch p).mem = s.mem ∧ (s.freeQueues launch p).objects = s.objects := ⟨rfl, rfl⟩

@[simp] theorem State.freeStackArea_mem_objects (s : State) (ctx va : Nat) :
    (s.freeStackArea ctx va).mem = s.mem ∧ (s.freeStackArea ctx va).objects = s.objects := by
  unfold State.freeStackArea
  split <;> simp

@[simp] theorem State.placeDie_mem_objects (s : State) (launch : Nat) (l : Launch) (ordinal : Nat) (f : DieFit) (ph : Vector (BitVec 32) 5)
    (rejoin : Bool) :
    (s.placeDie launch l ordinal f ph rejoin).mem = s.mem ∧ (s.placeDie launch l ordinal f ph rejoin).objects = s.objects := by
  simp [State.placeDie]

@[simp] theorem State.placeHead_mem_objects (s : State) (queue : Nat) (h : LHead) :
    (s.placeHead queue h).mem = s.mem ∧ (s.placeHead queue h).objects = s.objects := by
  unfold State.placeHead
  dsimp only
  split <;> simp

@[simp] theorem State.failArrival_mem_objects (s : State) (core : Nat) (t : TrapArgs) :
    (s.failArrival core t).mem = s.mem ∧ (s.failArrival core t).objects = s.objects := by
  simp [State.failArrival]

@[simp] theorem State.passBoundary_mem_objects (s : State) (n core : Nat) :
    (s.passBoundary n core).mem = s.mem ∧ (s.passBoundary n core).objects = s.objects := by
  simp [State.passBoundary]

@[simp] theorem State.setMembers_mem_objects (s : State) (launch members : Nat) :
    (s.setMembers launch members).mem = s.mem ∧ (s.setMembers launch members).objects = s.objects := ⟨rfl, rfl⟩

@[simp] theorem State.withdrawCore_mem_objects (s : State) (core : Nat) :
    (s.withdrawCore core).mem = s.mem ∧ (s.withdrawCore core).objects = s.objects := by
  simp [State.withdrawCore]

@[simp] theorem State.withdraw_mem_objects (s : State) (launch k : Nat) :
    (s.withdraw launch k).mem = s.mem ∧ (s.withdraw launch k).objects = s.objects := by
  simp [State.withdraw]

@[simp] theorem State.grow_mem_objects (s : State) (launch : Nat) (fs : List DieFit) (ph : Vector (BitVec 32) 5) :
    (s.grow launch fs ph).mem = s.mem ∧ (s.grow launch fs ph).objects = s.objects := by
  simp [State.grow]

@[simp] theorem State.completeBoundary_mem_objects (s : State) (launch level domain : Nat) :
    (s.completeBoundary launch level domain).mem = s.mem ∧ (s.completeBoundary launch level domain).objects = s.objects := by
  unfold State.completeBoundary
  dsimp only
  repeat' split
  all_goals simp

@[simp] theorem State.sendFab_mem_objects (s : State) (m : FabSent) : (s.sendFab m).mem = s.mem ∧ (s.sendFab m).objects = s.objects := by
  unfold State.sendFab
  split <;> simp

@[simp] theorem State.sendArrival_mem_objects (s : State) (launch : Nat) (ph4 : BitVec 32) (member : Nat) :
    (s.sendArrival launch ph4 member).mem = s.mem ∧ (s.sendArrival launch ph4 member).objects = s.objects := by
  simp [State.sendArrival]

@[simp] theorem State.sendArrivals_mem_objects (s : State) (launch : Nat) :
    (s.sendArrivals launch).mem = s.mem ∧ (s.sendArrivals launch).objects = s.objects := by
  simp [State.sendArrivals]

@[simp] theorem State.failLevel4_mem_objects (s : State) (launch : Nat) (t : TrapArgs) :
    (s.failLevel4 launch t).mem = s.mem ∧ (s.failLevel4 launch t).objects = s.objects := by
  simp [State.failLevel4, apply_ite State.mem, apply_ite State.objects]

@[simp] theorem State.answerArrival_mem_objects (s : State) (msg : FabricArrival) (a : ArrivalAnswer) :
    (s.answerArrival msg a).mem = s.mem ∧ (s.answerArrival msg a).objects = s.objects := ⟨rfl, rfl⟩

@[simp] theorem State.failSent_mem_objects (s : State) (m : FabSent) (t : TrapArgs) :
    (s.failSent m t).mem = s.mem ∧ (s.failSent m t).objects = s.objects := by
  unfold State.failSent
  split <;> simp

/-! ### Machine/Torus -/

@[simp] theorem State.performRemoteRegs_mem_objects (s : State) (q : RemoteRequest) (b : Block) (o : Nat) :
    (s.performRemoteRegs q b o).1.mem = s.mem ∧ (s.performRemoteRegs q b o).1.objects = s.objects := by
  unfold State.performRemoteRegs
  split
  · exact ⟨rfl, rfl⟩
  · split <;> simp

@[simp] theorem State.passOn_mem_objects (s : State) (q : RemoteRequest) (dest : Nat) (final : Option Nat) (second : Bool) :
    (s.passOn q dest final second).mem = s.mem ∧ (s.passOn q dest final second).objects = s.objects := by
  unfold State.passOn
  split <;> simp

@[simp] theorem State.enterRemote_mem_objects (s : State) (q : RemoteRequest) :
    (s.enterRemote q).mem = s.mem ∧ (s.enterRemote q).objects = s.objects := by
  unfold State.enterRemote
  dsimp only
  split <;> simp

@[simp] theorem State.endRequest_mem_objects (s : State) (x : FabTag) :
    (s.endRequest x).mem = s.mem ∧ (s.endRequest x).objects = s.objects := by
  simp [State.endRequest]

@[simp] theorem State.setTag_mem_objects (s : State) (tag : Nat) (x : FabTag) :
    (s.setTag tag x).mem = s.mem ∧ (s.setTag tag x).objects = s.objects := ⟨rfl, rfl⟩

@[simp] theorem State.endsHere_mem_objects (s : State) (links : List Nat) (flits : Nat) :
    (s.endsHere links flits).mem = s.mem ∧ (s.endsHere links flits).objects = s.objects := ⟨rfl, rfl⟩

@[simp] theorem State.linkError_mem_objects (s : State) (k synd : Nat) :
    (s.linkError k synd).mem = s.mem ∧ (s.linkError k synd).objects = s.objects := by
  simp [State.linkError]

@[simp] theorem State.corrected_mem_objects (s : State) (k : Nat) (units : List Nat) :
    (s.corrected k units).mem = s.mem ∧ (s.corrected k units).objects = s.objects := by
  unfold State.corrected
  dsimp only
  split <;> simp

@[simp] theorem State.resend_mem_objects (s : State) (k : Nat) (from_ : Option (BitVec 8)) :
    (s.resend k from_).mem = s.mem ∧ (s.resend k from_).objects = s.objects := ⟨rfl, rfl⟩

@[simp] theorem State.trainLink_mem_objects (s : State) (k : Nat) (major minor : Nat) :
    (s.trainLink k major minor).mem = s.mem ∧ (s.trainLink k major minor).objects = s.objects := ⟨rfl, rfl⟩

/-! ### Machine/Recovery -/

@[simp] theorem State.keepRetired_mem_objects (s : State) (x : Nat × Nat × Nat × Nat) :
    (s.keepRetired x).mem = s.mem ∧ (s.keepRetired x).objects = s.objects := ⟨rfl, rfl⟩

@[simp] theorem State.unsteer_mem_objects (s : State) (u : TestUnit) :
    (s.unsteer u).mem = s.mem ∧ (s.unsteer u).objects = s.objects := ⟨rfl, rfl⟩

@[simp] theorem State.endTest_mem_objects (s : State) (u : TestUnit) : (s.endTest u).mem = s.mem ∧ (s.endTest u).objects = s.objects := by
  unfold State.endTest
  dsimp only
  repeat' split
  all_goals simp

@[simp] theorem State.cutOff_mem_objects (s : State) (die : Nat) : (s.cutOff die).mem = s.mem ∧ (s.cutOff die).objects = s.objects := by
  simp [State.cutOff]

@[simp] theorem State.holdDies_mem_objects (s : State) : s.holdDies.mem = s.mem ∧ s.holdDies.objects = s.objects := by
  simp [State.holdDies]

@[simp] theorem State.startControl_mem_objects (s : State) (entry : Word) :
    (s.startControl entry).mem = s.mem ∧ (s.startControl entry).objects = s.objects := ⟨rfl, rfl⟩

@[simp] theorem State.recordLost_mem_objects (s : State) (die : Nat) :
    (s.recordLost die).mem = s.mem ∧ (s.recordLost die).objects = s.objects := by
  simp [State.recordLost]

@[simp] theorem State.dropFabric_mem_objects (s : State) : s.dropFabric.mem = s.mem ∧ s.dropFabric.objects = s.objects := by
  simp [State.dropFabric, apply_ite State.mem, apply_ite State.objects]

/-! ### Machine/Strikes -/

@[simp] theorem State.poisonVersion_mem_objects (s : State) (pa : Nat) :
    (s.poisonVersion pa).mem = s.mem ∧ (s.poisonVersion pa).objects = s.objects := ⟨rfl, rfl⟩

@[simp] theorem State.poisonGranule_mem_objects (s : State) (pa : Nat) :
    (s.poisonGranule pa).mem = s.mem ∧ (s.poisonGranule pa).objects = s.objects := ⟨rfl, rfl⟩

@[simp] theorem State.spoil_mem_objects (s : State) (x : StrikeSite) : (s.spoil x).mem = s.mem ∧ (s.spoil x).objects = s.objects := by
  unfold State.spoil
  split <;> simp

@[simp] theorem State.fenceSite_mem_objects (s : State) (site : StrikeSite) :
    (s.fenceSite site).mem = s.mem ∧ (s.fenceSite site).objects = s.objects := by
  unfold State.fenceSite
  split <;> simp [apply_ite State.mem, apply_ite State.objects]

@[simp] theorem State.releaseSpares_mem_objects (s : State) : s.releaseSpares.mem = s.mem ∧ s.releaseSpares.objects = s.objects := by
  unfold State.releaseSpares
  split <;> simp

/-! ### Machine/Startup -/

@[simp] theorem State.disableQueues_mem_objects (s : State) :
    s.disableQueues.mem = s.mem ∧ s.disableQueues.objects = s.objects := ⟨rfl, rfl⟩

@[simp] theorem State.enterMinimal_mem_objects (s : State) : s.enterMinimal.mem = s.mem ∧ s.enterMinimal.objects = s.objects := by
  simp [State.enterMinimal]

@[simp] theorem State.failStart_mem_objects (s : State) (reason : Nat) :
    (s.failStart reason).mem = s.mem ∧ (s.failStart reason).objects = s.objects := by
  unfold State.failStart
  split <;> simp

@[simp] theorem State.measure_mem_objects (s : State) (kind index : Nat) (l : List (BitVec 8)) :
    (s.measure kind index l).mem = s.mem ∧ (s.measure kind index l).objects = s.objects := ⟨rfl, rfl⟩

@[simp] theorem stage0_mem_objects (env : BootInputs) (s : State) :
    (stage0 env s).1.mem = s.mem ∧ (stage0 env s).1.objects = s.objects := by
  unfold stage0
  split <;> simp

@[simp] theorem stage1_mem_objects (env : BootInputs) (s : State) :
    (stage1 env s).1.mem = s.mem ∧ (stage1 env s).1.objects = s.objects := by
  unfold stage1
  split <;> simp

@[simp] theorem stage2_mem_objects (env : BootInputs) (s : State) :
    (stage2 env s).1.mem = s.mem ∧ (stage2 env s).1.objects = s.objects := by
  simp [stage2, apply_ite Prod.fst, apply_ite State.mem, apply_ite State.objects]

@[simp] theorem stage3_mem_objects (env : BootInputs) (s : State) :
    (stage3 env s).1.mem = s.mem ∧ (stage3 env s).1.objects = s.objects := by
  unfold stage3
  split <;> simp

@[simp] theorem stage4_mem_objects (env : BootInputs) (s : State) :
    (stage4 env s).1.mem = s.mem ∧ (stage4 env s).1.objects = s.objects := by
  simp [stage4]

@[simp] theorem stage5_mem_objects (env : BootInputs) (s : State) :
    (stage5 env s).1.mem = s.mem ∧ (stage5 env s).1.objects = s.objects := by
  unfold stage5
  split <;> simp

@[simp] theorem stage6_mem_objects (env : BootInputs) (s : State) :
    (stage6 env s).1.mem = s.mem ∧ (stage6 env s).1.objects = s.objects := by
  unfold stage6
  split
  · exact ⟨rfl, rfl⟩
  · refine foldl_mem_objects _ (fun s k => ?_) _ _
    split <;> simp

@[simp] theorem stage7_mem_objects (s : State) : (stage7 s).1.mem = s.mem ∧ (stage7 s).1.objects = s.objects := ⟨rfl, rfl⟩

@[simp] theorem stageWork_mem_objects (env : BootInputs) (s : State) (k : Nat) :
    (stageWork env s k).1.mem = s.mem ∧ (stageWork env s k).1.objects = s.objects := by
  unfold stageWork
  split <;> simp

@[simp] theorem State.runStages_mem_objects (s : State) (env : BootInputs) (again : Bool) (l : List Nat) :
    (s.runStages env again l).mem = s.mem ∧ (s.runStages env again l).objects = s.objects := by
  induction l generalizing s with
  | nil => exact ⟨rfl, rfl⟩
  | cons k l ih =>
    unfold State.runStages
    dsimp only
    split
    · simp
    · split
      all_goals
        rename_i hw
        have hm := congrArg (fun x => x.1.mem) hw
        have ho := congrArg (fun x => x.1.objects) hw
        simp only [stageWork_mem_objects] at hm ho
        simp [hm, ho, ih]

/-! ### Machine/Cycle -/

@[simp] theorem State.scalarTurn_mem_objects (s : State) (held : Bool) :
    (s.scalarTurn held).2.mem = s.mem ∧ (s.scalarTurn held).2.objects = s.objects := by
  unfold State.scalarTurn
  dsimp only
  repeat' split
  all_goals simp

@[simp] theorem State.groupTurn_mem_objects (s : State) : s.groupTurn.2.mem = s.mem ∧ s.groupTurn.2.objects = s.objects := by
  simp [State.groupTurn, apply_ite Prod.snd, apply_ite State.mem, apply_ite State.objects]

@[simp] theorem State.eftTurn_mem_objects (s : State) : s.eftTurn.2.mem = s.mem ∧ s.eftTurn.2.objects = s.objects := by
  simp [State.eftTurn, apply_ite Prod.snd, apply_ite State.mem, apply_ite State.objects]

@[simp] theorem State.controlTurn_mem_objects (s : State) : s.controlTurn.2.mem = s.mem ∧ s.controlTurn.2.objects = s.objects := by
  unfold State.controlTurn
  dsimp only
  split <;> simp

@[simp] theorem State.tableTurn_mem_objects (s : State) (k : WordKind) (header : Word) (length : Nat) (pc : Word) :
    (s.tableTurn k header length pc).2.mem = s.mem ∧ (s.tableTurn k header length pc).2.objects = s.objects := by
  unfold State.tableTurn
  repeat' split
  all_goals simp

@[simp] theorem State.vectorTurn_mem_objects (s : State) : s.vectorTurn.2.mem = s.mem ∧ s.vectorTurn.2.objects = s.objects := by
  unfold State.vectorTurn
  dsimp only
  split <;> simp

@[simp] theorem State.noteMatrixStop_mem_objects (s : State) :
    s.noteMatrixStop.mem = s.mem ∧ s.noteMatrixStop.objects = s.objects := ⟨rfl, rfl⟩

@[simp] theorem State.matrixTurn_mem_objects (s : State) : s.matrixTurn.2.mem = s.mem ∧ s.matrixTurn.2.objects = s.objects := by
  unfold State.matrixTurn
  split
  · exact ⟨rfl, rfl⟩
  next r _ =>
    have ht := s.tableTurn_mem_objects .matrix r.header r.length r.pc
    generalize s.tableTurn .matrix r.header r.length r.pc = x at ht ⊢
    obtain ⟨act, t⟩ := x
    repeat' split
    all_goals simp_all

@[simp] theorem State.chanTurn_mem_objects (s : State) (n : Nat) :
    (s.chanTurn n).2.mem = s.mem ∧ (s.chanTurn n).2.objects = s.objects := by
  unfold State.chanTurn
  dsimp only
  repeat' split
  all_goals simp

@[simp] theorem State.turn_mem_objects (s : State) : s.turn.2.mem = s.mem ∧ s.turn.2.objects = s.objects := by
  unfold State.turn
  split <;> simp

@[simp] theorem State.dropTurns_mem_objects (s : State) (p : Focus → Bool) :
    (s.dropTurns p).mem = s.mem ∧ (s.dropTurns p).objects = s.objects := ⟨rfl, rfl⟩

@[simp] theorem State.afterWord_mem_objects (b t : State) : (b.afterWord t).mem = t.mem ∧ (b.afterWord t).objects = t.objects := by
  unfold State.afterWord
  dsimp only
  split <;> simp [apply_ite State.mem, apply_ite State.objects]

@[simp] theorem State.thaw_mem_objects (s : State) (k slot : Nat) : (s.thaw k slot).mem = s.mem ∧ (s.thaw k slot).objects = s.objects := by
  simp only [State.thaw, State.at_mem, State.at_objects]
  split <;> simp

@[simp] theorem State.thawAll_mem_objects (s : State) : s.thawAll.mem = s.mem ∧ s.thawAll.objects = s.objects := by
  simp [State.thawAll]

end Sys2Proof.Machine

/-! ## The functions that write memory keep its canonical form, and leave the loaded code objects alone -/

namespace Sys2Proof.Machine

/-- A fold of changes that leave the loaded code objects alone and keep the form of memory does so. -/
@[simp] theorem foldl_wf {α : Type} (g : State → α → State)
    (h : ∀ s x, (g s x).objects = s.objects ∧ (s.mem.wf = true → (g s x).mem.wf = true)) (l : List α) (s : State) :
    (l.foldl g s).objects = s.objects ∧ (s.mem.wf = true → (l.foldl g s).mem.wf = true) := by
  induction l generalizing s with
  | nil => exact ⟨rfl, id⟩
  | cons x l ih => exact ⟨(ih _).1.trans (h s x).1, fun hs => (ih _).2 ((h s x).2 hs)⟩

theorem SlotEntry.wf_patch (e : SlotEntry) (v : Nat) (m : Memory) (h : m.wf = true) : (e.patch v m).wf = true := by
  unfold SlotEntry.patch
  dsimp only
  split <;> exact Memory.wf_writeN _ _ _ _ h

theorem CodeObject.wf_patched (o : CodeObject) (h : o.image.wf = true) : o.patched.wf = true := by
  refine List.foldlRecOn (motive := fun m => Memory.wf m = true) _ _ ?_ fun m hm n _ => Memory.wf_writeN _ _ _ _ hm
  exact List.foldlRecOn (motive := fun m => Memory.wf m = true) _ _ h fun m hm e _ => e.wf_patch _ m hm

/-! ### Machine/Mem -/

@[simp] theorem State.commitBytes_wf (s : State) (p : PStore) :
    (s.commitBytes p).objects = s.objects ∧ (s.mem.wf = true → (s.commitBytes p).mem.wf = true) :=
  ⟨rfl, Memory.wf_writeN _ _ _ _⟩

@[simp] theorem State.commitMarked_wf (s : State) (ps : List PStore) :
    (s.commitMarked ps).objects = s.objects ∧ (s.mem.wf = true → (s.commitMarked ps).mem.wf = true) :=
  foldl_wf _ State.commitBytes_wf _ _

@[simp] theorem State.commitStores_wf (s : State) (core : Nat) (ps : List PStore) :
    (s.commitStores core ps).objects = s.objects ∧ (s.mem.wf = true → (s.commitStores core ps).mem.wf = true) := by
  simp +contextual [State.commitStores]

@[simp] theorem State.deviceWrite_wf (s : State) (pa size v : Nat) :
    (s.deviceWrite pa size v).objects = s.objects ∧ (s.mem.wf = true → (s.deviceWrite pa size v).mem.wf = true) := by
  refine ⟨?_, s.wf_deviceWrite pa size v⟩
  unfold State.deviceWrite
  split <;> rfl

/-! ### Machine/Queues -/

@[simp] theorem State.appendPacket_wf (s : State) (q : Nat) (p : BitVec 1024) :
    (s.appendPacket q p).1.objects = s.objects ∧ (s.mem.wf = true → (s.appendPacket q p).1.mem.wf = true) := by
  unfold State.appendPacket
  dsimp only
  repeat' split
  all_goals simp +contextual

/-! ### Machine/Registers -/

@[simp] theorem State.logError_wf (s : State) (r : ErrRecord) :
    (s.logError r).objects = s.objects ∧ (s.mem.wf = true → (s.logError r).mem.wf = true) := by
  unfold State.logError
  dsimp only
  split <;> simp +contextual

@[simp] theorem State.logPoison_wf (s : State) (pa ctx action : Nat) :
    (s.logPoison pa ctx action).objects = s.objects ∧ (s.mem.wf = true → (s.logPoison pa ctx action).mem.wf = true) := by
  simp +contextual [State.logPoison]

/-! ### Machine/Access -/

@[simp] theorem State.performStore_wf (s : State) (id : Nat) (a : Access) :
    (s.performStore id a).objects = s.objects ∧ (s.mem.wf = true → (s.performStore id a).mem.wf = true) := by
  unfold State.performStore
  repeat' split
  all_goals simp +contextual

@[simp] theorem State.performAmo_wf (s : State) (id : Nat) (a : Access) (op b cmp : Nat) (result : Bool) :
    (s.performAmo id a op b cmp result).objects = s.objects ∧ (s.mem.wf = true → (s.performAmo id a op b cmp result).mem.wf = true) := by
  unfold State.performAmo
  extract_lets mine s1 s2 old new s3
  have h1 : s1.objects = s.objects ∧ (s.mem.wf = true → s1.mem.wf = true) := by
    unfold s1
    split <;> simp +contextual
  clear_value s1
  repeat' split
  all_goals simp +contextual [h1, s2, s3, Memory.wf_writeN]

@[simp] theorem State.packetThere_wf (s : State) (a : Access) (id queue : Nat) :
    (s.packetThere a id queue).objects = s.objects ∧ (s.mem.wf = true → (s.packetThere a id queue).mem.wf = true) := by
  unfold State.packetThere
  extract_lets p stop
  split
  · have hx := s.appendPacket_wf queue p
    generalize s.appendPacket queue p = x at hx ⊢
    obtain ⟨s1, w⟩ := x
    repeat' split
    all_goals simp_all [stop]
  · simp

@[simp] theorem State.walkFailed_wf (s : State) (id : Nat) (w : Walk) (level : Nat) (malformed : Bool) :
    (s.walkFailed id w level malformed).objects = s.objects ∧ (s.mem.wf = true → (s.walkFailed id w level malformed).mem.wf = true) := by
  unfold State.walkFailed
  extract_lets at_ logged others all begun
  have hl : logged.objects = s.objects ∧ (s.mem.wf = true → logged.mem.wf = true) := by
    unfold logged
    split <;> simp +contextual
  have hb : begun.objects = s.objects ∧ (s.mem.wf = true → begun.mem.wf = true) := by
    unfold begun
    split
    · exact hl
    · simp
  clear_value begun
  rw [← hb.1]
  rw [(foldl_mem_objects _ _ _ _).1, (foldl_mem_objects _ _ _ _).2]
  · exact ⟨rfl, hb.2⟩
  all_goals
    intro s x
    dsimp only
    split
    · simp
    · simp only [State.at_mem, State.at_objects]
      repeat' split
      all_goals simp

@[simp] theorem State.walkAnswered_wf (s : State) (id : Nat) (w : Walk) :
    (s.walkAnswered id w).objects = s.objects ∧ (s.mem.wf = true → (s.walkAnswered id w).mem.wf = true) := by
  unfold State.walkAnswered
  split
  · refine foldl_wf _ (fun s q => ?_) _ _
    split <;> simp
  · repeat' split
    all_goals simp +contextual

/-! ### Machine/Contexts -/

@[simp] theorem State.endImage_wf (s : State) (launch : Nat) (records : Bool) (role : Nat) (c : Core) :
    (s.endImage launch records role c).objects = s.objects ∧ (s.mem.wf = true → (s.endImage launch records role c).mem.wf = true) := by
  unfold State.endImage
  split <;> simp +contextual

@[simp] theorem State.terminate_wf (s : State) (launch status : Nat) (invalid : Bool) (records : Bool) :
    (s.terminate launch status invalid records).objects = s.objects ∧
      (s.mem.wf = true → (s.terminate launch status invalid records).mem.wf = true) := by
  unfold State.terminate
  split
  · simp
  · split
    · simp
    · extract_lets s1 waiting s2 s3 s4
      have h3 : s3.objects = s.objects ∧ (s.mem.wf = true → s3.mem.wf = true) := by
        simp +contextual [s3, s2, s1]
      have h4 : s4.objects = s3.objects ∧ (s3.mem.wf = true → s4.mem.wf = true) := by
        unfold s4
        split <;> simp +contextual
      clear_value s3 s4
      simp +contextual [h3, h4]

@[simp] theorem State.killContext_wf (s : State) (ctx : Nat) :
    (s.killContext ctx).objects = s.objects ∧ (s.mem.wf = true → (s.killContext ctx).mem.wf = true) := by
  simp +contextual [State.killContext]

@[simp] theorem State.writeImage_wf (s : State) (core : Nat) :
    (s.writeImage core).objects = s.objects ∧ (s.mem.wf = true → (s.writeImage core).mem.wf = true) :=
  ⟨s.writeImage_keeps (fun t => t.objects = s.objects) (fun t pa size v h => (t.deviceWrite_wf pa size v).1.trans h) (fun _ h => h) core rfl,
    s.wf_writeImage core⟩

@[simp] theorem State.preempt_wf (s : State) (launch : Nat) :
    (s.preempt launch).objects = s.objects ∧ (s.mem.wf = true → (s.preempt launch).mem.wf = true) := by
  unfold State.preempt
  dsimp only
  repeat' split
  all_goals simp +contextual

/-! ### Machine/Objects -/

@[simp] theorem State.setLeaf_wf (s : State) (ctx va v : Nat) :
    (s.setLeaf ctx va v).objects = s.objects ∧ (s.mem.wf = true → (s.setLeaf ctx va v).mem.wf = true) := by
  unfold State.setLeaf
  split <;> simp +contextual

theorem State.mapPage_wf (s : State) (o : CodeObject) (i : Nat) (ho : o.image.wf = true) :
    (s.mapPage o i).objects = s.objects ∧ (s.mem.wf = true → (s.mapPage o i).mem.wf = true) := by
  unfold State.mapPage
  exact ⟨(State.setLeaf_wf _ _ _ _).1, fun hm => (State.setLeaf_wf _ _ _ _).2 (Memory.wf_replace _ _ _ _ _ hm (o.wf_patched ho))⟩

@[simp] theorem State.refreshBytes_wf (s : State) (o : CodeObject) (off n : Nat) (code : Bool) :
    (s.refreshBytes o off n code).objects = s.objects ∧ (s.mem.wf = true → (s.refreshBytes o off n code).mem.wf = true) := by
  unfold State.refreshBytes
  repeat' split
  all_goals simp +contextual

/-! ### Machine/Launches -/

@[simp] theorem State.report_wf (s : State) (p : BitVec 1024) (discard dies detail status : Nat) (invalid : Bool) :
    (s.report p discard dies detail status invalid).objects = s.objects ∧
      (s.mem.wf = true → (s.report p discard dies detail status invalid).mem.wf = true) := by
  unfold State.report
  extract_lets ctx at_ s1 a s2
  have h1 : s1.objects = s.objects ∧ (s.mem.wf = true → s1.mem.wf = true) := by
    unfold s1
    split <;> simp +contextual
  have h2 : s2.objects = s.objects ∧ (s.mem.wf = true → s2.mem.wf = true) := by
    unfold s2
    split
    · simp +contextual [h1, Memory.wf_writeN]
    · exact h1
  split
  · simpa using h2
  · exact h2

/-! ### Machine/Torus -/

@[simp] theorem State.commitRemote_wf (s : State) (l : List RemoteStore) :
    (s.commitRemote l).objects = s.objects ∧ (s.mem.wf = true → (s.commitRemote l).mem.wf = true) := by
  simp +contextual [State.commitRemote]

@[simp] theorem State.performRemote_wf (s : State) (q : RemoteRequest) :
    (s.performRemote q).1.objects = s.objects ∧ (s.mem.wf = true → (s.performRemote q).1.mem.wf = true) := by
  unfold State.performRemote
  extract_lets mine own bad late ordered sAtomic old
  have hAtomic : sAtomic.objects = s.objects ∧ (s.mem.wf = true → sAtomic.mem.wf = true) := by
    simp +contextual [sAtomic]
  clear_value sAtomic
  split
  · simp
  · extract_lets r s1 s2 s3
    have h2 : s2.objects = s.objects ∧ (s.mem.wf = true → s2.mem.wf = true) := by
      unfold s2
      split <;> simp +contextual [s1]
    unfold s3
    split <;> simpa using h2
  · repeat' split
    all_goals simp +contextual [hAtomic, Memory.wf_writeN]
  · simp +contextual

@[simp] theorem State.answerRemote_wf (s : State) (q : RemoteRequest) :
    (s.answerRemote q).1.objects = s.objects ∧ (s.mem.wf = true → (s.answerRemote q).1.mem.wf = true) := by
  unfold State.answerRemote
  repeat' split
  all_goals simp +contextual

/-! ### Machine/Recovery -/

@[simp] theorem State.retireCore_wf (s : State) (die core : Nat) :
    (s.retireCore die core).1.objects = s.objects ∧ (s.mem.wf = true → (s.retireCore die core).1.mem.wf = true) := by
  unfold State.retireCore
  split <;> simp +contextual

@[simp] theorem State.retireUnit_wf (s : State) (u : TestUnit) :
    (s.retireUnit u).1.objects = s.objects ∧ (s.mem.wf = true → (s.retireUnit u).1.mem.wf = true) := by
  unfold State.retireUnit
  split <;> simp +contextual

@[simp] theorem State.repair_wf (s : State) (u : TestUnit) :
    (s.repair u).objects = s.objects ∧ (s.mem.wf = true → (s.repair u).mem.wf = true) := by
  unfold State.repair
  dsimp only
  repeat' split
  all_goals simp +contextual

@[simp] theorem State.poisonLine_wf (s : State) (addr : Nat) :
    (s.poisonLine addr).objects = s.objects ∧ (s.mem.wf = true → (s.poisonLine addr).mem.wf = true) := by
  simp +contextual [State.poisonLine]

@[simp] theorem State.loseControlDie_wf (s : State) (modified : List Nat) :
    (s.loseControlDie modified).objects = s.objects ∧ (s.mem.wf = true → (s.loseControlDie modified).mem.wf = true) := by
  unfold State.loseControlDie
  split <;> simp +contextual

@[simp] theorem State.killAll_wf (s : State) : s.killAll.objects = s.objects ∧ (s.mem.wf = true → s.killAll.mem.wf = true) := by
  simp +contextual [State.killAll, apply_ite State.mem, apply_ite State.objects, apply_ite Memory.wf]

@[simp] theorem State.launchLoses_wf (s : State) (die launch discarded : Nat) :
    (s.launchLoses die launch discarded).objects = s.objects ∧ (s.mem.wf = true → (s.launchLoses die launch discarded).mem.wf = true) := by
  unfold State.launchLoses
  split <;> simp +contextual

/-! ### Machine/Strikes -/

@[simp] theorem State.logStrike_wf (s : State) (x : Strike) :
    (s.logStrike x).objects = s.objects ∧ (s.mem.wf = true → (s.logStrike x).mem.wf = true) := by
  unfold State.logStrike
  dsimp only
  split <;> simp +contextual

@[simp] theorem State.strike_wf (s : State) (x : Strike) :
    (s.strike x).objects = s.objects ∧ (s.mem.wf = true → (s.strike x).mem.wf = true) := by
  unfold State.strike
  dsimp only
  repeat' split
  all_goals simp +contextual

@[simp] theorem State.struck_wf (s : State) : s.struck.objects = s.objects ∧ (s.mem.wf = true → s.struck.mem.wf = true) := by
  simp +contextual [State.struck]

/-! ### Machine/HostPort -/

@[simp] theorem State.hostStore_wf (s : State) (l : List (Nat × Nat)) (data : List (BitVec 8)) :
    (s.hostStore l data).objects = s.objects ∧ (s.mem.wf = true → (s.hostStore l data).mem.wf = true) := by
  induction l generalizing s data with
  | nil => simp [State.hostStore]
  | cons x l ih => simp +contextual [State.hostStore, ih]

/-! ### Machine/Startup -/

@[simp] theorem State.raiseAlarm_wf (s : State) (level index : Nat) :
    (s.raiseAlarm level index).objects = s.objects ∧ (s.mem.wf = true → (s.raiseAlarm level index).mem.wf = true) := by
  unfold State.raiseAlarm
  split <;> simp +contextual

/-! ### Machine/Cycle -/

@[simp] theorem State.endCycle_wf (s0 : State) : s0.endCycle.objects = s0.objects ∧ (s0.mem.wf = true → s0.endCycle.mem.wf = true) := by
  simp +contextual [State.endCycle]

@[simp] theorem State.planTurns_wf (s : State) : s.planTurns.2.objects = s.objects ∧ (s.mem.wf = true → s.planTurns.2.mem.wf = true) := by
  unfold State.planTurns
  repeat' split
  all_goals simp +contextual

@[simp] theorem State.planAgenda_wf (s : State) :
    s.planAgenda.2.objects = s.objects ∧ (s.mem.wf = true → s.planAgenda.2.mem.wf = true) := by
  unfold State.planAgenda
  repeat' split
  all_goals simp +contextual

@[simp] theorem State.plan_wf (s : State) : s.plan.2.objects = s.objects ∧ (s.mem.wf = true → s.plan.2.mem.wf = true) := by
  unfold State.plan
  repeat' split
  all_goals simp +contextual

end Sys2Proof.Machine

/-! ## Outcomes: each goes on to a next state, and keeps the form

One rule for each way in which an instruction's work is put together out of checks and waits, then one for each form that several
instructions share and for each instruction and event that has work of its own. -/

namespace Sys2Proof.Machine

/-- An outcome is a next state, and in it the bytes of memory and of the code objects' images have kept their form. -/
def KeepsForm (s : State) (o : Out) : Prop := ∃ t, o = .next t ∧ (MemoryForm s → MemoryForm t)

@[simp] theorem keepsForm_next {s t : State} : KeepsForm s (.next t) ↔
    (s.mem.wf = true ∧ (∀ o ∈ s.objects, o.2.image.wf = true) → t.mem.wf = true ∧ ∀ o ∈ t.objects, o.2.image.wf = true) := by
  simp [KeepsForm, MemoryForm]

theorem keepsForm_of_form {s t : State} (h : MemoryForm s → MemoryForm t) : KeepsForm s (.next t) := ⟨t, rfl, h⟩

@[simp] theorem keepsForm_ite {s : State} {c : Prop} [Decidable c] {a b : Out} :
    KeepsForm s (if c then a else b) ↔ (c → KeepsForm s a) ∧ (¬c → KeepsForm s b) := by
  split <;> simp [*]

/-- What an outcome keeps does not depend on parts of the state outside memory and the code objects. -/
theorem keepsForm_congr {s u : State} {o : Out} (h : u.mem = s.mem ∧ u.objects = s.objects) : KeepsForm u o ↔ KeepsForm s o := by
  simp [KeepsForm, MemoryForm, h]

theorem FMap.mem_of_get {α : Type} {m : FMap α} {k : Nat} {v : α} (h : m.get k = some v) : (k, v) ∈ m := by
  induction m with
  | nil => cases h
  | cons x m ih =>
    obtain ⟨j, w⟩ := x
    by_cases hj : k = j <;> simp_all [FMap.get]

/-- The code object found at an address has its image in the canonical form. -/
theorem memoryForm_object {s : State} {ctx va : Nat} {o : CodeObject} (h : MemoryForm s) (ho : s.object ctx va = some o) :
    o.image.wf = true :=
  h.2 _ (FMap.mem_of_get ho)

/-- Storing a code object whose image is in the canonical form keeps the form of all of them. -/
theorem memoryForm_setObject {s : State} (h : MemoryForm s) (k : Nat) (o : CodeObject) (ho : o.image.wf = true) :
    MemoryForm { s with objects := s.objects.set k o } := by
  refine ⟨h.1, fun p hp => ?_⟩
  rcases FMap.mem_set _ _ _ _ hp with rfl | hp
  · exact ho
  · exact h.2 p hp

/-- A change that leaves the objects alone and keeps the form of memory keeps the form of both. -/
theorem memoryForm_of_wf {s t : State} (h : MemoryForm s) (ht : t.objects = s.objects ∧ (s.mem.wf = true → t.mem.wf = true)) :
    MemoryForm t :=
  ⟨ht.2 h.1, ht.1 ▸ h.2⟩

theorem State.foldl_mapPage_wf (o : CodeObject) (ho : o.image.wf = true) (l : List Nat) (s : State) :
    (l.foldl (fun (s : State) p => s.mapPage o p) s).objects = s.objects ∧
      (s.mem.wf = true → (l.foldl (fun (s : State) p => s.mapPage o p) s).mem.wf = true) :=
  foldl_wf _ (fun s p => s.mapPage_wf o p ho) l s

/-! ### Machine/Ops -/

@[simp] theorem keepsForm_trapWith {s : State} {t : TrapArgs} : KeepsForm s (trapWith s t) := by
  simp [trapWith]

@[simp] theorem keepsForm_trap {s : State} {c : Nat} : KeepsForm s (trap s c) := keepsForm_trapWith

@[simp] theorem keepsForm_check {s : State} {ok : Bool} {c : Nat} {k : Out} :
    KeepsForm s (check ok c s k) ↔ (ok = true → KeepsForm s k) := by
  cases ok <;> simp [check]

@[simp] theorem keepsForm_onStreams {s : State} {g e c : Bool} {k : Out} :
    KeepsForm s (onStreams g e c s k) ↔ (s.streamIn g e c = true → KeepsForm s k) := keepsForm_check

@[simp] theorem keepsForm_refuseUnit {s : State} : KeepsForm s (refuseUnit s) := by
  simp [refuseUnit]

@[simp] theorem keepsForm_withFields {s : State} {ns : List (BitVec 5)} {k : Out} :
    KeepsForm s (withFields ns s k) ↔ (ns.all s.fieldOk = true → KeepsForm s k) := keepsForm_check

@[simp] theorem keepsForm_withReads {s : State} {ns : List (BitVec 5)} {k : Out} :
    KeepsForm s (withReads ns s k) ↔ (s.readsPoison ns = false → KeepsForm s k) := by
  simp [withReads]

@[simp] theorem keepsForm_withAddress {s : State} {ea : Word} {size : Nat} {p : Perm} {k : Nat → TlbEntry → Out} :
    KeepsForm s (withAddress ea size p s k) ↔ ∀ pa e, s.checkAccess ea size p = .ok pa e → KeepsForm s (k pa e) := by
  unfold withAddress
  split <;> simp [*]

@[simp] theorem keepsForm_withRoom {s : State} {k : Out} :
    KeepsForm s (withRoom s k) ↔ (s.outstanding < s.cur.stream.loadLimit → KeepsForm s k) := by
  simp [withRoom]

@[simp] theorem keepsForm_withoutStoreError {s : State} {covers : Nat → Bool} {k : Out} :
    KeepsForm s (withoutStoreError covers s k) ↔ ((s.storeErrors.find? fun e => covers e.cls) = none → KeepsForm s k) := by
  unfold withoutStoreError
  split <;> simp [*, trapWith]

@[simp] theorem keepsForm_notCompat {s : State} {k : Out} :
    KeepsForm s (notCompat s k) ↔ (s.here.job.compat = false → KeepsForm s k) := by
  simp [notCompat]

theorem keepsForm_withWord {va aux : Word} {s : State} {k : BitVec 32 → State → Out} (h : ∀ w u, KeepsForm u (k w u)) :
    KeepsForm s (withWord va aux s k) := by
  unfold withWord
  split
  · simp
  · simp
  · exact (keepsForm_congr (by simp)).1 (h _ (s.keepSector s.curKey s.curCtx va))

@[simp] theorem keepsForm_withHeader {va : Word} {kind : Nat} {b : Bool} {s : State} {k : BitVec 32 → State → Out}
    (h : ∀ w u, KeepsForm u (k w u)) : KeepsForm s (withHeader va kind b s k) := by
  unfold withHeader
  split
  · simp
  · exact keepsForm_withWord fun w u => by simp [h]

@[simp] theorem keepsForm_withMode {s : State} {exposed vector : Bool} {k : Out} :
    KeepsForm s (withMode exposed vector s k) ↔ (s.here.mayStart s.cur.slot exposed vector = true → KeepsForm s k) := by
  simp [withMode]

@[simp] theorem keepsForm_onVector {s : State} {k : Out} :
    KeepsForm s (onVector s k) ↔ (s.cur.stream = .vector → KeepsForm s k) := by
  simp [onVector]

@[simp] theorem keepsForm_withLiteral {va : Word} {s : State} {k : BitVec 32 → State → Out} (h : ∀ w u, KeepsForm u (k w u)) :
    KeepsForm s (withLiteral va s k) := by
  unfold withLiteral
  split
  · simp
  · simp
  · exact (keepsForm_congr (by simp)).1 (h _ (s.keepSector s.curKey s.curCtx va))

@[simp] theorem keepsForm_vIssue {F : VForm} {s : State} {k : Nat → Nat → Out} (h : ∀ o l, KeepsForm s (k o l)) :
    KeepsForm s (vIssue F s k) := by
  simp [vIssue, h]

@[simp] theorem keepsForm_vTail {F : VForm} {s : State} {o l : Nat} {env : VEnv} {pa : Nat} {out sout : VOut} :
    KeepsForm s (vTail F s o l env pa out sout) := by
  simp [vTail]

@[simp] theorem keepsForm_vForm {F : VForm} {s : State} {f : VEnv → VOut} : KeepsForm s (vForm F s f) := by
  simp [vForm]

@[simp] theorem keepsForm_withElems {l : List VAcc} {p : Perm} {s : State} {k : List (VAcc × Nat × TlbEntry) → Out} :
    KeepsForm s (withElems l p s k) ↔ ∀ r, s.checkElems p l = .ok r → KeepsForm s (k r) := by
  unfold withElems
  split <;> simp [*]

@[simp] theorem keepsForm_withBase {base : Word} {l : List VAcc} {s : State} {k : Out} :
    KeepsForm s (withBase base l s k) ↔ (l = [] ∨ base.toNat % 4 = 0 → KeepsForm s k) := by
  cases l <;> simp [withBase]

@[simp] theorem keepsForm_onGlobal {s : State} {k : Out} :
    KeepsForm s (onGlobal s k) ↔ (s.cur.stream = .vector → s.grp.v.exposed = false → KeepsForm s k) := by
  simp [onGlobal]

@[simp] theorem keepsForm_memTail {F : VForm} {s s0 t : State} {o : Nat} {env : VEnv} {pa : Nat} {m : Option VMem} :
    KeepsForm s (memTail F s0 t o env pa m) ↔ KeepsForm s (.next t) := by
  simp [memTail]

@[simp] theorem keepsForm_withAgreement {F : VForm} {l : List VAcc} {f : VEnv → List VAcc} {s : State} {k : Out} :
    KeepsForm s (withAgreement F l f s k) ↔ ((s.isTwin = false ∨ f (s.vEnv F true).1 = l) → KeepsForm s k) := by
  simp [withAgreement]

@[simp] theorem keepsForm_withScratch {base : Word} {l : List VAcc} {s : State} {k : Out} (h : KeepsForm s k) :
    KeepsForm s (withScratch base l s k) := by
  unfold withScratch
  split <;> simp [h]

@[simp] theorem keepsForm_withSegment {seg : Option Seg} {s : State} {k : Out} :
    KeepsForm s (withSegment seg s k) ↔ ((∀ g, seg = some g → g.passes s.pcc = true) → KeepsForm s k) := by
  cases seg <;> simp [withSegment]

@[simp] theorem keepsForm_withLns {f : BitVec 2} {s : State} {k : Out} (h : KeepsForm s k) : KeepsForm s (withLns f s k) := by
  simp [withLns, h]

@[simp] theorem keepsForm_onMatrix {s : State} {k : Out} (h : KeepsForm s k) : KeepsForm s (onMatrix s k) := by
  simp [onMatrix, h]

@[simp] theorem keepsForm_pathWait {s : State} : KeepsForm s (pathWait s) := by
  simp [pathWait, slotHeld]

@[simp] theorem keepsForm_orMiss {ok : Bool} {s : State} {k : Out} : KeepsForm s (orMiss ok s k) ↔ (ok = true → KeepsForm s k) := by
  cases ok <;> simp [orMiss]

@[simp] theorem keepsForm_withFq {s : State} {reserved : Out} {k : Word → Out} (hr : KeepsForm s reserved)
    (hk : ∀ w, KeepsForm s (k w)) : KeepsForm s (withFq s reserved k) := by
  unfold withFq
  repeat' split
  all_goals simp [hr, hk]

@[simp] theorem keepsForm_checkPop {ok : Bool} {c : Nat} {addr fw : Word} {s : State} {k : Out} :
    KeepsForm s (checkPop ok c addr fw s k) ↔ (ok = true → KeepsForm s k) := by
  cases ok <;> simp [checkPop]

@[simp] theorem keepsForm_mIssue {r : Retained} {closes : Bool} {step : Nat} {s : State} {f : State → State}
    (h : ∀ u, (f u).mem = u.mem ∧ (f u).objects = u.objects) : KeepsForm s (mIssue r closes step s f) := by
  unfold mIssue
  dsimp only
  repeat' split
  all_goals simp [h]

@[simp] theorem keepsForm_withRange {ea : Word} {w : Bool} {len free : Nat} {s : State} {k : State → Out} (h : ∀ u, KeepsForm u (k u)) :
    KeepsForm s (withRange ea w len free s k) := by
  have same (u : State) (o : Out) (hu : u.mem = s.mem ∧ u.objects = s.objects) (ho : KeepsForm u o) : KeepsForm s o :=
    (keepsForm_congr hu).1 ho
  unfold withRange
  split
  · simp
  · dsimp only
    split
    · exact same (s.keepAddress ea) _ (by simp) (by simp)
    · rename_i c _
      split
      · exact same ((s.keepAddress ea).setCore (s.keepAddress ea).cur.core c) _ (by simp) (by simp)
      · exact same ((s.keepAddress ea).setCore (s.keepAddress ea).cur.core c) _ (by simp) (h _)

@[simp] theorem keepsForm_onChannel {s : State} {k : Out} (h : KeepsForm s k) : KeepsForm s (onChannel s k) := by
  unfold onChannel
  split <;> simp [h]

@[simp] theorem keepsForm_withExit {r : BlockRun} {s : State} {k : Exit2 → Out} (h : ∀ x, KeepsForm s (k x)) :
    KeepsForm s (withExit r s k) := by
  unfold withExit
  repeat' split
  all_goals simp [h]

@[simp] theorem keepsForm_withRegisterBlocks {s : State} {k : Out} (h : KeepsForm s k) : KeepsForm s (withRegisterBlocks s k) := by
  unfold withRegisterBlocks
  dsimp only
  split <;> simp [h]

/-! ### Machine/Alu -/

@[simp] theorem keepsForm_alu {d a b : BitVec 5} {lat : Nat} {f : Word → Word → Word} {s : State} :
    KeepsForm s (alu d a b lat f s) := by
  simp [alu]

@[simp] theorem keepsForm_aluImm {d a : BitVec 5} {f : Word → Word} {s : State} : KeepsForm s (aluImm d a f s) := by
  simp [aluImm]

@[simp] theorem keepsForm_execSel {d a b : BitVec 5} {s : State} : KeepsForm s (execSel d a b s) := by
  simp [execSel]

@[simp] theorem keepsForm_execBfi {d a : BitVec 5} {p l : BitVec 6} {s : State} : KeepsForm s (execBfi d a p l s) := by
  simp [execBfi]

@[simp] theorem keepsForm_constForm {d : BitVec 5} {v : Word} {s : State} : KeepsForm s (constForm d v s) := by
  simp [constForm]

@[simp] theorem keepsForm_execJget {d a : BitVec 5} {s : State} : KeepsForm s (execJget d a s) := by
  simp [execJget]

@[simp] theorem keepsForm_execJset {d a : BitVec 5} {s : State} : KeepsForm s (execJset d a s) := by
  simp [execJset]

@[simp] theorem keepsForm_execNop {s : State} : KeepsForm s (execNop s) := by
  simp [execNop]

/-! ### Machine/Fp -/

@[simp] theorem keepsForm_fpForm {d : BitVec 5} {reads : List (BitVec 5)} {t : BitVec 1} {lat32 lat64 : Nat}
    {f : RegFile → Word × Nat} {s : State} :
    KeepsForm s (fpForm d reads t lat32 lat64 f s) := by
  simp [fpForm]

@[simp] theorem keepsForm_fp2 {d a b : BitVec 5} {t : BitVec 1} {f : Fmt → Rm → Nat → Nat → FRes} {s : State} :
    KeepsForm s (fp2 d a b t f s) := by
  simp [fp2]

@[simp] theorem keepsForm_fp1 {d a : BitVec 5} {t : BitVec 1} {f : RegFile → Word → Word × Nat} {s : State} :
    KeepsForm s (fp1 d a t f s) := by
  simp [fp1]

/-! ### Machine/Control -/

@[simp] theorem keepsForm_branch {a b : BitVec 5} {o : BitVec 13} {cond : Word → Word → Bool} {s : State} :
    KeepsForm s (branch a b o cond s) := by
  simp [branch]

@[simp] theorem keepsForm_execJ {o : BitVec 26} {s : State} : KeepsForm s (execJ o s) := by
  simp [execJ]

@[simp] theorem keepsForm_execJal {o : BitVec 26} {s : State} : KeepsForm s (execJal o s) := by
  simp [execJal]

@[simp] theorem keepsForm_execLand {s : State} : KeepsForm s (execLand s) := by
  simp [execLand]

/-! ### Machine/Mem -/

@[simp] theorem keepsForm_loadForm {d a : BitVec 5} {sz c : BitVec 2} {o : BitVec 12} {signed : Bool} {s : State} :
    KeepsForm s (loadForm d a sz c o signed s) := by
  simp [loadForm]

@[simp] theorem keepsForm_execSt {d a : BitVec 5} {sz c : BitVec 2} {o : BitVec 12} {s : State} :
    KeepsForm s (execSt d a sz c o s) := by
  simp [execSt]

@[simp] theorem keepsForm_amoForm {d a b : BitVec 5} {sz c : BitVec 2} {op : Nat} {s : State} :
    KeepsForm s (amoForm d a b sz c op s) := by
  simp [amoForm]

@[simp] theorem keepsForm_ldsForm {d a : BitVec 5} {sz : BitVec 2} {o : BitVec 12} {signed : Bool} {s : State} :
    KeepsForm s (ldsForm d a sz o signed s) := by
  simp [ldsForm]

@[simp] theorem keepsForm_execSts {d a : BitVec 5} {sz : BitVec 2} {o : BitVec 12} {s : State} :
    KeepsForm s (execSts d a sz o s) := by
  simp [execSts]

/-! ### Machine/Sync -/

@[simp] theorem keepsForm_execFence {m : BitVec 3} {s : State} : KeepsForm s (execFence m s) := by
  simp [execFence]

@[simp] theorem keepsForm_flushForm {s : State} : KeepsForm s (flushForm s) := by
  unfold flushForm
  split <;> simp

@[simp] theorem keepsForm_execFlush {s : State} : KeepsForm s (execFlush s) := by
  simp [execFlush]

@[simp] theorem keepsForm_arriveForm {n : Nat} {elastic : Bool} {s : State} : KeepsForm s (arriveForm n elastic s) := by
  unfold arriveForm
  split <;> simp

@[simp] theorem keepsForm_phaseForm {n : Nat} {elastic : Bool} {s : State} : KeepsForm s (phaseForm n elastic s) := by
  simp [phaseForm]

@[simp] theorem keepsForm_execPhase {l : BitVec 3} {s : State} : KeepsForm s (execPhase l s) := by
  simp [execPhase]

@[simp] theorem keepsForm_execPhaseE {l : BitVec 3} {s : State} : KeepsForm s (execPhaseE l s) := by
  simp [execPhaseE]

@[simp] theorem keepsForm_execJoin {s : State} : KeepsForm s (execJoin s) := by
  unfold execJoin
  simp only [keepsForm_onStreams, keepsForm_ite]
  intro _
  refine ⟨fun _ => (keepsForm_congr ?_).1 (keepsForm_withoutStoreError.2 fun _ => ?_), fun _ => ⟨fun _ => ?_, fun _ => ?_⟩⟩
  all_goals simp [apply_ite State.mem, apply_ite State.objects]

@[simp] theorem keepsForm_execYield {s : State} : KeepsForm s (execYield s) := by
  simp [execYield]

/-! ### Machine/Queues -/

@[simp] theorem keepsForm_execTqpush {d a b : BitVec 5} {s : State} : KeepsForm s (execTqpush d a b s) := by
  unfold execTqpush
  repeat' split
  all_goals simp

@[simp] theorem keepsForm_readPacket {a b : BitVec 5} {s : State} : KeepsForm s (readPacket a b s) := by
  unfold readPacket
  split <;> simp

@[simp] theorem keepsForm_execLaunch {d a b : BitVec 5} {s : State} : KeepsForm s (execLaunch d a b s) := by
  unfold execLaunch
  simp only [keepsForm_onStreams, keepsForm_withReads]
  intro _ _
  split
  case h_5 =>
    simp only [keepsForm_check, keepsForm_withoutStoreError, keepsForm_ite]
    refine fun _ _ => ⟨fun _ => by simp, fun _ => ⟨fun _ => ?_, fun _ => by simp⟩⟩
    exact (keepsForm_congr (by simp)).1 keepsForm_readPacket
  all_goals simp

/-! ### Machine/System -/

@[simp] theorem keepsForm_csrForm {d : BitVec 5} {reads : List (BitVec 5)} {num : BitVec 16} {legal : CsrAccess → Bool}
    {f : Option (CsrAccess → Nat → RegFile → Nat)} {s : State} :
    KeepsForm s (csrForm d reads num legal f s) := by
  unfold csrForm
  repeat' split
  all_goals simp

@[simp] theorem keepsForm_execTrap {c : BitVec 8} {s : State} : KeepsForm s (execTrap c s) := by
  simp [execTrap]

@[simp] theorem keepsForm_execEret {s : State} : KeepsForm s (execEret s) := by
  simp [execEret]

@[simp] theorem keepsForm_execHalt {s : State} : KeepsForm s (execHalt s) := by
  simp [execHalt]

@[simp] theorem keepsForm_execIcinv {a : BitVec 5} {scope : BitVec 2} {s : State} : KeepsForm s (execIcinv a scope s) := by
  unfold execIcinv
  split <;> simp

@[simp] theorem keepsForm_execTlbinv {a : BitVec 5} {scope : BitVec 3} {s : State} : KeepsForm s (execTlbinv a scope s) := by
  unfold execTlbinv
  dsimp only
  repeat' split
  all_goals simp

@[simp] theorem keepsForm_execMoult {a : BitVec 5} {s : State} : KeepsForm s (execMoult a s) := by
  simp [execMoult]

@[simp] theorem keepsForm_execQread {d : BitVec 5} {w : BitVec 4} {s : State} : KeepsForm s (execQread d w s) := by
  simp [execQread]

@[simp] theorem keepsForm_execRdpcc {d : BitVec 5} {s : State} : KeepsForm s (execRdpcc d s) := by
  simp [execRdpcc]

/-! ### Machine/Engine -/

@[simp] theorem keepsForm_execVrun {a b : BitVec 5} {s : State} : KeepsForm s (execVrun a b s) := by
  simp [execVrun]

@[simp] theorem keepsForm_execVwait {d : BitVec 5} {s : State} : KeepsForm s (execVwait d s) := by
  simp [execVwait]

@[simp] theorem keepsForm_execMrun {a : BitVec 5} {s : State} : KeepsForm s (execMrun a s) := by
  simp [execMrun]

@[simp] theorem keepsForm_execMwait {d : BitVec 5} {s : State} : KeepsForm s (execMwait d s) := by
  simp [execMwait]

@[simp] theorem keepsForm_execMstop {s : State} : KeepsForm s (execMstop s) := by
  unfold execMstop
  split <;> simp

@[simp] theorem keepsForm_execTrdl {a : BitVec 5} {s : State} : KeepsForm s (execTrdl a s) := by
  simp [execTrdl]

@[simp] theorem keepsForm_execCwait {a : BitVec 5} {u : BitVec 4} {s : State} : KeepsForm s (execCwait a u s) := by
  unfold execCwait
  split <;> simp

@[simp] theorem keepsForm_execCwaitCont {n : BitVec 2} {a : BitVec 5} {o : BitVec 13} {s : State} :
    KeepsForm s (execCwaitCont n a o s) := by
  unfold execCwaitCont
  split <;> simp

@[simp] theorem keepsForm_execErun {d a b : BitVec 5} {s : State} : KeepsForm s (execErun d a b s) := by
  simp [execErun]

@[simp] theorem keepsForm_execLdq {d a : BitVec 5} {sz c : BitVec 2} {o : BitVec 12} {s : State} :
    KeepsForm s (execLdq d a sz c o s) := by
  simp [execLdq]

@[simp] theorem keepsForm_execFmtq {a : BitVec 5} {s : State} : KeepsForm s (execFmtq a s) := by
  simp [execFmtq]

@[simp] theorem keepsForm_execStitch {d : BitVec 5} {s : State} : KeepsForm s (execStitch d s) := by
  unfold execStitch
  repeat' split
  all_goals simp

@[simp] theorem keepsForm_execBind {a b : BitVec 5} {s : State} : KeepsForm s (execBind a b s) := by
  simp [execBind]

@[simp] theorem keepsForm_execUnbind {b : BitVec 5} {s : State} : KeepsForm s (execUnbind b s) := by
  unfold execUnbind
  repeat' split
  all_goals simp

@[simp] theorem keepsForm_execQdepth {d b : BitVec 5} {s : State} : KeepsForm s (execQdepth d b s) := by
  simp [execQdepth]

@[simp] theorem keepsForm_takeBlocks {d : BitVec 5} {r : List Nat} {mask : Nat} {s : State} :
    KeepsForm s (takeBlocks d r mask s) := by
  simp [takeBlocks]

@[simp] theorem keepsForm_rbacqForm {d a : BitVec 5} {waits : Bool} {s : State} : KeepsForm s (rbacqForm d a waits s) := by
  unfold rbacqForm
  split <;> simp

@[simp] theorem keepsForm_execRbrel {a : BitVec 5} {s : State} : KeepsForm s (execRbrel a s) := by
  simp [execRbrel]

@[simp] theorem keepsForm_execJalr {d a : BitVec 5} {s : State} : KeepsForm s (execJalr d a s) := by
  simp [execJalr, keepsForm_withWord]

/-! ### Machine/VectorOps -/

@[simp] theorem keepsForm_vfp2 {d a b : BitVec 6} {f : BitVec 2} {k : BitVec 1} {g : BitVec 4} {time : VTime}
    {op : Fmt → Rm → Nat → Nat → FRes} {s : State} :
    KeepsForm s (vfp2 d a b f k g time op s) := by
  simp [vfp2]

@[simp] theorem keepsForm_vfp1 {d a : BitVec 6} {f : BitVec 2} {k : BitVec 1} {g : BitVec 4} {time : VTime}
    {op : Fmt → Rm → Nat → FRes} {s : State} :
    KeepsForm s (vfp1 d a f k g time op s) := by
  simp [vfp1]

@[simp] theorem keepsForm_vfused {d a b : BitVec 6} {f : BitVec 2} {k : BitVec 1} {g : BitVec 4}
    {op : Fmt → Rm → Nat → Nat → Nat → FRes} {s : State} :
    KeepsForm s (vfused d a b f k g op s) := by
  simp [vfused]

@[simp] theorem keepsForm_vint2 {d a b : BitVec 6} {w : BitVec 2} {k : BitVec 1} {g : BitVec 4} {time : VTime}
    {op : Nat → Nat → Nat → Nat} {s : State} :
    KeepsForm s (vint2 d a b w k g time op s) := by
  simp [vint2]

@[simp] theorem keepsForm_vimm {d a : BitVec 6} {g : BitVec 4} {op : Nat → Nat} {s : State} : KeepsForm s (vimm d a g op s) := by
  simp [vimm]

@[simp] theorem keepsForm_vcmpFp {a b : BitVec 6} {f : BitVec 2} {k : BitVec 1} {g : BitVec 4} {op : Fmt → Nat → Nat → FRes} {s : State} :
    KeepsForm s (vcmpFp a b f k g op s) := by
  simp [vcmpFp]

@[simp] theorem keepsForm_vcmpInt {a b : BitVec 6} {w : BitVec 2} {k : BitVec 1} {g : BitVec 4} {op : Nat → Nat → Nat → Bool} {s : State} :
    KeepsForm s (vcmpInt a b w k g op s) := by
  simp [vcmpInt]

@[simp] theorem keepsForm_vPredForm {s : State} {f : Vector Mask 8 → Shape → List VEffect} : KeepsForm s (vPredForm s f) := by
  simp [vPredForm]

@[simp] theorem keepsForm_execVsel {d a b : BitVec 6} {k : BitVec 1} {inv : BitVec 1} {p : BitVec 2} {s : State} :
    KeepsForm s (execVsel d a b k inv p s) := by
  simp [execVsel]

@[simp] theorem keepsForm_execVshuf {d a b : BitVec 6} {w : BitVec 2} {k : BitVec 1} {g : BitVec 4} {s : State} :
    KeepsForm s (execVshuf d a b w k g s) := by
  simp [execVshuf]

@[simp] theorem keepsForm_vTile {d a : BitVec 6} {w : BitVec 2} {g : BitVec 4} {readsD : Bool}
    {pick : Nat → Nat → Option (Bool × Nat)} {s : State} :
    KeepsForm s (vTile d a w g readsD pick s) := by
  simp [vTile]

@[simp] theorem keepsForm_execVmatch {d a b : BitVec 6} {f : BitVec 2} {k : BitVec 1} {g : BitVec 4} {s : State} :
    KeepsForm s (execVmatch d a b f k g s) := by
  simp [execVmatch]

@[simp] theorem keepsForm_vreduce {d a : BitVec 6} {k : BitVec 1} {g : BitVec 4} {wide : Bool} {time : VTime} {w empty : Nat}
    {op : Rm → Nat → Nat → Nat × Nat} {s : State} :
    KeepsForm s (vreduce d a k g wide time w empty op s) := by
  simp [vreduce]

@[simp] theorem keepsForm_vreduceFp {d a : BitVec 6} {f : BitVec 2} {k : BitVec 1} {g : BitVec 4} {empty : Fmt → Nat}
    {op : Fmt → Rm → Nat → Nat → FRes} {s : State} :
    KeepsForm s (vreduceFp d a f k g empty op s) := by
  simp [vreduceFp]

@[simp] theorem keepsForm_execVredaddInt {d a : BitVec 6} {w : BitVec 2} {k : BitVec 1} {g : BitVec 4} {s : State} :
    KeepsForm s (execVredaddInt d a w k g s) := by
  simp [execVredaddInt]

@[simp] theorem keepsForm_vscan {d a : BitVec 6} {k : BitVec 1} {g : BitVec 4} {wide : Bool} {time : VTime} {w : Nat}
    {op : Rm → Nat → Nat → Nat × Nat} {s : State} :
    KeepsForm s (vscan d a k g wide time w op s) := by
  simp [vscan]

@[simp] theorem keepsForm_execVscanFp {d a : BitVec 6} {f : BitVec 2} {k : BitVec 1} {g : BitVec 4} {s : State} :
    KeepsForm s (execVscanFp d a f k g s) := by
  simp [execVscanFp]

@[simp] theorem keepsForm_execVscanInt {d a : BitVec 6} {w : BitVec 2} {k : BitVec 1} {g : BitVec 4} {s : State} :
    KeepsForm s (execVscanInt d a w k g s) := by
  simp [execVscanInt]

@[simp] theorem keepsForm_execVxs {a : BitVec 6} {r : BitVec 2} {w : BitVec 1} {c : BitVec 4} {s : State} :
    KeepsForm s (execVxs a r w c s) := by
  simp [execVxs]

@[simp] theorem keepsForm_vcvtForm {d a : BitVec 6} {k : BitVec 1} {g : BitVec 4} {ws wd : Nat} {op : Nat → Nat × Nat} {s : State} :
    KeepsForm s (vcvtForm d a k g ws wd op s) := by
  simp [vcvtForm]

@[simp] theorem keepsForm_vlcvtForm {d a b : BitVec 6} {f : BitVec 2} {k : BitVec 1} {g : BitVec 4} {ufmin : Bool} {s : State} :
    KeepsForm s (vlcvtForm d a b f k g ufmin s) := by
  simp [vlcvtForm]

@[simp] theorem keepsForm_execVlexp {d a b : BitVec 6} {f : BitVec 2} {k : BitVec 1} {g : BitVec 4} {s : State} :
    KeepsForm s (execVlexp d a b f k g s) := by
  simp [execVlexp]

@[simp] theorem keepsForm_execVcvtF64Lns {d a : BitVec 6} {f : BitVec 2} {k : BitVec 1} {g : BitVec 4} {s : State} :
    KeepsForm s (execVcvtF64Lns d a f k g s) := by
  simp [execVcvtF64Lns]

@[simp] theorem keepsForm_vlogForm {d a b : BitVec 6} {f : BitVec 2} {k : BitVec 1} {g : BitVec 4} {scale : Bool} {s : State} :
    KeepsForm s (vlogForm d a b f k g scale s) := by
  simp [vlogForm]

/-! ### Machine/VectorMem -/

@[simp] theorem keepsForm_vloadForm {F : VForm} {c : BitVec 2} {base : Option Word} {f : VEnv → List VAcc} {s : State} :
    KeepsForm s (vloadForm F c base f s) := by
  cases base <;> simp [vloadForm]

@[simp] theorem keepsForm_vstoreForm {F : VForm} {c : BitVec 2} {base : Option Word} {f : VEnv → List VAcc} {s : State} :
    KeepsForm s (vstoreForm F c base f s) := by
  cases base <;> simp [vstoreForm]

@[simp] theorem keepsForm_vamoForm {F : VForm} {c : BitVec 2} {op : Nat} {result : Bool} {f : VEnv → List VAcc} {s : State} :
    KeepsForm s (vamoForm F c op result f s) := by
  simp [vamoForm]

@[simp] theorem keepsForm_execVld {d : BitVec 6} {c n : BitVec 2} {g : BitVec 4} {s : State} :
    KeepsForm s (execVld d c n g s) := by
  simp [execVld]

@[simp] theorem keepsForm_execVst {a : BitVec 6} {c n : BitVec 2} {k : BitVec 1} {g : BitVec 4} {s : State} :
    KeepsForm s (execVst a c n k g s) := by
  simp [execVst]

@[simp] theorem keepsForm_execVgath {d : BitVec 6} {c : BitVec 2} {v : BitVec 4} {wd : BitVec 1} {g : BitVec 4} {s : State} :
    KeepsForm s (execVgath d c v wd g s) := by
  simp [execVgath]

@[simp] theorem keepsForm_execVscat {a : BitVec 6} {c : BitVec 2} {v : BitVec 4} {wd k : BitVec 1} {g : BitVec 4} {s : State} :
    KeepsForm s (execVscat a c v wd k g s) := by
  simp [execVscat]

@[simp] theorem keepsForm_vupdForm {a : BitVec 6} {c n t : BitVec 2} {k : BitVec 1} {g : BitVec 4} {op : Nat} {s : State} :
    KeepsForm s (vupdForm a c n t k g op s) := by
  simp [vupdForm]

@[simp] theorem keepsForm_vamoOf {d a : BitVec 6} {c : BitVec 2} {v : BitVec 4} {t : BitVec 2} {k : BitVec 1} {g : BitVec 4}
    {op : Nat} {cas : Bool} {s : State} :
    KeepsForm s (vamoOf d a c v t k g op cas s) := by
  simp [vamoOf]

@[simp] theorem keepsForm_execVlds {d : BitVec 6} {n : BitVec 2} {g : BitVec 4} {s : State} : KeepsForm s (execVlds d n g s) := by
  unfold execVlds
  dsimp only
  split <;> simp

@[simp] theorem keepsForm_execVsts {a : BitVec 6} {n : BitVec 2} {k : BitVec 1} {g : BitVec 4} {s : State} :
    KeepsForm s (execVsts a n k g s) := by
  simp [execVsts]

@[simp] theorem keepsForm_execVtqpush {a b : BitVec 6} {k : BitVec 1} {g : BitVec 4} {s : State} :
    KeepsForm s (execVtqpush a b k g s) := by
  simp [execVtqpush]

@[simp] theorem keepsForm_execVshape {r c : BitVec 4} {s : State} : KeepsForm s (execVshape r c s) := by
  simp [execVshape]

@[simp] theorem keepsForm_execVloop {n : BitVec 2} {o : BitVec 15} {s : State} : KeepsForm s (execVloop n o s) := by
  unfold execVloop
  dsimp only
  repeat' split
  all_goals simp

@[simp] theorem keepsForm_execVjmp {o : BitVec 15} {s : State} : KeepsForm s (execVjmp o s) := by
  simp [execVjmp]

@[simp] theorem keepsForm_execVend {s : State} : KeepsForm s (execVend s) := by
  simp [execVend]

@[simp] theorem keepsForm_execVseg {c : BitVec 20} {s : State} : KeepsForm s (execVseg c s) := by
  simp [execVseg]

@[simp] theorem keepsForm_execVnop {s : State} : KeepsForm s (execVnop s) := by
  simp [execVnop]

/-! ### Machine/Matrix -/

@[simp] theorem keepsForm_execMldw {b : BitVec 1} {j : BitVec 4} {o : BitVec 13} {s : State} : KeepsForm s (execMldw b j o s) := by
  unfold execMldw
  exact keepsForm_onMatrix (keepsForm_withRange fun u => by simp)

@[simp] theorem keepsForm_execMswap {s : State} : KeepsForm s (execMswap s) := by
  simp [execMswap]

@[simp] theorem keepsForm_mmaIssue {t : BitVec 3} {a sp : BitVec 4} {n : Nat} {x mark : Bool} {fw : Word}
    {extra : State → State} {s : State} (h : ∀ u, (extra u).mem = u.mem ∧ (extra u).objects = u.objects) :
    KeepsForm s (mmaIssue t a sp n x mark fw extra s) := by
  simp [mmaIssue, h]

@[simp] theorem keepsForm_mmaBeat {t : BitVec 3} {a sp : BitVec 4} {n : Nat} {x mark : Bool} {s : State} :
    KeepsForm s (mmaBeat t a sp n x mark s) := by
  simp [mmaBeat, mmaBeat.beat]

@[simp] theorem keepsForm_execMma {t : BitVec 3} {a sp : BitVec 4} {m : BitVec 5} {x k p : BitVec 1} {s : State} :
    KeepsForm s (execMma t a sp m x k p s) := by
  unfold execMma
  dsimp only
  refine keepsForm_onMatrix ?_
  split <;> simp

@[simp] theorem keepsForm_execMstamp {d : BitVec 24} {s : State} : KeepsForm s (execMstamp d s) := by
  simp [execMstamp]

@[simp] theorem keepsForm_execMdrainPort {t : BitVec 3} {p : BitVec 4} {s : State} : KeepsForm s (execMdrainPort t p s) := by
  unfold execMdrainPort
  refine keepsForm_onMatrix ?_
  simp [apply_ite State.mem, apply_ite State.objects]

@[simp] theorem keepsForm_execMdrainSpm {t : BitVec 3} {j : BitVec 4} {o : BitVec 13} {s : State} :
    KeepsForm s (execMdrainSpm t j o s) := by
  unfold execMdrainSpm
  exact keepsForm_onMatrix (keepsForm_withRange fun u => by simp)

@[simp] theorem keepsForm_execMzero {t : BitVec 3} {s : State} : KeepsForm s (execMzero t s) := by
  simp [execMzero]

@[simp] theorem keepsForm_execMflags {mask : BitVec 9} {s : State} : KeepsForm s (execMflags mask s) := by
  simp [execMflags]

@[simp] theorem keepsForm_execMnop {s : State} : KeepsForm s (execMnop s) := by
  simp [execMnop]

@[simp] theorem keepsForm_execMmark {s : State} : KeepsForm s (execMmark s) := by
  simp [execMmark]

@[simp] theorem keepsForm_execMseg {c : BitVec 20} {s : State} : KeepsForm s (execMseg c s) := by
  unfold execMseg
  dsimp only
  refine keepsForm_onMatrix (keepsForm_check.2 fun _ => keepsForm_withLiteral fun w u => ?_)
  obtain ⟨t, ht, hf⟩ : KeepsForm u (mIssue {} true 8 u id) := by simp
  simp only [ht, keepsForm_ite]
  exact ⟨fun _ => ⟨t, rfl, hf⟩, fun _ => ⟨_, rfl, fun h => by simpa [MemoryForm] using hf h⟩⟩

@[simp] theorem keepsForm_execMtend {s : State} : KeepsForm s (execMtend s) := by
  simp [execMtend, apply_ite State.mem, apply_ite State.objects]

@[simp] theorem keepsForm_execMtreadle {p : BitVec 1} {r : BitVec 5} {b : BitVec 8} {n : BitVec 12} {s : State} :
    KeepsForm s (execMtreadle p r b n s) := by
  simp [execMtreadle]

/-! ### Machine/Clicker -/

@[simp] theorem keepsForm_chanForm {f : Chan → CRead} {s : State} : KeepsForm s (chanForm f s) := by
  unfold chanForm
  split <;> simp

@[simp] theorem keepsForm_execCend {s : State} : KeepsForm s (execCend s) := by
  unfold execCend
  repeat' split
  all_goals simp

@[simp] theorem keepsForm_execCsig {b : BitVec 3} {c : BitVec 2} {v : BitVec 16} {s : State} :
    KeepsForm s (execCsig b c v s) := by
  unfold execCsig
  dsimp only
  repeat' split
  all_goals simp

@[simp] theorem keepsForm_execCrun {a b : BitVec 5} {u : BitVec 4} {s : State} : KeepsForm s (execCrun a b u s) := by
  simp only [execCrun, keepsForm_onStreams, keepsForm_check, keepsForm_withReads, keepsForm_ite]
  refine fun _ _ _ => ⟨fun _ => by simp, fun _ => keepsForm_withHeader fun w u => ?_⟩
  repeat' split
  all_goals simp [trapProgram]

@[simp] theorem keepsForm_execClickerCopyStart {core ch : Nat} {s : State} : KeepsForm s (execClickerCopyStart core ch s) := by
  simp only [execClickerCopyStart, keepsForm_next, State.at_mem, State.at_objects]
  repeat' split
  all_goals simp [execClickerCopyStart.missed]

@[simp] theorem keepsForm_execClickerCopyComplete {core ch copy : Nat} {s : State} :
    KeepsForm s (execClickerCopyComplete core ch copy s) := by
  simp only [execClickerCopyComplete, keepsForm_next, State.at_mem, State.at_objects]
  split
  · simp
  · split
    · simp
    · split
      · simp
      · simp [apply_ite State.mem, apply_ite State.objects]

@[simp] theorem keepsForm_execCsigResponse {core ch : Nat} {err : Option DataError} {s : State} :
    KeepsForm s (execCsigResponse core ch err s) := by
  simp only [execCsigResponse, keepsForm_next, State.at_mem, State.at_objects]
  split
  · simp
  · split
    · simp
    · simp only [State.modRun_mem_objects]
      split <;> simp

@[simp] theorem keepsForm_execClickerProgramComplete {core ch : Nat} {s : State} :
    KeepsForm s (execClickerProgramComplete core ch s) := by
  simp [execClickerProgramComplete]

/-! ### Machine/Registers -/

@[simp] theorem keepsForm_execFaultRecordWrite {ctx : Nat} {s : State} : KeepsForm s (execFaultRecordWrite ctx s) := by
  unfold execFaultRecordWrite
  dsimp only
  repeat' split
  all_goals simp +contextual

@[simp] theorem keepsForm_execMsixUnmask {fn vector : Nat} {s : State} : KeepsForm s (execMsixUnmask fn vector s) := by
  unfold execMsixUnmask
  dsimp only
  repeat' split
  all_goals simp

@[simp] theorem keepsForm_execQwidxWrite {queue fn : Nat} {value : BitVec 32} {s : State} :
    KeepsForm s (execQwidxWrite queue fn value s) := by
  simp [execQwidxWrite, State.receive_mem_objects]

@[simp] theorem keepsForm_execQueueEnable {queue fn : Nat} {value : BitVec 32} {s : State} :
    KeepsForm s (execQueueEnable queue fn value s) := by
  simp [execQueueEnable, State.receive_mem_objects]

@[simp] theorem keepsForm_execQueueDisable {queue fn : Nat} {value : BitVec 32} {s : State} :
    KeepsForm s (execQueueDisable queue fn value s) := by
  simp [execQueueDisable, State.receive_mem_objects]

@[simp] theorem keepsForm_execRegisterWrite {w : RegWrite} {s : State} : KeepsForm s (execRegisterWrite w s) := by
  unfold execRegisterWrite
  dsimp only
  repeat' split
  all_goals simp [State.receive_mem_objects]

/-! ### Machine/Access -/

@[simp] theorem keepsForm_execHostCompletionArrival {id : Nat} {data : List (BitVec 8)} {s : State} :
    KeepsForm s (execHostCompletionArrival id data s) := by
  unfold execHostCompletionArrival
  repeat' split
  all_goals simp

@[simp] theorem keepsForm_execPageRequestResponse {id : Nat} {granted : Bool} {s : State} :
    KeepsForm s (execPageRequestResponse id granted s) := by
  unfold execPageRequestResponse State.receive
  repeat' split
  all_goals simp

@[simp] theorem keepsForm_execAtsInvalidation {ctx page : Nat} {s : State} : KeepsForm s (execAtsInvalidation ctx page s) := by
  unfold execAtsInvalidation State.receive
  dsimp only
  repeat' split
  all_goals simp

@[simp] theorem keepsForm_execAccessPerformed {id : Nat} {s : State} : KeepsForm s (execAccessPerformed id s) := by
  unfold execAccessPerformed
  simp only [keepsForm_next]
  repeat' split
  all_goals simp +contextual

@[simp] theorem keepsForm_execLoadDataReturn {id : Nat} {s : State} : KeepsForm s (execLoadDataReturn id s) := by
  unfold execLoadDataReturn
  dsimp only
  repeat' split
  all_goals simp +contextual

@[simp] theorem keepsForm_execDataErrorArrival {id : Nat} {err : DataError} {s : State} :
    KeepsForm s (execDataErrorArrival id err s) := by
  unfold execDataErrorArrival
  repeat' split
  all_goals simp

@[simp] theorem keepsForm_execLdqDataArrival {id : Nat} {s : State} : KeepsForm s (execLdqDataArrival id s) := by
  unfold execLdqDataArrival
  repeat' split
  all_goals simp

@[simp] theorem keepsForm_execStoreAck {id : Nat} {s : State} : KeepsForm s (execStoreAck id s) := by
  unfold execStoreAck
  repeat' split
  all_goals simp

@[simp] theorem keepsForm_execStoreErrorRecord {id reason : Nat} {s : State} :
    KeepsForm s (execStoreErrorRecord id reason s) := by
  unfold execStoreErrorRecord
  repeat' split
  all_goals simp

@[simp] theorem keepsForm_execCommitMessage {id : Nat} {s : State} : KeepsForm s (execCommitMessage id s) := by
  unfold execCommitMessage
  dsimp only
  repeat' split
  all_goals simp +contextual

@[simp] theorem keepsForm_execCommitAck {id : Nat} {s : State} : KeepsForm s (execCommitAck id s) := by
  unfold execCommitAck
  repeat' split
  all_goals simp

@[simp] theorem keepsForm_execDirtySectorEviction {core sector : Nat} {s : State} :
    KeepsForm s (execDirtySectorEviction core sector s) := by
  unfold execDirtySectorEviction
  dsimp only
  repeat' split
  all_goals simp

@[simp] theorem keepsForm_execForcedCommit {core sector : Nat} {s : State} : KeepsForm s (execForcedCommit core sector s) := by
  unfold execForcedCommit
  dsimp only
  split
  · simp
  · simp +contextual

@[simp] theorem keepsForm_execL1LineReplacement {core line : Nat} {s : State} :
    KeepsForm s (execL1LineReplacement core line s) := by
  simp [execL1LineReplacement]

@[simp] theorem keepsForm_execTlbWalkComplete {id : Nat} {s : State} : KeepsForm s (execTlbWalkComplete id s) := by
  unfold execTlbWalkComplete
  rw [keepsForm_next]
  split
  · simp
  · rename_i w _
    simp +contextual [State.walkAnswered_wf { s with walks := s.walks.del id } id w]

@[simp] theorem keepsForm_execVectorBusyClear {core slot : Nat} {s : State} : KeepsForm s (execVectorBusyClear core slot s) := by
  unfold execVectorBusyClear
  rw [keepsForm_next]
  split
  · simp
  · simp only [State.at_mem, State.at_objects]
    split <;> simp

@[simp] theorem keepsForm_execCommandWindowReplay {core : Nat} {trigger : ReplayTrigger} {s : State} :
    KeepsForm s (execCommandWindowReplay core trigger s) := by
  unfold execCommandWindowReplay
  simp only [keepsForm_next]
  split
  · simp
  · simp only [State.at_mem, State.at_objects]
    repeat' split
    all_goals simp

@[simp] theorem keepsForm_execRangeEntryRetire {core entry : Nat} {s : State} :
    KeepsForm s (execRangeEntryRetire core entry s) := by
  simp [execRangeEntryRetire]

/-! ### Machine/Sched -/

@[simp] theorem keepsForm_execPeerByteTransfer {core port : Nat} {s : State} :
    KeepsForm s (execPeerByteTransfer core port s) := by
  unfold execPeerByteTransfer
  split <;> simp

@[simp] theorem keepsForm_execPacketDelivery {id : Nat} {s : State} : KeepsForm s (execPacketDelivery id s) := by
  unfold execPacketDelivery
  dsimp only
  repeat' split
  all_goals simp

@[simp] theorem keepsForm_execPortUnbindComplete {core port : Nat} {s : State} :
    KeepsForm s (execPortUnbindComplete core port s) := by
  unfold execPortUnbindComplete
  dsimp only
  split <;> simp

@[simp] theorem keepsForm_execDemandSend {core : Nat} {s : State} : KeepsForm s (execDemandSend core s) := by
  unfold execDemandSend
  dsimp only
  repeat' split
  all_goals simp [apply_ite State.mem, apply_ite State.objects]

@[simp] theorem keepsForm_execDemandArrival {core : Nat} {descriptor : BitVec 64} {s : State} :
    KeepsForm s (execDemandArrival core descriptor s) := by
  simp [execDemandArrival]

@[simp] theorem keepsForm_execTreadleRunEnd {core : Nat} {s : State} : KeepsForm s (execTreadleRunEnd core s) := by
  unfold execTreadleRunEnd
  split <;> simp

@[simp] theorem keepsForm_execTreadleSlotStart {core : Nat} {s : State} : KeepsForm s (execTreadleSlotStart core s) := by
  simp [execTreadleSlotStart, apply_ite State.mem, apply_ite State.objects]

@[simp] theorem keepsForm_execGroupWake {core slot : Nat} {s : State} : KeepsForm s (execGroupWake core slot s) := by
  simp [execGroupWake]

@[simp] theorem keepsForm_execSwapTrigger {core slot : Nat} {s : State} : KeepsForm s (execSwapTrigger core slot s) := by
  unfold execSwapTrigger
  split <;> simp

@[simp] theorem keepsForm_execActiveRefill {core pos : Nat} {s : State} : KeepsForm s (execActiveRefill core pos s) := by
  simp [execActiveRefill]

@[simp] theorem keepsForm_execRotationTick {core : Nat} {s : State} : KeepsForm s (execRotationTick core s) := by
  simp [execRotationTick]

@[simp] theorem keepsForm_execBlockTransfer {core : Nat} {s : State} : KeepsForm s (execBlockTransfer core s) := by
  unfold execBlockTransfer
  dsimp only
  repeat' split
  all_goals simp

@[simp] theorem keepsForm_execPhaseArrival {core : Nat} {s : State} : KeepsForm s (execPhaseArrival core s) := by
  simp [execPhaseArrival]

/-! ### Machine/Start -/

@[simp] theorem keepsForm_execJobStart {launch core : Nat} {s : State} : KeepsForm s (execJobStart launch core s) := by
  unfold execJobStart
  repeat' split
  all_goals simp

@[simp] theorem keepsForm_execTaskPushAccept {id : Nat} {s : State} : KeepsForm s (execTaskPushAccept id s) := by
  unfold execTaskPushAccept
  dsimp only
  repeat' split
  all_goals simp

@[simp] theorem keepsForm_execTaskQueueSpill {die queue : Nat} {s : State} : KeepsForm s (execTaskQueueSpill die queue s) := by
  unfold execTaskQueueSpill
  dsimp only
  split <;> simp

@[simp] theorem keepsForm_execTaskQueueRefill {die queue : Nat} {s : State} : KeepsForm s (execTaskQueueRefill die queue s) := by
  unfold execTaskQueueRefill
  dsimp only
  split <;> simp

@[simp] theorem keepsForm_execFormerSelection {die : Nat} {s : State} : KeepsForm s (execFormerSelection die s) := by
  simp [execFormerSelection]

@[simp] theorem keepsForm_execFormerTimeout {die queue : Nat} {s : State} : KeepsForm s (execFormerTimeout die queue s) := by
  unfold execFormerTimeout
  split <;> simp

@[simp] theorem keepsForm_execFormerGroupReady {id : Nat} {s : State} : KeepsForm s (execFormerGroupReady id s) := by
  unfold execFormerGroupReady
  dsimp only
  repeat' split
  all_goals simp

/-! ### Machine/Contexts -/

@[simp] theorem keepsForm_execResumeGroup {core slot : Nat} {rewrite : ResumeRewrite} {s : State} :
    KeepsForm s (execResumeGroup core slot rewrite s) := by
  unfold execResumeGroup
  split <;> simp

@[simp] theorem keepsForm_execKillGroup {core slot : Nat} {s : State} : KeepsForm s (execKillGroup core slot s) := by
  unfold execKillGroup
  dsimp only
  split <;> simp

@[simp] theorem keepsForm_execCodeIntegrityTermination {launch : Nat} {s : State} :
    KeepsForm s (execCodeIntegrityTermination launch s) := by
  simp +contextual [execCodeIntegrityTermination]

@[simp] theorem keepsForm_execKillLaunch {launch : Nat} {s : State} : KeepsForm s (execKillLaunch launch s) := by
  simp +contextual [execKillLaunch]

@[simp] theorem keepsForm_execKillContext {ctx : Nat} {s : State} : KeepsForm s (execKillContext ctx s) := by
  simp +contextual [execKillContext]

@[simp] theorem keepsForm_execJobEnd {core : Nat} {s : State} : KeepsForm s (execJobEnd core s) := by
  unfold execJobEnd
  repeat' split
  all_goals simp

@[simp] theorem keepsForm_execPreempt {launch : Nat} {s : State} : KeepsForm s (execPreempt launch s) := by
  simp +contextual [execPreempt]

@[simp] theorem keepsForm_execResumeJob {launch : Nat} {moves : List (Nat × Nat)} {s : State} :
    KeepsForm s (execResumeJob launch moves s) := by
  simp [execResumeJob]

/-! ### Machine/Objects -/

@[simp] theorem keepsForm_execCodeObjectLoad {req : LoadRequest} {s : State} : KeepsForm s (execCodeObjectLoad req s) := by
  refine keepsForm_of_form fun h => ?_
  split
  · exact h
  · split
    · exact h
    · refine memoryForm_of_wf ?_ (State.foldl_mapPage_wf _ (Memory.wf_ofBytes _) _ _)
      exact memoryForm_setObject h _ _ (Memory.wf_ofBytes _)

@[simp] theorem keepsForm_execDemandPageVerify {ctx va page : Nat} {s : State} :
    KeepsForm s (execDemandPageVerify ctx va page s) := by
  refine keepsForm_of_form fun h => ?_
  split
  · exact h
  · rename_i o ho
    have hi := memoryForm_object h ho
    split
    · exact h
    · dsimp only
      split
      · exact memoryForm_of_wf (memoryForm_setObject h (objectKey ctx va) { o with failed := o.failed.add page } hi) (by simp)
      · refine memoryForm_of_wf (s := if _ then _ else _) ?_ (foldl_wf _ (by simp) _ _)
        split
        · exact h
        · exact memoryForm_of_wf (memoryForm_setObject h _ { o with verified := o.verified.add page } hi) (State.mapPage_wf _ _ _ hi)

@[simp] theorem keepsForm_execSlotPatch {ctx va nameh : Nat} {value : BitVec 64} {s : State} :
    KeepsForm s (execSlotPatch ctx va nameh value s) := by
  refine keepsForm_of_form fun h => ?_
  split
  · exact h
  · rename_i o ho
    have hi := memoryForm_object h ho
    dsimp only
    split
    · exact h
    · split
      · exact h
      · refine memoryForm_of_wf (memoryForm_setObject h _ { o with current := o.current.set nameh value.toNat } hi)
          (foldl_wf _ (fun s e => ?_) _ _)
        split <;> simp +contextual

@[simp] theorem keepsForm_execCodeObjectUnload {ctx va : Nat} {s : State} : KeepsForm s (execCodeObjectUnload ctx va s) := by
  refine keepsForm_of_form fun h => ?_
  split
  · exact h
  · have hd : MemoryForm { s with objects := s.objects.del (objectKey ctx va) } := ⟨h.1, fun p hp => h.2 p (FMap.mem_del _ _ _ hp)⟩
    exact memoryForm_of_wf (memoryForm_of_wf hd (foldl_wf _ (fun s p => s.setLeaf_wf _ _ _) _ _)) (foldl_wf _ (by simp) _ _)

/-! ### Machine/Blocks -/

@[simp] theorem keepsForm_evalBlock {o : BOp} {r : BlockRun} {s : State} : KeepsForm s (evalBlock o r s) := by
  unfold evalBlock
  dsimp only
  split <;> simp

@[simp] theorem keepsForm_leaveBlock {r : BlockRun} {x : Exit2} {s : State} : KeepsForm s (leaveBlock r x s) := by
  unfold leaveBlock
  split <;> simp

@[simp] theorem keepsForm_commitBlock {r : BlockRun} {s : State} : KeepsForm s (commitBlock r s) := by
  unfold commitBlock
  refine keepsForm_withExit fun x => ?_
  split
  · simp
  · refine keepsForm_check.2 fun _ => (keepsForm_congr ?_).1 (keepsForm_withAddress.2 fun _ _ _ => ?_)
    all_goals simp

@[simp] theorem keepsForm_laneBlock {b : Block2} {s : State} : KeepsForm s (laneBlock b s) := by
  unfold laneBlock
  split <;> simp

@[simp] theorem keepsForm_runBlock {s : State} : KeepsForm s (runBlock s) := by
  unfold runBlock
  repeat' split
  all_goals simp

/-! ### Machine/Launches -/

@[simp] theorem keepsForm_execSignalReread {queue signal : Nat} {s : State} : KeepsForm s (execSignalReread queue signal s) := by
  unfold execSignalReread
  dsimp only
  repeat' split
  all_goals simp

@[simp] theorem keepsForm_execHeadPacketRead {queue : Nat} {s : State} : KeepsForm s (execHeadPacketRead queue s) := by
  unfold execHeadPacketRead
  extract_lets q
  rw [keepsForm_next]
  split
  · simp
  · split
    · simp
    · rename_i p s1 _ _
      have h1 : s1.mem = s.mem ∧ s1.objects = s.objects := by simp [s1]
      clear_value p s1
      split
      · simp +contextual [h1]
      · generalize decide (pktWait0 p = 0) = a, decide (pktWait1 p = 0) = b
        simp [apply_ite State.mem, apply_ite State.objects, h1]

@[simp] theorem keepsForm_execLaunchCompletion {launch : Nat} {s : State} : KeepsForm s (execLaunchCompletion launch s) := by
  unfold execLaunchCompletion
  dsimp only
  repeat' split
  all_goals simp +contextual

@[simp] theorem keepsForm_execSelectionRound {s : State} : KeepsForm s (execSelectionRound s) := by
  unfold execSelectionRound
  repeat' split
  all_goals simp

@[simp] theorem keepsForm_execReservationStart {queue : Nat} {s : State} : KeepsForm s (execReservationStart queue s) := by
  unfold execReservationStart
  repeat' split
  all_goals simp

@[simp] theorem keepsForm_execPhaseBoundaryComplete {launch level domain : Nat} {s : State} :
    KeepsForm s (execPhaseBoundaryComplete launch level domain s) := by
  unfold execPhaseBoundaryComplete
  dsimp only
  repeat' split
  all_goals simp

@[simp] theorem keepsForm_execFabricArrivalMessage {msg : FabricArrival} {s : State} :
    KeepsForm s (execFabricArrivalMessage msg s) := by
  unfold execFabricArrivalMessage
  repeat' split
  all_goals simp

@[simp] theorem keepsForm_execArrivalResend {launch member : Nat} {s : State} :
    KeepsForm s (execArrivalResend launch member s) := by
  simp [execArrivalResend]

/-! ### Machine/Torus -/

@[simp] theorem keepsForm_execMoultRelease {s : State} : KeepsForm s (execMoultRelease s) := by
  unfold execMoultRelease
  dsimp only
  repeat' split
  all_goals simp +contextual

@[simp] theorem keepsForm_execRemoteRequestArrival {q : RemoteRequest} {s : State} :
    KeepsForm s (execRemoteRequestArrival q s) := by
  unfold execRemoteRequestArrival
  dsimp only
  repeat' split
  all_goals simp +contextual

@[simp] theorem keepsForm_execReplyArrival {tag gen : Nat} {s : State} : KeepsForm s (execReplyArrival tag gen s) := by
  unfold execReplyArrival
  repeat' split
  all_goals simp

@[simp] theorem keepsForm_execRequesterTimeout {tag : Nat} {s : State} : KeepsForm s (execRequesterTimeout tag s) := by
  unfold execRequesterTimeout
  repeat' split
  all_goals simp

@[simp] theorem keepsForm_execTagRelease {tag : Nat} {s : State} : KeepsForm s (execTagRelease tag s) := by
  unfold execTagRelease
  repeat' split
  all_goals simp

@[simp] theorem keepsForm_execRouterDiscard {link : Nat} {s : State} : KeepsForm s (execRouterDiscard link s) := by
  simp only [execRouterDiscard, keepsForm_next]
  split
  · simp
  · generalize hu : List.foldl _ _ _ = u
    have h : u.mem = s.mem ∧ u.objects = s.objects := by
      rw [← hu]
      refine foldl_mem_objects _ (fun s p => ?_) _ _
      split <;> simp
    simp [h]

@[simp] theorem keepsForm_execCongestionNotice {dest : Nat} {s : State} : KeepsForm s (execCongestionNotice dest s) := by
  simp [execCongestionNotice]

@[simp] theorem keepsForm_execWindowIncrease {dest : Nat} {s : State} : KeepsForm s (execWindowIncrease dest s) := by
  unfold execWindowIncrease
  dsimp only
  repeat' split
  all_goals simp

@[simp] theorem keepsForm_execCreditReturn {link chan : Nat} {ret : BitVec 16} {s : State} :
    KeepsForm s (execCreditReturn link chan ret s) := by
  simp [execCreditReturn]

@[simp] theorem keepsForm_execAuditFlitSend {link : Nat} {s : State} : KeepsForm s (execAuditFlitSend link s) := by
  unfold execAuditFlitSend
  dsimp only
  split <;> simp

@[simp] theorem keepsForm_execAuditFlitReceive {link : Nat} {sent : List (BitVec 16)} {s : State} :
    KeepsForm s (execAuditFlitReceive link sent s) := by
  simp [execAuditFlitReceive]

@[simp] theorem keepsForm_execAuditReturn {link : Nat} {ret : List (BitVec 16)} {s : State} :
    KeepsForm s (execAuditReturn link ret s) := by
  simp [execAuditReturn]

@[simp] theorem keepsForm_execLinkCrcRetry {flit : LinkFlit} {s : State} : KeepsForm s (execLinkCrcRetry flit s) := by
  unfold execLinkCrcRetry
  dsimp only
  repeat' split
  all_goals simp

@[simp] theorem keepsForm_execLinkRetrain {link : Nat} {trained : Bool} {s : State} :
    KeepsForm s (execLinkRetrain link trained s) := by
  unfold execLinkRetrain
  dsimp only
  repeat' split
  all_goals simp

@[simp] theorem keepsForm_execPortDead {link : Nat} {s : State} : KeepsForm s (execPortDead link s) := by
  simp [execPortDead]

@[simp] theorem keepsForm_execLinkTraining {link major minor : Nat} {s : State} :
    KeepsForm s (execLinkTraining link major minor s) := by
  simp [execLinkTraining]

/-! ### Machine/Recovery -/

@[simp] theorem keepsForm_execSelfTestComplete {unit : TestUnit} {passed : Bool} {s : State} :
    KeepsForm s (execSelfTestComplete unit passed s) := by
  unfold execSelfTestComplete
  dsimp only
  repeat' split
  all_goals simp +contextual

@[simp] theorem keepsForm_execSpareSubstitution {core spare : Nat} {s : State} : KeepsForm s (execSpareSubstitution core spare s) := by
  simp only [execSpareSubstitution, keepsForm_next]
  split
  · split <;> simp +contextual
  · generalize hu : List.foldl _ _ _ = u
    have h : u.mem = s.mem ∧ u.objects = s.objects := by
      rw [← hu]
      refine foldl_mem_objects _ (fun s p => ?_) _ _
      split <;> simp
    simp [h]

@[simp] theorem keepsForm_execControlCoreReset {n : Nat} {s : State} : KeepsForm s (execControlCoreReset n s) := by
  simp +contextual [execControlCoreReset]

@[simp] theorem keepsForm_execControlDieLoss {modified : List Nat} {s : State} : KeepsForm s (execControlDieLoss modified s) := by
  simp +contextual [execControlDieLoss]

@[simp] theorem keepsForm_execControlDieRestart {success : Bool} {s : State} : KeepsForm s (execControlDieRestart success s) := by
  unfold execControlDieRestart
  dsimp only
  repeat' split
  all_goals simp +contextual

@[simp] theorem keepsForm_execHeartbeatMiss {die : Nat} {s : State} : KeepsForm s (execHeartbeatMiss die s) := by
  unfold execHeartbeatMiss
  dsimp only
  repeat' split
  all_goals simp

@[simp] theorem keepsForm_execDieIsolation {die : Nat} {s : State} : KeepsForm s (execDieIsolation die s) := by
  simp only [execDieIsolation, keepsForm_next]
  split
  · simp
  · generalize hu : List.foldl _ _ _ = u
    have h : u.objects = s.objects ∧ (s.mem.wf = true → u.mem.wf = true) := by
      subst hu
      simp +contextual
    simp +contextual [h]

@[simp] theorem keepsForm_execDieRecovery {die : Nat} {passed : Bool} {table : List (BitVec 8)} {s : State} :
    KeepsForm s (execDieRecovery die passed table s) := by
  unfold execDieRecovery
  repeat' split
  all_goals simp

@[simp] theorem keepsForm_execFabricDieLoss {s : State} : KeepsForm s (execFabricDieLoss s) := by
  simp only [execFabricDieLoss, keepsForm_next]
  split
  · simp
  · generalize hu : List.foldl _ _ _ = u
    have h : u.objects = s.objects ∧ (s.mem.wf = true → u.mem.wf = true) := by
      subst hu
      simp +contextual
    simp +contextual [h]

/-! ### Machine/HostPort -/

@[simp] theorem keepsForm_execHostBar2Read {fn offset len : Nat} {s : State} : KeepsForm s (execHostBar2Read fn offset len s) := by
  unfold execHostBar2Read State.receive
  dsimp only
  repeat' split
  all_goals simp

@[simp] theorem keepsForm_execHostBar2Write {fn offset : Nat} {data : List (BitVec 8)} {s : State} :
    KeepsForm s (execHostBar2Write fn offset data s) := by
  unfold execHostBar2Write State.receive
  dsimp only
  repeat' split
  all_goals simp +contextual

@[simp] theorem keepsForm_execHostAtomicRequest {fn offset : Nat} {s : State} : KeepsForm s (execHostAtomicRequest fn offset s) := by
  unfold execHostAtomicRequest State.receive
  repeat' split
  all_goals simp

@[simp] theorem keepsForm_execIdeIntegrityFail {fn : Nat} {s : State} : KeepsForm s (execIdeIntegrityFail fn s) := by
  simp [execIdeIntegrityFail]

@[simp] theorem keepsForm_execIdeRekey {fn : Nat} {s : State} : KeepsForm s (execIdeRekey fn s) := by
  simp [execIdeRekey]

@[simp] theorem keepsForm_execFunctionReset {fn : Nat} {s : State} : KeepsForm s (execFunctionReset fn s) := by
  simp [execFunctionReset]

@[simp] theorem keepsForm_execHostLinkTraining {fns : List (Nat × Bool × Bool)} {s : State} :
    KeepsForm s (execHostLinkTraining fns s) := by
  simp [execHostLinkTraining]

/-! ### Machine/Startup -/

@[simp] theorem keepsForm_execDeviceReset {env : BootInputs} {s : State} : KeepsForm s (execDeviceReset env s) := by
  have empty : Memory.wf [] = true := rfl
  simp [execDeviceReset, State.reset, empty]

@[simp] theorem keepsForm_execBootStageTimeout {s : State} : KeepsForm s (execBootStageTimeout s) := by
  unfold execBootStageTimeout
  split <;> simp

@[simp] theorem keepsForm_execHostRestartRequest {env : BootInputs} {s : State} : KeepsForm s (execHostRestartRequest env s) := by
  unfold execHostRestartRequest
  split <;> simp

@[simp] theorem keepsForm_execSecurityAlarm {trigger : AlarmTrigger} {s : State} : KeepsForm s (execSecurityAlarm trigger s) := by
  unfold execSecurityAlarm
  dsimp only
  repeat' split
  all_goals simp +contextual

@[simp] theorem keepsForm_execAlarmEscalation {s : State} : KeepsForm s (execAlarmEscalation s) := by
  unfold execAlarmEscalation
  split
  all_goals simp +contextual

@[simp] theorem keepsForm_execDebugUnlockAttempt {success : Bool} {s : State} :
    KeepsForm s (execDebugUnlockAttempt success s) := by
  unfold execDebugUnlockAttempt
  dsimp only
  repeat' split
  all_goals simp

@[simp] theorem keepsForm_execVendorEnrolment {helper : Nat} {signedOk : Bool} {s : State} :
    KeepsForm s (execVendorEnrolment helper signedOk s) := by
  unfold execVendorEnrolment
  split <;> simp

@[simp] theorem keepsForm_execAttestationRequest {nonce : List (BitVec 8)} {s : State} :
    KeepsForm s (execAttestationRequest nonce s) := by
  unfold execAttestationRequest
  repeat' split
  all_goals simp

@[simp] theorem keepsForm_execPowerWindow {watts capped : Nat} {s : State} : KeepsForm s (execPowerWindow watts capped s) := by
  simp [execPowerWindow]

end Sys2Proof.Machine

/-! ## Every instruction, event and step -/

namespace Sys2Proof.Machine

theorem keepsForm_exec (i : Instr) (s : State) : KeepsForm s (exec i s) := by
  delta exec
  cases i with
  | add | sub | and | or | xor | andn | sll | srl | sra | rotr | slt | sltu | min | max | minu | maxu | mul | mulh | mulhu | div
  | divu | rem | remu | addw | subw | mulw | sllw | srlw | sraw => exact keepsForm_alu
  | clz | ctz | popc | bswap | addi | andi | ori | xori | slti | sltiu | slli | srli | srai | bfx | bfxS => exact keepsForm_aluImm
  | sel => exact keepsForm_execSel
  | fadd | fsub | fmul | fmin | fmax | feq | flt | fle => exact keepsForm_fp2
  | fdiv | fsqrt | fmac => exact keepsForm_fpForm
  | fcvt | ftoi | ftou | itof | utof | fabs | fneg => exact keepsForm_fp1
  | jalr => exact keepsForm_execJalr
  | jget => exact keepsForm_execJget
  | jset => exact keepsForm_execJset
  | bfi => exact keepsForm_execBfi
  | li | lih | adpc => exact keepsForm_constForm
  | ld | ldu => exact keepsForm_loadForm
  | st => exact keepsForm_execSt
  | lds | ldsu => exact keepsForm_ldsForm
  | sts => exact keepsForm_execSts
  | ldq => exact keepsForm_execLdq
  | amoAdd | amoAnd | amoOr | amoXor | amoMin | amoMax | amoSwap | amoCas | amoFadd | amoFmin | amoFmax => exact keepsForm_amoForm
  | beq | bne | blt | bge | bltu | bgeu => exact keepsForm_branch
  | j => exact keepsForm_execJ
  | jal => exact keepsForm_execJal
  | land => exact keepsForm_execLand
  | cwaitCont => exact keepsForm_execCwaitCont
  | vrun => exact keepsForm_execVrun
  | vwait => exact keepsForm_execVwait
  | mrun => exact keepsForm_execMrun
  | mwait => exact keepsForm_execMwait
  | mstop => exact keepsForm_execMstop
  | crun => exact keepsForm_execCrun
  | cwait => exact keepsForm_execCwait
  | erun => exact keepsForm_execErun
  | fmtq => exact keepsForm_execFmtq
  | trdl => exact keepsForm_execTrdl
  | stitch => exact keepsForm_execStitch
  | bind => exact keepsForm_execBind
  | unbind => exact keepsForm_execUnbind
  | qdepth => exact keepsForm_execQdepth
  | rbacqW | rbacqT => exact keepsForm_rbacqForm
  | rbrel => exact keepsForm_execRbrel
  | tqpush => exact keepsForm_execTqpush
  | launch => exact keepsForm_execLaunch
  | csrr | csrw | csrs | csrc => exact keepsForm_csrForm
  | phase => exact keepsForm_execPhase
  | phaseE => exact keepsForm_execPhaseE
  | fence => exact keepsForm_execFence
  | flush => exact keepsForm_execFlush
  | join => exact keepsForm_execJoin
  | yield => exact keepsForm_execYield
  | trap => exact keepsForm_execTrap
  | eret => exact keepsForm_execEret
  | icinv => exact keepsForm_execIcinv
  | tlbinv => exact keepsForm_execTlbinv
  | moult => exact keepsForm_execMoult
  | qread => exact keepsForm_execQread
  | rdpcc => exact keepsForm_execRdpcc
  | halt => exact keepsForm_execHalt
  | nop => exact keepsForm_execNop
  | clevCount | clevSs | clevDs | clevJs | cbase | ccopy | ccopyTolns | ccopyTolin | cfill | cnop => exact keepsForm_chanForm
  | csig => exact keepsForm_execCsig
  | cend => exact keepsForm_execCend
  | mldw => exact keepsForm_execMldw
  | mswap => exact keepsForm_execMswap
  | mma => exact keepsForm_execMma
  | mstamp => exact keepsForm_execMstamp
  | mdrainPort => exact keepsForm_execMdrainPort
  | mdrainSpm => exact keepsForm_execMdrainSpm
  | mzero => exact keepsForm_execMzero
  | mmark => exact keepsForm_execMmark
  | mseg => exact keepsForm_execMseg
  | mtreadle => exact keepsForm_execMtreadle
  | mtend => exact keepsForm_execMtend
  | mflags => exact keepsForm_execMflags
  | mnop => exact keepsForm_execMnop
  | vaddFp | vsubFp | vmulFp | vminFp | vmaxFp | vdivFp => exact keepsForm_vfp2
  | vfma | vfnma => exact keepsForm_vfused
  | vsqrt | vabs | vneg | vrcp | vrsq | vexp2 | vlog2 => exact keepsForm_vfp1
  | vaddInt | vsubInt | vmulInt | vmulh | vmulhu | vand | vor | vxor | vsll | vsrl | vsra | vminInt | vmaxInt | vminu | vmaxu
  | vadds | vsubs | vaddsu | vsubsu | vdivInt | vdivu | vrem | vremu => exact keepsForm_vint2
  | vaddi | vandi | vori | vxori | vslli | vsrli | vsrai => exact keepsForm_vimm
  | vmovi | vceqi | vppick | vppickV | vmov | vperm | vpfirst => exact keepsForm_vForm
  | vceqFp | vcltFp | vcleFp | vcneFp => exact keepsForm_vcmpFp
  | vceqInt | vcneInt | vcltInt | vcltu | vcleInt | vcleu | vtst => exact keepsForm_vcmpInt
  | vplog | vplogR | vpdrop => exact keepsForm_vPredForm
  | vsel => exact keepsForm_execVsel
  | vshuf => exact keepsForm_execVshuf
  | vslide | vrot => exact keepsForm_vTile
  | vmatch => exact keepsForm_execVmatch
  | vredaddFp | vredmin | vredmax => exact keepsForm_vreduceFp
  | vredaddInt => exact keepsForm_execVredaddInt
  | vscanFp => exact keepsForm_execVscanFp
  | vscanInt => exact keepsForm_execVscanInt
  | vxs => exact keepsForm_execVxs
  | vcvtF32F64 | vcvtF64F32 | vcvtF16F32 | vcvtF32F16 | vcvtBf16F32 | vcvtF32Bf16 | vcvtI32F32 | vcvtF32I32 | vcvtN32F32
  | vcvtF32N32 | vcvtI64F64 | vcvtF64I64 => exact keepsForm_vcvtForm
  | vlcvt | vlcvtM => exact keepsForm_vlcvtForm
  | vlexp => exact keepsForm_execVlexp
  | vcvtF64Lns => exact keepsForm_execVcvtF64Lns
  | vlmul | vlscl => exact keepsForm_vlogForm
  | vld => exact keepsForm_execVld
  | vst => exact keepsForm_execVst
  | vlds => exact keepsForm_execVlds
  | vsts => exact keepsForm_execVsts
  | vgath => exact keepsForm_execVgath
  | vscat => exact keepsForm_execVscat
  | vupdAdd | vupdMin | vupdMax | vupdAnd | vupdOr | vupdXor | vupdMinu | vupdMaxu => exact keepsForm_vupdForm
  | vtqpush => exact keepsForm_execVtqpush
  | vamoAdd | vamoAnd | vamoOr | vamoXor | vamoMin | vamoMax | vamoSwap | vamoCas => exact keepsForm_vamoOf
  | vshape => exact keepsForm_execVshape
  | vloop => exact keepsForm_execVloop
  | vjmp => exact keepsForm_execVjmp
  | vend => exact keepsForm_execVend
  | vseg => exact keepsForm_execVseg
  | vnop => exact keepsForm_execVnop
  | faultRecordWrite => exact keepsForm_execFaultRecordWrite
  | loadDataReturn => exact keepsForm_execLoadDataReturn
  | dataErrorArrival => exact keepsForm_execDataErrorArrival
  | accessPerformed => exact keepsForm_execAccessPerformed
  | storeAck => exact keepsForm_execStoreAck
  | storeErrorRecord => exact keepsForm_execStoreErrorRecord
  | commitMessage => exact keepsForm_execCommitMessage
  | commitAck => exact keepsForm_execCommitAck
  | dirtySectorEviction => exact keepsForm_execDirtySectorEviction
  | forcedCommit => exact keepsForm_execForcedCommit
  | tlbWalkComplete => exact keepsForm_execTlbWalkComplete
  | ldqDataArrival => exact keepsForm_execLdqDataArrival
  | vectorBusyClear => exact keepsForm_execVectorBusyClear
  | commandWindowReplay => exact keepsForm_execCommandWindowReplay
  | rangeEntryRetire => exact keepsForm_execRangeEntryRetire
  | clickerCopyStart => exact keepsForm_execClickerCopyStart
  | clickerCopyComplete => exact keepsForm_execClickerCopyComplete
  | csigResponse => exact keepsForm_execCsigResponse
  | clickerProgramComplete => exact keepsForm_execClickerProgramComplete
  | packetDelivery => exact keepsForm_execPacketDelivery
  | peerByteTransfer => exact keepsForm_execPeerByteTransfer
  | portUnbindComplete => exact keepsForm_execPortUnbindComplete
  | treadleSlotStart => exact keepsForm_execTreadleSlotStart
  | demandSend => exact keepsForm_execDemandSend
  | demandArrival => exact keepsForm_execDemandArrival
  | treadleRunEnd => exact keepsForm_execTreadleRunEnd
  | jobStart => exact keepsForm_execJobStart
  | jobEnd => exact keepsForm_execJobEnd
  | swapTrigger => exact keepsForm_execSwapTrigger
  | groupWake => exact keepsForm_execGroupWake
  | activeRefill => exact keepsForm_execActiveRefill
  | rotationTick => exact keepsForm_execRotationTick
  | blockTransfer => exact keepsForm_execBlockTransfer
  | phaseArrival => exact keepsForm_execPhaseArrival
  | phaseBoundaryComplete => exact keepsForm_execPhaseBoundaryComplete
  | fabricArrivalMessage => exact keepsForm_execFabricArrivalMessage
  | arrivalResend => exact keepsForm_execArrivalResend
  | taskPushAccept => exact keepsForm_execTaskPushAccept
  | taskQueueSpill => exact keepsForm_execTaskQueueSpill
  | taskQueueRefill => exact keepsForm_execTaskQueueRefill
  | formerSelection => exact keepsForm_execFormerSelection
  | formerTimeout => exact keepsForm_execFormerTimeout
  | formerGroupReady => exact keepsForm_execFormerGroupReady
  | qwidxWrite => exact keepsForm_execQwidxWrite
  | queueEnable => exact keepsForm_execQueueEnable
  | queueDisable => exact keepsForm_execQueueDisable
  | headPacketRead => exact keepsForm_execHeadPacketRead
  | signalReread => exact keepsForm_execSignalReread
  | selectionRound => exact keepsForm_execSelectionRound
  | reservationStart => exact keepsForm_execReservationStart
  | launchCompletion => exact keepsForm_execLaunchCompletion
  | msixUnmask => exact keepsForm_execMsixUnmask
  | codeObjectLoad => exact keepsForm_execCodeObjectLoad
  | demandPageVerify => exact keepsForm_execDemandPageVerify
  | codeIntegrityTermination => exact keepsForm_execCodeIntegrityTermination
  | slotPatch => exact keepsForm_execSlotPatch
  | preempt => exact keepsForm_execPreempt
  | resumeJob => exact keepsForm_execResumeJob
  | resumeGroup => exact keepsForm_execResumeGroup
  | killGroup => exact keepsForm_execKillGroup
  | killLaunch => exact keepsForm_execKillLaunch
  | killContext => exact keepsForm_execKillContext
  | moultRelease => exact keepsForm_execMoultRelease
  | remoteRequestArrival => exact keepsForm_execRemoteRequestArrival
  | replyArrival => exact keepsForm_execReplyArrival
  | requesterTimeout => exact keepsForm_execRequesterTimeout
  | tagRelease => exact keepsForm_execTagRelease
  | routerDiscard => exact keepsForm_execRouterDiscard
  | congestionNotice => exact keepsForm_execCongestionNotice
  | windowIncrease => exact keepsForm_execWindowIncrease
  | creditReturn => exact keepsForm_execCreditReturn
  | auditFlitSend => exact keepsForm_execAuditFlitSend
  | auditFlitReceive => exact keepsForm_execAuditFlitReceive
  | auditReturn => exact keepsForm_execAuditReturn
  | linkCrcRetry => exact keepsForm_execLinkCrcRetry
  | linkRetrain => exact keepsForm_execLinkRetrain
  | linkTraining => exact keepsForm_execLinkTraining
  | portDead => exact keepsForm_execPortDead
  | hostBar2Read => exact keepsForm_execHostBar2Read
  | hostBar2Write => exact keepsForm_execHostBar2Write
  | hostAtomicRequest => exact keepsForm_execHostAtomicRequest
  | atsInvalidation => exact keepsForm_execAtsInvalidation
  | ideIntegrityFail => exact keepsForm_execIdeIntegrityFail
  | ideRekey => exact keepsForm_execIdeRekey
  | attestationRequest => exact keepsForm_execAttestationRequest
  | hostRestartRequest => exact keepsForm_execHostRestartRequest
  | registerWrite => exact keepsForm_execRegisterWrite
  | selfTestComplete => exact keepsForm_execSelfTestComplete
  | spareSubstitution => exact keepsForm_execSpareSubstitution
  | controlCoreReset => exact keepsForm_execControlCoreReset
  | controlDieLoss => exact keepsForm_execControlDieLoss
  | controlDieRestart => exact keepsForm_execControlDieRestart
  | heartbeatMiss => exact keepsForm_execHeartbeatMiss
  | dieIsolation => exact keepsForm_execDieIsolation
  | dieRecovery => exact keepsForm_execDieRecovery
  | fabricDieLoss => exact keepsForm_execFabricDieLoss
  | deviceReset => exact keepsForm_execDeviceReset
  | bootStageTimeout => exact keepsForm_execBootStageTimeout
  | securityAlarm => exact keepsForm_execSecurityAlarm
  | alarmEscalation => exact keepsForm_execAlarmEscalation
  | debugUnlockAttempt => exact keepsForm_execDebugUnlockAttempt
  | powerWindow => exact keepsForm_execPowerWindow
  | functionReset => exact keepsForm_execFunctionReset
  | codeObjectUnload => exact keepsForm_execCodeObjectUnload
  | vendorEnrolment => exact keepsForm_execVendorEnrolment
  | hostCompletionArrival => exact keepsForm_execHostCompletionArrival
  | pageRequestResponse => exact keepsForm_execPageRequestResponse
  | l1LineReplacement => exact keepsForm_execL1LineReplacement
  | hostLinkTraining => exact keepsForm_execHostLinkTraining

theorem keepsForm_goOnAfter {s b : State} {o : Out} (h : KeepsForm s o) : KeepsForm s (goOnAfter b o) := by
  obtain ⟨t, rfl, hf⟩ := h
  exact ⟨_, rfl, fun hs => memoryForm_of_wf (hf hs) (by simp)⟩

theorem keepsForm_step (s : State) : KeepsForm s (step s) := by
  have hp : KeepsForm s.plan.2 (step s) := by
    unfold step
    split
    · rename_i h; simp [h]
    · rename_i h; rw [h]; exact keepsForm_exec _ _
    · rename_i h; rw [h]; exact keepsForm_goOnAfter keepsForm_trapWith
    · rename_i h; rw [h]; exact keepsForm_goOnAfter keepsForm_runBlock
    · rename_i h
      rw [h]
      split
      · exact keepsForm_goOnAfter (keepsForm_exec _ _)
      · exact keepsForm_goOnAfter keepsForm_trap
      · exact keepsForm_goOnAfter keepsForm_refuseUnit
  obtain ⟨t, ht, hf⟩ := hp
  exact ⟨t, ht, fun hs => hf (memoryForm_of_wf hs s.plan_wf)⟩

/-- Settles O56: no branch of a step answers anything but a next state. -/
theorem everyStepGoesOn : Obligations.EveryStepGoesOn := by
  intro s
  obtain ⟨t, ht, _⟩ := keepsForm_step s
  exact ⟨t, ht⟩

/-- Settles O57: the plan keeps the form, and so do the work it picks and the word's end. -/
theorem memoryKeepsForm : Obligations.MemoryKeepsForm := by
  intro s t hs ht
  obtain ⟨u, hu, hf⟩ := keepsForm_step s
  cases ht.symm.trans hu
  exact hf hs

end Sys2Proof.Machine

/-! ## O36: taking a trap (R10, R74, R185) -/

namespace Sys2Proof.Machine

/-- What a trap of a group's scalar stream makes of the group. -/
def TrapArgs.onGroup (t : TrapArgs) (s : State) : TrapInfo :=
  ⟨t.cause, s.scalar.pc, .group, replays t.cause, t.addr, t.aux, t.cidx, t.elem⟩

/-- The core that a trap of a group's scalar stream leaves: the group is suspended and out of the active set. -/
def State.suspendsHere (s : State) (t : TrapArgs) : Core :=
  (s.here.withdraw s.cur.slot).modGroup s.cur.slot fun g => g.suspend s.pcc (t.onGroup s)

/-- The fault record of a trap of a group's scalar stream (R388). -/
def TrapArgs.recordOf (t : TrapArgs) (s : State) : FaultRecord :=
  { pcc := s.pcc, aux := t.aux, addr := t.addr, pc := s.scalar.pc, jobid := s.here.job.jobid, role := s.here.job.role,
    core := physOf s.cur.core, die := dieOf s.cur.core, ctx := s.here.job.ctx, slot := s.cur.slot, stream := 0, jobrec := false,
    replay := replays t.cause, cidx := t.cidx, elem := t.elem, detail := t.detail, killed := false, cause := t.cause }

/-- A trap that neither ends the launch nor has a unit tested suspends the group and makes one record. -/
theorem State.raiseTrap_of_group {s : State} {t : TrapArgs} (hs : s.cur.stream = .group) (hg : s.here.chargeable s.cur.slot = true)
    (hi : t.cause ≠ causeIntegrity) (hp : t.pc = none) (hseg : t.cause ≠ causeSegment) (htw : t.cause ≠ causeTwin) :
    s.raiseTrap t = (s.setCore s.cur.core (s.suspendsHere t)).record (t.recordOf s) := by
  have charged : s.chargedSlot = s.cur.slot := by simp [State.chargedSlot, hs]
  have hpc : t.pc.getD s.curPc = s.scalar.pc := by simp [hp, State.curPc, hs]
  have own : s.orphaned = false := by simp [State.orphaned, hs]
  simp [State.raiseTrap, State.trapCompute, State.checkFailure, hs, hg, hi, hseg, htw, charged, hpc, own, Core.stopStream, Stream.code,
    State.suspendsHere, TrapArgs.onGroup, TrapArgs.recordOf]

theorem State.held_record (s : State) (r : FaultRecord) : ((s.record r).ctx r.ctx).held = (s.ctx r.ctx).held ++ [r] := by
  simp [State.record, State.ctx, State.modCtx, State.schedule, FMap.getD_set_same]

@[simp] theorem State.core_record (s : State) (r : FaultRecord) (k : Nat) : (s.record r).core k = s.core k := rfl

@[simp] theorem State.cur_record (s : State) (r : FaultRecord) : (s.record r).cur = s.cur := rfl

theorem Core.withdraw_active (c : Core) (slot : Nat) : ∀ p ∈ (c.withdraw slot).sched.active.toList, p ≠ some slot := by
  intro p hp
  simp only [Core.withdraw, Vector.toList_map, List.mem_map] at hp
  obtain ⟨q, _, rfl⟩ := hp
  split <;> simp_all

@[simp] theorem Core.group_withdraw (c : Core) (slot n : Nat) : (c.withdraw slot).group n = c.group n := rfl

theorem trapEntryHold : TrapEntryHold := by
  intro t s hs hg hi hp hseg htw u j
  have hu : u = (s.setCore s.cur.core (s.suspendsHere t)).record (t.recordOf s) := State.raiseTrap_of_group hs hg hi hp hseg htw
  have here : u.here = s.suspendsHere t := by simp [hu, State.here]
  have grp : u.grp = s.grp.suspend s.pcc (t.onGroup s) := by
    rw [State.grp, here, hu]
    simp [State.suspendsHere, State.grp]
  have held : (u.ctx j.ctx).held = (s.ctx j.ctx).held ++ [t.recordOf s] := by
    rw [hu]
    exact State.held_record _ (t.recordOf s)
  have others (n : Nat) (hn : n ≠ s.cur.slot) : u.here.group n = s.here.group n := by
    simp [here, State.suspendsHere, Core.group_modGroup_other _ _ _ _ hn]
  have cores (k : Nat) (hk : k ≠ s.cur.core) : u.core k = s.core k := by
    simp [hu, State.core_setCore_other _ _ _ _ hk]
  rw [grp]
  exact ⟨rfl, rfl, rfl, rfl, rfl, held, here ▸ s.here.withdraw_active s.cur.slot, here ▸ rfl, others, cores, hu ▸ rfl⟩

/-- The first trap of a control core saves its pc and cause and goes on at the trap entry. -/
theorem State.trapControl_of_first {s : State} {t : TrapArgs} (h : (s.ctl s.cur.core).outstanding = false) :
    s.trapControl t = s.modCtl s.cur.core fun c =>
      { c with savedPc := c.sc.pc, savedCause := t.cause, outstanding := true, wasTrap := decide (t.cause = causeTrap), hold := none,
               sc := { c.sc with pc := c.entry, nextIssue := s.pcc + 1 } } := by
  simp [State.trapControl, h]

/-- A second trap before ERET stops it. -/
theorem State.trapControl_of_second {s : State} {t : TrapArgs} (h : (s.ctl s.cur.core).outstanding = true) :
    s.trapControl t = (s.modCtl s.cur.core fun c => { c with stopped := true, hold := none }).schedule s.pcc
      (.controlCoreReset (s.cur.core % 16)) := by
  simp [State.trapControl, h]

@[simp] theorem State.ctl_schedule (s : State) (at_ : Nat) (e : Event) (n : Nat) : (s.schedule at_ e).ctl n = s.ctl n := rfl

theorem controlTrapEntryHold : ControlTrapEntryHold := by
  intro t s hs k u
  have hu : u = s.trapControl t := by simp [u, State.raiseTrap, hs]
  cases hk : k.outstanding
  · rw [hu, State.trapControl_of_first hk]
    exact ⟨fun _ => State.ctl_modCtl_same _ _ _, fun h => by simp at h, rfl, rfl⟩
  · rw [hu, State.trapControl_of_second hk]
    exact ⟨fun h => by simp at h, fun _ => by simp [k], rfl, rfl⟩

/-- Settles O36: what the trap writes, on a group and on a core of the control die. -/
theorem trapEntries : Obligations.TrapEntries := ⟨trapEntryHold, controlTrapEntryHold⟩

end Sys2Proof.Machine

/-! ## O59: how a group of class 2 code runs its blocks (R381-R383) -/

namespace Sys2Proof.Machine

/-! ### The state that a step of a block leaves -/

theorem State.scalar_of_group {s : State} (hs : s.cur.stream = .group) : s.scalar = s.grp.sc := by
  simp [State.scalar, hs]

@[simp] theorem State.cur_blockGo (s : State) (r : Option BlockRun) (pc : Word) : (s.blockGo r pc).cur = s.cur := by
  simp [State.blockGo]

/-- Of the group, going on in a block changes the block, the pc, the next issue and the hold. -/
theorem State.grp_blockGo {s : State} (hs : s.cur.stream = .group) (r : Option BlockRun) (pc : Word) :
    (s.blockGo r pc).grp = { s.grp with block := r, sc := { s.grp.sc with pc, nextIssue := s.pcc + 1 }, hold := none } := by
  simp [State.blockGo, State.clearHold, hs]

theorem State.scalar_blockGo {s : State} (hs : s.cur.stream = .group) (r : Option BlockRun) (pc : Word) :
    (s.blockGo r pc).scalar = { s.scalar with pc, nextIssue := s.pcc + 1 } := by
  rw [State.scalar_of_group hs, State.scalar_of_group (by simp [hs]), State.grp_blockGo hs]

/-- What a step that goes on in its block leaves as it was. -/
theorem State.blockOn_keeps {s : State} (hs : s.cur.stream = .group) (r : BlockRun) :
    (s.blockOn r).mem = s.mem ∧ (s.blockOn r).grp.vregs = s.grp.vregs ∧ (s.blockOn r).rf = s.rf ∧
      (s.blockOn r).scalar.pc = s.scalar.pc ∧ (s.blockOn r).grp.block = some r := by
  simp [State.blockOn, State.grp_blockGo hs, State.rf, State.scalar_blockGo hs]

/-- What a trap of a group's scalar stream leaves of the group, and what it adds. -/
theorem State.raiseTrap_keeps {s : State} {t : TrapArgs} (hs : s.cur.stream = .group) (hg : s.here.chargeable s.cur.slot = true)
    (hi : t.cause ≠ causeIntegrity) (hp : t.pc = none) (hseg : t.cause ≠ causeSegment) (htw : t.cause ≠ causeTwin) :
    (s.raiseTrap t).mem = s.mem ∧ (s.raiseTrap t).grp.vregs = s.grp.vregs ∧ (s.raiseTrap t).grp.status = .trapped ∧
      (s.raiseTrap t).rf = s.rf ∧ (s.raiseTrap t).scalar.pc = s.scalar.pc ∧
      ∃ x ∈ (s.raiseTrap t).grp.traps, x.cause = t.cause ∧ x.pc = s.scalar.pc := by
  obtain ⟨status, sc, vregs, -, traps, -, -, -, -, -, mem⟩ := trapEntryHold t s hs hg hi hp hseg htw
  have cur : (s.raiseTrap t).cur = s.cur := by
    rw [State.raiseTrap_of_group hs hg hi hp hseg htw]
    rfl
  have scalar : (s.raiseTrap t).scalar = s.scalar := by
    rw [State.scalar_of_group hs, State.scalar_of_group (cur ▸ hs), sc]
  exact ⟨mem, vregs, status, congrArg Scalar.rf scalar, congrArg Scalar.pc scalar, _,
    traps ▸ List.mem_append_right _ (List.mem_singleton_self _), rfl, rfl⟩

/-! ### The evaluation of an operation -/

@[simp] theorem Eval2.deliver_flags {w : Nat} (e : Eval2 w) (t : Nat) (v : BitVec w) : (e.deliver t v).flags = e.flags := by
  unfold Eval2.deliver
  split <;> rfl

@[simp] theorem Eval2.deliverAll_flags {w : Nat} (e : Eval2 w) (o : BOp) (v : BitVec w) : (e.deliverAll o v).flags = e.flags := by
  unfold Eval2.deliverAll
  dsimp only
  repeat' split
  all_goals simp

/-- An operation that does not fire changes nothing (R381). -/
theorem Eval2.op64_of_not_fires {rm : Rm} {e : Eval2 64} {o : BOp} {n : Nat} (h : e.fires o n = false) : e.op64 rm o n = e := by
  simp [Eval2.op64, h]

/-- No operation lowers a flag. -/
theorem Eval2.op64_flags (rm : Rm) (e : Eval2 64) (o : BOp) (n : Nat) : (e.op64 rm o n).flags ||| e.flags = (e.op64 rm o n).flags := by
  unfold Eval2.op64
  split
  · simp
  · dsimp only
    split <;> simp [Nat.or_comm]

/-! ### The registers that a block writes -/

/-- The register targets of a block, written one after another. -/
def RegFile.putAll (f : RegFile) (l : FMap Word) : RegFile := l.foldl (fun f v => f.put (BitVec.ofNat 5 v.1) v.2) f

@[simp] theorem RegFile.putAll_flags (f : RegFile) (l : FMap Word) : (f.putAll l).flags = f.flags := by
  induction l generalizing f with
  | nil => rfl
  | cons x l ih => exact (ih _).trans (by simp)

theorem FMap.get_none_of_after {α : Type} {l : FMap α} {k : Nat} (h : l.after k) : l.get k = none := by
  by_contra hn
  obtain ⟨v, hv⟩ := Option.ne_none_iff_exists'.1 hn
  exact lt_irrefl k (h _ (FMap.mem_of_get hv))

/-- A register reads as its target's value where it has one, and as before otherwise. -/
theorem RegFile.get_putAll (f : RegFile) (l : FMap Word) (hw : l.wf = true) (hl : ∀ x ∈ l, x.1 < 32) (k : BitVec 5) :
    (f.putAll l).get k = if k = 0 then 0 else (l.get k.toNat).getD (f.get k) := by
  induction l generalizing f with
  | nil =>
    split
    · subst k; rfl
    · rfl
  | cons x l ih =>
    obtain ⟨n, v⟩ := x
    obtain ⟨later, hw⟩ := (FMap.wf_cons _ _).1 hw
    have hn : n < 32 := hl _ (List.mem_cons_self ..)
    have same : k = BitVec.ofNat 5 n ↔ k.toNat = n := by
      rw [← BitVec.toNat_inj, BitVec.toNat_ofNat, Nat.mod_eq_of_lt hn]
    refine (ih _ hw fun x hx => hl x (List.mem_cons_of_mem _ hx)).trans ?_
    by_cases hkn : k.toNat = n
    · subst hkn
      have last : FMap.get l k.toNat = none := FMap.get_none_of_after later
      by_cases hk : k = 0#5 <;> simp [hk, FMap.get, last, RegFile.get_put]
    · simp [FMap.get, hkn, RegFile.get_put, same]

/-! ### Each step of a block (R381) -/

section
variable {s : State} (hh : s.grp.hold = none) (hl : s.hasLanes = false)
include hh hl

theorem runBlock_of_no_block (hb : s.blockAt s.scalar.pc = none) : runBlock s = trap s causeOperand := by
  simp [runBlock, withRegisterBlocks, hh, hl, hb]

variable {b : Block2} (hb : s.blockAt s.scalar.pc = some b) (hlane : b.lane = false)
include hb hlane

theorem runBlock_begin (hn : s.grp.block = none) :
    runBlock s = withReads (b.reads.map fun r => BitVec.ofNat 5 r.reg) s (.next (s.blockOn (BlockRun.begin b s))) := by
  simp [runBlock, withRegisterBlocks, hh, hl, hb, hlane, hn]

theorem runBlock_op {r : BlockRun} {o : BOp} (hr : s.grp.block = some r) (ho : b.ops[r.next]? = some o) :
    runBlock s = evalBlock o r s := by
  simp [runBlock, withRegisterBlocks, hh, hl, hb, hlane, hr, ho]

theorem runBlock_commit {r : BlockRun} (hr : s.grp.block = some r) (ho : b.ops.length ≤ r.next) :
    runBlock s = commitBlock r s := by
  simp [runBlock, withRegisterBlocks, hh, hl, hb, hlane, hr, ho]

end

/-- An operation that is no load takes its effect, and the next operation is to come. -/
theorem evalBlock_of_no_load {s : State} {o : BOp} {r : BlockRun} (ht : r.twin = none) (hl : r.eval.loadOf o r.next = none) :
    evalBlock o r s = .next (s.blockOn { r with eval := r.eval.op64 (Rm.ofCode s.rf.rmode.toNat) o r.next, next := r.next + 1 }) := by
  simp [evalBlock, hl, ht, BlockRun.agreeOn, check]

theorem commitBlock_of_not_one_exit {s : State} {r : BlockRun} (h : r.eval.exits.length ≠ 1) :
    commitBlock r s = trap s causeOperand := by
  unfold commitBlock withExit
  split
  · rename_i x hx
    simp [hx] at h
  · rfl

theorem commitBlock_of_bad_address {s : State} {r : BlockRun} {a : Word} (ht : r.twin = none) (h : r.eval.exits = [.address a])
    (ha : s.blockAt a = none) : commitBlock r s = trapWith s { cause := causeProtection, addr := a } := by
  simp [commitBlock, withExit, h, ht, ha, BlockRun.agreeOn, check]

/-- The register file that a block's commit leaves. -/
def BlockRun.commits (r : BlockRun) (f : RegFile) : RegFile := (f.putAll r.eval.regs).raise r.eval.flags

/-- The state that a block's commit leaves where the group is no twin, with the group at an address. -/
def State.afterCommit (s : State) (r : BlockRun) (pc : Word) : State :=
  (s.modScalar fun _ => { s.scalar with rf := r.commits s.rf, twin := none }).blockGo none pc

theorem State.grp_afterCommit {s : State} (hs : s.cur.stream = .group) (r : BlockRun) (pc : Word) :
    (s.afterCommit r pc).grp =
      { s.grp with block := none, sc := { s.grp.sc with rf := r.commits s.rf, twin := none, pc, nextIssue := s.pcc + 1 }, hold := none } := by
  rw [State.afterCommit, State.grp_blockGo (by simp [hs])]
  simp [State.modScalar, State.scalar, hs]

theorem State.scalar_afterCommit {s : State} (hs : s.cur.stream = .group) (r : BlockRun) (pc : Word) :
    (s.afterCommit r pc).scalar = { s.scalar with rf := r.commits s.rf, twin := none, pc, nextIssue := s.pcc + 1 } := by
  rw [State.scalar_of_group (s := s.afterCommit r pc) (by simp [State.afterCommit, hs]), State.grp_afterCommit hs,
    State.scalar_of_group hs]

theorem commitBlock_of_offset {s : State} {r : BlockRun} {n : Int} (ht : r.twin = none) (hs : s.scalar.twin = none)
    (h : r.eval.exits = [.offset n]) (hst : r.eval.stores.length ≤ r.stored) :
    commitBlock r s = .next (s.afterCommit r (s.scalar.pc + BitVec.ofInt 64 n)) := by
  simp only [commitBlock, withExit, h, ht, BlockRun.agreeOn, check, leaveBlock, List.getElem?_eq_none hst, Option.all_none, if_true]
  rw [State.modScalar_const, hs]
  rfl

/-- Settles O59: each kind of step is one equation for `runBlock`, and what the state it names keeps. -/
theorem blockSteps : Obligations.BlockSteps := by
  intro s hs hg hh hl htw pc runs traps
  have trapped (cause : Nat) (a : Word) (hi : cause ≠ causeIntegrity) (hseg : cause ≠ causeSegment) (hct : cause ≠ causeTwin)
      (hr : runBlock s = trapWith s { cause, addr := a }) : runs (traps cause) := by
    obtain ⟨mem, vregs, status, rf, hpc, x, hx, hc, hxp⟩ := State.raiseTrap_keeps (t := { cause, addr := a }) hs hg hi rfl hseg hct
    exact ⟨_, hr, mem, vregs, status, rf, hpc, x, hx, hc, hxp⟩
  have goesOn (q : BlockRun) (P : BlockRun → Prop) (hq : P q) (hr : runBlock s = .next (s.blockOn q)) :
      runs fun t => t.rf = s.rf ∧ t.scalar.pc = pc ∧ ∃ q, t.grp.block = some q ∧ P q := by
    obtain ⟨mem, vregs, rf, hpc, block⟩ := State.blockOn_keeps hs q
    exact ⟨_, hr, mem, vregs, rf, hpc, q, block, hq⟩
  refine ⟨fun hb => trapped _ 0 (by decide) (by decide) (by decide) (runBlock_of_no_block hh hl hb), fun b hb hlane =>
    ⟨fun hn hp => ?_, fun r hr ht => ⟨fun o ho hload => ?_, fun hlen => ⟨fun he => ?_, fun a he ha => ?_, fun n he hst hw hlt => ?_⟩⟩⟩⟩
  · refine goesOn (BlockRun.begin b s) (fun q => q.next = 0 ∧ q.eval = _) ⟨rfl, rfl⟩ ((runBlock_begin hh hl hb hlane hn).trans ?_)
    refine withReads_of_admits (g := true) (e := false) (c := false) (fields := []) ⟨.inl ⟨hs, rfl⟩, by simp, fun k hk => ?_⟩ _
    obtain ⟨x, hx, rfl⟩ := List.mem_map.1 hk
    exact ⟨hp x hx, by simp [htw]⟩
  · refine goesOn _ (fun q => q.next = r.next + 1 ∧ _) ⟨rfl, fun hf => ?_, ?_⟩
      ((runBlock_op hh hl hb hlane hr ho).trans (evalBlock_of_no_load ht hload))
    · exact Eval2.op64_of_not_fires hf
    · exact Eval2.op64_flags _ _ _ _
  · exact trapped _ 0 (by decide) (by decide) (by decide)
      ((runBlock_commit hh hl hb hlane hr hlen).trans (commitBlock_of_not_one_exit he))
  · exact trapped _ a (by decide) (by decide) (by decide)
      ((runBlock_commit hh hl hb hlane hr hlen).trans (commitBlock_of_bad_address ht he ha))
  · refine ⟨_, (runBlock_commit hh hl hb hlane hr hlen).trans (commitBlock_of_offset ht htw he hst), ?_⟩
    have grp := State.grp_afterCommit hs r (pc + BitVec.ofInt 64 n)
    have sc := State.scalar_afterCommit hs r (pc + BitVec.ofInt 64 n)
    have rf : (s.afterCommit r (pc + BitVec.ofInt 64 n)).rf = r.commits s.rf := congrArg Scalar.rf sc
    refine ⟨by simp [State.afterCommit], by rw [grp], fun k => ?_, ?_, by rw [sc], by rw [grp], by rw [sc]⟩
    · rw [rf]
      exact RegFile.get_putAll s.rf _ hw hlt k
    · rw [rf]
      simp [BlockRun.commits, RegFile.raise]

end Sys2Proof.Machine

/-! ## O21: LNS codes, and the vector forms that convert and multiply them (R14, R26, R30, R215-R217) -/

namespace Sys2Proof.Machine

/-! ### The values of codes -/

/-- The three formats of an LNS code (R13). -/
def LFmt.IsCode (L : LFmt) : Prop := L = .l16 ∨ L = .l8 ∨ L = .l4

theorem LFmt.isCode_ofCode (c : Nat) : (LFmt.ofCode c).IsCode := by
  unfold LFmt.ofCode
  split <;> simp [LFmt.IsCode]

/-- The log fields of a format are those that its bits below the sign hold. -/
theorem LFmt.IsCode.emax_succ {L : LFmt} (h : L.IsCode) : L.emax + 1 = 2 ^ (L.bits - 1) := by
  rcases h with rfl | rfl | rfl <;> rfl

theorem LFmt.IsCode.emax_pos {L : LFmt} (h : L.IsCode) : 1 ≤ L.emax := by
  rcases h with rfl | rfl | rfl <;> decide

theorem LFmt.IsCode.unit_pos {L : LFmt} (h : L.IsCode) : 0 < 256 / L.n := by
  rcases h with rfl | rfl | rfl <;> decide

/-- The code of a sign and a log field is their sum in place. -/
theorem LFmt.IsCode.code_eq {L : LFmt} (h : L.IsCode) (neg : Bool) {e : Nat} (he : e ≤ L.emax) :
    L.code neg e = (if neg then 2 ^ (L.bits - 1) else 0) + e := by
  have hlt : e < 2 ^ (L.bits - 1) := by have := h.emax_succ; omega
  simp [LFmt.code, pow2_eq, Nat.mod_eq_of_lt hlt]

theorem LFmt.IsCode.code_zero {L : LFmt} (h : L.IsCode) : L.code true 0 = 2 ^ (L.bits - 1) := by
  simp [h.code_eq true (Nat.zero_le _)]

/-- The integer that `nearestLog` gives is nearest to n × (log2 (m × 2^e) - sc/256), a tie going up: no half log unit below it is above
the logarithm, and the next half unit is (R26). -/
theorem nearestLog_bounds {n m : Nat} (e sc : Int) (hn : 0 < 256 / n) (hm : 0 < m) :
    let u : Nat := 256 / n
    let q := (2 * nearestLog n m e sc - 1) * u + 2 * sc - 512 * e
    2 ^ q.toNat ≤ m ^ 512 ∧ m ^ 512 < 2 ^ (q + 2 * u).toNat := by
  intro u q
  have hu : (0 : Int) < 2 * u := by omega
  have hfloor : nearestLog n m e sc * (2 * u) ≤ (Nat.log2 (m ^ 512) : Int) + 512 * e + u - 2 * sc := Int.ediv_mul_le _ hu.ne'
  have hnext : (Nat.log2 (m ^ 512) : Int) + 512 * e + u - 2 * sc < (nearestLog n m e sc + 1) * (2 * u) := Int.lt_ediv_add_one_mul_self _ hu
  have hq : q = nearestLog n m e sc * (2 * u) - u + 2 * sc - 512 * e := by ring
  have hq' : q + 2 * u = (nearestLog n m e sc + 1) * (2 * u) - u + 2 * sc - 512 * e := by ring
  have hpos : m ^ 512 ≠ 0 := (pow_pos hm 512).ne'
  constructor
  · exact (Nat.pow_le_pow_right (by decide) (by omega)).trans (Nat.log2_self_le hpos)
  · exact Nat.lt_log2_self.trans_le (Nat.pow_le_pow_right (by decide) (by omega))

/-- The code of a nonzero number, from its nearest logarithm (R26). -/
theorem LFmt.logCode_fin (L : LFmt) (neg : Bool) {m : Nat} (hm : 0 < m) (e sc : Int) (ufmin : Bool) :
    L.logCode (.fin neg m e) sc ufmin =
      if nearestLog L.n m e sc + L.bias > L.emax then ⟨L.code neg L.emax, 0, lsatOV⟩
      else if nearestLog L.n m e sc + L.bias < 1 then ⟨if ufmin then L.code neg 1 else 0, 0, lsatUF⟩
      else ⟨L.code neg (nearestLog L.n m e sc + L.bias).toNat, 0, 0⟩ := by
  simp [LFmt.logCode, hm.ne']

/-- The code and the LSAT bits of a sign and a sum of log units (R217). -/
def LFmt.ofUnits (L : LFmt) (neg : Bool) (u : Int) : Nat × Nat :=
  let e := (2 * u + L.unit) / (2 * (L.unit : Int)) + L.bias
  if e > L.emax then (L.code neg L.emax, lsatOV) else if e < 1 then (0, lsatUF) else (L.code neg e.toNat, 0)

theorem logDomain_of_nar {L : LFmt} {a : LVal} {b : Option LVal} (sigma : Int) (h : a = .nar ∨ b = some .nar) :
    logDomain L a b sigma = (L.code true 0, 0) := by
  rcases h with rfl | rfl
  · rfl
  · cases a <;> rfl

theorem logDomain_of_zero {L : LFmt} {a : LVal} {b : Option LVal} (sigma : Int) (ha : a ≠ .nar) (hb : b ≠ some .nar)
    (h : a = .zero ∨ b = some .zero) : logDomain L a b sigma = (0, 0) := by
  rcases h with rfl | rfl
  · match b with
    | none | some .zero | some (.real ..) => rfl
    | some .nar => exact absurd rfl hb
  · match a with
    | .zero | .real .. => rfl
    | .nar => exact absurd rfl ha

/-- What `L.ofUnits` gives, with the code written out: the greatest code past emax, zero below 1, else the nearest (R217). Further bits
of LSAT join those it raises. -/
theorem LFmt.IsCode.ofUnits_spec {L : LFmt} (h : L.IsCode) (neg : Bool) (w : Int) (mark : Nat) :
    let u : Nat := 256 / L.n
    let s := if neg then 2 ^ (L.bits - 1) else 0
    let e := (2 * w + u) / (2 * (u : Int)) + L.bias
    let r := ((L.ofUnits neg w).1, (L.ofUnits neg w).2 ||| mark)
    (L.emax < e → r = (s + L.emax, lsatOV ||| mark)) ∧ (e < 1 → r = (0, lsatUF ||| mark)) ∧
      (1 ≤ e → e ≤ L.emax → r = (s + e.toNat, mark)) := by
  intro u s e r
  have hmax := h.emax_pos
  have def_ : L.ofUnits neg w = if e > L.emax then (L.code neg L.emax, lsatOV) else if e < 1 then (0, lsatUF) else (L.code neg e.toNat, 0) := rfl
  simp only [r, def_]
  refine ⟨fun he => ?_, fun he => ?_, fun he he' => ?_⟩
  · rw [if_pos he, h.code_eq neg le_rfl]
  · rw [if_neg (by omega), if_pos he]
  · rw [if_neg (by omega), if_neg (by omega), h.code_eq neg (by omega), Nat.zero_or]

/-- One code of the log-domain forms: that of the operands' values, and FMTV where a marker is read (R217). -/
theorem logElement_eq (v : VEnv) (L : LFmt) (scale : Bool) (n : Nat) :
    let a := L.read (el L.bits v.a n)
    let b := L.read (el L.bits v.b n)
    let d := logDomain L a.1 (if scale then none else some b.1) (if scale then scaleAt v.b (L.bits * n / 32) else 0)
    logElement v L scale n = (d.1, d.2 ||| if a.2 || (!scale && b.2) then lsatFMTV else 0) := by
  cases scale <;> rfl

/-- The scale of a cell (R215). -/
theorem scaleAt_eq (b c : Nat) : scaleAt b c = scaleOf b c := by
  simp only [scaleAt, scaleOf, fld, pow2, show 32 * c + 15 + 1 - 32 * c = 16 by omega]

theorem LFmt.read_spec (L : LFmt) (c : Nat) :
    let neg := c.testBit (L.bits - 1)
    let e := c % 2 ^ (L.bits - 1)
    (e ≠ 0 → L.read c = (.real neg (((e : Int) - L.bias) * (256 / L.n : Nat)), false)) ∧ (e = 0 → neg = false → L.read c = (.zero, false)) ∧
    (e = 0 → neg = true → L.read c = if L.bits = 4 then (.zero, true) else (.nar, false)) := by
  intro neg e
  have def_ : L.read c = if e = 0 then if neg then (if L.bits = 4 then (.zero, true) else (.nar, false)) else (.zero, false)
      else (.real neg (((e : Int) - L.bias) * (256 / L.n : Nat)), false) := rfl
  rw [def_]
  refine ⟨fun he => if_neg he, fun he hn => ?_, fun he hn => ?_⟩ <;> simp [he, hn]

/-- The result of a log-domain form, by what its operands are (R217). -/
theorem logElement_spec {L : LFmt} (h : L.IsCode) (v : VEnv) (scale : Bool) (n : Nat) :
    let u : Nat := 256 / L.n
    let sign (neg : Bool) : Nat := if neg then 2 ^ (L.bits - 1) else 0
    let a := L.read (el L.bits v.a n)
    let b := L.read (el L.bits v.b n)
    let r := logElement v L scale n
    let mark := if a.2 = true ∨ scale = false ∧ b.2 = true then lsatFMTV else 0
    let nar := a.1 = .nar ∨ scale = false ∧ b.1 = .nar
    (nar → r = (2 ^ (L.bits - 1), mark)) ∧ (¬nar → a.1 = .zero ∨ scale = false ∧ b.1 = .zero → r = (0, mark)) ∧
    ∀ na ua nb ub, a.1 = .real na ua → (scale = false → b.1 = .real nb ub) →
      (scale = true → nb = false ∧ ub = scaleOf v.b (L.bits * n / 32)) →
      let e := (2 * (ua + ub) + u) / (2 * (u : Int)) + L.bias
      let s := sign (na != nb)
      (L.emax < e → r = (s + L.emax, lsatOV ||| mark)) ∧ (e < 1 → r = (0, lsatUF ||| mark)) ∧
      (1 ≤ e → e ≤ L.emax → r = (s + e.toNat, mark)) := by
  intro u sign a b r mark nar
  have hr : r = _ := logElement_eq v L scale n
  have hmark : (if a.2 || (!scale && b.2) then lsatFMTV else 0) = mark := by simp [mark]
  change r = ((logDomain L a.1 _ _).1, (logDomain L a.1 _ _).2 ||| ite _ _ _) at hr
  rw [hmark] at hr
  refine ⟨fun hn => ?_, fun hn hz => ?_, fun na ua nb ub ha hb hs => ?_⟩
  · have hnar : a.1 = .nar ∨ (if scale then none else some b.1) = some .nar := by cases scale <;> simpa [nar] using hn
    rw [hr, logDomain_of_nar _ hnar, h.code_zero, Nat.zero_or]
  · obtain ⟨ha, hb⟩ := not_or.1 hn
    have hbnar : (if scale then none else some b.1) ≠ some .nar := by cases scale <;> simp_all
    have hzero : a.1 = .zero ∨ (if scale then none else some b.1) = some .zero := by cases scale <;> simpa using hz
    rw [hr, logDomain_of_zero _ ha hbnar hzero, Nat.zero_or]
  · rw [hr, ha]
    cases scale
    · rw [hb rfl]
      exact h.ofUnits_spec (na ^^ nb) (ua + ub) mark
    · obtain ⟨rfl, rfl⟩ := hs rfl
      rw [← scaleAt_eq, Bool.bne_false]
      exact h.ofUnits_spec na (ua + scaleAt v.b (L.bits * n / 32)) mark

/-- The conversion of a number to a code (R26). -/
theorem LFmt.IsCode.logCode_spec {L : LFmt} (h : L.IsCode) (sc : Int) (ufmin : Bool) :
    let sign (neg : Bool) : Nat := if neg then 2 ^ (L.bits - 1) else 0
    let u : Nat := 256 / L.n
    (∀ q, L.logCode (.nan q) sc ufmin = if L.bits = 4 then ⟨0, flagNV, 0⟩ else ⟨sign true, if q then flagNV else 0, 0⟩) ∧
    (∀ neg, L.logCode (.inf neg) sc ufmin = ⟨sign neg + L.emax, 0, lsatOV⟩) ∧
    (∀ neg e, L.logCode (.fin neg 0 e) sc ufmin = ⟨0, 0, 0⟩) ∧
    ∀ (neg : Bool) (m : Nat) (e : Int), 0 < m → ∃ t : Int,
      (let q := (2 * t - 1) * u + 2 * sc - 512 * e
       2 ^ q.toNat ≤ m ^ 512 ∧ m ^ 512 < 2 ^ (q + 2 * u).toNat) ∧
      (L.emax < t + L.bias → L.logCode (.fin neg m e) sc ufmin = ⟨sign neg + L.emax, 0, lsatOV⟩) ∧
      (t + L.bias < 1 → L.logCode (.fin neg m e) sc ufmin = ⟨if ufmin then sign neg + 1 else 0, 0, lsatUF⟩) ∧
      (1 ≤ t + L.bias → t + L.bias ≤ L.emax → L.logCode (.fin neg m e) sc ufmin = ⟨sign neg + (t + L.bias).toNat, 0, 0⟩) := by
  intro sign u
  have hmax := h.emax_pos
  refine ⟨fun q => by simp [LFmt.logCode, h.code_zero, sign], fun neg => by simp [LFmt.logCode, h.code_eq neg le_rfl, sign],
    fun neg e => by simp [LFmt.logCode], fun neg m e hm => ⟨nearestLog L.n m e sc, nearestLog_bounds e sc h.unit_pos hm, ?_⟩⟩
  rw [L.logCode_fin neg hm]
  refine ⟨fun ht => ?_, fun ht => ?_, fun ht ht' => ?_⟩
  · rw [if_pos ht, h.code_eq neg le_rfl]
  · rw [if_neg (by omega), if_pos ht, h.code_eq neg hmax]
  · rw [if_neg (by omega), if_neg (by omega), h.code_eq neg (by omega)]

/-- LinOf (R16, R30): the significand and the exponent of a real number of log units that is not below 2^-4096. -/
theorem toLinear_real {neg : Bool} {w sc : Int} (D : Fmt) (rm : Rm) (h : -4096 ≤ (w + sc) / 256) :
    (LVal.real neg w).toLinear D rm sc = D.roundNZ rm neg (table16 ((w + sc) % 256).toNat) ((w + sc) / 256 - 23) := by
  simp only [LVal.toLinear, linOf, max_eq_left h]

theorem logValuesHold : LogValuesHold := fun L hL =>
  have h : L.IsCode := hL
  ⟨L.read_spec, h.logCode_spec, fun D rm _ _ _ => ⟨rfl, rfl, toLinear_real D rm⟩, logElement_spec h⟩

/-! ### Elements in places of their own -/

/-- A sum of numbers, each in a place of its own, is that of the places in order. -/
theorem sum_places (w : Nat) {l : List Nat} (hl : l.Nodup) (place back : Nat → Nat) (hb : ∀ x ∈ l, back (place x) = x) (r : Nat → Nat)
    {n : Nat} (hn : ∀ x ∈ l, place x < n) :
    (l.map fun x => r x * 2 ^ (w * place x)).sum = placed w (fun e => decide (e ∈ l.map place)) (fun e => r (back e)) n := by
  have places : (l.map fun x => r x * 2 ^ (w * place x)) = (l.map place).map fun e => r (back e) * 2 ^ (w * e) := by
    rw [List.map_map]
    exact List.map_congr_left fun x hx => by simp [hb x hx]
  have nodup : (l.map place).Nodup := hl.map_on fun x hx y hy h => by rw [← hb x hx, ← hb y hy, h]
  have perm : (l.map place).Perm ((List.range n).filter fun e => decide (e ∈ l.map place)) := by
    refine (List.perm_ext_iff_of_nodup nodup (List.nodup_range.filter _)).2 fun e => ?_
    simp only [List.mem_filter, List.mem_range, decide_eq_true_eq, iff_and_self]
    intro he
    obtain ⟨x, hx, rfl⟩ := List.mem_map.1 he
    exact hn x hx
  rw [places]
  exact (perm.map _).sum_eq

/-- The elements of a conversion: place p of w bits takes the code of a source x, for the x of a list. -/
def codeEls (w : Nat) (place : Nat → Nat) (res : Nat → LRes) (l : List Nat) : List VEl :=
  l.map fun x => { at_ := w * place x, w, v := (res x).code, fl := (res x).flags, ls := (res x).lsat }

/-- What the elements of a conversion write and raise (R215). -/
theorem codesAt_gather {w : Nat} (hw : w = 8 ∨ w = 16) {l : List Nat} (hl : l.Nodup) (place back : Nat → Nat)
    (hb : ∀ x ∈ l, back (place x) = x) (hn : ∀ x ∈ l, place x < elCount w) (res : Nat → LRes) {on : Nat → Prop} (hon : ∀ x, on x ↔ x ∈ l) :
    CodesAt w (VOut.gather (codeEls w place res l)) on place res := by
  obtain ⟨value, mask, flags, lsat, -⟩ := VOut.gather_spec (codeEls w place res l)
  have hlt (e : Nat) : (res (back e)).code % 2 ^ w < 2 ^ w := Nat.mod_lt _ (Nat.two_pow_pos w)
  have hw8 : w / 8 * elCount w = 1024 := by rcases hw with rfl | rfl <;> rfl
  rw [codeEls, List.map_map] at value mask
  rw [codeEls, List.foldl_map] at flags lsat
  have hv := value.trans (sum_places w hl place back hb (fun x => (res x).code % 2 ^ w) hn)
  have bytes (x : Nat) : w * place x / 8 = w / 8 * place x := by rcases hw with rfl | rfl <;> omega
  simp only [Function.comp_def, bytes] at mask
  have hm := mask.trans (sum_places (w / 8) hl place back hb (fun _ => 2 ^ (w / 8) - 1) hn)
  refine ⟨fun x hx => ?_, fun b hb' => ?_, fun k => ?_, fun k => ?_⟩
  · have hx := (hon x).1 hx
    rw [codeEls, el_eq _ _ _ (by omega), hv, placed_get w _ _ hlt _ _ (hn x hx), if_pos (decide_eq_true (List.mem_map_of_mem hx)), hb x hx]
  · rw [codeEls, hm, placed_testBit _ (by omega) _ _ _ (by omega)]
    simp [hon, eq_comm]
  · rw [codeEls, flags, testBit_foldl_or]
    simp [hon]
  · rw [codeEls, lsat, testBit_foldl_or]
    simp [hon]

/-! ### Conversions to codes (R215) -/

section
variable (v : VEnv) (f : BitVec 2) (ufmin : Bool)

/-- The cells whose codes a conversion to L16 or L8 writes. -/
def lnsCells (w : Nat) : List Nat :=
  (List.range 256).filter fun c => v.sh.inside (4 * c) && v.guard.testBit (w * (c / 16 * (512 / w) + c % 16) / 8)

/-- The bytes that a conversion to a 4-bit format writes. -/
def lnsBytes : List Nat := (List.range 128).filter fun n => v.sh.inside (4 * (n / 8 * 16 + n % 8 * 2)) && v.guard.testBit (n / 8 * 64 + n % 8)

/-- The pair of codes in a byte of a 4-bit format. -/
def lnsPair (n : Nat) : LRes :=
  let c := n / 8 * 16 + n % 8 * 2
  let x := cellValue v.a c
  let y := if v.sh.inside (4 * (c + 1)) then cellValue v.a (c + 1) else .fin false 0 0
  if f = 3 then logCode4x x y (scaleAt v.b c) ufmin
  else
    let p := LFmt.l4.logCode x (scaleAt v.b c) ufmin
    let q := LFmt.l4.logCode y (scaleAt v.b (c + 1)) ufmin
    ⟨p.code + 16 * q.code, p.flags ||| q.flags, p.lsat ||| q.lsat⟩

theorem lnsOut_of_wide (h : (LFmt.ofCode f.toNat).bits ≠ 4) :
    let L := LFmt.ofCode f.toNat
    let l := lnsCells v L.bits
    lnsOut v f ufmin =
      { VOut.gather (codeEls L.bits (fun c => c / 16 * (512 / L.bits) + c % 16) (fun c => L.logCode (cellValue v.a c) (scaleAt v.b c) ufmin) l) with
        useA := bytesOf 32 l, useB := bytesOf 32 l
        amax := ((l.map (cellValue v.a)).foldl maxMag none).map fun m => BitVec.ofNat 64 (Fmt.f64.roundV .rne m).bits } := by
  simp only [lnsOut, if_neg h]
  rfl

theorem lnsOut_of_nibbles (h : (LFmt.ofCode f.toNat).bits = 4) :
    ∃ used amax, lnsOut v f ufmin =
      { VOut.gather (codeEls 8 (fun n => n / 8 * 64 + n % 8) (lnsPair v f ufmin) (lnsBytes v)) with useA := used, useB := used, amax } := by
  simp only [lnsOut, if_pos h]
  exact ⟨_, _, rfl⟩

theorem lnsOut_ret : (lnsOut v f ufmin).ret = none := by
  obtain ⟨-, -, -, -, -, -, ret⟩ := VOut.gather_spec _
  exact ret

theorem LFmt.bits_of_wide {c : Nat} (h : (LFmt.ofCode c).bits ≠ 4) : (LFmt.ofCode c).bits = 8 ∨ (LFmt.ofCode c).bits = 16 := by
  obtain hL | hL | hL := LFmt.isCode_ofCode c <;> rw [hL] at h ⊢
  · exact .inr rfl
  · exact .inl rfl
  · exact absurd rfl h

/-- A conversion to codes (R215): the cells or pairs of cells of the tile have places of their own. -/
theorem lnsOut_converts : LnsConverts v f ufmin (lnsOut v f ufmin) := by
  unfold LnsConverts
  refine ⟨lnsOut_ret v f ufmin, fun h => ?_, fun h => ?_⟩
  · rw [lnsOut_of_wide v f ufmin h]
    have hw := LFmt.bits_of_wide h
    simp only [← scaleAt_eq]
    generalize LFmt.ofCode f.toNat = L at hw
    refine ⟨codesAt_gather hw (List.nodup_range.filter _) _ (fun e => e / (512 / L.bits) * 16 + e % (512 / L.bits)) (fun c _ => ?_)
      (fun c hc => ?_) _ fun c => ?_, rfl⟩
    · rcases hw with hw | hw <;> rw [hw] <;> omega
    · have hc : c < 256 := List.mem_range.1 (List.mem_of_mem_filter hc)
      rcases hw with hw | hw <;> rw [hw, elCount] <;> omega
    · simp
  · obtain ⟨used, amax, ho⟩ := lnsOut_of_nibbles v f ufmin h
    rw [ho]
    simp only [← scaleAt_eq]
    refine codesAt_gather (.inl rfl) (List.nodup_range.filter _) _ (fun e => e / 64 * 8 + e % 64) (fun n _ => ?_) (fun n hn => ?_)
      (lnsPair v f ufmin) fun n => ?_
    · omega
    · have hn : n < 128 := List.mem_range.1 (List.mem_of_mem_filter hn)
      rw [elCount]
      omega
    · simp

end

/-! ### Codes to numbers, and products (R216, R217) -/

/-- Which source bytes a form uses is no matter of its result's elements (R192). -/
theorem ElementwiseL.with_uses {w : Nat} {v : VEnv} {o : VOut} {res : Nat → Nat × Nat × Nat} (h : ElementwiseL w v o res) (a b d : Nat) :
    ElementwiseL w v { o with useA := a, useB := b, useD := d } res := h

/-- A conversion of codes to linear elements (R216). -/
theorem linearOut_converts (v : VEnv) (f : BitVec 2) (D : Fmt) (hD : D.width = 32 ∨ D.width = 64) (scaled : Bool) :
    LinearConverts v f D scaled (linearOut v f D scaled) := by
  unfold LinearConverts
  simp only [← scaleAt_eq]
  exact (VEnv.map_elementwise v D.width (by omega) _).with_uses _ _ _

/-- The code or the pair of codes of a log-domain form, with its LSAT bits (R217). -/
def logPair (v : VEnv) (L : LFmt) (scale : Bool) (n : Nat) : Nat × Nat × Nat :=
  if L.bits = 4 then
    ((logElement v L scale (2 * n)).1 + 16 * (logElement v L scale (2 * n + 1)).1, 0,
      (logElement v L scale (2 * n)).2 ||| (logElement v L scale (2 * n + 1)).2)
  else ((logElement v L scale n).1, 0, (logElement v L scale n).2)

/-- The result of a product or a scaling of codes (R217). -/
def logOut (v : VEnv) (L : LFmt) (scale : Bool) : VOut :=
  let o := v.map (if L.bits = 4 then 8 else L.bits) (logPair v L scale)
  if scale then { o with useB := bytesOfCells (cellsOf o.mask) } else o

theorem logPair_of_wide (v : VEnv) {L : LFmt} (h : L.bits ≠ 4) (scale : Bool) :
    logPair v L scale = fun e => ((logElement v L scale e).1, 0, (logElement v L scale e).2) := funext fun _ => if_neg h

theorem logPair_of_nibbles (v : VEnv) {L : LFmt} (h : L.bits = 4) (scale : Bool) :
    logPair v L scale = fun n =>
      ((logElement v L scale (2 * n)).1 + 16 * (logElement v L scale (2 * n + 1)).1, 0,
        (logElement v L scale (2 * n)).2 ||| (logElement v L scale (2 * n + 1)).2) := funext fun _ => if_pos h

theorem logOut_elementwise (v : VEnv) {L : LFmt} (h : L.IsCode) (scale : Bool) :
    ElementwiseL (if L.bits = 4 then 8 else L.bits) v (logOut v L scale) (logPair v L scale) := by
  have hw : (if L.bits = 4 then 8 else L.bits) = 8 ∨ (if L.bits = 4 then 8 else L.bits) = 16 := by rcases h with rfl | rfl | rfl <;> decide
  have map := v.map_elementwise (if L.bits = 4 then 8 else L.bits) (by omega) (logPair v L scale)
  cases scale
  · exact map
  · exact map.with_uses _ _ _

theorem vlogForm_eq (d a b : BitVec 6) (f : BitVec 2) (k : BitVec 1) (g : BitVec 4) (scale : Bool) (s : State) :
    vlogForm d a b f k g scale s = vForm (vr2 d a b k g false (timeConv false)) s fun v => logOut v (LFmt.ofCode f.toNat) scale := by
  unfold vlogForm logOut logPair
  by_cases h : (LFmt.ofCode f.toNat).bits = 4
  · simp only [h, if_true]
  · simp only [h, if_false]

/-! ### The forms -/

/-- A form whose LNS format the mode has goes on to its operands (R384). -/
theorem withLns_of_has {f : BitVec 2} {s : State} (hs : s.cur.stream = .vector) (h : s.here.job.compat = false ∨ f ≠ 3) (k : Out) :
    withLns f s k = k := by
  rw [withLns, onVector, check_of_true _ _ _ _ (by simp [hs]), check_of_true _ _ _ _ (by simpa using h)]

/-- Format .l4x is an illegal encoding in compatibility mode (R384). -/
theorem withLns_of_lacks {f : BitVec 2} {s : State} (hs : s.cur.stream = .vector) (hc : s.here.job.compat = true) (hf : f = 3) (k : Out) :
    withLns f s k = .next (s.raiseTrap { cause := 0x01 }) := by
  rw [withLns, onVector, check_of_true _ _ _ _ (by simp [hs]), check_of_false _ _ _ _ (by simp [hc, hf])]
  rfl

/-- A conversion form, where the mode has its format. -/
theorem vectorFormIf_withLns {i : Instr} {F : VForm} {f : BitVec 2} {out : VEnv → VOut} {P : VEnv → VOut → Prop}
    (hi : ∀ s, exec i s = withLns f s (vForm F s out)) (hP : ∀ v, P v (out v)) :
    VectorFormIf (fun s => s.here.job.compat = false ∨ f ≠ 3) i F fun _ => P :=
  vectorForm_of i F (fun _ => out) _ _ (fun s h hr => (hi s).trans (withLns_of_has hr.1 h _)) fun _ v _ _ => hP v

/-- A form in every state. -/
theorem vectorForm_of_exec {i : Instr} {F : VForm} {out : VEnv → VOut} {P : VEnv → VOut → Prop} (hi : ∀ s, exec i s = vForm F s out)
    (hP : ∀ v, P v (out v)) : VectorForm i F P :=
  vectorForm_of i F (fun _ => out) _ _ (fun s _ _ => hi s) fun _ v _ _ => hP v

/-- A product or a scaling of codes writes and raises what its codes or pairs of codes do. -/
theorem vectorForm_vlog {i : Instr} {d a b : BitVec 6} {f : BitVec 2} {k : BitVec 1} {g : BitVec 4} (scale : Bool)
    (hi : ∀ s, exec i s = vlogForm d a b f k g scale s) :
    let L := LFmt.ofCode f.toNat
    VectorForm i { d := some d, a := some a, b := some b, keep := some k, guard := g, time := ⟨.cx, .quarter, 5⟩ } fun v o =>
      ElementwiseL (if L.bits = 4 then 8 else L.bits) v o (logPair v L scale) :=
  vectorForm_of_exec (fun s => (hi s).trans (vlogForm_eq ..)) fun v => logOut_elementwise v (LFmt.isCode_ofCode _) scale

/-- Settles O21: the values of codes, and each form's result element by element. -/
theorem vectorLogForms : Obligations.VectorLogForms := by
  refine ⟨logValuesHold, fun d a b f k g => ⟨?_, ?_, ?_, ?_, fun h => ⟨?_, ?_⟩, fun h => ⟨?_, ?_⟩, fun s hc hf hs => ⟨?_, ?_⟩⟩⟩
  · exact vectorFormIf_withLns (fun _ => rfl) fun v => lnsOut_converts v f false
  · exact vectorFormIf_withLns (fun _ => rfl) fun v => lnsOut_converts v f true
  · exact vectorFormIf_withLns (fun _ => rfl) fun v => linearOut_converts v f .f32 (.inl rfl) true
  · exact vectorFormIf_withLns (fun _ => rfl) fun v => linearOut_converts v f .f64 (.inr rfl) false
  · simpa only [if_neg h, logPair_of_wide _ h] using vectorForm_vlog (i := .vlmul d a b f k g) false fun _ => rfl
  · simpa only [if_neg h, logPair_of_wide _ h] using vectorForm_vlog (i := .vlscl d a b f k g) true fun _ => rfl
  · simpa only [if_pos h, logPair_of_nibbles _ h] using vectorForm_vlog (i := .vlmul d a b f k g) false fun _ => rfl
  · simpa only [if_pos h, logPair_of_nibbles _ h] using vectorForm_vlog (i := .vlscl d a b f k g) true fun _ => rfl
  · exact withLns_of_lacks hs hc hf _
  · exact withLns_of_lacks hs hc hf _

end Sys2Proof.Machine

/-! ## O38: the matrix words but MMA, and the array's work of a cycle -/

namespace Sys2Proof.Machine

/-! ### What the issue of a matrix word leaves alone -/

/-- Two states differ at most in what the issue of a matrix word may change of the step's core. -/
def MatrixOnly (s t : State) : Prop := t.cur = s.cur ∧ t.pcc = s.pcc ∧ MatrixKept s t

theorem MatrixOnly.refl (s : State) : MatrixOnly s s :=
  ⟨rfl, rfl, rfl, rfl, rfl, rfl, rfl, rfl, fun _ _ => rfl, fun _ => rfl⟩

theorem MatrixOnly.trans {s t u : State} (h : MatrixOnly s t) (g : MatrixOnly t u) : MatrixOnly s u := by
  obtain ⟨cur, pcc, groups, spm, chans, eft, j, acc, cores, mem⟩ := h
  obtain ⟨cur', pcc', groups', spm', chans', eft', j', acc', cores', mem'⟩ := g
  exact ⟨cur'.trans cur, pcc'.trans pcc, groups'.trans groups, spm'.trans spm, chans'.trans chans, eft'.trans eft, j'.trans j, acc'.trans acc,
    fun k hk => (cores' k (by rwa [cur])).trans (cores k hk), fun k => (mem' k).trans (mem k)⟩

/-- A change of the step's core that keeps what a matrix word leaves alone. -/
theorem MatrixOnly.modHere (s : State) (f : Core → Core)
    (h : ∀ c, (f c).groups = c.groups ∧ (f c).spm = c.spm ∧ (f c).chans = c.chans ∧ (f c).eft = c.eft ∧ (f c).j = c.j ∧
      (f c).matrix.acc = c.matrix.acc) : MatrixOnly s (s.modHere f) := by
  obtain ⟨groups, spm, chans, eft, j, acc⟩ := h s.here
  refine ⟨rfl, rfl, ?_, ?_, ?_, ?_, ?_, ?_, fun k hk => State.core_modCore_other _ _ _ _ hk, fun k => rfl⟩ <;> rwa [State.here_modHere]

theorem MatrixOnly.modMx (s : State) (f : Matrix → Matrix) (h : ∀ m, (f m).acc = m.acc) : MatrixOnly s (s.modMx f) :=
  .modHere s _ fun c => ⟨rfl, rfl, rfl, rfl, rfl, h c.matrix⟩

theorem MatrixOnly.modTd (s : State) (f : Treadle → Treadle) : MatrixOnly s (s.modTd f) :=
  .modHere s _ fun _ => ⟨rfl, rfl, rfl, rfl, rfl, rfl⟩

@[simp] theorem State.cur_modMx (s : State) (f : Matrix → Matrix) : (s.modMx f).cur = s.cur := rfl
@[simp] theorem State.pcc_modMx (s : State) (f : Matrix → Matrix) : (s.modMx f).pcc = s.pcc := rfl

@[simp] theorem State.here_modMx (s : State) (f : Matrix → Matrix) : (s.modMx f).here = { s.here with matrix := f s.here.matrix } := by
  simp [State.modMx]

@[simp] theorem State.here_modTd (s : State) (f : Treadle → Treadle) : (s.modTd f).here = { s.here with treadle := f s.here.treadle } := by
  simp [State.modTd]

/-! ### The words of the stream -/

/-- A change of the step's core that keeps its job and its memory side changes no word that a stream fetches. -/
theorem State.wordAt_modHere (s : State) (f : Core → Core) (hm : (f s.here).mem = s.here.mem) (hj : (f s.here).job = s.here.job) (a : Word) :
    (s.modHere f).wordAt a = s.wordAt a := by
  have mem (k : Nat) : ((s.modHere f).core k).mem = (s.core k).mem := by
    by_cases hk : k = s.cur.core
    · rw [hk]
      exact (congrArg Core.mem (State.here_modHere s f)).trans hm
    · rw [State.modHere, State.core_modCore_other _ _ _ _ hk]
  have ctx : (s.modHere f).curCtx = s.curCtx := by
    have : (s.modHere f).here.job = s.here.job := (congrArg Core.job (State.here_modHere s f)).trans hj
    simp only [State.curCtx, this]
    rfl
  have lookup (k c v : Nat) : (s.modHere f).lookup k c v = s.lookup k c v := by rw [State.lookup, State.lookup, mem]
  have fetch (k c : Nat) : (s.modHere f).fetch k c a = s.fetch k c a := by
    rw [State.fetch, State.fetch, lookup, mem]
    rfl
  rw [State.wordAt, State.wordAt, ctx, fetch]
  rfl

theorem State.wordAt_modMx (s : State) (f : Matrix → Matrix) (a : Word) : (s.modMx f).wordAt a = s.wordAt a :=
  s.wordAt_modHere _ rfl rfl a

/-! ### The issue of a word -/

/-- The matrix stream as a word that issues live leaves it (R111, R114, R243). -/
def State.mNext (s : State) (R : Retained) (step : Nat) (taken : Bool) (m : Matrix) : Matrix :=
  let c : WCmd := { cmd := s.mx.cmds, word := s.mWord, pc := s.curPc, issued := s.pcc, fw := R.fw, apkts := R.apkts, spkts := R.spkts, pushed := 0,
                     popped := 0, missed := s.here.treadle.missed }
  { m with
    cmds := m.cmds + 1
    fq := if R.fw.isSome then m.fq.drop 1 else m.fq
    nextIssue := s.pcc + 1
    t0 := if m.run.any (·.started) then m.t0 + m.stoodFor (isStamped s.mWord) s.pcc else s.pcc
    window := if R.marks then some (({ cmds := [], bytes := 0, overflow := false, replayed := false, opened := [], unopened := [] } : Window).add c R)
      else m.window.map fun w => w.add c R
    run := m.run.map fun q =>
      { q with pc := q.pc + BitVec.ofNat 64 step, started := true, seg := if taken then q.seg.map (·.take s.mWord) else q.seg, ea := none,
               pathHeld := false, resumed := none } }

theorem State.mAdvance_of_live {s : State} (h : s.mx.replay = none) (R : Retained) (step : Nat) (taken : Bool) :
    s.mAdvance R step taken = s.modMx (s.mNext R step taken) := by
  unfold State.mAdvance
  dsimp only
  rw [h]
  rfl

theorem Matrix.replaying_of_live {m : Matrix} (h : m.replay = none) : m.replaying = none := by simp [Matrix.replaying, h]

theorem mIssue_of_open {s : State} (hr : s.mx.replay = none) (hw : s.mx.wrapCloses = false) (R : Retained) (step : Nat) (f : State → State) :
    mIssue R false step s f = .next ((f s).mAdvance R step true) := by
  simp only [mIssue, Matrix.replaying_of_live hr, hw]
  cases s.mx.run.bind (·.seg) <;> rfl

/-- Of the stream's run, the effect of a word may at most have noted an address. -/
def IssuesFrom (s : State) (r : MRun) (v : State) : Prop :=
  MatrixOnly s v ∧ (∀ a, v.wordAt a = s.wordAt a) ∧ v.mx.cmds = s.mx.cmds ∧ v.mx.replay = none ∧ ∃ ea, v.mx.run = some { r with ea }

theorem State.mWord_of_live {s : State} {r : MRun} (hs : s.cur.stream = .matrix) (hrun : s.mx.run = some r) (hreplay : s.mx.replay = none) :
    s.mWord = s.wordAt r.pc := by
  have hpc : s.curPc = r.pc := by
    rw [State.curPc, hs]
    exact congrArg (fun q : Option MRun => (q.map (·.pc)).getD 0) hrun
  rw [State.mWord, Matrix.replaying_of_live hreplay, hpc]

/-- A further effect on the matrix stream, which leaves the run, the commands and the accumulator. -/
theorem IssuesFrom.modMx {s v : State} {r : MRun} (h : IssuesFrom s r v) {g : Matrix → Matrix}
    (hg : ∀ m, (g m).acc = m.acc ∧ (g m).cmds = m.cmds ∧ (g m).replay = m.replay ∧ (g m).run = m.run) : IssuesFrom s r (v.modMx g) := by
  obtain ⟨only, words, hcmds, hreplay, ea, hrun⟩ := h
  obtain ⟨-, cmds, replay, run⟩ := hg v.here.matrix
  refine ⟨only.trans (.modMx v g fun m => (hg m).1), fun a => (v.wordAt_modMx g a).trans (words a), ?_, ?_, ea, ?_⟩ <;>
    rw [State.mx, State.here_modMx]
  · exact cmds.trans hcmds
  · exact replay.trans hreplay
  · exact run.trans hrun

/-- A further effect on the ports and the range checker. -/
theorem IssuesFrom.modPorts {s v : State} {r : MRun} (h : IssuesFrom s r v) {f : Core → Core}
    (hf : ∀ c, f c = { c with ports := (f c).ports, rc := (f c).rc }) : IssuesFrom s r (v.modHere f) := by
  obtain ⟨only, words, hcmds, hreplay, ea, hrun⟩ := h
  have hmx : (v.modHere f).mx = v.mx := by rw [State.mx, State.here_modHere, hf]; rfl
  refine ⟨only.trans (.modHere v f fun c => ?_), fun a => (v.wordAt_modHere f ?_ ?_ a).trans (words a), ?_, ?_, ea, ?_⟩
  · rw [hf]; exact ⟨rfl, rfl, rfl, rfl, rfl, rfl⟩
  · rw [hf]
  · rw [hf]
  all_goals rwa [hmx]

/-- The stream that a word's effect leaves goes on behind the word. -/
theorem matrixIssued_of_from {s v : State} {r : MRun} (live : MatrixLive s r) (h : IssuesFrom s r v) (R : Retained) :
    MatrixIssued s (v.modMx (v.mNext R 4 true)) r 4 := by
  obtain ⟨only, words, hcmds, hreplay, ea, hrun⟩ := h
  obtain ⟨-, hpcc, kept⟩ := only.trans (MatrixOnly.modMx v (v.mNext R 4 true) fun _ => rfl)
  have word : v.mWord = s.wordAt r.pc := by
    rw [State.mWord_of_live (by rw [only.1]; exact live.1) hrun hreplay, words]
  have matrix : (v.modMx (v.mNext R 4 true)).here.matrix = v.mNext R 4 true v.mx := congrArg Core.matrix (State.here_modMx _ _)
  refine ⟨kept, ?_, ?_, ?_⟩ <;> rw [matrix]
  · exact congrArg (· + 1) hpcc
  · exact congrArg (· + 1) hcmds
  · simp [State.mNext, hrun, word]

/-- A word whose effect has been found issues, and of the matrix stream holds what the effect and the advance leave. -/
theorem completes_of_from {i : Instr} {s v : State} {r : MRun} {R : Retained} {P : State → Prop} (live : MatrixLive s r)
    (hi : exec i s = .next (v.mAdvance R 4 true)) (h : IssuesFrom s r v) (hP : ∀ u, u.here.matrix = v.mNext R 4 true v.mx → P u) :
    Completes i s fun u => MatrixIssued s u r 4 ∧ P u := by
  have hreplay : v.mx.replay = none := h.2.2.2.1
  refine ⟨_, hi.trans (congrArg _ (State.mAdvance_of_live hreplay R 4 true)), matrixIssued_of_from live h R, hP _ ?_⟩
  exact congrArg Core.matrix (State.here_modMx _ _)

section
variable {s : State} {r : MRun} (live : MatrixLive s r)
include live

theorem run_of_live : s.here.matrix.run = some r := live.2.1
theorem replay_of_live : s.here.matrix.replay = none := live.2.2.1

theorem issuesFrom_refl : IssuesFrom s r s := ⟨.refl s, fun _ => rfl, rfl, replay_of_live live, r.ea, run_of_live live⟩

theorem onMatrix_of_live (k : Out) : onMatrix s k = k := by
  obtain ⟨hs, hrun, hreplay, hfirst, -⟩ := live
  rw [onMatrix, check_of_true _ _ _ _ (by simp [hs, hrun]), check_of_true]
  simpa [hrun, Matrix.replaying_of_live hreplay, or_iff_not_imp_left] using hfirst

theorem mIssue_of_live (R : Retained) (f : State → State) : mIssue R false 4 s f = .next ((f s).mAdvance R 4 true) :=
  mIssue_of_open (replay_of_live live) live.2.2.2.2 R 4 f

theorem exposed_of_live : s.mx.exposed = r.exposed := by simp [Matrix.exposed, State.mx, (run_of_live live)]
theorem treadleRun_of_live : s.mx.treadleRun = r.treadle := by simp [Matrix.treadleRun, State.mx, (run_of_live live)]
theorem replaying_of_live : s.mx.replaying = none := Matrix.replaying_of_live (replay_of_live live)
theorem number_of_live : s.mx.number = s.mx.cmds := by simp [Matrix.number, (replaying_of_live live)]

theorem withFq_of_live {fw : Word} (h : FormatReady s fw) (reserved : Out) (k : Word → Out) : withFq s reserved k = k fw := by
  obtain ⟨e, l, hfq, hfill, rfl⟩ := h
  simp [withFq, (replaying_of_live live), hfq, hfill]

/-- A word that has an effect on the matrix stream alone. -/
theorem completes_modMx {i : Instr} {R : Retained} {g : Matrix → Matrix} {P : State → Prop}
    (hi : exec i s = mIssue R false 4 s fun s => s.modMx g)
    (h : ∀ m, (g m).acc = m.acc ∧ (g m).cmds = m.cmds ∧ (g m).replay = m.replay ∧ (g m).run = m.run)
    (hP : ∀ u, u.here.matrix = (s.modMx g).mNext R 4 true (g s.here.matrix) → P u) : Completes i s fun u => MatrixIssued s u r 4 ∧ P u :=
  completes_of_from live (hi.trans (mIssue_of_live live R _)) ((issuesFrom_refl live).modMx h) fun u hu => hP u (by rw [hu]; simp [State.mx])

end

/-! ### Range entries (R116, R117) -/

/-- An entry of the range checker is made alike whatever the matrix stream holds. -/
theorem Core.enter_of_matrix (c : Core) (m : Matrix) (w : Bool) (ea len cmd now : Nat) :
    ({ c with matrix := m } : Core).enter w ea len cmd now = (c.enter w ea len cmd now).map fun d => { d with matrix := m } := by
  unfold Core.enter
  dsimp only
  split_ifs <;> rfl

theorem Core.enter_some {c d : Core} {w : Bool} {ea len cmd now : Nat} (h : c.enter w ea len cmd now = some d) : d = { c with rc := d.rc } := by
  unfold Core.enter at h
  split_ifs at h <;> cases h <;> rfl

/-- The stream whose word keeps the address that it has read. -/
def Matrix.withAddress (m : Matrix) (ea : Word) : Matrix := { m with run := m.run.map fun q => { q with ea := some ea } }

/-- The state in which a scratchpad command goes on: its address is kept, and its entry is made. -/
def State.entered (s : State) (ea : Word) (rc : List RcEntry) : State :=
  (s.modMx (·.withAddress ea)).modHere fun c => { c with rc }

@[simp] theorem State.here_entered (s : State) (ea : Word) (rc : List RcEntry) :
    (s.entered ea rc).here = { s.here with rc, matrix := s.here.matrix.withAddress ea } := by
  simp [State.entered]

@[simp] theorem State.pcc_entered (s : State) (ea : Word) (rc : List RcEntry) : (s.entered ea rc).pcc = s.pcc := rfl

section
variable {s : State} {r : MRun} (live : MatrixLive s r)
include live

theorem matrixLive_entered (ea : Word) (rc : List RcEntry) : MatrixLive (s.entered ea rc) { r with ea := some ea } := by
  have hrun := run_of_live live
  obtain ⟨hs, -, hreplay, hfirst, hw⟩ := live
  refine ⟨hs, by simp [State.mx, Matrix.withAddress, hrun], by simpa [State.mx, Matrix.withAddress] using hreplay, hfirst, ?_⟩
  simpa [Matrix.wrapCloses, Matrix.withAddress, State.mx, hrun] using hw

/-- A scratchpad command whose address, entry and path are there goes on. -/
theorem withRange_of_live {ea : Word} {w : Bool} {len free : Nat} {c : Core} (ha : ea.toNat % 16 = 0)
    (hc : s.here.enter w ea.toNat len s.here.matrix.cmds s.pcc = some c) (hb : c.rangeBlocked 0 s.here.matrix.cmds = false)
    (hfree : free ≤ s.pcc) (hheld : s.heldOver = false) (k : State → Out) :
    withRange ea w len free s k = k (s.entered ea c.rc) := by
  have hkeep : s.keepAddress ea = s.modMx (·.withAddress ea) := by
    rw [State.keepAddress, replaying_of_live live]
    rfl
  have hnumber : (s.modMx (·.withAddress ea)).mx.number = s.here.matrix.cmds := by
    have h := number_of_live live
    simpa [State.mx, Matrix.withAddress, Matrix.number, Matrix.replaying] using h
  have hheld' : (s.modMx (·.withAddress ea)).heldOver = false := by
    rw [← hheld]
    simp only [State.heldOver, State.slotStart, State.mx, State.here_modMx, Matrix.withAddress, run_of_live live]
    rfl
  rw [withRange, if_neg (by simpa using ha), hkeep]
  dsimp only
  rw [hnumber, State.here_modMx, Core.enter_of_matrix, State.pcc_modMx, hc]
  have hset : (s.modMx (·.withAddress ea)).setCore s.cur.core { c with matrix := s.here.matrix.withAddress ea } = s.entered ea c.rc := by
    have hhere : (s.modMx (·.withAddress ea)).core s.cur.core = { s.here with matrix := s.here.matrix.withAddress ea } := State.here_modMx _ _
    rw [State.entered, State.modHere, State.modCore, State.cur_modMx, hhere, Core.enter_some hc]
  have hblocked : ({ c with matrix := s.here.matrix.withAddress ea } : Core).rangeBlocked 0 s.here.matrix.cmds = false := hb
  have hopen : ¬ s.pcc < free := by omega
  show (if _ then _ else _) = _
  rw [hblocked, hheld', decide_eq_false hopen]
  exact congrArg k hset

end

/-! ### The commands (R234, R235, R239, R241, R243) -/

section
variable {s : State} {r : MRun} (live : MatrixLive s r)
include live

theorem completes_mnop : Completes .mnop s fun u => MatrixIssued s u r 4 ∧
    (u.here.matrix.act = s.here.matrix.act ∧ u.here.matrix.rows = s.here.matrix.rows ∧ u.here.matrix.mflags = s.here.matrix.mflags) := by
  have hi : exec .mnop s = .next (s.mAdvance {} 4 true) := (onMatrix_of_live live _).trans (mIssue_of_live live {} id)
  refine completes_of_from live hi (issuesFrom_refl live) fun u hu => ?_
  rw [hu]
  exact ⟨rfl, rfl, rfl⟩

theorem completes_mmark : Completes .mmark s fun u => MatrixIssued s u r 4 ∧
    ∃ w c, u.here.matrix.window = some w ∧ w.cmds = [c] ∧ c.cmd = s.here.matrix.cmds ∧ w.replayed = false := by
  have hi : exec .mmark s = .next (s.mAdvance { marks := true } 4 true) := (onMatrix_of_live live _).trans (mIssue_of_live live _ id)
  refine completes_of_from live hi (issuesFrom_refl live) fun u hu => ?_
  rw [hu]
  exact ⟨_, _, rfl, rfl, rfl, rfl⟩

theorem completes_mswap : Completes .mswap s fun u => MatrixIssued s u r 4 ∧ u.here.matrix.act = ~~~s.here.matrix.act := by
  refine completes_modMx live (onMatrix_of_live live _) (fun m => ⟨rfl, rfl, rfl, rfl⟩) fun u hu => ?_
  rw [hu]
  rfl

theorem completes_mstamp {d : BitVec 24} (h : r.exposed = true ∧ r.treadle = false) :
    Completes (.mstamp d) s fun u => MatrixIssued s u r 4 ∧ u.here.matrix.stamp = some d.toNat := by
  have hi : exec (.mstamp d) s = mIssue {} false 4 s fun s => s.modMx fun m => { m with stamp := some d.toNat } :=
    (onMatrix_of_live live _).trans (check_of_true _ _ _ _ (by simp [exposed_of_live live, treadleRun_of_live live, h]))
  refine completes_modMx live hi (fun m => ⟨rfl, rfl, rfl, rfl⟩) fun u hu => ?_
  rw [hu]
  rfl

theorem exec_mstamp_of_illegal {d : BitVec 24} (h : r.exposed = false ∨ r.treadle = true) :
    exec (.mstamp d) s = .next (s.raiseTrap { cause := 0x01 }) := by
  refine (onMatrix_of_live live _).trans (check_of_false _ _ _ _ ?_)
  rw [exposed_of_live live, treadleRun_of_live live]
  rcases h with h | h <;> simp [h]

/-- A command on a tile does not wait where its table is exposed or the tile has nothing to land. -/
theorem tileFree_of_live {tiles : List Nat} (h : r.exposed = true ∨ s.mx.tilePending tiles = false) :
    (!s.mx.exposed && s.mx.tilePending tiles) = false := by
  rw [exposed_of_live live]
  rcases h with h | h <;> simp [h]

theorem completes_mzero {t : BitVec 3} (h : r.exposed = true ∨ s.mx.tilePending [t.toNat] = false) :
    Completes (.mzero t) s fun u => MatrixIssued s u r 4 ∧ u.here.matrix.zeroings = s.here.matrix.zeroings ++ [⟨s.pcc + 1, t.toNat⟩] := by
  have hi : exec (.mzero t) s = mIssue { opens := [t.toNat] } false 4 s fun u => u.modMx fun m =>
      { m with zeroings := m.zeroings ++ [⟨u.pcc + 1, t.toNat⟩] } :=
    (onMatrix_of_live live _).trans (if_neg (by simp [tileFree_of_live live h]))
  refine completes_of_from live (hi.trans (mIssue_of_live live _ _)) ((issuesFrom_refl live).modMx fun m => ⟨rfl, rfl, rfl, rfl⟩) fun u hu => ?_
  rw [hu]
  simp [State.mNext, State.mx]

theorem completes_mflags {f : BitVec 9} (h : r.exposed = true ∨ s.mx.quiet = true) :
    Completes (.mflags f) s fun u => MatrixIssued s u r 4 ∧ u.here.matrix.mflags = s.here.matrix.mflags &&& ~~~(f.setWidth 32) := by
  have quiet : (!s.mx.exposed && !s.mx.quiet) = false := by
    rw [exposed_of_live live]
    rcases h with h | h <;> simp [h]
  refine completes_modMx live ((onMatrix_of_live live _).trans (if_neg (by simp [quiet]))) (fun m => ⟨rfl, rfl, rfl, rfl⟩) fun u hu => ?_
  rw [hu]
  rfl

/-- The drain that a command starts (R109, R239). -/
def State.newDrain (s : State) (tile : Nat) (fw : Word) (port : Option Nat) (ea : Nat) : MDrain :=
  { cmd := s.here.matrix.cmds, start := s.pcc, tile, fw, port, ea, rows := [], nread := 0, written := 0, skip := 0 }

theorem completes_mdrainPort {t : BitVec 3} {port : BitVec 4} {fw : Word} (hfw : FormatReady s fw)
    (hfeeds : (s.here.port port.toNat).feeds 7 = true) (hfree : s.here.matrix.drFree ≤ s.pcc) (hheld : s.heldOver = false)
    (hroom : 32 ≤ (s.here.port port.toNat).free) (htile : r.exposed = true ∨ s.mx.tilePending [t.toNat] = false)
    (hbytes : drainBytes (fwDfmt fw) ≤ (s.here.port port.toNat).bytesPer) :
    Completes (.mdrainPort t port) s fun u => MatrixIssued s u r 4 ∧
      (u.here.matrix.drFree = s.pcc + 32 ∧ u.here.matrix.fq = s.here.matrix.fq.drop 1 ∧
        u.here.matrix.drains = s.here.matrix.drains ++ [s.newDrain t.toNat fw (some port.toNat) 0]) := by
  have hpath : ¬ (s.pcc < s.mx.drFree ∨ s.heldOver = true) := by
    simpa [hheld, State.mx] using hfree
  have hi : exec (.mdrainPort t port) s = mIssue { fw := some fw } false 4 s fun u =>
      drainStart t.toNat fw (some port.toNat) 0 0 (u.modHere fun c => c.modPort port.toNat fun q => { q with reserved := q.reserved + 32 }) := by
    refine (onMatrix_of_live live _).trans ?_
    rw [replaying_of_live live]
    dsimp only
    rw [check_of_true _ _ _ _ (by simp [hfeeds])]
    simp only [Bool.or_eq_true, decide_eq_true_eq]
    rw [if_neg hpath, withFq_of_live live hfw]
    simp [orMiss, hroom, tileFree_of_live live htile, checkPop, hbytes]
  refine completes_of_from live (hi.trans (mIssue_of_live live _ _))
    (((issuesFrom_refl live).modPorts fun c => rfl).modMx fun m => ⟨rfl, rfl, rfl, rfl⟩) fun u hu => ?_
  rw [hu]
  simp [State.mNext, State.mx, drainStart, State.newDrain, Matrix.number, Matrix.replaying, replay_of_live live, Core.modPort]

/-- The state in which a scratchpad command goes on is one that it may issue from. -/
theorem issuesFrom_entered (ea : Word) (rc : List RcEntry) : IssuesFrom s r (s.entered ea rc) := by
  refine ⟨(MatrixOnly.modMx s (·.withAddress ea) fun _ => rfl).trans (.modHere _ _ fun _ => ⟨rfl, rfl, rfl, rfl, rfl, rfl⟩),
    fun a => (State.wordAt_modHere _ _ rfl rfl a).trans (s.wordAt_modMx _ a), ?_, ?_, some ea, ?_⟩ <;> rw [State.mx, State.here_entered]
  · rfl
  · exact replay_of_live live
  · simp [Matrix.withAddress, run_of_live live]

omit live in
theorem formatReady_entered {fw : Word} (h : FormatReady s fw) (ea : Word) (rc : List RcEntry) : FormatReady (s.entered ea rc) fw := by
  obtain ⟨e, l, hfq, hfill, hw⟩ := h
  exact ⟨e, l, by simpa [State.mx, Matrix.withAddress] using hfq, hfill, hw⟩

/-- A weight load that starts (R109, R234). -/
def loadStart (b : BitVec 1) (fw : Word) (ea : Nat) (s : State) : State :=
  s.modMx fun m =>
    let m1 := m.modBank b.toNat fun k => { k with usable := s.pcc + 35 }
    { m1 with wlFree := s.pcc + 33, loads := m1.loads ++ [⟨s.pcc + 34, b.toNat, BitVec.ofNat 2 (fwB fw), ea, m.number⟩] }

omit live in
/-- A scratchpad command whose bytes lie in the reservation passes the check of its address (R234, R239). -/
theorem inReservation_entered {ea : Word} {n : Nat} (rc : List RcEntry) (hres : ea.toNat + n ≤ s.here.job.spmSize) (hcut : ea.toNat + n ≤ 2 ^ 19) :
    ((s.entered ea rc).here.inReservation ea n && decide (ea.toNat + n ≤ pow2 19)) = true := by
  rw [pow2, decide_eq_true hcut]
  simpa [Core.inReservation] using hres

section
variable {fw : Word} (hfw : FormatReady s fw) {j : BitVec 4} {o : BitVec 13} {ea : Word} (hea : s.mAddress j o = ea) (ha : ea.toNat % 16 = 0)
  {c : Core} (hb : c.rangeBlocked 0 s.here.matrix.cmds = false) (hheld : s.heldOver = false)
include hfw hea ha hb hheld

theorem completes_mdrainSpm {t : BitVec 3} (hc : s.here.enter true ea.toNat 4096 s.here.matrix.cmds s.pcc = some c)
    (hfree : s.here.matrix.drFree ≤ s.pcc) (htile : r.exposed = true ∨ s.mx.tilePending [t.toNat] = false)
    (hres : ea.toNat + 32 * drainBytes (fwDfmt fw) ≤ s.here.job.spmSize) (hcut : ea.toNat + 32 * drainBytes (fwDfmt fw) ≤ 2 ^ 19) :
    Completes (.mdrainSpm t j o) s fun u => MatrixIssued s u r 4 ∧
      (u.here.matrix.drFree = s.pcc + 32 ∧ u.here.matrix.drains = s.here.matrix.drains ++ [s.newDrain t.toNat fw none ea.toNat]) := by
  have live' := matrixLive_entered live ea c.rc
  have htile' : (!(s.entered ea c.rc).mx.exposed && (s.entered ea c.rc).mx.tilePending [t.toNat]) = false :=
    tileFree_of_live live' (htile.imp_right fun h => by simpa [State.mx, Matrix.tilePending, Matrix.withAddress] using h)
  have hi : exec (.mdrainSpm t j o) s = mIssue { fw := some fw } false 4 (s.entered ea c.rc) (drainStart t.toNat fw none ea.toNat 0) := by
    refine (onMatrix_of_live live _).trans ?_
    dsimp only
    rw [hea, withRange_of_live live (free := s.mx.drFree) ha hc hb hfree hheld, withFq_of_live live' (formatReady_entered hfw ea c.rc), htile',
      if_neg (by decide), inReservation_entered c.rc hres hcut, checkPop, if_pos rfl]
  refine completes_of_from live (hi.trans (mIssue_of_live live' _ _))
    ((issuesFrom_entered live ea c.rc).modMx fun m => ⟨rfl, rfl, rfl, rfl⟩) fun u hu => ?_
  rw [hu]
  simp [State.mNext, State.mx, drainStart, State.newDrain, Matrix.number, Matrix.replaying, replay_of_live live, Matrix.withAddress]

theorem completes_mldw {b : BitVec 1} (hc : s.here.enter false ea.toNat 2112 s.here.matrix.cmds s.pcc = some c)
    (hfree : s.here.matrix.wlFree ≤ s.pcc) (hbusy : (s.here.matrix.bank b.toNat).busyTo < s.pcc)
    (hres : ea.toNat + loadBytes (fwB fw) ≤ s.here.job.spmSize) (hcut : ea.toNat + loadBytes (fwB fw) ≤ 2 ^ 19) :
    Completes (.mldw b j o) s fun u => MatrixIssued s u r 4 ∧
      (u.here.matrix.wlFree = s.pcc + 33 ∧ (u.here.matrix.bank b.toNat).usable = s.pcc + 35 ∧
        u.here.matrix.loads = s.here.matrix.loads ++ [⟨s.pcc + 34, b.toNat, BitVec.ofNat 2 (fwB fw), ea.toNat, s.here.matrix.cmds⟩]) := by
  have live' := matrixLive_entered live ea c.rc
  have hbusy' : ((s.entered ea c.rc).mx.bank b.toNat).busyTo < (s.entered ea c.rc).pcc := by
    show _ < s.pcc
    simpa [State.mx, Matrix.bank, Matrix.withAddress] using hbusy
  have hi : exec (.mldw b j o) s = mIssue { fw := some fw } false 4 (s.entered ea c.rc) (loadStart b fw ea.toNat) := by
    refine (onMatrix_of_live live _).trans ?_
    dsimp only
    rw [hea, withRange_of_live live (free := s.mx.wlFree) ha hc hb hfree hheld, withFq_of_live live' (formatReady_entered hfw ea c.rc),
      decide_eq_true hbusy', orMiss, if_pos rfl, inReservation_entered c.rc hres hcut, checkPop, if_pos rfl]
    rfl
  refine completes_of_from live (hi.trans (mIssue_of_live live' _ _))
    ((issuesFrom_entered live ea c.rc).modMx fun m => ⟨rfl, rfl, rfl, rfl⟩) fun u hu => ?_
  rw [hu]
  simp [State.mNext, State.mx, loadStart, Matrix.number, Matrix.replaying, replay_of_live live, Matrix.withAddress, Matrix.bank, Matrix.modBank]

end

end

/-- R234, R235, R239, R241, R243 and R244: the commands of a table. -/
theorem matrixCommandsHold : MatrixCommandsHold := by
  intro b t port j o f d r fw c s live
  have misaligned {w : Bool} {len free : Nat} {k : State → Out} (h : (s.mAddress j o).toNat % 16 ≠ 0) :
      onMatrix s (withRange (s.mAddress j o) w len free s k) = .next (s.raiseTrap { cause := 0x08, addr := s.mAddress j o }) :=
    (onMatrix_of_live live _).trans (if_pos h)
  refine ⟨completes_mnop live, completes_mswap live, completes_mmark live, completes_mstamp live, exec_mstamp_of_illegal live,
    completes_mzero live, completes_mflags live, fun hfw => ⟨?_, ?_, ?_⟩, fun h => ⟨misaligned h, misaligned h⟩⟩
  · intro hfeeds hfree hheld hroom htile hbytes
    obtain ⟨u, hu, issued, hfree', hfq, hdrains⟩ := completes_mdrainPort live hfw hfeeds hfree hheld hroom htile hbytes
    exact ⟨u, hu, issued, hfree', hfq, _, hdrains, rfl, rfl, rfl, rfl⟩
  · intro ea len ha hc hb hfree hheld htile hres hcut
    obtain ⟨u, hu, issued, hfree', hdrains⟩ := completes_mdrainSpm live hfw rfl ha hb hheld hc hfree htile hres hcut
    exact ⟨u, hu, issued, hfree', _, hdrains, rfl, rfl, rfl, rfl⟩
  · intro ea ha hc hb hfree hheld hbusy hres hcut
    exact completes_mldw live hfw rfl ha hb hheld hc hfree hbusy hres hcut

theorem MatrixOnly.kept {s t : State} (h : MatrixOnly s t) : MatrixKept s t := h.2.2

/-- A further effect on the matrix stream that leaves the accumulator. -/
theorem MatrixOnly.andMx {s v : State} (h : MatrixOnly s v) {f : Matrix → Matrix} (hf : ∀ m, (f m).acc = m.acc) : MatrixOnly s (v.modMx f) :=
  h.trans (.modMx v f hf)

theorem MatrixOnly.andTd {s v : State} (h : MatrixOnly s v) {f : Treadle → Treadle} : MatrixOnly s (v.modTd f) := h.trans (.modTd v f)

/-! ### Segments, the end of a table and the treadle (R113, R242, R313, R328) -/

/-- A sector that the stream keeps is in the instruction cache of its own core, and no more. -/
theorem keepSector_matrix {s : State} (hs : s.cur.stream = .matrix) (ctx : Nat) (va : Word) :
    MatrixOnly s (s.keepSector s.curKey ctx va) ∧ (s.keepSector s.curKey ctx va).here.matrix = s.here.matrix ∧
      (s.keepSector s.curKey ctx va).here.treadle = s.here.treadle := by
  have key : s.curKey = s.cur.core := by rw [State.curKey, hs]
  have kept (f : Core → Core) (h : ∀ c, f c = { c with mem := (f c).mem }) :
      MatrixOnly s (s.modHere f) ∧ (s.modHere f).here.matrix = s.here.matrix ∧ (s.modHere f).here.treadle = s.here.treadle := by
    rw [State.here_modHere]
    exact ⟨.modHere s f fun c => by rw [h]; exact ⟨rfl, rfl, rfl, rfl, rfl, rfl⟩, by rw [h], by rw [h]⟩
  have same : MatrixOnly s s ∧ s.here.matrix = s.here.matrix ∧ s.here.treadle = s.here.treadle := ⟨.refl s, rfl, rfl⟩
  unfold State.keepSector
  split
  · exact same
  · split
    · exact same
    · dsimp only
      split
      · exact same
      · rw [key]
        refine kept _ fun c => ?_
        split <;> rfl

/-- The stream on which a closing word has its effect: its segment, if one was open, is closed. -/
def ClosedFrom (s : State) (r : MRun) (v : State) : Prop :=
  MatrixOnly s v ∧ v.here.treadle = s.here.treadle ∧ v.mx.replay = none ∧ v.mx.run = some { r with seg := none }

/-- A closing word whose open segment passes its check issues (R113). -/
theorem mIssue_of_closes {s : State} {r : MRun} (hrun : s.mx.run = some r) (hreplay : s.mx.replay = none)
    (hseg : ∀ g, r.seg = some g → s.segPasses g = true) (R : Retained) (step : Nat) (f : State → State) :
    ∃ v taken, mIssue R true step s f = .next ((f v).mAdvance R step taken) ∧ ClosedFrom s r v := by
  rw [mIssue, Matrix.replaying_of_live hreplay, hrun]
  cases h : r.seg with
  | none =>
    refine ⟨s, true, by simp [h], .refl s, rfl, hreplay, hrun.trans ?_⟩
    rw [← h]
  | some g =>
    refine ⟨s.modMx fun m => { m with run := m.run.map fun q => { q with seg := none } }, false, by simp [h, hseg g h], .modMx s _ fun _ => rfl, ?_, ?_, ?_⟩
    · rw [State.here_modMx]
    · rw [State.mx, State.here_modMx]; exact hreplay
    · rw [State.mx, State.here_modMx]; exact congrArg (Option.map _) hrun

/-- What follows the literal of a segment header: the open segment is closed, and the next one opens (R113, R242). -/
def segmentOpens (now cycles : Nat) (lit : BitVec 32) (s : State) : Out :=
  match mIssue {} true 8 s id with
  | .next s1 =>
    if s1.mx.run.any (·.trapped) || (s1.mx.replay.isSome && s.mx.replay.isNone) then .next s1
    else .next ((s1.modMx fun m => { m with run := m.run.map fun r => { r with seg := some (Seg.opened now cycles lit) } }).modTd
      fun q => { q with segMissed := ((s.mx.replaying.map (·.missed)).getD q.missed) })
  | r => r

section
variable {s : State} {r : MRun} (hs : s.cur.stream = .matrix) (hrun : s.mx.run = some r) (hreplay : s.mx.replay = none)
include hs hrun

theorem onMatrix_of_plain (h : r.treadle = false) (k : Out) : onMatrix s k = k := by
  rw [onMatrix, check_of_true _ _ _ _ (by simp [hs, hrun]), check_of_true]
  simp [hrun, h]

theorem exec_mseg_of_closed_table (htreadle : r.treadle = false) (hexp : r.exposed = false) (y : BitVec 20) :
    exec (.mseg y) s = .next (s.raiseTrap { cause := 0x01 }) :=
  (onMatrix_of_plain hs hrun htreadle _).trans (check_of_false _ _ _ _ (by simp [Matrix.exposed, hrun, hexp]))

include hreplay

theorem exec_mseg_of_exposed (htreadle : r.treadle = false) (hexp : r.exposed = true) (y : BitVec 20) :
    exec (.mseg y) s = withLiteral (r.pc + 4) s (segmentOpens s.pcc y.toNat) := by
  refine (onMatrix_of_plain hs hrun htreadle _).trans ?_
  rw [check_of_true _ _ _ _ (by simp [Matrix.exposed, hrun, hexp]), Matrix.replaying_of_live hreplay]
  have pc : s.curPc = r.pc := by
    rw [State.curPc, hs]
    exact congrArg (fun q : Option MRun => (q.map (·.pc)).getD 0) hrun
  dsimp only
  rw [pc]
  rfl

theorem completes_mseg (htreadle : r.treadle = false) (htrapped : r.trapped = false) (hseg : ∀ g, r.seg = some g → s.segPasses g = true)
    (hexp : r.exposed = true) {lit : BitVec 32} (hlit : s.fetch s.curKey s.curCtx (r.pc + 4) = .word lit) (y : BitVec 20) :
    Completes (.mseg y) s fun t => MatrixKept s t ∧
      ∃ q, t.here.matrix.run = some q ∧ q.pc = r.pc + 8 ∧ q.seg = some (Seg.opened s.pcc y.toNat lit) := by
  obtain ⟨only, matrix, treadle⟩ := keepSector_matrix hs s.curCtx (r.pc + 4)
  have hexec := exec_mseg_of_exposed hs hrun hreplay htreadle hexp y
  rw [withLiteral, hlit] at hexec
  dsimp only at hexec
  generalize s.keepSector s.curKey s.curCtx (r.pc + 4) = v at hexec only matrix treadle
  have hrun' : v.mx.run = some r := by rw [State.mx, matrix]; exact hrun
  have hreplay' : v.mx.replay = none := by rw [State.mx, matrix]; exact hreplay
  have passes (g : Seg) (h : r.seg = some g) : v.segPasses g = true := by
    rw [← hseg g h, State.segPasses, State.segPasses, State.mx, matrix, treadle, only.2.1]
    rfl
  obtain ⟨w, taken, hw, closed, -, hreplayw, hrunw⟩ := mIssue_of_closes hrun' hreplay' passes {} 8 id
  rw [segmentOpens, hw, id, State.mAdvance_of_live hreplayw] at hexec
  have notTrapped : ((w.modMx (w.mNext {} 8 taken)).mx.run.any (·.trapped) ||
      ((w.modMx (w.mNext {} 8 taken)).mx.replay.isSome && v.mx.replay.isNone)) = false := by
    rw [State.mx, State.here_modMx]
    have : w.here.matrix.replay = none := hreplayw
    have : w.here.matrix.run = some { r with seg := none } := hrunw
    simp [State.mNext, *]
  dsimp only at hexec
  rw [notTrapped] at hexec
  refine ⟨_, hexec, MatrixOnly.kept (.andTd (.andMx (.andMx (only.trans closed) (by intro; rfl)) (by intro; rfl))), ?_⟩
  have : w.here.matrix.run = some { r with seg := none } := hrunw
  simp [State.mNext, this]

theorem completes_mtend (htreadle : r.treadle = false) (hseg : ∀ g, r.seg = some g → s.segPasses g = true) :
    Completes .mtend s fun t => MatrixKept s t ∧
      ∃ q, t.here.matrix.run = some q ∧ q.ended = true ∧ q.seg = none ∧ t.here.matrix.window = none := by
  obtain ⟨v, taken, hv, closed, -, hreplayv, hrunv⟩ := mIssue_of_closes hrun hreplay hseg {} 4 fun s =>
    let s1 := s.modMx fun m => { m with window := none, run := m.run.map fun r => { r with ended := true, seg := none } }
    if s.mx.treadleRun then
      s1.modTd fun t =>
        { t.toState 2 4 with endAt := s.mx.t0 + ((s.pcc - s.mx.t0) / max 1 t.bp + 1) * t.bp }
    else s1
  have noTreadle : v.mx.treadleRun = false := by simp [Matrix.treadleRun, hrunv, htreadle]
  dsimp only at hv
  rw [noTreadle, if_neg (by decide), State.mAdvance_of_live (by rw [State.mx, State.here_modMx]; exact hreplayv)] at hv
  refine ⟨_, (onMatrix_of_plain hs hrun htreadle _).trans hv, MatrixOnly.kept (.andMx (.andMx closed (by intro; rfl)) (by intro; rfl)), ?_⟩
  have : v.here.matrix.run = some { r with seg := none } := hrunv
  simp [State.mNext, this]

end

/-! ### Demands (R322) -/

/-- What the demands of a treadle leave alone of its controller. -/
def Treadle.SameRun (t u : Treadle) : Prop := u.bp = t.bp ∧ u.rpb = t.rpb ∧ u.nb = t.nb ∧ u.strict = t.strict ∧ u.tbeat = t.tbeat

/-- The demands that a treadle raises change its controller alone, and nothing of its run. -/
theorem raiseDemands_matrix (n : Nat) (s : State) :
    MatrixOnly s (s.raiseDemands n) ∧ (s.raiseDemands n).here.matrix = s.here.matrix ∧ s.here.treadle.SameRun (s.raiseDemands n).here.treadle := by
  have same (s : State) : MatrixOnly s s ∧ s.here.matrix = s.here.matrix ∧ s.here.treadle.SameRun s.here.treadle :=
    ⟨.refl s, rfl, rfl, rfl, rfl, rfl, rfl⟩
  induction n generalizing s with
  | zero => exact same s
  | succ n ih =>
    have step (g : Treadle → Treadle) (hg : ∀ t : Treadle, t.SameRun (g t)) : MatrixOnly s ((s.modTd g).raiseDemands n) ∧
        ((s.modTd g).raiseDemands n).here.matrix = s.here.matrix ∧ s.here.treadle.SameRun ((s.modTd g).raiseDemands n).here.treadle := by
      obtain ⟨only, matrix, kept⟩ := ih (s.modTd g)
      refine ⟨(MatrixOnly.modTd s g).trans only, matrix.trans (by simp), ?_⟩
      rw [State.here_modTd] at kept
      obtain ⟨bp, rpb, nb, strict, tbeat⟩ := hg s.here.treadle
      exact ⟨kept.1.trans bp, kept.2.1.trans rpb, kept.2.2.1.trans nb, kept.2.2.2.1.trans strict, kept.2.2.2.2.trans tbeat⟩
    unfold State.raiseDemands
    dsimp only
    split
    · exact same s
    · split
      · exact step Treadle.passBeat fun _ => ⟨rfl, rfl, rfl, rfl, rfl⟩
      · next d _ _ =>
        split
        · exact step (·.raiseOne d) fun _ => ⟨rfl, rfl, rfl, rfl, rfl⟩
        · exact same s

section
variable {s : State} {r : MRun} (hs : s.cur.stream = .matrix) (hrun : s.mx.run = some r)
include hrun

theorem exec_mtreadle_of_plain (h : r.treadle = false) (p : BitVec 1) (rows : BitVec 5) (bp : BitVec 8) (n : BitVec 12) :
    exec (.mtreadle p rows bp n) s = .next (s.raiseTrap { cause := 0x01 }) :=
  check_of_false _ _ _ _ (by simp [hrun, h])

include hs
variable (htreadle : r.treadle = true) (hpc : r.pc = r.header + 4) (hcompat : s.here.job.compat = false)
include htreadle hpc hcompat

theorem mtreadle_form : (decide (s.cur.stream = .matrix) && !s.here.job.compat &&
    (s.mx.run.any fun q => q.treadle && decide (q.pc = q.header + 4))) = true := by
  simp [hs, hrun, htreadle, hpc, hcompat]

theorem exec_mtreadle_of_rows {rows : BitVec 5} {bp : BitVec 8} (h : bp.toNat < rows.toNat) (p : BitVec 1) (n : BitVec 12) :
    exec (.mtreadle p rows bp n) s = .next (s.raiseTrap { cause := 0x02 }) :=
  (check_of_true _ _ _ _ (mtreadle_form hs hrun htreadle hpc hcompat)).trans (check_of_false _ _ _ _ (by simpa using h))

theorem completes_mtreadle (hreplay : s.mx.replay = none) (hseg : r.seg = none) {rows : BitVec 5} {bp : BitVec 8} (h : rows.toNat ≤ bp.toNat)
    (p : BitVec 1) (n : BitVec 12) : Completes (.mtreadle p rows bp n) s fun t => MatrixKept s t ∧
      t.here.treadle.bp = bp.toNat + 1 ∧ t.here.treadle.rpb = rows.toNat + 1 ∧ t.here.treadle.nb = n.toNat ∧
      t.here.treadle.strict = decide (p = 1) ∧ t.here.treadle.tbeat = s.here.treadle.tbeat ∧
      ∃ q, t.here.matrix.run = some q ∧ q.pc = r.pc + 4 ∧ q.started = true := by
  have hi : exec (.mtreadle p rows bp n) s = .next _ := (check_of_true _ _ _ _ (mtreadle_form hs hrun htreadle hpc hcompat)).trans
    ((check_of_true _ _ _ _ (decide_eq_true h)).trans (mIssue_of_open hreplay (by simp [Matrix.wrapCloses, hrun, hseg]) _ _ _))
  dsimp only at hi
  generalize hv : (s.modTd _).raiseDemands 64 = v at hi
  obtain ⟨only, matrix, hbp, hrpb, hnb, hstrict, htbeat⟩ := raiseDemands_matrix 64 (s.modTd _)
  rw [hv] at only matrix hbp hrpb hnb hstrict htbeat
  rw [State.here_modTd] at matrix hbp hrpb hnb hstrict htbeat
  rw [State.mAdvance_of_live (by rw [State.mx, matrix]; exact hreplay)] at hi
  have hrun' : v.here.matrix.run = some r := matrix ▸ hrun
  refine ⟨_, hi, MatrixOnly.kept (.andMx ((MatrixOnly.modTd s _).trans only) fun _ => rfl), ?_⟩
  rw [State.here_modMx]
  exact ⟨hbp, hrpb, hnb, hstrict, htbeat, by simp [State.mNext, hrun']⟩

end

/-- R113, R242, R313 and R328: the words that open and close segments, end a table and set the treadle. -/
theorem matrixControlHold : MatrixControlHold := by
  intro y p rows bp n lit f r s hs hrun hreplay
  refine ⟨fun htreadle htrapped hseg => ⟨fun hexp hlit => completes_mseg hs hrun hreplay htreadle htrapped hseg hexp hlit y, fun hexp hlit => ?_,
    completes_mtend hs hrun hreplay htreadle hseg⟩, fun htreadle hexp => exec_mseg_of_closed_table hs hrun htreadle hexp y,
    fun htreadle hpc hseg hcompat => ⟨fun h => exec_mtreadle_of_rows hs hrun htreadle hpc hcompat h p n,
      fun h => completes_mtreadle hs hrun htreadle hpc hcompat hreplay hseg h p n⟩,
    fun h => exec_mtreadle_of_plain hrun h p rows bp n⟩
  rw [exec_mseg_of_exposed hs hrun hreplay htreadle hexp, withLiteral, hlit]
  rfl

/-! ### The arithmetic of the array (R22, R23, R25) -/

/-- The search for an entry of Table16 keeps the entry in its interval: with i bits left to find, the entry is one of the
2^i numbers from n on. -/
theorem table16Aux_bounds {k P : Nat} (hP : 2 ^ (6144 + k) = P) (i n : Nat) (hn : n + 2 ^ i ≤ 2 ^ 24) (lo : (2 * n - 1) ^ 256 ≤ P)
    (hi : P < (2 * (n + 2 ^ i) - 1) ^ 256) :
    n ≤ table16Aux k i n ∧ table16Aux k i n < 2 ^ 24 ∧ (2 * table16Aux k i n - 1) ^ 256 ≤ P ∧ P < (2 * table16Aux k i n + 1) ^ 256 := by
  induction i generalizing n with
  | zero => exact ⟨le_refl n, hn, lo, by rwa [show 2 * (n + 2 ^ 0) - 1 = 2 * n + 1 by omega] at hi⟩
  | succ i ih =>
    have split : n + 2 ^ i + 2 ^ i = n + 2 ^ (i + 1) := by rw [pow_succ]; omega
    simp only [table16Aux, pow2, hP]
    split
    · next taken =>
      obtain ⟨le, rest⟩ := ih (n + 2 ^ i) (split ▸ hn) taken (split ▸ hi)
      exact ⟨(Nat.le_add_right n _).trans le, rest⟩
    · next left => exact ih n ((Nat.le_add_right _ _).trans (split ▸ hn)) lo (Nat.lt_of_not_le left)

/-- R22: an entry of Table16 is the 24-bit significand nearest to 2^(k/256). -/
theorem table16_nearest (k : Nat) (hk : k < 256) : 2 ^ 23 ≤ table16 k ∧ table16 k < 2 ^ 24 ∧ (2 * table16 k - 1) ^ 256 ≤ 2 ^ (6144 + k) ∧
    2 ^ (6144 + k) < (2 * table16 k + 1) ^ 256 := by
  have least : (2 * 2 ^ 23 - 1) ^ 256 ≤ 2 ^ (6144 + k) := calc
    (2 * 2 ^ 23 - 1) ^ 256 ≤ (2 ^ 24) ^ 256 := Nat.pow_le_pow_left (by decide) 256
    _ ≤ (2 ^ 24) ^ 256 * 2 ^ k := Nat.le_mul_of_pos_right _ (Nat.two_pow_pos k)
    _ = 2 ^ (24 * 256 + k) := by rw [pow_add, pow_mul]
  have greatest : 2 ^ (6144 + k) < (2 * (2 ^ 23 + 2 ^ 23) - 1) ^ 256 := calc
    2 ^ (6144 + k) ≤ 2 ^ 6399 := Nat.pow_le_pow_right (by decide) (by omega)
    _ < (2 * (2 ^ 23 + 2 ^ 23) - 1) ^ 256 := by decide +kernel
  rw [table16, Nat.mod_eq_of_lt hk]
  exact table16Aux_bounds rfl 23 (2 ^ 23) (by decide) least greatest

/-- R23: a NaR makes a NaN of a product, and a zero makes +0 of one without a NaR. -/
theorem lnsProduct_special (a : LVal) (sa sw : Int) : (lnsProduct .nar a sa sw).1 = 0x7FC00000 ∧ (lnsProduct a .nar sa sw).1 = 0x7FC00000 ∧
    (a ≠ .nar → (lnsProduct .zero a sa sw).1 = 0 ∧ (lnsProduct a .zero sa sw).1 = 0) := by
  have nan : Fmt.f32.nan = 0x7FC00000 := by decide
  rw [← nan]
  cases a with
  | nar => exact ⟨rfl, rfl, fun h => absurd rfl h⟩
  | zero => exact ⟨rfl, rfl, fun _ => ⟨rfl, rfl⟩⟩
  | real neg u => exact ⟨rfl, rfl, fun _ => ⟨rfl, rfl⟩⟩

/-- R23: a product of real numbers is what its quotient says. -/
theorem lnsProduct_real (na nw : Bool) (ua uw sa sw : Int) :
    let u := ua + uw + sa + sw
    let sign := if na = nw then 0 else 0x80000000
    let p := (lnsProduct (.real na ua) (.real nw uw) sa sw).1
    (128 ≤ u / 256 → p = sign + 0x7F800000) ∧ (u / 256 < -126 → p = 0) ∧
    (-126 ≤ u / 256 → u / 256 < 128 → p = sign + (u / 256 + 127).toNat * 2 ^ 23 + (table16 (u % 256).toNat - 2 ^ 23)) := by
  intro u sign p
  have hp : p = if u / 256 ≥ 128 then Fmt.f32.inf (xor na nw) else if u / 256 < -126 then 0
      else (if xor na nw then pow2 31 else 0) + (u / 256 + 127).toNat * pow2 23 + (table16 (u % 256).toNat - pow2 23) := by
    simp only [p, lnsProduct, u]
    split_ifs <;> rfl
  have inf : Fmt.f32.inf (xor na nw) = sign + 0x7F800000 := by cases na <;> cases nw <;> decide
  have signOf : (if xor na nw then pow2 31 else 0) = sign := by cases na <;> cases nw <;> decide
  rw [hp, inf, signOf]
  refine ⟨fun h => if_pos h, fun h => ?_, fun h g => ?_⟩
  · rw [if_neg (by omega), if_pos h]
  · rw [if_neg (by omega), if_neg (by omega)]
    rfl

theorem FVal.isNan_iff (v : FVal) : v.isNan = true ↔ ∃ q, v = .nan q := by
  cases v <;> simp [FVal.isNan]

theorem foldl_add_map {α : Type} (f : α → Int) (xs : List α) (z : Int) : xs.foldl (fun acc x => acc + f x) z = z + (xs.map f).sum := by
  induction xs generalizing z with
  | nil => simp
  | cons x xs ih => simp [ih, add_assoc]

/-- R25: a step of an accumulation. -/
theorem accStep_cases (xs : List Nat) :
    let has (v : FVal) : Prop := ∃ x ∈ xs, Fmt.f32.read x = v
    let nan : Prop := ∃ q, has (.nan q)
    (nan ∨ has (.inf false) ∧ has (.inf true) → (accStep xs).1 = 0x7FC00000) ∧
    (¬nan → has (.inf false) → ¬has (.inf true) → (accStep xs).1 = 0x7F800000) ∧
    (¬nan → has (.inf true) → ¬has (.inf false) → (accStep xs).1 = 0xFF800000) ∧
    (¬nan → ¬has (.inf false) → ¬has (.inf true) →
      let t := (xs.map f32Units).sum
      (t = 0 → (accStep xs).1 = 0) ∧ (accStep xs).1 = (Fmt.f32.roundInt .rne false t (-149)).bits) := by
  intro has nan
  have anyNan : (xs.map Fmt.f32.read).any FVal.isNan = true ↔ nan := by
    simp only [List.any_map, List.any_eq_true, Function.comp_apply, FVal.isNan_iff, nan, has]
    grind
  have anyInf (b : Bool) : ((xs.map Fmt.f32.read).any fun v => decide (v = .inf b)) = true ↔ has (.inf b) := by
    simp [has]
  have value : (accStep xs).1 = if (xs.map Fmt.f32.read).any FVal.isNan then Fmt.f32.nan
      else if (((xs.map Fmt.f32.read).any fun v => decide (v = .inf false)) && (xs.map Fmt.f32.read).any fun v => decide (v = .inf true)) then Fmt.f32.nan
      else if ((xs.map Fmt.f32.read).any fun v => decide (v = .inf false)) then Fmt.f32.inf false
      else if ((xs.map Fmt.f32.read).any fun v => decide (v = .inf true)) then Fmt.f32.inf true
      else (Fmt.f32.roundInt .rne false (xs.map f32Units).sum (-149)).bits := by
    rw [accStep]
    dsimp only
    split_ifs <;> simp [foldl_add_map]
  simp only [Bool.and_eq_true, anyNan, anyInf] at value
  rw [value]
  refine ⟨fun h => ?_, fun hn hp hm => ?_, fun hn hm hp => ?_, fun hn hp hm => ⟨fun ht => ?_, ?_⟩⟩
  · rcases h with h | h
    · rw [if_pos h]; decide
    · rw [if_pos h, ite_self]; decide
  · rw [if_neg hn, if_neg (fun h => hm h.2), if_pos hp]; decide
  · rw [if_neg hn, if_neg (fun h => hp h.1), if_neg hp, if_pos hm]; decide
  · rw [if_neg hn, if_neg (fun h => hp h.1), if_neg hp, if_neg hm, ht]; decide
  · rw [if_neg hn, if_neg (fun h => hp h.1), if_neg hp, if_neg hm]

theorem arrayArithmeticHolds : ArrayArithmeticHolds := ⟨table16_nearest, lnsProduct_special, lnsProduct_real, accStep_cases⟩

/-! ### The bits of a result fit its format -/

theorem Fmt.two_pow_width (f : Fmt) : 2 ^ f.width = 2 ^ (f.ebits + f.fbits) + 2 ^ (f.ebits + f.fbits) := by
  rw [Fmt.width, add_assoc, pow_add]
  omega

theorem Fmt.exponents_add (f : Fmt) : (pow2 f.ebits - 1) * pow2 f.fbits + 2 ^ f.fbits = 2 ^ (f.ebits + f.fbits) := by
  simp only [pow2]
  rw [pow_add, Nat.sub_mul, one_mul]
  exact Nat.sub_add_cancel (Nat.le_mul_of_pos_left _ (Nat.two_pow_pos _))

/-- A magnitude not above the infinity's, with a sign, fits the format. -/
theorem Fmt.signed_lt (f : Fmt) (neg : Bool) {mag : Nat} (h : mag ≤ (pow2 f.ebits - 1) * pow2 f.fbits) :
    mag + (if neg then f.signBit else 0) < 2 ^ f.width := by
  have sum := f.exponents_add
  have pos := Nat.two_pow_pos f.fbits
  have sign : (if neg then f.signBit else 0) ≤ 2 ^ (f.ebits + f.fbits) := by
    split
    · exact le_refl _
    · exact Nat.zero_le _
  rw [Fmt.two_pow_width]
  omega

theorem Fmt.inf_lt (f : Fmt) (neg : Bool) : f.inf neg < 2 ^ f.width := f.signed_lt neg (le_refl _)
theorem Fmt.maxFinite_lt (f : Fmt) (neg : Bool) : f.maxFinite neg < 2 ^ f.width := f.signed_lt neg (Nat.sub_le _ _)
theorem Fmt.zero_lt (f : Fmt) (neg : Bool) : f.zero neg < 2 ^ f.width := by
  simpa [Fmt.zero] using f.signed_lt neg (Nat.zero_le _)

theorem Fmt.nan_lt (f : Fmt) : f.nan < 2 ^ f.width := by
  have sum := f.exponents_add
  have half : pow2 (f.fbits - 1) ≤ 2 ^ f.fbits := Nat.pow_le_pow_right (by decide) (Nat.sub_le _ _)
  have pos := Nat.two_pow_pos (f.ebits + f.fbits)
  rw [Fmt.two_pow_width, Fmt.nan]
  omega

theorem Fmt.overflow_lt (f : Fmt) (rm : Rm) (neg : Bool) : (f.overflow rm neg).bits < 2 ^ f.width := by
  unfold Fmt.overflow
  dsimp only
  split_ifs
  · exact f.inf_lt neg
  · exact f.maxFinite_lt neg

theorem Fmt.roundNZ_lt (f : Fmt) (rm : Rm) (neg : Bool) (m : Nat) (e : Int) : (f.roundNZ rm neg m e).bits < 2 ^ f.width := by
  rw [Fmt.roundNZ]
  dsimp only
  split
  · exact f.overflow_lt rm neg
  · next h => exact f.signed_lt neg (Nat.le_of_lt (Nat.lt_of_not_le h))

theorem Fmt.round_lt (f : Fmt) (rm : Rm) (zneg neg : Bool) (m : Nat) (e : Int) : (f.round rm zneg neg m e).bits < 2 ^ f.width := by
  rw [Fmt.round]
  split
  · exact f.zero_lt zneg
  · exact f.roundNZ_lt rm neg m e

theorem Fmt.roundV_lt (f : Fmt) (rm : Rm) (x : FVal) : (f.roundV rm x).bits < 2 ^ f.width := by
  cases x with
  | nan s => exact f.nan_lt
  | inf a => exact f.inf_lt a
  | fin a m e => exact f.round_lt rm a a m e

theorem accStep_lt (xs : List Nat) : (accStep xs).1 < 2 ^ 32 := by
  rw [accStep]
  dsimp only
  split_ifs
  · exact Fmt.f32.nan_lt
  · exact Fmt.f32.nan_lt
  · exact Fmt.f32.inf_lt false
  · exact Fmt.f32.inf_lt true
  · exact Fmt.f32.round_lt _ _ _ _ _
  · exact Fmt.f32.round_lt _ _ _ _ _

theorem saturate_lt (f : Fmt) (sat neg ovf : Bool) : (saturate f sat neg ovf).1 < 2 ^ f.width := by
  cases sat
  · exact f.inf_lt neg
  · exact f.maxFinite_lt neg

theorem drainLinear_lt (f : Fmt) (sat : Bool) (w : Nat) : (drainLinear f sat w).1 < 2 ^ f.width := by
  unfold drainLinear
  split
  · exact f.nan_lt
  · exact saturate_lt f sat _ _
  · dsimp only
    split
    · exact saturate_lt f sat _ _
    · exact f.roundV_lt _ _

theorem LFmt.IsCode.code_lt {L : LFmt} (h : L.IsCode) (neg : Bool) (e : Nat) : L.code neg e < 2 ^ L.bits := by
  have bits : 2 ^ L.bits = 2 ^ (L.bits - 1) + 2 ^ (L.bits - 1) := by
    rcases h with rfl | rfl | rfl <;> rfl
  have field := Nat.mod_lt e (Nat.two_pow_pos (L.bits - 1))
  rw [LFmt.code, pow2]
  split <;> omega

theorem LFmt.IsCode.logCode_lt {L : LFmt} (h : L.IsCode) (x : FVal) (sc : Int) (ufmin : Bool) : (L.logCode x sc ufmin).code < 2 ^ L.bits := by
  have zero : 0 < 2 ^ L.bits := Nat.two_pow_pos _
  unfold LFmt.logCode
  split
  · split_ifs
    · exact zero
    · exact h.code_lt _ _
    · exact h.code_lt _ _
  · exact h.code_lt _ _
  · dsimp only
    split_ifs
    · exact zero
    · exact h.code_lt _ _
    · exact h.code_lt _ _
    · exact zero
    · exact h.code_lt _ _

theorem outlierNibble_lt (x : FVal) (t : Int) : (outlierNibble x t).1 < 16 := by
  rw [outlierNibble]
  dsimp only
  split_ifs <;> omega

theorem logCode4x_lt (x y : FVal) (sc : Int) (ufmin : Bool) : (logCode4x x y sc ufmin).code < 2 ^ 8 := by
  have hx : (LFmt.l4.logCode x sc ufmin).code < 16 := LFmt.IsCode.logCode_lt (.inr (.inr rfl)) x sc ufmin
  have hy : (LFmt.l4.logCode y sc ufmin).code < 16 := LFmt.IsCode.logCode_lt (.inr (.inr rfl)) y sc ufmin
  have nibble := outlierNibble_lt
  have pair {a b : Nat} (ha : a < 16) (hb : b < 16) : a + 16 * b < 2 ^ 8 := by omega
  have first (z : FVal) (t : Int) : 8 + 16 * (outlierNibble z t).1 < 2 ^ 8 := pair (by decide) (nibble z t)
  have second (z : FVal) (t : Int) : 16 * 8 + (outlierNibble z t).1 < 2 ^ 8 := by have := nibble z t; omega
  unfold logCode4x
  dsimp only
  split
  · exact pair hx hy
  · exact first x _
  · exact second y _
  · split
    · exact second y _
    · exact first x _

/-! ### Elements put together in a row -/

/-- Elements and flags gathered from left to right. -/
theorem foldl_places (w : Nat) (f : Nat → Nat × Nat) (n : Nat) :
    ((List.range n).foldl (fun (st : Nat × Nat) i => (st.1 + (f i).1 * pow2 (w * i), st.2 ||| (f i).2)) (0, 0)).1 =
      placed w (fun _ => true) (fun i => (f i).1) n := by
  induction n with
  | zero => rfl
  | succ n ih => rw [List.range_succ, List.foldl_append, placed_succ]; rw [← ih]; rfl

/-- The element in a place of a row. -/
theorem extract_placed {w n W : Nat} (hW : w * n ≤ W) {r : Nat → Nat} (hr : ∀ i, r i < 2 ^ w) {i : Nat} (hi : i < n) :
    ((BitVec.ofNat W (placed w (fun _ => true) r n)).extractLsb' (w * i) w).toNat = r i := by
  have fits : placed w (fun _ => true) r n < 2 ^ W := (placed_lt w _ r hr n).trans_le (Nat.pow_le_pow_right (by decide) hW)
  rw [BitVec.extractLsb'_toNat, BitVec.toNat_ofNat, Nat.mod_eq_of_lt fits, Nat.shiftRight_eq_div_pow, placed_get w _ r hr i n hi]
  rfl

/-! ### The accumulator as rows land and tiles are zeroed (R233, R237, R241) -/

/-- Stores of values at distinct keys: each key reads as its value, and every other key as before. -/
theorem Store.read_writes {n : Nat} {key : Nat → Nat} (inj : ∀ x < n, ∀ y < n, key x = key y → x = y) (val : Nat → Nat) (m : Store) :
    (∀ x < n, Store.read ((List.range n).foldl (fun m x => Store.write m (key x) (val x)) m) (key x) = val x) ∧
    ∀ k, (∀ x < n, k ≠ key x) → Store.read ((List.range n).foldl (fun m x => Store.write m (key x) (val x)) m) k = Store.read m k := by
  induction n with
  | zero => exact ⟨fun x h => absurd h (Nat.not_lt_zero x), fun _ _ => rfl⟩
  | succ n ih =>
    obtain ⟨written, kept⟩ := ih fun x hx y hy => inj x (by omega) y (by omega)
    simp only [List.range_succ, List.foldl_append, List.foldl_cons, List.foldl_nil]
    refine ⟨fun x hx => ?_, fun k hk => ?_⟩
    · rcases Nat.lt_succ_iff_lt_or_eq.mp hx with hx' | rfl
      · rw [Store.read_write_other _ _ _ _ fun h => absurd (inj x hx n (by omega) h) (by omega), written x hx']
      · exact Store.read_write_same _ _ _
    · rw [Store.read_write_other _ _ _ _ (hk n (by omega)), kept k fun x hx => hk x (by omega)]

theorem Store.read_filter (m : Store) (p : Nat → Bool) (k : Nat) :
    Store.read (m.filter fun e => p e.1) k = if p k then Store.read m k else 0 := by
  simp only [Store.read, FMap.getD]
  induction m with
  | nil => simp [FMap.get]
  | cons e m ih =>
    obtain ⟨j, v⟩ := e
    cases hj : p j <;> by_cases hk : k = j <;> simp_all [FMap.get]

/-- The columns of the accumulator that a row of an MMA is written to (R236). -/
def MRow.cols (r : MRow) : Nat := if r.t = true ∧ 2 ≤ fwB r.fw then 64 else 32

theorem cols_eq (r : MRow) : 32 * (mmaTiles r.tile r.t (fwB r.fw)).length = r.cols := by
  cases h : r.t <;> by_cases hb : 2 ≤ fwB r.fw <;> simp [mmaTiles, MRow.cols, h, hb]

theorem MRow.cols_le (r : MRow) : r.cols ≤ 64 := by
  rw [MRow.cols]
  split <;> omega

/-- A row's place in the accumulator. -/
def MRow.key (r : MRow) (x : Nat) : Nat := accKey (r.tile + x / 32) r.row x

theorem MRow.key_inj (r : MRow) : ∀ x < r.cols, ∀ y < r.cols, r.key x = r.key y → x = y := by
  intro x hx y hy h
  have := r.cols_le
  simp only [MRow.key, accKey] at h
  omega

/-- The accumulator after a row has landed in it. -/
def MRow.landed (r : MRow) (acc : Store) : Store :=
  match r.result with
  | none => acc
  | some v => (List.range r.cols).foldl (fun acc x => Store.write acc (r.key x) (v.extractLsb' (32 * x) 32).toNat) acc

theorem fld_eq_extract {n : Nat} (v : BitVec n) (x : Nat) : fld v.toNat (32 * x + 31) (32 * x) = (v.extractLsb' (32 * x) 32).toNat := by
  rw [BitVec.extractLsb'_toNat, Nat.shiftRight_eq_div_pow, fld, show 32 * x + 31 + 1 - 32 * x = 32 by omega]
  rfl

/-- A row that lands changes the accumulator, its poison and the flags alone. -/
theorem landRow_eq (m : Matrix) (r : MRow) :
    m.landRow r = { m with acc := r.landed m.acc, accPoison := (m.landRow r).accPoison, mflags := (m.landRow r).mflags,
                           pendFlags := (m.landRow r).pendFlags } := by
  have writes (v : BitVec 2048) (l : List Nat) (m : Matrix) : ∃ p,
      l.foldl (fun (m : Matrix) c =>
        { m with acc := Store.write m.acc (accKey (r.tile + c / 32) r.row c) (fld v.toNat (32 * c + 31) (32 * c)),
                 accPoison := m.accPoison.del (accKey (r.tile + c / 32) r.row c) }) m =
      { m with acc := l.foldl (fun acc x => Store.write acc (r.key x) (v.extractLsb' (32 * x) 32).toNat) m.acc, accPoison := p } := by
    induction l generalizing m with
    | nil => exact ⟨m.accPoison, rfl⟩
    | cons x l ih =>
      obtain ⟨p, hp⟩ := ih _
      exact ⟨p, hp.trans (by simp only [fld_eq_extract]; rfl)⟩
  cases hr : r.result with
  | none => simp only [Matrix.landRow, MRow.landed, hr]
  | some v =>
    obtain ⟨p, hp⟩ := writes v (List.range r.cols) m
    simp only [Matrix.landRow, MRow.landed, hr, cols_eq, hp]
    split <;> rfl

/-- What the work of a cycle on the accumulator leaves alone. -/
def Matrix.SameButAcc (m q : Matrix) : Prop := q.banks = m.banks ∧ q.act = m.act ∧ q.zeroings = m.zeroings ∧ q.rows = m.rows

theorem Matrix.SameButAcc.trans {m q w : Matrix} (h : m.SameButAcc q) (g : q.SameButAcc w) : m.SameButAcc w := by
  obtain ⟨banks, act, zeroings, rows⟩ := h
  obtain ⟨banks', act', zeroings', rows'⟩ := g
  exact ⟨banks'.trans banks, act'.trans act, zeroings'.trans zeroings, rows'.trans rows⟩

theorem landRow_acc (m : Matrix) (r : MRow) : (m.landRow r).acc = r.landed m.acc := congrArg Matrix.acc (landRow_eq m r)

theorem landRow_same (m : Matrix) (r : MRow) : m.SameButAcc (m.landRow r) := by
  rw [landRow_eq]
  exact ⟨rfl, rfl, rfl, rfl⟩

theorem landRows_eq (l : List MRow) (m : Matrix) :
    (l.foldl Matrix.landRow m).acc = l.foldl (fun acc r => r.landed acc) m.acc ∧ m.SameButAcc (l.foldl Matrix.landRow m) := by
  induction l generalizing m with
  | nil => exact ⟨rfl, rfl, rfl, rfl, rfl⟩
  | cons r l ih =>
    obtain ⟨acc, same⟩ := ih (m.landRow r)
    rw [landRow_acc] at acc
    exact ⟨acc, (landRow_same m r).trans same⟩

theorem raise_acc (m : Matrix) (cmd fl : Nat) : (m.raise cmd fl).acc = m.acc := by
  unfold Matrix.raise
  split <;> rfl

theorem raise_same (m : Matrix) (cmd fl : Nat) : m.SameButAcc (m.raise cmd fl) := by
  unfold Matrix.raise
  split <;> exact ⟨rfl, rfl, rfl, rfl⟩

/-- A row that is due in the next cycle takes its elements, and its command will set their flags (R233). -/
def MRow.take (now : Nat) (st : Matrix × List MRow) (r : MRow) : Matrix × List MRow :=
  if r.land = now + 1 && r.result.isNone then
    let x := st.1.rowResult r
    (st.1.raise r.cmd x.2, st.2 ++ [{ r with result := some (BitVec.ofNat 2048 x.1) }])
  else (st.1, st.2 ++ [r])

/-- The rows that have landed by the end of a cycle. -/
def Matrix.landing (m : Matrix) (now : Nat) : Matrix := (m.rows.filter fun r => decide (r.land ≤ now)).foldl Matrix.landRow m

theorem cycleRows_eq (m : Matrix) (now : Nat) :
    m.cycleRows now =
      { (((m.landing now).rows.filter fun r => decide (now < r.land)).foldl (MRow.take now) (m.landing now, [])).1 with
        rows := (((m.landing now).rows.filter fun r => decide (now < r.land)).foldl (MRow.take now) (m.landing now, [])).2 } := rfl

theorem take_fold (now : Nat) (l : List MRow) (st : Matrix × List MRow) :
    (l.foldl (MRow.take now) st).1.acc = st.1.acc ∧ st.1.SameButAcc (l.foldl (MRow.take now) st).1 := by
  induction l generalizing st with
  | nil => exact ⟨rfl, rfl, rfl, rfl, rfl⟩
  | cons r l ih =>
    obtain ⟨acc, same⟩ := ih (MRow.take now st r)
    have first : (MRow.take now st r).1.acc = st.1.acc ∧ st.1.SameButAcc (MRow.take now st r).1 := by
      unfold MRow.take
      split
      · exact ⟨raise_acc _ _ _, raise_same _ _ _⟩
      · exact ⟨rfl, rfl, rfl, rfl, rfl⟩
    exact ⟨acc.trans first.1, first.2.trans same⟩

/-- The work on rows changes the accumulator by the rows that land, and leaves the banks and the zeroings. -/
theorem cycleRows_keeps (m : Matrix) (now : Nat) :
    (m.cycleRows now).acc = (m.rows.filter fun r => decide (r.land ≤ now)).foldl (fun acc r => r.landed acc) m.acc ∧
      (m.cycleRows now).banks = m.banks ∧ (m.cycleRows now).act = m.act ∧ (m.cycleRows now).zeroings = m.zeroings := by
  obtain ⟨acc, banks, act, zeroings, -⟩ := landRows_eq (m.rows.filter fun r => decide (r.land ≤ now)) m
  obtain ⟨acc', banks', act', zeroings', -⟩ :=
    take_fold now ((m.landing now).rows.filter fun r => decide (now < r.land)) (m.landing now, [])
  rw [cycleRows_eq]
  exact ⟨acc'.trans acc, banks'.trans banks, act'.trans act, zeroings'.trans zeroings⟩

theorem landing_of_later {m : Matrix} {r : MRow} {now : Nat} (hr : m.rows = [r]) (h : now < r.land) : m.landing now = m := by
  simp [Matrix.landing, hr, Nat.not_le.mpr h]

theorem cycleRows_of_due {m : Matrix} {r : MRow} {now : Nat} (hr : m.rows = [r]) (h : r.land ≤ now) :
    (m.cycleRows now).rows = [] ∧ (m.cycleRows now).acc = r.landed m.acc := by
  have rows : (m.landing now).rows = [r] := (landRows_eq _ m).2.2.2.2.trans hr
  refine ⟨?_, (cycleRows_keeps m now).1.trans (by simp [hr, h])⟩
  rw [cycleRows_eq, rows]
  simp [Nat.not_lt.mpr h]

theorem cycleRows_of_later {m : Matrix} {r : MRow} {now : Nat} (hr : m.rows = [r]) (h : now < r.land) :
    (m.cycleRows now).rows = (MRow.take now (m, []) r).2 ∧ (m.cycleRows now).acc = m.acc := by
  refine ⟨?_, (cycleRows_keeps m now).1.trans (by simp [hr, Nat.not_le.mpr h])⟩
  rw [cycleRows_eq, landing_of_later hr h, hr]
  simp [h]

/-- A row that lands writes its elements and nothing else. -/
theorem landed_reads (r : MRow) {v : BitVec 2048} (hv : r.result = some v) (acc : Store) :
    (∀ x < r.cols, Store.read (r.landed acc) (r.key x) = (v.extractLsb' (32 * x) 32).toNat) ∧
      ∀ k, (∀ x < r.cols, k ≠ r.key x) → Store.read (r.landed acc) k = Store.read acc k := by
  rw [MRow.landed, hv]
  exact Store.read_writes r.key_inj _ acc

/-! ### The elements of a row (R25, R237) -/

theorem mmaElement_none (b : Bank) (r : MRow) (c acc : Nat) : (mmaElement b r 0 c acc).1 = acc := rfl

/-- The next four products join an element. -/
theorem mmaElement_step (b : Bank) (r : MRow) (c acc g : Nat) : (mmaElement b r (4 * (g + 1)) c acc).1 =
    (accStep ((mmaElement b r (4 * g) c acc).1 :: (List.range 4).map fun i => arrayProduct b r c (4 * g + i))).1 := by
  simp only [mmaElement, Nat.mul_div_cancel_left _ (show 0 < 4 by decide), List.range_succ (n := g), List.foldl_append, List.foldl_cons,
    List.foldl_nil, List.map_map]
  rfl

theorem mmaElement_lt (b : Bank) (r : MRow) (c acc g : Nat) : (mmaElement b r (4 * (g + 1)) c acc).1 < 2 ^ 32 := by
  rw [mmaElement_step]
  exact accStep_lt _

/-- The reduction length of a row (R236). -/
def MRow.length (r : MRow) : Nat := if r.t = false ∧ 2 ≤ fwB r.fw then 64 else 32

theorem reduction_eq (r : MRow) : reduction r.t (fwB r.fw) = r.length := by
  cases h : r.t <;> simp [reduction, MRow.length, h]

/-- The element that a column of a row takes. -/
def Matrix.element (m : Matrix) (r : MRow) (x : Nat) : Nat :=
  (mmaElement (m.bank r.bank) r r.length x (if fwAcc r.fw then Store.read m.acc (r.key x) else 0)).1

theorem element_lt (m : Matrix) (r : MRow) (x : Nat) : m.element r x < 2 ^ 32 := by
  obtain ⟨g, hg⟩ : ∃ g, r.length = 4 * (g + 1) := by
    rw [MRow.length]
    split
    · exact ⟨15, rfl⟩
    · exact ⟨7, rfl⟩
  rw [Matrix.element, hg]
  exact mmaElement_lt _ _ _ _ g

theorem rowResult_eq (m : Matrix) (r : MRow) : (m.rowResult r).1 = placed 32 (fun _ => true) (m.element r) r.cols := by
  rw [Matrix.rowResult]
  dsimp only
  rw [cols_eq, reduction_eq]
  exact foldl_places 32 (fun x => mmaElement (m.bank r.bank) r r.length x (if fwAcc r.fw then Store.read m.acc (r.key x) else 0)) r.cols

/-- A row takes each of its elements in its place. -/
theorem rowResult_extract (m : Matrix) (r : MRow) {x : Nat} (hx : x < r.cols) :
    ((BitVec.ofNat 2048 (m.rowResult r).1).extractLsb' (32 * x) 32).toNat = m.element r x := by
  rw [rowResult_eq]
  exact extract_placed (by have := r.cols_le; omega) (element_lt m r) hx

/-! ### Zeroed tiles (R241) -/

theorem zeroTile_read (m : Matrix) (tile k : Nat) : Store.read (m.zeroTile tile).acc k = if k / 1024 = tile then 0 else Store.read m.acc k := by
  rw [Matrix.zeroTile]
  dsimp only
  rw [Store.read_filter m.acc (fun j => decide (j / 1024 ≠ tile)) k]
  by_cases h : k / 1024 = tile <;> simp [h]

theorem cycleZeroings_of_due {m : Matrix} {z : MZeroing} {now : Nat} (hz : m.zeroings = [z]) (h : z.land ≤ now) :
    (m.cycleZeroings now).zeroings = [] ∧ (m.cycleZeroings now).acc = (m.zeroTile z.tile).acc := by
  simp [Matrix.cycleZeroings, Matrix.zeroTile, hz, h]

theorem cycleZeroings_of_later {m : Matrix} {z : MZeroing} {now : Nat} (hz : m.zeroings = [z]) (h : now < z.land) :
    m.cycleZeroings now = m := by
  simp only [Matrix.cycleZeroings, hz, List.filter_cons, decide_eq_false (Nat.not_le.mpr h), Bool.false_eq_true, if_false, List.filter_nil, List.foldl_nil,
    decide_eq_true h, if_true]
  rw [← hz]

/-! ### Drains (R239, R240) -/

/-- An element of a drained row, which gathers n elements of w bits. -/
theorem extract_gathered {v : Nat × Nat} {w n : Nat} {f : Nat → Nat × Nat}
    (hv : v = (List.range n).foldl (fun (st : Nat × Nat) i => (st.1 + (f i).1 * pow2 (w * i), st.2 ||| (f i).2)) (0, 0))
    (hf : ∀ i, (f i).1 < 2 ^ w) (hw : w * n ≤ 1024) {i : Nat} (hi : i < n) :
    ((BitVec.ofNat 1024 v.1).extractLsb' (w * i) w).toNat = (f i).1 % 2 ^ w := by
  rw [hv, foldl_places, extract_placed hw hf hi, Nat.mod_eq_of_lt (hf i)]

/-- An element of a row as an LNS code, with the flags it sets (R240). -/
def drainCode (fw : Word) (row : Nat → Nat) (L : LFmt) (i : Nat) : Nat × Nat :=
  let r := L.logCode (Fmt.f32.read (row i)) (fwDscale fw) (fwDufmin fw)
  (r.code, drainFlags r)

/-- A pair of elements of a row as an .l4x byte, with the flags it sets (R240). -/
def drainPair (fw : Word) (row : Nat → Nat) (i : Nat) : Nat × Nat :=
  let r := logCode4x (Fmt.f32.read (row (2 * i))) (Fmt.f32.read (row (2 * i + 1))) (fwDscale fw) (fwDufmin fw)
  (r.code, drainFlags r)

/-- The elements of a drained row, by its format. -/
theorem drainRow_elements (fw : Word) (row : Nat → Nat) (i : Nat) (hi : i < 32) :
    let v := BitVec.ofNat 1024 (drainRow fw row).1
    let code (L : LFmt) (x : Nat) : Nat := (L.logCode (Fmt.f32.read x) (fwDscale fw) (fwDufmin fw)).code
    (fwDfmt fw = 0 → (v.extractLsb' (32 * i) 32).toNat = (drainLinear .f32 (fwSat fw) (row i)).1 % 2 ^ 32) ∧
    (fwDfmt fw = 1 → (v.extractLsb' (16 * i) 16).toNat = (drainLinear .bf16 (fwSat fw) (row i)).1 % 2 ^ 16) ∧
    (fwDfmt fw = 2 → (v.extractLsb' (16 * i) 16).toNat = code .l16 (row i) % 2 ^ 16) ∧
    (fwDfmt fw = 3 → (v.extractLsb' (8 * i) 8).toNat = code .l8 (row i) % 2 ^ 8) ∧
    (fwDfmt fw = 4 → (v.extractLsb' (4 * i) 4).toNat = code .l4 (row i) % 2 ^ 4) ∧
    (5 ≤ fwDfmt fw → i < 16 → (v.extractLsb' (8 * i) 8).toNat =
      (logCode4x (Fmt.f32.read (row (2 * i))) (Fmt.f32.read (row (2 * i + 1))) (fwDscale fw) (fwDufmin fw)).code % 2 ^ 8) := by
  refine ⟨fun h => ?_, fun h => ?_, fun h => ?_, fun h => ?_, fun h => ?_, fun h hi' => ?_⟩
  · exact extract_gathered (w := 32) (f := fun i => drainLinear .f32 (fwSat fw) (row i)) (by rw [drainRow, h]; rfl)
      (fun i => drainLinear_lt _ _ _) (by decide) hi
  · exact extract_gathered (w := 16) (f := fun i => drainLinear .bf16 (fwSat fw) (row i)) (by rw [drainRow, h]; rfl)
      (fun i => drainLinear_lt _ _ _) (by decide) hi
  · exact extract_gathered (w := 16) (f := drainCode fw row .l16) (by rw [drainRow, h]; rfl)
      (fun i => LFmt.IsCode.logCode_lt (.inl rfl) _ _ _) (by decide) hi
  · exact extract_gathered (w := 8) (f := drainCode fw row .l8) (by rw [drainRow, h]; rfl)
      (fun i => LFmt.IsCode.logCode_lt (.inr (.inl rfl)) _ _ _) (by decide) hi
  · exact extract_gathered (w := 4) (f := drainCode fw row .l4) (by rw [drainRow, h]; rfl)
      (fun i => LFmt.IsCode.logCode_lt (.inr (.inr rfl)) _ _ _) (by decide) hi
  · obtain ⟨k, hk⟩ := Nat.exists_eq_add_of_le' h
    exact extract_gathered (w := 8) (f := drainPair fw row) (by rw [drainRow, hk]; rfl) (fun i => logCode4x_lt _ _ _ _) (by decide) hi'

theorem drainRead_of_later {m : Matrix} {d : MDrain} {now : Nat} (h : now < d.start + d.nread) : m.drainRead now d = (d, 0) :=
  if_neg fun g => absurd g.2 (Nat.not_le.mpr h)

theorem drainRead_of_due {m : Matrix} {d : MDrain} {now : Nat} (hn : d.nread < 32) (h : d.start + d.nread ≤ now) :
    (m.drainRead now d).1 = { d with
      rows := d.rows ++ [(now + 8, BitVec.ofNat 1024 (drainRow d.fw fun x => Store.read m.acc (accKey d.tile d.nread x)).1)]
      nread := d.nread + 1 } := by
  rw [Matrix.drainRead, if_pos ⟨hn, h⟩]

theorem drainLinear_special (f : Fmt) (sat : Bool) (w : Nat) : ((∃ q, Fmt.f32.read w = .nan q) → (drainLinear f sat w).1 = f.nan) ∧
    (∀ neg, Fmt.f32.read w = .inf neg → (drainLinear f sat w).1 = if sat then f.maxFinite neg else f.inf neg) := by
  refine ⟨fun ⟨q, hq⟩ => by rw [drainLinear, hq], fun neg h => ?_⟩
  rw [drainLinear, h]
  cases sat <;> rfl

/-- A byte of a number that a vector holds. -/
theorem byte_eq_extract {n : Nat} (v : BitVec n) (i : Nat) : BitVec.ofNat 8 (v.toNat / 256 ^ i) = v.extractLsb' (8 * i) 8 := by
  apply BitVec.eq_of_toNat_eq
  rw [BitVec.toNat_ofNat, BitVec.extractLsb'_toNat, Nat.shiftRight_eq_div_pow, pow_mul]
  rfl

section
variable {c : Core} {d : MDrain} {t now : Nat} {v : BitVec 1024} {rest : List (Nat × BitVec 1024)} (hrows : d.rows = (t, v) :: rest)
include hrows

theorem drainWrite_of_later (h : now < t) : c.drainWrite now d = (c, d) := by
  rw [Core.drainWrite, hrows]
  exact if_neg (Nat.not_le.mpr h)

theorem drainWrite_of_spm (h : t ≤ now) (hp : d.port = none) : c.drainWrite now d =
    (c.writeSpm (d.ea + drainBytes (fwDfmt d.fw) * d.written) (drainBytes (fwDfmt d.fw)) v.toNat,
      { d with rows := rest, written := d.written + 1 }) := by
  rw [Core.drainWrite, hrows]
  dsimp only
  rw [if_pos h, hp]

/-- A row of a replayed drain that has been pushed before is not pushed again (R244). -/
theorem drainWrite_of_skipped {p : Nat} (h : t ≤ now) (hp : d.port = some p) (hskip : d.written < d.skip) : (c.drainWrite now d).1 = c := by
  rw [Core.drainWrite, hrows]
  dsimp only
  rw [if_pos h, hp]
  dsimp only
  rw [if_pos hskip]

end

/-! ### Weight loads (R234) -/

/-- A byte of a number read from memory. -/
theorem Memory.byte_readN (m : Memory) (a n i : Nat) (hi : i < n) : BitVec.ofNat 8 (m.readN a n / 256 ^ i) = m.read (a + i) := by
  induction n generalizing a i with
  | zero => exact absurd hi (Nat.not_lt_zero i)
  | succ n ih =>
    have byte : (m.read a).toNat < 256 := (m.read a).isLt
    rw [Memory.readN]
    cases i with
    | zero =>
      rw [pow_zero, Nat.div_one]
      apply BitVec.eq_of_toNat_eq
      rw [BitVec.toNat_ofNat, Nat.add_mul_mod_self_left]
      exact Nat.mod_eq_of_lt byte
    | succ i =>
      rw [pow_succ, mul_comm (256 ^ i), ← Nat.div_div_eq_div_mul, Nat.add_mul_div_left _ _ (by decide), Nat.div_eq_of_lt byte, Nat.zero_add,
        ih (a + 1) i (by omega), show a + 1 + i = a + (i + 1) by omega]

/-- Rows of at most 64 bytes written 64 bytes apart. -/
theorem Memory.read_rows {size : Nat} (hsize : size ≤ 64) (f : Nat → Nat) (m : Memory) (n r i : Nat) (hr : r < n) (hi : i < size) :
    Memory.read ((List.range n).foldl (fun (m : Memory) r => Memory.writeN m (64 * r) size (f r)) m) (64 * r + i) = BitVec.ofNat 8 (f r / 256 ^ i) := by
  induction n with
  | zero => exact absurd hr (Nat.not_lt_zero r)
  | succ n ih =>
    rw [List.range_succ, List.foldl_append, List.foldl_cons, List.foldl_nil]
    rcases Nat.lt_succ_iff_lt_or_eq.mp hr with h | rfl
    · rw [Memory.read_writeN_outside _ _ _ _ _ (by omega), ih h]
    · exact Memory.read_writeN_inside _ _ _ _ _ hi

theorem Matrix.bank_modBank (m : Matrix) (b : Nat) (f : Bank → Bank) : (m.modBank b f).bank b = f (m.bank b) := by
  simp [Matrix.bank, Matrix.modBank]

theorem Matrix.bank_modBank_next (m : Matrix) (b : Nat) (f : Bank → Bank) : (m.modBank b f).bank (b + 1) = m.bank (b + 1) := by
  have other : b % 2 ≠ (b + 1) % 2 := by omega
  simp [Matrix.bank, Matrix.modBank, other]

/-- A load that lands fills its bank with codes and scales from the scratchpad. -/
theorem landLoad_bank (c : Core) (l : MLoad) :
    let size := if l.fmt = 0 then 64 else 32
    let q := (c.landLoad l).matrix
    (q.bank l.bank).tag = l.fmt ∧ q.bank (l.bank + 1) = c.matrix.bank (l.bank + 1) ∧
      (∀ r < 32, ∀ i < size, Memory.read (q.bank l.bank).codes (64 * r + i) = c.spm.read (l.ea + size * r + i)) ∧
      ∀ n < 32, Store.read (q.bank l.bank).scales n = Memory.readN c.spm (l.ea + 32 * size + 2 * n) 2 := by
  have hsize : (if l.fmt.toNat = 0 then 64 else 32) = if l.fmt = 0 then 64 else 32 := by
    simp only [BitVec.toNat_eq]
    rfl
  intro size q
  have bounded : size ≤ 64 := by
    simp only [size]
    split <;> omega
  simp only [q, Core.landLoad, hsize, Matrix.bank_modBank, Matrix.bank_modBank_next]
  refine ⟨trivial, trivial, fun r hr i hi => ?_, fun n hn => ?_⟩
  · rw [Memory.read_rows bounded _ _ _ r i hr hi, Memory.byte_readN _ _ _ _ hi]
  · exact (Store.read_writes (key := fun n => n) (fun x _ y _ h => h) (fun n => Memory.readN c.spm (l.ea + 32 * size + 2 * n) 2) []).1 n hn

theorem cycleLoads_of_later {c : Core} {l : MLoad} {now : Nat} (hl : c.matrix.loads = [l]) (h : now < l.land) : c.cycleLoads now = c := by
  simp only [Core.cycleLoads, hl, List.filter_cons, decide_eq_false (Nat.not_le.mpr h), Bool.false_eq_true, if_false, List.filter_nil, List.foldl_nil,
    decide_eq_true h, if_true]
  rw [← hl]

theorem cycleLoads_of_due {c : Core} {l : MLoad} {now : Nat} (hl : c.matrix.loads = [l]) (h : l.land ≤ now) :
    c.cycleLoads now = { c.landLoad l with matrix := { (c.landLoad l).matrix with loads := [] } } := by
  have loads : (c.landLoad l).matrix.loads = [l] := hl
  simp [Core.cycleLoads, hl, h, loads, Nat.not_lt.mpr h]

/-! ### The accumulator at the end of a cycle -/

/-- What the accumulator of a core becomes in a cycle's end depends on no more of the core than this. -/
def Core.SameArray (c d : Core) : Prop :=
  d.matrix.acc = c.matrix.acc ∧ d.matrix.rows = c.matrix.rows ∧ d.matrix.zeroings = c.matrix.zeroings

theorem Core.SameArray.refl (c : Core) : c.SameArray c := ⟨rfl, rfl, rfl⟩

theorem Core.SameArray.trans {c d e : Core} (h : c.SameArray d) (g : d.SameArray e) : c.SameArray e := by
  obtain ⟨acc, rows, zeroings⟩ := h
  obtain ⟨acc', rows', zeroings'⟩ := g
  exact ⟨acc'.trans acc, rows'.trans rows, zeroings'.trans zeroings⟩

/-- Steps that each keep what the accumulator depends on keep it together. -/
theorem Core.SameArray.foldl {α : Type} {f : Core → α → Core} (h : ∀ (c : Core) (a : α), c.SameArray (f c a)) (l : List α) (c : Core) :
    c.SameArray (l.foldl f c) := by
  induction l generalizing c with
  | nil => exact .refl c
  | cons a l ih => exact (h c a).trans (ih (f c a))

theorem sameArray_land (c : Core) (now : Nat) (e : VEffect) : c.SameArray (c.land now e) := by
  cases e with
  | spm l =>
    exact Core.SameArray.foldl (f := fun (c : Core) (w : Nat × Nat × Nat) => c.writeSpm w.1 w.2.1 w.2.2) (fun _ _ => ⟨rfl, rfl, rfl⟩) l c
  | _ => exact ⟨rfl, rfl, rfl⟩

theorem sameArray_landGroup (c : Core) (slot now : Nat) : c.SameArray (c.landGroup slot now) := by
  unfold Core.landGroup
  dsimp only
  split
  · exact .refl c
  · exact Core.SameArray.foldl (f := fun (c : Core) (w : VWrite) => (c.modGroup slot fun g => g.land w.eff).land now w.eff)
      (fun c w => .trans (d := c.modGroup slot fun g => g.land w.eff) ⟨rfl, rfl, rfl⟩ (sameArray_land _ now w.eff)) _ c

theorem sameArray_raise (c : Core) (l : List ((MDrain × Nat) × Nat)) (m : Matrix)
    (hm : m.acc = c.matrix.acc ∧ m.rows = c.matrix.rows ∧ m.zeroings = c.matrix.zeroings) :
    c.SameArray { c with matrix := l.foldl (fun m r => m.raise r.2 r.1.2) m } := by
  induction l generalizing m with
  | nil => exact hm
  | cons r l ih =>
    obtain ⟨-, -, zeroings, rows⟩ := raise_same m r.2 r.1.2
    exact ih _ ⟨(raise_acc m r.2 r.1.2).trans hm.1, rows.trans hm.2.1, zeroings.trans hm.2.2⟩

theorem sameArray_cycleDrainReads (c : Core) (now : Nat) : c.SameArray (c.cycleDrainReads now) :=
  sameArray_raise c _ _ ⟨rfl, rfl, rfl⟩

theorem sameArray_drainWrite (c : Core) (now : Nat) (d : MDrain) : c.SameArray (c.drainWrite now d).1 := by
  unfold Core.drainWrite
  split
  · split
    · dsimp only
      split
      · split
        · exact .refl c
        · exact ⟨rfl, rfl, rfl⟩
      · exact ⟨rfl, rfl, rfl⟩
    · exact .refl c
  · exact .refl c

theorem sameArray_cycleDrainWrites (c : Core) (now : Nat) : c.SameArray (c.cycleDrainWrites now) := by
  have writes (l : List MDrain) (st : Core × List MDrain) :
      st.1.SameArray (l.foldl (fun st d => ((st.1.drainWrite now d).1, st.2 ++ [(st.1.drainWrite now d).2])) st).1 := by
    induction l generalizing st with
    | nil => exact .refl _
    | cons d l ih => exact (sameArray_drainWrite st.1 now d).trans (ih _)
  have completes (l : List MDrain) (m : Matrix) : (l.foldl (fun m d => m.complete d.cmd) m).acc = m.acc ∧
      (l.foldl (fun m d => m.complete d.cmd) m).rows = m.rows ∧ (l.foldl (fun m d => m.complete d.cmd) m).zeroings = m.zeroings := by
    induction l generalizing m with
    | nil => exact ⟨rfl, rfl, rfl⟩
    | cons d l ih => exact ih (m.complete d.cmd)
  exact (writes c.matrix.drains (c, [])).trans (completes _ _)

theorem sameArray_cyclePops (c : Core) (now : Nat) : c.SameArray (c.cyclePops now) := by
  have pop (c : Core) (p : Option Nat) : c.SameArray (match p with
      | some p => c.modPort p Port.pop
      | none => c) := by
    cases p <;> exact ⟨rfl, rfl, rfl⟩
  exact Core.SameArray.foldl (fun c (r : MRow) => (pop c r.aport).trans (pop _ r.sport)) _ c

theorem cycleLoads_acc (c : Core) (now : Nat) : (c.cycleLoads now).matrix.acc = c.matrix.acc :=
  (Core.SameArray.foldl (f := Core.landLoad) (fun _ _ => ⟨rfl, rfl, rfl⟩) _ c).1

/-- The accumulator after the work on rows and zeroings depends on what stood in it, on the rows and on the zeroings. -/
theorem cycleZeroings_acc (m : Matrix) (now : Nat) : (m.cycleZeroings now).acc =
    (m.zeroings.filter fun z => decide (z.land ≤ now)).foldl (fun acc z => acc.filter fun p => decide (p.1 / 1024 ≠ z.tile)) m.acc := by
  have zeroed (l : List MZeroing) (m : Matrix) : (l.foldl (fun m z => m.zeroTile z.tile) m).acc =
      l.foldl (fun acc z => acc.filter fun p => decide (p.1 / 1024 ≠ z.tile)) m.acc := by
    induction l generalizing m with
    | nil => rfl
    | cons z l ih => exact ih (m.zeroTile z.tile)
  exact zeroed _ m

theorem Core.SameArray.cycle {c d : Core} (h : c.SameArray d) (now : Nat) :
    ((d.matrix.cycleRows now).cycleZeroings now).acc = ((c.matrix.cycleRows now).cycleZeroings now).acc := by
  obtain ⟨acc, rows, zeroings⟩ := h
  simp only [cycleZeroings_acc, cycleRows_keeps, acc, rows, zeroings]

theorem matrixCycle_acc (c : Core) (now : Nat) : (c.matrixCycle now).matrix.acc = ((c.matrix.cycleRows now).cycleZeroings now).acc := by
  unfold Core.matrixCycle
  split
  · next h =>
    obtain ⟨rows, -, -, zeroings⟩ := h
    simp [cycleZeroings_acc, cycleRows_keeps, rows, zeroings]
  · have same := (sameArray_cycleDrainReads c now).trans (sameArray_cycleDrainWrites _ now)
    dsimp only
    generalize (c.cycleDrainReads now).cycleDrainWrites now = d at same ⊢
    rw [(sameArray_cyclePops _ now).1, cycleLoads_acc]
    exact same.cycle now

theorem reap_acc (m : Matrix) : m.reap.acc = m.acc := by
  unfold Matrix.reap
  split
  · split <;> rfl
  · rfl

theorem requestHead_matrix (c : Core) : c.requestHead.matrix = c.matrix := by
  unfold Core.requestHead
  split <;> rfl

theorem beginTableHold_matrix (c : Core) (now : Nat) : (c.beginTableHold now).matrix = c.matrix := by
  unfold Core.beginTableHold
  split <;> rfl

/-- The accumulator of a core after a cycle is what the rows that land and the tiles that are zeroed leave. -/
theorem endCycle_acc (c : Core) (now : Nat) : (c.endCycle now).matrix.acc = ((c.matrix.cycleRows now).cycleZeroings now).acc := by
  rw [Core.endCycle]
  dsimp only
  rw [beginTableHold_matrix]
  refine (congrArg Matrix.acc (requestHead_matrix _)).trans ((reap_acc _).trans ((matrixCycle_acc _ now).trans ?_))
  exact Core.SameArray.cycle (.trans (d := { c.landJobRegs with spmOld := [] }) ⟨rfl, rfl, rfl⟩
    (Core.SameArray.foldl (fun c n => sameArray_landGroup c n now) _ _)) now

/-- R24, R25, R109, R234, R237 and R239 to R241: the array's work at a cycle's end. -/
theorem arrayCycleHold : ArrayCycleHold := by
  refine ⟨fun b r c acc => ⟨mmaElement_none b r c acc, mmaElement_step b r c acc⟩, fun m r z now => ⟨?_, ?_, ?_, fun hz => ⟨?_, ?_⟩⟩,
    fun m d now hn => ⟨drainRead_of_later, fun h => ⟨_, drainRead_of_due hn h, fun i hi => drainRow_elements d.fw _ i hi⟩⟩, drainLinear_special,
    fun c d t v rest now hrows => ⟨drainWrite_of_later hrows, ?_, fun p => drainWrite_of_skipped hrows⟩, fun c l now hl =>
      ⟨cycleLoads_of_later hl, fun h => ?_⟩, endCycle_acc⟩
  · intro hr h
    obtain ⟨rows, acc⟩ := cycleRows_of_due hr h
    obtain ⟨-, banks, act, -⟩ := cycleRows_keeps m now
    rw [acc]
    exact ⟨rows, banks, act, fun v hv => landed_reads r hv m.acc⟩
  · intro hr h hnone
    obtain ⟨rows, acc⟩ := cycleRows_of_later hr (show now < r.land by omega)
    obtain ⟨-, banks, -⟩ := cycleRows_keeps m now
    refine ⟨acc, banks, BitVec.ofNat 2048 (m.rowResult r).1, rows.trans (by simp [MRow.take, h, hnone]), fun x hx => ?_⟩
    rw [rowResult_extract m r hx]
    exact (Nat.mod_eq_of_lt (element_lt m r x)).symm
  · intro hr h
    obtain ⟨rows, acc⟩ := cycleRows_of_later hr (show now < r.land by omega)
    exact ⟨rows.trans (by simp [MRow.take, show r.land ≠ now + 1 by omega]), acc⟩
  · intro h
    obtain ⟨zeroings, acc⟩ := cycleZeroings_of_due hz h
    rw [acc]
    exact ⟨zeroings, zeroTile_read m z.tile⟩
  · exact cycleZeroings_of_later hz
  · intro h hp
    rw [drainWrite_of_spm hrows h hp]
    refine ⟨rfl, fun i hi => ?_, fun a ha => Memory.read_writeN_outside _ _ _ _ _ ha⟩
    exact (Memory.read_writeN_inside _ _ _ _ _ hi).trans (byte_eq_extract v i)
  · obtain ⟨tag, next, codes, scales⟩ := landLoad_bank c l
    rw [cycleLoads_of_due hl h]
    exact ⟨rfl, rfl, rfl, tag, next, codes, scales⟩

/-- Settles O38: each command issues as the rules of the stream say (`matrixCommandsHold`, `matrixControlHold`), the arithmetic is that
of R22, R23 and R25, Table16 by the invariant of its search (`arrayArithmeticHolds`), and the array's elements stand in their places
because each fits its width (`arrayCycleHold`). -/
theorem matrixWords : Obligations.MatrixWords := ⟨matrixCommandsHold, matrixControlHold, arrayArithmeticHolds, arrayCycleHold⟩

end Sys2Proof.Machine

/-! ## O53 and O54: the word of an instruction and the instruction of a word (R47, R48, R55, R62)

A word is a list of parts, each the bits that its form fixes or an operand. A number is the word made of the parts exactly if it
holds each of them in its place (`WordPart.holds_iff`); the guards and the operands that a decoder reads are such parts. -/

namespace Sys2Proof

/-! ### Words and their parts -/

/-- A part of a word: bits hi:lo that its form fixes, or an operand at bit lo and up. -/
inductive WordPart where
  | gap (hi lo : Nat)
  | arg {n : Nat} (lo : Nat) (v : BitVec n)

namespace WordPart

/-- The fixed bits of a form with the operands in their places. -/
def word : List WordPart → Nat → Nat
  | [], c => c
  | gap _ _ :: r, c => word r c
  | arg 0 v :: r, c => word r (c + v.toNat)
  | arg (lo + 1) v :: r, c => word r (c + v.toNat * 2 ^ (lo + 1))

/-- The parts follow each other from bit `top` down to bit 0, and the fixed bits leave room for the operands. -/
def tiles (c : Nat) : Nat → List WordPart → Bool
  | top, [] => decide (top = 0)
  | top, gap hi lo :: r => decide (lo ≤ hi) && decide (top = hi + 1) && tiles c lo r
  | top, arg (n := n) lo _ :: r => decide (top = lo + n) && decide (c / 2 ^ lo % 2 ^ n = 0) && tiles c lo r

/-- A number has the fixed bits of a form and the operands in their places. -/
def Holds (w c : Nat) : List WordPart → Prop
  | [] => True
  | gap hi lo :: r => fld w hi lo = c / 2 ^ lo % 2 ^ (hi + 1 - lo) ∧ Holds w c r
  | arg (n := n) lo v :: r => bits n lo w = v ∧ Holds w c r

/-- The operands in their places. -/
def args : List WordPart → Nat
  | [] => 0
  | gap _ _ :: r => args r
  | arg lo v :: r => v.toNat * 2 ^ lo + args r

theorem word_eq (l : List WordPart) (c : Nat) : word l c = c + args l := by
  induction l, c using word.induct with
  | case1 c => rfl
  | case2 hi lo r c ih => exact ih
  | case3 n v r c ih => simp [word, args, ih, Nat.add_assoc]
  | case4 n lo v r c ih => simp [word, args, ih, Nat.add_assoc]

theorem mod_split (w n m : Nat) : w % 2 ^ (m + n) = w / 2 ^ m % 2 ^ n * 2 ^ m + w % 2 ^ m := by
  rw [Nat.pow_add, Nat.mod_mul, Nat.mul_comm (2 ^ m), Nat.add_comm]

theorem digit_lt {q r m n : Nat} (hq : q < 2 ^ n) (hr : r < 2 ^ m) : q * 2 ^ m + r < 2 ^ (m + n) := by
  rw [Nat.pow_add]
  nlinarith

theorem digits_inj {q q' m r r' : Nat} (hr : r < m) (hr' : r' < m) : q * m + r = q' * m + r' ↔ q = q' ∧ r = r' := by
  refine ⟨fun h => ?_, fun ⟨hq, hr⟩ => by rw [hq, hr]⟩
  have hq : q = q' := by
    have := congrArg (· / m) h
    simpa [Nat.add_comm, Nat.add_mul_div_right _ _ (show 0 < m by omega), Nat.div_eq_of_lt, hr, hr'] using this
  exact ⟨hq, by subst hq; omega⟩

theorem tiles_gap {c top hi lo : Nat} {r : List WordPart} :
    tiles c top (gap hi lo :: r) = true ↔ lo ≤ hi ∧ top = hi + 1 ∧ tiles c lo r = true := by
  simp [tiles, and_assoc]

theorem tiles_arg {c top n lo : Nat} {v : BitVec n} {r : List WordPart} :
    tiles c top (arg lo v :: r) = true ↔ top = lo + n ∧ c / 2 ^ lo % 2 ^ n = 0 ∧ tiles c lo r = true := by
  simp [tiles, and_assoc]

theorem args_lt {l : List WordPart} {c top : Nat} (h : tiles c top l = true) : c % 2 ^ top + args l < 2 ^ top := by
  induction l generalizing top with
  | nil => simp_all [tiles, args, Nat.mod_one]
  | cons p r ih =>
    cases p with
    | gap hi lo =>
      obtain ⟨le, rfl, hr⟩ := tiles_gap.mp h
      rw [show hi + 1 = lo + (hi + 1 - lo) by omega, mod_split, args, Nat.add_assoc]
      exact digit_lt (Nat.mod_lt _ (Nat.two_pow_pos _)) (ih hr)
    | @arg n lo v =>
      obtain ⟨rfl, room, hr⟩ := tiles_arg.mp h
      rw [mod_split, args, room, Nat.zero_mul, Nat.zero_add, Nat.add_left_comm]
      exact digit_lt v.isLt (ih hr)

theorem holds_iff_mod {w c top : Nat} {l : List WordPart} (h : tiles c top l = true) :
    Holds w c l ↔ w % 2 ^ top = c % 2 ^ top + args l := by
  induction l generalizing top with
  | nil => simp_all [tiles, Holds, args, Nat.mod_one]
  | cons p r ih =>
    cases p with
    | gap hi lo =>
      obtain ⟨le, rfl, hr⟩ := tiles_gap.mp h
      have top : hi + 1 = lo + (hi + 1 - lo) := by omega
      rw [Holds, ih hr, fld, pow2, pow2, top, mod_split, mod_split c, args, Nat.add_assoc,
        digits_inj (Nat.mod_lt w (Nat.two_pow_pos lo)) (args_lt hr), ← top]
    | @arg n lo v =>
      obtain ⟨rfl, room, hr⟩ := tiles_arg.mp h
      rw [Holds, ih hr, mod_split, mod_split c, args, room, Nat.zero_mul, Nat.zero_add, Nat.add_left_comm,
        digits_inj (Nat.mod_lt w (Nat.two_pow_pos lo)) (args_lt hr), bits, pow2, pow2, ← BitVec.toNat_inj, BitVec.toNat_ofNat,
        Nat.mod_mod]

/-- A number below 2^32 holds the fixed bits and the operands exactly if it is the word made of them. -/
theorem holds_iff {w c : Nat} {l : List WordPart} (hw : w < 2 ^ 32) (hc : c < 2 ^ 32) (h : tiles c 32 l = true) :
    Holds w c l ↔ word l c = w := by
  rw [holds_iff_mod h, Nat.mod_eq_of_lt hw, Nat.mod_eq_of_lt hc, word_eq, eq_comm]

theorem word_lt {c : Nat} {l : List WordPart} (hc : c < 2 ^ 32) (h : tiles c 32 l = true) : word l c < 2 ^ 32 := by
  have := args_lt h
  rwa [Nat.mod_eq_of_lt hc, ← word_eq] at this

end WordPart

open WordPart

/-! ### The parts of every word -/

/-- The parts of an instruction's word, from bit 31 down; an event has none. -/
def layout : Instr → List WordPart
  -- Words of the scalar streams (R48).
  | .add d a b h | .sub d a b h | .and d a b h | .or d a b h | .xor d a b h | .andn d a b h | .sll d a b h | .srl d a b h
  | .sra d a b h | .rotr d a b h | .slt d a b h | .sltu d a b h | .min d a b h | .max d a b h | .minu d a b h | .maxu d a b h
  | .mul d a b h | .mulh d a b h | .mulhu d a b h | .div d a b h | .divu d a b h | .rem d a b h | .remu d a b h | .addw d a b h
  | .subw d a b h | .mulw d a b h | .sllw d a b h | .srlw d a b h | .sraw d a b h | .sel d a b h | .erun d a b h | .tqpush d a b h
  | .launch d a b h => [gap 31 26, arg 21 d, arg 16 a, arg 11 b, gap 10 3, arg 0 h]
  | .clz d a h | .ctz d a h | .popc d a h | .bswap d a h | .jalr d a h | .jget d a h | .jset d a h | .rbacqW d a h | .rbacqT d a h
    => [gap 31 26, arg 21 d, arg 16 a, gap 15 3, arg 0 h]
  | .fadd d a b t h | .fsub d a b t h | .fmul d a b t h | .fdiv d a b t h | .fmin d a b t h | .fmax d a b t h | .fmac d a b t h
  | .feq d a b t h | .flt d a b t h | .fle d a b t h => [gap 31 26, arg 21 d, arg 16 a, arg 11 b, arg 10 t, gap 9 3, arg 0 h]
  | .fsqrt d a t h | .fcvt d a t h | .ftoi d a t h | .ftou d a t h | .itof d a t h | .utof d a t h | .fabs d a t h | .fneg d a t h
    => [gap 31 26, arg 21 d, arg 16 a, gap 15 11, arg 10 t, gap 9 3, arg 0 h]
  | .addi d a imm | .andi d a imm | .ori d a imm | .xori d a imm | .slti d a imm | .sltiu d a imm | .csrw d a imm | .csrs d a imm
  | .csrc d a imm => [gap 31 26, arg 21 d, arg 16 a, arg 0 imm]
  | .slli d a n | .srli d a n | .srai d a n => [gap 31 26, arg 21 d, arg 16 a, gap 15 6, arg 0 n]
  | .bfx d a p l | .bfxS d a p l | .bfi d a p l => [gap 31 26, arg 21 d, arg 16 a, gap 15 12, arg 6 p, arg 0 l]
  | .li d imm | .lih d imm | .adpc d imm => [gap 31 26, arg 21 d, arg 0 imm]
  | .ld d a sz c o | .ldu d a sz c o | .st d a sz c o | .ldq d a sz c o => [gap 31 26, arg 21 d, arg 16 a, arg 14 sz, arg 12 c, arg 0 o]
  | .lds d a sz o | .ldsu d a sz o | .sts d a sz o => [gap 31 26, arg 21 d, arg 16 a, arg 14 sz, gap 13 12, arg 0 o]
  | .amoAdd d a b sz c | .amoAnd d a b sz c | .amoOr d a b sz c | .amoXor d a b sz c | .amoMin d a b sz c | .amoMax d a b sz c
  | .amoSwap d a b sz c | .amoCas d a b sz c | .amoFadd d a b sz c | .amoFmin d a b sz c | .amoFmax d a b sz c
    => [gap 31 26, arg 21 d, arg 16 a, arg 11 b, gap 10 7, arg 5 sz, arg 3 c, gap 2 0]
  | .beq a b o | .bne a b o | .blt a b o | .bge a b o | .bltu a b o | .bgeu a b o => [gap 31 26, gap 25 23, arg 18 a, arg 13 b, arg 0 o]
  | .j o | .jal o | .nop o => [gap 31 26, arg 0 o]
  | .land | .flush | .join | .yield | .eret | .halt => [gap 31 26, gap 25 0]
  | .cwaitCont n a o => [gap 31 26, arg 24 n, gap 23 23, arg 18 a, gap 17 13, arg 0 o]
  | .vrun a b h | .bind a b h => [gap 31 26, gap 25 21, arg 16 a, arg 11 b, gap 10 3, arg 0 h]
  | .vwait d h | .mwait d h | .stitch d h => [gap 31 26, arg 21 d, gap 20 3, arg 0 h]
  | .mrun a h | .fmtq a h | .trdl a h | .rbrel a h | .tlbinv a h => [gap 31 26, gap 25 21, arg 16 a, gap 15 3, arg 0 h]
  | .mstop h | .phase h | .phaseE h | .fence h => [gap 31 26, gap 25 3, arg 0 h]
  | .crun a b u h => [gap 31 26, gap 25 21, arg 16 a, arg 11 b, arg 7 u, gap 6 3, arg 0 h]
  | .cwait a u h => [gap 31 26, gap 25 21, arg 16 a, gap 15 11, arg 7 u, gap 6 3, arg 0 h]
  | .unbind b h => [gap 31 26, gap 25 16, arg 11 b, gap 10 3, arg 0 h]
  | .qdepth d b h => [gap 31 26, arg 21 d, gap 20 16, arg 11 b, gap 10 3, arg 0 h]
  | .csrr d num => [gap 31 26, arg 21 d, gap 20 16, arg 0 num]
  | .trap c => [gap 31 26, gap 25 8, arg 0 c]
  | .icinv a scope => [gap 31 26, gap 25 21, arg 16 a, gap 15 2, arg 0 scope]
  | .moult a => [gap 31 26, gap 25 21, arg 16 a, gap 15 0]
  | .qread d w => [gap 31 26, arg 21 d, gap 20 4, arg 0 w]
  | .rdpcc d => [gap 31 26, arg 21 d, gap 20 0]
  -- Words of the vector stream (R55).
  | .vaddFp d a b f k g | .vsubFp d a b f k g | .vmulFp d a b f k g | .vfma d a b f k g | .vfnma d a b f k g | .vminFp d a b f k g
  | .vmaxFp d a b f k g | .vdivFp d a b f k g | .vaddInt d a b f k g | .vsubInt d a b f k g | .vmulInt d a b f k g
  | .vmulh d a b f k g | .vmulhu d a b f k g | .vand d a b f k g | .vor d a b f k g | .vxor d a b f k g | .vsll d a b f k g
  | .vsrl d a b f k g | .vsra d a b f k g | .vminInt d a b f k g | .vmaxInt d a b f k g | .vminu d a b f k g | .vmaxu d a b f k g
  | .vadds d a b f k g | .vsubs d a b f k g | .vaddsu d a b f k g | .vsubsu d a b f k g | .vdivInt d a b f k g | .vdivu d a b f k g
  | .vrem d a b f k g | .vremu d a b f k g | .vperm d a b f k g | .vshuf d a b f k g | .vmatch d a b f k g | .vlcvt d a b f k g
  | .vlcvtM d a b f k g | .vlexp d a b f k g | .vlmul d a b f k g | .vlscl d a b f k g
    => [gap 31 25, arg 19 d, arg 13 a, arg 7 b, arg 5 f, arg 4 k, arg 0 g]
  | .vsqrt d a f k g | .vabs d a f k g | .vneg d a f k g | .vrcp d a f k g | .vrsq d a f k g | .vexp2 d a f k g | .vlog2 d a f k g
  | .vredaddFp d a f k g | .vredmin d a f k g | .vredmax d a f k g | .vredaddInt d a f k g | .vscanFp d a f k g
  | .vscanInt d a f k g | .vcvtF32F64 d a f k g | .vcvtF16F32 d a f k g | .vcvtBf16F32 d a f k g | .vcvtI32F32 d a f k g
  | .vcvtF32I32 d a f k g | .vcvtN32F32 d a f k g | .vcvtF32N32 d a f k g | .vcvtI64F64 d a f k g | .vcvtF64I64 d a f k g
  | .vcvtF64Lns d a f k g => [gap 31 25, arg 19 d, arg 13 a, gap 12 7, arg 5 f, arg 4 k, arg 0 g]
  | .vaddi d a imm g | .vandi d a imm g | .vori d a imm g | .vxori d a imm g => [gap 31 25, arg 19 d, arg 13 a, arg 4 imm, arg 0 g]
  | .vslli d a n g | .vsrli d a n g | .vsrai d a n g => [gap 31 25, arg 19 d, arg 13 a, gap 12 9, arg 4 n, arg 0 g]
  | .vmovi d imm g => [gap 31 25, arg 19 d, gap 18 13, arg 4 imm, arg 0 g]
  | .vceqFp a b f k g | .vcltFp a b f k g | .vcleFp a b f k g | .vcneFp a b f k g | .vceqInt a b f k g | .vcneInt a b f k g
  | .vcltInt a b f k g | .vcltu a b f k g | .vcleInt a b f k g | .vcleu a b f k g | .vtst a b f k g
    => [gap 31 25, gap 24 19, arg 13 a, arg 7 b, arg 5 f, arg 4 k, arg 0 g]
  | .vceqi a imm g => [gap 31 25, gap 24 19, arg 13 a, arg 4 imm, arg 0 g]
  | .vplog t a b => [gap 31 25, gap 24 19, arg 15 t, arg 12 a, arg 9 b, gap 8 0]
  | .vplogR t a b d => [gap 31 25, gap 24 19, arg 15 t, arg 12 a, arg 9 b, gap 8 8, arg 5 d, gap 4 0]
  | .vpdrop n => [gap 31 25, gap 24 7, arg 4 n, gap 3 0]
  | .vppick x => [gap 31 25, arg 19 x, gap 18 0]
  | .vppickV x p => [gap 31 25, arg 19 x, gap 18 7, arg 4 p, gap 3 0]
  | .vsel d a b k inv p => [gap 31 25, arg 19 d, arg 13 a, arg 7 b, gap 6 5, arg 4 k, gap 3 3, arg 2 inv, arg 0 p]
  | .vmov d a k g | .vcvtF64F32 d a k g | .vcvtF32F16 d a k g | .vcvtF32Bf16 d a k g
    => [gap 31 25, arg 19 d, arg 13 a, gap 12 5, arg 4 k, arg 0 g]
  | .vslide d a w n g | .vrot d a w n g => [gap 31 25, arg 19 d, arg 13 a, arg 11 w, arg 4 n, arg 0 g]
  | .vpfirst inv p => [gap 31 25, gap 24 8, arg 7 inv, arg 4 p, gap 3 0]
  | .vxs a r w c => [gap 31 25, gap 24 19, arg 13 a, arg 11 r, arg 10 w, gap 9 8, arg 4 c, gap 3 0]
  | .vld d c n g => [gap 31 25, arg 19 d, gap 18 13, arg 11 c, gap 10 9, arg 7 n, gap 6 4, arg 0 g]
  | .vst a c n k g => [gap 31 25, gap 24 19, arg 13 a, arg 11 c, gap 10 9, arg 7 n, gap 6 5, arg 4 k, arg 0 g]
  | .vlds d n g => [gap 31 25, arg 19 d, gap 18 9, arg 7 n, gap 6 4, arg 0 g]
  | .vsts a n k g => [gap 31 25, gap 24 19, arg 13 a, gap 12 9, arg 7 n, gap 6 5, arg 4 k, arg 0 g]
  | .vgath d c v wd g => [gap 31 25, arg 19 d, gap 18 13, arg 11 c, arg 7 v, gap 6 6, arg 5 wd, gap 4 4, arg 0 g]
  | .vscat a c v wd k g => [gap 31 25, gap 24 19, arg 13 a, arg 11 c, arg 7 v, gap 6 6, arg 5 wd, arg 4 k, arg 0 g]
  | .vupdAdd a c n t k g | .vupdMin a c n t k g | .vupdMax a c n t k g | .vupdAnd a c n t k g | .vupdOr a c n t k g
  | .vupdXor a c n t k g | .vupdMinu a c n t k g | .vupdMaxu a c n t k g
    => [gap 31 25, gap 24 19, arg 13 a, arg 11 c, gap 10 9, arg 7 n, arg 5 t, arg 4 k, arg 0 g]
  | .vtqpush a b k g => [gap 31 25, gap 24 19, arg 13 a, arg 7 b, gap 6 5, arg 4 k, arg 0 g]
  | .vamoAdd d a c v t k g | .vamoAnd d a c v t k g | .vamoOr d a c v t k g | .vamoXor d a c v t k g | .vamoMin d a c v t k g
  | .vamoMax d a c v t k g | .vamoSwap d a c v t k g | .vamoCas d a c v t k g
    => [gap 31 25, arg 19 d, arg 13 a, arg 11 c, arg 7 v, arg 5 t, arg 4 k, arg 0 g]
  | .vshape r c => [gap 31 25, gap 24 12, arg 8 r, arg 4 c, gap 3 0]
  | .vloop n o => [gap 31 25, gap 24 21, arg 19 n, arg 4 o, gap 3 0]
  | .vjmp o => [gap 31 25, gap 24 19, arg 4 o, gap 3 0]
  | .vend => [gap 31 25, gap 24 0]
  | .vseg c => [gap 31 25, gap 24 24, arg 4 c, gap 3 0]
  | .vnop h => [gap 31 25, arg 0 h]
  -- Words of the matrix stream (R62, R232).
  | .mldw b j o => [gap 31 26, arg 25 b, arg 21 j, arg 8 o, gap 7 0]
  | .mswap | .mmark | .mtend | .mnop => [gap 31 26, gap 25 0]
  | .mma t a sp m x k p => [gap 31 26, arg 23 t, arg 19 a, arg 15 sp, arg 10 m, arg 9 x, arg 8 k, arg 7 p, gap 6 0]
  | .mstamp d => [gap 31 26, gap 25 24, arg 0 d]
  | .mdrainPort t p => [gap 31 26, arg 23 t, gap 22 22, arg 18 p, gap 17 0]
  | .mdrainSpm t j o => [gap 31 26, arg 23 t, gap 22 22, arg 18 j, arg 5 o, gap 4 0]
  | .mzero t => [gap 31 26, arg 23 t, gap 22 0]
  | .mseg c => [gap 31 26, gap 25 20, arg 0 c]
  | .mtreadle p r b n => [gap 31 26, arg 25 p, arg 20 r, arg 12 b, arg 0 n]
  | .mflags m => [gap 31 26, gap 25 9, arg 0 m]
  -- Words of the clicker channels (R246).
  | .clevCount l v | .clevSs l v | .clevDs l v => [gap 31 26, gap 25 24, arg 21 l, arg 0 v]
  | .clevJs l sj d => [gap 31 26, gap 25 24, arg 21 l, arg 17 sj, arg 13 d, gap 12 0]
  | .cbase b j o => [gap 31 26, arg 23 b, arg 19 j, arg 0 o]
  | .ccopy src dst r e l | .ccopyTolns src dst r e l | .ccopyTolin src dst r e l
    => [gap 31 26, arg 23 src, arg 20 dst, arg 16 r, arg 12 e, gap 11 10, arg 0 l]
  | .cfill dst r w l j => [gap 31 26, arg 23 dst, arg 19 r, arg 17 w, arg 7 l, arg 3 j, gap 2 0]
  | .csig b c v => [gap 31 26, arg 23 b, arg 21 c, gap 20 16, arg 0 v]
  | .cend | .cnop => [gap 31 26, gap 25 0]
  | _ => []

/-- What the word of an instruction holds decides what form it names. -/
theorem form_of_holds {i : Instr} {f : Nat → Option Instr} {c : Nat} (hi : encode i = word (layout i) c) (hc : c < 2 ^ 32)
    (ht : tiles c 32 (layout i) = true) (hf : ∀ w, Holds w c (layout i) → f w = some i) :
    encode i < 2 ^ 32 ∧ f (encode i) = some i :=
  have lt : encode i < 2 ^ 32 := hi ▸ word_lt hc ht
  ⟨lt, hf _ ((holds_iff lt hc ht).mpr hi.symm)⟩

/-! ### A word that names a form is the word of the instruction -/

/-- An instruction is the word that holds its fixed bits and its operands. -/
theorem encode_of_holds {w c : Nat} {i : Instr} (hw : w < 2 ^ 32) (hi : encode i = word (layout i) c) (hc : c < 2 ^ 32)
    (ht : tiles c 32 (layout i) = true) (h : Holds w c (layout i)) : encode i = w :=
  hi.trans ((holds_iff hw hc ht).mp h)

theorem or_of_ite {p : Prop} [Decidable p] {i j : Instr} {rest : Option Instr} (h : (if p then some j else rest) = some i) :
    p ∧ j = i ∨ rest = some i := by
  split at h
  · exact .inl ⟨‹p›, Option.some.inj h⟩
  · exact .inr h

theorem scalarForm_some {w : Nat} {i : Instr} (hw : w < 2 ^ 32) (h : scalarForm w = some i) : i.kind = some .scalar ∧ encode i = w := by
  unfold scalarForm at h
  split at h
  all_goals repeat' (rcases or_of_ite h with ⟨g, rfl⟩ | h)
  all_goals try cases h
  all_goals
    refine ⟨rfl, encode_of_holds hw rfl (by decide) rfl ?_⟩
    show Holds _ _ (_ :: _)
    simp [Holds, *]

theorem vectorForm_some {w : Nat} {i : Instr} (hw : w < 2 ^ 32) (h : vectorForm w = some i) : i.kind = some .vector ∧ encode i = w := by
  unfold vectorForm at h
  split at h
  all_goals repeat' (rcases or_of_ite h with ⟨g, rfl⟩ | h)
  all_goals try cases h
  all_goals
    refine ⟨rfl, encode_of_holds hw rfl (by decide) rfl ?_⟩
    show Holds _ _ (_ :: _)
    simp [Holds, *]

theorem formOf_some {k : WordKind} {w : Nat} {i : Instr} (hw : w < 2 ^ 32) (h : formOf k w = some i) :
    i.kind = some k ∧ encode i = w := by
  cases k
  case scalar => exact scalarForm_some hw h
  case vector => exact vectorForm_some hw h
  case' matrix => change matrixForm w = _ at h; unfold matrixForm at h; split at h
  case' clicker => change clickerForm w = _ at h; unfold clickerForm at h; split at h
  all_goals repeat' (rcases or_of_ite h with ⟨g, rfl⟩ | h)
  all_goals try cases h
  all_goals
    refine ⟨rfl, encode_of_holds hw rfl (by decide) rfl ?_⟩
    show Holds _ _ (_ :: _)
    simp [Holds, *]

/-! ### The word of an instruction names its form -/

/-- A field of a word is what the field around it holds there. -/
theorem fld_sub {w hi lo u : Nat} (known : fld w hi lo = u) {h l : Nat} (hl : lo ≤ l) (hh : h ≤ hi) :
    fld w h l = u / 2 ^ (l - lo) % 2 ^ (h + 1 - l) := by
  subst known
  obtain ⟨m, rfl⟩ := Nat.exists_eq_add_of_le hl
  simp only [fld, pow2, Nat.add_sub_cancel_left]
  rcases Nat.lt_or_ge h (lo + m) with lt | ge
  · simp [show h + 1 - (lo + m) = 0 by omega, Nat.mod_one]
  · rw [show hi + 1 - lo = m + (hi + 1 - (lo + m)) by omega, Nat.pow_add 2 m, Nat.mod_mul_right_div_self, Nat.div_div_eq_div_mul,
      ← Nat.pow_add, Nat.mod_mod_of_dvd _ (Nat.pow_dvd_pow 2 (by omega))]

/-- A field cannot hold a value that differs within a field known. -/
theorem fld_eq_false {w h l u : Nat} (known : fld w h l = u) {hi lo v : Nat} (hl : lo ≤ l) (hh : h ≤ hi)
    (ne : v / 2 ^ (l - lo) % 2 ^ (h + 1 - l) ≠ u) : (fld w hi lo = v) = False :=
  eq_false fun hv => ne ((fld_sub hv hl hh).symm.trans known)

theorem scalarForm_encode {i : Instr} (hk : i.kind = some .scalar) : encode i < 2 ^ 32 ∧ scalarForm (encode i) = some i := by
  cases i
  -- An instruction of another kind, or an event, is none of these.
  all_goals try cases hk
  all_goals
    refine form_of_holds rfl (by decide) rfl fun w h => ?_
    replace h : Holds w _ (_ :: _) := h
    simp only [Holds, Nat.reducePow, Nat.reduceDiv, Nat.reduceAdd, Nat.reduceSub, Nat.reduceMod] at h
    casesm* _ ∧ _
    subst_vars
    rw [scalarForm, ‹fld w 31 26 = _›]
  case add | sub | and | or | xor | andn | sll | srl | sra | rotr | slt | sltu | min | max | minu | maxu | mul | mulh | mulhu | div
      | divu | rem | remu | addw | subw | mulw | sllw | srlw | sraw | clz | ctz | popc | bswap | sel =>
    have fn := fld_sub (h := 10) (l := 3) ‹fld w _ 3 = _› (by decide) (by decide)
    show scalarOp01 w = _
    simp (disch := decide) [scalarOp01, fld_eq_false fn, *]
  case fadd | fsub | fmul | fdiv | fsqrt | fmin | fmax | fmac | feq | flt | fle | fcvt | ftoi | ftou | itof | utof | fabs | fneg =>
    show scalarOp02 w = _
    simp [scalarOp02, *]
  case jget | jset =>
    show scalarOp04 w = _
    simp [scalarOp04, *]
  case slli | srli | srai =>
    show scalarOp0E w = _
    simp [scalarOp0E, *]
  case bfx | bfxS =>
    show scalarOp0F w = _
    simp [scalarOp0F, *]
  case amoAdd | amoAnd | amoOr | amoXor | amoMin | amoMax | amoSwap | amoCas | amoFadd | amoFmin | amoFmax =>
    show scalarOp20 w = _
    simp [scalarOp20, *]
  case beq | bne | blt | bge | bltu | bgeu =>
    show scalarOp24 w = _
    simp [scalarOp24, *]
  case vrun | vwait | mrun | mwait | mstop | crun | cwait | erun | fmtq | trdl | stitch | bind | unbind | qdepth =>
    have fn := fld_sub (h := 6) (l := 3) ‹fld w _ 3 = _› (by decide) (by decide)
    show scalarOp2C w = _
    simp (disch := decide) [scalarOp2C, fld_eq_false fn, *]
  case rbacqW | rbacqT | rbrel | tqpush | launch =>
    have fn := fld_sub (h := 10) (l := 3) ‹fld w _ 3 = _› (by decide) (by decide)
    show scalarOp2D w = _
    simp (disch := decide) [scalarOp2D, fld_eq_false fn, *]
  case phase | phaseE | fence | flush | join | yield =>
    have fn := fld_sub (h := 25) (l := 12) ‹fld w 25 _ = _› (by decide) (by decide)
    show scalarOp34 w = _
    simp (disch := decide) [scalarOp34, fld_eq_false fn, *]
  case trap | eret | halt =>
    have fn := fld_sub (h := 15) (l := 12) ‹fld w 25 _ = _› (by decide) (by decide)
    show scalarOp35 w = _
    simp (disch := decide) [scalarOp35, fld_eq_false fn, *]
  case qread | rdpcc =>
    have fn := fld_sub (h := 15) (l := 12) ‹fld w 20 _ = _› (by decide) (by decide)
    show scalarOp35 w = _
    simp (disch := decide) [scalarOp35, fld_eq_false fn, *]
  case icinv | tlbinv | moult =>
    have fn := fld_sub (h := 15) (l := 12) ‹fld w 15 _ = _› (by decide) (by decide)
    show scalarOp35 w = _
    simp (disch := decide) [scalarOp35, fld_eq_false fn, *]
  any_goals rfl
  all_goals exact if_pos (by simp [*])

theorem vectorForm_encode {i : Instr} (hk : i.kind = some .vector) : encode i < 2 ^ 32 ∧ vectorForm (encode i) = some i := by
  cases i
  all_goals try cases hk
  all_goals
    refine form_of_holds rfl (by decide) rfl fun w h => ?_
    replace h : Holds w _ (_ :: _) := h
    simp only [Holds, Nat.reducePow, Nat.reduceDiv, Nat.reduceAdd, Nat.reduceSub, Nat.reduceMod] at h
    casesm* _ ∧ _
    subst_vars
    rw [vectorForm, ‹fld w 31 25 = _›]
  case vplog | vplogR =>
    have fn := fld_sub (h := 8) (l := 8) ‹fld w 8 _ = _› (by decide) (by decide)
    show vectorOp3C w = _
    simp (disch := decide) [vectorOp3C, fld_eq_false fn, *]
  case vppick | vppickV =>
    have fn := fld_sub (h := 18) (l := 7) ‹fld w 18 _ = _› (by decide) (by decide)
    show vectorOp3E w = _
    simp (disch := decide) [vectorOp3E, fld_eq_false fn, *]
  case vupdAdd | vupdMin | vupdMax | vupdAnd | vupdOr | vupdXor | vupdMinu | vupdMaxu =>
    show vectorOp6E w = _
    simp [vectorOp6E, *]
  any_goals rfl
  all_goals exact if_pos (by simp [*])

theorem matrixForm_encode {i : Instr} (hk : i.kind = some .matrix) : encode i < 2 ^ 32 ∧ matrixForm (encode i) = some i := by
  cases i
  all_goals try cases hk
  all_goals
    refine form_of_holds rfl (by decide) rfl fun w h => ?_
    replace h : Holds w _ (_ :: _) := h
    simp only [Holds, Nat.reducePow, Nat.reduceDiv, Nat.reduceAdd, Nat.reduceSub, Nat.reduceMod] at h
    casesm* _ ∧ _
    subst_vars
    rw [matrixForm, ‹fld w 31 26 = _›]
  case mdrainPort | mdrainSpm =>
    show matrixOp05 w = _
    simp [matrixOp05, *]
  any_goals rfl
  all_goals exact if_pos (by simp [*])

theorem clickerForm_encode {i : Instr} (hk : i.kind = some .clicker) : encode i < 2 ^ 32 ∧ clickerForm (encode i) = some i := by
  cases i
  all_goals try cases hk
  all_goals
    refine form_of_holds rfl (by decide) rfl fun w h => ?_
    replace h : Holds w _ (_ :: _) := h
    simp only [Holds, Nat.reducePow, Nat.reduceDiv, Nat.reduceAdd, Nat.reduceSub, Nat.reduceMod] at h
    casesm* _ ∧ _
    subst_vars
    rw [clickerForm, ‹fld w 31 26 = _›]
  case clevCount | clevSs | clevDs | clevJs =>
    show clickerOp01 w = _
    simp [clickerOp01, *]
  case ccopy | ccopyTolns | ccopyTolin =>
    show clickerOp03 w = _
    simp [clickerOp03, *]
  any_goals rfl
  all_goals exact if_pos (by simp [*])

theorem formOf_encode {k : WordKind} {i : Instr} (hk : i.kind = some k) : encode i < 2 ^ 32 ∧ formOf k (encode i) = some i := by
  cases k with
  | scalar => exact scalarForm_encode hk
  | vector => exact vectorForm_encode hk
  | matrix => exact matrixForm_encode hk
  | clicker => exact clickerForm_encode hk

/-! ### The two directions -/

theorem checkForm_eq_ok {k : WordKind} {w : Nat} {form : Option Instr} {i : Instr} :
    checkForm k w form = .ok i ↔ form = some i ∧ i.wf = true := by
  unfold checkForm
  grind

/-- Settles O54: where a decoder answers, the word holds the parts of the answer (`formOf_some`). -/
theorem encodeOfDecode : Obligations.EncodeOfDecode := by
  intro k w i hw h
  obtain ⟨form, wf⟩ := checkForm_eq_ok.mp h
  obtain ⟨kind, word⟩ := formOf_some hw form
  exact ⟨kind, wf, word⟩

/-- Settles O53: the word of an instruction holds its parts, and these are what the decoder asks for (`formOf_encode`). -/
theorem decodeOfEncode : Obligations.DecodeOfEncode := by
  intro i k hk wf
  obtain ⟨lt, form⟩ := formOf_encode hk
  exact ⟨lt, checkForm_eq_ok.mpr ⟨form, wf⟩⟩

end Sys2Proof

/-! ## O27: what lands in a group (R57, R102, R192, R195, R196) -/

namespace Sys2Proof.Machine

/-- The bits of a byte of a spread mask are that byte's bit in the mask. -/
theorem spread_testBit {m b i : Nat} (hb : b < 1024) (hi : i < 8) : (spread m).testBit (8 * b + i) = m.testBit b := by
  have byte : spread m / 2 ^ (8 * b) % 2 ^ 8 = (if m.testBit b then 255 else 0) % 2 ^ 8 := assemble_get 8 _ 1024 b hb
  have bit := congrArg (Nat.testBit · i) byte
  simp only [Nat.testBit_mod_two_pow, Nat.testBit_div_two_pow, hi, decide_true, Bool.true_and] at bit
  rw [Nat.add_comm, bit]
  split
  · next h => exact (Nat.testBit_two_pow_sub_one 8 i).trans (by simp [h, hi])
  · next h => simp [h]

/-- R192: a byte of a register after a masked write. -/
theorem writeReg_extract (g : Group) (r : Nat) (mask : Mask) (value : BitVec 8192) {b : Nat} (hb : b < 1024) :
    ((g.writeReg r mask value).vreg r).extractLsb' (8 * b) 8 =
      if mask.getLsbD b then value.extractLsb' (8 * b) 8 else (g.vreg r).extractLsb' (8 * b) 8 := by
  have same : (g.writeReg r mask value).vreg r = (g.vreg r &&& ~~~BitVec.ofNat 8192 (spread mask.toNat)) |||
      (value &&& BitVec.ofNat 8192 (spread mask.toNat)) := FMap.getD_set_same ..
  ext i hi
  have place : 8 * b + i < 8192 := by omega
  simp only [same, BitVec.getElem_extractLsb', BitVec.getLsbD_or, BitVec.getLsbD_and, BitVec.getLsbD_not, BitVec.getLsbD_ofNat,
    spread_testBit hb hi, BitVec.testBit_toNat, place]
  cases mask.getLsbD b <;> simp

theorem writeReg_vreg_other (g : Group) {r n : Nat} (mask : Mask) (value : BitVec 8192) (h : n ≠ r) :
    (g.writeReg r mask value).vreg n = g.vreg n := FMap.getD_set_other _ _ _ _ _ h

/-- Settles O27: a register write byte by byte (`writeReg_extract`); the other writes are one field of the group each. -/
theorem vectorLanding : Obligations.VectorLanding := by
  intro g r n mask value fl v
  refine ⟨fun b hb => writeReg_extract g r mask value hb, fun h => writeReg_vreg_other g mask value h, rfl, rfl, rfl, rfl, rfl, rfl,
    fun m => ⟨rfl, rfl⟩, fun k hk j hj => ?_⟩
  simp [Group.land, Group.kreg, Vector.getElem_set, Nat.mod_eq_of_lt hk, Nat.mod_eq_of_lt hj, eq_comm]

end Sys2Proof.Machine

/-! ## O52: words written from the encodings (R45 to R55, R62) -/

namespace Sys2Proof

theorem decode_word {i : Instr} {k : WordKind} {w : Nat} (hk : i.kind = some k) (wf : i.wf = true) (hw : encode i = w) :
    decode k w = .ok i :=
  hw ▸ (decodeOfEncode i k hk wf).2

/-- R46: no map assigns the all-zero or the all-ones word. -/
theorem decode_unassigned (k : WordKind) : decode k 0 = .illegalEncoding ∧ decode k 0xFFFFFFFF = .illegalEncoding := by
  cases k <;> exact ⟨by decide, by decide⟩

/-- Settles O52: each word is that of its instruction (`decode_word`); the words of no instruction are read by the decoder. -/
theorem wordsDecode : Obligations.WordsDecode := by
  unfold Obligations.WordsDecode
  iterate 44 refine ⟨decode_word rfl rfl rfl, ?_⟩
  exact ⟨decode_unassigned, by decide, by decide⟩

end Sys2Proof

/-! ## O60: what reset, a group's start and a job's start leave (R66, R110) -/

namespace Sys2Proof.Machine

@[simp] theorem RegFile.get_reset (n : BitVec 5) : RegFile.reset.get n = 0 := by
  unfold RegFile.get RegFile.reset
  split <;> simp

/-- R66: the registers of a group at its start. -/
theorem newGroup_get (l : Launch) (j : JobInfo) (slot kind seq : Nat) (pc : Word) (n : BitVec 5) :
    (l.newGroup j slot kind seq pc []).sc.rf.get n =
      if n = 29 then l.stackPointer (j.role.toNat % 65536) slot
      else if n = 31 then BitVec.ofNat 64 (pktArgs l.packet) else 0 := by
  have rf : (l.newGroup j slot kind seq pc []).sc.rf =
    (RegFile.reset.put 31 (BitVec.ofNat 64 (pktArgs l.packet))).put 29 (l.stackPointer (j.role.toNat % 65536) slot) := rfl
  simp [rf, RegFile.get_put]

theorem reset_turns : State.reset.turns = [] := by decide

/-- Settles O60: a group's registers by `newGroup_get`; every other value is the start value of its field. -/
theorem startValues : Obligations.StartValues := by
  refine ⟨⟨rfl, reset_turns, fun q => rfl, by decide, by simp [State.reset]⟩, fun l j slot kind seq pc => ?_, fun i => ?_,
    fun n => RegFile.get_reset n, rfl, rfl, fun n i => ?_⟩
  · refine ⟨rfl, by simp [newGroup_get], by simp [newGroup_get], fun n h31 h29 => by rw [newGroup_get, if_neg h29, if_neg h31], ?_, ?_, rfl, rfl⟩
    · exact fun i => Vector.getElem_replicate i.isLt
    · exact fun i => Vector.getElem_replicate i.isLt
  · simp [Core.empty, Core.port, Nat.mod_eq_of_lt i.isLt]
  · simp [Core.empty, Core.chan, Chan.reset]

end Sys2Proof.Machine

/-! ## O58: register 0, the eft register range, and the reads of poisoned registers (R54, R448) -/

namespace Sys2Proof.Machine

/-- The register is poisoned in one of the stream's files (R283, R448). -/
def State.PoisonedIn (s : State) (n : BitVec 5) : Prop :=
  n.toNat ∈ s.rf.poison ∨ ∃ f, s.scalar.twin = some f ∧ n.toNat ∈ f.poison

theorem readsPoison_of_poisonedIn {s : State} {n : BitVec 5} {reads : List (BitVec 5)} (hn : n ∈ reads)
    (h : s.PoisonedIn n) : s.readsPoison reads = true := by
  rw [State.readsPoison, List.any_eq_true]
  refine ⟨n, hn, ?_⟩
  rcases h with h | ⟨f, hf, h⟩
  · simp [NatSet.has, h]
  · simp [NatSet.has, hf, h]

theorem withReads_of_poisonedIn {s : State} {n : BitVec 5} {reads : List (BitVec 5)} (hn : n ∈ reads)
    (h : s.PoisonedIn n) (k : Out) : withReads reads s k = .next (s.raiseTrap { cause := 0x0B }) :=
  check_of_false _ _ _ _ (by rw [readsPoison_of_poisonedIn hn h]; rfl)

/-- What a stream admits for some fields it admits for fewer of them. -/
theorem Admits.subset {s : State} {g e c : Bool} {fields fewer reads : List (BitVec 5)} (h : Admits s g e c fields reads)
    (hf : fewer ⊆ fields) : Admits s g e c fewer reads := by
  obtain ⟨hstream, hfields, hreads⟩ := h
  exact ⟨hstream, fun he n hn => hfields he n (hf hn), hreads⟩

/-- A form that checks its stream and then its reads traps with POISON where it reads a poisoned register. -/
theorem poisons_of_reads {s : State} {g e c : Bool} {i : Instr} {n : BitVec 5} {k : Out} (reads : List (BitVec 5))
    (hs : Admits s g e c [] []) (hi : exec i s = onStreams g e c s (withReads reads s k)) (hn : n ∈ reads)
    (h : s.PoisonedIn n) : exec i s = .next (s.raiseTrap { cause := 0x0B }) := by
  rw [hi, onStreams_of_admits hs, withReads_of_poisonedIn hn h]

/-- A form that checks its stream, its fields and its reads traps with POISON where it reads a poisoned register. -/
theorem poisons_of_fields_reads {s : State} {i : Instr} {n : BitVec 5} {k : Out} {fields : List (BitVec 5)}
    (used reads : List (BitVec 5)) (hs : Admits s true true true fields [])
    (hi : exec i s = onStreams true true true s (withFields used s (withReads reads s k))) (hu : used ⊆ fields)
    (hn : n ∈ reads) (h : s.PoisonedIn n) : exec i s = .next (s.raiseTrap { cause := 0x0B }) := by
  rw [hi, onStreams_of_admits hs, withFields_of_admits (hs.subset hu), withReads_of_poisonedIn hn h]

theorem poisonedReadHolds : PoisonedReadHolds := by
  intro d a b h t n imm sz c o p s bad traps
  refine ⟨fun hs => ⟨fun hab => ?_, fun hd => ?_, fun ha => ?_⟩, fun hs => ⟨fun hab => ?_, fun had => ?_, fun ha => ?_⟩,
    fun hs => ⟨fun ha => ?_, fun had => ?_, fun hab => ?_⟩⟩
  · obtain ⟨r, hr, hbad⟩ : ∃ r, r ∈ [a, b] ∧ bad r := by simpa using hab
    have hda : r ∈ [d, a, b] := List.mem_cons_of_mem _ hr
    exact ⟨poisons_of_fields_reads [d, a, b] [a, b] hs rfl (by simp) hr hbad,
      poisons_of_fields_reads [d, a, b] [a, b] hs rfl (by simp) hr hbad,
      poisons_of_fields_reads [d, a, b] [a, b] hs rfl (by simp) hr hbad,
      poisons_of_fields_reads [a, b] [a, b] hs rfl (by simp) hr hbad,
      poisons_of_fields_reads [d, a, b] [d, a, b] hs rfl (by simp) hda hbad⟩
  · exact poisons_of_fields_reads [d, a, b] [d, a, b] hs rfl (by simp) (by simp) hd
  · have ha1 : a ∈ [a] := List.mem_singleton_self a
    have hda : [d, a] ⊆ [d, a, b] := by simp
    exact ⟨poisons_of_fields_reads [d, a] [a] hs rfl hda ha1 ha, poisons_of_fields_reads [d, a] [a] hs rfl hda ha1 ha,
      poisons_of_fields_reads [d, a] [a] hs rfl hda ha1 ha, poisons_of_fields_reads [d, a] [a] hs rfl hda ha1 ha,
      poisons_of_fields_reads [d, a] [a] hs rfl hda ha1 ha⟩
  · obtain ⟨r, hr, hbad⟩ : ∃ r, r ∈ [a, b] ∧ bad r := by simpa using hab
    have hda : r ∈ [d, a, b] := List.mem_cons_of_mem _ hr
    exact ⟨poisons_of_reads [a, b] hs rfl hr hbad, poisons_of_reads [a, b] hs rfl hr hbad,
      poisons_of_reads [d, a, b] hs rfl hda hbad, poisons_of_reads [d, a, b] hs rfl hda hbad⟩
  · obtain ⟨r, hr, hbad⟩ : ∃ r, r ∈ [d, a] ∧ bad r := by simpa [or_comm] using had
    exact poisons_of_reads [d, a] hs rfl hr hbad
  · have ha1 : a ∈ [a] := List.mem_singleton_self a
    exact ⟨poisons_of_reads [a] hs rfl ha1 ha, poisons_of_reads [a] hs rfl ha1 ha⟩
  · have ha1 : a ∈ [a] := List.mem_singleton_self a
    exact ⟨poisons_of_reads [a] hs rfl ha1 ha, poisons_of_reads [a] hs rfl ha1 ha⟩
  · obtain ⟨r, hr, hbad⟩ : ∃ r, r ∈ [d, a] ∧ bad r := by simpa [or_comm] using had
    exact poisons_of_reads [d, a] hs rfl hr hbad
  · obtain ⟨r, hr, hbad⟩ : ∃ r, r ∈ [a, b] ∧ bad r := by simpa using hab
    exact poisons_of_reads [a, b] hs rfl hr hbad

/-- A group's turn on core 0: a twin group whose first register file holds no poison, and whose second holds poison in register 1. -/
def twinWithPoison : State :=
  let poisoned : RegFile := { Group.empty.sc.rf with poison := [1] }
  let group : Group := { Group.empty with status := .active, sc := { Group.empty.sc with twin := some poisoned } }
  { State.reset with cores := [(0, { Core.empty with groups := [(0, group)] })], cur := ⟨0, 0, .group⟩ }

/-- The second file's poison makes the add a poisoned read (R448). -/
theorem add_twinWithPoison :
    exec (.add 0 1 1 0) twinWithPoison = .next (twinWithPoison.raiseTrap { cause := 0x0B }) := by
  have admits : Admits twinWithPoison true true true [0, 1, 1] [] := ⟨.inl ⟨rfl, rfl⟩, fun h => (by cases h), by simp⟩
  have poisoned : twinWithPoison.PoisonedIn 1 := .inr ⟨_, rfl, by decide⟩
  exact ((poisonedReadHolds 0 1 1 0 0 0 0 0 0 0 0 twinWithPoison).1 admits).1 (.inl poisoned) |>.1

/-- A trap leaves the group at the word that drew it. -/
theorem pc_raiseTrap_twinWithPoison : (twinWithPoison.raiseTrap { cause := 0x0B }).scalar.pc = twinWithPoison.scalar.pc := by
  obtain ⟨-, -, -, -, hpc, -⟩ := State.raiseTrap_keeps (s := twinWithPoison) (t := { cause := 0x0B }) rfl (by decide) (by decide)
    rfl (by decide) (by decide)
  exact hpc

/-- Refutes O58: its clause of register 0 asks that the first register file hold no poison, and not that the second one of a twin
group hold none. Where the second does, the add to register 0 does not go on to pc + 4: it traps with POISON, as the clause
`poisonedReadHolds` of the same obligation has it. -/
theorem not_registerFields : ¬ Obligations.RegisterFields := by
  rintro ⟨-, hadd, -⟩
  obtain ⟨t, ht, -, hpc⟩ := (hadd 0 1 1 0 twinWithPoison).2.2 rfl (by decide)
  rw [add_twinWithPoison] at ht
  injection ht with ht
  rw [← ht, pc_raiseTrap_twinWithPoison] at hpc
  exact absurd hpc (by decide)

end Sys2Proof.Machine

/-! ## O33: the state registers (R68, R182, R183) -/

namespace Sys2Proof.Machine

/-! ### What a state register's value rests on -/

@[simp] theorem Core.modGroup_job (c : Core) (g : Nat) (f : Group → Group) : (c.modGroup g f).job = c.job := rfl
@[simp] theorem Core.modGroup_matrix (c : Core) (g : Nat) (f : Group → Group) : (c.modGroup g f).matrix = c.matrix := rfl
@[simp] theorem Core.modGroup_treadle (c : Core) (g : Nat) (f : Group → Group) : (c.modGroup g f).treadle = c.treadle := rfl
@[simp] theorem Core.group_setEft (c : Core) (e : Eft) (g : Nat) : ({ c with eft := e }).group g = c.group g := rfl
@[simp] theorem State.here_modCtl (s : State) (n : Nat) (f : Control → Control) : (s.modCtl n f).here = s.here := rfl

/-- Two states that agree on a state register's source show the same value of it. -/
theorem State.csr_congr {s t : State} {n : Nat} (r : RegFile) (job : t.here.job = s.here.job) (gid : t.gid = s.gid)
    (shape : n = 5 → t.scalar.shape = s.scalar.shape) (mflags : n = 0x10 → t.here.matrix.mflags = s.here.matrix.mflags)
    (tdla : n = 0x51 → t.here.treadle.tdla = s.here.treadle.tdla) (tmiss : n = 0x53 → t.here.treadle.tmiss = s.here.treadle.tmiss)
    (tbeat : t.here.treadle.tbeat = s.here.treadle.tbeat) (tdnext : t.here.treadle.tdnext = s.here.treadle.tdnext)
    (tstate : t.here.treadle.tstate = s.here.treadle.tstate) : t.csr r n = s.csr r n := by
  unfold State.csr
  split <;> simp_all

/-- A change of the step's scalar stream shows in SHAPE at most. -/
theorem State.csr_modScalar (s : State) {f : Scalar → Scalar} {n : Nat} (hf : n = 5 → (f s.scalar).shape = s.scalar.shape) (r : RegFile) :
    (s.modScalar f).csr r n = s.csr r n := by
  apply State.csr_congr
  case shape => rw [State.scalar_modScalar]; exact hf
  all_goals cases h : s.cur.stream <;> simp [State.modScalar, State.modGrp, State.gid, State.grp, h]

@[simp] theorem State.csr_clearHold (s : State) (r : RegFile) (n : Nat) : s.clearHold.csr r n = s.csr r n := by
  apply State.csr_congr
  case shape => rw [State.scalar_clearHold]; exact fun _ => rfl
  all_goals cases h : s.cur.stream <;> simp [State.clearHold, State.modGrp, State.gid, State.grp, h]

/-- The end of an instruction that keeps SHAPE changes no state register outside of the register file. -/
theorem State.csr_finish (s : State) {f : Scalar → Scalar} (hf : (f s.scalar).shape = s.scalar.shape) (r : RegFile) (n : Nat) :
    (s.finish f).csr r n = s.csr r n := by
  rw [State.finish, State.csr_clearHold]
  exact s.csr_modScalar (f := fun sc => (f sc).advance s.pcc) (fun _ => hf) r

/-! ### What a write of a state register leaves -/

/-- A general register is none of the state registers. -/
@[simp] theorem State.csr_put (s : State) (r : RegFile) (d : BitVec 5) (v : Word) (n : Nat) : s.csr (r.put d v) n = s.csr r n := by
  simp [State.csr]

theorem RegFile.get_setCsr (r : RegFile) (n v : Nat) (a : BitVec 5) : (r.setCsr n v).get a = r.get a := by
  unfold RegFile.setCsr
  split <;> rfl

/-- A change of the core that keeps its groups and its job keeps the group's id. -/
theorem State.gid_modHere (s : State) {f : Core → Core} (groups : (f s.here).groups = s.here.groups) (job : (f s.here).job = s.here.job) :
    (s.modHere f).gid = s.gid := by
  simp [State.gid, State.grp, Core.group, groups, job]

/-- A change of the core that keeps its groups and its eft stream keeps every scalar stream. -/
theorem State.scalar_modHere (s : State) {f : Core → Core} (groups : (f s.here).groups = s.here.groups) (eft : (f s.here).eft = s.here.eft) :
    (s.modHere f).scalar = s.scalar := by
  cases h : s.cur.stream <;> simp [State.scalar, State.grp, Core.group, groups, eft, h]; rfl

/-- A write of a state register in a register file leaves every other. -/
theorem State.csr_setCsrFile_other (s : State) (r : RegFile) {n m : Nat} (v : Nat) (h : m ≠ n) : s.csr (r.setCsr n v) m = s.csr r m := by
  unfold RegFile.setCsr
  split
  case h_5 => rfl
  all_goals
    unfold State.csr
    split <;> simp_all

/-- A write of a state register outside of the register files leaves every other. -/
theorem State.csr_setCsr_other (s : State) (r : RegFile) {n m : Nat} (v : Nat) (h : m ≠ n) : (s.setCsr n v).csr r m = s.csr r m := by
  unfold State.setCsr
  split
  · exact s.csr_modScalar (fun hm => absurd hm h) r
  case h_5 => rfl
  all_goals
    apply State.csr_congr
    case gid => exact s.gid_modHere rfl rfl
    case shape => rw [s.scalar_modHere rfl rfl]; exact fun _ => rfl
    all_goals simp_all

/-- A state register that admits a write shows the value written: 64 bits of AMAX, 32 of any other. -/
theorem State.csr_setCsr_same (s : State) (r : RegFile) {n v : Nat} {acc : CsrAccess} (h : csrAccess n = some acc) (hw : acc.writable = true)
    (hv : v < 2 ^ 32 ∨ acc = .wide ∧ v < 2 ^ 64) : (s.setCsr n v).csr (r.setCsr n v) n = v := by
  unfold csrAccess at h
  split at h <;> cases h <;> simp_all [CsrAccess.writable, State.setCsr, RegFile.setCsr, State.csr]
  omega

/-- A writable state register but AMAX holds 32 bits. -/
theorem State.csr_lt (s : State) (r : RegFile) {n : Nat} {acc : CsrAccess} (h : csrAccess n = some acc) (hw : acc.writable = true)
    (hn : acc ≠ .wide) : s.csr r n < 2 ^ 32 := by
  unfold csrAccess at h
  split at h <;> cases h <;> simp_all [CsrAccess.writable, State.csr] <;> omega

theorem State.scalar_setCsr (s : State) (n v : Nat) :
    (s.setCsr n v).scalar = { s.scalar with shape := if n = 5 then BitVec.ofNat 32 v else s.scalar.shape } := by
  unfold State.setCsr
  split
  · simp
  case h_5 h _ _ _ => rw [if_neg h]
  all_goals exact s.scalar_modHere rfl rfl

@[simp] theorem State.mem_setCsr (s : State) (n v : Nat) : (s.setCsr n v).mem = s.mem := by
  unfold State.setCsr
  split <;> simp

/-! ### The CSR forms -/

theorem exec_csrr (d : BitVec 5) (num : BitVec 16) (s : State) : exec (.csrr d num) s = csrForm d [] num (fun _ => true) none s := rfl
theorem exec_csrw (d a : BitVec 5) (num : BitVec 16) (s : State) :
    exec (.csrw d a num) s = csrForm d [a] num CsrAccess.writable (some (csrWritten a)) s := rfl
theorem exec_csrs (d a : BitVec 5) (num : BitVec 16) (s : State) :
    exec (.csrs d a num) s = csrForm d [a] num CsrAccess.settable (some (csrSet a)) s := rfl
theorem exec_csrc (d a : BitVec 5) (num : BitVec 16) (s : State) :
    exec (.csrc d a num) s = csrForm d [a] num CsrAccess.settable (some (csrCleared a)) s := rfl

/-- What a CSR form leaves that gives register n a new value: each file of a twin group takes its own (R182, R283). -/
def State.csrWrote (s : State) (d : BitVec 5) (n : Nat) (new : RegFile → Nat) : State :=
  (s.setCsr n (new s.rf)).finish fun sc =>
    (sc.mapFiles fun r => (r.setCsr n (new r)).put d (BitVec.ofNat 64 (s.csr r n))).mark s.pcc 2 d

theorem State.rf_csrWrote (s : State) (d : BitVec 5) (n : Nat) (new : RegFile → Nat) :
    (s.csrWrote d n new).rf = (s.rf.setCsr n (new s.rf)).put d (BitVec.ofNat 64 (s.csr s.rf n)) := by
  simp [State.csrWrote, State.rf, State.scalar_setCsr, Scalar.advance, Scalar.mark, Scalar.mapFiles]

theorem State.csr_csrWrote (s : State) (d : BitVec 5) (n m : Nat) (new : RegFile → Nat) :
    (s.csrWrote d n new).csr (s.csrWrote d n new).rf m = (s.setCsr n (new s.rf)).csr (s.rf.setCsr n (new s.rf)) m := by
  rw [State.rf_csrWrote, State.csr_put, State.csrWrote, State.csr_finish]
  rfl

section
variable {d a : BitVec 5} {num : BitVec 16} {s : State} {acc : CsrAccess} {legal : CsrAccess → Bool}
  {f : CsrAccess → Nat → RegFile → Nat} {reads : List (BitVec 5)}

/-- A number that names no register is an illegal operand (R68). -/
theorem csrForm_of_no_register {g : Option (CsrAccess → Nat → RegFile → Nat)} (hs : Admits s true false true [] [])
    (h : csrAccess num.toNat = none) : csrForm d reads num legal g s = .next (s.raiseTrap { cause := 0x02 }) := by
  rw [csrForm, onStreams_of_admits hs, h]
  rfl

/-- So are a write that the register does not admit, and a register that the control die does not have (R182). -/
theorem csrForm_of_illegal {g : Option (CsrAccess → Nat → RegFile → Nat)} (hs : Admits s true false true [] [])
    (h : csrAccess num.toNat = some acc) (hl : legal acc = false ∨ s.cur.stream = .control ∧ 2 < num.toNat) :
    csrForm d reads num legal g s = .next (s.raiseTrap { cause := 0x02 }) := by
  rw [csrForm, onStreams_of_admits hs, h]
  apply check_of_false
  rcases hl with hl | ⟨hc, hn⟩
  · simp [hl]
  · simp [hc, hn]

theorem csr_legal (hl : legal acc = true) (hc : s.cur.stream = .control → num.toNat ≤ 2) :
    (legal acc && (decide (s.cur.stream ≠ .control) || decide (num.toNat ≤ 2))) = true := by
  by_cases hstream : s.cur.stream = .control <;> simp [hl, hstream, hc]

/-- On a stream that admits it, csrr of a register reads it. -/
theorem csrForm_reads (hs : Admits s true false true [] reads) (h : csrAccess num.toNat = some acc) (hl : legal acc = true)
    (hc : s.cur.stream = .control → num.toNat ≤ 2) :
    csrForm d reads num legal none s = .next (s.finishWrite d 2 fun r => BitVec.ofNat 64 (s.csr r num.toNat)) := by
  rw [csrForm, onStreams_of_admits hs, h]
  exact (check_of_true _ _ _ _ (csr_legal hl hc)).trans (withReads_of_admits hs _)

/-- On a stream that admits it, a form that writes a register that admits it does so, a SHAPE that the group may not take apart. -/
theorem csrForm_of_legal (hs : Admits s true false true [] reads) (h : csrAccess num.toNat = some acc) (hl : legal acc = true)
    (hc : s.cur.stream = .control → num.toNat ≤ 2) :
    csrForm d reads num legal (some f) s =
      check (!(decide (num.toNat = 5) && s.badShape (f acc (s.csr s.rf num.toNat) s.rf))) causeOperand s
        (.next (s.csrWrote d num.toNat fun r => f acc (s.csr r num.toNat) r)) := by
  rw [csrForm, onStreams_of_admits hs, h]
  exact (check_of_true _ _ _ _ (csr_legal hl hc)).trans (withReads_of_admits hs _)

theorem csrForm_of_bad_shape (hs : Admits s true false true [] reads) (h : csrAccess num.toNat = some acc) (hl : legal acc = true)
    (hc : s.cur.stream = .control → num.toNat ≤ 2) (hn : num.toNat = 5) (hb : s.badShape (f acc (s.csr s.rf num.toNat) s.rf) = true) :
    csrForm d reads num legal (some f) s = .next (s.raiseTrap { cause := 0x02 }) := by
  rw [csrForm_of_legal hs h hl hc]
  exact check_of_false _ _ _ _ (by rw [hb, decide_eq_true hn]; rfl)

/-- A CSR form that writes gives the register its value and d the old one, and leaves every other register and memory. -/
theorem csrForm_writes {v : Nat} (hs : Admits s true false true [] reads) (h : csrAccess num.toNat = some acc) (hl : legal acc = true)
    (hw : acc.writable = true) (hc : s.cur.stream = .control → num.toNat ≤ 2) (hf : f acc (s.csr s.rf num.toNat) s.rf = v)
    (hb : num.toNat = 5 → s.badShape v = false) (hv : v < 2 ^ 32 ∨ acc = .wide ∧ v < 2 ^ 64) :
    ∃ t, csrForm d reads num legal (some f) s = .next t ∧
      t.csr t.rf num.toNat = v ∧ (∀ m, m ≠ num.toNat → t.csr t.rf m = s.csr s.rf m) ∧
      (∀ r, t.x r = if r = d ∧ d ≠ 0 then BitVec.ofNat 64 (s.csr s.rf num.toNat) else s.x r) ∧
      t.scalar.pc = s.scalar.pc + 4 ∧ ∀ k, Memory.read t.mem k = Memory.read s.mem k := by
  subst hf
  refine ⟨s.csrWrote d num.toNat fun r => f acc (s.csr r num.toNat) r, ?_, ?_, fun m hm => ?_, fun r => ?_, ?_, fun k => ?_⟩
  · rw [csrForm_of_legal hs h hl hc]
    exact check_of_true _ _ _ _ (by simpa [Decidable.imp_iff_not_or] using hb)
  · rw [State.csr_csrWrote]
    exact State.csr_setCsr_same _ _ h hw hv
  · rw [State.csr_csrWrote, State.csr_setCsr_other _ _ _ hm, State.csr_setCsrFile_other _ _ _ hm]
  · rw [State.x, State.rf_csrWrote, RegFile.get_put, RegFile.get_setCsr]
    rfl
  · simp [State.csrWrote, State.scalar_setCsr, Scalar.advance, Scalar.mark, Scalar.mapFiles]
  · simp [State.csrWrote]

end

/-- Settles O33: a form's trap, its read or its write is decided by the access table of R68. -/
theorem stateRegisterForms : Obligations.StateRegisterForms := by
  intro d a num s n here old low writes traps
  have low_lt : low < 2 ^ 32 := Nat.mod_lt _ (by decide)
  refine ⟨fun hs => ⟨?_, ?_, ?_, ?_, ?_⟩, fun hs => ⟨?_, ?_, ?_⟩⟩
  · rintro acc ⟨h, hc⟩
    exact ⟨_, csrForm_reads hs h rfl hc, scalarWrote_finishWrite _ _ _ _⟩
  · intro h
    simp only [traps, exec_csrr, exec_csrw, exec_csrs, exec_csrc, csrForm_of_no_register hs h, and_self]
  · intro hc hn
    cases h : csrAccess n with
    | none => simp only [traps, exec_csrr, exec_csrw, exec_csrs, exec_csrc, csrForm_of_no_register hs h, and_self]
    | some acc => simp only [traps, exec_csrr, exec_csrw, exec_csrs, exec_csrc, csrForm_of_illegal hs h (.inr ⟨hc, hn⟩), and_self]
  · rintro ⟨h, -⟩
    simp only [traps, exec_csrw, csrForm_of_illegal (legal := CsrAccess.writable) hs h (.inl rfl)]
  · rintro acc ⟨h, -⟩ hrw
    have hl : acc.settable = false := by
      cases acc with
      | rw m => exact absurd rfl (hrw m)
      | ro | w1c | wide => rfl
    simp only [traps, exec_csrs, exec_csrc, csrForm_of_illegal hs h (.inl hl), and_self]
  · rintro m ⟨h, hc⟩
    have old_lt : old < 2 ^ 32 := s.csr_lt s.rf h rfl (by simp)
    exact ⟨fun hb => csrForm_writes hs h rfl rfl hc rfl hb (.inl (Nat.and_le_left.trans_lt low_lt)),
      fun hb => csrForm_writes hs h rfl rfl hc rfl hb (.inl (Nat.and_le_left.trans_lt (Nat.or_lt_two_pow old_lt low_lt))),
      fun hb => csrForm_writes hs h rfl rfl hc rfl hb (.inl ((Nat.sub_le _ _).trans_lt old_lt)),
      fun hn hb => csrForm_of_bad_shape hs h rfl hc hn hb, fun hn hb => csrForm_of_bad_shape hs h rfl hc hn hb,
      fun hn hb => csrForm_of_bad_shape hs h rfl hc hn hb⟩
  · rintro ⟨h, hc⟩
    have hn : n ≠ 5 := fun hn => by simp [hn, csrAccess] at h
    exact csrForm_writes hs h rfl rfl hc rfl (fun h5 => absurd h5 hn) (.inr ⟨rfl, (s.x a).isLt⟩)
  · rintro ⟨h, hc⟩
    have hn : n ≠ 5 := fun hn => by simp [hn, csrAccess] at h
    have old_lt : old < 2 ^ 32 := s.csr_lt s.rf h rfl (by simp)
    exact csrForm_writes hs h rfl rfl hc rfl (fun h5 => absurd h5 hn) (.inl ((Nat.sub_le _ _).trans_lt old_lt))

end Sys2Proof.Machine

/-! ## O28: the start of a table (R64, R107, R150, R152, R156, R161) -/

namespace Sys2Proof.Machine

/-! ### A kept sector -/

/-- A sector that a core keeps is in its memory system, and nothing else of the machine changes. -/
theorem State.keepSector_cases (s : State) (core ctx : Nat) (va : Word) :
    s.keepSector core ctx va = s ∨
      ∃ f : Core → Core, s.keepSector core ctx va = s.modCore core f ∧ ∀ c, ∃ m, f c = { c with mem := m } := by
  unfold State.keepSector
  split
  · exact .inl rfl
  · split
    · exact .inl rfl
    · dsimp only
      split
      · exact .inl rfl
      · refine .inr ⟨_, rfl, fun c => ?_⟩
        split <;> exact ⟨_, rfl⟩

@[simp] theorem State.keepSector_cur (s : State) (core ctx : Nat) (va : Word) : (s.keepSector core ctx va).cur = s.cur := by
  obtain h | ⟨f, h, -⟩ := s.keepSector_cases core ctx va <;> simp [h]

@[simp] theorem State.keepSector_pcc (s : State) (core ctx : Nat) (va : Word) : (s.keepSector core ctx va).pcc = s.pcc := by
  obtain h | ⟨f, h, -⟩ := s.keepSector_cases core ctx va <;> simp [h]

@[simp] theorem State.keepSector_pfc (s : State) (core ctx : Nat) (va : Word) : (s.keepSector core ctx va).pfc = s.pfc := by
  obtain h | ⟨f, h, -⟩ := s.keepSector_cases core ctx va <;> simp [h]

/-- Of a group's core, only the memory system changes. -/
theorem State.here_keepSector {s : State} (hs : s.cur.stream = .group) (ctx : Nat) (va : Word) :
    ∃ m, (s.keepSector s.curKey ctx va).here = { s.here with mem := m } := by
  have key : s.curKey = s.cur.core := by rw [State.curKey, hs]
  rw [key]
  obtain h | ⟨f, h, hf⟩ := s.keepSector_cases s.cur.core ctx va
  · exact ⟨_, by rw [h]⟩
  · obtain ⟨m, hm⟩ := hf s.here
    exact ⟨m, by rw [h, ← hm]; exact State.here_modHere s f⟩

theorem State.grp_keepSector {s : State} (hs : s.cur.stream = .group) (ctx : Nat) (va : Word) :
    (s.keepSector s.curKey ctx va).grp = s.grp := by
  obtain ⟨m, h⟩ := State.here_keepSector hs ctx va
  rw [State.grp, h, State.keepSector_cur]
  rfl

theorem State.scalar_keepSector {s : State} (hs : s.cur.stream = .group) (ctx : Nat) (va : Word) :
    (s.keepSector s.curKey ctx va).scalar = s.scalar := by
  rw [State.scalar_of_group hs, State.scalar_of_group (by simpa using hs), State.grp_keepSector hs]

/-! ### The header of a table -/

section
variable {va : Word} {kind : Nat} {exposed : Bool} {s : State} {w : BitVec 32} {x : Bool}

theorem withHeader_of_misaligned (h : va.toNat % 4 ≠ 0) (kind : Nat) (exposed : Bool) (k : BitVec 32 → State → Out) :
    withHeader va kind exposed s k = .next (s.raiseTrap { cause := 0x08, addr := va }) := by
  rw [withHeader, if_pos h]
  rfl

/-- Where a word stands at the address, the form goes on with it if it is a header of its kind. -/
theorem withHeader_of_word (ha : va.toNat % 4 = 0) (hw : s.fetch s.curKey s.curCtx va = .word w) (kind : Nat) (exposed : Bool)
    (k : BitVec 32 → State → Out) :
    withHeader va kind exposed s k =
      let s0 := s.keepSector s.curKey s.curCtx va
      if fld w.toNat 31 28 ≠ 0xA ∨ headerKind w = 3 ∨ headerLength w = 0 ∨ fld w.toNat 19 16 ≠ 0 then trap s0 causeEncoding
      else if headerKind w ≠ kind then trap s0 causeOperand
      else if exposed && !headerMode w then trap s0 causeOperand
      else k w s0 := by
  rw [withHeader, if_neg (not_not_intro ha), withWord, hw]

/-- The fields of a header of a kind and a mode (R63). -/
theorem headerOf_fields (h : HeaderOf w kind x) :
    fld w.toNat 31 28 = 0xA ∧ headerKind w = kind ∧ headerMode w = x ∧ fld w.toNat 19 16 = 0 ∧ headerLength w ≠ 0 := by
  obtain ⟨top, kind, mode, zero, length⟩ := h
  refine ⟨?_, kind, mode, zero, ?_⟩
  · show w.toNat / 2 ^ 28 % 2 ^ 4 = 0xA
    omega
  · show w.toNat / 2 ^ 0 % 2 ^ 16 ≠ 0
    rwa [Nat.pow_zero, Nat.div_one]

theorem withHeader_of_header (ha : va.toNat % 4 = 0) (hw : s.fetch s.curKey s.curCtx va = .word w) (h : HeaderOf w kind x)
    (hk : kind < 3) (he : exposed = true → x = true) (k : BitVec 32 → State → Out) :
    withHeader va kind exposed s k = k w (s.keepSector s.curKey s.curCtx va) := by
  obtain ⟨top, hkind, mode, zero, length⟩ := headerOf_fields h
  rw [withHeader_of_word ha hw]
  have : (exposed && !x) = false := by cases exposed <;> simp_all
  simp [top, hkind, mode, zero, length, this, hk.ne]

/-- A header of another kind is an illegal operand. -/
theorem withHeader_of_other_kind {other : Nat} (ha : va.toNat % 4 = 0) (hw : s.fetch s.curKey s.curCtx va = .word w)
    (h : HeaderOf w other x) (hk : other < 3) (ho : other ≠ kind) (k : BitVec 32 → State → Out) :
    withHeader va kind exposed s k = .next ((s.keepSector s.curKey s.curCtx va).raiseTrap { cause := 0x02 }) := by
  obtain ⟨top, hkind, -, zero, length⟩ := headerOf_fields h
  rw [withHeader_of_word ha hw]
  simp [top, hkind, zero, length, hk.ne, ho, trap, trapWith, causeOperand]

/-- A word that is no header is an illegal encoding. -/
theorem withHeader_of_no_header (ha : va.toNat % 4 = 0) (hw : s.fetch s.curKey s.curCtx va = .word w)
    (h : w.toNat / 2 ^ 28 ≠ 0xA) (k : BitVec 32 → State → Out) :
    withHeader va kind exposed s k = .next ((s.keepSector s.curKey s.curCtx va).raiseTrap { cause := 0x01 }) := by
  have top : fld w.toNat 31 28 ≠ 0xA := by
    show w.toNat / 2 ^ 28 % 2 ^ 4 ≠ 0xA
    omega
  rw [withHeader_of_word ha hw]
  exact if_pos (.inl top)

end

/-! ### The end of a command -/

/-- A command that is done writes no register, and its stream goes on at pc + 4. -/
theorem finished_finish (s : State) : Finished s (s.finish id) := by
  have kept (r : RegFile) : FileWrote r r 0 (0, 0) := ⟨fun n => by simp, by simp, rfl, rfl, rfl⟩
  refine ⟨onlyScalar_finish _ _, ?_⟩
  simp only [State.rf, State.scalar_finish]
  exact ⟨kept _, rfl, id, fun r h => ⟨r, h, kept r⟩, rfl, rfl⟩

/-! ### The start commands -/

theorem stream_of_admits_group {s : State} {fields reads : List (BitVec 5)} (h : Admits s true false false fields reads) :
    s.cur.stream = .group := by
  obtain ⟨h | h | h, -⟩ := h
  · exact h.1
  all_goals simp at h

/-- The delay of a start is at most 10 µs, and none is of an interlocked table or without a cap (R479). -/
theorem State.startDelay_le (s : State) (x : Bool) :
    s.startDelay x ≤ 20000 ∧ (x = false ∨ s.pfc.capping = false → s.startDelay x = 0) := by
  unfold State.startDelay
  split
  case isTrue h => exact ⟨by omega, fun hx => by rcases hx with hx | hx <;> simp [hx] at h⟩
  case isFalse => exact ⟨by omega, fun _ => rfl⟩

theorem withMode_of_mayStart {s : State} {exposed vector : Bool} (h : s.here.mayStart s.cur.slot exposed vector = true) (k : Out) :
    withMode exposed vector s k = k := if_pos h

/-- Two changes of a group that agree on the step's group are one. -/
theorem State.modGrp_congr (s : State) {f g : Group → Group} (h : f s.grp = g s.grp) : s.modGrp f = s.modGrp g := by
  show s.setCore s.cur.core (s.here.setGroup s.cur.slot (f s.grp)) = s.setCore s.cur.core (s.here.setGroup s.cur.slot (g s.grp))
  rw [h]

/-- The end of an instruction of a scalar stream is no change of the matrix stream or of the treadle controller. -/
theorem State.here_finish (s : State) (f : Scalar → Scalar) :
    (s.finish f).here.matrix = s.here.matrix ∧ (s.finish f).here.treadle = s.here.treadle := by
  cases h : s.cur.stream <;> simp [State.finish, State.modScalar, State.clearHold, State.modGrp, h]

/-- A command that ends with a change of its group, the scalar stream apart, is done. -/
theorem completes_of_modGrp_finish {i : Instr} {s s0 : State} {f g : Group → Group} (hs : s0.cur.stream = .group)
    (hi : exec i s = .next ((s0.modGrp f).finish id)) (hfg : f s0.grp = g s0.grp) (hg : (g s0.grp).sc = s0.grp.sc) :
    Completes i s fun t => ScalarJumped (s0.modGrp g) t (s0.scalar.pc + 4) 1 0 0 := by
  have scalar : (s0.modGrp g).scalar = s0.scalar := by
    rw [State.scalar_of_group hs, State.scalar_of_group (by simpa using hs), State.grp_modGrp, hg]
  refine ⟨_, by rw [hi, State.modGrp_congr s0 hfg], ?_⟩
  rw [← scalar]
  exact finished_finish (s0.modGrp g)

section
variable {a b : BitVec 5} {h : BitVec 3} {w : BitVec 32} {x : Bool} {s : State}

theorem exec_vrun_of_free (hs : Admits s true false false [] [a, b]) (hb : s.grp.v.busy = false) :
    exec (.vrun a b h) s =
      withHeader (s.x a) 0 false s fun w s' =>
        withMode (headerMode w) true s' <|
          .next ((s'.modGrp fun g =>
            { g with v := (VStream.start (s.x a) w g.sc.shape (s'.rf.rmode.toNat % 4) s'.pcc).delayed (s'.startDelay (headerMode w))
                     k := g.k.set 0 (s'.rf.get b) }).finish id) := by
  show execVrun a b s = _
  rw [execVrun, onStreams_of_admits hs, withReads_of_admits hs, if_neg (by simp [hb])]

theorem exec_mrun_of_free (hs : Admits s true false false [] [a]) (hidle : s.here.matrix.idle = true)
    (hheld : s.here.tableHeld s.pcc = false) :
    exec (.mrun a h) s =
      withHeader (s.x a) 1 false s fun w s' =>
        withMode (headerMode w) false s' <|
          .next ((s'.modHere fun c => { c with
            matrix := (c.matrix.start s'.cur.slot (s.x a) w false s'.pcc).delayed (s'.startDelay (headerMode w)) }).finish id) := by
  show execMrun a s = _
  rw [execMrun, onStreams_of_admits hs, withReads_of_admits hs, if_neg (by simp [hidle, hheld])]

theorem exec_trdl_of_free (hs : Admits s true false false [] [a]) (hc : s.here.job.compat = false)
    (hidle : s.here.matrix.idle = true) (hheld : s.here.tableHeld s.pcc = false) :
    exec (.trdl a h) s =
      withHeader (s.x a) 1 true s fun w s' =>
        withMode true false s' <|
          .next ((s'.modHere fun c => { c with
            matrix := (c.matrix.start s'.cur.slot (s.x a) w true s'.pcc).delayed (s'.startDelay true)
            treadle := c.treadle.start }).finish id) := by
  show execTrdl a s = _
  rw [execTrdl, onStreams_of_admits hs, notCompat, check_of_true _ _ _ _ (by simp [hc]), withReads_of_admits hs,
    if_neg (by simp [hidle, hheld])]

/-- CRUN of a program that passes every check enters its ranges and gives the channel the program. -/
theorem exec_crun_of_program {u : BitVec 4} {ws : List (BitVec 32)} {ch : Chan} {r : CRun} {n : Nat} {s0 : State} {blank : Chan}
    (hs : Admits s true false false [] [a, b]) (hu : channelUnit u = true) (hn : n = u.toNat - 2)
    (hrun : (s.here.chan n).run = none) (ha : (s.x a).toNat % 4 = 0) (hw : s.fetch s.curKey s.curCtx (s.x a) = .word w)
    (hh : HeaderOf w 2 x) (hs0 : s0 = s.keepSector s.curKey s.curCtx (s.x a))
    (hws : s0.tableWords (s.x a + 4) (headerLength w) = .ok ws)
    (hblank : blank = { (s0.here.chan n).setBase 0 (s0.x b) with
      run := some (CRun.blank s0.cur.slot (s.x a) ws s0.here.j s0.here.rcOrder s0.pcc) })
    (hread : blank.readAll (ws.length + 1) = .ok ch) (hr : ch.run = some r) (hcause : s0.here.programCause n r = none)
    (hroom : s0.here.rc.length + (ch.entries r).length ≤ 32) :
    exec (.crun a b u h) s =
      .next ((s0.modHere fun c => (c.enterAll n (ch.entries r) s0.pcc).modChan n fun _ => blank).finish id) := by
  subst hn hs0 hblank
  show execCrun a b u s = _
  rw [execCrun, onStreams_of_admits hs, check_of_true _ _ _ _ hu, withReads_of_admits hs]
  dsimp only
  rw [hrun, if_neg (by simp), withHeader_of_header ha hw hh (by decide) (by simp), hws]
  dsimp only
  rw [hread]
  dsimp only
  rw [hr]
  dsimp only
  rw [hcause]
  exact if_neg (by omega)

end

/-- Settles O28: where the header passes, what is left of a start command is its start. -/
theorem engineStarts : Obligations.EngineStarts := by
  intro a b h u x w s va s0 len ha hw
  have pfc : s0.pfc = s.pfc := State.keepSector_pfc _ _ _ _
  have cur : s0.cur = s.cur := State.keepSector_cur _ _ _ _
  have pcc : s0.pcc = s.pcc := State.keepSector_pcc _ _ _ _
  have length : headerLength w = len := by
    show w.toNat / 2 ^ 0 % 2 ^ 16 = w.toNat % 2 ^ 16
    rw [Nat.pow_zero, Nat.div_one]
  refine ⟨pfc ▸ s0.startDelay_le x, fun hs hb => ⟨fun hh hm => ?_, fun hh => ?_, fun hh => ?_⟩,
    fun hs hrun hrows hheld hh hm => ?_, ?_, fun v hs hb hv => ?_⟩
  · have hgroup := stream_of_admits_group hs
    obtain ⟨-, -, mode, -, -⟩ := headerOf_fields hh
    have grp : s0.grp = s.grp := State.grp_keepSector hgroup _ _
    have scalar : s0.scalar = s.scalar := State.scalar_keepSector hgroup _ _
    have rf : s0.rf = s.rf := congrArg Scalar.rf scalar
    have start := (exec_vrun_of_free (h := h) hs hb).trans (withHeader_of_header ha hw hh (by decide) (by simp) _)
    rw [show s.keepSector s.curKey s.curCtx (s.x a) = s0 from rfl, mode, withMode_of_mayStart (cur ▸ hm)] at start
    rw [← scalar]
    refine completes_of_modGrp_finish (cur ▸ hgroup) start ?_ rfl
    simp [VStream.start, VStream.delayed, length, mode, grp, rf, pcc, va, State.x, scalar, State.scalar_of_group hgroup]
  · rw [exec_vrun_of_free hs hb]
    exact withHeader_of_no_header ha hw hh _
  · rw [exec_vrun_of_free hs hb]
    exact withHeader_of_other_kind ha hw hh (by decide) (by decide) _
  · have idle : s.here.matrix.idle = true := by simp [Matrix.idle, hrun, hrows]
    obtain ⟨-, -, mode, -, -⟩ := headerOf_fields hh
    obtain ⟨m, here⟩ := State.here_keepSector (stream_of_admits_group hs) s.curCtx va
    refine ⟨?_, fun hc hx => ?_⟩
    · have start := (exec_mrun_of_free (h := h) hs idle hheld).trans (withHeader_of_header ha hw hh (by decide) (by simp) _)
      rw [show s.keepSector s.curKey s.curCtx (s.x a) = s0 from rfl, mode, withMode_of_mayStart (cur ▸ hm), cur, pcc] at start
      refine ⟨_, start, finished_finish _, ?_⟩
      rw [(State.here_finish _ _).1, State.here_modHere]
      exact ⟨rfl, _, rfl, rfl, rfl, length, mode, rfl⟩
    · subst hx
      have start := (exec_trdl_of_free (h := h) hs hc idle hheld).trans (withHeader_of_header ha hw hh (by decide) (by simp) _)
      rw [show s.keepSector s.curKey s.curCtx (s.x a) = s0 from rfl, withMode_of_mayStart (cur ▸ hm), cur, pcc] at start
      refine ⟨_, start, finished_finish _, ?_⟩
      rw [(State.here_finish _ _).2, State.here_modHere, here]
      exact ⟨rfl, rfl, rfl⟩
  · intro ws ch r hs hu hu' n c blank hrun hh hws hread hr hcause hroom
    have channel : channelUnit u = true := by simp [channelUnit]; omega
    have scalar : s0.scalar = s.scalar := State.scalar_keepSector (stream_of_admits_group hs) _ _
    have hblank : blank = { (s0.here.chan n).setBase 0 (s0.x b) with
        run := some (CRun.blank s0.cur.slot va ws s0.here.j s0.here.rcOrder s0.pcc) } := by
      simp [blank, c, cur, pcc, State.x, State.rf, scalar]
    have start := exec_crun_of_program (h := 0) hs channel rfl hrun ha hw hh rfl (length ▸ hws) hblank hread hr hcause hroom
    exact ⟨_, pcc ▸ start, finished_finish _⟩
  · rw [exec_vrun_of_free hs hb]
    exact withHeader_of_misaligned hv _ _ _

end Sys2Proof.Machine

/-! ## O55: a step executes the word that its turn fetches (R45, R46, R72, R98) -/

namespace Sys2Proof.Machine

/-! ### The word of a sector -/

/-- What stands above the first o bytes read is what is read from behind them. -/
theorem Memory.readN_add_div (m : Memory) (a o n : Nat) : m.readN a (o + n) / 256 ^ o = m.readN (a + o) n := by
  induction o generalizing a with
  | zero => simp
  | succ o ih =>
    have byte : (Memory.read m a).toNat < 256 := (Memory.read m a).isLt
    calc m.readN a (o + 1 + n) / 256 ^ (o + 1)
        = ((Memory.read m a).toNat + 256 * m.readN (a + 1) (o + n)) / 256 / 256 ^ o := by
          rw [Nat.div_div_eq_div_mul, ← Nat.pow_succ', Nat.add_right_comm o 1 n]; rfl
      _ = m.readN (a + 1) (o + n) / 256 ^ o := by congr 1; omega
      _ = m.readN (a + (o + 1)) n := by rw [ih, Nat.add_assoc, Nat.add_comm 1 o]

/-- What stands in the first n bytes read is what is read of them alone. -/
theorem Memory.readN_add_mod (m : Memory) (a n k : Nat) : m.readN a (n + k) % 256 ^ n = m.readN a n := by
  induction n generalizing a with
  | zero => simp [Memory.readN, Nat.mod_one]
  | succ n ih =>
    have byte : (Memory.read m a).toNat < 256 := (Memory.read m a).isLt
    have low : ((Memory.read m a).toNat + 256 * m.readN (a + 1) (n + k)) % 256 = (Memory.read m a).toNat := by omega
    have high : ((Memory.read m a).toNat + 256 * m.readN (a + 1) (n + k)) / 256 = m.readN (a + 1) (n + k) := by omega
    calc m.readN a (n + 1 + k) % 256 ^ (n + 1)
        = ((Memory.read m a).toNat + 256 * m.readN (a + 1) (n + k)) % (256 * 256 ^ n) := by
          rw [← Nat.pow_succ', Nat.add_right_comm n 1 k]; rfl
      _ = (Memory.read m a).toNat + 256 * (m.readN (a + 1) (n + k) % 256 ^ n) := by
          rw [Nat.mod_mul, low, high]
      _ = m.readN a (n + 1) := by rw [ih]; rfl

/-- Bytes read fill their bit vector. -/
theorem Memory.toNat_ofNat_readN (m : Memory) (a n : Nat) : (BitVec.ofNat (8 * n) (m.readN a n)).toNat = m.readN a n := by
  rw [BitVec.toNat_ofNat, Nat.pow_mul]
  exact Nat.mod_eq_of_lt (Memory.readN_lt m a n)

/-- The word at an aligned address of a sector is the four bytes there. -/
theorem wordOfSector_sectorBytes (s : State) {pa va : Nat} (hva : va % 4 = 0) (hpa : pa % 128 = va % 128) :
    wordOfSector (s.sectorBytes pa) va = BitVec.ofNat 32 (Memory.readN s.mem pa 4) := by
  have sector : (s.sectorBytes pa).toNat = s.mem.readN (pa / 128 * 128) 128 :=
    Memory.toNat_ofNat_readN _ _ 128
  have split : 128 = va % 128 + (4 + (124 - va % 128)) := by omega
  have place : pa / 128 * 128 + va % 128 = pa := by omega
  apply BitVec.eq_of_toNat_eq
  calc (s.sectorBytes pa).toNat / 2 ^ (8 * (va % 128)) % 2 ^ 32
      = s.mem.readN (pa / 128 * 128) (va % 128 + (4 + (124 - va % 128))) / 256 ^ (va % 128) % 256 ^ 4 := by
        rw [sector, ← split, Nat.pow_mul]; rfl
    _ = s.mem.readN pa 4 := by rw [Memory.readN_add_div, place, Memory.readN_add_mod]
    _ = s.mem.readN pa 4 % 2 ^ 32 := (Nat.mod_eq_of_lt (Memory.readN_lt _ _ _)).symm

/-! ### What follows the plan -/

theorem step_of_word {s t : State} {k : WordKind} {w : BitVec 32} (h : s.plan = (.word k w, t)) :
    (∀ i, decode k w.toNat = .ok i → step s = goOnAfter t (exec i t)) ∧
    (decode k w.toNat = .illegalEncoding → step s = goOnAfter t (trap t causeEncoding)) ∧
    (decode k w.toNat = .illegalOperand → step s = goOnAfter t (refuseUnit t)) := by
  unfold step
  rw [h]
  refine ⟨fun i hd => ?_, fun hd => ?_, fun hd => ?_⟩ <;> simp only [hd]

theorem step_of_block {s t : State} (h : s.plan = (.block, t)) : step s = goOnAfter t (runBlock t) := by
  unfold step
  rw [h]

theorem step_of_event {s t : State} {e : Event} (h : s.plan = (.event e, t)) : step s = exec e.toInstr t := by
  unfold step
  rw [h]

/-- A UNIT that a form does not take is an illegal operand on a group's stream, and an illegal encoding elsewhere (R45, R53). -/
theorem refuseUnit_eq (s : State) :
    refuseUnit s = .next (s.raiseTrap { cause := if s.cur.stream = .group then 0x02 else 0x01 }) := by
  cases h : s.cur.stream <;> simp [refuseUnit, onStreams, State.streamIn, check, trap, trapWith, causeOperand, causeEncoding, h]

/-! ### What comes next -/

theorem plan_of_input {s : State} {e : Event} {rest : List (Nat × Event)} {n : Nat} (h : s.inputs = (n, e) :: rest) (hn : n ≤ s.pcc) :
    s.plan = (.event e, { s with inputs := rest }) := by
  rw [State.plan, h]
  exact if_pos hn

theorem plan_of_agenda {s : State} {e : Event} {rest : List (Nat × Event)} {n : Nat} (hi : s.inputs = [])
    (h : s.agenda = (n, e) :: rest) (hn : n ≤ s.pcc) : s.plan = (.event e, { s with agenda := rest }) := by
  simp [State.plan, hi, State.planAgenda, h, hn]

/-- With no event due, the first turn left is taken. -/
theorem plan_of_turn {s : State} {f : Focus} {rest : List Focus} (hi : s.inputs = []) (ha : s.agenda = []) (h : s.todo = f :: rest)
    (hf : f ≠ turnsEnd) : s.plan = State.turn { s with cur := f, todo := rest } := by
  simp [State.plan, hi, State.planAgenda, ha, State.planTurns, h, hf]

section
variable {u : State}

/-- An active group with nothing to wait for, of code of class 1, takes the word at its pc. -/
theorem turn_of_active_group (hs : u.cur.stream = .group) (hg : u.here.groups.has u.cur.slot = true) (ha : u.grp.status = .active)
    (hh : u.grp.hold = none) (hb : u.here.job.blocks = none) : u.turn = u.scalarTurn false := by
  have turns : u.grp.mayTurn = true := by simp [Group.mayTurn, hh, ha]
  have fresh : u.grp.goesOn = false := by simp [Group.goesOn, hh, ha]
  simp [State.turn, hs, State.groupTurn, hg, turns, hh, hb, fresh]

/-- The word that a compute core fetches past its instruction cache is the four bytes where the translation of the address
points. -/
theorem fetch_of_page {core ctx : Nat} {va : Word} {e : TlbEntry} (hc : core < Config.controlBase) (hv : va.toNat < 2 ^ 56)
    (h4 : va.toNat % 4 = 0) (hl : u.lookup core ctx va.toNat = some e) (hx : e.executable = true) (hp : e.pa % 128 = 0)
    (hcfg : isConfig (e.phys va.toNat) = false) (hi : (u.core core).mem.icache.get (icKey ctx va.toNat) = none)
    (hhome : u.noHome (e.phys va.toNat) = none) (hpoison : u.poison.has (e.phys va.toNat / 32) = false) :
    u.fetch core ctx va = .word (BitVec.ofNat 32 (Memory.readN u.mem (e.phys va.toNat) 4)) := by
  have sector : e.phys va.toNat % 128 = va.toNat % 128 := by
    have page : 128 ∣ pageBytes e.level := pow_dvd_pow 2 (by omega : 7 ≤ 16 + 10 * e.level)
    have := Nat.mod_mod_of_dvd va.toNat page
    unfold TlbEntry.phys
    omega
  have v56 : ¬ va.toNat ≥ pow2 56 := Nat.not_le.2 hv
  have refuses : u.refusesFetch ctx (e.phys va.toNat) = false := by simp [State.refusesFetch, hcfg]
  rw [← wordOfSector_sectorBytes u h4 sector]
  simp [State.fetch, v56, hl, Nat.not_le.2 hc, hx, refuses, hi, State.fetchHome, hhome, hcfg, hpoison]

/-- A word that decodes, and that the scoreboard admits, is executed. -/
theorem scalarTurn_of_admits {w : BitVec 32} {i : Instr} (hw : u.fetch u.curKey u.curCtx u.scalar.pc = .word w)
    (hd : decode .scalar w.toNat = .ok i) (ha : u.scalar.admits i u.pcc = true) :
    u.scalarTurn false = (.word .scalar w, (u.keepSector u.curKey u.curCtx u.scalar.pc).noteWord w) := by
  have issues : ¬ u.pcc < u.scalar.nextIssue := by
    simp only [Scalar.admits, Bool.and_eq_true, decide_eq_true_eq] at ha
    omega
  replace hd : decodeScalar w.toNat = .ok i := hd
  simp [State.scalarTurn, issues, hw, hd, ha]

end

/-- Settles O55: the plan says what the step does; in a group's turn it is the word that the group fetches. -/
theorem stepRunsWord : Obligations.StepRunsWord := by
  intro s
  refine ⟨fun k w t h => ?_, fun t h => step_of_block h, fun e t h => step_of_event h,
    fun e rest n h hn => step_of_event (plan_of_input h hn), fun e rest n hi h hn => step_of_event (plan_of_agenda hi h hn), ?_⟩
  · obtain ⟨ok, encoding, operand⟩ := step_of_word h
    exact ⟨ok, encoding, fun hd => (operand hd).trans (congrArg (goOnAfter t) (refuseUnit_eq t))⟩
  · intro core slot pa level rest e i hin hag htodo u pc hc hg ha hh hb hhome hcfg hadm hl hx hv h4 hlevel hp hpa hic hpoison hd v
    subst hlevel hpa
    have fetched := fetch_of_page (u := u) hc hv h4 hl hx hp hcfg hic hhome hpoison
    have word : (BitVec.ofNat 32 (Memory.readN s.mem (e.phys pc.toNat) 4)).toNat = Memory.readN s.mem (e.phys pc.toNat) 4 :=
      Memory.toNat_ofNat_readN _ _ 4
    have plan := plan_of_turn hin hag htodo (by simp [turnsEnd])
    rw [turn_of_active_group rfl hg ha hh hb, scalarTurn_of_admits fetched (by rw [word]; exact hd) hadm] at plan
    exact (step_of_word plan).1 i (by rw [word]; exact hd)

end Sys2Proof.Machine

/-! ## O37: the issue of an MMA (R109, R231, R235-R238, R313) -/

namespace Sys2Proof.Machine

/-- What an MMA does with the format word of its issue. -/
def mmaWord (t : BitVec 3) (a sp : BitVec 4) (n : Nat) (x mark stamped : Bool) (s : State) (fw : Word) : Out :=
  orMiss (mmaFed s a sp n fw && decide ((s.mx.bank s.mx.act.toNat).usable ≤ s.pcc)) s <|
    if !s.mx.exposed && fwAcc fw && s.mx.tilePending (mmaTiles t.toNat x (fwB fw)) then .next s
    else checkPop (mmaPopOk s t a sp n x fw) causeOperand 0 fw s <| mmaIssue t a sp n x mark fw (useStamp stamped) s

/-- A stamped MMA takes the stamp, and no more (R238). -/
theorem here_useStamp (stamped : Bool) (v : State) : (useStamp stamped v).here.matrix =
    { v.here.matrix with stamp := if stamped then none else v.here.matrix.stamp } := by
  cases stamped
  · rfl
  · simp [useStamp]

theorem IssuesFrom.useStamp {s v : State} {r : MRun} (h : IssuesFrom s r v) (stamped : Bool) : IssuesFrom s r (useStamp stamped v) := by
  cases stamped
  · exact h
  · exact h.modMx (g := fun m => { m with stamp := none }) fun m => ⟨rfl, rfl, rfl, rfl⟩

theorem mmaIssue_eq (t : BitVec 3) (a sp : BitVec 4) (n : Nat) (x mark : Bool) (fw : Word) (extra : State → State) (s : State) :
    mmaIssue t a sp n x mark fw extra s =
      mIssue (mmaRetained s t a sp x mark fw (mmaPackets s a sp n fw).1 (mmaPackets s a sp n fw).2) false 4 s fun v =>
        extra (mmaStart t.toNat a.toNat sp.toNat n x fw (mmaPackets s a sp n fw).1 (mmaPackets s a sp n fw).2 v) := rfl

/-- Whether the cycle is one in which an MMA that is stamped, or is not, may issue (R112, R238). -/
def StampDue (s : State) (r : MRun) (stamped : Bool) : Prop :=
  stamped = true → r.exposed = true ∧ ∃ d, s.mx.stamp = some d ∧ s.mx.t0 + d = s.pcc

/-- A row of an MMA that issues is popped and lands in the cycles of R109, and holds the packet of its place. -/
theorem getElem_mmaRows (s : State) (t : BitVec 3) (a sp : BitVec 4) {n : Nat} (x : Bool) (fw : Word) (ap sps : List Packet) {j : Nat} (hj : j < n) :
    ∃ q, (mmaRows s t.toNat a.toNat sp.toNat n x fw ap sps)[j]? = some q ∧ q.tile = t.toNat ∧ q.row = j ∧
      q.pop = s.pcc + rowStride fw * j ∧ q.land = s.pcc + rowStride fw * j + 39 ∧ q.fw = fw ∧ q.bank = s.mx.act.toNat ∧ q.t = x ∧
      ∀ w, ap[j]? = some w → q.a = maskedBytes w.bytes w.mask := by
  refine ⟨_, by rw [mmaRows, List.getElem?_map, List.getElem?_range hj]; rfl, rfl, rfl, rfl, rfl, rfl, rfl, rfl, fun w hw => ?_⟩
  simp [hw]

section
variable {s : State} {r : MRun} (live : MatrixLive s r) {t : BitVec 3} {a sp : BitVec 4} {m : BitVec 5} {n : Nat} {x : Bool} {fw : Word}
include live

/-- An MMA that is due passes the checks of its stamp (R238). -/
theorem stampDue_passes {stamped : Bool} (h : StampDue s r stamped) :
    (stamped && decide (s.mx.t0 + s.mx.stamp.getD 0 < s.pcc)) = false ∧ (stamped && decide (s.pcc < s.mx.t0 + s.mx.stamp.getD 0)) = false ∧
      (stamped && !s.mx.exposed) = false ∧ (stamped && s.mx.stamp.isNone) = false := by
  cases stamped with
  | false => exact ⟨rfl, rfl, rfl, rfl⟩
  | true =>
    obtain ⟨hexp, d, hd, ht⟩ := h rfl
    simp [hd, ht, exposed_of_live live, hexp]

/-- An MMA outside a treadle run whose A path is free, in its stamp's cycle if it is stamped, pops its format word (R231, R238). -/
theorem exec_mma_of_live (htreadle : r.treadle = false) (hserves : (s.here.port a.toNat).serves 7 = true)
    (hcap : m.toNat + 1 ≤ (s.here.port a.toNat).capacity) (hfree : s.mx.aFree ≤ s.pcc) (x k p : BitVec 1) (hp : StampDue s r (decide (p = 1))) :
    exec (.mma t a sp m x k p) s = withFq s (orMiss false s (.next s))
      (mmaWord t a sp (m.toNat + 1) (decide (x = 1)) (decide (k = 1)) (decide (p = 1)) s) := by
  have hrun := treadleRun_of_live live
  have hpath : ¬ s.pcc < s.mx.aFree := by omega
  obtain ⟨late, early, closed, unstamped⟩ := stampDue_passes live hp
  refine (onMatrix_of_live live _).trans ?_
  rw [replaying_of_live live]
  dsimp only
  rw [hrun, htreadle, Bool.or_false, closed, check_of_true (!false) _ _ _ rfl, unstamped, check_of_true _ _ _ _ (by simp [hserves, hcap]), if_neg (by decide),
    if_neg hpath, late, check_of_true (!false) _ _ _ rfl, early, if_neg (by decide)]
  rfl

/-- An MMA whose packets, bank and tiles are there comes to the checks of its pop (R231, R236). -/
theorem mmaWord_of_fed (hfed : mmaFed s a sp n fw = true) (hbank : (s.mx.bank s.mx.act.toNat).usable ≤ s.pcc)
    (htile : r.exposed = false → fwAcc fw = true → s.mx.tilePending (mmaTiles t.toNat x (fwB fw)) = false) (mark stamped : Bool) :
    mmaWord t a sp n x mark stamped s fw = checkPop (mmaPopOk s t a sp n x fw) causeOperand 0 fw s
      (mmaIssue t a sp n x mark fw (useStamp stamped) s) := by
  have hwait : (!s.mx.exposed && fwAcc fw && s.mx.tilePending (mmaTiles t.toNat x (fwB fw))) = false := by
    rw [exposed_of_live live, Bool.eq_false_iff]
    simpa using htile
  rw [mmaWord, orMiss, hfed, decide_eq_true hbank, if_pos (by decide), hwait, if_neg (by decide)]

theorem issuesFrom_mmaStart (tile aport sport n : Nat) (x : Bool) (fw : Word) (ap sps : List Packet) :
    IssuesFrom s r (mmaStart tile aport sport n x fw ap sps s) := by
  unfold mmaStart
  exact (issuesFrom_refl live).modMx fun m => ⟨rfl, rfl, rfl, rfl⟩

/-- An MMA that issues: its rows enter the array, its path and its bank are held (R109, R235, R237). -/
theorem completes_mmaIssue {i : Instr} {mark stamped : Bool} (hi : exec i s = mmaIssue t a sp n x mark fw (useStamp stamped) s) :
    Completes i s fun u => MatrixIssued s u r 4 ∧ u.here.matrix.fq = s.here.matrix.fq.drop 1 ∧
      u.here.matrix.aFree = s.pcc + rowStride fw * n ∧
      u.here.matrix.rows = s.here.matrix.rows ++ mmaRows s t.toNat a.toNat sp.toNat n x fw (mmaPackets s a sp n fw).1 (mmaPackets s a sp n fw).2 ∧
      u.here.matrix.stamp = if stamped then none else s.here.matrix.stamp := by
  refine completes_of_from live ((hi.trans (mmaIssue_eq ..)).trans (mIssue_of_live live _ _))
    ((issuesFrom_mmaStart live ..).useStamp stamped) fun u hu => ?_
  rw [hu]
  simp [State.mNext, State.mx, here_useStamp, mmaStart, mmaRetained, Matrix.modBank]

end

/-- Settles O37: the format word of an MMA is popped, checked with its packets and its bank, and its rows enter the array. -/
theorem matrixMultiply : Obligations.MatrixMultiply := by
  intro t a sp m x k p r fw s n i tr live htreadle hserves hcap hfree hp
  have hexec : exec i s = withFq s (orMiss false s (.next s)) (mmaWord t a sp n tr (decide (k = 1)) (decide (p = 1)) s) :=
    exec_mma_of_live live htreadle hserves hcap hfree x k p fun h => hp (of_decide_eq_true h)
  refine ⟨fun hfq => ?_, fun hfw hfed hbank htile => ?_⟩
  · rw [hexec, withFq, replaying_of_live live, hfq]
    rfl
  · rw [withFq_of_live live hfw, mmaWord_of_fed live hfed hbank htile] at hexec
    refine ⟨fun hpop => ?_, fun hpop => ?_⟩
    · rw [hexec, hpop]
      rfl
    · rw [hpop, checkPop, if_pos rfl] at hexec
      obtain ⟨u, hu, issued, hfq, hpath, hrows, hstamp⟩ := completes_mmaIssue live hexec
      refine ⟨u, hu, issued, hfq, hpath, by simp [hrows, mmaRows], fun j hj => ?_, fun h => ?_, fun h => ?_⟩
      · obtain ⟨q, hq, htile, hrow, hpop, hland, hqfw, hqbank, hqt, hpacket⟩ :=
          getElem_mmaRows s t a sp tr fw (mmaPackets s a sp n fw).1 (mmaPackets s a sp n fw).2 hj
        refine ⟨q, ?_, htile, hrow, hpop, hland, hqfw, hqbank, hqt, fun w hw => hpacket w ?_⟩
        · rw [hrows, List.getElem?_append_right (Nat.le_add_right _ _), Nat.add_sub_cancel_left, hq]
        · simpa [mmaPackets, replaying_of_live live, List.getElem?_take, hj] using hw
      · simpa [h] using hstamp
      · simpa [h] using hstamp

end Sys2Proof.Machine

/-! ## O26: the control forms of a vector table (R113, R226) -/

namespace Sys2Proof.Machine

/-! ### What a control form leaves alone -/

/-- Two states of one step whose changes lie in what a vector micro-order may change. -/
def VectorKeeps (s t : State) : Prop := t.cur = s.cur ∧ t.pcc = s.pcc ∧ t.accs = s.accs ∧ VectorKept s t

theorem VectorKeeps.refl (s : State) : VectorKeeps s s :=
  ⟨rfl, rfl, rfl, rfl, rfl, rfl, rfl, rfl, rfl, fun _ _ => rfl, rfl, rfl, rfl, rfl, rfl, fun _ _ => ⟨rfl, rfl⟩, fun _ => rfl⟩

theorem VectorKeeps.trans {s t u : State} (h : VectorKeeps s t) (g : VectorKeeps t u) : VectorKeeps s u := by
  obtain ⟨cur, pcc, accs, vregs, vpoison, preds, ret, sc, blocks, groups, j, spm, matrix, chans, eft, cores, mem⟩ := h
  obtain ⟨cur', pcc', accs', vregs', vpoison', preds', ret', sc', blocks', groups', j', spm', matrix', chans', eft', cores', mem'⟩ := g
  rw [cur] at groups' cores'
  exact ⟨cur'.trans cur, pcc'.trans pcc, accs'.trans accs, vregs'.trans vregs, vpoison'.trans vpoison, preds'.trans preds, ret'.trans ret,
    sc'.trans sc, blocks'.trans blocks, fun n hn => (groups' n hn).trans (groups n hn), j'.trans j, spm'.trans spm, matrix'.trans matrix,
    chans'.trans chans, eft'.trans eft, fun k hk => ⟨(cores' k hk).1.trans (cores k hk).1, (cores' k hk).2.trans (cores k hk).2⟩,
    fun a => (mem' a).trans (mem a)⟩

/-- A change of the step's vector stream and of its group's k registers. -/
theorem VectorKeeps.modGrp (s : State) (f : Group → Group) (h : ∀ g, f g = { g with v := (f g).v, k := (f g).k }) : VectorKeeps s (s.modGrp f) := by
  have grp : (s.modGrp f).grp = { s.grp with v := (f s.grp).v, k := (f s.grp).k } := (State.grp_modGrp s f).trans (h _)
  have here : (s.modGrp f).here = s.here.modGroup s.cur.slot f := State.here_modHere _ _
  refine ⟨rfl, rfl, rfl, ?_, ?_, ?_, ?_, ?_, ?_, fun n hn => ?_, ?_, ?_, ?_, ?_, ?_, fun k hk => ?_, fun a => rfl⟩
  iterate 6 rw [grp]
  · rw [here, Core.group_modGroup_other _ _ _ _ hn]
  iterate 5 rw [here]; rfl
  · rw [State.modGrp, State.modHere, State.core_modCore_other _ _ _ _ hk]
    exact ⟨rfl, rfl⟩

theorem VectorKeeps.modV (s : State) (f : VStream → VStream) : VectorKeeps s (s.modV f) := .modGrp s _ fun _ => rfl

/-- A change of a core that is neither of its groups nor of what a vector micro-order leaves alone. -/
theorem VectorKeeps.modCore (s : State) (k : Nat) (f : Core → Core)
    (h : ∀ c, f c = { c with mem := (f c).mem, sched := (f c).sched }) : VectorKeeps s (s.modCore k f) := by
  have core (n : Nat) : (s.modCore k f).core n = { s.core n with mem := ((s.modCore k f).core n).mem, sched := ((s.modCore k f).core n).sched } := by
    by_cases hn : n = k
    · subst hn; rw [State.core_modCore_same]; exact h _
    · rw [State.core_modCore_other _ _ _ _ hn]
  have group (n : Nat) : (s.modCore k f).here.group n = s.here.group n := by rw [State.here, State.modCore_cur, core]; rfl
  have grp : (s.modCore k f).grp = s.grp := group _
  refine ⟨rfl, rfl, rfl, ?_, ?_, ?_, ?_, ?_, ?_, fun n _ => group n, ?_, ?_, ?_, ?_, ?_, fun n _ => ?_, fun a => rfl⟩
  iterate 6 rw [grp]
  iterate 5 rw [State.here, State.modCore_cur, core]; rfl
  · rw [core]; exact ⟨rfl, rfl⟩

theorem State.grp_modCore (s : State) (k : Nat) (f : Core → Core) (h : ∀ c, (f c).groups = c.groups) : (s.modCore k f).grp = s.grp := by
  by_cases hk : s.cur.core = k
  · subst hk; exact State.grp_modHere s f h
  · rw [State.grp, State.grp, State.here, State.modCore_cur, State.core_modCore_other _ _ _ _ hk, State.here]

/-- A sector that is kept for a fetch changes nothing of the vector stream (R113, R400). -/
theorem keepSector_vector (s : State) (ctx : Nat) (va : Word) :
    VectorKeeps s (s.keepSector s.curKey ctx va) ∧ (s.keepSector s.curKey ctx va).grp = s.grp := by
  obtain h | ⟨f, h, hf⟩ := s.keepSector_cases s.curKey ctx va
  · rw [h]; exact ⟨.refl s, rfl⟩
  · rw [h]
    refine ⟨.modCore s _ f fun c => ?_, s.grp_modCore _ f fun c => ?_⟩ <;> obtain ⟨m, hm⟩ := hf c <;> rw [hm]

/-! ### The stream goes on -/

/-- The vector stream goes on at a word, from which it may issue so many cycles later; what is to land is as it was. -/
def VectorGoes (s t : State) (next : Word) (cost : Nat) : Prop :=
  t.grp.v.pc = next ∧ t.grp.v.nextIssue = s.pcc + cost ∧ t.grp.v.writes = s.grp.v.writes ∧ VectorKeeps s t

theorem State.grp_vAdvance (s : State) (next : Word) (cost : Nat) : (s.vAdvance next cost).grp =
    { s.grp with v := { s.grp.v with seg := s.grp.v.seg.map (·.take (s.wordAt s.grp.v.pc)), pc := next, nextIssue := s.pcc + cost } } := by
  unfold State.vAdvance
  rw [State.grp_modHere _ _ (by intro c; rfl), State.grp_modV]

theorem VectorKeeps.vAdvance (s : State) (next : Word) (cost : Nat) : VectorKeeps s (s.vAdvance next cost) :=
  (VectorKeeps.modV s _).trans (.modCore _ _ _ fun _ => rfl)

/-- The stream goes on behind an effect that leaves what is to land. -/
theorem VectorKeeps.goes {s u : State} (h : VectorKeeps s u) (hw : u.grp.v.writes = s.grp.v.writes) (next : Word) (cost : Nat) :
    VectorGoes s (u.vAdvance next cost) next cost := by
  refine ⟨?_, ?_, ?_, h.trans (.vAdvance u next cost)⟩ <;> rw [State.grp_vAdvance]
  · rw [h.2.1]
  · exact hw

/-- A control form completes, the stream goes on at a word, and P holds of what it leaves. -/
def FormGoes (s : State) (i : Instr) (next : Word) (cost : Nat) (P : State → Prop) : Prop :=
  Completes i s fun t => t.grp.v.pc = next ∧ t.grp.v.nextIssue = s.pcc + cost ∧ t.grp.v.writes = s.grp.v.writes ∧
    t.accs = s.accs ∧ VectorKept s t ∧ P t

theorem VectorGoes.completes {i : Instr} {s t : State} {next : Word} {cost : Nat} {P : State → Prop} (h : VectorGoes s t next cost)
    (hi : exec i s = .next t) (hP : P t) : FormGoes s i next cost P := by
  obtain ⟨pc, issue, writes, -, -, accs, kept⟩ := h
  exact ⟨t, hi, pc, issue, writes, accs, kept, hP⟩

/-! ### The forms -/

/-- The check of a closing word goes on where the open segment, if there is one, passes (R113). -/
theorem withSegment_of_passes {u : State} (h : ∀ g, u.grp.v.seg = some g → g.passes u.pcc = true) (k : Out) : withSegment u.grp.v.seg u k = k := by
  cases hg : u.grp.v.seg with
  | none => rfl
  | some g => exact check_of_true _ _ _ _ (h g hg)

section
variable {s : State} (hs : s.cur.stream = .vector)
include hs

theorem onVector_of_vector (k : Out) : onVector s k = k := check_of_true _ _ _ _ (by simp [hs])

theorem completes_vshape {r c : BitVec 4} (htwin : s.isTwin = false ∨ c.toNat ≤ 7) (hcompat : s.here.job.compat = false ∨ r.toNat ≤ 7 ∧ c.toNat ≤ 7) :
    FormGoes s (.vshape r c) (s.grp.v.pc + 4) 1 fun t => Shape.of t.grp.v.wshape = ⟨r.toNat, c.toNat⟩ ∧ t.grp.k = s.grp.k := by
  have legal : (!(s.isTwin && decide (c.toNat > 7)) && !(s.here.job.compat && (decide (r.toNat > 7) || decide (c.toNat > 7)))) = true := by
    rcases htwin with h | h <;> rcases hcompat with h' | h' <;> simp [h, h']
  have fields : Shape.of (BitVec.ofNat 32 (16 * r.toNat + c.toNat)) = ⟨r.toNat, c.toNat⟩ := by
    have := r.isLt
    have := c.isLt
    rw [Shape.of, BitVec.toNat_ofNat, Nat.mod_eq_of_lt (by omega)]
    simp only [fld, pow2, Shape.mk.injEq]
    omega
  refine ((VectorKeeps.modV s fun v => { v with wshape := BitVec.ofNat 32 (16 * r.toNat + c.toNat) }).goes (by simp) _ _).completes
    ((onVector_of_vector hs _).trans (check_of_true _ _ _ _ legal)) ?_
  rw [State.grp_vAdvance, State.grp_modV]
  exact ⟨fields, rfl⟩

theorem exec_vshape_of_twin {r c : BitVec 4} (h : s.isTwin = true ∧ 7 < c.toNat) : exec (.vshape r c) s = .next (s.raiseTrap { cause := 0x02 }) :=
  (onVector_of_vector hs _).trans (check_of_false _ _ _ _ (by simp [h]))

theorem completes_vjmp {o : BitVec 15} (h : s.vTargetOk (s.grp.v.pc + o.signExtend 64 * 4) = true) :
    FormGoes s (.vjmp o) (s.grp.v.pc + o.signExtend 64 * 4) 2 fun t => t.grp.k = s.grp.k :=
  ((VectorKeeps.refl s).goes rfl _ _).completes ((onVector_of_vector hs _).trans (check_of_true _ _ _ _ h)) (by rw [State.grp_vAdvance])

theorem exec_branch_of_outside {n : BitVec 2} {o : BitVec 15} (h : s.vTargetOk (s.grp.v.pc + o.signExtend 64 * 4) = false) :
    exec (.vjmp o) s = .next (s.raiseTrap { cause := 0x02 }) ∧ exec (.vloop n o) s = .next (s.raiseTrap { cause := 0x02 }) :=
  ⟨(onVector_of_vector hs _).trans (check_of_false _ _ _ _ h), (onVector_of_vector hs _).trans (check_of_false _ _ _ _ h)⟩

omit hs in
theorem kreg_setK (g : Group) (n : BitVec 2) (v : Word) {m : Nat} (hm : m < 4) :
    ({ g with k := g.k.set n.toNat v } : Group).kreg m = if m = n.toNat then v else g.kreg m := by
  have := n.isLt
  simp only [Group.kreg, Nat.mod_eq_of_lt hm, Vector.getElem_set, eq_comm]

theorem completes_vloop {n : BitVec 2} {o : BitVec 15} (h : s.vTargetOk (s.grp.v.pc + o.signExtend 64 * 4) = true)
    (hk : s.grp.v.exposed = true ∨ ∀ w ∈ s.grp.v.writes, w.eff.writesK n.toNat = false) :
    let left := s.grp.kreg n.toNat - 1
    FormGoes s (.vloop n o) (if left = 0 then s.grp.v.pc + 4 else s.grp.v.pc + o.signExtend 64 * 4) (if left = 0 then 1 else 2) fun t =>
      ∀ m < 4, t.grp.kreg m = if m = n.toNat then left else s.grp.kreg m := by
  intro left
  have free : ¬ (!s.grp.v.exposed && s.grp.v.writes.any fun w => w.eff.writesK n.toNat) = true := by
    rcases hk with h | h
    · simp [h]
    · simpa using fun _ => h
  let counted (s : State) : State := s.modGrp fun g => { g with k := g.k.set n.toNat left }
  have hi : exec (.vloop n o) s = .next ((counted s).vAdvance (if left = 0 then s.grp.v.pc + 4 else s.grp.v.pc + o.signExtend 64 * 4)
      (if left = 0 then 1 else 2)) := by
    refine (onVector_of_vector hs _).trans ((check_of_true _ _ _ _ h).trans ((if_neg free).trans ?_))
    by_cases hl : left = 0
    · rw [if_pos hl, if_pos hl]
      exact congrArg _ (if_neg (not_not_intro hl))
    · rw [if_neg hl, if_neg hl]
      exact congrArg _ (if_pos hl)
  refine ((VectorKeeps.modGrp s _ fun _ => rfl).goes (by simp) _ _).completes hi fun m hm => ?_
  rw [State.grp_vAdvance, State.grp_modGrp]
  exact kreg_setK s.grp n left hm

theorem completes_vend (h : ∀ g, s.grp.v.seg = some g → g.passes s.pcc = true) :
    FormGoes s .vend s.grp.v.pc 1 fun t => t.grp.v.ended = true ∧ t.grp.v.seg = none ∧ t.grp.v.latch = none ∧ t.grp.k = s.grp.k := by
  refine ((VectorKeeps.modV s fun v => { v with seg := none, latch := none, ended := true }).goes (by simp) _ _).completes
    ((onVector_of_vector hs _).trans (withSegment_of_passes h _)) ?_
  rw [State.grp_vAdvance, State.grp_modV]
  exact ⟨rfl, rfl, rfl, rfl⟩

theorem exec_vend_of_failed (h : ¬ ∀ g, s.grp.v.seg = some g → g.passes s.pcc = true) : exec .vend s = .next (s.raiseTrap { cause := 0x06 }) := by
  push Not at h
  obtain ⟨g, hg, hfail⟩ := h
  refine (onVector_of_vector hs _).trans ?_
  rw [hg]
  exact check_of_false _ _ _ _ (by simpa using hfail)

/-- What follows the literal of a segment header of an exposed table (R113). -/
def vsegOpens (pc : Word) (y : BitVec 20) (lit : BitVec 32) (s : State) : Out :=
  withSegment s.grp.v.seg s <|
    .next (((s.modV fun v => { v with seg := none }).vAdvance (pc + 8) 1).modV fun v => { v with seg := some (Seg.opened s.pcc y.toNat lit) })

theorem exec_vseg_of_exposed (hexp : s.grp.v.exposed = true) (y : BitVec 20) :
    exec (.vseg y) s = withLiteral (s.grp.v.pc + 4) s (vsegOpens s.grp.v.pc y) :=
  (onVector_of_vector hs _).trans (check_of_true _ _ _ _ hexp)

theorem completes_vseg (hexp : s.grp.v.exposed = true) (h : ∀ g, s.grp.v.seg = some g → g.passes s.pcc = true) {lit : BitVec 32}
    (hlit : s.fetch s.curKey s.curCtx (s.grp.v.pc + 4) = .word lit) (y : BitVec 20) :
    FormGoes s (.vseg y) (s.grp.v.pc + 8) 1 fun t => t.grp.v.seg = some (Seg.opened s.pcc y.toNat lit) ∧ t.grp.k = s.grp.k := by
  obtain ⟨keeps, grp⟩ := keepSector_vector s s.curCtx (s.grp.v.pc + 4)
  have hi := exec_vseg_of_exposed hs hexp y
  rw [withLiteral, hlit] at hi
  dsimp only at hi
  generalize s.keepSector s.curKey s.curCtx (s.grp.v.pc + 4) = v at hi keeps grp
  have pcc : v.pcc = s.pcc := keeps.2.1
  rw [vsegOpens, withSegment_of_passes (by rw [grp, pcc]; exact h), pcc] at hi
  obtain ⟨pc, issue, writes, goes⟩ := (keeps.trans (.modV v fun v => { v with seg := none })).goes (by simp [grp]) (s.grp.v.pc + 8) 1
  refine VectorGoes.completes (next := s.grp.v.pc + 8) ⟨?_, ?_, ?_, goes.trans (.modV _ _)⟩ hi ?_ <;> rw [State.grp_modV]
  · exact pc
  · exact issue
  · exact writes
  · refine ⟨rfl, ?_⟩
    rw [State.grp_vAdvance, State.grp_modV, grp]

theorem exec_vseg_of_fault (hexp : s.grp.v.exposed = true) {f : TrapArgs} (hf : s.fetch s.curKey s.curCtx (s.grp.v.pc + 4) = .fault f)
    (y : BitVec 20) : exec (.vseg y) s = .next (s.raiseTrap f) := by
  rw [exec_vseg_of_exposed hs hexp, withLiteral, hf]
  rfl

theorem completes_vnop (z : BitVec 25) : FormGoes s (.vnop z) (s.grp.v.pc + 4) 1 fun t => t.grp.k = s.grp.k :=
  ((VectorKeeps.refl s).goes rfl _ _).completes (onVector_of_vector hs _) (by rw [State.grp_vAdvance])

end

/-- Settles O26: each control form moves the stream on from its effect on the stream alone. -/
theorem vectorControlForms : Obligations.VectorControlForms := by
  intro r c n o y z s pc target passes goes hs
  exact ⟨completes_vshape hs, exec_vshape_of_twin hs, completes_vjmp hs, exec_branch_of_outside hs, completes_vloop hs, completes_vend hs,
    fun lit hexp h hlit => completes_vseg hs hexp h hlit y, fun f hexp hf => exec_vseg_of_fault hs hexp hf y, exec_vend_of_failed hs,
    completes_vnop hs z⟩

end Sys2Proof.Machine

/-! ## O24: the scratchpad forms of the vector stream (R102, R135, R219) -/

namespace Sys2Proof.Machine

/-! ### The bytes of a tile as accesses -/

/-- Whether every byte of a cell is active, so that the cell is one access (R219). -/
def VEnv.whole (v : VEnv) (c : Nat) : Bool := decide (((List.range 4).filter fun i => v.active (4 * c + i)).length = 4)

/-- The accesses of a scratchpad form to one cell (R219). -/
def VEnv.cellBytes (v : VEnv) (base : Word) (data c : Nat) : List VAcc :=
  if v.whole c = true then [{ elem := 4 * c, va := base + BitVec.ofNat 64 (4 * c), size := 4, at_ := 4 * c, b := el 32 data c }]
  else ((List.range 4).filter fun i => v.active (4 * c + i)).map fun i =>
    { elem := 4 * c + i, va := base + BitVec.ofNat 64 (4 * c + i), size := 1, at_ := 4 * c + i, b := el 8 data (4 * c + i) }

theorem VEnv.tileBytes_eq (v : VEnv) (base : Word) (data : Nat) : v.tileBytes base data = (List.range 256).flatMap (v.cellBytes base data) := by
  unfold VEnv.tileBytes VEnv.cellBytes VEnv.whole
  simp only [decide_eq_true_eq, Nat.add_zero]

theorem VEnv.active_of_whole {v : VEnv} {c : Nat} (h : v.whole c = true) {i : Nat} (hi : i < 4) : v.active (4 * c + i) = true :=
  List.length_filter_eq_length_iff.1 (of_decide_eq_true h) i (List.mem_range.2 hi)

/-- The accesses of a tile: whole cells, and single active bytes of the others (R219). -/
theorem VEnv.mem_tileBytes {v : VEnv} {base : Word} {data : Nat} {x : VAcc} (h : x ∈ v.tileBytes base data) :
    x.part = 0 ∧ ∃ c < 256, (v.whole c = true ∧ x.size = 4 ∧ x.at_ = 4 * c ∧ x.va = base + BitVec.ofNat 64 (4 * c)) ∨
      (v.whole c = false ∧ x.size = 1 ∧ ∃ i < 4, v.active (4 * c + i) = true ∧ x.at_ = 4 * c + i ∧ x.va = base + BitVec.ofNat 64 (4 * c + i)) := by
  rw [VEnv.tileBytes_eq, List.mem_flatMap] at h
  obtain ⟨c, hc, hx⟩ := h
  rw [List.mem_range] at hc
  unfold VEnv.cellBytes at hx
  split at hx
  · next hw =>
    obtain rfl := List.mem_singleton.1 hx
    exact ⟨rfl, c, hc, .inl ⟨hw, rfl, rfl, rfl⟩⟩
  · next hw =>
    obtain ⟨i, hi, rfl⟩ := List.mem_map.1 hx
    obtain ⟨hi, ha⟩ := List.mem_filter.1 hi
    exact ⟨rfl, c, hc, .inr ⟨by simpa using hw, rfl, i, List.mem_range.1 hi, ha, rfl, rfl⟩⟩

/-- What a list of accesses carries, byte by byte: f of an address and a byte of it, in places of k bits. -/
def carried (k : Nat) (f : Word → Nat → Nat) (l : List VAcc) : Nat :=
  (l.map fun x => ((List.range x.size).map fun i => f x.va i * 2 ^ (k * i)).sum * 2 ^ (k * x.at_)).sum

/-- What is carried of one byte of the tile. -/
def VEnv.byteOf (v : VEnv) (base : Word) (f : Word → Nat → Nat) (b : Nat) : Nat :=
  if v.whole (b / 4) = true then f (base + BitVec.ofNat 64 (4 * (b / 4))) (b % 4) else f (base + BitVec.ofNat 64 b) 0

theorem placed_add (w : Nat) (p : Nat → Bool) (r : Nat → Nat) (n m : Nat) :
    placed w p r (n + m) = placed w p r n + (((List.range m).filter fun i => p (n + i)).map fun i => r (n + i) * 2 ^ (w * (n + i))).sum := by
  unfold placed
  rw [List.range_add, List.filter_append, List.map_append, List.sum_append, List.filter_map, List.map_map]
  rfl

/-- The bytes that a cell carries are those of its active bytes. -/
theorem carried_cellBytes (v : VEnv) (base : Word) (data k : Nat) (f : Word → Nat → Nat) (c : Nat) :
    carried k f (v.cellBytes base data c) =
      (((List.range 4).filter fun i => v.active (4 * c + i)).map fun i => v.byteOf base f (4 * c + i) * 2 ^ (k * (4 * c + i))).sum := by
  have div (i : Nat) (hi : i < 4) : (4 * c + i) / 4 = c := by omega
  unfold VEnv.cellBytes
  split
  · next hw =>
    have all : (List.range 4).filter (fun i => v.active (4 * c + i)) = List.range 4 :=
      List.filter_eq_self.2 fun i hi => VEnv.active_of_whole hw (List.mem_range.1 hi)
    rw [all, carried, List.map_singleton, List.sum_singleton, ← List.sum_map_mul_right]
    congr 1
    refine List.map_congr_left fun i hi => ?_
    have hi : i < 4 := List.mem_range.1 hi
    rw [VEnv.byteOf, div i hi, if_pos hw, show (4 * c + i) % 4 = i by omega, Nat.mul_assoc, ← Nat.pow_add]
    congr 2
    ring
  · next hw =>
    rw [carried, List.map_map]
    congr 1
    refine List.map_congr_left fun i hi => ?_
    have hi := List.mem_range.1 (List.mem_filter.1 hi).1
    rw [VEnv.byteOf, div i hi, if_neg hw]
    simp

/-- The bytes that the accesses of a tile carry, each in its place. -/
theorem carried_tileBytes (v : VEnv) (base : Word) (data k : Nat) (f : Word → Nat → Nat) :
    carried k f (v.tileBytes base data) = placed k v.active (v.byteOf base f) 1024 := by
  have cells (n : Nat) : carried k f ((List.range n).flatMap (v.cellBytes base data)) = placed k v.active (v.byteOf base f) (4 * n) := by
    induction n with
    | zero => rfl
    | succ n ih =>
      rw [show 4 * (n + 1) = 4 * n + 4 by ring, placed_add, ← ih, ← carried_cellBytes v base data, List.range_succ, List.flatMap_append]
      simp [carried]
  rw [VEnv.tileBytes_eq, cells 256]

/-- A byte of an access of the tile is an active one, and carries what the access does of it. -/
theorem VEnv.byteOf_of_mem {v : VEnv} {base : Word} {data : Nat} {x : VAcc} (h : x ∈ v.tileBytes base data) {i : Nat} (hi : i < x.size)
    (f : Word → Nat → Nat) : x.at_ + i < 1024 ∧ v.active (x.at_ + i) = true ∧ v.byteOf base f (x.at_ + i) = f x.va i := by
  obtain ⟨-, c, hc, ⟨hw, hsize, hat, hva⟩ | ⟨hw, hsize, j, hj, ha, hat, hva⟩⟩ := VEnv.mem_tileBytes h
  · rw [hsize] at hi
    rw [hat, hva, VEnv.byteOf, show (4 * c + i) / 4 = c by omega, if_pos hw, show (4 * c + i) % 4 = i by omega]
    exact ⟨by omega, VEnv.active_of_whole hw hi, rfl⟩
  · obtain rfl : i = 0 := by omega
    rw [hat, hva, Nat.add_zero, VEnv.byteOf, show (4 * c + j) / 4 = c by omega, hw, if_neg (by decide)]
    exact ⟨by omega, ha, rfl⟩

theorem foldl_add_eq_sum {α : Type} (g : α → Nat) (l : List α) (n : Nat) : l.foldl (fun acc x => acc + g x) n = n + (l.map g).sum := by
  induction l generalizing n with
  | nil => rfl
  | cons x l ih => rw [List.foldl_cons, ih, List.map_cons, List.sum_cons, Nat.add_assoc]

/-- The bytes that a tile's accesses cover are the active ones (R191, R219). -/
theorem testBit_accBytes_tileBytes (v : VEnv) (base : Word) (data : Nat) {b : Nat} (hb : b < 1024) :
    (accBytes (v.tileBytes base data)).testBit b = v.active b := by
  have covers (x : VAcc) (hx : x ∈ v.tileBytes base data) : x.bytes * pow2 x.at_ =
      ((List.range x.size).map fun i => 1 * 2 ^ (1 * i)).sum * 2 ^ (1 * x.at_) := by
    obtain ⟨hpart, c, -, h⟩ := VEnv.mem_tileBytes hx
    have hsize : x.size = 4 ∨ x.size = 1 := h.imp (·.2.1) (·.2.1)
    rw [VAcc.bytes, if_pos hpart, Nat.one_mul, pow2_eq]
    rcases hsize with h | h <;> rw [h] <;> rfl
  have bytes : accBytes (v.tileBytes base data) = placed 1 v.active (fun _ => 2 ^ 1 - 1) 1024 := by
    have ones : v.byteOf base (fun _ _ => 1) = fun _ => 2 ^ 1 - 1 := by
      funext b
      rw [VEnv.byteOf, ite_self]
      rfl
    rw [← ones, ← carried_tileBytes v base data, accBytes, foldl_add_eq_sum, Nat.zero_add, carried, List.map_congr_left covers]
  rw [bytes, placed_testBit 1 (by decide) _ _ _ (by omega), Nat.div_one]

/-- A byte that a tile's accesses read is the scratchpad's, as it was before the scalar stores of the cycle (R135). -/
theorem el_scratchBytes_tileBytes (c : Core) (v : VEnv) (base : Word) (data : Nat) {x : VAcc} (hx : x ∈ v.tileBytes base data) {i : Nat}
    (hi : i < x.size) : el 8 (c.scratchBytes (v.tileBytes base data)) (x.at_ + i) = (c.spmBefore (x.va.toNat + i)).toNat := by
  have read : c.scratchBytes (v.tileBytes base data) = carried 8 (fun va i => (c.spmBefore (va.toNat + i)).toNat) (v.tileBytes base data) := by
    rw [Core.scratchBytes, foldl_add_eq_sum, Nat.zero_add]
    rfl
  obtain ⟨hlt, hactive, hbyte⟩ := VEnv.byteOf_of_mem hx hi fun va i => (c.spmBefore (va.toNat + i)).toNat
  have small (b : Nat) : v.byteOf base (fun va i => (c.spmBefore (va.toNat + i)).toNat) b < 2 ^ 8 := by
    unfold VEnv.byteOf
    split <;> exact BitVec.isLt _
  rw [read, carried_tileBytes, el_eq _ _ _ (by decide), placed_get 8 _ _ small _ _ hlt, if_pos hactive, hbyte]

/-! ### The checks of a scratchpad form (R219) -/

/-- Whether the accesses lie in the launch's reservation. -/
def InScratch (s : State) (l : List VAcc) : Prop := ∀ x ∈ l, x.va.toNat + x.size ≤ s.here.job.spmSize

theorem withBase_of_aligned {base : Word} (h : base.toNat % 4 = 0) (l : List VAcc) (s : State) (k : Out) : withBase base l s k = k := by
  cases l with
  | nil => rfl
  | cons x l => exact if_pos h

theorem withScratch_of_inside {base : Word} (h : base.toNat % 4 = 0) {l : List VAcc} {s : State} (hl : InScratch s l) (k : Out) :
    withScratch base l s k = k := by
  have none : l.find? (fun x => !s.here.inReservation x.va x.size) = none := by
    rw [List.find?_eq_none]
    intro x hx
    simpa [Core.inReservation] using hl x hx
  rw [withScratch, withBase_of_aligned h, none]

/-- A tile's first access is where a misaligned base traps. -/
theorem withScratch_of_misaligned {base : Word} (h : base.toNat % 4 ≠ 0) {v : VEnv} {data : Nat} {x : VAcc}
    (hx : (v.tileBytes base data).head? = some x) (s : State) (k : Out) :
    withScratch base (v.tileBytes base data) s k = .next (s.raiseTrap { cause := 0x08, addr := x.va, elem := x.elem }) := by
  have hpart : x.part = 0 := (VEnv.mem_tileBytes (List.mem_of_head? hx)).1
  have first : x.first = x.va := by simp [VAcc.first, VAcc.runs, hpart]
  obtain ⟨l, hl⟩ := List.head?_eq_some_iff.1 hx
  rw [withScratch, hl, withBase, if_neg h, first]
  rfl

/-- The first access that is not inside traps at its first byte outside. -/
theorem withScratch_of_outside {base : Word} (h : base.toNat % 4 = 0) {pre post : List VAcc} {x : VAcc} {n : Nat} {s : State}
    (hpre : InScratch s pre) (hx : ¬ InScratch s [x]) (hn : n < x.size)
    (hin : ∀ j < n, (x.va + BitVec.ofNat 64 j).toNat < s.here.job.spmSize) (hout : s.here.job.spmSize ≤ (x.va + BitVec.ofNat 64 n).toNat) (k : Out) :
    withScratch base (pre ++ x :: post) s k =
      .next (s.raiseTrap { cause := 0x0A, addr := x.va + BitVec.ofNat 64 n, elem := x.elem + n }) := by
  have found : (pre ++ x :: post).find? (fun x => !s.here.inReservation x.va x.size) = some x := by
    rw [List.find?_eq_some_iff_append]
    refine ⟨by simpa [InScratch, Core.inReservation] using hx, pre, post, rfl, fun y hy => ?_⟩
    simpa [Core.inReservation] using hpre y hy
  have byte : (List.range x.size).find? (fun i => !s.here.inReservation (x.va + BitVec.ofNat 64 i) 1) = some n := by
    rw [List.find?_range_eq_some]
    exact ⟨by simpa [Core.inReservation] using hout, List.mem_range.2 hn, fun j hj => by simpa [Core.inReservation] using hin j hj⟩
  rw [withScratch, withBase_of_aligned h, found]
  dsimp only
  rw [byte]
  rfl

theorem poisonedIn_eq_false {p : NatSet} {a n : Nat} (h : ∀ i < n, (a + i) / 32 ∉ p) : poisonedIn p a n = false := by
  induction n with
  | zero => rfl
  | succ n ih =>
    rw [poisonedIn, ih fun i hi => h i (by omega), Bool.or_false]
    simpa [NatSet.has] using h n (by omega)

/-! ### The forms -/

theorem OnlyVector.vAdvance (s : State) (next : Word) (cost : Nat) : OnlyVector s (s.vAdvance next cost) :=
  (OnlyVector.modV s _).trans (OnlyVector.modHere _ _ fun _ => rfl)

@[simp] theorem State.pipes_modV (s : State) (f : VStream → VStream) : (s.modV f).here.pipes = s.here.pipes := by
  simp [State.modV, State.modGrp, Core.modGroup, Core.setGroup]

@[simp] theorem State.pipes_vAdvance (s : State) (next : Word) (cost : Nat) : (s.vAdvance next cost).here.pipes = s.here.pipes := by
  simp [State.vAdvance]

/-- A micro-order goes on from its effects on the stream: its sources are taken, its writes are left to land, its pipe is held (R101, R102). -/
theorem vectorLeft_vAdvance {s x : State} {F : VForm} {effs : List VEffect} {latch : Option Latch} (only : OnlyVector s x)
    (grp : x.grp = { s.grp with v := { s.grp.v with
      latch, writes := s.grp.v.writes ++ effs.map fun e => ⟨s.pcc + (F.cycles (Shape.of s.grp.v.wshape) (bankExcess (s.grp.bankReads F))).2 - 1, e⟩ } })
    (pipes : x.here.pipes = s.here.pipes.take F.time.pipe s.pcc (F.cycles (Shape.of s.grp.v.wshape) (bankExcess (s.grp.bankReads F))).1)
    (accs : x.accs = s.accs) (keep : F.keep = none → latch = s.grp.v.latch) (drop : F.keep = some 0 → latch = none)
    (hold : ∀ f, F.keep = some 1 → F.a = some f → ∃ p, latch = some ⟨f, BitVec.ofNat 8192 (s.vEnv F false).1.a, p⟩) :
    VectorLeft s (x.vAdvance (s.grp.v.pc + 4) 1) F effs := by
  have advanced := only.trans (.vAdvance x (s.grp.v.pc + 4) 1)
  have pcc : x.pcc = s.pcc := only.2.1
  have issued : VectorIssued s (x.vAdvance (s.grp.v.pc + 4) 1) F := by
    refine vectorIssued_of_only advanced ?_ ?_ ((State.pipes_vAdvance x _ _).trans pipes) ?_ ?_ ?_ ?_ <;> rw [State.grp_vAdvance]
    · rw [pcc]
    · rw [grp]
    · rw [grp]; exact keep
    · rw [grp]; exact drop
    · rw [grp]; exact hold
  obtain ⟨-, -, -, others, -, -, p, q, r, here⟩ := advanced
  refine ⟨issued, accs, by rw [here], others, ?_, ?_⟩ <;> rw [State.grp_vAdvance, grp]

/-- A micro-order whose writes are left to land, and that waits for no access, has issued (R101, R102). -/
theorem memTail_left (F : VForm) (s : State) (o l : Nat) (env : VEnv) (pa : Nat) (effs : List VEffect)
    (hc : F.cycles (Shape.of s.grp.v.wshape) (bankExcess (s.grp.bankReads F)) = (o, l)) (ha : env.a = (s.vEnv F false).1.a) :
    ∃ t, memTail F s (s.leave (s.pcc + l - 1) effs) o env pa none = .next t ∧ VectorLeft s t F effs := by
  let writes := s.grp.v.writes ++ effs.map fun e => (⟨s.pcc + l - 1, e⟩ : VWrite)
  have left : OnlyVector s (s.leave (s.pcc + l - 1) effs) := .modV s _
  have leftGrp : (s.leave (s.pcc + l - 1) effs).grp = { s.grp with v := { s.grp.v with writes } } := s.grp_modV _
  have leftPipes : (s.leave (s.pcc + l - 1) effs).here.pipes = s.here.pipes := s.pipes_modV _
  have leftAccs : (s.leave (s.pcc + l - 1) effs).accs = s.accs := rfl
  unfold memTail
  refine ⟨_, rfl, ?_⟩
  generalize s.leave (s.pcc + l - 1) effs = u at *
  obtain ⟨taken, takenPipes, takenAccs, latch, takenGrp, keep, drop, hold⟩ := State.takeSources_spec u F env.a pa
  generalize u.takeSources F env.a pa = v at *
  obtain ⟨reserved, reservedGrp, reservedPipes, reservedAccs⟩ := State.reserveDest_spec v F
  generalize v.reserveDest F = w at *
  rw [leftGrp] at takenGrp keep
  rw [ha] at hold
  refine vectorLeft_vAdvance (latch := latch) ((((left.trans taken).trans reserved).trans (.modV _ _)).trans (.modHere _ _ fun _ => rfl)) ?_ ?_
    (reservedAccs.trans (takenAccs.trans leftAccs)) keep drop hold
  · rw [State.grp_modHere _ _ (by intro c; rfl), State.grp_modV, reservedGrp, takenGrp, hc]
    simp [writes]
  · rw [State.here_modHere, State.pipes_modV, reservedPipes, takenPipes, leftPipes, hc, left.2.1]

/-- A vlds as a form of the vector stream (R102, R219). -/
def VForm.scratchLoad (d : BitVec 6) (n : BitVec 2) (g : BitVec 4) : VForm :=
  { d := some d, guard := g, keep := some 0, time := ⟨.mx, .quarter, 6⟩, kreads := [n.toNat] }

/-- A vsts as a form of the vector stream (R102, R219). -/
def VForm.scratchStore (a : BitVec 6) (n : BitVec 2) (k : BitVec 1) (g : BitVec 4) : VForm :=
  { a := some a, guard := g, keep := some k, time := ⟨.mx, .quarter, 2⟩, kreads := [n.toNat] }

/-- What a vlds reads of the scratchpad for the tile of an environment. -/
def scratchRead (s : State) (base : Word) (v : VEnv) : VOut :=
  { value := s.here.scratchBytes (v.tileBytes base 0), mask := accBytes (v.tileBytes base 0) }

/-- What a vlds reads: the bytes of its accesses, into the active bytes of its tile (R135, R219). -/
theorem scratchRead_spec (s : State) (base : Word) (v : VEnv) :
    (∀ x ∈ v.tileBytes base 0, ∀ i < x.size, el 8 (scratchRead s base v).value (x.at_ + i) = (s.here.spmBefore (x.va.toNat + i)).toNat) ∧
    (∀ b < 1024, (scratchRead s base v).mask.testBit b = v.active b) ∧ Quiet (scratchRead s base v) ∧ (scratchRead s base v).ret = none :=
  ⟨fun _ hx _ hi => el_scratchBytes_tileBytes s.here v base 0 hx hi, fun _ hb => testBit_accBytes_tileBytes v base 0 hb, ⟨rfl, rfl, rfl⟩, rfl⟩

/-- A vlds that is ready comes to the checks of its base and its bytes, and reads bytes without poison. -/
theorem exec_vlds_of_ready {s : State} {d : BitVec 6} {n : BitVec 2} {g : BitVec 4} (h : VectorReady s (.scratchLoad d n g)) :
    let F := VForm.scratchLoad d n g
    let base := s.grp.kreg n.toNat
    let l := (s.vEnv F false).1.tileBytes base 0
    ∃ out, exec (.vlds d n g) s = withScratch base l s out ∧
      ((∀ x ∈ l, poisonedIn s.here.spmPoison x.va.toNat x.size = false) → ∃ t, out = .next t ∧
        VectorLeft s t F (F.effects (Shape.of s.grp.v.wshape) s.here.job.compat (scratchRead s base (s.vEnv F false).1) false ++
          (if s.isTwin = true then F.effects (Shape.of s.grp.v.wshape) s.here.job.compat (scratchRead s base (s.vEnv F true).1) true else []))) := by
  intro F base l
  refine ⟨_, (onVector_of_vector h.1 _).trans (vIssue_of_ready h _), fun hclean => ?_⟩
  have unpoisoned : l.find? (fun x => poisonedIn s.here.spmPoison x.va.toNat x.size) = none := by
    simpa [List.find?_eq_none] using hclean
  obtain ⟨t, ht, left⟩ := vTail_spec F s _ _ (s.vEnv F false).1 0 (scratchRead s base (s.vEnv F false).1)
    (if s.isTwin = true then scratchRead s base (s.vEnv F true).1 else {}) rfl rfl rfl
  refine ⟨t, ?_, ?_⟩
  · rw [← ht]
    show (match l.find? _ with | some x => _ | none => _) = _
    rw [unpoisoned]
    rfl
  · cases hw : s.isTwin <;> simpa [hw, F, VForm.scratchLoad] using left

/-- A vsts that is ready and reads no poison comes to the checks of its base and its bytes, and leaves them to be written. -/
theorem exec_vsts_of_ready {s : State} {a : BitVec 6} {n : BitVec 2} {k : BitVec 1} {g : BitVec 4} (h : VectorReady s (.scratchStore a n k g))
    (hclean : VectorClean s (.scratchStore a n k g)) :
    let F := VForm.scratchStore a n k g
    let base := s.grp.kreg n.toNat
    let l := (s.vEnv F false).1.tileBytes base (s.vEnv F false).1.a
    ∃ out, exec (.vsts a n k g) s = withScratch base l s out ∧
      ((s.isTwin = true → (s.vEnv F true).1.tileBytes base (s.vEnv F true).1.a = l) → ∃ t, out = .next t ∧
        VectorLeft s t F [.spm (l.map fun x => (x.va.toNat, x.size, x.b))]) := by
  intro F base l
  let cycles := F.cycles (Shape.of s.grp.v.wshape) (bankExcess (s.grp.bankReads F))
  let out := withAgreement F l (fun e => e.tileBytes base e.a) s <|
    memTail F s (s.leave (s.pcc + cycles.2 - 1) [.spm (l.map fun x => (x.va.toNat, x.size, x.b))]) cycles.1 (s.vEnv F false).1 (s.vEnv F false).2.1 none
  have issue : exec (.vsts a n k g) s = check (!({ useA := accBytes l } : VOut).usesPoison (s.vEnv F false).2.1 0 0 &&
      !s.shadowPoison F fun e => { useA := accBytes (e.tileBytes base e.a) }) causePoison s (withScratch base l s out) :=
    (onVector_of_vector h.1 _).trans (vIssue_of_ready h _)
  rw [congrArg Prod.fst hclean.1, usesPoison_clean, shadowPoison_clean F s _ hclean.2, check_of_true (!false && !false) _ _ _ rfl] at issue
  refine ⟨out, issue, fun hagree => ?_⟩
  have agreed : (!s.isTwin || decide ((s.vEnv F true).1.tileBytes base (s.vEnv F true).1.a = l)) = true := by
    cases hw : s.isTwin <;> simp [hagree, hw]
  obtain ⟨t, ht, left⟩ := memTail_left F s cycles.1 cycles.2 (s.vEnv F false).1 (s.vEnv F false).2.1 _ rfl rfl
  exact ⟨t, (check_of_true _ _ _ _ agreed).trans ht, left⟩

/-- Settles O24: each form comes from its issue to the checks of its address, and from there to what its tile's accesses carry. -/
theorem vectorScratchForms : Obligations.VectorScratchForms := by
  intro d a n k g s base L S el es inside protects reads
  refine ⟨fun h _ hbase hin hclean => ?_, fun h hc hbase hin hagree => ?_, fun x h hbase hx => ?_, fun x h hc hbase hx => ?_,
    fun h hbase pre x post m hl hpre hx hm hlow hout => ?_, fun h hc hbase pre x post m hl hpre hx hm hlow hout => ?_⟩
  · obtain ⟨out, hexec, hleft⟩ := exec_vlds_of_ready (d := d) (n := n) (g := g) h
    obtain ⟨t, ht, left⟩ := hleft fun x hx => poisonedIn_eq_false (hclean x hx)
    exact ⟨scratchRead s base el, scratchRead s base (s.vEnv L true).1, scratchRead_spec s base el, fun _ => scratchRead_spec s base _, t,
      hexec.trans ((withScratch_of_inside hbase hin out).trans ht), left⟩
  · obtain ⟨out, hexec, hleft⟩ := exec_vsts_of_ready (a := a) (n := n) (k := k) (g := g) h hc
    obtain ⟨t, ht, left⟩ := hleft hagree
    exact ⟨t, hexec.trans ((withScratch_of_inside hbase hin out).trans ht), left⟩
  · obtain ⟨out, hexec, -⟩ := exec_vlds_of_ready (d := d) (n := n) (g := g) h
    exact hexec.trans (withScratch_of_misaligned hbase hx s out)
  · obtain ⟨out, hexec, -⟩ := exec_vsts_of_ready (a := a) (n := n) (k := k) (g := g) h hc
    exact hexec.trans (withScratch_of_misaligned hbase hx s out)
  · obtain ⟨out, hexec, -⟩ := exec_vlds_of_ready (d := d) (n := n) (g := g) h
    rw [show (s.vEnv (.scratchLoad d n g) false).1.tileBytes (s.grp.kreg n.toNat) 0 = _ from hl] at hexec
    exact hexec.trans (withScratch_of_outside hbase hpre hx hm hlow hout out)
  · obtain ⟨out, hexec, -⟩ := exec_vsts_of_ready (a := a) (n := n) (k := k) (g := g) h hc
    rw [show (s.vEnv (.scratchStore a n k g) false).1.tileBytes (s.grp.kreg n.toNat) (s.vEnv (.scratchStore a n k g) false).1.a = _ from hl] at hexec
    exact hexec.trans (withScratch_of_outside hbase hpre hx hm hlow hout out)

end Sys2Proof.Machine

/-! ## O42: command windows, range entries, and the events of the clicker channels (R117, R155, R244, R249, R253, R326, R488) -/

namespace Sys2Proof.Machine

/-! ### A trap of an engine stream (R74) -/

/-- A trap of an engine stream that is charged stops the stream and suspends its owner's group, and makes one record. -/
theorem State.raiseTrap_of_engine {s : State} {t : TrapArgs} (hs : s.cur.stream ≠ .control) (hc : s.here.chargeable s.chargedSlot = true)
    (ho : s.orphaned = false) (hi : t.cause ≠ causeIntegrity) (hseg : t.cause ≠ causeSegment) (htw : t.cause ≠ causeTwin) :
    ∃ i r, s.raiseTrap t = (s.setCore s.cur.core (((s.here.stopStream s.cur.slot s.cur.stream).withdraw s.chargedSlot).modGroup s.chargedSlot
      fun g => g.suspend s.pcc i)).record r := by
  have compute : s.raiseTrap t = s.trapCompute t := by
    unfold State.raiseTrap
    split
    · contradiction
    · rfl
  rw [compute, State.trapCompute]
  rw [hc, ho, if_neg hi, State.checkFailure, if_pos ⟨hseg, htw⟩, Bool.not_false, Bool.and_self, if_pos rfl]
  exact ⟨_, _, rfl⟩

/-! ### A window's replay (R244, R326) -/

@[simp] theorem Core.matrix_popRows (c : Core) (l : List MRow) : (c.popRows l).matrix = c.matrix := by
  unfold Core.popRows
  induction l generalizing c with
  | nil => rfl
  | cons q l ih =>
    rw [List.foldl_cons, ih]
    cases q.aport <;> cases q.sport <;> rfl

theorem Matrix.act_zeroTiles (m : Matrix) (l : NatSet) : (l.foldl Matrix.zeroTile m).act = m.act := by
  induction l generalizing m with
  | nil => rfl
  | cons t l ih => exact ih (m.zeroTile t)

/-- What a replay leaves of the matrix stream (R244): the rows of other commands still to be popped, the ACT of the marker, the window as
replayed, and its commands to be issued again. -/
theorem Core.startReplay_matrix {c : Core} {w : Window} {r : MRun} (hw : c.matrix.window = some w) (hr : c.matrix.run = some r) (x : Nat) :
    (c.startReplay x).matrix.rows = c.matrix.otherRows w (x + 1) ∧
    (c.startReplay x).matrix.aFree = (c.matrix.otherRows w (x + 1)).foldl (fun a q => max a (q.pop + rowStride q.fw)) x ∧
    (c.startReplay x).matrix.act = w.markerAct c.matrix.act ∧
    (∃ p, (c.startReplay x).matrix.replay = some p ∧ p.cmds.map (·.2) = w.cmds.map fun k => k.replayed c.matrix.rows x) ∧
    (c.startReplay x).matrix.window = some { w with replayed := true } := by
  have popped : (c.cyclePops x).matrix = c.matrix := Core.matrix_popRows _ _
  unfold Core.startReplay
  rw [hw, hr]
  dsimp only
  rw [popped]
  refine ⟨rfl, rfl, ?_, ⟨_, rfl, ?_⟩, rfl⟩
  · rw [Matrix.act_zeroTiles]
  · simp

/-- A word that is poisoned lies in a weight bank or in the accumulator. -/
theorem Matrix.poisonSite_eq (m : Matrix) (p : ReplaySite) : ∃ banks accPoison, m.poisonSite p = { m with banks, accPoison } := by
  cases p <;> exact ⟨_, _, rfl⟩

@[simp] theorem State.core_detect (s : State) (u : TestUnit) (k : Nat) : (s.detect u).core k = s.core k := by
  unfold State.detect State.startTest
  dsimp only
  split
  · rfl
  · split <;> rfl

@[simp] theorem State.cur_detect (s : State) (u : TestUnit) : (s.detect u).cur = s.cur ∧ (s.detect u).pcc = s.pcc := by
  unfold State.detect State.startTest
  dsimp only
  split
  · exact ⟨rfl, rfl⟩
  · split <;> exact ⟨rfl, rfl⟩

/-- The state in which a window's trigger is answered: an uncorrectable error has poisoned its word and is noted by the platform controller. -/
def TriggerNoted (s u : State) (core : Nat) : Prop :=
  u.cur = ⟨core, 0, .matrix⟩ ∧ u.pcc = s.pcc ∧ u.mem = s.mem ∧
    ∃ banks accPoison, u.core core = { s.core core with matrix := { (s.core core).matrix with banks, accPoison } }

/-- The error of a trigger: an uncorrectable one poisons its word, and the platform controller learns of it, and of a replay (R244). -/
def State.noteTrigger (s : State) (trigger : ReplayTrigger) (v : TestUnit) : State :=
  if trigger.isParity || s.here.matrix.replayable then
    ((if trigger.isParity then s.modHere fun c => { c with matrix := c.matrix.poisonSite trigger.site } else s).detect v).tick
  else s

theorem triggerNoted_noteTrigger (s : State) (core : Nat) (trigger : ReplayTrigger) (v : TestUnit) :
    TriggerNoted s (State.noteTrigger { s with cur := ⟨core, 0, .matrix⟩ } trigger v) core := by
  have same (u : State) (h : u = { s with cur := ⟨core, 0, .matrix⟩ }) : TriggerNoted s u core := by
    subst h
    exact ⟨rfl, rfl, rfl, _, _, rfl⟩
  have detected {u : State} (h : TriggerNoted s u core) : TriggerNoted s (u.detect v).tick core := by
    obtain ⟨cur, pcc, mem, banks, accPoison, matrix⟩ := h
    refine ⟨(u.cur_detect v).1.trans cur, (u.cur_detect v).2.trans pcc, (u.detect_mem_objects v).1.trans mem, banks, accPoison, ?_⟩
    exact (u.core_detect v core).trans matrix
  unfold State.noteTrigger
  split
  · refine detected ?_
    split
    · obtain ⟨banks, accPoison, h⟩ := (s.core core).matrix.poisonSite_eq trigger.site
      refine ⟨rfl, rfl, rfl, banks, accPoison, ?_⟩
      rw [← h]
      exact State.here_modHere _ _
    · exact same _ rfl
  · exact same _ rfl

section
variable {s : State} {core : Nat} (hcore : s.cores.has core = true) (trigger : ReplayTrigger) {r : MRun}
  (hrun : (s.core core).matrix.run = some r) (htrapped : r.trapped = false)
include hcore hrun htrapped

/-- A trigger of a window is noted, and then the window is replayed, or the stream traps (R244, R451). -/
theorem exec_commandWindowReplay :
    ∃ u, TriggerNoted s u core ∧ exec (.commandWindowReplay core trigger) s =
      .next { (if (s.core core).matrix.replayable = true then u.modHere fun c => c.startReplay s.pcc else u.raiseTrap { cause := causePoison }) with
        cur := s.cur } := by
  have hi : exec (.commandWindowReplay core trigger) s = .next (s.at ⟨core, 0, .matrix⟩ _) := congrArg _ (if_neg (by simp [hcore]))
  rw [State.at_eq, show State.here { s with cur := ⟨core, 0, .matrix⟩ } = s.core core from rfl, hrun] at hi
  dsimp only at hi
  rw [htrapped, if_neg (by decide)] at hi
  exact ⟨_, triggerNoted_noteTrigger s core trigger _, hi⟩

theorem completes_replay {w : Window} (hw : (s.core core).matrix.window = some w) (hrep : (s.core core).matrix.replayable = true) :
    Completes (.commandWindowReplay core trigger) s fun t =>
      (t.core core).matrix.rows = (s.core core).matrix.otherRows w (s.pcc + 1) ∧
      ((s.core core).matrix.otherRows w (s.pcc + 1) = [] → (t.core core).matrix.aFree = s.pcc) ∧
      (t.core core).matrix.act = w.markerAct (s.core core).matrix.act ∧
      (∃ p, (t.core core).matrix.replay = some p ∧ p.cmds.map (·.2) = w.cmds.map fun k => k.replayed (s.core core).matrix.rows s.pcc) ∧
      (t.core core).matrix.window = some { w with replayed := true } ∧ t.mem = s.mem := by
  obtain ⟨u, ⟨cur, -, mem, banks, accPoison, noted⟩, hi⟩ := exec_commandWindowReplay hcore trigger hrun htrapped
  rw [if_pos hrep] at hi
  have replayed : ((u.modHere fun c => c.startReplay s.pcc).core core) = (u.core core).startReplay s.pcc := by
    rw [State.modHere, cur, State.core_modCore_same]
  obtain ⟨rows, aFree, act, replay, window⟩ := Core.startReplay_matrix (c := u.core core) (w := w) (r := r)
    (by rw [noted]; exact hw) (by rw [noted]; exact hrun) s.pcc
  rw [← replayed] at rows aFree act replay window
  rw [noted] at rows aFree act replay
  refine ⟨_, hi, rows, fun h => aFree.trans ?_, act, replay, window, mem⟩
  exact congrArg (List.foldl _ s.pcc) h

end

/-- A trap of the matrix stream stops its run, and leaves the groups (R74). -/
theorem Core.stopStream_matrix {c : Core} {r : MRun} (hr : c.matrix.run = some r) (slot : Nat) :
    (c.stopStream slot .matrix).groups = c.groups ∧ ∃ q, (c.stopStream slot .matrix).matrix.run = some q ∧ q.trapped = true := by
  unfold Core.stopStream Core.endTreadle
  dsimp only
  split
  · exact ⟨rfl, _, congrArg (Option.map _) hr, rfl⟩
  · exact ⟨rfl, _, congrArg (Option.map _) hr, rfl⟩

theorem completes_replayTrap {s : State} {core : Nat} (hcore : s.cores.has core = true) (trigger : ReplayTrigger) {r : MRun}
    (hrun : (s.core core).matrix.run = some r) (htrapped : r.trapped = false) (hrep : (s.core core).matrix.replayable = false)
    (hcharge : (s.core core).chargeable r.owner = true) (horphan : r.orphan = false) :
    Completes (.commandWindowReplay core trigger) s fun t =>
      ((t.core core).group r.owner).status = .trapped ∧ ((t.core core).group r.owner).vregs = ((s.core core).group r.owner).vregs ∧
      (∃ q, (t.core core).matrix.run = some q ∧ q.trapped = true) ∧ t.mem = s.mem := by
  obtain ⟨u, ⟨cur, -, mem, banks, accPoison, noted⟩, hi⟩ := exec_commandWindowReplay hcore trigger hrun htrapped
  rw [hrep, if_neg (by decide)] at hi
  have here : u.here = u.core core := by rw [State.here, cur]
  have run : u.here.matrix.run = some r := by rw [here, noted]; exact hrun
  have charged : u.chargedSlot = r.owner := by rw [State.chargedSlot, cur]; simp [run]
  have own : u.orphaned = false := by rw [State.orphaned, cur]; simp [run, horphan]
  obtain ⟨i, record, trapped⟩ := State.raiseTrap_of_engine (s := u) (t := { cause := causePoison }) (by simp [cur])
    (by rw [charged, here, noted]; exact hcharge) own (by decide) (by decide) (by decide)
  obtain ⟨groups, stopped⟩ := Core.stopStream_matrix run u.cur.slot
  have core_eq : (u.raiseTrap { cause := causePoison }).core core =
      ((u.here.stopStream u.cur.slot .matrix).withdraw r.owner).modGroup r.owner fun g => g.suspend u.pcc i := by
    rw [trapped, State.core_record, charged, cur]
    exact State.core_setCore_same _ _ _
  have group : (u.here.stopStream u.cur.slot .matrix).group r.owner = (s.core core).group r.owner := by
    rw [Core.group, groups, here, noted]
    rfl
  refine ⟨_, hi, ?_, ?_, ?_, ((u.raiseTrap_mem_objects _).1).trans mem⟩
  · exact (congrArg (fun c : Core => (c.group r.owner).status) core_eq).trans (by rw [Core.group_modGroup_same]; rfl)
  · refine (congrArg (fun c : Core => (c.group r.owner).vregs) core_eq).trans ?_
    rw [Core.group_modGroup_same, Core.group_withdraw, group]
    rfl
  · obtain ⟨q, hq, hqt⟩ := stopped
    exact ⟨q, (congrArg (fun c : Core => c.matrix.run) core_eq).trans hq, hqt⟩

/-! ### Range entries (R117) -/

theorem completes_rangeEntryRetire {s : State} {core : Nat} (hcore : s.cores.has core = true) (entry : Nat) :
    Completes (.rangeEntryRetire core entry) s fun t =>
      t.core core = { s.core core with rc := (s.core core).rc.filter fun e => !(decide (e.order = entry) && (s.core core).retires e) } :=
  ⟨_, congrArg Host.Outcome.next (s.modLive_of_has core _ hcore), State.core_modCore_same _ _ _⟩

/-! ### The channel of a step -/

@[simp] theorem Core.chan_mod (c : Core) (n : Nat) : c.chan (n % 4) = c.chan n := by simp [Core.chan]

@[simp] theorem Core.modChan_mod (c : Core) (n : Nat) (f : Chan → Chan) : c.modChan (n % 4) f = c.modChan n f := by simp [Core.modChan]

section
variable {s : State} {n : Nat} (hs : s.cur.stream = .chan n)
include hs

theorem State.chanNo_of_chan : s.chanNo = n % 4 := by rw [State.chanNo, hs]

theorem State.ch_of_chan : s.ch = s.here.chan n := by rw [State.ch, State.chanNo_of_chan hs, Core.chan_mod]

theorem State.here_modRun (f : CRun → CRun) : (s.modRun f).here = s.here.modChan n fun ch => { ch with run := ch.run.map f } := by
  rw [State.modRun, State.modCh, State.chanNo_of_chan hs, State.here_modHere, Core.modChan_mod]

theorem State.run_modRun {r : CRun} (h : s.ch.run = some r) (f : CRun → CRun) : (s.modRun f).ch.run = some (f r) := by
  rw [State.ch_of_chan hs] at h
  rw [State.ch_of_chan (s := s.modRun f) hs, State.here_modRun hs, Core.chan_modChan_same, h]
  rfl

end

/-! ### Copies between places of the scratchpad (R249, R250, R488) -/

/-- A side of a copy that lies in the scratchpad's reservation passes its checks. -/
theorem State.checkSide_of_scratch {s : State} {ea : Word} {len : Nat} (hres : s.here.inReservation ea len = true) (hcut : ea.toNat + len ≤ 2 ^ 19)
    (p : Perm) : s.checkSide 0 ea len 1 p = .ok [] := by
  rw [State.checkSide, if_neg (by decide), Nat.mod_one, if_neg (by decide), if_pos rfl, hres, pow2, decide_eq_true hcut]
  rfl

/-- The copy of a program within the scratchpad stands alone, its bytes are there, and it is not written yet. -/
def CRun.Holds (r : CRun) (k : CCopy) : Prop := r.copies = [k] ∧ k.dest = [] ∧ k.reading = 0 ∧ k.issued = false

/-- The copy as it stands once it is written: no global store of it is to be answered. -/
def CCopy.written (k : CCopy) : CCopy := { k with issued := true, writing := 0 }

section
variable {s : State} {n : Nat} (hs : s.cur.stream = .chan n) {r : CRun} {k : CCopy} (hk : r.Holds k)
include hs hk

/-- A copy within the scratchpad is complete in the cycle in which it is written (R155). -/
theorem State.writeCopy_of_local :
    ∃ f : CRun → CRun, s.writeCopy r k = (s.modRun f).schedule s.pcc (.clickerCopyComplete s.cur.core (n % 4) k.iter) ∧
      f r = { r with copies := [k.written] } := by
  obtain ⟨copies, dest, -, -⟩ := hk
  have parts : k.parts = [] := by rw [CCopy.parts, dest]; exact ite_self _
  refine ⟨fun r => { r with copies := r.copies.map fun x => if x.iter = k.iter then { x with issued := true, writing := 0 } else x }, ?_, ?_⟩
  · rw [State.writeCopy, parts, ← State.chanNo_of_chan hs]
    rfl
  · simp [copies, CCopy.written]

/-- A copy within the scratchpad whose bytes are there is written, and no other is (R254). -/
theorem State.drainCopies_of_local (hrun : s.ch.run = some r) (hsrc : r.srcSpace = 0) (hdst : r.dstSpace = 0) {lit : BitVec 32} {len : Nat} (hop : r.op = some (.copy 0 lit len))
    (m : Nat) : s.drainCopies (m + 2) = s.writeCopy r k := by
  obtain ⟨f, hw, hf⟩ := State.writeCopy_of_local hs hk
  obtain ⟨copies, -, reading, issued⟩ := hk
  have free : r.writesOut k.iter = false := by simp [CRun.writesOut, copies]
  have raw : r.consumes = false := by simp [CRun.consumes, hsrc, hdst, hop]
  have done : (s.writeCopy r k).drainCopies (m + 1) = s.writeCopy r k := by
    have after : (s.writeCopy r k).ch.run = some { r with copies := [k.written] } := by
      rw [hw, ← hf]
      exact State.run_modRun hs hrun f
    rw [State.drainCopies, after]
    rfl
  rw [State.drainCopies, hrun]
  simp only [copies, List.find?_cons, issued, Bool.not_false, reading, free, raw, ne_eq, not_true_eq_false, decide_false, Bool.or_self,
    Bool.false_and, Bool.false_eq_true, if_false]
  exact done

end

/-- The copy that a program's next start makes of bytes of the scratchpad. -/
def Core.localCopy (c : Core) (ch : Chan) (r : CRun) (len : Nat) : CCopy :=
  { iter := r.next, dest := [], reading := 0, data := BitVec.ofNat 8192 (Memory.readN c.spm (ch.sourceOf r r.next).toNat len),
    poison := c.spmPoisonMask (ch.sourceOf r r.next).toNat len, issued := false, writing := 0 }

/-- The program that the start of a copy leaves. -/
def CRun.started (r : CRun) (now next : Nat) (k : CCopy) : CRun :=
  { r with next, copies := r.copies ++ [k], startFree := now + ceilDiv r.opLength 128 }

section
variable {s : State} {core ch : Nat} {r : CRun} {lit : BitVec 32} {len : Nat} (hrun : ((s.core core).chan ch).run = some r)
  (hop : r.op = some (.copy 0 lit len)) (hsrc : r.srcSpace = 0) (hdst : r.dstSpace = 0)
include hrun hop hsrc hdst

theorem exec_clickerCopyStart_of_local
    (hin : (s.core core).inReservation (((s.core core).chan ch).sourceOf r r.next) len = true)
    (hout : (s.core core).inReservation (((s.core core).chan ch).destOf r r.next) len = true)
    (hcut : (((s.core core).chan ch).sourceOf r r.next).toNat + len ≤ 2 ^ 19) (hcut' : (((s.core core).chan ch).destOf r r.next).toNat + len ≤ 2 ^ 19)
    (hready : State.copyReady { s with cur := ⟨core, r.owner, .chan ch⟩ } r = true) :
    exec (.clickerCopyStart core ch) s = .next (s.at ⟨core, r.owner, .chan ch⟩ fun u =>
      ((u.modHere id).modRun (·.started u.pcc (r.next + 1) ((s.core core).localCopy ((s.core core).chan ch) r len))).drainCopies 65) := by
  have lengths : r.lengths = (len, len) := by simp [CRun.lengths, hop, resultBytes]
  refine congrArg Host.Outcome.next ?_
  rw [hrun]
  show s.at ⟨core, r.owner, .chan ch⟩ _ = _
  rw [State.at_eq, State.at_eq]
  have hch : State.ch { s with cur := ⟨core, r.owner, .chan ch⟩ } = (s.core core).chan ch := State.ch_of_chan rfl
  have here : State.here { s with cur := ⟨core, r.owner, .chan ch⟩ } = s.core core := rfl
  generalize ({ s with cur := ⟨core, r.owner, .chan ch⟩ } : State) = z at hready hch here
  refine congrArg (fun t : State => ({ t with cur := s.cur } : State)) ?_
  rw [← here] at hin hout hcut hcut' hrun hch ⊢
  rw [hch, hrun]
  dsimp only
  rw [hready, lengths, hsrc, hdst, hop]
  dsimp only
  rw [State.checkSide_of_scratch hout hcut', show sourceBytes 0 lit = 1 from rfl, State.checkSide_of_scratch hin hcut]
  rfl

theorem completes_clickerCopyStart (hcopies : r.copies = [])
    (hin : (s.core core).inReservation (((s.core core).chan ch).sourceOf r r.next) len = true)
    (hout : (s.core core).inReservation (((s.core core).chan ch).destOf r r.next) len = true)
    (hcut : (((s.core core).chan ch).sourceOf r r.next).toNat + len ≤ 2 ^ 19) (hcut' : (((s.core core).chan ch).destOf r r.next).toNat + len ≤ 2 ^ 19)
    (hready : State.copyReady { s with cur := ⟨core, r.owner, .chan ch⟩ } r = true) :
    Completes (.clickerCopyStart core ch) s fun t =>
      (∃ q k, ((t.core core).chan ch).run = some q ∧ q.next = r.next + 1 ∧ q.startFree = s.pcc + (len + 127) / 128 ∧ q.copies = [k] ∧ k.iter = r.next ∧
        k.issued = true ∧ k.data = BitVec.ofNat 8192 (Memory.readN (s.core core).spm (((s.core core).chan ch).sourceOf r r.next).toNat len)) ∧
      (s.pcc, Event.clickerCopyComplete core (ch % 4) r.next) ∈ t.agenda ∧ (t.core core).spm = (s.core core).spm ∧ t.mem = s.mem := by
  have hi := exec_clickerCopyStart_of_local hrun hop hsrc hdst hin hout hcut hcut' hready
  let k := (s.core core).localCopy ((s.core core).chan ch) r len
  let z : State := { s with cur := ⟨core, r.owner, .chan ch⟩ }
  let start (q : CRun) := q.started s.pcc (r.next + 1) k
  let v := (z.modHere id).modRun start
  have before : (z.modHere id).here = s.core core := State.here_modHere z id
  have hz : (z.modHere id).ch.run = some r := by rw [State.ch_of_chan (n := ch) rfl, before]; exact hrun
  have hv : v.ch.run = some (start r) := State.run_modRun rfl hz start
  have holds : (start r).Holds k := ⟨by simp [start, CRun.started, hcopies], rfl, rfl, rfl⟩
  obtain ⟨f, hwrite, hf⟩ := State.writeCopy_of_local (s := v) (n := ch) rfl holds
  have drained : v.drainCopies 65 = (v.modRun f).schedule v.pcc (.clickerCopyComplete core (ch % 4) r.next) :=
    (State.drainCopies_of_local (s := v) (n := ch) rfl holds hv hsrc hdst hop 63).trans hwrite
  have run : (v.modRun f).ch.run = some { start r with copies := [k.written] } := hf ▸ State.run_modRun (s := v) rfl hv f
  rw [State.ch_of_chan (s := v.modRun f) (n := ch) rfl] at run
  have spm : (v.modRun f).here.spm = (s.core core).spm := by
    rw [State.here_modRun (s := v) (n := ch) rfl, show v.here = _ from State.here_modRun (s := z.modHere id) (n := ch) rfl start, before]
    rfl
  have time : s.pcc + ceilDiv r.opLength 128 = s.pcc + (len + 127) / 128 := by simp [CRun.opLength, hop, ceilDiv]
  rw [State.at_eq] at hi
  refine ⟨_, hi, ?_⟩
  rw [show State.drainCopies _ 65 = _ from drained]
  exact ⟨⟨_, k.written, run, rfl, time, rfl, rfl, rfl, rfl⟩, State.mem_schedule _ _ _, spm, rfl⟩

omit hrun hop hsrc hdst in
/-- An event that is put on the agenda, or is not, leaves the cores and memory. -/
theorem State.scheduleIf_spec (s : State) (b : Bool) (at_ : Nat) (e : Event) : let t := if b then s.schedule at_ e else s
    (∀ k, t.core k = s.core k) ∧ t.mem = s.mem ∧ (b = true → (at_, e) ∈ t.agenda) := by
  cases b
  · exact ⟨fun _ => rfl, rfl, fun h => by cases h⟩
  · exact ⟨fun _ => rfl, rfl, fun _ => State.mem_schedule _ _ _⟩

/-- The program without a copy that is complete. -/
def CRun.without (r : CRun) (iter : Nat) : CRun := { r with copies := r.copies.filter fun x => decide (x.iter ≠ iter) }

omit hrun hsrc hdst in
/-- The bytes that a plain copy writes are those that it has read (R250). -/
theorem CRun.resultOf_of_plain (k : CCopy) : r.resultOf k = k.data.toNat % 2 ^ (8 * len) ∧ r.lengths.2 = len := by
  constructor
  · simp [CRun.resultOf, hop, convert, pow2]
  · simp [CRun.lengths, hop, resultBytes]

omit hsrc in
/-- A copy whose bytes go to the scratchpad ends: they are written, and the program's entries of the range checker are complete with its
last copy (R117, R155). -/
theorem exec_clickerCopyComplete_of_local {k : CCopy} (hcopies : r.copies = [k]) (hissued : k.issued = true) :
    ∃ write mark : Core → Core,
      (∀ c, ∃ p, write c = { c.writeSpm (((s.core core).chan ch).destOf r k.iter).toNat len (k.data.toNat % 2 ^ (8 * len)) with spmPoison := p }) ∧
      (∀ c, ∃ rc, mark c = { c with rc }) ∧
      exec (.clickerCopyComplete core ch k.iter) s = .next (s.at ⟨core, r.owner, .chan ch⟩ fun u =>
        let v := (u.modHere write).modRun (·.without k.iter)
        let w := if v.ch.run.any CRun.copied then v.modHere mark else v
        if v.ch.run.any CRun.copied && r.ended then w.schedule s.pcc (.clickerProgramComplete core ch) else w) := by
  obtain ⟨result, length⟩ := CRun.resultOf_of_plain hop k
  have hi : exec (.clickerCopyComplete core ch k.iter) s = .next (s.at ⟨core, (((s.core core).chan ch).run.map (·.owner)).getD 0, .chan ch⟩ _) := rfl
  have hch : State.ch { s with cur := ⟨core, r.owner, .chan ch⟩ } = (s.core core).chan ch := State.ch_of_chan rfl
  have found : r.copies.find? (fun x => decide (x.iter = k.iter)) = some k := by simp [hcopies]
  rw [hrun, Option.map_some, Option.getD_some, State.at_eq, hch, hrun] at hi
  dsimp only at hi
  rw [found] at hi
  dsimp only at hi
  rw [hissued, hdst, result, length] at hi
  exact ⟨_, _, fun c => ⟨_, rfl⟩, fun c => ⟨_, rfl⟩, hi⟩

omit hsrc in
theorem completes_clickerCopyComplete {k : CCopy} (hcopies : r.copies = [k]) (hissued : k.issued = true) :
    Completes (.clickerCopyComplete core ch k.iter) s fun t =>
      (t.core core).spm = Memory.writeN (s.core core).spm (((s.core core).chan ch).destOf r k.iter).toNat len (k.data.toNat % 2 ^ (8 * len)) ∧
      ((t.core core).chan ch).run = some { r with copies := [] } ∧ t.mem = s.mem ∧
      (iterations r.levels ≤ r.next → r.ended = true → (s.pcc, Event.clickerProgramComplete core ch) ∈ t.agenda) := by
  obtain ⟨write, mark, hwrite, hmark, hi⟩ := exec_clickerCopyComplete_of_local hrun hop hdst hcopies hissued
  let z : State := { s with cur := ⟨core, r.owner, .chan ch⟩ }
  let v := (z.modHere write).modRun (·.without k.iter)
  have written : (z.modHere write).here = write (s.core core) := State.here_modHere z write
  obtain ⟨p, hp⟩ := hwrite (s.core core)
  rw [hp] at written
  have here : v.here = _ := State.here_modRun (s := z.modHere write) (n := ch) rfl _
  rw [written] at here
  have run : v.ch.run = some { r with copies := [] } := by
    have before : (z.modHere write).ch.run = some r := by rw [State.ch_of_chan (n := ch) rfl, written]; exact hrun
    have without : r.without k.iter = { r with copies := [] } := by simp [CRun.without, hcopies]
    rw [State.run_modRun (n := ch) rfl before, without]
  have whole : v.ch.run.any CRun.copied = decide (iterations r.levels ≤ r.next) := by simp [run, CRun.copied]
  rw [State.ch_of_chan (s := v) (n := ch) rfl] at run
  let w := if v.ch.run.any CRun.copied then v.modHere mark else v
  have marked : ∃ rc, w.core core = { v.here with rc } ∧ w.mem = s.mem := by
    obtain ⟨rc, hrc⟩ := hmark v.here
    unfold w
    split
    · exact ⟨rc, (State.here_modHere v mark).trans hrc, rfl⟩
    · exact ⟨_, rfl, rfl⟩
  obtain ⟨rc, core_eq, mem⟩ := marked
  have run' : ((w.core core).chan ch).run = some { r with copies := [] } := by rw [core_eq]; exact run
  have spm : (w.core core).spm = v.here.spm := by rw [core_eq]
  rw [here] at spm
  obtain ⟨cores, mems, event⟩ := w.scheduleIf_spec (v.ch.run.any CRun.copied && r.ended) s.pcc (.clickerProgramComplete core ch)
  refine ⟨_, hi, (congrArg Core.spm (cores core)).trans spm, ?_, mems.trans mem, fun hnext hended => event ?_⟩
  · exact (congrArg (fun c : Core => (c.chan ch).run) (cores core)).trans run'
  · rw [whole, hended, decide_eq_true hnext]
    rfl

end

/-! ### The answer of a signal, and the end of a program (R117, R155, R253) -/

/-- The program that goes on behind a CSIG that is answered (R253). -/
def CRun.answered (r : CRun) : CRun := { r with sigOut := false, pc := r.pc + 4 }

/-- The state in which a channel takes the answer of its CSIG: its access is over. -/
def State.withAccs (s : State) (core ch : Nat) (r : CRun) (accs : FMap Access) : State := { s with cur := ⟨core, r.owner, .chan ch⟩, accs }

section
variable {s : State} {core ch : Nat} {r : CRun} (hrun : ((s.core core).chan ch).run = some r)
include hrun

/-- The channel's answer: the access is over, an error traps, and the program goes on behind its CSIG (R253). -/
theorem exec_csigResponse (hsig : r.sigOut = true) (err : Option DataError) : ∃ accs,
    (err = none → exec (.csigResponse core ch err) s = .next { (s.withAccs core ch r accs).modRun CRun.answered with cur := s.cur }) ∧
    ∀ n, err = some (.remote n) → ∃ t, t.cause = causeRemote ∧
      exec (.csigResponse core ch err) s = .next { ((s.withAccs core ch r accs).raiseTrap t).modRun CRun.answered with cur := s.cur } := by
  have hi : exec (.csigResponse core ch err) s = .next (s.at ⟨core, (((s.core core).chan ch).run.map (·.owner)).getD 0, .chan ch⟩ _) := rfl
  rw [hrun, Option.map_some, Option.getD_some, State.at_eq] at hi
  dsimp only at hi
  rw [show State.ch { s with cur := ⟨core, r.owner, .chan ch⟩, accs := _ } = (s.core core).chan ch from State.ch_of_chan rfl, hrun] at hi
  dsimp only at hi
  rw [hsig] at hi
  match err with
  | none => exact ⟨_, fun _ => hi, nofun⟩
  | some .poison => exact ⟨s.accs, nofun, nofun⟩
  | some (.remote _) => exact ⟨_, nofun, fun n hn => ⟨_, rfl, hi⟩⟩

theorem completes_csigResponse (hsig : r.sigOut = true) : Completes (.csigResponse core ch none) s fun t =>
    ((t.core core).chan ch).run = some { r with sigOut := false, pc := r.pc + 4 } ∧ t.cores.has core = true ∧ t.mem = s.mem := by
  obtain ⟨accs, hi, -⟩ := exec_csigResponse hrun hsig none
  have run : ((s.withAccs core ch r accs).modRun CRun.answered).ch.run = some r.answered :=
    State.run_modRun (n := ch) rfl (by rw [State.ch_of_chan (n := ch) rfl]; exact hrun) _
  rw [State.ch_of_chan (s := (s.withAccs core ch r accs).modRun CRun.answered) (n := ch) rfl] at run
  exact ⟨_, hi rfl, run, FMap.has_set_same _ _ _, rfl⟩

theorem completes_csigError (hsig : r.sigOut = true) (hcharge : (s.core core).chargeable r.owner = true) (horphan : r.orphan = false) (n : Nat) :
    Completes (.csigResponse core ch (some (.remote n))) s fun t =>
      ((t.core core).chan ch).run = some { r with sigOut := false, pc := r.pc + 4, trapped := true } ∧
      ((t.core core).group r.owner).status = .trapped ∧ t.mem = s.mem := by
  obtain ⟨accs, -, herr⟩ := exec_csigResponse hrun hsig (some (.remote n))
  obtain ⟨t, ht, hi⟩ := herr n rfl
  let z := s.withAccs core ch r accs
  have hrun' : (z.here.chan ch).run = some r := hrun
  have charged : z.chargedSlot = r.owner := by
    show ((z.here.chan ch).run.map (·.owner)).getD _ = _
    rw [hrun']
    rfl
  have own : z.orphaned = false := by
    show (z.here.chan ch).run.any (·.orphan) = _
    rw [hrun']
    exact horphan
  obtain ⟨i, record, trapped⟩ := State.raiseTrap_of_engine (s := z) (t := t) (by simp [z, State.withAccs]) (by rw [charged]; exact hcharge) own
    (by rw [ht]; decide) (by rw [ht]; decide) (by rw [ht]; decide)
  rw [charged] at trapped
  have mem : (z.raiseTrap t).mem = s.mem := (z.raiseTrap_mem_objects t).1
  have cur : (z.raiseTrap t).cur = z.cur := by rw [trapped]; rfl
  have here : (z.raiseTrap t).here =
      ((z.here.stopStream r.owner (.chan ch)).withdraw r.owner).modGroup r.owner fun g => g.suspend z.pcc i := by
    rw [State.here, cur, trapped, State.core_record]
    exact State.core_setCore_same _ _ _
  have stream : (z.raiseTrap t).cur.stream = .chan ch := by rw [cur]; rfl
  have stopped : (z.here.stopStream r.owner (.chan ch)).chan ch = { z.here.chan ch with run := (z.here.chan ch).run.map fun r => { r with trapped := true } } :=
    Core.chan_modChan_same _ _ _
  have run : (z.raiseTrap t).ch.run = some { r with trapped := true } := by
    rw [State.ch_of_chan stream, here]
    refine (congrArg Chan.run stopped).trans ?_
    rw [hrun']
    rfl
  have answered := State.run_modRun stream run CRun.answered
  have core_eq := State.here_modRun stream CRun.answered
  have curcore : ((z.raiseTrap t).modRun CRun.answered).cur.core = core :=
    (show _ = (z.raiseTrap t).cur.core from rfl).trans (by rw [cur]; rfl)
  rw [State.here, curcore] at core_eq
  rw [State.ch_of_chan (s := (z.raiseTrap t).modRun CRun.answered) (n := ch) stream, State.here, curcore] at answered
  have status : ((((z.raiseTrap t).modRun CRun.answered).core core).group r.owner).status = .trapped := by
    rw [core_eq]
    show ((z.raiseTrap t).here.group r.owner).status = _
    rw [here, Core.group_modGroup_same]
    rfl
  exact ⟨_, hi, answered, status, mem⟩

/-- A program whose copies are all done is over, and the completion counter of its channel is raised (R117). -/
theorem completes_clickerProgramComplete (hcore : s.cores.has core = true) (ended : r.ended = true) (copied : r.copied = true)
    (alive : r.trapped = false) : Completes (.clickerProgramComplete core ch) s fun t =>
      (t.core core).chan ch = { (s.core core).chan ch with cc := ((s.core core).chan ch).cc + 1, run := none } ∧
      (t.core core).spm = (s.core core).spm ∧ t.mem = s.mem := by
  have hi : exec (.clickerProgramComplete core ch) s = .next (s.modLive core _) := rfl
  rw [State.modLive_of_has _ _ _ hcore] at hi
  refine ⟨_, hi, ?_, ?_, rfl⟩
  · rw [State.core_modCore_same, Core.chan_modChan_same, hrun]
    dsimp only
    rw [ended, copied, alive]
    rfl
  · rw [State.core_modCore_same]
    rfl

end

/-- Settles O42: each event of the channels and of the command window answers a next state that holds what its clause says. -/
theorem channelEvents : Obligations.ChannelEvents := by
  intro core ch s hcore c
  refine ⟨fun trigger r w hrun hw htrapped => ⟨completes_replay hcore trigger hrun htrapped hw, completes_replayTrap hcore trigger hrun htrapped⟩,
    completes_rangeEntryRetire hcore, fun r lit len hrun hop hsrc hdst => ⟨completes_clickerCopyStart hrun hop hsrc hdst,
      fun k => completes_clickerCopyComplete hrun hop hdst⟩, fun r hrun => ⟨fun hsig => ⟨completes_csigResponse hrun hsig, completes_csigError hrun hsig⟩,
      completes_clickerProgramComplete hrun hcore⟩⟩

end Sys2Proof.Machine


/-! ## O43: ports, treadle slots and demands (R121, R162, R166, R167, R272, R317, R319, R320, R322, R324, R325) -/

namespace Sys2Proof.Machine

/-! ### A change of one core -/

/-- What a change of a core keeps of that core, it keeps of every core. -/
theorem State.keeps_modCore {α : Type} {p : Core → α} (s : State) (k j : Nat) {f : Core → Core} (hf : ∀ c, p (f c) = p c) :
    p ((s.modCore k f).core j) = p (s.core j) := by
  by_cases hj : j = k
  · rw [hj, State.core_modCore_same, hf]
  · rw [State.core_modCore_other _ _ _ _ hj]

theorem State.keeps_modLive {α : Type} {p : Core → α} (s : State) (k j : Nat) {f : Core → Core} (hf : ∀ c, p (f c) = p c) :
    p ((s.modLive k f).core j) = p (s.core j) := by
  unfold State.modLive
  split
  · exact s.keeps_modCore k j hf
  · rfl

theorem State.core_modLive_other (s : State) (k j : Nat) (f : Core → Core) (h : j ≠ k) : (s.modLive k f).core j = s.core j := by
  unfold State.modLive
  split
  · exact State.core_modCore_other _ _ _ _ h
  · rfl

theorem State.core_modLive_same {s : State} {k : Nat} (f : Core → Core) (h : s.cores.has k = true) : (s.modLive k f).core k = f (s.core k) := by
  rw [State.modLive_of_has _ _ _ h, State.core_modCore_same]

/-- A core that is there is there after any core has changed. -/
theorem State.has_modLive {s : State} {j : Nat} (k : Nat) (f : Core → Core) (h : s.cores.has j = true) : (s.modLive k f).cores.has j = true := by
  unfold State.modLive
  split
  · by_cases hj : j = k
    · rw [hj]
      exact FMap.has_set_same _ _ _
    · exact (congrArg Option.isSome (FMap.get_set_other _ _ _ _ hj)).trans h
  · exact h

theorem Core.port_modPort_same (c : Core) (n : Nat) (f : Port → Port) : (c.modPort n f).port n = f (c.port n) :=
  Vector.getElem_set_self _

theorem Core.port_modPort_other (c : Core) (n m : Nat) (f : Port → Port) (h : m % 16 ≠ n % 16) : (c.modPort n f).port m = c.port m :=
  Vector.getElem_set_ne (by omega) (by omega) fun e => h e.symm

/-! ### Bytes between peer ports (R121, R166) -/

/-- The flits that leave change the network only. -/
theorem State.carry_eq (s : State) (die : Nat) (p q : Spot) (flits now : Nat) :
    s.carry die p q flits now = ({ s with net := (s.net.packet die p q flits now).1 }, (s.net.packet die p q flits now).2) := rfl

/-- The bytes that leave a peer port for the port `q` of the core `k`, as they cross the network. -/
def State.peerFlight (s : State) (core port k q : Nat) (bytes : List PortByte) : Flight :=
  { srcCore := core, srcPort := port % 16, core := k, port := q
    number := ((s.core k).port q).taken + (s.flights.filter fun (f : Nat × Flight) =>
      decide (f.2.core = k) && decide (f.2.port = q) && decide (f.2.since = ((s.core k).port q).since)).length
    bytes, left := s.pcc, srcSince := ((s.core core).port port).since, since := ((s.core k).port q).since }

/-- The two ports once bytes have left the one into room of the other. -/
def State.peerMoved (s : State) (core port k q n : Nat) : State :=
  (s.modCore core fun c => c.modPort port fun x => x.depart n).modCore k fun c => c.modPort q fun x => { x with inflight := x.inflight + n }

section
variable {s : State} {core port k : Nat}

theorem State.port_peerMoved_source (hk : k ≠ core) (q n : Nat) :
    ((s.peerMoved core port k q n).core core).port port = ((s.core core).port port).depart n := by
  rw [State.peerMoved, State.core_modCore_other _ _ _ _ hk.symm, State.core_modCore_same, Core.port_modPort_same]

theorem State.port_peerMoved_target (hk : k ≠ core) (q n : Nat) : let p := (s.core k).port q
    ((s.peerMoved core port k q n).core k).port q = { p with inflight := p.inflight + n } := by
  rw [State.peerMoved, State.core_modCore_same, Core.port_modPort_same, State.core_modCore_other _ _ _ _ hk]

/-- Bytes leave: the two ports and the network hold them, and their packet is to be delivered (R166). -/
theorem exec_peerByteTransfer {l : List PortByte} (hl : l ≠ []) (hpeer : s.peerOf core port = some k) (hbytes : s.peerBytes core port = l) :
    let q := descPport ((s.core core).port port).desc
    let sent := s.net.packet (dieOf core) (coreSpot (physOf core)) (coreSpot (physOf k)) (ceilDiv l.length 32) s.pcc
    exec (.peerByteTransfer core port) s = .next (({ s.peerMoved core port k q l.length with
      net := sent.1, flights := s.flights.set s.nextId (s.peerFlight core port k q l), nextId := s.nextId + 1 }).schedule sent.2
        (.packetDelivery s.nextId)) := by
  have hi : exec (.peerByteTransfer core port) s = .next _ := rfl
  obtain ⟨b, l, rfl⟩ := List.exists_cons_of_ne_nil hl
  rw [hpeer, hbytes] at hi
  exact hi

theorem completes_peerByteTransfer {b : PortByte} {l : List PortByte} (hpeer : s.peerOf core port = some k)
    (hk : k ≠ core) (hbytes : s.peerBytes core port = b :: l) : let c := s.core core
    Completes (.peerByteTransfer core port) s fun t =>
      (t.core core).port port = (c.port port).depart (l.length + 1) ∧
      (let q := (s.core k).port (descPport (c.port port).desc)
       (t.core k).port (descPport (c.port port).desc) = { q with inflight := q.inflight + (l.length + 1) }) ∧
      (∃ g, t.flights = s.flights.set s.nextId g ∧ g.bytes = b :: l ∧ g.core = k ∧ g.srcCore = core ∧
        g.since = ((s.core k).port (descPport (c.port port).desc)).since ∧ g.srcSince = (c.port port).since) ∧
      ((s.net.packet (dieOf core) (coreSpot (physOf core)) (coreSpot (physOf k)) (ceilDiv (l.length + 1) 32) s.pcc).2,
        Event.packetDelivery s.nextId) ∈ t.agenda ∧ t.mem = s.mem :=
  ⟨_, exec_peerByteTransfer (List.cons_ne_nil b l) hpeer hbytes, State.port_peerMoved_source hk _ _, State.port_peerMoved_target hk _ _,
    ⟨_, rfl, rfl, rfl, rfl, rfl, rfl⟩, State.mem_schedule _ _ _, rfl⟩

end

/-- The state in which a packet's bytes have left the port that they came from. -/
def State.delivered (s : State) (id : Nat) (f : Flight) : State :=
  { s.modLive f.srcCore (fun c => c.modPort f.srcPort fun p => if p.since = f.srcSince then { p with leaving := p.leaving - f.bytes.length } else p) with
    flights := s.flights.del id }

section
variable {s : State} {core id : Nat} {f : Flight} (hcore : s.cores.has core = true) (hc : f.core = core)
  (hsrc : f.srcCore ≠ core)
include hcore hc hsrc

/-- The delivery of a packet that comes from another core: the packet is gone, and its own core changes by what the delivery does. -/
theorem delivers {g : Core → Core} (hi : exec (.packetDelivery id) s = .next ((s.delivered id f).modLive f.core g)) {P : Core → Prop}
    (h : P (g (s.core core))) : Completes (.packetDelivery id) s fun t => t.flights = s.flights.del id ∧ t.mem = s.mem ∧ P (t.core core) := by
  rw [hc] at hi
  have live : (s.delivered id f).cores.has core = true := s.has_modLive (j := core) f.srcCore _ hcore
  have same : (s.delivered id f).core core = s.core core := s.core_modLive_other f.srcCore core _ hsrc.symm
  refine ⟨_, hi, ?_, ?_, ?_⟩
  · rw [State.modLive_of_has _ _ _ live]
    rfl
  · rw [State.modLive_mem]
    exact State.modLive_mem _ _ _
  · rw [State.core_modLive_same _ live, same]
    exact h

theorem completes_packetDelivery (hf : s.flights.get id = some f) (hsince : ((s.core core).port f.port).since = f.since) (hin : ((s.core core).port f.port).inflight ≠ 0)
    (hnext : ((s.core core).port f.port).taken = f.number) : Completes (.packetDelivery id) s fun t =>
      let q := (s.core core).port f.port
      t.flights = s.flights.del id ∧ t.mem = s.mem ∧
      (t.core core).port f.port = ({ q with inflight := q.inflight - f.bytes.length, taken := q.taken + 1 }).append f.bytes s.pcc := by
  have hi : exec (.packetDelivery id) s = .next _ := rfl
  rw [hf] at hi
  dsimp only at hi
  rw [hc, if_neg (by simp [hcore, hin, hsince]), if_neg (by omega), ← hc] at hi
  exact delivers hcore hc hsrc hi (P := fun d => d.port f.port = Port.append _ f.bytes s.pcc) (Core.port_modPort_same _ _ _)

theorem completes_lateDelivery (hf : s.flights.get id = some f) (hsince : ((s.core core).port f.port).since ≠ f.since) : Completes (.packetDelivery id) s fun t =>
    t.flights = s.flights.del id ∧ t.mem = s.mem ∧ (t.core core).port f.port = (s.core core).port f.port ∧
    (t.core core).discarded = (s.core core).discarded + f.bytes.length := by
  have hi : exec (.packetDelivery id) s = .next _ := rfl
  rw [hf] at hi
  dsimp only at hi
  rw [hc, if_pos (by simp [hsince]), ← hc] at hi
  exact delivers hcore hc hsrc hi
    (P := fun d => d.port f.port = (s.core core).port f.port ∧ d.discarded = (s.core core).discarded + f.bytes.length) ⟨rfl, rfl⟩

end

/-! ### A port that is unbound (R167, R272) -/

theorem completes_portUnbind {s : State} {core port : Nat} (hcore : s.cores.has core = true) (hclosing : ((s.core core).port port).status = .closing)
    (hdrained : ((s.core core).port port).drained = true) : Completes (.portUnbindComplete core port) s fun t =>
      (t.core core).port port = Port.unbound ∧ ∀ n, n % 16 ≠ port % 16 → (t.core core).port n = (s.core core).port n := by
  have hi : exec (.portUnbindComplete core port) s = .next (s.modLive core _) := congrArg _ (if_pos (by simp [hclosing, hdrained]))
  refine ⟨_, hi, ?_, fun n hn => ?_⟩
  · rw [State.core_modLive_same _ hcore, Core.port_modPort_same]
  · rw [State.core_modLive_same _ hcore, Core.port_modPort_other _ _ _ _ hn]

/-! ### Demands (R162, R322) -/

theorem completes_demandHeld {s : State} {core : Nat} (hcore : s.cores.has core = true) (descr : Word)
    (hnone : (s.core core).waiting Wait.demand? = []) : Completes (.demandArrival core descr) s fun t =>
      (t.core core).demands = (s.core core).demands ++ [descr] ∧ (t.core core).places = (s.core core).places := by
  have hi : exec (.demandArrival core descr) s = .next (s.modLive core _) := rfl
  refine ⟨_, hi, ?_⟩
  dsimp only
  rw [State.core_modLive_same _ hcore, hnone]
  exact ⟨rfl, rfl⟩

theorem completes_demandTaken {s : State} {core : Nat} (hcore : s.cores.has core = true) (descr : Word) {slot : Nat} {l : List Nat}
    (hwait : (s.core core).waiting Wait.demand? = slot :: l) : Completes (.demandArrival core descr) s fun t =>
      (t.core core).places = (s.core core).places - 1 ∧ (t.core core).demands = (s.core core).demands ∧
      ((t.core core).group slot).hold = ((s.core core).group slot).hold.map fun h => { h with granted := some descr } := by
  have hi : exec (.demandArrival core descr) s = .next (s.modLive core _) := rfl
  refine ⟨_, hi, ?_⟩
  dsimp only
  rw [State.core_modLive_same _ hcore, hwait]
  exact ⟨rfl, rfl, congrArg Group.hold (Core.group_modGroup_same _ _ _)⟩

/-- Demands that are raised change the treadle controller only: no event, and no place of any core. -/
theorem State.raiseDemands_keeps (n : Nat) (s : State) :
    (s.raiseDemands n).agenda = s.agenda ∧ ∀ k, ((s.raiseDemands n).core k).places = (s.core k).places := by
  induction n generalizing s with
  | zero => exact ⟨rfl, fun _ => rfl⟩
  | succ n ih =>
    have step (g : Treadle → Treadle) : ((s.modTd g).raiseDemands n).agenda = s.agenda ∧
        ∀ k, (((s.modTd g).raiseDemands n).core k).places = (s.core k).places :=
      ⟨(ih _).1, fun k => ((ih _).2 k).trans (s.keeps_modCore (p := Core.places) _ k fun _ => rfl)⟩
    unfold State.raiseDemands
    dsimp only
    split
    · exact ⟨rfl, fun _ => rfl⟩
    split
    · exact step _
    split
    · exact step _
    · exact ⟨rfl, fun _ => rfl⟩

/-- The cores once a demand has left the treadle controller for a place that is reserved for it. -/
def State.demandSent (s : State) (core : Nat) (d : Demand) : State :=
  (s.modLive core fun c =>
    { c with treadle := { c.treadle with
        waiting := dropDemand c.treadle.waiting d
        sent := if demandKind d.descr = 15 ∨ (d.core, demandPort d.descr) ∈ c.treadle.sent then c.treadle.sent
          else c.treadle.sent ++ [(d.core, demandPort d.descr)] } }).modLive d.core fun c => { c with places := c.places + 1 }

section
variable {s : State} {core : Nat} {d : Demand}

theorem State.places_demandSent (hd : s.cores.has d.core = true) : ((s.demandSent core d).core d.core).places = (s.core d.core).places + 1 := by
  rw [State.demandSent, State.core_modLive_same _ (s.has_modLive core _ hd)]
  exact congrArg (· + 1) (s.keeps_modLive (p := Core.places) core d.core fun _ => rfl)

theorem State.net_modLive (s : State) (k : Nat) (f : Core → Core) : (s.modLive k f).net = s.net := by
  unfold State.modLive
  split <;> rfl

/-- Room in the controller raises the demands that are due, of a run that goes on and is not replayed. -/
def State.raiseMore (s : State) : State :=
  if s.here.treadle.tstate.toNat % 8 < 4 ∧ s.mx.replay = none then s.raiseDemands 64 else s

theorem State.raiseMore_keeps (s : State) : s.raiseMore.agenda = s.agenda ∧ ∀ k, (s.raiseMore.core k).places = (s.core k).places := by
  unfold State.raiseMore
  split
  · exact s.raiseDemands_keeps 64
  · exact ⟨rfl, fun _ => rfl⟩

/-- A demand leaves, its arrival is due no earlier than that of the run's last one, and then demands may be raised (R322). -/
theorem exec_demandSend (hsend : s.sendable (s.core core).treadle = some d) :
    let sent := (s.demandSent core d).carry (dieOf core) (coreSpot (physOf core)) (coreSpot (physOf d.core)) 1 s.pcc
    exec (.demandSend core) s =
      .next ((sent.1.schedule (max sent.2 (s.lastDemand d)) (.demandArrival d.core d.descr)).at ⟨core, 0, .matrix⟩ State.raiseMore) := by
  have hi : exec (.demandSend core) s = .next _ := rfl
  rw [hsend] at hi
  exact hi

theorem completes_demandSend (hsend : s.sendable (s.core core).treadle = some d) (hd : s.cores.has d.core = true) :
    Completes (.demandSend core) s fun t =>
      (t.core d.core).places = (s.core d.core).places + 1 ∧
      (max (s.net.packet (dieOf core) (coreSpot (physOf core)) (coreSpot (physOf d.core)) 1 s.pcc).2 (s.lastDemand d),
        Event.demandArrival d.core d.descr) ∈ t.agenda := by
  refine ⟨_, exec_demandSend hsend, ?_, ?_⟩
  · rw [State.at_core, (State.raiseMore_keeps _).2]
    exact State.places_demandSent hd
  · have net : (s.demandSent core d).net = s.net := by rw [State.demandSent, State.net_modLive, State.net_modLive]
    rw [State.at_agenda, (State.raiseMore_keeps _).1, State.carry_eq, net]
    exact State.mem_schedule _ _ _

end

/-! ### The treadle's slots and the end of its run (R317, R319, R320, R324, R325) -/

theorem Matrix.treadleRun_eq (m : Matrix) : m.treadleRun = m.run.any fun r => r.treadle := by
  unfold Matrix.treadleRun
  cases m.run <;> rfl

/-- The fields of TSTATE once its reason and state are set (R316). -/
theorem Treadle.toNat_toState (t : Treadle) {reason state : Nat} (hr : reason < 8) (hs : state < 8) :
    (t.toState reason state).tstate.toNat = t.tstate.toNat / 65536 * 65536 + reason * 256 + t.tstate.toNat / 8 % 2 * 8 + state := by
  have := t.tstate.isLt
  simp only [Treadle.toState, BitVec.toNat_ofNat]
  omega

theorem Treadle.fields_toState (t : Treadle) {reason state : Nat} (hr : reason < 8) (hs : state < 8) :
    (t.toState reason state).tstate.toNat % 8 = state ∧ (t.toState reason state).tstate.toNat / 256 % 8 = reason := by
  rw [t.toNat_toState hr hs]
  omega

theorem Treadle.tmiss_toState (t : Treadle) (reason state : Nat) : (t.toState reason state).tmiss = t.tmiss := by
  cases t
  rfl

theorem Treadle.toNat_toConsec (t : Treadle) {n : Nat} (hn : n < 65536) : (t.toConsec n).tstate.toNat = t.tstate.toNat % 65536 + n * 65536 := by
  simp only [Treadle.toConsec, BitVec.toNat_ofNat]
  omega

/-- The count of missed slots, which stops at its largest value (R320). -/
theorem toNat_saturating (x : BitVec 32) : (if x = 0xFFFFFFFF then x else x + 1).toNat = min (x.toNat + 1) 0xFFFFFFFF := by
  have := x.isLt
  split
  · subst x
    rfl
  · bv_omega

section
variable {s : State} {core : Nat}

theorem State.core_of_cur {s : State} {k : Nat} (h : s.cur.core = k) : s.core k = s.here := by rw [State.here, h]

theorem State.core_withCur (s : State) (f : Focus) (k : Nat) : ({ s with cur := f } : State).core k = s.core k := rfl

/-- The core that an end mark leaves: the mark is out of its port, and the run ends with state 4 and reason 3 (R324). -/
def Core.endMarked (c : Core) (p : Nat) : Core :=
  { c.modPort p Port.pop with
    treadle := c.treadle.toState 3 4
    matrix := { c.matrix with run := c.matrix.run.map fun r => { r with ended := true, seg := none } } }

theorem State.here_takeEndMark (s : State) (p : Nat) : (s.takeEndMark p).here = s.here.endMarked p := by
  simp only [State.takeEndMark, State.endRun, State.here_modMx, State.here_modTd, State.here_modHere]
  rfl

/-- The slots missed in a row, with the one that is missed now (R319). -/
def State.missedInRow (s : State) : Nat := s.here.treadle.tstate.toNat / 65536 % 256 + 1

/-- A slot in which no beat has issued is missed and counted (R319, R320). -/
def State.missOne (s : State) (t : Treadle) : Treadle :=
  { (t.toState 0 3).toConsec s.missedInRow with
    slot := s.pcc, missed := t.missed + 1
    tmiss := if t.tmiss = 0xFFFFFFFF then t.tmiss else t.tmiss + 1 }

/-- A missed slot leaves state 3, and the count of the slots missed in a row. -/
theorem State.tstate_missOne (s : State) (t : Treadle) (few : s.missedInRow < 16) :
    (s.missOne t).tstate.toNat % 8 = 3 ∧ (s.missOne t).tstate.toNat / 65536 = s.missedInRow := by
  have state : (s.missOne t).tstate.toNat = (t.toState 0 3).tstate.toNat % 65536 + s.missedInRow * 65536 :=
    (t.toState 0 3).toNat_toConsec (by omega)
  rw [Treadle.toNat_toState _ (by decide) (by decide)] at state
  omega

theorem State.tmiss_missOne (s : State) (t : Treadle) : (s.missOne t).tmiss.toNat = min (t.tmiss.toNat + 1) 0xFFFFFFFF := toNat_saturating _

theorem State.kept_missOne (s : State) (t : Treadle) : (s.missOne t).tbeat = t.tbeat ∧ (s.missOne t).waiting = t.waiting := by
  cases t
  exact ⟨rfl, rfl⟩

def State.missSlot (s : State) : State := s.modTd s.missOne

/-- The state in which the matrix stream of a core takes an event. -/
def State.atMatrix (s : State) (core : Nat) : State := { s with cur := ⟨core, 0, .matrix⟩ }

variable (htreadle : (s.core core).matrix.run.any (fun r => r.treadle) = true)
include htreadle

section
variable (hreplay : (s.atMatrix core).mx.replay = none) (hstart : (s.atMatrix core).slotStart = true)
  (hrunning : (s.atMatrix core).here.treadle.tstate.toNat % 8 < 4) (hslot : (s.atMatrix core).here.treadle.slot < (s.atMatrix core).pcc)
include hreplay hstart hrunning hslot

/-- At a slot start of a run that goes on and is not replayed, what the controller does depends on the end mark and the slots missed. -/
theorem exec_treadleSlotStart {w : State} (h : let z := s.atMatrix core
    (if z.nextAport.any z.endMark then z.takeEndMark (z.nextAport.getD 0) else
      if z.here.treadle.strict || decide (z.missedInRow ≥ 16) then
        (z.missSlot.modTd fun t => t.toState 5 4).raiseTrap
          { cause := causeStarve, aux := BitVec.ofNat 64 (z.here.treadle.tbeat.toNat + (z.missSlot.here.treadle.tmiss.toNat) * pow2 32) }
      else z.missSlot) = w) : exec (.treadleSlotStart core) s = .next { w with cur := s.cur } := by
  have run : (s.atMatrix core).mx.treadleRun = true := (Matrix.treadleRun_eq _).trans htreadle
  have goes : ¬ (!((s.atMatrix core).mx.treadleRun && (s.atMatrix core).mx.replay.isNone &&
      decide ((s.atMatrix core).here.treadle.tstate.toNat % 8 < 4))) = true := by
    simp [run, hreplay, hrunning]
  have tested : ¬ (!(s.atMatrix core).slotStart || decide ((s.atMatrix core).pcc ≤ (s.atMatrix core).here.treadle.slot)) = true := by
    simp [hstart, Nat.not_le_of_lt hslot]
  exact congrArg (fun t : State => Host.Outcome.next ({ t with cur := s.cur } : State)) ((if_neg goes).trans ((if_neg tested).trans h))

theorem completes_endMark {p : Nat} (hport : (s.atMatrix core).nextAport = some p) (hmark : (s.atMatrix core).endMark p = true) :
    Completes (.treadleSlotStart core) s fun t =>
      let d := (t.core core).treadle
      (t.core core).port p = ((s.core core).port p).pop ∧ d.tstate.toNat % 8 = 4 ∧ d.tstate.toNat / 256 % 8 = 3 ∧
      d.tmiss = (s.core core).treadle.tmiss ∧ (∃ q, (t.core core).matrix.run = some q ∧ q.ended = true) ∧ t.mem = s.mem := by
  have hi := exec_treadleSlotStart htreadle hreplay hstart hrunning hslot (w := (s.atMatrix core).takeEndMark p)
    (by dsimp only; rw [hport, Option.any_some, hmark]; rfl)
  have ended : ((s.atMatrix core).takeEndMark p).here = (s.core core).endMarked p := (s.atMatrix core).here_takeEndMark p
  obtain ⟨state, reason⟩ := (s.core core).treadle.fields_toState (reason := 3) (state := 4) (by decide) (by decide)
  obtain ⟨r, hr, -⟩ := (Option.any_eq_true _ _).mp htreadle
  refine ⟨_, hi, ?_⟩
  dsimp only
  rw [State.core_withCur, State.core_of_cur (s := (s.atMatrix core).takeEndMark p) (k := core) rfl, ended]
  exact ⟨Core.port_modPort_same _ _ _, state, reason, Treadle.tmiss_toState _ _ _, ⟨_, congrArg (Option.map _) hr, rfl⟩, rfl⟩

theorem completes_missedSlot (hnone : (s.atMatrix core).nextAport.any (s.atMatrix core).endMark = false)
    (hstrict : (s.atMatrix core).here.treadle.strict = false) (hconsec : (s.atMatrix core).here.treadle.tstate.toNat / 65536 % 256 < 15) :
    Completes (.treadleSlotStart core) s fun t =>
      let c := s.core core
      let d := (t.core core).treadle
      d.slot = s.pcc ∧ d.missed = c.treadle.missed + 1 ∧ d.tmiss.toNat = min (c.treadle.tmiss.toNat + 1) 0xFFFFFFFF ∧ d.tstate.toNat % 8 = 3 ∧
      d.tstate.toNat / 65536 = c.treadle.tstate.toNat / 65536 % 256 + 1 ∧ d.tbeat = c.treadle.tbeat ∧ d.waiting = c.treadle.waiting := by
  have few : ¬ (s.atMatrix core).missedInRow ≥ 16 := by unfold State.missedInRow; omega
  have hi := exec_treadleSlotStart htreadle hreplay hstart hrunning hslot (w := (s.atMatrix core).missSlot)
    (by dsimp only; rw [hnone, hstrict, decide_eq_false few]; rfl)
  have missed : ((s.atMatrix core).missSlot.core core).treadle = (s.atMatrix core).missOne (s.core core).treadle := by
    rw [State.core_of_cur (s := (s.atMatrix core).missSlot) (k := core) rfl, State.missSlot, State.here_modTd]
    rfl
  obtain ⟨state, consec⟩ := (s.atMatrix core).tstate_missOne (s.core core).treadle (Nat.lt_of_not_le few)
  refine ⟨_, hi, ?_⟩
  dsimp only
  rw [State.core_withCur, missed]
  exact ⟨rfl, rfl, State.tmiss_missOne _ _, state, consec, State.kept_missOne _ _⟩

end

omit htreadle in
/-- Demands that are discarded leave every core where it is (R325). -/
theorem State.has_discardDemands (s : State) (core k : Nat) : (s.discardDemands core).cores.has k = s.cores.has k := by
  unfold State.discardDemands FMap.has
  dsimp only
  rw [FMap.get_mapVal, Option.isSome_map]

theorem completes_treadleRunEnd (hcore : s.cores.has core = true) (hend : (s.core core).treadle.tstate.toNat % 8 = 4) :
    Completes (.treadleRunEnd core) s fun t =>
      (t.core core).matrix.run = none ∧ (t.core core).matrix.window = none ∧ (t.core core).treadle.tstate.toNat % 8 = 5 ∧ t.mem = s.mem := by
  have hi : exec (.treadleRunEnd core) s = .next ((s.discardDemands core).modLive core _) := congrArg _ (if_neg (by simp [htreadle, hend]))
  have live : (s.discardDemands core).cores.has core = true := (s.has_discardDemands core core).trans hcore
  refine ⟨_, hi, ?_⟩
  dsimp only
  rw [State.core_modLive_same _ live, State.modLive_mem]
  refine ⟨rfl, rfl, ?_, rfl⟩
  dsimp only
  exact (Treadle.fields_toState _ (Nat.mod_lt _ (by decide)) (by decide)).1

end

/-- Settles O43: each event of the ports, of the treadle and of its demands answers a next state that holds what its clause says. -/
theorem portEvents : Obligations.PortEvents := by
  intro core port k id f descr s hcore c
  exact ⟨fun b l hpeer hk hbytes => completes_peerByteTransfer hpeer hk hbytes,
    fun hf hc hsrc => ⟨completes_packetDelivery hcore hc hsrc hf, completes_lateDelivery hcore hc hsrc hf⟩,
    completes_portUnbind hcore,
    fun htreadle => ⟨fun hreplay hstart hrunning hslot => ⟨fun p => completes_endMark htreadle hreplay hstart hrunning hslot,
      completes_missedSlot htreadle hreplay hstart hrunning hslot⟩, completes_treadleRunEnd htreadle hcore⟩,
    fun d => completes_demandSend, completes_demandHeld hcore descr, fun slot l => completes_demandTaken hcore descr⟩

end Sys2Proof.Machine

/-! ## O1 to O5: the integer, immediate and floating-point forms (R99, R124-R128, R130) -/

namespace Sys2Proof.Machine

/-! ### Forms that write one register -/

section
variable {i : Instr} {g e c : Bool} {fields reads : List (BitVec 5)} {d a b : BitVec 5} {lat : Nat}

theorem alu_of_admits {s : State} (hs : Admits s true true true [d, a, b] [a, b]) (f : Word → Word → Word) :
    alu d a b lat f s = .next (s.finishWrite d lat fun r => f (r.get a) (r.get b)) := by
  rw [alu, onStreams_of_admits hs, withFields_of_admits hs, withReads_of_admits hs]

theorem aluImm_of_admits {s : State} (hs : Admits s true true true [d, a] [a]) (f : Word → Word) :
    aluImm d a f s = .next (s.finishWrite d 1 fun r => f (r.get a)) := by
  rw [aluImm, onStreams_of_admits hs, withFields_of_admits hs, withReads_of_admits hs]

theorem constForm_of_admits {s : State} (hs : Admits s true true true [d] []) (v : Word) :
    constForm d v s = .next (s.finishWrite d 1 fun _ => v) := by
  rw [constForm, onStreams_of_admits hs, withFields_of_admits hs]

theorem fpForm_of_admits {s : State} {t : BitVec 1} {l32 l64 : Nat} (hs : Admits s true false true [] reads)
    (f : RegFile → Word × Nat) : fpForm d reads t l32 l64 f s = .next (s.finishFlags d (if t = 1 then l64 else l32) f) := by
  rw [fpForm, onStreams_of_admits hs, withReads_of_admits hs]

/-- A form with two register sources has the value that its function has (R124). -/
theorem intForm_of_alu {f v : Word → Word → Word} (hi : ∀ s, exec i s = alu d a b lat f s) (hv : ∀ x y, f x y = v x y) :
    IntForm d a b i lat v := by
  obtain rfl : f = v := funext fun x => funext fun y => hv x y
  exact fun s hs => ⟨_, (hi s).trans (alu_of_admits hs f), scalarWrote_finishWrite _ _ _ _⟩

/-- A form with one register source has the value that its function has (R124 to R127). -/
theorem intForm1_of_aluImm {f v : Word → Word} (hi : ∀ s, exec i s = aluImm d a f s) (hv : ∀ x, f x = v x) : IntForm1 d a i v := by
  obtain rfl : f = v := funext hv
  exact fun s hs => ⟨_, (hi s).trans (aluImm_of_admits hs f), scalarWrote_finishWrite _ _ _ _⟩

/-- A form that checks its stream, its fields and its reads, and then writes, writes what its function gives. -/
theorem writesForm_of_checks {f : RegFile → Word}
    (hi : ∀ s, exec i s = onStreams g e c s (withFields fields s (withReads reads s (.next (s.finishWrite d lat f))))) :
    WritesForm i g e c fields reads d lat fun r => (f r, 0) := by
  intro s hs
  refine ⟨_, ?_, scalarWrote_finishWrite _ _ _ _⟩
  rw [hi, onStreams_of_admits hs, withFields_of_admits hs, withReads_of_admits hs]

/-- A constant form writes its constant (R128). -/
theorem completes_constForm {s : State} {v : Word} (hs : Admits s true true true [d] []) (hi : exec i s = constForm d v s) :
    Completes i s fun t => ScalarWrote s t d 1 fun _ => (v, 0) :=
  ⟨_, hi.trans (constForm_of_admits hs v), scalarWrote_finishWrite _ _ _ _⟩

end

/-! ### The values of R124 -/

theorem boolWord_slt (x y : Word) : boolWord (x.slt y) = if x.toInt < y.toInt then 1 else 0 := by
  simp [boolWord, BitVec.slt_eq_decide]

theorem boolWord_ult (x y : Word) : boolWord (x.ult y) = if x.toNat < y.toNat then 1 else 0 := by
  simp [boolWord, BitVec.ult]

theorem ite_slt (x y u v : Word) : (if x.slt y then u else v) = if x.toInt < y.toInt then u else v := by
  simp [BitVec.slt_eq_decide]

theorem ite_ult (x y u v : Word) : (if x.ult y then u else v) = if x.toNat < y.toNat then u else v := by
  simp [BitVec.ult]

/-- A rotation is two shifts, of which the left one is none where nothing is rotated. -/
theorem rotateRight_eq_shifts (x : Word) (n : Nat) :
    x.rotateRight (n % 64) = (x >>> (n % 64)) ||| (x <<< ((64 - n % 64) % 64)) := by
  rw [BitVec.rotateRight_def, Nat.mod_mod]
  rcases Nat.eq_zero_or_pos (n % 64) with h | h
  · simp [h]
  · rw [Nat.mod_eq_of_lt (show 64 - n % 64 < 64 by omega)]

theorem mul_eq_ofInt (x y : Word) : x * y = BitVec.ofInt 64 (x.toInt * y.toInt) := by
  rw [BitVec.ofInt_mul, BitVec.ofInt_toInt, BitVec.ofInt_toInt]

theorem mulHigh_eq (x y : Word) : mulHigh x y = BitVec.ofInt 64 (x.toInt * y.toInt / 2 ^ 64) := by
  rw [mulHigh, pow2, Int.natCast_pow]
  rfl

/-- Settles O1: each form is `alu` of a function that has the value of the rule's table. -/
theorem integerRegisterForms : Obligations.IntegerRegisterForms := by
  intro d a b h
  exact ⟨intForm_of_alu (fun _ => by rfl) fun _ _ => rfl, intForm_of_alu (fun _ => by rfl) fun _ _ => rfl,
    intForm_of_alu (fun _ => by rfl) fun _ _ => rfl, intForm_of_alu (fun _ => by rfl) fun _ _ => rfl,
    intForm_of_alu (fun _ => by rfl) fun _ _ => rfl, intForm_of_alu (fun _ => by rfl) fun _ _ => rfl,
    intForm_of_alu (fun _ => by rfl) fun _ _ => rfl, intForm_of_alu (fun _ => by rfl) fun _ _ => rfl,
    intForm_of_alu (fun _ => by rfl) fun _ _ => rfl, intForm_of_alu (fun _ => by rfl) fun x y => rotateRight_eq_shifts x y.toNat,
    intForm_of_alu (fun _ => by rfl) boolWord_slt, intForm_of_alu (fun _ => by rfl) boolWord_ult,
    intForm_of_alu (fun _ => by rfl) fun x y => ite_slt x y x y, intForm_of_alu (fun _ => by rfl) fun x y => ite_slt x y y x,
    intForm_of_alu (fun _ => by rfl) fun x y => ite_ult x y x y, intForm_of_alu (fun _ => by rfl) fun x y => ite_ult x y y x,
    intForm_of_alu (fun _ => by rfl) mul_eq_ofInt, intForm_of_alu (fun _ => by rfl) mulHigh_eq,
    intForm_of_alu (fun _ => by rfl) fun _ _ => rfl, writesForm_of_checks fun _ => by rfl⟩

/-! ### Division and the 32-bit forms (R35, R124) -/

theorem sdiv_eq_ofInt_tdiv (x y : Word) : x.sdiv y = BitVec.ofInt 64 (x.toInt.tdiv y.toInt) := by
  rw [← BitVec.toInt_inj, BitVec.toInt_sdiv, BitVec.toInt_ofInt]

theorem srem_eq_ofInt_tmod (x y : Word) : x.srem y = BitVec.ofInt 64 (x.toInt.tmod y.toInt) := by
  rw [← BitVec.toInt_srem, BitVec.ofInt_toInt]

theorem divSigned_eq (x y : Word) :
    divSigned x y = if y = 0 then BitVec.allOnes 64 else BitVec.ofInt 64 (Int.tdiv x.toInt y.toInt) := by
  rw [divSigned, sdiv_eq_ofInt_tdiv]

theorem remSigned_eq (x y : Word) : remSigned x y = if y = 0 then x else BitVec.ofInt 64 (Int.tmod x.toInt y.toInt) := by
  rw [remSigned, srem_eq_ofInt_tmod]

theorem divUnsigned_eq (x y : Word) :
    divUnsigned x y = if y = 0 then BitVec.allOnes 64 else BitVec.ofNat 64 (x.toNat / y.toNat) := by
  rw [divUnsigned, ← BitVec.toNat_udiv, BitVec.ofNat_toNat, BitVec.setWidth_eq]

theorem remUnsigned_eq (x y : Word) : remUnsigned x y = if y = 0 then x else BitVec.ofNat 64 (x.toNat % y.toNat) := by
  rw [remUnsigned, ← BitVec.toNat_umod, BitVec.ofNat_toNat, BitVec.setWidth_eq]

theorem divideFormsHold : DivideFormsHold := by
  intro d a b h
  exact ⟨intForm_of_alu (fun _ => by rfl) divSigned_eq, intForm_of_alu (fun _ => by rfl) divUnsigned_eq,
    intForm_of_alu (fun _ => by rfl) remSigned_eq, intForm_of_alu (fun _ => by rfl) remUnsigned_eq⟩

theorem sextW_add (x y : Word) : sextW (x + y) = (x.setWidth 32 + y.setWidth 32).signExtend 64 := by
  rw [sextW, BitVec.setWidth_add _ _ (by decide)]

theorem sextW_sub (x y : Word) : sextW (x - y) = (x.setWidth 32 - y.setWidth 32).signExtend 64 := by
  rw [BitVec.sub_eq_add_neg, sextW_add, BitVec.setWidth_neg_of_le (by decide), ← BitVec.sub_eq_add_neg]

theorem sextW_mul (x y : Word) : sextW (x * y) = (x.setWidth 32 * y.setWidth 32).signExtend 64 := by
  rw [sextW, BitVec.setWidth_mul _ _ (by decide)]

theorem sextW_shiftLeft (x : Word) (n : Nat) : sextW (x <<< n) = (x.setWidth 32 <<< n).signExtend 64 := by
  rw [sextW, BitVec.setWidth_shiftLeft_of_le (by decide)]

theorem sextW_setWidth (x : BitVec 32) : sextW (x.setWidth 64) = x.signExtend 64 := by
  rw [sextW, BitVec.setWidth_setWidth_of_le _ (by decide), BitVec.setWidth_eq]

/-- An arithmetic shift of a sign-extended value by less than its width has the bits of the value's own shift. -/
theorem sextW_sshiftRight (x : Word) {n : Nat} (hn : n < 32) :
    sextW ((sextW x).sshiftRight n) = ((x.setWidth 32).sshiftRight n).signExtend 64 := by
  rw [sextW]
  congr 1
  ext j hj
  simp only [sextW, BitVec.getElem_setWidth, BitVec.getLsbD_sshiftRight, BitVec.getElem_sshiftRight, BitVec.getLsbD_signExtend,
    BitVec.msb_signExtend]
  split <;> split <;> simp_all <;> omega

theorem word32FormsHold : Word32FormsHold := by
  intro d a b h low
  exact ⟨intForm_of_alu (fun _ => by rfl) sextW_add, intForm_of_alu (fun _ => by rfl) sextW_sub,
    intForm_of_alu (fun _ => by rfl) sextW_mul, intForm_of_alu (fun _ => by rfl) fun x y => sextW_shiftLeft x (y.toNat % 32),
    intForm_of_alu (fun _ => by rfl) fun x y => sextW_setWidth (x.setWidth 32 >>> (y.toNat % 32)),
    intForm_of_alu (fun _ => by rfl) fun x y => sextW_sshiftRight x (n := y.toNat % 32) (Nat.mod_lt _ (by decide))⟩

/-- Settles O2: the values of the divisions are those of truncating division, and each 32-bit form works on low halves. -/
theorem divideAndWordForms : Obligations.DivideAndWordForms := ⟨divideFormsHold, word32FormsHold⟩

end Sys2Proof.Machine

/-! ## O3: counts of bits, and the bytes in reverse (R124) -/

namespace Sys2Proof.Machine

/-- R124: the leading zero bits end at the highest bit that is set. -/
theorem countLeading_bounds {x : Word} (h : x ≠ 0) :
    countLeading x ≤ 63 ∧ 2 ^ (63 - countLeading x) ≤ x.toNat ∧ x.toNat < 2 ^ (64 - countLeading x) := by
  have pos : x.toNat ≠ 0 := fun h0 => h (BitVec.eq_of_toNat_eq h0)
  have top : Nat.log2 x.toNat < 64 := (Nat.log2_lt pos).mpr x.isLt
  rw [countLeading, if_neg h, show 63 - (63 - Nat.log2 x.toNat) = Nat.log2 x.toNat by omega,
    show 64 - (63 - Nat.log2 x.toNat) = Nat.log2 x.toNat + 1 by omega]
  exact ⟨Nat.sub_le _ _, Nat.log2_self_le pos, Nat.lt_log2_self⟩

/-- R124: the bits below the lowest one that is set are zero. -/
theorem countTrailing_spec (n w : Nat) (h : w % 2 ^ n ≠ 0) :
    w % 2 ^ countTrailing n w = 0 ∧ w.testBit (countTrailing n w) = true := by
  induction n generalizing w with
  | zero => simp [Nat.mod_one] at h
  | succ n ih =>
    rw [countTrailing]
    split
    next odd => simp [Nat.mod_one, Nat.testBit_zero, odd]
    next even =>
      have even : w % 2 = 0 := by omega
      rw [Nat.pow_succ', Nat.mod_mul, even, Nat.zero_add] at h
      obtain ⟨below, bit⟩ := ih (w / 2) fun h0 => h (by rw [h0, Nat.mul_zero])
      rw [Nat.add_comm 1, Nat.pow_succ', Nat.mod_mul, even, below, Nat.testBit_succ]
      exact ⟨rfl, bit⟩

theorem countTrailing_zero (n : Nat) : countTrailing n 0 = n := by
  induction n with
  | zero => rfl
  | succ n ih => rw [countTrailing, if_neg (by decide), Nat.zero_div, ih, Nat.add_comm]

/-- R124: the ones among the low n bits. -/
theorem countOnes_eq_length (n w : Nat) : countOnes n w = ((List.range n).filter fun i => w.testBit i).length := by
  induction n generalizing w with
  | zero => rfl
  | succ n ih =>
    have rest : (((List.range n).map Nat.succ).filter fun i => w.testBit i).length = countOnes n (w / 2) := by
      rw [ih, List.filter_map, List.length_map]
      exact congrArg _ (List.filter_congr fun i _ => Nat.testBit_succ w i)
    rw [countOnes, List.range_succ_eq_map, List.filter_cons, Nat.testBit_zero]
    split
    next odd => rw [List.length_cons, rest, of_decide_eq_true odd, Nat.add_comm]
    next even => rw [rest, show w % 2 = 0 by simpa using even, Nat.zero_add]

theorem reverseBytes_lt (n w : Nat) : reverseBytes n w < 2 ^ (8 * n) := by
  induction n generalizing w with
  | zero => exact Nat.one_pos
  | succ n ih =>
    rw [reverseBytes, pow2, Nat.mul_add]
    exact WordPart.digit_lt (n := 8) (Nat.mod_lt _ (by decide)) (ih (w / 256))

/-- R124: byte k of the reversed bytes is byte n - 1 - k of the number. -/
theorem reverseBytes_byte (n w : Nat) {k : Nat} (hk : k < n) :
    reverseBytes n w / 2 ^ (8 * k) % 2 ^ 8 = w / 2 ^ (8 * (n - 1 - k)) % 2 ^ 8 := by
  induction n generalizing w with
  | zero => omega
  | succ n ih =>
    have rest := reverseBytes_lt n (w / 256)
    rw [reverseBytes, pow2]
    rcases Nat.lt_succ_iff_lt_or_eq.mp hk with lt | rfl
    · have whole : w % 256 * 2 ^ (8 * n) = 2 ^ (8 * k) * (2 ^ 8 * (w % 256 * 2 ^ (8 * (n - 1 - k)))) := by
        rw [show 8 * n = 8 * k + (8 + 8 * (n - 1 - k)) by omega, Nat.pow_add, Nat.pow_add]
        ring
      have next : 2 ^ (8 * (n + 1 - 1 - k)) = 256 * 2 ^ (8 * (n - 1 - k)) := by
        rw [show 8 * (n + 1 - 1 - k) = 8 + 8 * (n - 1 - k) by omega, Nat.pow_add]
      rw [whole, Nat.mul_add_div (Nat.two_pow_pos _), Nat.mul_add_mod, ih (w / 256) lt, Nat.div_div_eq_div_mul, next]
    · rw [Nat.mul_comm, Nat.mul_add_div (Nat.two_pow_pos _), Nat.div_eq_of_lt rest]
      simp

/-- Settles O3: each form writes its count; the counts and the bytes are characterised by induction on the bits. -/
theorem bitCountForms : Obligations.BitCountForms := by
  refine ⟨fun d a h => ⟨intForm1_of_aluImm (fun _ => by rfl) fun _ => rfl, intForm1_of_aluImm (fun _ => by rfl) fun _ => rfl,
    intForm1_of_aluImm (fun _ => by rfl) fun _ => rfl, intForm1_of_aluImm (fun _ => by rfl) fun _ => rfl⟩, rfl, countTrailing_zero 64,
    fun x => ⟨countLeading_bounds, fun hx => ?_, countOnes_eq_length 64 x.toNat, fun k hk => ?_⟩⟩
  · refine countTrailing_spec 64 x.toNat fun h0 => hx (BitVec.eq_of_toNat_eq ?_)
    rwa [Nat.mod_eq_of_lt x.isLt] at h0
  · have byte := reverseBytes_byte 8 x.toNat hk
    apply BitVec.eq_of_toNat_eq
    have lt : reverseBytes 8 x.toNat < 2 ^ 64 := reverseBytes_lt 8 x.toNat
    rw [BitVec.extractLsb'_toNat, BitVec.extractLsb'_toNat, BitVec.toNat_ofNat, Nat.mod_eq_of_lt lt, Nat.shiftRight_eq_div_pow,
      Nat.shiftRight_eq_div_pow]
    exact byte

end Sys2Proof.Machine

/-! ## O4: the immediate, bit-field and constant forms (R125-R128) -/

namespace Sys2Proof

/-- A scalar word that names no form is an illegal encoding, if it is no engine word (R53, R72). -/
theorem decode_of_no_form {w : Nat} (h2C : fld w 31 26 ≠ 0x2C) (h2D : fld w 31 26 ≠ 0x2D) (none : scalarForm w = none) :
    decode .scalar w = .illegalEncoding := by
  have engine : wrongUnit w = false := by simp [wrongUnit, h2C, h2D]
  show checkForm .scalar w (scalarForm w) = _
  rw [none, checkForm, engine]
  rfl

/-- The opcode of a scalar word is its top six bits. -/
theorem opcode_eq {w op : Nat} (hop : op < 64) (h : w / 2 ^ 26 = op) : fld w 31 26 = op := by
  show w / 2 ^ 26 % 2 ^ 6 = op
  omega

/-- R126: an immediate shift has 0, 1 or 2 in bits 15:6. -/
theorem decode_bad_shift {w : Nat} (hop : w / 2 ^ 26 = 0x0E) (h : w / 2 ^ 8 % 2 ^ 8 ≠ 0 ∨ w / 2 ^ 6 % 4 = 3) :
    decode .scalar w = .illegalEncoding := by
  have op := opcode_eq (by decide) hop
  have field : fld w 15 6 ≠ 0 ∧ fld w 15 6 ≠ 1 ∧ fld w 15 6 ≠ 2 := by
    show w / 2 ^ 6 % 2 ^ 10 ≠ 0 ∧ w / 2 ^ 6 % 2 ^ 10 ≠ 1 ∧ w / 2 ^ 6 % 2 ^ 10 ≠ 2
    omega
  refine decode_of_no_form (by simp [op]) (by simp [op]) ?_
  rw [scalarForm, op]
  simp [scalarOp0E, field]

/-- R127: BFX has 0 in bits 14:12. -/
theorem decode_bad_extract {w : Nat} (hop : w / 2 ^ 26 = 0x0F) (h : w / 2 ^ 12 % 8 ≠ 0) : decode .scalar w = .illegalEncoding := by
  have op := opcode_eq (by decide) hop
  have field : fld w 15 12 ≠ 0 ∧ fld w 15 12 ≠ 8 := by
    show w / 2 ^ 12 % 2 ^ 4 ≠ 0 ∧ w / 2 ^ 12 % 2 ^ 4 ≠ 8
    omega
  refine decode_of_no_form (by simp [op]) (by simp [op]) ?_
  rw [scalarForm, op]
  simp [scalarOp0F, field]

/-- R127: BFI has 0 in bits 15:12. -/
theorem decode_bad_insert {w : Nat} (hop : w / 2 ^ 26 = 0x10) (h : w / 2 ^ 12 % 16 ≠ 0) : decode .scalar w = .illegalEncoding := by
  have op := opcode_eq (by decide) hop
  have field : fld w 15 12 ≠ 0 := h
  refine decode_of_no_form (by simp [op]) (by simp [op]) ?_
  rw [scalarForm, op]
  simp [scalarOp10, field]

end Sys2Proof

namespace Sys2Proof.Machine

/-- R127: a field of v, read as two's complement, where the field does not pass bit 63. -/
theorem sextNat_field (v len : Nat) (h : v < 2 ^ len) : sextNat v len = if v < 2 ^ (len - 1) then (v : Int) else (v : Int) - 2 ^ len := by
  simp [sextNat, pow2, Nat.mod_eq_of_lt h]

theorem bfxS_value (p l : BitVec 6) (x : Word) :
    wordOfInt (sextNat (extractField p l x) (fieldLength p l)) =
      let len : Nat := min (l.toNat + 1) (64 - p.toNat)
      let v := x.toNat / 2 ^ p.toNat % 2 ^ len
      BitVec.ofInt 64 (if v < 2 ^ (len - 1) then (v : Int) else (v : Int) - 2 ^ len) :=
  congrArg wordOfInt (sextNat_field _ _ (Nat.mod_lt _ (Nat.two_pow_pos _)))

theorem slti_value (x : Word) (imm : BitVec 16) : boolWord (x.slt (sext 16 imm)) = if x.toInt < imm.toInt then 1 else 0 := by
  rw [boolWord_slt, sext, BitVec.toInt_signExtend_of_le (by decide)]

/-- The words of the SI format whose IMM16 is the immediate. -/
theorem encode_immediate (d a : BitVec 5) (i : BitVec 16) :
    let word (op imm16 : Nat) : Nat := op * 2 ^ 26 + d.toNat * 2 ^ 21 + a.toNat * 2 ^ 16 + imm16
    encode (.addi d a i) = word 0x08 i.toNat ∧ encode (.andi d a i) = word 0x09 i.toNat ∧ encode (.ori d a i) = word 0x0A i.toNat ∧
    encode (.xori d a i) = word 0x0B i.toNat ∧ encode (.slti d a i) = word 0x0C i.toNat ∧ encode (.sltiu d a i) = word 0x0D i.toNat :=
  ⟨rfl, rfl, rfl, rfl, rfl, rfl⟩

/-- The words of the shifts by an immediate, and of the bit fields: the fixed bits of IMM16 stand beside the operands. -/
theorem encode_fields (d a : BitVec 5) (n p l : BitVec 6) :
    let word (op imm16 : Nat) : Nat := op * 2 ^ 26 + d.toNat * 2 ^ 21 + a.toNat * 2 ^ 16 + imm16
    encode (.slli d a n) = word 0x0E n.toNat ∧ encode (.srli d a n) = word 0x0E (2 ^ 6 + n.toNat) ∧
    encode (.srai d a n) = word 0x0E (2 ^ 7 + n.toNat) ∧ encode (.bfx d a p l) = word 0x0F (2 ^ 6 * p.toNat + l.toNat) ∧
    encode (.bfxS d a p l) = word 0x0F (2 ^ 15 + 2 ^ 6 * p.toNat + l.toNat) ∧
    encode (.bfi d a p l) = word 0x10 (2 ^ 6 * p.toNat + l.toNat) := by
  dsimp only
  refine ⟨?_, ?_, ?_, ?_, ?_, ?_⟩
  · show 0x38000000 + d.toNat * 2097152 + a.toNat * 65536 + n.toNat = _
    omega
  · show 0x38000040 + d.toNat * 2097152 + a.toNat * 65536 + n.toNat = _
    omega
  · show 0x38000080 + d.toNat * 2097152 + a.toNat * 65536 + n.toNat = _
    omega
  · show 0x3C000000 + d.toNat * 2097152 + a.toNat * 65536 + p.toNat * 64 + l.toNat = _
    omega
  · show 0x3C008000 + d.toNat * 2097152 + a.toNat * 65536 + p.toNat * 64 + l.toNat = _
    omega
  · show 0x40000000 + d.toNat * 2097152 + a.toNat * 65536 + p.toNat * 64 + l.toNat = _
    omega

/-- Settles O4: each form is `aluImm` or `constForm` of its value; its words are `encode_immediate` and `encode_fields`. -/
theorem immediateForms : Obligations.ImmediateForms := by
  refine ⟨fun d a imm n p l => ?_, fun d imm => ?_⟩
  · exact ⟨intForm1_of_aluImm (fun _ => by rfl) fun _ => rfl, intForm1_of_aluImm (fun _ => by rfl) fun _ => rfl,
      intForm1_of_aluImm (fun _ => by rfl) fun _ => rfl, intForm1_of_aluImm (fun _ => by rfl) fun _ => rfl,
      intForm1_of_aluImm (fun _ => by rfl) fun x => slti_value x imm,
      intForm1_of_aluImm (fun _ => by rfl) fun x => boolWord_ult x (imm.signExtend 64),
      intForm1_of_aluImm (fun _ => by rfl) fun _ => rfl, intForm1_of_aluImm (fun _ => by rfl) fun _ => rfl,
      intForm1_of_aluImm (fun _ => by rfl) fun _ => rfl, intForm1_of_aluImm (fun _ => by rfl) fun _ => rfl,
      intForm1_of_aluImm (fun _ => by rfl) (bfxS_value p l), writesForm_of_checks fun _ => by rfl⟩
  · refine ⟨fun s hs => completes_constForm hs rfl, fun s hs => completes_constForm hs rfl, fun s hs => completes_constForm hs rfl,
      fun a i n p l => ?_, fun w hw => ⟨decode_bad_shift, decode_bad_extract, decode_bad_insert⟩⟩
    obtain ⟨addi, andi, ori, xori, slti, sltiu⟩ := encode_immediate d a i
    obtain ⟨slli, srli, srai, bfx, bfxS, bfi⟩ := encode_fields d a n p l
    exact ⟨addi, andi, ori, xori, slti, sltiu, slli, srli, srai, bfx, bfxS, bfi, rfl, rfl, rfl⟩

end Sys2Proof.Machine

/-! ## O5: the scalar floating-point forms (R35, R123, R130) -/

namespace Sys2Proof.Machine

/-- A floating-point form raises and writes what its function gives, an FP32 form and an FP64 form after their own latencies. -/
theorem writesForm_of_fpForm {i : Instr} {d : BitVec 5} {reads : List (BitVec 5)} {t : BitVec 1} {l32 l64 : Nat}
    {f v : RegFile → Word × Nat} (hi : ∀ s, exec i s = fpForm d reads t l32 l64 f s) (hv : ∀ r, f r = v r) :
    WritesForm i true false true [] reads d (if t = 1 then l64 else l32) v := by
  obtain rfl : f = v := funext hv
  exact fun s hs => ⟨_, (hi s).trans (fpForm_of_admits hs f), scalarWrote_finishFlags _ _ _ _⟩

/-- The formats of a conversion: FCVT reads the type that it does not write (R130). -/
theorem fmtOf_other (t : BitVec 1) : fmtOf (1 - t) = if t = 1 then Fmt.f32 else Fmt.f64 := by
  revert t
  decide

theorem fpIn_other (t : BitVec 1) (v : Word) : fpIn (1 - t) v = if t = 1 then v.toNat % 2 ^ 32 else v.toNat := by
  have values : ∀ t : BitVec 1, t = 0 ∨ t = 1 := by decide
  rcases values t with rfl | rfl
  · rfl
  · rfl

/-- Settles O5: each form is `fpForm` of the operation of its type. -/
theorem floatForms : Obligations.FloatForms := by
  intro d a b t h F G arg other rm res form
  refine ⟨writesForm_of_fpForm (fun _ => by rfl) fun _ => rfl, writesForm_of_fpForm (fun _ => by rfl) fun _ => rfl,
    writesForm_of_fpForm (fun _ => by rfl) fun _ => rfl, writesForm_of_fpForm (fun _ => by rfl) fun _ => rfl,
    writesForm_of_fpForm (fun _ => by rfl) fun _ => rfl, writesForm_of_fpForm (fun _ => by rfl) fun _ => rfl,
    writesForm_of_fpForm (fun _ => by rfl) fun _ => rfl, writesForm_of_fpForm (fun _ => by rfl) fun _ => rfl,
    writesForm_of_fpForm (fun _ => by rfl) fun _ => rfl, writesForm_of_fpForm (fun _ => by rfl) fun _ => rfl,
    writesForm_of_fpForm (fun _ => by rfl) fun _ => rfl,
    writesForm_of_fpForm (f := fun r => ((fmtOf (1 - t)).convert (fmtOf t) r.rm (fpIn (1 - t) (r.get a))).asWord) (fun _ => by rfl) fun r => ?_,
    writesForm_of_fpForm (fun _ => by rfl) fun _ => rfl, writesForm_of_fpForm (fun _ => by rfl) fun _ => rfl,
    writesForm_of_fpForm (fun _ => by rfl) fun _ => rfl, writesForm_of_fpForm (fun _ => by rfl) fun _ => rfl,
    writesForm_of_fpForm (fun _ => by rfl) fun _ => rfl, writesForm_of_fpForm (fun _ => by rfl) fun _ => rfl⟩
  rw [fmtOf_other, fpIn_other]
  rfl

end Sys2Proof.Machine

/-! ## O6: branches, direct jumps and JALR (R142-R144) -/

namespace Sys2Proof

/-- A scalar word of OP 0x24 whose COND is 6 or 7 is an illegal encoding (R142). -/
theorem decode_reserved_branch {w : Nat} (hop : w / 2 ^ 26 = 0x24) (h : 6 ≤ fld w 25 23) : decode .scalar w = .illegalEncoding := by
  have op := opcode_eq (by decide) hop
  refine decode_of_no_form (by simp [op]) (by simp [op]) ?_
  rw [scalarForm, op]
  show scalarOp24 w = none
  have other {n : Nat} (hn : n < 6) : fld w 25 23 ≠ n := by omega
  simp [scalarOp24, other]

/-- The words of the branches: their conditions are numbered in COND. -/
theorem encode_branches (a b : BitVec 5) (o : BitVec 13) :
    let word (cond : Nat) : Nat := 0x24 * 2 ^ 26 + cond * 2 ^ 23 + a.toNat * 2 ^ 18 + b.toNat * 2 ^ 13 + o.toNat
    encode (.beq a b o) = word 0 ∧ encode (.bne a b o) = word 1 ∧ encode (.blt a b o) = word 2 ∧ encode (.bge a b o) = word 3 ∧
    encode (.bltu a b o) = word 4 ∧ encode (.bgeu a b o) = word 5 :=
  ⟨rfl, rfl, rfl, rfl, rfl, rfl⟩

end Sys2Proof

namespace Sys2Proof.Machine

/-! ### Transfers -/

theorem fileWrote_none (r : RegFile) : FileWrote r r 0 (0, 0) := ⟨fun n => by simp, by simp, rfl, rfl, rfl⟩

theorem fileWrote_link (r : RegFile) (d : BitVec 5) (v : Word) : FileWrote r (r.put d v) d (v, 0) := by
  have wrote := fileWrote_put r d (v, 0)
  rwa [RegFile.raise_zero] at wrote

/-- A transfer without a link. -/
theorem scalarJumped_jump (s : State) (target : Word) (cost : Nat) : ScalarJumped s (s.jump target cost id) target cost 0 0 := by
  refine ⟨onlyScalar_jump _ _ _ _, ?_⟩
  simp only [State.rf, State.scalar_jump]
  exact ⟨fileWrote_none _, rfl, id, fun r h => ⟨r, h, fileWrote_none _⟩, trivial, trivial⟩

/-- A transfer with a link, which every register file of the stream takes. -/
theorem scalarJumped_jump_link (s : State) (target : Word) (link : Scalar → Word) (cost lat : Nat) (d : BitVec 5) :
    ScalarJumped s (s.jump target cost fun sc => (sc.mapFiles fun r => r.put d (link sc)).mark s.pcc lat d) target cost d (link s.scalar) := by
  refine ⟨onlyScalar_jump _ _ _ _, ?_⟩
  simp only [State.rf, State.scalar_jump, Scalar.mark, Scalar.mapFiles]
  exact ⟨fileWrote_link _ _ _, trivial, fun h => by rw [h]; rfl, fun r h => ⟨_, by rw [h]; rfl, fileWrote_link _ _ _⟩, trivial, trivial⟩

/-! ### Branches -/

theorem Scalar.agree_of_twin {sc : Scalar} {f : RegFile → Bool} (h : ∀ r, sc.twin = some r → f sc.rf = f r) : sc.agree f = true := by
  unfold Scalar.agree
  split
  next r twin => simp [h r twin]
  next => rfl

theorem Scalar.agreeOn_of_twin {α : Type} [DecidableEq α] {sc : Scalar} {f : RegFile → α} (h : ∀ r, sc.twin = some r → f r = f sc.rf) :
    sc.agreeOn f = true := by
  unfold Scalar.agreeOn
  split
  next r twin => simp [h r twin]
  next => rfl

/-- A branch goes where its condition says (R142). -/
theorem branchForm_of_branch {a b : BitVec 5} {o : BitVec 13} {i : Instr} {f : Word → Word → Bool} {cond : Word → Word → Prop}
    (hi : ∀ s, exec i s = branch a b o f s) (hf : ∀ x y, f x y = true ↔ cond x y) : BranchForm a b o i cond := by
  intro s hs twin
  have agree : s.scalar.agree (fun r => f (r.get a) (r.get b)) = true := by
    refine Scalar.agree_of_twin fun r hr => ?_
    rw [Bool.eq_iff_iff, hf, hf]
    exact (twin r hr).symm
  have run : exec i s = if f (s.x a) (s.x b) then .next (s.jump (wordTarget s.scalar.pc o) 3 id) else .next (s.finish id) := by
    rw [hi, branch, onStreams_of_admits hs, withFields_of_admits hs, withReads_of_admits hs]
    exact check_of_true _ _ _ _ agree
  refine ⟨fun taken => ⟨_, ?_, scalarJumped_jump _ _ _⟩, fun not => ⟨_, ?_, finished_finish s⟩⟩
  · rw [run, if_pos ((hf _ _).mpr taken)]
    rfl
  · rw [run, if_neg fun h => not ((hf _ _).mp h)]

theorem slt_iff (x y : Word) : x.slt y = true ↔ x.toInt < y.toInt := by simp [BitVec.slt_eq_decide]

theorem ult_iff (x y : Word) : x.ult y = true ↔ x.toNat < y.toNat := by simp [BitVec.ult]

theorem not_slt_iff (x y : Word) : (!x.slt y) = true ↔ y.toInt ≤ x.toInt := by simp [BitVec.slt_eq_decide]

theorem not_ult_iff (x y : Word) : (!x.ult y) = true ↔ y.toNat ≤ x.toNat := by simp [BitVec.ult]

theorem branchesAndJumpsHold : BranchesAndJumpsHold := by
  refine ⟨fun a b o => ?_, fun a b o => ?_, fun o s => ⟨rfl, rfl, fun hs => ⟨_, ?_, scalarJumped_jump _ _ _⟩,
    fun hs => ⟨_, ?_, scalarJumped_jump_link _ _ (fun sc => sc.pc + 4) _ 1 _⟩⟩⟩
  · exact ⟨branchForm_of_branch (fun _ => by rfl) fun _ _ => beq_iff_eq, branchForm_of_branch (fun _ => by rfl) fun _ _ => bne_iff_ne,
      branchForm_of_branch (fun _ => by rfl) slt_iff, branchForm_of_branch (fun _ => by rfl) not_slt_iff,
      branchForm_of_branch (fun _ => by rfl) ult_iff, branchForm_of_branch (fun _ => by rfl) not_ult_iff⟩
  · obtain ⟨beq, bne, blt, bge, bltu, bgeu⟩ := encode_branches a b o
    have reserved {c : Nat} (h6 : 6 ≤ c) (h8 : c < 8) :
        decode .scalar (0x24 * 2 ^ 26 + c * 2 ^ 23 + a.toNat * 2 ^ 18 + b.toNat * 2 ^ 13 + o.toNat) = .illegalEncoding := by
      have ha := a.isLt
      have hb := b.isLt
      have ho := o.isLt
      refine decode_reserved_branch (by omega) ?_
      show 6 ≤ (0x24 * 2 ^ 26 + c * 2 ^ 23 + a.toNat * 2 ^ 18 + b.toNat * 2 ^ 13 + o.toNat) / 2 ^ 23 % 2 ^ 3
      omega
    exact ⟨beq, bne, blt, bge, bltu, bgeu, reserved (by decide) (by decide), reserved (by decide) (by decide)⟩
  · show execJ o s = _
    rw [execJ, onStreams_of_admits hs]
    rfl
  · show execJal o s = _
    rw [execJal, onStreams_of_admits hs]
    rfl

/-! ### JALR -/

/-- The step's scalar stream is no part of what the instruction cache keeps, on the control die either. -/
theorem State.scalar_keepSector_of_admits {s : State} {fields reads : List (BitVec 5)} (hs : Admits s true false true fields reads)
    (ctx : Nat) (va : Word) : (s.keepSector s.curKey ctx va).scalar = s.scalar := by
  obtain ⟨⟨hg, -⟩ | ⟨-, he⟩ | ⟨hc, -⟩, -⟩ := hs
  · exact State.scalar_keepSector hg ctx va
  · cases he
  · rw [State.keepSector, if_pos]
    rw [State.curKey, hc]
    exact Nat.le_add_right _ _

theorem execJalr_of_word {d a : BitVec 5} {s : State} {w : BitVec 32} (hs : Admits s true false true [] [a])
    (ht : (s.x a).toNat % 4 = 0) (hw : s.fetch s.curKey s.curCtx (s.x a) = .word w) :
    execJalr d a s =
      let s1 := s.keepSector s.curKey s.curCtx (s.x a)
      if w ≠ 0x9C000000 then trapWith s1 { cause := causeProtection, addr := s.x a, aux := s.x a }
      else check (s1.scalar.agreeOn fun r => r.get a) causeTwin s1 <|
        .next (s1.jump (s.x a) 3 fun sc => (sc.mapFiles fun r => r.put d (s.scalar.pc + 4)).mark s1.pcc 1 d) := by
  rw [execJalr, onStreams_of_admits hs, withReads_of_admits hs]
  dsimp only
  rw [if_neg (not_not_intro ht), withWord, hw]

theorem jumpRegisterHold : JumpRegisterHold := by
  intro d a h s hs target
  refine ⟨fun ht => ?_, fun w ht hw => ⟨fun hne => ?_, fun heq twin => ⟨_, ?_, scalarJumped_jump_link _ _ (fun _ => s.scalar.pc + 4) _ 1 d⟩⟩⟩
  · show execJalr d a s = _
    rw [execJalr, onStreams_of_admits hs, withReads_of_admits hs]
    exact if_pos ht
  · exact (execJalr_of_word hs ht hw).trans (if_pos hne)
  · have scalar := State.scalar_keepSector_of_admits hs s.curCtx target
    refine (execJalr_of_word hs ht hw).trans ((if_neg (not_not_intro heq)).trans (check_of_true _ _ _ _ ?_))
    rw [scalar]
    exact Scalar.agreeOn_of_twin twin

/-- Settles O6: a transfer leaves what `scalarJumped_jump` and `scalarJumped_jump_link` say. -/
theorem controlTransferForms : Obligations.ControlTransferForms := ⟨branchesAndJumpsHold, jumpRegisterHold⟩

end Sys2Proof.Machine

/-! ## O8: the scratchpad forms (R135) -/

namespace Sys2Proof.Machine

/-! ### Values -/

/-- A number of size bytes, read as two's complement. -/
theorem extend_signed {size v : Nat} (hv : v < 2 ^ (8 * size)) : extend true size v = (BitVec.ofNat (8 * size) v).signExtend 64 := by
  have value : sextNat v (8 * size) = (BitVec.ofNat (8 * size) v).toInt := by
    rw [sextNat_field _ _ hv, BitVec.toInt_eq_toNat_cond, BitVec.toNat_ofNat, Nat.mod_eq_of_lt hv]
    rcases Nat.eq_zero_or_pos size with rfl | pos
    · have : v = 0 := by omega
      subst this
      rfl
    · have half : 2 ^ (8 * size) = 2 * 2 ^ (8 * size - 1) := by rw [← Nat.pow_succ']; congr 1; omega
      have low : v < 2 ^ (8 * size - 1) ↔ 2 * v < 2 ^ (8 * size) := by omega
      rw [Nat.cast_pow]
      simp only [low]
      rfl
  rw [extend, if_pos rfl, value, BitVec.signExtend]
  rfl

theorem extend_unsigned {size v : Nat} (hv : v < 2 ^ (8 * size)) : extend false size v = BitVec.ofNat 64 v := by
  rw [extend, if_neg (by decide), pow2, Nat.mod_eq_of_lt hv]

theorem pow_256 (n : Nat) : 256 ^ n = 2 ^ (8 * n) := by rw [Nat.pow_mul]

theorem Memory.readN_lt_pow (m : Memory) (a n : Nat) : m.readN a n < 2 ^ (8 * n) := pow_256 n ▸ m.readN_lt a n

/-- Byte i of the low bytes of a word is byte i of the word. -/
theorem byte_storeValue (v : Word) {size i : Nat} (hi : i < size) :
    BitVec.ofNat 8 (storeValue v size / 256 ^ i) = v.extractLsb' (8 * i) 8 := by
  apply BitVec.eq_of_toNat_eq
  have split : 8 * size = 8 * i + (8 + 8 * (size - i - 1)) := by omega
  rw [BitVec.extractLsb'_toNat, BitVec.toNat_ofNat, Nat.shiftRight_eq_div_pow, storeValue, pow2, pow_256, split, Nat.pow_add,
    Nat.mod_mul_right_div_self, Nat.pow_add, Nat.mod_mul_right_mod]

/-! ### Checks -/

theorem Core.inReservation_eq_true {c : Core} {ea : Word} {n : Nat} (h : ea.toNat + n ≤ c.job.spmSize) : c.inReservation ea n = true :=
  decide_eq_true h

theorem Core.inReservation_eq_false {c : Core} {ea : Word} {n : Nat} (h : c.job.spmSize < ea.toNat + n) : c.inReservation ea n = false :=
  decide_eq_false (Nat.not_le.mpr h)

/-! ### Loads -/

section
variable {i : Instr} {d a : BitVec 5} {sz : BitVec 2} {o : BitVec 12} {signed : Bool} {s : State}

theorem ldsForm_of_misaligned (hs : Admits s true false false [] [a]) :
    let ea : Word := s.x a + o.signExtend 64 * BitVec.ofNat 64 (2 ^ sz.toNat)
    ea.toNat % 2 ^ sz.toNat ≠ 0 → ldsForm d a sz o signed s = .next (s.raiseTrap { cause := 0x08, addr := ea }) := by
  intro ea h
  rw [ldsForm, onStreams_of_admits hs, withReads_of_admits hs]
  exact if_pos h

theorem ldsForm_of_outside (hs : Admits s true false false [] [a]) :
    let ea : Word := s.x a + o.signExtend 64 * BitVec.ofNat 64 (2 ^ sz.toNat)
    ea.toNat % 2 ^ sz.toNat = 0 → s.here.job.spmSize < ea.toNat + 2 ^ sz.toNat →
    ldsForm d a sz o signed s = .next (s.raiseTrap { cause := 0x0A, addr := ea }) := by
  intro ea h out
  have no : (!s.here.inReservation ea (pow2 sz.toNat)) = true := congrArg not (Core.inReservation_eq_false out)
  rw [ldsForm, onStreams_of_admits hs, withReads_of_admits hs]
  exact (if_neg (not_not_intro h)).trans (if_pos no)

/-- A load of bytes without poison writes them, extended. -/
theorem completes_ldsForm {v : Nat → Word} (hi : exec i s = ldsForm d a sz o signed s) (hs : Admits s true false false [] [a])
    (hv : ∀ w, w < 2 ^ (8 * 2 ^ sz.toNat) → extend signed (2 ^ sz.toNat) w = v w) :
    let size := 2 ^ sz.toNat
    let ea : Word := s.x a + o.signExtend 64 * BitVec.ofNat 64 size
    ea.toNat % size = 0 → ea.toNat + size ≤ s.here.job.spmSize → (∀ k < size, (ea.toNat + k) / 32 ∉ s.here.spmPoison) →
    Completes i s fun t => ScalarWrote s t d 4 fun _ => (v (Memory.readN s.here.spm ea.toNat size), 0) := by
  intro size ea h inside clean
  have yes : ¬ (!s.here.inReservation ea (pow2 sz.toNat)) = true :=
    ne_true_of_eq_false (congrArg not (Core.inReservation_eq_true inside))
  have clean : ¬ poisonedIn s.here.spmPoison ea.toNat (pow2 sz.toNat) = true := ne_true_of_eq_false (poisonedIn_eq_false clean)
  refine ⟨_, ?_, scalarWrote_finishWrite _ _ _ _⟩
  rw [hi, ldsForm, onStreams_of_admits hs, withReads_of_admits hs, ← hv _ (Memory.readN_lt_pow _ _ _)]
  exact (if_neg (not_not_intro h)).trans ((if_neg yes).trans (if_neg clean))

end

/-! ### The store -/

theorem State.core_finish_other (s : State) (f : Scalar → Scalar) {k : Nat} (hk : k ≠ s.cur.core) : (s.finish f).core k = s.core k := by
  cases h : s.cur.stream
  case control =>
    simp only [State.finish, State.modScalar, State.clearHold, State.modCtl_cur, h]
    rfl
  all_goals simp [State.finish, State.modScalar, State.clearHold, State.modGrp, State.modHere, State.core_modCore_other _ _ _ _ hk, h]

/-- The end of an instruction of a group leaves the core's scratchpad alone. -/
theorem State.spm_here_finish (s : State) (f : Scalar → Scalar) : (s.finish f).here.spm = s.here.spm := by
  cases h : s.cur.stream <;> simp [State.finish, State.modScalar, State.clearHold, State.modGrp, Core.modGroup, Core.setGroup, h]

/-- A store writes the low bytes of the register, and no other byte. -/
theorem read_writeN_storeValue (m : Memory) (a size : Nat) (v : Word) (k : Nat) :
    (m.writeN a size (storeValue v size)).read k = if a ≤ k ∧ k < a + size then v.extractLsb' (8 * (k - a)) 8 else m.read k := by
  split
  next h =>
    obtain ⟨i, rfl⟩ := Nat.exists_eq_add_of_le h.1
    rw [Memory.read_writeN_inside _ _ _ _ _ (by omega), byte_storeValue v (by omega), Nat.add_sub_cancel_left]
  next h => exact Memory.read_writeN_outside _ _ _ _ _ (by omega)

theorem exec_sts_of_checks {d a : BitVec 5} {sz : BitVec 2} {o : BitVec 12} {s : State} (hs : Admits s true false false [] [d, a])
    (twin : ∀ r, s.scalar.twin = some r → r.get a = s.x a ∧ r.get d = s.x d) :
    let size := 2 ^ sz.toNat
    let ea : Word := s.x a + o.signExtend 64 * BitVec.ofNat 64 size
    ea.toNat % size = 0 → ea.toNat + size ≤ s.here.job.spmSize →
    exec (.sts d a sz o) s =
      .next ((s.modHere fun c => (c.keepOld ea.toNat size).writeSpm ea.toNat size (storeValue (s.x d) size)).finish id) := by
  intro size ea h inside
  have yes : ¬ (!s.here.inReservation ea (pow2 sz.toNat)) = true :=
    ne_true_of_eq_false (congrArg not (Core.inReservation_eq_true inside))
  have agree : (s.scalar.agreeOn fun r => (r.get a + o.signExtend 64 * BitVec.ofNat 64 size, storeValue (r.get d) size)) = true := by
    refine Scalar.agreeOn_of_twin fun r hr => ?_
    obtain ⟨ha, hd⟩ := twin r hr
    rw [ha, hd]
    rfl
  show execSts d a sz o s = _
  rw [execSts, onStreams_of_admits hs, withReads_of_admits hs]
  exact (if_neg (not_not_intro h)).trans ((if_neg yes).trans (check_of_true _ _ _ _ agree))

/-- Settles O8: a load is `ldsForm`, and a store writes what `read_writeN_storeValue` says. -/
theorem scratchpadForms : Obligations.ScratchpadForms := by
  intro d a sz o s size ea v
  refine ⟨fun hs => ⟨fun h => ⟨ldsForm_of_misaligned hs h, ldsForm_of_misaligned hs h⟩,
    fun h out => ⟨ldsForm_of_outside hs h out, ldsForm_of_outside hs h out⟩, fun h inside clean => ⟨?_, ?_⟩⟩,
    fun hs => ⟨fun h => ?_, fun h out => ?_⟩, fun hs h inside twin => ?_⟩
  · exact completes_ldsForm (v := fun w => (BitVec.ofNat (8 * size) w).signExtend 64) rfl hs (fun _ => extend_signed) h inside clean
  · exact completes_ldsForm (v := fun w => BitVec.ofNat 64 w) rfl hs (fun _ => extend_unsigned) h inside clean
  · show execSts d a sz o s = _
    rw [execSts, onStreams_of_admits hs, withReads_of_admits hs]
    exact if_pos h
  · have no : (!s.here.inReservation ea (pow2 sz.toNat)) = true := congrArg not (Core.inReservation_eq_false out)
    show execSts d a sz o s = _
    rw [execSts, onStreams_of_admits hs, withReads_of_admits hs]
    exact (if_neg (not_not_intro h)).trans (if_pos no)
  · let f : Core → Core := fun c => (c.keepOld ea.toNat size).writeSpm ea.toNat size (storeValue (s.x d) size)
    have scalar : (s.modHere f).scalar = s.scalar := State.scalar_modHere s rfl rfl
    have spm : ((s.modHere f).finish id).here.spm = s.here.spm.writeN ea.toNat size (storeValue (s.x d) size) := by
      rw [State.spm_here_finish, State.here_modHere]
      rfl
    have done : ((s.modHere f).finish id).scalar = s.scalar.advance s.pcc := by
      rw [State.scalar_finish, scalar]
      rfl
    refine ⟨_, exec_sts_of_checks hs twin h inside, fun k => ?_, fun wf => ?_, fun k => by rw [State.finish_mem]; rfl, fun n => ?_, ?_, ?_, ?_,
      fun k hk => ?_⟩
    · rw [spm]
      exact read_writeN_storeValue _ _ _ _ _
    · rw [spm]
      exact Memory.wf_writeN _ _ _ _ wf
    · rw [State.x, State.rf, done]
      rfl
    · rw [done]
      rfl
    · rw [done]
      rfl
    · rw [State.finish_accs]
      rfl
    · exact (State.core_finish_other (s.modHere f) id hk).trans (State.core_modCore_other _ _ _ _ hk)

end Sys2Proof.Machine

/-! ## O9 to O11: global loads, stores and atomics, and their checks (R131, R133, R134, R137, R288, R293) -/

namespace Sys2Proof.Machine

/-! ### The checks of an access -/

theorem withRoom_of_lt {s : State} {n : Nat} (h : s.outstanding < n) (hn : s.cur.stream.loadLimit = n) (k : Out) : withRoom s k = k := by
  rw [withRoom, hn, if_pos h]

/-- The limit of R134 by stream. -/
theorem loadLimit_eq (s : State) :
    s.cur.stream.loadLimit = if s.cur.stream = .control then 32 else if s.cur.stream = .eft then 48 else 16 := by
  cases s.cur.stream <;> rfl

/-- The limit of R134 for a form that the eft stream refuses. -/
theorem loadLimit_of_admits {s : State} {fields reads : List (BitVec 5)} (hs : Admits s true false true fields reads) :
    s.cur.stream.loadLimit = if s.cur.stream = .control then 32 else 16 := by
  obtain ⟨⟨hg, -⟩ | ⟨-, he⟩ | ⟨hc, -⟩, -⟩ := hs
  · rw [hg]; rfl
  · cases he
  · rw [hc]; rfl

section
variable {s : State} {ea : Word} {size : Nat} {p : Perm} {e : TlbEntry}

theorem checkAccess_of_reaches (h : Reaches s ea size p e) : s.checkAccess ea size p = .ok (e.phys ea.toNat) e := by
  obtain ⟨aligned, range, held, write, unit⟩ := h
  have writable : (p ≠ .read && !e.writable) = false := by
    by_cases hp : p = .read
    · simp [hp]
    · simp [write hp]
  have range : ¬ ea.toNat ≥ pow2 56 := by rw [pow2]; omega
  rw [State.checkAccess, if_neg (not_not_intro aligned), if_neg range, held]
  dsimp only
  rw [writable, unit]
  rfl

theorem withAddress_of_reaches (h : Reaches s ea size p e) (k : Nat → TlbEntry → Out) :
    withAddress ea size p s k = k (e.phys ea.toNat) e := by
  rw [withAddress, checkAccess_of_reaches h]

theorem withAddress_of_misaligned (h : ea.toNat % size ≠ 0) (k : Nat → TlbEntry → Out) :
    withAddress ea size p s k = .next (s.raiseTrap { cause := 0x08, addr := ea }) := by
  rw [withAddress, State.checkAccess, if_pos h]
  rfl

theorem withAddress_of_range (h : ea.toNat % size = 0) (hr : 2 ^ 56 ≤ ea.toNat) (k : Nat → TlbEntry → Out) :
    withAddress ea size p s k = .next (s.raiseTrap { cause := 0x09, addr := ea, detail := 0x20 }) := by
  rw [withAddress, State.checkAccess, if_neg (not_not_intro h), if_pos (show ea.toNat ≥ pow2 56 from hr)]
  rfl

theorem withAddress_of_refused (h : ea.toNat % size = 0) (hr : ea.toNat < 2 ^ 56) (hl : s.lookup s.curKey s.curCtx ea.toNat = some e)
    (refused : p ≠ .read ∧ e.writable = false ∨ s.refusesUnit (e.phys ea.toNat) p = true) (k : Nat → TlbEntry → Out) :
    withAddress ea size p s k = .next (s.raiseTrap { cause := 0x0A, addr := ea }) := by
  have range : ¬ ea.toNat ≥ pow2 56 := by rw [pow2]; omega
  have no : ((p ≠ .read && !e.writable) || s.refusesUnit (e.phys ea.toNat) p) = true := by
    rcases refused with ⟨hp, hw⟩ | hu
    · simp [hp, hw]
    · simp [hu]
  rw [withAddress, State.checkAccess, if_neg (not_not_intro h), if_neg range, hl]
  dsimp only
  rw [if_pos no]
  rfl

/-! ### Accesses under way -/

/-- An access that a state of the same registers holds has been issued once the stream goes on. -/
theorem accessIssued_finish {s1 : State} {f : Scalar → Scalar} {kind : AccKind} {pa cls : Nat} (same : SameRegisters s s1)
    (held : ∃ a, s1.accs.get s.nextId = some a ∧ a.kind = kind ∧ a.va = ea ∧ a.pa = pa ∧ a.size = size ∧ a.cls = cls ∧
      a.core = s.curKey ∧ a.slot = s.cur.slot ∧ a.stream = s.cur.stream ∧ a.pc = s.curPc)
    (rf : (f s.scalar).rf = s.scalar.rf) (pc : (f s.scalar).pc = s.scalar.pc) :
    AccessIssued s (s1.finish f) kind ea pa size cls := by
  refine ⟨by rwa [State.finish_accs], ?_, ?_, fun k => by rw [State.finish_mem, same.1]⟩
  · rw [State.scalar_finish, same.scalar]
    exact rf
  · rw [State.scalar_finish, same.scalar]
    exact congrArg (· + 4) pc

/-- The destination of an access that the stream awaits. -/
theorem waits_finish_await {s1 : State} (same : SameRegisters s s1) {d : BitVec 5} (hd : d ≠ 0) (id : Nat) :
    (s1.finish fun sc => sc.await d id).scalar.waits.get d.toNat = some id := by
  have key : awaitKey d.toNat id = d.toNat := if_neg fun h => hd (BitVec.eq_of_toNat_eq h)
  rw [State.scalar_finish, same.scalar, Scalar.await, key]
  exact FMap.get_set_same _ _ _

end

/-! ### Loads -/

/-- A load whose checks pass issues its read, and its destination awaits it. -/
theorem completes_loadForm {i : Instr} {d a : BitVec 5} {sz c : BitVec 2} {o : BitVec 12} {signed : Bool} {e : TlbEntry} {s : State}
    (hi : exec i s = loadForm d a sz c o signed s) (hs : Admits s true true true [d, a] [a])
    (room : s.outstanding < s.cur.stream.loadLimit) :
    let size := 2 ^ sz.toNat
    let ea : Word := s.x a + o.signExtend 64 * BitVec.ofNat 64 size
    Reaches s ea size .read e →
    Completes i s fun t => AccessIssued s t (.load d.toNat signed) ea (e.phys ea.toNat) size c.toNat ∧
      (d ≠ 0 → t.scalar.waits.get d.toNat = some s.nextId) := by
  intro size ea reach
  obtain ⟨id, same, held⟩ := startRead_spec s (.load d.toNat signed) ea (e.phys ea.toNat) size c.toNat 0 e
  refine ⟨_, ?_, accessIssued_finish same held (f := fun sc => sc.await d s.nextId) rfl rfl, fun hd => waits_finish_await same hd s.nextId⟩
  rw [hi, loadForm, onStreams_of_admits hs, withFields_of_admits hs, withReads_of_admits hs, withRoom_of_lt room rfl]
  refine (withAddress_of_reaches reach _).trans ?_
  rw [← id]
  rfl

/-- Settles O9: what a load leaves is what `startRead_spec` says of its read. -/
theorem globalLoads : Obligations.GlobalLoads := by
  intro d a sz c o e s size ea hs room reach
  rw [← loadLimit_eq] at room
  exact ⟨completes_loadForm rfl hs room reach, completes_loadForm rfl hs room reach⟩

/-! ### Atomics -/

/-- An atomic whose checks pass sends its access, and its destination awaits the old value. -/
theorem completes_amoForm {i : Instr} {d a b : BitVec 5} {sz c : BitVec 2} {op : Nat} {e : TlbEntry} {s : State}
    (hi : exec i s = amoForm d a b sz c op s) (hs : Admits s true false true [] [d, a, b])
    (room : s.outstanding < s.cur.stream.loadLimit) (reach : Reaches s (s.x a) (2 ^ sz.toNat) .both e)
    (twin : ∀ r, s.scalar.twin = some r → r.get a = s.x a ∧ r.get b = s.x b ∧ r.get d = s.x d) :
    Completes i s fun t =>
      AccessIssued s t (.amo d.toNat op (s.x b) (s.x d)) (s.x a) (e.phys (s.x a).toNat) (2 ^ sz.toNat) c.toNat ∧
      (d ≠ 0 → t.scalar.waits.get d.toNat = some s.nextId) := by
  let n : NewAccess :=
    { kind := .amo d.toNat op (s.x b) (s.x d), va := s.x a, pa := e.phys (s.x a).toNat, size := 2 ^ sz.toNat, cls := c.toNat,
      value := 0, order := s.nextOrder }
  obtain ⟨id, sent, x, held, kind, va, pa, size, cls, core, slot, stream, pc, -⟩ := send_spec s n
  obtain ⟨accs, bumped⟩ := bumpOrder_spec (s.send n).1
  have same := sent.trans bumped
  have agree : (s.scalar.agreeOn fun r => (r.get a, r.get b, r.get d)) = true := by
    refine Scalar.agreeOn_of_twin fun r hr => ?_
    obtain ⟨ha, hb, hd⟩ := twin r hr
    rw [ha, hb, hd]
    rfl
  refine ⟨_, ?_, accessIssued_finish same ⟨x, accs ▸ held, kind, va, pa, size, cls, core, slot, stream, pc⟩
    (f := fun sc => sc.await d s.nextId) rfl rfl, fun hd => waits_finish_await same hd s.nextId⟩
  rw [hi, amoForm, onStreams_of_admits hs, withReads_of_admits hs, withRoom_of_lt room rfl]
  refine (withAddress_of_reaches reach _).trans ((check_of_true _ _ _ _ agree).trans ?_)
  rw [← id]
  rfl

theorem atomicsIssueHold : AtomicsIssueHold := by
  intro d a b sz c e s size issues hs room reach twin
  rw [← loadLimit_of_admits hs] at room
  have issue {i : Instr} {op : Nat} (hi : exec i s = amoForm d a b sz c op s) : issues i op := completes_amoForm hi hs room reach twin
  exact ⟨issue rfl, issue rfl, issue rfl, issue rfl, issue rfl, issue rfl, issue rfl, issue rfl, issue rfl, issue rfl, issue rfl⟩

/-! ### Stores -/

/-- Configuration space has its home on no die (R287, R288). -/
theorem ownDie_of_isConfig {s : State} {pa : Nat} (h : isConfig pa = true) (core : Nat) : s.ownDie core pa = false := by
  have high : 0xF0000000000 ≤ localOf pa := of_decide_eq_true h
  have none : homeDie (regionOf (localOf pa)) = none := by
    unfold regionOf
    rw [if_neg (by omega), if_neg (by omega), if_neg (by omega), if_neg (by omega)]
    repeat' split
    all_goals rfl
  simp [State.ownDie, none]

section
variable {s t : State} {kind : AccKind} {va : Word} {pa size cls value : Nat}

/-- A store to memory stands among the core's pending stores; the rest of the registers is as it was. -/
theorem postStore_of_memory (h : isConfig pa = false) (kind : AccKind) (va : Word) (size cls value delay : Nat) (runs : List (Nat × Nat)) :
    ∃ place, SameRegisters (s.addStores va pa cls value place runs) (s.postStore kind va pa size cls value delay runs) := by
  unfold State.postStore
  dsimp only
  split
  · exact ⟨.dirty, (bumpOrder_spec _).2⟩
  · rw [if_neg (by simp [h])]
    obtain ⟨-, sent, -⟩ := send_spec (s.addStores va pa cls value .inFlight runs)
      { kind, va, pa, size, cls, value, order := s.nextOrder, delay }
    exact ⟨.inFlight, sent.trans (bumpOrder_spec _).2⟩

theorem State.pend_addStores (s : State) (va : Word) (pa cls value : Nat) (place : StorePlace) (runs : List (Nat × Nat)) :
    (s.addStores va pa cls value place runs).here.mem.pend = s.here.mem.pend ++
      runs.map fun r => s.newStore va (pa + r.1) r.2 cls (value / pow2 (8 * r.1) % pow2 (8 * r.2)) place := by
  rw [State.addStores, State.here_modHere]

theorem State.scalar_addStores (s : State) (va : Word) (pa cls value : Nat) (place : StorePlace) (runs : List (Nat × Nat)) :
    (s.addStores va pa cls value place runs).scalar = s.scalar := State.scalar_modHere s rfl rfl

theorem SameRegisters.pend_here (h : SameRegisters s t) : t.here.mem.pend = s.here.mem.pend := by
  obtain ⟨-, cur, -, -, cores⟩ := h
  obtain ⟨-, -, -, pend⟩ := cores s.cur.core
  rw [State.here, cur]
  exact pend

/-- The end of an instruction is no change of the core's memory side. -/
theorem State.mem_here_finish (s : State) (f : Scalar → Scalar) : (s.finish f).here.mem = s.here.mem := by
  cases h : s.cur.stream <;> simp [State.finish, State.modScalar, State.clearHold, State.modGrp, Core.modGroup, Core.setGroup, h]

/-- A posted store of one range stands among the pending stores of the core once its stream goes on. -/
theorem posted_of_memory (h : isConfig pa = false) (kind : AccKind) (va : Word) (size cls value : Nat) :
    let t := (s.postStore kind va pa size cls value 0 [(0, size)]).finish id
    (∃ p ∈ t.here.mem.pend, p.pa = pa ∧ p.size = size ∧ p.value = value % 2 ^ (8 * size) ∧ p.cls = cls ∧
      p.order = s.here.mem.order ∧ p.slot = s.cur.slot) ∧
    t.scalar.rf = s.scalar.rf ∧ t.scalar.pc = s.scalar.pc + 4 ∧ ∀ k, Memory.read t.mem k = Memory.read s.mem k := by
  obtain ⟨place, same⟩ := postStore_of_memory (s := s) h kind va size cls value 0 [(0, size)]
  have scalar := same.scalar.trans (s.scalar_addStores va pa cls value place [(0, size)])
  refine ⟨⟨s.newStore va pa size cls (value % 2 ^ (8 * size)) place, ?_, rfl, rfl, rfl, rfl, rfl, rfl⟩, ?_, ?_, fun k => ?_⟩
  · rw [State.mem_here_finish, same.pend_here, State.pend_addStores]
    simp [pow2]
  · rw [State.scalar_finish, scalar]
    rfl
  · rw [State.scalar_finish, scalar]
    rfl
  · rw [State.finish_mem, same.1]
    rfl

/-- An access that is sent without a wait for its answer has been issued once its stream goes on. -/
theorem accessIssued_send_finish (n : NewAccess) : AccessIssued s ((s.send n).1.finish id) n.kind n.va n.pa n.size n.cls := by
  obtain ⟨-, same, x, held, kind, va, pa, size, cls, core, slot, stream, pc, -⟩ := send_spec s n
  exact accessIssued_finish same ⟨x, held, kind, va, pa, size, cls, core, slot, stream, pc⟩ rfl rfl

theorem accessIssued_send_bump_finish (n : NewAccess) :
    AccessIssued s ((s.send n).1.bumpOrder.finish id) n.kind n.va n.pa n.size n.cls := by
  obtain ⟨-, same, x, held, kind, va, pa, size, cls, core, slot, stream, pc, -⟩ := send_spec s n
  obtain ⟨accs, bumped⟩ := bumpOrder_spec (s.send n).1
  exact accessIssued_finish (same.trans bumped) ⟨x, accs ▸ held, kind, va, pa, size, cls, core, slot, stream, pc⟩ rfl rfl

/-- A store to configuration space is an access, and no pending store (R288). -/
theorem accessIssued_postStore_config (h : isConfig pa = true) (kind : AccKind) (va : Word) (size cls value : Nat) :
    AccessIssued s ((s.postStore kind va pa size cls value 0 [(0, size)]).finish id) kind va pa size cls := by
  have post : s.postStore kind va pa size cls value 0 [(0, size)] =
      (s.send { kind, va, pa, size, cls, value := value / pow2 (8 * 0) % pow2 (8 * size), order := s.nextOrder, delay := 0 }).1.bumpOrder := by
    simp only [State.postStore, ownDie_of_isConfig h, h]
    rfl
  rw [post]
  exact accessIssued_send_bump_finish { kind, va, pa, size, cls, value := value / pow2 (8 * 0) % pow2 (8 * size), order := s.nextOrder, delay := 0 }

end

/-- A store whose checks pass, and on which the files of a twin group agree, is posted by its stream's rule. -/
theorem exec_st_of_reaches {d a : BitVec 5} {sz c : BitVec 2} {o : BitVec 12} {e : TlbEntry} {s : State}
    (hs : Admits s true false true [] [d, a]) :
    let size := 2 ^ sz.toNat
    let ea : Word := s.x a + o.signExtend 64 * BitVec.ofNat 64 size
    let v := (s.x d).toNat % 2 ^ (8 * size)
    Reaches s ea size .write e → (∀ r, s.scalar.twin = some r → r.get a = s.x a ∧ r.get d = s.x d) →
    exec (.st d a sz c o) s =
      if s.cur.stream = .control then
        check (!s.breaksHostbase (e.phys ea.toNat) size v) causeOperand s <|
          .next ((s.send { kind := .store, va := ea, pa := e.phys ea.toNat, size, cls := c.toNat, value := v, order := 0 }).1.finish id)
      else .next ((s.postStore .store ea (e.phys ea.toNat) size c.toNat v 0 [(0, size)]).finish id) := by
  intro size ea v reach twin
  have agree : (s.scalar.agreeOn fun r => (r.get a + o.signExtend 64 * BitVec.ofNat 64 size, storeValue (r.get d) size)) = true := by
    refine Scalar.agreeOn_of_twin fun r hr => ?_
    obtain ⟨ha, hd⟩ := twin r hr
    rw [ha, hd]
    rfl
  show execSt d a sz c o s = _
  rw [execSt, onStreams_of_admits hs, withReads_of_admits hs]
  exact (withAddress_of_reaches reach _).trans (check_of_true _ _ _ _ agree)

theorem globalStoresHold : GlobalStoresHold := by
  intro d a sz c o e s size ea v hs reach twin
  have run := exec_st_of_reaches (c := c) hs reach twin
  refine ⟨fun hg hc => ?_, fun h => ?_, fun hc hb => ?_⟩
  · rw [if_neg (by simp [hg])] at run
    have posted := posted_of_memory (s := s) hc .store ea size c.toNat v
    rw [Nat.mod_mod] at posted
    exact ⟨_, run, posted⟩
  · rcases h with ⟨hc, hb⟩ | ⟨hg, hc⟩
    · rw [if_pos hc] at run
      exact ⟨_, run.trans (check_of_true _ _ _ _ (by rw [hb]; rfl)), accessIssued_send_finish _⟩
    · rw [if_neg (by simp [hg])] at run
      exact ⟨_, run, accessIssued_postStore_config hc _ _ _ _ _⟩
  · rw [run, if_pos hc]
    exact check_of_false _ _ _ _ (by rw [hb]; rfl)

/-- Settles O10: atomics and stores leave what `send_spec` and `postStore_of_memory` say. -/
theorem atomicsAndStoresIssue : Obligations.AtomicsAndStoresIssue := ⟨atomicsIssueHold, globalStoresHold⟩

/-! ### Checks that fail -/

/-- R287: a register block refuses every unit but the control die. -/
theorem refusesUnit_of_regs {s : State} {pa n : Nat} {b : Block} (hs : s.cur.stream = .group) (hr : regionOf (localOf pa) = .regs b n)
    (hc : isConfig pa = true) (p : Perm) : s.refusesUnit pa p = true := by
  simp [State.refusesUnit, hr, hc, hs]

/-- Settles O11: a load and a store end as `withAddress` does where a check fails. -/
theorem accessChecks : Obligations.AccessChecks := by
  intro d a sz c o s size ea hs room
  rw [← loadLimit_of_admits hs] at room
  have ld : exec (.ld d a sz c o) s = withAddress ea size .read s fun pa e =>
      let (s1, id) := s.startRead (.load (regDest d) true) ea pa size c.toNat 0 e
      .next (s1.finish fun sc => sc.await d id) := by
    show loadForm d a sz c o true s = _
    obtain ⟨stream, fields, reads⟩ := hs
    have all : Admits s true true true [d, a] [a] := by
      refine ⟨?_, fields, fun n hn => reads n (List.mem_cons_of_mem d hn)⟩
      rcases stream with h | ⟨-, he⟩ | h
      · exact .inl h
      · cases he
      · exact .inr (.inr h)
    rw [loadForm, onStreams_of_admits all, withFields_of_admits all, withReads_of_admits all, withRoom_of_lt room rfl]
    rfl
  obtain ⟨k, st⟩ : ∃ k, exec (.st d a sz c o) s = withAddress ea size .write s k := by
    show ∃ k, execSt d a sz c o s = _
    rw [execSt, onStreams_of_admits hs, withReads_of_admits hs]
    exact ⟨_, rfl⟩
  rw [ld, st]
  refine ⟨fun h => ⟨withAddress_of_misaligned h _, withAddress_of_misaligned h _⟩,
    fun h hr => ⟨withAddress_of_range h hr _, withAddress_of_range h hr _⟩, fun e h hr hl => ⟨fun bad => ?_, fun bad => ?_, ?_⟩⟩
  · exact withAddress_of_refused h hr hl (bad.imp_left fun hw => ⟨by decide, hw⟩) _
  · exact withAddress_of_refused h hr hl (.inr bad) _
  · exact fun hg b n hb hc => ⟨refusesUnit_of_regs hg hb hc _, refusesUnit_of_regs hg hb hc _⟩

end Sys2Proof.Machine

/-! ## O30: the port forms (R136, R163-R168, R272) -/

namespace Sys2Proof.Machine

/-! ### The issue of a read leaves the ports alone -/

/-- The ports of every core are the same in two states. -/
def SamePorts (s t : State) : Prop := ∀ k, (t.core k).ports = (s.core k).ports

theorem SamePorts.trans {s t u : State} (h : SamePorts s t) (g : SamePorts t u) : SamePorts s u := fun k => (g k).trans (h k)

theorem SamePorts.of_cores {s t : State} (h : t.cores = s.cores) : SamePorts s t := fun k => by rw [State.core, State.core, h]

theorem SamePorts.modCore (s : State) (j : Nat) (f : Core → Core) (h : ∀ c, (f c).ports = c.ports) : SamePorts s (s.modCore j f) := by
  intro k
  by_cases hk : k = j
  · rw [hk, State.core_modCore_same, h]
  · rw [State.core_modCore_other _ _ _ _ hk]

theorem cores_requestLate (s : State) (core pa flits start : Nat) : (s.requestLate core pa flits start).1.cores = s.cores := by
  have far (own : State × Nat) (d o : Nat) : (State.requestLate.far s core flits start own d o).1.cores = own.1.cores := by
    unfold State.requestLate.far
    dsimp only
    split
    · rfl
    · rfl
  unfold State.requestLate
  dsimp only
  split
  · exact far _ _ _
  · exact far _ _ _
  · rfl

theorem samePorts_noteLast (s : State) (core : Nat) (keys : List Nat) (t : Nat) : SamePorts s (s.noteLast core keys t) := by
  unfold State.noteLast
  dsimp only
  split
  · exact .of_cores rfl
  · split
    · exact .modCore _ _ _ fun _ => rfl
    · exact .of_cores rfl

theorem samePorts_fillSlice (s : State) (pa since : Nat) : SamePorts s (s.fillSlice pa since) := by
  refine .of_cores ?_
  unfold State.fillSlice
  repeat' split
  all_goals rfl

theorem samePorts_place (s : State) (id : Nat) (a : Access) : SamePorts s (s.place id a) :=
  have noted : SamePorts s (({ s with accs := s.accs.set id a }).noteLast a.core (orderKeys a.pa a.cls) a.performAt) :=
    samePorts_noteLast { s with accs := s.accs.set id a } _ _ _
  (noted.trans (samePorts_fillSlice _ _ _)).trans (.of_cores rfl)

/-- The way into the network changes no core. -/
theorem cores_wayIn (s : State) (b : Bool) (core pa flits start : Nat) :
    ∃ n late, (if b = true then s.requestLate core pa flits start else (s, 0)) = (n, late) ∧ n.cores = s.cores := by
  split
  · exact ⟨_, _, rfl, cores_requestLate _ _ _ _ _⟩
  · exact ⟨_, _, rfl, rfl⟩

theorem samePorts_timeAccess (s : State) (id : Nat) (a : Access) (flits : Nat × Nat) : SamePorts s (s.timeAccess id a flits) := by
  obtain ⟨n, late, hn, cores⟩ := cores_wayIn s (decide (a.core < Config.controlBase)) a.core a.pa flits.1 (max s.pcc a.issued)
  unfold State.timeAccess
  simp only [hn]
  split
  · exact ((SamePorts.of_cores cores).trans (samePorts_place _ _ _)).trans (.of_cores rfl)
  · exact ((SamePorts.of_cores cores).trans (samePorts_place _ _ _)).trans (.of_cores rfl)

theorem samePorts_startAccess (s : State) (id : Nat) (a : Access) (flits : Nat × Nat) : SamePorts s (s.startAccess id a flits) := by
  obtain ⟨n, late, hn, cores⟩ := cores_wayIn s (decide (a.core < Config.controlBase)) a.core a.pa flits.1 (max s.pcc a.issued)
  simp only [decide_eq_true_eq] at hn
  unfold State.startAccess
  split
  · exact samePorts_timeAccess _ _ _ _
  · simp only [hn]
    exact .of_cores cores

theorem samePorts_send (s : State) (n : NewAccess) : SamePorts s (s.send n).1 :=
  (SamePorts.of_cores rfl).trans (samePorts_startAccess _ _ _ _)

theorem samePorts_bumpOrder (s : State) : SamePorts s s.bumpOrder := by
  unfold State.bumpOrder
  split
  · exact .of_cores rfl
  · exact .modCore _ _ _ fun _ => rfl

theorem samePorts_startRead (s : State) (kind : AccKind) (va : Word) (pa size cls delay : Nat) (e : TlbEntry) :
    SamePorts s (s.startRead kind va pa size cls delay e).1 := by
  unfold State.startRead
  dsimp only
  split
  · exact (SamePorts.of_cores rfl).trans (samePorts_bumpOrder _)
  · exact (samePorts_send _ _).trans (samePorts_bumpOrder _)

/-! ### BIND -/

theorem descRole_eq (d : Word) : descRole d = d.toNat / 2 ^ 48 := Nat.mod_eq_of_lt (by have := d.isLt; omega : d.toNat / 2 ^ 48 < 2 ^ 16)

/-- A descriptor that names neither a role nor a peer port. -/
theorem descRole_descPport_eq_zero (d : Word) : descRole d = 0 ∧ descPport d = 0 ↔ d.toNat / 2 ^ 44 = 0 := by
  rw [descRole_eq]
  show d.toNat / 2 ^ 48 = 0 ∧ d.toNat / 2 ^ 44 % 2 ^ 4 = 0 ↔ _
  omega

theorem descMbzOk_iff (d : Word) :
    descMbzOk d = true ↔ d.toNat / 2 ^ 40 % 16 = 0 ∧ d.toNat / 2 ^ 24 % 256 = 0 ∧ d.toNat % 2 ^ 16 = 0 ∧
      (¬ (descProd d = 5 ∨ descCons d = 5) → d.toNat / 2 ^ 44 = 0) := by
  have low : fld d.toNat 15 0 = d.toNat % 2 ^ 16 := by
    show d.toNat / 2 ^ 0 % 2 ^ 16 = _
    rw [Nat.pow_zero, Nat.div_one]
  rw [← descRole_descPport_eq_zero, ← low]
  show _ ↔ fld d.toNat 43 40 = 0 ∧ fld d.toNat 31 24 = 0 ∧ _
  simp only [descMbzOk, Bool.and_eq_true, Bool.or_eq_true, decide_eq_true_eq, and_assoc, or_iff_not_imp_left]

theorem descCodesOk_iff (d : Word) :
    descCodesOk d = true ↔ descProd d ≤ 7 ∧ descCons d ≤ 8 ∧ descCons d ≠ 4 ∧ ¬ (descProd d = 5 ∧ descCons d = 5) := by
  simp only [descCodesOk, Bool.and_eq_true, Bool.not_eq_true', Bool.and_eq_false_iff, decide_eq_true_eq, decide_eq_false_iff_not, ne_eq,
    not_and_or, and_assoc]

/-- R163 to R165: the fields of a descriptor that may be bound. -/
theorem bindOk_iff (s : State) (n : Nat) (d : Word) :
    s.bindOk n d = true ↔
      (s.here.port n).status = .unbound ∧ descMbzOk d = true ∧ descCodesOk d = true ∧
      (descProd d = 5 ∨ descCons d = 5 →
        ∃ k, s.hereLaunch.binding.get (d.toNat / 2 ^ 48) = some k ∧ dieOf k = dieOf s.cur.core) := by
  rw [← descRole_eq]
  unfold State.bindOk
  cases s.hereLaunch.binding.get (descRole d) <;> simp [and_assoc, imp_iff_not_or]

theorem exec_bind_of_field {a b : BitVec 5} {h : BitVec 3} {s : State} (hs : Admits s true false false [] [a]) (hb : b.toNat < 16) :
    exec (.bind a b h) s = check (s.bindOk b.toNat (s.x a)) causeOperand s (.next ((s.modHere fun c => c.modPort b.toNat fun _ =>
      { Port.unbound with status := .bound, desc := s.x a, owner := s.cur.slot, since := s.pcc }).finish id)) := by
  show execBind a b s = _
  rw [execBind, onStreams_of_admits hs, check_of_true _ _ _ _ (decide_eq_true hb), withReads_of_admits hs]

/-! ### UNBIND -/

section
variable {b : BitVec 5} {h : BitVec 3} {s : State}

theorem completes_unbind_of_unbound (hs : Admits s true false false [] []) (hb : b.toNat < 16)
    (hp : (s.here.port b.toNat).status = .unbound) : Completes (.unbind b h) s fun t => Finished s t := by
  refine ⟨_, ?_, finished_finish s⟩
  show execUnbind b s = _
  rw [execUnbind, onStreams_of_admits hs, check_of_true _ _ _ _ (decide_eq_true hb), hp]

/-- UNBIND of a bound port that is drained leaves it unbound (R167). -/
theorem completes_unbind_of_drained (hs : Admits s true false false [] []) (hb : b.toNat < 16) :
    let s1 := s.modHere fun c => c.modPort b.toNat fun p => { p with status := .closing }
    (s.here.port b.toNat).status = .bound → s.holding = none → (s1.here.port b.toNat).drained = true →
    Completes (.unbind b h) s fun t => Finished (s1.modHere fun c => c.modPort b.toNat fun _ => Port.unbound) t := by
  intro s1 hp hold drained
  refine ⟨_, ?_, finished_finish _⟩
  show execUnbind b s = _
  rw [execUnbind, onStreams_of_admits hs, check_of_true _ _ _ _ (decide_eq_true hb), hp, hold]
  exact if_pos drained

end

/-! ### LDQ -/

/-- The end of an instruction leaves the ports alone. -/
theorem State.ports_here_finish (s : State) (f : Scalar → Scalar) : (s.finish f).here.ports = s.here.ports := by
  cases h : s.cur.stream <;> simp [State.finish, State.modScalar, State.clearHold, State.modGrp, Core.modGroup, Core.setGroup, h]

section
variable {d a : BitVec 5} {sz c : BitVec 2} {o : BitVec 12} {e : TlbEntry} {s : State}

/-- LDQ to a port with room issues its read and reserves its bytes (R136). -/
theorem completes_ldq (hs : Admits s false true false [a] [a]) (hd : d.toNat < 16) :
    let size := 2 ^ sz.toNat
    let ea : Word := s.x a + o.signExtend 64 * BitVec.ofNat 64 size
    (s.here.port d.toNat).feeds 4 = true → s.outstanding < 48 → Reaches s ea size .read e → size ≤ (s.here.port d.toNat).byteRoom →
    Completes (.ldq d a sz c o) s fun t =>
      AccessIssued s t (.ldq d.toNat) ea (e.phys ea.toNat) size c.toNat ∧
      (t.here.port d.toNat).ldqs = (s.here.port d.toNat).ldqs ++ [⟨s.nextId, size, none, false⟩] := by
  intro size ea feeds room reach bytes
  have stream : s.cur.stream = .eft := by
    obtain ⟨⟨-, hg⟩ | ⟨he, -⟩ | ⟨-, hc⟩, -⟩ := hs
    · cases hg
    · exact he
    · cases hc
  obtain ⟨number, same, held⟩ := startRead_spec s (.ldq d.toNat) ea (e.phys ea.toNat) size c.toNat 0 e
  have samePorts := samePorts_startRead s (.ldq d.toNat) ea (e.phys ea.toNat) size c.toNat 0 e
  generalize hr : s.startRead (.ldq d.toNat) ea (e.phys ea.toNat) size c.toNat 0 e = r at number same held samePorts
  let reserve : Core → Core := fun c => c.modPort d.toNat fun p => { p with ldqs := p.ldqs ++ [⟨r.2, size, none, false⟩] }
  have reserved : SameRegisters s (r.1.modHere reserve) := same.trans (SameRegisters.modCore _ _ _ fun _ => ⟨rfl, rfl, rfl, rfl⟩)
  have port : r.1.here.port d.toNat = s.here.port d.toNat := by
    obtain ⟨-, cur, -⟩ := same
    rw [State.here, cur, Core.port, samePorts]
    rfl
  refine ⟨(r.1.modHere reserve).finish id, ?_, accessIssued_finish reserved held rfl rfl, ?_⟩
  · show execLdq d a sz c o s = _
    rw [execLdq, onStreams_of_admits hs, withFields_of_admits hs, check_of_true _ _ _ _ (decide_eq_true hd), check_of_true _ _ _ _ feeds,
      withReads_of_admits hs, withRoom_of_lt room (by rw [stream]; rfl)]
    refine (withAddress_of_reaches reach _).trans ((if_neg (Nat.not_lt.mpr bytes)).trans ?_)
    exact congrArg (fun r : State × Nat => Host.Outcome.next ((r.1.modHere fun c => c.modPort d.toNat fun p =>
      { p with ldqs := p.ldqs ++ [⟨r.2, size, none, false⟩] }).finish id)) hr
  · rw [Core.port, State.ports_here_finish, State.here_modHere]
    show ((r.1.here.modPort d.toNat _).port d.toNat).ldqs = _
    rw [Core.port_modPort_same, port, number]

end

/-- Settles O30: the forms bind, unbind and read a port, and LDQ reserves its bytes in one. -/
theorem portForms : Obligations.PortForms := by
  intro d a b sz c o h e s
  refine ⟨fun hs hb => ⟨fun ok => ?_, fun bad => ?_, ?_⟩, fun hs => ⟨fun hb => ?_, fun hb => ?_⟩,
    fun hs hd => ⟨completes_ldq hs hd, fun no => ?_⟩⟩
  · exact ⟨_, (exec_bind_of_field hs hb).trans (check_of_true _ _ _ _ ok), finished_finish _⟩
  · exact (exec_bind_of_field hs hb).trans (check_of_false _ _ _ _ bad)
  · intro w prod cons peer
    rw [bindOk_iff, descMbzOk_iff, descCodesOk_iff]
    exact ⟨fun ⟨status, ⟨z1, z2, z3, z4⟩, ⟨c1, c2, c3, c4⟩, role⟩ => ⟨status, z1, z2, z3, c1, c2, c3, c4, z4, role⟩,
      fun ⟨status, z1, z2, z3, c1, c2, c3, c4, z4, role⟩ => ⟨status, ⟨z1, z2, z3, z4⟩, ⟨c1, c2, c3, c4⟩, role⟩⟩
  · have no : decide (b.toNat < 16) = false := decide_eq_false (by omega)
    constructor
    · show execUnbind b s = _
      rw [execUnbind, onStreams_of_admits hs]
      exact check_of_false _ _ _ _ no
    · show execQdepth d b s = _
      rw [execQdepth, onStreams_of_admits hs]
      exact check_of_false _ _ _ _ no
  · refine ⟨completes_unbind_of_unbound hs hb, completes_unbind_of_drained hs hb, _, ?_, scalarWrote_finishWrite _ _ _ _⟩
    show execQdepth d b s = _
    rw [execQdepth, onStreams_of_admits hs]
    exact check_of_true _ _ _ _ (decide_eq_true hb)
  · show execLdq d a sz c o s = _
    rw [execLdq, onStreams_of_admits hs, withFields_of_admits hs, check_of_true _ _ _ _ (decide_eq_true hd)]
    exact check_of_false _ _ _ _ no

end Sys2Proof.Machine

/-! ## O34: fences, flushes, arrivals, JOIN and YIELD (R139, R174, R175, R177-R180) -/

namespace Sys2Proof.Machine

/-- A form of the group alone is accepted on the group's stream, where one of the control die is accepted too. -/
theorem Admits.orControl {s : State} {fields reads : List (BitVec 5)} (h : Admits s true false false fields reads) :
    Admits s true false true fields reads := by
  obtain ⟨stream, rest⟩ := h
  refine ⟨?_, rest⟩
  rcases stream with hg | ⟨-, he⟩ | ⟨-, hc⟩
  · exact .inl hg
  · cases he
  · cases hc

/-! ### Store errors -/

section
variable {s : State} {covers : Nat → Bool}

theorem withoutStoreError_of_none (h : ∀ e ∈ s.storeErrors, covers e.cls = false) (k : Out) : withoutStoreError covers s k = k := by
  have none : (s.storeErrors.find? fun e => covers e.cls) = none := by
    rw [List.find?_eq_none]
    intro e he
    simp [h e he]
  rw [withoutStoreError, none]

theorem withoutStoreError_of_nil (h : s.storeErrors = []) (k : Out) : withoutStoreError covers s k = k :=
  withoutStoreError_of_none (by simp [h]) k

/-- R139: the first recorded error is the one that a form that covers every class traps with. -/
theorem withoutStoreError_of_head {e : StoreErr} (h : s.storeErrors.head? = some e) (k : Out) :
    withoutStoreError (fun _ => true) s k =
      .next ((s.dropErrors fun x => decide (x = e)).raiseTrap { cause := 0x0C, addr := e.ea, aux := e.ea, detail := e.reason }) := by
  have first : (s.storeErrors.find? fun _ => true) = some e := by
    cases he : s.storeErrors with
    | nil => simp [he] at h
    | cons x l => simpa [he] using h
  rw [withoutStoreError, first]
  rfl

end

/-! ### FENCE and FLUSH -/

section
variable {s : State}

theorem outstandingBy_eq_false {p : Access → Bool} (h : ∀ a ∈ s.accs, s.mine a.2 = true → a.2.unperformed = true → p a.2 = false) :
    s.outstandingBy p = false := by
  rw [State.outstandingBy, List.any_eq_false]
  intro a ha
  cases mine : s.mine a.2
  · simp
  · cases un : a.2.unperformed
    · simp
    · simp [h a ha mine un]

theorem exec_flush_of_admits (hs : Admits s true false true [] []) : exec .flush s = flushForm s := by
  show execFlush s = _
  rw [execFlush, onStreams_of_admits hs]

theorem flushForm_of_committed {since cid : Nat} {v : Option Word} (hold : s.holding = some ⟨since, .commit cid, v⟩)
    (done : s.here.committed cid = true) : flushForm s = .next (s.finish id) := by
  rw [flushForm, hold]
  exact if_pos done

theorem flushForm_of_error {e : StoreErr} (hold : s.holding = none) (h : s.storeErrors.head? = some e) :
    flushForm s =
      .next ((s.dropErrors fun x => decide (x = e)).raiseTrap { cause := 0x0C, addr := e.ea, aux := e.ea, detail := e.reason }) := by
  rw [flushForm, hold]
  exact withoutStoreError_of_head h _

/-- R310: on the control die a flush ends once its stores are performed. -/
theorem flushForm_of_control (hc : s.cur.stream = .control) (hold : s.holding = none) (he : s.storeErrors = [])
    (ho : s.outstandingBy (fun a => !a.isLoad) = false) : flushForm s = .next (s.finish id) := by
  rw [flushForm, hold]
  refine (withoutStoreError_of_nil he _).trans ?_
  rw [ho, hc]
  rfl

/-! ### Arrivals -/

theorem arriveForm_of_granted {since n : Nat} {v : Word} (hold : s.holding = some ⟨since, .boundary n, some v⟩) (l : Nat) (elastic : Bool) :
    arriveForm l elastic s = .next ((s.modGrp fun g => { g with arrived := none }).finish id) := by
  rw [arriveForm, hold]

theorem arriveForm_of_performed (hold : s.holding = none) (he : s.storeErrors = []) (ho : s.outstandingBy (fun a => !a.isLoad) = false)
    (l : Nat) :
    arriveForm l false s =
      .next (((s.modGrp fun g => { g with arrived := some l }).holdFor (.boundary l)).coreArrival s.cur.core) := by
  rw [arriveForm, hold]
  refine (withoutStoreError_of_nil he _).trans ?_
  rw [ho]
  rfl

theorem exec_phase_of_admits (hs : Admits s true false false [] []) (l : BitVec 3) : exec (.phase l) s = phaseForm l.toNat false s := by
  show execPhase l s = _
  rw [execPhase, onStreams_of_admits hs]

theorem exec_phaseE_of_admits (hs : Admits s true false false [] []) (hc : s.here.job.compat = false) (l : BitVec 3) :
    exec (.phaseE l) s = phaseForm l.toNat true s := by
  show execPhaseE l s = _
  rw [execPhaseE, onStreams_of_admits hs]
  exact check_of_true _ _ _ _ (by rw [hc]; rfl)

theorem phaseForm_of_launch (hk : s.grp.kindId = 0xFF) (n : Nat) (elastic : Bool) : phaseForm n elastic s = arriveForm n elastic s :=
  if_pos hk

theorem phaseForm_of_former (hk : s.grp.kindId ≠ 0xFF) (n : Nat) (elastic : Bool) :
    phaseForm n elastic s = if n = 0 then flushForm s else trap s causePhase := if_neg hk

/-! ### JOIN and YIELD -/

/-- R179: JOIN frees the slot of a group with nothing outstanding. -/
theorem exec_join_of_idle (hs : Admits s true false false [] []) (hv : s.grp.v.busy = false) (ho : s.groupOutstanding = false)
    (he : s.grp.storeErrs = []) (hst : s.grp.status ≠ .joined) :
    exec .join s =
      .next (((s.modHere fun c => c.leave s.cur.slot s.pcc .joined).coreArrival s.cur.core).freeGroup s.cur.core s.cur.slot) := by
  show execJoin s = _
  rw [execJoin, onStreams_of_admits hs]
  simp [hv, ho, he, hst]

theorem exec_yield_of_admits (hs : Admits s true false false [] []) :
    exec .yield s =
      if s.here.someReady then .next ((s.finish id).modHere fun c => c.leaveReady s.cur.slot s.pcc) else .next (s.finish id) := by
  show execYield s = _
  rw [execYield, onStreams_of_admits hs]

end

/-- Settles O34: each form is the one branch of its function that its state selects. -/
theorem orderingForms : Obligations.OrderingForms := by
  intro m l s
  refine ⟨fun hs he ha => ?_, fun hs => ?_, fun hs => ?_⟩
  · refine ⟨_, ?_, finished_finish _⟩
    show execFence m s = _
    rw [execFence, onStreams_of_admits hs]
    exact (withoutStoreError_of_none he _).trans (if_neg (ne_true_of_eq_false (outstandingBy_eq_false ha)))
  · rw [exec_flush_of_admits hs]
    exact ⟨fun since cid v hold done => ⟨_, (exec_flush_of_admits hs).trans (flushForm_of_committed hold done), finished_finish s⟩,
      fun e hold head => flushForm_of_error hold head,
      fun hc hold none ho => ⟨_, (exec_flush_of_admits hs).trans (flushForm_of_control hc hold none ho), finished_finish s⟩⟩
  · refine ⟨fun hk => ⟨fun hold none ho => ?_, fun since v n hold => ?_⟩, fun hk => ?_, fun hk hl => ?_, fun hc => ?_,
      exec_join_of_idle hs, fun idle => ?_, fun ready => ?_⟩
    · rw [exec_phase_of_admits hs, phaseForm_of_launch hk, arriveForm_of_performed hold none ho]
    · refine ⟨⟨_, ?_, finished_finish _⟩, fun hc => ⟨_, ?_, finished_finish _⟩⟩
      · rw [exec_phase_of_admits hs, phaseForm_of_launch hk, arriveForm_of_granted hold]
      · rw [exec_phaseE_of_admits hs hc, phaseForm_of_launch hk, arriveForm_of_granted hold]
    · refine ⟨?_, fun hc => ?_⟩
      · rw [exec_phase_of_admits hs, phaseForm_of_former hk, exec_flush_of_admits hs.orControl]
        rfl
      · rw [exec_phaseE_of_admits hs hc, phaseForm_of_former hk, exec_flush_of_admits hs.orControl]
        rfl
    · have level : l.toNat ≠ 0 := fun h => hl (BitVec.eq_of_toNat_eq h)
      rw [exec_phase_of_admits hs, phaseForm_of_former hk, if_neg level]
      rfl
    · show execPhaseE l s = _
      rw [execPhaseE, onStreams_of_admits hs]
      exact check_of_false _ _ _ _ (by rw [hc]; rfl)
    · exact ⟨_, by rw [exec_yield_of_admits hs, idle]; rfl, finished_finish s⟩
    · exact ⟨_, by rw [exec_yield_of_admits hs, if_pos ready], _, finished_finish s, rfl⟩

end Sys2Proof.Machine

/-! ## O40: what a commit leaves, and the events of stores, commits and lines (R134, R136, R139, R296, R301, R486) -/

namespace Sys2Proof.Machine

/-! ### What is left of a store -/

/-- Whether a store writes a byte. -/
def PStore.covers (p : PStore) (x : Nat) : Bool := decide (p.pa ≤ x) && decide (x < p.pa + p.size)

/-- The part of a store below another. -/
def PStore.below (q p : PStore) : PStore := { q with size := p.pa - q.pa, value := q.value % pow2 (8 * (p.pa - q.pa)) }

/-- The part of a store above another. -/
def PStore.above (q p : PStore) : PStore :=
  { q with pa := p.pa + p.size, size := q.pa + q.size - (p.pa + p.size), value := q.value / pow2 (8 * (p.pa + p.size - q.pa)) }

theorem PStore.without_of_apart {q p : PStore} (h : ¬ (q.order < p.order ∧ rangesMeet q.pa q.size p.pa p.size = true)) : q.without p = [q] :=
  if_neg h

theorem PStore.without_of_meet {q p : PStore} (h : q.order < p.order ∧ rangesMeet q.pa q.size p.pa p.size = true) :
    q.without p = (if q.pa < p.pa then [q.below p] else []) ++ (if p.pa + p.size < q.pa + q.size then [q.above p] else []) :=
  if_pos h

theorem rangesMeet_iff (a n b m : Nat) : rangesMeet a n b m = true ↔ a < b + m ∧ b < a + n := by simp [rangesMeet]

/-- R301: what is left covers the bytes that the later store does not write. -/
theorem PStore.any_covers_without (q p : PStore) (x : Nat) :
    (q.without p).any (·.covers x) = (q.covers x && !(decide (q.order < p.order) && p.covers x)) := by
  rw [Bool.eq_iff_iff]
  by_cases h : q.order < p.order ∧ rangesMeet q.pa q.size p.pa p.size = true
  · obtain ⟨order, meet⟩ := h
    rw [rangesMeet_iff] at meet
    rw [PStore.without_of_meet ⟨order, (rangesMeet_iff _ _ _ _).mpr meet⟩]
    split <;> split <;> simp [PStore.covers, PStore.below, PStore.above, order] <;> omega
  · rw [PStore.without_of_apart h]
    rw [rangesMeet_iff] at h
    simp [PStore.covers]
    omega

/-- A part of a store has the bytes of the store at its place. -/
theorem PStore.mem_without {q p r : PStore} (h : r ∈ q.without p) :
    r.order = q.order ∧ r.slot = q.slot ∧ r.stream = q.stream ∧ q.pa ≤ r.pa ∧ r.pa + r.size ≤ q.pa + q.size ∧
      r.value % 256 ^ r.size = q.value / 256 ^ (r.pa - q.pa) % 256 ^ r.size := by
  by_cases hm : q.order < p.order ∧ rangesMeet q.pa q.size p.pa p.size = true
  · rw [PStore.without_of_meet hm, List.mem_append] at h
    rw [rangesMeet_iff] at hm
    rcases h with h | h
    · split at h
      · obtain rfl := List.mem_singleton.mp h
        refine ⟨rfl, rfl, rfl, Nat.le_refl _, ?_, ?_⟩
        · show q.pa + (p.pa - q.pa) ≤ _
          omega
        · show q.value % pow2 (8 * (p.pa - q.pa)) % 256 ^ (p.pa - q.pa) = q.value / 256 ^ (q.pa - q.pa) % 256 ^ (p.pa - q.pa)
          rw [pow2, pow_256, Nat.mod_mod, Nat.sub_self, Nat.pow_zero, Nat.div_one]
      · cases h
    · split at h
      · obtain rfl := List.mem_singleton.mp h
        refine ⟨rfl, rfl, rfl, ?_, ?_, ?_⟩
        · show q.pa ≤ p.pa + p.size
          omega
        · show p.pa + p.size + (q.pa + q.size - (p.pa + p.size)) ≤ _
          omega
        · show q.value / pow2 (8 * (p.pa + p.size - q.pa)) % _ = q.value / 256 ^ (p.pa + p.size - q.pa) % _
          rw [pow2, ← pow_256]
      · cases h
  · rw [PStore.without_of_apart hm] at h
    obtain rfl := List.mem_singleton.mp h
    exact ⟨rfl, rfl, rfl, Nat.le_refl _, Nat.le_refl _, by rw [Nat.sub_self, Nat.pow_zero, Nat.div_one]⟩

theorem storeLeftHold : StoreLeftHold := fun q p =>
  ⟨PStore.any_covers_without q p, fun _ => PStore.mem_without, fun later => PStore.without_of_apart fun h => Nat.not_lt.mpr later h.1⟩

/-! ### Stores acknowledged -/

section
variable {s : State} {id : Nat} {a : Access}

/-- Nothing that waits at the fabric die or its router goes on where nothing waits. -/
theorem State.releaseWaiting_of_idle {s : State} (hw : s.fabric.waiting = []) (hq : s.fabric.queue = []) : s.releaseWaiting = s := by
  rw [State.releaseWaiting, hw]
  exact if_pos hq

theorem State.fabric_modLive (s : State) (k : Nat) (f : Core → Core) : (s.modLive k f).fabric = s.fabric := by
  unfold State.modLive
  split
  · rfl
  · rfl

theorem State.fabric_modPend (s : State) (k order : Nat) (f : PStore → PStore) : (s.modPend k order f).fabric = s.fabric :=
  State.fabric_modLive _ _ _

theorem State.fabric_dropPend (s : State) (k order : Nat) : (s.dropPend k order).fabric = s.fabric := State.fabric_modLive _ _ _

theorem State.core_modPend {s : State} {k : Nat} (h : s.cores.has k = true) (order : Nat) (f : PStore → PStore) :
    (s.modPend k order f).core k = (s.core k).mapPend fun p => if p.order = order then f p else p :=
  State.core_modLive_same _ h

theorem State.core_dropPend {s : State} {k : Nat} (h : s.cores.has k = true) (order : Nat) :
    (s.dropPend k order).core k =
      { s.core k with mem := { (s.core k).mem with pend := (s.core k).mem.pend.filter fun p => decide (p.order ≠ order) } } :=
  State.core_modLive_same _ h

/-- The core of an access of a compute core that is awaited is there. -/
theorem State.has_of_awaits (hc : a.core < Config.controlBase) (h : s.awaits a = true) : s.cores.has a.core = true := by
  unfold State.awaits at h
  rw [FMap.has]
  cases hget : s.cores.get a.core with
  | none => simp [hget, Access.onCompute, hc] at h
  | some c => rfl

theorem completes_storeAck (ha : s.accs.get id = some a) (hk : a.kind = .store) (hc : a.core < Config.controlBase)
    (haw : s.awaits a = true) (hw : s.fabric.waiting = []) (hq : s.fabric.queue = []) :
    Completes (.storeAck id) s fun t => t.accs = s.accs.del id ∧ t.mem = s.mem ∧
      (t.core a.core).mem.pend = (s.core a.core).mem.pend.map fun p => if p.order = a.order then { p with acked := true } else p := by
  have has := State.has_of_awaits hc haw
  let acked (p : PStore) : PStore := { p with acked := true }
  refine ⟨(s.endAccess id).modPend a.core a.order acked, ?_, State.modLive_accs _ _ _, State.modLive_mem _ _ _, ?_⟩
  · show execStoreAck id s = _
    have idle : ((s.endAccess id).modPend a.core a.order acked).releaseWaiting = (s.endAccess id).modPend a.core a.order acked :=
      State.releaseWaiting_of_idle ((congrArg _ (State.fabric_modPend _ _ _ _)).trans hw) ((congrArg _ (State.fabric_modPend _ _ _ _)).trans hq)
    simp only [execStoreAck, ha, haw, hk]
    exact congrArg Host.Outcome.next idle
  · rw [State.core_modPend (s := s.endAccess id) has]
    rfl

theorem completes_storeErrorRecord {reason : Nat} (ha : s.accs.get id = some a) (hk : a.kind = .store) (hs : a.stream = .group)
    (hc : a.core < Config.controlBase) (haw : s.awaits a = true) (hw : s.fabric.waiting = []) (hq : s.fabric.queue = []) :
    Completes (.storeErrorRecord id reason) s fun t => t.accs = s.accs.del id ∧ t.mem = s.mem ∧
      ((t.core a.core).group a.slot).storeErrs = ((s.core a.core).group a.slot).storeErrs ++ [⟨a.cls, a.va, reason⟩] ∧
      (t.core a.core).mem.pend = (s.core a.core).mem.pend.filter fun p => decide (p.order ≠ a.order) := by
  have focus : a.focus = ⟨a.core, a.slot, .group⟩ := by rw [Access.focus, if_pos hc, hs]
  have core := State.core_dropPend (s := s.endAccess id) (State.has_of_awaits hc haw) a.order
  let s1 := (s.endAccess id).dropPend a.core a.order
  let record (g : Group) : Group := { g with storeErrs := g.storeErrs ++ [⟨a.cls, a.va, reason⟩] }
  refine ⟨s1.at ⟨a.core, a.slot, .group⟩ fun s => s.modGrp record, ?_, ?_, ?_, ?_, ?_⟩
  · show execStoreErrorRecord id reason s = _
    have idle : s1.releaseWaiting = s1 :=
      State.releaseWaiting_of_idle ((congrArg _ (State.fabric_dropPend _ _ _)).trans hw) ((congrArg _ (State.fabric_dropPend _ _ _)).trans hq)
    simp only [execStoreErrorRecord, ha, haw, hk, hs, focus, s1, idle]
    rfl
  · exact State.modLive_accs _ _ _
  · exact State.modLive_mem _ _ _
  · show ((({ s1 with cur := ⟨a.core, a.slot, .group⟩ }).modGrp record).grp).storeErrs = _
    rw [State.grp_modGrp]
    show ((s1.core a.core).group a.slot).storeErrs ++ _ = _
    rw [core]
    rfl
  · show (({ s1 with cur := ⟨a.core, a.slot, .group⟩ }).modGrp record).here.mem.pend = _
    rw [State.modGrp, State.here_modHere]
    show (s1.core a.core).mem.pend = _
    rw [core]
    rfl

/-! ### Commits -/

/-- The stores of the core that a commit message names. -/
def namedBy (stores : List PStore) (p : PStore) : Bool := stores.any fun q => decide (q.order = p.order)

/-- What remains of the pending stores once one of them is committed. -/
theorem CoreMem.left_singleton (m : CoreMem) (p : PStore) :
    m.left [p] = (m.pend.filter fun q => decide (q.order ≠ p.order)).flatMap (·.without p) := by
  have other (q : PStore) : decide (p.order = q.order) = decide (q.order = p.order) := decide_eq_decide.mpr eq_comm
  simp [CoreMem.left, other]

theorem State.pend_commitStores (s : State) (core : Nat) (ps : List PStore) :
    ((s.commitStores core ps).core core).mem.pend = (s.core core).mem.left ps := by
  rw [State.commitStores, State.core_modCore_same]
  have kept : (s.commitMarked ps).core core = s.core core := by
    have cores (l : List PStore) (u : State) : (l.foldl State.commitBytes u).cores = u.cores := by
      induction l generalizing u with
      | nil => rfl
      | cons p l ih => exact ih _
    rw [State.core, State.commitMarked, cores]
    rfl
  rw [kept]

theorem completes_commitMessage {event : Nat} {stores : List PStore} {p : PStore} (ha : s.accs.get id = some a)
    (hk : a.kind = .commit event stores) (here : s.isLocal a.pa = true ∨ a.replyAt ≠ 0)
    (hp : (s.core a.core).mem.pend.filter (namedBy stores) = [p]) :
    Completes (.commitMessage id) s fun t =>
      Memory.readN t.mem p.pa p.size = p.value % 256 ^ p.size ∧
      (∀ x, (x < p.pa ∨ p.pa + p.size ≤ x) → Memory.read t.mem x = Memory.read s.mem x) ∧
      (t.core a.core).mem.pend = ((s.core a.core).mem.pend.filter fun q => decide (q.order ≠ p.order)).flatMap (·.without p) ∧
      ∃ c, t.accs.get id = some c ∧ c.performed = true := by
  obtain ⟨-, mem, cores, -, -⟩ := settle_spec (s.commitStores a.core [p]) id a
  have written : ((s.commitStores a.core [p]).settle id a).mem = s.mem.writeN p.pa p.size p.value := mem
  refine ⟨(s.commitStores a.core [p]).settle id a, ?_, ?_, fun x hx => ?_, ?_, _, settle_get _ _ _, rfl⟩
  · show execCommitMessage id s = _
    have hp : ((s.core a.core).mem.pend.filter fun p => stores.any fun q => decide (q.order = p.order)) = [p] := hp
    have gone : (decide (a.replyAt = 0) && !s.isLocal a.pa) = false := by
      rcases here with h | h
      · simp [h]
      · simp [h]
    simp [execCommitMessage, ha, hk, hp, gone]
  · rw [written]
    exact Memory.readN_writeN _ _ _ _
  · rw [written]
    exact Memory.read_writeN_outside _ _ _ _ _ hx
  · rw [State.core, cores]
    exact (State.pend_commitStores _ _ _).trans (CoreMem.left_singleton _ _)

theorem FMap.wf_mapVal {α : Type} {m : FMap α} (h : m.wf = true) (f : Nat → α → α) : (m.mapVal f).wf = true := by
  rw [FMap.wf_iff_pairwise] at h ⊢
  exact List.pairwise_map.mpr h

/-- A selection by value selects the entry of a key. -/
theorem FMap.get_filter {α : Type} {m : FMap α} (h : m.wf = true) (sel : α → Bool) (k : Nat) :
    FMap.get (m.filter fun x => sel x.2) k = (m.get k).filter sel := by
  induction m with
  | nil => rfl
  | cons x m ih =>
    obtain ⟨after, wf⟩ := (FMap.wf_cons _ _).mp h
    obtain ⟨j, v⟩ := x
    rw [List.filter_cons]
    by_cases hk : k = j
    · subst hk
      have rest : FMap.get (m.filter fun x => sel x.2) k = none := by rw [ih wf, FMap.get_none_of_after after]; rfl
      cases hv : sel v
      · simp [FMap.get, rest, Option.filter, hv]
      · simp [FMap.get, Option.filter, hv]
    · cases hv : sel v
      · simp [FMap.get, hk, ih wf]
      · simp [FMap.get, hk, ih wf]

theorem completes_commitAck {event e : Nat} {stores : List PStore} {l : List Nat} (ha : s.accs.get id = some a)
    (hk : a.kind = .commit event stores) (hc : s.cores.has a.core = true) (hwf : (s.core a.core).mem.commits.wf = true)
    (hl : (s.core a.core).mem.commits.get e = some l) :
    Completes (.commitAck id) s fun t =>
      let rest := l.filter fun k => decide (k ≠ id)
      t.accs = s.accs.del id ∧ t.mem = s.mem ∧ (t.core a.core).mem.commits.get e = (if rest = [] then none else some rest) ∧
      (t.core a.core).mem.pend = (s.core a.core).mem.pend.filter fun p => !(p.committing && namedBy stores p) := by
  let f (c : Core) : Core :=
    { c with mem := { c.mem with
        commits := (c.mem.commits.mapVal fun _ l => l.filter fun n => decide (n ≠ id)).filter fun x => decide (x.2 ≠ [])
        pend := c.mem.pend.filter fun (p : PStore) => !(p.committing && stores.any fun q => decide (q.order = p.order)) } }
  have core : ((s.endAccess id).modLive a.core f).core a.core = f (s.core a.core) := State.core_modLive_same (s := s.endAccess id) f hc
  refine ⟨(s.endAccess id).modLive a.core f, ?_, State.modLive_accs _ _ _, State.modLive_mem _ _ _, ?_, ?_⟩
  · show execCommitAck id s = _
    simp only [execCommitAck, ha, hk]
    rfl
  · rw [core]
    refine (FMap.get_filter (FMap.wf_mapVal hwf _) (fun l => decide (l ≠ [])) e).trans ?_
    rw [FMap.get_mapVal, hl]
    simp only [Option.map_some, Option.filter_some, decide_eq_true_eq, ite_not]
  · rw [core]
    rfl

/-! ### The bytes of an LDQ -/

theorem plainBytes_eq (n v : Nat) :
    plainBytes n v = (List.range n).map fun i => (⟨BitVec.ofNat 8 (v / 256 ^ i), true, false⟩ : PortByte) := by
  refine List.map_congr_left fun i _ => ?_
  congr 1
  apply BitVec.eq_of_toNat_eq
  rw [BitVec.toNat_ofNat, BitVec.toNat_ofNat, pow_256]
  show v / 2 ^ (8 * i) % 2 ^ (8 * i + 7 + 1 - 8 * i) % 2 ^ 8 = _
  rw [show 8 * i + 7 + 1 - 8 * i = 8 by omega, Nat.mod_mod]

theorem completes_ldqDataArrival {n : Nat} {x : LdqSlot} (ha : s.accs.get id = some a) (hk : a.kind = .ldq n)
    (hc : s.cores.has a.core = true) (hx : ((s.core a.core).port n).ldqs = [x]) (hid : x.id = id) :
    Completes (.ldqDataArrival id) s fun t =>
      let bytes := (List.range x.size).map fun i => (⟨BitVec.ofNat 8 (a.value / 256 ^ i), true, false⟩ : PortByte)
      t.accs = s.accs.del id ∧ (t.core a.core).port n = ({ (s.core a.core).port n with ldqs := [] }).append bytes s.pcc := by
  let take (p : Port) : Port :=
    let l := p.ldqs.map fun (x : LdqSlot) => if x.id = id then { x with data := some a.value, failed := false } else x
    let there := l.takeWhile fun (x : LdqSlot) => x.data.isSome
    ({ p with ldqs := l.drop there.length }).append (there.flatMap fun (x : LdqSlot) => plainBytes x.size (x.data.getD 0)) s.pcc
  have core := State.core_modLive_same (s := s.endAccess id) (fun c => c.modPort n take) hc
  refine ⟨(s.endAccess id).modLive a.core fun c => c.modPort n take, ?_, State.modLive_accs _ _ _, ?_⟩
  · show execLdqDataArrival id s = _
    simp only [execLdqDataArrival, ha, hk]
    rfl
  · rw [core, Core.port_modPort_same]
    show take ((s.core a.core).port n) = _
    simp [take, hx, hid, plainBytes_eq]

end

/-! ### Lines and sectors -/

theorem NatSet.mem_add (l : NatSet) (n x : Nat) : x ∈ NatSet.add l n ↔ x = n ∨ x ∈ l := by
  induction l with
  | nil => simp [NatSet.add]
  | cons k l ih =>
    rw [NatSet.add]
    split
    next h => simp [h]
    next =>
      split
      · simp
      · rw [List.mem_cons, ih, List.mem_cons]
        tauto

/-- The sector of each store is among the sectors of the stores. -/
theorem mem_sectorsOf {ps : List PStore} {p : PStore} (h : p ∈ ps) : p.pa / 128 ∈ sectorsOf ps := by
  have fold (l : List PStore) (acc : NatSet) (hx : p ∈ l ∨ p.pa / 128 ∈ acc) :
      p.pa / 128 ∈ l.foldl (fun acc p => NatSet.add acc (p.pa / 128)) acc := by
    induction l generalizing acc with
    | nil => exact hx.resolve_left List.not_mem_nil
    | cons q l ih =>
      refine ih _ ?_
      rw [NatSet.mem_add]
      rcases hx with hx | hx
      · rcases List.mem_cons.mp hx with rfl | hl
        · exact .inr (.inl rfl)
        · exact .inl hl
      · exact .inr (.inr hx)
  exact fold ps [] (.inl h)

/-- Events put on the agenda for the cycle are there, and the rest is as it was. -/
theorem foldl_schedule (e : Nat → Event) (l : List Nat) (s : State) :
    let u := l.foldl (fun (s : State) n => s.schedule s.pcc (e n)) s
    u.cores = s.cores ∧ u.mem = s.mem ∧ (∀ x ∈ s.agenda, x ∈ u.agenda) ∧ ∀ n ∈ l, (s.pcc, e n) ∈ u.agenda := by
  induction l generalizing s with
  | nil => exact ⟨rfl, rfl, fun _ h => h, fun _ h => absurd h List.not_mem_nil⟩
  | cons k l ih =>
    obtain ⟨cores, mem, kept, there⟩ := ih (s.schedule s.pcc (e k))
    refine ⟨cores, mem, fun x h => kept x (State.mem_schedule_of_mem _ _ _ _ h), fun n hn => ?_⟩
    rcases List.mem_cons.mp hn with rfl | hl
    · exact kept _ (State.mem_schedule _ _ _)
    · exact there n hl

section
variable {s : State} {core : Nat}

theorem completes_l1LineReplacement (hc : s.cores.has core = true) (line : Nat) :
    Completes (.l1LineReplacement core line) s fun t =>
      (t.core core).mem.l1 = (s.core core).mem.l1.filter (fun e => decide (e.1 / 4 ≠ line)) ∧
      (t.core core).mem.pend = (s.core core).mem.pend ∧ t.mem = s.mem ∧
      ∀ p ∈ (s.core core).mem.pend, p.place = .dirty → p.pa / 512 = line →
        (s.pcc, Event.dirtySectorEviction core (p.pa / 128)) ∈ t.agenda := by
  let drop (c : Core) : Core := { c with mem := { c.mem with l1 := c.mem.l1.filter fun (e : Nat × L1Sector) => decide (e.1 / 4 ≠ line) } }
  let dirty := (s.core core).mem.pend.filter fun (p : PStore) => decide (p.place = .dirty) && decide (p.pa / 512 = line)
  obtain ⟨cores, mem, -, there⟩ := foldl_schedule (Event.dirtySectorEviction core) (sectorsOf dirty) (s.modLive core drop)
  have dropped := State.core_modLive_same drop hc
  refine ⟨((sectorsOf dirty).foldl (fun (s : State) n => s.schedule s.pcc (.dirtySectorEviction core n)) (s.modLive core drop)).tick, rfl,
    ?_, ?_, mem.trans (State.modLive_mem _ _ _), fun p hp place hline => ?_⟩
  · show (State.core _ core).mem.l1 = _
    rw [State.core, show (State.tick _).cores = _ from cores]
    exact congrArg (fun c : Core => c.mem.l1) dropped
  · show (State.core _ core).mem.pend = _
    rw [State.core, show (State.tick _).cores = _ from cores]
    exact (congrArg (fun c : Core => c.mem.pend) dropped :)
  · have pcc : (s.modLive core drop).pcc = s.pcc := by rw [State.modLive_of_has _ _ _ hc]; rfl
    exact pcc ▸ there _ (mem_sectorsOf (List.mem_filter.mpr ⟨hp, by simp [place, hline]⟩))

theorem completes_dirtySectorEviction {sector : Nat} (hc : s.cores.has core = true)
    (hd : ∃ p ∈ (s.core core).mem.pend, p.place = .dirty ∧ p.pa / 128 = sector) (hf : s.entryFree core (sector * 128) = true) :
    Completes (.dirtySectorEviction core sector) s fun t =>
      t.mem = s.mem ∧ (t.core core).mem.l1 = (s.core core).mem.l1.del sector ∧
      (t.core core).mem.pend = (s.core core).mem.pend.map fun p =>
        if p.place = .dirty ∧ p.pa / 128 = sector then { p with place := .versioned } else p := by
  let evict (c : Core) : Core :=
    let c1 := c.mapPend fun p => if p.place = .dirty ∧ p.pa / 128 = sector then { p with place := .versioned } else p
    { c1 with mem := { c1.mem with l1 := c1.mem.l1.del sector } }
  have some_dirty : ((s.core core).mem.pend.filter fun (p : PStore) => decide (p.place = .dirty) && decide (p.pa / 128 = sector)) ≠ [] := by
    obtain ⟨p, hp, place, hs⟩ := hd
    exact List.ne_nil_of_mem (List.mem_filter.mpr ⟨hp, by simp [place, hs]⟩)
  have evicted := State.core_modLive_same evict hc
  refine ⟨s.modLive core evict, ?_, State.modLive_mem _ _ _, by rw [evicted]; rfl, by rw [evicted]; rfl⟩
  show execDirtySectorEviction core sector s = _
  rw [execDirtySectorEviction]
  exact congrArg Host.Outcome.next ((if_neg some_dirty).trans (if_pos hf))

theorem State.dies_commitStores (s : State) (core : Nat) (ps : List PStore) : (s.commitStores core ps).dies = s.dies := by
  have dies (l : List PStore) (u : State) : (l.foldl State.commitBytes u).dies = u.dies := by
    induction l generalizing u with
    | nil => rfl
    | cons p l ih => exact ih _
  show ((s.commitMarked ps).modCore core _).dies = _
  rw [State.modCore_dies]
  exact dies ps _

theorem completes_forcedCommit {sector : Nat} (hq : ∃ q ∈ s.agenda, q.2 = .dirtySectorEviction core sector) :
    let ps := (s.core core).mem.pend.filter fun p => decide (p.pa / 128 = sector) && p.performed
    let die := (homeDie (regionOf (localOf (sector * 128)))).getD (dieOf core)
    ps ≠ [] → s.accs = [] →
    Completes (.forcedCommit core sector) s fun t =>
      t.mem = (s.commitStores core ps).mem ∧ (t.die die).fcommit = min ((s.die die).fcommit + 1) 0xFFFFFFFF ∧
      (∀ q ∈ t.agenda, q.2 ≠ .dirtySectorEviction core sector) := by
  intro ps die hps ha
  let count (d : Die) : Die := { d with fcommit := bump d.fcommit }
  have evicted : (s.agenda.any fun (p : Nat × Event) => decide (p.2 = .dirtySectorEviction core sector)) = true := by
    obtain ⟨q, hq, he⟩ := hq
    exact List.any_eq_true.mpr ⟨q, hq, decide_eq_true he⟩
  refine ⟨((s.commitStores core ps).unschedule (.dirtySectorEviction core sector)).modDie die count, ?_, rfl, ?_, fun q hq => ?_⟩
  · show execForcedCommit core sector s = _
    simp only [execForcedCommit, ha, evicted, List.filter_nil, List.map_nil, List.contains_nil, Bool.or_false]
    exact congrArg Host.Outcome.next (if_neg (by rw [decide_eq_false (p := List.filter _ _ = []) hps]; simp))
  · have changed : (((s.commitStores core ps).unschedule (.dirtySectorEviction core sector)).modDie die count).die die =
        count ((s.commitStores core ps).die die) := FMap.getD_set_same _ _ _ _
    have die_same : (s.commitStores core ps).die die = s.die die := by rw [State.die, State.dies_commitStores]; rfl
    rw [changed, die_same]
    rfl
  · have kept : q ∈ ((s.commitStores core ps).agenda.filter fun p => decide (p.2 ≠ .dirtySectorEviction core sector)) := hq
    exact of_decide_eq_true (List.mem_filter.mp kept).2

theorem completes_vectorBusyClear {slot : Nat} (hg : (s.core core).groups.has slot = true)
    (hv : ((s.core core).group slot).v.clears = true) (hm : ∀ m ∈ ((s.core core).group slot).v.mems, m.fault = none) :
    Completes (.vectorBusyClear core slot) s fun t =>
      let v := ((s.core core).group slot).v
      ((t.core core).group slot).v = { v with busy := false, ended := false, mems := [], latch := none, seg := none } ∧ t.mem = s.mem := by
  let clear (v : VStream) : VStream := { v with busy := false, ended := false, mems := [], latch := none, seg := none }
  have none : (((s.core core).group slot).v.mems.find? fun (m : VMem) => m.fault.isSome) = none := by
    rw [List.find?_eq_none]
    intro m h
    simp [hm m h]
  refine ⟨s.at ⟨core, slot, .vector⟩ fun s => s.modV clear, ?_, ?_, rfl⟩
  · show execVectorBusyClear core slot s = _
    refine congrArg Host.Outcome.next ((if_neg (by simp [hg, hv])).trans (congrArg (fun u : State => { u with cur := s.cur }) ?_))
    beta_reduce
    split
    next m faulty => exact absurd (none.symm.trans faulty) (by simp)
    next => rfl
  · show (({ s with cur := ⟨core, slot, .vector⟩ }).modV clear).grp.v = _
    rw [State.grp_modV]
    rfl

end

/-- The events of stores, commits and lines. -/
theorem storeEventsHold : StoreEventsHold := by
  intro id core n event reason line sector stores a s
  refine ⟨fun ha hk hs hc haw hw hq => ⟨completes_storeAck ha hk hc haw hw hq, completes_storeErrorRecord ha hk hs hc haw hw hq⟩,
    fun ha hk here => ⟨fun p => completes_commitMessage ha hk here, fun e l => completes_commitAck ha hk⟩,
    fun x ha hk => completes_ldqDataArrival ha hk,
    fun hc => ⟨completes_l1LineReplacement hc line, fun hd hf => completes_dirtySectorEviction hc hd hf, completes_forcedCommit⟩,
    fun slot hg hv hm => completes_vectorBusyClear hg hv hm⟩

/-- Settles O40: each event is the change of its access, its core or its die that its lemma states. -/
theorem storeEvents : Obligations.StoreEvents := ⟨storeEventsHold, storeLeftHold⟩

end Sys2Proof.Machine

/-! ## O41: accesses performed and answered, and walks that end (R134, R138, R393, R394, R484-R486) -/

namespace Sys2Proof.Machine

/-! ### An answer at the stream of its access -/

/-- The scalar stream of a place after an effect at that place. -/
theorem scalarAt_at {s : State} {f : Focus} {g : State → State} (h : (g { s with cur := f }).cur = f) :
    scalarAt (s.at f g) f = (g { s with cur := f }).scalar := by
  show ({ g { s with cur := f } with cur := f } : State).scalar = _
  generalize g { s with cur := f } = u at h
  subst h
  rfl

theorem awaitKey_of_ne {d : Nat} (hd : d ≠ 0) (id : Nat) : awaitKey d id = d := if_neg hd

theorem Scalar.answer_of_waits {sc : Scalar} {d id : Nat} (hd : d ≠ 0) (hw : sc.waits.get d = some id) (now : Nat) (v : Word) :
    sc.answer d id now (some v) =
      ({ sc with waits := sc.waits.del d, ready := sc.ready.set d now }).mapFiles fun r => r.put (BitVec.ofNat 5 d) v := by
  rw [Scalar.answer, awaitKey_of_ne hd, if_pos hw]
  simp [hd]

/-- An answer without a value leaves the register file and the pc. -/
theorem Scalar.answer_none (sc : Scalar) (d id now : Nat) :
    (sc.answer d id now none).rf = sc.rf ∧ (sc.answer d id now none).pc = sc.pc := by
  unfold Scalar.answer
  dsimp only
  split
  · exact ⟨rfl, rfl⟩
  · exact ⟨rfl, rfl⟩

section
variable {s : State} {id : Nat} {a : Access}

theorem completes_loadDataReturn {d : Nat} {sg : Bool} (ha : s.accs.get id = some a) (hk : a.kind = .load d sg) (haw : s.awaits a = true)
    (hd : d ≠ 0) (hlt : d < 32) (hw : (scalarAt s a.focus).waits.get d = some id) :
    Completes (.loadDataReturn id) s fun t =>
      t.accs = s.accs.del id ∧ (scalarAt t a.focus).rf.get (BitVec.ofNat 5 d) = extend sg a.size a.value ∧
      (∀ n : BitVec 5, n.toNat ≠ d → (scalarAt t a.focus).rf.get n = (scalarAt s a.focus).rf.get n) ∧
      (scalarAt t a.focus).ready.get d = some s.pcc ∧ (scalarAt t a.focus).pc = (scalarAt s a.focus).pc ∧ t.mem = s.mem := by
  let put (sc : Scalar) : Scalar := sc.answer d id s.pcc (some (extend sg a.size a.value))
  have field : (BitVec.ofNat 5 d).toNat = d := by rw [BitVec.toNat_ofNat]; exact Nat.mod_eq_of_lt hlt
  have nonzero : BitVec.ofNat 5 d ≠ 0 := fun h => hd (by rw [← field, h]; rfl)
  have scalar : scalarAt ((s.endAccess id).at a.focus fun s => s.modScalar put) a.focus = put (scalarAt s a.focus) :=
    (scalarAt_at (State.modScalar_cur _ _)).trans (State.scalar_modScalar _ _)
  have answered : put (scalarAt s a.focus) = _ := Scalar.answer_of_waits hd hw s.pcc (extend sg a.size a.value)
  refine ⟨(s.endAccess id).at a.focus fun s => s.modScalar put, ?_, State.modScalar_accs _ _, ?_, fun n hn => ?_, ?_, ?_,
    State.modScalar_mem _ _⟩
  · show execLoadDataReturn id s = _
    simp only [execLoadDataReturn, ha, haw, hk]
    rfl
  · rw [scalar, answered]
    exact (RegFile.get_put _ _ _ _).trans (if_pos ⟨rfl, nonzero⟩)
  · have other : n ≠ BitVec.ofNat 5 d := fun h => hn (by rw [h, field])
    rw [scalar, answered]
    exact (RegFile.get_put _ _ _ _).trans (if_neg fun h => other h.1)
  · rw [scalar, answered]
    exact FMap.get_set_same _ _ _
  · rw [scalar, answered]
    rfl

/-! ### An error at the group of its access -/

/-- A trap that names a pc, and that neither ends the launch nor has a unit tested, suspends the group and makes one record. -/
theorem State.raiseTrap_of_group_at {s : State} {t : TrapArgs} {pc : Word} (hs : s.cur.stream = .group)
    (hg : s.here.chargeable s.cur.slot = true) (hi : t.cause ≠ causeIntegrity) (hp : t.pc = some pc) (hseg : t.cause ≠ causeSegment)
    (htw : t.cause ≠ causeTwin) :
    ∃ r, s.raiseTrap t = (s.setCore s.cur.core ((s.here.withdraw s.cur.slot).modGroup s.cur.slot fun g =>
      g.suspend s.pcc ⟨t.cause, pc, .group, replays t.cause, t.addr, t.aux, t.cidx, t.elem⟩)).record r := by
  have charged : s.chargedSlot = s.cur.slot := by simp [State.chargedSlot, hs]
  have own : s.orphaned = false := by simp [State.orphaned, hs]
  have compute : s.raiseTrap t = s.trapCompute t := by rw [State.raiseTrap, hs]
  rw [compute, State.trapCompute, charged, hg, own, if_neg hi, State.checkFailure, if_pos ⟨hseg, htw⟩, hp, hs]
  exact ⟨_, rfl⟩

theorem Core.chargeable_modGroup {c : Core} {slot : Nat} {f : Group → Group} (hf : ∀ g, (f g).status = g.status)
    (h : c.chargeable slot = true) : (c.modGroup slot f).chargeable slot = true := by
  unfold Core.chargeable at h ⊢
  rw [Core.modGroup, Core.setGroup, FMap.get_set_same]
  show decide ((f (c.group slot)).status ≠ .joined) = true
  rw [hf, Core.group, FMap.getD]
  cases hg : c.groups.get slot with
  | none => simp [hg] at h
  | some g => simpa [hg] using h

theorem completes_dataErrorArrival {d : Nat} {sg : Bool} (err : DataError) (ha : s.accs.get id = some a) (hk : a.kind = .load d sg)
    (haw : s.awaits a = true) (hs : a.stream = .group) (hc : a.core < Config.controlBase)
    (hg : (s.core a.core).chargeable a.slot = true) :
    Completes (.dataErrorArrival id err) s fun t =>
      let g := (s.core a.core).group a.slot
      let u := (t.core a.core).group a.slot
      t.accs = s.accs.del id ∧ u.status = .trapped ∧ u.sc.rf = g.sc.rf ∧ u.sc.pc = g.sc.pc ∧ u.vregs = g.vregs ∧
      u.traps = g.traps ++ [⟨errCause err, a.pc, .group, replays (errCause err), a.va, g.sc.pc, 0, 0⟩] ∧ t.mem = s.mem := by
  have focus : a.focus = ⟨a.core, a.slot, .group⟩ := by rw [Access.focus, if_pos hc, hs]
  let z : State := { s.endAccess id with cur := ⟨a.core, a.slot, .group⟩ }
  let answered (sc : Scalar) : Scalar := sc.answer d id s.pcc none
  let args : TrapArgs :=
    { cause := errCause err, addr := a.va, aux := z.scalar.pc, detail := errDetail err, pc := some a.pc }
  have charge : ((z.modScalar answered).here).chargeable a.slot = true := by
    show ((z.modGrp fun g => { g with sc := answered g.sc }).here).chargeable a.slot = true
    rw [State.modGrp, State.here_modHere]
    exact Core.chargeable_modGroup (fun _ => rfl) hg
  have causes : errCause err ≠ causeIntegrity ∧ errCause err ≠ causeSegment ∧ errCause err ≠ causeTwin := by
    cases err with
    | poison => decide
    | remote n =>
      show causeRemote ≠ causeIntegrity ∧ causeRemote ≠ causeSegment ∧ causeRemote ≠ causeTwin
      decide
  obtain ⟨r, trapped⟩ := State.raiseTrap_of_group_at (s := z.modScalar answered) (t := args) rfl charge causes.1 rfl causes.2.1 causes.2.2
  have group : (((z.modScalar answered).raiseTrap args).core a.core).group a.slot =
      ({ (s.core a.core).group a.slot with sc := answered ((s.core a.core).group a.slot).sc }).suspend s.pcc
        ⟨errCause err, a.pc, .group, replays (errCause err), a.va, z.scalar.pc, 0, 0⟩ := by
    rw [trapped, State.core_record]
    refine (congrArg (Core.group · a.slot) (State.core_setCore_same (z.modScalar answered) a.core _)).trans ?_
    refine (Core.group_modGroup_same _ a.slot _).trans ?_
    rw [Core.group_withdraw]
    have scalar : ((z.modScalar answered).here).group a.slot = { (s.core a.core).group a.slot with sc := answered ((s.core a.core).group a.slot).sc } :=
      State.grp_modGrp z fun g => { g with sc := answered g.sc }
    exact congrArg (fun g : Group => g.suspend s.pcc _) scalar
  obtain ⟨rf, pc⟩ := Scalar.answer_none ((s.core a.core).group a.slot).sc d id s.pcc
  refine ⟨(s.endAccess id).at ⟨a.core, a.slot, .group⟩ fun _ => (z.modScalar answered).raiseTrap args, ?_, ?_, ?_, ?_, ?_, ?_, ?_, ?_⟩
  · show execDataErrorArrival id err s = _
    simp only [execDataErrorArrival, ha, haw, hk, focus]
    rfl
  · show ((z.modScalar answered).raiseTrap args).accs = _
    rw [trapped]
    rfl
  · show ((((z.modScalar answered).raiseTrap args).core a.core).group a.slot).status = _
    rw [group]
    rfl
  · show ((((z.modScalar answered).raiseTrap args).core a.core).group a.slot).sc.rf = _
    rw [group]
    exact rf
  · show ((((z.modScalar answered).raiseTrap args).core a.core).group a.slot).sc.pc = _
    rw [group]
    exact pc
  · show ((((z.modScalar answered).raiseTrap args).core a.core).group a.slot).vregs = _
    rw [group]
    rfl
  · show ((((z.modScalar answered).raiseTrap args).core a.core).group a.slot).traps = _
    rw [group]
    rfl
  · exact (State.raiseTrap_mem_objects _ _).1.trans (State.modScalar_mem _ _)

/-! ### An access that is performed -/

theorem State.replyLate_modLive (s : State) (k : Nat) (f : Core → Core) (a : Access) : ((s.modLive k f).replyLate a).2 = (s.replyLate a).2 := by
  unfold State.modLive State.replyLate
  split
  · split
    · rfl
    · rfl
  · rfl

/-- An access of this package, or of another that has come to its home, does not go to the fabric die. -/
theorem stays_of_here (here : s.isLocal a.pa = true ∨ a.replyAt ≠ 0) : (decide (a.replyAt = 0) && !s.isLocal a.pa) = false := by
  rcases here with h | h
  · simp [h]
  · simp [h]

theorem performLoad_of_load {d : Nat} {sg : Bool} (hk : a.kind = .load d sg) :
    ∃ u, (u = s ∨ ∃ f, u = s.modLive a.core f) ∧
      s.performLoad id a = u.settle id { a with
        value := s.readFor a.core a.order a.pa a.size
        error := if s.readPoison a.core a.order a.pa a.size then some .poison else none } := by
  unfold State.performLoad
  rw [hk]
  dsimp only
  split
  · exact ⟨s, .inl rfl, rfl⟩
  · exact ⟨_, .inr ⟨_, rfl⟩, rfl⟩

section
variable (ha : s.accs.get id = some a) (hp : a.performed = false) (hh : s.heldBehind id a = false) (hcfg : isConfig a.pa = false)
  (here : s.isLocal a.pa = true ∨ a.replyAt ≠ 0)
include ha hp hh hcfg here

theorem completes_accessPerformed_load {d : Nat} {sg : Bool} (hk : a.kind = .load d sg) :
    Completes (.accessPerformed id) s fun t =>
      t.mem = s.mem ∧ ∃ c, t.accs.get id = some c ∧ c.performed = true ∧ c.value = s.readFor a.core a.order a.pa a.size ∧
        c.error = (if s.readPoison a.core a.order a.pa a.size then some .poison else none) ∧
        (a.tag = none → (s.pcc + (a.replyAt - a.performAt) + (s.replyLate a).2, c.ending id) ∈ t.agenda) := by
  obtain ⟨u, hu, performed⟩ := performLoad_of_load (s := s) (id := id) hk
  let c : Access := { a with
    value := s.readFor a.core a.order a.pa a.size
    error := if s.readPoison a.core a.order a.pa a.size then some .poison else none }
  obtain ⟨-, mem, -, -, agenda⟩ := settle_spec u id c
  refine ⟨u.settle id c, ?_, ?_, _, settle_get _ _ _, rfl, rfl, rfl, fun tag => ?_⟩
  · rw [← performed]
    have gone := stays_of_here here
    show execAccessPerformed id s = _
    simp only [execAccessPerformed, ha, hp, gone, hh, hcfg, hk]
    rfl
  · rw [mem]
    rcases hu with rfl | ⟨f, rfl⟩
    · rfl
    · exact State.modLive_mem _ _ _
  · have same : u.pcc = s.pcc ∧ (u.replyLate c).2 = (s.replyLate a).2 := by
      rcases hu with rfl | ⟨f, rfl⟩
      · exact ⟨rfl, rfl⟩
      · exact ⟨by unfold State.modLive; split <;> rfl, State.replyLate_modLive _ _ _ _⟩
    have due := agenda tag
    rw [same.1, same.2] at due
    exact due

/-- R137: an atomic that no earlier store and no poison stands before changes memory by its operation. -/
theorem completes_accessPerformed_amo {d op : Nat} {b cmp : Word} (hk : a.kind = .amo d op b cmp)
    (hpend : ∀ p ∈ (s.core a.core).mem.pend, p.performed = false) (hclean : ∀ g ∈ granulesOf a.pa a.size, s.poison.has g = false) :
    Completes (.accessPerformed id) s fun t =>
      let old := Memory.readN s.mem a.pa a.size
      t.mem = Memory.writeN s.mem a.pa a.size (amoNew op a.size old (storeValue b a.size) (storeValue cmp a.size)) ∧
      ∃ c, t.accs.get id = some c ∧ c.performed = true ∧ c.value = old := by
  let old := Memory.readN s.mem a.pa a.size
  let new := amoNew op a.size old (storeValue b a.size) (storeValue cmp a.size)
  let u : State := ({ s with mem := Memory.writeN s.mem a.pa a.size new }).refresh a.core a.pa a.size new
  have none : ((s.core a.core).mem.pend.filter fun (p : PStore) =>
      a.onCompute && decide (p.order < a.order) && p.performed && rangesMeet a.pa a.size p.pa p.size && p.orderedBefore a) = [] := by
    rw [List.filter_eq_nil_iff]
    intro p h
    simp [hpend p h]
  have clean : ((granulesOf a.pa a.size).any fun g => s.poison.has g) = false := by
    rw [List.any_eq_false]
    intro g h
    simp [hclean g h]
  have performed : s.performAmo id a op (storeValue b a.size) (storeValue cmp a.size) true = u.settle id { a with value := old } := by
    simp only [State.performAmo, none, if_true, clean]
    rfl
  obtain ⟨-, mem, -⟩ := settle_spec u id { a with value := old }
  refine ⟨u.settle id { a with value := old }, ?_, mem.trans (State.modLive_mem _ _ _), _, settle_get _ _ _, rfl, rfl⟩
  have gone := stays_of_here here
  rw [← performed]
  show execAccessPerformed id s = _
  simp only [execAccessPerformed, ha, hp, gone, hh, hcfg, hk]
  rfl

/-- R310: a store of the control die is committed as it is performed. -/
theorem completes_accessPerformed_store (hk : a.kind = .store) (hc : a.onCompute = false) (hn : s.noHome a.pa = none) :
    Completes (.accessPerformed id) s fun t =>
      t.mem = Memory.writeN s.mem a.pa a.size a.value ∧ ∃ c, t.accs.get id = some c ∧ c.performed = true := by
  obtain ⟨-, mem, -⟩ := settle_spec (s.deviceWrite a.pa a.size a.value) id a
  refine ⟨(s.deviceWrite a.pa a.size a.value).settle id a, ?_, ?_, _, settle_get _ _ _, rfl⟩
  · have gone := stays_of_here here
    have performed : s.performStore id a = (s.deviceWrite a.pa a.size a.value).settle id a := if_pos (by rw [hc]; rfl)
    rw [← performed]
    show execAccessPerformed id s = _
    simp only [execAccessPerformed, ha, hp, gone, hh, hcfg, hk]
    rfl
  · rw [mem, State.deviceWrite_mem, hn]
    rfl

end

end

/-- Accesses are performed and answered. -/
theorem accessEventsHold : AccessEventsHold := fun _ _ _ _ _ _ err _ _ ha =>
  ⟨fun hk haw hd hlt hw => completes_loadDataReturn ha hk haw hd hlt hw,
    fun hk haw hs hc hg => completes_dataErrorArrival err ha hk haw hs hc hg,
    fun hp hh hcfg here => ⟨fun hk => completes_accessPerformed_load ha hp hh hcfg here hk,
      fun hk hpend hclean => completes_accessPerformed_amo ha hp hh hcfg here hk hpend hclean,
      fun hk hc hn => completes_accessPerformed_store ha hp hh hcfg here hk hc hn⟩⟩

/-! ### Walks -/

/-- A core's TLB takes an entry (R393). -/
def Core.takeEntry (e : TlbEntry) (victim : Nat) (c : Core) : Core :=
  { c with mem := { c.mem with tlb := tlbInstall c.mem.tlb e 32 victim } }

theorem mem_tlbInstall (l : List TlbEntry) (e : TlbEntry) (size victim : Nat) : e ∈ tlbInstall l e size victim := by
  unfold tlbInstall
  split
  next there => exact List.contains_iff_mem.mp there
  next =>
    split
    · exact List.mem_cons_self
    · exact List.mem_cons_self

theorem State.tlb_clearHold (s : State) (k : Nat) : (s.clearHold.core k).mem.tlb = (s.core k).mem.tlb := by
  unfold State.clearHold
  split
  · exact s.keeps_modCore (p := fun c => c.mem.tlb) _ _ fun _ => rfl
  · rfl
  · exact s.keeps_modCore (p := fun c => c.mem.tlb) _ _ fun _ => rfl

/-- The end of a stream's wait for a walk changes no memory, no walk, no die and no TLB. -/
theorem State.walkOver_keeps (s : State) (id : Nat) :
    (s.walkOver id).cur = s.cur ∧ (s.walkOver id).mem = s.mem ∧ (s.walkOver id).walks = s.walks ∧ (s.walkOver id).dies = s.dies ∧
      ∀ k, ((s.walkOver id).core k).mem.tlb = (s.core k).mem.tlb := by
  unfold State.walkOver
  split
  · exact ⟨rfl, rfl, rfl, rfl, fun k => s.keeps_modCore (p := fun c => c.mem.tlb) _ _ fun _ => rfl⟩
  · exact ⟨rfl, rfl, rfl, rfl, fun _ => rfl⟩
  · exact ⟨rfl, rfl, rfl, rfl, fun _ => rfl⟩
  · split
    · exact ⟨by simp, by simp, by simp, by simp, s.tlb_clearHold⟩
    · exact ⟨rfl, rfl, rfl, rfl, fun _ => rfl⟩

/-- What the end of a walk does for one request at its stream. -/
def State.walkEnds (id : Nat) (q : WalkReq) (s : State) : State := if s.walkAwaited id q then s.walkOver id else s

theorem State.walkEnds_keeps (s : State) (id : Nat) (q : WalkReq) :
    (s.walkEnds id q).cur = s.cur ∧ (s.walkEnds id q).mem = s.mem ∧ (s.walkEnds id q).walks = s.walks ∧ (s.walkEnds id q).dies = s.dies ∧
      ∀ k, ((s.walkEnds id q).core k).mem.tlb = (s.core k).mem.tlb := by
  unfold State.walkEnds
  split
  · exact s.walkOver_keeps id
  · exact ⟨rfl, rfl, rfl, rfl, fun _ => rfl⟩

/-- A group that waits for the walk waits no longer. -/
theorem State.hold_walkEnds {s : State} {id : Nat} {q : WalkReq} (hq : s.cur = q.focus) (hs : q.focus.stream = .group)
    (hc : s.cores.has q.focus.core = true) (hw : s.grp.hold.any (fun h => decide (h.wait = .walk id)) = true) :
    (s.walkEnds id q).grp.hold = none := by
  have stream : s.cur.stream = .group := by rw [hq, hs]
  have holding : s.holding = s.grp.hold := by rw [State.holding, stream]
  have grp : (s.core q.focus.core).group q.focus.slot = s.grp := by rw [State.grp, State.here, hq]
  have awaited : s.walkAwaited id q = true := by
    rw [State.walkAwaited, hc, hs]
    dsimp only
    rw [grp, Bool.true_and]
    cases hh : s.grp.hold with
    | none => simp [hh] at hw
    | some h => simp only [hh, Option.any_some] at hw ⊢; rw [hw]; rfl
  have ends : s.walkOver id = s.clearHold := by
    rw [State.walkOver, stream]
    dsimp only
    rw [holding, if_pos hw]
  have cleared : s.clearHold.holding = none := State.holding_clearHold s
  rw [State.walkEnds, if_pos awaited, ends]
  rwa [State.holding, State.clearHold_cur, stream] at cleared

/-- A request is answered: its core's TLB takes the entry, and its stream waits no longer. -/
def State.answerWalk (s : State) (id : Nat) (q : WalkReq) (e : TlbEntry) (victim : Nat) : State :=
  (s.modCore q.focus.core (Core.takeEntry e victim)).at q.focus (State.walkEnds id q)

theorem State.answerWalk_spec (s : State) (id : Nat) (q : WalkReq) (e : TlbEntry) (victim : Nat) :
    let t := s.answerWalk id q e victim
    t.mem = s.mem ∧ t.walks = s.walks ∧ e ∈ (t.core q.focus.core).mem.tlb ∧
    (q.focus.stream = .group → ((s.core q.focus.core).group q.focus.slot).hold.any (fun h => decide (h.wait = .walk id)) = true →
      ((t.core q.focus.core).group q.focus.slot).hold = none) := by
  let z : State := { s.modCore q.focus.core (Core.takeEntry e victim) with cur := q.focus }
  obtain ⟨cur, mem, walks, -, tlb⟩ := z.walkEnds_keeps id q
  have core : z.core q.focus.core = Core.takeEntry e victim (s.core q.focus.core) := State.core_modCore_same _ _ _
  refine ⟨mem, walks, ?_, fun hs hw => ?_⟩
  · show e ∈ ((z.walkEnds id q).core q.focus.core).mem.tlb
    rw [tlb, core]
    exact mem_tlbInstall _ _ _ _
  · have grp : z.grp = (s.core q.focus.core).group q.focus.slot := (congrArg (fun c : Core => c.group q.focus.slot) core :)
    have ended := State.hold_walkEnds (s := z) (id := id) rfl hs (FMap.has_set_same _ _ _) (grp ▸ hw)
    rw [State.grp, State.here, cur] at ended
    exact ended

/-! ### The end of a walk with one request -/

theorem State.beginQueued_of_nil {s : State} (h : s.walks = []) (die : Nat) : s.beginQueued die = s := by
  simp only [State.beginQueued, h, List.foldl_nil]

section
variable {s : State} {id : Nat} {w : Walk} {e : TlbEntry} {q : WalkReq}

/-- The walk that ends is the only one, and it leaves the table. -/
theorem exec_tlbWalkComplete_of_only (hw : s.walks = [(id, w)]) (left : ({ s with walks := [] }.walkAnswered id w).walks = []) :
    exec (.tlbWalkComplete id) s = .next ({ s with walks := [] }.walkAnswered id w) := by
  have there : s.walks.get id = some w := by rw [hw]; simp [FMap.get]
  have gone : s.walks.del id = [] := by rw [hw]; simp [FMap.del]
  show execTlbWalkComplete id s = _
  simp only [execTlbWalkComplete, there, gone]
  rw [State.beginQueued_of_nil left]

/-- The second state has the memory, the walks and the cores of the first; what a die's strip TLBs and walk cache take may differ. -/
def SameCoresAndWalks (s u : State) : Prop := u.mem = s.mem ∧ u.walks = s.walks ∧ u.cores = s.cores

theorem SameCoresAndWalks.modDie {s u : State} (h : SameCoresAndWalks s u) (d : Nat) (f : Die → Die) : SameCoresAndWalks s (u.modDie d f) := h

theorem walkFound_of_only {s : State} (hw : s.walks = []) (hj : w.joined = [q]) (hc : s.cores.has q.focus.core = true) :
    ∃ (u : State) (v : Nat), SameCoresAndWalks s u ∧ s.walkFound id w e = (u.answerWalk id q e v).tick.tick := by
  simp only [State.walkFound, hw, hj, List.filter_nil, List.flatMap_cons, List.flatMap_nil, List.map_cons, List.map_nil, List.append_nil,
    List.foldl_cons, List.foldl_nil]
  generalize hs2 : s.modDie w.die (fun d => d.keepEntries _ s.free) = s2
  have same : SameCoresAndWalks s s2 := by
    rw [← hs2]
    exact SameCoresAndWalks.modDie ⟨rfl, rfl, rfl⟩ _ _
  have has : s2.cores.has q.focus.core = true := by
    obtain ⟨-, -, cores⟩ := same
    rw [cores]
    exact hc
  let strip := stripOf (physOf q.focus.core)
  refine ⟨_, Config.freeVictim (s2.free + 1), same.modDie w.die fun d =>
    { d with stlbs := d.stlbs.set strip (stlbInstall (d.stlbs.getD strip []) e (Config.freeVictim s2.free)) },
    congrArg (fun u : State => u.tick.tick) ((if_neg (by simp [has])).trans rfl)⟩

theorem stripFound_of_only (hj : w.joined = [q]) (hc : s.cores.has q.focus.core = true) :
    ∃ v, s.stripFound id w e = (s.answerWalk id q e v).tick := by
  simp only [State.stripFound, hj, List.foldl_cons, List.foldl_nil]
  exact ⟨_, congrArg State.tick ((if_neg (by simp [hc])).trans rfl)⟩

/-- A walk that has found its page, or a hit, answers its one request. -/
theorem walkAnswered_of_found (hd : w.dropped = false) (hw : s.walks = []) (hj : w.joined = [q]) (hc : s.cores.has q.focus.core = true)
    (h : (w.stage = .walking ∧ s.walkPage w.core w.ctx w.va = .found e) ∨ (w.stage = .hit ∧ tlbFind (s.stlb w.core) w.ctx w.va = some e)) :
    ∃ (u : State) (v n : Nat), SameCoresAndWalks s u ∧ s.walkAnswered id w = { u.answerWalk id q e v with free := n } := by
  unfold State.walkAnswered
  rw [hd, if_neg (by decide)]
  rcases h with ⟨stage, page⟩ | ⟨stage, hit⟩
  · obtain ⟨u, v, same, found⟩ := walkFound_of_only (id := id) (e := e) hw hj hc
    rw [stage, if_neg (by decide), page]
    exact ⟨u, v, _, same, found⟩
  · obtain ⟨v, found⟩ := stripFound_of_only (id := id) (e := e) hj hc
    rw [if_pos stage, hit]
    exact ⟨s, v, _, ⟨rfl, rfl, rfl⟩, found⟩

theorem completes_tlbWalkComplete_of_found (hw : s.walks = [(id, w)]) (hj : w.joined = [q]) (hd : w.dropped = false)
    (hc : s.cores.has q.focus.core = true)
    (h : (w.stage = .walking ∧ s.walkPage w.core w.ctx w.va = .found e) ∨ (w.stage = .hit ∧ tlbFind (s.stlb w.core) w.ctx w.va = some e)) :
    Completes (.tlbWalkComplete id) s fun t =>
      t.walks = [] ∧ e ∈ (t.core q.focus.core).mem.tlb ∧ t.mem = s.mem ∧
      (q.focus.stream = .group → ((s.core q.focus.core).group q.focus.slot).hold.any (fun h => decide (h.wait = .walk id)) = true →
        ((t.core q.focus.core).group q.focus.slot).hold = none) := by
  obtain ⟨u, v, n, ⟨sameMem, sameWalks, sameCores⟩, answered⟩ :=
    walkAnswered_of_found (s := { s with walks := [] }) (id := id) hd rfl hj hc h
  obtain ⟨mem, walks, entry, hold⟩ := u.answerWalk_spec id q e v
  have core : u.core q.focus.core = s.core q.focus.core := congrArg (fun m : FMap Core => m.getD q.focus.core Core.empty) sameCores
  rw [core] at hold
  have left : ({ s with walks := [] }.walkAnswered id w).walks = [] := by
    rw [answered]
    exact walks.trans sameWalks
  refine ⟨_, exec_tlbWalkComplete_of_only hw left, left, ?_⟩
  rw [answered]
  exact ⟨entry, mem.trans sameMem, hold⟩

/-- R399: a walk that a shootdown has dropped installs nothing. -/
theorem completes_tlbWalkComplete_of_dropped (hw : s.walks = [(id, w)]) (hj : w.joined = [q]) (hd : w.dropped = true) :
    Completes (.tlbWalkComplete id) s fun t => t.walks = [] ∧ t.dies = s.dies ∧ t.mem = s.mem ∧
      (t.core q.focus.core).mem.tlb = (s.core q.focus.core).mem.tlb := by
  let u : State := { s with walks := [] }
  have answered : u.walkAnswered id w = if u.walkAwaited id q then u.at q.focus fun s => s.walkOver id else u := by
    simp only [State.walkAnswered, hd, hj, List.foldl_cons, List.foldl_nil, if_true]
  obtain ⟨-, mem, walks, dies, tlb⟩ := ({ u with cur := q.focus } : State).walkOver_keeps id
  have kept : (u.walkAnswered id w).walks = [] ∧ (u.walkAnswered id w).dies = s.dies ∧ (u.walkAnswered id w).mem = s.mem ∧
      ((u.walkAnswered id w).core q.focus.core).mem.tlb = (s.core q.focus.core).mem.tlb := by
    rw [answered]
    split
    · exact ⟨walks, dies, mem, tlb _⟩
    · exact ⟨rfl, rfl, rfl, rfl⟩
  exact ⟨_, exec_tlbWalkComplete_of_only hw kept.1, kept⟩

end

/-- Page walks end. -/
theorem walkEventsHold : WalkEventsHold := fun _ _ _ _ _ hw hj =>
  ⟨fun hd hc h => completes_tlbWalkComplete_of_found hw hj hd hc h, fun hd => completes_tlbWalkComplete_of_dropped hw hj hd⟩

/-- Settles O41: an access is performed and answered, and a walk ends, as the lemmas of the events say. -/
theorem accessAndWalkEvents : Obligations.AccessAndWalkEvents := ⟨accessEventsHold, walkEventsHold⟩

end Sys2Proof.Machine

/-! ## O7: the job registers, NOP, LAND and RDPCC (R54, R67, R76, R129, R145, R188) -/

namespace Sys2Proof.Machine

/-! ### Lists in an order -/

theorem insertBy_perm {α : Type} (le : α → α → Bool) (x : α) (l : List α) : (insertBy le x l).Perm (x :: l) := by
  induction l with
  | nil => exact .refl _
  | cons y l ih =>
    rw [insertBy]
    split
    · exact .refl _
    · exact (ih.cons y).trans (.swap x y l)

theorem sortBy_perm {α : Type} (le : α → α → Bool) (l : List α) : (sortBy le l).Perm l := by
  induction l with
  | nil => exact .refl _
  | cons x l ih => exact (insertBy_perm le x _).trans (ih.cons x)

theorem pairwise_insertBy {α : Type} (f : α → Nat) (x : α) {l : List α} (h : l.Pairwise fun a b => f a ≤ f b) :
    (insertBy (fun a b => decide (f a ≤ f b)) x l).Pairwise fun a b => f a ≤ f b := by
  induction l with
  | nil => simp [insertBy]
  | cons y l ih =>
    obtain ⟨first, rest⟩ := List.pairwise_cons.mp h
    rw [insertBy]
    split
    case isTrue hxy =>
      have hxy : f x ≤ f y := of_decide_eq_true hxy
      refine List.pairwise_cons.mpr ⟨fun z hz => ?_, h⟩
      rcases List.mem_cons.mp hz with rfl | hz
      · exact hxy
      · exact hxy.trans (first z hz)
    case isFalse hxy =>
      refine List.pairwise_cons.mpr ⟨fun z hz => ?_, ih rest⟩
      rcases List.mem_cons.mp ((insertBy_perm _ x l).mem_iff.mp hz) with rfl | hz
      · exact (Nat.lt_of_not_le (by simpa using hxy)).le
      · exact first z hz

/-- A list sorted by a key has its keys ascending. -/
theorem pairwise_sortBy {α : Type} (f : α → Nat) (l : List α) :
    (sortBy (fun a b => decide (f a ≤ f b)) l).Pairwise fun a b => f a ≤ f b := by
  induction l with
  | nil => exact List.Pairwise.nil
  | cons x l ih => exact pairwise_insertBy f x ih

/-! ### The job registers at the end of a cycle (R67, R129) -/

/-- The job registers after pending writes in the order of a list. -/
def writeJobRegs (j : Vector Word 16) (l : List (Nat × Nat × Word)) : Vector Word 16 :=
  l.foldl (fun (v : Vector Word 16) (w : Nat × Nat × Word) => v.set (w.2.1 % 16) w.2.2 (by omega)) j

theorem writeJobRegs_cons (j : Vector Word 16) (w : Nat × Nat × Word) (l : List (Nat × Nat × Word)) :
    writeJobRegs j (w :: l) = writeJobRegs (j.set (w.2.1 % 16) w.2.2 (by omega)) l := rfl

theorem writeJobRegs_of_none {l : List (Nat × Nat × Word)} {n : Nat} (hn : n < 16) (j : Vector Word 16)
    (h : ∀ w ∈ l, w.2.1 % 16 ≠ n) : (writeJobRegs j l)[n] = j[n] := by
  induction l generalizing j with
  | nil => rfl
  | cons w l ih =>
    obtain ⟨hw, hl⟩ := List.forall_mem_cons.mp h
    exact (ih _ hl).trans (Vector.getElem_set_ne _ _ hw)

/-- Of writes in ascending rank, the one of the highest rank is the last. -/
theorem writeJobRegs_of_last {l : List (Nat × Nat × Word)} {rank n : Nat} {v : Word} (hn : n < 16) (j : Vector Word 16)
    (ascending : l.Pairwise fun a b => a.1 ≤ b.1) (hw : (rank, n, v) ∈ l)
    (last : ∀ w ∈ l, w.2.1 % 16 = n → w = (rank, n, v) ∨ w.1 < rank) : (writeJobRegs j l)[n] = v := by
  induction l generalizing j with
  | nil => cases hw
  | cons x l ih =>
    obtain ⟨first, rest⟩ := List.pairwise_cons.mp ascending
    obtain ⟨-, lastRest⟩ := List.forall_mem_cons.mp last
    by_cases hl : (rank, n, v) ∈ l
    · exact ih _ rest hl lastRest
    · obtain rfl : (rank, n, v) = x := (List.mem_cons.mp hw).resolve_right hl
      have none : ∀ w ∈ l, w.2.1 % 16 ≠ n := fun w hwl hwn => by
        rcases lastRest w hwl hwn with rfl | lower
        · exact hl hwl
        · exact absurd (first w hwl) (Nat.not_le.mpr lower)
      rw [writeJobRegs_cons, writeJobRegs_of_none hn _ none]
      simp [Nat.mod_eq_of_lt hn]

theorem landJobRegs_j (c : Core) : c.landJobRegs.j = writeJobRegs c.j (sortBy (fun a b => decide (a.1 ≤ b.1)) c.jpend) := rfl

/-- Two cores have the same job registers and the same writes of them pending. -/
def Core.SameJobRegs (c d : Core) : Prop := d.j = c.j ∧ d.jpend = c.jpend

theorem Core.SameJobRegs.refl (c : Core) : c.SameJobRegs c := ⟨rfl, rfl⟩

theorem Core.SameJobRegs.trans {c d e : Core} (h : c.SameJobRegs d) (g : d.SameJobRegs e) : c.SameJobRegs e :=
  ⟨g.1.trans h.1, g.2.trans h.2⟩

theorem Core.SameJobRegs.foldl {α : Type} {f : Core → α → Core} (h : ∀ (c : Core) (a : α), c.SameJobRegs (f c a)) (l : List α) (c : Core) :
    c.SameJobRegs (l.foldl f c) := by
  induction l generalizing c with
  | nil => exact .refl c
  | cons a l ih => exact (h c a).trans (ih (f c a))

theorem sameJobRegs_landGroup (c : Core) (slot now : Nat) : c.SameJobRegs (c.landGroup slot now) := by
  have land (c : Core) (e : VEffect) : c.SameJobRegs (c.land now e) := by
    cases e with
    | spm l => exact Core.SameJobRegs.foldl (f := fun (c : Core) (w : Nat × Nat × Nat) => c.writeSpm w.1 w.2.1 w.2.2) (fun _ _ => ⟨rfl, rfl⟩) l c
    | _ => exact ⟨rfl, rfl⟩
  unfold Core.landGroup
  dsimp only
  split
  · exact .refl c
  · exact Core.SameJobRegs.foldl (f := fun (c : Core) (w : VWrite) => (c.modGroup slot fun g => g.land w.eff).land now w.eff)
      (fun c w => .trans (d := c.modGroup slot fun g => g.land w.eff) ⟨rfl, rfl⟩ (land _ w.eff)) _ c

theorem sameJobRegs_drainWrite (c : Core) (now : Nat) (d : MDrain) : c.SameJobRegs (c.drainWrite now d).1 := by
  unfold Core.drainWrite
  split
  · split
    · dsimp only
      split
      · split <;> exact ⟨rfl, rfl⟩
      · exact ⟨rfl, rfl⟩
    · exact .refl c
  · exact .refl c

theorem sameJobRegs_cycleDrainWrites (c : Core) (now : Nat) : c.SameJobRegs (c.cycleDrainWrites now) := by
  have writes (l : List MDrain) (st : Core × List MDrain) :
      st.1.SameJobRegs (l.foldl (fun st d => ((st.1.drainWrite now d).1, st.2 ++ [(st.1.drainWrite now d).2])) st).1 := by
    induction l generalizing st with
    | nil => exact .refl _
    | cons d l ih => exact (sameJobRegs_drainWrite st.1 now d).trans (ih _)
  exact writes c.matrix.drains (c, [])

theorem sameJobRegs_cyclePops (c : Core) (now : Nat) : c.SameJobRegs (c.cyclePops now) := by
  have pop (c : Core) (p : Option Nat) : c.SameJobRegs (match p with
      | some p => c.modPort p Port.pop
      | none => c) := by
    cases p <;> exact ⟨rfl, rfl⟩
  exact Core.SameJobRegs.foldl (fun c (r : MRow) => (pop c r.aport).trans (pop _ r.sport)) _ c

theorem sameJobRegs_matrixCycle (c : Core) (now : Nat) : c.SameJobRegs (c.matrixCycle now) := by
  unfold Core.matrixCycle
  split
  · exact .refl c
  · have drains : c.SameJobRegs ((c.cycleDrainReads now).cycleDrainWrites now) :=
      .trans (d := c.cycleDrainReads now) ⟨rfl, rfl⟩ (sameJobRegs_cycleDrainWrites _ now)
    dsimp only
    generalize (c.cycleDrainReads now).cycleDrainWrites now = d at drains ⊢
    refine .trans (drains.trans ?_) (sameJobRegs_cyclePops _ now)
    exact .trans (d := { d with matrix := (d.matrix.cycleRows now).cycleZeroings now }) ⟨rfl, rfl⟩
      (Core.SameJobRegs.foldl (f := Core.landLoad) (fun _ _ => ⟨rfl, rfl⟩) _ _)

theorem sameJobRegs_requestHead (c : Core) : c.SameJobRegs c.requestHead := by
  unfold Core.requestHead
  split <;> exact ⟨rfl, rfl⟩

theorem sameJobRegs_beginTableHold (c : Core) (now : Nat) : c.SameJobRegs (c.beginTableHold now) := by
  unfold Core.beginTableHold
  split <;> exact ⟨rfl, rfl⟩

/-- Of the work of a cycle's end, only the landing of the pending writes changes the job registers. -/
theorem sameJobRegs_endCycle (c : Core) (now : Nat) : c.landJobRegs.SameJobRegs (c.endCycle now) := by
  unfold Core.endCycle
  dsimp only
  refine .trans ?_ (sameJobRegs_beginTableHold _ now)
  refine .trans (d := Core.requestHead _) (.trans ?_ (sameJobRegs_requestHead _)) ⟨rfl, rfl⟩
  refine .trans (d := Core.matrixCycle _ now) (.trans ?_ (sameJobRegs_matrixCycle _ now)) ⟨rfl, rfl⟩
  exact .trans (d := { c.landJobRegs with spmOld := [] }) ⟨rfl, rfl⟩ (Core.SameJobRegs.foldl (fun c n => sameJobRegs_landGroup c n now) _ _)

theorem jreg_endCycle (c : Core) (now : Nat) (n : Fin 16) :
    (c.endCycle now).jreg n = (writeJobRegs c.j (sortBy (fun a b => decide (a.1 ≤ b.1)) c.jpend))[n.val] := by
  obtain ⟨j, -⟩ := sameJobRegs_endCycle c now
  unfold Core.jreg
  simp only [j, landJobRegs_j, Nat.mod_eq_of_lt n.isLt]

theorem jreg_eq (c : Core) (n : Fin 16) : c.jreg n = c.j[n.val] := by
  unfold Core.jreg
  simp only [Nat.mod_eq_of_lt n.isLt]

theorem jreg_endCycle_of_none (c : Core) (now : Nat) (n : Fin 16) (h : ∀ w ∈ c.jpend, w.2.1 % 16 ≠ n.val) :
    (c.endCycle now).jreg n = c.jreg n := by
  rw [jreg_endCycle, jreg_eq]
  exact writeJobRegs_of_none n.isLt _ fun w hw => h w ((sortBy_perm _ _).mem_iff.mp hw)

/-- R67: of the writes of one job register in a cycle, that of the highest slot takes place last. -/
theorem jreg_endCycle_of_last (c : Core) (now rank : Nat) (n : Fin 16) (v : Word) (hw : (rank, n.val, v) ∈ c.jpend)
    (last : ∀ w ∈ c.jpend, w.2.1 % 16 = n.val → w = (rank, n.val, v) ∨ w.1 < rank) : (c.endCycle now).jreg n = v := by
  rw [jreg_endCycle]
  exact writeJobRegs_of_last n.isLt _ (pairwise_sortBy _ _) ((sortBy_perm _ _).mem_iff.mpr hw) fun w hw =>
    last w ((sortBy_perm _ _).mem_iff.mp hw)

/-! ### The forms -/

/-- Settles O7: the pending writes are sorted by rank as they land (`jreg_endCycle_of_last`). -/
theorem smallScalarForms : Obligations.SmallScalarForms := by
  intro d a h x s
  refine ⟨fun hs ha => ⟨_, ?_, scalarWrote_finishWrite _ _ _ _⟩, fun hs hd => ⟨(s.modHere fun c => c.jwrite s.jrank d.toNat (s.x a)).finish id, ?_, ?_⟩,
    fun hs => ⟨_, ?_, finished_finish s⟩,
    fun hs => ⟨_, ?_, finished_finish s⟩, fun hs => ⟨_, ?_, scalarWrote_finishWrite _ _ _ _⟩, ?_, fun c now rank n v =>
      ⟨fun _ _ => rfl, (sameJobRegs_endCycle c now).2, jreg_endCycle_of_none c now n, jreg_endCycle_of_last c now rank n v⟩⟩
  · show execJget d a s = _
    rw [execJget, onStreams_of_admits hs, withFields_of_admits hs]
    exact check_of_true _ _ _ _ (decide_eq_true ha)
  · show execJset d a s = _
    rw [execJset, onStreams_of_admits hs, withFields_of_admits hs, jFieldOk, check_of_true _ _ _ _ (decide_eq_true hd), withReads_of_admits hs]
  · have finished := finished_finish (s.modHere fun c => c.jwrite s.jrank d.toNat (s.x a))
    rwa [Finished, State.scalar_modHere s rfl rfl] at finished
  · show execNop s = _
    rw [execNop, onStreams_of_admits hs]
  · show execLand s = _
    rw [execLand, onStreams_of_admits hs]
  · show execRdpcc d s = _
    rw [execRdpcc, onStreams_of_admits hs, withFields_of_admits hs]
  · show 0xD4006000 + d.toNat * 2097152 = _
    rfl

end Sys2Proof.Machine

/-! ## O29: the waits, MSTOP, FMTQ, STITCH and ERUN (R150, R153-R155, R157, R159, R160, R162, R229) -/

namespace Sys2Proof.Machine

/-- The end of an instruction of a group changes the groups of its core and nothing else of it. -/
theorem State.here_finish_of_group {s : State} (hs : s.cur.stream = .group) (f : Scalar → Scalar) :
    ∃ groups, (s.finish f).here = { s.here with groups } := by
  simp only [State.finish, State.modScalar, State.clearHold, State.modGrp, State.modHere_cur, hs, State.here_modHere]
  exact ⟨_, rfl⟩

/-! ### Waits -/

section
variable {d a b : BitVec 5} {h : BitVec 3} {s : State}

theorem exec_vwait_of_free (hs : Admits s true false false [] []) (hv : s.grp.v.busy = false) :
    exec (.vwait d h) s = .next (s.finishWrite d 1 fun _ => s.grp.ret) := by
  show execVwait d s = _
  rw [execVwait, onStreams_of_admits hs, hv]
  rfl

theorem exec_mwait_of_idle (hs : Admits s true false false [] []) (hrun : s.here.matrix.run = none) (hrows : s.here.matrix.rows = [])
    (hdrains : s.here.matrix.drains = []) :
    exec (.mwait d h) s = .next (s.finishWrite d 1 fun _ => s.here.matrix.mflags.setWidth 64) := by
  show execMwait d s = _
  rw [execMwait, onStreams_of_admits hs]
  simp [Matrix.idle, hrun, hrows, hdrains, BitVec.ofNat_toNat]

theorem exec_stitch_of_demand {v : Word} {rest : List Word} (hs : Admits s true false false [] []) (hc : s.here.job.compat = false)
    (hold : s.holding = none) (hd : s.here.demands = v :: rest) :
    exec (.stitch d h) s = .next ((s.modHere fun c => { c with demands := rest, places := c.places - 1 }).finishWrite d 1 fun _ => v) := by
  show execStitch d s = _
  rw [execStitch, onStreams_of_admits hs, notCompat, check_of_true _ _ _ _ (by simp [hc]), hold]
  dsimp only
  rw [hd]
  rfl

/-- CWAIT on a count that is reached is done, whether or not it has waited for it (R155). -/
theorem exec_cwait_of_reached {u : BitVec 4} (hs : Admits s true false false [] [a])
    (hr : countReached (s.here.chan (u.toNat - 2)).cc ((s.x a).setWidth 32) = true) : exec (.cwait a u h) s = .next (s.finish id) := by
  show execCwait a u s = _
  rw [execCwait, onStreams_of_admits hs, withReads_of_admits hs]
  dsimp only
  split
  · rfl
  · rw [if_pos hr]

theorem exec_cwaitCont_of_reached {n : BitVec 2} {o : BitVec 13} (hs : Admits s true false false [] [a]) (hold : s.holding = none)
    (hr : countReached (s.here.chan n.toNat).cc ((s.x a).setWidth 32) = true) :
    exec (.cwaitCont n a o) s = .next (s.jump (s.scalar.pc + o.signExtend 64 * 4) 3 id) := by
  show execCwaitCont n a o s = _
  rw [execCwaitCont, onStreams_of_admits hs, withReads_of_admits hs, hold]
  exact if_pos hr

/-! ### MSTOP (R153) -/

theorem exec_mstop_of_none (hs : Admits s true false false [] []) (hrun : s.here.matrix.run = none) :
    exec (.mstop h) s = .next (s.finish id) := by
  show execMstop s = _
  rw [execMstop, onStreams_of_admits hs, hrun]

theorem exec_mstop_of_run {r : MRun} (hs : Admits s true false false [] []) (hrun : s.here.matrix.run = some r) :
    exec (.mstop h) s = check (!r.treadle) causeOperand s (.next ((s.modHere fun c =>
      { c.dropUnissued with
        matrix := { c.matrix with run := some { r with ended := true, seg := none, ea := none }, window := none } }).finish id)) := by
  show execMstop s = _
  rw [execMstop, onStreams_of_admits hs, hrun]

theorem completes_mstop_of_run {r : MRun} (hs : Admits s true false false [] []) (hrun : s.here.matrix.run = some r)
    (ht : r.treadle = false) :
    Completes (.mstop h) s fun t =>
      t.here.matrix.run = some { r with ended := true, seg := none, ea := none } ∧ t.scalar.pc = s.scalar.pc + 4 ∧
      t.scalar.rf = s.scalar.rf ∧ t.here.matrix.acc = s.here.matrix.acc := by
  refine ⟨_, (exec_mstop_of_run hs hrun).trans (check_of_true _ _ _ _ (by simp [ht])), ?_⟩
  dsimp only
  rw [(State.here_finish _ _).1, State.here_modHere, State.scalar_finish, State.scalar_modHere s rfl rfl]
  exact ⟨rfl, rfl, rfl, rfl⟩

/-! ### FMTQ (R160, R229) -/

theorem formatOk_iff (w : Word) :
    formatOk w = true ↔ w.toNat / 2 ^ 20 % 2 ^ 12 = 0 ∧ w.toNat / 2 ^ 16 % 8 ≤ 5 ∧ w.toNat / 2 ^ 12 % 4 ≠ 3 ∧
      w.toNat / 2 ^ 10 % 4 ≤ 1 ∧ w.toNat / 2 ^ 4 % 64 = 0 := by
  simp only [formatOk, Bool.and_eq_true, decide_eq_true_eq, and_assoc]
  rfl

theorem formatCompat_of_codes {w : Word} (h : w.toNat / 4 % 4 ≠ 3 ∧ w.toNat % 4 ≠ 3) : formatCompat w = true := by
  have low : fld w.toNat 1 0 = w.toNat % 4 := by
    show w.toNat / 2 ^ 0 % 2 ^ 2 = _
    simp only [Nat.pow_zero, Nat.div_one, Nat.reducePow]
  rw [formatCompat, low]
  exact Bool.and_eq_true_iff.mpr ⟨decide_eq_true h.1, decide_eq_true h.2⟩

theorem exec_fmtq_of_codes (hs : Admits s true false false [] [a])
    (hc : s.here.job.compat = false ∨ (s.x a).toNat / 4 % 4 ≠ 3 ∧ (s.x a).toNat % 4 ≠ 3) :
    exec (.fmtq a h) s = check (formatOk (s.x a)) causeOperand s
      (if s.here.matrix.fq.length ≥ 16 then .next (s.holdFor .resource)
       else .next ((s.modHere fun c => { c with matrix := { c.matrix with fq := c.matrix.fq ++ [⟨s.x a, s.pcc + 2⟩] } }).finish id)) := by
  have codes : (!s.here.job.compat || formatCompat (s.x a)) = true := by
    rcases hc with hc | hc
    · simp [hc]
    · simp [formatCompat_of_codes hc]
  show execFmtq a s = _
  rw [execFmtq, onStreams_of_admits hs, withReads_of_admits hs, check_of_true _ _ _ _ codes]

/-! ### ERUN (R159) -/

/-- The eft stream started at an address, with e1 and the address of its end (R159). -/
def Eft.started (e : Eft) (pc arg endPc : Word) (owner now : Nat) : Eft :=
  { e with
    sc := { e.sc with pc, rf := e.sc.rf.put 1 arg, ready := e.sc.ready.del 1, nextIssue := now + 1 }
    running := decide (pc ≠ endPc), endPc, owner, trapped := false, orphan := false }

theorem exec_erun_of_idle (hs : Admits s true false false [] [d, a, b]) (he : s.here.eft.running = false)
    (hp : ∀ i : Fin 16, s.here.ports[i].ldqs = []) :
    exec (.erun d a b h) s =
      if (s.x a).toNat % 4 ≠ 0 then .next (s.raiseTrap { cause := 0x08, addr := s.x a })
      else .next ((s.modHere fun c => { c with eft := c.eft.started (s.x a) (s.x b) (s.x d) s.cur.slot s.pcc }).finish id) := by
  have idle : s.here.eftIdle = true := by
    rw [Core.eftIdle, he, Bool.not_false, Bool.true_and, Vector.all_eq_true]
    exact fun i hi => decide_eq_true (hp ⟨i, hi⟩)
  show execErun d a b s = _
  rw [execErun, onStreams_of_admits hs, withReads_of_admits hs, if_neg (by simp [idle])]
  rfl

theorem completes_erun (hs : Admits s true false false [] [d, a, b]) (he : s.here.eft.running = false)
    (hp : ∀ i : Fin 16, s.here.ports[i].ldqs = []) (ha : (s.x a).toNat % 4 = 0) :
    Completes (.erun d a b h) s fun t =>
      t.here.eft.sc.pc = s.x a ∧ t.here.eft.sc.rf.get 1 = s.x b ∧ (∀ m, m ≠ 1 → t.here.eft.sc.rf.get m = s.here.eft.sc.rf.get m) ∧
      t.here.eft.endPc = s.x d ∧ t.here.eft.running = decide (s.x a ≠ s.x d) ∧ t.here.eft.owner = s.cur.slot ∧
      t.scalar.pc = s.scalar.pc + 4 ∧ t.scalar.rf = s.scalar.rf ∧ t.here.spm = s.here.spm ∧
      ∀ k, Memory.read t.mem k = Memory.read s.mem k := by
  have group := stream_of_admits_group hs
  let s1 := s.modHere fun c => { c with eft := c.eft.started (s.x a) (s.x b) (s.x d) s.cur.slot s.pcc }
  have scalar : s1.scalar = s.scalar := by
    rw [State.scalar_of_group group, State.scalar_of_group (s := s1) group]
    exact congrArg Group.sc (State.grp_modHere s _ fun _ => rfl)
  obtain ⟨groups, here⟩ := State.here_finish_of_group (s := s1) group id
  have eft : (s1.finish id).here.eft = s.here.eft.started (s.x a) (s.x b) (s.x d) s.cur.slot s.pcc := by
    rw [here, State.here_modHere]
  have spm : (s1.finish id).here.spm = s.here.spm := by rw [here, State.here_modHere]
  refine ⟨s1.finish id, (exec_erun_of_idle hs he hp).trans (if_neg (not_not_intro ha)), ?_⟩
  dsimp only
  rw [eft, spm, State.scalar_finish, scalar]
  refine ⟨rfl, ?_, fun m hm => ?_, rfl, rfl, rfl, rfl, rfl, rfl, fun k => by simp [s1]⟩
  · exact (RegFile.get_put _ _ _ _).trans (if_pos ⟨rfl, by decide⟩)
  · exact (RegFile.get_put _ _ _ _).trans (if_neg fun h => hm h.1)

end

/-- Settles O29: each form is the branch of its function that its state selects. -/
theorem engineForms : Obligations.EngineForms := by
  intro d a b u n o h s c reached
  refine ⟨fun hs => ⟨fun hv => ⟨_, exec_vwait_of_free hs hv, scalarWrote_finishWrite _ _ _ _⟩,
      fun hrun hrows hdrains => ⟨_, exec_mwait_of_idle hs hrun hrows hdrains, scalarWrote_finishWrite _ _ _ _⟩,
      fun hrun => ⟨_, exec_mstop_of_none hs hrun, finished_finish s⟩, fun r => completes_mstop_of_run hs,
      fun r hrun ht => (exec_mstop_of_run hs hrun).trans (check_of_false _ _ _ _ (by simp [ht])),
      fun v rest hc hold hd => ⟨_, exec_stitch_of_demand hs hc hold hd, scalarWrote_finishWrite _ _ _ _⟩⟩,
    fun hs => ⟨fun k _ hu hr => ?_, fun hold hr => ⟨_, exec_cwaitCont_of_reached hs hold (decide_eq_true hr), scalarJumped_jump _ _ _⟩,
      fun hc => ⟨fun ok room => ⟨_, ?_, finished_finish _⟩, fun bad => ?_⟩⟩,
    fun hs he hp => ⟨fun ha => (exec_erun_of_idle hs he hp).trans (if_pos ha), completes_erun hs he hp⟩⟩
  · refine ⟨_, exec_cwait_of_reached hs (decide_eq_true ?_), finished_finish s⟩
    rw [hu]
    exact hr
  · exact (exec_fmtq_of_codes hs hc).trans ((check_of_true _ _ _ _ ((formatOk_iff _).mpr ok)).trans (if_neg (Nat.not_le.mpr room)))
  · exact (exec_fmtq_of_codes hs hc).trans (check_of_false _ _ _ _ (by rw [Bool.eq_false_iff]; exact fun ok => bad ((formatOk_iff _).mp ok)))

end Sys2Proof.Machine

/-! ## O31: register blocks acquired and released (R169-R171, R268, R270) -/

namespace Sys2Proof.Machine

/-! ### Blocks given to a group -/

/-- A table from which every entry of a key is filtered has none. -/
theorem FMap.get_filter_eq_none {α : Type} {m : FMap α} {p : Nat × α → Bool} {k : Nat} (h : ∀ v, p (k, v) = false) :
    FMap.get (m.filter p) k = none := by
  induction m with
  | nil => rfl
  | cons x m ih =>
    obtain ⟨a, v⟩ := x
    rw [List.filter_cons]
    split
    case isFalse => exact ih
    case isTrue kept =>
      have other : k ≠ a := by
        rintro rfl
        simp [h v] at kept
      simpa [FMap.get, other] using ih

theorem has_foldl_set {α : Type} (l : List Nat) (v : α) (m : FMap α) (k : Nat) :
    (l.foldl (fun m b => FMap.set m b v) m).has k = (m.has k || l.contains k) := by
  induction l generalizing m with
  | nil => simp
  | cons b l ih =>
    rw [List.foldl_cons, ih, List.contains_cons]
    by_cases hb : k = b
    · simp [hb, FMap.has_set_same]
    · simp [FMap.has, FMap.get_set_other _ _ _ _ hb, beq_eq_false_iff_ne.mpr hb]

theorem group_giveBlocks (c : Core) (slot : Nat) (bs : List Nat) :
    (c.giveBlocks slot bs).group slot =
      { c.group slot with
        blocks := bs.foldl (fun m b => FMap.set m b .awaited) (c.group slot).blocks
        vregs := (c.group slot).vregs.filter fun r => !bs.contains (r.1 / 4)
        vpoison := (c.group slot).vpoison.filter fun r => !bs.contains (r / 256 / 4) } :=
  FMap.getD_set_same _ _ _ _

theorem has_blocks_giveBlocks (c : Core) (slot : Nat) (bs : List Nat) (n : Nat) :
    ((c.giveBlocks slot bs).group slot).blocks.has n = ((c.group slot).blocks.has n || bs.contains n) := by
  rw [group_giveBlocks]
  exact has_foldl_set bs _ _ n

/-- R170: the registers of a block that is given read as zero. -/
theorem vreg_giveBlocks (c : Core) (slot : Nat) {bs : List Nat} {n : Nat} (hn : n / 4 ∈ bs) :
    ((c.giveBlocks slot bs).group slot).vreg n = 0 := by
  rw [group_giveBlocks, Group.vreg, FMap.getD]
  dsimp only
  rw [FMap.get_filter_eq_none fun v => by simp [hn]]
  rfl

/-! ### Requests served -/

/-- Two cores whose groups have the same scalar streams and waits. -/
def Core.SameScalars (c d : Core) : Prop := ∀ n, (d.group n).sc = (c.group n).sc ∧ (d.group n).hold = (c.group n).hold

theorem Core.SameScalars.refl (c : Core) : c.SameScalars c := fun _ => ⟨rfl, rfl⟩

theorem Core.SameScalars.trans {c d e : Core} (h : c.SameScalars d) (g : d.SameScalars e) : c.SameScalars e :=
  fun n => ⟨(g n).1.trans (h n).1, (g n).2.trans (h n).2⟩

theorem Core.SameScalars.of_groups {c d : Core} (h : d.groups = c.groups) : c.SameScalars d := fun n => by simp [Core.group, h]

theorem Core.SameScalars.modGroup (c : Core) (slot : Nat) {f : Group → Group} (h : ∀ g, (f g).sc = g.sc ∧ (f g).hold = g.hold) :
    c.SameScalars (c.modGroup slot f) := by
  intro n
  by_cases hn : n = slot
  · rw [hn, Core.group_modGroup_same]
    exact h _
  · rw [Core.group_modGroup_other _ _ _ _ hn]
    exact ⟨rfl, rfl⟩

theorem sameScalars_giveBlocks (c : Core) (slot : Nat) (bs : List Nat) : c.SameScalars (c.giveBlocks slot bs) :=
  fun n => by
    by_cases hn : n = slot
    · rw [hn, group_giveBlocks]
      exact ⟨rfl, rfl⟩
    · rw [show (c.giveBlocks slot bs).group n = c.group n from FMap.getD_set_other _ _ _ _ _ hn]
      exact ⟨rfl, rfl⟩

theorem sameScalars_exchange (c : Core) (slot block : Nat) (place : Place) (vs vb : Nat) :
    c.SameScalars (Core.serveBlocks.exchange c slot block place vs vb).1 := by
  unfold Core.serveBlocks.exchange
  split <;> exact .of_groups rfl

/-- Requests for blocks change places and the transfer path only (R270). -/
theorem sameScalars_serveBlocks (c : Core) (n : Nat) : c.SameScalars (c.serveBlocks n).1 := by
  induction n generalizing c with
  | zero => exact .refl c
  | succ n ih =>
    rw [Core.serveBlocks]
    split
    · exact .refl c
    split
    · exact .refl c
    next slot block rest _ =>
      have dropped (d : Core) (hd : d.groups = c.groups) : c.SameScalars (d.serveBlocks n).1 := .trans (.of_groups hd) (ih d)
      dsimp only
      split
      · exact dropped _ rfl
      · exact dropped _ rfl
      split
      · split
        · refine .trans (.trans (d := { c with sched := { c.sched with requests := rest } }) (.of_groups rfl) ?_) (ih _)
          exact Core.SameScalars.modGroup _ slot fun _ => ⟨rfl, rfl⟩
        · exact .of_groups rfl
      split
      · exact .refl c
      split
      · exact .of_groups rfl
      · exact .of_groups rfl
      · exact sameScalars_exchange _ _ _ _ _ _

theorem State.here_serveBlocks (s : State) : (s.serveBlocks s.cur.core).here = (s.here.serveBlocks 64).1 := by
  unfold State.serveBlocks
  dsimp only
  split <;> exact State.core_setCore_same _ _ _

@[simp] theorem State.serveBlocks_cur (s : State) (core : Nat) : (s.serveBlocks core).cur = s.cur := by
  unfold State.serveBlocks
  dsimp only
  split <;> rfl

/-- A group that begins to wait changes no more than its wait. -/
theorem State.grp_holdFor_of_group {s : State} (hs : s.cur.stream = .group) (w : Wait) :
    ∃ since, (s.holdFor w).grp = { s.grp with hold := some ⟨since, w, none⟩ } := by
  unfold State.holdFor
  simp only [hs, State.grp_modGrp]
  exact ⟨_, rfl⟩

/-! ### The forms -/

section
variable {d a : BitVec 5} {h : BitVec 3} {s : State}

theorem rbacqForm_of_granted {since m d' : Nat} {v : Word} (hs : Admits s true false false [] [a]) (waits : Bool)
    (hold : s.holding = some ⟨since, .blocks m d', some v⟩) (hp : s.grp.inPlace = true) :
    rbacqForm d a waits s = .next (s.finishWrite d 1 fun _ => 0) := by
  rw [rbacqForm, onStreams_of_admits hs, hold]
  exact if_pos hp

/-- A request of a group that waits for none, where its operand may be read. -/
theorem rbacqForm_of_request (hs : Admits s true false false [] [a]) (waits : Bool) (hold : s.holding = none) :
    rbacqForm d a waits s =
      check (decide ((s.x a).toNat < 8)) causeOperand s
        (if s.grp.lacking (s.x a).toNat = [] then .next (s.finishWrite d 1 fun _ => 0)
         else if s.here.heldBlocks + (s.grp.lacking (s.x a).toNat).length ≤ s.here.budget && decide (s.here.waiting Wait.blocks? = []) then
           takeBlocks d (s.grp.lacking (s.x a).toNat) (s.x a).toNat s
         else if waits then .next ((s.holdFor (.blocks (s.x a).toNat d.toNat)).swapOut)
         else .next (s.finishWrite d 1 fun _ => 1)) := by
  rw [rbacqForm, onStreams_of_admits hs, hold]
  exact withReads_of_admits hs _

theorem rbacqForm_of_mask (hs : Admits s true false false [] [a]) (waits : Bool) (hold : s.holding = none) (hm : 8 ≤ (s.x a).toNat) :
    rbacqForm d a waits s = .next (s.raiseTrap { cause := 0x02 }) :=
  (rbacqForm_of_request hs waits hold).trans (check_of_false _ _ _ _ (decide_eq_false (Nat.not_lt.mpr hm)))

theorem rbacqForm_of_held (hs : Admits s true false false [] [a]) (waits : Bool) (hold : s.holding = none) (hm : (s.x a).toNat < 8)
    (hl : s.grp.lacking (s.x a).toNat = []) : rbacqForm d a waits s = .next (s.finishWrite d 1 fun _ => 0) :=
  (rbacqForm_of_request hs waits hold).trans ((check_of_true _ _ _ _ (decide_eq_true hm)).trans (if_pos hl))

theorem rbacqForm_of_budget (hs : Admits s true false false [] [a]) (hold : s.holding = none) (hm : (s.x a).toNat < 8)
    (hl : s.grp.lacking (s.x a).toNat ≠ []) (hb : s.here.budget < s.here.heldBlocks + (s.grp.lacking (s.x a).toNat).length) :
    rbacqForm d a false s = .next (s.finishWrite d 1 fun _ => 1) := by
  refine (rbacqForm_of_request hs false hold).trans ((check_of_true _ _ _ _ (decide_eq_true hm)).trans ((if_neg hl).trans ?_))
  rw [decide_eq_false (Nat.not_le.mpr hb)]
  rfl

/-- R170: a request that the budget allows and that no other precedes is granted at once. -/
theorem rbacqForm_of_room (hs : Admits s true false false [] [a]) (waits : Bool) (hold : s.holding = none) (hm : (s.x a).toNat < 8)
    (hl : s.grp.lacking (s.x a).toNat ≠ []) (hb : s.here.heldBlocks + (s.grp.lacking (s.x a).toNat).length ≤ s.here.budget)
    (hw : s.here.waiting Wait.blocks? = []) :
    rbacqForm d a waits s = takeBlocks d (s.grp.lacking (s.x a).toNat) (s.x a).toNat s := by
  refine (rbacqForm_of_request hs waits hold).trans ((check_of_true _ _ _ _ (decide_eq_true hm)).trans ((if_neg hl).trans ?_))
  rw [decide_eq_true hb, decide_eq_true hw]
  rfl

/-- A group that has been given blocks which are still to be brought into place waits, its request granted (R170, R270). -/
theorem takeBlocks_of_spilled {r : List Nat} {mask : Nat} (hg : s.cur.stream = .group) :
    let s1 := (s.modHere fun c => c.giveBlocks s.cur.slot r).serveBlocks s.cur.core
    s1.grp.inPlace = false →
    ∃ t, takeBlocks d r mask s = .next t ∧
      t.grp.hold.map (fun g => (g.wait, g.granted)) = some (.blocks mask d.toNat, some 0) ∧ t.grp.blocks = s1.grp.blocks ∧
      t.scalar = s.scalar := by
  intro s1 hp
  have hg1 : s1.cur.stream = .group := by simpa [s1] using hg
  have scalar : s1.grp.sc = s.grp.sc := by
    have cur : s1.cur = s.cur := State.serveBlocks_cur _ _
    have given := sameScalars_giveBlocks s.here s.cur.slot r
    have served := sameScalars_serveBlocks (s.here.giveBlocks s.cur.slot r) 64
    have here : s1.here = ((s.here.giveBlocks s.cur.slot r).serveBlocks 64).1 := by
      rw [← State.here_modHere s fun c => c.giveBlocks s.cur.slot r]
      exact State.here_serveBlocks (s.modHere fun c => c.giveBlocks s.cur.slot r)
    rw [State.grp, here, cur]
    exact ((given.trans served) _).1
  obtain ⟨since, waits⟩ := State.grp_holdFor_of_group hg1 (.blocks mask d.toNat)
  refine ⟨(s1.holdFor (.blocks mask d.toNat)).modGrp fun g => { g with hold := g.hold.map fun h => { h with granted := some 0 } },
    if_neg (by simp [s1, hp]), ?_⟩
  have hg2 : (s1.holdFor (.blocks mask d.toNat)).cur.stream = .group := by rwa [State.holdFor_cur]
  rw [State.scalar_of_group (s := State.modGrp _ _) hg2, State.scalar_of_group hg, State.grp_modGrp, waits]
  exact ⟨rfl, rfl, scalar⟩

theorem exec_rbrel_of_admits (hs : Admits s true false false [] [a]) :
    exec (.rbrel a h) s = check (decide ((s.x a).toNat < 8)) causeOperand s
      (if s.grp.v.busy then .next (s.holdFor .resource)
       else .next (((s.modGrp fun g => { g with blocks := g.blocks.filter fun b =>
         !(decide (1 ≤ b.1) && decide (b.1 ≤ 3) && (s.x a).toNat.testBit (b.1 - 1)) }).regrant s.cur.core).finish id)) := by
  show execRbrel a s = _
  rw [execRbrel, onStreams_of_admits hs, withReads_of_admits hs]

end

/-- Settles O31: RBACQ and RBACQ.T are `rbacqForm`, whose branches the lemmas above select. -/
theorem blockForms : Obligations.BlockForms := by
  intro d a h s hs mask c
  refine ⟨fun hm hold => ⟨rbacqForm_of_mask hs true hold hm, rbacqForm_of_mask hs false hold hm,
      (exec_rbrel_of_admits hs).trans (check_of_false _ _ _ _ (decide_eq_false (Nat.not_lt.mpr hm)))⟩,
    fun hm hold => ⟨fun hl => ⟨⟨_, rbacqForm_of_held hs true hold hm hl, scalarWrote_finishWrite _ _ _ _⟩,
        ⟨_, rbacqForm_of_held hs false hold hm hl, scalarWrote_finishWrite _ _ _ _⟩⟩,
      fun hl hb => ⟨_, rbacqForm_of_budget hs hold hm hl hb, scalarWrote_finishWrite _ _ _ _⟩, fun hl hb hw => ?_,
      fun hv => ⟨_, ?_, finished_finish _⟩⟩,
    fun since m d' v hold hp => ⟨⟨_, rbacqForm_of_granted hs true hold hp, scalarWrote_finishWrite _ _ _ _⟩,
      ⟨_, rbacqForm_of_granted hs false hold hp, scalarWrote_finishWrite _ _ _ _⟩⟩⟩
  · intro given s1
    refine ⟨has_blocks_giveBlocks _ _ _, fun n hn => vreg_giveBlocks _ _ hn, fun hp => ?_, fun hp => ?_⟩
    · have taken : takeBlocks d (s.grp.lacking mask) mask s = .next (s1.finishWrite d 1 fun _ => 0) := if_pos hp
      exact ⟨⟨_, (rbacqForm_of_room hs true hold hm hl hb hw).trans taken, scalarWrote_finishWrite _ _ _ _⟩,
        ⟨_, (rbacqForm_of_room hs false hold hm hl hb hw).trans taken, scalarWrote_finishWrite _ _ _ _⟩⟩
    · intro waits
      obtain ⟨t, taken, waiting⟩ := takeBlocks_of_spilled (d := d) (r := s.grp.lacking mask) (mask := mask) (stream_of_admits_group hs) hp
      exact ⟨⟨t, (rbacqForm_of_room hs true hold hm hl hb hw).trans taken, waiting⟩,
        ⟨t, (rbacqForm_of_room hs false hold hm hl hb hw).trans taken, waiting⟩⟩
  · rw [exec_rbrel_of_admits hs, check_of_true _ _ _ _ (decide_eq_true hm), if_neg (by simp [hv])]

end Sys2Proof.Machine

/-! ## O32: TQPUSH, LAUNCH and a packet that joins its queue (R172, R173, R276, R345, R487) -/

namespace Sys2Proof.Machine

/-- The start of a wait is no change of the step's scalar stream. -/
@[simp] theorem State.scalar_holdFor (s : State) (w : Wait) : (s.holdFor w).scalar = s.scalar := by
  cases h : s.cur.stream <;> simp [State.holdFor, State.scalar, h]

/-! ### TQPUSH -/

section
variable {d a b : BitVec 5} {h : BitVec 3} {s : State}

theorem admits_group_of_stream (hg : s.cur.stream = .group) : Admits s true false false [] [] :=
  ⟨.inl ⟨hg, rfl⟩, by simp, by simp⟩

/-- R172: registers 30 and 31 have no three payload words behind them. -/
theorem exec_tqpush_of_last_registers (hg : s.cur.stream = .group) (hc : s.here.job.compat = false) (hb : 30 ≤ b.toNat) :
    exec (.tqpush d a b h) s = .next (s.raiseTrap { cause := 0x02 }) := by
  show execTqpush d a b s = _
  rw [execTqpush, onStreams_of_admits (admits_group_of_stream hg), notCompat, check_of_true _ _ _ _ (by simp [hc])]
  exact check_of_false _ _ _ _ (decide_eq_false (by omega))

section
variable (hs : Admits s true false false [] [a, b, b + 1, b + 2]) (hc : s.here.job.compat = false) (hb : b.toNat ≤ 29)
include hs hc hb

theorem exec_tqpush_of_record (hold : s.holding = none) :
    exec (.tqpush d a b h) s =
      check (s.hereLaunch.headerOk (s.x a)) causeOperand s (check (s.scalar.agreeOn fun r => (r.get a, r.get b, r.get (b + 1), r.get (b + 2)))
        causeTwin s (
          let p := s.sendPush (fld (s.x a).toNat 5 0) 0 0 0 (taskRecord (s.x b).toNat (s.x (b + 1)).toNat (s.x (b + 2)).toNat true
            (physOf s.cur.core) s.cur.slot 0 (fld (s.x a).toNat 47 32) (fld (s.x a).toNat 31 16))
          .next (p.1.holdFor (.push p.2)))) := by
  show execTqpush d a b s = _
  rw [execTqpush, onStreams_of_admits hs, notCompat, check_of_true _ _ _ _ (by simp [hc]), check_of_true _ _ _ _ (decide_eq_true hb),
    withReads_of_admits hs, hold]

/-- R189 and R487: TQPUSH ends with the answer that is back. -/
theorem exec_tqpush_of_answer {since id : Nat} {v : Option Word} {p : TaskPush} {full : Bool}
    (hold : s.holding = some ⟨since, .push id, v⟩) (hp : s.pushes.get id = some p) (hr : p.refused = some full) (back : p.back ≤ s.pcc) :
    exec (.tqpush d a b h) s = .next (({ s with pushes := s.pushes.del id }).finishWrite d 1 fun _ => if full then 1 else 0) := by
  obtain ⟨focus, lane, die, queue, record, back', order, refused, sent⟩ := p
  obtain rfl : refused = some full := hr
  show execTqpush d a b s = _
  rw [execTqpush, onStreams_of_admits hs, notCompat, check_of_true _ _ _ _ (by simp [hc]), check_of_true _ _ _ _ (decide_eq_true hb),
    withReads_of_admits hs, hold]
  dsimp only
  rw [hp]
  exact if_pos back

end

/-- The push that is sent stands in the table under the next free number, its answer no earlier than 8 cycles later (R172, R487). -/
theorem sendPush_spec (s : State) (queue lane delay : Nat) (record : BitVec 256) :
    (s.sendPush queue lane 0 delay record).2 = s.nextId ∧ (s.sendPush queue lane 0 delay record).1.scalar = s.scalar ∧
    ∃ p, (s.sendPush queue lane 0 delay record).1.pushes.get s.nextId = some p ∧ p.focus = s.cur ∧ p.refused = none ∧
      p.back = s.pcc + 8 ∧ p.record = record :=
  ⟨rfl, rfl, _, FMap.get_set_same _ _ _, rfl, rfl, rfl, rfl⟩

/-! ### LAUNCH (R173) -/

theorem exec_launch_of_result {since id : Nat} {r : Word} (hs : Admits s true false false [] [a, b])
    (hold : s.holding = some ⟨since, .packet id, some r⟩) : exec (.launch d a b h) s = .next (s.finishWrite d 1 fun _ => r) := by
  show execLaunch d a b s = _
  rw [execLaunch, onStreams_of_admits hs, withReads_of_admits hs, hold]

theorem exec_launch_of_queue (hs : Admits s true false false [] [a, b]) (hold : s.holding = none) (hq : 64 ≤ (s.x b).toNat) :
    exec (.launch d a b h) s = .next (s.raiseTrap { cause := 0x02 }) := by
  show execLaunch d a b s = _
  rw [execLaunch, onStreams_of_admits hs, withReads_of_admits hs, hold]
  exact check_of_false _ _ _ _ (decide_eq_false (Nat.not_lt.mpr hq))

end

/-! ### A packet that joins its queue (R173, R345) -/

section
variable {s : State} {q : Nat} {p : BitVec 1024}

theorem State.lqueue_modQueue_same (s : State) (q : Nat) (f : LQueue → LQueue) : (s.modQueue q f).lqueue q = f (s.lqueue q) :=
  FMap.getD_set_same _ _ _ _

/-- The copy of a head is no change of the queue's index. -/
theorem State.widx_pokeQueue (s : State) (q : Nat) : ((s.pokeQueue q).lqueue q).widx = (s.lqueue q).widx := by
  unfold State.pokeQueue
  dsimp only
  split
  · have copying := congrArg LQueue.widx (State.lqueue_modQueue_same s q fun x => { x with copying := true })
    exact copying
  · rfl

theorem versionAccepted_iff (p : BitVec 1024) : versionAccepted p = true ↔ p.toNat % 2 ^ 16 = 0x0100 := by
  have version : pktVersion p = p.toNat % 2 ^ 16 := by
    show p.toNat / 2 ^ 0 % 2 ^ 16 = _
    rw [Nat.pow_zero, Nat.div_one]
  rw [versionAccepted, version, decide_eq_true_iff]

/-- The queue takes packets of the core's context, and the packet is of that context. -/
theorem appendPacket_of_queue (he : (s.lqueue q).enable = true) (hd : (s.lqueue q).devfed = true) (hx : (s.lqueue q).ctx = s.here.job.ctx)
    (hp : p.toNat / 2 ^ 16 % 256 = s.here.job.ctx) :
    s.appendPacket q p =
      if !versionAccepted p then (s, some 2)
      else if (s.lqueue q).count = 2 ^ (s.lqueue q).log2 then (s, some 1)
      else (((s.deviceWrite ((s.lqueue q).slot (s.lqueue q).widx) 128 p.toNat).modQueue q fun x => { x with widx := x.widx + 1 }).pokeQueue q,
        some 0) := by
  have ctx : pkt p 0x02 0x02 = s.here.job.ctx := hp
  unfold State.appendPacket
  dsimp only
  rw [he, hd, hx, ctx, if_neg (by simp)]
  rfl

/-- A packet that joins its queue stands at the queue's write index, which moves on. -/
theorem appended_spec {pa : Nat} (home : s.noHome pa = none) :
    let t := ((s.deviceWrite pa 128 p.toNat).modQueue q fun x => { x with widx := x.widx + 1 }).pokeQueue q
    (t.lqueue q).widx = (s.lqueue q).widx + 1 ∧ (∀ i < 128, Memory.read t.mem (pa + i) = p.extractLsb' (8 * i) 8) ∧
      ∀ k, (k < pa ∨ pa + 128 ≤ k) → Memory.read t.mem k = Memory.read s.mem k := by
  intro t
  have mem : t.mem = s.mem.writeN pa 128 p.toNat := by
    rw [(State.pokeQueue_mem_objects _ q).1, (State.modQueue_mem_objects _ q _).1, State.deviceWrite_mem, home]
    rfl
  have queue : (s.deviceWrite pa 128 p.toNat).lqueue q = s.lqueue q := by rw [State.lqueue, State.deviceWrite_hub, State.lqueue]
  rw [mem]
  refine ⟨?_, fun i hi => ?_, fun k hk => Memory.read_writeN_outside _ _ _ _ _ hk⟩
  · rw [State.widx_pokeQueue, State.lqueue_modQueue_same, queue]
  · rw [Memory.read_writeN_inside _ _ _ _ _ hi, byte_eq_extract]

end

/-- Settles O32: TQPUSH sends what `sendPush_spec` says, and a packet joins its queue as `appended_spec` says. -/
theorem queueForms : Obligations.QueueForms := by
  intro d a b h s
  refine ⟨exec_tqpush_of_last_registers, fun hs hc hb => ⟨fun hold bad => ?_, fun hold ok twin => ?_, ?_⟩,
    fun hs => ⟨fun since id r hold => ⟨_, exec_launch_of_result hs hold, scalarWrote_finishWrite _ _ _ _⟩, exec_launch_of_queue hs⟩, ?_⟩
  · exact (exec_tqpush_of_record hs hc hb hold).trans (check_of_false _ _ _ _ bad)
  · have agree : (s.scalar.agreeOn fun r => (r.get a, r.get b, r.get (b + 1), r.get (b + 2))) = true := by
      refine Scalar.agreeOn_of_twin fun r hr => ?_
      obtain ⟨ha, hb0, hb1, hb2⟩ := twin r hr
      rw [ha, hb0, hb1, hb2]
      rfl
    obtain ⟨number, scalar, p, sent, focus, refused, back, record⟩ := sendPush_spec s (fld (s.x a).toNat 5 0) 0 0
      (taskRecord (s.x b).toNat (s.x (b + 1)).toNat (s.x (b + 2)).toNat true (physOf s.cur.core) s.cur.slot 0 (fld (s.x a).toNat 47 32)
        (fld (s.x a).toNat 31 16))
    refine ⟨_, (exec_tqpush_of_record hs hc hb hold).trans ((check_of_true _ _ _ _ ok).trans (check_of_true _ _ _ _ agree)), ?_⟩
    rw [number]
    dsimp only
    rw [State.scalar_holdFor, State.holdFor_pushes, scalar]
    exact ⟨rfl, rfl, p, sent, focus, refused, back.ge, record⟩
  · intro since v id p full hold hp hr back
    exact ⟨_, exec_tqpush_of_answer hs hc hb hold hp hr back, scalarWrote_finishWrite _ _ _ _⟩
  · intro q p lq he hd hx hp
    have append := appendPacket_of_queue he hd hx hp
    refine ⟨fun hv => ?_, fun hv hfull => ?_, fun hv hroom home => ⟨_, ?_, appended_spec home⟩⟩
    · rw [append, if_pos]
      rw [Bool.eq_false_iff.mpr fun ok => hv ((versionAccepted_iff p).mp ok)]
      rfl
    · rw [append, (versionAccepted_iff p).mpr hv]
      exact if_pos hfull
    · rw [append, (versionAccepted_iff p).mpr hv]
      exact if_neg hroom

end Sys2Proof.Machine

/-! ## O35: TRAP, the forms of the control die and ICINV (R184-R188, R398, R399, R402) -/

namespace Sys2Proof.Machine

/-! ### What a wait leaves alone -/

/-- The start of a wait changes no core's memory system. -/
theorem State.core_holdFor_mem (s : State) (w : Wait) (k : Nat) : ((s.holdFor w).core k).mem = (s.core k).mem := by
  have kept (f : Core → Core) (hf : ∀ c, (f c).mem = c.mem) : ((s.modHere f).core k).mem = (s.core k).mem := by
    by_cases hk : k = s.cur.core
    · rw [hk]
      exact (congrArg Core.mem (State.core_modCore_same s s.cur.core f)).trans (hf _)
    · exact congrArg Core.mem (State.core_modCore_other s s.cur.core k f hk)
  unfold State.holdFor
  dsimp only
  split
  · exact kept _ fun _ => rfl
  · rfl
  · exact kept _ fun _ => rfl

/-- The start of a wait changes no translation that a control-die core holds. -/
theorem State.ctl_holdFor_tlb (s : State) (w : Wait) (k : Nat) : ((s.holdFor w).ctl k).tlb = (s.ctl k).tlb := by
  unfold State.holdFor
  dsimp only
  split
  · rfl
  · by_cases hk : s.cur.core % 16 = k % 16
    · simp [State.ctl, State.modCtl, hk]
    · simp [State.ctl, State.modCtl, hk]
  · rfl

/-! ### The forms of the control die -/

section
variable {d a : BitVec 5} {c : BitVec 8} {ts : BitVec 3} {w : BitVec 4} {s : State}

theorem exec_trap_of_admits (hs : Admits s true false true [] []) :
    exec (.trap c) s = .next (s.raiseTrap { cause := 0x10, detail := c.toNat }) := by
  show execTrap c s = _
  rw [execTrap, onStreams_of_admits hs]
  rfl

/-- R45 and R77: a form of the control die is an illegal encoding on a group. -/
theorem onStreams_control_of_group (hg : s.cur.stream = .group) (k : Out) :
    onStreams false false true s k = .next (s.raiseTrap { cause := 0x01 }) :=
  check_of_false _ _ _ _ (by rw [State.streamIn, hg])

theorem exec_control_form_of_group (hg : s.cur.stream = .group) :
    ∀ i ∈ [Instr.eret, .halt, .tlbinv a ts, .moult a, .qread d w], exec i s = .next (s.raiseTrap { cause := 0x01 }) := by
  simp only [List.forall_mem_cons, List.not_mem_nil, false_imp_iff, implies_true, and_true]
  exact ⟨onStreams_control_of_group hg _, onStreams_control_of_group hg _, onStreams_control_of_group hg _, onStreams_control_of_group hg _,
    onStreams_control_of_group hg _⟩

theorem stream_of_admits_control {fields reads : List (BitVec 5)} (h : Admits s false false true fields reads) : s.cur.stream = .control := by
  obtain ⟨⟨-, hg⟩ | ⟨-, he⟩ | ⟨hc, -⟩, -⟩ := h
  · cases hg
  · cases he
  · exact hc

theorem State.scalar_of_control (hc : s.cur.stream = .control) : s.scalar = (s.ctl s.cur.core).sc := by rw [State.scalar, hc]

theorem exec_eret_of_admits (hs : Admits s false false true [] []) :
    exec .eret s = check (s.ctl s.cur.core).outstanding causeOperand s (.next s.returnFromTrap) := by
  show execEret s = _
  rw [execEret, onStreams_of_admits hs]

/-- R185: HALT stops the core's issue, with its stream at pc + 4. -/
theorem completes_halt (hs : Admits s false false true [] []) :
    Completes .halt s fun t => (t.ctl s.cur.core).halted = true ∧ t.scalar.pc = s.scalar.pc + 4 ∧ t.scalar.rf = s.scalar.rf ∧ t.mem = s.mem := by
  have control := stream_of_admits_control hs
  let t := (s.finish id).modCtl s.cur.core fun c => { c with halted := true }
  have cur : t.cur = s.cur := State.finish_cur s id
  have ctl : t.ctl s.cur.core = { (s.finish id).ctl s.cur.core with halted := true } := State.ctl_modCtl_same _ _ _
  have scalar : t.scalar = (s.finish id).scalar := by
    rw [State.scalar_of_control (by rw [cur, control]), State.scalar_of_control (by rw [State.finish_cur, control]), cur, State.finish_cur, ctl]
  refine ⟨t, ?_, by rw [ctl], ?_, ?_, State.finish_mem s id⟩
  · show execHalt s = _
    rw [execHalt, onStreams_of_admits hs]
  · rw [scalar, State.scalar_finish]
    rfl
  · rw [scalar, State.scalar_finish]
    rfl

theorem exec_qread_of_admits (hs : Admits s false false true [] []) :
    exec (.qread d w) s = .next (s.finishWrite d 21 fun _ =>
      BitVec.ofNat 64 (s.quiescence w.toNat % 2 ^ 32 + if s.qwin = w.toNat then 2 ^ 63 else 0)) := by
  show execQread d w s = _
  rw [execQread, onStreams_of_admits hs]
  rfl

/-! ### MOULT (R187, R402) -/

theorem exec_moult_of_misaligned (hs : Admits s false false true [] [a]) (ha : (s.x a).toNat % 65536 ≠ 0) :
    exec (.moult a) s = .next (s.raiseTrap { cause := 0x08, addr := s.x a }) := by
  show execMoult a s = _
  rw [execMoult, onStreams_of_admits hs, withReads_of_admits hs]
  exact if_pos ha

theorem completes_moult (hs : Admits s false false true [] [a]) (ha : (s.x a).toNat % 65536 = 0) (room : s.moult.pages.length < 8192)
    (free : s.tagged ((s.qwin + 1) % 16) = 0) :
    Completes (.moult a) s fun t => t.moult.pages = s.moult.pages ++ [((s.x a).toNat, s.qwin)] ∧ t.qwin = (s.qwin + 1) % 16 ∧
      t.scalar.pc = s.scalar.pc + 4 ∧ t.scalar.rf = s.scalar.rf ∧ t.mem = s.mem ∧ t.accs = s.accs := by
  let s1 : State :=
    { s with moult := { s.moult with pages := s.moult.pages ++ [((s.x a).toNat, s.qwin)] }, qwin := (s.qwin + 1) % 16 }
  refine ⟨s1.finish id, ?_, ?_⟩
  · show execMoult a s = _
    rw [execMoult, onStreams_of_admits hs, withReads_of_admits hs]
    dsimp only
    rw [if_neg (not_not_intro ha), if_neg (by simp [free, room])]
  · dsimp only
    rw [State.scalar_finish, State.finish_moult, State.finish_qwin, State.finish_mem, State.finish_accs]
    exact ⟨rfl, rfl, rfl, rfl, rfl, rfl⟩

/-! ### TLBINV (R398, R399) -/

/-- What holds of an empty core and of each core that a change of every core leaves holds of every core afterwards. -/
theorem State.core_of_mapVal {t : State} {m : FMap Core} {f : Nat → Core → Core} (h : t.cores = m.mapVal f) {P : Core → Prop} {k : Nat}
    (empty : P Core.empty) (changed : ∀ c, P (f k c)) : P (t.core k) := by
  rw [State.core, h, FMap.getD, FMap.get_mapVal]
  cases m.get k with
  | none => exact empty
  | some c => exact changed c

/-- What a change of every core leaves of each core alone is as it was. -/
theorem State.core_mapVal_congr {s t : State} {f : Nat → Core → Core} (h : t.cores = s.cores.mapVal f) {α : Type} {g : Core → α} (k : Nat)
    (kept : ∀ c, g (f k c) = g c) : g (t.core k) = g (s.core k) := by
  rw [State.core, State.core, h, FMap.getD, FMap.getD, FMap.get_mapVal]
  cases s.cores.get k with
  | none => rfl
  | some c => exact kept c

/-- No translation that a shootdown covers stays in a core of the dies that it reaches. -/
theorem shoot_core_tlb {ctx va : Nat} {all ctl : Bool} {p : Nat → Bool} {k : Nat} (hp : p (dieOf k) = true) :
    ∀ e ∈ ((s.shoot ctx va all p ctl).core k).mem.tlb, shotEntry ctx va all e = false := by
  have cores : (s.shoot ctx va all p ctl).cores = (s.shootLeases ctx va all p).cores.mapVal fun k c =>
    if p (dieOf k) then { c with mem := { c.mem with tlb := c.mem.tlb.filter fun e => !shotEntry ctx va all e } } else c := rfl
  refine State.core_of_mapVal cores (P := fun c => ∀ e ∈ c.mem.tlb, shotEntry ctx va all e = false) (fun e he => nomatch he)
    fun c e he => ?_
  rw [if_pos hp] at he
  simpa using (List.mem_filter.mp he).2

theorem shoot_ctl (s : State) (ctx va : Nat) (all ctl : Bool) (p : Nat → Bool) (k : Nat) :
    (s.shoot ctx va all p ctl).ctl k =
      if ctl then { s.ctl k with tlb := (s.ctl k).tlb.filter fun e => !shotEntry ctx va all e } else s.ctl k := by
  cases ctl
  · rfl
  · exact Vector.getElem_map _ _

/-- A shootdown that awaits the walks it has found, and the form that waits for its end. -/
def State.awaitShoot (s : State) (ws : List Nat) : State :=
  ({ s with shoots := s.shoots.set s.nextId ⟨ws, 0⟩, nextId := s.nextId + 1 }).holdFor (.shoot s.nextId)

theorem awaitShoot_keeps (s : State) (ws : List Nat) :
    (∀ k, ((s.awaitShoot ws).core k).mem = (s.core k).mem) ∧ (∀ k, ((s.awaitShoot ws).ctl k).tlb = (s.ctl k).tlb) ∧
    (s.awaitShoot ws).mem = s.mem ∧ (s.awaitShoot ws).scalar = s.scalar ∧ (s.awaitShoot ws).shoots.get s.nextId = some ⟨ws, 0⟩ := by
  refine ⟨fun k => State.core_holdFor_mem _ _ k, fun k => State.ctl_holdFor_tlb _ _ k, State.holdFor_mem _ _, State.scalar_holdFor _ _, ?_⟩
  rw [State.awaitShoot, State.holdFor_shoots, FMap.get_set_same]

theorem exec_tlbinv_of_scope (hs : Admits s false false true [] [a]) (hts : ts.toNat ≤ 2) (hold : s.holding = none)
    (hx : (s.x a).getLsbD 63 = false) :
    let v := (s.x a).toNat
    let ctx := v / 2 ^ 56 % 64
    let p := s.shotDies ts.toNat ctx
    exec (.tlbinv a ts) s = .next ((s.shoot ctx (v % 2 ^ 56) ((s.x a).getLsbD 62) p (decide (ts.toNat ≠ 1))).awaitShoot
      ((s.walks.filter fun w => decide (w.2.ctx = ctx) && p w.2.die && w.2.begun).map (·.1))) := by
  have page : fld (s.x a).toNat 55 0 = (s.x a).toNat % 2 ^ 56 := by
    show (s.x a).toNat / 2 ^ 0 % 2 ^ 56 = _
    rw [Nat.pow_zero, Nat.div_one]
  have reserved : (!(s.x a).toNat.testBit 63) = true := by rw [show (s.x a).toNat.testBit 63 = false from hx]; rfl
  show execTlbinv a ts s = _
  rw [execTlbinv, onStreams_of_admits hs, check_of_true _ _ _ _ (decide_eq_true hts), withReads_of_admits hs]
  dsimp only
  rw [hold, page]
  exact check_of_true _ _ _ _ reserved

/-- R398 and R399: TLBINV drops what it covers at once, and awaits the walks that it has found. -/
theorem completes_tlbinv (hs : Admits s false false true [] [a]) (hts : ts.toNat ≤ 2) (hold : s.holding = none)
    (hx : (s.x a).getLsbD 63 = false) :
    let ctx := (s.x a).toNat / 2 ^ 56 % 64
    let va := (s.x a).toNat % 2 ^ 56
    let all := (s.x a).getLsbD 62
    Completes (.tlbinv a ts) s fun t =>
      (∀ k e, k ∈ t.cores.map Prod.fst → s.shotDies ts.toNat ctx (dieOf k) = true → e ∈ (t.core k).mem.tlb → shotEntry ctx va all e = false) ∧
      (ts ≠ 1 → ∀ k e, e ∈ (t.ctl k).tlb → shotEntry ctx va all e = false) ∧
      t.mem = s.mem ∧ t.scalar.rf = s.scalar.rf ∧ ∃ sd, t.shoots.get s.nextId = some sd := by
  intro ctx va all
  refine ⟨_, exec_tlbinv_of_scope hs hts hold hx, ?_⟩
  let u := s.shoot ctx va all (s.shotDies ts.toNat ctx) (decide (ts.toNat ≠ 1))
  obtain ⟨core, ctl, mem, scalar, shoots⟩ := awaitShoot_keeps u
    ((s.walks.filter fun w => decide (w.2.ctx = ctx) && s.shotDies ts.toNat ctx w.2.die && w.2.begun).map (·.1))
  have uScalar : u.scalar.rf = s.scalar.rf := by
    have control := stream_of_admits_control hs
    rw [State.scalar_of_control (s := u) control, State.scalar_of_control control]
    show (u.ctl s.cur.core).sc.rf = _
    rw [shoot_ctl]
    split <;> rfl
  refine ⟨fun k e _ hp he => ?_, fun h1 k e he => ?_, mem, by rw [scalar, uScalar], _, shoots⟩
  · rw [core] at he
    exact shoot_core_tlb hp e he
  · have scope : decide (ts.toNat ≠ 1) = true := decide_eq_true fun h => h1 (BitVec.eq_of_toNat_eq h)
    rw [ctl, shoot_ctl, if_pos scope] at he
    simpa using (List.mem_filter.mp he).2

/-- A TLBINV whose shootdown is over ends. -/
theorem exec_tlbinv_of_over {since n : Nat} {v : Option Word} (hs : Admits s false false true [] [a]) (hts : ts.toNat ≤ 2)
    (hold : s.holding = some ⟨since, .shoot n, v⟩) (ended : s.shoots.get n = none) : exec (.tlbinv a ts) s = .next (s.finish id) := by
  show execTlbinv a ts s = _
  rw [execTlbinv, onStreams_of_admits hs, check_of_true _ _ _ _ (decide_eq_true hts), withReads_of_admits hs]
  dsimp only
  rw [hold]
  dsimp only
  rw [ended]

/-! ### ICINV (R186) -/

/-- On the control die ICINV reaches every core (R186). -/
theorem icinvScope_of_admits {sc : BitVec 2} (hsc : s.cur.stream = .control → sc = 3) :
    (decide (s.cur.stream ≠ .control) || decide (sc = 3)) = true := by
  by_cases hc : s.cur.stream = .control
  · simp [hsc hc]
  · simp [hc]

theorem exec_icinv_of_group {sc : BitVec 2} (hs : Admits s true false true [] [a]) (hg : s.cur.stream = .group) (hold : s.holding = none) :
    exec (.icinv a sc) s =
      .next ((s.dropSector (some s.here.job.ctx) (s.x a).toNat (inScope sc.toNat s.cur.core)).tick.holdFor
        (.until (s.pcc + 1 + Config.freeDelay s.free % icinvBound sc.toNat))) := by
  have other : s.cur.stream ≠ .control := by simp [hg]
  show execIcinv a sc s = _
  rw [execIcinv, onStreams_of_admits hs, check_of_true _ _ _ _ (icinvScope_of_admits fun hc => absurd hc other), withReads_of_admits hs, hold,
    if_neg other]

theorem exec_icinv_of_due {sc : BitVec 2} {since u : Nat} {v : Option Word} (hs : Admits s true false true [] [a])
    (hsc : s.cur.stream = .control → sc = 3) (hold : s.holding = some ⟨since, .until u, v⟩) (due : u ≤ s.pcc) :
    exec (.icinv a sc) s = .next (s.finish id) := by
  show execIcinv a sc s = _
  rw [execIcinv, onStreams_of_admits hs, check_of_true _ _ _ _ (icinvScope_of_admits hsc), withReads_of_admits hs, hold]
  exact if_pos due

/-- Whether an entry of an instruction cache is the sector of an address in a context, or in every one. -/
def sectorOf (ctx : Option Nat) (va key : Nat) : Bool := decide (key % pow2 56 = va / 128) && ctx.all fun x => decide (key / pow2 56 = x)

theorem dropSector_cores (s : State) (ctx : Option Nat) (va : Nat) (p : Nat → Bool) :
    (s.dropSector ctx va p).cores = s.cores.mapVal fun k c =>
      if p k then { c with mem := { c.mem with icache := c.mem.icache.filter fun e => !sectorOf ctx va e.1 } } else c := rfl

/-- The sector of an address is in no instruction cache of the cores from which it is dropped. -/
theorem dropSector_icache {ctx va : Nat} {p : Nat → Bool} {k : Nat} (hp : p k = true) :
    ∀ e ∈ ((s.dropSector (some ctx) va p).core k).mem.icache, ¬ (e.1 % 2 ^ 56 = va / 128 ∧ e.1 / 2 ^ 56 = ctx) := by
  refine State.core_of_mapVal (dropSector_cores s _ va p) (P := fun c => ∀ e ∈ c.mem.icache, ¬ (e.1 % 2 ^ 56 = va / 128 ∧ e.1 / 2 ^ 56 = ctx))
    (fun e he => nomatch he) fun c e he => ?_
  rw [if_pos hp] at he
  rintro ⟨sector, context⟩
  have gone : sectorOf (some ctx) va e.1 = true := Bool.and_eq_true_iff.mpr ⟨decide_eq_true sector, decide_eq_true context⟩
  have kept := (List.mem_filter.mp he).2
  rw [gone] at kept
  cases kept

theorem dropSector_groups (s : State) (ctx : Option Nat) (va : Nat) (p : Nat → Bool) (k : Nat) :
    ((s.dropSector ctx va p).core k).groups = (s.core k).groups :=
  State.core_mapVal_congr (dropSector_cores s ctx va p) (g := Core.groups) k fun c => by split <;> rfl

theorem completes_icinv_of_group {sc : BitVec 2} (hs : Admits s true false true [] [a]) (hg : s.cur.stream = .group) (hold : s.holding = none) :
    Completes (.icinv a sc) s fun t =>
      (∀ k e, k ∈ t.cores.map Prod.fst → inScope sc.toNat s.cur.core k = true → e ∈ (t.core k).mem.icache →
        ¬ (e.1 % 2 ^ 56 = (s.x a).toNat / 128 ∧ e.1 / 2 ^ 56 = s.here.job.ctx)) ∧ t.mem = s.mem ∧ t.scalar.rf = s.scalar.rf := by
  refine ⟨_, exec_icinv_of_group hs hg hold, fun k e _ hp he => ?_, ?_, ?_⟩
  · rw [State.core_holdFor_mem] at he
    exact dropSector_icache hp e he
  · rw [State.holdFor_mem]
    rfl
  · rw [State.scalar_holdFor, State.scalar_of_group hg]
    refine (congrArg Scalar.rf (State.scalar_of_group (s := (s.dropSector _ _ _).tick) hg)).trans ?_
    exact congrArg (fun g : FMap Group => (g.getD s.cur.slot Group.empty).sc.rf) (dropSector_groups s _ _ _ s.cur.core)

end

/-- Settles O35: what TLBINV and ICINV drop is in no table afterwards (`shoot_core_tlb`, `shoot_ctl`, `dropSector_icache`). -/
theorem systemForms : Obligations.SystemForms := by
  intro d a c sc ts w s
  refine ⟨exec_trap_of_admits, exec_control_form_of_group, fun hs => ⟨fun out => ?_, fun out => ?_, completes_halt hs, ?_⟩,
    fun hs => ⟨exec_moult_of_misaligned hs, completes_moult hs, completes_tlbinv hs, fun since n v hts hold ended =>
      ⟨_, exec_tlbinv_of_over hs hts hold ended, finished_finish s⟩⟩,
    fun hs hsc => ⟨completes_icinv_of_group hs, fun since u v hold due => ⟨_, exec_icinv_of_due hs hsc hold due, finished_finish s⟩⟩⟩
  · exact ⟨_, (exec_eret_of_admits hs).trans (check_of_true _ _ _ _ out), State.ctl_modCtl_same _ _ _, rfl⟩
  · exact (exec_eret_of_admits hs).trans (check_of_false _ _ _ _ out)
  · exact ⟨_, exec_qread_of_admits hs, scalarWrote_finishWrite _ _ _ _⟩

end Sys2Proof.Machine

/-! ## O45: an arrival message that does not agree with its launch (R174, R341) -/

namespace Sys2Proof.Machine

/-- The group waits in a level-4 boundary, and nothing has ended its wait. -/
def Group.waitsAtLevel4 (g : Group) : Bool :=
  g.hold.any fun h => h.granted.isNone && (decide (h.wait = .boundary 4) || decide (h.wait = .boundary 12))

/-- Where no group of a launch waits in its level-4 boundary, the boundary's failure is no change of a core. -/
theorem State.cores_failLevel4_of_none {s : State} {launch : Nat} (t : TrapArgs)
    (h : ∀ k ∈ s.coresOf launch, ((s.core k).groups.any fun g => g.2.waitsAtLevel4) = false) :
    (s.failLevel4 launch t).cores = s.cores := by
  have unchanged (ks : List Nat) (hks : ∀ k ∈ ks, ((s.core k).groups.any fun g => g.2.waitsAtLevel4) = false) :
      ks.foldl (fun (u : State) k => if (u.core k).groups.any fun g => g.2.waitsAtLevel4 then u.failArrival k t else u) s = s := by
    induction ks with
    | nil => rfl
    | cons k ks ih =>
      obtain ⟨hk, rest⟩ := List.forall_mem_cons.mp hks
      rw [List.foldl_cons, hk, if_neg (by decide)]
      exact ih rest
  have cores := congrArg State.cores (unchanged _ h)
  exact cores

/-- R341: a message that does not agree with its launch fails the launch's level-4 boundary, and is answered MISMATCH. -/
theorem exec_fabricArrivalMessage_of_mismatch {msg : FabricArrival} {launch : Nat} {l : Launch} {s : State} (hm : msg.answer = none)
    (hl : s.fabLaunch msg.fabid = some (launch, l)) (hn : ¬(msg.fpkgs = pktFPkgs l.packet ∧ l.info.members[msg.member]? = some msg.coord)) :
    exec (.fabricArrivalMessage msg) s = .next ((s.failLevel4 launch { cause := causePhase }).answerArrival msg .mismatch) := by
  show execFabricArrivalMessage msg s = _
  rw [execFabricArrivalMessage, hm]
  dsimp only
  rw [hl]
  dsimp only
  rw [if_neg hn]

/-- A launch over two packages. -/
def launchOverTwo : Launch := { Launch.none with packet := 2 <<< (8 * 0x6A) }

/-- A message to it that names another number of packages. -/
def messageOfOne : FabricArrival := { fabid := 0, fpkgs := 1, member := 0, coord := 0, ph4 := 0, answer := none }

/-- A machine of one core, in whose table of groups two entries have the key 0: the first, which is the group in slot 0, has a level-4
boundary behind it, and the second waits in one of level 3. -/
def twoEntriesOfSlot : State :=
  let passed : Group := { Group.empty with status := .active, hold := some ⟨0, .boundary 4, some 0⟩ }
  let waiting : Group := { Group.empty with status := .active, hold := some ⟨0, .boundary 3, none⟩ }
  { State.reset with
    cores := [(0, { Core.empty with groups := [(0, passed), (0, waiting)], job := { JobInfo.blank with launch := 0 } })]
    hub := { State.reset.hub with launches := [(0, launchOverTwo)] } }

/-- Neither entry waits in a level-4 boundary, so the message suspends no group. -/
theorem status_twoEntriesOfSlot :
    (((twoEntriesOfSlot.failLevel4 0 { cause := causePhase }).core 0).group 0).status = .active := by
  have cores : (twoEntriesOfSlot.failLevel4 0 { cause := causePhase }).cores = twoEntriesOfSlot.cores :=
    State.cores_failLevel4_of_none _ (by decide +kernel)
  rw [State.core, cores]
  rfl

/-- Refutes O45: its clause of the message that does not agree asks that slot 0 be the one slot that the core's table shows in a
boundary, that the group in it have a wait at level 4, and not that the table have one entry for each slot. In `twoEntriesOfSlot` the
first is so by the second entry and the second by the first one, whose wait is over: no group waits at level 4, and the group in
slot 0 does not trap. -/
theorem not_phaseEvents : ¬ Obligations.PhaseEvents := by
  intro h
  obtain ⟨-, -, -, -, mismatch, -⟩ := h 0 0 0 0 0 launchOverTwo messageOfOne twoEntriesOfSlot
  have launch : twoEntriesOfSlot.fabLaunch messageOfOne.fabid = some (0, launchOverTwo) := by decide +kernel
  have disagrees : ¬(messageOfOne.fpkgs = pktFPkgs launchOverTwo.packet ∧
      launchOverTwo.info.members[messageOfOne.member]? = some messageOfOne.coord) := by decide +kernel
  obtain ⟨t, ht, -, trapped, -⟩ := mismatch rfl launch disagrees 0 (by decide +kernel) (by decide +kernel) (by decide +kernel) (by decide +kernel)
  rw [exec_fabricArrivalMessage_of_mismatch rfl launch disagrees] at ht
  injection ht with ht
  have active : ((t.core 0).group 0).status = .active := by
    rw [← ht]
    exact status_twoEntriesOfSlot
  rw [active] at trapped
  cases trapped

end Sys2Proof.Machine
